-- ==== Sys2Proof/Word.lean ====
section
/-! DEFINITION. The word types of the block (R4: little-endian, bit 0 least significant) and the two containers that State is made of. -/

namespace Sys2Proof

/-- One byte. -/
abbrev Byte := BitVec 8
/-- A 32-bit register or descriptor word. -/
abbrev W32 := BitVec 32
/-- A 64-bit value (an address, a DTB instant). -/
abbrev W64 := BitVec 64

/-- A table of numbered things, in rising key order: an unlisted key holds the default its reader names. -/
structure Tbl (α : Type) where
  cells : List (Nat × α) := []
deriving DecidableEq, Repr

/-- Bytes of a memory that something has written, in strictly rising address order. An unlisted address holds no value. -/
structure Mem where
  cells : List (Nat × Byte) := []
deriving DecidableEq, Repr

end Sys2Proof
end

