-- ==== Sys2Proof/Syntax.lean ====
section
/-! DEFINITION. The commands of the block: one constructor of `Instr` for each row of spec/opcode_table.json, with its operands.
Unit numbers are `Fin`; fields of registers, descriptors and frond commands are bit vectors of the width the spec gives.
An operand `now` is the DTB instant at which an event happens. -/

namespace Sys2Proof

/-- An output, compositor, timing generator or transmit port (0 to 3). -/
abbrev OutId := Fin 4
/-- A logical frond (R12). -/
abbrev FrondId := Fin 256
/-- A submission or completion ring (R374, R381). -/
abbrev RingId := Fin 64

/-- Who issues a register access (R477, R483). -/
inductive Requester where
  | host
  | supervisor
deriving DecidableEq, Repr

/-- A memory space that a descriptor or transfer names. -/
inductive Space where
  | hbm
  | host
  | remote (dev : Fin 4)
deriving DecidableEq, Repr

/-- The host descriptor's ring, its index and its header (Table 14.4). -/
structure DescHdr where
  sq : RingId
  idx : W32
  barrier : Bool := false
  irq : Bool := false
  /-- FLAGS[2], the source space of FRAME_SUBMIT: false host, true HBM. -/
  srcHbm : Bool := false
  ctx : BitVec 14
deriving DecidableEq, Repr

/-- One side of a transfer: the walk of R263. -/
structure Walk where
  addr : W64
  run : W32
  count1 : BitVec 16
  count2 : BitVec 16
  count3 : BitVec 16
  stride1 : W32
  stride2 : W32
  stride3 : W32
deriving DecidableEq, Repr

/-- The body of FRAME_SUBMIT (Table 14.5). -/
structure FrameBody where
  frame : W32
  addr0 : W64
  addr1 : W64
  addr2 : W64
  pitch0 : W32
  pitch1 : W32
  pitch2 : W32
  run0 : W32
  runC : W32
  lines0 : BitVec 16
  linesC : BitVec 16
  ext0 : BitVec 16
  ext1 : BitVec 16
  ext2 : BitVec 16
  ext3 : BitVec 16
deriving DecidableEq, Repr

/-- The body of JOB_RUN (Table 14.5). -/
structure JobBody where
  listEn : Bool
  /-- LIST_SPACE: false HBM, true host memory. -/
  listHost : Bool
  list : W64
  count : W32
  ext0 : BitVec 16
  ext1 : BitVec 16
  ext2 : BitVec 16
  ext3 : BitVec 16
deriving DecidableEq, Repr

/-- The body of WRITEBACK_SET (Table 14.5). -/
structure WritebackBody where
  output : OutId
  point : Fin 3
  slot : Byte
  /-- SPACE: false HBM, true host memory. -/
  host : Bool
  buffers : Fin 5
  base : W64
  pitch : W32
  bufStride : W32
deriving DecidableEq, Repr

/-- The body of PANEL_WEAR_SYNC (Table 14.5), less its operation. -/
structure WearBody where
  output : OutId
  host : Bool
  buffer : W64
  bufBytes : W32
deriving DecidableEq, Repr

/-- The common header of a frond command (Table 04.4), less opcode and flags. -/
structure CmdHdr where
  sb : Bool := false
  wen : Bool := false
  sen : Bool := false
  wsem : BitVec 6 := 0
  ssem : BitVec 6 := 0
  wcnt : BitVec 4 := 0
deriving DecidableEq, Repr

/-- The VU form of W1 (R93). -/
structure VuForm where
  srca : BitVec 7
  srcb : BitVec 7
  dst : BitVec 7
  ifmt : BitVec 4
  ofmt : BitVec 4
  rnd : BitVec 3
deriving DecidableEq, Repr

/-- The Geometry form of W2 (R93); counts and steps are stored minus 1, as encoded. -/
structure Geometry where
  kw : BitVec 3
  kh : BitVec 3
  sx : BitVec 2
  sy : BitVec 2
  dx : BitVec 8
  dy : BitVec 8
  pad : BitVec 2
deriving DecidableEq, Repr

/-- Operands of MXU_PASS (Table 04.5). -/
structure MxuOp where
  last : Bool
  ptmSwap : Bool
  mx : Bool
  apat : BitVec 6
  wpat : BitVec 6
  asrc : BitVec 2
  wsrc : BitVec 2
  acc : BitVec 3
  alloc : Bool
  afmt : BitVec 4
  wfmt : BitVec 4
  kp : BitVec 8
  aspat : BitVec 6
  wspat : BitVec 6
deriving DecidableEq, Repr

/-- Operands of VU_DRAIN (Table 04.5). -/
structure DrainOp where
  keep : Bool
  ieee : Bool
  acc : BitVec 3
  opat : BitVec 6
  ofmt : BitVec 4
  rnd : BitVec 3
  spat : BitVec 6
  bpat : BitVec 6
  tfn : BitVec 3
  cpat : BitVec 6
  cpen : Bool
deriving DecidableEq, Repr

/-- Operands of NW_READ and NW_WRITE (Table 04.5). -/
structure NwOp where
  frond : Byte
  win : BitVec 4
  lrow : BitVec 13
  roff : BitVec 13
  rows : BitVec 13
  gen : BitVec 16
deriving DecidableEq, Repr

/-- A PRI page response (R270). -/
inductive PageResult where
  | success
  | invalidRequest
  | responseFailure
deriving DecidableEq, Repr

/-- The engine-owned memory a parity error was found in (R421). -/
inductive PrivateUnit where
  | acm
  | ptm
  | seBuffer
  | vuRegs
  | semaphores
deriving DecidableEq, Repr

/-- A scratchpad parity detection (R148 to R150, Table 05.10). -/
structure ParityInfo where
  row : BitVec 13
  bank : BitVec 6
  lane : BitVec 3
  rowpath : Bool
  /-- The frond whose step is charged, when the error was found while serving its remote read (R150). -/
  remoteFor : Option FrondId
deriving DecidableEq, Repr

/-- Who met an uncorrectable HBM error (R410). -/
inductive HbmReader where
  | frondTask (f : FrondId)
  | compositor
  | wear (out : OutId) (pixel : Nat)
  | other
deriving DecidableEq, Repr

/-- What physical training of a DisplayPort link finds (R338, R347, R348). -/
structure TrainSense where
  /-- Highest rate code that trains on one, two and four lanes; none where no rate does. -/
  one : Option (BitVec 3)
  two : Option (BitVec 3)
  four : Option (BitVec 3)
  openLanes : BitVec 4
  laneRev : Bool
  polInv : BitVec 4
  auxInv : Bool
deriving DecidableEq, Repr

/-- The outcome of one Lorwirel training attempt: the row of Table 17.1 that passes, whether lanes 4 to 7 are used, and the peer's DEV_ID. -/
structure LinkSense where
  row : Option (Fin 4)
  upper : Bool
  peer : BitVec 2
deriving DecidableEq, Repr

/-- A lock-step record of R452. -/
structure LsRecord where
  ctx : BitVec 14
  frond : Byte
  frame : W32
  stripe : BitVec 16
  step : BitVec 16
  notRun : Bool
  sig : W64
deriving DecidableEq, Repr

/-- A frond's section of a line as it reaches a layer line queue (R427): sample bytes of each plane. -/
structure LineSection where
  ctx : Fin 48
  frame : W32
  line : BitVec 14
  rank : Byte
  col : BitVec 14
  poisoned : Bool
  plane0 : List Byte
  plane1 : List Byte
  plane2 : List Byte
deriving DecidableEq, Repr

/-- Encodings that a capture port accepts (R342). -/
inductive PixelEncoding where
  | rgb
  | ycc444
  | ycc422
  | ycc420
deriving DecidableEq, Repr

/-- A frame received on a capture port (R342, R343): its encoding and bits per component, and the codes of each component in raster order; the
second and third hold one code for each chroma sample. -/
structure CapturedFrame where
  encoding : PixelEncoding
  bits : Nat
  comp0 : List (BitVec 16)
  comp1 : List (BitVec 16)
  comp2 : List (BitVec 16)
deriving DecidableEq, Repr

/-- What self-test and training find at boot (R513): failed physical positions of each die row, and a stack that failed to train. -/
structure BootSense where
  failed : List (Fin 32 × BitVec 9)
  badStack : Option (Fin 4)
  /-- The DTB of the first peer that answers over an up link (R510). -/
  peerDtb : Option W64 := none
deriving DecidableEq, Repr

/-- What reads find at a tick: in the raster store (R319) the errors corrected, and the 64-bit words of the line, on the generator's own half and on the
upper half of a pair, that cannot be; and the words that the HBM stacks have corrected since the tick before, which have no row of their own (R409). -/
structure RasterSense where
  corrected : Byte := 0
  own : List (BitVec 13) := []
  upper : List (BitVec 13) := []
  hbm : List (Fin 4 × Byte) := []
deriving DecidableEq, Repr

/-- A flit sent again on a link (R458), with the codewords corrected there since the retry before. -/
structure RetrySense where
  link : Fin 4
  corrected : Byte
deriving DecidableEq, Repr

/-- A peer's request for HBM: a read, a write, or a write that carries a poison mark (R285, R469). -/
inductive RemoteKind where
  | read | write | poisonedWrite
deriving DecidableEq, Repr

/-- The bytes of a register read: from where, and how many (R474). -/
structure ReadSpan where
  addr : BitVec 26
  len : BitVec 13
deriving DecidableEq, Repr

/-- The commands: one constructor for each row of spec/opcode_table.json, in the table's order. -/
inductive Instr where
  | nop (h : DescHdr)
  | fence (h : DescHdr) (ringMask : W64)
  | ctxOpen (h : DescHdr) (update : Bool) (inHbm : Bool) (image : W64)
  | ctxClose (h : DescHdr)
  | modelBind (h : DescHdr) (image : W64) (imageBytes : W32) (sharedPin : Bool) (pinned : W64) (mask : BitVec 256)
  | streamStart (h : DescHdr) (firstIn : W32) (outFrame : W32)
  | streamStop (h : DescHdr) (stopNow : Bool) (lastIn : W32)
  | frameSubmit (h : DescHdr) (b : FrameBody)
  | layerSet (h : DescHdr) (output : OutId) (slot : Byte) (host : Bool) (record : W64)
  | commit (h : DescHdr) (outmask : BitVec 4) (frame : W32)
  | writebackSet (h : DescHdr) (b : WritebackBody)
  | jobRun (h : DescHdr) (b : JobBody)
  | copy (h : DescHdr) (srcSpace dstSpace : Space) (src dst : Walk)
  | snapshot (h : DescHdr) (linked : Bool) (now : W64)
  | panelWearSave (h : DescHdr) (b : WearBody) (panelOk : Bool)
  | panelWearRestore (h : DescHdr) (b : WearBody)
  | counterDump (h : DescHdr) (host : Bool) (dst : W64) (blockMask : W64)
  | descriptorTake (sq : RingId) (now : W64)
  | sqTailPoll (sq : RingId) (now : W64)
  | ringSleep (sq : RingId)
  | kick (value : W32)
  | completionRecordWrite (cq : RingId) (now : W64)
  | cqHeadPoll (cq : RingId)
  | msixModerationTimer (cq : RingId) (now : W64)
  | ringEnable (completion : Bool) (ring : RingId) (value : W32)
  | bar4Access (write : Bool) (offset : W64) (data : List Byte)
  | atsInvalidation (page : BitVec 52)
  | pageResponse (page : BitVec 52) (result : PageResult)
  | priTimeout (page : BitVec 52)
  | pageLate (mover : Fin 32) (xfer : Nat) (now : W64)
  | streamMoverTransferDone (mover : Fin 32) (xfer : Nat)
  | frameStaged (ctx : Fin 48) (frame : W32)
  | lineTick (tg : OutId) (raster : RasterSense) (now : W64)
  | stripeStart (f : FrondId)
  | simmerYield (f : FrondId)
  | simmerResume (f : FrondId)
  | dispatch (ctx : BitVec 14)
  | lineQueueArrival (sec : LineSection)
  | composeLine (out : OutId) (y : BitVec 14) (late : BitVec 23) (gainLate : Bool)
  | lidAreaUncorr (out : OutId) (pixel : BitVec 20)
  | underrun (port : OutId)
  | seqNop (f : FrondId) (h : CmdHdr)
  | end_ (f : FrondId) (h : CmdHdr) (now : W64)
  | wait (f : FrondId) (h : CmdHdr) (sem : BitVec 6) (count : BitVec 16)
  | signal (f : FrondId) (h : CmdHdr) (fence : Bool) (sem : BitVec 6) (target : Byte) (remote : Bool) (count : BitVec 16)
  | mxuPass (f : FrondId) (h : CmdHdr) (op : MxuOp)
  | vuDrain (f : FrondId) (h : CmdHdr) (op : DrainOp)
  | vuEw (f : FrondId) (h : CmdHdr) (v : VuForm) (func : Byte) (count : BitVec 16)
  | vuDw (f : FrondId) (h : CmdHdr) (v : VuForm) (g : Geometry) (ch : BitVec 10) (group : Byte)
  | vuPool (f : FrondId) (h : CmdHdr) (isMax padCount : Bool) (v : VuForm) (g : Geometry) (ch : BitVec 10)
  | vuArgmax (f : FrondId) (h : CmdHdr) (v : VuForm) (ch : BitVec 10)
  | vuTfn (f : FrondId) (h : CmdHdr) (v : VuForm) (table : BitVec 2) (count : BitVec 16)
  | vuFft (f : FrondId) (h : CmdHdr) (inverse : Bool) (v : VuForm) (twoD : Bool) (count : BitVec 16)
  | ptmBuild (f : FrondId) (h : CmdHdr) (v : VuForm) (group : Byte) (count : BitVec 16)
  | vuLoad (f : FrondId) (h : CmdHdr) (v : VuForm) (count : BitVec 16)
  | vuStore (f : FrondId) (h : CmdHdr) (v : VuForm) (count : BitVec 16)
  | vuTload (f : FrondId) (h : CmdHdr) (v : VuForm) (table : BitVec 2)
  | seCapture (f : FrondId) (h : CmdHdr) (src dst : BitVec 6) (count : BitVec 16)
  | seRegroup (f : FrondId) (h : CmdHdr) (inverse : Bool) (src dst : BitVec 6) (by4 : Bool) (count : BitVec 16)
  | dmaIn (f : FrondId) (h : CmdHdr) (tdRow : BitVec 13)
  | dmaOut (f : FrondId) (h : CmdHdr) (tdRow : BitVec 13)
  | nwRead (f : FrondId) (h : CmdHdr) (op : NwOp)
  | nwWrite (f : FrondId) (h : CmdHdr) (op : NwOp)
  | winOpen (f : FrondId) (h : CmdHdr) (win : BitVec 4) (baseRow : BitVec 13) (rows : BitVec 13) (gen : BitVec 16)
  | winClose (f : FrondId) (h : CmdHdr) (win : BitVec 4)
  | fill (f : FrondId) (h : CmdHdr) (dst : BitVec 6) (value : W32) (count : BitVec 16)
  | fcCopy (f : FrondId) (h : CmdHdr) (src dst : BitVec 6) (count : BitVec 16)
  | rhzKeep (f : FrondId) (h : CmdHdr) (dst : BitVec 6) (chunks : BitVec 16)
  | commandComplete (f : FrondId) (queue : Fin 7)
  | stepCommit (f : FrondId)
  | remoteSignalArrival (target : FrondId) (sem : BitVec 6) (count : BitVec 16) (task : BitVec 16)
  | tagTimeout (f : FrondId) (now : W64)
  | semTimeout (f : FrondId) (now : W64)
  | remoteAccessArrival (src : FrondId)
  | combineRequest (recv : FrondId) (win : BitVec 4) (sender : FrondId)
  | combinePartialArrival (recv : FrondId) (win : BitVec 4) (sender : FrondId)
  | mcastCreditReturn (group : Byte) (member : FrondId)
  | mcastEvict (group : Byte) (member : FrondId)
  | rhizomeChunkArrival (f : FrondId)
  | parityError (f : FrondId) (p : ParityInfo) (now : W64)
  | cacheLineParity (f : FrondId) (addr : W64)
  | privateParityError (f : FrondId) (unit : PrivateUnit) (now : W64)
  | heartbeatTimeout (f : FrondId) (now : W64)
  | frondFailed (f : FrondId) (now : W64)
  | repairStopComplete (now : W64)
  | repairRestoreComplete (now : W64)
  | stepCheckpointTimer (now : W64)
  | hbmUncorr (stack : Fin 4) (channel : BitVec 4) (addr : W64) (reader : HbmReader) (now : W64)
  | svcWatchdog (now : W64)
  | svcRestartComplete (now : W64)
  | beamLeadWrite (out : OutId) (value : W32)
  | lschOutDisable (out : OutId) (value : W32)
  | tspSegGate (f : FrondId) (value : W32)
  | tspSegEnable (f : FrondId) (value : W32)
  | tspSegShutdownDone (f : FrondId) (seg : BitVec 4)
  | tspSegPowerupDone (f : FrondId) (seg : BitVec 4)
  | cacheStepsWrite (f : FrondId) (value : W32)
  | tgEnable (n : OutId) (value : W32)
  | tgStart (n : OutId) (now : W64)
  | tgDisable (n : OutId) (value : W32)
  | upd (n : OutId) (value : W32)
  | pair (n : OutId) (value : W32)
  | teEdge (n : OutId) (level : Bool) (edgeAt now : W64)
  | captureLockEvent (rx : Fin 2) (lineAt now : W64)
  | hpdPlug (port : OutId) (asyncSink : Bool) (panel : List (List Byte)) (now : W64)
  | hpdUnplug (port : OutId) (now : W64)
  | irqHpd (port : OutId) (now : W64)
  | dpLinkTraining (port : OutId) (sense : TrainSense) (now : W64)
  | retrain (port : OutId) (value : W32)
  | auxTransaction (port : OutId) (value : W32)
  | auxReply (port : OutId) (reply : BitVec 2) (data : List Byte)
  | portShort (port : OutId) (pin : BitVec 4) (now : W64)
  | portPinTest (port : OutId) (clean : Bool)
  | captureFrame (rx : Fin 2) (frame : W32) (c : CapturedFrame)
  | captureLost (rx : Fin 2) (now : W64)
  | pwuSample (out : OutId) (now : W64)
  | lid
  | attest
  | fwWrite
  | trustUpdate
  | debugToken
  | svnAdvance
  | configWrite
  | xspiOpComplete
  | linkEnable (link : Fin 4) (value : W32) (sense : LinkSense)
  | lwlTrainRetry (link : Fin 4) (sense : LinkSense)
  | ringWrite (link : Fin 4) (value : W32)
  | retry (sense : RetrySense)
  | linkFailed (link : Fin 4) (now : W64)
  | lwlLatencyMeasure (link : Fin 4) (roundTrip : BitVec 16)
  | dtbTimeMessage (link : Fin 4) (masterDtb : W64) (correction : BitVec 16) (now : W64)
  | holdover
  | remoteHbmRequest (link : Fin 4) (kind : RemoteKind) (addr : W64) (data : List Byte)
  | haloPush (entry : Fin 16) (frame : W32)
  | lsEnable (value : W32)
  | lsRecordArrival (r : LsRecord) (now : W64)
  | partnerLost (r : LsRecord)
  | arm (value : W32)
  | fire (value : W32) (now : W64)
  | ladleInEdge (now : W64)
  | ladleFireMessage (latchAt now : W64)
  | ladleLatch (now : W64)
  | smpEnable (unit : Fin 16) (value : W32)
  | warm (value : W32)
  | devLockWrite (req : Requester) (value : W32)
  | frondEnableWrite (word : Fin 8) (value : W32)
  | frondPowerWrite (word : Fin 8) (value : W32)
  | frondPowerDone (f : FrondId)
  | panelPwrWrite (n : OutId) (value : W32)
  | blDelayExpiry (n : OutId) (now : W64)
  | registerWrite (req : Requester) (addr : BitVec 26) (data : List Byte)
  | lowWordRead (req : Requester) (span : ReadSpan)
  | powerOnReset (strap : BitVec 2)
  | perstN
  | resetN
  | flr
  | bootReady (sense : BootSense)
  | thermalSample (temps : List (BitVec 12)) (now : W64)
  | liteSwitch (now : W64)
  | passThrough (out : OutId) (now : W64)
  | passThroughExit (now : W64)
  | thermTrip
  | powerSample (watts : BitVec 12) (now : W64)
  | supplyDroop (domains : W32)
  | clockPlanChange (domain : Fin 32)
  | clockGate (domain : Fin 32)
  | boostSpent (now : W64)
  | supplyRecovery
  | hbmModeWriteComplete (stack : Fin 4)
  | lsPartnerPaired
  | dprxAuxRequest (rx : Fin 2) (write : Bool) (device : BitVec 7) (data : List Byte) (count : BitVec 5)
deriving DecidableEq, Repr

end Sys2Proof
end

