-- ==== Sys2Proof/Decode.lean ====
section
/-! DEFINITION. The table's own words: no row of the opcode table has bits, so no word spells a command.
The decoders of host descriptors and frond commands stand with the machine (Machine/Descriptor.lean, Machine/Image.lean). -/

namespace Sys2Proof

/-- The command that a word of the opcode table spells: the table gives no row any bits. -/
def decodeTableWord (_nbits _w : Nat) : Option Instr := none

end Sys2Proof
end

