-- ==== Sys2Proof/Config.lean ====
section
/-! DEFINITION. What the spec leaves open as a value: constants without a body, so that nothing can rest on a value of one. -/

namespace Sys2Proof.Config

/-- The byte that a memory cell reads as when nothing has written it since it became undefined (R129, R416, R507).
`space` numbers the memory, `epoch` the reset or task start that made it undefined. Free value, log 3. -/
opaque freeByte (space epoch addr : Nat) : Byte

/-- The bits that VU_EW writes where the spec states no result, by FUNC, the two formats and the operands' codes. Free value, log 20. -/
opaque freeResult (func ifmt ofmt a b : Nat) : BitVec 64

/-- Byte `i` of what the last access of a stream holds behind its end, by the bytes of the stream. Free value, log 109. -/
opaque tailByte (data : List Byte) (i : Nat) : Byte

/-- Bits and state of accumulator entry `j` that a failed step leaves undefined; `n` is State's counter of such values. Free value, log 1. -/
opaque freeEntry (n j : Nat) : BitVec 96 × Fin 6

/-- A word the spec leaves undefined after an event; `n` is State's counter of such values. Free value, log 1. -/
opaque freeWord (n : Nat) : BitVec 64

/-- SHA-512 (named by R308, R364, R512; defined outside the spec). Log 8. -/
opaque sha512 (data : List Byte) : List Byte

/-- ECDSA P-521 verification of a signature over a digest by a public point (R308, R353, R512). Log 8. -/
opaque ecdsaVerify (key digest sig : List Byte) : Bool

/-- The signature the device identity key makes over a digest (R366, R518, R519). Log 8. -/
opaque deviceSign (digest : List Byte) : List Byte

/-- The device's public identity point, 133 B, and its certificate, 132 B (R518). Log 8. -/
opaque deviceKey : List Byte
opaque deviceCert : List Byte

/-- The fused hash of the Rolilacon root key (R513, R518). Log 8. -/
opaque rootKeyHash : List Byte

/-- The root public key whose hash is fused; it verifies trust-store endorsements (R517). Log 8. -/
opaque rootKey : List Byte

/-- BOOT_NONCE drawn at boot number `n` (R308, R513 step 7). Free value, log 1. -/
opaque bootNonce (n : Nat) : W64

/-- Position, among the elements of an activation block as walked, of the element of row `m` and reduction index `k`
of a pass with `kp` reduction elements (R55 gives the block, no order of its elements). Log 6. -/
opaque actIndex (kp m k : Nat) : Nat

/-- Position, among the elements of a weight plane as walked, of the element of column `n` and reduction index `k`. Log 6. -/
opaque weightIndex (kp n k : Nat) : Nat

/-- The declared domain of a function table, as its first and last break-point positions (R69 names it, no field holds it). Log 7. -/
opaque tableDomain (task : Nat) (table : Nat) : Rat × Rat

/-- The multicast groups a Nguvo package declares, as masks of ranks, 256 at most (R250; the layout is the package's). Log 9. -/
opaque packageGroup (pkg : W64) (i : Fin 256) : Option (BitVec 256)
def packageGroups (pkg : W64) : List (BitVec 256) := (List.finRange 256).filterMap (packageGroup pkg)

/-- Which 64 KiB of its HBM stack the supervisor of boot number `boot` places a copy (0 A, 1 B) of the spore log from (R412). Log 10. -/
opaque sporePlace (copy boot : Nat) : Nat

/-- First byte of a copy of the spore log: a multiple of 64 KiB (Table 15.8), the whole copy inside HBM0 for A and HBM2 for B (R412), whose 24 GiB
start at 0 and at 48 GiB (PRESUMED, log 142). -/
def sporeBase (copy boot : Nat) : W64 := BitVec.ofNat 64 (copy * 0xC00000000 + 65536 * (sporePlace copy boot % 339904))

/-- The PWU area and the supervisor's HBM of boot number `boot`: first address and first address after (R373). Log 10. -/
opaque pwuArea (boot : Nat) : Nat × Nat
opaque svcArea (boot : Nat) : Nat × Nat

/-- First byte of the spill region of a frond (R151; the supervisor writes TSP_SPILL). Log 10. -/
opaque spillBase (boot frond : Nat) : W64

/-- The first scratchpad row the supervisor chooses for a run of `rows` rows with these runs taken (R126). Log 11. -/
opaque placeRows (taken : List (Nat × Nat)) (rows : Nat) : Nat

/-- The value of a field of a valid configuration block (R516 gives no offsets): field 0 PEAK_SUPPLY, 1 LWL_EN, 2 SPORE_SIMMER_MS,
3 THERMAL_DERATE, 4 the power of two that BAR4_SIZE names, 5 + n the lanes of output n in DP_LANE_MAP. Log 12. -/
opaque configField (field : Nat) (block : List Byte) : Nat

/-- LID_PRESET[k] of a valid configuration block: whether there is one; its field 0 W, 1 H, 2 X, 3 Y and 4 to 12 the gamut matrix; and the
bytes of its image (R516, Table 20.6 give no layout). Log 12. -/
opaque presetHeld (k : Nat) (block : List Byte) : Bool
opaque presetField (k field : Nat) (block : List Byte) : Nat
opaque presetImage (k : Nat) (block : List Byte) : List Byte

/-- What a buffer of TRUST_UPDATE spells besides an entry: a removal of an ID that the root key signed (R522 gives no layout). Log 12. -/
opaque trustRemoval (buffer : List Byte) : Option (BitVec 32)

/-- A buffer of DEBUG_TOKEN is an erase request (R520 gives no layout). Log 12. -/
opaque eraseRequest (buffer : List Byte) : Bool

/-- The SEQ that a rollback-advance record names, if the root key signed it (R515 gives no layout). Log 12. -/
opaque advanceSeq (record : List Byte) : Option (BitVec 64)

/-- A debug token (R520 gives no offsets): field 0 the lowest SVN, 1 the highest, 2 the scope mask; the 8 B of identity; and
whether a key signed it. Log 12. -/
opaque tokenField (field : Nat) (token : List Byte) : Nat
opaque tokenId (token : List Byte) : List Byte
opaque tokenSigned (key token : List Byte) : Bool

/-- What word `w` of the XSPI block is: 0 a hole, 1 XSPI_STAT, 2 a command register that only reads the flash, 3 one that programs or
erases it; and the places of BUSY and WR_DROPPED in XSPI_STAT (R480, R523 give no layout). Log 46. -/
opaque xspiWord (w : Nat) : Fin 4
opaque xspiBits : Nat × Nat

/-- What word `w` of the TE filter and status registers reads, given the TE inputs (R350 gives no layout). Log 46. -/
opaque teWord (w : Nat) (te : BitVec 4) : W32

/-- What word `w` of an HBM block is: 0 a hole, 1 HBMn_STAT, 2 a controller mode register; and the places of BUSY and WR_DROPPED in
HBMn_STAT (R480 gives no layout). Log 46. -/
opaque hbmWord (w : Nat) : Fin 3
opaque hbmBits : Nat × Nat

/-- Word `w` of a DPRX block is a control register (Table 18.4 names them; no rule gives their layout or effect). Log 122. -/
opaque rxControl (w : Nat) : Bool

/-- Word `w` of the SVC block is a fuse programming register of the supervisor's view (Table 18.4 names them; no rule gives their layout or
effect). Log 122. -/
opaque fuseWord (w : Nat) : Bool

/-- Which way a transfer of Table 11.6 rounds where its evaluation, doubled from 200 fraction bits up 64 times, does not decide (R297, log 36): `true` up. It depends on the
function, by its code, and on the argument alone. -/
opaque nearTie (fn : Nat) (arg : List Rat) : Bool

/-- Largest magnitude of the overflow state's value: the OVF states act as a finite value beyond every format (R176). -/
def ovfMagnitude : Rat := 2 ^ 1100

end Sys2Proof.Config
end

