-- ==== Sys2Proof/Machine/Bits.lean ====
section
/-! DEFINITION. Bit fields, byte order and sign extension (R4), and the two containers' operations. -/

namespace Sys2Proof.Machine

/-- Bits [msb:lsb] of a word, as a number. -/
def fieldOf {n : Nat} (w : BitVec n) (msb lsb : Nat) : Nat := (w.toNat >>> lsb) % 2 ^ (msb + 1 - lsb)

/-- Bit i of a word. -/
def bitOf {n : Nat} (w : BitVec n) (i : Nat) : Bool := w.getLsbD i

/-- 1 for true. -/
def b2n (b : Bool) : Nat := if b then 1 else 0

/-- The number v placed at bit lsb. -/
def put (v lsb : Nat) : Nat := v <<< lsb

/-- A word with bit i set to b. -/
def setBit {n : Nat} (w : BitVec n) (i : Nat) (b : Bool) : BitVec n :=
  if b then w ||| BitVec.ofNat n (2 ^ i) else w &&& ~~~ BitVec.ofNat n (2 ^ i)

/-- Bytes to a number, least significant first. -/
def leNat : List Byte → Nat
  | [] => 0
  | b :: r => b.toNat + 256 * leNat r

/-- The k-byte little-endian number at offset o of a byte list (R4). -/
def leAt (l : List Byte) (o k : Nat) : Nat := leNat ((l.drop o).take k)

/-- A number to k bytes, least significant first. -/
def toLe : Nat → Nat → List Byte
  | 0, _ => []
  | k + 1, v => BitVec.ofNat 8 v :: toLe k (v / 256)

/-- Two's-complement value of an n-bit number. -/
def signed (n v : Nat) : Int := if v % 2 ^ n < 2 ^ (n - 1) then (v % 2 ^ n : Nat) else (v % 2 ^ n : Nat) - (2 ^ n : Nat)

/-- The set bits of a 256-bit mask in rising order. -/
def bitsOf {n : Nat} (m : BitVec n) : List Nat := (List.range n).filter (fun i => m.getLsbD i)

/-- The mask with exactly the listed bits. -/
def maskOf (n : Nat) (l : List Nat) : BitVec n := l.foldl (fun m i => m ||| BitVec.ofNat n (2 ^ i)) 0

/-- Add and hold at the top of a w-bit counter. -/
def satAdd {w : Nat} (c : BitVec w) (n : Nat) : BitVec w := BitVec.ofNat w (min (c.toNat + n) (2 ^ w - 1))

/-- Insert into a rising list of numbers without repeats. -/
def insertNat (a : Nat) : List Nat → List Nat
  | [] => [a]
  | b :: r => if a < b then a :: b :: r else if a = b then b :: r else b :: insertNat a r

/-- Split a list into pieces of k (the last may be shorter); `fuel` bounds the number of pieces. -/
def chunksOf {α : Type} (k : Nat) : Nat → List α → List (List α)
  | 0, _ => []
  | fuel + 1, l => if l.isEmpty then [] else l.take k :: chunksOf k fuel (l.drop k)

/-- Exactly n elements from the front, with d where the list is too short. -/
def takePad {α : Type} (n : Nat) (d : α) (l : List α) : List α := (List.range n).map (fun i => l.getD i d)

end Sys2Proof.Machine

namespace Sys2Proof

/-- The entry of key k, or d. -/
def Tbl.get {α : Type} (t : Tbl α) (k : Nat) (d : α) : α := go t.cells
where
  go : List (Nat × α) → α
    | [] => d
    | c :: r => if k < c.1 then d else if k = c.1 then c.2 else go r

/-- The table with entry k made v. -/
def Tbl.set {α : Type} (t : Tbl α) (k : Nat) (v : α) : Tbl α := ⟨go t.cells⟩
where
  go : List (Nat × α) → List (Nat × α)
    | [] => [(k, v)]
    | c :: r => if k < c.1 then (k, v) :: c :: r else if k = c.1 then (k, v) :: r else c :: go r

/-- Entry k changed by f. -/
def Tbl.modify {α : Type} (t : Tbl α) (k : Nat) (d : α) (f : α → α) : Tbl α := t.set k (f (t.get k d))

/-- The byte at address a, if something has written it. -/
def Mem.get? (m : Mem) (a : Nat) : Option Byte := go m.cells
where
  go : List (Nat × Byte) → Option Byte
    | [] => none
    | c :: r => if a < c.1 then none else if a = c.1 then some c.2 else go r

/-- The memory with byte b at address a. -/
def Mem.set (m : Mem) (a : Nat) (b : Byte) : Mem := ⟨go m.cells⟩
where
  go : List (Nat × Byte) → List (Nat × Byte)
    | [] => [(a, b)]
    | c :: r => if a < c.1 then (a, b) :: c :: r else if a = c.1 then (a, b) :: r else c :: go r

/-- Bytes stored at consecutive addresses from a. -/
def Mem.write (m : Mem) (a : Nat) : List Byte → Mem
  | [] => m
  | b :: r => Mem.write (m.set a b) (a + 1) r

/-- A long run of bytes stored from a on, in one pass: what `Mem.write` does. -/
def Mem.lay (m : Mem) (a : Nat) (l : List Byte) : Mem :=
  ⟨m.cells.filter (fun c => decide (c.1 < a)) ++ l.zipIdx.map (fun p => (a + p.2, p.1)) ++ m.cells.filter (fun c => decide (a + l.length ≤ c.1))⟩

/-- No byte of lo to hi - 1 is listed any more: their contents are undefined from here on. -/
def Mem.forget (m : Mem) (lo hi : Nat) : Mem := ⟨m.cells.filter (fun c => c.1 < lo || hi ≤ c.1)⟩

/-- The canonical form of a memory: strictly rising addresses. -/
def Mem.wf (m : Mem) : Bool := go m.cells
where
  go : List (Nat × Byte) → Bool
    | [] => true
    | [_] => true
    | c :: d :: r => decide (c.1 < d.1) && go (d :: r)

end Sys2Proof
end

