-- ==== Sys2Proof/Machine/Formats.lean ====
section
/-! DEFINITION. Number formats (Table 06.1), exact values, and the one rounding procedure of R159. -/

namespace Sys2Proof.Machine

/-- An exact value of R159: a rational, whose sign matters when it is zero, or a special. -/
inductive XVal where
  | num (q : Rat) (negZero : Bool)
  | inf (neg : Bool)
  | nan
deriving DecidableEq, Repr

/-- A rational as an exact value; zero is +0. -/
def XVal.ofRat (q : Rat) : XVal := .num q false

/-- The sign of a value: of a zero its sign, of a NaN positive. -/
def XVal.neg : XVal → Bool
  | .num q z => if q = 0 then z else decide (q < 0)
  | .inf n => n
  | .nan => false

/-- 2^e for a signed exponent, exactly. -/
def pow2 (e : Int) : Rat := if 0 ≤ e then ((2 ^ e.toNat : Nat) : Rat) else 1 / ((2 ^ (-e).toNat : Nat) : Rat)

/-- floor(log2 q) of a positive rational. -/
def log2Floor (q : Rat) : Int :=
  let e : Int := (Nat.log2 q.num.toNat : Int) - (Nat.log2 q.den : Int)
  if q < pow2 e then e - 1 else e

/-- A number rounded to an integer by an RND code (Table 06.2): nearest-even, toward zero, up, down, nearest-away. -/
def roundInt (rnd : Nat) (q : Rat) : Int :=
  let f := q.floor
  let r := q - (f : Rat)
  if r = 0 then f
  else if rnd = 1 then (if q < 0 then f + 1 else f)
  else if rnd = 2 then f + 1
  else if rnd = 3 then f
  else if r < 1 / 2 then f
  else if 1 / 2 < r then f + 1
  else if rnd = 4 then (if q < 0 then f else f + 1)
  else if f % 2 = 0 then f else f + 1

/-- A floating-point format: mantissa bits, exponent bias, code of the largest finite magnitude, codes of infinity and NaN,
and the bit of the sign. -/
structure FpFmt where
  m : Nat
  bias : Nat
  maxCode : Nat
  inf : Option Nat
  nan : Option Nat
  signBit : Nat
deriving DecidableEq, Repr

/-- The class of a format code (Table 06.1). -/
inductive FmtKind where
  | int (bits : Nat) (isSigned : Bool)
  | fp (f : FpFmt)
  | cb4
  | e8m0
deriving DecidableEq, Repr

def fp4E2M1 : FpFmt := { m := 1, bias := 1, maxCode := 7, inf := none, nan := none, signBit := 3 }
def fp6E2M3 : FpFmt := { m := 3, bias := 1, maxCode := 0x1F, inf := none, nan := none, signBit := 5 }
def fp6E3M2 : FpFmt := { m := 2, bias := 3, maxCode := 0x1F, inf := none, nan := none, signBit := 5 }
def fp8E4M3 : FpFmt := { m := 3, bias := 7, maxCode := 0x7E, inf := none, nan := some 0x7F, signBit := 7 }
def fp8E5M2 : FpFmt := { m := 2, bias := 15, maxCode := 0x7B, inf := some 0x7C, nan := some 0x7E, signBit := 7 }
def fp16 : FpFmt := { m := 10, bias := 15, maxCode := 0x7BFF, inf := some 0x7C00, nan := some 0x7E00, signBit := 15 }
def bf16 : FpFmt := { m := 7, bias := 127, maxCode := 0x7F7F, inf := some 0x7F80, nan := some 0x7FC0, signBit := 15 }
def fp32 : FpFmt := { m := 23, bias := 127, maxCode := 0x7F7FFFFF, inf := some 0x7F800000, nan := some 0x7FC00000, signBit := 31 }
def binary64 : FpFmt :=
  { m := 52, bias := 1023, maxCode := 0x7FEFFFFFFFFFFFFF, inf := some 0x7FF0000000000000, nan := some 0x7FF8000000000000, signBit := 63 }

/-- The format of a code of R93. -/
def fmtOf (code : Nat) : FmtKind :=
  if code = 0 then .int 4 true
  else if code = 1 then .int 4 false
  else if code = 2 then .int 8 true
  else if code = 3 then .int 8 false
  else if code = 4 then .int 16 true
  else if code = 5 then .int 32 true
  else if code = 6 then .fp fp4E2M1
  else if code = 7 then .fp fp6E2M3
  else if code = 8 then .fp fp6E3M2
  else if code = 9 then .fp fp8E4M3
  else if code = 10 then .fp fp8E5M2
  else if code = 11 then .fp fp16
  else if code = 12 then .fp bf16
  else if code = 13 then .fp fp32
  else if code = 14 then .cb4
  else .e8m0

/-- Bits an element takes in memory (R157): 4-bit elements two per byte, 6-bit elements one per byte. -/
def storeBits (code : Nat) : Nat :=
  if code = 0 ∨ code = 1 ∨ code = 6 ∨ code = 14 then 4
  else if code = 4 ∨ code = 11 ∨ code = 12 then 16
  else if code = 5 ∨ code = 13 then 32
  else 8

/-- The value of a floating-point code (R154): infinity and NaN only where Table 06.1 names them. -/
def FpFmt.decode (f : FpFmt) (code : Nat) : XVal :=
  let neg := code.testBit f.signBit
  let c := code % 2 ^ f.signBit
  if f.maxCode < c then
    if f.inf = some c then .inf neg else .nan
  else
    let e := c / 2 ^ f.m
    let man := c % 2 ^ f.m
    let q : Rat :=
      if e = 0 then (man : Rat) * pow2 (1 - (f.bias : Int) - f.m)
      else ((2 ^ f.m + man : Nat) : Rat) * pow2 ((e : Int) - f.bias - f.m)
    .num (if neg then -q else q) neg

/-- The exact value of a stored element (R154 to R156); a codebook index reads as its number. -/
def decodeElem (code raw : Nat) : XVal :=
  match fmtOf code with
  | .int b s => .ofRat (if s then (signed b raw : Rat) else ((raw % 2 ^ b : Nat) : Rat))
  | .fp f => f.decode (raw % 2 ^ (f.signBit + 1))
  | .cb4 => .ofRat ((raw % 16 : Nat) : Rat)
  | .e8m0 => if raw % 256 = 255 then .nan else .ofRat (pow2 ((raw % 256 : Nat) - 127))

/-- A rounded result: its code, and whether it counts as a saturation or an underflow (R163). -/
structure Rounded where
  raw : Nat
  sat : Bool := false
  ufl : Bool := false
deriving DecidableEq, Repr

/-- The code of an out-of-range or infinite result with a given sign (Tables 06.3 and 06.4). -/
def FpFmt.beyond (f : FpFmt) (ieee toInf neg : Bool) : Rounded :=
  let s := put (b2n neg) f.signBit
  match f.inf, f.nan with
  | some i, _ => if ieee && toInf then { raw := s + i } else { raw := s + f.maxCode, sat := true }
  | none, some n => if ieee && toInf then { raw := n } else { raw := s + f.maxCode, sat := true }
  | none, none => { raw := s + f.maxCode, sat := true }

/-- Whether an overflow under IEEE goes to infinity in a rounding mode (Table 06.3). -/
def towardInf (rnd : Nat) (neg : Bool) : Bool :=
  if rnd = 1 then false else if rnd = 2 then !neg else if rnd = 3 then neg else true

/-- R159 for a floating-point target. -/
def FpFmt.round (f : FpFmt) (rnd : Nat) (ieee : Bool) (x : XVal) : Rounded :=
  match x with
  | .nan => match f.nan with
    | some n => { raw := n }
    | none => { raw := 0, sat := true }
  | .inf neg => f.beyond ieee true neg
  | .num q z =>
    if q = 0 then { raw := put (b2n z) f.signBit }
    else
      let neg := decide (q < 0)
      let e := max (log2Floor (if neg then -q else q)) (1 - (f.bias : Int))
      let k := (roundInt rnd (q / pow2 (e - f.m))).natAbs
      let c := if k < 2 ^ f.m then k else ((e + f.bias).toNat - 1) * 2 ^ f.m + k
      if f.maxCode < c then f.beyond ieee (towardInf rnd neg) neg
      else { raw := put (b2n neg) f.signBit + c, ufl := decide (k = 0) }

/-- R159 for an integer target of b bits. A negative value held at the least code of an unsigned format counts twice: it is out of range, and
its result is zero (R163). -/
def roundIntFmt (b : Nat) (isSigned : Bool) (rnd : Nat) (x : XVal) : Rounded :=
  let hi : Int := if isSigned then 2 ^ (b - 1) - 1 else 2 ^ b - 1
  let lo : Int := if isSigned then -(2 ^ (b - 1)) else 0
  let code (v : Int) : Nat := (v % 2 ^ b).toNat
  match x with
  | .nan => { raw := 0, sat := true }
  | .inf neg => { raw := code (if neg then lo else hi), sat := true }
  | .num q _ =>
    let v := roundInt rnd q
    if hi < v then { raw := code hi, sat := true }
    else if v < lo then { raw := code lo, sat := true, ufl := decide (lo = 0) }
    else { raw := code v, ufl := decide (v = 0) && decide (q ≠ 0) }

/-- R165: a value rounded into E8M0. -/
def roundE8m0 (x : XVal) : Rounded :=
  match x with
  | .nan => { raw := 255 }
  | .inf neg => if neg then { raw := 255 } else { raw := 254, sat := true }
  | .num q _ =>
    if q ≤ 0 then { raw := 255 }
    else
      let e := log2Floor q
      if e < -127 then { raw := 0 }
      else if 127 < e then { raw := 254, sat := true }
      else { raw := (e + 127).toNat }

/-- R159: an exact value rounded once into a format. Nothing rounds into CB4 (R164). -/
def roundTo (code rnd : Nat) (ieee : Bool) (x : XVal) : Rounded :=
  match fmtOf code with
  | .int b s => roundIntFmt b s rnd x
  | .fp f => f.round rnd ieee x
  | .cb4 => { raw := 0 }
  | .e8m0 => roundE8m0 x

/-! ### Arithmetic of exact values with specials -/

/-- Sum of exact values: opposite infinities give NaN; a sum of zeros is −0 only when both are. -/
def XVal.add : XVal → XVal → XVal
  | .nan, _ => .nan
  | _, .nan => .nan
  | .inf a, .inf b => if a = b then .inf a else .nan
  | .inf a, .num _ _ => .inf a
  | .num _ _, .inf b => .inf b
  | .num p a, .num q b => .num (p + q) (decide (p = 0) && decide (q = 0) && a && b)

/-- Product of exact values: an infinity and a zero give NaN. -/
def XVal.mul : XVal → XVal → XVal
  | .nan, _ => .nan
  | _, .nan => .nan
  | .num p a, .num q b =>
    .num (p * q) ((if p = 0 then a else decide (p < 0)) != (if q = 0 then b else decide (q < 0)))
  | x, y => if x = .num 0 false ∨ x = .num 0 true ∨ y = .num 0 false ∨ y = .num 0 true then .nan else .inf (x.neg != y.neg)

/-- Negation. -/
def XVal.negate : XVal → XVal
  | .num q z => .num (-q) (!z)
  | .inf n => .inf !n
  | .nan => .nan

/-- x ≤ y; false with a NaN. -/
def XVal.le : XVal → XVal → Bool
  | .nan, _ => false
  | _, .nan => false
  | .inf true, _ => true
  | .inf false, .inf b => !b
  | .inf false, .num _ _ => false
  | .num _ _, .inf b => !b
  | .num p _, .num q _ => decide (p ≤ q)

/-- x < y; false with a NaN. -/
def XVal.lt (x y : XVal) : Bool := x.le y && !y.le x

/-- The rational of a finite value; `none` for a special. -/
def XVal.rat? : XVal → Option Rat
  | .num q _ => some q
  | _ => none

/-- A binary64 code of the sum of two binary64 codes, nearest-even (R175). -/
def addB64 (a b : Nat) : Nat := (binary64.round 0 true ((binary64.decode a).add (binary64.decode b))).raw

/-- The value of an FP32 word that is finite (matrix entries and gains). -/
def fp32Rat (w : W32) : Option Rat := (fp32.decode w.toNat).rat?

/-- The value of an FP32 word, reading a special as 0 where R292 has let none pass. -/
def fp32Val (w : W32) : Rat := (fp32Rat w).getD 0

end Sys2Proof.Machine
end

