-- ==== Sys2Proof/Machine/State.lean ====
section
/-! DEFINITION. State: every register, memory, queue, counter, mode and pin the spec gives the block, as plain data.
The default of a field is its value after a full reset (R507 and the register tables); a default the spec does not give is named in log 2. -/

namespace Sys2Proof.Machine

/-- Reasons a step stops with a fault. -/
inductive Fault where
  /-- No meaning raises it: what stops this block (the thermal trip, R535) is state, not a fault. Safe. -/
  | stopped
deriving DecidableEq, Repr

/-- Reasons a command has no meaning. -/
inductive Refusal where
  /-- An arm of exec not yet written answers it. Safe. -/
  | notModelled (mnemonic : String)
deriving DecidableEq, Repr

/-- Start and stop of a function with a shut-down time (R489): a scratchpad segment or a frond's power. -/
inductive OnOff where
  | on
  | goingDown
  /-- A re-enable arrived during the shut-down and is held. -/
  | goingDownHeld
  | off
  | goingUp
deriving DecidableEq, Repr

/-! ### Host interface -/

/-- A completion or event record (Table 14.6), less PHASE and OVERFLOW, which are set when it is written. -/
structure Record where
  status : BitVec 16
  ctx : BitVec 14
  event : Bool
  seq : W32
  dtb : W64
  op : Byte
  sq : BitVec 6
  device : Bool
  cause : BitVec 16
  info0 : W32
  info1 : W32
  info2 : W32
  irq : Bool
  /-- Slot of the descriptor's spore record. -/
  slot : Option Nat := none
deriving DecidableEq, Repr

/-- A descriptor taken and not yet reported (R376, R413). -/
structure InFlight where
  idx : W32
  cmd : Instr
  barrier : Bool
  /-- STATE of the spore record: 1 accepted, 2 started, 3 completed. -/
  state : Byte
  slot : Nat
  /-- Its completion record, once it has completed and waits in the reorder store (R401, R434). -/
  done : Option Record
deriving DecidableEq, Repr

/-- A submission ring (R374 to R380, Table 14.11). -/
structure SubRing where
  base : W64 := 0
  recAddr : W64 := 0
  log2 : BitVec 5 := 4
  cq : BitVec 6 := 0
  hipri : Bool := false
  en : Bool := false
  busy : Bool := false
  heldEn : Bool := false
  sleep : Bool := false
  halted : Bool := false
  cfgReject : Bool := false
  head : W32 := 0
  tailSeen : W32 := 0
  lastDesc : W64 := 0
  inflight : List InFlight := []
deriving DecidableEq, Repr

/-- A completion ring (R381 to R385, Table 14.11). -/
structure CplRing where
  base : W64 := 0
  recAddr : W64 := 0
  log2 : BitVec 5 := 4
  modCount : Byte := 1
  modUs : BitVec 10 := 0
  en : Bool := false
  busy : Bool := false
  heldEn : Bool := false
  overflowSeen : Bool := false
  cfgReject : Bool := false
  vector : BitVec 9 := 0
  tail : W32 := 0
  headSeen : W32 := 0
  /-- Records not yet written, oldest first: the first 256 are held (R384), later ones wait. -/
  queue : List Record := []
  /-- HELD: records held because the ring has no free slot or no translation (R384). -/
  held : Nat := 0
  unsignalled : Nat := 0
  firstUnsignalled : Option W64 := none
  events : W32 := 0
  overflowNext : Bool := false
deriving DecidableEq, Repr

/-- A FENCE in progress (R392): the rings and the index taken on each. -/
structure FenceWait where
  hdr : DescHdr
  targets : List (Nat × W32)
deriving DecidableEq, Repr

/-- HIF (Table 14.10), its rings, MSI-X and fences. -/
structure Hif where
  en : Bool := false
  evtCq : BitVec 6 := 0
  kickIgnored : Bool := false
  b4Base : W64 := 0
  configEvent : Bool := false
  /-- Positions that self-test found lost at boot, to be reported when HIF is first enabled (R423, R439). -/
  bootLost : List Nat := []
  sqs : Tbl SubRing := {}
  cqs : Tbl CplRing := {}
  /-- Words of the MSI-X table; an unlisted word 3 of an entry reads 1, masked (log 5). -/
  msixTable : Tbl W32 := {}
  msixPba : BitVec 512 := 0
  /-- Vectors sent, oldest first (the block's output). -/
  msixSent : List (BitVec 9) := []
  fences : List FenceWait := []
deriving DecidableEq, Repr

/-! ### Task images and contexts -/

/-- A pattern entry (Table 04.3). -/
structure Pattern where
  base : BitVec 20
  row : Bool
  circ : BitVec 5
  circEn : Bool
  halo : Bool
  tagged : Bool
  /-- Dimensions minus 1. -/
  dims : BitVec 3
  /-- COUNT of dimensions 0 to 3, accesses minus 1: 12 bits in the entry, the 16 of a bucket size once one stands in its place (R228). -/
  counts : List (BitVec 16)
  strides : List (BitVec 20)
  /-- Words per access minus 1. -/
  width : BitVec 3
  dyn : List (BitVec 3)
deriving DecidableEq, Repr

/-- A circular-region entry (R89); ROWS 0 stands for 8,192. -/
structure CircEntry where
  baseRow : BitVec 13
  rows : BitVec 13
deriving DecidableEq, Repr

/-- A variant entry (R89). -/
structure Variant where
  kind : BitVec 2
  /-- Bucket index per dynamic dimension d, in bits [3d+2:3d]. -/
  buckets : BitVec 16
  cmdOff : W32
  cmdCount : W32
deriving DecidableEq, Repr

/-- A task image (R86, Table 04.1), less its command lists, which stay in HBM. -/
structure TaskImage where
  kind : Byte := 0
  slot : W32 := 0
  ndyn : Byte := 0
  h : Byte := 0
  w : W32 := 0
  wRow : W32 := 0
  wLite : W32 := 0
  pBytes : W32 := 0
  tBytes : W32 := 0
  seBytes : W32 := 0
  fronds : BitVec 16 := 0
  accTiles : Byte := 0
  order : Byte := 0
  pkgId : W64 := 0
  /-- 4 dimensions of 8 bucket sizes. -/
  buckets : List (BitVec 16) := []
  pats : List Pattern := []
  circs : List CircEntry := []
  variants : List Variant := []
deriving DecidableEq, Repr

/-- What a bound context holds of its image (R399, Table 14.9 IMAGE, PKG_ID, FROND_MASK). -/
structure Bound where
  image : TaskImage
  addr : W64
  bytes : W32
  sharedPin : Bool
  pinned : W64
  mask : BitVec 256
deriving DecidableEq, Repr

/-- STATE of a context (Table 14.9). -/
inductive CtxState where
  | closed
  | opened
  | bound
  | running
  | stopping
deriving DecidableEq, Repr

/-- Counts of one tensor (R195). -/
structure TensorCount where
  sat : Nat := 0
  ufl : Nat := 0
  /-- FP32 code of AMAX. -/
  amax : W32 := 0
  nan : Bool := false
  inf : Bool := false
  tracked : Bool := false
  fmt : BitVec 4 := 0
deriving DecidableEq, Repr

/-- A FRAME_SUBMIT not yet completed (R388, R389). -/
structure FrameJob where
  /-- The FRAME_SUBMIT; a captured frame has none (R343). -/
  hdr : Option DescHdr
  /-- The input frame. -/
  frame : W32
  exts : List (BitVec 16)
  body : Option FrameBody
  /-- Transfers of the frame's planes not yet done; empty and `begun` means all written. -/
  xfers : List Nat
  begun : Bool
  staged : Bool
  /-- The staging was cancelled or failed with this status. -/
  status : BitVec 16
  held : Nat
  run : Nat
  /-- The frame's output frames all finished (completed, aborted or held). -/
  finished : Bool
  sat : Nat
  ufl : Nat
  cause : BitVec 16
deriving DecidableEq, Repr

/-- What a frond that has ended the present instance of a job leaves: its counts, and its poison with its first fault. -/
structure JobPart where
  stats : Tbl TensorCount := {}
  bad : Bool := false
  cause : BitVec 16 := 0
deriving DecidableEq, Repr

/-- A running simmer job (R231). -/
structure Job where
  hdr : DescHdr
  body : JobBody
  inst : Nat
  /-- Fronds that have ended the current instance. -/
  ended : List Nat
  suspended : Bool
  /-- A task is running the current instance. -/
  started : Bool
  status : BitVec 16
  cause : BitVec 16
  stats : Tbl TensorCount
  /-- Entry of a pointer list that failed (R232). -/
  failedEntry : Option Nat
  marked : Bool
  taskNo : BitVec 16
  /-- Parts of the fronds that have ended the present instance. -/
  parts : Tbl JobPart := {}
  /-- Far-side write ranges, by frond, of the interrupted run that the present instance repeats (R429, R435). -/
  replay : Tbl (List (Space × Walk)) := {}
deriving DecidableEq, Repr

/-- A context (Table 14.9). -/
structure Ctx where
  state : CtxState := .closed
  mode : Byte := 0
  output : Byte := 0
  priority : Byte := 0
  slots : Byte := 0
  evtCq : Byte := 0
  tagTo : BitVec 16 := 0
  bucketFix : BitVec 16 := 0
  cadIn : Byte := 0
  cadOut : Byte := 0
  bound : Option Bound := none
  scaleSet : List Byte := []
  stats : W64 := 0
  slotBase : W64 := 0
  slotBytes : W32 := 0
  recs : List W64 := []
  firstIn : W32 := 0
  outFrame : W32 := 0
  lastDone : W32 := 0
  nextOut : W32 := 0
  frames : List FrameJob := []
  lastSubmit : Option W32 := none
  /-- REC0 and REC1 stand exchanged (R398). -/
  recSwapped : Bool := false
  job : Option Job := none
  /-- The image check passed on the frond set (R106). -/
  checked : Bool := false
deriving DecidableEq, Repr

/-! ### Live streams -/

/-- One output frame of a live stream in progress. -/
structure FrameRun where
  frame : W32
  input : W32
  kind : BitVec 2
  exts : List (BitVec 16)
  /-- Luma lines of the picture, and its stripes. -/
  lines : Nat
  total : Nat
  released : Nat
  /-- Frond and stripe pairs that have ended. -/
  ended : List (Nat × Nat)
  done : Nat
  /-- No stripe of the frame runs (R26), or it was aborted (R283). -/
  dropped : Bool
  status : BitVec 16
  cause : BitVec 16
  /-- Picture lines held so far, in rising order, not yet reported (R49). -/
  held : List Nat
  heldTotal : Nat
  /-- Lines whose queue deadline has passed, in rising order. -/
  judged : List Nat
  /-- Instant of a first release that found the frame not staged, until the NOT_RUN records of its stripes are sent: staging that completes at that
  very instant still counts (R26). -/
  unrun : Option W64
  /-- First raster line that reads each picture line, need line of each stripe, and the stripe spacing (R21 to R23, R556). -/
  readers : List (Option Nat)
  needs : List Int
  spacing : Nat
  /-- Held lines are neither reported nor counted: the output is in pass-through (R534). -/
  quiet : Bool
  shifts : List Byte
  /-- Counts of the frame's tensors over the frond set so far (R196). -/
  stats : Tbl TensorCount
  /-- The same counts by frond, as stripe checkpoints hold them (Table 15.4). -/
  parts : Tbl (Tbl TensorCount) := {}
  /-- A fault was repaired under the BV6 policy, or a row with poison went to host memory: the frame is POISONED. -/
  poisoned : Bool
  /-- REC0 and REC1 stand exchanged for the frame (R398). -/
  recSwapped : Bool := false
deriving DecidableEq, Repr

/-- A MODEL_BIND waiting for the next first release of a running stream (R390). -/
structure BindWait where
  hdr : DescHdr
  bound : Bound
  /-- Multicast groups allocated to it, and where its checkpoint slots begin in the pool (R414). -/
  groups : List Nat
  ckptAt : Nat := 0
deriving DecidableEq, Repr

/-- LSCH state of a live context that is running or stopping. -/
structure Stream where
  active : Bool := false
  frames : List FrameRun := []
  stopAfter : Option W32 := none
  stopHdr : Option DescHdr := none
  /-- Its STREAM_START, not yet complete (R126, R127). -/
  startHdr : Option DescHdr := none
  bindWait : Option BindWait := none
  /-- Where its checkpoint slots begin in the pool (R414). -/
  ckptAt : Nat := 0
  lite : Bool := false
  liteNext : Option Bool := none
  /-- SRC_H in force (R557). -/
  srcH : Nat := 0
  everDone : Bool := false
  /-- Autorange shifts to apply from an output frame on (R197). -/
  autorange : List (W32 × List (Nat × Byte)) := []
  /-- Output frames before this one are held while a moved stream loads (R439). -/
  resumeAt : Option W32 := none
  lastRun : Option W32 := none
  /-- Held lines of output frames whose input frame no FRAME_SUBMIT has named yet (R389). -/
  unsubmitted : List (W32 × Nat) := []
deriving DecidableEq, Repr

/-- A live stripe LSCH has released to a frond (R25). -/
structure StripeJob where
  ctx : Nat
  out : Nat
  frame : W32
  stripe : Nat
  deadline : W64
  kind : BitVec 2
  /-- Task number (R280), given when the first frond of the set starts the stripe. -/
  task : Option (BitVec 16)
deriving DecidableEq, Repr

/-- A multicast group (R250, R252). -/
structure McastGroup where
  valid : Bool := false
  ctx : BitVec 14 := 0
  members : BitVec 256 := 0
  /-- Credits a member does not hold, of its four. -/
  spent : Tbl Nat := {}
  /-- Rows a member has written and not yet returned a credit for. -/
  due : Tbl Nat := {}
  /-- Evicted members, each for the task of a number (R253). -/
  evicted : List (BitVec 16 × Nat) := []
deriving DecidableEq, Repr

/-- LSCH registers of one output (Tables 02.5, 02.6). -/
structure LschOut where
  beamLead : BitVec 13 := 0x60
  /-- A new beam lead that applies from the next frame boundary (R44). -/
  beamNext : Option (BitVec 13) := none
  en : Bool := false
  blReject : Bool := false
  stopAtBoundary : Bool := false
deriving DecidableEq, Repr

/-- Phase of a repair (R425). -/
inductive RepairPhase where
  | stopping
  | restoring
  | replaying
deriving DecidableEq, Repr

/-- A repair in progress (R425, R440). -/
structure Repair where
  phase : RepairPhase
  start : W64
  /-- Failed logical fronds, the physical column that failed, and the cause; a lane fence repairs without a failed frond (R428). -/
  failed : List (Nat × BitVec 4 × BitVec 4)
  fenced : List Nat
  /-- Logical fronds whose physical column changes. -/
  moved : List Nat
  /-- Contexts and frond sets affected. -/
  ctxs : List Nat
  /-- Fronds and contexts whose replayed stripe has not ended. -/
  waiting : List (Nat × Nat)
  /-- Failures reported before, whose columns are mapped now that the supervisor serves again (R438). -/
  late : List (Nat × BitVec 4 × BitVec 4) := []
deriving DecidableEq, Repr

/-- LSCH and CTXS block: streams, groups, spore log, repair and lock-step (chapters 02, 09, 15, 16). -/
structure Lsch where
  outs : Tbl LschOut := {}
  streams : Tbl Stream := {}
  groups : Tbl McastGroup := {}
  /-- Number of the last task of each frond set (R280). -/
  taskNos : List (BitVec 256 × BitVec 16) := []
  sporeA : W64 := 0
  sporeB : W64 := 0
  sporeNext : Nat := 0
  /-- Record slots not in STATE 3. -/
  sporeLive : List Nat := []
  simmerMs : Byte := 10
  svcDown : Bool := false
  ckptOverSeen : Bool := false
  lastUs : BitVec 16 := 0
  repairs : BitVec 16 := 0
  unrepaired : BitVec 16 := 0
  repair : Option Repair := none
  /-- Fronds declared failed whose repair has not begun: frond, column, cause and first detection (R421). -/
  declared : List (Nat × BitVec 4 × BitVec 4 × W64) := []
  /-- Failures met while the supervisor restarts, to be mapped when it serves again (R438): frond, column, cause. -/
  deferred : List (Nat × BitVec 4 × BitVec 4) := []
deriving DecidableEq, Repr

/-- Lock-step registers and records (Table 16.4, R452, R453). -/
structure LockStep where
  en : Bool := false
  link : BitVec 2 := 3
  ladle : Bool := false
  irqEn : Bool := false
  vec : BitVec 9 := 0
  paired : Bool := false
  /-- EN was written as 0, and the stripe boundary that ends the comparisons has not come (R455, R489). -/
  stopping : Bool := false
  diverged : Bool := false
  partnerLost : Bool := false
  busy : Bool := false
  divCtx : BitVec 14 := 0
  divKind : BitVec 2 := 0
  divFrond : Byte := 0
  divFrame : W32 := 0
  divStripe : BitVec 16 := 0
  divStep : BitVec 10 := 0
  divDtb : W64 := 0
  own : W64 := 0
  peer : W64 := 0
  count : BitVec 16 := 0
  /-- Own records, oldest first, that wait for the partner's. -/
  sent : List LsRecord := []
  /-- Partner's records that wait for our own. -/
  received : List LsRecord := []
deriving DecidableEq, Repr

/-! ### The frond -/

/-- State of a fixed-point entry (Table 06.7). -/
inductive EntState where
  | finite
  | ovfPos
  | ovfNeg
  | infPos
  | infNeg
  | nan
deriving DecidableEq, Repr

/-- An ACM entry: 96 bits and its state (R172, R174, R175). -/
structure Entry where
  bits : BitVec 96 := 0
  st : EntState := .finite
deriving DecidableEq, Repr

/-- Tile states of Table 03.3. -/
inductive TileState where
  | free
  | accum
  | ready
  | drain
deriving DecidableEq, Repr

/-- An ACM tile of 32 by 64 entries; entry (row, column) at 64 × row + column. -/
structure Tile where
  state : TileState := .free
  /-- The path of the pass that allocated it: true binary64 (R61). -/
  b64 : Bool := false
  entries : Tbl Entry := {}
  /-- Its handle's poison mark (R284). -/
  poisoned : Bool := false
  /-- A combine window of the frond must deliver before the tile is READY (R244). -/
  combine : Option Nat := none
  /-- Its LAST pass has run, and has completed. -/
  lastRun : Bool := false
  lastDone : Bool := false
deriving DecidableEq, Repr

/-- What completing a queued command does besides its header signal. -/
inductive AfterDone where
  | nothing
  /-- The LAST pass into a tile: it becomes READY (Table 03.3). -/
  | passLast (tile : Nat)
  /-- A drain, or a combine send, frees the tile. -/
  | freeTile (tile : Nat)
  /-- A keep-drain returns the tile to ACCUM. -/
  | keepTile (tile : Nat)
  /-- A frond DMA transfer: the command completes once the transfer is delivered. -/
  | dma (xfer : Nat)
  /-- A network command: it completes once its accesses have been answered. -/
  | net (cmd : Nat)
  /-- RHZ_KEEP: it completes once so many chunks are kept. -/
  | keepChunks
deriving DecidableEq, Repr

/-- A command in an engine queue: its index in the list, the tile its handle named at issue, and, once it has run, what its completion does. -/
structure QEntry where
  index : Nat
  cmd : Instr
  tile : Nat
  after : Option AfterDone
deriving DecidableEq, Repr

/-- A window of a frond (R237, Table 09.7). -/
structure Window where
  base : BitVec 13 := 0
  rows : BitVec 13 := 0
  gen : BitVec 16 := 0
  isOpen : Bool := false
  arrived : BitVec 4 := 0
  /-- Rows are those of the live task (else of the simmer task). -/
  live : Bool := false
deriving DecidableEq, Repr

/-- A combine accumulator (R244 to R248). -/
structure CombineAcc where
  entries : Tbl Entry := {}
  /-- The partials are exact 96-bit values, not binary64 ones (R247). -/
  exact : Bool := false
  poisoned : Bool := false
  count : Nat := 0
  /-- Requests not yet granted, in order of arrival. -/
  requests : List Nat := []
  granted : Option Nat := none
  /-- Added into the tile; kept until the receiver's step commits, for a re-run (R249). -/
  delivered : Bool := false
  /-- The step re-runs: its WIN_OPEN takes up this accumulator again (R249). -/
  again : Bool := false
deriving DecidableEq, Repr

/-- A partial tile a sender has issued (R243). -/
structure OutPartial where
  recv : Nat
  win : Nat
  gen : BitVec 16
  /-- The entries are binary64 values; else exact 96-bit ones. -/
  b64 : Bool
  entries : Tbl Entry
  poisoned : Bool
  cmd : Nat
  /-- The tile it is read from. -/
  tile : Nat
  live : Bool
  /-- The request has arrived at the receiver. -/
  requested : Bool
  /-- Its sender re-runs the step: the send goes on when the command runs again (R249). -/
  held : Bool := false
deriving DecidableEq, Repr

/-- A remote row access on its way (R239, R251). -/
structure NetAccess where
  dst : Nat
  win : Nat
  gen : BitVec 16
  roff : Nat
  rows : Nat
  write : Bool
  /-- Row bytes of a write. -/
  data : List (List Byte)
  /-- Task row for the data of a read. -/
  lrow : Nat
  poisoned : Bool
  /-- Multicast group and transfer the delivery belongs to. -/
  group : Option (Nat × Nat)
  cmd : Nat
  live : Bool
deriving DecidableEq, Repr

/-- A frond transfer descriptor (Table 10.2). -/
structure XferDesc where
  kind : Byte
  tagged : Bool
  circEn : Bool
  cached : Bool
  listRel : Bool
  space : Byte
  dev : Byte
  localRow : BitVec 16
  circ : Byte
  group : Byte
  win : Byte
  gen : BitVec 16
  first : Byte
  last : Byte
  walk : Walk
deriving DecidableEq, Repr

/-- A frond DMA transfer outstanding (R79, R268): `done` bytes of the walk are delivered. -/
structure DmaXfer where
  id : Nat
  isIn : Bool
  /-- Index of the command in its list. -/
  index : Nat
  desc : XferDesc
  /-- Context whose bases and lists the address was resolved with. -/
  ctx : Nat
  live : Bool
  done : Nat
  /-- Bytes that have entered the chain, or that have been sent to the group. -/
  sent : Nat
  total : Nat
  /-- 4 KiB page whose translation it waits for. -/
  page : Option Nat
  /-- Region positions latched by the task that issued it (R138). -/
  starts : List (Nat × Nat)
  poisoned : Bool
deriving DecidableEq, Repr

/-- A circular region held by a context (R138): base task row and rows, H and T. -/
structure Region where
  base : Nat
  rows : Nat
  head : Nat
  tail : Nat
deriving DecidableEq, Repr

/-- A remote increment a frond holds for a later task (R280). -/
structure HeldInc where
  task : BitVec 16
  sem : BitVec 6
  count : BitVec 16
deriving DecidableEq, Repr

/-- A remote increment on its way from the frond that sent it (R98, R280). -/
structure OutSignal where
  target : Nat
  sem : BitVec 6
  count : BitVec 16
  task : BitVec 16
  /-- Share and index of the SIGNAL, and its header signal, which it fires as it completes (R97). -/
  live : Bool := false
  index : Nat := 0
  header : Option (BitVec 6) := none
deriving DecidableEq, Repr

/-- Why a frond's next command does not issue or run: a semaphore, the tag of a row (its number as `Place.key` gives it), or anything else. -/
inductive BlockKind where
  | semaphore
  | tag (row : Nat)
  | other
deriving DecidableEq, Repr

/-- A rhizome chunk at a frond's chain input (R256): the transfer it belongs to, by issuing frond and number, and that transfer's context. -/
structure Chunk where
  src : Nat
  xfer : Nat
  ctx : Nat
  number : Nat
  bytes : List Byte
  poisoned : Bool
  taken : Bool
deriving DecidableEq, Repr

/-- A RHZ_KEEP in progress: its pattern, the chunks still to keep, and the command's index. -/
structure KeepJob where
  pat : Nat
  left : Nat
  index : Nat
deriving DecidableEq, Repr

/-- An MXU buffer (R56): what it holds; the pattern, cursor and bytes it was filled with, none when the chain filled it; and, of weights,
the codebook slots of its blocks (R185). -/
structure MxuBuf where
  bytes : List Byte := []
  poison : Bool := false
  source : Option (Nat × Nat × Nat) := none
  slots : List Nat := []
  /-- Discarded at a yield and not yet reloaded (R82). -/
  stale : Bool := false
deriving DecidableEq, Repr

/-- The pass whose operands are complete (R56): its command index, the buffers it reads, and its block scales. -/
structure PassLoad where
  index : Nat
  act : Nat
  weight : Nat
  aScales : List Byte := []
  wScales : List Byte := []
  bad : Bool := false
deriving DecidableEq, Repr

/-- A parameter set that the VU holds (R189): its key, the pattern and the address of its first access, and its bytes. -/
structure HeldSet where
  pat : Nat
  addr : Nat
  bytes : List Byte
  bad : Bool
deriving DecidableEq, Repr

/-- State saved when a step begins, for its re-run (Table 04.6), and what the step has done so far. -/
structure StepSave where
  cursors : Tbl Nat := {}
  sems : Tbl (BitVec 16) := {}
  /-- Increments received from other fronds since the step began. -/
  incs : List (BitVec 6 × BitVec 16) := []
  /-- Physical rows, and spilled task rows, that the step's own engines turned full. -/
  tagsSet : List Nat := []
  spillTagsSet : List Nat := []
  ptmHalf : Bool := false
  ptmBuilt : List Nat := []
  startIndex : Nat := 0
  /-- T of each region when the step began. -/
  tails : List Nat := []
  counts : Tbl TensorCount := {}
  /-- Region number and the row (as an offset from H) furthest read through tags (R139). -/
  reads : List (Nat × Nat) := []
  detections : List ParityInfo := []
  /-- Instant of the first of them. -/
  detectedAt : W64 := 0
  /-- Handles bound in the step. -/
  bound : List Nat := []
  /-- Outbound commands (by index) that completed in an earlier run of the step, and rows delivered of a partly delivered one. -/
  delivered : List (Nat × Nat) := []
  /-- Task rows and SE buffer lines the step has written (R284). -/
  wroteRows : List Nat := []
  wroteLines : List Nat := []
  /-- Chunks taken from the chain since the step began, in order, and blocks received before it (R185, R267; log 110). -/
  chunks : List Chunk := []
  chainBlocks : Nat := 0
deriving DecidableEq, Repr

/-- The last completed PTM_BUILD of a task (R82, Table 15.4): its command index, first slot and codebook entries. -/
structure BuildRec where
  index : Nat
  slot : Nat
  entries : List (BitVec 16)
deriving DecidableEq, Repr

/-- The task running on a frond, with the tables and engine state that belong to it (R88, R105). -/
structure Task where
  ctx : Nat := 0
  live : Bool := false
  taskNo : BitVec 16 := 0
  frame : W32 := 0
  stripe : Nat := 0
  kind : BitVec 2 := 0
  variant : Nat := 0
  image : TaskImage := {}
  /-- HBM address of the command list. -/
  listAddr : Nat := 0
  cmdCount : Nat := 0
  cmdIndex : Nat := 0
  /-- Index of the command that an engine is executing (R500). -/
  executing : Option Nat := none
  exts : List (BitVec 16) := []
  /-- ADDR of the pointer-list entry (R231). -/
  listRel : W64 := 0
  /-- Patterns with the bucket sizes in place of dynamic counts (R228). -/
  pats : List Pattern := []
  cursors : Tbl Nat := {}
  /-- H0 and T0 of each region, latched when the task starts (R138). -/
  starts : List (Nat × Nat) := []
  queues : Tbl (List QEntry) := {}
  /-- Tile bound to each handle (R94). -/
  handles : Tbl (Option Nat) := {}
  /-- Commands that the sequencer has reached and that have not issued, in list order (R95). -/
  fed : List Instr := []
  step : StepSave := {}
  stepIndex : Nat := 0
  /-- The step has committed and the next has not begun. -/
  committed : Bool := false
  /-- The header wait of the command at the head has been granted (R75, R95). -/
  granted : Bool := false
  /-- The command index that waits for a semaphore, and since when (R110). -/
  semSince : Option (Nat × W64) := none
  /-- Tagged accesses that block, and since when (R141): the queue (7 and up: a transfer), the command's index, the row, and the bytes that the
  transfer had moved by then. -/
  tagSince : List ((Nat × Nat × Nat × Nat) × W64) := []
  /-- Remote SIGNALs whose increment has not reached its target (R97). -/
  signalsOut : Nat := 0
  /-- When the task yielded. -/
  yieldAt : W64 := 0
  /-- Tensor shifts latched for the frame or job (R192). -/
  shifts : List Byte := []
  counts : Tbl TensorCount := {}
  lastBuild : Option BuildRec := none
  /-- The two activation and two weight buffers of the MXU, and which of each was filled last (R56). A live stripe and simmer work never share
  what they hold (R82), so they stand with the task. -/
  actBufs : Tbl MxuBuf := {}
  weightBufs : Tbl MxuBuf := {}
  actLast : Nat := 0
  weightLast : Nat := 0
  /-- The next pass, its buffers filled. -/
  loaded : Option PassLoad := none
  /-- Parameter sets the VU holds: 0 scale, 1 bias, 2 clamp (R189). -/
  held : Tbl (Option HeldSet) := {}
  /-- The RHZ_KEEP in progress. -/
  keep : Option KeepJob := none
  /-- Chunks that a re-run of the step takes once more, before any from the chain (log 110). -/
  again : List Chunk := []
  /-- Blocks of 2 KiB received from the chain since the task started (R185). -/
  chainBlocks : Nat := 0
  firstFault : BitVec 16 := 0
  /-- The task ends with this fault once the commands issued before it have completed (R110). -/
  ending : Option (BitVec 16) := none
  /-- Tiles of handles that a failed step unbound, which its issued commands still use: FREE when the step ends (R110, R284). -/
  loose : List Nat := []
  /-- The current step has failed under the BV6 policy; its remaining commands are skipped (R284). -/
  skipping : Bool := false
  /-- A poisoned row went to host memory (R285). -/
  hostPoison : Bool := false
  poisoned : Bool := false
  yielded : Bool := false
  /-- Marked for a step checkpoint (R419): it issues nothing from its next step on. -/
  marked : Bool := false
  /-- Stopped by a repair (R425). -/
  stopped : Bool := false
  /-- Signatures of the step and of the stripe so far (R449, R450). -/
  stepSig : W64 := 0
  stripeSig : W64 := 0
  /-- Governing output and deadline of a live stripe. -/
  out : Nat := 0
  deadline : W64 := 0
  /-- Far-side write ranges of the transfers it started, and those of the interrupted run while it is a replay (R435). -/
  wrote : List (Space × Walk) := []
  replayWrites : List (Space × Walk) := []
deriving DecidableEq, Repr

/-- A checkpoint (Table 15.4) that is valid in both copies. -/
structure Ckpt where
  ctx : Nat
  frame : W32
  point : Nat
  task : BitVec 16
  se : Mem
  /-- Task rows saved and their bytes (512 × position in the list). -/
  rows : List Nat
  data : Mem
  /-- H and T of each region, and the region rows that are full. -/
  regions : List (Nat × Nat)
  full : List Nat
  stats : Tbl TensorCount
  cursors : Tbl Nat
  sems : Tbl (BitVec 16)
  windows : Tbl Window
  ptmBuild : Option BuildRec
  heldIncs : List HeldInc
  stepIndex : Nat
  /-- More full rows than C_ROWS (R417). -/
  overRows : Bool
  /-- H0 and T0 of the task (R138), and the poison marks that the saved rows and halo lines carry (R285). -/
  starts : List (Nat × Nat) := []
  badRows : List Nat := []
  badLines : List Nat := []
  /-- Its offset in a spore log copy, and its bytes there (R412, R415); task rows that a step checkpoint holds ahead of `rows`. -/
  slot : Nat := 0
  len : Nat := 0
  pinRows : Nat := 0
deriving DecidableEq, Repr

/-- A pinned region of a frond (R126). -/
structure Pin where
  used : Bool := false
  pkg : W64 := 0
  ctx : Nat := 0
  shared : Bool := false
  base : Nat := 0
  rows : Nat := 0
deriving DecidableEq, Repr

/-- A live stream's working area (R126). -/
structure WorkArea where
  ctx : Nat
  base : Nat
  rows : Nat
deriving DecidableEq, Repr

/-- A cache line (R145): 128-B line address, age rank in its set. -/
structure CacheLine where
  addr : Nat
  bytes : List Byte
deriving DecidableEq, Repr

/-- An entry of a frond's step ring (R451), with the stripe it belongs to. -/
structure StepSig where
  task : BitVec 16
  step : Nat
  sig : W64
  ctx : Nat
  frame : W32
  stripe : Nat
deriving DecidableEq, Repr

/-- A logical frond (chapters 03 to 10). Its window registers are fields of it or read from them. -/
structure Frond where
  rowOnly : Bool := false
  failed : Bool := false
  ptmHalf : Bool := false
  phase : OnOff := .on
  live : Option Task := none
  simmer : Option Task := none
  released : List StripeJob := []
  /-- Number of the task now running, or that ran last, on the live and on the simmer share (R280). -/
  liveTask : BitVec 16 := 0
  simTask : BitVec 16 := 0
  slotTable : W32 := 0x00FAC688
  tiles : Tbl Tile := {}
  ptm : Tbl W32 := {}
  ptmBuilt : List Nat := []
  vuRegs : Tbl W32 := {}
  vuTables : Tbl W32 := {}
  /-- Poisoned outputs of commands that are neither rows, lines nor handles: VU registers (0 to 15), function tables (16 to 19) and
  PTM slots (32 and up). -/
  vuPoison : List Nat := []
  sems : Tbl (BitVec 16) := {}
  heldIncs : List HeldInc := []
  windows : Tbl Window := {}
  combines : Tbl CombineAcc := {}
  partials : List OutPartial := []
  netOut : List NetAccess := []
  signals : List OutSignal := []
  dma : List DmaXfer := []
  nextXfer : Nat := 0
  chain : List Chunk := []
  /-- Chunks in the inputs of the positions without a logical frond between the chain's previous frond and this one, oldest first (R255, R256). -/
  passing : List Chunk := []
  tsp : Mem := {}
  se : Mem := {}
  /-- Counts the events that made rows or buffer bytes undefined (R129). -/
  epoch : Nat := 0
  /-- Physical rows whose tag is full (R133), rising. -/
  full : List Nat := []
  /-- Spilled task rows whose tag is full (R151). -/
  spillFull : List Nat := []
  poisonRows : List Nat := []
  poisonLines : List Nat := []
  /-- Circular regions of each context that holds some, and those contexts in the order of their hardware regions (R137). -/
  regions : Tbl (List Region) := {}
  regionOwners : List Nat := []
  pins : Tbl Pin := {}
  areas : List WorkArea := []
  /-- Contexts whose working area waits for simmer work to yield, or for the end of a stripe (R126, R127). -/
  placeDue : List Nat := []
  /-- Physical row of each simmer working row in order; 8,192 marks a spilled row (R127). -/
  simRows : List Nat := []
  spillBase : W64 := 0
  segEn : BitVec 16 := 0xFFFF
  segs : Tbl OnOff := {}
  segRefused : Bool := false
  cacheSteps : BitVec 3 := 0
  cacheActive : BitVec 3 := 0
  cacheReject : Bool := false
  /-- An accepted CACHE_STEPS write that the next task boundary applies (R144). -/
  cachePending : Bool := false
  cache : List CacheLine := []
  parityValid : Bool := false
  parityOverrun : Bool := false
  parityRow : BitVec 13 := 0
  parityBank : BitVec 6 := 0
  parityLane : BitVec 3 := 0
  parityCount : BitVec 2 := 0
  parityRemote : Bool := false
  parityRowpath : Bool := false
  faultCode : BitVec 16 := 0
  faultPhase : BitVec 2 := 0
  faultQueue : BitVec 4 := 0
  faultOverrun : Bool := false
  faultValid : Bool := false
  faultIndex : BitVec 16 := 0
  faultVariant : BitVec 6 := 0
  faultDtb : W64 := 0
  row0 : BitVec 13 := 0
  hExt : BitVec 13 := 0
  rank : Byte := 0
  ranks : BitVec 9 := 0
  /-- Step ring of R451: task number, step index, signature. -/
  sigRing : List StepSig := []
  /-- Entries that the ring has taken so far. -/
  sigCount : Nat := 0
  stripeCk : Tbl (Option Ckpt) := {}
  stepCk : Tbl (Option Ckpt) := {}
  admitLoad : BitVec 16 := 0
  admitBurst : BitVec 16 := 0
deriving DecidableEq, Repr

/-! ### Stream movers -/

/-- A composed line on its way to a writeback's buffer (R313, R314). -/
structure WbLine where
  frame : W32
  line : Nat
  addr : Nat
  bytes : List Byte
deriving DecidableEq, Repr

/-- What a stream-mover transfer serves. -/
inductive XferKind where
  | stage (ctx : Nat) (frame : W32)
  | copy (hdr : DescHdr)
  | halo (entry : Nat) (frame : W32)
  /-- A composed line of output `out`, for its writeback binding number `bind`. -/
  | line (out bind : Nat) (l : WbLine)
deriving DecidableEq, Repr

/-- A stream-mover transfer (R261, R268). -/
structure Xfer where
  id : Nat
  kind : XferKind
  ctx : Nat
  live : Bool
  srcSpace : Space
  src : Walk
  dstSpace : Space
  dst : Walk
  total : Nat
  /-- Bytes delivered in the destination walk. -/
  done : Nat
  /-- DTB[35:4] of R277; all ones is infinite. -/
  deadline : W32
  page : Option Nat
deriving DecidableEq, Repr

/-- A stream mover (Table 10.6). -/
structure Mover where
  pending : List Xfer := []
  outstanding : List Xfer := []
  pageLateSeen : Bool := false
deriving DecidableEq, Repr

/-! ### Composition and display -/

/-- A layer record of slots 0 to 20 (Table 11.3), with its coefficient tables. -/
structure Layer where
  en : Bool := false
  live : Bool := false
  transfer : BitVec 3 := 0
  premul : Bool := false
  format : BitVec 4 := 0
  sub : BitVec 2 := 0
  semi : Bool := false
  host : Bool := false
  ctx : BitVec 16 := 0
  plane0 : W64 := 0
  plane1 : W64 := 0
  plane2 : W64 := 0
  pitch0 : W32 := 0
  pitch1 : W32 := 0
  pitch2 : W32 := 0
  srcW : BitVec 16 := 0
  srcH : BitVec 16 := 0
  dstX : BitVec 16 := 0
  dstY : BitVec 16 := 0
  dstW : BitVec 16 := 0
  dstH : BitVec 16 := 0
  xStep : W32 := 0
  yStep : W32 := 0
  xOff : W32 := 0
  yOff : W32 := 0
  dec : List W32 := []
  decOff : List W32 := []
  gam : List W32 := []
  alpha : W32 := 0
  gainShift : Byte := 0
  coef : List (BitVec 16) := []
deriving DecidableEq, Repr

/-- The output-stage record of slot 21 (Table 11.4), with its curve. -/
structure OutStage where
  toneEn : Bool := false
  outTransfer : BitVec 3 := 0
  depth : BitVec 3 := 0
  narrow : Bool := false
  dither : BitVec 2 := 0
  bg : List W32 := [0, 0, 0]
  outGain : W32 := 0
  order : List Byte := []
  curve : List W32 := []
deriving DecidableEq, Repr

/-- The state of one compositor's slots: shadow, snapshot or applied. -/
structure Slots where
  layers : Tbl Layer := {}
  stage : OutStage := {}
deriving DecidableEq, Repr

/-- A pending snapshot (R310 to R312). -/
structure Snapshot where
  hdr : DescHdr
  slots : Slots
  /-- Frame named, frame at which it applies here (none: at the first output's application), and whether it was late. -/
  named : W32
  applyAt : Option W32
  /-- Frame of this output at whose commit point the snapshot is expected to apply, as known when it was captured (R23, R311). -/
  expected : Option W32
  late : Bool
  first : Bool
  /-- Outputs of the COMMIT that have not yet applied it. -/
  order : Nat
deriving DecidableEq, Repr

/-- A COMMIT waiting for its named outputs to apply it (R312). -/
structure CommitWait where
  hdr : DescHdr
  mask : BitVec 4
  first : Nat
  left : BitVec 4
  info : W32
  late : Bool
  order : Nat
deriving DecidableEq, Repr

/-- A line of a live layer in the layer line queue (R427): the ranks that have arrived and their sections. -/
structure QueueLine where
  ctx : Nat
  frame : W32
  line : Nat
  ranks : List Nat
  sections : List LineSection
  poisoned : Bool
  /-- Whole and in time. -/
  complete : Bool
deriving DecidableEq, Repr

/-- A frame of a writeback in progress: lines visible or dropped so far (R314). -/
structure WbFrame where
  frame : W32
  lines : Nat
  dropped : Bool
deriving DecidableEq, Repr

/-- A writeback binding (R313). -/
structure Writeback where
  /-- Number of the binding, which its lines in the stream movers carry. -/
  num : Nat
  ctx : BitVec 14
  body : WritebackBody
  /-- Frame from which it applies; none until its commit point. -/
  since : Option W32
  hdr : Option DescHdr
  frames : List WbFrame := []
  waiting : List WbLine := []
deriving DecidableEq, Repr

/-- A lid image with placement (R307). -/
structure Lid where
  visible : Bool := false
  preset : Bool := false
  w : Nat := 0
  h : Nat := 0
  x : Nat := 0
  y : Nat := 0
  gam : List W32 := []
  image : Mem := {}
  /-- Pixels made transparent by an uncorrectable error (R320). -/
  bad : List Nat := []
deriving DecidableEq, Repr

/-- What a compositor applied at a frame's commit point (R309): slots, lid, and the wear unit's switch and gains (R360). -/
structure Applied where
  frame : W32
  slots : Slots
  lid : Lid
  wearOn : Bool
  gains : Tbl W64
deriving DecidableEq, Repr

/-- A compositor (chapter 11). -/
structure Comp where
  shadow : Slots := {}
  applied : Slots := {}
  frame : W32 := 0
  pending : List Snapshot := []
  lateSeen : Bool := false
  wbOverrunSeen : Bool := false
  queue : List QueueLine := []
  writebacks : List Writeback := []
  lid : Lid := {}
  /-- A lid command accepted and waiting for the commit point (R308). -/
  lidNext : Option Lid := none
  lidSeq : W64 := 0
  lidRejects : BitVec 16 := 0
  /-- States applied at commit points whose frames are not yet composed, oldest first. -/
  states : List Applied := []
  passThrough : Bool := false
  /-- Line after the last line composed of the oldest of them. -/
  composed : Nat := 0
deriving DecidableEq, Repr

/-- Timing fields of a generator (Tables 12.4, 12.5). -/
structure Timing where
  hAct : BitVec 14 := 0
  hFp : BitVec 14 := 0
  hSync : BitVec 14 := 0
  hBp : BitVec 14 := 0
  hPol : Bool := false
  vAct : BitVec 14 := 0
  vFp : BitVec 14 := 0
  vSync : BitVec 14 := 0
  vBp : BitVec 14 := 0
  vPol : Bool := false
  khz : BitVec 23 := 0
  bpc : BitVec 3 := 0
  vrrMode : BitVec 2 := 0
  vrrSrc : Bool := false
  fpMax : BitVec 14 := 0
  periodNs : W32 := 0
  periodFrac : BitVec 16 := 0
  delay : BitVec 14 := 0
deriving DecidableEq, Repr

/-- Phase of a timing generator (R326, R327). -/
inductive TgPhase where
  | off
  | starting
  | running
  | ending
deriving DecidableEq, Repr

/-- A timing generator (chapter 12). -/
structure Tg where
  en : Bool := false
  pair : Bool := false
  tePol : Bool := false
  phase : TgPhase := .off
  heldEn : Bool := false
  endAfterStart : Bool := false
  updPend : Bool := false
  timReject : Bool := false
  rsNospace : Bool := false
  lockMiss : Bool := false
  paired : Bool := false
  shadow : Timing := {}
  eff : Timing := {}
  /-- Captured at the commit point, in force from the next boundary. -/
  next : Option Timing := none
  /-- Line now scanned; an extended porch carries it beyond TG_LINE's 14 bits. -/
  line : BitVec 15 := 0
  frame : W32 := 0
  boundary : W64 := 0
  /-- Lines by which the frame before was longer than its V_MIN (R20). -/
  ext : Nat := 0
  /-- Tick of the first front-porch line of the frame. -/
  porchAt : W64 := 0
  /-- The porch has ended; lines counted since. -/
  afterPorch : Option Nat := none
  event : Option W64 := none
  modeStart : W64 := 0
  modeFrames : Nat := 0
  granules : Nat := 0
deriving DecidableEq, Repr

/-- The raster store (R316 to R319). -/
structure Raster where
  outs : Tbl Mem := {}
  /-- Codes scan-out sent for the last line of each output (the output to the panel). -/
  sent : Tbl (List Nat) := {}
  /-- The same by MST stream: the columns that each one carries (R339). -/
  tiles : Tbl (List (List Nat)) := {}
  /-- Codes sent so far of the frame now scanned, by output and line. -/
  lines : Tbl (Tbl (List Nat)) := {}
deriving DecidableEq, Repr

/-- A DisplayPort transmit port (Table 12.7). -/
structure Dptx where
  en : Bool := false
  maxRate : BitVec 3 := 6
  maxLanes : BitVec 2 := 2
  mst : BitVec 2 := 0
  hpd : Bool := false
  linkUp : Bool := false
  rate : BitVec 3 := 0
  lanes : BitVec 2 := 0
  noBw : Bool := false
  laneRev : Bool := false
  polInv : BitVec 4 := 0
  auxInv : Bool := false
  openLanes : BitVec 4 := 0
  shorted : Bool := false
  asyncSink : Bool := false
  faultCode : BitVec 16 := 0
  faultPin : BitVec 4 := 0
  faultOverrun : Bool := false
  faultValid : Bool := false
  auxAddr : BitVec 20 := 0
  auxLen : BitVec 4 := 0
  auxCmd : BitVec 4 := 0
  auxBusy : Bool := false
  auxReply : BitVec 2 := 0
  auxCount : BitVec 5 := 0
  wrDropped : Bool := false
  auxData : Tbl Byte := {}
  sdp : Tbl Byte := {}
  sdpEff : Tbl Byte := {}
  /-- LINK_UP has been 1 since the present frame began (R356). -/
  upAll : Bool := false
  /-- A training is due or in progress. -/
  training : Bool := false
  /-- Pins found shorted since the drivers were disabled (R346). -/
  shortPins : List Nat := []
  /-- Adaptive-Sync is enabled in the sink, and its SDP is sent with the present frame (R334). -/
  asyncOn : Bool := false
  /-- MSA of each stream sent: H_ACT, H_TOTAL, and the pixel clock in kHz (R339). -/
  msa : List (Nat × Nat × Rat) := []
deriving DecidableEq, Repr

/-- A DisplayPort receive port (R342). -/
structure Dprx where
  /-- The control registers by word (Table 18.4). -/
  ctl : Tbl W32 := {}
  edid : Tbl Byte := {}
  segment : Byte := 0
  offset : Byte := 0
  /-- The port's answer to the source's last request. -/
  reply : List Byte := []
deriving DecidableEq, Repr

/-- Panel control of an output (Table 22.4). -/
structure PanelCtl where
  pwr : Bool := false
  bl : Bool := false
  blDelay : Byte := 0x14
  pwrEn : Bool := false
  /-- PANEL_PWR_EN has been high for BL_DELAY. -/
  delayed : Bool := false
  busy : Bool := false
  heldPwr : Bool := false
deriving DecidableEq, Repr

/-- The identity part of a panel record (Table 13.1), as accepted. -/
structure PanelId where
  make : List Byte
  model : List Byte
  serial : List Byte
  hNative : Nat
  vNative : Nat
  headroom : Nat
  stress : List (BitVec 16)
  decay : List (BitVec 16)
deriving DecidableEq, Repr

/-- A frame as sent, that the PWU samples (R356, R357): whether the links were up throughout, the columns of a half, the depth, and the codes of each
line of the lower and the upper half. -/
structure Shot where
  up : Bool
  width : Nat
  depth : Nat
  lower : Tbl (List Nat)
  upper : Tbl (List Nat)
deriving DecidableEq, Repr

/-- The wear unit of one output (chapter 13). -/
structure Pwu where
  en : Bool := true
  present : Bool := false
  trusted : Bool := false
  geometry : Bool := false
  active : Bool := false
  eol : Bool := false
  coarse : Bool := false
  syncBusy : Bool := false
  used : BitVec 16 := 0
  remain : BitVec 16 := 0xFFFF
  samples : W64 := 0
  identity : Option PanelId := none
  /-- The identity that the counters belong to (R368). -/
  heldFor : Option PanelId := none
  /-- Counter of subpixel 3 × (y × width + x) + colour. -/
  counters : Tbl W32 := {}
  /-- Gain word of each pixel: W_R in [17:0], W_G in [35:18], W_B in [53:36] (R355). -/
  gains : Tbl W64 := {}
  gainsNext : Option (Tbl W64) := none
  frozen : List Nat := []
  /-- Counters at the last 4,096 samples, oldest first (R363). -/
  history : List (Tbl W32) := []
  /-- Number of the 2^30 ns period in which the output's last line-0 tick fell (R356). -/
  lastSlot : Option Nat := none
  /-- The frame now scanned is the first of its period: it is to be sampled. -/
  due : Bool := false
  /-- A sampled frame, sent to its end. -/
  shot : Option Shot := none
deriving DecidableEq, Repr

/-! ### Observation -/

/-- A sample unit (Table 19.5). -/
structure Sampler where
  en : Bool := false
  auto : Bool := false
  irqEn : Bool := false
  ladle : Bool := false
  counter : BitVec 13 := 0
  vec : BitVec 9 := 0
  period : W32 := 0
  valid : Bool := false
  overrun : Bool := false
  cfgReject : Bool := false
  dtb : W64 := 0
  value : BitVec 48 := 0
  ctx : BitVec 14 := 0
  task : BitVec 16 := 0
  cmdIndex : BitVec 16 := 0
  skid : BitVec 3 := 0
  base : Nat := 0
deriving DecidableEq, Repr

/-- PMON (R494 to R501). -/
structure Pmon where
  counters : Tbl (BitVec 48) := {}
  /-- Cycles counted toward the next 1,024 of a counter (R495). -/
  residue : Tbl Nat := {}
  /-- Instant up to which each frond's running time has been counted (Table 19.2 events 0 and 1). -/
  ranTo : Tbl W64 := {}
  perfUser : Bool := false
  units : Tbl Sampler := {}
deriving DecidableEq, Repr

/-- LDL (Table 19.8). -/
structure Ldl where
  linked : Bool := false
  acceptRemote : Bool := true
  srcTg : BitVec 4 := 0
  srcPin : Bool := false
  srcThresh : Bool := true
  srcLockstep : Bool := true
  srcFaults : Byte := 0
  armed : Bool := false
  pending : Bool := false
  valid : Bool := false
  late : Bool := false
  cause : BitVec 3 := 0
  missed : BitVec 16 := 0
  dtb : W64 := 0
  pendL : W64 := 0
  pendCause : BitVec 3 := 0
  matches_ : Tbl (BitVec 14) := {}
  /-- Snapshot words by LDL offset ÷ 4. -/
  snap : Tbl W32 := {}
  waiting : List DescHdr := []
  /-- Latch instants sent to other devices, newest first (R503). -/
  fireSent : List (Nat × W64) := []
deriving DecidableEq, Repr

/-! ### Supervisor, flash, links and power -/

/-- A trust-store entry that verified (R517). -/
structure TrustEntry where
  role : W32
  id : W32
  key : List Byte
deriving DecidableEq, Repr

/-- The supervisor, its mailbox and boot state (chapter 20). -/
structure Svc where
  mbCmd : Byte := 0
  busy : Bool := false
  ignored : Bool := false
  reason : BitVec 4 := 0
  result : BitVec 16 := 0
  mbAddr : W64 := 0
  stage : BitVec 4 := 0
  code : BitVec 4 := 0
  aBad : Bool := false
  bBad : Bool := false
  trustSkip : BitVec 6 := 0
  /-- The fused counter (R515): a fuse. -/
  svnFuse : BitVec 7 := 0
  nonce : W64 := 0
  /-- Debug ports open (R520). -/
  ports : BitVec 2 := 0
  /-- The fuse programming registers by word (Table 18.4). -/
  fuseRegs : Tbl W32 := {}
  recovery : Bool := false
  /-- Boots completed so far: which BOOT_NONCE and which log placement was drawn. -/
  boots : Nat := 0
  imageSvn : Byte := 0
  imageSeq : W64 := 0
  /-- Digests of the running image's body and of the configuration block as read at boot (Table 20.7). -/
  imageDigest : List Byte := []
  configDigest : List Byte := []
  /-- Trust-store entries that verified (R517). -/
  trust : List TrustEntry := []
  peakSupply : Bool := false
  /-- LWL_EN of the configuration. -/
  lwlEn : BitVec 4 := 0
  /-- THERMAL_DERATE in °C. -/
  derate : Nat := 0
  /-- SPORE_SIMMER_MS: the reset value of SPORE_CFG.SIMMER_MS. -/
  simmerMs : Byte := 10
  /-- DP_LANE_MAP of the configuration, two bits a lane, one entry an output; BAR4_SIZE as a power of two. No rule gives either an effect. -/
  laneMap : List Byte := [0xE4, 0xE4, 0xE4, 0xE4]
  bar4Log2 : Nat := 28
  /-- LID_PRESET[0-7] of the configuration (R308). -/
  presets : List (Option Lid) := []
  /-- The PWU area and the supervisor's HBM, placed at boot: first address and first address after (R373). -/
  pwuArea : Nat × Nat := (0, 0)
  svcArea : Nat × Nat := (0, 0)
  /-- A full or warm reset has begun, and the boot it starts has not ended. -/
  booting : Bool := true
  warmBoot : Bool := false
deriving DecidableEq, Repr

/-- The PCIe endpoint as far as the spec gives it state (R370, Table 20.2, Table 20.5 step 6). -/
structure Pcie where
  /-- The link has trained. -/
  link : Bool := false
  /-- The function is enabled; until then configuration requests are answered with retry status. -/
  enabled : Bool := false
  /-- Resets of the configuration space so far: its contents are PCIe's, not the spec's. -/
  resets : Nat := 0
deriving DecidableEq, Repr

/-- The configuration space is reset (R507, R509). -/
def Pcie.resetConfig (p : Pcie) : Pcie := { p with resets := p.resets + 1 }

/-- XSPI registers and the flash behind them (R511, R523). -/
structure Xspi where
  flash : Mem := {}
  /-- First bytes of the slots that a flash error left invalid (R523). -/
  bad : List Nat := []
  /-- The board's flash meets no error in a write of the supervisor; without this each such write may meet one (R523; DESIGN CHOICE, log 149). -/
  sound : Bool := false
  /-- Counts the operations of the XSPI registers that made the flash's contents unknown. -/
  epoch : Nat := 0
  regs : Tbl W32 := {}
  busy : Bool := false
  wrDropped : Bool := false
deriving DecidableEq, Repr

/-- A Lorwirel link (Table 17.4). -/
structure Link where
  en : Bool := false
  maxRate : Bool := false
  ring : Bool := false
  up : Bool := false
  nrz : Bool := false
  width : BitVec 2 := 0
  peer : BitVec 2 := 0
  miswired : Bool := false
  busy : Bool := false
  cfgReject : Bool := false
  latency : BitVec 16 := 0
deriving DecidableEq, Repr

/-- LWL_TICKn (Table 17.5). -/
structure FollowTick where
  follow : Bool := false
  src : BitVec 2 := 0
deriving DecidableEq, Repr

/-- A halo push entry (Table 17.6). -/
structure Halo where
  en : Bool := false
  trigger : Bool := false
  destDev : BitVec 2 := 0
  srcCtx : BitVec 14 := 0
  destCtx : BitVec 14 := 0
  src : W64 := 0
  dst : W64 := 0
  run : BitVec 21 := 0
  count : BitVec 16 := 0
  srcStride : W32 := 0
  dstStride : W32 := 0
  /-- Frames this entry has pushed. -/
  pushed : List W32 := []
deriving DecidableEq, Repr

/-- The Lorwirel block (chapter 17). -/
structure Lwl where
  links : Tbl Link := {}
  master : BitVec 2 := 0
  reached : BitVec 4 := 0
  /-- Writes sent to remote HBM, oldest first: device, address, bytes (the block's output). -/
  sentWrites : List (Fin 4 × Nat × List Byte × Bool) := []
  locked : Bool := false
  holdover : Bool := false
  viaRing : Bool := false
  ticks : Tbl FollowTick := {}
  halos : Tbl Halo := {}
  /-- Another device was the tick master while a link was last up (R463, R466). -/
  follower : Bool := false
  /-- The mark that the bytes of the last remote read carry back (R285). -/
  answerBad : Bool := false
deriving DecidableEq, Repr

/-- A power domain, one die row (R524). -/
structure Domain where
  /-- CAP as last written (the shadow), and the CAP in effect (Table 18.2). -/
  cap : BitVec 2 := 0
  capEff : BitVec 2 := 0
  /-- Plan in effect while the clock runs: 1 floor, 2 nominal, 3 boost. -/
  plan : BitVec 2 := 2
  stretched : Bool := false
  gated : Bool := true
  /-- Weighted boost residency in units of 100 µs (R537). -/
  boost : Nat := 0
deriving DecidableEq, Repr

/-- The power controller (chapter 21). -/
structure Power where
  boostEn : Bool := false
  stage : BitVec 3 := 0
  peakActive : Bool := false
  droopSeen : Bool := false
  tj : BitVec 12 := 0
  watts : BitVec 12 := 0
  bits : BitVec 13 := 0
  domains : Tbl Domain := {}
  /-- Measures of R531 in force, 0 to 3. -/
  level : Nat := 0
  /-- Instants of the 10 µs readings above 480 W within the last 20 s, oldest first. -/
  overTimes : List W64 := []
  cutBack : Bool := false
  /-- Readings of the last 1 ms, newest first. -/
  recent : List (BitVec 12) := []
  /-- Since when Tj has met the condition of stage 4 at stage 3. -/
  hotSince : Option W64 := none
  /-- Since when Tj has met the leaving condition of stage k; k = 5 is that of pass-through (R534). -/
  coolSince : Tbl (Option W64) := {}
  lastSwitch : Option W64 := none
  /-- Streams on their lite program, in the order switched (R533). -/
  liteOrder : List Nat := []
  /-- A budget bit has been blown since the last full or warm reset (R537). -/
  boostThisBoot : Bool := false
  /-- Weighted residency charged to the last bit, in units of 100 µs. -/
  boostUsed : Nat := 0
deriving DecidableEq, Repr

/-- One HBM controller (R480): its posted mode registers and their BUSY. -/
structure HbmCtl where
  busy : Bool := false
  wrDropped : Bool := false
  trained : Bool := false
  mode : Tbl W32 := {}
deriving DecidableEq, Repr

/-- Output and input pins (Table 22.3). -/
structure Pins where
  thermTripN : Bool := true
  /-- LADLE_OUT pulses given, as the instants L they begin at. -/
  ladleOut : List W64 := []
  te : BitVec 4 := 0
deriving DecidableEq, Repr

/-- Columns of a die row (R12, R422, R423): physical column of each logical one, 15 when lost; and what the spare does. -/
structure DieRow where
  cols : List (BitVec 4) := [0, 1, 2, 3, 4, 5, 6, 7]
  failed : BitVec 9 := 0
deriving DecidableEq, Repr

/-- The whole block. -/
structure State where
  /-- DEV_STAT, DEV_ERR, DEV_LOCK, strap (Table 18.8). -/
  strap : BitVec 2 := 0
  ready : Bool := false
  configDefaulted : Bool := false
  boostSpent : Bool := false
  passThrough : Bool := false
  debugUnlocked : Bool := false
  image : BitVec 2 := 0
  lockedWr : Bool := false
  mapRefused : Bool := false
  byteWr : Bool := false
  locks : BitVec 5 := 0
  frondEn : BitVec 256 := BitVec.allOnes 256
  frondPwr : BitVec 256 := BitVec.allOnes 256
  dtb : W64 := 0
  /-- What a follower still has to slew, and the part of a nanosecond it has slewed, in units of 10^-4 ns (R464). -/
  dtbSlew : Int := 0
  dtbFrac : Int := 0
  /-- The model's own count of free values drawn (log 1). -/
  fresh : Nat := 0
  /-- Bytes the last read returned (the block's answer to a read command). -/
  readData : List Byte := []
  hostShadow : Tbl W32 := {}
  svcShadow : Tbl W32 := {}
  writeShadow : Tbl (Option W32) := {}
  rows : Tbl DieRow := {}
  /-- The device is inert after a thermal trip (R535). -/
  inert : Bool := false
  memEpoch : Nat := 0
  hbm : Mem := {}
  hbmPoison : List Nat := []
  host : Mem := {}
  absent : List Nat := []
  readOnly : List Nat := []
  pageReqs : List Nat := []
  invalDone : Nat := 0
  nextXfer : Nat := 0
  commitCount : Nat := 0
  commits : List CommitWait := []
  hif : Hif := {}
  ctxs : Tbl Ctx := {}
  lsch : Lsch := {}
  ls : LockStep := {}
  fronds : Tbl Frond := {}
  movers : Tbl Mover := {}
  comps : Tbl Comp := {}
  tgs : Tbl Tg := {}
  raster : Raster := {}
  dptx : Tbl Dptx := {}
  dprx : Tbl Dprx := {}
  panels : Tbl PanelCtl := {}
  pwu : Tbl Pwu := {}
  /-- Panel EEPROM of an output's panel module: page p (0 to 2) of output n at 3 × n + p; no byte listed, no panel. -/
  eeprom : Tbl Mem := {}
  pmon : Pmon := {}
  ldl : Ldl := {}
  svc : Svc := {}
  xspi : Xspi := {}
  pcie : Pcie := {}
  lwl : Lwl := {}
  power : Power := {}
  hbmCtl : Tbl HbmCtl := {}
  pins : Pins := {}
  /-- Commands waiting, first in, first out. -/
  pending : List Instr := []
deriving DecidableEq, Repr

/-- The block right after power-on reset, before the boot sequence ends (R507 and the register tables). -/
def State.reset : State := {}

end Sys2Proof.Machine
end

