-- ==== Sys2Proof/Machine/Ops.lean ====
section
/-! DEFINITION. The named operations over State that every meaning shares: unit access, memory access, counters, the ladle trigger,
records and the completion of descriptors. -/

namespace Sys2Proof.Machine

/-! ### Status codes (Table 14.8) -/

def stOk : BitVec 16 := 0x0000
def stLateCommit : BitVec 16 := 0x0001
def stPoisoned : BitVec 16 := 0x0002
def stDescBad : BitVec 16 := 0x1001
def stCtxBad : BitVec 16 := 0x1002
def stCtxBusy : BitVec 16 := 0x1003
def stAdmitDenied : BitVec 16 := 0x1004
def stLayerBad : BitVec 16 := 0x1005
def stListBad : BitVec 16 := 0x1006
def stStopped : BitVec 16 := 0x1007
def stRingFault : BitVec 16 := 0x1008
def stLidReject : BitVec 16 := 0x1009
def stShapeOver : BitVec 16 := 0x2001
def stVariantMissing : BitVec 16 := 0x2002
def stCmdIllegal : BitVec 16 := 0x2003
def stPatternRange : BitVec 16 := 0x2004
def stStepAlias : BitVec 16 := 0x2005
def stAccOverflow : BitVec 16 := 0x2006
def stAccMode : BitVec 16 := 0x2007
def stAccHandle : BitVec 16 := 0x2008
def stSemOverflow : BitVec 16 := 0x2009
def stSemTimeout : BitVec 16 := 0x200A
def stTagTimeout : BitVec 16 := 0x200B
def stTspGated : BitVec 16 := 0x200C
def stWindowStale : BitVec 16 := 0x200D
def stWindowRange : BitVec 16 := 0x200E
def stXferBad : BitVec 16 := 0x3001
def stPriDenied : BitVec 16 := 0x3002
def stPageLate : BitVec 16 := 0x3003
def stWbOverrun : BitVec 16 := 0x3004
def stFrondFailed : BitVec 16 := 0x4001
def stHbmUncorr : BitVec 16 := 0x4002
def stRasterUncorr : BitVec 16 := 0x4003
def stLinkFailed : BitVec 16 := 0x4004
def stSvcWatchdog : BitVec 16 := 0x4005
def stFrondsLost : BitVec 16 := 0x4006
def stDeadlineMiss : BitVec 16 := 0x5001
def stCaptureLost : BitVec 16 := 0x5002
def stLinkNoBw : BitVec 16 := 0x5003
def stPortShort : BitVec 16 := 0x5004
def stPortOpen : BitVec 16 := 0x5005
def stPortSwapped : BitVec 16 := 0x5006
def stPanelUntrusted : BitVec 16 := 0x6001
def stPanelGeometry : BitVec 16 := 0x6002
def stPanelEol : BitVec 16 := 0x6003
def stPanelSyncFail : BitVec 16 := 0x6004
def stConfigDefaulted : BitVec 16 := 0x7001
def stBoostSpent : BitVec 16 := 0x7002
def stLiteSwitch : BitVec 16 := 0x7003
def stPassThrough : BitVec 16 := 0x7004

/-! ### Descriptor opcodes (Table 14.5) -/

def opNop : Byte := 0x00
def opFence : Byte := 0x01
def opCtxOpen : Byte := 0x10
def opCtxClose : Byte := 0x11
def opModelBind : Byte := 0x12
def opStreamStart : Byte := 0x20
def opStreamStop : Byte := 0x21
def opFrameSubmit : Byte := 0x22
def opLayerSet : Byte := 0x30
def opCommit : Byte := 0x31
def opWritebackSet : Byte := 0x32
def opJobRun : Byte := 0x40
def opCopy : Byte := 0x41
def opSnapshot : Byte := 0x50
def opWearSync : Byte := 0x51
def opCounterDump : Byte := 0x52

/-- An event reaches a device that is not inert after a thermal trip (R535); on an inert one nothing happens. -/
def unlessInert (s : State) (k : State → State) : Host.Outcome State Fault Refusal := .next (if s.inert then s else k s)

/-! ### Units -/

def State.ctx (s : State) (c : Nat) : Ctx := s.ctxs.get c {}
def State.setCtx (s : State) (c : Nat) (x : Ctx) : State := { s with ctxs := s.ctxs.set c x }
def State.frond (s : State) (f : Nat) : Frond := s.fronds.get f {}
def State.setFrond (s : State) (f : Nat) (x : Frond) : State := { s with fronds := s.fronds.set f x }
def State.sq (s : State) (r : Nat) : SubRing := s.hif.sqs.get r {}
def State.setSq (s : State) (r : Nat) (x : SubRing) : State := { s with hif := { s.hif with sqs := s.hif.sqs.set r x } }
def State.cq (s : State) (r : Nat) : CplRing := s.hif.cqs.get r {}
def State.setCq (s : State) (r : Nat) (x : CplRing) : State := { s with hif := { s.hif with cqs := s.hif.cqs.set r x } }
def State.mover (s : State) (m : Nat) : Mover := s.movers.get m {}
def State.setMover (s : State) (m : Nat) (x : Mover) : State := { s with movers := s.movers.set m x }
def State.comp (s : State) (n : Nat) : Comp := s.comps.get n {}
def State.setComp (s : State) (n : Nat) (x : Comp) : State := { s with comps := s.comps.set n x }
def State.tg (s : State) (n : Nat) : Tg := s.tgs.get n {}
def State.setTg (s : State) (n : Nat) (x : Tg) : State := { s with tgs := s.tgs.set n x }
def State.port (s : State) (n : Nat) : Dptx := s.dptx.get n {}
def State.setPort (s : State) (n : Nat) (x : Dptx) : State := { s with dptx := s.dptx.set n x }
def State.rx (s : State) (n : Nat) : Dprx := s.dprx.get n {}
def State.setRx (s : State) (n : Nat) (x : Dprx) : State := { s with dprx := s.dprx.set n x }
def State.panel (s : State) (n : Nat) : PanelCtl := s.panels.get n {}
def State.setPanel (s : State) (n : Nat) (x : PanelCtl) : State := { s with panels := s.panels.set n x }
def State.wear (s : State) (n : Nat) : Pwu := s.pwu.get n {}
def State.setWear (s : State) (n : Nat) (x : Pwu) : State := { s with pwu := s.pwu.set n x }
def State.out (s : State) (n : Nat) : LschOut := s.lsch.outs.get n {}
def State.setOut (s : State) (n : Nat) (x : LschOut) : State := { s with lsch := { s.lsch with outs := s.lsch.outs.set n x } }
def State.stream (s : State) (c : Nat) : Stream := s.lsch.streams.get c {}
def State.setStream (s : State) (c : Nat) (x : Stream) : State := { s with lsch := { s.lsch with streams := s.lsch.streams.set c x } }
def State.group (s : State) (g : Nat) : McastGroup := s.lsch.groups.get g {}
def State.setGroup (s : State) (g : Nat) (x : McastGroup) : State := { s with lsch := { s.lsch with groups := s.lsch.groups.set g x } }
def State.link (s : State) (k : Nat) : Link := s.lwl.links.get k {}
def State.setLink (s : State) (k : Nat) (x : Link) : State := { s with lwl := { s.lwl with links := s.lwl.links.set k x } }
def State.halo (s : State) (e : Nat) : Halo := s.lwl.halos.get e {}
def State.setHalo (s : State) (e : Nat) (x : Halo) : State := { s with lwl := { s.lwl with halos := s.lwl.halos.set e x } }
def State.tick (s : State) (n : Nat) : FollowTick := s.lwl.ticks.get n {}
def State.setTick (s : State) (n : Nat) (x : FollowTick) : State := { s with lwl := { s.lwl with ticks := s.lwl.ticks.set n x } }
def State.unit (s : State) (u : Nat) : Sampler := s.pmon.units.get u {}
def State.setUnit (s : State) (u : Nat) (x : Sampler) : State := { s with pmon := { s.pmon with units := s.pmon.units.set u x } }
def State.domain (s : State) (d : Nat) : Domain := s.power.domains.get d {}
def State.setDomain (s : State) (d : Nat) (x : Domain) : State := { s with power := { s.power with domains := s.power.domains.set d x } }
def State.row (s : State) (r : Nat) : DieRow := s.rows.get r {}
def State.setRow (s : State) (r : Nat) (x : DieRow) : State := { s with rows := s.rows.set r x }
def State.hbmc (s : State) (k : Nat) : HbmCtl := s.hbmCtl.get k {}
def State.setHbmc (s : State) (k : Nat) (x : HbmCtl) : State := { s with hbmCtl := s.hbmCtl.set k x }

/-- The DTB moved on to the instant of an event; it never runs backward (R464, log 13). -/
def State.at_ (s : State) (now : W64) : State := if s.dtb.toNat < now.toNat then { s with dtb := now } else s

/-- A nanosecond passes with no command waiting: the DTB counts it, and a follower slews by at most 100 ppm, that is by one
unit of 10^-4 ns (R464, log 13). -/
def State.idle (s : State) : State :=
  if s.inert then s
  else
    let d : Int := max (-1) (min 1 s.dtbSlew)
    let f := s.dtbFrac + d
    let carry : Int := if 10000 ≤ f then 1 else if f ≤ -10000 then -1 else 0
    { s with
      dtb := s.dtb + BitVec.ofInt 64 (1 + carry)
      dtbSlew := s.dtbSlew - d
      dtbFrac := f - 10000 * carry }

/-- A free value: no rule fixes it, and each one drawn is a fresh one (log 1). -/
def State.draw (s : State) : W64 × State := (Config.freeWord s.fresh, { s with fresh := s.fresh + 1 })

/-! ### Memory -/

/-- Bytes of HBM from device address 0 (Table 14.2, R373). -/
def hbmBytes : Nat := 96 * 2 ^ 30

/-- Bytes of one spore log copy (Table 15.2). -/
def sporeBytes : Nat := 0x48010000 + 2180 * 2 ^ 20

def State.hbmByte (s : State) (a : Nat) : Byte := (s.hbm.get? a).getD (Config.freeByte 0 s.memEpoch a)
def State.hostByte (s : State) (a : Nat) : Byte := (s.host.get? a).getD (Config.freeByte 1 0 a)
def State.flashByte (s : State) (a : Nat) : Byte := (s.xspi.flash.get? a).getD (Config.freeByte 2 s.xspi.epoch a)

/-- n bytes read through f from address a. -/
def readBytes (f : Nat → Byte) (a n : Nat) : List Byte := (List.range n).map (fun i => f (a + i))

def State.hbmRead (s : State) (a n : Nat) : List Byte := readBytes s.hbmByte a n
def State.hostRead (s : State) (a n : Nat) : List Byte := readBytes s.hostByte a n
def State.flashRead (s : State) (a n : Nat) : List Byte := readBytes s.flashByte a n

/-- The bytes of HBM (host = false) or of host memory. -/
def State.memRead (s : State) (host : Bool) (a n : Nat) : List Byte := if host then s.hostRead a n else s.hbmRead a n

/-- A write of HBM bytes; a write that covers all 64 B of a poisoned word clears its mark (R410). -/
def State.hbmWrite (s : State) (a : Nat) (l : List Byte) : State :=
  { s with
    hbm := s.hbm.write a l
    hbmPoison := s.hbmPoison.filter (fun w => !(decide (a ≤ 64 * w) && decide (64 * w + 64 ≤ a + l.length))) }

/-- `State.hbmWrite` of a long run of bytes. -/
def State.hbmLay (s : State) (a : Nat) (l : List Byte) : State :=
  { s with
    hbm := s.hbm.lay a l
    hbmPoison := s.hbmPoison.filter (fun w => !(decide (a ≤ 64 * w) && decide (64 * w + 64 ≤ a + l.length))) }

def State.hostWrite (s : State) (a : Nat) (l : List Byte) : State := { s with host := s.host.write a l }
def State.flashWrite (s : State) (a : Nat) (l : List Byte) : State :=
  { s with xspi := { s.xspi with flash := s.xspi.flash.write a l } }
def State.memWrite (s : State) (host : Bool) (a : Nat) (l : List Byte) : State :=
  if host then s.hostWrite a l else s.hbmWrite a l

/-- Some 64-B word of n bytes from a reads as poisoned. -/
def State.hbmPoisoned (s : State) (a n : Nat) : Bool :=
  s.hbmPoison.any (fun w => decide (64 * w < a + n) && decide (a < 64 * w + 64))

/-- HBM bytes that are undefined from here on. -/
def State.blurHbm (s : State) (a n : Nat) : State :=
  { s with hbm := s.hbm.write a (readBytes (Config.freeByte 702 s.fresh) a n), fresh := s.fresh + 1 }

/-- Marks the 64-B words of n bytes from a as poisoned; what of a word that was clean lies outside them is undefined (R285, R410). -/
def State.poisonHbm (s : State) (a n : Nat) : State :=
  let b := a + n
  let s := if a % 64 = 0 ∨ s.hbmPoison.contains (a / 64) then s else s.blurHbm (a / 64 * 64) (a % 64)
  let s := if b % 64 = 0 ∨ s.hbmPoison.contains (b / 64) then s else s.blurHbm b (64 - b % 64)
  { s with hbmPoison := (List.range ((a + n - 1) / 64 + 1 - a / 64)).foldl (fun l i => insertNat (a / 64 + i) l) s.hbmPoison }

/-- The first page without a translation among n bytes from a (R270, R380). -/
def State.absentIn (s : State) (a n : Nat) (write : Bool := false) : Option Nat :=
  (if write then s.absent ++ s.readOnly else s.absent).find? (fun p => decide (4096 * p < a + n) && decide (a < 4096 * p + 4096) && decide (0 < n))

/-- Two byte ranges meet. -/
def meets (a n lo hi : Nat) : Bool := decide (a < hi) && decide (lo < a + n)

/-- Some byte of the range is HBM that BAR4 does not serve: at or above 96 GiB, in a spore log copy, in the PWU area or in the supervisor's HBM (R373). -/
def State.guarded (s : State) (a n : Nat) : Bool :=
  decide (hbmBytes < a + n)
    || (s.ready && (meets a n s.lsch.sporeA.toNat (s.lsch.sporeA.toNat + sporeBytes)
          || meets a n s.lsch.sporeB.toNat (s.lsch.sporeB.toNat + sporeBytes)))
    || meets a n s.svc.pwuArea.1 s.svc.pwuArea.2
    || meets a n s.svc.svcArea.1 s.svc.svcArea.2

/-! ### The ladle trigger (R502 to R504) -/

/-- First multiple of 16 ns at least 1 µs after an instant (R502). -/
def localLatch (t : W64) : W64 := BitVec.ofNat 64 ((t.toNat + 1000 + 15) / 16 * 16)

/-- One more ignored firing (R504). -/
def Ldl.miss (l : Ldl) : Ldl := { l with missed := satAdd l.missed 1 }

/-- A firing of an enabled source that names latch instant L: it is taken when the trigger is armed (or for SNAPSHOT, `always`),
and while one is pending only an earlier instant replaces the pending one (R502, R504). -/
def Ldl.fire (l : Ldl) (cause : BitVec 3) (always : Bool) (latchAt : W64) : Ldl :=
  if l.pending then
    if latchAt.toNat < l.pendL.toNat then { l with pendL := latchAt, pendCause := cause } else l.miss
  else if l.armed || always then { l with armed := false, pending := true, pendL := latchAt, pendCause := cause }
  else l

/-- A firing is taken, not ignored (R502, R504). -/
def Ldl.takes (l : Ldl) (always : Bool) (latchAt : W64) : Bool :=
  if l.pending then decide (latchAt.toNat < l.pendL.toNat) else l.armed || always

/-- Links that are up. -/
def State.upLinks (s : State) : List Nat := (List.range 4).filter (fun k => (s.link k).up)

/-- Link k of this device runs as the ring (R462). -/
def Link.isRing (l : Link) (k : Nat) : Bool := l.ring && decide (k = 3)

/-- A firing on this device: local or linked instant; a linked one that is taken goes out over every link that is up, the ring included (R502 to R504). -/
def State.ladleFire (s : State) (cause : BitVec 3) (always linked : Bool) : State :=
  let latchAt := if linked then s.dtb + 20000 else localLatch s.dtb
  let l := s.ldl.fire cause always latchAt
  { s with ldl := if linked && s.ldl.takes always latchAt then { l with fireSent := s.upLinks.map (fun k => (k, latchAt)) ++ l.fireSent } else l }

/-- Detection of a fault of row k of Table 15.1 (source 3). -/
def State.ladleFault (s : State) (k : Nat) : State :=
  if bitOf s.ldl.srcFaults k then s.ladleFire 3 false s.ldl.linked else s

/-- An MSI-X message leaves, unless its table entry is masked; a masked one pends (R385; the table is PCIe's, log 5). -/
def State.msix (s : State) (v : BitVec 9) : State :=
  if bitOf (s.hif.msixTable.get (4 * v.toNat + 3) 1) 0 then
    { s with hif := { s.hif with msixPba := setBit s.hif.msixPba v.toNat true } }
  else { s with hif := { s.hif with msixSent := s.hif.msixSent ++ [v] } }

/-! ### The mailbox's end (R521) -/

/-- A mailbox command ends with its RESULT and REASON. -/
def State.mbDone (s : State) (result : BitVec 16) (reason : BitVec 4) : State :=
  { s with svc := { s.svc with busy := false, result := result, reason := reason } }

/-- A command is refused. -/
def State.mbRefuse (s : State) (reason : BitVec 4) : State := s.mbDone stDescBad reason

/-- An OP that Table 20.9 names. -/
def mbKnown (op : Byte) : Bool := decide (1 ≤ op.toNat) && decide (op.toNat ≤ 7)

/-- A command with an OP that Table 20.9 does not name ends with DESC_BAD; its REASON is free (log 47). -/
def State.mbUnknown (s : State) : State :=
  let (w, s) := s.draw
  s.mbRefuse (BitVec.ofNat 4 w.toNat)

/-! ### Event counters and threshold sampling (R494 to R501) -/

/-- Indices of the catalogue (Table 19.1). -/
def cntFrond (f e : Nat) : Nat := 16 * f + e
def cntHif (e : Nat) : Nat := 0x1000 + e
def cntLsch (e : Nat) : Nat := 0x1010 + e
def cntComp (n e : Nat) : Nat := 0x1020 + 4 * n + e
def cntRaster (e : Nat) : Nat := 0x1030 + e
def cntPort (n e : Nat) : Nat := 0x1040 + 4 * n + e
def cntLink (n e : Nat) : Nat := 0x1050 + 4 * n + e
def cntHbm (n e : Nat) : Nat := 0x1060 + 4 * n + e
def cntPwu (n e : Nat) : Nat := 0x1070 + 4 * n + e

/-- The task that a frond now executes: the live stripe ahead of a simmer task. -/
def Frond.task (x : Frond) : Option Task := x.live.orElse (fun _ => x.simmer)

/-- What a capture records of a task: the index of the command that issues next, and how many have issued since the crossing one, 0 to 4. The crossing
command is the one that its engine is executing, else the last one issued; how many more issue before the capture, w, is a free choice
(R500, log 45). -/
def Task.skid (t : Task) (w : Nat) : Nat × Nat :=
  let behind := min 4 (t.cmdIndex - 1 - t.executing.getD (t.cmdIndex - 1))
  let more := w % (min (4 - behind) (t.cmdCount - t.cmdIndex) + 1)
  (t.cmdIndex + more, behind + more)

/-- A sample unit fires (R499 to R501): it records a sample unless one is held, re-arms or stops, interrupts and fires the ladle. -/
def State.sampleFire (s : State) (u : Nat) (value : BitVec 48) : State :=
  let (w, s) := s.draw
  let x := s.unit u
  let f := x.counter.toNat / 16
  let t := if x.counter.toNat < 0x1000 then (s.frond f).task else none
  let y : Sampler :=
    if x.valid then { x with overrun := true }
    else { x with
      valid := true, dtb := s.dtb, value := value
      ctx := (t.map (fun k => BitVec.ofNat 14 k.ctx)).getD 0
      task := (t.map (fun k => k.taskNo)).getD 0
      cmdIndex := (t.map (fun k => BitVec.ofNat 16 (k.skid w.toNat).1)).getD 0
      skid := (t.map (fun k => BitVec.ofNat 3 (k.skid w.toNat).2)).getD 0 }
  let y := if x.auto then { y with base := x.base + x.period.toNat } else { y with en := false }
  let s := s.setUnit u y
  let s := if x.irqEn then s.msix x.vec else s
  if x.ladle && s.ldl.srcThresh then s.ladleFire 5 false s.ldl.linked else s

/-- A frond's logical position is lost (R423): no physical column serves it. -/
def State.lost (s : State) (f : Nat) : Bool := (s.row (f / 8)).cols.getD (f % 8) 15 = 15

/-- A counter is one of a lost position, which adds nothing further (R496). -/
def State.deadCounter (s : State) (idx : Nat) : Bool := decide (idx < 0x1000) && s.lost (idx / 16)

/-- n occurrences of the event of a counter (R494); sample units watching it fire at their threshold. -/
def State.count (s : State) (idx n : Nat) : State :=
  if s.deadCounter idx then s
  else
    let v := satAdd (s.pmon.counters.get idx 0) n
    let s := { s with pmon := { s.pmon with counters := s.pmon.counters.set idx v } }
    (List.range 16).foldl (fun s u =>
      let x := s.unit u
      let k := if x.en && decide (x.counter.toNat = idx) then (v.toNat - x.base) / x.period.toNat else 0
      (List.range (if x.auto then k else min k 1)).foldl (fun s _ => s.sampleFire u v) s) s

/-- n occurrences, perhaps none, of an event. -/
def State.countSome (s : State) (idx n : Nat) : State := if n = 0 then s else s.count idx n

/-- n frond cycles of a condition whose counter counts units of 1,024 cycles (R495). -/
def State.countCycles (s : State) (idx n : Nat) : State :=
  let r := s.pmon.residue.get idx 0 + n
  let s := { s with pmon := { s.pmon with residue := s.pmon.residue.set idx (r % 1024) } }
  if 1024 ≤ r then s.count idx (r / 1024) else s

/-- MHz of a clock plan (R525). -/
def planMhz (plan : BitVec 2) : Nat := if plan = 1 then 1250 else if plan = 2 then 1500 else if plan = 3 then 1800 else 0

/-- The frond counter whose condition holds now: 0 while a live stripe runs, 1 while a simmer task does (Table 19.2). -/
def Frond.running (x : Frond) : Option Nat :=
  match x.live, x.simmer with
  | some _, _ => some 0
  | none, some t => if t.yielded then none else some 1
  | none, none => none

/-- Frond cycles since frond f's running time was last counted. A stretched clock loses up to a fifth of them, how much is free (R529, log 69). -/
def State.ranCycles (s : State) (f : Nat) : Nat :=
  let d := s.domain (f / 8)
  let since := s.pmon.ranTo.get f 0
  let n := if d.gated then 0 else (s.dtb.toNat - since.toNat) * planMhz d.plan / 1000
  if d.stretched then n - n * (Config.freeByte 703 f since.toNat).toNat / 1275 else n

/-- Frond f's running time up to now is counted: before its task or its clock changes (events 0 and 1 of Table 19.2, R494, R495). -/
def State.meter (s : State) (f : Nat) : State :=
  let s' := { s with pmon := { s.pmon with ranTo := s.pmon.ranTo.set f s.dtb } }
  match (s.frond f).running with
  | none => s'
  | some e => s'.countCycles (cntFrond f e) (s.ranCycles f)

/-- The running time of every frond of a power domain is counted. -/
def State.meterDomain (s : State) (d : Nat) : State := (List.range 8).foldl (fun s i => s.meter (8 * d + i)) s

/-- The count of a counter at this instant. -/
def State.counterNow (s : State) (idx : Nat) : BitVec 48 :=
  let v := s.pmon.counters.get idx 0
  if decide (idx < 0x1000) && decide ((s.frond (idx / 16)).running = some (idx % 16)) && !s.deadCounter idx then
    satAdd v ((s.pmon.residue.get idx 0 + s.ranCycles (idx / 16)) / 1024)
  else v

/-! ### Records (R382 to R395) -/

/-- A record put behind those of its completion ring; while the ring holds records it joins the hold, up to 256 (R384). -/
def State.pushRecord (s : State) (q : Nat) (r : Record) : State :=
  let c := s.cq q
  if 0 < c.held && decide (c.held < 256) then
    (s.setCq q { c with queue := c.queue ++ [r], held := c.held + 1 }).count (cntHif 3) 1
  else s.setCq q { c with queue := c.queue ++ [r] }

/-- An event record; one that finds 256 records held is discarded, and the next record written carries OVERFLOW (R384). -/
def State.pushEvent (s : State) (q : Nat) (r : Record) : State :=
  let c := s.cq q
  if 256 ≤ c.held then s.setCq q { c with overflowSeen := true, overflowNext := true }
  else (s.setCq q { c with events := c.events + 1 }).pushRecord q { r with seq := c.events + 1 }

/-- An event record of a context, to its EVT_CQ (R395). -/
def State.ctxEvent (s : State) (c : Nat) (status : BitVec 16) (op : Byte) (i0 i1 i2 : W32) : State :=
  s.pushEvent (fieldOf (s.ctx c).evtCq 5 0)
    { status := status, ctx := BitVec.ofNat 14 c, event := true, seq := 0, dtb := s.dtb, op := op, sq := 0, device := false,
      cause := 0, info0 := i0, info1 := i1, info2 := i2, irq := false }

/-- An event record with DEVICE = 1, to HIF_CTL.EVT_CQ (R395). -/
def State.devEvent (s : State) (status : BitVec 16) (i0 i1 : W32) : State :=
  s.pushEvent s.hif.evtCq.toNat
    { status := status, ctx := 0, event := true, seq := 0, dtb := s.dtb, op := 0, sq := 0, device := true,
      cause := 0, info0 := i0, info1 := i1, info2 := 0, irq := false }

/-- The share that contexts have in a device fault: an event of each to its own EVT_CQ, with the failing unit in INFO0 (R395; DEDUCED, log 139). -/
def State.ctxFaults (s : State) (ctxs : List Nat) (status : BitVec 16) (info : W32) : State :=
  ctxs.foldl (fun s c => s.ctxEvent c status (if decide (c < 48) then opFrameSubmit else opJobRun) info 0 0) s

/-- The record that completes a descriptor. -/
def State.record (s : State) (h : DescHdr) (op : Byte) (status : BitVec 16) (i0 i1 i2 : W32) (cause : BitVec 16) : Record :=
  { status := status, ctx := h.ctx, event := false, seq := h.idx, dtb := s.dtb, op := op, sq := BitVec.ofNat 6 h.sq.val,
    device := false, cause := cause, info0 := i0, info1 := i1, info2 := i2, irq := h.irq }

/-- The records at the front of a ring's in-flight list that are done, and the rest: records leave in submission order (R401, R434). -/
def splitDone : List InFlight → List Record × List InFlight
  | [] => ([], [])
  | x :: r =>
    match x.done with
    | some d => let (a, b) := splitDone r; (d :: a, b)
    | none => ([], x :: r)

/-- Address of the spore record slot i in a copy based at b (Table 15.2). -/
def sporeAddr (b : W64) (i : Nat) : Nat := b.toNat + 0x10000 + 128 * i

/-- A field of a spore record written to both copies (R412). -/
def State.sporeField (s : State) (slot off : Nat) (l : List Byte) : State :=
  (s.hbmWrite (sporeAddr s.lsch.sporeA slot + off) l).hbmWrite (sporeAddr s.lsch.sporeB slot + off) l

/-- Every descriptor of ring r with an index below i has completed (R391, R392): indices compare as free-running counts. -/
def State.ringDoneBelow (s : State) (r : Nat) (i : W32) : Bool :=
  (s.sq r).inflight.all (fun x => x.done.isSome || decide (0 ≤ (x.idx - i).toInt))

/-- The submission ring is working: enabled, and not held back by its own shut-down (R489). -/
def SubRing.active (r : SubRing) : Bool := r.en && !r.busy && !r.halted

/-- A submission ring halts: HALTED is set and no further descriptor is taken (R376). -/
def State.haltRing (s : State) (r : Nat) : State :=
  (s.setSq r { s.sq r with halted := true, sleep := false }).count (cntHif 2) 1

/-- A ring that halts on its own doorbell or ring memory reports a RING_FAULT event (R376, R380). -/
def State.ringFault (s : State) (r : Nat) : State :=
  (s.haltRing r).pushEvent s.hif.evtCq.toNat
    { status := stRingFault, ctx := 0, event := true, seq := 0, dtb := s.dtb, op := 0, sq := BitVec.ofNat 6 r, device := true,
      cause := 0, info0 := 0, info1 := 0, info2 := 0, irq := false }

/-- Descriptors of a ring (R374). -/
def SubRing.size (r : SubRing) : Nat := 2 ^ r.log2.toNat

/-- The start of a submission ring: the device reads the starting index from the doorbell record's HEAD (R375, log 14), and TAIL. A missing
translation, or a TAIL further ahead than the ring is long, halts it (R376, R380). -/
def State.sqStart (s : State) (r : Nat) : State :=
  let x := s.sq r
  let x := { x with busy := false, heldEn := false, halted := false, sleep := false, lastDesc := s.dtb }
  let head := BitVec.ofNat 32 (leNat (s.hostRead (x.recAddr.toNat + 8) 4))
  let tail := BitVec.ofNat 32 (leNat (s.hostRead x.recAddr.toNat 4))
  if (s.absentIn x.recAddr.toNat 64).isSome then (s.setSq r x).ringFault r
  else
    let s := s.setSq r { x with head := head, tailSeen := tail }
    if x.size < (tail - head).toNat then s.ringFault r else s

/-- The start of a completion ring, at index 0 with HEAD 0 (R382). -/
def CplRing.start (c : CplRing) : CplRing :=
  { c with busy := false, heldEn := false, tail := 0, headSeen := 0, unsignalled := 0, firstUnsignalled := none }

/-- A submission ring's shut-down ends with its last descriptor; a held enable then starts it (R489). -/
def State.sqSettle (s : State) (r : Nat) : State :=
  let x := s.sq r
  if x.busy && x.inflight.isEmpty then
    if x.heldEn then s.sqStart r else s.setSq r { x with busy := false }
  else s

/-- Some descriptor in progress will write its record to completion ring q. -/
def State.cqNeeded (s : State) (q : Nat) : Bool :=
  (List.range 64).any (fun r => (s.sq r).cq.toNat = q && !(s.sq r).inflight.isEmpty)

/-- A completion ring's shut-down ends when no record is left for it (R489, Table 14.11). -/
def State.cqSettle (s : State) (q : Nat) : State :=
  let c := s.cq q
  if c.busy && c.queue.isEmpty && !s.cqNeeded q then
    s.setCq q (if c.heldEn then c.start else { c with busy := false })
  else s

/-- A record is the descriptor's last word: with the ring's in-flight entry it waits its turn, without one it goes straight to the completion ring. -/
def State.finish (s : State) (sq : Nat) (r : Record) : State :=
  let ring := s.sq sq
  let mine := fun x : InFlight => decide (x.idx = r.seq) && x.done.isNone
  if ring.inflight.any mine then
    let marked := ring.inflight.map (fun x => if mine x then { x with done := some { r with slot := some x.slot } } else x)
    let (out, rest) := splitDone marked
    let s := s.setSq sq { ring with inflight := rest }
    (out.foldl (fun s d => s.pushRecord ring.cq.toNat d) s).sqSettle sq
  else s.pushRecord ring.cq.toNat r

/-- The FENCEs whose rings have completed all that they recorded complete with OK (R392), one by one: one that completes may be what another waits for. -/
def State.settleFences : Nat → State → State
  | 0, s => s
  | fuel + 1, s =>
    let ready (f : FenceWait) : Bool := f.targets.all (fun t => s.ringDoneBelow t.1 t.2)
    match s.hif.fences.find? ready with
    | none => s
    | some f =>
      let s := { s with hif := { s.hif with fences := s.hif.fences.filter (fun g => !(decide (g.hdr.sq = f.hdr.sq) && decide (g.hdr.idx = f.hdr.idx))) } }
      State.settleFences fuel (s.finish f.hdr.sq.val (s.record f.hdr opFence stOk 0 0 0 0))

/-- Every FENCE that waits is judged (R392). -/
def State.checkFences (s : State) : State := State.settleFences s.hif.fences.length s

/-- A descriptor completes with a status and its INFO fields (R393, R394); FENCEs that waited on it follow. -/
def State.completeWith (s : State) (h : DescHdr) (op : Byte) (status : BitVec 16) (i0 i1 i2 : W32) (cause : BitVec 16) : State :=
  let s := if status = stAdmitDenied then s.count (cntLsch 3) 1 else s
  (s.finish h.sq.val (s.record h op status i0 i1 i2 cause)).checkFences

/-- A descriptor completes with a status and no INFO. -/
def State.complete (s : State) (h : DescHdr) (op : Byte) (status : BitVec 16) : State := s.completeWith h op status 0 0 0 0

/-- A descriptor starts: STATE 2 in its spore record (R413). -/
def State.start (s : State) (h : DescHdr) : State :=
  let ring := s.sq h.sq.val
  match ring.inflight.find? (fun x => x.idx = h.idx && x.done.isNone) with
  | none => s
  | some x =>
    let s := s.setSq h.sq.val { ring with inflight := ring.inflight.map (fun y => if y.idx = h.idx then { y with state := 2 } else y) }
    s.sporeField x.slot 0x45 [2]

/-- PROGRESS in a descriptor's spore record (Table 15.3). -/
def State.progress (s : State) (h : DescHdr) (n : Nat) : State :=
  match (s.sq h.sq.val).inflight.find? (fun x => x.idx = h.idx && x.done.isNone) with
  | none => s
  | some x => s.sporeField x.slot 0x50 (toLe 4 n)

/-- Ring order (R391): a descriptor starts after the ones taken before it have started, with BARRIER after they have completed,
and after every FENCE before it on its own ring (R392). -/
def State.mayStart (s : State) (h : DescHdr) : Bool :=
  (s.sq h.sq.val).inflight.all (fun x => decide (0 ≤ (x.idx - h.idx).toInt) || x.done.isSome
      || (decide (2 ≤ x.state.toNat) && !h.barrier))
    && s.hif.fences.all (fun f => !(decide (f.hdr.sq = h.sq) && decide ((f.hdr.idx - h.idx).toInt < 0)))

/-- A descriptor runs once it may start; until then the command changes nothing (log 15). -/
def descriptor (h : DescHdr) (s : State) (k : State → State) : Host.Outcome State Fault Refusal :=
  unlessInert s (fun s => if s.mayStart h then k (s.start h) else s)

/-- A structure a descriptor names lies in a host page without a translation: it completes with RING_FAULT and its ring halts (R380). -/
def State.descRingFault (s : State) (h : DescHdr) (op : Byte) : State :=
  (s.complete h op stRingFault).haltRing h.sq.val

/-- A context's number is that of a live stream (R397). -/
def liveCtx (c : Nat) : Bool := decide (c < 48)

/-- The logical fronds of a bound context, ascending. -/
def Bound.fronds (b : Bound) : List Nat := bitsOf b.mask

/-- The live contexts whose stream is running or stopping. -/
def State.liveStreams (s : State) : List Nat :=
  (List.range 48).filter (fun c => (s.ctx c).state = .running || (s.ctx c).state = .stopping)

/-- The output whose generator governs an output: the lower one of a locked pair (R19). -/
def State.governor (s : State) (n : Nat) : Nat := if (s.tg n).paired then n / 2 * 2 else n

/-- The output that governs live stream c: the lower one of a locked pair (R19). -/
def State.outOf (s : State) (c : Nat) : Nat := s.governor (s.ctx c).output.toNat

/-- The live streams an output governs (R19, Table 14.9 OUTPUT). -/
def State.governed (s : State) (n : Nat) : List Nat :=
  s.liveStreams.filter (fun c => s.governor (s.ctx c).output.toNat = n)

/-- The fronds of the set a live stream occupies. -/
def State.setOf (s : State) (c : Nat) : List Nat := ((s.ctx c).bound.map Bound.fronds).getD []

/-- A frond that belongs to an admitted live stream's set. -/
def State.carriesLive (s : State) (f : Nat) : Bool :=
  s.liveStreams.any (fun c => ((s.ctx c).bound.map (fun b => b.mask.getLsbD f)).getD false)

/-- Room in the pending queues of the movers. -/
def State.moverRoom (s : State) : Nat := ((List.range 32).map (fun m => 64 - (s.mover m).pending.length)).sum

/-- The record of a frame of a live stream that is in progress. -/
def State.frameRun (s : State) (c : Nat) (frame : W32) : Option FrameRun := (s.stream c).frames.find? (fun r => decide (r.frame = frame))

/-- Deadline of R277 from a DTB instant. -/
def deadlineOf (t : W64) : W32 :=
  let d := BitVec.ofNat 32 (t.toNat / 16)
  if d = 0xFFFFFFFF then 0xFFFFFFFE else d

/-- Deadline order of R277: infinite is later than every finite one, and two finite ones compare by the sign of their difference. -/
def deadlineLe (a b : W32) : Bool :=
  if b = 0xFFFFFFFF then true else if a = 0xFFFFFFFF then false else decide (0 ≤ (b - a).toInt)

end Sys2Proof.Machine
end

