-- ==== Sys2Proof/Machine/Timing.lean ====
section
/-! DEFINITION. Timing arithmetic of a generator (R20, R317, R321, R322), exact in rational nanoseconds. -/

namespace Sys2Proof.Machine

/-- Bits per component of a BPC or DEPTH code. -/
def bitsPer (code : Nat) : Nat :=
  if code = 0 then 6 else if code = 1 then 8 else if code = 2 then 10 else if code = 3 then 12 else 16

/-- H_TOTAL (R321). -/
def Timing.hTotal (t : Timing) : Nat := t.hSync.toNat + t.hBp.toNat + t.hAct.toNat + t.hFp.toNat

/-- V_MIN (R321). -/
def Timing.vMin (t : Timing) : Nat := t.vAct.toNat + t.vFp.toNat + t.vSync.toNat + t.vBp.toNat

/-- The line period T in nanoseconds (R321); with no clock programmed it is not defined and reads 0. -/
def Timing.lineNs (t : Timing) : Rat := (t.hTotal : Rat) * 1000000 / (t.khz.toNat : Rat)

/-- Line pitch of the raster in bytes (R317). -/
def Timing.pitch (t : Timing) : Nat := 64 * ((t.hAct.toNat * 3 * bitsPer t.bpc.toNat + 511) / 512)

/-- Granules of 1 MiB that the raster needs (R317). -/
def Timing.granules (t : Timing) : Nat := (t.pitch * t.vAct.toNat + 1048575) / 1048576

/-- The beam lead's range for a V_MIN and the tallest stripe (R43). -/
def beamOk (lead vMin hMax : Nat) : Bool := decide (16 ≤ lead) && decide (lead + 2 * hMax ≤ vMin)

/-- The limits of Table 12.2. -/
def Timing.ok (t : Timing) (lead hMax : Nat) : Bool :=
  decide (64 ≤ t.hAct.toNat) && decide (t.hAct.toNat ≤ 7680) && decide (64 ≤ t.vAct.toNat) && decide (t.vAct.toNat ≤ 4320)
    && decide (8 ≤ t.hFp.toNat) && decide (8 ≤ t.hSync.toNat) && decide (64 ≤ t.hSync.toNat + t.hBp.toNat)
    && decide (1 ≤ t.vFp.toNat) && decide (1 ≤ t.vSync.toNat) && decide (1 ≤ t.vBp.toNat)
    && decide (t.hTotal ≤ 16383) && decide (t.vMin ≤ 16383)
    && decide (25000 ≤ t.khz.toNat) && decide (t.khz.toNat ≤ 3000000)
    && decide (t.khz.toNat ≤ t.hTotal * 1000)
    && decide (t.hAct.toNat * t.khz.toNat * 10 ≤ 9 * t.hTotal * 4800000)
    && decide (t.bpc.toNat ≤ 4)
    && (decide (t.vrrMode = 0) || decide (t.vFp.toNat ≤ t.fpMax.toNat))
    && beamOk lead t.vMin hMax

/-- Every horizontal quantity is a multiple of the number of MST streams (R339). -/
def Timing.mstOk (t : Timing) (streams : Nat) : Bool :=
  decide (t.hAct.toNat % streams = 0) && decide (t.hFp.toNat % streams = 0) && decide (t.hSync.toNat % streams = 0)
    && decide (t.hBp.toNat % streams = 0)

/-- Streams a port carries: 1, 2 or 4 (the reserved code counts as 4; log 16). -/
def Dptx.streams (p : Dptx) : Nat := if p.mst = 0 then 1 else if p.mst = 1 then 2 else 4

/-- The cover lead ceil(250 µs ÷ T) + 2 (R44). -/
def Timing.coverLead (t : Timing) : Nat := (t.khz.toNat + 4 * t.hTotal - 1) / (4 * t.hTotal) + 2

/-- Rate of a DisplayPort lane in Mb/s, by rate code; the reserved code counts as the highest (Table 12.7, log 40). -/
def laneMbps (rate : Nat) : Nat := [1620, 2700, 5400, 8100, 10000, 13500].getD rate 20000

/-- Lanes of a lane code; the reserved code counts as four. -/
def laneCount (code : Nat) : Nat := if code = 0 then 1 else if code = 1 then 2 else 4

/-- The stream fits 99 % of the payload capacity of a trained link (R338): both sides in units of 10^6 ÷ 13,200 bits a second. -/
def linkFits (rate lanes mst khz depth : Nat) : Bool :=
  let raw := lanes * laneMbps rate
  let payload := if rate < 4 then raw * 8 * 1320 else raw * 128 * 100
  let payload := if mst = 0 then payload * 64 else payload * 63
  decide (khz * 3 * depth * 13200 * 64 * 100 ≤ payload * 99 * 1000)

/-- The generator emits ticks. -/
def Tg.running (g : Tg) : Bool := decide (g.phase = .running) || decide (g.phase = .ending)

/-- BUSY of TG_STAT: an enable or a shut-down in progress, or a held re-enable. -/
def Tg.busy (g : Tg) : Bool := decide (g.phase = .starting) || decide (g.phase = .ending) || g.heldEn || g.endAfterStart

/-- The generator that holds the timing of output n: the lower one of a locked pair. -/
def State.tgOf (s : State) (n : Nat) : Tg := s.tg (s.governor n)

/-- MST_STREAMS in force on a port: each half of a locked pair drives its port in SST (R330). -/
def State.mstOf (s : State) (h : Nat) : BitVec 2 := if (s.tg h).paired then 0 else (s.port h).mst

/-- Streams that a port carries (R339). -/
def State.streamsOf (s : State) (h : Nat) : Nat := if (s.tg h).paired then 1 else (s.port h).streams

/-- The line period of an output in nanoseconds. -/
def State.lineNs (s : State) (n : Nat) : Rat := (s.tgOf n).eff.lineNs

/-- V_MIN of an output. -/
def State.vMin (s : State) (n : Nat) : Nat := (s.tgOf n).eff.vMin

/-- The position, in the lines of frame `frame` as LSCH places them, of line `line` of the frame now scanned (R20, R25, R333):
lines of the next frames count back from their line 0 through V_MIN lines a frame; `ext` is by how much the frame before was extended. -/
def placed (vMin ext : Nat) (now frame : W32) (line : Nat) : Int :=
  let d := (frame - now).toInt
  if d ≤ 0 then (line : Int) + ext - d * vMin else (line : Int) - d * vMin

/-- Earlier in frame numbers, by the sign of the 32-bit difference (R310). -/
def frameLt (a b : W32) : Bool := decide ((a - b).toInt < 0)
def frameLe (a b : W32) : Bool := decide ((a - b).toInt ≤ 0)

/-- Line of the commit point of a frame, counted in that frame's lines (R309). -/
def commitLine (lead vMin : Nat) : Int := if lead + 64 ≤ vMin then -((lead : Int) + 64) else -(vMin : Int)

end Sys2Proof.Machine
end

