-- ==== Sys2Proof/Machine/Layers.lean ====
section
/-! DEFINITION. Layer records (Tables 11.3 and 11.4), their checks (R292), and the raster lines a live layer's stripes are needed for (R21, R22, R556). -/

namespace Sys2Proof.Machine

/-- What a slot number holds (Table 11.1). -/
inductive SlotKind where
  | video
  | graphic
  | gain
  | stage
  | none
deriving DecidableEq, Repr

def slotKind (slot : Nat) : SlotKind :=
  if slot ≤ 11 then .video else if slot ≤ 19 then .graphic else if slot = 20 then .gain else if slot = 21 then .stage else .none

/-- n little-endian 32-bit words of a byte list from offset o. -/
def wordsAt (l : List Byte) (o n : Nat) : List W32 := (List.range n).map (fun i => BitVec.ofNat 32 (leAt l (o + 4 * i) 4))

/-- The record of slots 0 to 20 (Table 11.3), with the coefficients read from COEF. -/
def parseLayer (l : List Byte) (coef : List Byte) : Layer :=
  let w16 (o : Nat) : BitVec 16 := BitVec.ofNat 16 (leAt l o 2)
  let w32 (o : Nat) : W32 := BitVec.ofNat 32 (leAt l o 4)
  let w64 (o : Nat) : W64 := BitVec.ofNat 64 (leAt l o 8)
  let c := w32 0
  { en := bitOf c 0, live := bitOf c 1, transfer := BitVec.ofNat 3 (fieldOf c 4 2), premul := bitOf c 5,
    format := BitVec.ofNat 4 (fieldOf c 9 6), sub := BitVec.ofNat 2 (fieldOf c 11 10), semi := bitOf c 12, host := bitOf c 13,
    ctx := w16 4, plane0 := w64 8, plane1 := w64 0x10, plane2 := w64 0x18,
    pitch0 := w32 0x20, pitch1 := w32 0x24, pitch2 := w32 0x28, srcW := w16 0x2C, srcH := w16 0x2E,
    dstX := w16 0x30, dstY := w16 0x32, dstW := w16 0x34, dstH := w16 0x36, xStep := w32 0x38, yStep := w32 0x3C,
    xOff := w32 0x40, yOff := w32 0x44, dec := wordsAt l 0x50 9, decOff := wordsAt l 0x74 3, gam := wordsAt l 0x80 9,
    alpha := w32 0xA4, gainShift := BitVec.ofNat 8 (leAt l 0xA8 1),
    coef := (List.range (coef.length / 2)).map (fun i => BitVec.ofNat 16 (leAt coef (2 * i) 2)) }

/-- The record of slot 21 (Table 11.4), with the curve read from CURVE. -/
def parseStage (l : List Byte) (curve : List Byte) : OutStage :=
  let w32 (o : Nat) : W32 := BitVec.ofNat 32 (leAt l o 4)
  let c := w32 0
  { toneEn := bitOf c 0, outTransfer := BitVec.ofNat 3 (fieldOf c 3 1), depth := BitVec.ofNat 3 (fieldOf c 6 4),
    narrow := bitOf c 7, dither := BitVec.ofNat 2 (fieldOf c 9 8), bg := wordsAt l 4 3, outGain := w32 0x10,
    order := (l.drop 0x14).take 20, curve := wordsAt curve 0 (curve.length / 4) }

/-- Bytes that a record of a slot does not name are zero: a non-zero reserved byte is refused. -/
def recordReservedOk (slot : Nat) (l : List Byte) : Bool :=
  let named (i : Nat) : Bool :=
    if slot = 21 then decide (i < 0x30)
    else decide (i < 6) || (decide (8 ≤ i) && decide (i < 0xA9))
  let ctrl := leAt l 0 4
  (List.range 256).all (fun i => named i || decide (l.getD i 0 = 0))
    && decide (ctrl < (if slot = 21 then 2 ^ 10 else 2 ^ 14))

/-- A matrix coefficient or OUT_GAIN of R292: finite, and zero or of a magnitude in [2^-17, 2^6). -/
def coefOk (w : W32) : Bool :=
  match fp32Rat w with
  | none => false
  | some q => decide (q = 0) || (let a := if q < 0 then -q else q; decide (pow2 (-17) ≤ a) && decide (a < 64))

/-- The planes lie in host memory: SPACE of a layer that is not live; a live layer's hold buffer lies in HBM (R289). -/
def Layer.inHost (x : Layer) : Bool := x.host && !x.live

/-- Planes a layer of a slot kind reads, as (address, pitch). -/
def Layer.planes (x : Layer) (k : SlotKind) : List (W64 × W32) :=
  if k = .video then
    if x.semi then [(x.plane0, x.pitch0), (x.plane1, x.pitch1)]
    else [(x.plane0, x.pitch0), (x.plane1, x.pitch1), (x.plane2, x.pitch2)]
  else [(x.plane0, x.pitch0)]

/-- Bytes of one stored sample of plane p: one video component, an interleaved chroma pair, a graphic pixel or a gain (Table 11.2). -/
def Layer.sampleBytes (x : Layer) (k : SlotKind) (p : Nat) : Nat :=
  match k with
  | .video => (if x.format = 0 then 1 else 2) * (if x.semi && decide (p = 1) then 2 else 1)
  | .graphic => if x.format = 10 then 8 else 4
  | _ => 2

/-- Samples of one line of plane p: a subsampled chroma plane holds ceil(SRC_W / 2) (R288). -/
def Layer.planeW (x : Layer) (k : SlotKind) (p : Nat) : Nat :=
  if k = .video ∧ p ≠ 0 ∧ x.sub ≠ 0 then (x.srcW.toNat + 1) / 2 else x.srcW.toNat

/-- Lines of plane p: a 4:2:0 chroma plane holds ceil(SRC_H / 2). -/
def Layer.planeH (x : Layer) (k : SlotKind) (p : Nat) : Nat :=
  if k = .video ∧ p ≠ 0 ∧ x.sub = 2 then (x.srcH.toNat + 1) / 2 else x.srcH.toNat

/-- Byte of a line of plane p at which luma column `col` starts. -/
def Layer.columnByte (x : Layer) (k : SlotKind) (p col : Nat) : Nat :=
  x.sampleBytes k p * (if k = .video ∧ p ≠ 0 ∧ x.sub ≠ 0 then col / 2 else col)

/-- The fields that a slot's kind uses are in their ranges (Table 11.3, R292), address and pitch alignment included. -/
def Layer.fieldsOk (x : Layer) (k : SlotKind) : Bool :=
  let f := x.format.toNat
  let size (v : BitVec 16) : Bool := decide (1 ≤ v.toNat) && decide (v.toNat ≤ 16384)
  let planesOk := (x.planes k).all (fun p => decide (p.1.toNat % 64 = 0) && decide (p.2.toNat % 64 = 0))
  let colour := decide (x.transfer.toNat ≤ 4) && x.gam.all coefOk && decide (x.alpha.toNat ≤ 0x10000)
    && !(x.premul && decide (x.transfer ≠ 0))
  let step (v : W32) : Bool := decide (0x1000 ≤ v.toNat) && decide (v.toNat ≤ 0x40000)
  size x.srcW && size x.srcH && planesOk
    && match k with
      | .video => decide (f ≤ 3) && decide (x.sub.toNat ≤ 2) && step x.xStep && step x.yStep
          && x.dec.all coefOk && colour
      | .graphic => (decide (f = 8) || decide (f = 9) || decide (f = 10)) && colour
      | .gain => decide (f = 12) && decide (x.gainShift.toNat ≤ 3)
      | _ => false

/-- The slots of an output as its shadow holds them. -/
def Slots.layer (x : Slots) (slot : Nat) : Layer := x.layers.get slot {}

/-- The output whose context field a live record on output n must name: the lower one of a locked pair (R292). -/
def State.livePartner (s : State) (n : Nat) : Option Nat :=
  if (s.tg n).paired then some (if n % 2 = 0 then n + 1 else n - 1) else none

/-- The live-record conditions of R292 for slot `slot` of output n. -/
def State.liveRecordOk (s : State) (n slot : Nat) (x : Layer) : Bool :=
  let c := x.ctx.toNat
  let k := s.ctx c
  let other := (s.comp n).shadow
  decide (c < 48)
    && (k.state = .opened || k.state = .bound || k.state = .running)
    && (decide (k.output.toNat = n) || decide (k.output.toNat = s.governor n))
    && (List.range 21).all (fun t => decide (t = slot) || !((other.layer t).en && (other.layer t).live && decide ((other.layer t).ctx = x.ctx)))
    && match s.livePartner n with
      | none => true
      | some m => (List.range 21).all (fun t =>
          let y := (s.comp m).shadow.layer t
          !(y.en && y.live && decide (y.ctx = x.ctx)) || decide (y.srcH = x.srcH))

/-- The output-stage record's ranges (Table 11.4, R292). -/
def OutStage.fieldsOk (x : OutStage) : Bool :=
  decide (x.outTransfer.toNat ≤ 4) && decide (x.depth.toNat ≤ 4) && !(x.narrow && decide (x.depth = 0))
    && x.bg.all (fun b => decide (b.toNat < 2 ^ 28)) && coefOk x.outGain

/-! ### Need lines -/

/-- The slots that ORDER lists, bottom first (R299). -/
def OutStage.orderList (x : OutStage) : List Nat := (x.order.takeWhile (fun b => decide (b ≠ 0xFF))).map BitVec.toNat

/-- Part of a layer lies on a raster of hAct columns. -/
def Layer.onRaster (x : Layer) (hAct : Nat) : Bool :=
  decide (signed 16 x.dstX.toNat < (hAct : Int)) && decide (0 < signed 16 x.dstX.toNat + x.dstW.toNat)

/-- What composition of one half's lines goes by: its slots, its raster, and the slots that its point 2 writebacks take (R299, R313). -/
structure Half where
  slots : Slots
  vAct : Nat
  hAct : Nat
  taken : List Nat
deriving DecidableEq, Repr

/-- Composition reads the layer of a slot: ORDER lists it, or it is the gain map, or a writeback takes it; and part of it lies on the raster. -/
def Half.reads (p : Half) (slot : Nat) (x : Layer) : Bool :=
  (p.slots.stage.orderList.contains slot || decide (slot = 20) || p.taken.contains slot) && x.onRaster p.hAct

/-- The raster lines of a layer: first line and first line after, on a raster of vAct lines. -/
def Layer.rows (x : Layer) (vAct : Nat) : Nat × Nat :=
  let y0 := signed 16 x.dstY.toNat
  ((max 0 y0).toNat, (max 0 (min (vAct : Int) (y0 + x.dstH.toNat))).toNat)

/-- The raster lines whose composition reads a slot's layer. -/
def Half.rows (p : Half) (slot : Nat) (x : Layer) : List Nat :=
  let (y0, y1) := x.rows p.vAct
  if p.reads slot x then (List.range (y1 - y0)).map (fun i => y0 + i) else []

/-- Source lines, first and last, that a filter of rows i - 2 to i + 3 reads around a position in units of 2^-17 with step `step17`,
in a plane of `lines` lines; only the centre where the step is 1.0 and the phase is 0 (R294). -/
def filterReach (pos17 step17 : Int) (lines : Nat) : Nat × Nat :=
  let i := pos17 / 131072
  let phase := (pos17 % 131072) / 2048
  let clampLine (v : Int) : Nat := (max 0 (min v ((lines : Int) - 1))).toNat
  if step17 = 131072 ∧ phase = 0 then (clampLine i, clampLine i) else (clampLine (i - 2), clampLine (i + 3))

/-- Stripes, first and last, that raster line y of a layer reads, for stripes of h luma lines (R21). -/
def Layer.stripesAt (x : Layer) (k : SlotKind) (h y : Nat) : Option (Nat × Nat) :=
  let v : Int := (y : Int) - signed 16 x.dstY.toNat
  let lines := x.srcH.toNat
  match k with
  | .video =>
    let pos := 2 * (signed 32 x.yOff.toNat + v * x.yStep.toNat)
    let luma := filterReach pos (2 * x.yStep.toNat) lines
    let (a, b) := (luma.1 / h, luma.2 / h)
    if x.sub = 2 then
      let ch := filterReach (pos / 2) x.yStep.toNat ((lines + 1) / 2)
      some (min a (ch.1 / (h / 2)), max b (ch.2 / (h / 2)))
    else some (a, b)
  | .graphic => if v < lines then some (v.toNat / h, v.toNat / h) else none
  | .gain =>
    let g := v.toNat / 2 ^ x.gainShift.toNat
    if g < lines then some (g / h, g / h) else none
  | _ => none

/-- Raster line y of a layer reads queue line `line`: its luma, or the chroma line that travels with it. -/
def Layer.readsLine (x : Layer) (k : SlotKind) (y line : Nat) : Bool :=
  let v : Int := (y : Int) - signed 16 x.dstY.toNat
  let lines := x.srcH.toNat
  match k with
  | .video =>
    let pos := 2 * (signed 32 x.yOff.toNat + v * x.yStep.toNat)
    let luma := filterReach pos (2 * x.yStep.toNat) lines
    let ch := filterReach (pos / 2) x.yStep.toNat ((lines + 1) / 2)
    (decide (luma.1 ≤ line) && decide (line ≤ luma.2))
      || (decide (x.sub = 2) && decide (line % 2 = 0) && decide (ch.1 ≤ line / 2) && decide (line / 2 ≤ ch.2))
  | .graphic => decide (v = line)
  | .gain => decide (v.toNat / 2 ^ x.gainShift.toNat = line)
  | _ => false

/-- First raster line of a half that reads each of the first n lines of a slot's picture. -/
def Half.lineReaders (p : Half) (slot : Nat) (x : Layer) (n : Nat) : List (Option Nat) :=
  let rows := p.rows slot x
  (List.range n).map (fun line => rows.find? (fun y => x.readsLine (slotKind slot) y line))

/-- First raster line of a half that reads each of n stripes of a slot's picture; `none` for a stripe that no line reads. -/
def Half.firstReads (p : Half) (slot : Nat) (x : Layer) (h n : Nat) : List (Option Nat) :=
  let reads := (p.rows slot x).map (fun y => (y, x.stripesAt (slotKind slot) h y))
  (List.range n).map (fun st =>
    (reads.find? (fun r => match r.2 with
      | some (a, b) => decide (a ≤ st) && decide (st ≤ b)
      | none => false)).map Prod.fst)

/-- The earlier of two optional lines. -/
def earlier (a b : Option Nat) : Option Nat :=
  match a, b with
  | some x, some y => some (min x y)
  | some x, none => some x
  | none, y => y

/-- Smallest positive difference of neighbours of a list of lines: the spacing is never zero (R556, log 17). -/
def minGap : List Int → Option Int
  | a :: b :: r =>
    match minGap (b :: r) with
    | some g => some (if 0 < b - a then min (b - a) g else g)
    | none => if 0 < b - a then some (b - a) else none
  | _ => none

/-- Need lines of all stripes from their first reads (R556), and the stripe spacing (R22). An unread stripe between read ones takes
the need line of the next read one (log 17). At unity vertical scale the first sentence of R22 gives the smallest difference and the second h; where chroma
reach or a fractional Y_OFF makes them differ the model takes the smallest difference, which is what admission must hold (DESIGN CHOICE, log 144). -/
def needLines (reads : List (Option Nat)) (h : Nat) : List Int × Nat :=
  let n := reads.length
  match reads.findIdx? Option.isSome with
  | none => ((List.range n).map (fun k => ((k * h : Nat) : Int)), h)
  | some j =>
    let m := n - 1 - ((reads.reverse.findIdx? Option.isSome).getD 0)
    let inner : List Int := (List.range (m + 1 - j)).map (fun i =>
      ((((reads.drop (j + i)).find? Option.isSome).getD none).getD 0 : Nat))
    let p : Int := (minGap inner).getD h
    let nj := inner.headD 0
    let nm := inner.getLastD 0
    ((List.range n).map (fun k =>
      if k < j then nj - ((j - k : Nat) : Int) * p
      else if m < k then nm + ((k - m : Nat) : Int) * p
      else inner.getD (k - j) 0), p.toNat)

/-- The geometry of a live stream's picture: height, need lines, spacing. -/
structure Geom where
  srcH : Nat
  needs : List Int
  spacing : Nat
deriving DecidableEq, Repr

/-- Number of stripes of a picture (R557). -/
def stripesOf (srcH h : Nat) : Nat := (srcH + h - 1) / h

/-- The live record of context c among a state of slots. -/
def Slots.liveRecord (x : Slots) (c : Nat) : Option (Nat × Layer) :=
  ((List.range 21).map (fun t => (t, x.layer t))).find? (fun p => p.2.en && p.2.live && decide (p.2.ctx.toNat = c))

/-- Geometry of context c, stripes of h lines, from the slots of the halves that can show it: need lines are the earlier of the
halves' (R21); with no record enabled the picture keeps `keep` lines and nothing reads it (R557). -/
def geomOf (halves : List Half) (c h keep : Nat) : Geom :=
  let recs := halves.filterMap (fun p => (p.slots.liveRecord c).map (fun r => (r.1, r.2, p)))
  match recs with
  | [] =>
    let r := needLines (List.replicate (stripesOf keep h) none) h
    { srcH := keep, needs := r.1, spacing := r.2 }
  | (t, x, p) :: rest =>
    let n := stripesOf x.srcH.toNat h
    let reads := rest.foldl (fun acc q =>
      let other := q.2.2.firstReads q.1 q.2.1 h n
      (List.range n).map (fun i => earlier (acc.getD i none) (other.getD i none)))
      (p.firstReads t x h n)
    let r := needLines reads h
    { srcH := x.srcH.toNat, needs := r.1, spacing := r.2 }

/-- First raster line, on any half, that reads each of n picture lines of context c. -/
def readersOf (halves : List Half) (c n : Nat) : List (Option Nat) :=
  halves.foldl (fun acc p =>
    match p.slots.liveRecord c with
    | none => acc
    | some (t, x) =>
      let l := p.lineReaders t x n
      (List.range n).map (fun i => earlier (acc.getD i none) (l.getD i none))) (List.replicate n none)

/-- The slots that compose a frame of an output, as far as is known: those its commit point applied, else the pending snapshots that apply at or
before it, oldest first, laid over what is applied (R310 to R312); with no frame named, what stands once all are applied. -/
def State.slotsFor (s : State) (n : Nat) (frame : Option W32) : Slots :=
  let c := s.comp n
  match frame with
  | none => c.pending.foldl (fun _ p => p.slots) c.applied
  | some f =>
    match c.states.find? (fun a => decide (a.frame = f)) with
    | some a => a.slots
    | none => c.pending.foldl (fun acc p =>
        match p.applyAt.orElse (fun _ => p.expected) with
        | some a => if frameLe a f then p.slots else acc
        | none => acc) c.applied

/-- The slots that the point 2 writebacks of an output take, in force or pending. -/
def Comp.takenSlots (c : Comp) : List Nat :=
  c.writebacks.filterMap (fun w => if w.body.point.val = 2 ∧ w.body.buffers.val ≠ 0 then some w.body.slot.toNat else none)

/-- One half as it composes a frame. -/
def State.half (s : State) (n : Nat) (frame : Option W32) : Half :=
  let t := (s.tgOf n).eff
  { slots := s.slotsFor n frame, vAct := t.vAct.toNat, hAct := t.hAct.toNat, taken := (s.comp n).takenSlots }

/-- The halves of output g's picture: its own compositor and, in a locked pair, its neighbour's. -/
def State.halves (s : State) (g : Nat) : List Nat := if (s.tg g).paired then [g, g + 1] else [g]

/-- Geometry of live stream c for an output frame: from the state that applies at that frame's commit point (R23). -/
def State.geom (s : State) (c : Nat) (frame : Option W32) (h : Nat) : Geom :=
  let g := s.outOf c
  geomOf ((s.halves g).map (fun n => s.half n frame)) c h (s.stream c).srcH

end Sys2Proof.Machine
end

