-- ==== Sys2Proof/Machine/Admission.lean ====
section
/-! DEFINITION. The admission check (R30 to R36) in exact rational arithmetic. -/

namespace Sys2Proof.Machine

/-- What admission reads of one live stream of a frond set. -/
structure Entrant where
  ctx : Nat
  w : Nat
  /-- Stripes per second. -/
  rate : Rat
  /-- Spacing in frond cycles at the floor clock. -/
  cycles : Rat
  span : Int
  vMin : Nat
  image : TaskImage
deriving DecidableEq, Repr

/-- A frond of the set runs on its row-mode fall-back. -/
def State.rowSet (s : State) (mask : BitVec 256) : Bool := (bitsOf mask).any (fun f => (s.frond f).rowOnly)

/-- Declared cycles in use (R32): W_LITE for a stream switched to lite, W_ROW on a set with a row-mode frond, else W. -/
def declaredW (t : TaskImage) (lite row : Bool) : Nat :=
  if lite then t.wLite.toNat else if row then t.wRow.toNat else t.w.toNat

/-- The entrant of stream c bound to b, with its geometry in the state that the event being admitted leaves (R557). DESIGN CHOICE (log 113): an image
that waits for its first release does not count; the image in force does, and of a pending lite switch the program it switches to. -/
def State.entrant (s : State) (c : Nat) (b : Bound) : Entrant :=
  let out := s.outOf c
  let h := b.image.h.toNat
  let g := s.geom c none h
  let t := s.lineNs out
  let v := s.vMin out
  let n := g.needs.length
  let first := g.needs.headD 0
  let last := g.needs.getLastD 0
  { ctx := c
    w := declaredW b.image ((s.stream c).liteNext.getD (s.stream c).lite) (s.rowSet b.mask)
    rate := (n : Rat) * 1000000000 / ((v : Rat) * t)
    cycles := (g.spacing : Rat) * t * (5 / 4)
    span := last - first + g.spacing
    vMin := v
    image := b.image }

/-- The entrants of a frond set: its running and stopping streams. -/
def State.entrants (s : State) (mask : BitVec 256) : List Entrant :=
  s.liveStreams.filterMap (fun c =>
    match (s.ctx c).bound with
    | some b => if b.mask = mask then some (s.entrant c b) else none
    | none => none)

/-- Sum over distinct PKG_ID of P_BYTES. -/
def pinnedBytes : List Entrant → List W64 → Nat
  | [], _ => 0
  | e :: r, seen =>
    if seen.contains e.image.pkgId then pinnedBytes r seen else e.image.pBytes.toNat + pinnedBytes r (e.image.pkgId :: seen)

def loadSum (l : List Entrant) : Rat := (l.map (fun e => (e.w : Rat) * e.rate)).sum

/-- Largest burst sum of R30 over all k. -/
def burstSum (l : List Entrant) : Rat :=
  let base := (l.map (fun e => (e.w : Rat) / e.cycles)).sum
  (l.map (fun k =>
    let others := (l.filter (fun e => decide (e.ctx ≠ k.ctx))).map Entrant.w
    base + ((64 + others.foldl max 0 : Nat) : Rat) / k.cycles)).foldl max 0

/-- Bytes of cache mode on a set: the largest of its fronds, in effect or requested (R144). -/
def State.cacheBytes (s : State) (mask : BitVec 256) : Nat :=
  ((bitsOf mask).map (fun f => 262144 * (max (s.frond f).cacheActive.toNat (s.frond f).cacheSteps.toNat))).foldl max 0

/-- The six conditions of Table 02.3, the regions of R137 and the pinned regions of R126. DESIGN CHOICE (log 119): a resident simmer job's own regions
do not count against a stream's. -/
def State.setAdmits (s : State) (mask : BitVec 256) : Bool :=
  let l := s.entrants mask
  let pkgs := ((l.filter (fun e => decide (e.image.pBytes ≠ 0))).map (fun e => e.image.pkgId)).dedup
  decide (loadSum l ≤ 1125000000)
    && decide (burstSum l ≤ 1)
    && decide (pinnedBytes l [] + (l.map (fun e => e.image.tBytes.toNat)).sum + s.cacheBytes mask ≤ 4194304)
    && decide ((l.map (fun e => e.image.seBytes.toNat)).sum ≤ 262144)
    && l.all (fun e => decide (e.image.accTiles.toNat ≤ 8))
    && l.all (fun e => decide (e.span ≤ e.vMin))
    && decide ((l.map (fun e => e.image.circs.length)).sum ≤ 32)
    && decide (pkgs.length ≤ 8)

/-- The frond sets of the live streams that an output governs. -/
def State.setsOfOutput (s : State) (g : Nat) : List (BitVec 256) :=
  ((s.governed g).filterMap (fun c => ((s.ctx c).bound.map Bound.mask))).dedup

/-- Every frond set that an output's streams occupy passes admission. -/
def State.outputAdmits (s : State) (g : Nat) : Bool := (s.setsOfOutput g).all s.setAdmits

/-- The sets of a live stream: of the image in force, and of one that waits for its first release. -/
def State.setsHeld (s : State) (c : Nat) : List (BitVec 256) :=
  ((s.ctx c).bound.map Bound.mask).toList ++ ((s.stream c).bindWait.map (fun w => w.bound.mask)).toList

/-- A set overlaps another live stream's set, present or to come, without being equal to it (R29). -/
def State.overlaps (s : State) (c : Nat) (mask : BitVec 256) : Bool :=
  s.liveStreams.any (fun d => decide (d ≠ c) && (s.setsHeld d).any (fun m => decide (m ≠ mask) && decide (m &&& mask ≠ 0)))

/-- A frond set holds no frond that is disabled or lost (R486, R423). -/
def State.setUsable (s : State) (mask : BitVec 256) : Bool :=
  (bitsOf mask).all (fun f => s.frondEn.getLsbD f && !s.lost f)

/-- LOAD and BURST of LSCH_FROND_ADMIT: units of 1/32,768 rounded up (Table 02.7). -/
def admitUnits (x : Rat) : BitVec 16 := BitVec.ofNat 16 (min 0xFFFF (x * 32768).ceil.toNat)

/-- LSCH_FROND_ADMIT of a set's fronds after a change of its streams. -/
def State.reportAdmission (s : State) (mask : BitVec 256) : State :=
  let l := s.entrants mask
  let load := admitUnits (loadSum l / 1250000000)
  let burst := admitUnits (burstSum l)
  (bitsOf mask).foldl (fun s f => s.setFrond f { s.frond f with admitLoad := load, admitBurst := burst }) s

/-- LSCH_FROND_ADMIT of every set that an output's streams occupy, after a change of their geometry or timing. -/
def State.reportOutput (s : State) (g : Nat) : State := (s.setsOfOutput g).foldl (fun s m => s.reportAdmission m) s

/-- Order of R36: the highest PRIORITY value first, among equals the higher context number. -/
def State.leastImportant (s : State) (l : List Nat) : Option Nat :=
  l.foldl (fun best c =>
    match best with
    | none => some c
    | some b =>
      let p := (s.ctx c).priority.toNat
      let q := (s.ctx b).priority.toNat
      if q < p ∨ (q = p ∧ b < c) then some c else best) none

/-- The largest stripe height among the streams an output governs, 32 with none (R43). -/
def State.hMax (s : State) (g : Nat) : Nat :=
  let hs := (s.governed g).filterMap (fun c => (s.ctx c).bound.map (fun b => b.image.h.toNat))
  if hs.isEmpty then 32 else hs.foldl max 0

end Sys2Proof.Machine
end

