-- ==== Sys2Proof/Machine/Command.lean ====
section
/-! DEFINITION. Frond commands as four words (R92, R93, Tables 04.4 and 04.5): the decoder of the image check and the encoder. -/

namespace Sys2Proof.Machine

/-- The four words of a command. -/
structure CmdWords where
  w0 : W32
  w1 : W32
  w2 : W32
  w3 : W32
deriving DecidableEq, Repr

/-- Bits that an opcode's row of Tables 04.4 and 04.5 gives a meaning: of W0 the flags F0 to F2, and of W1, W2 and W3. -/
structure UsedBits where
  flags : Nat
  m1 : Nat
  m2 : Nat
  m3 : Nat
deriving DecidableEq, Repr

/-- W1 of an opcode that uses the whole VU form; one without SRCB; and VU_TLOAD's, which uses SRCA and IFMT alone: what an opcode does not use is
reserved (R92). -/
def vuFormMask : Nat := 0xFFFFFFFF
def vuNoSrcb : Nat := 0xFFFFC07F
def vuTloadMask : Nat := 0x01E0007F

/-- The used bits of an opcode; `none` for an undefined one. -/
def usedBits (op : Nat) : Option UsedBits :=
  if op = 0x00 then some ⟨0, 0, 0, 0⟩
  else if op = 0x01 then some ⟨0, 0, 0, 0⟩
  else if op = 0x02 then some ⟨0, 0xFFFF003F, 0, 0⟩
  else if op = 0x03 then some ⟨1, 0x0001FF3F, 0xFFFF, 0⟩
  else if op = 0x10 then some ⟨7, 0x0FFFFFFF, 0x000FFFFF, 0⟩
  else if op = 0x20 then some ⟨3, 0xFFFFFFF7, 0x7F, 0⟩
  else if op = 0x21 then some ⟨0, vuFormMask, 0xFF, 0xFFFF⟩
  else if op = 0x22 then some ⟨0, vuFormMask, 0x0FFFFFFF, 0x3FFFF⟩
  else if op = 0x23 then some ⟨3, vuNoSrcb, 0x0FFFFFFF, 0x3FF⟩
  else if op = 0x24 then some ⟨0, vuNoSrcb, 0, 0x3FF⟩
  else if op = 0x25 then some ⟨0, vuNoSrcb, 0x3, 0xFFFF⟩
  else if op = 0x26 then some ⟨1, vuFormMask, 0x1, 0xFFFF⟩
  else if op = 0x27 then some ⟨0, vuFormMask, 0xFF, 0xFFFF⟩
  else if op = 0x28 then some ⟨0, vuNoSrcb, 0, 0xFFFF⟩
  else if op = 0x29 then some ⟨0, vuNoSrcb, 0, 0xFFFF⟩
  else if op = 0x2A then some ⟨0, vuTloadMask, 0x3, 0⟩
  else if op = 0x30 then some ⟨0, 0xFFF, 0, 0xFFFF⟩
  else if op = 0x31 then some ⟨1, 0xFFF, 0x1, 0xFFFF⟩
  else if op = 0x40 then some ⟨0, 0x1FFF, 0, 0⟩
  else if op = 0x41 then some ⟨0, 0x1FFF, 0, 0⟩
  else if op = 0x50 then some ⟨0, 0x01FFFFFF, 0x03FFFFFF, 0xFFFF⟩
  else if op = 0x51 then some ⟨0, 0x01FFFFFF, 0x03FFFFFF, 0xFFFF⟩
  else if op = 0x52 then some ⟨0, 0x1FFFF, 0x1FFF, 0xFFFF⟩
  else if op = 0x53 then some ⟨0, 0xF, 0, 0⟩
  else if op = 0x60 then some ⟨0, 0x3F, 0xFFFFFFFF, 0xFFFF⟩
  else if op = 0x61 then some ⟨0, 0xFFF, 0, 0xFFFF⟩
  else if op = 0x62 then some ⟨0, 0x3F, 0xFFFF, 0⟩
  else none

/-- A field of a word as a bit vector of its width. -/
def bits (n lsb : Nat) (w : W32) : BitVec n := BitVec.ofNat n (w.toNat / 2 ^ lsb)

/-- The common header of W0. -/
def headerOf (w : W32) : CmdHdr :=
  { sb := bitOf w 8, wen := bitOf w 12, sen := bitOf w 13, wsem := bits 6 16 w, ssem := bits 6 22 w, wcnt := bits 4 28 w }

/-- The VU form of W1. -/
def vuFormOf (w : W32) : VuForm :=
  { srca := bits 7 0 w, srcb := bits 7 7 w, dst := bits 7 14 w, ifmt := bits 4 21 w, ofmt := bits 4 25 w, rnd := bits 3 29 w }

/-- The Geometry form of W2. -/
def geometryOf (w : W32) : Geometry :=
  { kw := bits 3 0 w, kh := bits 3 3 w, sx := bits 2 6 w, sy := bits 2 8 w, dx := bits 8 10 w, dy := bits 8 18 w, pad := bits 2 26 w }

/-- The operands of NW_READ and NW_WRITE. -/
def nwOpOf (w1 w2 w3 : W32) : NwOp :=
  { frond := bits 8 0 w1, win := bits 4 8 w1, lrow := bits 13 12 w1, roff := bits 13 0 w2, rows := bits 13 13 w2, gen := bits 16 0 w3 }

/-- The command that four words spell on frond f; `none` for an undefined opcode or a non-zero reserved bit (R106 CMD_ILLEGAL). -/
def decodeCmd (f : FrondId) (now : W64) (c : CmdWords) : Option Instr :=
  let op := fieldOf c.w0 7 0
  match usedBits op with
  | none => none
  | some u =>
    if c.w0.toNat &&& 0xC000 ≠ 0 ∨ fieldOf c.w0 11 9 &&& (7 - u.flags) ≠ 0 ∨ c.w1.toNat &&& (0xFFFFFFFF - u.m1) ≠ 0
        ∨ c.w2.toNat &&& (0xFFFFFFFF - u.m2) ≠ 0 ∨ c.w3.toNat &&& (0xFFFFFFFF - u.m3) ≠ 0 then none
    else
      let h := headerOf c.w0
      let f0 := bitOf c.w0 9
      let f1 := bitOf c.w0 10
      let f2 := bitOf c.w0 11
      let v := vuFormOf c.w1
      if op = 0x00 then some (.seqNop f h)
      else if op = 0x01 then some (.end_ f h now)
      else if op = 0x02 then some (.wait f h (bits 6 0 c.w1) (bits 16 16 c.w1))
      else if op = 0x03 then some (.signal f h f0 (bits 6 0 c.w1) (bits 8 8 c.w1) (bitOf c.w1 16) (bits 16 0 c.w2))
      else if op = 0x10 then
        some (.mxuPass f h
          { last := f0, ptmSwap := f1, mx := f2, apat := bits 6 0 c.w1, wpat := bits 6 6 c.w1, asrc := bits 2 12 c.w1,
            wsrc := bits 2 14 c.w1, acc := bits 3 16 c.w1, alloc := bitOf c.w1 19, afmt := bits 4 20 c.w1, wfmt := bits 4 24 c.w1,
            kp := bits 8 0 c.w2, aspat := bits 6 8 c.w2, wspat := bits 6 14 c.w2 })
      else if op = 0x20 then
        some (.vuDrain f h
          { keep := f0, ieee := f1, acc := bits 3 0 c.w1, opat := bits 6 4 c.w1, ofmt := bits 4 10 c.w1, rnd := bits 3 14 c.w1,
            spat := bits 6 17 c.w1, bpat := bits 6 23 c.w1, tfn := bits 3 29 c.w1, cpat := bits 6 0 c.w2, cpen := bitOf c.w2 6 })
      else if op = 0x21 then some (.vuEw f h v (bits 8 0 c.w2) (bits 16 0 c.w3))
      else if op = 0x22 then some (.vuDw f h v (geometryOf c.w2) (bits 10 0 c.w3) (bits 8 10 c.w3))
      else if op = 0x23 then some (.vuPool f h f0 f1 v (geometryOf c.w2) (bits 10 0 c.w3))
      else if op = 0x24 then some (.vuArgmax f h v (bits 10 0 c.w3))
      else if op = 0x25 then some (.vuTfn f h v (bits 2 0 c.w2) (bits 16 0 c.w3))
      else if op = 0x26 then some (.vuFft f h f0 v (bitOf c.w2 0) (bits 16 0 c.w3))
      else if op = 0x27 then some (.ptmBuild f h v (bits 8 0 c.w2) (bits 16 0 c.w3))
      else if op = 0x28 then some (.vuLoad f h v (bits 16 0 c.w3))
      else if op = 0x29 then some (.vuStore f h v (bits 16 0 c.w3))
      else if op = 0x2A then some (.vuTload f h v (bits 2 0 c.w2))
      else if op = 0x30 then some (.seCapture f h (bits 6 0 c.w1) (bits 6 6 c.w1) (bits 16 0 c.w3))
      else if op = 0x31 then some (.seRegroup f h f0 (bits 6 0 c.w1) (bits 6 6 c.w1) (bitOf c.w2 0) (bits 16 0 c.w3))
      else if op = 0x40 then some (.dmaIn f h (bits 13 0 c.w1))
      else if op = 0x41 then some (.dmaOut f h (bits 13 0 c.w1))
      else if op = 0x50 then some (.nwRead f h (nwOpOf c.w1 c.w2 c.w3))
      else if op = 0x51 then some (.nwWrite f h (nwOpOf c.w1 c.w2 c.w3))
      else if op = 0x52 then some (.winOpen f h (bits 4 0 c.w1) (bits 13 4 c.w1) (bits 13 0 c.w2) (bits 16 0 c.w3))
      else if op = 0x53 then some (.winClose f h (bits 4 0 c.w1))
      else if op = 0x60 then some (.fill f h (bits 6 0 c.w1) c.w2 (bits 16 0 c.w3))
      else if op = 0x61 then some (.fcCopy f h (bits 6 0 c.w1) (bits 6 6 c.w1) (bits 16 0 c.w3))
      else if op = 0x62 then some (.rhzKeep f h (bits 6 0 c.w1) (bits 16 0 c.w2))
      else none

/-- W0 from its opcode, flags and header. -/
def encodeHdr (op : Nat) (f0 f1 f2 : Bool) (h : CmdHdr) : W32 :=
  BitVec.ofNat 32 (op + 256 * b2n h.sb + 512 * b2n f0 + 1024 * b2n f1 + 2048 * b2n f2 + 4096 * b2n h.wen + 8192 * b2n h.sen
    + 65536 * h.wsem.toNat + 4194304 * h.ssem.toNat + 268435456 * h.wcnt.toNat)

/-- W1 of a VU form. -/
def encodeVu (v : VuForm) : W32 :=
  BitVec.ofNat 32 (v.srca.toNat + 128 * v.srcb.toNat + 16384 * v.dst.toNat + 2097152 * v.ifmt.toNat + 33554432 * v.ofmt.toNat
    + 536870912 * v.rnd.toNat)

/-- W2 of a Geometry form. -/
def encodeGeometry (g : Geometry) : W32 :=
  BitVec.ofNat 32 (g.kw.toNat + 8 * g.kh.toNat + 64 * g.sx.toNat + 256 * g.sy.toNat + 1024 * g.dx.toNat + 262144 * g.dy.toNat
    + 67108864 * g.pad.toNat)

/-- A word from a number. -/
def word (n : Nat) : W32 := BitVec.ofNat 32 n

/-- Words, where a condition on the operands holds. -/
def wordsIf (c : Bool) (w : CmdWords) : Option CmdWords := if c then some w else none

/-- The four words of a frond command (Table 04.5); `none` for a command that is no frond command, and for operands in fields that the opcode
does not use (R92). -/
def encodeCmd : Instr → Option CmdWords
  | .seqNop _ h => some ⟨encodeHdr 0x00 false false false h, 0, 0, 0⟩
  | .end_ _ h _ => some ⟨encodeHdr 0x01 false false false h, 0, 0, 0⟩
  | .wait _ h sem count => some ⟨encodeHdr 0x02 false false false h, word (sem.toNat + 65536 * count.toNat), 0, 0⟩
  | .signal _ h fence sem target remote count =>
    some ⟨encodeHdr 0x03 fence false false h, word (sem.toNat + 256 * target.toNat + 65536 * b2n remote), word count.toNat, 0⟩
  | .mxuPass _ h o =>
    some ⟨encodeHdr 0x10 o.last o.ptmSwap o.mx h,
      word (o.apat.toNat + 64 * o.wpat.toNat + 4096 * o.asrc.toNat + 16384 * o.wsrc.toNat + 65536 * o.acc.toNat
        + 524288 * b2n o.alloc + 1048576 * o.afmt.toNat + 16777216 * o.wfmt.toNat),
      word (o.kp.toNat + 256 * o.aspat.toNat + 16384 * o.wspat.toNat), 0⟩
  | .vuDrain _ h o =>
    some ⟨encodeHdr 0x20 o.keep o.ieee false h,
      word (o.acc.toNat + 16 * o.opat.toNat + 1024 * o.ofmt.toNat + 16384 * o.rnd.toNat + 131072 * o.spat.toNat
        + 8388608 * o.bpat.toNat + 536870912 * o.tfn.toNat),
      word (o.cpat.toNat + 64 * b2n o.cpen), 0⟩
  | .vuEw _ h v func count => some ⟨encodeHdr 0x21 false false false h, encodeVu v, word func.toNat, word count.toNat⟩
  | .vuDw _ h v g ch group =>
    some ⟨encodeHdr 0x22 false false false h, encodeVu v, encodeGeometry g, word (ch.toNat + 1024 * group.toNat)⟩
  | .vuPool _ h isMax padCount v g ch => wordsIf (decide (v.srcb = 0)) ⟨encodeHdr 0x23 isMax padCount false h, encodeVu v, encodeGeometry g, word ch.toNat⟩
  | .vuArgmax _ h v ch => wordsIf (decide (v.srcb = 0)) ⟨encodeHdr 0x24 false false false h, encodeVu v, 0, word ch.toNat⟩
  | .vuTfn _ h v table count => wordsIf (decide (v.srcb = 0)) ⟨encodeHdr 0x25 false false false h, encodeVu v, word table.toNat, word count.toNat⟩
  | .vuFft _ h inverse v twoD count => some ⟨encodeHdr 0x26 inverse false false h, encodeVu v, word (b2n twoD), word count.toNat⟩
  | .ptmBuild _ h v group count => some ⟨encodeHdr 0x27 false false false h, encodeVu v, word group.toNat, word count.toNat⟩
  | .vuLoad _ h v count => wordsIf (decide (v.srcb = 0)) ⟨encodeHdr 0x28 false false false h, encodeVu v, 0, word count.toNat⟩
  | .vuStore _ h v count => wordsIf (decide (v.srcb = 0)) ⟨encodeHdr 0x29 false false false h, encodeVu v, 0, word count.toNat⟩
  | .vuTload _ h v table => 
    wordsIf (decide (v.srcb = 0) && decide (v.dst = 0) && decide (v.ofmt = 0) && decide (v.rnd = 0))
      ⟨encodeHdr 0x2A false false false h, encodeVu v, word table.toNat, 0⟩
  | .seCapture _ h src dst count =>
    some ⟨encodeHdr 0x30 false false false h, word (src.toNat + 64 * dst.toNat), 0, word count.toNat⟩
  | .seRegroup _ h inverse src dst by4 count =>
    some ⟨encodeHdr 0x31 inverse false false h, word (src.toNat + 64 * dst.toNat), word (b2n by4), word count.toNat⟩
  | .dmaIn _ h tdRow => some ⟨encodeHdr 0x40 false false false h, word tdRow.toNat, 0, 0⟩
  | .dmaOut _ h tdRow => some ⟨encodeHdr 0x41 false false false h, word tdRow.toNat, 0, 0⟩
  | .nwRead _ h o =>
    some ⟨encodeHdr 0x50 false false false h, word (o.frond.toNat + 256 * o.win.toNat + 4096 * o.lrow.toNat),
      word (o.roff.toNat + 8192 * o.rows.toNat), word o.gen.toNat⟩
  | .nwWrite _ h o =>
    some ⟨encodeHdr 0x51 false false false h, word (o.frond.toNat + 256 * o.win.toNat + 4096 * o.lrow.toNat),
      word (o.roff.toNat + 8192 * o.rows.toNat), word o.gen.toNat⟩
  | .winOpen _ h win baseRow rows gen =>
    some ⟨encodeHdr 0x52 false false false h, word (win.toNat + 16 * baseRow.toNat), word rows.toNat, word gen.toNat⟩
  | .winClose _ h win => some ⟨encodeHdr 0x53 false false false h, word win.toNat, 0, 0⟩
  | .fill _ h dst value count => some ⟨encodeHdr 0x60 false false false h, word dst.toNat, value, word count.toNat⟩
  | .fcCopy _ h src dst count =>
    some ⟨encodeHdr 0x61 false false false h, word (src.toNat + 64 * dst.toNat), 0, word count.toNat⟩
  | .rhzKeep _ h dst chunks => some ⟨encodeHdr 0x62 false false false h, word dst.toNat, word chunks.toNat, 0⟩
  | _ => none

/-- The header of a frond command. -/
def cmdHdr : Instr → CmdHdr
  | .seqNop _ h | .end_ _ h _ | .wait _ h _ _ | .signal _ h _ _ _ _ _ | .mxuPass _ h _ | .vuDrain _ h _ | .vuEw _ h _ _ _
  | .vuDw _ h _ _ _ _ | .vuPool _ h _ _ _ _ _ | .vuArgmax _ h _ _ | .vuTfn _ h _ _ _ | .vuFft _ h _ _ _ _ | .ptmBuild _ h _ _ _
  | .vuLoad _ h _ _ | .vuStore _ h _ _ | .vuTload _ h _ _ | .seCapture _ h _ _ _ | .seRegroup _ h _ _ _ _ _ | .dmaIn _ h _
  | .dmaOut _ h _ | .nwRead _ h _ | .nwWrite _ h _ | .winOpen _ h _ _ _ _ | .winClose _ h _ | .fill _ h _ _ _ | .fcCopy _ h _ _ _
  | .rhzKeep _ h _ _ => h
  | _ => {}

end Sys2Proof.Machine
end

