-- ==== Sys2Proof/Machine/Image.lean ====
section
/-! DEFINITION. Task images (R86 to R91): the header, its tables, pattern walks and the image check of R106. -/

namespace Sys2Proof.Machine

/-! ### Parsing -/

/-- A pattern entry (Table 04.3); `none` for a reserved bit or value. -/
def parsePattern (l : List Byte) : Option Pattern :=
  let w (i : Nat) : W32 := BitVec.ofNat 32 (leAt l (4 * i) 4)
  let w0 := w 0
  let w5 := w 5
  let dyn := (List.range 4).map (fun d => BitVec.ofNat 3 (fieldOf w5 (4 * d + 6) (4 * d + 4)))
  if 3 < fieldOf w0 31 29 ∨ (bitOf w0 20 ∧ fieldOf w0 19 13 ≠ 0) ∨ w5.toNat &&& (0xFFFFFFFF - 0x77777) ≠ 0
      ∨ bitOf w5 3 ∨ dyn.any (fun v => decide (4 < v.toNat)) ∨ w 6 ≠ 0 ∨ w 7 ≠ 0 then none
  else
    some { base := BitVec.ofNat 20 (fieldOf w0 19 0), row := bitOf w0 20, circ := BitVec.ofNat 5 (fieldOf w0 25 21),
           circEn := bitOf w0 26, halo := bitOf w0 27, tagged := bitOf w0 28, dims := BitVec.ofNat 3 (fieldOf w0 31 29),
           counts := (List.range 4).map (fun d => BitVec.ofNat 16 (fieldOf (w (d + 1)) 11 0)),
           strides := (List.range 4).map (fun d => BitVec.ofNat 20 (fieldOf (w (d + 1)) 31 12)),
           width := BitVec.ofNat 3 (fieldOf w5 2 0), dyn := dyn }

/-- A circular-region entry (R89). -/
def parseCirc (l : List Byte) : Option CircEntry :=
  let w := leAt l 0 8
  if 2 ^ 26 ≤ w then none
  else some { baseRow := BitVec.ofNat 13 w, rows := BitVec.ofNat 13 (w / 2 ^ 13) }

/-- A variant entry (R89). -/
def parseVariant (l : List Byte) : Option Variant :=
  if 3 < leAt l 0 1 ∨ leAt l 1 1 ≠ 0 ∨ 2 ^ 12 ≤ leAt l 2 2 ∨ leAt l 8 4 = 0 ∨ 65535 < leAt l 8 4 ∨ leAt l 12 4 ≠ 0 then none
  else some { kind := BitVec.ofNat 2 (leAt l 0 1), buckets := BitVec.ofNat 16 (leAt l 2 2), cmdOff := BitVec.ofNat 32 (leAt l 4 4),
              cmdCount := BitVec.ofNat 32 (leAt l 8 4) }

/-- All pieces parse. -/
def allSome {α : Type} : List (Option α) → Option (List α)
  | [] => some []
  | none :: _ => none
  | some a :: r => (allSome r).map (fun l => a :: l)

/-- Used bucket sizes of a dynamic dimension. -/
def TaskImage.sizesOf (t : TaskImage) (d : Nat) : List (BitVec 16) :=
  ((t.buckets.drop (8 * d)).take 8).filter (fun b => decide (b ≠ 0))

/-- Strictly ascending numbers. -/
def ascending : List Nat → Bool
  | a :: b :: r => decide (a < b) && ascending (b :: r)
  | _ => true

/-- A dynamic dimension has 1 to 8 ascending bucket sizes, then zeros; a dimension above NDYN has none (Table 04.1, R227). -/
def TaskImage.bucketsOk (t : TaskImage) : Bool :=
  (List.range 4).all (fun d =>
    let raw := (t.buckets.drop (8 * d)).take 8
    let used := t.sizesOf d
    if d < t.ndyn.toNat then
      decide (0 < used.length) && ascending (used.map BitVec.toNat) && decide (raw = used ++ List.replicate (8 - used.length) 0)
    else used.isEmpty)

/-- Bucket index of dimension d in a variant entry. -/
def Variant.bucket (v : Variant) (d : Nat) : Nat := fieldOf v.buckets (3 * d + 2) (3 * d)

/-- Bucket indices of a variant lie in the image's buckets, and no dimension above NDYN has one. -/
def TaskImage.variantOk (t : TaskImage) (v : Variant) : Bool :=
  (List.range 4).all (fun d => if d < t.ndyn.toNat then decide (v.bucket d < (t.sizesOf d).length) else decide (v.bucket d = 0))

/-- No two entries have one KIND and bucket combination (R89). -/
def variantsDistinct (l : List Variant) : Bool := decide ((l.map (fun v => (v.kind, v.buckets))).Nodup)

/-- Named bytes of the image header (Table 04.1). -/
def headerNamed (i : Nat) : Bool :=
  decide (i < 0x1C) || (decide (0x20 ≤ i) && decide (i < 0x3C)) || (decide (0x40 ≤ i) && decide (i < 0x88))

/-- A task image of `bytes` bytes read through rd: the parsed image, or the status of what is wrong: sections past IMAGE_BYTES are
DESC_BAD (R386), a wrong field CMD_ILLEGAL (R106, R125). The sections lie in the order of R86, each from a 32-B boundary on: the command lists
from the lowest CMD_OFF. CIRC_OFF keeps its place in that order when NCIRC is 0 too (DESIGN CHOICE, log 115). -/
def parseImage (rd : Nat → Nat → List Byte) (bytes : Nat) : Except (BitVec 16) TaskImage :=
  if bytes < 256 then .error stDescBad
  else
    let l := rd 0 256
    let npat := leAt l 0xC 1
    let ncirc := leAt l 0xD 1
    let nvar := leAt l 7 1
    let patOff := leAt l 0x10 4
    let circOff := leAt l 0x14 4
    let varOff := leAt l 0x18 4
    let kind := leAt l 6 1
    let h := leAt l 0xF 1
    let w32 (o : Nat) : W32 := BitVec.ofNat 32 (leAt l o 4)
    let headerOk := decide (leAt l 0 4 = 0x77807E11) && decide (leAt l 4 2 = 1) && decide (kind ≤ 1) && decide (1 ≤ nvar) && decide (nvar ≤ 64)
      && decide (leAt l 8 4 < 2 ^ 24) && decide (1 ≤ npat) && decide (npat ≤ 64) && decide (ncirc ≤ 32) && decide (leAt l 0xE 1 ≤ 4)
      && (if kind = 0 then decide (h = 8) || decide (h = 16) || decide (h = 32) else decide (h = 0))
      && decide (leAt l 0x2C 4 % 512 = 0) && decide (leAt l 0x30 4 % 512 = 0)
      && decide (1 ≤ leAt l 0x38 2) && decide (leAt l 0x38 2 ≤ 256) && decide (1 ≤ leAt l 0x3A 1) && decide (leAt l 0x3A 1 ≤ 8)
      && decide (leAt l 0x3B 1 ≤ 2) && (List.range 256).all (fun i => headerNamed i || decide (l.getD i 0 = 0))
    if !headerOk then .error stCmdIllegal
    else if patOff % 32 ≠ 0 ∨ circOff % 32 ≠ 0 ∨ varOff % 32 ≠ 0 ∨ patOff < 256 ∨ circOff < patOff + 32 * npat ∨ varOff < circOff + 8 * ncirc then
      .error stCmdIllegal
    else if bytes < varOff + 16 * nvar then .error stDescBad
    else
      match allSome ((List.range npat).map (fun i => parsePattern (rd (patOff + 32 * i) 32))),
            allSome ((List.range ncirc).map (fun i => parseCirc (rd (circOff + 8 * i) 8))),
            allSome ((List.range nvar).map (fun i => parseVariant (rd (varOff + 16 * i) 16))) with
      | some pats, some circs, some variants =>
        let t : TaskImage :=
          { kind := BitVec.ofNat 8 kind, slot := w32 8, ndyn := BitVec.ofNat 8 (leAt l 0xE 1), h := BitVec.ofNat 8 h,
            w := w32 0x20, wRow := w32 0x24, wLite := w32 0x28, pBytes := w32 0x2C, tBytes := w32 0x30, seBytes := w32 0x34,
            fronds := BitVec.ofNat 16 (leAt l 0x38 2), accTiles := BitVec.ofNat 8 (leAt l 0x3A 1),
            order := BitVec.ofNat 8 (leAt l 0x3B 1), pkgId := BitVec.ofNat 64 (leAt l 0x40 8),
            buckets := (List.range 32).map (fun i => BitVec.ofNat 16 (leAt l (0x48 + 2 * i) 2)),
            pats := pats, circs := circs, variants := variants }
        if !t.bucketsOk || !variants.all t.variantOk || !variantsDistinct variants
            || variants.any (fun v => decide (v.cmdOff.toNat % 16 ≠ 0) || decide (v.cmdOff.toNat < varOff + 16 * nvar))
            || decide ((((variants.map (fun v => v.cmdOff.toNat)).min?).getD 0) % 32 ≠ 0) then .error stCmdIllegal
        else if variants.any (fun v => decide (bytes < v.cmdOff.toNat + 16 * v.cmdCount.toNat)) then .error stDescBad
        else .ok t
      | _, _, _ => .error stCmdIllegal

/-- The four words of command i of a list at `off`. -/
def cmdAt (rd : Nat → Nat → List Byte) (off i : Nat) : CmdWords :=
  let l := rd (off + 16 * i) 16
  { w0 := BitVec.ofNat 32 (leAt l 0 4), w1 := BitVec.ofNat 32 (leAt l 4 4), w2 := BitVec.ofNat 32 (leAt l 8 4), w3 := BitVec.ofNat 32 (leAt l 12 4) }

/-! ### Pattern walks -/

/-- Accesses per dimension. -/
def Pattern.count (p : Pattern) (d : Nat) : Nat := if d ≤ p.dims.toNat then (p.counts.getD d 0).toNat + 1 else 1

/-- Accesses of the whole walk. -/
def Pattern.total (p : Pattern) : Nat := p.count 0 * p.count 1 * p.count 2 * p.count 3

/-- Index in dimension d of access i; dimension 0 is innermost (log 18). -/
def Pattern.index (p : Pattern) (i d : Nat) : Nat :=
  let below := ((List.range d).map p.count).prod
  i / below % p.count d

/-- Offset of access i from BASE, in words or, in row mode, rows. -/
def Pattern.offset (p : Pattern) (i : Nat) : Int :=
  ((List.range 4).map (fun d => if d ≤ p.dims.toNat then (p.index i d : Int) * signed 20 (p.strides.getD d 0).toNat else 0)).sum

/-- Access i is masked: a dimension bound to a dynamic entry is at or above the actual extent (R91). -/
def Pattern.masked (p : Pattern) (exts : List (BitVec 16)) (i : Nat) : Bool :=
  (List.range 4).any (fun d =>
    let e := (p.dyn.getD d 0).toNat
    decide (e ≠ 0) && decide (d ≤ p.dims.toNat) && decide ((exts.getD (e - 1) 0).toNat ≤ p.index i d))

/-- A dimension of the pattern is bound to a dynamic entry whose actual extent is zero (R107). -/
def Pattern.zeroExtent (p : Pattern) (exts : List (BitVec 16)) : Bool :=
  (List.range 4).any (fun d =>
    let e := (p.dyn.getD d 0).toNat
    decide (e ≠ 0) && decide (d ≤ p.dims.toNat) && decide (exts.getD (e - 1) 0 = 0))

/-- Words of one access. -/
def Pattern.words (p : Pattern) : Nat := p.width.toNat + 1

/-- Rows of a circular region (R89). -/
def CircEntry.size (c : CircEntry) : Nat := if c.rows = 0 then 8192 else c.rows.toNat

/-- Word address of access i before a circular region wraps it: in row mode the row's first word. -/
def Pattern.address (p : Pattern) (i : Nat) : Int :=
  if p.row then (p.base.toNat + p.offset i) * 128 else p.base.toNat + p.offset i

/-- The task row of access i, and the word within it, with the region's offset `start` (H0 or T0) on a tagged access (R138).
An untagged access of a circular pattern wraps from the region's base (log 18). -/
def Pattern.place (p : Pattern) (circs : List CircEntry) (start : Nat) (i : Nat) : Option (Nat × Nat) :=
  let a := p.address i
  if p.circEn then
    match circs[p.circ.toNat]? with
    | none => none
    | some c =>
      let rel := a - 128 * c.baseRow.toNat
      let o := rel / 128
      some (c.baseRow.toNat + ((start + o) % c.size).toNat, (rel % 128).toNat)
  else if a < 0 then none
  else some (a.toNat / 128, a.toNat % 128)

/-- R106 and R113: the walk stays in the scratchpad's task rows (`rows`), its region or the part of the halo buffer that the task may use
(`halo` words, R73), and in word mode no access crosses a 32-B chunk. A tagged walk may stand at any row of its region (R138), so all of it lies
in the task's rows (R124). An access of a circular pattern whose address before wrapping is negative
is out of range too (DESIGN CHOICE, log 116). -/
def Pattern.rangeOk (p : Pattern) (circs : List CircEntry) (rows halo : Nat) : Bool :=
  (!p.tagged || p.circEn)
    && (!p.circEn || decide (p.circ.toNat < circs.length))
    && (!p.tagged || p.halo || ((circs[p.circ.toNat]?).map (fun c => decide (c.baseRow.toNat + c.size ≤ rows))).getD false)
    && (List.range p.total).all (fun i =>
      let a := p.address i
      decide (0 ≤ a)
        && (p.row || decide (a.toNat % 8 + p.words ≤ 8))
        && (if p.halo then decide (a.toNat + (if p.row then 128 else p.words) ≤ halo)
            else match p.place circs 0 i with
              | some (r, _) => decide (r < rows)
              | none => false))

/-! ### The image check -/

/-- Patterns a VU operand reference names. -/
def patRef (r : BitVec 7) : List Nat := if bitOf r 6 then [] else [fieldOf r 5 0]

/-- The VU register that an operand reference names. -/
def regRef (r : BitVec 7) : List Nat := if bitOf r 6 then [fieldOf r 3 0] else []

/-- The engine number (Table 04.2) of a command's queue; 8 for the sequencer. -/
def engineOf : Instr → Nat
  | .mxuPass .. => 0
  | .vuDrain .. | .vuEw .. | .vuDw .. | .vuPool .. | .vuArgmax .. | .vuTfn .. | .vuFft .. | .ptmBuild .. | .vuLoad .. | .vuStore ..
  | .vuTload .. => 2
  | .seCapture .. | .seRegroup .. => 3
  | .dmaIn .. => 4
  | .dmaOut .. => 5
  | .nwRead .. | .nwWrite .. | .winOpen .. | .winClose .. => 6
  | .fill .. | .fcCopy .. | .rhzKeep .. => 7
  | _ => 8

/-- Queue number of an engine: 0 MXU, 1 VU, 2 SE, 3 DI, 4 DO, 5 NW, 6 FC. -/
def queueOf (c : Instr) : Nat := if engineOf c = 0 then 0 else engineOf c - 1

/-- Engines whose later commands need not wait for an earlier one to finish: DMA (R269). -/
def overlapping (q : Nat) : Bool := decide (q = 3) || decide (q = 4)

/-- The engine owns a slot of the slot table. -/
def ownsSlot (slot : W32) (engine : Nat) : Bool :=
  (List.range 8).any (fun s => decide (fieldOf slot (3 * s + 2) (3 * s) = engine))

/-- A format an MXU pass may take as an operand (R171). -/
def mxuFmtOk (weight : Bool) (code : Nat) : Bool := decide (code ≠ 5) && decide (code ≠ 15) && (weight || decide (code ≠ 14))

/-- The pass runs on the binary64 path: its operands are BF16 or FP32 (R171). -/
def isWide (code : Nat) : Bool := decide (code = 12) || decide (code = 13)

/-- A format from 6 to 10 (R168). -/
def isMx (code : Nat) : Bool := decide (6 ≤ code) && decide (code ≤ 10)

/-- The engines a command needs slots of (R51). A pass is on the activation feed when it loads activations or their block scales, and on the
weight load when it loads weights or theirs; one that reuses both buffers and reads no scales is on neither (DESIGN CHOICE, log 117). -/
def slotsNeeded : Instr → List Nat
  | .mxuPass _ _ o =>
    (if o.asrc = 0 ∨ (o.mx ∧ isMx o.afmt.toNat) then [0] else []) ++ (if o.wsrc = 0 ∨ (o.mx ∧ isMx o.wfmt.toNat) then [1] else [])
  | c => if engineOf c = 8 then [] else [engineOf c]

/-- Field values that the encoding reserves, and the per-opcode conditions that the image check faults with CMD_ILLEGAL
(R106, R164, R168, R171, R212). `share` is the task's semaphores (R279), `vuRegs` its VU registers (R70). -/
def fieldsLegal (share : Nat → Bool) (vuRegs : Nat → Bool) : Instr → Bool
  | .wait _ _ sem count => decide (count ≠ 0) && share sem.toNat
  | .signal _ _ _ sem _ _ count => decide (count ≠ 0) && share sem.toNat
  | .mxuPass _ _ o =>
    decide (o.asrc.toNat ≤ 1) && decide (o.wsrc.toNat ≤ 2) && mxuFmtOk false o.afmt.toNat && mxuFmtOk true o.wfmt.toNat
      && decide (isWide o.afmt.toNat = isWide o.wfmt.toNat)
      && (!o.mx || (decide (o.kp.toNat % 32 = 0) && (isMx o.afmt.toNat || isMx o.wfmt.toNat) && !isWide o.afmt.toNat))
      && (o.mx || (decide (o.aspat = 0) && decide (o.wspat = 0)))
  | .vuDrain _ _ o => decide (o.rnd.toNat ≤ 4) && decide (o.tfn.toNat ≤ 4) && decide (o.ofmt ≠ 14)
  | .vuEw _ _ v func _ => vu v && decide (func.toNat ≤ 13) && decide (v.ifmt ≠ 14) && decide (v.ofmt ≠ 14)
  | .vuDw _ _ v g _ _ => vu v && decide (g.pad.toNat ≤ 2) && [5, 14, 15].all (fun n => decide (v.ifmt.toNat ≠ n))
      && [14, 15].all (fun n => decide (v.ofmt.toNat ≠ n))
  | .vuPool _ _ _ _ v g _ => vu v && decide (g.pad.toNat ≤ 2) && decide (v.ifmt ≠ 14) && decide (v.ofmt ≠ 14)
  | .vuArgmax _ _ v _ => vu v && decide (v.ifmt ≠ 14) && decide (v.ofmt ≠ 14)
  | .vuTfn _ _ v _ _ => vu v && decide (v.ifmt ≠ 14) && decide (v.ofmt ≠ 14)
  | .vuFft _ _ _ v _ _ => vu v && decide (v.ifmt ≠ 14) && decide (v.ofmt ≠ 14)
  | .ptmBuild _ _ v _ _ => vu v
  | .vuLoad _ _ v _ => vu v && decide (v.ifmt ≠ 14) && decide (v.ofmt ≠ 14)
  | .vuStore _ _ v _ => vu v && decide (v.ifmt ≠ 14) && decide (v.ofmt ≠ 14)
  | .vuTload _ _ v _ => vu v && decide (v.ifmt ≠ 14) && decide (v.ofmt ≠ 14)
  | _ => true
where
  operand (r : BitVec 7) : Bool := !bitOf r 6 || (decide (fieldOf r 5 4 = 0) && vuRegs (fieldOf r 3 0))
  vu (v : VuForm) : Bool := decide (v.rnd.toNat ≤ 4) && operand v.srca && operand v.srcb && operand v.dst

/-- The header wait and signal lie in the task's semaphore share (R279). -/
def headerLegal (share : Nat → Bool) (h : CmdHdr) : Bool := (!h.wen || share h.wsem.toNat) && (!h.sen || share h.ssem.toNat)

end Sys2Proof.Machine
end

