-- ==== Sys2Proof/Machine/Tsp.lean ====
section
/-! DEFINITION. The tile scratchpad as a task sees it (chapter 05): translation of task rows, power segments, tags, circular regions,
spill through the cache, the SE buffer, and the operations that a command's meaning is made of. -/

namespace Sys2Proof.Machine

/-! ### Stops -/

/-- Why a command does not run: it waits, or it faults with a status in a phase of Table 04.7 (0 dispatch, 1 issue, 2 execution). -/
inductive Stop where
  | wait (k : BlockKind)
  | fault (code : BitVec 16) (phase : Nat)
deriving DecidableEq, Repr

/-- A piece of a command's work on the whole state. -/
abbrev Op (α : Type) := StateT State (Except Stop) α

def waitFor {α : Type} (k : BlockKind) : Op α := throw (.wait k)
def faultWith {α : Type} (code : BitVec 16) (phase : Nat) : Op α := throw (.fault code phase)

/-- Goes on only where a condition holds; otherwise the command stops. -/
def need (c : Bool) (e : Stop) : Op Unit := if c then pure () else throw e

/-! ### Tasks of a frond -/

/-- The task of frond f's live or simmer share. -/
def State.taskOf (s : State) (f : Nat) (live : Bool) : Task :=
  ((if live then (s.frond f).live else (s.frond f).simmer)).getD {}

/-- A change to that task. -/
def State.modTask (s : State) (f : Nat) (live : Bool) (g : Task → Task) : State :=
  let x := s.frond f
  if live then s.setFrond f { x with live := x.live.map g } else s.setFrond f { x with simmer := x.simmer.map g }

/-- The frond carries live streams: its windows, semaphores, registers and tiles are divided (R65, R70, R237, R279). -/
def State.divided (s : State) (f : Nat) : Bool := s.carriesLive f

/-- The semaphores of a share (R279). -/
def semShare (divided live : Bool) (sem : Nat) : Bool := !divided || (if live then decide (sem < 32) else decide (32 ≤ sem))

/-- The VU registers of a share (R70). -/
def regShare (divided live : Bool) (r : Nat) : Bool :=
  decide (r < 16) && (if live then decide (r < 8) else !divided || decide (8 ≤ r))

/-- The windows of a share (Table 09.4). -/
def winShare (divided live : Bool) (w : Nat) : Bool :=
  !divided || (if live then decide (w < 6) || decide (w = 12) || decide (w = 13)
    else (decide (6 ≤ w) && decide (w < 12)) || decide (14 ≤ w))

/-! ### Places -/

/-- Where a task row lies: a physical row, or spilled (R124, R127, R151). -/
inductive Place where
  | phys (row : Nat)
  | spill (row : Nat)
deriving DecidableEq, Repr

/-- Rows of a frond's pinned and working parts. -/
def TaskImage.pRows (t : TaskImage) : Nat := t.pBytes.toNat / 512
def TaskImage.tRows (t : TaskImage) : Nat := t.tBytes.toNat / 512

/-- The pinned region that serves a package for a context: its own, else the shared one (R126). -/
def Frond.pinFor (x : Frond) (pkg : W64) (ctx : Nat) : Option Pin :=
  let l := ((List.range 8).map (fun n => x.pins.get n {})).filter (fun p => p.used && decide (p.pkg = pkg))
  (l.find? (fun p => !p.shared && decide (p.ctx = ctx))).orElse (fun _ => l.find? Pin.shared)

/-- Translation of a task row (Table 05.4); `none` for a row the task does not have. -/
def Frond.placeFor (x : Frond) (image : TaskImage) (live : Bool) (ctx r : Nat) : Option Place :=
  let p := image.pRows
  if r < p then (x.pinFor image.pkgId ctx).map (fun q => .phys (q.base + r))
  else if r < p + image.tRows then
    if live then (x.areas.find? (fun a => decide (a.ctx = ctx))).map (fun a => .phys (a.base + (r - p)))
    else (x.simRows[r - p]?).map (fun q => if q = 8192 then .spill r else .phys q)
  else none

/-- Place of task row r of a task. -/
def Frond.place (x : Frond) (t : Task) (r : Nat) : Option Place := x.placeFor t.image t.live t.ctx r

/-- A segment accepts accesses: powered and not shutting down (R130). -/
def Frond.segOn (x : Frond) (n : Nat) : Bool := bitOf x.segEn n && decide (x.segs.get n .on = .on)

/-- A place that an access may touch. -/
def Frond.reachable (x : Frond) : Place → Bool
  | .phys r => x.segOn (r / 512)
  | .spill _ => true

/-- Numbers of the memories of a frond among the memories of `Config.freeByte`. -/
def tspSpace (f : Nat) : Nat := 16 + f
def seSpace (f : Nat) : Nat := 272 + f

def Frond.tspByte (x : Frond) (f a : Nat) : Byte := (x.tsp.get? a).getD (Config.freeByte (tspSpace f) x.epoch a)
def Frond.seByte (x : Frond) (f a : Nat) : Byte := (x.se.get? a).getD (Config.freeByte (seSpace f) x.epoch a)

/-! ### The cache (R144 to R147) -/

/-- Set of a line's address with k steps of cache in effect. R145 gives the number of sets and no index: the line number modulo that number
(DESIGN CHOICE, log 111). -/
def cacheSet (k line : Nat) : Nat := line % (512 * k)

/-- A line brought to the front (most recently used), the fifth of its set dropped. -/
def cacheTouch (k : Nat) (c : CacheLine) (l : List CacheLine) : List CacheLine :=
  let others := l.filter (fun d => decide (d.addr ≠ c.addr))
  let mates := (others.filter (fun d => decide (cacheSet k d.addr = cacheSet k c.addr))).take 3
  c :: others.filter (fun d => decide (cacheSet k d.addr ≠ cacheSet k c.addr) || mates.any (fun m => decide (m.addr = d.addr)))

/-- Bytes read through the cache of frond f: whole 128-B lines, filled from HBM on a miss. -/
def State.cachedRead (s : State) (f a n : Nat) : List Byte × State :=
  let first := a / 128
  let lines := List.range ((a + n + 127) / 128 - first)
  let s := lines.foldl (fun s i =>
    let x := s.frond f
    let k := x.cacheActive.toNat
    match x.cache.find? (fun c => decide (c.addr = first + i)) with
    | some c => s.setFrond f { x with cache := cacheTouch k c x.cache }
    | none => s.setFrond f { x with cache := cacheTouch k { addr := first + i, bytes := s.hbmRead (128 * (first + i)) 128 } x.cache }) s
  let c := (s.frond f).cache
  ((List.range n).map (fun i =>
    match c.find? (fun d => decide (d.addr = (a + i) / 128)) with
    | some d => d.bytes.getD ((a + i) % 128) 0
    | none => s.hbmByte (a + i)), s)

/-- Bytes written through the cache: HBM always, and the line on a hit, which is a use of the line. -/
def State.cachedWrite (s : State) (f a : Nat) (l : List Byte) : State :=
  let s := s.hbmWrite a l
  let x := s.frond f
  let first := a / 128
  let cache := x.cache.map (fun c =>
    { c with bytes := (List.range 128).map (fun i =>
        let b := 128 * c.addr + i
        if decide (a ≤ b) && decide (b < a + l.length) then l.getD (b - a) 0 else c.bytes.getD i 0) })
  let used := (List.range ((a + l.length + 127) / 128 - first)).foldl (fun (cache : List CacheLine) i =>
    match cache.find? (fun c => decide (c.addr = first + i)) with
    | some c => cacheTouch x.cacheActive.toNat c cache
    | none => cache) cache
  s.setFrond f { x with cache := used }

/-- Bytes of HBM as a frond's access reads them, through the cache when `cached` and cache mode is on. -/
def State.frondHbmRead (s : State) (f : Nat) (cached : Bool) (a n : Nat) : List Byte × State :=
  if cached && decide ((s.frond f).cacheActive ≠ 0) then s.cachedRead f a n else (s.hbmRead a n, s)

def State.frondHbmWrite (s : State) (f : Nat) (cached : Bool) (a : Nat) (l : List Byte) : State :=
  if cached && decide ((s.frond f).cacheActive ≠ 0) then s.cachedWrite f a l else s.hbmWrite a l

/-! ### Rows -/

/-- Address of a spilled row. -/
def Frond.spillAddr (x : Frond) (r : Nat) : Nat := x.spillBase.toNat + 512 * r

/-- n bytes of a row from byte `off`; an access to a spilled row counts as SPILL (R151). -/
def State.rowRead (s : State) (f : Nat) (p : Place) (off n : Nat) : List Byte × State :=
  match p with
  | .phys r => (readBytes ((s.frond f).tspByte f) (512 * r + off) n, s)
  | .spill r => (s.count (cntFrond f 7) ((n + 31) / 32)).frondHbmRead f true ((s.frond f).spillAddr r + off) n

def State.rowWrite (s : State) (f : Nat) (p : Place) (off : Nat) (l : List Byte) : State :=
  match p with
  | .phys r => let x := s.frond f; s.setFrond f { x with tsp := x.tsp.write (512 * r + off) l }
  | .spill r => (s.count (cntFrond f 7) ((l.length + 31) / 32)).frondHbmWrite f true ((s.frond f).spillAddr r + off) l

/-- The row's tag (R133). -/
def Frond.isFull (x : Frond) : Place → Bool
  | .phys r => x.full.contains r
  | .spill r => x.spillFull.contains r

def Frond.setTag (x : Frond) (p : Place) (full : Bool) : Frond :=
  match p with
  | .phys r => { x with full := if full then insertNat r x.full else x.full.filter (fun q => decide (q ≠ r)) }
  | .spill r => { x with spillFull := if full then insertNat r x.spillFull else x.spillFull.filter (fun q => decide (q ≠ r)) }

/-- The row's poison mark (R284); a spilled row carries it on its HBM words (R285). -/
def State.rowPoisoned (s : State) (f : Nat) : Place → Bool
  | .phys r => (s.frond f).poisonRows.contains r
  | .spill r => s.hbmPoisoned ((s.frond f).spillAddr r) 512

def State.markRow (s : State) (f : Nat) (p : Place) (bad : Bool) : State :=
  match p with
  | .phys r =>
    let x := s.frond f
    s.setFrond f { x with poisonRows := if bad then insertNat r x.poisonRows else x.poisonRows.filter (fun q => decide (q ≠ r)) }
  | .spill r => if bad then s.poisonHbm ((s.frond f).spillAddr r) 512 else s

/-- n bytes that the spec leaves undefined (log 1). -/
def State.freeBytes (s : State) (n : Nat) : List Byte × State := (readBytes (Config.freeByte 700 s.fresh) 0 n, { s with fresh := s.fresh + 1 })

/-- A row that a failed step would write: its contents are undefined and it carries the mark (R284). -/
def State.spoilRow (s : State) (f : Nat) (p : Place) : State :=
  let (l, s) := s.freeBytes 512
  let s := match p with
    | .phys r => let x := s.frond f; s.setFrond f { x with tsp := x.tsp.write (512 * r) l }
    | .spill r => s.hbmWrite ((s.frond f).spillAddr r) l
  s.markRow f p true

/-- SE buffer lines that a failed step would write (R284). -/
def State.spoilLines (s : State) (f : Nat) (lines : List Nat) : State :=
  lines.foldl (fun s i =>
    let (l, s) := s.freeBytes 32
    let x := s.frond f
    s.setFrond f { x with se := x.se.write (32 * i) l, poisonLines := insertNat i x.poisonLines }) s

/-- A row's number in the list of rows a step wrote: spilled rows above the physical ones. -/
def Place.key : Place → Nat
  | .phys r => r
  | .spill r => 8192 + r

def placeOfKey (k : Nat) : Place := if k < 8192 then .phys k else .spill (k - 8192)

/-! ### Circular regions (R137 to R140) -/

/-- Region number c of a context on a frond. -/
def Frond.region (x : Frond) (ctx c : Nat) : Option Region := (x.regions.get ctx [])[c]?

def Frond.setRegion (x : Frond) (ctx c : Nat) (g : Region) : Frond :=
  { x with regions := x.regions.set ctx ((x.regions.get ctx []).set c g) }

/-- T advances by one row when the row at T turns full (R139). -/
def Region.advance (g : Region) (row : Nat) : Region := if row = g.tail then { g with tail := (g.tail + 1) % g.rows } else g

/-- A physical row turns full: the tag, and T of the region where the row stands at T. `own` records it in the step that did it. -/
def State.fillRow (s : State) (f : Nat) (live : Bool) (ctx : Nat) (p : Place) (reg : Option (Nat × Nat)) (own : Bool) : State :=
  let x := (s.frond f).setTag p true
  let x := match reg with
    | none => x
    | some (c, row) => match x.region ctx c with
      | none => x
      | some g => x.setRegion ctx c (g.advance row)
  let s := s.setFrond f x
  if own then
    s.modTask f live (fun t => match p with
      | .phys r => { t with step := { t.step with tagsSet := insertNat r t.step.tagsSet } }
      | .spill r => { t with step := { t.step with spillTagsSet := insertNat r t.step.spillTagsSet } })
  else s

/-- A tagged read of region row `row` is remembered for the head advance of the step (R139). -/
def State.noteRead (s : State) (f : Nat) (live : Bool) (ctx c row : Nat) : State :=
  match (s.frond f).region ctx c with
  | none => s
  | some g =>
    let d := (row + g.rows - g.head) % g.rows
    s.modTask f live (fun t =>
      let old := t.step.reads.find? (fun q => decide (q.1 = c))
      let best := match old with
        | some q => max q.2 d
        | none => d
      { t with step := { t.step with reads := (c, best) :: t.step.reads.filter (fun q => decide (q.1 ≠ c)) } })

/-- H0 or T0 of a region, latched when the task started. -/
def Task.start (t : Task) (c : Nat) (write : Bool) : Nat :=
  let p := t.starts.getD c (0, 0)
  if write then p.2 else p.1

/-! ### Accesses through patterns (R90, R91) -/

/-- First byte of a task's part of the SE buffer: every live stream has a part of its own, and simmer work another, and halo
addresses count within the part (R73, log 27). What the parts hold together is bounded: a live stream keeps to its SE_BYTES (`seRoom`), admission
bounds their sum (R30), and simmer work keeps to what they leave of the 256 KiB (`seRoom`, `State.haloFits`). -/
def seBase (live : Bool) (ctx : Nat) : Nat := 262144 * (if live then ctx else 48)

/-- Bytes of frond f's SE buffer that the live streams have declared (R73). -/
def State.seDeclared (s : State) (f : Nat) : Nat :=
  ((s.liveStreams.filterMap (fun c => (s.ctx c).bound)).filter (fun b => b.mask.getLsbD f)).foldl (fun n b => n + b.image.seBytes.toNat) 0

/-- One access of a walk. -/
structure Access where
  halo : Bool
  masked : Bool
  place : Option Place
  /-- Byte within the row; in the SE buffer, byte address. -/
  off : Nat
  len : Nat
  /-- The region and its row, for a tagged access. -/
  region : Option (Nat × Nat)
deriving DecidableEq, Repr

/-- Bytes of one access. -/
def Pattern.bytes (p : Pattern) : Nat := if p.row then 512 else 4 * p.words

/-- Access i of pattern p in a task. -/
def Frond.access (x : Frond) (t : Task) (p : Pattern) (i : Nat) (write : Bool) : Access :=
  let masked := p.masked t.exts i
  if p.halo then
    { halo := true, masked := masked, place := none, off := seBase t.live t.ctx + 4 * (p.address i).toNat, len := p.bytes, region := none }
  else
    let start := if p.tagged then t.start p.circ.toNat write else 0
    match p.place t.image.circs start i with
    | none => { halo := false, masked := masked, place := none, off := 0, len := p.bytes, region := none }
    | some (row, word) =>
      let reg := if p.tagged then
          (t.image.circs[p.circ.toNat]?).map (fun c => (p.circ.toNat, (row + c.size - c.baseRow.toNat) % c.size))
        else none
      { halo := false, masked := masked, place := x.place t row, off := 4 * word, len := p.bytes, region := reg }

/-- Lines of 32 B of the SE buffer that an access touches: the grain of its poison marks. -/
def seLines (a n : Nat) : List Nat := (List.range ((a + n + 31) / 32 - a / 32)).map (fun i => a / 32 + i)

/-- A halo access of simmer work stays in what the live streams of the frond leave of the 256 KiB (R73, log 27). -/
def State.haloFits (s : State) (f : Nat) (live : Bool) (a : Access) : Bool :=
  live || decide (a.off + a.len ≤ seBase false 48 + 262144 - s.seDeclared f)

/-- One read access: the bytes and whether they are poisoned. A masked read delivers zeros; through a TAGGED pattern it makes no access at all, so it
neither waits for its row's tag nor counts for the head advance (DESIGN CHOICE, log 130). -/
def readAccess (f : Nat) (live : Bool) (a : Access) : Op (List Byte × Bool) := do
  let s ← get
  let x := s.frond f
  if a.masked then return (List.replicate a.len 0, false)
  if a.halo then
    need (s.haloFits f live a) (.fault stPatternRange 2)
    return (readBytes (x.seByte f) a.off a.len, (seLines a.off a.len).any (fun l => x.poisonLines.contains l))
  match a.place with
  | none => faultWith stPatternRange 2
  | some p =>
    need (x.reachable p) (.fault stTspGated 2)
    match a.region with
    | none => pure ()
    | some (c, row) =>
      need (x.isFull p) (.wait (.tag p.key))
      set (s.noteRead f live (s.taskOf f live).ctx c row)
    let s ← get
    let (l, s) := s.rowRead f p a.off a.len
    set s
    return (l, s.rowPoisoned f p)

/-- One write access. A masked write changes nothing; a write from clean inputs clears the poison mark (R284); a tagged write of the
row's last chunk turns its tag full (R135). -/
def writeAccess (f : Nat) (live : Bool) (a : Access) (l : List Byte) (bad : Bool) : Op Unit := do
  let s ← get
  let x := s.frond f
  if a.masked then return ()
  if a.halo then
    need (s.haloFits f live a) (.fault stPatternRange 2)
    let lines := seLines a.off l.length
    let x := { x with
      se := x.se.write a.off l
      poisonLines := if bad then lines.foldl (fun acc i => insertNat i acc) x.poisonLines
        else x.poisonLines.filter (fun i => !lines.contains i) }
    set ((s.setFrond f x).modTask f live (fun t =>
      { t with step := { t.step with wroteLines := lines.foldl (fun acc i => insertNat i acc) t.step.wroteLines } }))
    return ()
  match a.place with
  | none => faultWith stPatternRange 2
  | some p =>
    need (x.reachable p) (.fault stTspGated 2)
    match a.region with
    | none => pure ()
    | some _ => need (!x.isFull p) (.wait (.tag p.key))
    let s := (s.rowWrite f p a.off l).markRow f p bad
    let s := s.modTask f live (fun t => { t with step := { t.step with wroteRows := insertNat p.key t.step.wroteRows } })
    match a.region with
    | none => set s
    | some r =>
      if 480 < a.off + l.length then set (s.fillRow f live (s.taskOf f live).ctx p (some r) true) else set s

/-- The pattern that a command names. -/
def Task.pattern (t : Task) (i : Nat) : Option Pattern := t.pats[i]?

/-- Cursor of pattern i. -/
def Task.cursor (t : Task) (i : Nat) : Nat := t.cursors.get i 0

/-- The cursor of a pattern advanced by n accesses; at the end of the walk it wraps to zero (R90). -/
def State.bumpCursor (s : State) (f : Nat) (live : Bool) (pat n total : Nat) : State :=
  s.modTask f live (fun t => { t with cursors := t.cursors.set pat ((t.cursor pat + n) % total) })

/-- n accesses read through a pattern: their bytes one by one, and whether any was poisoned. -/
def readPat (f : Nat) (live : Bool) (pat n : Nat) : Op (List (List Byte) × Bool) := do
  let s ← get
  let t := s.taskOf f live
  match t.pattern pat with
  | none => faultWith stPatternRange 2
  | some p =>
    let c := t.cursor pat
    let out ← (List.range n).foldlM (fun (acc : List (List Byte) × Bool) i => do
      let s ← get
      let (l, bad) ← readAccess f live ((s.frond f).access t p ((c + i) % p.total) false)
      return (acc.1 ++ [l], acc.2 || bad)) ([], false)
    modify (fun s => s.bumpCursor f live pat n p.total)
    return out

/-- Accesses written through a pattern. -/
def writePat (f : Nat) (live : Bool) (pat : Nat) (rows : List (List Byte)) (bad : Bool) : Op Unit := do
  let s ← get
  let t := s.taskOf f live
  match t.pattern pat with
  | none => faultWith stPatternRange 2
  | some p =>
    let c := t.cursor pat
    let _ ← (List.range rows.length).foldlM (fun (_ : Unit) i => do
      let s ← get
      writeAccess f live ((s.frond f).access t p ((c + i) % p.total) true) (rows.getD i []) bad) ()
    modify (fun s => s.bumpCursor f live pat rows.length p.total)

/-- Bytes of an access of pattern `pat` in the task. -/
def Task.patBytes (t : Task) (pat : Nat) : Nat := ((t.pattern pat).map Pattern.bytes).getD 32

/-- n bytes read as one stream of accesses (log 19). -/
def readStream (f : Nat) (live : Bool) (pat n : Nat) : Op (List Byte × Bool) := do
  let s ← get
  let w := (s.taskOf f live).patBytes pat
  let (l, bad) ← readPat f live pat ((n + w - 1) / w)
  return ((l.flatten).take n, bad)

/-- Bytes written as one stream of accesses. Every access is written whole (R90, R121): what stands in the last one behind the stream's end is
a free value (log 109). -/
def writeStream (f : Nat) (live : Bool) (pat : Nat) (l : List Byte) (bad : Bool) : Op Unit := do
  let s ← get
  let w := (s.taskOf f live).patBytes pat
  if l.length % w = 0 then writePat f live pat (chunksOf w l.length l) bad
  else writePat f live pat (chunksOf w l.length (l ++ readBytes (Config.tailByte l) 0 (w - l.length % w))) bad

/-! ### Element packing (R157) -/

/-- The stored elements of a byte stream. -/
def elemsOf (code : Nat) (l : List Byte) : List Nat :=
  if storeBits code = 4 then l.flatMap (fun b => [b.toNat % 16, b.toNat / 16])
  else (chunksOf (storeBits code / 8) l.length l).map leNat

/-- Elements to bytes; a 4-bit element of lower index takes the low half. -/
def packElems (code : Nat) (l : List Nat) : List Byte :=
  if storeBits code = 4 then (chunksOf 2 l.length l).map (fun p => BitVec.ofNat 8 (p.getD 0 0 % 16 + 16 * (p.getD 1 0 % 16)))
  else l.flatMap (fun v => toLe (storeBits code / 8) v)

/-- Bytes of n elements. -/
def elemBytes (code n : Nat) : Nat := (n * storeBits code + 7) / 8

/-! ### VU registers -/

/-- Lane l of VU register r. -/
def Frond.vuLane (x : Frond) (r l : Nat) : W32 := x.vuRegs.get (64 * r + l) 0

def Frond.setVu (x : Frond) (r : Nat) (lanes : List W32) : Frond :=
  { x with vuRegs := (List.range lanes.length).foldl (fun t l => t.set (64 * r + l) (lanes.getD l 0)) x.vuRegs }

/-- Poison marks of outputs that are neither rows, lines nor handles (R284). -/
def Frond.markVu (x : Frond) (keys : List Nat) (bad : Bool) : Frond :=
  { x with vuPoison := if bad then keys.foldl (fun l k => insertNat k l) x.vuPoison else x.vuPoison.filter (fun k => !keys.contains k) }

/-! ### Tensor counts (R163, R195) -/

/-- The FP32 code of a magnitude rounded toward +∞. -/
def amaxCode (v : XVal) : W32 :=
  match v with
  | .num q _ => BitVec.ofNat 32 (fp32.round 2 true (.num (if q < 0 then -q else q) false)).raw
  | _ => 0

/-- One rounding charged to a tensor. NAN_SEEN and INF_SEEN are taken as parts of the record that TRACK asks for, like AMAX: roundings without TRACK set
neither (DESIGN CHOICE, log 129). -/
def TensorCount.charge (c : TensorCount) (r : Rounded) (v : XVal) (track : Bool) (fmt : Nat) : TensorCount :=
  let c := { c with sat := c.sat + b2n r.sat, ufl := c.ufl + b2n r.ufl }
  if track then
    { c with
      tracked := true, fmt := BitVec.ofNat 4 fmt
      amax := match v with
        | .num _ _ => if c.amax.toNat < (amaxCode v).toNat then amaxCode v else c.amax
        | .inf _ => 0x7F800000
        | .nan => c.amax
      nan := c.nan || decide (v = .nan)
      inf := c.inf || decide (v = .inf true) || decide (v = .inf false) }
  else c

/-- Counts of two parts of a frame together: sums, and the larger AMAX (R196). -/
def TensorCount.merge (a b : TensorCount) : TensorCount :=
  { sat := a.sat + b.sat, ufl := a.ufl + b.ufl, amax := if a.amax.toNat < b.amax.toNat then b.amax else a.amax,
    nan := a.nan || b.nan, inf := a.inf || b.inf, tracked := a.tracked || b.tracked, fmt := if b.tracked then b.fmt else a.fmt }

def mergeCounts (a b : Tbl TensorCount) : Tbl TensorCount := b.cells.foldl (fun acc c => acc.modify c.1 {} (fun x => x.merge c.2)) a

/-- Rounding of a list of exact values into a format, charged to one tensor of the task. -/
def roundAll (f : Nat) (live : Bool) (fmt rnd : Nat) (ieee : Bool) (tensor : Nat) (track : Bool) (l : List XVal) : Op (List Nat) := do
  let r := l.map (fun v => (v, roundTo fmt rnd ieee v))
  modify (fun s => s.modTask f live (fun t =>
    { t with counts := t.counts.modify tensor {} (fun c => r.foldl (fun c p => c.charge p.2 p.1 track fmt) c) }))
  return r.map (fun p => p.2.raw)

/-- A result of an operation that is no conversion: a zero is +0 (R162). -/
def XVal.plain : XVal → XVal
  | .num q _ => .num q false
  | v => v

end Sys2Proof.Machine
end

