-- ==== Sys2Proof/Machine/Accumulate.lean ====
section
/-! DEFINITION. Accumulator entries and tiles (R172 to R176) and the combination of partial tiles (R244 to R248). -/

namespace Sys2Proof.Machine

/-- The value an entry or an accumulator stands for: a number or special, or an overflow state with its sign (R176). -/
inductive AccVal where
  | val (v : XVal)
  | ovf (neg : Bool)
deriving DecidableEq, Repr

/-- The signed integer N of a fixed-point entry. -/
def Entry.int (e : Entry) : Int := e.bits.toInt

/-- The value of an entry on a path (R176 step 1). -/
def Entry.value (e : Entry) (b64 : Bool) : AccVal :=
  match e.st with
  | .ovfPos => .ovf false
  | .ovfNeg => .ovf true
  | .infPos => .val (.inf false)
  | .infNeg => .val (.inf true)
  | .nan => .val .nan
  | .finite => .val (if b64 then binary64.decode (e.bits.toNat % 2 ^ 64) else .ofRat ((e.int : Rat) * pow2 (-48)))

/-- The entry that holds an exact sum, or the OVF state it enters (Table 06.7). -/
def entryOfSum (n : Int) : Entry :=
  if n < -(2 ^ 95) then { bits := 0, st := .ovfNeg }
  else if 2 ^ 95 ≤ n then { bits := 0, st := .ovfPos }
  else { bits := BitVec.ofInt 96 n, st := .finite }

/-- A product or block contribution added to a fixed-point entry (Table 06.7); contributions are multiples of 2^-48. -/
def Entry.addFixed (e : Entry) (p : XVal) : Entry :=
  match e.st, p with
  | .nan, _ => e
  | _, .nan => { bits := 0, st := .nan }
  | .finite, .num q _ => entryOfSum (e.int + (q * pow2 48).floor)
  | _, .num _ _ => e
  | .infPos, .inf neg => if neg then { bits := 0, st := .nan } else e
  | .infNeg, .inf neg => if neg then e else { bits := 0, st := .nan }
  | _, .inf neg => { bits := 0, st := if neg then .infNeg else .infPos }

/-- A product added to a binary64 entry (R175). -/
def Entry.addWide (e : Entry) (p : XVal) : Entry :=
  { bits := BitVec.ofNat 96 (addB64 (e.bits.toNat % 2 ^ 64) (binary64.round 0 true p).raw), st := .finite }

/-- An entry has just entered an OVF state. -/
def newOvf (before after : Entry) : Bool :=
  (decide (after.st = .ovfPos) || decide (after.st = .ovfNeg)) && decide (before.st = .finite)

/-! ### Partial tiles -/

/-- The state of an entry after an incoming state that is not FINITE, or of one that is not FINITE (R248). -/
def joinState (a b : EntState) : EntState :=
  match a, b with
  | .nan, _ => .nan
  | _, .nan => .nan
  | .infPos, .infNeg => .nan
  | .infNeg, .infPos => .nan
  | .infPos, _ => .infPos
  | .infNeg, _ => .infNeg
  | _, .infPos => .infPos
  | _, .infNeg => .infNeg
  | .ovfPos, .ovfNeg => .nan
  | .ovfNeg, .ovfPos => .nan
  | .ovfPos, _ => .ovfPos
  | .ovfNeg, _ => .ovfNeg
  | _, .ovfPos => .ovfPos
  | _, .ovfNeg => .ovfNeg
  | .finite, .finite => .finite

/-- A partial entry added into an accumulator entry: exactly, or in binary64 (R246, R247). -/
def Entry.join (exact : Bool) (a b : Entry) : Entry :=
  if a.st = .finite ∧ b.st = .finite then
    if exact then entryOfSum (a.int + b.int)
    else { bits := BitVec.ofNat 96 (addB64 (a.bits.toNat % 2 ^ 64) (b.bits.toNat % 2 ^ 64)), st := .finite }
  else { bits := 0, st := joinState a.st b.st }

/-- What a sender sends of an entry: in fast mode a FINITE fixed-point entry goes as binary64 (R246). -/
def Entry.partial (e : Entry) (b64 exact : Bool) : Entry :=
  if b64 || exact then e
  else if e.st = .finite then
    { bits := BitVec.ofNat 96 (binary64.round 0 true (.ofRat ((e.int : Rat) * pow2 (-48)))).raw, st := .finite }
  else e

/-- The accumulator's entry added into an entry of the receiver's tile, and whether that was inexact (R246 to R248): a FINITE binary64 value that
meets a fixed-point tile is first rounded at 2^-48, and counts where that changed it, whatever the tile's entry holds. -/
def Entry.absorb (t a : Entry) (b64 exact : Bool) : Entry × Bool :=
  if a.st = .finite ∧ !b64 ∧ !exact then
    match binary64.decode (a.bits.toNat % 2 ^ 64) with
    | .num q _ =>
      let n := roundInt 0 (q * pow2 48)
      (t.addFixed (.ofRat ((n : Rat) * pow2 (-48))), decide ((n : Rat) ≠ q * pow2 48))
    | v => (t.addFixed v, false)
  else if t.st = .finite ∧ a.st = .finite then
    if b64 then ({ bits := BitVec.ofNat 96 (addB64 (t.bits.toNat % 2 ^ 64) (a.bits.toNat % 2 ^ 64)), st := .finite }, false)
    else (entryOfSum (t.int + a.int), false)
  else ({ bits := 0, st := joinState t.st a.st }, false)

/-! ### Tiles -/

/-- Entry (m, n) of a tile. -/
def Tile.entry (t : Tile) (i : Nat) : Entry := t.entries.get i {}

/-- A tile with every entry given by a function of its index. -/
def Tile.fill (t : Tile) (g : Nat → Entry) : Tile := { t with entries := ⟨(List.range 2048).map (fun i => (i, g i))⟩ }

/-- A frond's tile. -/
def Frond.tile (x : Frond) (i : Nat) : Tile := x.tiles.get i {}
def Frond.setTile (x : Frond) (i : Nat) (t : Tile) : Frond := { x with tiles := x.tiles.set i t }

/-- The lowest-numbered tile that is FREE. -/
def Frond.freeTile (x : Frond) : Option Nat := (List.range 8).find? (fun i => decide ((x.tile i).state = .free))

/-- Handles of a task that are bound (R63, R94). -/
def Task.boundHandles (t : Task) : List Nat := (List.range 8).filter (fun i => (t.handles.get i none).isSome)

/-- How many handles a task may hold bound: ACC_TILES on a live stripe (R257); of a simmer task 8, less the largest ACC_TILES of the
live streams of the frond (R65). -/
def State.handleLimit (s : State) (f : Nat) (live : Bool) : Nat :=
  if live then (s.taskOf f true).image.accTiles.toNat
  else
    let tiles := s.liveStreams.filterMap (fun c => (s.ctx c).bound.bind (fun b =>
      if b.mask.getLsbD f then some b.image.accTiles.toNat else none))
    8 - tiles.foldl max 0

/-- A tile whose LAST pass has completed, and whose combine window, if it has one, has delivered, is READY (R60, R244). -/
def State.readyTile (s : State) (f i : Nat) : State :=
  let x := s.frond f
  let u := x.tile i
  if u.lastDone && u.combine.isNone && decide (u.state = .accum) then s.setFrond f (x.setTile i { u with state := .ready }) else s

/-- A handle that must be bound, at issue (R94). -/
def boundTile (f : Nat) (live : Bool) (h : Nat) : Op Nat := do
  let s ← get
  match (s.taskOf f live).handles.get h none with
  | none => faultWith stAccHandle 1
  | some i => return i

/-- A handle that must have been bound in the same step (R242). -/
def stepTile (f : Nat) (live : Bool) (h : Nat) : Op Nat := do
  let s ← get
  need ((s.taskOf f live).step.bound.contains h) (.fault stAccHandle 1)
  boundTile f live h

/-- A handle is unbound at the issue of the command that frees its tile (R63, R94). -/
def State.unbind (s : State) (f : Nat) (live : Bool) (h : Nat) : State :=
  s.modTask f live (fun t => { t with handles := t.handles.set h none })

/-- A tile is FREE again. -/
def State.freeTile (s : State) (f i : Nat) : State := s.setFrond f ((s.frond f).setTile i {})

end Sys2Proof.Machine
end

