-- ==== Sys2Proof/Machine/Mxu.lean ====
section
/-! DEFINITION. The matrix unit: MXU_PASS (R54 to R67, R82, R168 to R175, R183 to R186) and PTM_BUILD (R182, R184). -/

namespace Sys2Proof.Machine

/-- K_B of a pass's operand class (Tables 03.2 and 09.1): that of the wider operand, but CB4 weights run at the 4-bit rate with any activation
format of 8 bits or fewer; a 6-bit operand is fed as a byte (R54). -/
def kBlock (afmt wfmt : Nat) : Nat :=
  if wfmt = 14 ∧ storeBits afmt ≤ 8 then 128
  else
    let w := max (storeBits afmt) (storeBits wfmt)
    if w = 4 then 128
    else if w = 8 then 64
    else if w = 16 then (if afmt = 4 ∨ wfmt = 4 then 16 else 32)
    else 8

/-- The K granule, half of K_B (R225). -/
def kGranule (afmt wfmt : Nat) : Nat := kBlock afmt wfmt / 2

/-! ### Product tables -/

/-- Word of the PTM that holds d × c_i of slot j of a half (Table 07.1). -/
def ptmWord (half : Bool) (j d i : Nat) : Nat := 8192 * b2n half + 256 * j + 16 * d + i

/-- The stored product of digit d and an FP16 codebook entry (Table 07.1). -/
def productCode (d : Nat) (c : BitVec 16) : W32 :=
  BitVec.ofNat 32 (fp32.round 0 true (((XVal.ofRat (d : Rat)).mul (fp16.decode c.toNat)).plain)).raw

/-- A slot written in a half. -/
def Frond.buildSlot (x : Frond) (half : Bool) (j : Nat) (entries : List (BitVec 16)) : Frond :=
  { x with
    ptm := (List.range 256).foldl (fun t k => t.set (ptmWord half j (k / 16) (k % 16)) (productCode (k / 16) (entries.getD (k % 16) 0))) x.ptm
    ptmBuilt := insertNat (32 * b2n half + j) x.ptmBuilt }

/-- Successive codebooks of 16 entries written to slots from `first`. -/
def Frond.buildSlots (x : Frond) (half : Bool) (first : Nat) (entries : List (BitVec 16)) : Frond :=
  (List.range (entries.length / 16)).foldl (fun x q => x.buildSlot half (first + q) ((entries.drop (16 * q)).take 16)) x

/-- PTM_SWAP: the inactive half becomes active; the half that becomes inactive holds nothing built (R67, R183). -/
def Frond.swapPtm (x : Frond) : Frond :=
  { x with
    ptmHalf := !x.ptmHalf
    ptmBuilt := x.ptmBuilt.filter (fun j => decide (j / 32 = b2n !x.ptmHalf)) }

/-- The value of CB4 code i by slot j of the active half: the entry, which is the slot's product for the digit 1; NaN from a slot that
nothing has built (R183). -/
def Frond.codebook (x : Frond) (j i : Nat) : XVal :=
  if x.ptmBuilt.contains (32 * b2n x.ptmHalf + j) then fp32.decode (x.ptm.get (ptmWord x.ptmHalf j 1 i) 0).toNat else .nan

/-- Slots of the 2-KiB blocks of a CB4 plane of `bytes` bytes loaded through a walk of `total` accesses of w bytes from access `cursor` on:
each by the cursor of its block's first access, which wraps at the walk's end (R90, R185). -/
def planeSlots (cursor w total bytes : Nat) : List Nat :=
  (List.range ((bytes + 2047) / 2048)).map (fun b => (cursor + 2048 * b / w) % total * w / 2048 % 32)

/-! ### The pass -/

/-- The first n chunks that frond f's task may take now: those its re-run step takes once more, then those at the chain input that are its
context's and not yet taken; fewer when another context's chunk stands before them. -/
def State.chunksReady (s : State) (f : Nat) (live : Bool) (n : Nat) : List Chunk :=
  let t := s.taskOf f live
  (t.again ++ ((s.frond f).chain.filter (fun c => !c.taken)).takeWhile (fun c => decide (c.ctx = t.ctx))).take n

/-- Chunks taken by the task: they may be forwarded, and count as blocks received (R81, R185). -/
def State.takeThese (s : State) (f : Nat) (live : Bool) (l : List Chunk) : State :=
  let x := s.frond f
  let mine := fun (c : Chunk) => l.any (fun d => decide (d.number = c.number) && decide (d.xfer = c.xfer) && decide (d.src = c.src))
  let s := s.setFrond f { x with chain := x.chain.map (fun c => if mine c then { c with taken := true } else c) }
  s.modTask f live (fun t => { t with
    again := t.again.drop l.length, chainBlocks := t.chainBlocks + l.length, step := { t.step with chunks := t.step.chunks ++ l } })

/-- The chunks that a pass takes from the chain: `n` whole chunks not yet taken (R58, R255). -/
def takeChunks (f : Nat) (live : Bool) (n : Nat) : Op (List Byte × Bool) := do
  let s ← get
  let ready := s.chunksReady f live n
  need (decide (ready.length = n)) (.wait .other)
  set (s.takeThese f live ready)
  return (ready.flatMap Chunk.bytes, ready.any Chunk.poisoned)

/-- n bytes of pattern `pat` from access `cursor` on: what a discarded buffer is reloaded with (R82). Cursors and tags stand as they are: the
accesses have been made once. -/
def rereadStream (f : Nat) (live : Bool) (pat cursor n : Nat) : Op (List Byte × Bool) := do
  let s ← get
  let t := s.taskOf f live
  match t.pattern pat with
  | none => faultWith stPatternRange 2
  | some p =>
    let (l, bad) ← (List.range ((n + p.bytes - 1) / p.bytes)).foldlM (fun (acc : List Byte × Bool) i => do
      let s ← get
      let (l, bad) ← readAccess f live { (s.frond f).access t p ((cursor + i) % p.total) false with region := none }
      return (acc.1 ++ l, acc.2 || bad)) ([], false)
    return (l.take n, bad)

/-- A buffer, reloaded from the scratchpad where a yield discarded it (R82). What the chain delivered has no source to reload from and stays
(log 68). -/
def refill (f : Nat) (live : Bool) (b : MxuBuf) : Op MxuBuf :=
  match b.stale, b.source with
  | true, some (pat, cursor, n) => do
    let (l, bad) ← rereadStream f live pat cursor n
    return { b with bytes := l, poison := bad, stale := false }
  | _, _ => pure { b with stale := false }

/-- Every buffer that a yield discarded and that can be read again is reloaded (R82). -/
def State.reloadBuffers (s : State) (f : Nat) (live : Bool) : State :=
  [0, 1].foldl (fun s i =>
    let s := match (refill f live ((s.taskOf f live).actBufs.get i {})).run s with
      | .ok (b, s) => s.modTask f live (fun t => { t with actBufs := t.actBufs.set i b })
      | .error _ => s
    match (refill f live ((s.taskOf f live).weightBufs.get i {})).run s with
    | .ok (b, s) => s.modTask f live (fun t => { t with weightBufs := t.weightBufs.set i b })
    | .error _ => s) s

/-- The buffers of pass `index` filled or reused, and its block scales read (R56 to R58, R168): loads take the activation buffer, and the weight
buffer, that was not filled last; reuse reads the one that was. -/
def loadPass (f : Nat) (live : Bool) (index : Nat) (o : MxuOp) : Op PassLoad := do
  let s ← get
  let t := s.taskOf f live
  let aBytes := elemBytes o.afmt.toNat (32 * o.kp.toNat)
  let wBytes := elemBytes o.wfmt.toNat (64 * o.kp.toNat)
  let scaled (fmt : Nat) : Bool := o.mx && isMx fmt
  let act := if o.asrc = 0 then 1 - t.actLast else t.actLast
  let weight := if o.wsrc = 1 then t.weightLast else 1 - t.weightLast
  let a ←
    if o.asrc = 0 then do
      let c := t.cursor o.apat.toNat
      let (l, bad) ← readStream f live o.apat.toNat aBytes
      pure { bytes := l, poison := bad, source := some (o.apat.toNat, c, aBytes) }
    else refill f live (t.actBufs.get act {})
  let w ←
    if o.wsrc = 0 then do
      let c := t.cursor o.wpat.toNat
      let slots := planeSlots c (t.patBytes o.wpat.toNat) (((t.pattern o.wpat.toNat).map Pattern.total).getD 1) wBytes
      let (l, bad) ← readStream f live o.wpat.toNat wBytes
      pure { bytes := l, poison := bad, source := some (o.wpat.toNat, c, wBytes), slots := slots }
    else if o.wsrc = 2 then do
      let n := (wBytes + 2047) / 2048
      let (l, bad) ← takeChunks f live n
      pure { bytes := l, poison := bad, slots := (List.range n).map (fun b => (t.chainBlocks + b) % 32) }
    else refill f live (t.weightBufs.get weight {})
  let (xs, aBad) ← if scaled o.afmt.toNat then readStream f live o.aspat.toNat o.kp.toNat else pure ([], false)
  let (ws, wBad) ← if scaled o.wfmt.toNat then readStream f live o.wspat.toNat (2 * o.kp.toNat) else pure ([], false)
  let p : PassLoad := { index := index, act := act, weight := weight, aScales := xs, wScales := ws, bad := aBad || wBad }
  modify (fun s => s.modTask f live (fun t =>
    { t with actBufs := t.actBufs.set act a, weightBufs := t.weightBufs.set weight w, actLast := act, weightLast := weight, loaded := some p }))
  return p

/-- The operands of pass `index`: those filled ahead of it, reloaded if a yield discarded them, else filled now. -/
def passLoad (f : Nat) (live : Bool) (index : Nat) (o : MxuOp) : Op PassLoad := do
  let s ← get
  let t := s.taskOf f live
  match t.loaded.filter (fun p => decide (p.index = index)) with
  | some p =>
    let a ← refill f live (t.actBufs.get p.act {})
    let w ← refill f live (t.weightBufs.get p.weight {})
    modify (fun s => s.modTask f live (fun t => { t with actBufs := t.actBufs.set p.act a, weightBufs := t.weightBufs.set p.weight w }))
    return p
  | none => loadPass f live index o

/-- Exponents of the block scales that a pass reads; `none` marks the NaN scale. -/
def scaleExp (b : Byte) : Option Int := if b = 0xFF then none else some ((b.toNat : Int) - 127)

/-- Issue of a pass: its handle's tile, bound now when it allocates, with the checks of R61, R63 and R94. -/
def mxuIssue (f : Nat) (live : Bool) (o : MxuOp) : Op Nat := do
  let s ← get
  let t := s.taskOf f live
  let h := o.acc.toNat
  let wide := isWide o.afmt.toNat
  match o.alloc, t.handles.get h none with
  | true, some _ => faultWith stAccHandle 1
  | false, none => faultWith stAccHandle 1
  | true, none =>
    need (decide (t.boundHandles.length < s.handleLimit f live)) (.fault stAccOverflow 1)
    match (s.frond f).freeTile with
    | none => waitFor .other
    | some i =>
      let x := s.frond f
      let s := s.setFrond f (x.setTile i { state := .accum, b64 := wide })
      set (s.modTask f live (fun t =>
        { t with handles := t.handles.set h (some i), step := { t.step with bound := insertNat h t.step.bound } }))
      return i
  | false, some i =>
    need (decide (((s.frond f).tile i).b64 = wide)) (.fault stAccMode 1)
    return i

/-- Products of entry (m, n) in ascending K order: `a k` and `w k` are the operands (R59). -/
def addProducts (wide : Bool) (kp : Nat) (a w : Nat → XVal) (e : Entry) : Entry :=
  (List.range kp).foldl (fun e k => let p := (a k).mul (w k); if wide then e.addWide p else e.addFixed p) e

/-- MX blocks of entry (m, n): each contributes its exact inner sum by the two scales, rounded at 2^-48 where it must be (R169).
The count is of rounded contributions. -/
def addBlocks (kp : Nat) (a w : Nat → XVal) (xa xw : Nat → Option Int) (e : Entry) : Entry × Nat :=
  (List.range (kp / 32)).foldl (fun acc b =>
    let inner := (List.range 32).foldl (fun v j => v.add ((a (32 * b + j)).mul (w (32 * b + j)))) (XVal.ofRat 0)
    match xa b, xw b with
    | some p, some q =>
      match inner with
      | .num v _ =>
        let c := v * pow2 (p + q)
        let n := roundInt 0 (c * pow2 48)
        (acc.1.addFixed (.ofRat ((n : Rat) * pow2 (-48))), acc.2 + b2n (decide ((n : Rat) ≠ c * pow2 48)))
      | v => (acc.1.addFixed v, acc.2)
    | _, _ => (acc.1.addFixed .nan, acc.2)) (e, 0)

/-- An entry enters an OVF state in the course of a pass that takes it through the values g 1 … g n (R174). -/
def entersOvf (n : Nat) (e : Entry) (g : Nat → Entry) : Bool := (List.range n).any (fun k => newOvf e (g (k + 1)))

/-- What a swap waits for: a table build issued before the pass, and a CB4 pass before it (R67). -/
def Task.swapWaits (t : Task) (index : Nat) : Bool :=
  (t.queues.get 1 []).any (fun e => decide (e.index < index) && (match e.cmd with
    | .ptmBuild .. => true
    | _ => false))
  || (t.queues.get 0 []).any (fun e => decide (e.index < index) && (match e.cmd with
    | .mxuPass _ _ o => decide (o.wfmt = 14)
    | _ => false))

/-- Position of the code of column n and element k in a CB4 plane: within the 2-KiB block, of 64 columns by 64 elements, whose slot serves
it (R185); the order within the block is open (log 6). -/
def cb4Index (kp n k : Nat) : Nat := 4096 * (k / 64) + Config.weightIndex kp n k % (64 * min 64 (kp - k / 64 * 64))

/-- MXU_PASS: one block of 32 rows by one plane of 64 columns over KP elements (R55). Where an element stands in its block is
`Config.actIndex` and `Config.weightIndex` (log 6). A contribution is the element's decoded value times the codebook entry (R186), of an infinite
entry with a two-digit activation too (DESIGN CHOICE, log 127). -/
def mxuPass (f : Nat) (live : Bool) (index : Nat) (o : MxuOp) (i : Nat) : Op AfterDone := do
  let s ← get
  let u := (s.frond f).tile i
  need (decide (u.state = .accum) && !u.lastRun && !(o.ptmSwap && (s.taskOf f live).swapWaits index)) (.wait .other)
  let p ← passLoad f live index o
  if o.ptmSwap then modify (fun s => s.setFrond f (s.frond f).swapPtm)
  let s ← get
  let t := s.taskOf f live
  let x := s.frond f
  let kp := o.kp.toNat
  let scaled (fmt : Nat) : Bool := o.mx && isMx fmt
  let act := t.actBufs.get p.act {}
  let plane := t.weightBufs.get p.weight {}
  let ae := elemsOf o.afmt.toNat act.bytes
  let we := elemsOf o.wfmt.toNat plane.bytes
  let a (m k : Nat) : XVal := decodeElem o.afmt.toNat (ae.getD (Config.actIndex kp m k) 0)
  let w (n k : Nat) : XVal :=
    let raw := we.getD (if o.wfmt = 14 then cb4Index kp n k else Config.weightIndex kp n k) 0
    if o.wfmt = 14 then x.codebook (plane.slots.getD (k / 64) 0) raw else decodeElem o.wfmt.toNat raw
  let xa (m b : Nat) : Option Int := if scaled o.afmt.toNat then scaleExp (p.aScales.getD (Config.actIndex kp m (32 * b) / 32) 0) else some 0
  let xw (n b : Nat) : Option Int := if scaled o.wfmt.toNat then scaleExp (p.wScales.getD (Config.weightIndex kp n (32 * b) / 32) 0) else some 0
  let tile := x.tile i
  let wide := isWide o.afmt.toNat
  let part (k j : Nat) : Entry × Nat :=
    if o.mx then addBlocks k (a (j / 64)) (w (j % 64)) (xa (j / 64)) (xw (j % 64)) (tile.entry j)
    else (addProducts wide k (a (j / 64)) (w (j % 64)) (tile.entry j), 0)
  let out : List (Entry × Nat) := (List.range 2048).map (part kp)
  let inexact := (out.map Prod.snd).sum
  let ovf := ((List.range 2048).filter (fun j => !wide && entersOvf kp (tile.entry j) (fun k => (part k j).1))).length
  let slotBad := decide (o.wfmt = 14) && plane.slots.any (fun j => x.vuPoison.contains (32 + 32 * b2n x.ptmHalf + j))
  let bad := act.poison || plane.poison || p.bad || slotBad
  modify (fun s =>
    let s := s.setFrond f (x.setTile i
      { tile.fill (fun j => (out.getD j ({}, 0)).1) with poisoned := tile.poisoned || bad, lastRun := o.last })
    let s := s.modTask f live (fun t => { t with loaded := none })
    let s := (s.count (cntFrond f 8) inexact).count (cntFrond f 9) ovf
    s.countCycles (cntFrond f 2) (kp * 64 / kBlock o.afmt.toNat o.wfmt.toNat))
  return if o.last then .passLast i else .nothing

/-- PTM_BUILD: COUNT vectors of four codebooks from SRCB into slots of the inactive half (R184). -/
def ptmBuild (f : Nat) (live : Bool) (index : Nat) (v : VuForm) (group : Byte) (count : BitVec 16) : Op AfterDone := do
  let n := count.toNat
  let (entries, bad) ←
    if bitOf v.srcb 6 then do
      let s ← get
      let r := fieldOf v.srcb 3 0
      pure ((List.range (64 * n)).map (fun k => (BitVec.ofNat 16 ((s.frond f).vuLane (r + k / 64) (k % 64)).toNat)),
        (List.range n).any (fun k => (s.frond f).vuPoison.contains (r + k)))
    else do
      let (l, bad) ← readStream f live (fieldOf v.srcb 5 0) (128 * n)
      pure ((List.range (64 * n)).map (fun k => BitVec.ofNat 16 (leAt l (2 * k) 2)), bad)
  modify (fun s =>
    let x := s.frond f
    let first := 32 + 32 * b2n (!x.ptmHalf) + group.toNat
    let x := (x.buildSlots (!x.ptmHalf) group.toNat entries).markVu ((List.range (4 * n)).map (fun j => first + j)) bad
    (s.setFrond f x).modTask f live (fun t =>
      { t with lastBuild := some { index := index, slot := group.toNat, entries := entries } }))
  return .nothing

end Sys2Proof.Machine
end

