-- ==== Sys2Proof/Machine/Vector.lean ====
section
/-! DEFINITION. The vector unit: drains, elementwise work, convolution, pooling, argmax, table functions, transforms, loads and stores
(R68, R69, R158 to R165, R170, R176, R177, R187 to R195, R201 to R223). -/

namespace Sys2Proof.Machine

/-! ### Operands -/

/-- n elements of a source operand: a register reference reads lanes in their low bits, a pattern reference a stream. -/
def vuSource (f : Nat) (live : Bool) (r : BitVec 7) (fmt n : Nat) : Op (List Nat × Bool) := do
  if bitOf r 6 then
    let s ← get
    let x := s.frond f
    let q := fieldOf r 3 0
    return ((List.range n).map (fun k => (x.vuLane (q + k / 64) (k % 64)).toNat % 2 ^ storeBits fmt),
      (List.range ((n + 63) / 64)).any (fun k => x.vuPoison.contains (q + k)))
  else
    let (l, bad) ← readStream f live (fieldOf r 5 0) (elemBytes fmt n)
    return ((elemsOf fmt l).take n, bad)

/-- Elements written to a destination operand. -/
def vuDest (f : Nat) (live : Bool) (r : BitVec 7) (fmt : Nat) (l : List Nat) (bad : Bool) : Op Unit := do
  if bitOf r 6 then
    let q := fieldOf r 3 0
    modify (fun s =>
      let x := s.frond f
      let x := (List.range ((l.length + 63) / 64)).foldl (fun x k =>
        (x.setVu (q + k) (((l.drop (64 * k)).take 64).map (fun v => BitVec.ofNat 32 v))).markVu [q + k] bad) x
      s.setFrond f x)
  else writeStream f live (fieldOf r 5 0) (packElems fmt l) bad

/-! ### Parameter sets (R187) -/

/-- The bytes of n accesses of a parameter set; in row mode the set is one row. -/
def readParam (f : Nat) (live : Bool) (pat n : Nat) : Op (List Byte × Bool) := do
  let s ← get
  let row := (((s.taskOf f live).pattern pat).map Pattern.row).getD false
  let (l, bad) ← readPat f live pat (if row then 1 else n)
  return (l.flatten, bad)

/-- A scale set (Table 07.3). -/
structure ScaleSet where
  pi : XVal
  outTensor : Nat
  inTensor : Nat
  gshift : Nat
  inEn : Bool
  outEn : Bool
  track : Bool
  sigma : List Byte
  flags : List Byte
  consts : List W32

/-- The scale set that its bytes spell; without CREC they end after access 2. -/
def ScaleSet.parse (l : List Byte) : ScaleSet :=
  let w := BitVec.ofNat 32 (leAt l 4 4)
  let crec := bitOf w 18
  { pi := fp32.decode (leAt l 0 4), outTensor := fieldOf w 5 0, inTensor := fieldOf w 11 6, gshift := fieldOf w 14 12,
    inEn := bitOf w 15, outEn := bitOf w 16, track := bitOf w 17, sigma := (l.drop 32).take 64,
    flags := if crec then (l.drop 96).take 64 else [],
    consts := if crec then (List.range 64).map (fun c => BitVec.ofNat 32 (leAt l (160 + 4 * c) 4)) else [] }

/-- Accesses of a scale set, by the CREC of its first: 3, and 10 more with it. -/
def scaleAccesses (l : List Byte) : Nat := if (leAt l 4 4).testBit 18 then 13 else 3

/-- The bytes of the scale set read through a pattern. -/
def readScale (f : Nat) (live : Bool) (pat : Nat) : Op (List Byte × Bool) := do
  let s ← get
  let row := (((s.taskOf f live).pattern pat).map Pattern.row).getD false
  let (head, bad) ← readParam f live pat 1
  let (rest, bad') ← if row then pure ([], false) else readParam f live pat (scaleAccesses head - 1)
  return (head ++ rest, bad || bad')

/-- The scratchpad address of the next access of a pattern: the key of a held set, with the pattern (R189). -/
def Frond.setAddress (x : Frond) (t : Task) (pat : Nat) : Nat :=
  match t.pattern pat with
  | none => 0
  | some p =>
    let a := x.access t p (t.cursor pat) false
    match a.place with
    | some q => 512 * q.key + a.off
    | none => 2 ^ 24 + a.off

/-- A drain's parameter set number k (0 scale, 1 bias, 2 clamp) through a pattern: one that matches the set the VU holds reads nothing; any
other is read and held. Either way the cursor passes the whole set (R189). -/
def drainSet (f : Nat) (live : Bool) (k pat : Nat) (accesses : List Byte → Nat) (load : Op (List Byte × Bool)) : Op (List Byte × Bool) := do
  let s ← get
  let t := s.taskOf f live
  let addr := (s.frond f).setAddress t pat
  match (t.held.get k none).filter (fun h => decide (h.pat = pat) && decide (h.addr = addr)), t.pattern pat with
  | some h, some p =>
    modify (fun s => s.bumpCursor f live pat (if p.row then 1 else accesses h.bytes) p.total)
    return (h.bytes, h.bad)
  | _, _ =>
    let (l, bad) ← load
    modify (fun s => s.modTask f live (fun t => { t with held := t.held.set k (some { pat := pat, addr := addr, bytes := l, bad := bad }) }))
    return (l, bad)

/-- Column c is a constant channel, with its value Z_c. -/
def ScaleSet.const (p : ScaleSet) (c : Nat) : Option XVal :=
  if bitOf (p.flags.getD c 0) 0 then some (fp32.decode (p.consts.getD c 0).toNat) else none

/-- σ_g of column c. -/
def ScaleSet.sigmaOf (p : ScaleSet) (c : Nat) : XVal := fp8E4M3.decode (p.sigma.getD (c / 2 ^ p.gshift) 0).toNat

/-- The shift of a tensor as latched for the task (R192). -/
def Task.shift (t : Task) (tensor : Nat) : Int := signed 8 (t.shifts.getD tensor 0).toNat

/-- Multiplication by a power of two. -/
def XVal.scale (v : XVal) (e : Int) : XVal :=
  match v with
  | .num q z => .num (q * pow2 e) z
  | w => w

/-- An accumulated value as an exact value: an OVF state acts as a finite value beyond every format (R176). -/
def AccVal.exact : AccVal → XVal
  | .val v => v
  | .ovf neg => .ofRat (if neg then -Config.ovfMagnitude else Config.ovfMagnitude)

/-- min(max(u, lo), hi); a NaN bound is not applied (R188). DESIGN CHOICE (log 106): of two zeros of unlike sign neither is the lesser, so u keeps
its own sign; it shows only on the binary64 path. -/
def XVal.clamp (u lo hi : XVal) : XVal :=
  let u := if u.lt lo then lo else u
  if hi.lt u then hi else u

/-! ### Table functions (R69) -/

/-- Break-point j of function table t. -/
def Frond.breakPoint (x : Frond) (t j : Nat) : XVal := fp32.decode (x.vuTables.get (257 * t + j) 0).toNat

/-- The interpolation between the break-points that bracket the input; outside the domain the nearer end point, NaN to NaN (R69, R176).
The break-points divide the declared domain evenly; the domain itself is `Config.tableDomain` (log 7). -/
def Frond.tableFn (x : Frond) (pkg : W64) (t : Nat) (v : XVal) : XVal :=
  match v with
  | .nan => .nan
  | .inf neg => x.breakPoint t (if neg then 0 else 256)
  | .num q _ =>
    let d := Config.tableDomain pkg.toNat t
    if q ≤ d.1 then x.breakPoint t 0
    else if d.2 ≤ q then x.breakPoint t 256
    else
      let p := (q - d.1) / (d.2 - d.1) * 256
      let j := p.floor.toNat
      let a := x.breakPoint t j
      let frac : Rat := p - (j : Rat)
      if frac = 0 then a
      else (a.mul (.ofRat (1 - frac))).add ((x.breakPoint t (j + 1)).mul (.ofRat frac))

/-! ### VU_DRAIN -/

/-- The exact value that a drain rounds, from the accumulated value of column c (R188, R194). -/
def drainValue (x : Frond) (t : Task) (p : ScaleSet) (tfn : Nat) (beta : XVal) (clamp : Option (XVal × XVal)) (c : Nat)
    (b64 : Bool) (a : AccVal) : XVal :=
  let eIn := if p.inEn then t.shift p.inTensor else 0
  let eOut := if p.outEn && decide (tfn = 0) then t.shift p.outTensor else 0
  let u := (((a.exact.mul (p.sigmaOf c)).mul p.pi).scale eIn).add beta
  let u := match clamp with
    | some (lo, hi) => u.clamp lo hi
    | none => u
  let v := u.scale (-eOut)
  let v := if tfn = 0 then v else x.tableFn t.image.pkgId (tfn - 1) v
  if b64 then v else v.plain

/-- Issue of a drain: its handle's tile; without KEEP the handle is unbound (R94). -/
def drainIssue (f : Nat) (live : Bool) (o : DrainOp) : Op Nat := do
  let i ← boundTile f live o.acc.toNat
  if !o.keep then modify (fun s => s.unbind f live o.acc.toNat)
  return i

/-- The value that entry j of a tile drains to, and whether it is a constant channel's (R188, R190). -/
def drainElem (x : Frond) (t : Task) (o : DrainOp) (p : ScaleSet) (bias cl : List Byte) (tile : Tile) (j : Nat) : XVal × Bool :=
  let c := j % 64
  match p.const c with
  | some z => (z, true)
  | none =>
    let beta := fp32.decode (leAt bias (4 * c) 4)
    let clamp := if o.cpen then some (fp32.decode (leAt cl (8 * c) 4), fp32.decode (leAt cl (8 * c + 4) 4)) else none
    (drainValue x t p o.tfn.toNat beta clamp c tile.b64 ((tile.entry j).value tile.b64), false)

/-- VU_DRAIN: a READY tile to its output pattern, row by row (R62, R176, R188, R189). -/
def vuDrain (f : Nat) (live : Bool) (o : DrainOp) (i : Nat) : Op AfterDone := do
    let s ← get
    let tile := (s.frond f).tile i
    need (decide (tile.state = .ready)) (.wait .other)
    set (s.setFrond f ((s.frond f).setTile i { tile with state := .drain }))
    let (scale, b1) ← drainSet f live 0 o.spat.toNat scaleAccesses (readScale f live o.spat.toNat)
    let (bias, b2) ← drainSet f live 1 o.bpat.toNat (fun _ => 8) (readParam f live o.bpat.toNat 8)
    let (cl, b3) ← if o.cpen then drainSet f live 2 o.cpat.toNat (fun _ => 16) (readParam f live o.cpat.toNat 16) else pure ([], false)
    let p := ScaleSet.parse scale
    let s ← get
    let t := s.taskOf f live
    let x := s.frond f
    let bad := tile.poisoned || b1 || b2 || b3 || (decide (o.tfn ≠ 0) && x.vuPoison.contains (15 + o.tfn.toNat))
    let fmt := o.ofmt.toNat
    let vals := (List.range 2048).map (drainElem x t o p bias cl tile)
    let _ ← roundAll f live fmt o.rnd.toNat o.ieee p.outTensor p.track ((vals.filter (fun v => !v.2)).map Prod.fst)
    let raws := vals.map (fun v => (roundTo fmt o.rnd.toNat o.ieee v.1).raw)
    writeStream f live o.opat.toNat (packElems fmt raws) bad
    return if o.keep then .keepTile i else .freeTile i

/-! ### VU_EW -/

/-- The exact integer of a value, if it is one. -/
def XVal.int? : XVal → Option Int
  | .num q _ => if q.den = 1 then some q.num else none
  | _ => none

/-- A bitwise function of two integers in two's complement of 64 bits. The spec does not say whether AND, OR and XOR of floating-point operands
combine their values or their codes; by R177 they are the operation on decoded operands, so the values are combined (DEDUCED, log 20). -/
def bitwise (func : Nat) (a b : Int) : Int :=
  let x := BitVec.ofInt 64 a
  let y := BitVec.ofInt 64 b
  (if func = 10 then x &&& y else if func = 11 then x ||| y else x ^^^ y).toInt

/-- The exact result of FUNC; `none` where the spec states none: SELECT_GT, a minimum or maximum with a NaN, bitwise work or a shift
count that is no integer (log 20). -/
def ewValue (func : Nat) (a b : XVal) : Option XVal :=
  if func = 0 then some (a.add b).plain
  else if func = 1 then some (a.add b.negate).plain
  else if func = 2 then some (a.mul b).plain
  else if func = 3 then (if a = .nan ∨ b = .nan then none else some (if b.lt a then b else a).plain)
  else if func = 4 then (if a = .nan ∨ b = .nan then none else some (if a.lt b then b else a).plain)
  else if func = 5 then some (if a.neg then a.negate else a).plain
  else if func = 6 then some a.negate.plain
  else if func = 7 then some a
  else if func = 8 then
    match b.int? with
    | some e => if e < 0 then none else some (a.scale e).plain
    | none => none
  else if func = 9 then
    match b.int? with
    | some e => if e < 0 then none else some (a.scale (-e)).plain
    | none => none
  else if func ≤ 12 then
    match a.int?, b.int? with
    | some p, some q => some (.ofRat ((bitwise func p q : Int) : Rat))
    | _, _ => none
  else none

/-- A code that a command may write, from free bits: that of the value they spell, so a NaN is canonical (R158) and the spare bits of a 6-bit
element are zero (R157). -/
def writtenCode (fmt : Nat) (w : BitVec 64) : Nat := (roundTo fmt 0 true (decodeElem fmt (w.toNat % 2 ^ storeBits fmt))).raw

/-- A free code of format `fmt` where the spec states no result of FUNC: it depends on the operands' codes alone, so that a re-run writes it again
(R446, log 20). -/
def freeCode (func ifmt fmt a b : Nat) : Nat := writtenCode fmt (Config.freeResult func ifmt fmt a b)

/-- Elementwise results: each stated value rounded once, each unstated one free. -/
def ewRound (f : Nat) (live : Bool) (fmt rnd : Nat) (l : List (Option XVal × Nat)) : Op (List Nat) :=
  l.foldlM (fun (acc : List Nat) v => do
    match v.1 with
    | some w => return acc ++ (← roundAll f live fmt rnd false 63 false [w])
    | none => return acc ++ [v.2]) []

/-- e_max of an MX element format (R170). -/
def mxEmax (fmt : Nat) : Int := if fmt = 9 then 8 else if fmt = 10 then 15 else if fmt = 7 then 2 else if fmt = 8 then 4 else 2

/-- One MX block of 32 values: its scale byte and its element values before rounding (R170). -/
def mxBlock (fmt : Nat) (l : List XVal) : Byte × List XVal :=
  if l.any (fun v => v.rat?.isNone) then (0xFF, l.map (fun _ => .ofRat 0))
  else
    let amax := (l.map (fun v => let q := v.rat?.getD 0; if q < 0 then -q else q)).foldl max 0
    let e : Int := if amax = 0 then -127 else max (-127) (min 127 (log2Floor amax - mxEmax fmt))
    (BitVec.ofInt 8 (e + 127), l.map (fun v => v.scale (-e)))

/-- VU_EW with FUNC CONVERT and a pattern as SRCB: MX blocks (R170), or one scale set a vector (R190, R194). -/
def vuConvert (f : Nat) (live : Bool) (v : VuForm) (n : Nat) : Op Unit := do
  let ofmt := v.ofmt.toNat
  let ifmt := v.ifmt.toNat
  let pat := fieldOf v.srcb 5 0
  let (raws, b1) ← vuSource f live v.srca ifmt (64 * n)
  if isMx ofmt then
    let blocks := (chunksOf 32 (2 * n) raws).map (fun l => mxBlock ofmt (l.map (decodeElem ifmt)))
    let out ← roundAll f live ofmt v.rnd.toNat false 63 false (blocks.flatMap Prod.snd)
    vuDest f live v.dst ofmt out b1
    writeStream f live pat (blocks.map Prod.fst) b1
  else
    let (out, bad) ← (List.range n).foldlM (fun (acc : List Nat × Bool) k => do
      let (l, b2) ← readScale f live pat
      let p := ScaleSet.parse l
      let s ← get
      let t := s.taskOf f live
      let e : Int := if ifmt ≤ 5 then (if p.inEn then t.shift p.inTensor else 0) else (if p.outEn then -(t.shift p.outTensor) else 0)
      let vals : List (XVal × Bool) := (List.range 64).map (fun l =>
        match p.const l with
        | some z => (z, true)
        | none => (((((decodeElem ifmt (raws.getD (64 * k + l) 0)).mul (p.sigmaOf l)).mul p.pi).scale e).plain, false))
      let _ ← roundAll f live ofmt v.rnd.toNat false p.outTensor p.track ((vals.filter (fun u => !u.2)).map Prod.fst)
      return (acc.1 ++ vals.map (fun u => (roundTo ofmt v.rnd.toNat false u.1).raw), acc.2 || b2)) ([], b1)
    vuDest f live v.dst ofmt out bad

/-- FUNC reads its second operand. -/
def usesB (func : Nat) : Bool := decide (func ≠ 5) && decide (func ≠ 6) && decide (func ≠ 7)

/-- VU_EW (R177). -/
def vuEw (f : Nat) (live : Bool) (v : VuForm) (func : Byte) (count : BitVec 16) : Op AfterDone := do
  let n := count.toNat
  if func = 7 ∧ ¬ bitOf v.srcb 6 then vuConvert f live v n
  else
    let (a, b1) ← vuSource f live v.srca v.ifmt.toNat (64 * n)
    let (b, b2) ← if usesB func.toNat then vuSource f live v.srcb v.ifmt.toNat (64 * n) else pure ([], false)
    let vals := (List.range (64 * n)).map (fun k =>
      (ewValue func.toNat (decodeElem v.ifmt.toNat (a.getD k 0)) (decodeElem v.ifmt.toNat (b.getD k 0)),
        freeCode func.toNat v.ifmt.toNat v.ofmt.toNat (a.getD k 0) (b.getD k 0)))
    let out ← ewRound f live v.ofmt.toNat v.rnd.toNat vals
    vuDest f live v.dst v.ofmt.toNat out (b1 || b2)
  return .nothing

/-! ### Windows over a picture (R198 to R209) -/

/-- Bytes of a pixel's channel block in a walk: one access, or two of 8 words for FP32 (R199). In row mode WIDTH gives the block, and every 512-B row
holds 512 ÷ block columns (DESIGN CHOICE, log 126). Table 08.1 has
no row for INT32, which R213 lets a VU_DW write: it is laid out as FP32, 16 channels of 4 B (DEDUCED, log 107). -/
def Pattern.block (p : Pattern) (fmt : Nat) : Nat := if fmt = 13 ∨ fmt = 5 then 64 else 4 * p.words

/-- Columns and rows of an operator walk. -/
def Pattern.cols (p : Pattern) (fmt : Nat) : Nat := p.count 0 * p.bytes / p.block fmt
def Pattern.rows (p : Pattern) : Nat := p.count 1

/-- Channels of a block. -/
def Pattern.chans (p : Pattern) (fmt : Nat) : Nat := p.block fmt * 8 / storeBits fmt

/-- The picture coordinate that a tap reads under padding mode PAD; `none` for a tap that is absent (R206). -/
def padIndex (pad : Nat) (i n : Int) : Option Int :=
  if 0 ≤ i ∧ i < n then some i
  else if pad = 0 then none
  else if pad = 1 then some (if i < 0 then 0 else n - 1)
  else if n = 1 then some 0
  else
    let p := 2 * (n - 1)
    let j := i % p
    some (if j < n then j else p - j)

/-- Where an operator's window lies: geometry, the walks' extents, and the position state (R200, R201, R203). -/
structure Frame where
  g : Geometry
  srcRows : Nat
  srcCols : Nat
  height : Int
  width : Int
  y0 : Int
  x0 : Int

def tapList (g : Geometry) : List (Nat × Nat) :=
  (List.range (g.kh.toNat + 1)).flatMap (fun j => (List.range (g.kw.toNat + 1)).map (fun i => (j, i)))

/-- The walk position that tap (j, i) of output pixel (v, u) reads; `none` when it is absent (R203, R206). -/
def Frame.tap (w : Frame) (v u j i : Nat) : Option (Nat × Nat) :=
  let dy : Int := w.g.dy.toNat + 1
  let dx : Int := w.g.dx.toNat + 1
  let ay : Int := w.g.kh.toNat / 2
  let ax : Int := w.g.kw.toNat / 2
  let row : Int := v * (w.g.sy.toNat + 1) + j * dy
  let col : Int := u * (w.g.sx.toNat + 1) + i * dx
  match padIndex w.g.pad.toNat (w.y0 - ay * dy + row) w.height, padIndex w.g.pad.toNat (w.x0 - ax * dx + col) w.width with
  | some y, some x => some ((y - w.y0 + ay * dy).toNat, (x - w.x0 + ax * dx).toNat)
  | _, _ => none

/-- The window of an operator whose destination walk has the given rows and columns (Table 08.2). -/
def State.frame (s : State) (f : Nat) (live : Bool) (g : Geometry) (src : Pattern) (sfmt dRows dCols : Nat) : Frame :=
  let x := s.frond f
  let cr := (g.sy.toNat + 1) * dRows
  let cc := (g.sx.toNat + 1) * dCols
  let h := (s.taskOf f live).image.h.toNat
  { g := g, srcRows := src.rows, srcCols := src.cols sfmt,
    height := if live then (x.hExt.toNat * cr / h : Nat) else cr,
    width := (x.ranks.toNat * cc : Nat),
    y0 := if live then (x.row0.toNat * cr / h : Nat) else 0,
    x0 := (x.rank.toNat * cc : Nat) }

/-- Bytes of a source walk of `ch` channels. -/
def Pattern.walkLen (p : Pattern) (fmt ch : Nat) : Nat := (ch + p.chans fmt - 1) / p.chans fmt * p.rows * p.cols fmt * p.block fmt

/-- The raw element of channel c at walk position (row, column), in the bytes of a walk: block by block of channels, the pixels of each in row order. -/
def Pattern.walkElem (p : Pattern) (fmt : Nat) (l : List Byte) (row col c : Nat) : Nat :=
  (elemsOf fmt l).getD (((c / p.chans fmt * p.rows + row) * p.cols fmt + col) * p.chans fmt + c % p.chans fmt) 0

/-- The codes of a destination walk of `ch` channels, in walk order; the channels above it in their block are zero. -/
def Pattern.walkCodes (p : Pattern) (fmt ch : Nat) (g : Nat → Nat → Nat → Nat) : List Nat :=
  let b := p.chans fmt
  (List.range ((ch + b - 1) / b * p.rows * p.cols fmt * b)).map (fun k =>
    let pix := k / b
    let c := pix / (p.rows * p.cols fmt) * b + k % b
    if c < ch then g (pix / p.cols fmt % p.rows) (pix % p.cols fmt) c else 0)

/-- A source walk read whole for `ch` channels: the raw element of channel c at walk position (row, column). -/
def readWalk (f : Nat) (live : Bool) (pat fmt ch : Nat) : Op ((Nat → Nat → Nat → Nat) × Bool) := do
  let s ← get
  match (s.taskOf f live).pattern pat with
  | none => faultWith stPatternRange 2
  | some p =>
    let (l, bad) ← readStream f live pat (p.walkLen fmt ch)
    return (p.walkElem fmt l, bad)

/-- A destination walk written for `ch` channels. -/
def writeWalk (f : Nat) (live : Bool) (r : BitVec 7) (fmt ch : Nat) (g : Nat → Nat → Nat → Nat) (bad : Bool) : Op Unit := do
  let s ← get
  match (s.taskOf f live).pattern (fieldOf r 5 0) with
  | none => faultWith stPatternRange 2
  | some p => writeStream f live (fieldOf r 5 0) (packElems fmt (p.walkCodes fmt ch g)) bad

/-- Rows and columns of the walk that an operand names. -/
def State.walkOf (s : State) (f : Nat) (live : Bool) (r : BitVec 7) (fmt : Nat) : Option (Pattern × Nat × Nat) :=
  ((s.taskOf f live).pattern (fieldOf r 5 0)).map (fun p => (p, p.rows, p.cols fmt))

/-- Values of a window operator over all pixels and channels, rounded once against tensor 63 (R213), in the order of the destination. -/
def roundWalk (f : Nat) (live : Bool) (fmt rnd : Nat) (ieee : Bool) (rows cols ch : Nat) (g : Nat → Nat → Nat → XVal × Bool) :
    Op (Nat → Nat → Nat → Nat) := do
  let idx := List.range (rows * cols * ch)
  let v := idx.map (fun k => g (k / ch / cols) (k / ch % cols) (k % ch))
  let _ ← roundAll f live fmt rnd ieee 63 false ((v.filter (fun p => p.2)).map Prod.fst)
  let raws := v.map (fun p => (roundTo fmt rnd ieee p.1).raw)
  return fun row col c => raws.getD ((row * cols + col) * ch + c) 0

/-- Weight number q of lane l from register r (R211). -/
def Frond.dwWeight (x : Frond) (r fmt per q l : Nat) : Nat :=
  (x.vuLane (r + q / per) l).toNat / 2 ^ (32 / per * (q % per)) % 2 ^ storeBits fmt

/-- Depthwise weights in one lane (R211). -/
def dwPer (fmt : Nat) : Nat := if storeBits fmt ≤ 8 then 4 else if storeBits fmt = 16 then 2 else 1

/-- VU registers that the weights of a depthwise filter fill; the scales and the biases of its channels stand in the two after them (R211). -/
def dwFilled (g : Geometry) (fmt grp : Nat) : Nat := ((g.kw.toNat + 1) * (g.kh.toNat + 1) * grp + dwPer fmt - 1) / dwPer fmt

/-- The exact value of a depthwise output element: the products of its taps inside the picture added as a tile adds them, scaled and biased (R210 to R213). -/
def dwValue (x : Frond) (fr : Frame) (g : Geometry) (fmt r grp : Nat) (el : Nat → Nat → Nat → Nat) (row col c : Nat) : XVal :=
  let wide := isWide fmt
  let rm := r + dwFilled g fmt grp
  let e := (tapList g).foldl (fun (e : Entry) t =>
    match fr.tap row col t.1 t.2 with
    | none => e
    | some (y, xx) => (List.range grp).foldl (fun e i =>
        let q := (t.1 * (g.kw.toNat + 1) + t.2) * grp + i
        let p := (decodeElem fmt (el y xx (grp * (c / grp) + i))).mul (decodeElem fmt (x.dwWeight r fmt (dwPer fmt) q c))
        if wide then e.addWide p else e.addFixed p) e) {}
  let out := ((e.value wide).exact.mul (fp32.decode (x.vuLane rm c).toNat)).add (fp32.decode (x.vuLane (rm + 1) c).toNat)
  if wide then out else out.plain

/-- VU_DW: depthwise and grouped convolution (R210 to R213). -/
def vuDw (f : Nat) (live : Bool) (v : VuForm) (g : Geometry) (ch : BitVec 10) (group : Byte) : Op AfterDone := do
  let s ← get
  let fmt := v.ifmt.toNat
  let nch := ch.toNat + 1
  let grp := group.toNat + 1
  match s.walkOf f live v.srca fmt, s.walkOf f live v.dst v.ofmt.toNat with
  | some (src, _, _), some (_, dRows, dCols) =>
    let fr := s.frame f live g src fmt dRows dCols
    let (el, b1) ← readWalk f live (fieldOf v.srca 5 0) fmt nch
    let s ← get
    let x := s.frond f
    let r := fieldOf v.srcb 3 0
    let bad := b1 || (List.range (dwFilled g fmt grp + 2)).any (fun k => x.vuPoison.contains (r + k))
    let raws ← roundWalk f live v.ofmt.toNat v.rnd.toNat false dRows dCols nch (fun row col c => (dwValue x fr g fmt r grp el row col c, true))
    writeWalk f live v.dst v.ofmt.toNat nch raws bad
    return .nothing
  | _, _ => faultWith stPatternRange 2

/-- The greater of two values in the order of R214, NaN greatest. -/
def poolMax (a b : XVal) : XVal :=
  if a = .nan ∨ b = .nan then .nan else if a.lt b then b else a

/-- The exact value of a pooled element and whether its rounding is counted: the maximum or the average of its taps inside the picture, or zero with
none (R214, R215). -/
def poolValue (fr : Frame) (g : Geometry) (isMax padCount : Bool) (fmt : Nat) (el : Nat → Nat → Nat → Nat) (row col c : Nat) : XVal × Bool :=
  let here := (tapList g).filterMap (fun t => (fr.tap row col t.1 t.2).map (fun p => decodeElem fmt (el p.1 p.2 c)))
  let n := if padCount && decide (g.pad = 0) then (tapList g).length else here.length
  match here with
  | [] => (.ofRat 0, decide (n ≠ 0))
  | a :: r =>
    if isMax then ((r.foldl poolMax a).plain, true)
    else (((r.foldl XVal.add a).mul (.ofRat (1 / (n : Rat)))).plain, true)

/-- VU_POOL: maximum or average of a window (R214 to R216). The flag of a value says whether its rounding is counted. A maximum with OFMT equal to
IFMT is never changed by its rounding, an infinite one included: R216 against the SAT policy of R160 (DEDUCED, log 125). -/
def vuPool (f : Nat) (live : Bool) (isMax padCount : Bool) (v : VuForm) (g : Geometry) (ch : BitVec 10) : Op AfterDone := do
  let s ← get
  let fmt := v.ifmt.toNat
  let nch := ch.toNat + 1
  match s.walkOf f live v.srca fmt, s.walkOf f live v.dst v.ofmt.toNat with
  | some (src, _, _), some (_, dRows, dCols) =>
    let fr := s.frame f live g src fmt dRows dCols
    let (el, bad) ← readWalk f live (fieldOf v.srca 5 0) fmt nch
    let raws ← roundWalk f live v.ofmt.toNat v.rnd.toNat (isMax && decide (v.ifmt = v.ofmt)) dRows dCols nch (poolValue fr g isMax padCount fmt el)
    writeWalk f live v.dst v.ofmt.toNat nch raws bad
    return .nothing
  | _, _ => faultWith stPatternRange 2

/-- VU_ARGMAX: the lowest index of the greatest channel of each pixel (R217). RND has no effect on it, and its five modes are all taken (DESIGN
CHOICE, log 128). -/
def vuArgmax (f : Nat) (live : Bool) (v : VuForm) (ch : BitVec 10) : Op AfterDone := do
  let s ← get
  let fmt := v.ifmt.toNat
  let nch := ch.toNat + 1
  match s.walkOf f live v.srca fmt with
  | some (_, rows, cols) =>
    let (el, bad) ← readWalk f live (fieldOf v.srca 5 0) fmt nch
    let best (row col : Nat) : Nat := ((List.range nch).foldl (fun (acc : Nat × XVal) c =>
      let x := decodeElem fmt (el row col c)
      if acc.2 = .nan then acc else if x = .nan ∨ acc.2.lt x then (c, x) else acc) (0, decodeElem fmt (el row col 0))).1
    vuDest f live v.dst v.ofmt.toNat ((List.range (rows * cols)).map (fun k => best (k / cols) (k % cols))) bad
    return .nothing
  | none => faultWith stPatternRange 2

/-- VU_TFN: a table function over COUNT vectors (R69). -/
def vuTfn (f : Nat) (live : Bool) (v : VuForm) (table : BitVec 2) (count : BitVec 16) : Op AfterDone := do
  let (l, bad) ← vuSource f live v.srca v.ifmt.toNat (64 * count.toNat)
  let s ← get
  let x := s.frond f
  let pkg := (s.taskOf f live).image.pkgId
  let out ← roundAll f live v.ofmt.toNat v.rnd.toNat false 63 false
    (l.map (fun r => (x.tableFn pkg table.toNat (decodeElem v.ifmt.toNat r)).plain))
  vuDest f live v.dst v.ofmt.toNat out (bad || x.vuPoison.contains (16 + table.toNat))
  return .nothing

/-- Moves COUNT vectors between a pattern and registers: every element is decoded and rounded once into OFMT (R92, R164, R177). -/
def vuMove (f : Nat) (live : Bool) (v : VuForm) (count : BitVec 16) : Op AfterDone := do
  let (l, bad) ← vuSource f live v.srca v.ifmt.toNat (64 * count.toNat)
  let out ← roundAll f live v.ofmt.toNat v.rnd.toNat false 63 false (l.map (decodeElem v.ifmt.toNat))
  vuDest f live v.dst v.ofmt.toNat out bad
  return .nothing

/-- VU_TLOAD: 257 break-points of a function table, rounded once into FP32 (R69, R159, R177). -/
def vuTload (f : Nat) (live : Bool) (v : VuForm) (table : BitVec 2) : Op AfterDone := do
  let (l, bad) ← vuSource f live v.srca v.ifmt.toNat 257
  let out ← roundAll f live 13 v.rnd.toNat false 63 false (l.map (decodeElem v.ifmt.toNat))
  modify (fun s =>
    let x := s.frond f
    s.setFrond f ({ x with vuTables := (List.range 257).foldl (fun t j => t.set (257 * table.toNat + j) (BitVec.ofNat 32 (out.getD j 0))) x.vuTables }.markVu
      [16 + table.toNat] bad))
  return .nothing

/-! ### VU_FFT (R219 to R223) -/

/-- FP32 codes of cos(2πk/64) for k from 0 to 16, each rounded to nearest-even (R220). -/
def cosCodes : List Nat :=
  [0x3f800000, 0x3f7ec46d, 0x3f7b14be, 0x3f74fa0b, 0x3f6c835e, 0x3f61c598, 0x3f54db31, 0x3f45e403, 0x3f3504f3, 0x3f226799, 0x3f0e39da,
   0x3ef15aea, 0x3ec3ef15, 0x3e94a031, 0x3e47c5c2, 0x3dc8bd36, 0]

/-- cos(2πk/64) as the FP32 twiddle. -/
def cosTw (k : Nat) : Rat :=
  let j := k % 64
  let v (i : Nat) : Rat := (fp32.decode (cosCodes.getD i 0)).rat?.getD 0
  if j ≤ 16 then v j else if j ≤ 32 then -(v (32 - j)) else if j ≤ 48 then -(v (j - 32)) else v (64 - j)

/-- sin(2πk/64). -/
def sinTw (k : Nat) : Rat := cosTw (k + 48)

/-- An exact complex number, and a stored one, whose parts are FP32 codes. -/
abbrev Cplx := Rat × Rat
abbrev CCode := Nat × Nat

def Cplx.mul (a b : Cplx) : Cplx := (a.1 * b.1 - a.2 * b.2, a.1 * b.2 + a.2 * b.1)
def Cplx.add (a b : Cplx) : Cplx := (a.1 + b.1, a.2 + b.2)

/-- Multiplication by (-i)^k forward, (+i)^k inverse. -/
def Cplx.rot (inverse : Bool) (k : Nat) (a : Cplx) : Cplx :=
  let r := if inverse then k % 4 else (4 - k % 4) % 4
  if r = 0 then a else if r = 1 then (-a.2, a.1) else if r = 2 then (-a.1, -a.2) else (a.2, -a.1)

/-- The exact value of finite codes. -/
def CCode.value (c : CCode) : Cplx := ((fp32.decode c.1).rat?.getD 0, (fp32.decode c.2).rat?.getD 0)

/-- A complex number rounded once per part to FP32, with how many parts saturated and underflowed. A part that rounds to zero keeps its
sign; an exact zero is +0 (R162). -/
def Cplx.round (a : Cplx) : CCode × Nat × Nat :=
  let re := fp32.round 0 false (.ofRat a.1)
  let im := fp32.round 0 false (.ofRat a.2)
  ((re.raw, im.raw), b2n re.sat + b2n im.sat, b2n re.ufl + b2n im.ufl)

/-- One radix-4 stage of a 64-point transform with span m (R220). -/
def fftStage (inverse : Bool) (m : Nat) (last : Bool) (x : List CCode) : List (CCode × Nat × Nat) :=
  (List.range 64).map (fun i =>
    let b := i / (4 * m) * (4 * m)
    let j := i % m
    let q := (i - b) / m
    let sum := (List.range 4).foldl (fun acc p =>
      let k := j * p * (16 / m)
      let tw : Cplx := (cosTw k, if inverse then sinTw k else -(sinTw k))
      Cplx.add acc (Cplx.rot inverse (p * q) (Cplx.mul tw (CCode.value (x.getD (b + j + p * m) (0, 0)))))) ((0, 0) : Cplx)
    Cplx.round (if inverse && last then (sum.1 / 64, sum.2 / 64) else sum))

/-- A 64-point transform and its counts. -/
def fft64 (inverse : Bool) (x : List CCode) : List CCode × Nat × Nat :=
  let s1 := fftStage inverse 1 false x
  let s2 := fftStage inverse 4 false (s1.map Prod.fst)
  let s3 := fftStage inverse 16 true (s2.map Prod.fst)
  let all := s1 ++ s2 ++ s3
  (s3.map Prod.fst, (all.map (fun p => p.2.1)).sum, (all.map (fun p => p.2.2)).sum)

/-- Transforms of a sequence: of its one row, or of every row and then every column of a block of 64 (R219). -/
def fftSeq (inverse twoD : Bool) (x : List CCode) : List CCode × Nat × Nat :=
  if twoD then
    let rows := (List.range 64).map (fun r => fft64 inverse ((x.drop (64 * r)).take 64))
    let mid := rows.flatMap (fun r => r.1)
    let cols := (List.range 64).map (fun c => fft64 inverse ((List.range 64).map (fun r => mid.getD (64 * r + c) (0, 0))))
    let all := rows ++ cols
    ((List.range 4096).map (fun i => (cols.getD (i % 64) ([], 0, 0)).1.getD (i / 64) (0, 0)),
      (all.map (fun p => p.2.1)).sum, (all.map (fun p => p.2.2)).sum)
  else fft64 inverse x

/-- VU_FFT: COUNT sequences, in an inverse transform with a pattern as SRCB first multiplied by a spectrum (R221). -/
def vuFft (f : Nat) (live : Bool) (inverse : Bool) (v : VuForm) (twoD : Bool) (count : BitVec 16) : Op AfterDone := do
  let pts := if twoD then 4096 else 64
  let n := 2 * pts * count.toNat
  let spectrum := inverse && !bitOf v.srcb 6
  let (a, b1) ← vuSource f live v.srca 13 n
  let (h, b2) ← if spectrum then vuSource f live v.srcb 13 n else pure ([], false)
  let special (l : List Nat) (k : Nat) : Bool := (fp32.decode (l.getD k 0)).rat?.isNone
  let code (l : List Nat) (k : Nat) : CCode := (l.getD (2 * k) 0, l.getD (2 * k + 1) 0)
  let seqs : List (List Nat × Nat × Nat) := (List.range count.toNat).map (fun q =>
    let base := pts * q
    if (List.range (2 * pts)).any (fun k => special a (2 * base + k) || (spectrum && special h (2 * base + k))) then
      (List.replicate (2 * pts) 0x7FC00000, 0, 0)
    else
      let ins := (List.range pts).map (fun k =>
        if spectrum then Cplx.round (Cplx.mul (CCode.value (code a (base + k))) (CCode.value (code h (base + k))))
        else (code a (base + k), 0, 0))
      let out := fftSeq inverse twoD (ins.map Prod.fst)
      (out.1.flatMap (fun c => [c.1, c.2]), (ins.map (fun p => p.2.1)).sum + out.2.1, (ins.map (fun p => p.2.2)).sum + out.2.2))
  let sat := (seqs.map (fun p => p.2.1)).sum
  let ufl := (seqs.map (fun p => p.2.2)).sum
  modify (fun s => s.modTask f live (fun t =>
    { t with counts := t.counts.modify 63 {} (fun c => { c with sat := c.sat + sat, ufl := c.ufl + ufl }) }))
  vuDest f live v.dst 13 (seqs.flatMap (fun p => p.1)) (b1 || b2)
  return .nothing

end Sys2Proof.Machine
end

