-- ==== Sys2Proof/Machine/Check.lean ====
section
/-! DEFINITION. The image check of a variant's command list (R106): encoding, operand rules, pattern ranges and the step rules of R103. -/

namespace Sys2Proof.Machine

/-! ### What a command takes from its patterns and registers -/

/-- Accesses a command makes through each pattern, the VU registers it reads and writes, and what it does to its handle. -/
structure Uses where
  reads : List (Nat × Nat) := []
  writes : List (Nat × Nat) := []
  regReads : List Nat := []
  regWrites : List Nat := []
deriving DecidableEq, Repr

/-- Two uses together. -/
def Uses.and (a b : Uses) : Uses :=
  { reads := a.reads ++ b.reads, writes := a.writes ++ b.writes, regReads := a.regReads ++ b.regReads, regWrites := a.regWrites ++ b.regWrites }

/-- n bytes through pattern i. -/
def patUse (pats : List Pattern) (i n : Nat) : Nat × Nat :=
  let w := ((pats[i]?).map Pattern.bytes).getD 32
  (i, (n + w - 1) / w)

/-- n elements of a VU operand as a source. -/
def srcUse (pats : List Pattern) (r : BitVec 7) (fmt n : Nat) : Uses :=
  if bitOf r 6 then { regReads := (List.range ((n + 63) / 64)).map (fun k => fieldOf r 3 0 + k) }
  else { reads := [patUse pats (fieldOf r 5 0) (elemBytes fmt n)] }

/-- n elements of a VU operand as a destination. -/
def dstUse (pats : List Pattern) (r : BitVec 7) (fmt n : Nat) : Uses :=
  if bitOf r 6 then { regWrites := (List.range ((n + 63) / 64)).map (fun k => fieldOf r 3 0 + k) }
  else { writes := [patUse pats (fieldOf r 5 0) (elemBytes fmt n)] }

/-- A parameter set of n accesses; one row in row mode. -/
def paramUse (pats : List Pattern) (i n : Nat) : Nat × Nat := (i, if ((pats[i]?).map Pattern.row).getD false then 1 else n)

/-- A walk over the pixels of a pattern for ch channels. -/
def walkBytes (pats : List Pattern) (i fmt ch : Nat) : Nat :=
  (pats[i]?).elim 0 (fun p => p.walkLen fmt ch)

def walkUse (pats : List Pattern) (i fmt ch : Nat) : Nat × Nat := patUse pats i (walkBytes pats i fmt ch)

/-- Registers a depthwise convolution reads: weights, multiplier and bias (R211). -/
def dwRegs (v : VuForm) (g : Geometry) (group : Byte) : List Nat :=
  (List.range (dwFilled g v.ifmt.toNat (group.toNat + 1) + 2)).map (fun k => fieldOf v.srcb 3 0 + k)

/-- The uses of a command. A scale set counts its three accesses: whether it carries constant channels stands in its data (log 24). -/
def usesOf (pats : List Pattern) : Instr → Uses
  | .mxuPass _ _ o =>
    { reads := (if o.asrc = 0 then [patUse pats o.apat.toNat (elemBytes o.afmt.toNat (32 * o.kp.toNat))] else [])
        ++ (if o.wsrc = 0 then [patUse pats o.wpat.toNat (elemBytes o.wfmt.toNat (64 * o.kp.toNat))] else [])
        ++ (if o.mx && isMx o.afmt.toNat then [patUse pats o.aspat.toNat o.kp.toNat] else [])
        ++ (if o.mx && isMx o.wfmt.toNat then [patUse pats o.wspat.toNat (2 * o.kp.toNat)] else []) }
  | .vuDrain _ _ o =>
    { reads := [paramUse pats o.spat.toNat 3, paramUse pats o.bpat.toNat 8] ++ (if o.cpen then [paramUse pats o.cpat.toNat 16] else [])
      writes := [patUse pats o.opat.toNat (elemBytes o.ofmt.toNat 2048)] }
  | .vuEw _ _ v func count =>
    let n := 64 * count.toNat
    let ends := (srcUse pats v.srca v.ifmt.toNat n).and (dstUse pats v.dst v.ofmt.toNat n)
    if func = 7 then
      if bitOf v.srcb 6 then ends
      else if isMx v.ofmt.toNat then ends.and { writes := [patUse pats (fieldOf v.srcb 5 0) (2 * count.toNat)] }
      else ends.and { reads := List.replicate count.toNat (paramUse pats (fieldOf v.srcb 5 0) 3) }
    else if usesB func.toNat then ends.and (srcUse pats v.srcb v.ifmt.toNat n)
    else ends
  | .vuDw _ _ v g ch group =>
    { reads := [walkUse pats (fieldOf v.srca 5 0) v.ifmt.toNat (ch.toNat + 1)]
      writes := [walkUse pats (fieldOf v.dst 5 0) v.ofmt.toNat (ch.toNat + 1)]
      regReads := dwRegs v g group }
  | .vuPool _ _ _ _ v _ ch =>
    { reads := [walkUse pats (fieldOf v.srca 5 0) v.ifmt.toNat (ch.toNat + 1)]
      writes := [walkUse pats (fieldOf v.dst 5 0) v.ofmt.toNat (ch.toNat + 1)] }
  | .vuArgmax _ _ v ch =>
    let pixels := match pats[fieldOf v.srca 5 0]? with
      | some p => p.rows * p.cols v.ifmt.toNat
      | none => 0
    Uses.and { reads := [walkUse pats (fieldOf v.srca 5 0) v.ifmt.toNat (ch.toNat + 1)] } (dstUse pats v.dst v.ofmt.toNat pixels)
  | .vuTfn _ _ v _ count | .vuLoad _ _ v count | .vuStore _ _ v count =>
    (srcUse pats v.srca v.ifmt.toNat (64 * count.toNat)).and (dstUse pats v.dst v.ofmt.toNat (64 * count.toNat))
  | .vuFft _ _ inverse v twoD count =>
    let n := 2 * (if twoD then 4096 else 64) * count.toNat
    let ends := (srcUse pats v.srca 13 n).and (dstUse pats v.dst 13 n)
    if inverse && !bitOf v.srcb 6 then ends.and (srcUse pats v.srcb 13 n) else ends
  | .ptmBuild _ _ v _ count =>
    if bitOf v.srcb 6 then { regReads := (List.range count.toNat).map (fun k => fieldOf v.srcb 3 0 + k) }
    else { reads := [patUse pats (fieldOf v.srcb 5 0) (128 * count.toNat)] }
  | .vuTload _ _ v _ => srcUse pats v.srca v.ifmt.toNat 257
  | .seCapture _ _ src dst count =>
    let w := ((pats[dst.toNat]?).map Pattern.bytes).getD 32
    { reads := [patUse pats src.toNat (w * count.toNat)], writes := [(dst.toNat, count.toNat)] }
  | .seRegroup _ _ _ src dst _ count =>
    let w := ((pats[dst.toNat]?).map Pattern.bytes).getD 32
    { reads := [patUse pats src.toNat (w * count.toNat)], writes := [(dst.toNat, count.toNat)] }
  | .fill _ _ dst _ count => { writes := [(dst.toNat, count.toNat)] }
  | .fcCopy _ _ src dst count =>
    let w := ((pats[dst.toNat]?).map Pattern.bytes).getD 32
    { reads := [patUse pats src.toNat (w * count.toNat)], writes := [(dst.toNat, count.toNat)] }
  | .rhzKeep _ _ dst chunks => { writes := [patUse pats dst.toNat (2048 * chunks.toNat)] }
  | _ => {}

/-- Patterns a command names. -/
def patsOf (pats : List Pattern) (c : Instr) : List Nat := let u := usesOf pats c; u.reads.map Prod.fst ++ u.writes.map Prod.fst

/-- A command that is skipped: a pattern it names has a dimension of actual extent zero (R107). -/
def zeroSkipped (pats : List Pattern) (exts : List (BitVec 16)) (c : Instr) : Bool :=
  (patsOf pats c).any (fun i => ((pats[i]?).map (fun p => p.zeroExtent exts)).getD false)

/-! ### Operand rules -/

/-- The channel block of an operator walk is one that Table 08.1 gives for the format; INT32, which it leaves out, is taken as FP32 (log 107). -/
def blockOk (p : Pattern) (fmt : Nat) : Bool :=
  p.row ||
    (let w := 4 * p.words
     if fmt = 13 ∨ fmt = 5 then decide (w = 32)
     else if storeBits fmt = 4 then decide (w = 8) || decide (w = 16)
     else if storeBits fmt = 8 then decide (w = 16) || decide (w = 32)
     else if storeBits fmt = 16 then decide (w = 32)
     else true)

/-- An operator walk named by a pattern reference. -/
def walkOk (pats : List Pattern) (r : BitVec 7) (fmt : Nat) : Bool :=
  !bitOf r 6 && (((pats[fieldOf r 5 0]?).map (fun p => blockOk p fmt)).getD true)

/-- A parameter pattern (R187): 8 words except in a row variant, never tagged. -/
def paramOk (pats : List Pattern) (rowKind : Bool) (i : Nat) : Bool :=
  match pats[i]? with
  | none => true
  | some p => !p.tagged && (rowKind || (decide (p.words = 8) && !p.row))

/-- The rules that fail with CMD_ILLEGAL beyond reserved values: R184, R187, R190, R204, R207, R210, R211, R217 to R221, R225, R237, R242. That SRCA and DST
of VU_ARGMAX must name patterns, not VU registers, is the model's choice: R217 packs results by walks and gives no other form (DESIGN CHOICE, log 145). -/
def operandsLegal (pats : List Pattern) (rowKind live divided : Bool) : Instr → Bool
  | .mxuPass _ _ o =>
    let g := kGranule o.afmt.toNat o.wfmt.toNat
    decide (o.kp ≠ 0) && decide (o.kp.toNat ≤ kBlock o.afmt.toNat o.wfmt.toNat) && decide (o.kp.toNat % max g 1 = 0)
  | .vuDrain _ _ o => paramOk pats rowKind o.spat.toNat && paramOk pats rowKind o.bpat.toNat && (!o.cpen || paramOk pats rowKind o.cpat.toNat)
  | .vuEw _ _ v func _ =>
    if func = 7 ∧ ¬ bitOf v.srcb 6 then
      isMx v.ofmt.toNat
        || (paramOk pats rowKind (fieldOf v.srcb 5 0)
            && ((decide (v.ifmt.toNat ≤ 5) && decide (11 ≤ v.ofmt.toNat) && decide (v.ofmt.toNat ≤ 13))
              || (decide (6 ≤ v.ifmt.toNat) && decide (v.ifmt.toNat ≤ 13) && decide (v.ofmt.toNat ≤ 5))))
    else true
  | .vuDw _ _ v g ch group =>
    walkOk pats v.srca v.ifmt.toNat && walkOk pats v.dst v.ofmt.toNat && bitOf v.srcb 6 && padOk g
      && decide (ch.toNat ≤ 63) && decide (group.toNat ≤ 63) && decide ((ch.toNat + 1) % (group.toNat + 1) = 0)
      && (dwRegs v g group).all (fun r => decide (r ≤ (if live then 7 else 15)))
  | .vuPool _ _ _ _ v g _ => walkOk pats v.srca v.ifmt.toNat && walkOk pats v.dst v.ofmt.toNat && padOk g
  | .vuArgmax _ _ v _ => walkOk pats v.srca v.ifmt.toNat && !bitOf v.dst 6 && (decide (v.ofmt = 4) || decide (v.ofmt = 5))
  | .vuFft _ _ inverse v _ _ => decide (v.ifmt = 13) && decide (v.ofmt = 13) && decide (v.rnd = 0) && (inverse || bitOf v.srcb 6)
  | .ptmBuild _ _ v group count =>
    decide (v.ifmt = 14) && decide (v.ofmt = 13) && decide (v.srca = 0) && decide (v.dst = 0) && decide (v.rnd = 0)
      && decide (group.toNat + 4 * count.toNat ≤ 32)
  | .seCapture _ _ _ dst _ => ((pats[dst.toNat]?).map Pattern.halo).getD true
  | .seRegroup _ _ inverse src dst by4 _ =>
    match pats[src.toNat]?, pats[dst.toNat]? with
    | some s, some d =>
      let n := (if by4 then 16 else 4) * (if inverse then d.words else s.words)
      decide (n ≤ 8) || decide (n = 16)
    | _, _ => true
  | .nwRead _ _ o => decide (o.win.toNat < 12)
  | .nwWrite _ _ o => decide (o.win.toNat < 12) || (decide (o.lrow.toNat < 8) && decide (o.roff = 0) && decide (o.rows = 0))
  | .winOpen _ _ win base rows _ =>
    winShare divided live win.toNat
      && (decide (win.toNat < 12) || (decide (base.toNat < 8) && decide (1 ≤ rows.toNat) && decide (rows.toNat ≤ 15)))
  | .winClose _ _ win => winShare divided live win.toNat
  | _ => true
where
  padOk (g : Geometry) : Bool := decide (g.pad ≠ 2) || (decide (g.kw.toNat % 2 = 0) && decide (g.kh.toNat % 2 = 0))

/-- A walk has n columns: its accesses along dimension 0 are those of n channel blocks, in row mode rounded up to whole rows (R199; DESIGN CHOICE, log 126). -/
def Pattern.hasCols (p : Pattern) (fmt n : Nat) : Bool :=
  if p.row then decide (p.count 0 * p.bytes = (n * p.block fmt + 511) / 512 * 512) else decide (p.count 0 * p.bytes = n * p.block fmt)

/-- The source walk of a depthwise convolution or a pooling has the extent that its destination walk needs, which is a whole number of channel
blocks wide (R199, R203). H_EXT is a whole number of stripes (R200), so that the quotient of R201 is an integer for every image. -/
def sourceOk (pats : List Pattern) (v : VuForm) (g : Geometry) : Bool :=
  match pats[fieldOf v.srca 5 0]?, pats[fieldOf v.dst 5 0]? with
  | some s, some d =>
    decide (s.rows = (g.sy.toNat + 1) * d.rows + g.kh.toNat * (g.dy.toNat + 1))
      && d.hasCols v.ofmt.toNat (d.cols v.ofmt.toNat)
      && s.hasCols v.ifmt.toNat ((g.sx.toNat + 1) * d.cols v.ofmt.toNat + g.kw.toNat * (g.dx.toNat + 1))
  | _, _ => true

/-- The engine of a command follows the row mode of the variant's kind: MXU, VU and SE (R122). -/
def followsKind (c : Instr) : Bool := decide (engineOf c ≤ 3)

/-- The patterns of a command in a variant of a kind: in ROW and LITE_ROW variants every one is in row mode (R123); in the others those of the
MXU, VU and SE are in word mode (R122; that a row-mode one is refused is DEDUCED, log 108). -/
def rowsLegal (pats : List Pattern) (rowKind : Bool) (c : Instr) : Bool :=
  (patsOf pats c).all (fun i => ((pats[i]?).map (fun p => if rowKind then p.row else !(p.row && followsKind c))).getD true)

/-- The rules of one command that fail with PATTERN_RANGE: patterns that exist (log 25), rows inside the task's (R124, R238), the extents of
operator walks (R203) and the walks of a regrouping (R218). -/
def rangesLegal (pats : List Pattern) (rowKind : Bool) (rows : Nat) (c : Instr) : Bool :=
  (patsOf pats c).all (fun i => decide (i < pats.length)) && rowsLegal pats rowKind c &&
    match c with
    | .winOpen _ _ win base n _ => decide (12 ≤ win.toNat) || decide (base.toNat + n.toNat ≤ rows)
    | .dmaIn _ _ row | .dmaOut _ _ row => decide (row.toNat < rows)
    | .nwRead _ _ o | .nwWrite _ _ o => decide (12 ≤ o.win.toNat) || decide (o.lrow.toNat + o.rows.toNat ≤ rows)
    | .vuDw _ _ v g _ _ | .vuPool _ _ _ _ v g _ => sourceOk pats v g
    | .seRegroup _ _ inverse src dst by4 _ =>
      match pats[src.toNat]?, pats[dst.toNat]? with
      | some s, some d =>
        let k := if by4 then 4 else 2
        let w := 4 * (if inverse then d.words else s.words)
        let cols (p : Pattern) (big : Bool) : Nat := p.count 0 * p.bytes / (if big then k * k * w else w)
        let whole (p : Pattern) (big : Bool) : Bool := decide (p.count 0 * p.bytes % (if big then k * k * w else w) = 0)
        whole s inverse && whole d (!inverse) &&
          (if inverse then decide (k * cols s true = cols d false) && decide (k * s.count 1 = d.count 1)
          else decide (cols s false = k * cols d true) && decide (s.count 1 = k * d.count 1))
      | _, _ => true
    | _ => true

/-! ### The variant's patterns -/

/-- The patterns with the selected bucket sizes as the counts of their dynamic dimensions (R228). -/
def TaskImage.bucketPats (t : TaskImage) (v : Variant) : List Pattern :=
  t.pats.map (fun p =>
    { p with counts := (List.range 4).map (fun d =>
        let e := (p.dyn.getD d 0).toNat
        if e = 0 then p.counts.getD d 0
        else BitVec.ofNat 16 (((t.sizesOf (e - 1)).getD (v.bucket (e - 1)) 1).toNat - 1)) })

/-- A dynamic dimension names one of the image's and has COUNT 0 (R227, R228). -/
def TaskImage.dynOk (t : TaskImage) : Bool :=
  t.pats.all (fun p => (List.range 4).all (fun d =>
    let e := (p.dyn.getD d 0).toNat
    decide (e = 0) || (decide (e ≤ t.ndyn.toNat) && decide (p.counts.getD d 0 = 0))))

/-! ### Steps (R100, R103) -/

/-- The place an access touches: scratchpad rows below 8,192, SE buffer lines of 32 B above, with whether the pattern is tagged. -/
def touched (circs : List CircEntry) (p : Pattern) (i : Nat) : List Nat :=
  if p.halo then (seLines (4 * (p.address i).toNat) p.bytes).map (fun l => 8192 + l)
  else match p.place circs 0 i with
    | some (r, _) => [r]
    | none => []

/-- What the commands of the step so far have done. -/
structure StepUse where
  cursors : Tbl Nat := {}
  read : List Nat := []
  written : List Nat := []
  plainWritten : List Nat := []
  regsWritten : List Nat := []
  regsBad : Bool := false
  bound : List Nat := []
  /-- Handles that this step has bound, and those that earlier steps did. -/
  binds : List Nat := []
  past : List Nat := []
  handlesBad : Bool := false
  swaps : Nat := 0
  buildBad : Bool := false
deriving DecidableEq, Repr

/-- Rows and lines of n accesses of a pattern from its cursor, and the cursor after. -/
def StepUse.walk (u : StepUse) (circs : List CircEntry) (pats : List Pattern) (q : Nat × Nat) : List Nat × StepUse :=
  match pats[q.1]? with
  | none => ([], u)
  | some p =>
    let c := u.cursors.get q.1 0
    ((List.range (min q.2 p.total)).flatMap (fun i => touched circs p ((c + i) % p.total)),
      { u with cursors := u.cursors.set q.1 ((c + q.2) % p.total) })

/-- Handles a command names: whether it binds them and whether it unbinds them (R94, R242). -/
def handleUse : Instr → List (Nat × Bool × Bool)
  | .mxuPass _ _ o => [(o.acc.toNat, o.alloc, false)]
  | .vuDrain _ _ o => [(o.acc.toNat, false, !o.keep)]
  | .nwWrite _ _ o => if o.win.toNat < 12 then [] else [(o.lrow.toNat, false, true)]
  | .winOpen _ _ win base _ _ => if win.toNat < 12 then [] else [(base.toNat, false, false)]
  | _ => []

/-- One more command of a step. -/
def StepUse.add (u : StepUse) (circs : List CircEntry) (pats : List Pattern) (c : Instr) : StepUse :=
  let w := usesOf pats c
  let u := w.reads.foldl (fun u q => let (l, u) := u.walk circs pats q; { u with read := l ++ u.read }) u
  let u := w.writes.foldl (fun u q =>
    let (l, u) := u.walk circs pats q
    let plain := !(((pats[q.1]?).map Pattern.tagged).getD false)
    { u with written := l ++ u.written, plainWritten := if plain then l ++ u.plainWritten else u.plainWritten }) u
  let u := { u with regsBad := u.regsBad || w.regReads.any (fun r => !u.regsWritten.contains r), regsWritten := w.regWrites ++ u.regsWritten }
  let u := (handleUse c).foldl (fun u h =>
    if h.2.1 then { u with bound := insertNat h.1 u.bound, binds := insertNat h.1 u.binds }
    else
      let u := { u with handlesBad := u.handlesBad || (!u.binds.contains h.1 && u.past.contains h.1) }
      if h.2.2 then { u with bound := u.bound.filter (fun b => decide (b ≠ h.1)) } else u) u
  match c with
  | .mxuPass _ _ o => if o.ptmSwap then { u with swaps := u.swaps + 1 } else u
  | .ptmBuild .. => { u with buildBad := u.buildBad || decide (0 < u.swaps) }
  | _ => u

/-- The step breaks one of the four conditions of R103. -/
def StepUse.alias (u : StepUse) : Bool :=
  u.plainWritten.any (fun r => u.read.contains r) || u.regsBad || u.handlesBad || !u.bound.isEmpty || decide (1 < u.swaps) || u.buildBad

/-- A step that follows: cursors go on, and the handles bound so far are those of earlier steps. -/
def StepUse.next (u : StepUse) : StepUse := { cursors := u.cursors, past := u.binds ++ u.past }

/-- END. -/
def isEnd : Instr → Bool
  | .end_ .. => true
  | _ => false

/-- The first command index of a step of the list that breaks R103, if any: `step` is the step that is open, by its first index. What stands
behind END without SB belongs to no step (R100). -/
def stepFault (circs : List CircEntry) (pats : List Pattern) : List Instr → Nat → Option Nat → StepUse → Option Nat
  | [], _, step, u => if u.alias then step else none
  | c :: r, i, step, u =>
    if (cmdHdr c).sb then
      if u.alias && step.isSome then step
      else stepFault circs pats r (i + 1) (if isEnd c then none else some i) (u.next.add circs pats c)
    else
      match step with
      | none => stepFault circs pats r (i + 1) none u
      | some n =>
        if isEnd c then if u.alias then some n else stepFault circs pats r (i + 1) none u.next
        else stepFault circs pats r (i + 1) (some n) (u.add circs pats c)

/-! ### The check -/

/-- What the image check needs to know of the set it runs on. -/
structure CheckFor where
  live : Bool
  divided : Bool
  /-- Words of the halo buffer that the task may use (R73). -/
  halo : Nat := 65536
deriving DecidableEq, Repr

/-- Every VU register that a command takes lies in the task's share (R70). A register operand of COUNT vectors names COUNT registers from its
own on (DESIGN CHOICE, log 114). -/
def regsLegal (pats : List Pattern) (k : CheckFor) (c : Instr) : Bool :=
  let u := usesOf pats c
  (u.regReads ++ u.regWrites).all (regShare k.divided k.live)

/-- The fault of the first command that is illegal, with its index. -/
def cmdFault (t : TaskImage) (k : CheckFor) (rowKind : Bool) (pats : List Pattern) (words : List CmdWords) : Option (BitVec 16 × Nat) :=
  (words.zipIdx).findSome? (fun p =>
    match decodeCmd 0 0 p.1 with
    | none => some (stCmdIllegal, p.2)
    | some c =>
      if (p.2 = 0 ∧ ¬ (cmdHdr c).sb) ∨ !headerLegal (semShare k.divided k.live) (cmdHdr c)
          ∨ !fieldsLegal (semShare k.divided k.live) (regShare k.divided k.live) c
          ∨ (slotsNeeded c).any (fun e => !ownsSlot t.slot e)
          ∨ !operandsLegal pats rowKind k.live k.divided c ∨ !regsLegal pats k c then some (stCmdIllegal, p.2)
      else if !rangesLegal pats rowKind (t.pRows + t.tRows) c then some (stPatternRange, p.2)
      else none)

/-- The check of one variant: its list, the walks of its patterns, and its steps. -/
def checkVariant (t : TaskImage) (k : CheckFor) (v : Variant) (words : List CmdWords) : Option (BitVec 16 × Nat) :=
  let pats := t.bucketPats v
  let rowKind := bitOf v.kind 0
  match cmdFault t k rowKind pats words with
  | some e => some e
  | none =>
    if pats.any (fun p => !p.rangeOk t.circs (t.pRows + t.tRows) k.halo) then some (stPatternRange, 0xFFFF)
    else
      (stepFault t.circs pats (words.filterMap (decodeCmd 0 0)) 0 none {}).map (fun i => (stStepAlias, i))

/-- The image check of R106: the first fault and its command index (0xFFFF when tied to none). -/
def checkImage (t : TaskImage) (k : CheckFor) (rd : Nat → Nat → List Byte) : Option (BitVec 16 × Nat) :=
  if !t.dynOk then some (stCmdIllegal, 0xFFFF)
  else t.variants.findSome? (fun v =>
    checkVariant t k v ((List.range v.cmdCount.toNat).map (fun i => cmdAt rd v.cmdOff.toNat i)))

end Sys2Proof.Machine
end

