-- ==== Sys2Proof/Machine/Checkpoint.lean ====
section
/-! DEFINITION. Checkpoints in the spore log (R412 to R420): their slots in a copy (Table 15.2), their bytes (Table 15.4), and whether the two copies can
serve one. -/

namespace Sys2Proof.Machine

/-- The 16 bytes of one tensor's counts, in the layout of Table 07.4: its counts, its shifts and its flags. -/
def TensorCount.block (c : TensorCount) (used next : Byte) : List Byte :=
  toLe 4 (min c.sat 0xFFFFFFFF) ++ toLe 4 (min c.ufl 0xFFFFFFFF) ++ toLe 4 c.amax.toNat
    ++ [used, next, BitVec.ofNat 8 (b2n c.nan + 2 * b2n c.inf + 4 * b2n (decide (next ≠ used))), 0]

/-- The state of window n as its two registers show it (Table 09.9). -/
def Window.state (v : Window) (n : Nat) : Nat :=
  put v.base.toNat 0 + put v.rows.toNat 13 + put (b2n v.isOpen) 26 + put (b2n (decide (12 ≤ n))) 27 + put v.gen.toNat 32 + put v.arrived.toNat 48

/-! ### Slots -/

/-- C_ROWS of R414. -/
def ckptRows (t : TaskImage) : Nat := min t.tRows 1520

/-- Bytes of one stripe checkpoint slot of a live image (R414). -/
def ckptSlot (t : TaskImage) : Nat := 8192 + t.seBytes.toNat + 512 * ckptRows t

/-- Bytes of the slots that a live image takes of the pool: two a frond (R414). -/
def ckptBytes (b : Bound) : Nat := b.fronds.length * 2 * ckptSlot b.image

/-- Offset in a copy of the slot that checkpoint k of frond number `rank` of a set takes; the set's slots begin at `base` in the pool (R415, log 123). -/
def stripeSlot (b : Bound) (base rank k : Nat) : Nat := 0x08010000 + base + (2 * rank + k % 2) * ckptSlot b.image

/-- Offset in a copy of step slot k of logical frond f. -/
def stepSlot (f k : Nat) : Nat := 0x48010000 + (2 * f + k) * (4360 * 1024)

/-! ### Bytes (Table 15.4) -/

/-- Bytes made up to n with zeros. -/
def padTo (n : Nat) (l : List Byte) : List Byte := l ++ List.replicate (n - l.length) 0

/-- The header of a stripe (step = false) or step checkpoint with `seLen` halo bytes and `rows` saved rows. -/
def Ckpt.header (k : Ckpt) (step : Bool) (seLen rows : Nat) : List Byte :=
  padTo 0x100 (toLe 4 0x7780CE01 ++ [BitVec.ofNat 8 (b2n step), 1] ++ toLe 2 k.ctx ++ toLe 4 k.frame.toNat ++ toLe 2 k.point ++ toLe 2 k.task.toNat
      ++ toLe 4 seLen ++ toLe 2 rows)
    ++ (List.range 32).flatMap (fun i => let g := k.regions.getD i (0, 0); toLe 8 (put g.1 0 + put g.2 13))
    ++ (List.range 64).flatMap (fun t => (k.stats.get t {}).block 0 0)
    ++ padTo 0xC00 (if step then [] else k.rows.flatMap (toLe 2))
    ++ (List.range 64).flatMap (fun i => toLe 4 (k.cursors.get i 0))
    ++ (List.range 64).flatMap (fun i => toLe 2 (k.sems.get i 0).toNat)
    ++ (List.range 16).flatMap (fun w => toLe 8 ((k.windows.get w {}).state w))
    ++ padTo 16 (toLe 4 ((k.ptmBuild.map BuildRec.index).getD 0xFFFFFFFF))
    ++ padTo 16 (toLe 1 (min 64 k.heldIncs.length))
    ++ padTo 512 ((k.heldIncs.take 64).flatMap (fun h => toLe 8 (put h.task.toNat 0 + put h.sem.toNat 16 + put h.count.toNat 32)))
    ++ List.replicate 0x9E0 0

/-- The 512 bytes of a task row in the scratchpad. -/
def Frond.rowBytes (x : Frond) (f : Nat) (t : Task) (r : Nat) : List Byte :=
  match x.place t r with
  | some (.phys q) => readBytes (x.tspByte f) (512 * q) 512
  | _ => []

/-- A checkpoint as it lies in a copy: header, `seLen` halo bytes from line `lo` on, and the listed task rows. -/
def Frond.ckptImage (x : Frond) (f : Nat) (t : Task) (k : Ckpt) (step : Bool) (lo seLen : Nat) (rows : List Nat) : List Byte :=
  k.header step seLen rows.length ++ readBytes (x.seByte f) lo seLen ++ rows.flatMap (x.rowBytes f t)

/-- Bytes written at an offset of both copies of the spore log (R412). -/
def State.sporeWrite (s : State) (off : Nat) (l : List Byte) : State := (s.hbmLay (s.lsch.sporeA.toNat + off) l).hbmLay (s.lsch.sporeB.toNat + off) l

/-- Where the copies lie: the address of offset n of a checkpoint in copy A, and in copy B. -/
def State.ckptAddr (s : State) (k : Ckpt) (copyB : Bool) (n : Nat) : Nat := (if copyB then s.lsch.sporeB else s.lsch.sporeA).toNat + k.slot + n

/-- Copy A cannot serve the word that holds offset n of a checkpoint. -/
def State.ckptFromB (s : State) (k : Ckpt) (n : Nat) : Bool := s.hbmPoisoned (s.ckptAddr k false n / 64 * 64) 64

/-- VALID of a checkpoint in the copy that serves it is 1 (R420). -/
def State.ckptValid (s : State) (k : Ckpt) : Bool := decide (s.hbmByte (s.ckptAddr k (s.ckptFromB k 5) 5) = 1)

/-- The written bytes of n from offset o of a checkpoint, placed from address `base` on: those of copy A, and of copy B where A cannot serve (R420). -/
def State.ckptPart (s : State) (k : Ckpt) (o n base : Nat) : Mem :=
  let from_ (copyB : Bool) : List (Nat × Byte) := (s.hbm.cells.filter (fun p =>
      decide (s.ckptAddr k copyB o ≤ p.1) && decide (p.1 < s.ckptAddr k copyB (o + n)))).map (fun p => (p.1 - s.ckptAddr k copyB o, p.2))
  let a := (from_ false).filter (fun p => !s.ckptFromB k (o + p.1))
  let b := (from_ true).filter (fun p => s.ckptFromB k (o + p.1))
  b.foldl (fun m p => m.set (base + p.1) p.2) ⟨a.map (fun p => (base + p.1, p.2))⟩

/-- A checkpoint with the halo bytes and rows that its copies hold now (R420). -/
def State.ckptRead (s : State) (k : Ckpt) (lo : Nat) : Ckpt :=
  let se := k.len - 8192 - 512 * (k.pinRows + k.rows.length)
  { k with se := s.ckptPart k 8192 se lo, data := s.ckptPart k (8192 + se + 512 * k.pinRows) (512 * k.rows.length) 0 }

/-- A checkpoint can be read: copy A serves, or copy B each word that A cannot (R420). -/
def State.ckptReadable (s : State) (k : Ckpt) : Bool :=
  (List.range ((k.len + 63) / 64)).all (fun i =>
    !(s.hbmPoisoned (s.lsch.sporeA.toNat + k.slot + 64 * i) 64 && s.hbmPoisoned (s.lsch.sporeB.toNat + k.slot + 64 * i) 64))

end Sys2Proof.Machine
end

