-- ==== Sys2Proof/Machine/Clock.lean ====
section
/-! DEFINITION. Clock plans of the power domains (R524 to R528, R531, R537): the plan a domain's limits allow, and the gate. -/

namespace Sys2Proof.Machine

/-- A domain holds a frond of an admitted live stream's set. -/
def State.domainLive (s : State) (d : Nat) : Bool := (List.range 8).any (fun i => s.carriesLive (8 * d + i))

/-- The plan a CAP allows at most; the reserved code counts as floor (Table 21.2, log 43). -/
def capPlan (cap : BitVec 2) : Nat := if cap = 0 then 3 else if cap = 1 then 2 else 1

/-- The plan the power limit allows (R531). -/
def powerPlan (level : Nat) (live : Bool) : Nat :=
  if 3 ≤ level then 1 else if level = 2 then (if live then 2 else 1) else if level = 1 then 2 else 3

/-- The plan the thermal stage allows (Table 21.1). -/
def thermalPlan (stage : BitVec 3) (live : Bool) : Nat :=
  if 3 ≤ stage.toNat ∧ live then 1 else if 1 ≤ stage.toNat then 2 else 3

/-- Boost may run: enabled, budget left, and a bit blown in this boot or still to blow (R526, R537, R538). -/
def State.boostAllowed (s : State) : Bool :=
  s.power.boostEn && !s.boostSpent && (s.power.boostThisBoot || decide (s.power.bits.toNat < 4096))

/-- The plan of a domain under its CAP in effect: the lowest of the three limits, within R526's bounds. -/
def State.planOf (s : State) (d : Nat) : BitVec 2 :=
  let live := s.domainLive d
  let m := min (capPlan (s.domain d).capEff) (min (powerPlan s.power.level live) (thermalPlan s.power.stage live))
  let m := if live || !s.boostAllowed then min m 2 else m
  BitVec.ofNat 2 m

/-- The first boost after a full or warm reset blows a budget bit before it starts (R537). -/
def State.chargeBoost (s : State) (p : BitVec 2) : State :=
  if p = 3 ∧ s.power.boostThisBoot = false ∧ s.power.bits.toNat < 4096 then
    { s with power := { s.power with boostThisBoot := true, bits := s.power.bits + 1, boostUsed := 0 } }
  else s

/-- At a change point a domain takes its CAP and its plan (R527). -/
def State.takePlan (s : State) (d : Nat) : State :=
  let s := s.meterDomain d
  let s := s.setDomain d { s.domain d with capEff := (s.domain d).cap }
  let p := s.planOf d
  (s.chargeBoost p).setDomain d { s.domain d with plan := p }

/-- The clock of a domain stops (R528). -/
def State.gate (s : State) (d : Nat) : State :=
  let s := s.meterDomain d
  s.setDomain d { s.domain d with gated := true }

/-- A gated clock returns for work on its domain (R528). -/
def State.wake (s : State) (d : Nat) : State :=
  if (s.domain d).gated then
    let s := s.takePlan d
    s.setDomain d { s.domain d with gated := false }
  else s

/-- The clocks of the domains of a live stream's set run: none of them is gated (R528), and one at boost takes a plan that live work may have
before the stream's first stripe (R40). -/
def State.wakeSet (s : State) (fronds : List Nat) : State :=
  fronds.foldl (fun s f =>
    let s := s.wake (f / 8)
    if (s.domain (f / 8)).plan = 3 then s.takePlan (f / 8) else s) s

/-- FROND_STAT.CLK of a frond (Table 03.7): 0 gated, 1 floor, 2 nominal, 3 boost, 4 stretched. -/
def State.clkOf (s : State) (f : Nat) : Nat :=
  let d := s.domain (f / 8)
  let p := (s.frond f).phase
  if s.inert ∨ s.lost f ∨ d.gated ∨ ¬ (p = .on ∨ p = .goingDown ∨ p = .goingDownHeld) then 0
  else if d.stretched then 4 else d.plan.toNat

end Sys2Proof.Machine
end

