-- ==== Sys2Proof/Machine/Transfers.lean ====
section
/-! DEFINITION. Transfers (chapter 10): walks, memory spaces, frond transfer descriptors, the chain and near-side rows. -/

namespace Sys2Proof

/-! ### Walks (R263) -/

/-- Bytes of a walk. -/
def Walk.total (w : Walk) : Nat := w.run.toNat * w.count1.toNat * w.count2.toNat * w.count3.toNat

/-- Address of run number r, i1 innermost. -/
def Walk.runAddr (w : Walk) (r : Nat) : Nat :=
  let c1 := w.count1.toNat
  let c2 := w.count2.toNat
  let a : Int := w.addr.toNat + (r % c1 : Nat) * Machine.signed 32 w.stride1.toNat + (r / c1 % c2 : Nat) * Machine.signed 32 w.stride2.toNat
    + (r / c1 / c2 : Nat) * Machine.signed 32 w.stride3.toNat
  (a % 2 ^ 64).toNat

/-- Contiguous pieces, as (address, length), of n bytes of a walk from byte b. -/
def Walk.pieces (w : Walk) (b n : Nat) : List (Nat × Nat) :=
  let run := w.run.toNat
  if run = 0 ∨ n = 0 then []
  else
    (List.range ((b + n - 1) / run + 1 - b / run)).map (fun i =>
      let r := b / run + i
      let lo := max b (r * run)
      let hi := min (b + n) ((r + 1) * run)
      (w.runAddr r + (lo - r * run), hi - lo))

/-- The form of a walk: RUN 32 to 1,048,576 in steps of 32, counts from 1, aligned address and strides (Table 10.2, R263). -/
def Walk.ok (w : Walk) : Bool :=
  decide (32 ≤ w.run.toNat) && decide (w.run.toNat ≤ 1048576) && decide (w.run.toNat % 32 = 0)
    && decide (w.count1 ≠ 0) && decide (w.count2 ≠ 0) && decide (w.count3 ≠ 0)
    && decide (w.addr.toNat % 32 = 0) && decide (w.stride1.toNat % 32 = 0) && decide (w.stride2.toNat % 32 = 0)
    && decide (w.stride3.toNat % 32 = 0)

/-- The cursor (i1, i2, i3, o) of byte b of a walk, o in units of 32 B (R268). -/
def Walk.cursor (w : Walk) (b : Nat) : Nat × Nat × Nat × Nat :=
  let r := b / w.run.toNat
  (r % w.count1.toNat, r / w.count1.toNat % w.count2.toNat, r / w.count1.toNat / w.count2.toNat, b % w.run.toNat / 32)

/-- Two walks touch a common byte. -/
def Walk.overlaps (a b : Walk) : Bool :=
  (a.pieces 0 a.total).any (fun p => (b.pieces 0 b.total).any (fun q => decide (p.1 < q.1 + q.2) && decide (q.1 < p.1 + p.2)))

end Sys2Proof

namespace Sys2Proof.Machine

/-! ### Spaces -/

/-- Device d's HBM is this device's own, or is reached by an up link (R469). -/
def State.reaches (s : State) (d : Fin 4) : Bool := decide (d.val = s.strap.toNat) || bitOf s.lwl.reached d.val

/-- A space as this device serves it: its own number names its own HBM (R469). -/
def State.served (s : State) (sp : Space) : Space :=
  match sp with
  | .remote d => if d.val = s.strap.toNat then .hbm else sp
  | sp => sp

/-- Bytes of a space, with their poison mark. What another device's HBM holds, and which of its words carry the mark, is free (R285, log 21). -/
def State.spaceRead (s : State) (sp : Space) (a n : Nat) : List Byte × Bool :=
  match s.served sp with
  | .hbm => (s.hbmRead a n, s.hbmPoisoned a n)
  | .host => (s.hostRead a n, false)
  | .remote d =>
    (readBytes (Config.freeByte (600 + d.val) s.fresh) a n,
      (readBytes (Config.freeByte (610 + d.val) s.fresh) (a / 64) ((a + n - 1) / 64 + 1 - a / 64)).any (fun b => bitOf b 0))

/-- The other device serves every address of a walk in its HBM: what it refuses is free here (R470, log 21). -/
def State.remoteServes (s : State) (sp : Space) (w : Walk) : Bool :=
  match s.served sp with
  | .remote d => (w.pieces 0 w.total).all (fun p => !(readBytes (Config.freeByte (620 + d.val) s.fresh) p.1 p.2).any (fun b => bitOf b 0))
  | _ => true

/-- Bytes written to a space; poisoned bytes carry their mark into HBM, and in host memory, which holds no mark, they are undefined (R285). -/
def State.spaceWrite (s : State) (sp : Space) (a : Nat) (l : List Byte) (bad : Bool) : State :=
  match s.served sp with
  | .hbm => let s := s.hbmWrite a l; if bad then s.poisonHbm a l.length else s
  | .host => if bad then s.draw.2.hostWrite a (readBytes (Config.freeByte 701 s.fresh) a l.length) else s.hostWrite a l
  | .remote d => { s with lwl := { s.lwl with sentWrites := s.lwl.sentWrites ++ [(d, a, l, bad)] } }

/-- Bytes b to b + n - 1 of a walk in a space, in walk order. -/
def State.walkRead (s : State) (sp : Space) (w : Walk) (b n : Nat) : List Byte × Bool :=
  (w.pieces b n).foldl (fun acc p => let r := s.spaceRead sp p.1 p.2; (acc.1 ++ r.1, acc.2 || r.2)) ([], false)

/-- The pieces cover byte a. -/
def coversByte (l : List (Nat × Nat)) (a : Nat) : Bool := l.any (fun p => decide (p.1 ≤ a) && decide (a < p.1 + p.2))

/-- Poisoned words of a space all of whose 64 B these clean pieces have written lose their mark (R410). -/
def State.clearCovered (s : State) (sp : Space) (l : List (Nat × Nat)) : State :=
  match s.served sp with
  | .hbm => { s with hbmPoison := s.hbmPoison.filter (fun w => !(List.range 64).all (fun i => coversByte l (64 * w + i))) }
  | _ => s

/-- Bytes written to a walk from byte b on. -/
def State.walkWrite (s : State) (sp : Space) (w : Walk) (b : Nat) (l : List Byte) (bad : Bool) : State :=
  let ps := w.pieces b l.length
  let s := (ps.foldl (fun (acc : State × List Byte) p => (acc.1.spaceWrite sp p.1 (acc.2.take p.2) bad, acc.2.drop p.2)) (s, l)).1
  if bad then s else s.clearCovered sp ps

/-- The first page of host memory that n bytes of a walk from byte b need and that has no translation, or none for a write (R270). -/
def State.walkAbsent (s : State) (sp : Space) (w : Walk) (b n : Nat) (write : Bool) : Option Nat :=
  if sp = .host then (w.pieces b n).findSome? (fun p => s.absentIn p.1 p.2 write) else none

/-- A page request for a page, counted once for each request sent (R270). At most 512 are outstanding (Table 14.1); a stop beyond them is asked for when
one is answered. -/
def State.requestPage (s : State) (page : Nat) : State :=
  if s.pageReqs.contains page || decide (512 ≤ s.pageReqs.length) then s
  else State.count { s with pageReqs := insertNat page s.pageReqs } (cntHif 0) 1

/-- Some run of a walk meets this device's PWU area or supervisor HBM, which only the supervisor and the PWU reach (R355, R373; the status is log 22). -/
def State.meetsSupervisor (s : State) (sp : Space) (w : Walk) : Bool :=
  decide (s.served sp = .hbm) && (w.pieces 0 w.total).any (fun p => meets p.1 p.2 s.svc.pwuArea.1 s.svc.pwuArea.2 || meets p.1 p.2 s.svc.svcArea.1 s.svc.svcArea.2)

/-- Every address of a walk lies in HBM, where the space is HBM (log 22). -/
def spaceHolds (sp : Space) (w : Walk) : Bool :=
  match sp with
  | .host => true
  | _ => (w.pieces 0 w.total).all (fun p => decide (p.1 + p.2 ≤ hbmBytes))

/-! ### Frond transfer descriptors (Table 10.2) -/

/-- The descriptor that 64 bytes hold; `none` for a non-zero byte not named, or a reserved value (R262). -/
def parseXfer (l : List Byte) : Option XferDesc :=
  let b (o : Nat) : Byte := l.getD o 0
  let flags := b 1
  let unnamed := [9, 0xE, 0xF, 0x22, 0x23]
  if 2 < (b 0).toNat ∨ fieldOf flags 7 4 ≠ 0 ∨ 2 < (b 2).toNat ∨ 3 < (b 3).toNat ∨ (b 2 ≠ 2 ∧ b 3 ≠ 0) ∨ 2 ^ 13 ≤ leAt l 4 2
      ∨ 31 < (b 6).toNat ∨ 15 < (b 8).toNat ∨ unnamed.any (fun o => decide (b o ≠ 0))
      ∨ (List.range 16).any (fun i => decide (b (0x30 + i) ≠ 0)) then none
  else
    some { kind := b 0, tagged := bitOf flags 0, circEn := bitOf flags 1, cached := bitOf flags 2, listRel := bitOf flags 3,
           space := b 2, dev := b 3, localRow := BitVec.ofNat 16 (leAt l 4 2), circ := b 6, group := b 7, win := b 8,
           gen := BitVec.ofNat 16 (leAt l 0xA 2), first := b 0xC, last := b 0xD,
           walk := { addr := BitVec.ofNat 64 (leAt l 0x10 8), run := BitVec.ofNat 32 (leAt l 0x18 4),
                     count1 := BitVec.ofNat 16 (leAt l 0x1C 2), count2 := BitVec.ofNat 16 (leAt l 0x1E 2),
                     count3 := BitVec.ofNat 16 (leAt l 0x20 2), stride1 := BitVec.ofNat 32 (leAt l 0x24 4),
                     stride2 := BitVec.ofNat 32 (leAt l 0x28 4), stride3 := BitVec.ofNat 32 (leAt l 0x2C 4) } }

/-- The far-side space of a descriptor. -/
def XferDesc.farSpace (d : XferDesc) : Space :=
  if d.space = 0 then .hbm else if d.space = 1 then .host else .remote (Fin.ofNat 4 d.dev.toNat)

/-- The input frame that an output frame of a running stream shows (R389). -/
def State.inputOf (s : State) (c : Nat) (frame : W32) : W32 :=
  let k := s.ctx c
  k.firstIn + BitVec.ofNat 32 ((frame - k.outFrame).toNat * k.cadIn.toNat / k.cadOut.toNat)

/-- Address of the input slot of a frame (R274). -/
def Ctx.slotAddr (k : Ctx) (input : W32) : Nat :=
  k.slotBase.toNat + input.toNat % fieldOf k.slots 2 0 * k.slotBytes.toNat

/-- Recurrent-state base n, with REC0 and REC1 exchanged as REC_SWAP has it (R398). -/
def Ctx.recAddr (k : Ctx) (swapped : Bool) (n : Nat) : Nat :=
  let m := if bitOf k.mode 5 && swapped && decide (n < 2) then 1 - n else n
  (k.recs.getD m 0).toNat

/-- REC0 and REC1 stand exchanged for an output frame of context c: as they were at its own first release, whichever frames began since (R398). -/
def State.swappedIn (s : State) (c : Nat) (frame : W32) : Bool :=
  (((s.stream c).frames.find? (fun r => decide (r.frame = frame))).map FrameRun.recSwapped).getD (s.ctx c).recSwapped

/-- An HBM address whose bits [63:60] select a context base, with the recurrent-state bases exchanged or not (R398); `none` for a select that names none. -/
def State.selectBase (s : State) (c : Nat) (swapped : Bool) (input : W32) (a : W64) : Option Nat :=
  let k := s.ctx c
  let low := a.toNat % 2 ^ 60
  let sel := a.toNat / 2 ^ 60
  if sel = 0 then some low
  else if sel = 8 then some (k.slotAddr input + low)
  else if sel = 9 then some (k.slotAddr (input - 1) + low)
  else if 12 ≤ sel then some (k.recAddr swapped (sel - 12) + low)
  else none

/-- The descriptor with its far side resolved: base select and pointer-list address (R231, R264, R398). -/
def State.resolve (s : State) (t : Task) (d : XferDesc) : Option XferDesc :=
  let a := if d.listRel then d.walk.addr + t.listRel else d.walk.addr
  if d.space = 0 then
    (s.selectBase t.ctx (s.swappedIn t.ctx t.frame) (s.inputOf t.ctx t.frame) a).map (fun n => { d with walk := { d.walk with addr := BitVec.ofNat 64 n } })
  else some { d with walk := { d.walk with addr := a } }

/-! ### The chain (R254 to R256, R266) -/

/-- Position of a logical frond along the rhizome chain: serpentine within its die, then die by die. -/
def State.chainPos (s : State) (f : Nat) : Nat :=
  let r := f / 8 % 8
  let p := ((s.row (f / 8)).cols.getD (f % 8) 15).toNat
  f / 64 * 72 + r * 9 + (if r % 2 = 0 then p else 8 - p)

/-- Insertion of a frond into a list ordered along the chain. -/
def State.chainInsert (s : State) (f : Nat) : List Nat → List Nat
  | [] => [f]
  | g :: r => if s.chainPos f < s.chainPos g then f :: g :: r else g :: s.chainInsert f r

/-- The fronds that take chunks of a run: those of the set inside FIRST to LAST that are not lost or failed, along the chain (R255). -/
def State.chainFronds (s : State) (c first last : Nat) : List Nat :=
  ((s.setOf c).filter (fun f => decide (first ≤ f) && decide (f ≤ last) && !s.lost f && !(s.frond f).failed)).foldl
    (fun l f => s.chainInsert f l) []

/-- The run stays in the chain order of the issuing frond's die: every frond of it lies on that die, on the chain from FIRST to LAST (R266, log 23). -/
def State.runInChain (s : State) (first last : Nat) : Bool :=
  decide (first ≤ last) && decide (first / 64 = last / 64)
    && (List.range (last + 1 - first)).all (fun i =>
      s.lost (first + i)
        || (decide (s.chainPos first ≤ s.chainPos (first + i)) && decide (s.chainPos (first + i) ≤ s.chainPos last)))

/-! ### Near-side rows -/

/-- The place of near-side row k of a transfer, with the region row of a circular one (R138, R263). -/
def Frond.xferRow (x : Frond) (t : Task) (d : DmaXfer) (write : Bool) (k : Nat) : Option (Place × Option (Nat × Nat)) :=
  let row := d.desc.localRow.toNat + k
  if d.desc.circEn then
    match t.image.circs[d.desc.circ.toNat]? with
    | none => none
    | some c =>
      let p := d.starts.getD d.desc.circ.toNat (0, 0)
      let start := if d.desc.tagged then (if write then p.2 else p.1) else 0
      let o := (start + (row + c.size - c.baseRow.toNat)) % c.size
      (x.place t (c.baseRow.toNat + o)).map (fun q => (q, if d.desc.tagged then some (d.desc.circ.toNat, o) else none))
  else (x.place t row).map (fun q => (q, none))

/-- Checks of a descriptor that fault with XFER_BAD (R259 to R266): the engine's reach, the form of the walk, and the near side. -/
def State.xferOk (s : State) (f : Nat) (t : Task) (isIn : Bool) (d : DmaXfer) : Bool :=
  let e := d.desc
  let n := e.walk.total
  e.walk.ok && spaceHolds e.farSpace e.walk && !s.meetsSupervisor e.farSpace e.walk
    && (!(t.live && decide (e.space = 1)))
    && (!e.tagged || e.circEn)
    && decide (n % 512 = 0)
    && (if e.kind = 0 then (List.range (n / 512)).all (fun k => ((s.frond f).xferRow t d isIn k).isSome)
        else isIn && !e.tagged && !e.circEn && !e.cached)
    && (decide (e.kind ≠ 2) || (decide (n % 2048 = 0) && decide (e.first.toNat = f) && s.runInChain e.first.toNat e.last.toNat))
    && (decide (e.kind ≠ 1) || decide (e.win.toNat < 12))

end Sys2Proof.Machine
end

