-- ==== Sys2Proof/Machine/LockStep.lean ====
section
/-! DEFINITION. Signatures and the lock-step comparison (R444, R449 to R454). -/

namespace Sys2Proof.Machine

/-! ### Signatures (R449) -/

/-- mix64 of R449. -/
def mix64 (z : W64) : W64 :=
  let z := (z ^^^ (z >>> 33)) * 0xFF51AFD7ED558CCD
  let z := (z ^^^ (z >>> 33)) * 0xC4CEB9FE1A85EC53
  z ^^^ (z >>> 33)

/-- unit_hash of R449 over a key and the 32 bytes of a unit. -/
def unitHash (key : W64) (unit : List Byte) : W64 :=
  (List.range 4).foldl (fun h i => mix64 (h ^^^ BitVec.ofNat 64 (leAt unit (8 * i) 8))) (mix64 key)

/-- A key of Table 16.3: destination class and locator. -/
def unitKey (cls loc : Nat) : W64 := BitVec.ofNat 64 (put cls 61 + loc % 2 ^ 60)

/-- The hash of one unit; a poisoned one is hashed as zeros with key bit 60 set. -/
def signedUnit (cls loc : Nat) (unit : List Byte) (bad : Bool) : W64 :=
  if bad then unitHash (unitKey cls loc + BitVec.ofNat 64 (2 ^ 60)) (List.replicate 32 0) else unitHash (unitKey cls loc) unit

/-- Sum over the units of bytes delivered in one place; `loc` gives the locator of unit i. -/
def signedSum (cls : Nat) (loc : Nat → Nat) (l : List Byte) (bad : Bool) : W64 :=
  ((chunksOf 32 l.length l).zipIdx).foldl (fun h p => h + signedUnit cls (loc p.2) p.1 bad) 0

/-- Class and locator of a far-side address. -/
def farKey (sp : Space) (a : Nat) : Nat × Nat :=
  match sp with
  | .hbm => (0, a / 32)
  | .remote d => (1, put d.val 56 + a / 32)
  | .host => (2, a / 32)

/-- The sum over bytes written to a walk from byte b on. -/
def walkSum (sp : Space) (w : Walk) (b : Nat) (l : List Byte) (bad : Bool) : W64 :=
  ((w.pieces b l.length).foldl (fun (acc : W64 × List Byte) p =>
    let k := farKey sp p.1
    (acc.1 + signedSum k.1 (fun i => k.2 + i) (acc.2.take p.2) bad, acc.2.drop p.2)) (0, l)).1

/-- Tasks of a context in fixed-order mode are signed (R444, R448). -/
def State.fixedOrder (s : State) (c : Nat) : Bool := bitOf (s.ctx c).mode 0

/-- A sum joins the step signature of the frond's task, when that task is signed. -/
def State.sign (s : State) (f : Nat) (live : Bool) (h : W64) : State :=
  if s.fixedOrder (s.taskOf f live).ctx then s.modTask f live (fun t => { t with stepSig := t.stepSig + h }) else s

/-- The 16 bytes of a step ring entry: task number, step index and signature, as log 26 lays them out (R451). -/
def StepSig.bytes (e : StepSig) : List Byte := toLe 2 e.task.toNat ++ toLe 2 e.step ++ List.replicate 4 0 ++ toLe 8 e.sig.toNat

/-- An entry joins the step ring of frond f, 4,096 of 16 B in the supervisor's HBM: one ring after the other in frond order (R451, log 26). -/
def State.ringStep (s : State) (f : Nat) (e : StepSig) : State :=
  let x := s.frond f
  let a := s.svc.svcArea.1 + 65536 * f + 16 * (x.sigCount % 4096)
  let s := s.setFrond f { x with sigRing := (x.sigRing ++ [e]).drop (x.sigRing.length - 4095), sigCount := x.sigCount + 1 }
  if s.svc.svcArea.1 < s.svc.svcArea.2 then s.hbmWrite a e.bytes else s

/-- A step's signature is complete: it joins the stripe's and, on a live stripe, the step ring (R450, R451). -/
def State.signStep (s : State) (f : Nat) (live : Bool) : State :=
  let t := s.taskOf f live
  if s.fixedOrder t.ctx then
    let s := if live then s.ringStep f { task := t.taskNo, step := t.stepIndex, sig := t.stepSig, ctx := t.ctx, frame := t.frame, stripe := t.stripe } else s
    s.modTask f live (fun t => { t with stripeSig := t.stripeSig + t.stepSig, stepSig := 0 })
  else s

/-! ### Comparison (R452 to R454) -/

/-- Two records that name the same stripe or step. -/
def lsMatch (a b : LsRecord) : Bool :=
  decide (a.ctx = b.ctx) && decide (a.frond = b.frond) && decide (a.frame = b.frame) && decide (a.stripe = b.stripe)
    && (decide (a.stripe ≠ 0xFFFF) || decide (a.step = b.step))

/-- KIND of a divergence of an own record and the partner's; none when they agree (R453). -/
def divergence (own peer : LsRecord) : Option (BitVec 2) :=
  if own.notRun then (if peer.notRun then none else some 2)
  else if peer.notRun then some 1
  else if own.sig = peer.sig then none else some 0

/-- The steps of a live stripe that frond f's ring holds, none once the stripe's first step has left it (R453). -/
def Frond.heldSteps (x : Frond) (c : Nat) (frame : W32) (stripe : Nat) : List Nat :=
  let l := (x.sigRing.filter (fun e => decide (e.ctx = c) && decide (e.frame = frame) && decide (e.stripe = stripe))).map StepSig.step
  if l.contains 0 then l else []

/-- STEP of a KIND 0 divergence of a live stripe: a step that the own ring still holds, which one is found with the partner's ring, that this device does
not hold: a free choice w (log 26). 0x3FF once a ring no longer holds the stripe, or at step 1,023 and later (R453). -/
def Frond.divStep (x : Frond) (own : LsRecord) (w : Nat) : Nat :=
  let l := x.heldSteps own.ctx.toNat own.frame own.stripe.toNat
  min 0x3FF (l.getD (w % (l.length + 1)) 0x3FF)

/-- A divergence: counted; the first since DIVERGED was cleared is recorded, fires the ladle at 20 µs where LADLE is set on both devices, and signals
(R453, R454). The partner's LADLE is not known here: a free choice (log 26). -/
def State.diverge (s : State) (kind : BitVec 2) (own peer : LsRecord) : State :=
  let s := { s with ls := { s.ls with count := satAdd s.ls.count 1 } }
  if s.ls.diverged then s
  else
    let (w, s) := s.draw
    let (both, s) := s.draw
    let step : BitVec 10 :=
      if own.stripe = 0xFFFF then BitVec.ofNat 10 (min own.step.toNat 0x3FF)
      else if kind = 0 then BitVec.ofNat 10 ((s.frond own.frond.toNat).divStep own w.toNat) else 0x3FF
    let s := { s with
      ls := { s.ls with
        diverged := true, divCtx := own.ctx, divKind := kind, divFrond := own.frond, divFrame := own.frame, divStripe := own.stripe,
        divStep := step, divDtb := s.dtb, own := own.sig, peer := peer.sig } }
    let s := if s.ls.ladle && bitOf both 0 && s.ldl.srcLockstep then s.ladleFire 6 false true else s
    if s.ls.irqEn then s.msix s.ls.vec else s

/-- Two matching records compared. -/
def State.compare (s : State) (own peer : LsRecord) : State :=
  match divergence own peer with
  | none => s
  | some k => s.diverge k own peer

/-- A record of this device: sent to the partner and compared with the partner's, or kept until that arrives (R452). Comparisons go on up to the stripe
boundary that ends them (R455). -/
def State.lsSend (s : State) (r : LsRecord) : State :=
  if s.ls.paired then
    match s.ls.received.find? (fun q => lsMatch q r) with
    | some q => State.compare { s with ls := { s.ls with received := s.ls.received.filter (fun p => !lsMatch p r) } } r q
    | none => { s with ls := { s.ls with sent := s.ls.sent ++ [r] } }
  else s

/-- The record of a frond's stripe. -/
def stripeRecord (c f : Nat) (frame : W32) (stripe : Nat) (notRun : Bool) (sig : W64) : LsRecord :=
  { ctx := BitVec.ofNat 14 c, frond := BitVec.ofNat 8 f, frame := frame, stripe := BitVec.ofNat 16 stripe, step := 0, notRun := notRun, sig := sig }

/-- NOT_RUN records of a stripe that the device gives up, for every frond of the set that has not ended it (R452). -/
def State.lsNotRun (s : State) (c : Nat) (frame : W32) (stripe : Nat) : State :=
  let ended := ((s.frameRun c frame).map FrameRun.ended).getD []
  if s.fixedOrder c then
    ((s.setOf c).filter (fun f => !ended.contains (f, stripe))).foldl (fun s f => s.lsSend (stripeRecord c f frame stripe true 0)) s
  else s

/-- The link of the pair is up, and is no ring, which carries no record (R459, R462). -/
def State.lsLinkUp (s : State) : Bool :=
  let k := s.ls.link.toNat
  (s.link k).up && !(s.link k).isRing k

/-- LS_RECORD_ARRIVAL: the partner's record is compared with our own, or waits for it. Nothing arrives over a link that has failed (R459). -/
def execLsRecordArrival (r : LsRecord) (now : W64) (s : State) : Host.Outcome State Fault Refusal :=
  unlessInert s fun s =>
    let s := s.at_ now
    if !s.ls.paired || !s.lsLinkUp then s
    else
      match s.ls.sent.find? (fun q => lsMatch q r) with
      | some q => State.compare { s with ls := { s.ls with sent := s.ls.sent.filter (fun p => !lsMatch p r) } } q r
      | none => { s with ls := { s.ls with received := s.ls.received ++ [r] } }

/-- PARTNER_LOST: a record waited 100 ms; its comparison is abandoned (R452). -/
def execPartnerLost (r : LsRecord) (s : State) : Host.Outcome State Fault Refusal :=
  unlessInert s fun s =>
    if s.ls.sent.any (fun q => lsMatch q r) then
      { s with ls := { s.ls with sent := s.ls.sent.filter (fun q => !lsMatch q r), partnerLost := true } }
    else s

/-- A stripe ends: comparisons that EN = 0 asked to end are over, and a pairing held meanwhile begins (R455, R489). -/
def State.lsBoundary (s : State) : State :=
  if s.ls.stopping then { s with ls := { s.ls with busy := s.ls.en, stopping := false, paired := false, sent := [], received := [] } } else s

/-- With no live stripe running, the next stripe boundary is already here (log 26). -/
def State.lsSettle (s : State) : State := if (List.range 256).any (fun f => (s.frond f).live.isSome) then s else s.lsBoundary

/-- A write of LS_CTL (R455): LINK is ignored while EN or BUSY is 1; EN starts the pairing, and ends it at the next stripe boundary. An EN written
while that end is awaited is held (R489). -/
def State.lsCtlWrite (s : State) (v : W32) : State :=
  let en := bitOf v 0
  let l := s.ls
  let link := BitVec.ofNat 2 (fieldOf v 2 1)
  let l := if l.en || l.busy then l else { l with link := link }
  let l := { l with ladle := bitOf v 3, irqEn := bitOf v 4, vec := BitVec.ofNat 9 (fieldOf v 13 5) }
  if en = l.en then { s with ls := l }
  else State.lsSettle { s with ls := { l with en := en, busy := true, stopping := l.stopping || !en } }

/-- LS_ENABLE: a write of LS_CTL. -/
def execLsEnable (value : W32) (s : State) : Host.Outcome State Fault Refusal :=
  unlessInert s fun s => s.lsCtlWrite value

/-- LS_PARTNER_PAIRED: the partner has paired over the link of the pair (R455). -/
def execLsPartnerPaired (s : State) : Host.Outcome State Fault Refusal :=
  unlessInert s fun s =>
    if s.ls.en && s.ls.busy && !s.ls.stopping && s.lsLinkUp then { s with ls := { s.ls with paired := true, busy := false } } else s

end Sys2Proof.Machine
end

