-- ==== Sys2Proof/Machine/Dma.lean ====
section
/-! DEFINITION. The movement of a frond DMA transfer by rows (R252, R263 to R271). -/

namespace Sys2Proof.Machine

/-! ### Movement -/

/-- What stopped a transfer's movement. -/
inductive XferStop where
  | none
  /-- The tag of a row, by its number. -/
  | tag (row : Nat)
  | page (p : Nat)
  | credit
  | fault (code : BitVec 16)
deriving DecidableEq, Repr

def State.setDma (s : State) (f id : Nat) (g : DmaXfer → DmaXfer) : State :=
  let x := s.frond f
  s.setFrond f { x with dma := x.dma.map (fun d => if d.id = id then g d else d) }

def Frond.dmaOf (x : Frond) (id : Nat) : Option DmaXfer := x.dma.find? (fun d => decide (d.id = id))

/-- Cached accesses are for simmer work only (R146). -/
def DmaXfer.cached (d : DmaXfer) : Bool := d.desc.cached && !d.live

/-- Pieces of HBM read through the frond's cache. -/
def State.piecesRead (s : State) (f : Nat) (l : List (Nat × Nat)) : List Byte × State :=
  l.foldl (fun (acc : List Byte × State) q => let r := acc.2.frondHbmRead f true q.1 q.2; (acc.1 ++ r.1, r.2)) ([], s)

/-- Bytes written to pieces of HBM through the frond's cache, with their mark (R285). -/
def State.piecesWrite (s : State) (f : Nat) (l : List (Nat × Nat)) (bytes : List Byte) (bad : Bool) : State :=
  let s := (l.foldl (fun (acc : State × List Byte) q =>
    let s := acc.1.frondHbmWrite f true q.1 (acc.2.take q.2)
    (if bad then s.poisonHbm q.1 q.2 else s, acc.2.drop q.2)) (s, bytes)).1
  if bad then s else s.clearCovered .hbm l

/-- One row of a UNICAST transfer moved, or what stops it. -/
def State.dmaRow (s : State) (f : Nat) (d : DmaXfer) (k : Nat) : XferStop × State :=
  let x := s.frond f
  let t := s.taskOf f d.live
  let sp := d.desc.farSpace
  match x.xferRow t d d.isIn k with
  | none => (.fault stXferBad, s)
  | some (p, reg) =>
    match s.walkAbsent sp d.desc.walk (512 * k) 512 (!d.isIn) with
    | some pg => (.page pg, s)
    | none =>
      if !x.reachable p then (.fault stTspGated, s)
      else if reg.isSome && (x.isFull p == d.isIn) then (.tag p.key, s)
      else if d.isIn then
        let (l, bad) := s.walkRead sp d.desc.walk (512 * k) 512
        let (l, s) := if d.cached && decide (sp = .hbm) then s.piecesRead f (d.desc.walk.pieces (512 * k) 512) else (l, s)
        let s := (s.rowWrite f p 0 l).markRow f p (bad || d.poisoned)
        let s := s.modTask f d.live (fun t => { t with step := { t.step with wroteRows := insertNat p.key t.step.wroteRows } })
        (.none, if reg.isSome then s.fillRow f d.live d.ctx p reg true else s)
      else
        let bad := s.rowPoisoned f p || d.poisoned
        let (l, s) := s.rowRead f p 0 512
        let s := match reg with
          | some (c, row) => s.noteRead f d.live d.ctx c row
          | none => s
        let s := if d.cached && decide (sp = .hbm) then s.piecesWrite f (d.desc.walk.pieces (512 * k) 512) l bad
          else s.walkWrite sp d.desc.walk (512 * k) l bad
        let s := s.sign f d.live (walkSum (s.served sp) d.desc.walk (512 * k) l bad)
        (.none, if bad && decide (sp = .host) then s.modTask f d.live (fun t => { t with hostPoison := true }) else s)

/-- Every member of a group that has not been evicted for the task holds a credit (R252). -/
def McastGroup.hasCredit (g : McastGroup) (task : BitVec 16) : Bool :=
  (bitsOf g.members).all (fun m => g.evicted.contains (task, m) || decide (g.spent.get m 0 < 4))

/-- One credit of each member that has not been evicted for the task is consumed. -/
def McastGroup.spend (g : McastGroup) (task : BitVec 16) : McastGroup :=
  { g with spent := ((bitsOf g.members).filter (fun m => !g.evicted.contains (task, m))).foldl (fun t m => t.modify m 0 (· + 1)) g.spent }

/-- One row of a MULTICAST transfer sent to every member (R251, R252). -/
def State.mcastRow (s : State) (f : Nat) (d : DmaXfer) (k : Nat) : XferStop × State :=
  let sp := d.desc.farSpace
  let g := s.group d.desc.group.toNat
  match s.walkAbsent sp d.desc.walk (512 * k) 512 false with
  | some pg => (.page pg, s)
  | none =>
    let task := (s.taskOf f d.live).taskNo
    if !g.hasCredit task then (.credit, s)
    else
      let (l, bad) := s.walkRead sp d.desc.walk (512 * k) 512
      let s := s.setGroup d.desc.group.toNat (g.spend task)
      let x := s.frond f
      let out : List NetAccess := (bitsOf g.members).map (fun m =>
        { dst := m, win := d.desc.win.toNat, gen := d.desc.gen, roff := d.desc.localRow.toNat + k, rows := 1, write := true,
          data := [l], lrow := 0, poisoned := bad || d.poisoned, group := some (d.desc.group.toNat, d.id), cmd := d.index, live := d.live })
      (.none, s.setFrond f { x with netOut := x.netOut ++ out })

/-- A transfer moves as far as it can: to its end, or to what stops it at its cursor (R267, R268, R270). The chunks of a rhizome transfer enter the
chain one by one (R266); here it only meets a page that is absent. -/
def State.dmaMove (s : State) (f id : Nat) : XferStop × State :=
  match (s.frond f).dmaOf id with
  | none => (.none, s)
  | some d =>
    if d.desc.kind = 2 then
      match (if d.sent < d.total then s.walkAbsent d.desc.farSpace d.desc.walk d.sent 2048 false else none) with
      | some p => (.page p, (s.setDma f id (fun e => { e with page := some p })).requestPage p)
      | none => (.none, if d.page = none then s else s.setDma f id (fun e => { e with page := none }))
    else
      let start := (if d.desc.kind = 1 then d.sent else d.done) / 512
      let r := (List.range (d.total / 512 - start)).foldl (fun (acc : XferStop × State) i =>
        match acc.1 with
        | .none =>
          let q := if d.desc.kind = 1 then acc.2.mcastRow f d (start + i) else acc.2.dmaRow f d (start + i)
          if q.1 = .none then
            (.none, q.2.setDma f id (fun e =>
              if d.desc.kind = 1 then { e with sent := 512 * (start + i + 1) } else { e with done := 512 * (start + i + 1) }))
          else q
        | _ => acc) (.none, s)
      match r.1 with
      | .page p => (r.1, (r.2.setDma f id (fun e => { e with page := some p })).requestPage p)
      | _ => (r.1, r.2.setDma f id (fun e => { e with page := none }))

/-- A transfer is finished: every row delivered, and for a group every member's copy answered. -/
def Frond.dmaDone (x : Frond) (d : DmaXfer) : Bool :=
  if d.desc.kind = 1 then
    decide (d.sent = d.total) && x.netOut.all (fun a => decide (a.group ≠ some (d.desc.group.toNat, d.id)))
  else decide (d.done = d.total)

end Sys2Proof.Machine
end

