-- ==== Sys2Proof/Machine/Tasks.lean ====
section
/-! DEFINITION. Tasks: dispatch and its stages (R105), task starts, scratchpad rows of simmer work, stripe checkpoints (R415) and what a
frond gives up with a task. -/

namespace Sys2Proof.Machine

/-! ### Fault records (R111) -/

/-- A fault enters the frond's fault record, or sets OVERRUN while one is held. -/
def State.recordFault (s : State) (f : Nat) (code : BitVec 16) (phase queue index variant : Nat) : State :=
  let x := s.frond f
  if x.faultValid then s.setFrond f { x with faultOverrun := true }
  else s.setFrond f
    { x with
      faultValid := true, faultCode := code, faultPhase := BitVec.ofNat 2 phase, faultQueue := BitVec.ofNat 4 queue,
      faultIndex := BitVec.ofNat 16 index, faultVariant := BitVec.ofNat 6 variant, faultDtb := s.dtb }

/-- The context is under the BV6 policy (R282). -/
def State.bv6 (s : State) (c : Nat) : Bool := bitOf (s.ctx c).mode 1

/-! ### Stages 1 to 3 of dispatch (R105) -/

/-- KIND of the variants: 0 NORMAL, 1 ROW, 2 LITE, 3 LITE_ROW. -/
def kindOf (lite row : Bool) : BitVec 2 := BitVec.ofNat 2 (2 * b2n lite + b2n row)

/-- The bucket of dimension d: the one BUCKET_FIX selects when the extent fits it, else the smallest at or above the extent. -/
def pickBucket (t : TaskImage) (fix : BitVec 16) (exts : List (BitVec 16)) (d : Nat) : Option Nat :=
  let sizes := (t.sizesOf d).map BitVec.toNat
  let ext := (exts.getD d 0).toNat
  let b := fieldOf fix (4 * d + 3) (4 * d)
  if b ≠ 0 ∧ ((sizes[b - 1]?).map (fun z => decide (ext ≤ z))).getD false then some (b - 1)
  else sizes.findIdx? (fun z => decide (ext ≤ z))

/-- The variant entry of a kind for actual extents, or the dispatch fault. -/
def selectVariant (t : TaskImage) (fix : BitVec 16) (kind : BitVec 2) (exts : List (BitVec 16)) : Except (BitVec 16) Nat :=
  match allSome ((List.range t.ndyn.toNat).map (fun d => pickBucket t fix exts d)) with
  | none => .error stShapeOver
  | some bs =>
    match t.variants.findIdx? (fun v => decide (v.kind = kind) && bs.zipIdx.all (fun p => decide (v.bucket p.2 = p.1))) with
    | none => .error stVariantMissing
    | some i => .ok i

/-- HBM bytes of a bound image from an offset. -/
def State.imageRead (s : State) (b : Bound) (off n : Nat) : List Byte := s.hbmRead (b.addr.toNat + off) n

/-- Some frond of the set is on its row-mode fall-back. -/
def State.anyRow (s : State) (c : Nat) : Bool := (s.setOf c).any (fun f => (s.frond f).rowOnly)

/-- Words of the halo buffer that an image of context c may use on every frond of a set: for live work the SE_BYTES it declares, for simmer work what
the live streams leave (R73, log 27). -/
def State.seRoom (s : State) (c : Nat) (t : TaskImage) (mask : BitVec 256) : Nat :=
  if liveCtx c then min 65536 (t.seBytes.toNat / 4) else ((bitsOf mask).map (fun f => (262144 - s.seDeclared f) / 4)).foldl min 65536

/-- What the image check of context c on a set goes by; a live context's work always runs on fronds that carry live streams. -/
def State.checkFor (s : State) (c : Nat) (t : TaskImage) (mask : BitVec 256) : CheckFor :=
  { live := liveCtx c, divided := liveCtx c || (bitsOf mask).any s.divided, halo := s.seRoom c t mask }

/-- Stage 4, once an image and set: the fault and its command index, if the check fails (R106). -/
def State.imageFault (s : State) (c : Nat) (b : Bound) : Option (BitVec 16 × Nat) :=
  if (s.ctx c).checked then none else checkImage b.image (s.checkFor c b.image b.mask) (s.imageRead b)

/-! ### Starting a task (R88, R138, R280) -/

/-- Task number m is later than r (R280). -/
def laterTask (m r : BitVec 16) : Bool := decide (1 ≤ (m - r).toNat) && decide ((m - r).toNat ≤ 32767)

/-- The next task number of a frond set. -/
def State.nextTask (s : State) (mask : BitVec 256) : BitVec 16 × State :=
  let n := ((s.lsch.taskNos.find? (fun p => decide (p.1 = mask))).map Prod.snd).getD 0 + 1
  (n, { s with lsch := { s.lsch with taskNos := (mask, n) :: s.lsch.taskNos.filter (fun p => decide (p.1 ≠ mask)) } })

/-- A task boundary of a frond: an accepted CACHE_STEPS value applies and every line is invalidated (R144). -/
def State.taskBoundary (s : State) (f : Nat) : State :=
  let x := s.frond f
  if x.cachePending then s.setFrond f { x with cacheActive := x.cacheSteps, cache := [], cachePending := false } else s

/-- Held increments of a share that carry a task's number (R280). -/
def State.heldFor (s : State) (f : Nat) (live : Bool) (taskNo : BitVec 16) : List HeldInc :=
  (s.frond f).heldIncs.filter (fun h => semShare (s.divided f) live h.sem.toNat && decide (h.task = taskNo))

/-- The semaphores of a task's share are zeroed; of the held increments the later ones stay, those of the task's number go to the task
(`State.startTask`), and earlier ones are dropped (R280). -/
def State.startSems (s : State) (f : Nat) (live : Bool) (taskNo : BitVec 16) : State :=
  let x := s.frond f
  let d := s.divided f
  let stay := x.heldIncs.filter (fun h => !semShare d live h.sem.toNat || laterTask h.task taskNo)
  let x := { x with sems := ⟨x.sems.cells.filter (fun c => !semShare d live c.1)⟩, heldIncs := stay }
  let x := if live then { x with liveTask := taskNo } else { x with simTask := taskNo }
  (s.setFrond f x).count (cntFrond f 13) ((s.frond f).heldIncs.length - (s.heldFor f live taskNo).length - stay.length)

/-- The step save of a step that begins now (Table 04.6). -/
def Frond.saveStep (x : Frond) (t : Task) (index : Nat) : StepSave :=
  { cursors := t.cursors, sems := x.sems, ptmHalf := x.ptmHalf, ptmBuilt := x.ptmBuilt, startIndex := index,
    tails := (x.regions.get t.ctx []).map Region.tail, counts := t.counts, chainBlocks := t.chainBlocks }

/-- A task enters its share of frond f: slot table, regions' starting points, semaphores and position state (R88, R138, R200);
its domain's clock runs (R528). ROW0 and H_EXT keep the 13 bits of their fields, and what reads them goes by those (DESIGN CHOICE, log 131). -/
def State.beginTask (s : State) (f : Nat) (t : Task) (row0 hExt : Nat) : State :=
  let s := (((s.wake (f / 8)).meter f).taskBoundary f).startSems f t.live t.taskNo
  let x := s.frond f
  let set := s.setOf t.ctx
  let t := { t with starts := (x.regions.get t.ctx []).map (fun g : Region => (g.head, g.tail)) }
  let t := { t with step := x.saveStep t 0, committed := true }
  let x := { x with
    slotTable := t.image.slot, row0 := BitVec.ofNat 13 row0, hExt := BitVec.ofNat 13 hExt,
    rank := BitVec.ofNat 8 (set.idxOf f), ranks := BitVec.ofNat 9 set.length }
  s.setFrond f (if t.live then { x with live := some t } else { x with simmer := some t })

/-! ### Scratchpad rows of simmer work (R127, R129) -/

/-- Rows that cache mode holds from 8,192 down: those in effect, and those that an accepted write claims for the next task boundary (R144). -/
def Frond.cacheRows (x : Frond) : Nat := 512 * max x.cacheActive.toNat x.cacheSteps.toNat

/-- Runs of rows of a frond that are taken: pins, working areas, cache mode, and segments that are off. -/
def Frond.takenRuns (x : Frond) : List (Nat × Nat) :=
  (((List.range 8).map (fun n => x.pins.get n {})).filter Pin.used).map (fun p => (p.base, p.rows))
    ++ x.areas.map (fun a => (a.base, a.rows)) ++ [(8192 - x.cacheRows, x.cacheRows)]
    ++ ((List.range 16).filter (fun n => !x.segOn n)).map (fun n => (512 * n, 512))

/-- Free physical rows in ascending order: outside pins, working areas, cache mode and segments that are off. -/
def Frond.freeRows (x : Frond) : List Nat :=
  let l := x.takenRuns
  (List.range 8192).filter (fun r => l.all (fun p => decide (r < p.1) || decide (p.1 + p.2 ≤ r)))

/-- The rows' contents are undefined and their tags empty from here on (R129). -/
def Frond.forgetRows (x : Frond) (l : List Nat) : Frond :=
  { x with
    tsp := l.foldl (fun m r => m.forget (512 * r) (512 * r + 512)) x.tsp
    full := x.full.filter (fun r => !l.contains r)
    poisonRows := x.poisonRows.filter (fun r => !l.contains r)
    epoch := x.epoch + 1 }

/-- Rows whose contents are undefined from here on, their tags as they are (R129). -/
def Frond.blurRows (x : Frond) (l : List Nat) : Frond := { x.forgetRows l with full := x.full }

/-- A simmer task starts on frond f with undefined rows and buffer bytes (R73, R129). At the first dispatch of its image its working rows are
chosen (R127) and its regions are reset (R137, R140); at a later one rows, regions and tags are as the last left them. -/
def State.placeSimmer (s : State) (f : Nat) (c : Nat) (t : TaskImage) : State :=
  let x := s.frond f
  let lo := seBase false c
  let x := { x with
    se := x.se.forget lo (lo + 262144)
    poisonLines := x.poisonLines.filter (fun l => decide (32 * l < lo)) }
  if x.regionOwners.contains c then s.setFrond f (x.blurRows (x.simRows.filter (fun r => decide (r < 8192))))
  else
    let free := x.freeRows
    let rows := (List.range t.tRows).map (fun i => free.getD i 8192)
    let x := x.forgetRows (rows.filter (fun r => decide (r < 8192)))
    s.setFrond f { x with
      simRows := rows, spillFull := []
      regions := x.regions.set c (t.circs.map (fun r => { base := r.baseRow.toNat, rows := r.size, head := 0, tail := 0 }))
      regionOwners := x.regionOwners ++ [c] }

/-- Hardware regions that a frond's contexts hold (R137). -/
def Frond.regionCount (x : Frond) : Nat := (x.regionOwners.map (fun c => (x.regions.get c []).length)).sum

/-- The regions of a context are free again. -/
def State.freeRegions (s : State) (f c : Nat) : State :=
  let x := s.frond f
  s.setFrond f { x with regions := ⟨x.regions.cells.filter (fun p => decide (p.1 ≠ c))⟩, regionOwners := x.regionOwners.filter (fun d => decide (d ≠ c)) }

/-! ### Frames of a live stream -/

def State.modFrame (s : State) (c : Nat) (frame : W32) (g : FrameRun → FrameRun) : State :=
  let st := s.stream c
  s.setStream c { st with frames := st.frames.map (fun r => if r.frame = frame then g r else r) }

/-! ### Stripe checkpoints (R415 to R417) -/

/-- Task rows of a context's regions that are full, in ring order from each region's head. -/
def Frond.fullRows (x : Frond) (t : Task) : List Nat :=
  (x.regions.get t.ctx []).flatMap (fun g =>
    ((List.range g.rows).map (fun i => g.base + (g.head + i) % g.rows)).filter (fun r => ((x.place t r).map x.isFull).getD false))

/-- The bytes that the rows hold now, those that hold a value, row i of the list at 512 × i. -/
def Frond.saveRows (x : Frond) (t : Task) (rows : List Nat) : Mem :=
  rows.zipIdx.foldl (fun m p =>
    match x.place t p.1 with
    | some (.phys r) => (x.tsp.cells.filter (fun c => decide (512 * r ≤ c.1) && decide (c.1 < 512 * r + 512))).foldl
        (fun m c => m.set (512 * p.2 + (c.1 - 512 * r)) c.2) m
    | _ => m) {}

/-- Task rows of a list that carry a poison mark. -/
def Frond.badRowsOf (x : Frond) (t : Task) (rows : List Nat) : List Nat :=
  rows.filter (fun r => match x.place t r with
    | some (.phys q) => x.poisonRows.contains q
    | _ => false)

/-- Frond f writes checkpoint `point` of a live context into its slot of both copies (R412, R415); rows beyond C_ROWS are not saved and counted (R417). -/
def State.stripeCkpt (s : State) (f c : Nat) (frame : W32) (point : Nat) (taskNo : BitVec 16) : State :=
  match (s.ctx c).bound with
  | none => s
  | some b =>
    let x := s.frond f
    let t : Task := { ctx := c, live := true, image := b.image }
    let rows := x.fullRows t
    let n := ckptRows b.image
    let lo := seBase true c
    let k : Ckpt :=
      { ctx := c, frame := frame, point := point, task := taskNo,
        se := ⟨x.se.cells.filter (fun p => decide (lo ≤ p.1) && decide (p.1 < lo + 262144))⟩,
        rows := rows.take n, data := x.saveRows t (rows.take n), regions := (x.regions.get c []).map (fun g : Region => (g.head, g.tail)),
        full := rows.take n, stats := ((s.frameRun c frame).map (fun r => r.parts.get f {})).getD {}, cursors := {}, sems := {}, windows := {}, ptmBuild := none, heldIncs := [], stepIndex := 0,
        overRows := decide (n < rows.length), badRows := x.badRowsOf t (rows.take n)
        badLines := x.poisonLines.filter (fun l => decide (lo ≤ 32 * l) && decide (32 * l < lo + 262144))
        slot := stripeSlot b (s.stream c).ckptAt (b.fronds.idxOf f) point, len := 8192 + b.image.seBytes.toNat + 512 * (rows.take n).length }
    let s := (s.setFrond f { x with stripeCk := x.stripeCk.set (2 * c + point % 2) (some k) }).sporeWrite k.slot
      (x.ckptImage f t k false lo b.image.seBytes.toNat (rows.take n))
    if n < rows.length then State.count { s with lsch := { s.lsch with ckptOverSeen := true } } (cntFrond f 14) 1 else s

/-- The newest stripe checkpoint of a stream on a frond. -/
def Frond.newestCkpt (x : Frond) (c : Nat) : Option Ckpt :=
  match x.stripeCk.get (2 * c) none, x.stripeCk.get (2 * c + 1) none with
  | some a, some b => if frameLt a.frame b.frame || (decide (a.frame = b.frame) && decide (a.point < b.point)) then some b else some a
  | some a, none => some a
  | none, b => b

/-- The valid checkpoint of stripe `point` (R420). -/
def Frond.stripeCkptOf (x : Frond) (c point : Nat) : Option Ckpt :=
  (x.stripeCk.get (2 * c + point % 2) none).bind (fun k => if k.ctx = c ∧ k.point = point then some k else none)

/-! ### Ending a task's share of a frond -/

/-- INFO0 of a frond failure (Table 15.7). -/
def frondInfo (f : Nat) (col cause : BitVec 4) : W32 := BitVec.ofNat 32 (f + put col.toNat 8 + put cause.toNat 12)

/-- The event of a frond's failure, and the share of the contexts that it affects (R395, R441). -/
def State.failedEvent (s : State) (ctxs : List Nat) (e : Nat × BitVec 4 × BitVec 4) : State :=
  (s.devEvent stFrondFailed (frondInfo e.1 e.2.1 e.2.2) 0).ctxFaults ctxs stFrondFailed (frondInfo e.1 e.2.1 e.2.2)

/-- A repair completes: its failures are reported and counted, and the interruption is known (R430, R441). -/
def State.repairDone (s : State) (r : Repair) : State :=
  let s := r.failed.foldl (fun s e => s.failedEvent r.ctxs e) s
  if r.failed.isEmpty ∧ r.fenced.isEmpty then { s with lsch := { s.lsch with repair := none } }
  else { s with lsch := { s.lsch with
      repair := none, lastUs := BitVec.ofNat 16 (min 0xFFFF ((s.dtb.toNat - r.start.toNat) / 1000)), repairs := satAdd s.lsch.repairs 1 } }

/-- A replayed stripe of frond f ends or is given up: the repair completes with the last of them (R430). -/
def State.replayEnded (s : State) (f c : Nat) : State :=
  match s.lsch.repair with
  | none => s
  | some r =>
    if r.phase = .replaying ∧ r.waiting.contains (f, c) then
      let w := r.waiting.filter (fun p => decide (p ≠ (f, c)))
      if w.isEmpty then s.repairDone r else { s with lsch := { s.lsch with repair := some { r with waiting := w } } }
    else s

/-- Tiles that queued drains and combine sends hold (R63). -/
def Task.queuedTiles (t : Task) : List Nat :=
  ((t.queues.get 1 []) ++ (t.queues.get 5 [])).filterMap (fun q => match q.cmd with
    | .vuDrain .. => some q.tile
    | .nwWrite _ _ o => if o.win.toNat < 12 then none else some q.tile
    | _ => none)

/-- Transfers of frond f are given up, and with them their chunks in the chain of its die (R283). -/
def State.dropXfers (s : State) (f : Nat) (gone : DmaXfer → Bool) : State :=
  let x := s.frond f
  let mine := ((x.dma.filter gone).filter (fun d => decide (d.desc.kind = 2))).map DmaXfer.id
  let s := s.setFrond f { x with dma := x.dma.filter (fun d => !gone d) }
  let drop (l : List Chunk) : List Chunk := l.filter (fun c => !(decide (c.src = f) && mine.contains c.xfer))
  (if mine.isEmpty then [] else (List.range 64).map (fun i => f / 64 * 64 + i)).foldl (fun s g =>
    let y := s.frond g
    if drop y.chain = y.chain ∧ drop y.passing = y.passing then s else s.setFrond g { y with chain := drop y.chain, passing := drop y.passing }) s

/-- Credits that rows on their way to a group hold, of members that the task has not evicted, return: the rows are given up with their task and no
engine will write them (R252, R283). -/
def State.returnCredits (s : State) (task : BitVec 16) (l : List NetAccess) : State :=
  l.foldl (fun s a => match a.group with
    | none => s
    | some (g, _) =>
      let q := s.group g
      if q.evicted.contains (task, a.dst) then s else s.setGroup g { q with spent := q.spent.modify a.dst 0 (· - 1) }) s

/-- The frond gives up what a task held: tiles return to FREE, the windows it opened close, and its transfers, accesses and partials are gone
(R64, R240, R283). -/
def State.clearShare (s : State) (f : Nat) (live : Bool) : State :=
  let s := (s.meter f).dropXfers f (fun d => d.live == live)
  let x := s.frond f
  let t := s.taskOf f live
  let tiles := (List.range 8).filterMap (fun h => t.handles.get h none) ++ (x.partials.filter (fun p => p.live == live)).map OutPartial.tile
    ++ t.queuedTiles ++ t.loose
  let wins := (List.range 16).filter (fun w => ((x.windows.get w {}).live == live)
    && ((x.windows.get w {}).isOpen || (x.combines.get w {}).delivered))
  let x := { x with
    tiles := tiles.foldl (fun u i => u.set i {}) x.tiles
    windows := wins.foldl (fun u w => u.modify w {} (fun v => { v with isOpen := false, arrived := 0 })) x.windows
    combines := wins.foldl (fun u w => u.set w {}) x.combines
    partials := x.partials.filter (fun p => p.live != live)
    netOut := x.netOut.filter (fun a => a.live != live)
    live := if live then none else x.live
    simmer := if live then x.simmer else none }
  let s := (s.returnCredits t.taskNo ((s.frond f).netOut.filter (fun a => a.live == live))).setFrond f x
  if live then s.replayEnded f t.ctx else s

/-- Credits and evictions of a context's groups as a restored task starts with them: four a member (Table 15.5). -/
def State.resetGroups (s : State) (c : Nat) : State :=
  { s with lsch := { s.lsch with groups :=
      ⟨s.lsch.groups.cells.map (fun p => if p.2.valid && decide (p.2.ctx.toNat = c) then (p.1, { p.2 with spent := {}, due := {}, evicted := [] }) else p)⟩ } }

/-- The evictions of a context's task are over with it (R253). -/
def State.endEvictions (s : State) (c : Nat) (task : BitVec 16) : State :=
  { s with lsch := { s.lsch with groups :=
      ⟨s.lsch.groups.cells.map (fun p => if p.2.valid && decide (p.2.ctx.toNat = c) then (p.1, { p.2 with evicted := p.2.evicted.filter (fun e => decide (e.1 ≠ task)) }) else p)⟩ } }

end Sys2Proof.Machine
end

