-- ==== Sys2Proof/Machine/Binding.lean ====
section
/-! DEFINITION. What binding a task image holds and gives back: pinned regions (R126, R128), multicast groups (R250), and a live stream's
working area, circular regions and checkpoint slots (R126, R127, R129, R140, R414). -/

namespace Sys2Proof.Machine

/-! ### Pinned regions -/

/-- n rows from row b on are free of the runs taken. -/
def runFree (taken : List (Nat × Nat)) (n b : Nat) : Bool :=
  decide (b + n ≤ 8192) && taken.all (fun r => decide (r.2 = 0) || decide (b + n ≤ r.1) || decide (r.1 + r.2 ≤ b))

/-- The lowest free run of n rows. -/
def lowestRun (taken : List (Nat × Nat)) (n : Nat) : Option Nat := (List.range 8193).find? (fun b => runFree taken n b)

/-- The run of n rows, clear of the runs taken, that the supervisor takes: where it likes, as long as one is free (R126, log 11). -/
def freeRun (taken : List (Nat × Nat)) (n : Nat) : Option Nat :=
  let b := Config.placeRows taken n
  if runFree taken n b then some b else lowestRun taken n

/-- A run of n free rows of a frond (R126). -/
def Frond.findRun (x : Frond) (n : Nat) : Option Nat := freeRun x.takenRuns n

/-- The run that a pinned region takes: one that no resident simmer job uses, while there is one (DESIGN CHOICE, log 140). -/
def Frond.pinRun (x : Frond) (n : Nat) : Option Nat := (freeRun (x.takenRuns ++ x.simRows.map (fun r => (r, 1))) n).orElse (fun _ => x.findRun n)

/-- The pin that context c would use for package pkg on a frond: a shared one with SHARED_PIN, else its own. -/
def Frond.pinSlot (x : Frond) (pkg : W64) (c : Nat) (shared : Bool) : Option Nat :=
  (List.range 8).find? (fun n => let p := x.pins.get n {}
    p.used && decide (p.pkg = pkg) && (p.shared == shared) && (shared || decide (p.ctx = c)))

/-- The pin that an image of context c would take on a frond that does not hold it: its number, and the pin, or nothing left of either (R126). -/
def Frond.newPin (x : Frond) (c : Nat) (b : Bound) : Option (Nat × Pin) :=
  match (List.range 8).find? (fun n => !(x.pins.get n {}).used), x.pinRun b.image.pRows with
  | some n, some base => some (n, { used := true, pkg := b.image.pkgId, ctx := c, shared := b.sharedPin, base := base, rows := b.image.pRows })
  | _, _ => none

/-- The frond needs no new pin for an image of context c: the image pins nothing, or the frond holds its rows (R126, R128). -/
def Frond.pinned (x : Frond) (c : Nat) (b : Bound) : Bool := decide (b.image.pBytes = 0) || (x.pinSlot b.image.pkgId c b.sharedPin).isSome

/-- Every frond of an image's mask has its pin already, or a free one of its eight and the rows (R126). -/
def State.pinsFit (s : State) (c : Nat) (b : Bound) : Bool :=
  b.fronds.all (fun f => (s.frond f).pinned c b || ((s.frond f).newPin c b).isSome)

/-- The image of the simmer work resident on frond f: of its task, or between two instances of the job whose regions it holds. -/
def State.residentImage (s : State) (f : Nat) : Option TaskImage :=
  let x := s.frond f
  (x.simmer.map Task.image).orElse (fun _ => (x.regionOwners.find? (fun d => !liveCtx d)).bind (fun d => (s.ctx d).bound.map Bound.image))

/-- Rows that a resident simmer job held and that are given to another move to the spill region, tags and marks with them (R127). -/
def State.spillRows (s : State) (f lo n : Nat) : State :=
  match s.residentImage f with
  | none => s
  | some t =>
    let p := t.pRows
    (s.frond f).simRows.zipIdx.foldl (fun s q =>
      if lo ≤ q.1 ∧ q.1 < lo + n then
        let (l, s) := s.rowRead f (.phys q.1) 0 512
        let s := s.hbmWrite ((s.frond f).spillAddr (p + q.2)) l
        let s := s.markRow f (.spill (p + q.2)) (s.rowPoisoned f (.phys q.1))
        let y := s.frond f
        s.setFrond f (({ y with simRows := y.simRows.set q.2 8192 } : Frond).setTag (.spill (p + q.2)) (y.isFull (.phys q.1)))
      else s) s

/-- The pinned rows of a package loaded on frond f, unless the frond holds them already (R128). Rows of a resident simmer job that the region takes are
spilled at once, between two commands of the job (DESIGN CHOICE, log 140). -/
def State.pinOn (s : State) (f c : Nat) (b : Bound) : State :=
  if (s.frond f).pinned c b then s
  else
    match (s.frond f).newPin c b with
    | some (n, p) =>
      let s := s.spillRows f p.base p.rows
      let x := (s.frond f).forgetRows ((List.range p.rows).map (fun i => p.base + i))
      let bad := (List.range p.rows).filter (fun i => s.hbmPoisoned (b.pinned.toNat + 512 * i) 512)
      s.setFrond f { x with
        pins := x.pins.set n p
        tsp := x.tsp.write (512 * p.base) (s.hbmRead b.pinned.toNat (512 * p.rows))
        poisonRows := bad.foldl (fun l i => insertNat (p.base + i) l) x.poisonRows }
    | none => s

/-- Loads the pinned rows of an image on its whole set. -/
def State.pinAll (s : State) (c : Nat) (b : Bound) : State := b.fronds.foldl (fun s f => s.pinOn f c b) s

/-- The bound images of all contexts, with those that wait to be bound. -/
def State.bounds (s : State) : List (Nat × Bound) :=
  s.ctxs.cells.filterMap (fun p => p.2.bound.map (fun b => (p.1, b)))
    ++ s.lsch.streams.cells.filterMap (fun p => p.2.bindWait.map (fun w => (p.1, w.bound)))

/-- A pin that no bound context uses any more (R128). -/
def pinIdle (l : List (Nat × Bound)) (f : Nat) (p : Pin) : Bool :=
  p.used && !l.any (fun q => q.2.mask.getLsbD f && decide (q.2.image.pkgId = p.pkg) && (q.2.sharedPin == p.shared)
    && (p.shared || decide (q.1 = p.ctx)))

/-- The supervisor releases the pins of frond f that no bound context uses. -/
def State.releasePins (s : State) (f : Nat) : State :=
  let x := s.frond f
  let l := s.bounds
  if (List.range 8).any (fun n => pinIdle l f (x.pins.get n {})) then
    s.setFrond f { x with pins := (List.range 8).foldl (fun t n => if pinIdle l f (t.get n {}) then t.set n {} else t) x.pins }
  else s

/-! ### Multicast groups -/

/-- Groups that no context holds. -/
def State.spareGroups (s : State) : List Nat := (List.range 256).filter (fun g => !(s.group g).valid)

/-- The device has free groups for all that a package declares. -/
def State.groupsFit (s : State) (t : TaskImage) : Bool := decide ((Config.packageGroups t.pkgId).length ≤ s.spareGroups.length)

/-- Free groups allocated to a context, the lowest numbers first, with the package's ranks mapped to logical fronds (R250). -/
def State.takeGroups (s : State) (c : Nat) (b : Bound) : List Nat × State :=
  let l := (Config.packageGroups b.image.pkgId).zip s.spareGroups
  (l.map Prod.snd, l.foldl (fun s p =>
    s.setGroup p.2 { valid := true, ctx := BitVec.ofNat 14 c,
                     members := maskOf 256 ((bitsOf p.1).filterMap (fun k => b.fronds[k]?)) }) s)

/-- The groups of a context, but those listed, are free. -/
def State.dropGroups (s : State) (c : Nat) (keep : List Nat) : State :=
  { s with lsch := { s.lsch with groups :=
      ⟨s.lsch.groups.cells.filter (fun p => decide (p.2.ctx.toNat ≠ c) || keep.contains p.1)⟩ } }

/-! ### Working areas -/

/-- Working areas packed one by one, each into the lowest run that is left beside the runs taken. -/
def packAreas (taken : List (Nat × Nat)) : List WorkArea → List WorkArea → Option (List WorkArea)
  | [], done => some done
  | a :: r, done =>
    match lowestRun (taken ++ done.map (fun b => (b.base, b.rows))) a.rows with
    | none => none
    | some b => packAreas taken r (done ++ [{ a with base := b }])

/-- The working areas of a frond as a compaction leaves them: in the order of their rows, pins where they are (R126). -/
def Frond.packed (x : Frond) : Option (List WorkArea) :=
  packAreas ({ x with areas := [] } : Frond).takenRuns (x.areas.mergeSort (fun a b => decide (a.base ≤ b.base))) []

/-- The rows of an area. -/
def WorkArea.list (a : WorkArea) : List Nat := (List.range a.rows).map (fun i => a.base + i)

/-- Working areas moved to other rows, with their contents, tags and marks; rows of simmer work that they cover are spilled. -/
def State.moveAreas (s : State) (f : Nat) (l : List WorkArea) : State :=
  let x := s.frond f
  let old := x.areas
  let s := (l.filter (fun a => !old.contains a)).foldl (fun s a => s.spillRows f a.base a.rows) s
  let y := (s.frond f).forgetRows ((old ++ l).flatMap WorkArea.list)
  let moves := l.flatMap (fun a => (old.filter (fun b => decide (b.ctx = a.ctx))).flatMap (fun b => b.list.zip a.list))
  s.setFrond f (moves.foldl (fun (y : Frond) p =>
    { y with
      tsp := y.tsp.write (512 * p.2) (readBytes (x.tspByte f) (512 * p.1) 512)
      full := if x.full.contains p.1 then insertNat p.2 y.full else y.full
      poisonRows := if x.poisonRows.contains p.1 then insertNat p.2 y.poisonRows else y.poisonRows }) { y with areas := l })

/-- The frond stands between stripes, and its simmer work has yielded. -/
def Frond.still (x : Frond) : Bool := x.live.isNone && (x.simmer.map Task.yielded).getD true

/-- A working area of n rows can be placed now: in a free run that no resident simmer job uses, or, with the frond still, after a compaction
or with the job's rows spilled (R126, R127). -/
def Frond.mayPlace (x : Frond) (n : Nat) : Bool :=
  x.still || (match x.findRun n with
    | none => false
    | some b => !x.simRows.any (fun r => decide (b ≤ r) && decide (r < b + n)))

/-- The frond with the pin that an image needs on it. -/
def Frond.withPin (x : Frond) (c : Nat) (b : Bound) : Option Frond :=
  if x.pinned c b then some x else (x.newPin c b).map (fun p => { x with pins := x.pins.set p.1 p.2 })

/-- A frond has room for what stream c's image holds on it, together: its pin beside what is there now, then its working area in place of the one it
may have, once the others are compacted (R126). -/
def Frond.roomFor (x : Frond) (c : Nat) (b : Bound) : Bool :=
  match x.withPin c b with
  | none => false
  | some x =>
    let x := { x with areas := x.areas.filter (fun a => decide (a.ctx ≠ c)) }
    (x.findRun b.image.tRows).isSome
      || (match x.packed with
        | none => false
        | some l => (({ x with areas := l } : Frond).findRun b.image.tRows).isSome)

/-- Every frond of an image's set has the room (R126). -/
def State.roomFits (s : State) (c : Nat) (b : Bound) : Bool := b.fronds.all (fun f => (s.frond f).roomFor c b)

/-- The working area of a stream on frond f, with its contents undefined, its tags empty and its regions at H = T = 0 (R129, R140). With no run
long enough the other areas are compacted first (R126); an area that finds none even so waits on. -/
def State.placeArea (s : State) (f c : Nat) (t : TaskImage) : State :=
  let x := s.frond f
  let x := { x with areas := x.areas.filter (fun a => decide (a.ctx ≠ c)), placeDue := x.placeDue.filter (fun d => decide (d ≠ c)) }
  let s := s.setFrond f x
  let s := match x.findRun t.tRows, x.packed with
    | none, some l => s.moveAreas f l
    | _, _ => s
  match (s.frond f).findRun t.tRows with
  | none => s.setFrond f { s.frond f with placeDue := insertNat c (s.frond f).placeDue }
  | some base =>
    let s := s.spillRows f base t.tRows
    let x := (s.frond f).forgetRows ((List.range t.tRows).map (fun i => base + i))
    let lo := seBase true c
    s.setFrond f { x with
      areas := x.areas ++ [{ ctx := c, base := base, rows := t.tRows }]
      se := x.se.forget lo (lo + 262144)
      poisonLines := x.poisonLines.filter (fun l => !(decide (lo ≤ 32 * l) && decide (32 * l < lo + 262144)))
      regions := x.regions.set c (t.circs.map (fun r => { base := r.baseRow.toNat, rows := r.size, head := 0, tail := 0 }))
      regionOwners := if x.regionOwners.contains c then x.regionOwners else x.regionOwners ++ [c] }

/-- What a live stream holds on a frond is free again: working area, regions and checkpoint slots. -/
def State.freeArea (s : State) (f c : Nat) : State :=
  let s := s.freeRegions f c
  let x := s.frond f
  s.setFrond f { x with
    areas := x.areas.filter (fun a => decide (a.ctx ≠ c))
    placeDue := x.placeDue.filter (fun d => decide (d ≠ c))
    stripeCk := (x.stripeCk.set (2 * c) none).set (2 * c + 1) none }

/-- Spans of the checkpoint pool that the streams of a list hold, those of images that wait to be bound among them: first byte and length (R414). -/
def State.poolSpans (s : State) (l : List Nat) : List (Nat × Nat) :=
  l.flatMap (fun c =>
    ((s.ctx c).bound.map (fun b => ((s.stream c).ckptAt, ckptBytes b))).toList
      ++ ((s.stream c).bindWait.map (fun w => (w.ckptAt, ckptBytes w.bound))).toList)

/-- The lowest place in the pool for n bytes of slots clear of these spans (R414, log 123). -/
def poolGap (spans : List (Nat × Nat)) (n : Nat) : Option Nat :=
  ((0 :: spans.map (fun p => p.1 + p.2)).filter (fun a =>
    decide (a + n ≤ 2 ^ 30) && spans.all (fun p => decide (a + n ≤ p.1) || decide (p.1 + p.2 ≤ a)))).min?

/-- Where the slots of image b go, beside those of the streams of a list. -/
def State.poolPlace (s : State) (l : List Nat) (b : Bound) : Option Nat := poolGap (s.poolSpans l) (ckptBytes b)

/-! ### Binding and unbinding -/

/-- A context's image is bound, in place of one bound before: the old one's groups, and the pins no context uses any more, are given back. -/
def State.bindImage (s : State) (c : Nat) (b : Bound) (groups : List Nat) : State :=
  let old := s.setOf c
  let s := (s.dropGroups c groups).setCtx c { s.ctx c with bound := some b, checked := true }
  old.foldl (fun s f => s.releasePins f) s

/-- A context holds no image any more: groups and regions are freed and pins released (Table 14.5 CTX_CLOSE, R128). -/
def State.unbindImage (s : State) (c : Nat) : State :=
  let old := s.setOf c
  let s := (s.dropGroups c []).setCtx c { s.ctx c with bound := none, checked := false }
  old.foldl (fun s f => (s.freeRegions f c).releasePins f) s

/-- The working area of a stream on frond f, at once, or when the frond is still. -/
def State.takeArea (s : State) (f c : Nat) (t : TaskImage) : State :=
  let x := s.frond f
  if x.mayPlace t.tRows then s.placeArea f c t else s.setFrond f { x with placeDue := insertNat c x.placeDue }

/-- A STREAM_START completes once its stream has every working area (R126, R127). -/
def State.finishStart (s : State) (c : Nat) : State :=
  match (s.stream c).startHdr with
  | none => s
  | some h =>
    if (s.setOf c).any (fun f => (s.frond f).placeDue.contains c) then s
    else (s.setStream c { s.stream c with startHdr := none }).completeWith h opStreamStart stOk (s.ctx c).outFrame 0 0 0

/-- Working areas that waited for frond f to be still are placed. -/
def State.settleAreas (s : State) (f : Nat) : State :=
  let due := (s.frond f).placeDue
  if (s.frond f).still then
    due.foldl (fun s c => match (s.ctx c).bound with
      | none => s
      | some b => (s.placeArea f c b.image).finishStart c) s
  else s

/-- A stream's set takes up its image: pinned rows that gating released, working areas, regions and slots (R126, R129, R131, R140); outside
pass-through its clocks run, and a domain that was at boost runs no faster than live work may from here on (R40, R528). -/
def State.occupy (s : State) (c : Nat) : State :=
  match (s.ctx c).bound with
  | none => s
  | some b =>
    let s := b.fronds.foldl (fun s f => s.takeArea f c b.image) (s.pinAll c b)
    if s.passThrough then s else s.wakeSet b.fronds

/-- The set gives up what the stream held; working areas that waited for the room are placed. -/
def State.vacate (s : State) (c : Nat) : State := (s.setOf c).foldl (fun s f => (s.freeArea f c).settleAreas f) s

/-- A MODEL_BIND that waited takes effect and completes with OK (R390). -/
def State.applyBind (s : State) (c : Nat) (w : BindWait) (running : Bool) : State :=
  let old := (s.ctx c).bound
  let s := if running then s.vacate c else s
  let s := s.setStream c { s.stream c with bindWait := none, ckptAt := w.ckptAt, lite := (s.stream c).lite && decide (w.bound.image.wLite ≠ 0) }
  let s := s.bindImage c w.bound w.groups
  let s := if running then s.occupy c else s
  let s := if running then (match old with
    | some b => if b.mask = w.bound.mask then s else s.reportAdmission b.mask
    | none => s).reportAdmission w.bound.mask else s
  s.complete w.hdr opModelBind stOk

end Sys2Proof.Machine
end

