-- ==== Sys2Proof/Machine/Frames.lean ====
section
/-! DEFINITION. The end of a frame, a stream or a job (R196, R197, R231, R232, R388 to R390), command-layer faults and the two error
policies (R110, R111, R282 to R285). -/

namespace Sys2Proof.Machine

/-! ### Statistics and autorange (R195 to R197) -/

/-- The largest finite value of a format. -/
def maxFinite (code : Nat) : Rat :=
  match fmtOf code with
  | .fp f => ((f.decode f.maxCode).rat?).getD 0
  | .int b true => (2 ^ (b - 1) : Nat) - 1
  | .int b false => (2 ^ b : Nat) - 1
  | _ => pow2 127

/-- Δ of R197 for a finite AMAX: the smallest from -8 to 8 that brings it under the limit. -/
def autoDelta (amax limit : Rat) : Int :=
  let fits := (List.range 17).find? (fun i => decide (amax * pow2 (-((i : Int) - 8)) ≤ limit))
  match fits with
  | some i => (i : Int) - 8
  | none => 8

/-- E_NEXT of a tensor (R197). -/
def nextShift (c : TensorCount) (used : Int) (margin : Nat) : Int :=
  if c.nan || decide (c.amax = 0) then used
  else
    let d := match fp32Rat c.amax with
      | none => 8
      | some q => autoDelta q (maxFinite c.fmt.toNat * pow2 (-(margin : Int)))
    max (-64) (min 63 (used + d))

/-- E_NEXT of each tracked tensor of a frame with these counts (R197). -/
def nextShifts (counts : Tbl TensorCount) (used : List Byte) (margin : Nat) : List (Nat × Byte) :=
  (List.range 64).filterMap (fun t =>
    let c := counts.get t {}
    if c.tracked then some (t, BitVec.ofInt 8 (nextShift c (signed 8 (used.getD t 0).toNat) margin)) else none)

/-- A scale set with some tensors' shifts replaced. -/
def withShifts (l : List Byte) (u : List (Nat × Byte)) : List Byte := u.foldl (fun l p => l.set p.1 p.2) l

/-- The statistics block of Table 07.4. UPDATED marks a shift that autorange changed (log 28). -/
def statsBytes (counts : Tbl TensorCount) (used next : List Byte) : List Byte :=
  (List.range 64).flatMap (fun t =>
    let u := used.getD t 0
    (counts.get t {}).block u (next.getD t u))

/-- The block at the context's STATS address: HBM below 96 GiB, else host memory (log 29). -/
def State.writeStats (s : State) (c : Nat) (l : List Byte) : State :=
  let a := (s.ctx c).stats.toNat
  s.memWrite (decide (hbmBytes ≤ a)) a l

/-- SAT_SUM and UFL_SUM as INFO1 holds them (R196). -/
def statSums (sat ufl : Nat) : W32 := BitVec.ofNat 32 (min sat 0xFFFF + put (min ufl 0xFFFF) 16)

def satSum (t : Tbl TensorCount) : Nat := (t.cells.map (fun c => c.2.sat)).sum
def uflSum (t : Tbl TensorCount) : Nat := (t.cells.map (fun c => c.2.ufl)).sum

/-! ### Frames and their FRAME_SUBMIT (R388 to R390) -/

/-- The last output frame that an input frame governs (R389): OUT_FRAME + ceil((i + 1) × CAD_OUT ÷ CAD_IN) - 1 for input FIRST_IN + i. -/
def Ctx.lastOut (k : Ctx) (input : W32) : W32 :=
  let i := (input - k.firstIn).toNat
  k.outFrame + BitVec.ofNat 32 (((i + 1) * k.cadOut.toNat + k.cadIn.toNat - 1) / k.cadIn.toNat - 1)

/-- The frame job of an input frame. -/
def Ctx.frameJob (k : Ctx) (input : W32) : Option FrameJob := k.frames.find? (fun j => decide (j.frame = input))

def State.modJob (s : State) (c : Nat) (input : W32) (g : FrameJob → FrameJob) : State :=
  let k := s.ctx c
  s.setCtx c { k with frames := k.frames.map (fun j => if j.frame = input then g j else j) }

/-- A frame job ends: its FRAME_SUBMIT, if it has one, completes (R394). -/
def State.endFrameJob (s : State) (c : Nat) (j : FrameJob) (status : BitVec 16) : State :=
  let k := s.ctx c
  let s := s.setCtx c { k with frames := k.frames.filter (fun q => decide (q.frame ≠ j.frame)) }
  match j.hdr with
  | none => s
  | some h => s.completeWith h opFrameSubmit status j.frame (statSums j.sat j.ufl)
      (BitVec.ofNat 32 (min j.held 0xFFFF + put (min j.run 0xFFFF) 16)) (if status = stPoisoned then j.cause else 0)

/-- First raster line that reads a picture line. -/
def FrameRun.reader (r : FrameRun) (line : Nat) : Option Nat := r.readers.getD line none

/-- The picture lines that some raster line reads and whose queue deadline lies ahead; a line that none reads has none (R556). -/
def FrameRun.ahead (r : FrameRun) : List Nat := (List.range r.lines).filter (fun l => (r.reader l).isSome && !r.judged.contains l)

/-- A frame run has nothing left to wait for: its stripes have ended or are given up, and every line it shows has been judged. -/
def FrameRun.finished (r : FrameRun) : Bool := (r.dropped || decide (r.done = r.total)) && r.ahead.isEmpty && r.unrun.isNone

/-- The runs of consecutive held lines, among the lines that are read, that no line ahead can make longer; with `flush` every run (R49). -/
def FrameRun.heldRuns (r : FrameRun) (flush : Bool) : List (List Nat) :=
  let walk := (List.range r.lines).foldl (fun (acc : Bool × List Nat × List (List Nat)) line =>
    if (r.reader line).isNone then acc
    else if r.held.contains line then (acc.1, acc.2.1 ++ [line], acc.2.2)
    else
      let closes := flush || r.judged.contains line
      (!closes, [], if acc.1 || !closes || acc.2.1.isEmpty then acc.2.2 else acc.2.2 ++ [acc.2.1])) (false, [], [])
  if walk.1 || walk.2.1.isEmpty then walk.2.2 else walk.2.2 ++ [walk.2.1]

/-- Mover transfers of a stream's staging are cancelled. -/
def State.cancelStaging (s : State) (c : Nat) : State :=
  let mine (x : Xfer) : Bool := match x.kind with
    | .stage d _ => decide (d = c)
    | _ => false
  (List.range 32).foldl (fun s m =>
    let u := s.mover m
    if (u.pending ++ u.outstanding).any mine then
      s.setMover m { u with pending := u.pending.filter (fun x => !mine x), outstanding := u.outstanding.filter (fun x => !mine x) }
    else s) s

/-- The runs of held lines of a frame that have ended are reported, each once; at the end of the stream all are (R49). -/
def State.reportHeld (s : State) (c : Nat) (frame : W32) (flush : Bool) : State :=
  match s.frameRun c frame with
  | none => s
  | some r =>
    (r.heldRuns flush).foldl (fun s l =>
      let s := s.modFrame c frame (fun q => { q with held := q.held.filter (fun x => !l.contains x) })
      s.ctxEvent c stDeadlineMiss opFrameSubmit frame (BitVec.ofNat 32 (l.headD 0 % 2 ^ 16 + put (l.length % 2 ^ 16) 16)) (BitVec.ofNat 32 (s.outOf c))) s

/-- The NOT_RUN records of a frame that its first release found not staged (R26, R452). -/
def State.sayUnrun (s : State) (c : Nat) (r : FrameRun) : State :=
  if r.unrun.isNone then s
  else ((List.range r.total).foldl (fun s i => s.lsNotRun c r.frame i) s).modFrame c r.frame (fun q => { q with unrun := none })

/-- A stream ends: its stripes stop, open runs of held lines are reported, its FRAME_SUBMITs left unrun complete with `status`, a MODEL_BIND that
waited takes effect, and what it held is free (R36, R327, R390, R399, R414). Shifts that autorange has written and no frame has taken up stay in the
context's scale set (R197). -/
def State.endStream (s : State) (c : Nat) (status : BitVec 16) : State :=
  let k := s.ctx c
  let set := s.setOf c
  let s := set.foldl (fun s f =>
    let x := s.frond f
    let s := s.setFrond f { x with released := x.released.filter (fun j => decide (j.ctx ≠ c)) }
    match x.live with
    | some t => if t.ctx = c then (s.clearShare f true).settleAreas f else s
    | none => s) s
  let s := (s.stream c).frames.foldl (fun s r => (s.reportHeld c r.frame true).sayUnrun c r) s
  let s := (s.stream c).frames.foldl (fun s r =>
    if r.dropped then s else (List.range (r.total - r.done)).foldl (fun s i => s.lsNotRun c r.frame (r.done + i)) s) s
  let s := (s.cancelStaging c).vacate c
  let s := s.finishStart c
  let st := s.stream c
  let s := s.setStream c { srcH := st.srcH, bindWait := st.bindWait, everDone := st.everDone }
  let s := s.setCtx c { s.ctx c with state := .bound, scaleSet := st.autorange.foldl (fun l p => withShifts l p.2) (s.ctx c).scaleSet }
  let s := match k.bound with
    | some b => s.reportAdmission b.mask
    | none => s
  let s := k.frames.foldl (fun s j => s.endFrameJob c j (if status = stStopped ∧ 0 < j.run then j.status else status)) s
  let s := match st.bindWait with
    | some w => s.applyBind c w false
    | none => s
  match st.stopHdr with
  | some h => s.complete h opStreamStop stOk
  | none => s

/-- A stopping stream whose last frame has finished ends (R390). -/
def State.maybeEnd (s : State) (c : Nat) : State :=
  let st := s.stream c
  match st.stopAfter with
  | none => s
  | some l =>
    if (s.ctx c).state = .stopping ∧ frameLt l (s.ctx c).nextOut ∧ st.frames.all (fun r => frameLt l r.frame) then s.endStream c stStopped else s

/-- A FRAME_SUBMIT whose output frames have all finished completes once its own transfers are over (Table 14.5). -/
def State.settleJob (s : State) (c : Nat) (input : W32) : State :=
  match (s.ctx c).frameJob input with
  | some j => if j.finished && j.xfers.isEmpty then s.endFrameJob c j j.status else s
  | none => s

/-- A finished frame leaves the stream: its input's job takes its counts, and completes with the last frame the input governs (R388, R389). -/
def State.retireFrame (s : State) (c : Nat) (r : FrameRun) : State :=
  let st := s.stream c
  let known := ((s.ctx c).frameJob r.input).isSome
  let s := s.setStream c { st with
    frames := st.frames.filter (fun q => decide (q.frame ≠ r.frame))
    unsubmitted := if known then st.unsubmitted else (r.input, r.heldTotal) :: st.unsubmitted }
  let s := match ((s.ctx c).frameJob r.input).bind FrameJob.hdr with
    | some h => if r.dropped then s else s.progress h r.frame.toNat
    | none => s
  let s := s.modJob c r.input (fun j =>
    { j with
      held := j.held + r.heldTotal, run := j.run + b2n (!r.dropped), sat := j.sat + (if r.dropped then 0 else satSum r.stats)
      ufl := j.ufl + (if r.dropped then 0 else uflSum r.stats)
      status := if j.status = stOk ∨ j.status = stPoisoned then (if r.status ≠ stOk then r.status else if r.poisoned then stPoisoned else j.status) else j.status
      cause := if j.cause = 0 then r.cause else j.cause })
  let k := s.ctx c
  if k.lastOut r.input = r.frame then
    let s := if r.dropped then s else s.setCtx c { k with lastDone := r.input }
    ((s.modJob c r.input (fun j => { j with finished := true })).settleJob c r.input).maybeEnd c
  else s.maybeEnd c

/-- A frame that has finished is retired. -/
def State.settleFrame (s : State) (c : Nat) (frame : W32) : State :=
  match s.frameRun c frame with
  | none => s
  | some r => if r.finished then s.retireFrame c r else s

/-- Every stripe of a frame has ended: statistics, and autorange for frame n + 2 (R196, R197). -/
def State.frameDone (s : State) (c : Nat) (frame : W32) : State :=
  match s.frameRun c frame with
  | none => s
  | some r =>
    let k := s.ctx c
    let auto := bitOf k.mode 2
    let next := if auto then nextShifts r.stats r.shifts (fieldOf k.mode 4 3) else []
    let st := s.stream c
    let late := auto && ((st.lastRun.map (fun l => frameLe (frame + 2) l)).getD false || st.frames.any (fun q => frameLe (frame + 2) q.frame && !q.dropped))
    let s := s.writeStats c (statsBytes r.stats r.shifts (if late then r.shifts else withShifts r.shifts next))
    let s := s.setStream c { s.stream c with everDone := true }
    let s := if !auto then s
      else if late then s.count (cntLsch 2) 1
      else s.setStream c { s.stream c with autorange := (s.stream c).autorange ++ [(frame + 2, next)] }
    s.settleFrame c frame

/-! ### Native abort of a frame (R283) -/

/-- Stops the live task of a context on frond f, if it runs frame `frame`. -/
def State.stopLive (s : State) (f c : Nat) (frame : W32) : State :=
  let x := s.frond f
  let s := s.setFrond f { x with released := x.released.filter (fun j => !(decide (j.ctx = c) && decide (j.frame = frame))) }
  match x.live with
  | some t => if t.ctx = c ∧ t.frame = frame then (s.clearShare f true).settleAreas f else s
  | none => s

/-- A frame is given up: no further stripe of it is released or runs, its lines not yet queued are held, and its status is the fault's.
The next frame starts from the state as it stands, checkpoint 0 included; the state that REC_SWAP exchanged goes back (R398, log 30). -/
def State.abortFrame (s : State) (c : Nat) (frame : W32) (status : BitVec 16) : State :=
  match s.frameRun c frame with
  | none => s
  | some r =>
    if r.dropped then s
    else
      let s := s.modFrame c frame (fun r => { r with dropped := true, status := status })
      let s := (s.setOf c).foldl (fun s f => s.stopLive f c frame) s
      let s := (s.setOf c).foldl (fun s f => s.stripeCkpt f c (frame + 1) 0 (s.frond f).liveTask) s
      let k := s.ctx c
      let s := if bitOf k.mode 5 && decide (0 < r.released) && decide (status ≠ stPoisoned) then s.setCtx c { k with recSwapped := !k.recSwapped } else s
      let s := (List.range (r.total - r.done)).foldl (fun s i => s.lsNotRun c frame (r.done + i)) s
      s.settleFrame c frame

/-- A frame that a frond's loss ends: it aborts with the fault, or under the BV6 policy is POISONED with it, the recurrent state as written; the
lines that the lost frond leaves are held (R282, R438, log 39). -/
def State.loseFrame (s : State) (c : Nat) (frame : W32) (code : BitVec 16) : State :=
  if s.bv6 c then (s.modFrame c frame (fun r => { r with cause := if r.cause = 0 then code else r.cause })).abortFrame c frame stPoisoned
  else s.abortFrame c frame code

/-! ### Simmer jobs (R231, R232) -/

/-- A job with the parts of its ended fronds joined to it. -/
def Job.joined (j : Job) : Job :=
  j.parts.cells.foldl (fun (j : Job) p =>
    { j with stats := mergeCounts j.stats p.2.stats, status := if p.2.bad then stPoisoned else j.status, cause := if j.cause = 0 then p.2.cause else j.cause })
    { j with parts := {} }

/-- The entry of a job's pointer list for its present instance: ADDR and extents; without a list, the job's own extents (Table 09.2, R231). -/
def State.jobEntry (s : State) (j : Job) : W64 × List (BitVec 16) :=
  if j.body.listEn then
    let l := s.memRead j.body.listHost (j.body.list.toNat + 16 * j.inst) 16
    (BitVec.ofNat 64 (leAt l 0 8), (List.range 4).map (fun d => BitVec.ofNat 16 (leAt l (8 + 2 * d) 2)))
  else (0, [j.body.ext0, j.body.ext1, j.body.ext2, j.body.ext3])

/-- Instances of a job: the list's entries, or one without a list. -/
def Job.instances (j : Job) : Nat := if j.body.listEn then j.body.count.toNat else 1

/-- Steps that begin in a command list from command `first` up to END. -/
def State.stepsFrom (s : State) (listAddr cmdCount first : Nat) : Nat :=
  let l := (List.range (cmdCount - first)).filterMap (fun i => decodeCmd 0 0 (cmdAt s.hbmRead listAddr (first + i)))
  let n := (l.findIdx? (fun c => match c with
    | .end_ _ _ _ => true
    | _ => false)).getD l.length
  ((l.take (n + 1)).filter (fun c => (cmdHdr c).sb)).length

/-- Steps of a simmer task that have not committed: the one in progress, and those that begin from the command at the head up to END. -/
def State.stepsLeft (s : State) (t : Task) : Nat :=
  let first := if t.committed then t.cmdIndex else max t.cmdIndex (t.step.startIndex + 1)
  b2n (!t.committed) + s.stepsFrom t.listAddr t.cmdCount first

/-- NOT_RUN records of n steps of an instance on frond f, from step `first` on (R452). -/
def State.lsSteps (s : State) (c f inst first n : Nat) : State :=
  (List.range n).foldl (fun s i => s.lsSend
    { ctx := BitVec.ofNat 14 c, frond := BitVec.ofNat 8 f, frame := BitVec.ofNat 32 inst, stripe := 0xFFFF, step := BitVec.ofNat 16 (first + i),
      notRun := true, sig := 0 }) s

/-- NOT_RUN records of the steps that a simmer task of frond f gives up (R452). -/
def State.lsStepsNotRun (s : State) (f : Nat) (t : Task) : State :=
  if s.fixedOrder t.ctx then s.lsSteps t.ctx f (((s.ctx t.ctx).job.map Job.inst).getD 0) t.stepIndex (s.stepsLeft t) else s

/-- Steps of an instance of a job that has not begun; one whose list names no variant has none (log 26). -/
def State.instanceSteps (s : State) (c : Nat) (j : Job) : Nat :=
  match (s.ctx c).bound with
  | none => 0
  | some b =>
    match selectVariant b.image (s.ctx c).bucketFix (kindOf false (s.anyRow c)) (s.jobEntry j).2 with
    | .error _ => 0
    | .ok i => match b.image.variants[i]? with
      | none => 0
      | some v => s.stepsFrom (b.addr.toNat + v.cmdOff.toNat) v.cmdCount.toNat 0

/-- NOT_RUN records of the instances of a job that its end leaves unrun (R452). -/
def State.lsInstancesNotRun (s : State) (c : Nat) (j : Job) : State :=
  let first := j.inst + b2n j.started
  if s.fixedOrder c then
    (List.range (j.instances - first)).foldl (fun s i =>
      let n := s.instanceSteps c { j with inst := first + i }
      (s.setOf c).foldl (fun s f => s.lsSteps c f (first + i) 0 n) s) s
  else s

/-- A job ends: its tasks are gone, its groups and regions free, the caches of its fronds invalidated (R146), and JOB_RUN completes. -/
def State.completeJob (s : State) (c : Nat) (status : BitVec 16) (failed : Option Nat) : State :=
  match (s.ctx c).job.map Job.joined with
  | none => s
  | some j =>
    let s := s.lsInstancesNotRun c j
    let s := (s.setOf c).foldl (fun s f =>
      let x := s.frond f
      let s := match x.simmer with
        | some t => if t.ctx = c then (s.lsStepsNotRun f t).clearShare f false else s
        | none => s
      let x := s.frond f
      (((s.setFrond f { x with cache := [], simRows := [], spillFull := [] }).freeRegions f c).taskBoundary f).settleAreas f) s
    let s := s.dropGroups c []
    let ok := decide (status = stOk) || decide (status = stPoisoned)
    let s := if ok then s.writeStats c (statsBytes j.stats (s.ctx c).scaleSet (s.ctx c).scaleSet) else s
    let s := s.setCtx c { s.ctx c with job := none }
    s.completeWith j.hdr opJobRun status (match failed with
      | some i => BitVec.ofNat 32 i
      | none => j.body.count) (statSums (satSum j.stats) (uflSum j.stats)) 0 (if status = stPoisoned then j.cause else 0)

/-- A job that a frond's loss ends: with the fault, or under the BV6 policy POISONED with it (R282, R438, log 39). -/
def State.loseJob (s : State) (c : Nat) (code : BitVec 16) (failed : Nat) : State :=
  match (s.ctx c).job with
  | none => s
  | some j =>
    if s.bv6 c then
      (s.setCtx c { s.ctx c with job := some { j with cause := if j.cause = 0 then code else j.cause } }).completeJob c stPoisoned (some failed)
    else s.completeJob c code (some failed)

/-- Every frond has ended the instance: the next one may be dispatched, or the job completes (R231). -/
def State.instanceDone (s : State) (c : Nat) : State :=
  match (s.ctx c).job.map Job.joined with
  | none => s
  | some j =>
    let s := (s.setCtx c { s.ctx c with job := some j }).endEvictions c j.taskNo
    let s := s.progress j.hdr j.inst
    if j.inst + 1 < j.instances then s.setCtx c { s.ctx c with job := some { j with inst := j.inst + 1, ended := [], started := false, replay := {} } }
    else s.completeJob c (if j.status = stPoisoned then stPoisoned else stOk) none

/-! ### Faults of a running task (R110, R282 to R285) -/

/-- Marks what one access would write as poisoned, turning a tagged row full that the access would have filled (R284). -/
def State.poisonAccess (s : State) (f : Nat) (live : Bool) (a : Access) : State :=
  if a.masked then s
  else if a.halo then s.spoilLines f (seLines a.off a.len)
  else
    match a.place with
    | none => s
    | some p =>
      let s := s.spoilRow f p
      match a.region with
      | none => s
      | some r => if 480 < a.off + a.len && !(s.frond f).isFull p then s.fillRow f live (s.taskOf f live).ctx p (some r) true else s

/-- A skipped command of a failed step: its cursors advance, its tagged reads count for the head advance, and every row, line and VU output
it would write is poisoned (R284). -/
def State.poisonOutputs (s : State) (f : Nat) (live : Bool) (c : Instr) : State :=
  let t := s.taskOf f live
  let u := usesOf t.pats c
  let s := u.reads.foldl (fun s q =>
    match (s.taskOf f live).pattern q.1 with
    | none => s
    | some p =>
      let c := (s.taskOf f live).cursor q.1
      let s := (List.range q.2).foldl (fun s i =>
        let a := (s.frond f).access (s.taskOf f live) p ((c + i) % p.total) false
        match a.region with
        | some (r, row) => if a.masked then s else s.noteRead f live (s.taskOf f live).ctx r row
        | none => s) s
      s.bumpCursor f live q.1 q.2 p.total) s
  let s := u.writes.foldl (fun s q =>
    match (s.taskOf f live).pattern q.1 with
    | none => s
    | some p =>
      let c := (s.taskOf f live).cursor q.1
      let s := (List.range q.2).foldl (fun s i =>
        s.poisonAccess f live ((s.frond f).access (s.taskOf f live) p ((c + i) % p.total) true)) s
      s.bumpCursor f live q.1 q.2 p.total) s
  let x := s.frond f
  let keys := u.regWrites ++ (match c with
    | .vuTload _ _ _ tbl => [16 + tbl.toNat]
    | .ptmBuild _ _ _ group count => (List.range (4 * count.toNat)).map (fun j => 32 + 32 * b2n (!x.ptmHalf) + group.toNat + j)
    | _ => [])
  s.setFrond f (x.markVu keys true)

/-- Rows and lines that the commands of a failed step have written: undefined and poisoned (R284). -/
def State.spoilWrites (s : State) (f : Nat) (live : Bool) : State :=
  let t := s.taskOf f live
  let s := t.step.wroteRows.foldl (fun s k => s.spoilRow f (placeOfKey k)) s
  (s.spoilLines f t.step.wroteLines).modTask f live (fun t => { t with step := { t.step with wroteRows := [], wroteLines := [] } })

/-- A state of an entry by its number. -/
def entState (n : Fin 6) : EntState := [.finite, .ovfPos, .ovfNeg, .infPos, .infNeg, .nan].getD n.val .finite

/-- A tile that a failed step's handle names: poisoned, its entries undefined (R284). -/
def State.spoilTile (s : State) (f i : Nat) : State :=
  let entry (j : Nat) : Entry := let e := Config.freeEntry s.fresh j; { bits := e.1, st := entState e.2 }
  let x := s.frond f
  { s.setFrond f (x.setTile i { (x.tile i).fill entry with poisoned := true }) with fresh := s.fresh + 1 }

/-- The tiles of the handles that a failed step bound, and the partials it has sent from them, are poisoned (R284). -/
def State.spoilHandles (s : State) (f : Nat) (live : Bool) : State :=
  let s := ((List.range 8).filterMap (fun h => (s.taskOf f live).handles.get h none)).foldl (fun s i => s.spoilTile f i) s
  let x := s.frond f
  s.setFrond f { x with partials := x.partials.map (fun p => if p.live = live then { p with poisoned := true } else p) }

/-- A step fails under the BV6 policy: its handles are poisoned and unbound, it completes poisoned and the task runs on (R110, R284). The tiles are FREE
once the commands issued before the fault have completed. -/
def State.failStep (s : State) (f : Nat) (live : Bool) (code : BitVec 16) : State :=
  ((s.spoilWrites f live).spoilHandles f live).modTask f live (fun t =>
    { t with
      skipping := true, poisoned := true, firstFault := if t.firstFault = 0 then code else t.firstFault
      handles := {}, loose := t.loose ++ (List.range 8).filterMap (fun h => t.handles.get h none) })

/-- A status of the command layer (Table 04.7). -/
def commandLayer (code : BitVec 16) : Bool := decide (code.toNat / 4096 = 2)

/-- A task is to end with a fault under the native policy: it issues nothing more, the command that faulted is gone, and the others issued before it
complete (R110). A fault of another layer stops the task's transfers at once (R283). -/
def State.endWith (s : State) (f : Nat) (live : Bool) (code : BitVec 16) (index : Nat) : State :=
  (s.dropXfers f (fun d => (d.live == live) && (decide (d.index = index) || !commandLayer code))).modTask f live (fun t =>
    { t with
      ending := some (t.ending.getD code), fed := [], granted := false
      queues := (List.range 7).foldl (fun q i =>
        q.modify i [] (fun l => l.filter (fun e => !((overlapping i && !commandLayer code) || decide (e.index = index))))) t.queues })

/-- A task whose issued commands are over ends with its fault: the frame is given up, or the job completes. -/
def State.finishEnding (s : State) (f : Nat) (live : Bool) (code : BitVec 16) : State :=
  let t := s.taskOf f live
  if live then s.abortFrame t.ctx t.frame code
  else s.completeJob t.ctx code (match (s.ctx t.ctx).job with
    | some j => if j.body.listEn then some j.inst else some 0
    | none => none)

/-- A fault of the task of frond f, by the command of an index, ends in the context's error policy (Table 10.5). -/
def State.policy (s : State) (f : Nat) (live : Bool) (code : BitVec 16) (index : Nat) : State :=
  if s.bv6 (s.taskOf f live).ctx then s.failStep f live code else s.endWith f live code index

/-- A fault of a command, recorded (R111) and given to the policy. -/
def State.taskFault (s : State) (f : Nat) (live : Bool) (code : BitVec 16) (phase queue index : Nat) : State :=
  (s.recordFault f code phase queue index (s.taskOf f live).variant).policy f live code index

/-! ### Increments of semaphores (R75 to R77) -/

/-- n added to a semaphore of frond f by a command of an engine and index; above 65,535 it stays there and the task that owns it faults with
SEM_OVERFLOW. -/
def State.addSem (s : State) (f sem n engine index : Nat) : State :=
  let x := s.frond f
  let v := (x.sems.get sem 0).toNat
  let s := s.setFrond f { x with sems := x.sems.set sem (BitVec.ofNat 16 (min 65535 (v + n))) }
  if 65535 < v + n then
    let live := semShare (s.divided f) true sem && x.live.isSome
    if live || x.simmer.isSome then s.taskFault f live stSemOverflow 2 engine index else s
  else s

/-- A task starts on frond f, and the increments held for its number apply (R280). An increment of another frond belongs to no command of the task: a
fault of one is recorded for the sequencer, at the command next to issue (DESIGN CHOICE, log 134). -/
def State.startTask (s : State) (f : Nat) (t : Task) (row0 hExt : Nat) : State :=
  (s.heldFor f t.live t.taskNo).foldl (fun s h => s.addSem f h.sem.toNat h.count.toNat 8 0) (s.beginTask f t row0 hExt)

end Sys2Proof.Machine
end

