-- ==== Sys2Proof/Machine/Network.lean ====
section
/-! DEFINITION. What the DMA, network and fill/copy engines and the sequencer do for a command: transfers (R262 to R266), remote accesses and
windows (R237 to R243), kept chunks (R81, R255), waits and signals (R75, R98). -/

namespace Sys2Proof.Machine

/-! ### Transfers -/

/-- A far-side write range meets one of a task that is stopped for a repair or under replay, or of a job whose instance is to run again: the write waits
(R435). The replayed task's own writes (`own`: its context and number) do not wait for it. -/
def State.overReplay (s : State) (own : Option (Nat × BitVec 16)) (sp : Space) (w : Walk) : Bool :=
  let hits (l : List (Space × Walk)) : Bool := l.any (fun p => decide (p.1 = sp) && p.2.overlaps w)
  (List.range 256).any (fun g =>
    let x := s.frond g
    let meetsTask (t : Task) : Bool := decide (own ≠ some (t.ctx, t.taskNo)) && hits ((if t.stopped then t.wrote else []) ++ t.replayWrites)
    ((x.live.map meetsTask).getD false) || ((x.simmer.map meetsTask).getD false))
  || s.ctxs.cells.any (fun p => (p.2.job.map (fun j => !j.started && j.replay.cells.any (fun q => hits q.2))).getD false)

/-- Rows that an outbound command of this index delivered in an earlier run of the step (Table 04.6). -/
def Task.deliveredRows (t : Task) (index : Nat) : Nat := ((t.step.delivered.find? (fun p => decide (p.1 = index))).map Prod.snd).getD 0

/-- The descriptor in the first 64 bytes of a task row, and the row's poison mark (R262). -/
def readDescriptor (f : Nat) (live : Bool) (row : Nat) : Op (List Byte × Bool) := do
  let s ← get
  match (s.frond f).place (s.taskOf f live) row with
  | none => faultWith stPatternRange 2
  | some p =>
    need ((s.frond f).reachable p) (.fault stTspGated 2)
    let (l, s) := s.rowRead f p 0 64
    set s
    return (l, s.rowPoisoned f p)

/-- The transfer that a command started in an earlier run of its step and that goes on: one that delivers to a group or to the chain (R267). -/
def State.goesOn (s : State) (f : Nat) (live : Bool) (index : Nat) : Option DmaXfer :=
  (s.frond f).dma.find? (fun d => (d.live == live) && decide (d.index = index) && decide (d.desc.kind ≠ 0))

/-- A transfer of the engine and share stands at an access that a tag blocks, which holds back every later access of the engine (R117). -/
def State.laneBlocked (s : State) (f : Nat) (isIn live : Bool) : Bool :=
  ((s.frond f).dma.filter (fun d => d.isIn == isIn && d.live == live && !(s.frond f).dmaDone d)).any (fun d => match (s.dmaMove f d.id).1 with
    | .tag _ => true
    | _ => false)

/-- DMA_IN and DMA_OUT: the transfer of the descriptor in row TD_ROW starts and moves as far as it can. At most six are outstanding (R79), and none starts
behind one that a tag blocks (R117). Nothing is
delivered twice: in a re-run a transfer to a group or the chain goes on, and one that had finished is over (R267). -/
def dmaStart (f : Nat) (live : Bool) (isIn : Bool) (index : Nat) (row : Nat) : Op AfterDone := do
  let s ← get
  match s.goesOn f live index with
  | some d => return .dma d.id
  | none =>
  need (!s.laneBlocked f isIn live) (.wait .other)
  need (decide (((s.frond f).dma.filter (fun d => d.isIn == isIn)).length < 6)) (.wait .other)
  let (l, bad) ← readDescriptor f live row
  let s ← get
  let t := s.taskOf f live
  match (parseXfer l).bind (s.resolve t) with
  | none => faultWith stXferBad 2
  | some e =>
    let x := s.frond f
    let n := e.walk.total
    let rows := t.deliveredRows index
    let d : DmaXfer :=
      { id := x.nextXfer, isIn := isIn, index := index, desc := e, ctx := t.ctx, live := live, done := min n (512 * rows), sent := 0, total := n,
        page := none, starts := t.starts, poisoned := bad }
    let d := if e.kind ≠ 0 ∧ 0 < rows then { d with done := n, sent := n } else d
    let g := s.group e.group.toNat
    let reach := match e.farSpace with
      | .remote dev => s.reaches dev
      | _ => true
    need reach (.fault stLinkFailed 2)
    need (s.xferOk f t isIn d && s.remoteServes e.farSpace e.walk && (decide (e.kind ≠ 1) || (g.valid && decide (g.ctx.toNat = t.ctx)))) (.fault stXferBad 2)
    need (isIn || !s.overReplay (some (t.ctx, t.taskNo)) e.farSpace e.walk) (.wait .other)
    let s := s.setFrond f { x with dma := x.dma ++ [d], nextXfer := x.nextXfer + 1 }
    let s := if isIn then s else s.modTask f live (fun t => { t with wrote := (e.farSpace, e.walk) :: t.wrote })
    match s.dmaMove f d.id with
    | (.fault code, _) => faultWith code 2
    | (_, s) => set s
    return .dma d.id

/-! ### Remote windows -/

/-- Rows of the task read for an outgoing access: bytes and poison. -/
def readRows (f : Nat) (live : Bool) (row n : Nat) : Op (List (List Byte) × Bool) :=
  (List.range n).foldlM (fun (acc : List (List Byte) × Bool) i => do
    let s ← get
    match (s.frond f).place (s.taskOf f live) (row + i) with
    | none => faultWith stPatternRange 2
    | some p =>
      need ((s.frond f).reachable p) (.fault stTspGated 2)
      let (l, s) := s.rowRead f p 0 512
      set s
      return (acc.1 ++ [l], acc.2 || s.rowPoisoned f p)) ([], false)

/-- NW_READ and a plain NW_WRITE: one access leaves for the window's owner (R239). Rows already delivered are not sent again. -/
def nwSend (f : Nat) (live : Bool) (write : Bool) (index : Nat) (o : NwOp) : Op AfterDone := do
  let s ← get
  let t := s.taskOf f live
  let n := o.rows.toNat
  if o.rows = 0 ∨ (write ∧ n ≤ t.deliveredRows index) then return .net index
  let (data, bad) ← if write then readRows f live o.lrow.toNat n else pure ([], false)
  let s ← get
  let x := s.frond f
  let a : NetAccess :=
    { dst := o.frond.toNat, win := o.win.toNat, gen := o.gen, roff := o.roff.toNat, rows := n, write := write, data := data,
      lrow := o.lrow.toNat, poisoned := bad, group := none, cmd := index, live := live }
  set (s.setFrond f { x with netOut := x.netOut ++ [a] })
  return .net index

/-- Issue of a combine NW_WRITE: its handle, bound in the step, is unbound (R242, R243). -/
def combineIssue (f : Nat) (live : Bool) (o : NwOp) : Op Nat := do
  let i ← stepTile f live o.lrow.toNat
  modify (fun s => s.unbind f live o.lrow.toNat)
  return i

/-- The partial that a command began to send in an earlier run of its step (R249). -/
def State.partialOf (s : State) (f : Nat) (live : Bool) (index : Nat) : Option OutPartial :=
  (s.frond f).partials.find? (fun p => p.held && (p.live == live) && decide (p.cmd = index))

/-- A combine NW_WRITE: a READY tile becomes a partial that waits for the receiver's grant (R243, R246, R247). A partial delivered in an
earlier run of the step is not sent again, and one whose sending had begun goes on from the new tile (R249). -/
def combineSend (f : Nat) (live : Bool) (index : Nat) (o : NwOp) (i : Nat) : Op AfterDone := do
  let s ← get
  let x := s.frond f
  let u := x.tile i
  need (decide (u.state = .ready)) (.wait .other)
  let t := s.taskOf f live
  if 0 < t.deliveredRows index then
    modify (fun s => s.freeTile f i)
    return .net index
  if (s.partialOf f live index).isSome then
    let x := x.setTile i { u with state := .drain }
    set (s.setFrond f { x with partials := x.partials.map (fun (p : OutPartial) =>
      if p.held ∧ p.live = live ∧ p.cmd = index then { p with held := false, tile := i } else p) })
    return .net index
  let exact := s.fixedOrder t.ctx
  let p : OutPartial :=
    { recv := o.frond.toNat, win := o.win.toNat, gen := o.gen, b64 := u.b64 || !exact,
      entries := ⟨(List.range 2048).map (fun j => (j, (u.entry j).partial u.b64 exact))⟩, poisoned := u.poisoned, cmd := index, tile := i,
      live := live, requested := false }
  set (s.setFrond f ({ x with partials := x.partials ++ [p] }.setTile i { u with state := .drain }))
  return .net index

/-- WIN_OPEN on a plain window (R238): the same window again changes nothing, else it is replaced. -/
def winOpenPlain (f : Nat) (live : Bool) (win : Nat) (base rows : BitVec 13) (gen : BitVec 16) : Op AfterDone := do
  modify (fun s =>
    let x := s.frond f
    s.setFrond f { x with windows := x.windows.set win { base := base, rows := rows, gen := gen, isOpen := true, arrived := 0, live := live } })
  return .nothing

/-- A combine window whose partials have all been added, on a tile whose LAST pass has completed, adds its accumulator into the tile and
closes; the tile is READY (R244, R246 to R248). Entries that enter an OVF state count (R174). The accumulator is kept until the step commits (R249). -/
def State.deliverCombine (s : State) (f i : Nat) : State :=
  let x := s.frond f
  let u := x.tile i
  match u.combine with
  | none => s.readyTile f i
  | some w =>
    let win := x.windows.get w {}
    let acc := x.combines.get w {}
    if u.lastDone && decide (acc.count = win.rows.toNat) && decide (0 < acc.count) then
      let out := (List.range 2048).map (fun j => Entry.absorb (u.entry j) (acc.entries.get j {}) u.b64 acc.exact)
      let ovf := ((List.range 2048).filter (fun j => newOvf (u.entry j) (out.getD j ({}, false)).1)).length
      let v := { u.fill (fun j => (out.getD j ({}, false)).1) with combine := none, poisoned := u.poisoned || acc.poisoned }
      let x := { x.setTile i v with
        windows := x.windows.set w { win with isOpen := false }, combines := x.combines.set w { acc with delivered := true } }
      (((s.setFrond f x).count (cntFrond f 10) (out.filter (fun p => p.2)).length).count (cntFrond f 9) ovf).readyTile f i
    else s

/-- WIN_OPEN on a combine window (R242, R244, R249): the handle's tile waits for its partials, also when its LAST pass has completed already;
the same window again, in a re-run too, keeps what it holds. -/
def winOpenCombine (f : Nat) (live : Bool) (win : Nat) (base rows : BitVec 13) (gen : BitVec 16) (tile : Nat) : Op AfterDone := do
  modify (fun s =>
    let x := s.frond f
    let w := x.windows.get win {}
    let exact := s.fixedOrder (s.taskOf f live).ctx && !(x.tile tile).b64
    let acc := x.combines.get win {}
    let same := (w.isOpen || (acc.delivered && acc.again)) && decide (w.base = base) && decide (w.rows = rows) && decide (w.gen = gen)
    let x := if same then { x with
        windows := x.windows.set win { w with isOpen := true, live := live }, combines := x.combines.set win { acc with delivered := false, again := false } }
      else { x with
        windows := x.windows.set win { base := base, rows := rows, gen := gen, isOpen := true, arrived := 0, live := live }
        combines := x.combines.set win { exact := exact } }
    let u := x.tile tile
    (s.setFrond f (x.setTile tile { u with combine := some win, state := if u.state = .ready then .accum else u.state })).deliverCombine f tile)
  return .nothing

/-- WIN_CLOSE (R240). -/
def winShut (f : Nat) (win : Nat) : Op AfterDone := do
  modify (fun s => let x := s.frond f; s.setFrond f { x with windows := x.windows.modify win {} (fun w => { w with isOpen := false }) })
  return .nothing

/-! ### Kept chunks -/

/-- The next chunk that the task's RHZ_KEEP in progress takes, in order of arrival (R81, R255). -/
def keepOne (f : Nat) (live : Bool) : Op Unit := do
  let s ← get
  match (s.taskOf f live).keep, s.chunksReady f live 1 with
  | some k, [c] =>
    writeStream f live k.pat c.bytes c.poisoned
    modify (fun s => (s.takeThese f live [c]).modTask f live (fun t =>
      { t with keep := if k.left ≤ 1 then none else some { k with left := k.left - 1 } }))
  | _, _ => waitFor .other

/-- RHZ_KEEP begins: CHUNKS chunks are to be kept through DST. -/
def keepStart (f : Nat) (live : Bool) (index : Nat) (dst : BitVec 6) (chunks : BitVec 16) : Op AfterDone := do
  let s ← get
  need (s.taskOf f live).keep.isNone (.wait .other)
  if chunks ≠ 0 then set (s.modTask f live (fun t => { t with keep := some { pat := dst.toNat, left := chunks.toNat, index := index } }))
  return .keepChunks

/-! ### Sequencer -/

/-- Every command issued has completed, remote SIGNALs among them (R97). -/
def Task.idle (t : Task) : Bool := (List.range 7).all (fun q => (t.queues.get q []).isEmpty) && decide (t.signalsOut = 0)

/-- A WAIT is granted when the value covers its count, which it subtracts (R75). -/
def takeSem (f : Nat) (sem n : Nat) : Op Unit := do
  let s ← get
  let x := s.frond f
  let v := (x.sems.get sem 0).toNat
  need (decide (n ≤ v)) (.wait .semaphore)
  set (s.setFrond f { x with sems := x.sems.set sem (BitVec.ofNat 16 (v - n)) })

/-- Number of the task that runs, or ran last, on the share of frond f that owns a semaphore (R280). -/
def State.shareTask (s : State) (f sem : Nat) : BitVec 16 :=
  if semShare (s.divided f) true sem && s.divided f then (s.frond f).liveTask else (s.frond f).simTask

/-- SIGNAL (R98): FENCE waits for every earlier command; a remote one waits while its target holds 64 increments and would hold it too (R280). -/
def signalReady (f : Nat) (live : Bool) (fence remote : Bool) (sem target : Nat) : Op Unit := do
  let s ← get
  let t := s.taskOf f live
  need (!fence || t.idle) (.wait .other)
  need (!remote || decide ((s.frond target).heldIncs.length < 64) || !laterTask t.taskNo (s.shareTask target sem)) (.wait .other)

end Sys2Proof.Machine
end

