-- ==== Sys2Proof/Machine/Stripe.lean ====
section
/-! DEFINITION. The stripe engine and fill/copy: SE_CAPTURE (R204), SE_REGROUP (R218), FILL (R142), COPY (R143). -/

namespace Sys2Proof.Machine

/-- The running stripe is the last of its frame: ROW0 + h ≥ H_EXT (R204). A simmer task runs no stripe, so none of it is the last, though its three
zeros meet the inequality (DESIGN CHOICE, log 132). -/
def State.lastStripe (s : State) (f : Nat) (live : Bool) : Bool :=
  live && decide ((s.frond f).hExt.toNat ≤ (s.frond f).row0.toNat + (s.taskOf f live).image.h.toNat)

/-- SE_CAPTURE: COUNT destination accesses into the halo buffer; zeros in the last stripe of a frame (R204). -/
def seCapture (f : Nat) (live : Bool) (src dst : BitVec 6) (count : BitVec 16) : Op AfterDone := do
  let s ← get
  let w := (s.taskOf f live).patBytes dst.toNat
  let (l, bad) ← readStream f live src.toNat (w * count.toNat)
  let zero := s.lastStripe f live
  writeStream f live dst.toNat (if zero then List.replicate (w * count.toNat) 0 else l) (bad && !zero)
  return .nothing

/-- FILL: VALUE into every word of each destination access (R142). -/
def fcFill (f : Nat) (live : Bool) (dst : BitVec 6) (value : W32) (count : BitVec 16) : Op AfterDone := do
  let s ← get
  let w := (s.taskOf f live).patBytes dst.toNat
  writeStream f live dst.toNat ((List.replicate (w / 4 * count.toNat) (toLe 4 value.toNat)).flatten) false
  return .nothing

/-- The bytes of one source access written into the destination walk from byte o of its stream on; the cursor stays. -/
def writeBytes (f : Nat) (live : Bool) (pat o : Nat) (l : List Byte) (bad : Bool) : Op Unit := do
  let s ← get
  let t := s.taskOf f live
  match t.pattern pat with
  | none => faultWith stPatternRange 2
  | some p =>
    let w := p.bytes
    let _ ← (List.range ((o + l.length + w - 1) / w - o / w)).foldlM (fun (_ : Unit) i => do
      let s ← get
      let j := o / w + i
      let lo := max o (j * w)
      let hi := min (o + l.length) ((j + 1) * w)
      let a := (s.frond f).access t p ((t.cursor pat + j) % p.total) true
      writeAccess f live { a with off := a.off + (lo - j * w), len := hi - lo } ((l.drop (lo - o)).take (hi - lo)) bad) ()

/-- COPY: COUNT destination accesses; each source access is read whole and written, into as many destination accesses as its bytes reach,
before the next is read (R143). -/
def fcCopy (f : Nat) (live : Bool) (src dst : BitVec 6) (count : BitVec 16) : Op AfterDone := do
  let s ← get
  let t := s.taskOf f live
  let a := t.patBytes src.toNat
  let n := count.toNat * t.patBytes dst.toNat
  let _ ← (List.range ((n + a - 1) / a)).foldlM (fun (_ : Unit) i => do
    let (l, bad) ← readPat f live src.toNat 1
    writeBytes f live dst.toNat (i * a) (l.flatten.take (n - i * a)) bad) ()
  match t.pattern dst.toNat with
  | none => faultWith stPatternRange 2
  | some p => modify (fun s => s.bumpCursor f live dst.toNat count.toNat p.total)
  return .nothing

/-- n bytes of a walk from byte o of its stream, without moving its cursor. -/
def peekStream (f : Nat) (live : Bool) (p : Pattern) (o n : Nat) : Op (List Byte × Bool) := do
  let s ← get
  let (l, bad) ← readAccess f live ((s.frond f).access (s.taskOf f live) p (o / p.bytes % p.total) false)
  return ((l.drop (o % p.bytes)).take n, bad)

/-- Words of the space-side pixel of a regrouping: WIDTH of the source, of the destination when inverse (R218). -/
def regroupWords (inverse : Bool) (src dst : Pattern) : Nat := if inverse then dst.words else src.words

/-- Byte of the source walk that byte o of the destination walk takes, with f = k and w bytes a space-side pixel: output pixel (x, y) stands at the first byte
of its group, and the planes follow one another (R218). -/
def regroupFrom (inverse : Bool) (k w : Nat) (sp dp : Pattern) (o : Nat) : Nat :=
  let big := k * k * w
  let outPix := if inverse then w else big
  let inPix := if inverse then big else w
  let dCols := dp.count 0 * dp.bytes / outPix
  let dRows := dp.count 1
  let sCols := sp.count 0 * sp.bytes / inPix
  let sRows := sp.count 1
  let pix := o / outPix
  let x := pix % dCols
  let y := pix / dCols % dRows
  let plane := pix / (dCols * dRows)
  let j := o % outPix
  if inverse then ((plane * sRows + y / k) * sCols + x / k) * big + (y % k * k + x % k) * w + j
  else ((plane * sRows + (k * y + j / w / k)) * sCols + (k * x + j / w % k)) * w + j % w

/-- SE_REGROUP: COUNT destination accesses; f × f space-side pixels make one channel-side pixel (R218). In the middle of a walk the cursor of DST places
the group; that of SRC only advances (DESIGN CHOICE, log 133). -/
def seRegroup (f : Nat) (live : Bool) (inverse : Bool) (src dst : BitVec 6) (by4 : Bool) (count : BitVec 16) : Op AfterDone := do
  let s ← get
  let t := s.taskOf f live
  match t.pattern src.toNat, t.pattern dst.toNat with
  | some sp, some dp =>
    let k := if by4 then 4 else 2
    let w := 4 * regroupWords inverse sp dp
    let start := t.cursor dst.toNat * dp.bytes
    let total := count.toNat * dp.bytes
    let (out, bad) ← (List.range (total / 4)).foldlM (fun (acc : List Byte × Bool) i => do
      let (l, b) ← peekStream f live sp (regroupFrom inverse k w sp dp (start + 4 * i)) 4
      return (acc.1 ++ l, acc.2 || b)) ([], false)
    modify (fun s => s.bumpCursor f live src.toNat (total / sp.bytes) sp.total)
    writeStream f live dst.toNat out bad
    return .nothing
  | _, _ => faultWith stPatternRange 2

end Sys2Proof.Machine
end

