-- ==== Sys2Proof/Machine/Sequencer.lean ====
section
/-! DEFINITION. The command sequencer and the engine queues (R95 to R102, R107, R110): issue, execution in queue order, completion, steps. -/

namespace Sys2Proof.Machine

/-! ### Steps -/

/-- At step commit H moves past the furthest row read through tags; the rows it passes turn empty (R139). -/
def State.advanceHead (s : State) (f : Nat) (live : Bool) (c d : Nat) : State :=
  let t := s.taskOf f live
  match (s.frond f).region t.ctx c with
  | none => s
  | some g =>
    let x := (List.range (d + 1)).foldl (fun (x : Frond) i =>
      match x.place t (g.base + (g.head + i) % g.rows) with
      | some p => x.setTag p false
      | none => x) (s.frond f)
    s.setFrond f (x.setRegion t.ctx c { g with head := (g.head + d + 1) % g.rows })

/-- The instance of the job that a simmer task belongs to. -/
def State.instOf (s : State) (c : Nat) : Nat := ((s.ctx c).job.map Job.inst).getD 0

/-- A step commits (R101, R102, R452): heads advance, its signature is complete, tiles that a failed step left are FREE, and delivered combine
accumulators are given up (R249). -/
def State.commitStep (s : State) (f : Nat) (live : Bool) : State :=
  let t := s.taskOf f live
  let s := t.step.reads.foldl (fun s q => s.advanceHead f live q.1 q.2) s
  let s := if !live && s.fixedOrder t.ctx then
      s.lsSend { ctx := BitVec.ofNat 14 t.ctx, frond := BitVec.ofNat 8 f, frame := BitVec.ofNat 32 (s.instOf t.ctx), stripe := 0xFFFF,
                 step := BitVec.ofNat 16 t.stepIndex, notRun := false, sig := t.stepSig }
    else s
  let s := (s.signStep f live).modTask f live (fun t => { t with committed := true, stepIndex := t.stepIndex + 1, skipping := false, loose := [] })
  let x := s.frond f
  let gone := (List.range 16).filter (fun w => (x.combines.get w {}).delivered && ((x.windows.get w {}).live == live))
  s.setFrond f { x with tiles := t.loose.foldl (fun u i => u.set i {}) x.tiles, combines := gone.foldl (fun u w => u.set w {}) x.combines }

/-- A step begins with the command at the head; a step that runs again keeps its detections and what it has delivered (R104, R149).
The VU holds no parameter set then (R189). -/
def State.openStep (s : State) (f : Nat) (live : Bool) : State :=
  let t := s.taskOf f live
  let save := (s.frond f).saveStep t t.cmdIndex
  let save := if t.step.startIndex = t.cmdIndex then { save with delivered := t.step.delivered, detections := t.step.detections, detectedAt := t.step.detectedAt } else save
  s.modTask f live (fun t => { t with step := save, committed := false, held := {} })

/-! ### Step checkpoints of simmer jobs (R419) -/

/-- A frond of a marked job has nothing of it in progress, and no increment that it sent is on its way. -/
def State.quiet (s : State) (c f : Nat) : Bool :=
  let x := s.frond f
  x.signals.all (fun g => decide (some g.task ≠ (s.ctx c).job.map Job.taskNo)) && match x.simmer with
  | none => true
  | some t => decide (t.ctx ≠ c) || (t.committed && t.idle && x.netOut.all (fun a => a.live) && x.partials.all (fun p => p.live))

/-- Bytes of the halo buffer from line `lo` that simmer work has written since it started (R419, log 123). -/
def Frond.haloUsed (x : Frond) (lo : Nat) : Nat := ((x.se.cells.filter (fun p => decide (lo ≤ p.1))).map (fun p => p.1 - lo + 1)).foldl max 0

/-- Frond f's step checkpoint of context c (Table 15.4). -/
def State.stepCkptOf (s : State) (c f : Nat) : Option Ckpt :=
  let x := s.frond f
  match x.simmer with
  | none => none
  | some t =>
    if t.ctx ≠ c then none
    else
      let all := (List.range (t.image.pRows + t.image.tRows)).filter (fun r => decide (t.image.pRows ≤ r) && (match x.place t r with
        | some (.phys _) => true
        | _ => false))
      let share := semShare (s.divided f) false
      let lo := seBase false c
      some { ctx := c, frame := BitVec.ofNat 32 (s.instOf c), point := t.cmdIndex, task := t.taskNo, se := ⟨x.se.cells.filter (fun p => decide (lo ≤ p.1))⟩,
             rows := all, data := x.saveRows t all, regions := (x.regions.get c []).map (fun g : Region => (g.head, g.tail)),
             full := (List.range (t.image.pRows + t.image.tRows)).filter (fun r => ((x.place t r).map x.isFull).getD false), stats := t.counts, cursors := t.cursors,
             sems := ⟨x.sems.cells.filter (fun p => share p.1)⟩, windows := ⟨x.windows.cells.filter (fun p => !p.2.live)⟩,
             ptmBuild := t.lastBuild, heldIncs := x.heldIncs.filter (fun h => share h.sem.toNat), stepIndex := t.stepIndex, overRows := false, starts := t.starts,
             badRows := x.badRowsOf t all, badLines := x.poisonLines.filter (fun l => decide (lo ≤ 32 * l))
             slot := stepSlot f (if ((x.stepCk.get 0 none).map Ckpt.slot) = some (stepSlot f 0) then 1 else 0)
             len := 8192 + x.haloUsed lo + 512 * (t.image.pRows + all.length), pinRows := t.image.pRows }

/-- Frond f writes its step checkpoint into its free slot of both copies: the task rows from row 0 that are resident, pinned ones among them (R419,
log 123). -/
def State.writeStepCkpt (s : State) (c f : Nat) : State :=
  let x := s.frond f
  let k := s.stepCkptOf c f
  let s := (s.setFrond f { x with stepCk := (x.stepCk.set 1 (x.stepCk.get 0 none)).set 0 k }).modTask f false (fun t => { t with marked := false })
  match k, x.simmer with
  | some k, some t =>
    s.sporeWrite k.slot (x.ckptImage f t k true (seBase false c) (x.haloUsed (seBase false c)) (List.range t.image.pRows ++ k.rows))
  | _, _ => s

/-- Once nothing of a marked job is in flight every frond of its set writes its step checkpoint, and the job continues (R419). -/
def State.tryStepCkpt (s : State) (c : Nat) : State :=
  match (s.ctx c).job with
  | none => s
  | some j =>
    if j.marked && (s.setOf c).all (s.quiet c) then
      let s := (s.setOf c).foldl (fun s f => s.writeStepCkpt c f) s
      s.setCtx c { s.ctx c with job := some { j with marked := false } }
    else s

/-! ### The end of a task (R99) -/

/-- The frame that follows a stripe's checkpoint, and the stripe it is for. -/
def nextPoint (frame : W32) (stripe total : Nat) : W32 × Nat := if stripe + 1 < total then (frame, stripe + 1) else (frame + 1, 0)

/-- A live stripe ends on frond f (R64, R415, R452): its counts join the frame's, the next checkpoint is written, and with the last frond of
the set the stripe has completed. -/
def State.endStripe (s : State) (f : Nat) : State :=
  let t := s.taskOf f true
  let bad := t.poisoned || t.hostPoison
  let s := if s.fixedOrder t.ctx then s.lsSend (stripeRecord t.ctx f t.frame t.stripe false t.stripeSig) else s
  let s := (s.clearShare f true).settleAreas f
  let s := s.modFrame t.ctx t.frame (fun r =>
    { r with stats := mergeCounts r.stats t.counts, parts := r.parts.modify f {} (fun p => mergeCounts p t.counts), ended := (f, t.stripe) :: r.ended, poisoned := r.poisoned || bad,
             cause := if r.cause = 0 then t.firstFault else r.cause })
  let s := s.count (cntFrond f 15) 1
  match s.frameRun t.ctx t.frame with
  | none => s
  | some r =>
    let n := nextPoint t.frame t.stripe r.total
    let s := (s.stripeCkpt f t.ctx n.1 n.2 t.taskNo).taskBoundary f
    if (s.setOf t.ctx).all (fun g => r.ended.contains (g, t.stripe)) then
      let s := ((s.modFrame t.ctx t.frame (fun r => { r with done := r.done + 1 })).endEvictions t.ctx t.taskNo).lsBoundary
      if r.done + 1 = r.total then s.frameDone t.ctx t.frame else s
    else s

/-- A simmer task ends on frond f: its counts join the job's, and with the last frond of the set the instance has completed (R231). -/
def State.endSimmer (s : State) (f : Nat) : State :=
  let t := s.taskOf f false
  let bad := t.poisoned || t.hostPoison
  let s := s.clearShare f false
  let x := s.frond f
  let s := ((s.setFrond f { x with cache := [] }).taskBoundary f).settleAreas f
  match (s.ctx t.ctx).job with
  | none => s
  | some j =>
    let j := { j with
      ended := insertNat f j.ended, parts := j.parts.set f { stats := t.counts, bad := bad, cause := t.firstFault } }
    let s := s.setCtx t.ctx { s.ctx t.ctx with job := some j }
    if (s.setOf t.ctx).all (fun g => j.ended.contains g) then s.instanceDone t.ctx else s.tryStepCkpt t.ctx

/-- END: the last step commits and the task completes. -/
def State.endTask (s : State) (f : Nat) (live : Bool) : State :=
  let s := if (s.taskOf f live).committed then s else s.commitStep f live
  if live then s.endStripe f else s.endSimmer f

/-! ### Commands -/

/-- Issue of a command: the checks of Table 04.7's issue phase, and its handle. -/
def cmdIssue (f : Nat) (live : Bool) : Instr → Op Nat
  | .mxuPass _ _ o => mxuIssue f live o
  | .vuDrain _ _ o => drainIssue f live o
  | .nwWrite _ _ o => if o.win.toNat < 12 then pure 0 else combineIssue f live o
  | .winOpen _ _ win base _ _ => if win.toNat < 12 then pure 0 else stepTile f live base.toNat
  | _ => pure 0

/-- Execution of an issued command by its engine. -/
def cmdRun (f : Nat) (live : Bool) (index tile : Nat) : Instr → Op AfterDone
  | .mxuPass _ _ o => mxuPass f live index o tile
  | .vuDrain _ _ o => vuDrain f live o tile
  | .vuEw _ _ v func count => vuEw f live v func count
  | .vuDw _ _ v g ch group => vuDw f live v g ch group
  | .vuPool _ _ isMax padCount v g ch => vuPool f live isMax padCount v g ch
  | .vuArgmax _ _ v ch => vuArgmax f live v ch
  | .vuTfn _ _ v table count => vuTfn f live v table count
  | .vuFft _ _ inverse v twoD count => vuFft f live inverse v twoD count
  | .ptmBuild _ _ v group count => ptmBuild f live index v group count
  | .vuLoad _ _ v count => vuMove f live v count
  | .vuStore _ _ v count => vuMove f live v count
  | .vuTload _ _ v table => vuTload f live v table
  | .seCapture _ _ src dst count => seCapture f live src dst count
  | .seRegroup _ _ inverse src dst by4 count => seRegroup f live inverse src dst by4 count
  | .dmaIn _ _ row => dmaStart f live true index row.toNat
  | .dmaOut _ _ row => dmaStart f live false index row.toNat
  | .nwRead _ _ o => nwSend f live false index o
  | .nwWrite _ _ o => if o.win.toNat < 12 then nwSend f live true index o else combineSend f live index o tile
  | .winOpen _ _ win base rows gen =>
    if win.toNat < 12 then winOpenPlain f live win.toNat base rows gen else winOpenCombine f live win.toNat base rows gen tile
  | .winClose _ _ win => winShut f win.toNat
  | .fill _ _ dst value count => fcFill f live dst value count
  | .fcCopy _ _ src dst count => fcCopy f live src dst count
  | .rhzKeep _ _ dst chunks => keepStart f live index dst chunks
  | _ => pure .nothing

/-- The share whose task issues on frond f: a live stripe ahead of simmer work that has not yielded. -/
def State.activeShare (s : State) (f : Nat) : Option Bool :=
  let x := s.frond f
  if s.lost f || x.failed || decide (x.phase ≠ .on) then none
  else
    match x.live, x.simmer with
    | some t, _ => if t.stopped then none else some true
    | none, some t => if t.yielded || t.stopped then none else some false
    | none, none => none

/-- The header signal of a completed command (R97). -/
def State.fireHeader (s : State) (f : Nat) (c : Instr) (index : Nat) : State :=
  if (cmdHdr c).sen then s.addSem f (cmdHdr c).ssem.toNat 1 (engineOf c) index else s

/-- Near-side rows that a skipped transfer or remote read would have written are poisoned too (R284, log 31). -/
def State.poisonNear (s : State) (f : Nat) (live : Bool) (c : Instr) : State :=
  let t := s.taskOf f live
  let mark (s : State) (p : Place) (reg : Option (Nat × Nat)) : State :=
    let s := s.spoilRow f p
    if reg.isSome && !(s.frond f).isFull p then s.fillRow f live t.ctx p reg true else s
  match c with
  | .nwRead _ _ o => (List.range o.rows.toNat).foldl (fun s i =>
      match (s.frond f).place t (o.lrow.toNat + i) with
      | some p => mark s p none
      | none => s) s
  | .dmaIn _ _ row =>
    match (s.frond f).place t row.toNat with
    | none => s
    | some p =>
      match parseXfer (s.rowRead f p 0 64).1 with
      | none => s
      | some e =>
        if e.kind ≠ 0 then s
        else
          let d : DmaXfer := { id := 0, isIn := true, index := 0, desc := e, ctx := t.ctx, live := live, done := 0, sent := 0, total := e.walk.total,
                               page := none, starts := t.starts, poisoned := true }
          (List.range (min 8192 (e.walk.total / 512))).foldl (fun s k =>
            match (s.frond f).xferRow t d true k with
            | some (p, reg) => mark s p reg
            | none => s) s
  | _ => s

/-- A command of a failed step is skipped: what it would have written is undefined and poisoned (R284). A pass whose buffers are filled has made
its accesses. -/
def State.skipCommand (s : State) (f : Nat) (live : Bool) (c : Instr) (index : Nat) : State :=
  if ((s.taskOf f live).loaded.map (fun p => decide (p.index = index))).getD false then s.modTask f live (fun t => { t with loaded := none })
  else (s.poisonOutputs f live c).poisonNear f live c

/-- An entry of a queue changed. -/
def State.setAfter (s : State) (f : Nat) (live : Bool) (q index : Nat) (a : AfterDone) : State :=
  s.modTask f live (fun t => { t with
    executing := none, queues := t.queues.modify q [] (fun l => l.map (fun e => if e.index = index then { e with after := some a } else e)) })

/-- A command that has run has nothing left to wait for. -/
def State.entryReady (s : State) (f : Nat) (live : Bool) (e : QEntry) : Bool :=
  let x := s.frond f
  match e.after with
  | none => false
  | some (.dma id) => ((x.dmaOf id).map x.dmaDone).getD true
  | some (.net cmd) =>
    x.netOut.all (fun a => !(decide (a.cmd = cmd) && (a.live == live) && a.group.isNone))
      && x.partials.all (fun p => !(decide (p.cmd = cmd) && (p.live == live)))
  | some .keepChunks => (s.taskOf f live).keep.isNone
  | some _ => true

/-- What completing a skipped command does to its tile: what it would have done. -/
def skipAfter (tile : Nat) : Instr → AfterDone
  | .mxuPass _ _ o => if o.last then .passLast tile else .nothing
  | .vuDrain _ _ o => if o.keep then .keepTile tile else .freeTile tile
  | .nwWrite _ _ o => if o.win.toNat < 12 then .nothing else .freeTile tile
  | _ => .nothing

/-- An issued command of a failed step that faults is skipped; a pass leaves its tile poisoned (R284). -/
def State.skipIssued (s : State) (f : Nat) (live : Bool) (q : Nat) (e : QEntry) : State :=
  let s := s.skipCommand f live e.cmd e.index
  let s := match e.cmd with
    | .mxuPass _ _ o => (s.spoilTile f e.tile).setFrond f (let y := (s.spoilTile f e.tile).frond f; y.setTile e.tile { y.tile e.tile with lastRun := o.last })
    | _ => s
  s.setAfter f live q e.index (skipAfter e.tile e.cmd)

/-- The command that an engine of frond f is executing, while it does (R500). -/
def State.executes (s : State) (f : Nat) (live : Bool) (i : Option Nat) : State := s.modTask f live (fun t => { t with executing := i })

/-- The next command of a queue that has not run, run; or why it waits. Commands issued before a fault run on (R110). -/
def State.tryQueue (s : State) (f : Nat) (live : Bool) (q : Nat) : Except BlockKind State :=
  let t := s.taskOf f live
  let l := t.queues.get q []
  let before := l.takeWhile (fun e => e.after.isSome)
  match l.drop before.length with
  | [] => .error .other
  | e :: _ =>
    if !overlapping q && !before.all (s.entryReady f live) then .error .other
    else
      match (cmdRun f live e.index e.tile e.cmd).run (s.executes f live (some e.index)) with
      | .ok (a, s) => .ok (s.setAfter f live q e.index a)
      | .error (.wait k) => .error k
      | .error (.fault code phase) =>
        let s := s.taskFault f live code phase (engineOf e.cmd) e.index
        .ok (if (s.taskOf f live).skipping then s.skipIssued f live q e else s)

/-- The first pass of the MXU queue that has not run, with its buffers not yet filled. -/
def Task.nextPass (t : Task) : Option (Nat × MxuOp) :=
  match (t.queues.get 0 []).find? (fun e => e.after.isNone) with
  | some { index, cmd := .mxuPass _ _ o, .. } => if t.loaded.isNone then some (index, o) else none
  | _ => none

/-- While a pass waits, the buffers that it does not share with the pass before it fill (R56). -/
def State.fillAhead (s : State) (f : Nat) (live : Bool) : Except BlockKind State :=
  match (s.taskOf f live).nextPass with
  | none => .error .other
  | some (index, o) =>
    match (loadPass f live index o).run s with
    | .ok (_, s) => .ok s
    | .error (.wait k) => .error k
    | .error (.fault ..) => .error .other

/-- What holds back the command at the head before its own issue: the step that it begins (R101) and its header wait, which is granted once
(R75, R95). -/
def headWait (f : Nat) (live : Bool) (c : Instr) : Op Unit := do
  let s ← get
  let t := s.taskOf f live
  let h := cmdHdr c
  if h.sb then
    need (t.idle && !t.marked) (.wait .other)
    modify (fun s => (if (s.taskOf f live).committed then s else s.commitStep f live).openStep f live)
  if h.wen then takeSem f h.wsem.toNat (h.wcnt.toNat + 1)
  modify (fun s => s.modTask f live (fun t => { t with granted := true }))

/-- Room in a command's queue of four (Table 04.2). A command that its engine has begun keeps its place until it completes (R87 says no more; DESIGN CHOICE,
log 135), but a transfer that has started stands in its engine's six, not in the queue (R79). -/
def Task.room (t : Task) (c : Instr) : Bool :=
  let l := t.queues.get (queueOf c) []
  decide (engineOf c = 8) || decide ((if overlapping (queueOf c) then l.filter (fun e => e.after.isNone) else l).length < 4)

/-- A sequencer command at the head of the list (R87, R98, R99). -/
def seqRun (f : Nat) (live : Bool) (c : Instr) : Op Unit := do
  let s ← get
  let t := s.taskOf f live
  match c with
  | .wait _ _ sem count => if !t.skipping then takeSem f sem.toNat count.toNat
  | .signal _ _ fence sem target remote _ => if !t.skipping then signalReady f live fence remote sem.toNat target.toNat
  | .end_ .. => need t.idle (.wait .other)
  | _ => pure ()

/-- The increment of a remote SIGNAL leaves (R98). In a re-run one that is on its way is waited for once more, and one that has arrived is not
sent again (Table 04.6). -/
def State.sendSignal (s : State) (f : Nat) (live : Bool) (c : Instr) (target : Nat) (sem : BitVec 6) (count : BitVec 16) (index : Nat) : State :=
  let t := s.taskOf f live
  let x := s.frond f
  let header := if (cmdHdr c).sen then some (cmdHdr c).ssem else none
  let mine := fun g : OutSignal => decide (g.live = live) && decide (g.index = index) && decide (g.task = t.taskNo)
  if x.signals.any mine then s.setFrond f { x with signals := x.signals.map (fun g => if mine g then { g with header := header } else g) }
  else if 0 < t.deliveredRows index then s.fireHeader f c index
  else
    (s.setFrond f { x with signals := x.signals ++ [{ target := target, sem := sem, count := count, task := t.taskNo, live := live, index := index, header := header }] }).modTask
      f live (fun t => { t with signalsOut := t.signalsOut + 1, step := { t.step with delivered := (index, 1) :: t.step.delivered } })

/-- Effects of a sequencer command after it is granted. A remote SIGNAL completes when its increment has reached the target (R97). -/
def State.seqDone (s : State) (f : Nat) (live : Bool) (c : Instr) : State :=
  let t := s.taskOf f live
  let index := t.cmdIndex - 1
  match c with
  | .signal _ _ _ sem target remote count =>
    if t.skipping then s.fireHeader f c index
    else if remote then s.sendSignal f live c target.toNat sem count index
    else (s.addSem f sem.toNat count.toNat 8 index).fireHeader f c index
  | .end_ .. => (s.fireHeader f c index).endTask f live
  | _ => s.fireHeader f c index

/-- The head of the list has left it. -/
def Task.taken (t : Task) : Task := { t with fed := t.fed.drop 1, cmdIndex := t.cmdIndex + 1, granted := false }

/-- The command at the head, its header wait granted, issues, or waits for its own conditions. -/
def State.issueHead (s : State) (f : Nat) (live : Bool) (c : Instr) : Except BlockKind State :=
  let t := s.taskOf f live
  if engineOf c = 8 then
    match (seqRun f live c).run s with
    | .ok (_, s) => .ok ((s.modTask f live Task.taken).seqDone f live c)
    | .error (.wait k) => .error k
    | .error (.fault ..) => .error .other
  else if t.skipping then .ok (((s.modTask f live Task.taken).skipCommand f live c t.cmdIndex).fireHeader f c t.cmdIndex)
  else if zeroSkipped t.pats t.exts c then .ok ((s.modTask f live Task.taken).fireHeader f c t.cmdIndex)
  else if !t.room c then .error .other
  else
    match (cmdIssue f live c).run s with
    | .ok (i, s) => .ok (s.modTask f live (fun t =>
        { t.taken with queues := t.queues.modify (queueOf c) [] (fun l => l ++ [{ index := t.cmdIndex, cmd := c, tile := i, after := none }]) }))
    | .error (.wait k) => .error k
    | .error (.fault code phase) =>
      let s := (s.modTask f live Task.taken).taskFault f live code phase (engineOf c) t.cmdIndex
      .ok (if (s.taskOf f live).skipping then (s.skipCommand f live c t.cmdIndex).fireHeader f c t.cmdIndex else s)

/-- The command at the head of the list issued (R95), or why it waits. A grant of its header wait stands, whatever else holds it back (R75). -/
def State.tryIssue (s : State) (f : Nat) (live : Bool) : Except BlockKind State :=
  match (s.taskOf f live).fed with
  | [] => .error .other
  | c :: _ =>
    if (s.taskOf f live).granted then s.issueHead f live c
    else
      match (headWait f live c).run s with
      | .error (.wait k) => .error k
      | .error (.fault ..) => .error .other
      | .ok (_, s') =>
        match s'.issueHead f live c with
        | .ok s => .ok s
        | .error k => if (cmdHdr c).sb || (cmdHdr c).wen then .ok s' else .error k

/-- A transfer that can go no further faults its task; under the BV6 policy it ends with its undelivered rows poisoned (R284). -/
def State.dmaFault (s : State) (f : Nat) (d : DmaXfer) (code : BitVec 16) : State :=
  let s := s.taskFault f d.live code 2 (if d.isIn then 4 else 5) d.index
  let s := if d.isIn && decide (d.desc.kind = 0) && (s.taskOf f d.live).skipping then
      (List.range ((d.total - d.done) / 512)).foldl (fun s k =>
        match (s.frond f).xferRow (s.taskOf f d.live) d true (d.done / 512 + k) with
        | some (p, reg) =>
          let s := s.spoilRow f p
          if reg.isSome && !(s.frond f).isFull p then s.fillRow f d.live d.ctx p reg true else s
        | none => s) s
    else s
  s.setDma f d.id (fun e => { e with done := e.total, sent := e.total, page := none })

/-- The engine and share of a transfer: within one, an access that a tag blocks holds back every later one (R117). -/
def DmaXfer.lane (d : DmaXfer) : Bool × Bool := (d.isIn, d.live)

/-- Outstanding transfers of tasks that are not stopped move on: the state if any of them moved, and the transfers that a tag blocks, with the row. -/
def State.moveDmas (s : State) (f : Nat) : Option State × List (DmaXfer × Nat) :=
  (s.frond f).dma.foldl (fun (acc : Option State × List (DmaXfer × Nat)) d =>
    let s := acc.1.getD s
    if (s.taskOf f d.live).stopped || (s.frond f).dmaDone d || acc.2.any (fun b => decide (b.1.lane = d.lane)) then acc
    else
      match (s.executes f d.live (some d.index)).dmaMove f d.id with
      | (.fault code, s') => (some ((s'.executes f d.live none).dmaFault f d code), acc.2)
      | (stop, s') =>
        let s' := s'.executes f d.live none
        let e := ((s'.frond f).dmaOf d.id).getD d
        let blocked := match stop with
          | .tag row => acc.2 ++ [(d, row)]
          | _ => acc.2
        if e.done ≠ d.done ∨ e.sent ≠ d.sent ∨ e.page ≠ d.page then (some s', blocked) else (acc.1, blocked)) (none, [])

/-! ### The rhizome chain behind a frond -/

/-- Fronds that take a chunk, in chain order. -/
def State.chunkRun (s : State) (c : Chunk) : List Nat :=
  match (s.frond c.src).dmaOf c.xfer with
  | some d => s.chainFronds d.ctx d.desc.first.toNat d.desc.last.toNat
  | none => []

/-- The logical fronds of frond f's die whose positions the chain passes: those that a column serves and that have not failed. -/
def State.chainMates (s : State) (f : Nat) : List Nat :=
  ((List.range 64).map (fun i => f / 64 * 64 + i)).filter (fun g => !s.lost g && !(s.frond g).failed)

/-- The frond whose position the chain passes next behind frond f's, and the one that it passes before it. -/
def State.chainNext (s : State) (f : Nat) : Option Nat :=
  (s.chainMates f).foldl (fun best g =>
    if s.chainPos g ≤ s.chainPos f then best
    else match best with
      | none => some g
      | some b => if s.chainPos g < s.chainPos b then some g else best) none
def State.chainPrev (s : State) (f : Nat) : Option Nat := (s.chainMates f).find? (fun g => decide (s.chainNext g = some f))

/-- Chunks that the inputs of the positions between two neighbouring fronds of the chain hold, two each (R255, R256). -/
def State.passRoom (s : State) (f g : Nat) : Nat := 2 * (s.chainPos g - s.chainPos f - 1)

/-- Frond g's chain input is for a chunk to pass through: g is no frond of its run, or not of its set (R255). -/
def State.passes (s : State) (g : Nat) (c : Chunk) : Bool := !(s.chunkRun c).contains g

/-- The chunk at the head of frond f's chain input leaves it: complete if f is the last of its run, which has taken it (R266), and else for the next
position, whose input must have room (R81, R256). The input of a frond that takes the chunk itself waits for its arrival there. The frond that the
chunk has come to by itself, if any. -/
def State.hop (s : State) (f : Nat) : Option (State × Option Nat) :=
  match (s.frond f).chain with
  | [] => none
  | c :: rest =>
    let left := s.setFrond f { s.frond f with chain := rest }
    if !c.taken then none
    else if (s.chunkRun c).getLast? = some f then some (left.setDma c.src c.xfer (fun e => { e with done := e.done + 2048 }), none)
    else
      match s.chainNext f with
      | none => none
      | some g =>
        let y := s.frond g
        if s.passRoom f g = 0 then
          if s.passes g c && decide (y.chain.length < 2) then some (left.setFrond g { y with chain := y.chain ++ [c] }, some g) else none
        else if y.passing.length < s.passRoom f g then some (left.setFrond g { y with passing := y.passing ++ [c] }, some g)
        else none

/-- A chunk that passes through enters frond g's chain input from the positions before it, if that has room. -/
def State.passIn (s : State) (g : Nat) : Option State :=
  let y := s.frond g
  match y.passing with
  | [] => none
  | c :: rest => if s.passes g c && decide (y.chain.length < 2) then some (s.setFrond g { y with passing := rest, chain := y.chain ++ [c] }) else none

/-- What can leave frond f's chain input leaves it, and what stood behind it on the chain, or comes to pass through on the way, goes on too (R256). -/
def State.flow : Nat → State → Nat → State
  | 0, s, _ => s
  | n + 1, s, f =>
    match s.hop f with
    | none => match s.passIn f with
      | none => s
      | some s => State.flow n s f
    | some (s, g) =>
      let s := match g with
        | some g => State.flow n s g
        | none => s
      let s := State.flow n s f
      match s.chainPrev f with
      | some p => State.flow n s p
      | none => s

/-- The chunks of frond f's chain input leave it if they can; a chunk meets at most the 72 positions of a die. -/
def State.retireChunks (s : State) (f : Nat) : State :=
  if (s.frond f).chain.isEmpty && (s.frond f).passing.isEmpty then s else State.flow 72 s f

/-! ### What a frond does -/

/-- What commands, chunks and transfers of a failed step have just written is spoilt with the rest of its outputs (R284). -/
def State.spoilSkipped (s : State) (f : Nat) : State :=
  [true, false].foldl (fun s live => if (s.taskOf f live).skipping then s.spoilWrites f live else s) s

/-- A queued command run, a chunk kept, or the next pass's buffers filled. -/
def State.runOne (s : State) (f : Nat) (live : Bool) : Option State :=
  ((List.range 7).findSome? (fun q => (s.tryQueue f live q).toOption)).orElse (fun _ =>
    (((keepOne f live).run s).toOption.map Prod.snd).orElse (fun _ => (s.fillAhead f live).toOption))

/-- One thing that frond f can do now: run a queued command, keep a chunk, fill buffers, move a transfer or issue the next command; a task that is
to end with a fault does so once the commands issued before it have completed (R110). -/
def State.pumpOne (s : State) (f : Nat) : Option State :=
  match s.activeShare f with
  | none => (s.moveDmas f).1.map (fun s => s.spoilSkipped f)
  | some live =>
    match s.runOne f live with
    | some s => some ((s.spoilSkipped f).retireChunks f)
    | none =>
      match (s.moveDmas f).1 with
      | some s => some (s.spoilSkipped f)
      | none =>
        match (s.taskOf f live).ending with
        | some code => if (s.taskOf f live).idle then some (s.finishEnding f live code) else none
        | none => (s.tryIssue f live).toOption

/-- Frond f does what it can. -/
def State.pumpFor : Nat → State → Nat → State
  | 0, s, _ => s
  | n + 1, s, f =>
    match s.pumpOne f with
    | none => s
    | some s => State.pumpFor n s f

/-- Tagged accesses of a task that block: the queue (7 DMA-out and 8 DMA-in transfers), the command's index, the row, and the bytes that the transfer
has moved: an access that blocks anew on the same row is another one (R141). -/
def State.blockedTags (s : State) (f : Nat) (live : Bool) : List (Nat × Nat × Nat × Nat) :=
  let t := s.taskOf f live
  let row (r : Except BlockKind State) : Option Nat := match r with
    | .error (.tag n) => some n
    | _ => none
  (List.range 7).filterMap (fun q =>
    ((t.queues.get q []).find? (fun e => e.after.isNone)).bind (fun e =>
      ((row (s.tryQueue f live q)).orElse (fun _ => if q = 0 then row (s.fillAhead f live) else none)).map (fun n => (q, e.index, n, 0))))
    ++ (((s.moveDmas f).2.filter (fun b => b.1.live == live)).map (fun b => (7 + b2n b.1.isIn, b.1.index, b.2, (((s.frond f).dmaOf b.1.id).getD b.1).done)))

/-- Since when the head of the list waits for a semaphore, and since when tagged accesses block (R110, R141). -/
def State.setTimers (s : State) (f : Nat) : State :=
  match s.activeShare f with
  | none => s
  | some live =>
    let sem := match s.tryIssue f live with
      | .error .semaphore => true
      | _ => false
    let tags := s.blockedTags f live
    s.modTask f live (fun t =>
      { t with
        semSince := if sem then some ((t.semSince.filter (fun p => decide (p.1 = t.cmdIndex))).getD (t.cmdIndex, s.dtb)) else none
        tagSince := tags.map (fun k => (t.tagSince.find? (fun p => decide (p.1 = k))).getD (k, s.dtb)) })

/-- Frond f runs until nothing more can run; 256 things, and four for each command waiting, bound what one event sets off. -/
def State.pumpAlone (s : State) (f : Nat) : State :=
  (State.pumpFor (256 + 4 * ((s.frond f).task.map (fun t => t.fed.length)).getD 0) s f).setTimers f

/-- The context of the marked job that a frond runs for. -/
def State.markedJob (s : State) (f : Nat) : Option Nat :=
  ((s.frond f).simmer.map Task.ctx).filter (fun c => ((s.ctx c).job.map Job.marked).getD false)

/-- Frond f runs; when that ends the mark of its job, its step checkpoint written, the other fronds of the set run on too (R419). -/
def State.pump (s : State) (f : Nat) : State :=
  let t := s.pumpAlone f
  match s.markedJob f with
  | none => t
  | some c => if ((t.ctx c).job.map Job.marked).getD true then t else ((t.setOf c).filter (fun g => decide (g ≠ f))).foldl (fun s g => s.pumpAlone g) t

/-- The step checkpoint of a marked job is written if nothing of it is in flight, and the fronds of its set run on (R419). -/
def State.runMarked (s : State) (c : Nat) : State := (s.setOf c).foldl (fun s g => s.pump g) (s.tryStepCkpt c)

/-- Every marked job: something that was in flight has arrived. -/
def State.runAllMarked (s : State) : State :=
  ((s.ctxs.cells.filter (fun p => (p.2.job.map Job.marked).getD false)).map Prod.fst).foldl (fun s c => s.runMarked c) s

/-- The sequencer of frond f reaches a command: it issues as soon as it can, behind those reached before it (R95, log 32); a task that is to end with
a fault reaches no more (R110). -/
def State.feed (s : State) (f : FrondId) (c : Instr) : State :=
  match s.activeShare f.val with
  | none => s
  | some live =>
    if (s.taskOf f.val live).ending.isSome then s
    else (s.modTask f.val live (fun t => { t with fed := t.fed ++ [c] })).pump f.val

/-- A command reaches its frond's sequencer. -/
def reach (f : FrondId) (c : Instr) (s : State) : Host.Outcome State Fault Refusal := unlessInert s fun s => s.feed f c

/-! ### Completion (R97) -/

/-- What the completion of a command does to its tile or transfer. -/
def State.applyAfter (s : State) (f : Nat) (a : AfterDone) : State :=
  match a with
  | .passLast i =>
    let x := s.frond f
    (s.setFrond f (x.setTile i { x.tile i with lastDone := true })).deliverCombine f i
  | .freeTile i => s.freeTile f i
  | .keepTile i =>
    let x := s.frond f
    s.setFrond f (x.setTile i { x.tile i with state := .accum, lastRun := false, lastDone := false })
  | .dma id => let x := s.frond f; s.setFrond f { x with dma := x.dma.filter (fun d => decide (d.id ≠ id)) }
  | _ => s

/-- An outbound command's delivery is remembered for a re-run of its step (Table 04.6). -/
def deliveredBy (x : Frond) (e : QEntry) : Option (Nat × Nat) :=
  match e.cmd, e.after with
  | .dmaOut .., some (.dma id) => (x.dmaOf id).map (fun d => (e.index, d.total / 512))
  | .dmaIn .., some (.dma id) => ((x.dmaOf id).filter (fun d => decide (d.desc.kind ≠ 0))).map (fun d => (e.index, d.total / 512))
  | .nwWrite _ _ o, some (.net _) => some (e.index, max 1 o.rows.toNat)
  | _, _ => none

/-- The oldest command of a queue that can complete does: its effects, its header signal, and room in the queue. -/
def State.completeOne (s : State) (f : Nat) (live : Bool) (q : Nat) : Option State :=
  let l := (s.taskOf f live).queues.get q []
  let found := if q = 3 ∨ q = 4 then l.find? (s.entryReady f live) else (l.head?).filter (s.entryReady f live)
  found.map (fun e =>
    let d := deliveredBy (s.frond f) e
    let s := s.modTask f live (fun t =>
      { t with
        queues := t.queues.modify q [] (fun l => l.filter (fun g => decide (g.index ≠ e.index)))
        step := match d with
          | some p => { t.step with delivered := p :: t.step.delivered.filter (fun r => decide (r.1 ≠ p.1)) }
          | none => t.step })
    (s.applyAfter f (e.after.getD .nothing)).fireHeader f e.cmd e.index)

/-- COMMAND_COMPLETE of a queue: of the live stripe ahead of simmer work. -/
def execCommandComplete (f : FrondId) (queue : Fin 7) (s : State) : Host.Outcome State Fault Refusal :=
  unlessInert s fun s =>
    match (s.completeOne f.val true queue.val).orElse (fun _ => s.completeOne f.val false queue.val) with
    | some s => s.pump f.val
    | none => s

/-- The next command of the task begins a step: the one waiting at the sequencer, else the list's. -/
def State.nextBegins (s : State) (t : Task) : Bool :=
  match t.fed with
  | c :: _ => (cmdHdr c).sb
  | [] => bitOf (BitVec.ofNat 32 (leNat (s.hbmRead (t.listAddr + 16 * t.cmdIndex) 4))) 8

/-- STEP_COMMIT: every command of the step has completed and the next begins a step (R101). -/
def execStepCommit (f : FrondId) (s : State) : Host.Outcome State Fault Refusal :=
  unlessInert s fun s =>
    match s.activeShare f.val with
    | none => s
    | some live =>
      let t := s.taskOf f.val live
      if t.idle && !t.committed && decide (t.step.startIndex ≠ t.cmdIndex) && s.nextBegins t then
        if live then (s.commitStep f.val live).pump f.val else (s.commitStep f.val live).runMarked t.ctx
      else s

/-! ### Timeouts (R110, R141) -/

/-- The timeout of tags and semaphores of a context in nanoseconds (Table 14.9 TAG_TO, R141). -/
def State.timeoutNs (s : State) (c : Nat) (live : Bool) : Rat :=
  let k := (s.ctx c).tagTo.toNat
  if live then (if k = 0 then 4 else (k : Rat)) * s.lineNs (s.outOf c) else if k = 0 then 1000000 else (k : Rat) * 10000

/-- Longer than the timeout since an instant. -/
def State.overdue (s : State) (t : Task) (since : W64) : Bool :=
  decide (s.timeoutNs t.ctx t.live < ((s.dtb.toNat - since.toNat : Nat) : Rat))

/-- A tagged access of a task faults: that of a queued command, which is skipped under the BV6 policy, or that of a transfer. -/
def State.tagFault (s : State) (f : Nat) (live : Bool) (k : Nat × Nat × Nat × Nat) : State :=
  if k.1 < 7 then
    match ((s.taskOf f live).queues.get k.1 []).find? (fun e => decide (e.index = k.2.1)) with
    | none => s
    | some e =>
      let s := s.taskFault f live stTagTimeout 2 (engineOf e.cmd) e.index
      if (s.taskOf f live).skipping then s.skipIssued f live k.1 e else s
  else
    match (s.frond f).dma.find? (fun d => (d.live == live) && decide (d.index = k.2.1) && decide (7 + b2n d.isIn = k.1)) with
    | none => s
    | some d => s.dmaFault f d stTagTimeout

/-- TAG_TIMEOUT: a tagged access blocked longer than the timeout (R141). -/
def execTagTimeout (f : FrondId) (now : W64) (s : State) : Host.Outcome State Fault Refusal :=
  unlessInert s fun s =>
    let s := s.at_ now
    match s.activeShare f.val with
    | none => s
    | some live =>
      let t := s.taskOf f.val live
      match t.tagSince.find? (fun p => s.overdue t p.2) with
      | none => s
      | some p => (s.tagFault f.val live p.1).pump f.val

/-- The command at the head of the list is skipped with its wait not granted, the wait having failed its step (R284). -/
def State.skipHead (s : State) (f : Nat) (live : Bool) : State :=
  let t := s.taskOf f live
  match t.fed with
  | [] => s
  | c :: _ =>
    let s := if (cmdHdr c).sb && t.idle then
        (((if t.committed then s else s.commitStep f live).openStep f live).modTask f live (fun t => { t with skipping := true }))
      else s
    (((s.modTask f live Task.taken).skipCommand f live c t.cmdIndex)).fireHeader f c t.cmdIndex

/-- SEM_TIMEOUT: a header wait or WAIT blocked longer than the timeout (R110). -/
def execSemTimeout (f : FrondId) (now : W64) (s : State) : Host.Outcome State Fault Refusal :=
  unlessInert s fun s =>
    let s := s.at_ now
    match s.activeShare f.val with
    | none => s
    | some live =>
      let t := s.taskOf f.val live
      if (t.semSince.map (fun p => decide (p.1 = t.cmdIndex) && s.overdue t p.2)).getD false then
        let e := ((t.fed.head?).map engineOf).getD 8
        let s := s.taskFault f.val live stSemTimeout 2 e t.cmdIndex
        (if (s.taskOf f.val live).skipping then s.skipHead f.val live else s).pump f.val
      else s

end Sys2Proof.Machine
end

