-- ==== Sys2Proof/Machine/Arrivals.lean ====
section
/-! DEFINITION. What reaches a frond from others: remote increments (R280), remote accesses (R239 to R241), combine partials (R244 to R248),
multicast credits and evictions (R252, R253), and rhizome chunks (R254 to R256). -/

namespace Sys2Proof.Machine

/-! ### Remote increments -/

/-- The increment a signal carries is this one. -/
def OutSignal.carries (g : OutSignal) (target : Nat) (sem : BitVec 6) (count task : BitVec 16) : Bool :=
  decide (g.target = target) && decide (g.sem = sem) && decide (g.count = count) && decide (g.task = task)

/-- The signal on its way that this increment is, with the frond that sent it. -/
def State.signalOf (s : State) (target : Nat) (sem : BitVec 6) (count task : BitVec 16) : Option (Nat × OutSignal) :=
  (List.range 256).findSome? (fun f => ((s.frond f).signals.find? (fun g => g.carries target sem count task)).map (fun g => (f, g)))

/-- A remote SIGNAL of frond f completes, its increment having reached the target: applied, held for the task it is for, or dropped as stale (R97, R280;
DEDUCED, log 136). Its header signal fires, and the sequencer goes on. -/
def State.signalDone (s : State) (f : Nat) (g : OutSignal) : State :=
  let x := s.frond f
  let s := s.setFrond f { x with signals := x.signals.erase g }
  let t := s.taskOf f g.live
  if t.taskNo = g.task ∧ 0 < t.signalsOut then
    let s := s.modTask f g.live (fun t => { t with signalsOut := t.signalsOut - 1 })
    (match g.header with
      | some sem => s.addSem f sem.toNat 1 8 g.index
      | none => s).pump f
  else s

/-- The increment has reached its target: the SIGNAL that sent it completes. -/
def State.takeSignal (s : State) (target : Nat) (sem : BitVec 6) (count task : BitVec 16) : State :=
  match s.signalOf target sem count task with
  | none => s
  | some (f, g) => s.signalDone f g

/-- The task that runs on a share of a frond. -/
def Frond.shareRuns (x : Frond) (live : Bool) : Bool := if live then x.live.isSome else x.simmer.isSome

/-- REMOTE_SIGNAL_ARRIVAL: applied to the running task's number, held for a later one, else discarded (R280). -/
def execRemoteSignalArrival (target : FrondId) (sem : BitVec 6) (count : BitVec 16) (task : BitVec 16) (s : State) :
    Host.Outcome State Fault Refusal :=
  unlessInert s fun s =>
    let f := target.val
    let live := s.divided f && semShare true true sem.toNat
    let r := s.shareTask f sem.toNat
    State.runAllMarked (
      if task = r then
        (if (s.frond f).shareRuns live then
          let s := s.modTask f live (fun t => { t with step := { t.step with incs := t.step.incs ++ [(sem, count)] } })
          (s.addSem f sem.toNat count.toNat 8 (s.taskOf f live).cmdIndex).pump f
        else s.count (cntFrond f 13) 1).takeSignal f sem count task
      else if laterTask task r then
        let x := s.frond f
        if x.heldIncs.length < 64 then
          (s.setFrond f { x with heldIncs := x.heldIncs ++ [{ task := task, sem := sem, count := count }] }).takeSignal f sem count task
        else s
      else (s.count (cntFrond f 13) 1).takeSignal f sem count task)

/-! ### Remote windows -/

/-- What the owner finds of an access at its first flit (R239). -/
inductive WinCheck where
  | good
  | stale
  | range
deriving DecidableEq, Repr

/-- The check of an access against window `win` of a frond. -/
def Frond.winCheck (x : Frond) (win : Nat) (gen : BitVec 16) (roff rows : Nat) : WinCheck :=
  let w := x.windows.get win {}
  if !w.isOpen || decide (w.gen ≠ gen) then .stale
  else if w.rows.toNat < roff + rows then .range
  else .good

/-- The rows of a write stored through the owner's window; tags are ignored (R241). -/
def State.storeRows (s : State) (f : Nat) (w : Window) (roff : Nat) (data : List (List Byte)) (bad : Bool) : State :=
  data.zipIdx.foldl (fun s p =>
    match (s.frond f).place (s.taskOf f w.live) (w.base.toNat + roff + p.2) with
    | some q => (s.rowWrite f q 0 p.1).markRow f q bad
    | none => s) s

/-- The rows that a read takes through the owner's window. -/
def State.fetchRows (s : State) (f : Nat) (w : Window) (roff n : Nat) : List (List Byte) × Bool × State :=
  (List.range n).foldl (fun (acc : List (List Byte) × Bool × State) i =>
    match (acc.2.2.frond f).place (acc.2.2.taskOf f w.live) (w.base.toNat + roff + i) with
    | some q => let r := acc.2.2.rowRead f q 0 512; (acc.1 ++ [r.1], acc.2.1 || acc.2.2.rowPoisoned f q, r.2)
    | none => acc) ([], false, s)

/-- The units of the rows an NW_WRITE delivers join the sender's signature (R449). -/
def rowsSum (dst win roff : Nat) (data : List (List Byte)) (bad : Bool) : W64 :=
  data.zipIdx.foldl (fun h p => h + signedSum 3 (fun c => put dst 32 + put win 28 + put (roff + p.2) 4 + c) p.1 bad) 0

/-- Data of a remote read written to the requesting task's rows. -/
def State.receiveRows (s : State) (src : Nat) (a : NetAccess) (data : List (List Byte)) (bad : Bool) : State :=
  data.zipIdx.foldl (fun s p =>
    match (s.frond src).place (s.taskOf src a.live) (a.lrow + p.2) with
    | some q =>
      ((s.rowWrite src q 0 p.1).markRow src q bad).modTask src a.live (fun t =>
        { t with step := { t.step with wroteRows := insertNat q.key t.step.wroteRows } })
    | none => s) s

/-- A window access that fails faults the task that issued it (R239, R251). -/
def State.windowFault (s : State) (src : Nat) (a : NetAccess) (c : WinCheck) : State :=
  let s := s.count (cntFrond a.dst 11) 1
  let code := if c = .range then stWindowRange else stWindowStale
  s.taskFault src a.live code 2 (if a.group.isSome then 4 else 6) a.cmd

/-- Task rows of a frond's share that lie in segments which accept accesses (R130). -/
def State.rowsOn (s : State) (f : Nat) (live : Bool) (row n : Nat) : Bool :=
  (List.range n).all (fun i => (((s.frond f).place (s.taskOf f live) (row + i)).map (s.frond f).reachable).getD true)

/-- Every row that an access reads or writes, on both sides, lies in such a segment. -/
def State.accessOn (s : State) (src : Nat) (a : NetAccess) (w : Window) : Bool :=
  s.rowsOn a.dst w.live (w.base.toNat + a.roff) a.rows && (a.write || s.rowsOn src a.live a.lrow a.rows)

/-- An access of a frond reaches the window it names. One to a row of a gated segment faults the task that issued it (R130). -/
def State.deliverAccess (s : State) (src : Nat) (a : NetAccess) : State :=
  match (s.frond a.dst).winCheck a.win a.gen a.roff a.rows with
  | .good =>
    let w := (s.frond a.dst).windows.get a.win {}
    if !s.accessOn src a w then s.taskFault src a.live stTspGated 2 (if a.group.isSome then 4 else 6) a.cmd
    else if a.write then
      let s := s.storeRows a.dst w a.roff a.data a.poisoned
      match a.group with
      | none => s.sign src a.live (rowsSum a.dst a.win a.roff a.data a.poisoned)
      | some (g, _) =>
        let grp := s.group g
        if grp.evicted.contains ((s.taskOf src a.live).taskNo, a.dst) then s else s.setGroup g { grp with due := grp.due.modify a.dst 0 (· + 1) }
    else
      let (data, bad, s) := s.fetchRows a.dst w a.roff a.rows
      s.receiveRows src a data bad
  | c => s.windowFault src a c

/-- The engine of an access and the frond it goes to: within one pair the mesh keeps the order of sending (R235). -/
def NetAccess.route (a : NetAccess) : Bool × Nat := (a.group.isSome, a.dst)

/-- The accesses that may arrive next: the oldest of each engine and destination. -/
def oldestEach : List NetAccess → List NetAccess
  | [] => []
  | a :: r => a :: (oldestEach r).filter (fun b => decide (b.route ≠ a.route))

/-- REMOTE_ACCESS_ARRIVAL: the first flit of an access of src reaches its window (R235, R239). Of several that the mesh keeps in no order the one
that arrives is free. -/
def execRemoteAccessArrival (src : FrondId) (s : State) : Host.Outcome State Fault Refusal :=
  unlessInert s fun s =>
    let next := oldestEach (s.frond src.val).netOut
    let (n, s) := if next.length ≤ 1 then ((0 : Nat), s) else let (w, s) := s.draw; (w.toNat % next.length, s)
    match next[n]? with
    | none => s
    | some a =>
      let x := s.frond src.val
      ((s.setFrond src.val { x with netOut := x.netOut.erase a }).deliverAccess src.val a).pump src.val

/-! ### Combine windows -/

/-- The next grant of a combine window: in order of arrival, or in fixed-order mode in ascending order once every remaining request is in
(R245 to R247, log 33). -/
def nextGrant (fixed : Bool) (a : CombineAcc) (senders : Nat) : CombineAcc :=
  match a.granted with
  | some _ => a
  | none =>
    if fixed then
      if a.count + a.requests.length = senders then
        match a.requests.min? with
        | some m => { a with granted := some m, requests := a.requests.erase m }
        | none => a
      else a
    else
      match a.requests with
      | m :: r => { a with granted := some m, requests := r }
      | [] => a

/-- The partial that a sender holds for a window. -/
def State.partialFor (s : State) (recv win sender : Nat) : Option OutPartial :=
  (s.frond sender).partials.find? (fun p => decide (p.recv = recv) && decide (p.win = win))

/-- A sender's partial dropped: its tile is FREE. One whose sender re-runs holds no tile. -/
def State.dropPartial (s : State) (sender : Nat) (p : OutPartial) : State :=
  let x := s.frond sender
  let x := { x with partials := x.partials.filter (fun q => decide (q ≠ p)) }
  s.setFrond sender (if p.held then x else x.setTile p.tile {})

/-- COMBINE_REQUEST: a sender's request reaches the receiver, which grants one at a time (R245). -/
def execCombineRequest (recv : FrondId) (win : BitVec 4) (sender : FrondId) (s : State) : Host.Outcome State Fault Refusal :=
  unlessInert s fun s =>
    let r := recv.val
    let w := win.toNat
    match s.partialFor r w sender.val with
    | none => s
    | some p =>
      if p.requested then s
      else
        let x := s.frond r
        let v := x.windows.get w {}
        if !v.isOpen || decide (v.gen ≠ p.gen) then
          let s := (s.count (cntFrond r 11) 1).dropPartial sender.val p
          (s.taskFault sender.val p.live stWindowStale 2 6 p.cmd).pump sender.val
        else
          let y := s.frond sender.val
          let s := s.setFrond sender.val { y with partials := y.partials.map (fun q => if q = p then { q with requested := true } else q) }
          let x := s.frond r
          let a := x.combines.get w {}
          let a := nextGrant (s.fixedOrder (s.taskOf r v.live).ctx) { a with requests := a.requests ++ [sender.val] } v.rows.toNat
          s.setFrond r { x with combines := x.combines.set w a }

/-- A partial added into an accumulator: in fast mode the accumulator starts at +0, in fixed-order mode the first partial sets it (R246, R247). -/
def CombineAcc.add (a : CombineAcc) (fixed : Bool) (p : OutPartial) : CombineAcc :=
  let join (j : Nat) : Entry :=
    if fixed && decide (a.count = 0) then p.entries.get j {} else Entry.join a.exact (a.entries.get j {}) (p.entries.get j {})
  { a with entries := ⟨(List.range 2048).map (fun j => (j, join j))⟩, poisoned := a.poisoned || p.poisoned, count := a.count + 1, granted := none }

/-- The units of a partial (R449): 12 B an entry when exact, else 8 B. -/
def partialSum (recv win : Nat) (p : OutPartial) : W64 :=
  signedSum 5 (fun u => put recv 32 + put win 28 + u)
    ((List.range 2048).flatMap (fun j => toLe (if p.b64 then 8 else 12) (p.entries.get j {}).bits.toNat)) p.poisoned

/-- COMBINE_PARTIAL_ARRIVAL: the last flit of the granted sender's partial (R244 to R248). -/
def execCombinePartialArrival (recv : FrondId) (win : BitVec 4) (sender : FrondId) (s : State) : Host.Outcome State Fault Refusal :=
  unlessInert s fun s =>
    let r := recv.val
    let w := win.toNat
    match s.partialFor r w sender.val with
    | none => s
    | some p =>
      let x := s.frond r
      let a := x.combines.get w {}
      if a.granted ≠ some sender.val || p.held then s
      else
        let v := x.windows.get w {}
        let fixed := s.fixedOrder (s.taskOf r v.live).ctx
        let a := nextGrant fixed (a.add fixed p) v.rows.toNat
        let x := { x with combines := x.combines.set w a, windows := x.windows.set w { v with arrived := BitVec.ofNat 4 a.count } }
        let s := ((s.setFrond r x).sign sender.val p.live (partialSum r w p)).dropPartial sender.val p
        let s := (List.range 8).foldl (fun s i => if ((s.frond r).tile i).combine = some w then s.deliverCombine r i else s) s
        (s.pump sender.val).pump r

/-! ### Multicast -/

/-- Fronds with a transfer to a group go on. -/
def State.pumpGroup (s : State) (g : Nat) : State :=
  (List.range 256).foldl (fun s f =>
    if (s.frond f).dma.any (fun d => decide (d.desc.kind = 1) && decide (d.desc.group.toNat = g)) then s.pump f else s) s

/-- MCAST_CREDIT_RETURN: a member has written a row and returns its credit (R252). -/
def execMcastCreditReturn (group : Byte) (member : FrondId) (s : State) : Host.Outcome State Fault Refusal :=
  unlessInert s fun s =>
    let g := s.group group.toNat
    let m := member.val
    if 0 < g.due.get m 0 then
      (s.setGroup group.toNat { g with due := g.due.modify m 0 (· - 1), spent := g.spent.modify m 0 (· - 1) }).pumpGroup group.toNat
    else s

/-- A member withholds credit: it holds none while every other member that is not evicted for the task holds at least one (R253). -/
def McastGroup.withholds (g : McastGroup) (task : BitVec 16) (m : Nat) : Bool :=
  g.members.getLsbD m && !g.evicted.contains (task, m) && decide (g.spent.get m 0 = 4)
    && (bitsOf g.members).all (fun k => decide (k = m) || g.evicted.contains (task, k) || decide (g.spent.get k 0 < 4))

/-- The task whose rows a group carries: of a transfer to it that has not ended, the one that began first (DEDUCED, log 137). -/
def State.groupTask (s : State) (g : Nat) : Option (BitVec 16) :=
  (List.range 256).foldl (fun best f =>
    ((s.frond f).dma.filter (fun d => decide (d.desc.kind = 1) && decide (d.desc.group.toNat = g) && !(s.frond f).dmaDone d)).foldl (fun best d =>
      let n := (s.taskOf f d.live).taskNo
      match best with
      | none => some n
      | some b => if laterTask b n then some n else best) best) none

/-- Rows of a task's transfers to a group that are on their way to one member. -/
def State.rowsTo (s : State) (g : Nat) (task : BitVec 16) (m : Nat) : Nat :=
  ((List.range 256).map (fun f => ((s.frond f).netOut.filter (fun a =>
    decide (a.dst = m) && decide (a.group.map Prod.fst = some g) && decide ((s.taskOf f a.live).taskNo = task))).length)).sum

/-- MCAST_EVICT: a member that has withheld credit past its limit is evicted for the rest of the task (R253). The rows on their way to it are now
fetched for it alone, and the credits that they held are free. -/
def execMcastEvict (group : Byte) (member : FrondId) (s : State) : Host.Outcome State Fault Refusal :=
  unlessInert s fun s =>
    let g := s.group group.toNat
    let m := member.val
    match s.groupTask group.toNat with
    | none => s
    | some n =>
      if g.valid && g.withholds n m then
        ((s.setGroup group.toNat { g with
          evicted := (n, m) :: g.evicted, spent := g.spent.modify m 0 (· - s.rowsTo group.toNat n m) }).count (cntFrond m 12) 1).pumpGroup group.toNat
      else s

/-! ### The rhizome chain -/

/-- A chunk that the frond before f on the chain has taken, or passes on, and that f takes next. -/
def State.chunkFor (s : State) (f : Nat) : Option (Nat × Chunk) :=
  match s.chainPrev f with
  | none => none
  | some g =>
    match (s.frond g).chain with
    | c :: _ => if c.taken && decide (s.passRoom g f = 0) && !s.passes f c then some (g, c) else none
    | [] => none

/-- The next chunk that frond f's own transfer injects at the head of the chain. -/
def State.injectFor (s : State) (f : Nat) : Option (DmaXfer × Chunk) :=
  ((s.frond f).dma.find? (fun d => decide (d.desc.kind = 2) && decide (d.sent < d.total)
      && decide ((s.walkAbsent d.desc.farSpace d.desc.walk d.sent 2048 false) = none)
      && decide ((s.chainFronds d.ctx d.desc.first.toNat d.desc.last.toNat).head? = some f))).map (fun d =>
    let (l, bad) := s.walkRead d.desc.farSpace d.desc.walk d.sent 2048
    (d, { src := f, xfer := d.id, ctx := d.ctx, number := d.sent / 2048, bytes := l, poisoned := bad || d.poisoned, taken := false }))

/-- The frond's chain input takes one more chunk. -/
def State.enterChain (s : State) (f : Nat) (c : Chunk) : State :=
  let x := s.frond f
  s.setFrond f { x with chain := x.chain ++ [{ c with taken := false }] }

/-- RHIZOME_CHUNK_ARRIVAL: a chunk enters frond f's chain input when that has room: one that passed on through the positions before it, one of the
frond before it where they are neighbours, or one injected from HBM (R254 to R256, R266). -/
def execRhizomeChunkArrival (f : FrondId) (s : State) : Host.Outcome State Fault Refusal :=
  unlessInert s fun s =>
    let x := s.frond f.val
    if 2 ≤ x.chain.length then s
    else
      match x.passing, s.chunkFor f.val with
      | c :: rest, _ =>
        let s := (s.setFrond f.val { x with passing := rest }).enterChain f.val c
        (match s.chainPrev f.val with
          | some g => s.retireChunks g
          | none => s).pump f.val
      | [], some (g, c) =>
        let y := s.frond g
        (((s.setFrond g { y with chain := y.chain.drop 1 }).enterChain f.val c).retireChunks g).pump f.val
      | [], none =>
        match s.injectFor f.val with
        | some (d, c) => ((s.setDma f.val d.id (fun e => { e with sent := e.sent + 2048 })).enterChain f.val c).pump f.val
        | none => s

end Sys2Proof.Machine
end

