-- ==== Sys2Proof/Machine/Descriptor.lean ====
section
/-! DEFINITION. Host descriptors: the 64 bytes of Tables 14.4 and 14.5 read as a command. -/

namespace Sys2Proof.Machine

/-- The fields, as (offset, size), that Table 14.5 names in the body of an opcode; `none` for an undefined opcode. -/
def bodyFields (op : Byte) : Option (List (Nat × Nat)) :=
  if op = opNop then some []
  else if op = opFence then some [(8, 8)]
  else if op = opCtxOpen then some [(4, 1), (5, 1), (8, 8)]
  else if op = opCtxClose then some []
  else if op = opModelBind then some [(8, 8), (0x10, 4), (0x14, 1), (0x18, 8), (0x20, 32)]
  else if op = opStreamStart then some [(8, 4), (0xC, 4)]
  else if op = opStreamStop then some [(4, 1), (8, 4)]
  else if op = opFrameSubmit then some [(4, 4), (8, 24), (0x20, 12), (0x2C, 4), (0x30, 4), (0x34, 2), (0x36, 2), (0x38, 8)]
  else if op = opLayerSet then some [(4, 1), (5, 1), (6, 1), (8, 8)]
  else if op = opCommit then some [(4, 1), (8, 4)]
  else if op = opWritebackSet then some [(4, 1), (5, 1), (6, 1), (7, 1), (8, 1), (0x10, 8), (0x18, 4), (0x1C, 4)]
  else if op = opJobRun then some [(4, 1), (8, 8), (0x10, 4), (0x14, 8)]
  else if op = opCopy then some [(4, 1), (8, 8), (0x10, 8), (0x18, 4), (0x1C, 6), (0x24, 12), (0x30, 12)]
  else if op = opSnapshot then some [(4, 1)]
  else if op = opWearSync then some [(4, 1), (5, 1), (6, 1), (8, 8), (0x10, 4)]
  else if op = opCounterDump then some [(4, 1), (8, 8), (0x10, 8)]
  else none

/-- Every byte of the body that no field names is zero (R386, "non-zero reserved bit"). -/
def reservedZero (l : List Byte) (fields : List (Nat × Nat)) : Bool :=
  (List.range 60).all (fun i => fields.any (fun f => decide (f.1 ≤ i + 4) && decide (i + 4 < f.1 + f.2)) || decide (l.getD (i + 4) 0 = 0))

/-- A byte that holds one of the numbers below n. -/
def finByte (n : Nat) (b : Byte) : Option (Fin n) := if h : b.toNat < n then some ⟨b.toNat, h⟩ else none

/-- A SPACE byte: 0 and 1 only. -/
def spaceByte (b : Byte) : Option Bool := if b = 0 then some false else if b = 1 then some true else none

/-- One side's space of a COPY: a device number only with remote HBM. -/
def copySpace (code dev : Nat) : Option Space :=
  if code = 2 then some (.remote (Fin.ofNat 4 dev))
  else if dev ≠ 0 then none
  else if code = 0 then some .hbm
  else if code = 1 then some .host
  else none

/-- The command that 64 descriptor bytes taken at index idx of ring sq spell; `none` is a malformed descriptor (DESC_BAD, R386).
`now` stands for the instant of the command where its row has one. -/
def decodeDesc (sq : RingId) (idx : W32) (now : W64) (l : List Byte) : Option Instr := do
  let op := l.getD 0 0
  let flags := l.getD 1 0
  let h : DescHdr :=
    { sq := sq, idx := idx, barrier := bitOf flags 0, irq := bitOf flags 1, srcHbm := bitOf flags 2,
      ctx := BitVec.ofNat 14 (leAt l 2 2) }
  let fields ← bodyFields op
  if fieldOf flags 7 3 ≠ 0 ∨ (h.srcHbm ∧ op ≠ opFrameSubmit) ∨ 2 ^ 14 ≤ leAt l 2 2 ∨ reservedZero l fields = false then none
  let b4 := l.getD 4 0
  let b5 := l.getD 5 0
  let b6 := l.getD 6 0
  let b7 := l.getD 7 0
  let b8 := l.getD 8 0
  let w8 (o : Nat) : Byte := BitVec.ofNat 8 (leAt l o 1)
  let w16 (o : Nat) : BitVec 16 := BitVec.ofNat 16 (leAt l o 2)
  let w32 (o : Nat) : W32 := BitVec.ofNat 32 (leAt l o 4)
  let w64 (o : Nat) : W64 := BitVec.ofNat 64 (leAt l o 8)
  if op = opNop then some (.nop h)
  else if op = opFence then some (.fence h (w64 8))
  else if op = opCtxOpen then
    if 1 < b4.toNat then none else (spaceByte b5).map (fun sp => .ctxOpen h (bitOf b4 0) sp (w64 8))
  else if op = opCtxClose then some (.ctxClose h)
  else if op = opModelBind then
    if 1 < (w8 0x14).toNat then none
    else some (.modelBind h (w64 8) (w32 0x10) (bitOf (w8 0x14) 0) (w64 0x18) (BitVec.ofNat 256 (leAt l 0x20 32)))
  else if op = opStreamStart then some (.streamStart h (w32 8) (w32 0xC))
  else if op = opStreamStop then if 1 < b4.toNat then none else some (.streamStop h (bitOf b4 0) (w32 8))
  else if op = opFrameSubmit then
    some (.frameSubmit h
      { frame := w32 4, addr0 := w64 8, addr1 := w64 0x10, addr2 := w64 0x18, pitch0 := w32 0x20, pitch1 := w32 0x24,
        pitch2 := w32 0x28, run0 := w32 0x2C, runC := w32 0x30, lines0 := w16 0x34, linesC := w16 0x36,
        ext0 := w16 0x38, ext1 := w16 0x3A, ext2 := w16 0x3C, ext3 := w16 0x3E })
  else if op = opLayerSet then do
    let out ← finByte 4 b4
    let sp ← spaceByte b6
    some (.layerSet h out b5 sp (w64 8))
  else if op = opCommit then if 15 < b4.toNat then none else some (.commit h (BitVec.ofNat 4 b4.toNat) (w32 8))
  else if op = opWritebackSet then do
    let out ← finByte 4 b4
    let point ← finByte 3 b5
    let sp ← spaceByte b7
    let buffers ← finByte 5 b8
    some (.writebackSet h { output := out, point := point, slot := b6, host := sp, buffers := buffers, base := w64 0x10,
                            pitch := w32 0x18, bufStride := w32 0x1C })
  else if op = opJobRun then
    if 3 < b4.toNat then none
    else some (.jobRun h { listEn := bitOf b4 0, listHost := bitOf b4 1, list := w64 8, count := w32 0x10,
                           ext0 := w16 0x14, ext1 := w16 0x16, ext2 := w16 0x18, ext3 := w16 0x1A })
  else if op = opCopy then do
    let src ← copySpace (fieldOf b4 1 0) (fieldOf b4 5 4)
    let dst ← copySpace (fieldOf b4 3 2) (fieldOf b4 7 6)
    some (.copy h src dst
      { addr := w64 8, run := w32 0x18, count1 := w16 0x1C, count2 := w16 0x1E, count3 := w16 0x20,
        stride1 := w32 0x24, stride2 := w32 0x28, stride3 := w32 0x2C }
      { addr := w64 0x10, run := w32 0x18, count1 := w16 0x1C, count2 := w16 0x1E, count3 := w16 0x20,
        stride1 := w32 0x30, stride2 := w32 0x34, stride3 := w32 0x38 })
  else if op = opSnapshot then if 1 < b4.toNat then none else some (.snapshot h (bitOf b4 0) now)
  else if op = opWearSync then do
    let out ← finByte 4 b4
    let sp ← spaceByte b6
    let body : WearBody := { output := out, host := sp, buffer := w64 8, bufBytes := w32 0x10 }
    if b5 = 0 then some (.panelWearSave h body true) else if b5 = 1 then some (.panelWearRestore h body) else none
  else if op = opCounterDump then (spaceByte b4).map (fun sp => .counterDump h sp (w64 8) (w64 0x10))
  else none

/-! ### Planes of a FRAME_SUBMIT -/

/-- A straight run of lines of `run` bytes. -/
def lineWalk (addr : Nat) (run : W32) (lines : BitVec 16) (pitch : W32) : Walk :=
  { addr := BitVec.ofNat 64 addr, run := run, count1 := lines, count2 := 1, count3 := 1, stride1 := pitch, stride2 := 0, stride3 := 0 }

/-- The planes of a FRAME_SUBMIT as (source walk, bytes before it in the slot). -/
def framePlanes (b : FrameBody) : List (Walk × Nat) :=
  let one (a : W64) (run : W32) (lines : BitVec 16) (pitch : W32) (off : Nat) : List (Walk × Nat) :=
    if a = 0 then [] else [(lineWalk a.toNat run lines pitch, off)]
  let n0 := b.run0.toNat * b.lines0.toNat
  let n1 := if b.addr1 = 0 then 0 else b.runC.toNat * b.linesC.toNat
  one b.addr0 b.run0 b.lines0 b.pitch0 0 ++ one b.addr1 b.runC b.linesC b.pitch1 n0 ++ one b.addr2 b.runC b.linesC b.pitch2 (n0 + n1)

/-- Places in the movers' queues that a descriptor's transfers need as it starts (R261). -/
def moverNeed : Instr → Nat
  | .frameSubmit _ b => (framePlanes b).length
  | .copy .. => 1
  | _ => 0

end Sys2Proof.Machine
end

