-- ==== Sys2Proof/Machine/Streams.lean ====
section
/-! DEFINITION. LSCH at a line tick (chapter 02): the first release of a frame, the release of its stripes, and the queue deadlines of its lines. -/

namespace Sys2Proof.Machine

/-! ### Instants -/

/-- Position of the present tick of output g among the lines of a frame. -/
def State.placedOf (s : State) (g : Nat) (frame : W32) : Int :=
  let t := s.tg g
  placed t.eff.vMin t.ext t.frame frame t.line.toNat

/-- DTB instant of line p of a frame as LSCH places it (R20, R25). -/
def State.instantOf (s : State) (g : Nat) (frame : W32) (p : Int) : W64 :=
  let t := s.tg g
  let d := (frame - t.frame).toInt
  let lines : Int := p + d * t.eff.vMin - (if d ≤ 0 then (t.ext : Int) else 0)
  BitVec.ofInt 64 (((t.boundary.toNat : Rat) + (lines : Rat) * t.eff.lineNs).floor)

/-- Beam lead B of an output. -/
def State.beamLead (s : State) (g : Nat) : Nat := (s.out g).beamLead.toNat

/-- Stripe height of a context's image. -/
def Ctx.stripeH (k : Ctx) : Nat := (k.bound.map (fun b => b.image.h.toNat)).getD 0

/-- Line of a frame at which its first stripe is released, N_0 - B - P (R25). -/
def State.firstLine (s : State) (c : Nat) (frame : W32) : Int :=
  let g := s.geom c (some frame) (s.ctx c).stripeH
  g.needs.headD 0 - s.beamLead (s.outOf c) - g.spacing

/-- The first release of a frame has come. -/
def State.releaseDue (s : State) (c : Nat) (frame : W32) : Bool := decide (s.firstLine c frame ≤ s.placedOf (s.outOf c) frame)

/-- Instant of the first release of a frame. -/
def State.releaseAt (s : State) (c : Nat) (frame : W32) : W64 := s.instantOf (s.outOf c) frame (s.firstLine c frame)

/-- The first output frame that an input frame governs (R389). -/
def Ctx.firstOut (k : Ctx) (input : W32) : W32 :=
  let i := (input - k.firstIn).toNat
  k.outFrame + BitVec.ofNat 32 ((i * k.cadOut.toNat + k.cadIn.toNat - 1) / k.cadIn.toNat)

/-! ### Staging state -/

/-- Every push of a trigger into a context of this device for a frame has completed (R472). An output frame that the source context's stream
does not have is pushed by nothing. -/
def State.haloDone (s : State) (trigger : Bool) (c : Nat) (frame : W32) : Bool :=
  (List.range 16).all (fun e =>
    let h := s.halo e
    !(h.en && (h.trigger == trigger) && decide (h.destDev = s.strap) && decide (h.destCtx.toNat = c))
      || (trigger && frameLt frame (s.ctx h.srcCtx.toNat).outFrame)
      || h.pushed.contains frame)

/-- Frame of a stream is staged, pushes included (R26, R275, R472). -/
def State.isStaged (s : State) (c : Nat) (input out : W32) : Bool :=
  (((s.ctx c).frameJob input).map FrameJob.staged).getD false && s.haloDone true c (out - 1)

/-! ### The first release of a frame -/

/-- Shifts that autorange has due for a frame enter the scale set (R197). -/
def State.takeShifts (s : State) (c : Nat) (frame : W32) : State :=
  let st := s.stream c
  let due := st.autorange.filter (fun p => frameLe p.1 frame)
  let s := s.setStream c { st with autorange := st.autorange.filter (fun p => !frameLe p.1 frame) }
  if due.isEmpty then s
  else s.setCtx c { s.ctx c with scaleSet := due.foldl (fun l p => withShifts l p.2) (s.ctx c).scaleSet }

/-- A switch of line program takes effect, and a switch to lite is reported (R533). -/
def State.takeLite (s : State) (c : Nat) : State :=
  let st := s.stream c
  match st.liteNext with
  | none => s
  | some l =>
    let s := s.setStream c { st with lite := l, liteNext := none }
    if l && !st.lite then s.ctxEvent c stLiteSwitch 0 0 0 0 else s

/-- The frame of a stream at its first release: it runs when its input is staged in time, else every line of it is held (R26, R439, R534). The NOT_RUN
records of a frame that is not staged are sent once that instant has passed. -/
def State.openFrame (s : State) (c : Nat) : State :=
  let frame := (s.ctx c).nextOut
  let s := match (s.stream c).bindWait with
    | some w => s.applyBind c w true
    | none => s
  let s := s.takeLite c
  let k := s.ctx c
  let out := s.outOf c
  let h := k.stripeH
  let geo := s.geom c (some frame) h
  let readers := readersOf ((s.halves out).map (fun n => s.half n (some frame))) c geo.srcH
  let input := s.inputOf c frame
  let st := s.stream c
  let quiet := (s.comp out).passThrough
  let late := (st.resumeAt.map (fun a => frameLt frame a)).getD false
  let staged := s.isStaged c input frame
  let runs := !quiet && !late && staged
  let unrun := if !quiet && !late && !staged then some s.dtb else none
  let s := s.setCtx c { k with nextOut := frame + 1 }
  let s := s.setStream c { st with srcH := geo.srcH, resumeAt := if late then st.resumeAt else none }
  let s := if runs then s.takeShifts c frame else s
  let k := s.ctx c
  let s := if runs && bitOf k.mode 5 && st.lastRun.isSome then s.setCtx c { k with recSwapped := !k.recSwapped } else s
  let s := if runs then s.setStream c { s.stream c with lastRun := some frame } else s
  let r : FrameRun :=
    { frame := frame, input := input, kind := kindOf st.lite (s.anyRow c), exts := ((k.frameJob input).map FrameJob.exts).getD [],
      lines := geo.srcH, total := geo.needs.length, released := 0, ended := [], done := 0, dropped := !runs, status := stOk, cause := 0,
      held := [], heldTotal := 0, judged := [], unrun := unrun, readers := readers, needs := geo.needs, spacing := geo.spacing, quiet := quiet,
      shifts := (s.ctx c).scaleSet, stats := {}, poisoned := false, recSwapped := (s.ctx c).recSwapped }
  let s := s.setStream c { s.stream c with frames := (s.stream c).frames ++ [r] }
  if runs then
    (s.setOf c).foldl (fun s f =>
      if ((s.frond f).newestCkpt c).isSome then s else s.stripeCkpt f c frame 0 (s.frond f).liveTask) s
  else if unrun.isSome then s
  else (List.range r.total).foldl (fun s i => s.lsNotRun c frame i) s

/-! ### Release of stripes -/

/-- LSCH makes stripe number `released` of a frame eligible on every frond of the set (R25). -/
def State.releaseStripe (s : State) (c : Nat) (r : FrameRun) : State :=
  let out := s.outOf c
  let n := r.needs.getD r.released 0
  let j : StripeJob :=
    { ctx := c, out := out, frame := r.frame, stripe := r.released, deadline := s.instantOf out r.frame (n - s.beamLead out),
      kind := r.kind, task := none }
  let s := (s.setOf c).foldl (fun s f => let x := s.frond f; s.setFrond f { x with released := x.released ++ [j] }) s
  (s.modFrame c r.frame (fun q => { q with released := q.released + 1 })).count (cntLsch 0) 1

/-- The stripes of a frame whose release has come. -/
def State.releaseDueStripes : Nat → State → Nat → W32 → State
  | 0, s, _, _ => s
  | fuel + 1, s, c, frame =>
    match s.frameRun c frame with
    | none => s
    | some r =>
      let out := s.outOf c
      if !r.dropped && decide (r.released < r.total)
          && decide (r.needs.getD r.released 0 - s.beamLead out - r.spacing ≤ s.placedOf out frame) then
        State.releaseDueStripes fuel (s.releaseStripe c r) c frame
      else s

/-! ### Lines taken from the layer line queue (R289) -/

/-- Bytes of one line of the planes that a live record's hold buffer takes from a line's sections, plane p at the record's plane address. -/
def State.holdLine (s : State) (x : Layer) (k : SlotKind) (q : QueueLine) : State :=
  let plane (l : LineSection) (p : Nat) : List Byte := if p = 0 then l.plane0 else if p = 1 then l.plane1 else l.plane2
  (x.planes k).zipIdx.foldl (fun s p =>
    let chroma := decide (p.2 ≠ 0) && decide (k = .video)
    if chroma && decide (x.sub = 2) && decide (q.line % 2 = 1) then s
    else
      let row := if chroma && decide (x.sub = 2) then q.line / 2 else q.line
      q.sections.foldl (fun s l =>
        let col := x.columnByte k p.2 l.col.toNat
        s.memWrite x.inHost (p.1.1.toNat + row * p.1.2.toNat + col) (plane l p.2)) s) s

/-- The live records that show context c in a frame, on the halves of its output, with their slot kinds. -/
def State.liveLayers (s : State) (c : Nat) (frame : W32) : List (SlotKind × Layer) :=
  (s.halves (s.outOf c)).filterMap (fun n => ((s.slotsFor n (some frame)).liveRecord c).map (fun p => (slotKind p.1, p.2)))

/-- The compositor takes a line that is ready from the queue: every record that shows the stream in that frame has it written to its hold buffer (R289). -/
def State.takeLine (s : State) (c : Nat) (frame : W32) (line : Nat) : State :=
  let n := s.outOf c
  let mine (q : QueueLine) : Bool :=
    decide (q.ctx = c) && decide (q.frame = frame) && decide (q.line = line) && q.complete && !q.poisoned && !q.sections.isEmpty
  match (s.comp n).queue.find? mine with
  | none => s
  | some q =>
    let s := (s.liveLayers c frame).foldl (fun s p => s.holdLine p.2 p.1 q) s
    let x := s.comp n
    s.setComp n { x with queue := x.queue.map (fun p => if mine p then { p with sections := [] } else p) }

/-! ### Queue deadlines (R47 to R49) -/

/-- The layer line queue holds the line, whole, in time and clean. -/
def State.lineReady (s : State) (c : Nat) (frame : W32) (line : Nat) : Bool :=
  (s.comp (s.outOf c)).queue.any (fun q => decide (q.ctx = c) && decide (q.frame = frame) && decide (q.line = line) && q.complete && !q.poisoned)

/-- The queue deadline of a line has come: the line is in its queue, and taken from it, or is held (R47, R289). -/
def State.judgeLine (s : State) (c : Nat) (r : FrameRun) (line : Nat) : State :=
  let held := !r.quiet && !s.lineReady c r.frame line
  let s := s.takeLine c r.frame line
  let s := s.modFrame c r.frame (fun q =>
    { q with judged := insertNat line q.judged, held := if held then insertNat line q.held else q.held, heldTotal := q.heldTotal + b2n held })
  if held then s.count (cntLsch 1) 1 else s

/-- The lines of a frame whose queue deadline has come, each at its own: the chroma of a 4:2:0 line may be read before a line above it (R21). -/
def State.judgeLines (s : State) (c : Nat) (r : FrameRun) : State :=
  let now := s.placedOf (s.outOf c) r.frame
  ((r.ahead.filter (fun line => ((r.reader line).map (fun y => decide ((y : Int) - 2 ≤ now))).getD false)).foldl (fun s line => s.judgeLine c r line) s
    ).reportHeld c r.frame false

/-- The queue deadlines of one frame at a tick; with the last of them the frame may be finished. -/
def State.judgeFrame (s : State) (c : Nat) (r : FrameRun) : State :=
  let s := s.judgeLines c r
  match s.frameRun c r.frame with
  | none => s
  | some q =>
    if q.ahead.isEmpty then
      let x := s.comp (s.outOf c)
      (s.setComp (s.outOf c) { x with queue := x.queue.filter (fun l => !(decide (l.ctx = c) && frameLt l.frame r.frame)) }).settleFrame c r.frame
    else s

/-! ### One stream at a tick -/

/-- A stream still opens its next frame: it runs, or it stops after a later one (R390). -/
def State.opensNext (s : State) (c : Nat) : Bool :=
  match (s.stream c).stopAfter with
  | none => true
  | some l => frameLe (s.ctx c).nextOut l

/-- First releases that have come; more than one only when a new geometry brings them forward. -/
def State.openDue : Nat → State → Nat → State
  | 0, s, _ => s
  | fuel + 1, s, c =>
    if s.opensNext c && s.releaseDue c (s.ctx c).nextOut then State.openDue fuel (s.openFrame c) c else s

/-- A live stream at a tick of its governing output. -/
def State.streamTick (s : State) (c : Nat) : State :=
  let s := (s.stream c).frames.foldl (fun s r => if r.unrun = some s.dtb then s else s.sayUnrun c r) s
  let s := State.openDue 4 s c
  let s := (s.stream c).frames.foldl (fun s r => State.releaseDueStripes (r.total - r.released) s c r.frame) s
  (s.stream c).frames.foldl (fun s r => s.judgeFrame c r) s

/-- A frame is staged. When its first release came at this very instant and found it not staged, the release is made again: it runs, and the stripes due
by now are released (R26). -/
def State.markStaged (s : State) (c : Nat) (input : W32) : State :=
  let s := s.modJob c input (fun q => { q with staged := true })
  match (s.stream c).frames.find? (fun r => decide (r.input = input) && decide (r.unrun = some s.dtb) && r.judged.isEmpty
      && decide (r.frame + 1 = (s.ctx c).nextOut)) with
  | none => s
  | some r =>
    let st := s.stream c
    let s := ((s.setStream c { st with frames := st.frames.filter (fun q => decide (q.frame ≠ r.frame)) }).setCtx c
      { s.ctx c with nextOut := r.frame }).openFrame c
    State.releaseDueStripes ((s.frameRun c r.frame).elim 0 FrameRun.total) s c r.frame

/-! ### Lines reaching the layer line queue (R427) -/

/-- Some raster line reads a line of the stripe that a picture line belongs to (R556). -/
def FrameRun.stripeRead (r : FrameRun) (h line : Nat) : Bool := (List.range h).any (fun i => (r.reader (line / h * h + i)).isSome)

/-- A line is whole once the sections that have arrived hold every byte of its first plane. -/
def QueueLine.whole (q : QueueLine) (x : Layer) (k : SlotKind) : Bool :=
  decide (x.sampleBytes k 0 * x.planeW k 0 ≤ ((q.sections.map (fun l => l.plane0.length)).sum))

/-- The units of a section join the signature of the frond that sent it, discarded or not (R449, R450). -/
def State.signSection (s : State) (l : LineSection) : State :=
  match (s.setOf l.ctx.val)[l.rank.toNat]? with
  | none => s
  | some f =>
    match (s.frond f).live with
    | none => s
    | some t =>
      if t.ctx = l.ctx.val ∧ t.frame = l.frame then
        s.sign f true (signedSum 4 (fun i => put (s.outOf l.ctx.val) 40 + put l.line.toNat 27 + put l.col.toNat 13 + i)
          (l.plane0 ++ l.plane1 ++ l.plane2) l.poisoned)
      else s

/-- LINE_QUEUE_ARRIVAL: a frond's section of a line enters the layer line queue, accepted once per frame (R427). One that comes late is discarded (R47), and
so is one of a stripe that no raster line reads (R556). -/
def execLineQueueArrival (l : LineSection) (s : State) : Host.Outcome State Fault Refusal :=
  unlessInert s fun s =>
    let c := l.ctx.val
    let s := s.signSection l
    match s.frameRun c l.frame with
    | none => s
    | some r =>
      if r.dropped || r.judged.contains l.line.toNat || decide (r.lines ≤ l.line.toNat) || !r.stripeRead (s.ctx c).stripeH l.line.toNat then s
      else
        let n := s.outOf c
        let x := s.comp n
        let mine (q : QueueLine) : Bool := decide (q.ctx = c) && decide (q.frame = l.frame) && decide (q.line = l.line.toNat)
        let q := (x.queue.find? mine).getD
          { ctx := c, frame := l.frame, line := l.line.toNat, ranks := [], sections := [], poisoned := false, complete := false }
        if q.complete || q.ranks.contains l.rank.toNat then s
        else
          let q := { q with ranks := insertNat l.rank.toNat q.ranks, sections := q.sections ++ [l], poisoned := q.poisoned || l.poisoned }
          let q := { q with complete := (s.liveLayers c l.frame).all (fun p => q.whole p.2 p.1) }
          s.setComp n { x with queue := x.queue.filter (fun p => !mine p) ++ [q] }

end Sys2Proof.Machine
end

