-- ==== Sys2Proof/Machine/Writeback.lean ====
section
/-! DEFINITION. Writeback of composed lines (R313, R314): buffers, lines visible or dropped, and the record of each frame. -/

namespace Sys2Proof.Machine

/-- Buffer of a frame of a writeback (R313). -/
def wbBuffer (w : Writeback) (frame : W32) : Nat := frame.toNat % w.body.buffers.val

/-- Address of line y of a frame of a writeback. -/
def wbAddr (w : Writeback) (frame : W32) (y : Nat) : Nat :=
  w.body.base.toNat + wbBuffer w frame * w.body.bufStride.toNat + y * w.body.pitch.toNat

/-- One more line of a frame is visible, or dropped. -/
def wbLineDone (l : List WbFrame) (frame : W32) (dropped : Bool) : List WbFrame :=
  if l.any (fun q => decide (q.frame = frame)) then
    l.map (fun q => if q.frame = frame then { q with lines := q.lines + 1, dropped := q.dropped || dropped } else q)
  else l ++ [{ frame := frame, lines := 1, dropped := dropped }]

/-- The record of a finished frame of a writeback (Table 14.7). -/
def State.wbRecord (s : State) (n : Nat) (w : Writeback) (q : WbFrame) : State :=
  let s := if q.dropped then s.setComp n { s.comp n with wbOverrunSeen := true } else s
  s.ctxEvent w.ctx.toNat (if q.dropped then stWbOverrun else stOk) opWritebackSet q.frame (BitVec.ofNat 32 (wbBuffer w q.frame)) (BitVec.ofNat 32 n)

/-- Frames of a writeback whose every line is visible or dropped, oldest first up to the first that is not: they are reported in frame order. -/
def wbFinished (w : Writeback) (vAct : Nat) : List WbFrame := w.frames.takeWhile (fun q => decide (vAct ≤ q.lines))

/-- Finished frames of an output's writebacks leave with their records. -/
def State.wbSettle (s : State) (n : Nat) : State :=
  let v := (s.tgOf n).eff.vAct.toNat
  let l := (s.comp n).writebacks
  let s := s.setComp n { s.comp n with writebacks := l.map (fun w => { w with frames := w.frames.drop (wbFinished w v).length }) }
  l.foldl (fun s w => (wbFinished w v).foldl (fun s q => s.wbRecord n w q) s) s

end Sys2Proof.Machine
end

