-- ==== Sys2Proof/Machine/Movers.lean ====
section
/-! DEFINITION. Stream movers (R261, R267 to R275): queues, movement, page faults, staging of live input. -/

namespace Sys2Proof.Machine

/-! ### Movement -/

/-- Bytes of a walk, from byte b on, that lie before the first page whose translation is absent or does not grant the access; and that page (R270). -/
def State.walkClear (s : State) (sp : Space) (w : Walk) (b n : Nat) (write : Bool) : Nat × Option Nat :=
  if sp = .host then
    (w.pieces b n).foldl (fun (acc : Nat × Option Nat) p =>
      match acc.2 with
      | some _ => acc
      | none =>
        match s.absentIn p.1 p.2 write with
        | none => (acc.1 + p.2, none)
        | some pg => (acc.1 + (4096 * pg - p.1), some pg)) (0, none)
  else (n, none)

/-- Bytes b to b + n - 1 of what a transfer moves, with their poison mark; a composed line comes from its compositor. -/
def State.xferRead (s : State) (x : Xfer) (b n : Nat) : List Byte × Bool :=
  match x.kind with
  | .line _ _ l => ((l.bytes.drop b).take n, false)
  | _ => s.walkRead x.srcSpace x.src b n

/-- n bytes of a transfer move on from its cursor, in units of 32 B that carry their own poison (R267, R285); a word that clean units cover whole loses
its mark (R410). -/
def State.xferUnits (s : State) (x : Xfer) (n : Nat) : State :=
  let r := (List.range ((n + 31) / 32)).foldl (fun (acc : State × List (Nat × Nat)) i =>
    let b := x.done + 32 * i
    let m := min 32 (n - 32 * i)
    let r := acc.1.xferRead x b m
    (acc.1.walkWrite x.dstSpace x.dst b r.1 r.2, if r.2 then acc.2 else acc.2 ++ x.dst.pieces b m)) (s, [])
  r.1.clearCovered x.dstSpace r.2

/-- A transfer moves to its end or to the first 32-B unit that needs a page it may not use, in whole units of the destination walk (R267, R268, R270);
each such fault of a live context's transfer counts once (R273). -/
def State.xferMove (s : State) (x : Xfer) : State × Xfer :=
  let left := x.total - x.done
  let a := match x.kind with
    | .line _ _ _ => (left, none)
    | _ => s.walkClear x.srcSpace x.src x.done left false
  let b := s.walkClear x.dstSpace x.dst x.done left true
  let m := min a.1 b.1
  let n := if m = left then left else m / 32 * 32
  let page := if n = left then none else if a.1 ≤ b.1 then a.2.orElse (fun _ => b.2) else b.2
  let s := s.xferUnits x n
  let s := match page with
    | none => s
    | some p =>
      let s := s.requestPage p
      if x.live && decide (x.page ≠ some p) then s.count (cntHif 1) 1 else s
  (s, { x with done := x.done + n, page := page })

/-- Traffic class of a transfer (Table 10.3, R472); a COPY without a deadline is of class 6 (R387). -/
def Xfer.cls (x : Xfer) : Nat :=
  match x.kind with
  | .line _ _ _ => 1
  | .stage _ _ => 4
  | .halo _ _ => 4
  | .copy _ => if x.live && decide (x.deadline ≠ 0xFFFFFFFF) then 4 else 6

/-- The order in which transfers are taken: the earlier deadline, then the lower class, then the lower source, here the context (R276, R277). -/
def Xfer.before (x y : Xfer) : Bool :=
  if x.deadline = y.deadline then decide (x.cls < y.cls) || (decide (x.cls = y.cls) && decide (x.ctx ≤ y.ctx)) else deadlineLe x.deadline y.deadline

/-- The transfer of a list that R276 takes next, the first of equals. -/
def earliest : List Xfer → Option Xfer
  | [] => none
  | x :: r =>
    match earliest r with
    | none => some x
    | some y => if x.before y then some x else some y

/-- A line that leaves its mover is visible in memory, or dropped and counted (R314). -/
def State.lineEnded (s : State) (n bind : Nat) (frame : W32) (dropped : Bool) : State :=
  let c := s.comp n
  let s := s.setComp n { c with writebacks := c.writebacks.map (fun w => if w.num = bind then { w with frames := wbLineDone w.frames frame dropped } else w) }
  if dropped then s.count (cntComp n 3) 1 else s

/-- A transfer that has moved stands among a mover's outstanding ones; a composed line leaves as soon as it is written. -/
def State.xferStands (s : State) (m : Nat) (x : Xfer) : State :=
  match x.kind with
  | .line n bind l =>
    if x.done = x.total then s.lineEnded n bind l.frame false
    else s.setMover m { s.mover m with outstanding := (s.mover m).outstanding ++ [x] }
  | _ => s.setMover m { s.mover m with outstanding := (s.mover m).outstanding ++ [x] }

/-- A mover with fewer than six transfers outstanding takes the pending one with the earliest deadline (R261), of those whose writes no replay
holds back (R435). -/
def State.moverFill : Nat → State → Nat → State
  | 0, s, _ => s
  | fuel + 1, s, m =>
    let u := s.mover m
    if 6 ≤ u.outstanding.length then s
    else
      match earliest (u.pending.filter (fun x => !s.overReplay none x.dstSpace x.dst)) with
      | none => s
      | some x =>
        let s := s.setMover m { u with pending := u.pending.filter (fun y => decide (y.id ≠ x.id)) }
        let (s, x) := s.xferMove x
        State.moverFill fuel (s.xferStands m x) m

/-- A COPY of the same ring and context, before descriptor h in ring order, has not yet moved all its bytes (R391). -/
def State.copyAhead (s : State) (h : DescHdr) : Bool :=
  (List.range 32).any (fun m => ((s.mover m).pending ++ (s.mover m).outstanding).any (fun x => match x.kind with
    | .copy g => decide (g.sq = h.sq) && decide (g.ctx = h.ctx) && decide ((g.idx - h.idx).toInt < 0)
    | _ => false))

/-- A transfer is queued on the lowest-numbered mover with room; its number is `nextXfer` (R261). -/
def State.post (s : State) (x : Xfer) : State :=
  match (List.range 32).find? (fun m => decide ((s.mover m).pending.length < 64)) with
  | none => s
  | some m =>
    let u := s.mover m
    let s := s.setMover m { u with pending := u.pending ++ [{ x with id := s.nextXfer }] }
    State.moverFill 64 { s with nextXfer := s.nextXfer + 1 } m

/-! ### Staging (R274, R275, R388) -/

/-- Every stripe of the frames that input frame p governs, and of those before it, has completed or been given up (R274). -/
def State.slotFree (s : State) (c : Nat) (input : W32) : Bool :=
  let k := s.ctx c
  let n := fieldOf k.slots 2 0
  if input.toNat < n ∨ input.toNat - n < k.firstIn.toNat then true
  else
    let p := input - BitVec.ofNat 32 n
    frameLt (k.lastOut p) k.nextOut
      && (s.stream c).frames.all (fun r => decide (p.toNat < r.input.toNat) || r.dropped || decide (r.done = r.total))

/-- Staging of a submitted frame begins: one transfer for each plane, with the first release of the first frame it governs as deadline (Table 10.3). -/
def State.stageFrame (s : State) (c : Nat) (j : FrameJob) : State :=
  match j.hdr, j.body with
  | some h, some b =>
    let k := s.ctx c
    let due := deadlineOf (s.releaseAt c (k.firstOut j.frame))
    let slot := k.slotAddr j.frame
    let l := framePlanes b
    let ids := (List.range l.length).map (fun i => s.nextXfer + i)
    let s := s.modJob c j.frame (fun q => { q with begun := true, xfers := ids })
    l.foldl (fun s p =>
      let dst := lineWalk (slot + p.2) p.1.run p.1.count1 p.1.run
      s.post { id := 0, kind := .stage c j.frame, ctx := c, live := true, srcSpace := if h.srcHbm then .hbm else .host, src := p.1,
               dstSpace := .hbm, dst := dst, total := p.1.total, done := 0, deadline := due, page := none }) s
  | _, _ => s

/-- Submitted frames of a stream whose slot is free begin staging, in order, as far as the movers have room. -/
def State.stageDue (s : State) (c : Nat) : State :=
  (s.ctx c).frames.foldl (fun s j =>
    match j.body with
    | none => s
    | some b =>
      if !j.begun && s.slotFree c j.frame && decide ((framePlanes b).length ≤ s.moverRoom) then s.stageFrame c j else s) s

/-- Every stream's due staging begins, and movers that waited for a replay go on. -/
def State.stageAll (s : State) : State :=
  let s := s.liveStreams.foldl (fun s c => s.stageDue c) s
  (List.range 32).foldl (fun s m => if (s.mover m).pending.isEmpty then s else State.moverFill 64 s m) s

/-- FRAME_STAGED: the last unit of every plane of the frame is in HBM, and every push it waits for has completed (R275, R472). -/
def execFrameStaged (ctx : Fin 48) (frame : W32) (s : State) : Host.Outcome State Fault Refusal :=
  unlessInert s fun s =>
    match (s.ctx ctx.val).frameJob frame with
    | none => s
    | some j =>
      if j.begun && j.xfers.isEmpty && decide (j.status = stOk) && s.haloDone false ctx.val frame then
        s.markStaged ctx.val frame
      else s

/-! ### The end of a transfer -/

/-- A transfer has left its mover with a status: what waited for it goes on. -/
def State.xferEnded (s : State) (x : Xfer) (status : BitVec 16) : State :=
  match x.kind with
  | .stage c frame =>
    (s.modJob c frame (fun j =>
      { j with xfers := j.xfers.filter (fun i => decide (i ≠ x.id)), status := if j.status = stOk then status else j.status })).settleJob c frame
  | .copy h => s.complete h opCopy status
  | .line n bind l => (s.lineEnded n bind l.frame (decide (status ≠ stOk))).wbSettle n
  | .halo e frame => if status = stOk then s.setHalo e { s.halo e with pushed := frame :: (s.halo e).pushed } else s

/-- A transfer leaves mover m; the mover takes its next one, and staging that waited for room begins. -/
def State.dropXfer (s : State) (m : Nat) (x : Xfer) (status : BitVec 16) : State :=
  let u := s.mover m
  let s := s.setMover m { u with
    pending := u.pending.filter (fun y => decide (y.id ≠ x.id)), outstanding := u.outstanding.filter (fun y => decide (y.id ≠ x.id)) }
  ((State.moverFill 64 s m).xferEnded x status).stageAll

/-- STREAM_MOVER_TRANSFER_DONE: a transfer all of whose units are delivered completes (R267). -/
def execStreamMoverTransferDone (mover : Fin 32) (xfer : Nat) (s : State) : Host.Outcome State Fault Refusal :=
  unlessInert s fun s =>
    match (s.mover mover.val).outstanding.find? (fun x => decide (x.id = xfer)) with
    | some x => if x.done = x.total then s.dropXfer mover.val x stOk else s
    | none => s

/-- PAGE_LATE: a live transfer that waits for a page past its deadline is cancelled (R273). -/
def execPageLate (mover : Fin 32) (xfer : Nat) (now : W64) (s : State) : Host.Outcome State Fault Refusal :=
  unlessInert s fun s =>
    let s := s.at_ now
    match (s.mover mover.val).outstanding.find? (fun x => decide (x.id = xfer)) with
    | some x =>
      if x.live && x.page.isSome && !deadlineLe (deadlineOf s.dtb) x.deadline then
        (s.setMover mover.val { s.mover mover.val with pageLateSeen := true }).dropXfer mover.val x stPageLate
      else s
    | none => s

/-! ### Pages (R270 to R272) -/

/-- Transfers of the movers that wait for a page. -/
def State.pageWaiters (s : State) (page : Nat) : List (Nat × Xfer) :=
  (List.range 32).flatMap (fun m => ((s.mover m).outstanding.filter (fun x => decide (x.page = some page))).map (fun x => (m, x)))

/-- Page requests that the limit of 512 held back are sent, for pages that still grant not what was asked (Table 14.1). -/
def State.askPages (s : State) : State :=
  let movers := (List.range 32).flatMap (fun m => (s.mover m).outstanding.filterMap Xfer.page)
  let fronds := (List.range 256).flatMap (fun f => (s.frond f).dma.filterMap DmaXfer.page)
  ((movers ++ fronds).filter (fun p => s.absent.contains p || s.readOnly.contains p)).foldl (fun s p => s.requestPage p) s

/-- Fronds with a transfer that waits for a page. -/
def State.frondWaiters (s : State) (page : Nat) : List Nat :=
  (List.range 256).filter (fun f => (s.frond f).dma.any (fun d => decide (d.page = some page)))

/-- A page has its translation again: every transfer that waited for it goes on from its cursor (R270). -/
def State.pagePresent (s : State) (page : Nat) : State :=
  let s := { s with
    absent := s.absent.filter (fun p => decide (p ≠ page)), readOnly := s.readOnly.filter (fun p => decide (p ≠ page))
    pageReqs := s.pageReqs.filter (fun p => decide (p ≠ page)) }
  let s := (s.pageWaiters page).foldl (fun s w =>
    let (s, x) := s.xferMove w.2
    let u := s.mover w.1
    let i := u.outstanding.findIdx (fun y => decide (y.id = x.id))
    let s := s.setMover w.1 { u with outstanding := u.outstanding.set i x }
    match x.kind with
    | .line _ _ _ => if x.done = x.total then s.dropXfer w.1 x stOk else s
    | _ => s) s
  State.askPages ((s.frondWaiters page).foldl (fun s f => s.pump f) s)

/-- A page request fails: every transfer that waited for the page faults with PRI_DENIED (R270). -/
def State.pageDenied (s : State) (page : Nat) : State :=
  let s := { s with pageReqs := s.pageReqs.filter (fun p => decide (p ≠ page)) }
  let s := (s.pageWaiters page).foldl (fun s w => s.dropXfer w.1 w.2 stPriDenied) s
  State.askPages ((s.frondWaiters page).foldl (fun s f =>
    (((s.frond f).dma.filter (fun d => decide (d.page = some page))).foldl (fun s d =>
      if ((s.frond f).dmaOf d.id).isSome then s.dmaFault f d stPriDenied else s) s).pump f) s)

/-- PAGE_RESPONSE to a request that is outstanding. -/
def execPageResponse (page : BitVec 52) (result : PageResult) (s : State) : Host.Outcome State Fault Refusal :=
  unlessInert s fun s =>
    if s.pageReqs.contains page.toNat then
      match result with
      | .success => s.pagePresent page.toNat
      | _ => s.pageDenied page.toNat
    else s

/-- PRI_TIMEOUT: no response within 100 ms (R270). -/
def execPriTimeout (page : BitVec 52) (s : State) : Host.Outcome State Fault Refusal :=
  unlessInert s fun s => if s.pageReqs.contains page.toNat then s.pageDenied page.toNat else s

/-- A page with the translation that the host gives after an invalidation: whether it grants reads, and writes, is the host's answer (log 80). -/
def State.translate (s : State) (page : Nat) (answer : W64) : State :=
  { s with
    absent := if bitOf answer 0 then insertNat page s.absent else s.absent.filter (fun p => decide (p ≠ page))
    readOnly := if bitOf answer 1 then insertNat page s.readOnly else s.readOnly.filter (fun p => decide (p ≠ page)) }

/-- ATS_INVALIDATION: accesses issued from here on use a new translation of the page, and stop when it grants them nothing (R270, R272). Those that used
the old one have all been issued, so the invalidation completes. -/
def execAtsInvalidation (page : BitVec 52) (s : State) : Host.Outcome State Fault Refusal :=
  unlessInert s fun s =>
    let (answer, s) := s.draw
    State.translate { s with invalDone := s.invalDone + 1 } page.toNat answer

end Sys2Proof.Machine
end

