-- ==== Sys2Proof/Machine/Contexts.lean ====
section
/-! DEFINITION. The descriptors that act on contexts (Table 14.5, R387 to R400): CTX_OPEN, CTX_CLOSE, MODEL_BIND, STREAM_START, STREAM_STOP,
FRAME_SUBMIT, JOB_RUN and COPY. A descriptor's own fields are checked first, then its context, then the structures it names (log 34). -/

namespace Sys2Proof.Machine

/-! ### CTX_OPEN and CTX_CLOSE -/

/-- Bytes of a context image that Table 14.9 names. -/
def ctxNamed (i : Nat) : Bool := decide (i < 0xC) || (decide (0x10 ≤ i) && decide (i < 0x94)) || (decide (0x98 ≤ i) && decide (i < 0xC8))

/-- The ranges of a context image (Table 14.9, R192); the device's own fields are ignored (R397). -/
def ctxImageOk (live : Bool) (l : List Byte) : Bool :=
  let b (o : Nat) : Nat := leAt l o 1
  let slots := b 4 % 8
  (List.range 256).all (fun i => ctxNamed i || decide (l.getD i 0 = 0))
    && decide (b 1 < 64) && decide (b 4 < 32) && decide (b 5 < 64)
    && (List.range 4).all (fun d => decide (leAt l 8 2 / 16 ^ d % 16 ≤ 8))
    && (List.range 64).all (fun t => let e := signed 8 (b (0x40 + t)); decide (-64 ≤ e) && decide (e ≤ 63))
    && decide (2 ≤ slots) && decide (slots ≤ 4) && decide (leAt l 0x88 8 % 512 = 0) && decide (leAt l 0x90 4 % 512 = 0)
    && (if live then decide (1 ≤ b 0xA) && decide (1 ≤ b 0xB) && decide (b 2 ≤ 3) else decide (b 0xA = 1) && decide (b 0xB = 1))

/-- HBM that a context image names: the input slots of a live context, the statistics block, and the recurrent-state bases; an address of
zero is one not in use (R386, log 34). -/
def State.ctxHbmOk (s : State) (live : Bool) (l : List Byte) : Bool :=
  let slotBytes := leAt l 0x90 4
  let stats := leAt l 0x80 8
  (!live || decide (slotBytes = 0) || !s.guarded (leAt l 0x88 8) (leAt l 4 1 % 8 * slotBytes))
    && (decide (stats = 0) || decide (hbmBytes ≤ stats) || !s.guarded stats 1024)
    && (List.range 4).all (fun i => let r := leAt l (0x98 + 8 * i) 8; decide (r = 0) || !s.guarded r 1)

/-- The fields of a context image copied into a context; the device's own fields stay. -/
def Ctx.copyImage (k : Ctx) (l : List Byte) : Ctx :=
  let w8 (o : Nat) : Byte := l.getD o 0
  { k with
    mode := w8 1, output := w8 2, priority := w8 3, slots := w8 4, evtCq := w8 5, tagTo := BitVec.ofNat 16 (leAt l 6 2)
    bucketFix := BitVec.ofNat 16 (leAt l 8 2), cadIn := w8 0xA, cadOut := w8 0xB
    scaleSet := (List.range 64).map (fun t => w8 (0x40 + t)), stats := BitVec.ofNat 64 (leAt l 0x80 8)
    slotBase := BitVec.ofNat 64 (leAt l 0x88 8), slotBytes := BitVec.ofNat 32 (leAt l 0x90 4)
    recs := (List.range 4).map (fun i => BitVec.ofNat 64 (leAt l (0x98 + 8 * i) 8)) }

/-- CTX_OPEN copies the context image (R397, R399, R400). -/
def execCtxOpen (h : DescHdr) (update inHbm : Bool) (image : W64) (s : State) : Host.Outcome State Fault Refusal :=
  descriptor h s fun s =>
    let c := h.ctx.toNat
    let k := s.ctx c
    let a := image.toNat
    let done (st : BitVec 16) : State := s.complete h opCtxOpen st
    if inHbm && s.guarded a 256 then done stDescBad
    else if update && (k.state = .running || k.state = .stopping || k.job.isSome) then done stCtxBusy
    else if (if update then decide (k.state ≠ .opened) && decide (k.state ≠ .bound) else decide (k.state ≠ .closed)) then done stCtxBad
    else if !inHbm && (s.absentIn a 256).isSome then s.descRingFault h opCtxOpen
    else
      let l := s.memRead (!inHbm) a 256
      if !ctxImageOk (liveCtx c) l || !s.ctxHbmOk (liveCtx c) l then done stDescBad
      else
        let k := if update then k else { ({} : Ctx) with state := .opened }
        (s.setCtx c (k.copyImage l)).complete h opCtxOpen stOk

/-- CTX_CLOSE: the model is unbound, groups and regions are freed and pins released (Table 14.5, R128, R399). -/
def execCtxClose (h : DescHdr) (s : State) : Host.Outcome State Fault Refusal :=
  descriptor h s fun s =>
    let c := h.ctx.toNat
    let k := s.ctx c
    if k.state = .closed then s.complete h opCtxClose stCtxBad
    else if k.state = .running || k.state = .stopping || k.job.isSome then s.complete h opCtxClose stCtxBusy
    else ((s.unbindImage c).setCtx c {}).complete h opCtxClose stOk

/-! ### MODEL_BIND -/

/-- Every bucket combination of an image has a variant of the kind. -/
def TaskImage.hasKind (t : TaskImage) (kind : BitVec 2) : Bool :=
  let combos := (List.range t.ndyn.toNat).foldl (fun (n : Nat) d => n * (t.sizesOf d).length) 1
  decide ((t.variants.filter (fun v => decide (v.kind = kind))).length = combos)

/-- The variants and the W_LITE that R109 requires of a line program: NORMAL and ROW for every bucket combination; LITE and LITE_ROW for every one
where a LITE variant is carried for any. -/
def TaskImage.lineOk (t : TaskImage) : Bool :=
  t.hasKind 0 && t.hasKind 1 && (!t.variants.any (fun v => decide (v.kind = 2)) || (t.hasKind 2 && t.hasKind 3)) && decide (t.wLite.toNat ≤ t.w.toNat)

/-- What a live context asks of an image (R109, R431, R445). -/
def TaskImage.liveOk (t : TaskImage) (fixed : Bool) : Bool :=
  t.lineOk && decide (t.w.toNat ≤ 180000) && decide (t.wRow.toNat ≤ 180000) && decide (t.wLite.toNat ≤ 180000)
    && !(decide (t.order = 0) && fixed) && !(decide (t.order = 1) && !fixed)

/-- The resources that a bind needs: usable fronds and pins, and for a live context groups and what its image must carry. A simmer context's groups
are allocated for each job by its JOB_RUN (R250). -/
def State.bindFits (s : State) (c : Nat) (b : Bound) : Bool :=
  decide (b.fronds.length = b.image.fronds.toNat) && s.setUsable b.mask && s.pinsFit c b
    && (!liveCtx c || (s.groupsFit b.image && b.image.liveOk (bitOf (s.ctx c).mode 0)))

/-- The groups that a bind allocates: those of a live context (R250). -/
def State.bindGroups (s : State) (c : Nat) (b : Bound) : List Nat × State := if liveCtx c then s.takeGroups c b else ([], s)

/-- Admission of a running stream with another image, on the sets it would leave and enter (R29, R34, R126, R414). -/
def State.rebindAdmits (s : State) (c : Nat) (b : Bound) : Bool :=
  let s' := s.setCtx c { s.ctx c with bound := some b }
  !s'.overlaps c b.mask && s'.setAdmits b.mask && (s.poolPlace s.liveStreams b).isSome && s.roomFits c b

/-- MODEL_BIND: the image check, admission, groups and pinned rows; on a running stream the image waits for the next first release. -/
def execModelBind (h : DescHdr) (image : W64) (imageBytes : W32) (sharedPin : Bool) (pinned : W64) (mask : BitVec 256) (s : State) :
    Host.Outcome State Fault Refusal :=
  descriptor h s fun s =>
    let c := h.ctx.toNat
    let k := s.ctx c
    let done (st : BitVec 16) : State := s.complete h opModelBind st
    if s.guarded image.toNat imageBytes.toNat || decide (mask = 0) then done stDescBad
    else if k.state = .closed then done stCtxBad
    else if k.state = .stopping || k.job.isSome || (s.stream c).bindWait.isSome then done stCtxBusy
    else
      match parseImage (fun o n => s.hbmRead (image.toNat + o) n) imageBytes.toNat with
      | .error st => done st
      | .ok t =>
        let b : Bound := { image := t, addr := image, bytes := imageBytes, sharedPin := sharedPin, pinned := pinned, mask := mask }
        if decide (t.pBytes ≠ 0) && s.guarded pinned.toNat t.pBytes.toNat then done stDescBad
        else if decide (t.kind = 0) ≠ liveCtx c then done stCtxBad
        else
          match checkImage t (s.checkFor c t mask) (s.imageRead b) with
          | some (st, _) => done st
          | none =>
            if k.state = .running then
              if s.bindFits c b && s.rebindAdmits c b then
                let place := (s.poolPlace s.liveStreams b).getD 0
                let (groups, s) := s.bindGroups c b
                let s := s.pinAll c b
                s.setStream c { s.stream c with bindWait := some { hdr := h, bound := b, groups := groups, ckptAt := place } }
              else done stAdmitDenied
            else
              let s' := s.unbindImage c
              if s'.bindFits c b then
                let (groups, s) := s'.bindGroups c b
                let s := (s.pinAll c b).bindImage c b groups
                (s.setCtx c { s.ctx c with state := .bound }).complete h opModelBind stOk
              else done stAdmitDenied

/-! ### STREAM_START and STREAM_STOP -/

/-- A live record of the governing output, in effect or pending, names the context (R557). -/
def State.hasRecord (s : State) (c : Nat) : Bool :=
  (s.halves (s.outOf c)).any (fun n =>
    ((s.comp n).applied.liveRecord c).isSome || (s.comp n).pending.any (fun p => (p.slots.liveRecord c).isSome))

/-- The height of context c's picture by the record in effect, else by a pending one (R557). -/
def State.pictureH (s : State) (c : Nat) : Nat :=
  (((s.halves (s.outOf c)).findSome? (fun n =>
    ((s.comp n).applied.liveRecord c).orElse (fun _ => (s.comp n).pending.findSome? (fun p => p.slots.liveRecord c)))).map (fun p => p.2.srcH.toNat)).getD 0

/-- The first output frame, from `frame` on, whose first release lies ahead (R390). -/
def State.aheadFrom : Nat → State → Nat → W32 → W32
  | 0, _, _, frame => frame
  | fuel + 1, s, c, frame => if s.releaseDue c frame then State.aheadFrom fuel s c (frame + 1) else frame

/-- Where the checkpoint slots of a stream that starts go. -/
def State.startPlace (s : State) (c : Nat) (b : Bound) : Option Nat := s.poolPlace (s.liveStreams.filter (fun d => decide (d ≠ c))) b

/-- Admission of a stream that starts, in the state with the stream running (R29, R30, R34, R126, R414, R486, R557, Table 02.5). -/
def State.startAdmits (s : State) (c : Nat) (b : Bound) : Bool :=
  let g := s.outOf c
  s.hasRecord c && (s.out g).en && (s.tg g).running && s.setUsable b.mask && !s.overlaps c b.mask && s.setAdmits b.mask && (s.startPlace c b).isSome
    && s.roomFits c b

/-- STREAM_START (R390, R399): the stream is admitted, its OUT_FRAME fixed and its set taken up; the descriptor completes once every working area is
placed, which may wait for a simmer job's yield (R126, R127). -/
def execStreamStart (h : DescHdr) (firstIn outFrame : W32) (s : State) : Host.Outcome State Fault Refusal :=
  descriptor h s fun s =>
    let c := h.ctx.toNat
    let k := s.ctx c
    match k.bound with
    | none => s.complete h opStreamStart stCtxBad
    | some b =>
      if !liveCtx c then s.complete h opStreamStart stCtxBad
      else if k.state ≠ .bound then s.complete h opStreamStart stCtxBusy
      else
        let s' := (s.setCtx c { k with state := .running, firstIn := firstIn, recSwapped := false }).setStream c { active := true, srcH := s.pictureH c }
        let s' := s'.setStream c { s'.stream c with srcH := (s'.geom c none b.image.h.toNat).srcH }
        if s'.startAdmits c b then
          let now := (s'.tg (s'.outOf c)).frame
          let out := s'.aheadFrom 4 c (if frameLt outFrame now then now else outFrame)
          let s := s'.setCtx c { s'.ctx c with outFrame := out, nextOut := out }
          let s := s.setStream c { s.stream c with startHdr := some h, ckptAt := (s.startPlace c b).getD 0 }
          ((s.occupy c).reportAdmission b.mask).finishStart c
        else s.complete h opStreamStart stAdmitDenied

/-- STREAM_STOP: the stream ends after the output frame in progress, or after the last one that LAST_IN governs (R390). -/
def execStreamStop (h : DescHdr) (stopNow : Bool) (lastIn : W32) (s : State) : Host.Outcome State Fault Refusal :=
  descriptor h s fun s =>
    let c := h.ctx.toNat
    let k := s.ctx c
    if k.state = .stopping then s.complete h opStreamStop stCtxBusy
    else if k.state ≠ .running then s.complete h opStreamStop stCtxBad
    else
      let opened := k.nextOut - 1
      let wanted := if lastIn.toNat < k.firstIn.toNat then opened else k.lastOut lastIn
      let last := if stopNow || frameLt wanted opened then opened else wanted
      let s := s.setCtx c { k with state := .stopping }
      (s.setStream c { s.stream c with stopAfter := some last, stopHdr := some h }).maybeEnd c

/-! ### FRAME_SUBMIT -/

/-- The checks of R388 on a FRAME_SUBMIT's body, made when it is taken. -/
def State.submitOk (s : State) (k : Ctx) (srcHbm : Bool) (b : FrameBody) : Bool :=
  let l := framePlanes b
  decide (b.addr0 ≠ 0)
    && l.all (fun p => p.1.ok && decide (p.1.total % 512 = 0)
        && (!srcHbm || (p.1.pieces 0 p.1.total).all (fun q => !s.guarded q.1 q.2)))
    && decide ((l.map (fun p => p.1.total)).sum ≤ k.slotBytes.toNat)
    && (k.lastSubmit.map (fun f => decide (f.toNat < b.frame.toNat))).getD true

/-- Held lines that an input frame governs and that no FRAME_SUBMIT had named: of frames that have left, and of those in progress (R389). -/
def State.heldBefore (s : State) (c : Nat) (input : W32) : Nat :=
  (((s.stream c).unsubmitted.filter (fun p => decide (p.1 = input))).map Prod.snd).sum

/-- Lines of the frames in progress of an input frame that are or will be held. -/
def State.heldNow (s : State) (c : Nat) (input : W32) : Nat :=
  (((s.stream c).frames.filter (fun r => decide (r.input = input))).map (fun r =>
    r.heldTotal + (if r.quiet then 0 else r.ahead.length))).sum

/-- FRAME_SUBMIT: the frame is staged when its slot is free; one that governs no output frame still ahead completes at once (R388, R389). -/
def execFrameSubmit (h : DescHdr) (b : FrameBody) (s : State) : Host.Outcome State Fault Refusal :=
  if s.moverRoom < (framePlanes b).length || s.copyAhead h then .next s
  else descriptor h s fun s =>
    let c := h.ctx.toNat
    let k := s.ctx c
    if !liveCtx c || decide (k.state ≠ .running) || bitOf k.slots 3 then s.completeWith h opFrameSubmit stCtxBad b.frame 0 0 0
    else if !s.submitOk k h.srcHbm b then s.completeWith h opFrameSubmit stDescBad b.frame 0 0 0
    else
      let before := s.heldBefore c b.frame
      let st := s.stream c
      let s := s.setStream c { st with unsubmitted := st.unsubmitted.filter (fun p => decide (b.frame.toNat < p.1.toNat)) }
      let k := { k with lastSubmit := some b.frame }
      let ahead := decide (k.firstIn.toNat ≤ b.frame.toNat) && frameLe (k.firstOut b.frame) (k.lastOut b.frame) && frameLe k.nextOut (k.lastOut b.frame)
      if !ahead then
        let s := s.setCtx c k
        s.completeWith h opFrameSubmit stOk b.frame 0 (BitVec.ofNat 32 (min 0xFFFF (before + s.heldNow c b.frame))) 0
      else
        let j : FrameJob :=
          { hdr := some h, frame := b.frame, exts := [b.ext0, b.ext1, b.ext2, b.ext3], body := some b, xfers := [], begun := false, staged := false,
            status := stOk, held := before, run := 0, finished := false, sat := 0, ufl := 0, cause := 0 }
        (s.setCtx c { k with frames := k.frames ++ [j] }).stageDue c

/-! ### JOB_RUN -/

/-- JOB_RUN: a pointer list within its limits and, in host memory, with a translation for all of it (R380), then a job that waits for dispatch; a list of no
entries completes at once (R230 to R232). -/
def execJobRun (h : DescHdr) (b : JobBody) (s : State) : Host.Outcome State Fault Refusal :=
  if s.copyAhead h then .next s
  else descriptor h s fun s =>
    let c := h.ctx.toNat
    let k := s.ctx c
    match k.bound with
    | none => s.complete h opJobRun stCtxBad
    | some bd =>
      if liveCtx c then s.complete h opJobRun stCtxBad
      else if k.job.isSome then s.complete h opJobRun stCtxBusy
      else if b.listEn && (decide (4096 < b.count.toNat) || decide (b.list.toNat % 64 ≠ 0)) then s.complete h opJobRun stListBad
      else if b.listEn && !b.listHost && s.guarded b.list.toNat (16 * b.count.toNat) then s.complete h opJobRun stDescBad
      else if !s.setUsable bd.mask || !s.groupsFit bd.image then s.complete h opJobRun stAdmitDenied
      else if b.listEn && b.listHost && (s.absentIn b.list.toNat (16 * b.count.toNat)).isSome then s.descRingFault h opJobRun
      else
        let (_, s) := s.takeGroups c bd
        let j : Job :=
          { hdr := h, body := b, inst := 0, ended := [], suspended := false, started := false, status := stOk, cause := 0, stats := {},
            failedEntry := none, marked := false, taskNo := 0 }
        let s := s.setCtx c { k with job := some j }
        if b.listEn && decide (b.count = 0) then s.completeJob c stOk none else s

/-! ### COPY -/

/-- An earlier descriptor of the ring works with the context still: a job that runs, or a frame not yet staged (R391). -/
def State.workAhead (s : State) (h : DescHdr) : Bool :=
  let k := s.ctx h.ctx.toNat
  let before (g : DescHdr) : Bool := decide (g.sq = h.sq) && decide ((g.idx - h.idx).toInt < 0)
  (k.job.map (fun j => before j.hdr)).getD false
    || k.frames.any (fun j => !j.staged && decide (j.status = stOk) && (j.hdr.map before).getD false)

/-- One side of a COPY names only HBM that BAR4 serves (R386). -/
def State.sideServed (s : State) (sp : Space) (w : Walk) : Bool :=
  match sp with
  | .hbm => (w.pieces 0 w.total).all (fun p => !s.guarded p.1 p.2)
  | _ => true

/-- A side in another device's HBM is reached, and lies where that device serves it (R469, R470). -/
def State.sideStatus (s : State) (sp : Space) (w : Walk) : BitVec 16 :=
  match sp with
  | .remote d => if !s.reaches d then stLinkFailed else if spaceHolds sp w && s.remoteServes sp w then stOk else stXferBad
  | _ => stOk

/-- COPY: a stream mover moves the bytes; one side lies in this device's HBM (Table 10.1, R263), after what earlier descriptors of its ring do with its
context (R391). That of a running live context goes by its next first release, any other has no deadline (R387). -/
def execCopy (h : DescHdr) (srcSpace dstSpace : Space) (src dst : Walk) (s : State) : Host.Outcome State Fault Refusal :=
  if decide (s.moverRoom = 0) || s.copyAhead h || s.workAhead h then .next s
  else descriptor h s fun s =>
    let srcSpace := s.served srcSpace
    let dstSpace := s.served dstSpace
    let c := h.ctx.toNat
    let k := s.ctx c
    let done (st : BitVec 16) : State := s.complete h opCopy st
    if !src.ok || !dst.ok || decide (src.total % 512 ≠ 0) || decide (src.total ≠ dst.total) || !s.sideServed srcSpace src || !s.sideServed dstSpace dst then
      done stDescBad
    else if k.state = .closed then done stCtxBad
    else if srcSpace ≠ .hbm ∧ dstSpace ≠ .hbm then done stXferBad
    else if s.sideStatus srcSpace src ≠ stOk then done (s.sideStatus srcSpace src)
    else if s.sideStatus dstSpace dst ≠ stOk then done (s.sideStatus dstSpace dst)
    else
      let run := liveCtx c && decide (k.state = .running)
      s.post { id := 0, kind := .copy h, ctx := c, live := liveCtx c, srcSpace := srcSpace, src := src, dstSpace := dstSpace, dst := dst,
               total := src.total, done := 0, deadline := if run then deadlineOf (s.releaseAt c k.nextOut) else 0xFFFFFFFF, page := none }

end Sys2Proof.Machine
end

