-- ==== Sys2Proof/Machine/Start.lean ====
section
/-! DEFINITION. Starting work on fronds: live stripes (R37, R105, R108), simmer yield and resume (R39, R82), and the dispatch of simmer jobs
(R105, R231, R232). -/

namespace Sys2Proof.Machine

/-- The stripe that a frond starts next: the earliest deadline, then the lower output, then the lower context (R37). -/
def earliestStripe : List StripeJob → Option StripeJob
  | [] => none
  | a :: r =>
    match earliestStripe r with
    | none => some a
    | some b =>
      let before := if a.deadline ≠ b.deadline then decide (a.deadline.toNat < b.deadline.toNat)
        else if a.out ≠ b.out then decide (a.out < b.out) else decide (a.ctx ≤ b.ctx)
      if before then some a else some b

/-- A frond can run tasks: served by a column, powered and not failed. -/
def State.frondRuns (s : State) (f : Nat) : Bool :=
  let x := s.frond f
  !s.lost f && !x.failed && decide (x.phase = .on)

/-- Tasks of context c may start: no repair holds it before its replay (R425). -/
def State.ctxRuns (s : State) (c : Nat) : Bool :=
  match s.lsch.repair with
  | none => true
  | some r => r.phase = .replaying || !r.ctxs.contains c

/-- A task of variant i of a bound image, ready to begin (R88, R228). -/
def taskFor (c : Nat) (live : Bool) (b : Bound) (i : Nat) (kind : BitVec 2) (exts : List (BitVec 16)) (taskNo : BitVec 16) : Task :=
  let v := b.image.variants.getD i { kind := 0, buckets := 0, cmdOff := 0, cmdCount := 0 }
  { ctx := c, live := live, taskNo := taskNo, kind := kind, variant := i, image := b.image,
    listAddr := b.addr.toNat + v.cmdOff.toNat, cmdCount := v.cmdCount.toNat, exts := exts, pats := b.image.bucketPats v }

/-- Stages 1 to 4 of a dispatch: the variant entry, or the fault with its command index (0xFFFF when tied to none) and the entry in use (R111). -/
def State.selectFor (s : State) (c : Nat) (b : Bound) (kind : BitVec 2) (exts : List (BitVec 16)) : Except (BitVec 16 × Nat × Nat) Nat :=
  match selectVariant b.image (s.ctx c).bucketFix kind exts with
  | .error e => .error (e, 0xFFFF, 0)
  | .ok i =>
    match s.imageFault c b with
    | some e => .error (e.1, e.2, i)
    | none => .ok i

/-- The task number of a stripe: the one its set gave it when its first frond started it, else the next of the set (R280). -/
def State.stripeTask (s : State) (f : Nat) (j : StripeJob) (mask : BitVec 256) : BitVec 16 × State :=
  match j.task with
  | some n => (n, s)
  | none =>
    let (n, s) := s.nextTask mask
    (n, (bitsOf mask).foldl (fun s g =>
      let x := s.frond g
      if g = f then s
      else s.setFrond g { x with released := x.released.map (fun q => if q.ctx = j.ctx ∧ q.frame = j.frame ∧ q.stripe = j.stripe then { q with task := some n } else q) }) s)

/-- Frond f begins stripe j of a live stream. -/
def State.beginStripe (s : State) (f : Nat) (j : StripeJob) (b : Bound) (r : FrameRun) : State :=
  let kind := r.kind ||| (if s.anyRow j.ctx then 1 else 0)
  match s.selectFor j.ctx b kind r.exts with
  | .error (code, index, entry) => (s.recordFault f code 0 15 index entry).abortFrame j.ctx j.frame code
  | .ok i =>
    let (n, s) := s.stripeTask f j b.mask
    let x := s.frond f
    let s := s.setFrond f { x with released := x.released.filter (fun q => decide (q ≠ { j with task := q.task })) }
    let t := { taskFor j.ctx true b i kind r.exts n with
      frame := j.frame, stripe := j.stripe, shifts := r.shifts, out := j.out, deadline := j.deadline }
    s.startTask f t (j.stripe * b.image.h.toNat) (r.total * b.image.h.toNat)

/-- STRIPE_START: the frond starts the released stripe with the earliest deadline (R37), of the streams whose working area is placed, once its
checkpoint is valid (R415) and simmer work has yielded (R39). -/
def execStripeStart (f : FrondId) (s : State) : Host.Outcome State Fault Refusal :=
  unlessInert s fun s =>
    let x := s.frond f.val
    let clear := x.live.isNone && (x.simmer.map Task.yielded).getD true && s.frondRuns f.val
    match (if clear then earliestStripe (x.released.filter (fun j => !x.placeDue.contains j.ctx)) else none) with
    | none => s
    | some j =>
      match (s.ctx j.ctx).bound, s.frameRun j.ctx j.frame with
      | some b, some r =>
        if (x.stripeCkptOf j.ctx j.stripe).isSome && s.ctxRuns j.ctx then (s.beginStripe f.val j b r).pump f.val else s
      | _, _ => s

/-! ### Yield and resume -/

/-- Simmer work is suspended as a whole: thermal stage 2 and above (R532). -/
def State.simmerHalted (s : State) : Bool := decide (2 ≤ s.power.stage.toNat)

/-- What a yield discards of a task's MXU buffers: all that the scratchpad filled and can fill again (Table 03.5). One that the chain filled stays: a
simmer yield changes no bit of a fixed-order task (Table 16.2), and a chunk cannot be read twice (DEDUCED, log 68). -/
def Task.discardBuffers (t : Task) : Task :=
  let mark (b : Tbl MxuBuf) : Tbl MxuBuf := [0, 1].foldl (fun b i => b.set i { b.get i {} with stale := (b.get i {}).source.isSome }) b
  { t with actBufs := mark t.actBufs, weightBufs := mark t.weightBufs }

/-- The simmer task of frond f stops at its yield point. The PTM and the MXU buffers are discarded; what else Table 03.5 keeps stays with the task
(R82). Working areas of live streams that waited for the yield are placed (R127). -/
def State.yieldFrond (s : State) (f : Nat) : State :=
  let x := s.frond f
  match x.simmer with
  | none => s
  | some t =>
    if t.yielded then s
    else
      ((s.meter f).setFrond f { x with
        ptm := {}, ptmBuilt := [], simmer := some { t.discardBuffers with yielded := true, yieldAt := s.dtb, held := {} } }).settleAreas f

/-- SIMMER_YIELD: simmer work of frond f yields to a released stripe or to a thermal stage (R39, R532). -/
def execSimmerYield (f : FrondId) (s : State) : Host.Outcome State Fault Refusal :=
  unlessInert s fun s => if !(s.frond f.val).released.isEmpty || s.simmerHalted then s.yieldFrond f.val else s

/-- Instants of a yielded task moved on by the time it was yielded: the timeouts count running time alone (R141). -/
def Task.shiftTimers (t : Task) (now : W64) : Task :=
  let d := now - t.yieldAt
  { t with yielded := false, semSince := t.semSince.map (fun p => (p.1, p.2 + d)), tagSince := t.tagSince.map (fun p => (p.1, p.2 + d)) }

/-- A yielded simmer task takes its frond again: MXU buffers and tables reloaded, and the last table build re-run into the active half (R82, R88). -/
def State.resumeSimmer (s : State) (f : Nat) (t : Task) : State :=
  let s := (s.wake (f / 8)).meter f
  let x := s.frond f
  let set := s.setOf t.ctx
  let x := match t.lastBuild with
    | some b => x.buildSlots x.ptmHalf b.slot b.entries
    | none => x
  (s.setFrond f { x with
    simmer := some (t.shiftTimers s.dtb), slotTable := t.image.slot, row0 := 0, hExt := 0
    rank := BitVec.ofNat 8 (set.idxOf f), ranks := BitVec.ofNat 9 set.length }).reloadBuffers f false

/-- SIMMER_RESUME: with no stripe running or released, simmer work continues (R39, R82). -/
def execSimmerResume (f : FrondId) (s : State) : Host.Outcome State Fault Refusal :=
  unlessInert s fun s =>
    let x := s.frond f.val
    match x.simmer with
    | none => s
    | some t =>
      if t.yielded && x.live.isNone && x.released.isEmpty && !s.simmerHalted then (s.resumeSimmer f.val t).pump f.val else s

/-! ### Dispatch of a simmer job -/

/-- The host page that the present entry of a job's list still lacks. -/
def State.entryPage (s : State) (j : Job) : Option Nat :=
  if j.body.listEn && j.body.listHost then s.absentIn (j.body.list.toNat + 16 * j.inst) 16 else none

/-- Another context's job is resident on a frond: from its first dispatch there until it completes (log 112). -/
def Frond.heldByJob (x : Frond) (c : Nat) : Bool := x.regionOwners.any (fun d => !liveCtx d && decide (d ≠ c))

/-- The set of a job can take an instance: every frond usable, with no simmer task, no other resident job and with free regions
(R137, R486, R532). -/
def State.canDispatch (s : State) (c : Nat) (b : Bound) : Bool :=
  s.setUsable b.mask && !s.simmerHalted && s.ctxRuns c
    && b.fronds.all (fun f =>
      let x := s.frond f
      x.simmer.isNone && s.frondRuns f && !x.heldByJob c
        && decide (x.regionCount + (if x.regionOwners.contains c then 0 else b.image.circs.length) ≤ 32))

/-- A dispatch fault of a job: recorded on every frond of its set, and the job ends with it, in either error policy (R111, R232). -/
def State.dispatchFault (s : State) (c : Nat) (b : Bound) (j : Job) (code : BitVec 16) (index entry : Nat) : State :=
  (b.fronds.foldl (fun s f => s.recordFault f code 0 15 index entry) s).completeJob c code (some (if j.body.listEn then j.inst else 0))

/-- A job's instance begins on frond f; while a live stripe holds the frond the task starts yielded. -/
def State.beginSimmer (s : State) (f : Nat) (t : Task) : State :=
  let x := s.frond f
  let busy := x.live.isSome || !x.released.isEmpty
  let s := ((s.taskBoundary f).placeSimmer f t.ctx t.image).startTask f t 0 0
  if busy then
    let y := s.frond f
    s.setFrond f { y with
      simmer := y.simmer.map (fun t => { t with yielded := true, yieldAt := s.dtb })
      slotTable := x.slotTable, row0 := x.row0, hExt := x.hExt, rank := x.rank, ranks := x.ranks }
  else s.pump f

/-- DISPATCH: the next instance of a simmer job through the stages of R105. A pointer list without a translation completes the job with RING_FAULT
and halts its ring (R380). -/
def execDispatch (ctx : BitVec 14) (s : State) : Host.Outcome State Fault Refusal :=
  unlessInert s fun s =>
    let c := ctx.toNat
    match (s.ctx c).bound, (s.ctx c).job with
    | some b, some j =>
      if j.started || !s.canDispatch c b then s
      else
        match s.entryPage j with
        | some _ => (s.completeJob c stRingFault (some (if j.body.listEn then j.inst else 0))).haltRing j.hdr.sq.val
        | none =>
          let (addr, exts) := s.jobEntry j
          if addr.toNat % 512 ≠ 0 then s.dispatchFault c b j stListBad 0xFFFF 0
          else
            let kind := kindOf false (s.anyRow c)
            match s.selectFor c b kind exts with
            | .error (code, index, entry) => s.dispatchFault c b j code index entry
            | .ok i =>
              let (n, s) := (s.pinAll c b).nextTask b.mask
              let s := s.setCtx c { s.ctx c with checked := true, job := some { j with started := true, ended := [], taskNo := n } }
              let t := { taskFor c false b i kind exts n with listRel := addr, shifts := (s.ctx c).scaleSet }
              b.fronds.foldl (fun s f => s.beginSimmer f { t with replayWrites := j.replay.get f [] }) s
    | _, _ => s

end Sys2Proof.Machine
end

