-- ==== Sys2Proof/Machine/Commit.lean ====
section
/-! DEFINITION. LAYER_SET, COMMIT and WRITEBACK_SET (R291, R292, R299, R310 to R313, R325), and the application of snapshots. -/

namespace Sys2Proof.Machine

/-! ### LAYER_SET -/

/-- Address of the table that a record of slots 0 to 20, or of slot 21, names. -/
def tableAddr (slot : Nat) (l : List Byte) : Nat := if slot = 21 then leAt l 0x28 8 else leAt l 0x48 8

/-- Bytes of the table that a record uses: an enabled video layer's coefficients, the curve with TONE_EN (R292). -/
def tableBytes (slot : Nat) (l : List Byte) : Nat :=
  if bitOf (l.getD 0 0) 0 then (if slot = 21 then 16388 else if slotKind slot = .video then 3584 else 0) else 0

/-- A layer record's fields are as R292 asks. -/
def State.recordOk (s : State) (n slot : Nat) (host : Bool) (l : List Byte) : Bool :=
  let used := decide (slot = 21) || bitOf (l.getD 0 0) 0
  let x := parseLayer l []
  recordReservedOk slot l
    && (!used
      || ((host || decide (tableBytes slot l = 0) || !s.guarded (tableAddr slot l) (tableBytes slot l))
          && (if slot = 21 then (parseStage l []).fieldsOk
              else x.fieldsOk (slotKind slot) && (!x.live || s.liveRecordOk n slot x))))

/-- The shadow of an output with the record of a slot in it; a record with EN = 0 disables its slot. -/
def Slots.setRecord (x : Slots) (slot : Nat) (l table : List Byte) : Slots :=
  if slot = 21 then { x with stage := parseStage l table }
  else if bitOf (l.getD 0 0) 0 then { x with layers := x.layers.set slot (parseLayer l table) }
  else { x with layers := x.layers.set slot {} }

/-- LAYER_SET: a record and the tables it uses enter the shadow of one slot (R291, R292). -/
def execLayerSet (h : DescHdr) (output : OutId) (slot : Byte) (host : Bool) (record : W64) (s : State) : Host.Outcome State Fault Refusal :=
  descriptor h s fun s =>
    let n := output.val
    let k := slot.toNat
    let a := record.toNat
    if !host && s.guarded a 256 then s.complete h opLayerSet stDescBad
    else if 22 ≤ k then s.complete h opLayerSet stLayerBad
    else if host && (s.absentIn a 256).isSome then s.descRingFault h opLayerSet
    else
      let l := s.memRead host a 256
      if !s.recordOk n k host l then s.complete h opLayerSet stLayerBad
      else if host && (s.absentIn (tableAddr k l) (tableBytes k l)).isSome then s.descRingFault h opLayerSet
      else
        let c := s.comp n
        (s.setComp n { c with shadow := c.shadow.setRecord k l (s.memRead host (tableAddr k l) (tableBytes k l)) }).complete h opLayerSet stOk

/-! ### Application of snapshots (R311, R312) -/

/-- The generator of output n is enabled: its snapshots wait for commit points. -/
def State.tgOn (s : State) (n : Nat) : Bool := decide ((s.tgOf n).phase ≠ .off)

/-- A COMMIT whose last named output has applied it completes (R310 to R312). -/
def State.commitDone (s : State) (w : CommitWait) : State :=
  let s := { s with commits := s.commits.filter (fun q => decide (q.order ≠ w.order)) }
  let s := if w.late then
      (bitsOf w.mask).foldl (fun s n =>
        if s.tgOn n then (s.setComp n { s.comp n with lateSeen := true }).count (cntComp n 2) 1 else s) s
    else s
  s.completeWith w.hdr opCommit (if w.late then stLateCommit else stOk) w.info 0 0 0

/-- Snapshot p applies on output n: at the commit point of a frame, or at once (`none`) where the generator is disabled or shuts down.
Once the first named output has it, each other one takes it at its next commit point (R311). -/
def State.applySnapshot (s : State) (n : Nat) (p : Snapshot) (frame : Option W32) : State :=
  let c := s.comp n
  let s := s.setComp n { c with applied := p.slots, pending := c.pending.filter (fun q => decide (q.order ≠ p.order)) }
  match s.commits.find? (fun w => decide (w.order = p.order)) with
  | none => s
  | some w =>
    let w := { w with left := setBit w.left n false, info := if w.first = n then frame.getD w.info else w.info }
    let s := { s with commits := s.commits.map (fun q => if q.order = w.order then w else q) }
    let s := if w.first = n then
        (bitsOf w.left).foldl (fun s j =>
          let x := s.comp j
          s.setComp j { x with pending := x.pending.map (fun q => if q.order = p.order then { q with applyAt := some (x.frame + 1) } else q) }) s
      else s
    if w.left = 0 then s.commitDone w else s

/-- Every snapshot still pending on an output applies, in processing order (R312, R327). -/
def State.flushPending (s : State) (n : Nat) : State := (s.comp n).pending.foldl (fun s p => s.applySnapshot n p none) s

/-- The snapshots due at the commit point of frame m apply, in processing order (R312). -/
def State.applyDue (s : State) (n : Nat) (m : W32) : State :=
  ((s.comp n).pending.filter (fun p => (p.applyAt.map (fun a => frameLe a m)).getD false)).foldl (fun s p => s.applySnapshot n p (some m)) s

/-! ### COMMIT -/

/-- ORDER lists only slots 0 to 19, none twice (R299). -/
def OutStage.orderOk (x : OutStage) : Bool := x.orderList.all (fun t => decide (t < 20)) && decide x.orderList.Nodup

/-- What places the lines of the live record of context c: position, vertical scale and SRC_H (R23). -/
def Slots.placing (x : Slots) (c : Nat) : Option (List Nat) :=
  (x.liveRecord c).map (fun p =>
    [p.2.dstX.toNat, p.2.dstY.toNat, p.2.dstH.toNat, p.2.yStep.toNat, p.2.yOff.toNat, p.2.srcH.toNat, p.2.gainShift.toNat])

/-- Live streams whose layer geometry output n's shadow changes, against what else would apply at frame m (R23). -/
def State.changedBy (s : State) (n : Nat) (m : W32) : List Nat :=
  (s.governed (s.governor n)).filter (fun c => decide ((s.comp n).shadow.placing c ≠ (s.slotsFor n (some m)).placing c))

/-- Instant of the commit point of frame m of an output. -/
def State.commitAt (s : State) (n : Nat) (m : W32) : W64 :=
  let g := s.governor n
  s.instantOf g m (commitLine (s.beamLead g) (s.vMin n))

/-- The frame of output j whose commit point is the first at or after the commit point of frame m of output n (R311). -/
def State.frameOn (s : State) (n : Nat) (m : W32) (j : Nat) : W32 :=
  if s.governor j = s.governor n then m
  else
    let f := (s.comp j).frame + 1
    let wait : Int := ((s.commitAt n m).toNat : Int) - ((s.commitAt j f).toNat : Int)
    let frameNs := (s.vMin j : Rat) * s.lineNs j
    if wait ≤ 0 ∨ frameNs ≤ 0 then f else f + BitVec.ofNat 32 ((wait : Rat) / frameNs).ceil.toNat

/-- A COMMIT processed now is on time for frame m of its first output: before the commit point, and before the first release of every live
stream whose geometry it changes (R23, R310). -/
def State.onTime (s : State) (outs : List Nat) (first : Nat) (m : W32) : Bool :=
  !frameLe m (s.comp first).frame
    && outs.all (fun j => !s.tgOn j || (let f := s.frameOn first m j; (s.changedBy j f).all (fun c => !frameLt f (s.ctx c).nextOut)))

/-- The frame at which a late COMMIT applies: the first later one for which it is on time (R310). -/
def State.laterFrame (s : State) (outs : List Nat) (first : Nat) (m : W32) : W32 :=
  let start := if frameLe m (s.comp first).frame then (s.comp first).frame + 1 else m + 1
  ((List.range 64).map (fun i => start + BitVec.ofNat 32 i)).find? (s.onTime outs first) |>.getD (start + 64)

/-- The snapshot of each named output's shadow enters its pending set; LSCH goes by the frame at which each output is expected to apply it (R23). -/
def State.capture (s : State) (outs : List Nat) (first : Nat) (h : DescHdr) (named : W32) (applyAt : Option W32) (late : Bool) : State :=
  outs.foldl (fun s n =>
    let c := s.comp n
    s.setComp n { c with pending := c.pending ++
      [{ hdr := h, slots := c.shadow, named := named, applyAt := if n = first then applyAt else none
         expected := applyAt.map (fun m => s.frameOn first m n), late := late, first := decide (n = first), order := s.commitCount }] }) s

/-- A COMMIT that may not wait any longer is processed: its snapshots are captured and its timeliness judged (R310 to R312). -/
def State.processCommit (s : State) (h : DescHdr) (mask : BitVec 4) (outs : List Nat) (first : Nat) (frame : W32) : State :=
  let enabled := s.tgOn first
  let late := enabled && !s.onTime outs first frame
  let at_ := if late then s.laterFrame outs first frame else frame
  let w : CommitWait := { hdr := h, mask := mask, first := first, left := mask, info := frame, late := late, order := s.commitCount }
  let s := { s.capture outs first h frame (some at_) late with commitCount := s.commitCount + 1, commits := s.commits ++ [w] }
  outs.foldl (fun s n =>
    if s.tgOn n then s
    else match (s.comp n).pending.find? (fun p => decide (p.order = w.order)) with
      | some p => s.applySnapshot n p none
      | none => s) s

/-- The live streams whose lines a COMMIT moves: against what would apply otherwise, or at the frame it names (R34, R557). -/
def State.movesLines (s : State) (outs : List Nat) (first : Nat) (frame : W32) : List Nat :=
  outs.flatMap (fun n => (s.governed (s.governor n)).filter (fun c => decide ((s.comp n).shadow.placing c ≠ (s.slotsFor n none).placing c))
    ++ s.changedBy n (s.frameOn first frame n))

/-- The frond sets that these streams occupy: those that the event touches (R34). -/
def State.setsTouched (s : State) (l : List Nat) : List (BitVec 256) := (l.filterMap (fun c => (s.ctx c).bound.map Bound.mask)).dedup

/-- COMMIT: refused for its ORDER, its DEPTH or admission, else queued for its frame (R299, R310, R311, R312, R325). With four snapshots pending
on a named output it waits. -/
def execCommit (h : DescHdr) (outmask : BitVec 4) (frame : W32) (s : State) : Host.Outcome State Fault Refusal :=
  let outs := bitsOf outmask
  if outs.any (fun n => s.tgOn n && decide (4 ≤ (s.comp n).pending.length)) then .next s
  else descriptor h s fun s =>
    match outs with
    | [] => s.complete h opCommit stDescBad
    | first :: _ =>
      let bad (n : Nat) : Bool := let x := (s.comp n).shadow.stage; !x.orderOk || decide (x.depth ≠ (s.tgOf n).eff.bpc)
      if outs.any bad then s.complete h opCommit stLayerBad
      else
        let s' := s.capture outs first h frame none false
        let moves := s.movesLines outs first frame
        let sets := s.setsTouched moves
        if !sets.all s'.setAdmits then s.complete h opCommit stAdmitDenied
        else sets.foldl (fun s m => s.reportAdmission m) (s.processCommit h outmask outs first frame)

/-! ### WRITEBACK_SET -/

/-- A binding is known by its context, point and slot (log 35). -/
def Writeback.same (w : Writeback) (ctx : BitVec 14) (b : WritebackBody) : Bool :=
  decide (w.ctx = ctx) && decide (w.body.point = b.point) && (decide (b.point.val ≠ 2) || decide (w.body.slot = b.slot))

/-- The bindings of an output with one that now takes effect from frame m: it replaces the one it names, or removes it with no buffers. -/
def bindWriteback (l : List Writeback) (w : Writeback) (m : W32) : List Writeback :=
  let rest := l.filter (fun q => !(q.since.isSome && q.same w.ctx w.body) && decide (q ≠ w))
  if w.body.buffers.val = 0 then rest else rest ++ [{ w with since := some m, hdr := none }]

/-- The bindings that waited take effect at the commit point of frame m, and their descriptors complete (Table 14.5). -/
def State.bindDue (s : State) (n : Nat) (m : W32) : State :=
  ((s.comp n).writebacks.filter (fun w => w.since.isNone)).foldl (fun s w =>
    let c := s.comp n
    let s := s.setComp n { c with writebacks := bindWriteback c.writebacks w m }
    match w.hdr with
    | some h => s.complete h opWritebackSet stOk
    | none => s) s

/-- Bytes of memory that a binding's buffers span: its raster's lines at its pitch, buffer after buffer. -/
def writebackSpan (b : WritebackBody) (hAct vAct : Nat) : Nat :=
  (b.buffers.val - 1) * b.bufStride.toNat + (vAct - 1) * b.pitch.toNat + 8 * hAct

/-- WRITEBACK_SET: a writeback is bound or unbound from the next commit point on; with the generator disabled, at once (R313, log 35). -/
def execWritebackSet (h : DescHdr) (b : WritebackBody) (s : State) : Host.Outcome State Fault Refusal :=
  descriptor h s fun s =>
    let n := b.output.val
    let t := (s.tgOf n).eff
    if (b.point.val = 2 && decide (20 ≤ b.slot.toNat))
        || (!b.host && decide (b.buffers.val ≠ 0) && s.guarded b.base.toNat (writebackSpan b t.hAct.toNat t.vAct.toNat)) then
      s.complete h opWritebackSet stDescBad
    else if (s.ctx h.ctx.toNat).state = .closed then s.complete h opWritebackSet stCtxBad
    else
      let c := s.comp n
      let s := s.setComp n { c with writebacks := c.writebacks ++
        [{ num := s.nextXfer, ctx := h.ctx, body := b, since := none, hdr := some h }] }
      let s := { s with nextXfer := s.nextXfer + 1 }
      if s.tgOn n then s else s.bindDue n ((s.comp n).frame + 1)

end Sys2Proof.Machine
end

