-- ==== Sys2Proof/Machine/Transfer.lean ====
section
/-! DEFINITION. The transfer functions of Table 11.6 and their rounding to a grid (R297, R300, R559). Powers with rational exponents are compared
exactly; PQ and the logarithmic parts of HLG are evaluated to 200 fraction bits, and to twice as many as often as it takes, up to 64 times, until the rounding
of the exact value is decided (log 36). -/

namespace Sys2Proof.Machine

/-- The largest number below 2^bits with a property that holds of 0 and of all numbers up to some one. -/
def largestBelow (bits : Nat) (p : Nat → Bool) : Nat :=
  (List.range bits).foldl (fun r i => let t := r + 2 ^ (bits - 1 - i); if p t then t else r) 0

/-- A value from 0 to 1, given by exact comparison, rounded to the nearest multiple of 2^-g, ties to even: `le r` says that r does not exceed
the value, `eq r` that it is the value. -/
def roundCmp (g : Nat) (le eq : Rat → Bool) : Rat :=
  let r := largestBelow (g + 2) (fun t => le ((t : Rat) / 2 ^ (g + 1)))
  let k := if r % 2 = 0 then r / 2 else if eq ((r : Rat) / 2 ^ (g + 1)) then (r / 2 + 1) / 2 * 2 else r / 2 + 1
  (k : Rat) / 2 ^ g

/-- A rational rounded to the nearest multiple of 2^-g, ties to even. -/
def roundGrid (g : Nat) (q : Rat) : Rat := (roundInt 0 (q * 2 ^ g) : Rat) / 2 ^ g

/-- The rounding to a grid of the exact value of which q gives an approximation to any number p of fraction bits, within 2^-(p - 50): decided as soon as
both ends round alike, each further attempt with twice the bits. -/
def roundAt (g fn : Nat) (arg : List Rat) (q : Nat → Rat) : Nat → Nat → Rat
  | 0, p => if Config.nearTie fn arg then roundGrid g (q p + pow2 (50 - p)) else roundGrid g (q p - pow2 (50 - p))
  | fuel + 1, p =>
    let lo := roundGrid g (q p - pow2 (50 - p))
    if lo = roundGrid g (q p + pow2 (50 - p)) then lo else roundAt g fn arg q fuel (2 * p)

/-- That rounding from 200 fraction bits on; what 200 x 2^64 bits would leave undecided stays open (log 36). -/
def roundNear (g fn : Nat) (arg : List Rat) (q : Nat → Rat) : Rat := roundAt g fn arg q 64 200

/-! ### Logarithm and exponential to p fraction bits -/

def fixOne (p : Nat) : Int := 2 ^ p
def fixOf (p : Nat) (q : Rat) : Int := (q * (fixOne p : Rat)).floor

/-- Terms of the two series that p fraction bits need. -/
def fixTerms (p : Nat) : Nat := p / 3 + 2

/-- The inverse hyperbolic tangent of z, at most 1/3 in magnitude. -/
def atanhFix (p : Nat) (z : Int) : Int :=
  let z2 := z * z / fixOne p
  ((List.range (fixTerms p)).foldl (fun (acc : Int × Int) i => (acc.1 * z2 / fixOne p, acc.2 + acc.1 / (2 * (i : Int) + 1))) (z, 0)).2

def ln2Fix (p : Nat) : Int := 2 * atanhFix p (fixOne p / 3)

/-- The natural logarithm of a positive rational. -/
def lnFix (p : Nat) (q : Rat) : Int :=
  let e := log2Floor q
  let m := q / pow2 e
  2 * atanhFix p (fixOf p ((m - 1) / (m + 1))) + e * ln2Fix p

/-- The exponential. -/
def expFix (p : Nat) (y : Int) : Rat :=
  let k := y / ln2Fix p
  let r := y - k * ln2Fix p
  let sum := ((List.range (fixTerms p)).foldl (fun (acc : Int × Int) i => (acc.1 * r / fixOne p / ((i : Int) + 1), acc.2 + acc.1)) (fixOne p, 0)).2
  (sum : Rat) / (fixOne p : Rat) * pow2 k

/-- q^a for q from 0 up. -/
def powFix (p : Nat) (q a : Rat) : Rat := if q ≤ 0 then 0 else expFix p (lnFix p q * a.num / a.den)

/-! ### PQ (SMPTE ST 2084) -/

def pqM1 : Rat := 1305 / 8192
def pqM2 : Rat := 2523 / 32
def pqC1 : Rat := 107 / 128
def pqC2 : Rat := 2413 / 128
def pqC3 : Rat := 2392 / 128

/-- The EOTF, relative to 10,000 cd/m². -/
def pqEotf (v : Rat) (p : Nat) : Rat :=
  let n := powFix p v (1 / pqM2)
  powFix p (max (n - pqC1) 0 / (pqC2 - pqC3 * n)) (1 / pqM1)

/-- The inverse EOTF of a relative luminance. -/
def pqInverse (l : Rat) (p : Nat) : Rat :=
  let n := powFix p l pqM1
  powFix p ((pqC1 + pqC2 * n) / (1 + pqC3 * n)) pqM2

/-! ### HLG (ITU-R BT.2100, R559) -/

def hlgA : Rat := 17883277 / 100000000
def hlgB : Rat := 1 - 4 * hlgA
/-- c = 0.5 - a ln(4a), to p fraction bits. -/
def hlgC (p : Nat) : Rat := 1 / 2 - hlgA * ((lnFix p (4 * hlgA) : Rat) / (fixOne p : Rat))

/-- Luminance of a triple with BT.2100 weights. -/
def hlgLuma (l : List Rat) : Rat := l.getD 0 0 * (2627 / 10000) + l.getD 1 0 * (6780 / 10000) + l.getD 2 0 * (593 / 10000)

/-- The inverse OETF of one component. -/
def hlgScene (e : Rat) (p : Nat) : Rat := if e ≤ 1 / 2 then e * e / 3 else (expFix p (fixOf p ((e - hlgC p) / hlgA)) + hlgB) / 12

/-- The OETF of one component. -/
def hlgSignal (e : Rat) (p : Nat) : Rat :=
  if e ≤ 1 / 12 then powFix p (3 * e) (1 / 2) else hlgA * ((lnFix p (12 * e - hlgB) : Rat) / (fixOne p : Rat)) + hlgC p

/-- The EOTF of a triple for a 1,000 cd/m² display, relative to 1,000 cd/m²: c × Y^(1/5), on the 2^-24 grid. Where no component takes the exponential
branch, its fifth power is rational and is compared exactly. -/
def hlgEotf (l : List Rat) : List Rat :=
  let e (p : Nat) := l.map (fun v => hlgScene v p)
  if l.all (fun c => decide (c ≤ 1 / 2)) then
    (e 0).map (fun c => let w := hlgLuma (e 0) * c ^ 5; roundCmp 24 (fun r => decide (r ^ 5 ≤ w)) (fun r => decide (r ^ 5 = w)))
  else (List.range l.length).map (fun (i : Nat) => roundNear 24 4 ((i : Rat) :: l) (fun p => powFix p (hlgLuma (e p)) (1 / 5) * (e p).getD i 0))

/-- Its inverse on the 2^-24 grid: the OETF of c × Y^(-1/6). The square-root branch is compared exactly. -/
def hlgInverse (l : List Rat) : List Rat :=
  let y := hlgLuma l
  if y = 0 then l.map (fun _ => 0)
  else l.zipIdx.map (fun c =>
    if c.1 ^ 6 ≤ y / 12 ^ 6 then
      let w := 729 * c.1 ^ 6 / y
      roundCmp 24 (fun r => decide (r ^ 12 ≤ w)) (fun r => decide (r ^ 12 = w))
    else roundNear 24 5 ((c.2 : Rat) :: l) (fun p => hlgSignal (powFix p y (-1 / 6) * c.1) p))

/-! ### Input and output transfers (Table 11.6) -/

def srgbIn (x : Rat) : Rat :=
  if x ≤ 4045 / 100000 then roundGrid 24 (x * 100 / 1292)
  else let b := (x + 55 / 1000) * 1000 / 1055; roundCmp 24 (fun r => decide (r ^ 5 ≤ b ^ 12)) (fun r => decide (r ^ 5 = b ^ 12))

/-- The inverse of the decoding function: its linear part ends at 0.04045 ÷ 12.92 (R297). -/
def srgbOut (x : Rat) : Rat :=
  if x ≤ 4045 / 129200 then roundGrid 24 (x * 1292 / 100)
  else
    let w := (1055 / 1000 : Rat) ^ 12 * x ^ 5
    roundCmp 24 (fun r => decide ((r + 55 / 1000) ^ 12 ≤ w)) (fun r => decide ((r + 55 / 1000) ^ 12 = w))

def gammaIn (x : Rat) : Rat := roundCmp 24 (fun r => decide (r ^ 5 ≤ x ^ 12)) (fun r => decide (r ^ 5 = x ^ 12))
def gammaOut (x : Rat) : Rat := roundCmp 24 (fun r => decide (r ^ 12 ≤ x ^ 5)) (fun r => decide (r ^ 12 = x ^ 5))

/-- F_in of a triple by TRANSFER code, on the 2^-24 grid (stage 3). Near black this grid is coarser than the bound of R179 and R180; the model
follows R297 (log 121). -/
def transferIn (code : Nat) (l : List Rat) : List Rat :=
  if code = 1 then l.map srgbIn else if code = 2 then l.map gammaIn
  else if code = 3 then l.map (fun x => roundNear 24 1 [x] (pqEotf x))
  else if code = 4 then hlgEotf l
  else l.map (roundGrid 24)

/-- F_out of a triple by OUT_TRANSFER code, on the 2^-24 grid (stage 11). -/
def transferOut (code : Nat) (l : List Rat) : List Rat :=
  if code = 1 then l.map srgbOut else if code = 2 then l.map gammaOut
  else if code = 3 then l.map (fun x => roundNear 24 2 [x] (pqInverse x))
  else if code = 4 then hlgInverse l
  else l.map (roundGrid 24)

end Sys2Proof.Machine
end

