-- ==== Sys2Proof/Machine/Pixel.lean ====
section
/-! DEFINITION. The pixel path of one raster pixel (R288 to R307): scale, decode, transfer, gamut, alpha, blend, tone, gain map, lid, wear,
output transfer, dither and encoding, all exact but for the evaluations of R297 and the final rounding. -/

namespace Sys2Proof.Machine

/-! ### Samples and their lines -/

/-- One direction of a plane's filter at a position in units of 2^-17: index of the source sample and coefficient of each tap; the centre alone
where the step is 1.0 and the phase 0 (R294, R295). -/
def filterTaps (coef : List (BitVec 16)) (base taps before : Nat) (pos17 step17 : Int) (size : Nat) : List (Nat × Rat) :=
  let i := pos17 / 131072
  let phase := ((pos17 % 131072) / 2048).toNat
  let edge (v : Int) : Nat := (max 0 (min v ((size : Int) - 1))).toNat
  if step17 = 131072 ∧ phase = 0 then [(edge i, 1)]
  else (List.range taps).map (fun t =>
    let j : Nat := base + taps * phase + t
    (edge (i - before + t), (signed 14 ((coef.getD j 0).toNat % 2 ^ 14) : Rat) / 4096))

/-- Plane p of a video layer is subsampled across, or down. -/
def Layer.halfW (x : Layer) (p : Nat) : Bool := decide (p ≠ 0) && decide (x.sub ≠ 0)
def Layer.halfH (x : Layer) (p : Nat) : Bool := decide (p ≠ 0) && decide (x.sub = 2)

/-- Taps across plane p at output column u; a subsampled plane uses half the position and step and the chroma sets (R295). -/
def Layer.colTaps (x : Layer) (p u : Nat) : List (Nat × Rat) :=
  let pos := signed 32 x.xOff.toNat + u * x.xStep.toNat
  let sub := x.halfW p
  filterTaps x.coef (if sub then 896 else 0) 8 3 (if sub then pos else 2 * pos) (if sub then x.xStep.toNat else 2 * x.xStep.toNat) (x.planeW .video p)

/-- Taps down plane p at output line v. -/
def Layer.rowTaps (x : Layer) (p v : Nat) : List (Nat × Rat) :=
  let pos := signed 32 x.yOff.toNat + v * x.yStep.toNat
  let half := x.halfH p
  filterTaps x.coef (if x.halfW p then 1408 else 512) 6 2 (if half then pos else 2 * pos) (if half then x.yStep.toNat else 2 * x.yStep.toNat)
    (x.planeH .video p)

/-- Lines of plane p that raster line v of the layer reads. -/
def Layer.rowsRead (x : Layer) (k : SlotKind) (p v : Nat) : List Nat :=
  match k with
  | .video => (x.rowTaps p v).map Prod.fst
  | .graphic => if v < x.srcH.toNat then [v] else []
  | .gain => let g := v / 2 ^ x.gainShift.toNat; if g < x.srcH.toNat then [g] else []
  | _ => []

/-- Planes that a layer reads, with their numbers. -/
def Layer.planeList (x : Layer) (k : SlotKind) : List (Nat × W64 × W32) := (x.planes k).zipIdx.map (fun p => (p.2, p.1.1, p.1.2))

/-- A line of a plane can be fetched: served or translated, and without an uncorrectable error (R290). -/
def State.lineFetched (s : State) (x : Layer) (k : SlotKind) (p : Nat × W64 × W32) (row : Nat) : Bool :=
  let a := p.2.1.toNat + row * p.2.2.toNat
  let n := x.sampleBytes k p.1 * x.planeW k p.1
  if x.inHost then (s.absentIn a n).isNone else !s.guarded a n && !s.hbmPoisoned a n

/-- The stream's line that carries line `row` of plane p (R21). -/
def Layer.queueLine (x : Layer) (k : SlotKind) (p row : Nat) : Nat := if k = .video ∧ x.halfH p then 2 * row else row

/-- Line v of a layer is transparent: a fetch failed or came late (R290), or a line of a live layer is held before the stream's first completed
frame (R289). -/
def State.lineLost (s : State) (frame : W32) (x : Layer) (k : SlotKind) (v : Nat) (late : Bool) : Bool :=
  let c := x.ctx.toNat
  let fresh := x.live && !(s.stream c).everDone
  (!x.live && late)
    || (x.planeList k).any (fun p => (x.rowsRead k p.1 v).any (fun row =>
      !s.lineFetched x k p row || (fresh && !s.lineReady c frame (x.queueLine k p.1 row))))

/-- Bytes of a layer's memory as a number. -/
def State.sampleAt (s : State) (x : Layer) (a n : Nat) : Nat := leNat (s.memRead x.inHost a n)

/-- Bits of a video sample. -/
def videoBits (format : Nat) : Nat := if format = 0 then 8 else if format = 1 then 10 else if format = 2 then 12 else 16

/-- Component c of a video layer at (column, row) of its plane. -/
def State.videoSample (s : State) (x : Layer) (c col row : Nat) : Nat :=
  let p := if c = 0 then 0 else if x.semi then 1 else c
  let pl := (x.planes .video).getD p (0, 0)
  let one := if x.format = 0 then 1 else 2
  let sub := if x.semi ∧ c = 2 then one else 0
  s.sampleAt x (pl.1.toNat + row * pl.2.toNat + x.sampleBytes .video p * col + sub) one % 2 ^ videoBits x.format.toNat

/-- Stage 1: component c scaled to output pixel (u, v), exactly. -/
def State.scaled (s : State) (x : Layer) (c u v : Nat) : Rat :=
  let p := if c = 0 then 0 else if x.semi then 1 else c
  ((x.rowTaps p v).map (fun r =>
    ((x.colTaps p u).map (fun q => r.2 * q.2 * ((s.videoSample x c q.1 r.1 : Nat) : Rat))).sum)).sum

/-! ### One layer -/

def clampTo (lo hi q : Rat) : Rat := max lo (min q hi)

/-- A 3 × 3 matrix of FP32 words applied to a triple. -/
def matrixTimes (m : List W32) (l : List Rat) : List Rat :=
  (List.range 3).map (fun i => ((List.range 3).map (fun j => fp32Val (m.getD (3 * i + j) 0) * l.getD j 0)).sum)

/-- An FP16 value placed in U4.24 (R166). -/
def placeU4 (code : Nat) : Rat :=
  match fp16.decode code with
  | .num q _ => if q < 0 then 0 else if 16 ≤ q then 16 - 1 / 2 ^ 24 else roundGrid 24 q
  | .inf neg => if neg then 0 else 16 - 1 / 2 ^ 24
  | .nan => 0

/-- An n-bit alpha code in U1.16 (R166). -/
def alphaCode (n a : Nat) : Rat := roundGrid 16 ((a : Rat) / ((2 ^ n - 1 : Nat) : Rat))

/-- An FP16 alpha (R298). -/
def alphaFp16 (code : Nat) : Rat :=
  match fp16.decode code with
  | .num q _ => roundGrid 16 (clampTo 0 1 q)
  | .inf neg => if neg then 0 else 1
  | .nan => 0

/-- A graphic pixel: stage 3 of its colour, and its alpha. -/
def State.graphicPixel (s : State) (x : Layer) (u v : Nat) : List Rat × Rat :=
  let a := x.plane0.toNat + v * x.pitch0.toNat
  let unit (bits w lsb : Nat) : Rat := ((w / 2 ^ lsb % 2 ^ bits : Nat) : Rat) / ((2 ^ bits - 1 : Nat) : Rat)
  if x.format = 10 then
    let h (i : Nat) : Nat := s.sampleAt x (a + 8 * u + 2 * i) 2
    ((List.range 3).map (fun i => placeU4 (h i)), alphaFp16 (h 3))
  else
    let w := s.sampleAt x (a + 4 * u) 4
    if x.format = 8 then (transferIn x.transfer.toNat [unit 8 w 16, unit 8 w 8, unit 8 w 0], alphaCode 8 (w / 2 ^ 24 % 256))
    else (transferIn x.transfer.toNat [unit 10 w 20, unit 10 w 10, unit 10 w 0], alphaCode 2 (w / 2 ^ 30 % 4))

/-- Stages 1 to 5 of a layer at a raster pixel: premultiplied colour and alpha (R294 to R298, R560). -/
def State.layerPixel (s : State) (x : Layer) (k : SlotKind) (px py : Nat) : List Rat × Rat :=
  let u : Int := (px : Int) - signed 16 x.dstX.toNat
  let v : Int := (py : Int) - signed 16 x.dstY.toNat
  let plane : Rat := (x.alpha.toNat : Rat) / 65536
  let none_ : List Rat × Rat := ([0, 0, 0], 0)
  if u < 0 ∨ v < 0 ∨ (x.dstW.toNat : Int) ≤ u ∨ (x.dstH.toNat : Int) ≤ v then none_
  else
    match k with
    | .video =>
      let l := (List.range 3).map (fun c => s.scaled x c u.toNat v.toNat - ((x.decOff.getD c 0).toInt : Rat))
      let r := transferIn x.transfer.toNat ((matrixTimes x.dec l).map (clampTo 0 1))
      let g := (matrixTimes x.gam r).map (clampTo 0 16)
      (g.map (· * plane), plane)
    | .graphic =>
      if (x.srcW.toNat : Int) ≤ u ∨ (x.srcH.toNat : Int) ≤ v then none_
      else
        let (r, a) := s.graphicPixel x u.toNat v.toNat
        let g := (matrixTimes x.gam r).map (clampTo 0 16)
        (g.map (fun c => if x.premul then c * plane else c * (a * plane)), a * plane)
    | _ => none_

/-- The gain of a raster pixel (R301). -/
def State.gainAt (s : State) (x : Layer) (px py : Nat) : Rat :=
  let u : Int := (px : Int) - signed 16 x.dstX.toNat
  let v : Int := (py : Int) - signed 16 x.dstY.toNat
  if !x.en ∨ u < 0 ∨ v < 0 ∨ (x.dstW.toNat : Int) ≤ u ∨ (x.dstH.toNat : Int) ≤ v then 1
  else
    let i := u.toNat / 2 ^ x.gainShift.toNat
    let j := v.toNat / 2 ^ x.gainShift.toNat
    if x.srcW.toNat ≤ i ∨ x.srcH.toNat ≤ j then 1 else placeU4 (s.sampleAt x (x.plane0.toNat + j * x.pitch0.toNat + 2 * i) 2)

/-! ### The output stage -/

/-- Premultiplied over (R299). -/
def over_ (acc : List Rat) (p : List Rat) (a : Rat) : List Rat := (List.range 3).map (fun i => p.getD i 0 + (1 - a) * acc.getD i 0)

/-- The curve between its points (R300). -/
def OutStage.curveAt (x : OutStage) (p : Rat) : Rat :=
  let k := (4096 * p).floor.toNat
  let t (i : Nat) : Rat := ((x.curve.getD i 0).toNat : Rat) / 2 ^ 31
  if 4096 ≤ k then t 4096 else t k + (4096 * p - (k : Rat)) * (t (k + 1) - t k)

/-- Stage 7 of one component (R300). -/
def OutStage.tone (x : OutStage) (c : Rat) : Rat :=
  if x.toneEn then
    let p := roundNear 32 2 [min c 10 / 10] (pqInverse (min c 10 / 10))
    let q := min (x.curveAt p) 1
    roundNear 40 3 [q] (fun p => 10 * pqEotf q p)
  else c

/-- A pixel of the lid: straight alpha, sRGB, its own gamut matrix; transparent where an error struck (R302, R307, R320). -/
def Lid.pixel (l : Lid) (px py : Nat) : List Rat × Rat :=
  let inside := l.visible && decide (l.x ≤ px) && decide (px < l.x + l.w) && decide (l.y ≤ py) && decide (py < l.y + l.h)
  let i := (py - l.y) * l.w + (px - l.x)
  if !inside || l.bad.contains i then ([0, 0, 0], 0)
  else
    let b (j : Nat) : Nat := ((l.image.get? (4 * i + j)).getD 0).toNat
    let a := alphaCode 8 (b 3)
    let r := transferIn 1 [(b 2 : Rat) / 255, (b 1 : Rat) / 255, (b 0 : Rat) / 255]
    (((matrixTimes l.gam r).map (clampTo 0 16)).map (· * a), a)

/-- dither_hash of R305. -/
def ditherHash (x y n c : W32) : Nat :=
  let h := (x * 0x9E3779B1) ^^^ (y * 0x85EBCA77) ^^^ (n * 0xC2B2AE3D) ^^^ (c * 0x27D4EB2F)
  let h := h ^^^ (h >>> 15)
  let h := h * 0x2C1B3C6D
  let h := h ^^^ (h >>> 12)
  (h >>> 16).toNat

/-- The dither value of a component (R305). -/
def OutStage.ditherOf (x : OutStage) (px py : Nat) (n : W32) (c : Nat) : Rat :=
  let a : Rat := if x.dither = 0 then 0 else if x.dither = 1 then 1 / 4 else if x.dither = 2 then 1 / 2 else 1
  (((ditherHash (BitVec.ofNat 32 px) (BitVec.ofNat 32 py) n (BitVec.ofNat 32 c) : Nat) : Int) - 32768 : Int) * a / 65536

/-- The code of a component at a depth of d bits (R306). -/
def OutStage.encode (x : OutStage) (d : Nat) (o dither : Rat) : Nat :=
  let full : Rat := ((2 ^ d - 1 : Nat) : Rat)
  let (sc, off) : Rat × Rat := if x.narrow then (219 * pow2 ((d : Int) - 8), 16 * pow2 ((d : Int) - 8)) else (full, 0)
  (max 0 (min (roundInt 0 (o * sc + off + dither)) (2 ^ d - 1))).toNat

/-- Stages 10 to 12: wear gain, output transfer and code (R303 to R306). -/
def OutStage.codes (x : OutStage) (d : Nat) (px py : Nat) (frame : W32) (gains : List Rat) (c : List Rat) : List Nat :=
  let w := (List.range 3).map (fun i => c.getD i 0 * gains.getD i 1)
  let y := if x.outTransfer = 3 then w.map (· / 10) else if x.outTransfer = 4 then w else w.map (· * fp32Val x.outGain)
  let o := transferOut x.outTransfer.toNat (y.map (clampTo 0 1))
  (List.range 3).map (fun i => x.encode d (o.getD i 0) (x.ditherOf px py frame i))

/-! ### One raster line -/

/-- The state a line is composed with: what applied at its frame's commit point, and the slots whose line is lost. -/
structure LineState where
  n : Nat
  y : Nat
  depth : Nat
  applied : Applied
  lost : List Nat
  /-- The line's wear gains were not fetched (R361). -/
  gainLost : Bool
deriving DecidableEq, Repr

def LineState.layer (l : LineState) (slot : Nat) : Layer := l.applied.slots.layer slot

/-- One layer's p and A at column x of the line; transparent where its line is lost. -/
def State.slotPixel (s : State) (l : LineState) (slot x : Nat) : List Rat × Rat :=
  if !(l.layer slot).en || l.lost.contains slot then ([0, 0, 0], 0) else s.layerPixel (l.layer slot) (slotKind slot) x l.y

/-- The blend result at column x (R299). -/
def State.blendPixel (s : State) (l : LineState) (x : Nat) : List Rat :=
  let st := l.applied.slots.stage
  st.orderList.foldl (fun acc slot => let (p, a) := s.slotPixel l slot x; over_ acc p a)
    ((List.range 3).map (fun i => ((st.bg.getD i 0).toNat : Rat) / 2 ^ 24))

/-- The 8-B gain word of three gains in units of 2^-16 (R355). -/
def gainWord (l : List Nat) : W64 := BitVec.ofNat 64 (l.getD 0 0 + put (l.getD 1 0) 18 + put (l.getD 2 0) 36)

/-- The word of a pixel whose gains are all 1. -/
def gainOne : W64 := gainWord [65536, 65536, 65536]

/-- Wear gains of column x of the line (R303, R361). -/
def State.wearGains (s : State) (l : LineState) (x : Nat) : List Rat :=
  if l.applied.wearOn && !l.gainLost then
    let g := s.governor l.n
    let w := (s.tgOf l.n).eff.hAct.toNat
    let col := if g = l.n then x else w + x
    let width := if (s.tg g).paired then 2 * w else w
    let word := l.applied.gains.get (l.y * width + col) gainOne
    (List.range 3).map (fun c => ((fieldOf word (18 * c + 17) (18 * c) : Nat) : Rat) / 65536)
  else [1, 1, 1]

/-- The output codes of a blended pixel (R300 to R306). -/
def State.pixelCodes (s : State) (l : LineState) (x : Nat) (blend : List Rat) : List Nat :=
  let st := l.applied.slots.stage
  let g := if l.lost.contains 20 then 1 else s.gainAt (l.layer 20) x l.y
  let c := (blend.map st.tone).map (fun v => min (v * g) 16)
  let (p, a) := l.applied.lid.pixel x l.y
  st.codes l.depth x l.y l.applied.frame (s.wearGains l x) (over_ c p a)

/-! ### The raster -/

/-- Codes packed without gaps into a line of so many bytes (R317). -/
def packLine (depth bytes : Nat) (codes : List Nat) : List Byte :=
  toLe bytes (codes.zipIdx.foldl (fun acc p => acc + p.1 * 2 ^ (depth * p.2)) 0)

/-- Code c of pixel x of a packed line. -/
def unpackCode (depth : Nat) (line : List Byte) (x c : Nat) : Nat := leNat line / 2 ^ (depth * (3 * x + c)) % 2 ^ depth

end Sys2Proof.Machine
end

