-- ==== Sys2Proof/Machine/Wear.lean ====
section
/-! DEFINITION. Panel identity and wear (chapter 13): identity, counters, gains, life, checkpoints. -/

namespace Sys2Proof.Machine

/-! ### The panel module -/

/-- A byte of page p (0 to 2) of the panel's EEPROM. -/
def State.panelByte (s : State) (n p a : Nat) : Byte :=
  ((s.eeprom.get (3 * n + p) {}).get? a).getD (Config.freeByte (4 + p) n a)

def State.panelRead (s : State) (n p a k : Nat) : List Byte := readBytes (s.panelByte n p) a k

/-- A signature of 132 B over bytes by a key. -/
def signedBy (key body sig : List Byte) : Bool := Config.ecdsaVerify key (Config.sha512 body) sig

/-- Keys of the trust store with a role (R517). -/
def State.trustKeys (s : State) (role : Nat) : List (List Byte) :=
  (s.svc.trust.filter (fun e => decide (e.role.toNat = role))).map TrustEntry.key

/-- n 16-bit words of a byte list from offset o. -/
def halvesAt (l : List Byte) (o n : Nat) : List (BitVec 16) := (List.range n).map (fun i => BitVec.ofNat 16 (leAt l (o + 2 * i) 2))

/-- The identity part of a panel record (Table 13.1). -/
def parsePanel (l : List Byte) : PanelId :=
  { make := (l.drop 8).take 16, model := (l.drop 0x18).take 16, serial := (l.drop 0x28).take 16, hNative := leAt l 0x38 2, vNative := leAt l 0x3A 2,
    headroom := leAt l 0x44 4, stress := halvesAt l 0x100 768, decay := halvesAt l 0x700 195 }

/-- DECAY[c][k]. -/
def PanelId.decayAt (p : PanelId) (c k : Nat) : Nat := (p.decay.getD (65 * c + k) 0).toNat

/-- The conditions of R353 on the identity part. -/
def State.panelTrusted (s : State) (l : List Byte) : Bool :=
  let p := parsePanel l
  decide (leAt l 0 4 = 0x7780FA2E) && decide (leAt l 4 2 = 1)
    && (s.trustKeys 1).any (fun k => decide ((Config.sha512 k).take 8 = (l.drop 0x48).take 8) && signedBy k (l.take 0x900) ((l.drop 0x900).take 132))
    && (List.range 3).all (fun c => decide (p.decayAt c 0 = 0x8000) && decide (1 ≤ p.decayAt c 64)
        && (List.range 64).all (fun k => decide (p.decayAt c (k + 1) ≤ p.decayAt c k)))
    && decide (0x10001 ≤ p.headroom) && decide (p.headroom ≤ 0x3FFFF)

/-- The same panel, by MAKE, MODEL and SERIAL. -/
def PanelId.same (a b : PanelId) : Bool := decide (a.make = b.make) && decide (a.model = b.model) && decide (a.serial = b.serial)

/-! ### Gains (R358) -/

/-- N of a counter before HEADROOM limits it: 2^16 ÷ η to the nearest integer, ties to even. -/
def PanelId.gainN (p : PanelId) (c : Nat) (v : Nat) : Nat :=
  let k := v / 2 ^ 26
  let f : Rat := ((v % 2 ^ 26 : Nat) : Rat) / 2 ^ 26
  let e (i : Nat) : Rat := (p.decayAt c i : Rat)
  let eta : Rat := (if k = 64 then e 64 else e k + f * (e (k + 1) - e k)) / 2 ^ 15
  (roundInt 0 (65536 / eta)).toNat

/-- C_EOL of a colour. -/
def PanelId.endOfLife (p : PanelId) (c : Nat) : Nat := largestBelow 32 (fun v => decide (p.gainN c v ≤ p.headroom)) + 1

/-- W of one colour in units of 2^-16. -/
def PanelId.gain (p : PanelId) (c : Nat) (v : W32) : Nat := min (p.gainN c v.toNat) p.headroom

/-- The gain words of a map of counters, one for each pixel (R355, R358). -/
def PanelId.gainsOf (p : PanelId) (counters : Tbl W32) : Tbl W64 :=
  ⟨(List.range (p.hNative * p.vNative)).map (fun i =>
    (i, gainWord ((List.range 3).map (fun c => p.gain c (counters.get (3 * i + c) 0)))))⟩

/-- Some counter's N exceeds HEADROOM. -/
def PanelId.atEnd (p : PanelId) (counters : Tbl W32) : Bool := counters.cells.any (fun q => decide (p.headroom < p.gainN (q.1 % 3) q.2.toNat))

/-- Gains derived for the next commit points; the first end of life of an identity is reported (R358, R359, R362). -/
def State.deriveGains (s : State) (n : Nat) : State :=
  let w := s.wear n
  match w.identity with
  | none => s
  | some p =>
    let fresh := p.gainsOf w.counters
    let keep := w.frozen.foldl (fun (t : Tbl W64) i => t.set i (w.gains.get i gainOne)) fresh
    let done := p.atEnd w.counters
    let s := s.setWear n { w with gainsNext := some keep, eol := w.eol || done }
    if done && !w.eol then s.devEvent stPanelEol (BitVec.ofNat 32 n) 0 else s

/-! ### Checkpoints (R364) -/

/-- Blocks across and down of a panel slot. -/
def PanelId.blocks (p : PanelId) : Nat × Nat := ((p.hNative + 63) / 64, (p.vNative + 63) / 64)

/-- Bytes of a host checkpoint. -/
def PanelId.hostBytes (p : PanelId) : Nat := 0x220 + 12 * p.hNative * p.vNative

/-- The data of a host checkpoint. -/
def Pwu.hostData (w : Pwu) (p : PanelId) : List Byte :=
  (List.range (3 * p.hNative * p.vNative)).flatMap (fun i => toLe 4 (w.counters.get i 0).toNat)

/-- A block's value of one colour: the largest counter, shifted right by 16 and rounded up; the largest value stays within its 16 bits (log 37). -/
def Pwu.blockValue (w : Pwu) (p : PanelId) (bx by_ c : Nat) : Nat :=
  let m := (List.range 4096).foldl (fun m i =>
    let x := 64 * bx + i % 64
    let y := 64 * by_ + i / 64
    if x < p.hNative ∧ y < p.vNative then max m (w.counters.get (3 * (y * p.hNative + x) + c) 0).toNat else m) 0
  min 0xFFFF ((m + 0xFFFF) / 0x10000)

/-- The data of a panel slot. -/
def Pwu.slotData (w : Pwu) (p : PanelId) : List Byte :=
  let (bw, bh) := p.blocks
  (List.range (bw * bh)).flatMap (fun i => (List.range 3).flatMap (fun c => toLe 2 (w.blockValue p (i % bw) (i / bw) c)))

/-- A checkpoint (Table 13.2) with its signature. -/
def checkpoint (kind : Nat) (seq : Nat) (p : PanelId) (samples : W64) (bw bh : Nat) (data : List Byte) : List Byte :=
  let head := toLe 4 0x7780C4E0 ++ toLe 1 kind ++ List.replicate 3 0 ++ toLe 8 seq ++ p.make ++ p.model ++ p.serial ++ toLe 8 samples.toNat
    ++ toLe 2 bw ++ toLe 2 bh ++ toLe 4 0 ++ takePad 64 0 (Config.sha512 data) ++ takePad 133 0 Config.deviceKey ++ List.replicate 3 0
    ++ takePad 132 0 Config.deviceCert
  head ++ takePad 132 0 (Config.deviceSign (Config.sha512 head)) ++ data

/-- A checkpoint's header and data verify for a kind, a panel and a size (R367, R368): `rd` reads it. -/
def State.checkpointOk (s : State) (rd : Nat → Nat → List Byte) (kind : Nat) (p : PanelId) (bw bh dataBytes : Nat) : Bool :=
  let h := rd 0 0x220
  let key := (h.drop 0x90).take 133
  decide (leAt h 0 4 = 0x7780C4E0) && decide (leAt h 4 1 = kind)
    && decide ((h.drop 0x10).take 48 = p.make ++ p.model ++ p.serial)
    && decide (leAt h 0x48 2 = bw) && decide (leAt h 0x4A 2 = bh)
    && (s.trustKeys 0).any (fun k => signedBy k key ((h.drop 0x118).take 132))
    && signedBy key (h.take 0x19C) ((h.drop 0x19C).take 132)
    && decide (Config.sha512 (rd 0x220 dataBytes) = (h.drop 0x50).take 64)

/-- SEQ of panel slot p (1 or 2) when it is valid. -/
def State.slotSeq (s : State) (n p : Nat) (id : PanelId) : Option Nat :=
  let (bw, bh) := id.blocks
  if (s.eeprom.get (3 * n + p) {}).cells.isEmpty then none
  else if s.checkpointOk (s.panelRead n p) 0 id bw bh (6 * bw * bh) then some (leAt (s.panelRead n p 8 8) 0 8) else none

/-- The highest valid SEQ of either slot, 0 with none. -/
def State.topSeq (s : State) (n : Nat) (id : PanelId) : Nat := max ((s.slotSeq n 1 id).getD 0) ((s.slotSeq n 2 id).getD 0)

/-- Counters that a panel slot stands for (R368). -/
def State.coarseCounters (s : State) (n p : Nat) (id : PanelId) : Tbl W32 :=
  let bw := id.blocks.1
  ⟨(List.range (3 * id.hNative * id.vNative)).map (fun i =>
    let x := i / 3 % id.hNative
    let y := i / 3 / id.hNative
    let v := leNat (s.panelRead n p (0x220 + 6 * (y / 64 * bw + x / 64) + 2 * (i % 3)) 2)
    (i, BitVec.ofNat 32 (v * 0x10000 + 0xFFFF)))⟩

/-! ### Acceptance of an identity (R352 to R354, R368) -/

/-- W is 1 on output n from here up to a commit point that turns compensation on: the states captured before hold no gains (R352, R360). -/
def State.stopGains (s : State) (n : Nat) : State :=
  (s.halves n).foldl (fun s h =>
    let c := s.comp h
    s.setComp h { c with states := c.states.map (fun a => { a with wearOn := false, gains := {} }) }) s

/-- The accepted identity against the raster in effect; a mismatch is reported when it is found (R354). -/
def State.checkGeometry (s : State) (n : Nat) : State :=
  let w := s.wear n
  match w.identity with
  | none => s
  | some p =>
    if (s.tg n).phase = .off then s
    else
      let t := (s.tg n).eff
      let width := if (s.tg n).paired then 2 * t.hAct.toNat else t.hAct.toNat
      let bad := decide (p.hNative ≠ width) || decide (p.vNative ≠ t.vAct.toNat)
      let s := s.setWear n { w with geometry := bad }
      let s := if bad then s.stopGains n else s
      if bad && !w.geometry then s.devEvent stPanelGeometry (BitVec.ofNat 32 n) 0 else s

/-- Counters kept or loaded for a newly accepted identity (R368). -/
def State.loadCounters (s : State) (n : Nat) (p : PanelId) : State :=
  let w := s.wear n
  let kept := (w.heldFor.map (fun q => q.same p)).getD false
  let w := { w with history := [w.counters], remain := 0xFFFF }
  if kept then s.setWear n { w with heldFor := some p }
  else
    let a := s.slotSeq n 1 p
    let b := s.slotSeq n 2 p
    let page := match a, b with
      | some x, some y => if x < y then some 2 else some 1
      | some _, none => some 1
      | none, some _ => some 2
      | none, none => none
    let w := { w with heldFor := some p, frozen := [], gains := {}, eol := false, used := 0 }
    match page with
    | none => s.setWear n { w with counters := {}, history := [{}], coarse := false, samples := 0 }
    | some q =>
      let l := s.coarseCounters n q p
      s.setWear n { w with counters := l, history := [l], coarse := true, samples := BitVec.ofNat 64 (leNat (s.panelRead n q 0x40 8)) }

/-- A panel is plugged or unplugged: from here until an identity is accepted compensation is off, and of a frame sent before nothing is sampled (R352). -/
def State.forgetPanel (s : State) (n : Nat) : State :=
  (s.setWear n { s.wear n with present := false, trusted := false, geometry := false, identity := none, due := false, shot := none }).stopGains n

/-- The supervisor reads and judges the panel record of an output (R352 to R354). A port whose AUX driver a short holds off gives no reply (R346). -/
def State.readPanel (s : State) (n : Nat) : State :=
  let s := s.forgetPanel n
  let w := s.wear n
  if (s.eeprom.get (3 * n) {}).cells.isEmpty || (s.port n).shorted then s
  else
    let l := s.panelRead n 0 0 0x984
    let s := s.setWear n { w with present := true }
    if s.panelTrusted l then
      let p := parsePanel l
      let s := s.setWear n { w with present := true, trusted := true, identity := some p }
      ((s.loadCounters n p).deriveGains n).checkGeometry n
    else s.devEvent stPanelUntrusted (BitVec.ofNat 32 n) 0

/-- Gains apply on an output (R360). -/
def Pwu.applies (w : Pwu) : Bool := w.en && w.trusted && w.identity.isSome && !w.geometry

/-! ### Samples (R356, R357, R363) -/

/-- The code sent for component c of panel pixel (x, y), lid and dither, repeated pixels and all. -/
def Shot.code (f : Shot) (x y c : Nat) : Nat :=
  if x < f.width then (f.lower.get y []).getD (3 * x + c) 0 else (f.upper.get y []).getD (3 * (x - f.width) + c) 0

/-- The frame of generator n that has been sent to its end is kept for the PWU, if it was due; the frame that now begins at `boundary`, if one does,
is due when its line-0 tick is the output's first at or after a multiple of 2^30 ns (R356). -/
def State.turnShot (s : State) (n : Nat) (boundary : Option W64) : State :=
  let g := s.tg n
  let w := s.wear n
  let f : Shot :=
    { up := (s.port n).upAll && (!g.paired || (s.port (n + 1)).upAll), width := g.eff.hAct.toNat, depth := bitsPer g.eff.bpc.toNat
      lower := s.raster.lines.get n {}, upper := if g.paired then s.raster.lines.get (n + 1) {} else {} }
  let s := { s with raster := { s.raster with lines := (s.raster.lines.set n {}).set (n + b2n g.paired) {} } }
  let slot := boundary.map (fun b => b.toNat / 2 ^ 30)
  s.setWear n { w with
    shot := if w.due then some f else w.shot
    due := slot.isSome && decide (slot ≠ w.lastSlot)
    lastSlot := slot.orElse (fun _ => w.lastSlot) }

/-- Stress index of a code of depth d (R357). -/
def stressIndex (d code : Nat) : Nat := if d = 6 then code * 4 else code / 2 ^ (d - 8)

/-- Counters after a sample. -/
def Pwu.stressed (w : Pwu) (p : PanelId) (f : Shot) : Tbl W32 :=
  ⟨(List.range (3 * p.hNative * p.vNative)).map (fun i =>
    let px := i / 3
    let old := w.counters.get i 0
    if w.frozen.contains px then (i, old)
    else
      let code := f.code (px % p.hNative) (px / p.hNative) (i % 3)
      (i, satAdd old (p.stress.getD (256 * (i % 3) + stressIndex f.depth code) 0).toNat))⟩

/-- The worst subpixel: its key, its ratio C ÷ C_EOL the largest (R363). -/
def worstOf (p : PanelId) (counters : Tbl W32) : Nat × Nat × Nat :=
  let ends := (List.range 3).map p.endOfLife
  counters.cells.foldl (fun (best : Nat × Nat × Nat) q =>
    let e := ends.getD (q.1 % 3) 1
    if best.2.1 * e < q.2.toNat * best.2.2 then (q.1, q.2.toNat, e) else best) (0, 0, 1)

/-- PWU_LIFE after a sample (R363). -/
def Pwu.life (w : Pwu) (p : PanelId) : Pwu :=
  let (key, c, e) := worstOf p w.counters
  let used := BitVec.ofNat 16 (min 0xFFFF (c * 65536 / e))
  let remain : Nat :=
    if w.history.length < 4097 then 0xFFFF
    else
      let grown := c - (((w.history.head?).getD {}).get key 0).toNat
      if grown = 0 then 0xFFFF else min 0xFFFE ((e - c) * 4096 * 2 ^ 30 / (grown * 28800000000000))
  { w with used := used, remain := BitVec.ofNat 16 remain }

/-- PWU_SAMPLE: the frame whose line-0 tick was the first at or after a multiple of 2^30 ns, once it has been sent, is sampled; it is skipped when the
link was not up throughout (R356). -/
def execPwuSample (out : OutId) (now : W64) (s : State) : Host.Outcome State Fault Refusal :=
  unlessInert s fun s =>
    let s := s.at_ now
    let n := s.governor out.val
    let w := s.wear n
    match w.identity, w.shot with
    | some p, some f =>
      let w := { w with shot := none }
      if w.geometry then s.setWear n w
      else if !f.up then (s.setWear n w).count (cntPwu n 2) 1
      else
        let counters := w.stressed p f
        let w := { w with counters := counters, samples := w.samples + 1, history := (w.history ++ [counters]).drop (w.history.length - 4096) }
        ((s.setWear n (w.life p)).deriveGains n).count (cntPwu n 1) 1
    | _, _ => s

/-! ### Save and restore -/

/-- PANEL_WEAR_SYNC of an output runs only on an accepted identity and a buffer that holds its checkpoint (R365, Table 14.5). -/
def State.wearBuffer (s : State) (h : DescHdr) (b : WearBody) (save : Bool) (k : State → Nat → PanelId → State) : State :=
  let n := s.governor b.output.val
  match (s.wear n).identity with
  | none => s.complete h opWearSync (if !b.host && s.guarded b.buffer.toNat b.bufBytes.toNat then stDescBad else stPanelSyncFail)
  | some p =>
    if b.bufBytes.toNat < p.hostBytes || (!b.host && s.guarded b.buffer.toNat p.hostBytes) then s.complete h opWearSync stDescBad
    else if b.host && (s.absentIn b.buffer.toNat p.hostBytes save).isSome then s.descRingFault h opWearSync
    else k s n p

/-- PANEL_WEAR_SYNC save: a host checkpoint and a panel slot, one SEQ above the highest valid one (R366). -/
def execPanelWearSave (h : DescHdr) (b : WearBody) (panelOk : Bool) (s : State) : Host.Outcome State Fault Refusal :=
  descriptor h s fun s => s.wearBuffer h b true fun s n p =>
    let w := s.wear n
    let seq := s.topSeq n p + 1
    let (bw, bh) := p.blocks
    let page := match s.slotSeq n 1 p, s.slotSeq n 2 p with
      | some x, some y => if y < x then 2 else 1
      | some _, none => 2
      | none, _ => 1
    let host := checkpoint 1 seq p w.samples p.hNative p.vNative (w.hostData p)
    let slot := checkpoint 0 seq p w.samples bw bh (w.slotData p)
    let s := s.memWrite b.host b.buffer.toNat host
    let m := s.eeprom.get (3 * n + page) {}
    if panelOk then ({ s with eeprom := s.eeprom.set (3 * n + page) (m.write 0 slot) } : State).complete h opWearSync stOk
    else ({ s with eeprom := s.eeprom.set (3 * n + page) (m.forget 0 65536) } : State).complete h opWearSync stPanelSyncFail

/-- PANEL_WEAR_SYNC restore: every counter from a host checkpoint that verifies (R367). -/
def execPanelWearRestore (h : DescHdr) (b : WearBody) (s : State) : Host.Outcome State Fault Refusal :=
  descriptor h s fun s => s.wearBuffer h b false fun s n p =>
    let rd (o k : Nat) : List Byte := s.memRead b.host (b.buffer.toNat + o) k
    let bytes := 12 * p.hNative * p.vNative
    let bad := !b.host && s.hbmPoisoned b.buffer.toNat p.hostBytes
    if !bad && s.checkpointOk rd 1 p p.hNative p.vNative bytes && decide (s.topSeq n p ≤ leNat (rd 8 8)) then
      let l := rd 0x220 bytes
      let counters : Tbl W32 := ⟨(List.range (3 * p.hNative * p.vNative)).map (fun i => (i, BitVec.ofNat 32 (leAt l (4 * i) 4)))⟩
      ((s.setWear n { s.wear n with counters := counters, coarse := false, frozen := [] }).deriveGains n).complete h opWearSync stOk
    else s.complete h opWearSync stPanelSyncFail

end Sys2Proof.Machine
end

