-- ==== Sys2Proof/Machine/Compose.lean ====
section
/-! DEFINITION. Compositors at work: what applies at a commit point (R309), composition of lines (R290, R309), lid errors (R320) and transmit
underruns (R336). -/

namespace Sys2Proof.Machine

/-! ### Commit points (R309) -/

/-- Wear gains and the PWU's switch at a commit point of output n (R359, R360). -/
def State.captureWear (s : State) (n : Nat) : State :=
  let w := s.wear n
  s.setWear n { w with gains := w.gainsNext.getD w.gains, gainsNext := none, active := w.applies }

/-- The compositor's part of the commit point of frame m on output n: snapshots, writebacks, lid and gains apply, and the state is kept for
the composition of the frame. -/
def State.commitPoint (s : State) (n : Nat) (m : W32) : State :=
  let s := (s.applyDue n m).bindDue n m
  let g := s.governor n
  let s := if g = n then s.captureWear n else s
  let c := s.comp n
  let lid := c.lidNext.getD c.lid
  let lid := if s.lsch.svcDown then lid else { lid with bad := [] }
  let a : Applied := { frame := m, slots := c.applied, lid := lid, wearOn := (s.wear g).active, gains := (s.wear g).gains }
  s.setComp n { c with frame := m, lid := lid, lidNext := none, states := c.states ++ [a] }

/-- States of frames that lie behind the frame now scanned are done with. -/
def State.dropStates (s : State) (n : Nat) (frame : W32) : State :=
  let c := s.comp n
  let rest := c.states.filter (fun a => !frameLt a.frame frame)
  s.setComp n { c with states := rest, composed := if rest.length = c.states.length then c.composed else 0 }

/-! ### Lines on their way to a writeback (R261, R273, R313, R314) -/

/-- A contiguous run of n bytes. -/
def runOfBytes (a n : Nat) : Walk :=
  { addr := BitVec.ofNat 64 a, run := BitVec.ofNat 32 n, count1 := 1, count2 := 1, count3 := 1, stride1 := 0, stride2 := 0, stride3 := 0 }

/-- A line is given to a stream mover, whose deadline for it is the tick by which it must be visible; with no room it waits. -/
def State.postLine (s : State) (n : Nat) (w : Writeback) (q : WbLine) : State :=
  let c := w.ctx.toNat
  let dst := runOfBytes q.addr q.bytes.length
  s.post { id := 0, kind := .line n w.num q, ctx := c, live := liveCtx c, srcSpace := .hbm, src := dst, dstSpace := if w.body.host then .host else .hbm,
           dst := dst, total := q.bytes.length, done := 0, deadline := deadlineOf (s.instantOf (s.governor n) q.frame (q.line + 4)), page := none }

/-- Lines of an output's writebacks that waited for a mover go to one, as far as there is room. -/
def State.writeWaiting (s : State) (n : Nat) : State :=
  (s.comp n).writebacks.foldl (fun s w => w.waiting.foldl (fun s q =>
    if s.moverRoom = 0 then s
    else
      let c := s.comp n
      let s := s.setComp n { c with writebacks := c.writebacks.map (fun v => if v.num = w.num then { v with waiting := v.waiting.erase q } else v) }
      s.postLine n w q) s) s

/-- A composed line given to a writeback; one whose bytes would lie in HBM that BAR4 does not serve is dropped (R355, R373, log 35). -/
def State.wbLine (s : State) (n : Nat) (i : Nat) (frame : W32) (y : Nat) (l : List Byte) : State :=
  match (s.comp n).writebacks[i]? with
  | none => s
  | some w =>
    let q : WbLine := { frame := frame, line := y, addr := wbAddr w frame y, bytes := l }
    if !w.body.host && s.guarded q.addr l.length then s.lineEnded n w.num frame true
    else if s.moverRoom = 0 then
      let c := s.comp n
      s.setComp n { c with writebacks := c.writebacks.set i { w with waiting := w.waiting ++ [q] } }
    else s.postLine n w q

/-- A line of output n that is due no later than a tick. -/
def lineDue (n : Nat) (due : WbLine → Bool) (x : Xfer) : Bool :=
  match x.kind with
  | .line k _ l => decide (k = n) && due l
  | _ => false

/-- Lines of mover m that are too late leave it; one of a live context that waited for a page was cancelled under R273. -/
def State.dropLines (s : State) (m n : Nat) (due : WbLine → Bool) : State :=
  let u := s.mover m
  let late := (u.pending ++ u.outstanding).filter (lineDue n due)
  if late.isEmpty then s
  else
    let s := s.setMover m { u with
      pending := u.pending.filter (fun x => !lineDue n due x), outstanding := u.outstanding.filter (fun x => !lineDue n due x)
      pageLateSeen := u.pageLateSeen || late.any (fun x => x.live && x.page.isSome) }
    State.moverFill 64 (late.foldl (fun s x => s.xferEnded x stPageLate) s) m

/-- Lines that have not been written by the tick of the line four after them are dropped (R314): `due` says which. -/
def State.wbDrop (s : State) (n : Nat) (due : WbLine → Bool) : State :=
  let s := (List.range 32).foldl (fun s m => s.dropLines m n due) s
  (s.comp n).writebacks.foldl (fun s w =>
    let late := w.waiting.filter due
    if late.isEmpty then s
    else
      let c := s.comp n
      let s := s.setComp n { c with writebacks := c.writebacks.map (fun v => if v.num = w.num then { v with waiting := v.waiting.filter (fun q => !due q) } else v) }
      (late.foldl (fun s q => s.lineEnded n w.num q.frame true) s).wbSettle n) s

/-! ### Composition of a line -/

/-- The state that line y is composed with: of the frame in progress, or of the next one when its lines start again. -/
def Comp.stateFor (c : Comp) (y : Nat) : Comp :=
  if y < c.composed && decide (1 < c.states.length) then { c with states := c.states.drop 1, composed := 0 } else c

/-- Slots that the line uses: those of ORDER that are enabled, the gain map, and the layers of point 2 writebacks. -/
def Comp.slotsUsed (c : Comp) (a : Applied) : List Nat :=
  ((a.slots.stage.orderList ++ [20] ++ c.takenSlots).dedup).filter (fun t => (a.slots.layer t).en)

/-- Raster line y lies in a layer's rectangle. -/
def Layer.covers (x : Layer) (y : Nat) : Bool :=
  decide (signed 16 x.dstY.toNat ≤ (y : Int)) && decide ((y : Int) < signed 16 x.dstY.toNat + x.dstH.toNat)

/-- Slots whose line is transparent at raster line y, and how many of them count as LAYER_FETCH_ERR (R289, R290). -/
def State.lostSlots (s : State) (c : Comp) (a : Applied) (y : Nat) (late : BitVec 23) : List Nat × Nat :=
  let lost := (c.slotsUsed a).filter (fun t =>
    let x := a.slots.layer t
    x.covers y && s.lineLost a.frame x (slotKind t) ((y : Int) - signed 16 x.dstY.toNat).toNat (bitOf late t))
  let failed := lost.filter (fun t =>
    let x := a.slots.layer t
    let v := ((y : Int) - signed 16 x.dstY.toNat).toNat
    (!x.live && bitOf late t) || (x.planeList (slotKind t)).any (fun p => (x.rowsRead (slotKind t) p.1 v).any (fun row => !s.lineFetched x (slotKind t) p row)))
  (lost, failed.length)

/-- FP16 containers of a pixel of points 1 and 2. -/
def fp16Pixel (l : List Rat) (a : Rat) : List Byte :=
  ((List.range 3).map (fun i => l.getD i 0) ++ [a]).flatMap (fun v => toLe 2 (fp16.round 0 true (.ofRat v)).raw)

/-- Bytes of a line of a writeback (R313). -/
def State.wbBytes (s : State) (w : Writeback) (l : LineState) (blend : List (List Rat)) (codes : List (List Nat)) : List Byte :=
  if w.body.point.val = 0 then codes.flatMap (fun c => (c ++ [0]).flatMap (toLe 2))
  else if w.body.point.val = 1 then blend.flatMap (fun b => fp16Pixel b 1)
  else (List.range blend.length).flatMap (fun x => let (p, a) := s.slotPixel l w.body.slot.toNat x; fp16Pixel p a)

/-- A line composed with a state: written to the raster store and to the writebacks that apply. -/
def State.composeWith (s : State) (n y : Nat) (late : BitVec 23) (gainLate : Bool) (a : Applied) : State :=
  let t := (s.tgOf n).eff
  let depth := bitsPer t.bpc.toNat
  let (lost, failed) := s.lostSlots (s.comp n) a y late
  let l : LineState := { n := n, y := y, depth := depth, applied := a, lost := lost, gainLost := gainLate }
  let blend := (List.range t.hAct.toNat).map (s.blendPixel l)
  let codes := blend.zipIdx.map (fun p => s.pixelCodes l p.2 p.1)
  let m := (s.raster.outs.get n {}).write (t.pitch * y) (packLine depth t.pitch codes.flatten)
  let lines := ((s.comp n).writebacks.zipIdx.filter (fun p => (p.1.since.map (fun f => frameLe f a.frame)).getD false)).map (fun p =>
    (p.2, s.wbBytes p.1 l blend codes))
  let s := { s with raster := { s.raster with outs := s.raster.outs.set n m } }
  let s := (s.count (cntComp n 1) 1).count (cntComp n 0) failed
  let s := if gainLate && a.wearOn then s.count (cntPwu (s.governor n) 0) 1 else s
  (lines.foldl (fun s p => s.wbLine n p.1 a.frame y p.2) s).wbSettle n

/-- A line of a live layer is in its queue, or is decided on as held (R47). -/
def State.lineKnown (s : State) (x : Layer) (frame : W32) (line : Nat) : Bool :=
  let c := x.ctx.toNat
  match s.frameRun c frame with
  | none => !(s.stream c).active || frameLt frame (s.ctx c).nextOut
  | some r => r.dropped || r.judged.contains line || s.lineReady c frame line

/-- Every line of a live layer that raster line y reads is known, or the queue deadline of line y has passed (R47). -/
def State.linesKnown (s : State) (c : Comp) (a : Applied) (y : Nat) (placed : Int) : Bool :=
  decide ((y : Int) - 2 ≤ placed)
    || (c.slotsUsed a).all (fun t =>
      let x := a.slots.layer t
      let v := ((y : Int) - signed 16 x.dstY.toNat).toNat
      !x.live || !x.covers y
        || (x.planeList (slotKind t)).all (fun p => (x.rowsRead (slotKind t) p.1 v).all (fun row => s.lineKnown x a.frame (x.queueLine (slotKind t) p.1 row))))

/-- Line y of a frame may be composed: after the tick of line y - (B + 64) of the frame (R309), once scan-out has read the line of the frame before it
(R42), and once the live lines that it reads are known (R47). -/
def State.mayCompose (s : State) (n y : Nat) (c : Comp) (a : Applied) : Bool :=
  let g := s.governor n
  let t := s.tg g
  let at_ := s.placedOf g a.frame
  decide ((y : Int) - (s.beamLead g + 64) ≤ at_) && (!frameLt t.frame a.frame || decide (y ≤ t.line.toNat)) && s.linesKnown c a y at_

/-- The live lines that raster line y of a state reads are taken from their queues, those that are there (R289). -/
def State.takeLines (s : State) (n y : Nat) (a : Applied) : State :=
  ((s.comp n).slotsUsed a).foldl (fun s t =>
    let x := a.slots.layer t
    let v := ((y : Int) - signed 16 x.dstY.toNat).toNat
    if x.live && x.covers y then
      (x.planeList (slotKind t)).foldl (fun s p => (x.rowsRead (slotKind t) p.1 v).foldl (fun s row =>
        s.takeLine x.ctx.toNat a.frame (x.queueLine (slotKind t) p.1 row)) s) s
    else s) s

/-- COMPOSE_LINE: one raster line through the pixel path. `late` names the slots whose fetch missed the queue deadline, `gainLate` a late fetch of
the wear gains (R290, R361). -/
def execComposeLine (out : OutId) (y : BitVec 14) (late : BitVec 23) (gainLate : Bool) (s : State) : Host.Outcome State Fault Refusal :=
  unlessInert s fun s =>
    let n := out.val
    let c := (s.comp n).stateFor y.toNat
    match c.states.head? with
    | none => s
    | some a =>
      if (s.tgOf n).running && decide (y.toNat < (s.tgOf n).eff.vAct.toNat) && s.mayCompose n y.toNat c a then
        ((s.setComp n { c with composed := y.toNat + 1 }).takeLines n y.toNat a).composeWith n y.toNat late gainLate a
      else s

/-- What a port sends for line y of its output: the codes, each stream's columns of them under MST, and the frame so far (R335, R339). -/
def State.sendCodes (s : State) (h y : Nat) (codes : List Nat) : State :=
  let n := s.streamsOf h
  let w := codes.length / n
  { s with raster := { s.raster with
      sent := s.raster.sent.set h codes
      tiles := s.raster.tiles.set h ((List.range n).map (fun j => (codes.drop (j * w)).take w))
      lines := if codes.isEmpty then s.raster.lines else s.raster.lines.set h ((s.raster.lines.get h {}).set y codes) } }

/-- LID_AREA_UNCORR: the pixel of the lid is transparent until the supervisor has rewritten the image (R320). -/
def execLidAreaUncorr (out : OutId) (pixel : BitVec 20) (s : State) : Host.Outcome State Fault Refusal :=
  unlessInert s fun s =>
    let c := s.comp out.val
    let mark (l : Lid) : Lid := { l with bad := insertNat pixel.toNat l.bad }
    let s := (s.ladleFault 4).count (cntRaster 1) 1
    s.setComp out.val { c with lid := mark c.lid, states := c.states.map (fun a => { a with lid := mark a.lid }) }

/-- A line's codes with `run` pixels from column x on sent as the pixel before them, or as code 0 at the start of a stream of w columns (R336). -/
def repeatPixel (codes : List Nat) (w x run : Nat) : List Nat :=
  let last := if x % w = 0 then [0, 0, 0] else (codes.drop (3 * (x - 1))).take 3
  codes.take (3 * x) ++ (List.replicate run last).flatten ++ codes.drop (3 * (x + run))

/-- UNDERRUN: the transmitter found its FIFO empty and repeated the last pixel; the pixels whose slots passed are lost, and each later one leaves at its
own position (R336). Where in the line the run lies, inside the columns of one stream, and how long it is are free (log 95). Each run counts once. A port
that sends no line has no pixel to repeat. -/
def execUnderrun (port : OutId) (s : State) : Host.Outcome State Fault Refusal :=
  unlessInert s fun s =>
    let n := port.val
    let codes := s.raster.sent.get n []
    let width := codes.length / 3
    let w := width / s.streamsOf n
    if w = 0 then s
    else
      let (a, s) := s.draw
      let (b, s) := s.draw
      let x := a.toNat % (w * s.streamsOf n)
      (s.sendCodes n (s.tgOf n).line.toNat (repeatPixel codes w x (1 + b.toNat % (w - x % w)))).count (cntPort n 0) 1

end Sys2Proof.Machine
end

