-- ==== Sys2Proof/Machine/Tg.lean ====
section
/-! DEFINITION. Timing generators (chapter 12): TG_CTL writes, the start, the line tick with all that LSCH, the compositor and scan-out do at it,
variable blanking, and LSCH_OUT_CFG (R43, R44, R46). -/

namespace Sys2Proof.Machine

/-! ### Who a generator follows (R467, R468) -/

/-- A following generator's source: one of this device's own, or (none) one on another device, in holdover too. A generator that names itself follows
nothing. -/
def State.source (s : State) (n : Nat) : Option (Option Nat) :=
  let t := s.tick n
  if !t.follow then none
  else if s.lwl.master = s.strap ∧ s.lwl.follower = false then (if t.src.toNat = n then none else some (some t.src.toNat))
  else some none

/-- The fields of Table 12.4. -/
def Timing.fields (t : Timing) : List Nat :=
  [t.hAct.toNat, t.hFp.toNat, t.hSync.toNat, t.hBp.toNat, b2n t.hPol, t.vAct.toNat, t.vFp.toNat, t.vSync.toNat, t.vBp.toNat, b2n t.vPol,
   t.khz.toNat, t.bpc.toNat]

/-- The timing of a generator, or the one it would take at its enable. -/
def Tg.ownTiming (g : Tg) : Timing := if g.phase = .off then g.shadow else g.eff

/-- Timing equality of a following generator and its source on this device, and mode 0 (R468). -/
def State.followOk (s : State) (n : Nat) : Bool :=
  match s.source n with
  | none => true
  | some src =>
    let t := (s.tg n).shadow
    decide (t.vrrMode = 0) && (match src with
      | none => true
      | some g => let o := (s.tgOf g).ownTiming; decide (o.fields = t.fields) && decide (o.vrrMode = 0))

/-- Whether a source on another device has equal timing is not known here: a free choice (R468, log 38). -/
def State.farTiming (s : State) (n : Nat) : Bool × State :=
  if s.source n = some none then let (w, s) := s.draw; (bitOf w 0, s) else (true, s)

/-! ### Limits -/

/-- The halves that an enable of generator n takes: both of a pair. -/
def halvesOf (n : Nat) (pair : Bool) : List Nat := if pair then [n, n + 1] else [n]

/-- The beam lead last accepted. -/
def LschOut.accepted (o : LschOut) : Nat := (o.beamNext.getD o.beamLead).toNat

/-- A timing within Table 12.2 for output n. -/
def State.timingOk (s : State) (n : Nat) (t : Timing) : Bool := t.ok (s.out n).accepted (s.hMax n)

/-- The timing splits into the streams of the port that it drives, and selects no variable blanking under MST (R334, R339, log 98); the ports of a pair
run SST (R330). -/
def State.mstFits (s : State) (n : Nat) (pair : Bool) (t : Timing) : Bool :=
  pair || (t.mstOk (s.port n).streams && (decide (t.vrrMode = 0) || decide ((s.port n).mst = 0)))

/-- An update is within R322, changes only what R324 lets it, and selects no variable blanking under MST (R334). -/
def State.updateOk (s : State) (n : Nat) : Bool :=
  let g := s.tg n
  let t := g.shadow
  s.timingOk n t && decide (t.hAct = g.eff.hAct) && decide (t.vAct = g.eff.vAct) && decide (t.khz = g.eff.khz) && decide (t.bpc = g.eff.bpc)
    && (decide (t.vrrMode = 0) || decide (s.mstOf n = 0))

/-- Granules that no output holds (R316). -/
def State.freeGranules (s : State) : Nat := 624 - ((List.range 4).map (fun n => (s.tg n).granules)).sum

/-! ### Enable and shut-down (R326, R327, R329) -/

/-- A write is ignored with TIM_REJECT. -/
def State.timReject (s : State) (n : Nat) : State := s.setTg n { s.tg n with timReject := true }

/-- The enable of a generator whose shut-down has completed: refused, or begun with BUSY (R322, R326, R329, R339, R468). -/
def State.tgBegin (s : State) (n : Nat) (pair tePol : Bool) : State :=
  let g := s.tg n
  let t := g.shadow
  let halves := halvesOf n pair
  let each := t.granules
  let far := s.farTiming n
  if !s.timingOk n t || !s.mstFits n pair t || !s.followOk n then s.timReject n
  else if !far.1 then far.2.timReject n
  else if s.freeGranules < each * halves.length then far.2.setTg n { g with rsNospace := true }
  else
    let s := far.2.setTg n { g with tePol := tePol }
    halves.foldl (fun s h =>
      let x := s.tg h
      let s := s.setTg h { x with
        en := if h = n then true else x.en, pair := pair && decide (h = n), paired := pair, phase := .starting, eff := t, next := none
        updPend := false, heldEn := false, endAfterStart := false, granules := each, line := 0, event := none, afterPorch := none, ext := 0 }
      { s with raster := { s.raster with outs := s.raster.outs.set h {} } }) s

/-- A write of EN = 1 to a generator that is not off. -/
def Tg.enableAgain (g : Tg) : Tg :=
  if g.phase = .ending || g.endAfterStart then { g with en := true, heldEn := true } else { g with en := true }

/-- A write of EN = 0 to a generator that is not off (R327, R489). -/
def Tg.disable (g : Tg) : Tg :=
  let g := { g with en := false, heldEn := false }
  if g.phase = .running then { g with phase := .ending } else if g.phase = .starting then { g with endAfterStart := true } else g

/-- The lower half of the pair that n belongs to, when it is the upper one. -/
def State.upperHalf (s : State) (n : Nat) : Bool := decide (n % 2 = 1) && (s.tg n).paired

/-- A halves' list gets the phase of its lower generator. -/
def State.mirror (s : State) (n : Nat) : State :=
  let g := s.tg n
  if g.paired then s.setTg (n + 1) { s.tg (n + 1) with phase := g.phase, endAfterStart := g.endAfterStart } else s

/-- A write of PAIR that R329 ignores. -/
def State.pairRefused (s : State) (n : Nat) (en want : Bool) : Bool :=
  let g := s.tg n
  if g.phase = .off then want && !(en && decide ((s.tg (n + 1)).phase = .off))
  else if g.paired then en && !want
  else want

/-- A write of TG_CTL (Table 12.3, R322 to R329). A write that a limit refuses is ignored whole; UPD acts only beside EN = 1 (log 38). -/
def State.tgCtlWrite (s : State) (n : Nat) (value : W32) : State :=
  let en := bitOf value 0
  let want := bitOf value 1 && decide (n % 2 = 0)
  let tePol := bitOf value 3
  let g := s.tg n
  if s.upperHalf n then s.setTg n { g with tePol := tePol }
  else if s.pairRefused n en want then s.timReject n
  else if g.phase = .off then (if en then s.tgBegin n want tePol else s.setTg n { g with tePol := tePol, en := false })
  else if en && bitOf value 2 && (s.source n).isNone then
    if s.updateOk n then (s.setTg n { g.enableAgain with tePol := tePol, updPend := true }).mirror n else s.timReject n
  else (s.setTg n { (if en then g.enableAgain else g.disable) with tePol := tePol }).mirror n

/-- TG_ENABLE (R326). -/
def execTgEnable (n : OutId) (value : W32) (s : State) : Host.Outcome State Fault Refusal :=
  unlessInert s fun s => s.tgCtlWrite n.val value

/-- TG_DISABLE (R327). -/
def execTgDisable (n : OutId) (value : W32) (s : State) : Host.Outcome State Fault Refusal :=
  unlessInert s fun s => s.tgCtlWrite n.val value

/-- UPD (R323). -/
def execUpd (n : OutId) (value : W32) (s : State) : Host.Outcome State Fault Refusal :=
  unlessInert s fun s => s.tgCtlWrite n.val value

/-- PAIR (R329). -/
def execPair (n : OutId) (value : W32) (s : State) : Host.Outcome State Fault Refusal :=
  unlessInert s fun s => s.tgCtlWrite n.val value

/-- Live streams of an output are stopped with ADMIT_DENIED (R36, R46, R327). -/
def State.stopStreams (s : State) (l : List Nat) : State := l.foldl (fun s c => s.endStream c stAdmitDenied) s

/-- What a compositor drops when its generator stops: the lines of frames that will not be scanned out. -/
def State.compStop (s : State) (n : Nat) : State :=
  let s := ((s.flushPending n).bindDue n ((s.comp n).frame + 1)).wbDrop n (fun _ => true)
  let c := s.comp n
  s.setComp n { c with states := [], composed := 0, writebacks := c.writebacks.map (fun w => { w with frames := [], waiting := [] }) }

/-- A port that carries no picture: the idle pattern, with no MSA and no Adaptive-Sync SDP (R327). -/
def State.portIdle (s : State) (h : Nat) : State := s.setPort h { s.port h with msa := [], asyncOn := false }

/-- A port at the start of a frame: the MSA of its streams, and Adaptive-Sync in modes 1 to 3 (R334, R339). -/
def State.portFrame (s : State) (h : Nat) : State :=
  let p := s.port h
  let t := (s.tg h).eff
  let n := s.streamsOf h
  s.setPort h { p with
    upAll := p.linkUp, asyncOn := p.linkUp && decide (t.vrrMode ≠ 0)
    msa := if p.linkUp then List.replicate n (t.hAct.toNat / n, t.hTotal / n, (t.khz.toNat : Rat) / n) else [] }

/-- A shut-down completes (R312, R327, R329): granules are free, streams stopped, snapshots applied; a held enable then runs. -/
def State.tgStop (s : State) (n : Nat) : State :=
  let g := s.tg n
  let halves := halvesOf n g.paired
  let streams := s.governed n
  let s := (s.stopStreams streams).turnShot n none
  let s := halves.foldl (fun s h =>
    let x := s.tg h
    let s := s.setTg h { x with phase := .off, pair := false, paired := false, granules := 0, updPend := false, next := none, heldEn := false,
                                endAfterStart := false, line := 0, event := none, afterPorch := none, ext := 0 }
    let o := s.out h
    let s := s.setOut h { o with beamLead := o.beamNext.getD o.beamLead, beamNext := none, stopAtBoundary := false }
    (s.compStop h).portIdle h) s
  if g.heldEn then
    let s := s.setTg n { s.tg n with en := false }
    s.tgBegin n false (s.tg n).tePol
  else s

/-! ### Commit points (R309, R323, R340) -/

/-- Generators of this device that obey updates armed on generator n (R468). -/
def State.followers (s : State) (n : Nat) : List Nat := (List.range 4).filter (fun k => decide (s.source k = some (some n)))

/-- The armed shadow is captured, or dropped with TIM_REJECT (R323, R324). -/
def State.captureShadow (s : State) (n : Nat) : State :=
  let g := s.tg n
  if !g.updPend then s
  else if !s.updateOk n then s.setTg n { g with updPend := false, timReject := true }
  else
    let s := s.setTg n { g with updPend := false, next := some g.shadow }
    ((halvesOf n g.paired).drop 1 ++ s.followers n).foldl (fun s h =>
      let x := s.tg h
      if x.phase = .off then s else s.setTg h { x with next := some g.shadow }) s

/-- The commit point of frame m on an output and on every half of it. -/
def State.tgCommit (s : State) (n : Nat) (m : W32) : State :=
  let s := s.captureShadow n
  (halvesOf n (s.tg n).paired).foldl (fun s h =>
    let p := s.port h
    (s.setPort h { p with sdpEff := p.sdp }).commitPoint h m) s

/-- The commit point of the next frame has come, and has not passed yet. -/
def State.commitDue (s : State) (n : Nat) : Bool :=
  let g := s.tg n
  let v := g.eff.vMin
  frameLt (s.comp n).frame (g.frame + 1) && decide ((v : Int) + commitLine (s.beamLead n) v ≤ (g.line.toNat : Int))

def State.commitIfDue (s : State) (n : Nat) : State := if s.commitDue n then s.tgCommit n ((s.tg n).frame + 1) else s

/-! ### Boundaries -/

/-- R36: streams that no longer pass admission under a new timing stop, least important first. -/
def State.shed : Nat → State → Nat → State
  | 0, s, _ => s
  | fuel + 1, s, n =>
    if s.outputAdmits n then s
    else match s.leastImportant (s.governed n) with
      | none => s
      | some c => State.shed fuel (s.endStream c stAdmitDenied) n

/-- The first frame of a mode 1 run, or one more frame of it (R331). -/
def Tg.trackMode (g : Tg) (was : BitVec 2) (now : W64) : Tg :=
  if g.eff.vrrMode = 1 then
    (if was = 1 then { g with modeFrames := g.modeFrames + 1 } else { g with modeStart := now, modeFrames := 0 })
  else g

/-- Number and instant of the frame that a boundary of generator n begins: its own next, or those of its source on this device, where the source has had
that boundary already (R467, log 38). -/
def State.frameBegun (s : State) (n : Nat) (now : W64) : W32 × W64 :=
  let own := (s.tg n).frame
  match s.source n with
  | some (some k) =>
    let x := s.tgOf k
    if x.running && frameLt own x.frame then (x.frame, x.boundary) else (own + 1, now)
  | _ => (own + 1, now)

/-- Frame `frame` begins at `now` on one half: its timing, its beam lead and its port. -/
def State.halfBoundary (s : State) (h : Nat) (frame : W32) (now : W64) : State :=
  let g := s.tg h
  let eff := g.next.getD g.eff
  let g' : Tg := { g with
    eff := eff, next := none, line := 0, frame := frame, boundary := now, ext := g.line.toNat + 1 - g.eff.vMin, event := none, afterPorch := none }
  let s := s.setTg h (g'.trackMode g.eff.vrrMode now)
  let o := s.out h
  let s := s.setOut h { o with beamLead := o.beamNext.getD o.beamLead, beamNext := none }
  (s.portFrame h).dropStates h frame

/-- The boundary of the next frame of generator n (R36, R44, R46, R323). -/
def State.tgBoundary (s : State) (n : Nat) (now : W64) : State :=
  let changed := (s.tg n).next.isSome
  let s := s.turnShot n (some now)
  let b := s.frameBegun n now
  let s := (halvesOf n (s.tg n).paired).foldl (fun s h => s.halfBoundary h b.1 b.2) s
  let s := if (s.out n).stopAtBoundary then (s.stopStreams (s.governed n)).setOut n { s.out n with stopAtBoundary := false } else s
  if changed then (State.shed 48 s n).reportOutput n else s

/-! ### Scan-out (R319, R335) -/

/-- Codes sent for the pixels of a line, where pixels that touch a failing word repeat the pixel before them (R319). -/
def sendLine (depth hAct : Nat) (line : List Byte) (bad : List Nat) : List Nat :=
  ((List.range hAct).foldl (fun (acc : List Nat × List Nat) x =>
    let touched := bad.any (fun w => decide (64 * w < 3 * depth * (x + 1)) && decide (3 * depth * x < 64 * w + 64))
    let p := if touched then acc.2 else (List.range 3).map (unpackCode depth line x)
    (p.reverse ++ acc.1, p)) ([], [0, 0, 0])).1.reverse

/-- Scan-out of one line of one half; an uncorrectable word is reported once for the line (R319). -/
def State.scanOut (s : State) (h y : Nat) (bad : List (BitVec 13)) : State :=
  let t := (s.tg h).eff
  let m := s.raster.outs.get h {}
  let line := readBytes (fun a => (m.get? a).getD 0) (t.pitch * y) t.pitch
  let codes := sendLine (bitsPer t.bpc.toNat) t.hAct.toNat line (bad.map BitVec.toNat)
  let s := s.sendCodes h y codes
  if bad.isEmpty then s
  else ((s.ladleFault 4).count (cntRaster 1) bad.length).devEvent stRasterUncorr (BitVec.ofNat 32 h) (BitVec.ofNat 32 y)

/-- Scan-out at a tick of generator n; blanking lines send nothing. -/
def State.scanTick (s : State) (n : Nat) (r : RasterSense) : State :=
  let g := s.tg n
  if g.line.toNat < g.eff.vAct.toNat then
    let s := s.countSome (cntRaster 0) r.corrected.toNat
    let s := s.scanOut n g.line.toNat r.own
    if g.paired then s.scanOut (n + 1) g.line.toNat r.upper else s
  else (halvesOf n g.paired).foldl (fun s h => s.sendCodes h 0 []) s

/-! ### Variable blanking (R331, R332) -/

/-- The target of the frame's porch, in nanoseconds; none while a mode 2 or 3 event is awaited. -/
def Tg.target (g : Tg) : Option Rat :=
  let t := g.eff
  if t.vrrMode = 1 then
    some ((g.modeStart.toNat : Rat) + ((g.modeFrames + 1 : Nat) : Rat) * ((t.periodNs.toNat : Rat) + (t.periodFrac.toNat : Rat) / 65536))
  else g.event.map (fun e => (e.toNat : Rat) + (t.delay.toNat : Rat) * t.lineNs)

/-- The porch ends at the tick of porch line k. -/
def Tg.porchEnds (g : Tg) (k : Nat) (now : W64) : Bool :=
  let t := g.eff
  if t.vrrMode = 0 then decide (k = t.vFp.toNat)
  else
    decide (t.vFp.toNat ≤ k)
      && (decide (k = t.fpMax.toNat)
        || (match g.target with
          | some a => decide (a ≤ (now.toNat : Rat) + ((t.vSync.toNat + t.vBp.toNat : Nat) : Rat) * t.lineNs)
          | none => false))

/-- The porch ends for want of its event (R332). -/
def Tg.misses (g : Tg) : Bool := decide (2 ≤ g.eff.vrrMode.toNat) && g.event.isNone

/-- The line of a tick that is no boundary: active, porch, or after the porch. -/
def Tg.advance (g : Tg) (now : W64) : Tg :=
  let g := { g with line := g.line + 1 }
  let v := g.eff.vAct.toNat
  let k := g.line.toNat - v
  let g := if g.line.toNat = v then { g with event := none, porchAt := now } else g
  match g.afterPorch with
  | some j => { g with afterPorch := some (j + 1) }
  | none =>
    if v ≤ g.line.toNat ∧ g.porchEnds k now then { g with afterPorch := some 0, lockMiss := g.lockMiss || g.misses } else g

/-- The next tick is a boundary: the last blanking line is done. -/
def Tg.atEnd (g : Tg) : Bool := (g.afterPorch.map (fun j => decide (g.eff.vSync.toNat + g.eff.vBp.toNat ≤ j + 1))).getD false

/-! ### The tick -/

/-- A line of a frame before the one now scanned, or four lines before its tick (R314). -/
def wbOverdue (frame : W32) (line : Nat) (l : WbLine) : Bool := frameLt l.frame frame || (decide (l.frame = frame) && decide (l.line + 4 ≤ line))

/-- What follows the counting of a line: commit point, LSCH, scan-out, the ladle's line match and writeback (R18, R25, R47, R309, R335); HBM words corrected
since the tick before are counted (R409). -/
def State.tickWork (s : State) (n : Nat) (r : RasterSense) : State :=
  let s := r.hbm.foldl (fun s e => s.countSome (cntHbm e.1.val 0) e.2.toNat) s
  let s := s.commitIfDue n
  let s := (s.governed n).foldl (fun s c => s.streamTick c) s
  let s := s.stageAll
  let s := s.scanTick n r
  let g := s.tg n
  let s := (halvesOf n g.paired).foldl (fun s h =>
    if bitOf s.ldl.srcTg h && decide (g.line.toNat = (s.ldl.matches_.get h 0).toNat) then s.ladleFire 2 false s.ldl.linked else s) s
  (halvesOf n g.paired).foldl (fun s h => (s.writeWaiting h).wbDrop h (wbOverdue g.frame g.line.toNat)) s

/-- LINE_TICK of a running generator; the upper half of a pair has the lower one's ticks (R19, R329). -/
def execLineTick (tg : OutId) (raster : RasterSense) (now : W64) (s : State) : Host.Outcome State Fault Refusal :=
  unlessInert s fun s =>
    let n := tg.val
    let g := s.tg n
    let s := s.at_ now
    if !g.running || s.upperHalf n then s
    else if g.atEnd then
      (if g.phase = .ending then s.tgStop n else (s.tgBoundary n now).tickWork n raster)
    else
      let s := s.setTg n (g.advance now)
      let x := s.tg (n + 1)
      let y := s.tg n
      let s := if g.paired then s.setTg (n + 1) { x with line := y.line, afterPorch := y.afterPorch, porchAt := y.porchAt } else s
      s.tickWork n raster

/-- The frame at which a generator starts: its source's, for a following one; another device's is not known here (R326, R468, log 38). -/
def State.startFrame (s : State) (n : Nat) : W32 × State :=
  match s.source n with
  | none => (0, s)
  | some none => let (v, s) := s.draw; (v.setWidth 32, s)
  | some (some k) => ((s.tgOf k).frame, s)

/-- A start that falls on a boundary of the source of generator n, when that is one of this device's own; any other generator starts at once (R468). -/
def State.mayBegin (s : State) (n : Nat) (now : W64) : Bool :=
  match s.source n with
  | some (some k) => let x := s.tgOf k; x.running && decide (x.line = 0) && decide (x.boundary = now)
  | _ => true

/-- A port's trained link no longer carries the output's stream: it sends none (R338). -/
def State.checkLink (s : State) (n : Nat) : State :=
  let p := s.port n
  let t := (s.tgOf n).eff
  if p.linkUp && !linkFits p.rate.toNat (laneCount p.lanes.toNat) (s.mstOf n).toNat t.khz.toNat (bitsPer t.bpc.toNat) then
    (s.setPort n { p with linkUp := false, upAll := false, noBw := true }).devEvent stLinkNoBw (BitVec.ofNat 32 n) 0
  else s

/-- One half starts. -/
def State.halfStart (s : State) (h : Nat) (frame : W32) (now : W64) : State :=
  let g := s.tg h
  let s := s.setTg h { g with phase := if g.endAfterStart then .ending else .running, endAfterStart := false, line := 0, frame := frame, boundary := now,
                              ext := 0, event := none, afterPorch := none, modeStart := now, modeFrames := 0 }
  let c := s.comp h
  let s := s.setComp h { c with frame := frame, states := [], composed := 0 }
  (s.checkLink h).portFrame h

/-- TG_START: the pixel clock has locked, and the generator starts at line 0 (R326, R329, R354), a following one at its source's frame boundary (R468). -/
def execTgStart (n : OutId) (now : W64) (s : State) : Host.Outcome State Fault Refusal :=
  unlessInert s fun s =>
    let g := s.tg n.val
    let s := s.at_ now
    if g.phase ≠ .starting || s.upperHalf n.val || !s.mayBegin n.val now then s
    else
      let (frame, s) := s.startFrame n.val
      let s := (halvesOf n.val g.paired).foldl (fun s h => s.halfStart h frame now) s
      let s := s.turnShot n.val (some now)
      (s.checkGeometry n.val).tickWork n.val {}

/-! ### Events of variable blanking (R331, R332) -/

/-- An event's instant reaches a generator that awaits one in its porch. -/
def Tg.takeEvent (g : Tg) (mode : BitVec 2) (t : W64) : Tg :=
  if g.running ∧ g.eff.vrrMode = mode ∧ g.eff.vAct.toNat ≤ g.line.toNat ∧ g.afterPorch.isNone ∧ g.event.isNone ∧ g.porchAt.toNat < t.toNat then
    { g with event := some t }
  else g

/-- TE_EDGE: the filtered level changes, and the chosen edge is the event of mode 3; a level that the input already has is no edge. -/
def execTeEdge (n : OutId) (level : Bool) (edgeAt now : W64) (s : State) : Host.Outcome State Fault Refusal :=
  unlessInert s fun s =>
    let s := s.at_ now
    let same := bitOf s.pins.te n.val == level
    let s := { s with pins := { s.pins with te := setBit s.pins.te n.val level } }
    let g := s.tg n.val
    if same || s.upperHalf n.val || level != g.tePol then s else s.setTg n.val (g.takeEvent 3 edgeAt)

/-- CAPTURE_LOCK_EVENT: the first active line of a received frame is the event of the generators that lock to its port in mode 2. -/
def execCaptureLockEvent (rx : Fin 2) (lineAt now : W64) (s : State) : Host.Outcome State Fault Refusal :=
  unlessInert s fun s =>
    let s := s.at_ now
    (List.range 4).foldl (fun s n =>
      let g := s.tg n
      if s.upperHalf n || g.eff.vrrSrc != decide (rx.val = 1) then s else s.setTg n (g.takeEvent 2 lineAt)) s

/-! ### LSCH_OUT_CFG (R43, R44, R46) -/

/-- BEAM_LEAD within the range that R43 checks now. -/
def State.leadOk (s : State) (n : Nat) (lead : Nat) : Bool :=
  let g := s.governor n
  if (s.tg g).phase = .off then decide (16 ≤ lead) else beamOk lead (s.tg g).eff.vMin (s.hMax g)

/-- A new beam lead: ignored with BL_REJECT, in force at once, or from the next boundary. -/
def State.writeLead (s : State) (n : Nat) (lead : BitVec 13) : State :=
  let o := s.out n
  if lead.toNat = o.accepted then s
  else if !(s.governed n).isEmpty || !s.leadOk n lead.toNat then s.setOut n { o with blReject := true }
  else if (s.tgOf n).phase = .off then s.setOut n { o with beamLead := lead, beamNext := none }
  else s.setOut n { o with beamNext := some lead }

/-- LSCH_OUT_CFG.EN: a 0 stops the live streams at the output's next boundary (Table 02.5). DESIGN CHOICE (log 118): a 1 written before that boundary
does not withdraw the stop. -/
def State.writeOutEn (s : State) (n : Nat) (en : Bool) : State :=
  let o := s.out n
  s.setOut n { o with en := en, stopAtBoundary := o.stopAtBoundary || (!en && !(s.governed n).isEmpty) }

/-- A write of LSCH_OUT_CFG of output n. -/
def State.outCfgWrite (s : State) (n : Nat) (value : W32) : State :=
  (s.writeLead n (BitVec.ofNat 13 (fieldOf value 12 0))).writeOutEn n (bitOf value 16)

/-- BEAM_LEAD_WRITE (R44). -/
def execBeamLeadWrite (out : OutId) (value : W32) (s : State) : Host.Outcome State Fault Refusal :=
  unlessInert s fun s => s.outCfgWrite out.val value

/-- LSCH_OUT_DISABLE (R46). -/
def execLschOutDisable (out : OutId) (value : W32) (s : State) : Host.Outcome State Fault Refusal :=
  unlessInert s fun s => s.outCfgWrite out.val value

end Sys2Proof.Machine
end

