-- ==== Sys2Proof/Machine/Faults.lean ====
section
/-! DEFINITION. Faults and their repair (chapter 15): step re-runs (R104, R149), lane fences (R150, R428), frond failures with stop, shift, restore
and replay (R421 to R440), step checkpoints (R419), HBM errors (R410) and the supervisor watchdog (R411). -/

namespace Sys2Proof.Machine

/-! ### Re-run of a step (R104) -/

/-- What an outbound command of the step has delivered so far: rows of a DMA_OUT, all of an answered NW_WRITE. -/
def deliveredSoFar (x : Frond) (live : Bool) (e : QEntry) : Option (Nat × Nat) :=
  match e.cmd, e.after with
  | .dmaOut .., some (.dma id) => (x.dmaOf id).map (fun d => (e.index, d.done / 512))
  | .dmaIn .., some (.dma id) => ((x.dmaOf id).filter (fun d => decide (d.desc.kind ≠ 0) && x.dmaDone d)).map (fun d => (e.index, d.total / 512))
  | .nwWrite _ _ o, some (.net cmd) =>
    if x.netOut.any (fun a => decide (a.cmd = cmd) && (a.live == live)) || x.partials.any (fun p => decide (p.cmd = cmd) && (p.live == live)) then none
    else some (e.index, max 1 o.rows.toNat)
  | _, _ => none

/-- Semaphores of a step's re-run: the share's values when the step began, with the increments received since (Table 04.6). A sum past 65,535 stays there
and raises no fault: what could overflow had done so when it arrived (DESIGN CHOICE, log 138). -/
def rerunSems (now saved : Tbl (BitVec 16)) (share : Nat → Bool) (incs : List (BitVec 6 × BitVec 16)) : Tbl (BitVec 16) :=
  let base : Tbl (BitVec 16) := (saved.cells.filter (fun c => share c.1)).foldl (fun (t : Tbl (BitVec 16)) c => t.set c.1 c.2) ⟨now.cells.filter (fun c => !share c.1)⟩
  incs.foldl (fun t i => t.modify i.1.toNat 0 (fun v => satAdd v i.2.toNat)) base

/-- Regions with the tails they had when the step began. -/
def rerunRegions (l : List Region) (tails : List Nat) : List Region := l.zipIdx.map (fun p => { p.1 with tail := tails.getD p.2 p.1.tail })

/-- The frond stops issuing and takes the state of Table 04.6; its sequencer reaches the step's first command again. What goes to other fronds is not
taken back: transfers to groups and the chain, and partials whose sending has begun, go on when their commands run again (R249, R267); chunks that
the step has taken are taken once more (log 110). -/
def State.rerun (s : State) (f : Nat) (live : Bool) : State :=
  let t := s.taskOf f live
  let x := s.frond f
  let got := ((t.queues.get 4 []) ++ (t.queues.get 5 [])).filterMap (deliveredSoFar x live)
  let delivered := got ++ t.step.delivered.filter (fun p => !got.any (fun q => decide (q.1 = p.1)))
  let parts := x.partials.filter (fun p => p.live == live && !p.held)
  let tiles := (List.range 8).filterMap (fun h => t.handles.get h none) ++ parts.map OutPartial.tile ++ t.queuedTiles ++ t.loose
  let s := s.dropXfers f (fun d => (d.live == live) && decide (d.desc.kind = 0))
  let x := s.frond f
  let s := s.setFrond f { x with
    tiles := tiles.foldl (fun u i => u.set i {}) x.tiles
    partials := x.partials.map (fun p => if p.live = live then { p with held := true } else p)
    signals := x.signals.map (fun g => if g.live = live ∧ g.task = t.taskNo then { g with header := none } else g)
    combines := ⟨x.combines.cells.map (fun p => if p.2.delivered && ((x.windows.get p.1 {}).live == live) then (p.1, { p.2 with again := true }) else p)⟩
    netOut := x.netOut.filter (fun a => a.live != live || a.group.isSome)
    ptmHalf := t.step.ptmHalf, ptmBuilt := t.step.ptmBuilt
    sems := rerunSems x.sems t.step.sems (semShare (s.divided f) live) t.step.incs
    full := x.full.filter (fun r => !t.step.tagsSet.contains r)
    spillFull := x.spillFull.filter (fun r => !t.step.spillTagsSet.contains r)
    regions := x.regions.set t.ctx (rerunRegions (x.regions.get t.ctx []) t.step.tails) }
  s.modTask f live (fun t => { t with
    cmdIndex := t.step.startIndex, fed := [], queues := {}, handles := {}, cursors := t.step.cursors, counts := t.step.counts
    skipping := false, committed := true, granted := false, semSince := none, tagSince := [], loose := []
    keep := none, loaded := none, held := {}, again := t.step.chunks ++ t.again, chainBlocks := t.step.chainBlocks
    step := { t.step with chunks := [], delivered := delivered, reads := [], tagsSet := [], spillTagsSet := [], bound := [], wroteRows := [], wroteLines := [] } })

/-! ### Declaring failures (R421) -/

/-- Physical column of a logical frond. -/
def State.column (s : State) (f : Nat) : BitVec 4 := (s.row (f / 8)).cols.getD (f % 8) 15

/-- A frond is declared failed: FROND_STAT.FAILED is set and it stops; FROND_FAILED then begins the repair. ROW_MAP changes with the mapping alone
(R424). -/
def State.declareFailed (s : State) (f : Nat) (cause : BitVec 4) (since : W64) : State :=
  let x := s.frond f
  if x.failed || s.lost f then s
  else
    let col := s.column f
    let s := s.setFrond f { x with failed := true }
    State.ladleFault { s with lsch := { s.lsch with declared := s.lsch.declared ++ [(f, col, cause, since)] } } 2

/-! ### The stop (R425 step 1, R440) -/

/-- Contexts with a set that holds one of the fronds, and with a stream or a started job. -/
def State.affectedBy (s : State) (fronds : List Nat) : List Nat :=
  (s.ctxs.cells.filter (fun p =>
    (decide (p.2.state = .running) || decide (p.2.state = .stopping) || (p.2.job.map Job.started).getD false)
      && fronds.any (fun f => (p.2.bound.map (fun b => b.mask.getLsbD f)).getD false))).map Prod.fst

/-- The tasks of a context stop issuing. -/
def State.stopCtx (s : State) (c : Nat) : State :=
  (s.setOf c).foldl (fun s f =>
    let halt (t : Task) : Task := if t.ctx = c then { t with stopped := true } else t
    let x := s.frond f
    s.setFrond f { x with live := x.live.map halt, simmer := x.simmer.map halt }) s

/-- A repair begins, or the one in progress takes up one more fault and starts again from the same checkpoints (R440). -/
def State.beginRepair (s : State) (r : Repair) : State :=
  let r := match s.lsch.repair with
    | none => r
    | some q => { q with
        phase := .stopping, failed := q.failed ++ r.failed, fenced := q.fenced ++ r.fenced, late := q.late ++ r.late, waiting := []
        ctxs := r.ctxs.foldl (fun l c => insertNat c l) q.ctxs }
  r.ctxs.foldl (fun s c => s.stopCtx c) { s with lsch := { s.lsch with repair := some r } }

/-- Logical columns of a row that move when the one of physical column p fails (R422). -/
def DieRow.movedBy (r : DieRow) (p : BitVec 4) : List Nat := (List.range 8).filter (fun c => let q := r.cols.getD c 15; decide (q ≠ 15) && decide (p.toNat ≤ q.toNat))

/-- The row's spare can serve: it is whole and not mapped in. -/
def DieRow.spareFree (r : DieRow) : Bool := !r.cols.contains 8 && !r.cols.contains 15 && !bitOf r.failed 8

/-! ### Faults that cannot be repaired (R438, R439) -/

/-- A fault that survives replay is counted. -/
def State.unrepaired (s : State) : State := { s with lsch := { s.lsch with unrepaired := satAdd s.lsch.unrepaired 1 } }

/-- The tasks of a context end with FROND_FAILED under its error policy (R438). A frond that no column serves cannot run on, so the frame or job
ends under both; BV6 makes it POISONED (log 39). -/
def State.endTasks (s : State) (c : Nat) : State :=
  if liveCtx c then
    (s.setOf c).foldl (fun s f =>
      match (s.frond f).live with
      | some t => if t.ctx = c then s.loseFrame c t.frame stFrondFailed else s
      | none => s) s
  else match (s.ctx c).job with
    | some j => s.loseJob c stFrondFailed (if j.body.listEn then j.inst else 0)
    | none => s

/-- Time that loading a package's pinned rows takes, at 80 GB/s a frond (R425, R439). -/
def loadNs (bytes : Nat) : Nat := (bytes + 79) / 80

/-- First output frame of a stream, from `frame` on, whose first release comes at or after an instant. -/
def State.frameAfter : Nat → State → Nat → W32 → W64 → W32
  | 0, _, _, frame, _ => frame
  | fuel + 1, s, c, frame, t => if (s.releaseAt c frame).toNat < t.toNat then State.frameAfter fuel s c (frame + 1) t else frame

/-- Frames of a stream in progress are given up before it moves. -/
def State.abortFrames (s : State) (c : Nat) : State :=
  (s.stream c).frames.foldl (fun s r => if !r.dropped && decide (r.done < r.total) then s.loseFrame c r.frame stFrondFailed else s) s

/-- A stream that held a lost position moves to the lowest-numbered fronds that carry no live stream, or stops (R439). -/
def State.moveStream (s : State) (c : Nat) : State :=
  match (s.ctx c).bound with
  | none => s
  | some b =>
    let free := (List.range 256).filter (fun f => !s.carriesLive f && !s.lost f && s.frondEn.getLsbD f)
    let set := free.take b.fronds.length
    let b' := { b with mask := maskOf 256 set }
    let s := s.abortFrames c
    let s' := s.setCtx c { s.ctx c with bound := some b' }
    if decide (set.length = b.fronds.length) && s'.setAdmits b'.mask && (s.vacate c).roomFits c b' then
      let s := (s.vacate c).dropGroups c []
      let (groups, s) := s.takeGroups c b'
      let s := ((s.pinAll c b').bindImage c b' groups).occupy c
      let ready := s.dtb + BitVec.ofNat 64 (loadNs b.image.pBytes.toNat)
      let s := s.setStream c { s.stream c with resumeAt := some (State.frameAfter 64 s c (s.ctx c).nextOut ready) }
      (s.reportAdmission b.mask).reportAdmission b'.mask
    else s.endStream c stAdmitDenied

/-- Streams in the order of R439: ascending PRIORITY, ties to the higher context first. -/
def State.moveOrder (s : State) (l : List Nat) : List Nat :=
  l.mergeSort (fun a b =>
    let p := (s.ctx a).priority.toNat
    let q := (s.ctx b).priority.toNat
    decide (p < q) || (decide (p = q) && decide (b ≤ a)))

/-- A failure of frond f at a column, in a row without a spare: logical position g, which that column serves, is lost, its tasks end, and its streams move
or stop (R423, R438, R439). -/
def State.loseFrond (s : State) (f g : Nat) (col cause : BitVec 4) : State :=
  let ctxs := s.affectedBy [g]
  let s := s.meter g
  let r := s.row (g / 8)
  let s := (s.setRow (g / 8) { r with cols := r.cols.set (g % 8) 15, failed := setBit r.failed col.toNat true }).setFrond g { s.frond g with failed := false }
  let s := (s.unrepaired).failedEvent ctxs (f, col, cause)
  let s := ctxs.foldl (fun s c => s.endTasks c) s
  let s := s.devEvent stFrondsLost (frondInfo g col cause) 0
  (s.moveOrder (ctxs.filter (fun c => liveCtx c))).foldl (fun s c => s.moveStream c) s

/-- A failure met while the supervisor restarts: its tasks end now, and its column is mapped later (R438). -/
def State.deferFailure (s : State) (f : Nat) (col cause : BitVec 4) : State :=
  let s := (s.unrepaired).failedEvent (s.affectedBy [f]) (f, col, cause)
  let s := (s.affectedBy [f]).foldl (fun s c => s.endTasks c) s
  { s with lsch := { s.lsch with deferred := s.lsch.deferred ++ [(f, col, cause)] } }

/-- The repair of a declared failure begins, or R438 applies. A second failure of a row whose shift is still to come is repaired in turn (R440). -/
def State.failFrond (s : State) (f : Nat) (col cause : BitVec 4) (since : W64) : State :=
  let r := s.row (f / 8)
  if !r.spareFree then s.loseFrond f f col cause
  else if s.lsch.svcDown then s.deferFailure f col cause
  else
    let moved := (r.movedBy col).map (fun c => f / 8 * 8 + c)
    s.beginRepair { phase := .stopping, start := since, failed := [(f, col, cause)], fenced := [], moved := [], ctxs := s.affectedBy moved, waiting := [] }

/-- FROND_FAILED: a declared failure starts the repair of every affected set (R425). -/
def execFrondFailed (f : FrondId) (now : W64) (s : State) : Host.Outcome State Fault Refusal :=
  unlessInert s fun s =>
    let s := s.at_ now
    match s.lsch.declared.find? (fun d => decide (d.1 = f.val)) with
    | none => s
    | some d =>
      State.failFrond { s with lsch := { s.lsch with declared := s.lsch.declared.filter (fun e => decide (e.1 ≠ f.val)) } } f.val d.2.1 d.2.2.1 d.2.2.2

/-! ### Detections -/

/-- TSP_PARITY of the frond that found the error (Table 05.10). While VALID is 1 the record stands as it is, COUNT with it, and a further error sets
OVERRUN (DESIGN CHOICE, log 120). -/
def Frond.recordParity (x : Frond) (p : ParityInfo) (count : Nat) : Frond :=
  if x.parityValid then { x with parityOverrun := true }
  else { x with
    parityValid := true, parityRow := p.row, parityBank := p.bank, parityLane := if p.rowpath then 0 else p.lane
    parityCount := BitVec.ofNat 2 count, parityRemote := p.remoteFor.isSome, parityRowpath := p.rowpath }

/-- The three detections of a step came through one crossbar lane and touched two banks or more (R150). -/
def laneFault : List ParityInfo → Bool
  | [] => false
  | p :: r => (p :: r).all (fun q => !q.rowpath && q.remoteFor.isNone && decide (q.lane = p.lane)) && r.any (fun q => decide (q.bank ≠ p.bank))

/-- A lane fence: ROW_ONLY, and the fronds' tasks replay on the row kind without a shift (R150, R428). -/
def State.fenceLane (s : State) (f : Nat) (since : W64) : State :=
  let x := s.frond f
  let ctxs := ((x.live.map Task.ctx).toList ++ (x.simmer.map Task.ctx).toList).foldl (fun l c => insertNat c l) []
  let s := (s.setFrond f { x with rowOnly := true }).ladleFault 1
  s.beginRepair { phase := .stopping, start := since, failed := [], fenced := [f], moved := [], ctxs := ctxs, waiting := [] }

/-- PARITY_ERROR: the charged frond's step runs again, at most twice; the third detection fences a lane or declares a failure (R148 to R150). -/
def execParityError (f : FrondId) (p : ParityInfo) (now : W64) (s : State) : Host.Outcome State Fault Refusal :=
  unlessInert s fun s =>
    let s := s.at_ now
    let g := (p.remoteFor.map Fin.val).getD f.val
    if !s.frondRuns f.val then s
    else
      let s := s.ladleFault 0
      match s.activeShare g with
      | none => s.setFrond f.val ((s.frond f.val).recordParity p 0)
      | some live =>
        let t := s.taskOf g live
        let seen := t.step.detections ++ [p]
        let since := if t.step.detections.isEmpty then now else t.step.detectedAt
        let s := s.setFrond f.val ((s.frond f.val).recordParity p seen.length)
        if t.committed then s
        else
          let s := s.modTask g live (fun t => { t with step := { t.step with detections := seen, detectedAt := since } })
          if seen.length < 3 then ((s.count (cntFrond g 6) 1).rerun g live).pump g
          else if laneFault seen then s.fenceLane g since
          else s.declareFailed f.val 0 since

/-- CACHE_LINE_PARITY: the line is invalid, so the access fetches it again from HBM (R147). -/
def execCacheLineParity (f : FrondId) (addr : W64) (s : State) : Host.Outcome State Fault Refusal :=
  unlessInert s fun s =>
    let x := s.frond f.val
    s.setFrond f.val { x with cache := x.cache.filter (fun l => decide (l.addr ≠ addr.toNat / 128)) }

/-- PRIVATE_PARITY_ERROR: never re-run; the frond is declared failed (R421). -/
def execPrivateParityError (f : FrondId) (unit : PrivateUnit) (now : W64) (s : State) : Host.Outcome State Fault Refusal :=
  let _ := unit
  unlessInert s fun s => if (s.frond f.val).phase = .on then (s.at_ now).declareFailed f.val 1 now else s

/-- HEARTBEAT_TIMEOUT: a frond that holds a task is declared failed (R421). -/
def execHeartbeatTimeout (f : FrondId) (now : W64) (s : State) : Host.Outcome State Fault Refusal :=
  unlessInert s fun s =>
    let x := s.frond f.val
    if x.live.isSome || x.simmer.isSome then (s.at_ now).declareFailed f.val 2 now else s

/-! ### The shift (R422) -/

/-- Words without a known value. -/
def freeWords (space epoch n : Nat) : Tbl W32 :=
  ⟨(List.range n).map (fun i => (i, BitVec.ofNat 32 (leNat (readBytes (Config.freeByte space epoch) (4 * i) 4))))⟩

/-- Frond f on hardware that holds nothing of it: contents are undefined, and what its tasks had in progress is gone. -/
def Frond.wiped (x : Frond) (f : Nat) (rowOnly : Bool) : Frond :=
  { x with
    rowOnly := rowOnly, failed := false, tsp := {}, se := {}, full := [], poisonRows := [], poisonLines := [], epoch := x.epoch + 1
    vuRegs := freeWords (1000 + f) (x.epoch + 1) 1024, vuTables := freeWords (2000 + f) (x.epoch + 1) 1028
    vuPoison := [], ptm := {}, ptmBuilt := [], tiles := {}, sems := {}, windows := {}, combines := {}, partials := []
    netOut := [], dma := [], chain := [], passing := [], cache := [] }

/-- The row's columns shift past physical column p; a fence stays with its physical frond. -/
def State.shiftRow (s : State) (row : Nat) (p : BitVec 4) : State :=
  let r := s.row row
  let moved := r.movedBy p
  let fenceAt (q : BitVec 4) : Bool := (List.range 8).any (fun c => decide (r.cols.getD c 15 = q) && (s.frond (8 * row + c)).rowOnly)
  let s' := s.setRow row { cols := r.cols.map (fun q => if q ≠ 15 ∧ p.toNat ≤ q.toNat then q + 1 else q), failed := setBit r.failed p.toNat true }
  moved.foldl (fun s c =>
    let f := 8 * row + c
    s.setFrond f ((s.frond f).wiped f (fenceAt (r.cols.getD c 15 + 1)))) s'

/-- The failure of a frond is mapped: its row shifts, or, with the spare already in use, the position that the failed column now serves is lost (R422,
R423). -/
def State.mapFailure (s : State) (e : Nat × BitVec 4 × BitVec 4) : State :=
  let row := e.1 / 8
  if (s.row row).spareFree then s.shiftRow row e.2.1
  else match (List.range 8).find? (fun c => decide ((s.row row).cols.getD c 15 = e.2.1)) with
    | none => s
    | some c => s.loseFrond e.1 (8 * row + c) e.2.1 e.2.2

/-- REPAIR_STOP_COMPLETE: the supervisor shifts the rows of the failures (R422, R425 step 2); while it restarts, R438 applies. -/
def execRepairStopComplete (now : W64) (s : State) : Host.Outcome State Fault Refusal :=
  unlessInert s fun s =>
    let s := s.at_ now
    match s.lsch.repair with
    | none => s
    | some r =>
      if r.phase ≠ .stopping then s
      else
        let due := (r.failed ++ r.late).filter (fun e => (s.frond e.1).failed)
        if s.lsch.svcDown && !due.isEmpty then
          let mapped := r.failed.filter (fun e => !(s.frond e.1).failed)
          let s := mapped.foldl (fun s e => (s.unrepaired).failedEvent r.ctxs e) { s with lsch := { s.lsch with repair := none } }
          let s := r.ctxs.foldl (fun s c => s.endTasks c) s
          due.foldl (fun s e => s.deferFailure e.1 e.2.1 e.2.2) s
        else
          let first := due.zipIdx.filter (fun p => (s.row (p.1.1 / 8)).spareFree && (due.take p.2).all (fun q => decide (q.1 / 8 ≠ p.1.1 / 8)))
          let moved := (first.map Prod.fst).flatMap (fun e => ((s.row (e.1 / 8)).movedBy e.2.1).map (fun c => e.1 / 8 * 8 + c))
          let lost := due.filter (fun e => !(first.map Prod.fst).contains e)
          let s := { s with lsch := { s.lsch with repair := some { r with
            phase := .restoring, failed := r.failed.filter (fun e => !lost.contains e), moved := moved.foldl (fun l f => insertNat f l) r.moved } } }
          lost.foldl (fun s e => s.mapFailure e) ((first.map Prod.fst).foldl (fun s e => s.mapFailure e) s)

/-! ### The restore (R425 step 3, R426) -/

/-- Pinned rows of a moved frond load again from their packages' copies. -/
def State.reloadPins (s : State) (f : Nat) : State :=
  (List.range 8).foldl (fun s n =>
    let x := s.frond f
    let p := x.pins.get n {}
    match s.bounds.find? (fun q => p.used && q.2.mask.getLsbD f && decide (q.2.image.pkgId = p.pkg) && (q.2.sharedPin == p.shared) && (p.shared || decide (q.1 = p.ctx))) with
    | none => s
    | some q => s.setFrond f { x with
        tsp := x.tsp.write (512 * p.base) (s.hbmRead q.2.pinned.toNat (512 * p.rows))
        poisonRows := ((List.range p.rows).filter (fun i => s.hbmPoisoned (q.2.pinned.toNat + 512 * i) 512)).foldl (fun l i => insertNat (p.base + i) l) x.poisonRows }) s

/-- Rows and halo bytes of a checkpoint enter the frond: saved rows as they were, every other row of the part undefined and empty (Table 15.5). -/
def Frond.loadRows (x : Frond) (t : Task) (k : Ckpt) (part : List Nat) (lo hi : Nat) : Frond :=
  let x := x.forgetRows part
  let x := { x with
    regions := x.regions.set t.ctx ((x.regions.get t.ctx []).zipIdx.map (fun p => { p.1 with head := (k.regions.getD p.2 (0, 0)).1, tail := (k.regions.getD p.2 (0, 0)).2 }))
    se := k.se.cells.foldl (fun (m : Mem) c => m.set c.1 c.2) (x.se.forget lo hi)
    poisonLines := k.badLines.foldl (fun l i => insertNat i l) (x.poisonLines.filter (fun l => !(decide (lo ≤ 32 * l) && decide (32 * l < hi)))) }
  k.rows.zipIdx.foldl (fun (x : Frond) p =>
    match x.place t p.1 with
    | some (.phys r) =>
      let bytes := k.data.cells.filter (fun c => decide (512 * p.2 ≤ c.1) && decide (c.1 < 512 * p.2 + 512))
      { x with
        tsp := bytes.foldl (fun (m : Mem) c => m.set (512 * r + (c.1 - 512 * p.2)) c.2) x.tsp
        full := if k.full.contains p.1 then insertNat r x.full else x.full
        poisonRows := if k.badRows.contains p.1 then insertNat r x.poisonRows else x.poisonRows }
    | _ => x) x

/-- A live stream's part of frond f from a stripe checkpoint. -/
def State.loadStripe (s : State) (f c : Nat) (k : Ckpt) : State :=
  match (s.ctx c).bound with
  | none => s
  | some b =>
    let x := s.frond f
    let rows := (x.areas.filter (fun a => decide (a.ctx = c))).flatMap (fun a => (List.range a.rows).map (fun i => a.base + i))
    let t : Task := { ctx := c, live := true, image := b.image }
    s.setFrond f (x.loadRows t (s.ckptRead k (seBase true c)) rows (seBase true c) (seBase true c + 262144))

/-- Interrupted stripes of a stream: frond and task. -/
def State.interrupted (s : State) (c : Nat) : List (Nat × Task) :=
  (s.setOf c).filterMap (fun f => match (s.frond f).live with
    | some t => if t.ctx = c ∧ t.stopped then some (f, t) else none
    | none => none)

/-- One frond's part of an interrupted stripe begins again with a new task number (R425 step 4, R426, R435). -/
def State.replayStripe (s : State) (f : Nat) (old : Task) (n : BitVec 16) : State :=
  let c := old.ctx
  match (s.ctx c).bound, s.frameRun c old.frame, (s.frond f).stripeCkptOf c old.stripe with
  | some b, some r, some k =>
    if r.dropped then s
    else
      let kind := r.kind ||| (if s.anyRow c then 1 else 0)
      match s.selectFor c b kind r.exts with
      | .error (code, index, entry) => (s.recordFault f code 0 15 index entry).abortFrame c old.frame code
      | .ok i =>
        let s := (s.clearShare f true).loadStripe f c k
        let t := { taskFor c true b i kind r.exts n with
          frame := old.frame, stripe := old.stripe, shifts := r.shifts, out := old.out, deadline := old.deadline
          replayWrites := old.wrote ++ old.replayWrites }
        s.startTask f t (old.stripe * b.image.h.toNat) (r.total * b.image.h.toNat)
  | _, _, _ => s

/-- Every working row of a task's part of frond f, and its halo bytes, are undefined and poisoned. -/
def State.spoilPart (s : State) (f : Nat) (t : Task) : State :=
  let s := (List.range t.image.tRows).foldl (fun s r => match (s.frond f).place t (t.image.pRows + r) with
    | some p => s.spoilRow f p
    | none => s) s
  s.spoilLines f (seLines (seBase t.live t.ctx) (if t.live then t.image.seBytes.toNat else (s.frond f).haloUsed (seBase t.live t.ctx)))

/-- Interrupted work that cannot be replayed runs on under the BV6 policy: on a moved frond its step completes poisoned over rows that hold
nothing, and elsewhere it goes on where it stood (Table 10.5). -/
def State.runOn (s : State) (moved : List Nat) (code : BitVec 16) (l : List (Nat × Task)) : State :=
  l.foldl (fun s p =>
    let live := p.2.live
    let s := s.modTask p.1 live (fun t => { t with stopped := false })
    (if moved.contains p.1 then (s.spoilPart p.1 (s.taskOf p.1 live)).failStep p.1 live code else s).pump p.1) s

/-- The pinned rows that moved fronds of a context's set load again can be read (R438). -/
def State.pinsReadable (s : State) (c : Nat) (moved : List Nat) : Bool :=
  match (s.ctx c).bound with
  | none => true
  | some b => !moved.any (fun f => b.mask.getLsbD f) || !s.hbmPoisoned b.pinned.toNat b.image.pBytes.toNat

/-- Why a stripe interrupted on some fronds cannot be replayed: a checkpoint or a pinned region that it needs is unreadable, or a checkpoint is missing
or followed a CKPT_OVER (R438). -/
def State.lostStripe (s : State) (moved : List Nat) (c stripe : Nat) (l : List (Nat × Task)) : Option (BitVec 16) :=
  let ks := l.map (fun p => ((s.frond p.1).stripeCkptOf c stripe).filter (fun k => !s.ckptReadable k || s.ckptValid k))
  if !s.pinsReadable c moved || ks.any (fun k => (k.map (fun k => !s.ckptReadable k)).getD false) then some stHbmUncorr
  else if ks.all (fun k => (k.map (fun k => !k.overRows)).getD false) then none
  else some stFrondFailed

/-- A stripe interrupted on some fronds: replayed on them, or given up under the context's error policy (R282, R425, R438). -/
def State.replayGroup (s : State) (moved : List Nat) (c : Nat) (frame : W32) (stripe : Nat) (l : List (Nat × Task)) : State :=
  match s.lostStripe moved c stripe l with
  | some code => if s.bv6 c then (s.unrepaired).runOn moved code l else (s.unrepaired).abortFrame c frame code
  | none =>
    let (n, s) := s.nextTask (((s.ctx c).bound.map Bound.mask).getD 0)
    let s := (s.setOf c).foldl (fun s f =>
      let x := s.frond f
      s.setFrond f { x with released := x.released.map (fun j => if j.ctx = c ∧ j.frame = frame ∧ j.stripe = stripe then { j with task := some n } else j) }) s
    l.foldl (fun s p => s.replayStripe p.1 p.2 n) s

/-- A moved frond that ran no stripe of a stream loads the stream's newest checkpoint. One that no copy serves, or that a CKPT_OVER left incomplete, does
not survive: the frame of its stripe is given up, or under the BV6 policy the rows are poisoned (R282, R417, R438). -/
def State.restoreIdle (s : State) (c f : Nat) : State :=
  match (s.frond f).newestCkpt c, (s.ctx c).bound with
  | some k, some b =>
    if s.ckptReadable k && s.ckptValid k && !k.overRows then s.loadStripe f c k
    else
      let code := if s.ckptReadable k then stFrondFailed else stHbmUncorr
      let s := s.unrepaired
      if s.bv6 c then s.spoilPart f { ctx := c, live := true, image := b.image } else s.abortFrame c k.frame code
  | _, _ => s

/-- Restore and replay of a live stream. -/
def State.restoreStream (s : State) (c : Nat) (moved : List Nat) : State :=
  let runs := s.interrupted c
  let s := ((s.setOf c).filter (fun f => moved.contains f && !runs.any (fun p => decide (p.1 = f)))).foldl (fun s f => s.restoreIdle c f) s
  let keys := (runs.map (fun p => (p.2.frame, p.2.stripe))).dedup
  let keys := keys.mergeSort (fun a b => frameLt a.1 b.1 || (decide (a.1 = b.1) && decide (a.2 ≤ b.2)))
  let s := s.resetGroups c
  keys.foldl (fun s k => s.replayGroup moved c k.1 k.2 (runs.filter (fun p => decide (p.2.frame = k.1) && decide (p.2.stripe = k.2)))) s

/-- Frond f's last valid step checkpoint of the present instance of a job (R420). -/
def State.stepCkptFor (s : State) (c : Nat) (j : Job) (f : Nat) : Option Ckpt :=
  ((s.frond f).stepCk.get 0 none).filter (fun k => decide (k.ctx = c) && decide (k.frame = BitVec.ofNat 32 j.inst) && decide (k.task = j.taskNo)
    && (!s.ckptReadable k || s.ckptValid k))

/-- Rows that a step checkpoint holds and that are spilled now get its bytes back in the spill region, and every spilled row its tag (Table 15.5). -/
def State.loadSpilled (s : State) (f : Nat) (t : Task) (k : Ckpt) : State :=
  let s := k.rows.zipIdx.foldl (fun s p =>
    match (s.frond f).place t p.1 with
    | some (.spill r) =>
      let (l, s) := s.freeBytes 512
      s.hbmWrite ((s.frond f).spillAddr r) ((List.range 512).map (fun i => (k.data.get? (512 * p.2 + i)).getD (l.getD i 0)))
    | _ => s) s
  let x := s.frond f
  s.setFrond f { x with spillFull := k.full.filter (fun r => match x.place t r with
    | some (.spill _) => true
    | _ => false) }

/-- One frond's part of a job from its step checkpoint (Table 15.5); a task starts with ROW0 = H_EXT = 0 (R200). It runs at once, its domain's clock woken
(R528), unless a stripe holds the frond or simmer work is suspended (R39, R532). -/
def State.resumeStep (s : State) (f : Nat) (t : Task) (k : Ckpt) : State :=
  let old := (s.frond f).simmer
  let s := if old.isSome then s.clearShare f false else s.placeSimmer f t.ctx t.image
  let k := s.ckptRead k (seBase false t.ctx)
  let s := s.loadSpilled f t k
  let held := (s.frond f).live.isSome || !(s.frond f).released.isEmpty || s.simmerHalted
  let s := (if held then s else s.wake (f / 8)).meter f
  let x := s.frond f
  let rows := x.simRows.filter (fun r => decide (r < 8192))
  let lo := seBase false t.ctx
  let share := semShare (s.divided f) false
  let x := x.loadRows t k rows lo (lo + 262144)
  let x : Frond := match k.ptmBuild with
    | some b => x.buildSlots x.ptmHalf b.slot b.entries
    | none => x
  let x : Frond := { x with
    sems := k.sems.cells.foldl (fun (m : Tbl (BitVec 16)) c => m.set c.1 c.2) ⟨x.sems.cells.filter (fun c => !share c.1)⟩
    heldIncs := x.heldIncs.filter (fun h => !share h.sem.toNat) ++ k.heldIncs
    windows := k.windows.cells.foldl (fun (m : Tbl Window) c => m.set c.1 c.2) x.windows, simTask := t.taskNo }
  let t := { t with
    cursors := k.cursors, counts := k.stats, cmdIndex := k.point, stepIndex := k.stepIndex, lastBuild := k.ptmBuild, starts := k.starts
    committed := true, yielded := held, yieldAt := s.dtb
    replayWrites := (old.map (fun t : Task => t.wrote ++ t.replayWrites)).getD []
    chainBlocks := (old.map Task.chainBlocks).getD 0, poisoned := (old.map Task.poisoned).getD false, hostPoison := (old.map Task.hostPoison).getD false, firstFault := (old.map Task.firstFault).getD 0 }
  let set := s.setOf t.ctx
  let x : Frond := if x.live.isSome then x else { x with
    slotTable := t.image.slot, row0 := 0, hExt := 0, rank := BitVec.ofNat 8 (set.idxOf f), ranks := BitVec.ofNat 9 set.length }
  s.setFrond f { x with simmer := some { t with step := x.saveStep t k.point } }

/-- Far-side write ranges of a job's interrupted run, by frond (R435). -/
def State.wroteBy (s : State) (c : Nat) : Tbl (List (Space × Walk)) :=
  (s.setOf c).foldl (fun l f => match (s.frond f).simmer with
    | some t => if t.ctx = c then l.set f (t.wrote ++ t.replayWrites) else l
    | none => l) {}

/-- A job goes back to the start of its present instance: DISPATCH runs it again (R429). -/
def State.restartInstance (s : State) (c : Nat) (j : Job) : State :=
  let replay := s.wroteBy c
  let s := (s.setOf c).foldl (fun s f => match (s.frond f).simmer with
    | some t => if t.ctx = c then (s.clearShare f false).freeRegions f c else s.freeRegions f c
    | none => s.freeRegions f c) s
  s.setCtx c { s.ctx c with job := some { j with started := false, ended := [], parts := {}, marked := false, replay := replay } }

/-- Restore of a simmer job: from its step checkpoints, else from the start of its instance (R425, R428, R429); one that needs what no copy can serve
ends, or under the BV6 policy runs on (R282, R438). -/
def State.restoreJob (s : State) (c : Nat) (moved : List Nat) : State :=
  match (s.ctx c).bound, (s.ctx c).job with
  | some b, some j =>
    let free := b.fronds.all (fun f => ((s.frond f).simmer.map (fun t => decide (t.ctx = c))).getD true)
    if !s.pinsReadable c moved || b.fronds.any (fun f => ((s.stepCkptFor c j f).map (fun k => !s.ckptReadable k)).getD false) then
      if s.bv6 c then
        (s.unrepaired).runOn moved stHbmUncorr (b.fronds.filterMap (fun f => ((s.frond f).simmer.filter (fun t => decide (t.ctx = c))).map (fun t => (f, t))))
      else (s.unrepaired).completeJob c stHbmUncorr (some (if j.body.listEn then j.inst else 0))
    else if !free || !b.fronds.any (fun f => (s.stepCkptFor c j f).isSome) then s.restartInstance c j
    else
      let (addr, exts) := s.jobEntry j
      let kind := kindOf false (s.anyRow c)
      match s.selectFor c b kind exts with
      | .error (code, index, entry) => s.dispatchFault c b j code index entry
      | .ok i =>
        let ended := b.fronds.filter (fun f => (s.stepCkptFor c j f).isNone)
        let t := { taskFor c false b i kind exts j.taskNo with listRel := addr, shifts := (s.ctx c).scaleSet }
        let s := s.setCtx c { s.ctx c with job := some { j with
          ended := ended, marked := false, parts := ⟨j.parts.cells.filter (fun p => ended.contains p.1)⟩ } }
        let s := s.resetGroups c
        b.fronds.foldl (fun s f => match s.stepCkptFor c j f with
          | some k => s.resumeStep f t k
          | none => s) s
  | _, _ => s

/-- REPAIR_RESTORE_COMPLETE: checkpoints are loaded and the interrupted work runs again (R425 steps 3 and 4). -/
def execRepairRestoreComplete (now : W64) (s : State) : Host.Outcome State Fault Refusal :=
  unlessInert s fun s =>
    let s := s.at_ now
    match s.lsch.repair with
    | none => s
    | some r =>
      if r.phase ≠ .restoring then s
      else
        let s := r.moved.foldl (fun s f => s.reloadPins f) s
        let s := r.ctxs.foldl (fun s c => if liveCtx c then s.restoreStream c r.moved else s.restoreJob c r.moved) s
        let waiting := (r.ctxs.filter (fun c => liveCtx c)).flatMap (fun c => (s.setOf c).filterMap (fun f => match (s.frond f).live with
          | some t => if t.ctx = c then some (f, c) else none
          | none => none))
        let r := { r with phase := .replaying, waiting := waiting }
        let s := { s with lsch := { s.lsch with repair := some r } }
        if waiting.isEmpty then s.repairDone r else s

/-! ### Step checkpoints (R419) -/

/-- STEP_CHECKPOINT_TIMER: every running job is marked, and one with nothing in progress is saved at once. -/
def execStepCheckpointTimer (now : W64) (s : State) : Host.Outcome State Fault Refusal :=
  unlessInert s fun s =>
    let s := s.at_ now
    if s.lsch.simmerMs = 0 then s
    else
      (s.ctxs.cells.map Prod.fst).foldl (fun s c =>
        match (s.ctx c).job with
        | none => s
        | some j =>
          if !j.started || !s.ctxRuns c then s
          else
            let s := s.setCtx c { s.ctx c with job := some { j with marked := true } }
            let s := (s.setOf c).foldl (fun s f => s.modTask f false (fun t => if t.ctx = c then { t with marked := true } else t)) s
            s.runMarked c) s

/-! ### HBM errors (R410, R412) -/

/-- The same byte of the other spore copy, for an address in one. -/
def State.otherCopy (s : State) (a : Nat) : Option Nat :=
  let x := s.lsch.sporeA.toNat
  let y := s.lsch.sporeB.toNat
  if x ≤ a ∧ a < x + sporeBytes then some (a - x + y) else if y ≤ a ∧ a < y + sporeBytes then some (a - y + x) else none

/-- INFO0 of an HBM_UNCORR record (Table 15.7). -/
def hbmInfo (stack : Fin 4) (channel : BitVec 4) : W32 := BitVec.ofNat 32 (stack.val + put channel.toNat 8 + put 1 28)

/-- The command of a task whose transfer reads a word of HBM: the first such DMA_IN that has not read it, else the one at the head of the list. -/
def State.readerOf (s : State) (f : Nat) (live : Bool) (word : Nat) : Nat :=
  let reads (d : DmaXfer) : Bool :=
    (d.live == live) && d.isIn && decide (s.served d.desc.farSpace = .hbm)
      && (d.desc.walk.pieces d.done (d.total - d.done)).any (fun p => meets p.1 p.2 word (word + 64))
  (((s.frond f).dma.find? reads).map DmaXfer.index).getD (s.taskOf f live).cmdIndex

/-- HBM_UNCORR: the other spore copy serves, unless it cannot be read either, or the word reads as poisoned, its bytes undefined, and its reader faults
(R410); the reader's context has its share of the event (R395). -/
def execHbmUncorr (stack : Fin 4) (channel : BitVec 4) (addr : W64) (reader : HbmReader) (now : W64) (s : State) : Host.Outcome State Fault Refusal :=
  unlessInert s fun s =>
    let s := ((s.at_ now).ladleFault 3).count (cntHbm stack.val 1) 1
    let word := addr.toNat / 64 * 64
    match (if s.ready then s.otherCopy word else none) with
    | some other => (if s.hbmPoisoned other 64 then s.poisonHbm word 64 else s.hbmWrite word (s.hbmRead other 64)).count (cntHbm stack.val 2) 1
    | none =>
      let s := ((s.blurHbm word 64).poisonHbm word 64).devEvent stHbmUncorr (hbmInfo stack channel) 0
      match reader with
      | .frondTask f =>
        match s.activeShare f.val with
        | none => s
        | some live =>
          let s := s.ctxFaults [(s.taskOf f.val live).ctx] stHbmUncorr (hbmInfo stack channel)
          (s.taskFault f.val live stHbmUncorr 2 4 (s.readerOf f.val live word)).pump f.val
      | .wear out pixel => let w := s.wear out.val; s.setWear out.val { w with frozen := insertNat pixel w.frozen }
      | _ => s

/-! ### The supervisor watchdog (R411) -/

/-- SVC_WATCHDOG: the supervisor core restarts, and everything else runs on. -/
def execSvcWatchdog (now : W64) (s : State) : Host.Outcome State Fault Refusal :=
  unlessInert s fun s =>
    let s := s.at_ now
    if s.lsch.svcDown then s
    else
      let s := State.ladleFault { s with lsch := { s.lsch with svcDown := true } } 7
      s.devEvent stSvcWatchdog 0x30000000 0

/-- SVC_RESTART_COMPLETE: the supervisor serves again: a mailbox command with an OP that it does not know ends (R411); columns whose failure it missed are
mapped now (R438). -/
def execSvcRestartComplete (now : W64) (s : State) : Host.Outcome State Fault Refusal :=
  unlessInert s fun s =>
    let s := s.at_ now
    let late := s.lsch.deferred
    let s := { s with lsch := { s.lsch with svcDown := false, deferred := [] } }
    let s := if s.svc.busy && !mbKnown s.svc.mbCmd then s.mbUnknown else s
    if late.isEmpty then s
    else
      let moved := late.flatMap (fun e => ((s.row (e.1 / 8)).movedBy e.2.1).map (fun c => e.1 / 8 * 8 + c))
      s.beginRepair { phase := .stopping, start := now, failed := [], fenced := [], moved := [], ctxs := s.affectedBy moved, waiting := [], late := late }

end Sys2Proof.Machine
end

