-- ==== Sys2Proof/Machine/FrondCommands.lean ====
section
/-! DEFINITION. The frond commands of Table 04.5: each reaches its frond's sequencer, which issues it as R95 states; what its engine does is `cmdRun`. -/

namespace Sys2Proof.Machine

/-- NOP: nothing but its header wait and signal (R92). -/
def execSeqNop (f : FrondId) (h : CmdHdr) (s : State) : Host.Outcome State Fault Refusal :=
  reach f (.seqNop f h) s

/-- END: the task ends once every earlier command has completed (R99). -/
def execEnd (f : FrondId) (h : CmdHdr) (now : W64) (s : State) : Host.Outcome State Fault Refusal :=
  unlessInert s fun s => (s.at_ now).feed f (.end_ f h now)

/-- WAIT: subtracts COUNT once the semaphore covers it (R75). -/
def execWait (f : FrondId) (h : CmdHdr) (sem : BitVec 6) (count : BitVec 16) (s : State) : Host.Outcome State Fault Refusal :=
  reach f (.wait f h sem count) s

/-- SIGNAL: adds COUNT to a semaphore of this frond, or sends it to another (R98, R280). -/
def execSignal (f : FrondId) (h : CmdHdr) (fence : Bool) (sem : BitVec 6) (target : Byte) (remote : Bool) (count : BitVec 16) (s : State) : Host.Outcome State Fault Refusal :=
  reach f (.signal f h fence sem target remote count) s

/-- MXU_PASS (R55 to R63, R168 to R175). -/
def execMxuPass (f : FrondId) (h : CmdHdr) (op : MxuOp) (s : State) : Host.Outcome State Fault Refusal :=
  reach f (.mxuPass f h op) s

/-- VU_DRAIN (R62, R176, R188, R189). -/
def execVuDrain (f : FrondId) (h : CmdHdr) (op : DrainOp) (s : State) : Host.Outcome State Fault Refusal :=
  reach f (.vuDrain f h op) s

/-- VU_EW (R164, R170, R177, R190). -/
def execVuEw (f : FrondId) (h : CmdHdr) (v : VuForm) (func : Byte) (count : BitVec 16) (s : State) : Host.Outcome State Fault Refusal :=
  reach f (.vuEw f h v func count) s

/-- VU_DW (R210 to R213). -/
def execVuDw (f : FrondId) (h : CmdHdr) (v : VuForm) (g : Geometry) (ch : BitVec 10) (group : Byte) (s : State) : Host.Outcome State Fault Refusal :=
  reach f (.vuDw f h v g ch group) s

/-- VU_POOL (R214 to R216). -/
def execVuPool (f : FrondId) (h : CmdHdr) (isMax padCount : Bool) (v : VuForm) (g : Geometry) (ch : BitVec 10) (s : State) : Host.Outcome State Fault Refusal :=
  reach f (.vuPool f h isMax padCount v g ch) s

/-- VU_ARGMAX (R217). -/
def execVuArgmax (f : FrondId) (h : CmdHdr) (v : VuForm) (ch : BitVec 10) (s : State) : Host.Outcome State Fault Refusal :=
  reach f (.vuArgmax f h v ch) s

/-- VU_TFN (R69). -/
def execVuTfn (f : FrondId) (h : CmdHdr) (v : VuForm) (table : BitVec 2) (count : BitVec 16) (s : State) : Host.Outcome State Fault Refusal :=
  reach f (.vuTfn f h v table count) s

/-- VU_FFT (R219 to R223). -/
def execVuFft (f : FrondId) (h : CmdHdr) (inverse : Bool) (v : VuForm) (twoD : Bool) (count : BitVec 16) (s : State) : Host.Outcome State Fault Refusal :=
  reach f (.vuFft f h inverse v twoD count) s

/-- PTM_BUILD (R66, R182, R184). -/
def execPtmBuild (f : FrondId) (h : CmdHdr) (v : VuForm) (group : Byte) (count : BitVec 16) (s : State) : Host.Outcome State Fault Refusal :=
  reach f (.ptmBuild f h v group count) s

/-- VU_LOAD: vectors into VU registers (R92). -/
def execVuLoad (f : FrondId) (h : CmdHdr) (v : VuForm) (count : BitVec 16) (s : State) : Host.Outcome State Fault Refusal :=
  reach f (.vuLoad f h v count) s

/-- VU_STORE: vectors out of VU registers (R92). -/
def execVuStore (f : FrondId) (h : CmdHdr) (v : VuForm) (count : BitVec 16) (s : State) : Host.Outcome State Fault Refusal :=
  reach f (.vuStore f h v count) s

/-- VU_TLOAD: a function table (R69). -/
def execVuTload (f : FrondId) (h : CmdHdr) (v : VuForm) (table : BitVec 2) (s : State) : Host.Outcome State Fault Refusal :=
  reach f (.vuTload f h v table) s

/-- SE_CAPTURE (R204). -/
def execSeCapture (f : FrondId) (h : CmdHdr) (src dst : BitVec 6) (count : BitVec 16) (s : State) : Host.Outcome State Fault Refusal :=
  reach f (.seCapture f h src dst count) s

/-- SE_REGROUP (R218). -/
def execSeRegroup (f : FrondId) (h : CmdHdr) (inverse : Bool) (src dst : BitVec 6) (by4 : Bool) (count : BitVec 16) (s : State) : Host.Outcome State Fault Refusal :=
  reach f (.seRegroup f h inverse src dst by4 count) s

/-- DMA_IN (R262 to R269). -/
def execDmaIn (f : FrondId) (h : CmdHdr) (tdRow : BitVec 13) (s : State) : Host.Outcome State Fault Refusal :=
  reach f (.dmaIn f h tdRow) s

/-- DMA_OUT (R262 to R269). -/
def execDmaOut (f : FrondId) (h : CmdHdr) (tdRow : BitVec 13) (s : State) : Host.Outcome State Fault Refusal :=
  reach f (.dmaOut f h tdRow) s

/-- NW_READ (R239). -/
def execNwRead (f : FrondId) (h : CmdHdr) (op : NwOp) (s : State) : Host.Outcome State Fault Refusal :=
  reach f (.nwRead f h op) s

/-- NW_WRITE: rows, or a partial tile into a combine window (R239, R243). -/
def execNwWrite (f : FrondId) (h : CmdHdr) (op : NwOp) (s : State) : Host.Outcome State Fault Refusal :=
  reach f (.nwWrite f h op) s

/-- WIN_OPEN (R238, R242). -/
def execWinOpen (f : FrondId) (h : CmdHdr) (win : BitVec 4) (baseRow : BitVec 13) (rows : BitVec 13) (gen : BitVec 16) (s : State) : Host.Outcome State Fault Refusal :=
  reach f (.winOpen f h win baseRow rows gen) s

/-- WIN_CLOSE (R240). -/
def execWinClose (f : FrondId) (h : CmdHdr) (win : BitVec 4) (s : State) : Host.Outcome State Fault Refusal :=
  reach f (.winClose f h win) s

/-- FILL (R142). -/
def execFill (f : FrondId) (h : CmdHdr) (dst : BitVec 6) (value : W32) (count : BitVec 16) (s : State) : Host.Outcome State Fault Refusal :=
  reach f (.fill f h dst value count) s

/-- COPY of accesses (R143). -/
def execFcCopy (f : FrondId) (h : CmdHdr) (src dst : BitVec 6) (count : BitVec 16) (s : State) : Host.Outcome State Fault Refusal :=
  reach f (.fcCopy f h src dst count) s

/-- RHZ_KEEP (R81, R255). -/
def execRhzKeep (f : FrondId) (h : CmdHdr) (dst : BitVec 6) (chunks : BitVec 16) (s : State) : Host.Outcome State Fault Refusal :=
  reach f (.rhzKeep f h dst chunks) s

end Sys2Proof.Machine
end

