-- ==== Sys2Proof/Machine/Segments.lean ====
section
/-! DEFINITION. Scratchpad power segments (R130 to R132) and cache mode (R144). -/

namespace Sys2Proof.Machine

/-- A run of rows meets segment n. -/
def inSegment (n base rows : Nat) : Bool := decide (base < 512 * (n + 1)) && decide (512 * n < base + rows)

/-- A pin is used by a live stream on frond f. -/
def State.pinLive (s : State) (f : Nat) (p : Pin) : Bool :=
  s.liveStreams.any (fun c => match (s.ctx c).bound with
    | some b => b.mask.getLsbD f && decide (b.image.pkgId = p.pkg) && (b.sharedPin == p.shared) && (p.shared || decide (p.ctx = c))
    | none => false)

/-- Segment n of frond f holds a row of a live stream's pinned region or working area (R131). -/
def State.segLive (s : State) (f n : Nat) : Bool :=
  let x := s.frond f
  (List.range 8).any (fun k => let p := x.pins.get k {}; p.used && inSegment n p.base p.rows && s.pinLive f p)
    || x.areas.any (fun a => inSegment n a.base a.rows)

/-- Pins with a row in segment n are released. -/
def Frond.dropPins (x : Frond) (n : Nat) : Frond :=
  { x with pins := (List.range 8).foldl (fun t k => let p := t.get k {}; if p.used && inSegment n p.base p.rows then t.set k {} else t) x.pins }

/-- EN of a segment written 0, and 1 (R132, R489). -/
def OnOff.disable : OnOff → OnOff
  | .on => .goingDown
  | .goingUp => .goingDown
  | .goingDownHeld => .goingDown
  | p => p

def OnOff.enable : OnOff → OnOff
  | .off => .goingUp
  | .goingDown => .goingDownHeld
  | p => p

/-- One bit of TSP_SEG.EN written. -/
def State.segWrite (s : State) (f n : Nat) (en : Bool) : State :=
  let x := s.frond f
  if !en && s.segLive f n then s.setFrond f { x with segRefused := true }
  else
    let p := x.segs.get n .on
    let x := { x with segEn := setBit x.segEn n en, segs := x.segs.set n (if en then p.enable else p.disable) }
    s.setFrond f (if en then x else x.dropPins n)

/-- A write of TSP_SEG: the bits that MASK selects (Table 05.7). -/
def State.tspSegWrite (s : State) (f : Nat) (value : W32) : State :=
  (List.range 16).foldl (fun s n => if bitOf value (16 + n) then s.segWrite f n (bitOf value n) else s) s

/-- TSP_SEG_GATE (R131). -/
def execTspSegGate (f : FrondId) (value : W32) (s : State) : Host.Outcome State Fault Refusal :=
  unlessInert s fun s => s.tspSegWrite f.val value

/-- TSP_SEG_ENABLE (R132). -/
def execTspSegEnable (f : FrondId) (value : W32) (s : State) : Host.Outcome State Fault Refusal :=
  unlessInert s fun s => s.tspSegWrite f.val value

/-- TSP_SEG_SHUTDOWN_DONE: a held enable then powers the segment up (R132). -/
def execTspSegShutdownDone (f : FrondId) (seg : BitVec 4) (s : State) : Host.Outcome State Fault Refusal :=
  unlessInert s fun s =>
    let x := s.frond f.val
    match x.segs.get seg.toNat .on with
    | .goingDown => s.setFrond f.val { x with segs := x.segs.set seg.toNat .off }
    | .goingDownHeld => s.setFrond f.val { x with segs := x.segs.set seg.toNat .goingUp }
    | _ => s

/-- TSP_SEG_POWERUP_DONE: the segment holds no pin, its contents are undefined and its tags empty (R132). -/
def execTspSegPowerupDone (f : FrondId) (seg : BitVec 4) (s : State) : Host.Outcome State Fault Refusal :=
  unlessInert s fun s =>
    let x := s.frond f.val
    match x.segs.get seg.toNat .on with
    | .goingUp =>
      let y := (x.forgetRows ((List.range 512).map (fun i => 512 * seg.toNat + i))).dropPins seg.toNat
      s.setFrond f.val { y with segs := y.segs.set seg.toNat .on }
    | _ => s

/-- Segment n cannot be given to cache mode: a pinned region, a live working area or a resident simmer row lies in it (R144). -/
def Frond.segTaken (x : Frond) (n : Nat) : Bool :=
  (List.range 8).any (fun k => let p := x.pins.get k {}; p.used && inSegment n p.base p.rows)
    || x.areas.any (fun a => inSegment n a.base a.rows)
    || x.simRows.any (fun r => decide (r / 512 = n))

/-- A write of TSP_CFG (R144): an accepted one waits for the task boundary, which invalidates every line, and claims its segments until then. -/
def State.tspCfgWrite (s : State) (f : Nat) (value : W32) : State :=
  let x := s.frond f
  let k := fieldOf value 2 0
  if 4 < k || (List.range k).any (fun i => x.segTaken (15 - i)) then s.setFrond f { x with cacheReject := true }
  else s.setFrond f { x with cacheSteps := BitVec.ofNat 3 k, cachePending := true }

/-- CACHE_STEPS_WRITE: an accepted size applies at the frond's next task boundary. -/
def execCacheStepsWrite (f : FrondId) (value : W32) (s : State) : Host.Outcome State Fault Refusal :=
  unlessInert s fun s => s.tspCfgWrite f.val value

end Sys2Proof.Machine
end

