-- ==== Sys2Proof/Machine/Ports.lean ====
section
/-! DEFINITION. DisplayPort transmit and receive ports (R337 to R350), capture (R342 to R344) and panel control (R545 to R547). -/

namespace Sys2Proof.Machine

/-! ### Port faults and events -/

/-- A port fault enters DPTX_FAULT (Table 12.7); a fault that names no pin leaves PIN open: a free value. -/
def State.portFault (s : State) (n : Nat) (code : BitVec 16) (pin : Option (BitVec 4)) : State :=
  let s := s.ladleFault 6
  let p := s.port n
  if p.faultValid then s.setPort n { p with faultOverrun := true }
  else
    let (v, s) := match pin with
      | some k => (k, s)
      | none => let (w, s) := s.draw; (BitVec.ofNat 4 w.toNat, s)
    s.setPort n { p with faultValid := true, faultCode := code, faultPin := v }

/-- An event of HPD reaches the driver (Table 12.6); the spec gives it no status code, so its code is a free value. -/
def State.hpdEvent (s : State) (n : Nat) : State :=
  let (w, s) := s.draw
  s.devEvent (BitVec.ofNat 16 w.toNat) (BitVec.ofNat 32 n) 0

/-- The link of a port is down. -/
def Dptx.down (p : Dptx) : Dptx := { p with linkUp := false, upAll := false }

/-- A port whose sink is present and whose drivers work begins to train. -/
def Dptx.train (p : Dptx) : Dptx := { p.down with training := p.en && p.hpd && !p.shorted }

/-! ### HPD -/

/-- HPD_PLUG: a sink is present; the port trains, and the supervisor reads the panel record (R338, R352 to R354); the
panel of a locked pair is read through the lower generator's port alone (R351). `panel` holds the pages 0x54 to 0x56
of the plugged module's EEPROM; an absent page gives no reply. -/
def execHpdPlug (port : OutId) (asyncSink : Bool) (panel : List (List Byte)) (now : W64) (s : State) : Host.Outcome State Fault Refusal :=
  unlessInert s fun s =>
    let n := port.val
    let s := s.at_ now
    let s := s.setPort n ({ s.port n with hpd := true, asyncSink := asyncSink } : Dptx).train
    let s := (List.range 3).foldl (fun s i => { s with eeprom := s.eeprom.set (3 * n + i) ((⟨[]⟩ : Mem).write 0 (panel.getD i [])) }) s
    (if s.upperHalf n then s else (s.forgetPanel n).readPanel n).hpdEvent n

/-- HPD_UNPLUG: the link is down, and the wiring corrections go (R348, R352). -/
def execHpdUnplug (port : OutId) (now : W64) (s : State) : Host.Outcome State Fault Refusal :=
  unlessInert s fun s =>
    let n := port.val
    let s := s.at_ now
    let p := (s.port n).down
    let s := s.setPort n { p with hpd := false, asyncSink := false, training := false, laneRev := false, polInv := 0, auxInv := false, openLanes := 0 }
    let s := (List.range 3).foldl (fun s i => { s with eeprom := s.eeprom.set (3 * n + i) {} }) s
    (if s.upperHalf n then s else s.forgetPanel n).hpdEvent n

/-- IRQ_HPD: an HPD event, after which a port that has no link trains again (R337, R338). -/
def execIrqHpd (port : OutId) (now : W64) (s : State) : Host.Outcome State Fault Refusal :=
  unlessInert s fun s =>
    let n := port.val
    let s := s.at_ now
    let p := s.port n
    (if p.linkUp then s else s.setPort n p.train).hpdEvent n

/-! ### Training (R338, R347, R348) -/

/-- The widest set of lanes, of at most `limit`, that holds no open lane: its lane code. -/
def widestLanes (limit : Nat) (openLanes : BitVec 4) : Option (BitVec 2) :=
  if 2 ≤ limit ∧ openLanes = 0 then some 2
  else if 1 ≤ limit ∧ fieldOf openLanes 1 0 = 0 then some 1
  else if bitOf openLanes 0 then none
  else some 0

/-- The highest rate that trains on a lane code. -/
def trainRate (x : TrainSense) (l : Nat) : Option (BitVec 3) := if l = 0 then x.one else if l = 1 then x.two else x.four

/-- The configurations that train, widest first, each at its highest rate: the port falls back to lower rates and then to fewer lanes (R337). -/
def trainedConfigs (x : TrainSense) (maxRate : Nat) (widest : BitVec 2) : List (Nat × Nat) :=
  (List.range (widest.toNat + 1)).reverse.filterMap (fun l => (trainRate x l).map (fun r => (l, min (min maxRate 6) r.toNat)))

/-- The lanes of a PORT_SWAPPED record: those of inverted polarity, and all of them where their order is reversed (Table 14.7 says a mask of lanes, not what it
holds here: DEDUCED, log 147). -/
def swapLanes (x : TrainSense) : BitVec 4 := x.polInv ||| (if x.laneRev then 0xF else 0)

/-- What a training finds in the wiring is corrected and reported once (R348). -/
def State.reportSwaps (s : State) (n : Nat) (x : TrainSense) : State :=
  if x.laneRev || x.auxInv || decide (x.polInv ≠ 0) then
    (s.portFault n stPortSwapped none).devEvent stPortSwapped (BitVec.ofNat 32 n) ((swapLanes x).setWidth 32)
  else s

/-- Lanes without termination are reported with their mask (R347). -/
def State.reportOpen (s : State) (n : Nat) (lanes : BitVec 4) : State :=
  if lanes = 0 then s else (s.portFault n stPortOpen none).devEvent stPortOpen (BitVec.ofNat 32 n) (lanes.setWidth 32)

/-- The stream's clock and depth that the port must carry; with its generator disabled there is none. -/
def State.streamLoad (s : State) (n : Nat) : Nat × Nat :=
  let g := s.tgOf n
  if g.phase = .off then (0, 0) else (g.eff.khz.toNat, bitsPer g.eff.bpc.toNat)

/-- DP_LINK_TRAINING: the result of a training: the first configuration found that carries the stream, or none (R337, R338, R347, R348). -/
def execDpLinkTraining (port : OutId) (x : TrainSense) (now : W64) (s : State) : Host.Outcome State Fault Refusal :=
  unlessInert s fun s =>
    let n := port.val
    let s := s.at_ now
    let p := s.port n
    if !(p.training && p.en && p.hpd && !p.shorted) then s
    else
      let s := s.count (cntPort n 1) 1
      let p := { p with training := false, openLanes := x.openLanes, laneRev := p.laneRev || x.laneRev, polInv := p.polInv ||| x.polInv, auxInv := p.auxInv || x.auxInv }
      let s := ((s.setPort n p).reportOpen n x.openLanes).reportSwaps n x
      let p := s.port n
      let load := s.streamLoad n
      let found := ((widestLanes p.maxLanes.toNat x.openLanes).map (trainedConfigs x p.maxRate.toNat)).getD []
      match found.find? (fun c => linkFits c.2 (laneCount c.1) (s.mstOf n).toNat load.1 load.2), found with
      | some (l, rate), _ => s.setPort n { p with linkUp := true, rate := BitVec.ofNat 3 rate, lanes := BitVec.ofNat 2 l }
      | none, (l, rate) :: _ =>
        (s.setPort n { p.down with noBw := true, rate := BitVec.ofNat 3 rate, lanes := BitVec.ofNat 2 l }).devEvent stLinkNoBw (BitVec.ofNat 32 n) 0
      | none, [] => (s.setPort n { p.down with noBw := true }).devEvent stLinkNoBw (BitVec.ofNat 32 n) 0

/-- A write of DPTX_CTL (Table 12.7). -/
def State.dptxCtlWrite (s : State) (n : Nat) (value : W32) : State :=
  let p := s.port n
  let q := { p with
    en := bitOf value 0, maxRate := BitVec.ofNat 3 (fieldOf value 3 1), maxLanes := BitVec.ofNat 2 (fieldOf value 5 4), mst := BitVec.ofNat 2 (fieldOf value 7 6) }
  s.setPort n (if !q.en then { q.down with training := false } else if !p.en || bitOf value 8 then q.train else q)

/-- The lock that a write of DPTX_CTL falls under is set: the write is ignored (Table 18.4). -/
def State.portLocked (s : State) : Bool := bitOf s.locks 3

/-- RETRAIN (R338), or the write that PORT_LOCK stops. -/
def execRetrain (port : OutId) (value : W32) (s : State) : Host.Outcome State Fault Refusal :=
  unlessInert s fun s => if s.portLocked then { s with lockedWr := true } else s.dptxCtlWrite port.val value

/-! ### AUX (R341) -/

/-- A write of DPTX_AUX_CTL posts a transaction, or is dropped. -/
def State.auxWrite (s : State) (n : Nat) (value : W32) : State :=
  let p := s.port n
  if p.auxBusy then s.setPort n { p with wrDropped := true }
  else
    (s.setPort n { p with
      auxAddr := BitVec.ofNat 20 (fieldOf value 19 0), auxLen := BitVec.ofNat 4 (fieldOf value 23 20), auxCmd := BitVec.ofNat 4 (fieldOf value 27 24)
      auxBusy := true }).count (cntPort n 2) 1

/-- AUX_TRANSACTION. -/
def execAuxTransaction (port : OutId) (value : W32) (s : State) : Host.Outcome State Fault Refusal :=
  unlessInert s fun s => s.auxWrite port.val value

/-- AUX_REPLY: the transaction ends with its reply and the bytes that came with it; while a short holds the AUX driver off there is no reply (R346). -/
def execAuxReply (port : OutId) (reply : BitVec 2) (data : List Byte) (s : State) : Host.Outcome State Fault Refusal :=
  unlessInert s fun s =>
    let n := port.val
    let p := s.port n
    if !p.auxBusy then s
    else
      let l := if p.shorted then [] else data.take 16
      s.setPort n { p with
        auxBusy := false, auxReply := if p.shorted then 3 else reply, auxCount := BitVec.ofNat 5 l.length
        auxData := l.zipIdx.foldl (fun (t : Tbl Byte) b => t.set b.2 b.1) p.auxData }

/-! ### Protection (R345, R346) -/

/-- PORT_SHORT: a short on a lane or AUX pin disables the port's drivers; HPD above its supply is only reported. A short that persists is not reported
again; one on a further pin is. -/
def execPortShort (port : OutId) (pin : BitVec 4) (now : W64) (s : State) : Host.Outcome State Fault Refusal :=
  unlessInert s fun s =>
    let n := port.val
    let s := s.at_ now
    let p := s.port n
    if 10 < pin.toNat || p.shortPins.contains pin.toNat then s
    else
      let s := if pin.toNat < 10 then s.setPort n { p.down with shorted := true, training := false, shortPins := insertNat pin.toNat p.shortPins } else s
      (s.portFault n stPortShort (some pin)).devEvent stPortShort (BitVec.ofNat 32 n) (pin.setWidth 32)

/-- PORT_PIN_TEST: when the pins test clean the port runs its full start: it trains with HPD high, and a panel whose record the short kept from being read is
read now (R341, R346, R352; log 147). -/
def execPortPinTest (port : OutId) (clean : Bool) (s : State) : Host.Outcome State Fault Refusal :=
  unlessInert s fun s =>
    let p := s.port port.val
    if p.shorted && clean then
      let s := s.setPort port.val ({ p with shorted := false, shortPins := [] } : Dptx).train
      if p.hpd && !s.upperHalf port.val && !(s.wear port.val).present then s.readPanel port.val else s
    else s

/-! ### Capture (R342 to R344) -/

/-- The live contexts bound to a capture port. -/
def State.captures (s : State) (rx : Fin 2) : List Nat :=
  s.liveStreams.filter (fun c => let k := s.ctx c; decide (k.state = .running) && bitOf k.slots 3 && (bitOf k.slots 4 == decide (rx.val = 1)))

/-- Codes of one plane in memory: a byte each at 8 bits, else 16-bit containers (R288). -/
def packSamples (bits : Nat) (l : List (BitVec 16)) : List Byte :=
  l.flatMap (fun v => toLe (if bits = 8 then 1 else 2) (v.toNat % 2 ^ bits))

/-- A received frame as it lies in an input slot: planar for RGB and 4:4:4, semi-planar for 4:2:2 and 4:2:0 (R343). -/
def capturedBytes (x : CapturedFrame) : List Byte :=
  match x.encoding with
  | .rgb | .ycc444 => packSamples x.bits x.comp0 ++ packSamples x.bits x.comp1 ++ packSamples x.bits x.comp2
  | .ycc422 | .ycc420 => packSamples x.bits x.comp0 ++ packSamples x.bits ((x.comp1.zip x.comp2).flatMap (fun p => [p.1, p.2]))

/-- A received frame goes to a context's input slot, when the slot is free, the frame fits it, and it governs an output frame still ahead
(R274, R275, R389). -/
def State.captureTo (s : State) (c : Nat) (frame : W32) (x : CapturedFrame) : State :=
  let k := s.ctx c
  let l := capturedBytes x
  let later := (k.lastSubmit.map (fun f => decide (f.toNat < frame.toNat))).getD true
  let ahead := decide (k.firstIn.toNat ≤ frame.toNat) && frameLe (k.firstOut frame) (k.lastOut frame) && frameLe k.nextOut (k.lastOut frame)
  if !later || !ahead || decide (k.slotBytes.toNat < l.length) || !s.slotFree c frame then s
  else
    let j : FrameJob :=
      { hdr := none, frame := frame, exts := [], body := none, xfers := [], begun := true, staged := false, status := stOk, held := s.heldBefore c frame,
        run := 0, finished := false, sat := 0, ufl := 0, cause := 0 }
    let st := s.stream c
    let s := s.setStream c { st with unsubmitted := st.unsubmitted.filter (fun p => decide (frame.toNat < p.1.toNat)) }
    (s.hbmWrite (k.slotAddr frame) l).setCtx c { k with frames := k.frames ++ [j], lastSubmit := some frame }

/-- CAPTURE_FRAME (R343). -/
def execCaptureFrame (rx : Fin 2) (frame : W32) (c : CapturedFrame) (s : State) : Host.Outcome State Fault Refusal :=
  unlessInert s fun s => (s.captures rx).foldl (fun s k => s.captureTo k frame c) s

/-- A preset lid meets on output n the bounds of a lid image: its size, its place in the active area, its matrix (R307, Table 11.7). -/
def State.presetFits (s : State) (n : Nat) (l : Lid) : Bool :=
  let t := (s.tgOf n).ownTiming
  decide (1 ≤ l.w) && decide (l.w ≤ 2048) && decide (1 ≤ l.h) && decide (l.h ≤ 512)
    && decide (l.x + l.w ≤ t.hAct.toNat) && decide (l.y + l.h ≤ t.vAct.toNat) && l.gam.all coefOk

/-- The supervisor may show a preset lid of the configuration block when a capture port loses its link (R308, R344); whether it does, which and on
which output are free (log 105). It takes effect at the output's next commit point. -/
def State.showPreset (s : State) : State :=
  let (w, s) := s.draw
  let n := w.toNat / 2 % 4
  match s.svc.presets.getD (w.toNat / 8 % 8) none with
  | some l =>
    if bitOf w 0 && s.presetFits n l then
      let c := s.comp n
      s.setComp n { c with lidNext := some { l with visible := true, preset := true } }
    else s
  | none => s

/-- CAPTURE_LOST (R344). -/
def execCaptureLost (rx : Fin 2) (now : W64) (s : State) : Host.Outcome State Fault Refusal :=
  unlessInert s fun s => ((s.at_ now).devEvent stCaptureLost (BitVec.ofNat 32 rx.val) 0).showPreset

/-- DPRX_AUX_REQUEST: I²C over AUX, address 0x50 with segment pointer 0x30 (R342). A read goes on from the offset of the last write, as an EEPROM
does (log 40). Other addresses are not served. -/
def execDprxAuxRequest (rx : Fin 2) (write : Bool) (device : BitVec 7) (data : List Byte) (count : BitVec 5) (s : State) : Host.Outcome State Fault Refusal :=
  unlessInert s fun s =>
    let r := s.rx rx.val
    if device = 0x30 ∧ write then s.setRx rx.val { r with segment := data.headD r.segment, reply := [] }
    else if device = 0x50 ∧ write then s.setRx rx.val { r with offset := data.headD r.offset, reply := [] }
    else if device = 0x50 then
      let l := (List.range count.toNat).map (fun i => r.edid.get ((256 * r.segment.toNat + (r.offset.toNat + i) % 256) % 512) 0)
      s.setRx rx.val { r with offset := r.offset + BitVec.ofNat 8 count.toNat, reply := l }
    else s.setRx rx.val { r with reply := [] }

/-! ### Panel control (R545 to R547) -/

/-- A write of PANEL_CTL.PWR (R546, R489). -/
def PanelCtl.setPwr (p : PanelCtl) (pwr : Bool) : PanelCtl :=
  let q := { p with pwr := pwr }
  if p.busy then { q with heldPwr := pwr }
  else if pwr == p.pwrEn then q
  else if pwr then { q with pwrEn := true, delayed := false }
  else { q with busy := true, delayed := false }

/-- A write of PANEL_CTL. -/
def State.panelCtlWrite (s : State) (n : Nat) (value : W32) : State :=
  let p := s.panel n
  s.setPanel n (({ p with bl := bitOf value 1, blDelay := BitVec.ofNat 8 (fieldOf value 15 8) } : PanelCtl).setPwr (bitOf value 0))

/-- PANEL_PWR_WRITE. -/
def execPanelPwrWrite (n : OutId) (value : W32) (s : State) : Host.Outcome State Fault Refusal :=
  unlessInert s fun s => s.panelCtlWrite n.val value

/-- BL_DELAY_EXPIRY: panel power falls, and a held power-up then runs; or the backlight may rise. -/
def execBlDelayExpiry (n : OutId) (now : W64) (s : State) : Host.Outcome State Fault Refusal :=
  unlessInert s fun s =>
    let s := s.at_ now
    let p := s.panel n.val
    if p.busy then s.setPanel n.val { p with busy := false, heldPwr := false, pwrEn := p.heldPwr, delayed := false }
    else if p.pwrEn then s.setPanel n.val { p with delayed := true }
    else s

/-- Panel-control balls are driven: not before READY, not after a thermal trip, not on the upper half of a pair (R545, R547). -/
def State.panelDriven (s : State) (n : Nat) : Bool := s.ready && !s.inert && s.pins.thermTripN && !s.upperHalf n

/-- PANEL_PWR_ENn. -/
def State.panelPwrOut (s : State) (n : Nat) : Bool := s.panelDriven n && (s.panel n).pwrEn

/-- PANEL_BL_ENn (R545). -/
def State.panelBlOut (s : State) (n : Nat) : Bool :=
  let p := s.panel n
  s.panelPwrOut n && p.bl && p.delayed && !p.busy && (s.tgOf n).running && (s.port n).linkUp

end Sys2Proof.Machine
end

