-- ==== Sys2Proof/Machine/Lwl.lean ====
section
/-! DEFINITION. Lorwirel links (chapter 17): training, failure, time, remote HBM and halo pushes. -/

namespace Sys2Proof.Machine

/-! ### Topology (R460 to R463) -/

/-- The device that link k reaches when it is not the ring (R460, R462). -/
def State.farDevice (s : State) (k : Nat) : BitVec 2 := if k = 3 then s.strap ^^^ 1 else s.strap ^^^ BitVec.ofNat 2 (k + 1)

/-- The peer that answers at link k is the one the board must have there: on the ring, any other device (R461, R462). -/
def State.peerFits (s : State) (k : Nat) (peer : BitVec 2) : Bool :=
  if (s.link k).isRing k then decide (peer ≠ s.strap) else decide (peer = s.farDevice k)

/-- REACHED and MASTER after a link has come up or gone down. The links between the other devices are not seen here, so whether a lower device than the
lowest peer is joined through another one is a free choice (R463, log 41). -/
def State.retopo (s : State) : State :=
  let mesh := s.upLinks.filter (fun k => !(s.link k).isRing k)
  let reached : BitVec 4 := mesh.foldl (fun m k => setBit m (s.link k).peer.toNat true) 0
  let low := s.upLinks.foldl (fun m k => min m (s.link k).peer.toNat) s.strap.toNat
  if s.upLinks.isEmpty then { s with lwl := { s.lwl with reached := reached, master := s.strap } }
  else
    let (w, s) := s.draw
    let master := BitVec.ofNat 2 (w.toNat % (low + 1))
    let follows := decide (master ≠ s.strap)
    { s with lwl := { s.lwl with reached := reached, master := master, follower := follows, holdover := s.lwl.holdover && follows } }

/-! ### Training (R457, R461) -/

/-- One training attempt of an enabled link: up at the first row that passes, down with MISWIRED at a wrong peer, or down and to be tried again. -/
def State.lwlTrain (s : State) (k : Nat) (x : LinkSense) : State :=
  let l := s.link k
  let row := x.row.filter (fun r => !(l.maxRate && decide (r.val < 2)))
  let l := match row with
    | none => { l with up := false, busy := true }
    | some r =>
      if s.peerFits k x.peer then
        { l with
          up := true, busy := false, miswired := false, peer := x.peer, nrz := decide (2 ≤ r.val)
          width := if r.val % 2 = 0 then 0 else if x.upper then 2 else 1 }
      else { l with up := false, busy := false, miswired := true, peer := x.peer }
  (s.setLink k l).retopo

/-- LWL_TRAIN_RETRY: the attempt 100 ms after one in which no row passed, or the first one of a link whose enable brought none. -/
def execLwlTrainRetry (link : Fin 4) (sense : LinkSense) (s : State) : Host.Outcome State Fault Refusal :=
  unlessInert s fun s =>
    let l := s.link link.val
    if l.en && !l.up && l.busy then s.lwlTrain link.val sense else s

/-! ### A link goes down -/

/-- The first transfer of the movers that reads or writes device d's HBM. -/
def State.moverCrossing (s : State) (d : BitVec 2) : Option (Nat × Xfer) :=
  let far : Space := .remote (Fin.ofNat 4 d.toNat)
  (List.range 32).findSome? (fun m =>
    let u := s.mover m
    ((u.outstanding ++ u.pending).find? (fun x => decide (x.srcSpace = far) || decide (x.dstSpace = far))).map (fun x => (m, x)))

/-- The stream-mover transfers across a link end with LINK_FAILED (R459). -/
def State.failMovers : Nat → State → BitVec 2 → State
  | 0, s, _ => s
  | fuel + 1, s, d =>
    match s.moverCrossing d with
    | none => s
    | some p => State.failMovers fuel (s.dropXfer p.1 p.2 stLinkFailed) d

/-- The frond transfers across a link fault with LINK_FAILED (R282, R459). -/
def State.failDmas (s : State) (d : BitVec 2) : State :=
  let far : Space := .remote (Fin.ofNat 4 d.toNat)
  (List.range 256).foldl (fun s f =>
    let l := (s.frond f).dma.filter (fun e => decide (e.desc.farSpace = far) && !(s.frond f).dmaDone e)
    if l.isEmpty then s
    else
      (l.foldl (fun s e => if ((s.frond f).dmaOf e.id).isSome then s.dmaFault f e stLinkFailed else s) s).pump f) s

/-- Transfers in flight across link k end: remote HBM traffic uses the mesh links only (R462). -/
def State.failTransfers (s : State) (k : Nat) : State :=
  if (s.link k).isRing k || decide (s.farDevice k = s.strap) then s
  else if k = 3 then s
  else (State.failMovers 2240 s (s.farDevice k)).failDmas (s.farDevice k)

/-- Contexts with a transfer in flight across link k. -/
def State.linkUsers (s : State) (k : Nat) : List Nat :=
  let far : Space := .remote (Fin.ofNat 4 (s.farDevice k).toNat)
  if (s.link k).isRing k || decide (s.farDevice k = s.strap) || decide (k = 3) then []
  else
    ((List.range 32).flatMap (fun m => (((s.mover m).outstanding ++ (s.mover m).pending).filter (fun x =>
        decide (x.srcSpace = far) || decide (x.dstSpace = far))).map Xfer.ctx)
      ++ (List.range 256).flatMap (fun f => ((s.frond f).dma.filter (fun e => decide (e.desc.farSpace = far) && !(s.frond f).dmaDone e)).map DmaXfer.ctx)).dedup

/-- LINK_FAILED: reported once, and to the contexts whose transfers it faults (R395); the link then trains again (R441, R459). -/
def execLinkFailed (link : Fin 4) (now : W64) (s : State) : Host.Outcome State Fault Refusal :=
  unlessInert s fun s =>
    let k := link.val
    let l := s.link k
    if !l.up then s
    else
      let s := s.at_ now
      let s := (s.setLink k { l with up := false, busy := true }).retopo
      let s := ((s.ladleFault 5).count (cntLink k 2) 1).devEvent stLinkFailed (BitVec.ofNat 32 (0x20000000 + k)) 0
      (s.ctxFaults (s.linkUsers k) stLinkFailed (BitVec.ofNat 32 (0x20000000 + k))).failTransfers k

/-- RETRY: a flit is sent again, with the codewords corrected since the retry before (R458); only the counters tell (R409; DESIGN CHOICE, log 141). -/
def execRetry (sense : RetrySense) (s : State) : Host.Outcome State Fault Refusal :=
  unlessInert s fun s =>
    if (s.link sense.link.val).up then (s.countSome (cntLink sense.link.val 0) sense.corrected.toNat).count (cntLink sense.link.val 1) 1 else s

/-! ### LWL_CTL -/

/-- A write of LWL_CTL (Table 17.4). A change of RING on another link than LWL3, or on one that is not disabled, is ignored with CFG_REJECT (R462).
EN = 1 begins to train; EN = 0 takes the link down, and what is in flight across it fails as at a link failure, without a report (log 41). -/
def State.lwlCtlWrite (s : State) (k : Nat) (value : W32) : State :=
  let l := s.link k
  let ring := bitOf value 2
  let reject := ring != l.ring && !(decide (k = 3) && !l.en)
  let q := { l with
    maxRate := bitOf value 1, ring := if reject then l.ring else ring, cfgReject := l.cfgReject || reject }
  if bitOf value 0 then s.setLink k (if l.en then q else { q with en := true, busy := true, miswired := false })
  else if l.en then ((s.setLink k { q with en := false, up := false, busy := false, miswired := false }).retopo).failTransfers k
  else s.setLink k q

/-- LINK_ENABLE: a write of LWL_CTL and the first training that it starts (R457). -/
def execLinkEnable (link : Fin 4) (value : W32) (sense : LinkSense) (s : State) : Host.Outcome State Fault Refusal :=
  unlessInert s fun s =>
    let before := (s.link link.val).en
    let s := s.lwlCtlWrite link.val value
    if !before && (s.link link.val).en then s.lwlTrain link.val sense else s

/-- RING_WRITE: a write of LWL_CTL that changes RING (R462). -/
def execRingWrite (link : Fin 4) (value : W32) (s : State) : Host.Outcome State Fault Refusal :=
  unlessInert s fun s => s.lwlCtlWrite link.val value

/-! ### Time (R464 to R466) -/

/-- LWL_LATENCY_MEASURE: half of the round trip, in whole nanoseconds, is the one-way latency (R464). -/
def execLwlLatencyMeasure (link : Fin 4) (roundTrip : BitVec 16) (s : State) : Host.Outcome State Fault Refusal :=
  unlessInert s fun s =>
    let l := s.link link.val
    if l.up then s.setLink link.val { l with latency := BitVec.ofNat 16 (roundTrip.toNat / 2) } else s

/-- The direct link from the master, while it is up. -/
def State.directLink (s : State) : Option Nat :=
  s.upLinks.find? (fun k => !(s.link k).isRing k && decide ((s.link k).peer = s.lwl.master))

/-- The link that this follower takes time over: the direct one, else the ring (R465). -/
def State.timeLink (s : State) : Option Nat :=
  s.directLink.orElse (fun _ => if (s.link 3).up && (s.link 3).isRing 3 then some 3 else none)

/-- DTB_TIME_MESSAGE: a follower slews toward the master's time plus the latency; over the ring the correction field carries the earlier hops
(R464, R465). -/
def execDtbTimeMessage (link : Fin 4) (masterDtb : W64) (correction : BitVec 16) (now : W64) (s : State) :
    Host.Outcome State Fault Refusal :=
  unlessInert s fun s =>
    let s := s.at_ now
    if s.lwl.master = s.strap ∨ s.timeLink ≠ some link.val then s
    else
      let l := s.link link.val
      let ring := l.isRing link.val
      let target := masterDtb.toNat + l.latency.toNat + (if ring then correction.toNat else 0)
      let d : Int := (target : Int) - s.dtb.toNat
      { s with
        dtbSlew := d * 10000 - s.dtbFrac
        lwl := { s.lwl with locked := decide (d.natAbs ≤ 4), viaRing := ring, holdover := false } }

/-- HOLDOVER: a follower with no time path keeps its last rate (R466). -/
def execHoldover (s : State) : Host.Outcome State Fault Refusal :=
  unlessInert s fun s =>
    if (s.lwl.master = s.strap ∧ s.lwl.follower = false) ∨ s.timeLink.isSome = true then s
    else { s with lwl := { s.lwl with holdover := true, locked := false, viaRing := false } }

/-! ### Remote HBM (R469, R470) -/

/-- REMOTE_HBM_REQUEST: another device reads or writes this one's HBM, where BAR4 would serve it; a read is answered with the bytes of
`data`'s length, and a refused one with none. Poison travels with the data: a poisoned write marks its words, and an answer carries the mark of the
words it reads (R285). -/
def execRemoteHbmRequest (link : Fin 4) (kind : RemoteKind) (addr : W64) (data : List Byte) (s : State) :
    Host.Outcome State Fault Refusal :=
  unlessInert s fun s =>
    let l := s.link link.val
    if !l.up || l.isRing link.val then s
    else if s.guarded addr.toNat data.length then (if kind ≠ .read then s else { s with readData := [], lwl := { s.lwl with answerBad := false } })
    else if kind ≠ .read then
      let s := s.hbmWrite addr.toNat data
      if kind = .poisonedWrite then s.poisonHbm addr.toNat data.length else s
    else { s with readData := s.hbmRead addr.toNat data.length, lwl := { s.lwl with answerBad := s.hbmPoisoned addr.toNat data.length } }

/-! ### Halo pushes (R471, R472) -/

/-- REC0 and REC1 stand exchanged as output frame `frame` left them: where the frame has been retired and a later one runs, they have been exchanged
once more since (log 42). -/
def State.swappedAfter (s : State) (c : Nat) (frame : W32) : Bool :=
  let st := s.stream c
  if st.frames.any (fun r => decide (r.frame = frame)) then s.swappedIn c frame
  else (s.ctx c).recSwapped != (st.lastRun.isSome && decide (st.lastRun ≠ some frame))

/-- The HBM address a push entry names, resolved in a context of this device for frame n (R398, R471). -/
def State.haloAddr (s : State) (c : Nat) (trigger : Bool) (frame : W32) (a : W64) : Option Nat :=
  if trigger then s.selectBase c (s.swappedAfter c frame) (s.inputOf c frame) a else s.selectBase c (s.ctx c).recSwapped frame a

/-- Input frame staged (trigger 0), or output frame completed (trigger 1). -/
def State.haloReady (s : State) (h : Halo) (frame : W32) : Bool :=
  let k := s.ctx h.srcCtx.toNat
  if h.trigger then
    frameLe k.outFrame frame && frameLt frame k.nextOut
      && (s.stream h.srcCtx.toNat).frames.all (fun r => decide (r.frame ≠ frame) || (decide (r.done = r.total) && !r.dropped))
  else ((k.frameJob frame).map FrameJob.staged).getD false

/-- The walk of one side of an entry. -/
def Halo.walk (h : Halo) (addr : Nat) (stride : W32) : Walk :=
  { addr := BitVec.ofNat 64 addr, run := h.run.setWidth 32, count1 := h.count, count2 := 1, count3 := 1, stride1 := stride, stride2 := 0, stride3 := 0 }

/-- Destination address and deadline: on another device neither its contexts nor its releases are known here, so what they decide is free
(log 42). -/
def State.haloTarget (s : State) (h : Halo) (frame : W32) : Option Nat × W32 × State :=
  if h.destDev = s.strap then
    let c := h.destCtx.toNat
    let due := if h.trigger then s.releaseAt c (frame + 1) else s.releaseAt c ((s.ctx c).firstOut frame)
    (s.haloAddr c h.trigger frame h.dst, deadlineOf due, s)
  else
    let (w, s) := s.draw
    let (v, s) := s.draw
    let low := h.dst.toNat % 2 ^ 60
    let a := if h.dst.toNat / 2 ^ 60 = 0 then low else w.toNat / 32 * 32 % 2 ^ 60
    (some a, BitVec.ofNat 32 v.toNat, s)

/-- HALO_PUSH: an enabled entry copies its walk for a frame of its source context through a stream mover. A push that no link can carry, whose
walk is not one, or that would reach HBM that only the supervisor and the PWU reach (R355), does not run. -/
def execHaloPush (entry : Fin 16) (frame : W32) (s : State) : Host.Outcome State Fault Refusal :=
  unlessInert s fun s =>
    let h := s.halo entry.val
    let d : Fin 4 := Fin.ofNat 4 h.destDev.toNat
    if !(h.en && s.haloReady h frame && s.reaches d && decide (0 < s.moverRoom)) then s
    else
      let t := s.haloTarget h frame
      match s.haloAddr h.srcCtx.toNat h.trigger frame h.src, t.1 with
      | some a, some b =>
        let src := h.walk a h.srcStride
        let dst := h.walk b h.dstStride
        let sp : Space := if h.destDev = s.strap then .hbm else .remote d
        if src.ok && dst.ok && spaceHolds .hbm src && spaceHolds sp dst && !s.meetsSupervisor .hbm src && !s.meetsSupervisor sp dst then
          t.2.2.post { id := 0, kind := .halo entry.val frame, ctx := h.srcCtx.toNat, live := true, srcSpace := .hbm, src := src,
                       dstSpace := sp, dst := dst, total := src.total, done := 0, deadline := t.2.1, page := none }
        else s
      | _, _ => s

end Sys2Proof.Machine
end

