-- ==== Sys2Proof/Machine/Rings.lean ====
section
/-! DEFINITION. Submission and completion rings, their doorbells, KICK, MSI-X moderation and the BAR4 window (chapter 14). -/

namespace Sys2Proof.Machine

/-! ### Submission rings -/

/-- Records of a completion ring (R381). -/
def CplRing.size (c : CplRing) : Nat := 2 ^ c.log2.toNat

/-- The device reads a ring's TAIL; a missing translation or a TAIL further ahead than the ring is long halts it (R376, R380). -/
def State.readTail (s : State) (r : Nat) : State :=
  let x := s.sq r
  match s.absentIn x.recAddr.toNat 4 with
  | some _ => s.ringFault r
  | none =>
    let t := BitVec.ofNat 32 (leNat (s.hostRead x.recAddr.toNat 4))
    let s := s.setSq r { x with tailSeen := t, lastDesc := if t = x.tailSeen then x.lastDesc else s.dtb }
    if x.size < (t - x.head).toNat then s.ringFault r else s

/-- A ring that may have its next descriptor taken now: enabled, awake, not halted, with descriptors waiting, its completion ring
holding no record (R384), room in its reorder store (R434), a free spore slot (R413), and no descriptor of it that waits for room in the movers (R261). -/
def State.eligible (s : State) (r : Nat) : Bool :=
  let x := s.sq r
  s.hif.en && x.active && decide (x.head ≠ x.tailSeen) && decide ((s.cq x.cq.toNat).held = 0)
    && decide ((x.inflight.filter (fun y => y.done.isSome)).length < 256)
    && !s.lsch.sporeLive.contains (s.lsch.sporeNext % 2 ^ 20)
    && x.inflight.all (fun y => decide (y.state ≠ 1) || y.done.isSome || decide (moverNeed y.cmd ≤ s.moverRoom))

/-- The 128 bytes of a spore record (Table 15.3). -/
def sporeRecord (desc : List Byte) (idx : W32) (sq : Nat) (ctx : Nat) (dtb : W64) : List Byte :=
  desc ++ toLe 4 idx.toNat ++ toLe 1 sq ++ toLe 1 1 ++ toLe 2 ctx ++ toLe 8 dtb.toNat ++ toLe 48 0

/-- HIF takes the descriptor at HEAD: spore record in both copies (R413), then HEAD (R376); a malformed one completes at once (R386). -/
def State.take (s : State) (sq : RingId) : State :=
  let r := sq.val
  let x := s.sq r
  let addr := x.base.toNat + 64 * (x.head.toNat % x.size)
  if (s.absentIn addr 64).isSome || (s.absentIn (x.recAddr.toNat + 8) 4 true).isSome then s.ringFault r
  else
    let l := s.hostRead addr 64
    let cmd := decodeDesc sq x.head s.dtb l
    let h : DescHdr := { sq := sq, idx := x.head, irq := bitOf (l.getD 1 0) 1, ctx := BitVec.ofNat 14 (leAt l 2 2) }
    let slot := s.lsch.sporeNext % 2 ^ 20
    let img := sporeRecord l x.head r (leAt l 2 2 % 2 ^ 14) s.dtb
    let s := (s.hbmWrite (sporeAddr s.lsch.sporeA slot) img).hbmWrite (sporeAddr s.lsch.sporeB slot) img
    let s := { s with lsch := { s.lsch with sporeNext := slot + 1, sporeLive := insertNat slot s.lsch.sporeLive } }
    let s := s.hostWrite (x.recAddr.toNat + 8) (toLe 4 (x.head.toNat + 1))
    let s := s.setSq r
      { x with
        head := x.head + 1
        lastDesc := s.dtb
        inflight := x.inflight ++ [{ idx := x.head, cmd := cmd.getD (.nop h), barrier := bitOf (l.getD 1 0) 0, state := 1,
                                     slot := slot, done := none }] }
    match cmd with
    | some _ => s
    | none => s.complete h (l.getD 0 0) stDescBad

/-- DESCRIPTOR_TAKE: rings with HIPRI are taken ahead of the others (Table 14.11). -/
def execDescriptorTake (sq : RingId) (now : W64) (s : State) : Host.Outcome State Fault Refusal :=
  unlessInert s fun s =>
    let s := s.at_ now
    let ahead := !(s.sq sq.val).hipri && (List.range 64).any (fun r => (s.sq r).hipri && s.eligible r)
    if s.eligible sq.val && !ahead then s.take sq else s

/-- SQ_TAIL_POLL: an awake ring's TAIL is read (R377). -/
def execSqTailPoll (sq : RingId) (now : W64) (s : State) : Host.Outcome State Fault Refusal :=
  unlessInert s fun s =>
    let s := s.at_ now
    let x := s.sq sq.val
    if x.active && !x.sleep then s.readTail sq.val else s

/-- RING_SLEEP, after 64 µs without a new descriptor: EVENT_IDX, then SLEEP = 1, then TAIL once more; a TAIL that moved keeps the ring awake (R377). -/
def execRingSleep (sq : RingId) (s : State) : Host.Outcome State Fault Refusal :=
  unlessInert s fun s =>
    let r := sq.val
    let x := s.sq r
    if x.active && !x.sleep && decide (x.head = x.tailSeen) && decide (x.lastDesc.toNat + 64000 ≤ s.dtb.toNat) then
      if (s.absentIn x.recAddr.toNat 64 true).isSome then s.ringFault r
      else
        let s := s.hostWrite (x.recAddr.toNat + 0x10) (toLe 4 x.tailSeen.toNat)
        let s := s.hostWrite (x.recAddr.toNat + 0x0C) (toLe 4 1)
        let s := s.readTail r
        let y := s.sq r
        if y.halted then s
        else if y.tailSeen = x.tailSeen then s.setSq r { y with sleep := true }
        else s.hostWrite (x.recAddr.toNat + 0x0C) (toLe 4 0)
    else s

/-- KICK: wakes the ring that bits [5:0] name (R379). -/
def execKick (value : W32) (s : State) : Host.Outcome State Fault Refusal :=
  unlessInert s fun s =>
    let r := fieldOf value 5 0
    let x := s.sq r
    if !x.en || x.busy then { s with hif := { s.hif with kickIgnored := true } }
    else if x.sleep then
      if (s.absentIn x.recAddr.toNat 64 true).isSome then s.ringFault r
      else
        let s := s.hostWrite (x.recAddr.toNat + 0x0C) (toLe 4 0)
        (s.setSq r { x with sleep := false, lastDesc := s.dtb }).readTail r
    else s

/-! ### Completion rings -/

/-- The 32 bytes of a record written at index t of a ring of 2^log2 records (Table 14.6, R382). -/
def recordBytes (r : Record) (t : W32) (log2 : Nat) (overflow : Bool) : List Byte :=
  let phase := decide (t.toNat / 2 ^ log2 % 2 = 0)
  toLe 2 r.status.toNat ++ toLe 2 (r.ctx.toNat + put (b2n r.event) 14 + put (b2n phase) 15)
    ++ toLe 4 r.seq.toNat ++ toLe 8 r.dtb.toNat ++ toLe 1 r.op.toNat
    ++ toLe 1 (r.sq.toNat + put (b2n r.device) 6 + put (b2n overflow) 7) ++ toLe 2 r.cause.toNat
    ++ toLe 4 r.info0.toNat ++ toLe 4 r.info1.toNat ++ toLe 4 r.info2.toNat

/-- Completion ring q has a free slot by the HEAD last read (R383). -/
def CplRing.hasRoom (c : CplRing) : Bool := decide ((c.tail - c.headSeen).toNat < c.size)

/-- The records of a ring without room are held, up to 256, and counted as they enter the hold (R384). -/
def State.holdRecords (s : State) (q : Nat) : State :=
  let c := s.cq q
  let n := min 256 c.queue.length
  if c.held < n then (s.setCq q { c with held := n }).count (cntHif 3) (n - c.held) else s

/-- MSI-X moderation after a record (R385); MOD_COUNT = 0 disables signalling. -/
def State.moderate (s : State) (q : Nat) (irq : Bool) : State :=
  let c := s.cq q
  if c.modCount = 0 then s
  else if irq || decide (c.modCount.toNat ≤ c.unsignalled + 1) then
    (s.setCq q { c with unsignalled := 0, firstUnsignalled := none }).msix c.vector
  else s.setCq q { c with unsignalled := c.unsignalled + 1, firstUnsignalled := some (c.firstUnsignalled.getD s.dtb) }

/-- STATE 3 and STATUS in the spore record; its slot is free (R413). -/
def State.sporeDone (s : State) (r : Record) : State :=
  match r.slot with
  | none => s
  | some i =>
    let s := (s.sporeField i 0x54 (toLe 2 r.status.toNat)).sporeField i 0x45 [3]
    { s with lsch := { s.lsch with sporeLive := s.lsch.sporeLive.filter (fun j => decide (j ≠ i)) } }

/-- COMPLETION_RECORD_WRITE: the oldest record goes to host memory, its first word last, then the ring's TAIL and, as R385 states,
MSI-X; without a free slot or a translation the records are held. -/
def execCompletionRecordWrite (cq : RingId) (now : W64) (s : State) : Host.Outcome State Fault Refusal :=
  unlessInert s fun s =>
    let s := s.at_ now
    let q := cq.val
    let c := s.cq q
    match c.queue with
    | [] => s
    | r :: rest =>
      let addr := c.base.toNat + 32 * (c.tail.toNat % c.size)
      if !(c.en || c.busy) || !c.hasRoom || (s.absentIn addr 32 true).isSome || (s.absentIn c.recAddr.toNat 64 true).isSome then s.holdRecords q
      else
        let img := recordBytes r c.tail c.log2.toNat c.overflowNext
        let s := (s.hostWrite (addr + 4) (img.drop 4)).hostWrite addr (img.take 4)
        let s := s.hostWrite (c.recAddr.toNat + 8) (toLe 4 (c.tail.toNat + 1))
        let s := s.setCq q { c with tail := c.tail + 1, queue := rest, held := c.held - 1, overflowNext := false }
        let s := if 0 < c.held then s.holdRecords q else s
        ((s.sporeDone r).moderate q r.irq).cqSettle q

/-- CQ_HEAD_POLL: HEAD is re-read while the ring has no free slot (R383). -/
def execCqHeadPoll (cq : RingId) (s : State) : Host.Outcome State Fault Refusal :=
  unlessInert s fun s =>
    let c := s.cq cq.val
    if c.hasRoom || (s.absentIn c.recAddr.toNat 4).isSome then s
    else s.setCq cq.val { c with headSeen := BitVec.ofNat 32 (leNat (s.hostRead c.recAddr.toNat 4)) }

/-- MSIX_MODERATION_TIMER: MOD_US µs after the first record not yet signalled (R385). -/
def execMsixModerationTimer (cq : RingId) (now : W64) (s : State) : Host.Outcome State Fault Refusal :=
  unlessInert s fun s =>
    let s := s.at_ now
    let c := s.cq cq.val
    match c.firstUnsignalled with
    | none => s
    | some t =>
      if decide (c.modUs ≠ 0) && decide (c.modCount ≠ 0) && decide (t.toNat + 1000 * c.modUs.toNat ≤ s.dtb.toNat) then
        (s.setCq cq.val { c with unsignalled := 0, firstUnsignalled := none }).msix c.vector
      else s

/-! ### Ring configuration -/

/-- A write of SQ_CFG: configuration while EN or BUSY is 1 is ignored with CFG_REJECT (R407); EN follows R489. EN shares the word
with them, so a write that repeats their values changes no configuration and rejects nothing (DEDUCED, log 143). -/
def State.sqCfgWrite (s : State) (r : Nat) (v : W32) : State :=
  let x := s.sq r
  let log2 := BitVec.ofNat 5 (fieldOf v 4 0)
  let cq := BitVec.ofNat 6 (fieldOf v 13 8)
  let differs := decide (log2 ≠ x.log2) || decide (cq ≠ x.cq) || (bitOf v 14 != x.hipri)
  let y : SubRing :=
    if !differs then x
    else if x.en || x.busy then { x with cfgReject := true }
    else { x with log2 := log2, cq := cq, hipri := bitOf v 14 }
  if bitOf v 16 then
    if x.busy then s.setSq r { y with en := true, heldEn := true }
    else if x.en then s.setSq r y
    else (s.setSq r { y with en := true }).sqStart r
  else if x.busy then s.setSq r { y with en := false, heldEn := false }
  else if x.en then s.setSq r { y with en := false, sleep := false, busy := !x.inflight.isEmpty }
  else s.setSq r y

/-- A write of CQ_CFG, as SQ_CFG. -/
def State.cqCfgWrite (s : State) (q : Nat) (v : W32) : State :=
  let c := s.cq q
  let log2 := BitVec.ofNat 5 (fieldOf v 4 0)
  let mc := BitVec.ofNat 8 (fieldOf v 15 8)
  let mu := BitVec.ofNat 10 (fieldOf v 25 16)
  let differs := decide (log2 ≠ c.log2) || decide (mc ≠ c.modCount) || decide (mu ≠ c.modUs)
  let d : CplRing :=
    if !differs then c
    else if c.en || c.busy then { c with cfgReject := true }
    else { c with log2 := log2, modCount := mc, modUs := mu }
  if bitOf v 26 then
    if c.busy then s.setCq q { d with en := true, heldEn := true }
    else if c.en then s.setCq q d
    else s.setCq q (CplRing.start { d with en := true })
  else if c.busy then s.setCq q { d with en := false, heldEn := false }
  else if c.en then s.setCq q { d with en := false, busy := s.cqNeeded q || !c.queue.isEmpty }
  else s.setCq q d

/-- RING_ENABLE: a write of a ring's configuration register (R407, R489). -/
def execRingEnable (completion : Bool) (ring : RingId) (value : W32) (s : State) : Host.Outcome State Fault Refusal :=
  unlessInert s fun s => if completion then s.cqCfgWrite ring.val value else s.sqCfgWrite ring.val value

/-! ### NOP, FENCE and BAR4 -/

/-- NOP completes once taken (Table 14.5). -/
def execNop (h : DescHdr) (s : State) : Host.Outcome State Fault Refusal :=
  descriptor h s fun s => s.complete h opNop stOk

/-- FENCE records the index taken on each ring it names, its own index on its own ring, and completes when all below are complete (R392). -/
def execFence (h : DescHdr) (ringMask : W64) (s : State) : Host.Outcome State Fault Refusal :=
  descriptor h s fun s =>
    let targets := (bitsOf ringMask).map (fun r => (r, if r = h.sq.val then h.idx else (s.sq r).head))
    State.checkFences { s with hif := { s.hif with fences := s.hif.fences ++ [{ hdr := h, targets := targets }] } }

/-- HBM bytes written where BAR4 serves them: a piece inside one 64-B word that is served whole is one write (R373). -/
def State.servedWrite (s : State) (a : Nat) (l : List Byte) : State :=
  if s.guarded a l.length then
    (List.range l.length).foldl (fun s i => if s.guarded (a + i) 1 then s else s.hbmWrite (a + i) [l.getD i 0]) s
  else s.hbmWrite a l

/-- Byte i of a BAR4 access lies in the BAR, whose size is the power of two in force (Table 14.2). -/
def State.inBar4 (s : State) (offset : W64) (i : Nat) : Bool := decide (offset.toNat + i < 2 ^ s.svc.bar4Log2)

/-- BAR4_ACCESS: window onto HBM from HIF_B4_BASE; bytes not served read as ones and discard writes (R373), and so do bytes past the end of the BAR,
which no access can reach (Table 14.1). For a read, `data` gives the length. -/
def execBar4Access (write : Bool) (offset : W64) (data : List Byte) (s : State) : Host.Outcome State Fault Refusal :=
  unlessInert s fun s =>
    let a := s.hif.b4Base.toNat + offset.toNat
    if write then s.servedWrite a ((data.zipIdx.takeWhile (fun p => s.inBar4 offset p.2)).map Prod.fst)
    else { s with readData := (List.range data.length).map (fun i =>
      if !s.inBar4 offset i || s.guarded (a + i) 1 then 0xFF else s.hbmByte (a + i)) }

end Sys2Proof.Machine
end

