-- ==== Sys2Proof/Machine/Status.lean ====
section
/-! DEFINITION. What each register reads (chapters 02 to 22): the live value of every word of the BAR0 map, by block and decoded offset. -/

namespace Sys2Proof.Machine

/-- A word from (value, lowest bit) pairs. -/
def wordOf (l : List (Nat × Nat)) : W32 := BitVec.ofNat 32 ((l.map (fun p => put p.1 p.2)).sum)

/-- Low and high word of a 64-bit value. -/
def lo32 (v : W64) : W32 := v.setWidth 32
def hi32 (v : W64) : W32 := (v >>> 32).setWidth 32

/-- A flag as a field. -/
def flag (b : Bool) (lsb : Nat) : Nat × Nat := (b2n b, lsb)

/-- The flags of a list, from bit `lsb` up. -/
def flags (l : List Bool) (lsb : Nat) : List (Nat × Nat) := l.zipIdx.map (fun p => flag p.1 (lsb + p.2))

/-! ### DEV (Table 18.8) -/

/-- DEV_STAT. -/
def State.devStat (s : State) : W32 :=
  wordOf (flags [s.ready, s.configDefaulted, s.boostSpent, s.passThrough, s.debugUnlocked] 0 ++ [(s.image.toNat, 8)])

/-- Bits of the frond-enable map: a lost position reads 0. -/
def State.frondEnBit (s : State) (f : Nat) : Bool := s.frondEn.getLsbD f && !s.lost f

/-- A power change of a frond is in progress or held. -/
def Frond.powerBusy (x : Frond) : Bool := decide (x.phase ≠ .on) && decide (x.phase ≠ .off)

/-- The row's spare serves a logical position. -/
def DieRow.spareUsed (r : DieRow) : Bool := r.cols.contains 8

/-- Bit i of map m of Table 18.5. -/
def State.mapBit (s : State) (m i : Nat) : Bool :=
  match m with
  | 0 => s.frondEnBit i
  | 1 => s.frondPwr.getLsbD i
  | 2 => bitOf (s.row (i / 9)).failed (i % 9)
  | 3 => (s.row i).spareUsed
  | _ => decide ((s.ctx i).state = .running) || decide ((s.ctx i).state = .stopping)

/-- Bits of a map (Table 18.5). -/
def mapBits (m : Nat) : Nat := [256, 256, 288, 32, 48].getD m 0

/-- Word w of a map. -/
def State.mapWord (s : State) (m w : Nat) : W32 :=
  wordOf (flags ((List.range (min 32 (mapBits m - 32 * w))).map (fun b => s.mapBit m (32 * w + b))) 0)

def State.devRead (s : State) (o : Nat) : W32 :=
  if o = 0x00 then wordOf [(0x7780, 0), (0xB1, 16), (s.strap.toNat, 24)]
  else if o = 0x04 then s.devStat
  else if o = 0x08 then wordOf (flags [s.lockedWr, s.mapRefused, s.byteWr] 0)
  else if o = 0x10 then s.locks.setWidth 32
  else if o = 0x14 then lo32 s.dtb
  else if o = 0x18 then hi32 s.dtb
  else if 0x20 ≤ o ∧ o < 0x40 then s.mapWord 0 ((o - 0x20) / 4)
  else if 0x40 ≤ o ∧ o < 0x60 then s.mapWord 1 ((o - 0x40) / 4)
  else if 0x60 ≤ o ∧ o < 0x80 then
    wordOf (flags ((List.range 32).map (fun b => (s.frond ((o - 0x60) / 4 * 32 + b)).powerBusy)) 0)
  else if 0x80 ≤ o ∧ o < 0xA4 then s.mapWord 2 ((o - 0x80) / 4)
  else if o = 0xA4 then s.mapWord 3 0
  else if o = 0xA8 ∨ o = 0xAC then s.mapWord 4 ((o - 0xA8) / 4)
  else 0

/-! ### HIF (Tables 14.10, 14.11) -/

def SubRing.read (r : SubRing) (o : Nat) : W32 :=
  match o / 4 with
  | 0 => lo32 r.base
  | 1 => hi32 r.base
  | 2 => lo32 r.recAddr
  | 3 => hi32 r.recAddr
  | 4 => wordOf [(r.log2.toNat, 0), (r.cq.toNat, 8), flag r.hipri 14, flag r.en 16]
  | 5 => wordOf (flags [r.busy, r.sleep, r.halted, r.cfgReject] 0)
  | _ => 0

def CplRing.read (c : CplRing) (o : Nat) : W32 :=
  match o / 4 with
  | 0 => lo32 c.base
  | 1 => hi32 c.base
  | 2 => lo32 c.recAddr
  | 3 => hi32 c.recAddr
  | 4 => wordOf [(c.log2.toNat, 0), (c.modCount.toNat, 8), (c.modUs.toNat, 16), flag c.en 26]
  | 5 => wordOf (flags [c.busy, !c.hasRoom, c.overflowSeen, c.cfgReject] 0 ++ [(c.held, 8)])
  | 6 => c.vector.setWidth 32
  | _ => 0

/-- HIF by decoded offset: 0 to 0xF common, 0x1000 up the rings, 0x10000 the MSI-X table, 0x12000 its pending bits. -/
def State.hifRead (s : State) (o : Nat) : W32 :=
  if o = 0 then wordOf [flag s.hif.en 0, (s.hif.evtCq.toNat, 8)]
  else if o = 4 then wordOf [flag s.hif.kickIgnored 0]
  else if o = 8 then lo32 s.hif.b4Base
  else if o = 12 then hi32 s.hif.b4Base
  else if o < 0x1800 then (s.sq ((o - 0x1000) / 32)).read (o % 32)
  else if o < 0x2000 then (s.cq ((o - 0x1800) / 32)).read (o % 32)
  else if o < 0x12000 then s.hif.msixTable.get ((o - 0x10000) / 4) (if o % 16 = 12 then 1 else 0)
  else (s.hif.msixPba >>> (8 * (o - 0x12000))).setWidth 32

/-! ### SVC mailbox (Table 20.8) -/

def State.svcRead (s : State) (supervisor : Bool) (o : Nat) : W32 :=
  let v := s.svc
  if o = 0x00 then v.mbCmd.setWidth 32
  else if o = 0x04 then wordOf [flag v.busy 0, flag v.ignored 1, (v.reason.toNat, 4), (v.result.toNat, 16)]
  else if o = 0x08 then lo32 v.mbAddr
  else if o = 0x0C then hi32 v.mbAddr
  else if o = 0x10 then
    wordOf [(v.stage.toNat, 0), (v.code.toNat, 4), flag v.aBad 8, flag v.bBad 9, (v.trustSkip.toNat, 10), (v.svnFuse.toNat, 16)]
  else if o = 0x18 then lo32 v.nonce
  else if o = 0x1C then hi32 v.nonce
  else if o = 0x20 ∧ supervisor then v.ports.setWidth 32
  else 0

/-! ### LSCH and CTXS (chapters 02, 09, 15, 16) -/

/-- LSCH_OUT_STAT (Table 02.6). -/
def State.outStat (s : State) (n : Nat) : W32 :=
  let g := s.tgOf n
  let on := decide (g.phase ≠ .off)
  let cover := if on then g.eff.coverLead else 0
  wordOf [(cover % 8192, 0), flag (on && decide (cover ≤ s.beamLead n)) 16, flag (s.out n).blReject 17, ((s.governed n).length, 18)]

/-- ROW_MAP of die row r (Table 15.10). -/
def DieRow.map (r : DieRow) : W32 :=
  let shifted := (List.range 8).find? (fun c => decide (r.cols.getD c 15 ≠ 15) && decide ((r.cols.getD c 15).toNat ≠ c))
  wordOf ([(r.failed.toNat, 0), (shifted.getD 8, 9), flag r.spareUsed 13] ++ flags (r.cols.map (fun q => decide (q = 15))) 14)

/-- ROW_MAP as the supervisor writes it (R422, R477): logical columns that are not lost keep their order on the physical columns that have not failed. -/
def DieRow.mapWrite (v : W32) : DieRow :=
  let failed := BitVec.ofNat 9 (fieldOf v 8 0)
  let whole := (List.range 9).filter (fun p => !bitOf failed p)
  let kept := (List.range 8).filter (fun c => !bitOf v (14 + c))
  { failed := failed, cols := (List.range 8).map (fun c => match kept.idxOf? c with
      | some i => BitVec.ofNat 4 (whole.getD i 15)
      | none => 15) }

/-- REPLAY_STAT (Table 15.9). -/
def State.replayStat (s : State) : W32 :=
  wordOf [flag s.lsch.repair.isSome 0, flag s.lsch.svcDown 1, flag s.lsch.ckptOverSeen 2, (s.lsch.lastUs.toNat, 16)]

def State.lsRead (s : State) (o : Nat) : W32 :=
  let l := s.ls
  match o / 4 with
  | 0 => wordOf [flag l.en 0, (l.link.toNat, 1), flag l.ladle 3, flag l.irqEn 4, (l.vec.toNat, 5)]
  | 1 => wordOf (flags [l.paired, l.diverged, l.partnerLost, l.busy] 0)
  | 2 => wordOf [(l.divCtx.toNat, 0), (l.divKind.toNat, 14), (l.divFrond.toNat, 16)]
  | 3 => l.divFrame
  | 4 => wordOf [(l.divStripe.toNat, 0), (l.divStep.toNat, 16)]
  | 5 => lo32 l.divDtb
  | 6 => hi32 l.divDtb
  | 8 => lo32 l.own
  | 9 => hi32 l.own
  | 10 => lo32 l.peer
  | 11 => hi32 l.peer
  | 12 => l.count.setWidth 32
  | _ => 0

def State.lschRead (s : State) (o : Nat) : W32 :=
  if 0x40 ≤ o ∧ o < 0x80 then
    let n := (o - 0x40) / 16
    if o % 16 = 0 then wordOf [((s.out n).beamLead.toNat, 0), flag (s.out n).en 16]
    else if o % 16 = 4 then s.outStat n
    else 0
  else if 0x400 ≤ o ∧ o < 0x800 then
    let x := s.frond ((o - 0x400) / 4)
    wordOf [(x.admitLoad.toNat, 0), (x.admitBurst.toNat, 16)]
  else if 0x2000 ≤ o ∧ o < 0x4000 then ((s.group ((o - 0x2000) / 32)).members >>> (8 * (o % 32))).setWidth 32
  else if 0x4000 ≤ o ∧ o < 0x4400 then
    let g := s.group ((o - 0x4000) / 4)
    wordOf [(g.ctx.toNat, 0), flag g.valid 14]
  else if o = 0x6000 then lo32 s.lsch.sporeA
  else if o = 0x6004 then hi32 s.lsch.sporeA
  else if o = 0x6008 then lo32 s.lsch.sporeB
  else if o = 0x600C then hi32 s.lsch.sporeB
  else if o = 0x6010 then s.lsch.simmerMs.setWidth 32
  else if o = 0x6014 then s.replayStat
  else if o = 0x6018 then wordOf [(s.lsch.repairs.toNat, 0), (s.lsch.unrepaired.toNat, 16)]
  else if 0x6100 ≤ o ∧ o < 0x6180 then (s.row ((o - 0x6100) / 4)).map
  else if 0x7000 ≤ o ∧ o < 0x7034 then s.lsRead (o - 0x7000)
  else 0

/-! ### COMP and TG (Tables 11.8 to 11.10, 12.3 to 12.5) -/

def State.compRead (s : State) (n o : Nat) : W32 :=
  let c := s.comp n
  match o / 4 with
  | 0 => c.frame
  | 1 => wordOf [(c.pending.length, 0), flag c.applied.stage.toneEn 3,
                 ((c.applied.stage.orderList.filter (fun t => (c.applied.layer t).en)).length, 4), flag c.lateSeen 9, flag c.wbOverrunSeen 10]
  | 4 => wordOf [flag c.lid.visible 0, flag (c.lid.visible && c.lid.preset) 1, (c.lidRejects.toNat, 16)]
  | 6 => lo32 c.lidSeq
  | 7 => hi32 c.lidSeq
  | _ => 0

/-- TG_LINE: both halves of a pair scan the line of the lower one. -/
def State.tgLine (s : State) (n : Nat) : W32 :=
  let g := s.tgOf n
  wordOf [(g.line.toNat % 16384, 0), flag (g.running && decide (g.eff.vAct.toNat ≤ g.line.toNat)) 16]

/-- TG_STAT. -/
def State.tgStat (s : State) (n : Nat) : W32 :=
  let g := s.tg n
  let o := s.tgOf n
  wordOf (flags [o.busy, g.updPend, o.running, g.timReject, g.rsNospace, g.lockMiss, g.paired] 0)

/-- The timing shadow as its registers hold it. -/
def Timing.read (t : Timing) (o : Nat) : W32 :=
  match o / 4 with
  | 4 => wordOf [(t.hAct.toNat, 0), (t.hFp.toNat, 16)]
  | 5 => wordOf [(t.hSync.toNat, 0), (t.hBp.toNat, 16), flag t.hPol 31]
  | 6 => wordOf [(t.vAct.toNat, 0), (t.vFp.toNat, 16)]
  | 7 => wordOf [(t.vSync.toNat, 0), (t.vBp.toNat, 16), flag t.vPol 31]
  | 8 => t.khz.setWidth 32
  | 9 => t.bpc.setWidth 32
  | 12 => wordOf [(t.vrrMode.toNat, 0), flag t.vrrSrc 2, (t.fpMax.toNat, 16)]
  | 13 => t.periodNs
  | 14 => wordOf [(t.periodFrac.toNat, 0), (t.delay.toNat, 16)]
  | _ => 0

def State.tgRead (s : State) (n o : Nat) : W32 :=
  let g := s.tg n
  if o = 0 then wordOf [flag g.en 0, flag g.pair 1, flag g.tePol 3]
  else if o = 4 then s.tgStat n
  else if o = 0x40 then s.tgLine n
  else g.shadow.read o

/-! ### Ports (Tables 12.7, 22.4) -/

/-- DPTX_STAT. -/
def Dptx.stat (p : Dptx) : W32 :=
  wordOf [flag p.hpd 0, flag p.linkUp 1, (p.rate.toNat, 2), (p.lanes.toNat, 5), flag p.noBw 7, flag p.laneRev 8, (p.polInv.toNat, 9),
          (p.openLanes.toNat, 13), flag p.shorted 17, flag p.asyncSink 18]

/-- Four bytes of a byte table as a word. -/
def byteWord (t : Tbl Byte) (k : Nat) : W32 := BitVec.ofNat 32 (leNat ((List.range 4).map (fun i => t.get (k + i) 0)))

def Dptx.read (p : Dptx) (o : Nat) : W32 :=
  if o = 0x00 then wordOf [flag p.en 0, (p.maxRate.toNat, 1), (p.maxLanes.toNat, 4), (p.mst.toNat, 6)]
  else if o = 0x04 then p.stat
  else if o = 0x08 then wordOf [(p.faultCode.toNat, 0), (p.faultPin.toNat, 16), flag p.faultOverrun 30, flag p.faultValid 31]
  else if o = 0x10 then wordOf [(p.auxAddr.toNat, 0), (p.auxLen.toNat, 20), (p.auxCmd.toNat, 24)]
  else if o = 0x14 then wordOf [flag p.auxBusy 0, (p.auxReply.toNat, 1), (p.auxCount.toNat, 3), flag p.wrDropped 8]
  else if 0x20 ≤ o ∧ o < 0x30 then byteWord p.auxData (o - 0x20)
  else if 0x100 ≤ o then byteWord p.sdp (o - 0x100)
  else 0

/-- The panel-control words, which lie after the TE words. -/
def State.panelRead32 (s : State) (o : Nat) : W32 :=
  if 0x20 ≤ o ∧ o < 0x30 then
    let p := s.panel ((o - 0x20) / 4)
    wordOf [flag p.pwr 0, flag p.bl 1, (p.blDelay.toNat, 8)]
  else if o = 0x30 then
    wordOf (flags ((List.range 4).map s.panelPwrOut ++ (List.range 4).map s.panelBlOut ++ (List.range 4).map (fun n => (s.panel n).busy)) 0)
  else 0

/-! ### Lorwirel (Tables 17.4 to 17.6) -/

/-- LWL_STAT. -/
def Link.stat (l : Link) : W32 :=
  wordOf [flag l.up 0, flag l.nrz 1, (l.width.toNat, 2), (l.peer.toNat, 4), flag l.miswired 6, flag l.busy 7, flag l.cfgReject 8]

def Link.read (l : Link) (o : Nat) : W32 :=
  match o / 4 with
  | 0 => wordOf (flags [l.en, l.maxRate, l.ring] 0)
  | 1 => l.stat
  | 2 => l.latency.setWidth 32
  | _ => 0

def Halo.read (h : Halo) (o : Nat) : W32 :=
  match o / 4 with
  | 0 => wordOf [flag h.en 0, flag h.trigger 1, (h.destDev.toNat, 2), (h.srcCtx.toNat, 4)]
  | 1 => h.destCtx.setWidth 32
  | 2 => lo32 h.src
  | 3 => hi32 h.src
  | 4 => lo32 h.dst
  | 5 => hi32 h.dst
  | 6 => h.run.setWidth 32
  | 7 => h.count.setWidth 32
  | 8 => h.srcStride
  | 9 => h.dstStride
  | _ => 0

/-- The common registers by decoded offset. -/
def State.lwlRead (s : State) (o : Nat) : W32 :=
  if o = 0 then wordOf [(s.strap.toNat, 0), (s.lwl.master.toNat, 2), (s.lwl.reached.toNat, 4)]
  else if o = 4 then wordOf (flags [s.lwl.locked, s.lwl.holdover, s.lwl.viaRing] 0)
  else if 0x10 ≤ o ∧ o < 0x20 then
    let t := s.tick ((o - 0x10) / 4)
    wordOf [flag t.follow 0, (t.src.toNat, 1)]
  else if 0x100 ≤ o ∧ o < 0x500 then (s.halo ((o - 0x100) / 64)).read (o % 64)
  else 0

/-! ### HBM controllers, power and movers (Tables 10.6, 10.7, 21.2) -/

/-- PWR_STAT. -/
def State.pwrStat (s : State) : W32 :=
  let p := s.power
  wordOf [(p.stage.toNat, 0), flag p.peakActive 3, flag s.svc.peakSupply 4, flag p.droopSeen 5, (p.tj.toNat, 16)]

/-- Plan of a domain in the codes of FROND_STAT.CLK. -/
def Domain.code (d : Domain) : Nat := if d.gated then 0 else if d.stretched then 4 else d.plan.toNat

/-- The power controller's words of the HBM0 block, from 0x800. -/
def State.pwrRead (s : State) (o : Nat) : W32 :=
  if o = 0x800 then wordOf [flag s.power.boostEn 0]
  else if o = 0x804 then s.pwrStat
  else if o = 0x808 then wordOf [(s.power.watts.toNat, 0), (s.power.overTimes.length / 100, 16)]
  else if o = 0x80C then s.power.bits.setWidth 32
  else if 0x840 ≤ o ∧ o < 0x8C0 then
    let d := s.domain ((o - 0x840) / 4)
    wordOf [(d.cap.toNat, 0), (d.code, 4)]
  else 0

/-- The oldest stalled transfer of a mover. -/
def Mover.stalled (m : Mover) : Option Xfer := m.outstanding.find? (fun x => x.page.isSome)

def Mover.read (m : Mover) (o : Nat) : W32 :=
  let c := match m.stalled with
    | some x => x.dst.cursor x.done
    | none => (0, 0, 0, 0)
  match o / 4 with
  | 0 => wordOf [(m.outstanding.length, 0), (m.pending.length, 4), flag m.stalled.isSome 11,
                 flag ((m.stalled.map Xfer.live).getD false) 12, flag m.pageLateSeen 13, ((m.stalled.map Xfer.ctx).getD 0, 14)]
  | 1 => wordOf [(c.1, 0), (c.2.1, 16)]
  | 2 => wordOf [(c.2.2.1, 0), (c.2.2.2, 16), flag m.stalled.isSome 31]
  | _ => 0

/-! ### PMON and LDL (Tables 19.3 to 19.8) -/

/-- Low (w = 0) or high word of counter i. -/
def State.counterWord (s : State) (i w : Nat) : W32 :=
  let v := s.counterNow i
  if w = 0 then v.setWidth 32 else (v >>> 32).setWidth 32

def Sampler.read (x : Sampler) (o : Nat) : W32 :=
  match o / 4 with
  | 0 => wordOf [flag x.en 0, flag x.auto 1, flag x.irqEn 2, flag x.ladle 3, (x.counter.toNat, 4), (x.vec.toNat, 17)]
  | 1 => x.period
  | 2 => wordOf (flags [x.valid, x.overrun, x.cfgReject] 0)
  | 4 => lo32 x.dtb
  | 5 => hi32 x.dtb
  | 6 => x.value.setWidth 32
  | 7 => (x.value >>> 32).setWidth 32
  | 8 => wordOf [(x.ctx.toNat, 0), (x.task.toNat, 16)]
  | 9 => wordOf [(x.cmdIndex.toNat, 0), (x.skid.toNat, 16)]
  | _ => 0

def State.pmonRead (s : State) (o : Nat) : W32 :=
  if o < 0x8400 then s.counterWord (o / 8) (o / 4 % 2)
  else if o = 0x10000 then wordOf [flag s.pmon.perfUser 0]
  else if 0x10100 ≤ o ∧ o < 0x10500 then (s.unit ((o - 0x10100) / 64)).read (o % 64)
  else if 0x20000 ≤ o ∧ o < 0x28400 then (if s.pmon.perfUser then s.counterWord ((o - 0x20000) / 8) (o / 4 % 2) else 0)
  else 0

/-- The registers of Table 19.8, by offset from 0xF000. -/
def Ldl.regs (l : Ldl) (o : Nat) : W32 :=
  if o = 0x00 then wordOf [flag l.linked 2, flag l.acceptRemote 3]
  else if o = 0x04 then wordOf [(l.srcTg.toNat, 0), flag l.srcPin 4, flag l.srcThresh 5, flag l.srcLockstep 6, (l.srcFaults.toNat, 8)]
  else if o = 0x08 then wordOf [flag l.armed 0, flag l.pending 1, flag l.valid 2, flag l.late 3, (l.cause.toNat, 4), (l.missed.toNat, 16)]
  else if o = 0x10 then lo32 l.dtb
  else if o = 0x14 then hi32 l.dtb
  else if 0x20 ≤ o ∧ o < 0x30 then (l.matches_.get ((o - 0x20) / 4) 0).setWidth 32
  else 0

/-- The LDL block: the held snapshot below 0xF000, and the registers. -/
def Ldl.read (l : Ldl) (o : Nat) : W32 := if 0xF000 ≤ o then l.regs (o - 0xF000) else l.snap.get (o / 4) 0

/-! ### PWU (Tables 13.3 to 13.5) -/

def Pwu.read (w : Pwu) (o : Nat) : W32 :=
  match o / 4 with
  | 0 => wordOf [flag w.en 0]
  | 1 => wordOf (flags [w.present, w.trusted, w.geometry, w.active, w.eol, w.coarse, w.syncBusy] 0)
  | 2 => wordOf [(w.used.toNat, 0), (w.remain.toNat, 16)]
  | 4 => lo32 w.samples
  | 5 => hi32 w.samples
  | _ => 0

/-! ### Frond windows (chapters 03 to 05, 08, 09) -/

/-- FROND_STAT (Table 03.7); a lost position reads FAILED alone (R558). -/
def State.frondStat (s : State) (f : Nat) : W32 :=
  let x := s.frond f
  if s.lost f then wordOf [flag true 3]
  else
    wordOf (flags [x.live.isSome, x.simmer.isSome, x.rowOnly, x.failed] 0
      ++ flags ((List.range 8).map (fun i => decide ((x.tile i).state ≠ .free))) 4 ++ [flag x.ptmHalf 12, (s.clkOf f, 16)])

/-- FROND_ID (Table 03.6). -/
def State.frondId (s : State) (f : Nat) : W32 :=
  let r := s.row (f / 8)
  wordOf [(f, 0), (f / 64, 8), (f / 8 % 8, 10), ((r.cols.getD (f % 8) 15).toNat, 13), flag r.spareUsed 17]

/-- Hardware region n: the regions of the contexts that hold some, in the order they took them (R137, log 44). -/
def Frond.hwRegion (x : Frond) (n : Nat) : Option Region := (x.regionOwners.flatMap (fun c => x.regions.get c []))[n]?

/-- The task whose rows hardware region n lies in. -/
def Frond.hwOwner (x : Frond) (n : Nat) : Option Nat := (x.regionOwners.flatMap (fun c => (x.regions.get c []).map (fun _ => c)))[n]?

/-- Every row of a hardware region is full: the tags of its task rows, where its owner's image has them (R124, Table 05.12). -/
def State.hwFull (s : State) (f n : Nat) : Bool :=
  let x := s.frond f
  match x.hwRegion n, (x.hwOwner n).bind (fun c => (s.ctx c).bound.map (fun b => (c, b.image))) with
  | some g, some (c, t) => (List.range g.rows).all (fun i => ((x.placeFor t (liveCtx c) c (g.base + i)).map x.isFull).getD false)
  | _, _ => false

def Frond.pinRead (p : Pin) : W32 := wordOf [(p.base, 0), (p.rows % 8192, 13), flag p.used 27]

def State.circRead (s : State) (f n : Nat) : W32 :=
  match (s.frond f).hwRegion n with
  | some g => wordOf [(g.head, 0), (g.tail, 13), flag (s.hwFull f n) 26]
  | none => 0

def Frond.winRead (x : Frond) (n w : Nat) : W32 :=
  let v := BitVec.ofNat 64 ((x.windows.get n {}).state n)
  if w = 0 then lo32 v else hi32 v

def State.windowRead (s : State) (f o : Nat) : W32 :=
  let x := s.frond f
  if o = 0x00 then s.frondId f
  else if o = 0x04 then s.frondStat f
  else if o = 0x10 then
    wordOf [(x.faultCode.toNat, 0), (x.faultPhase.toNat, 16), (x.faultQueue.toNat, 24), flag x.faultOverrun 30, flag x.faultValid 31]
  else if o = 0x14 then wordOf [(x.faultIndex.toNat, 0), (x.faultVariant.toNat, 16)]
  else if o = 0x18 then lo32 x.faultDtb
  else if o = 0x1C then hi32 x.faultDtb
  else if o = 0x40 then wordOf [(x.cacheSteps.toNat, 0), (x.cacheActive.toNat, 4)]
  else if o = 0x44 then x.segEn.setWidth 32
  else if o = 0x48 then
    wordOf (flags ((List.range 16).map (fun n => decide (x.segs.get n .on = .on))
      ++ (List.range 16).map (fun n => decide (x.segs.get n .on ≠ .on) && decide (x.segs.get n .on ≠ .off))) 0)
  else if o = 0x4C then wordOf (flags [x.segRefused, x.cacheReject] 0)
  else if o = 0x50 then
    wordOf [(x.parityRow.toNat, 0), (x.parityBank.toNat, 13), (x.parityLane.toNat, 19), (x.parityCount.toNat, 22), flag x.parityRemote 24,
            flag x.parityRowpath 25, flag x.parityOverrun 30, flag x.parityValid 31]
  else if o = 0x58 then lo32 x.spillBase
  else if o = 0x5C then hi32 x.spillBase
  else if o = 0x60 then wordOf [(x.row0.toNat, 0), (x.hExt.toNat, 16)]
  else if o = 0x64 then wordOf [(x.rank.toNat, 0), (x.ranks.toNat, 8)]
  else if 0x80 ≤ o ∧ o < 0xA0 then Frond.pinRead (x.pins.get ((o - 0x80) / 4) {})
  else if 0x100 ≤ o ∧ o < 0x200 then (x.sems.get ((o - 0x100) / 4) 0).setWidth 32
  else if 0x200 ≤ o ∧ o < 0x280 then s.circRead f ((o - 0x200) / 4)
  else if 0x300 ≤ o ∧ o < 0x380 then x.winRead ((o - 0x300) / 8) (o / 4 % 2)
  else 0

end Sys2Proof.Machine
end

