-- ==== Sys2Proof/Machine/Ladle.lean ====
section
/-! DEFINITION. Sample units, the ladle trigger and counter dumps (R497 to R505). -/

namespace Sys2Proof.Machine

/-! ### Sample units (R499) -/

/-- A write of SMP_CTL. `enWrite` says that the write reaches the byte of EN; one of EN = 1 with PERIOD 0 or a counter beyond the catalogue is ignored whole,
and a running unit goes on as it was (R499). -/
def State.smpCtlWrite (s : State) (u : Nat) (value : W32) (enWrite : Bool) : State :=
  let x := s.unit u
  let idx := fieldOf value 16 4
  let x := { x with
    auto := bitOf value 1, irqEn := bitOf value 2, ladle := bitOf value 3, counter := BitVec.ofNat 13 idx, vec := BitVec.ofNat 9 (fieldOf value 25 17) }
  if !enWrite then s.setUnit u x
  else if !bitOf value 0 then s.setUnit u { x with en := false }
  else if x.period = 0 ∨ 0x107F < idx then s.setUnit u { s.unit u with cfgReject := true }
  else s.setUnit u { x with en := true, base := (s.counterNow idx).toNat }

/-- SMP_ENABLE. -/
def execSmpEnable (unit : Fin 16) (value : W32) (s : State) : Host.Outcome State Fault Refusal :=
  unlessInert s fun s => s.smpCtlWrite unit.val value true

/-! ### Firing (R502 to R504) -/

/-- A write of LDL_CTL: LINKED and ACCEPT_REMOTE, then ARM, then FIRE (log 45). -/
def State.ldlCtlWrite (s : State) (value : W32) : State :=
  let l := { s.ldl with linked := bitOf value 2, acceptRemote := bitOf value 3 }
  let l := if bitOf value 0 && !l.pending then { l with armed := true } else l
  let s := { s with ldl := l }
  if bitOf value 1 then s.ladleFire 0 false l.linked else s

/-- ARM. -/
def execArm (value : W32) (s : State) : Host.Outcome State Fault Refusal :=
  unlessInert s fun s => s.ldlCtlWrite value

/-- FIRE. -/
def execFire (value : W32) (now : W64) (s : State) : Host.Outcome State Fault Refusal :=
  unlessInert s fun s => (s.at_ now).ldlCtlWrite value

/-- LADLE_IN_EDGE. -/
def execLadleInEdge (now : W64) (s : State) : Host.Outcome State Fault Refusal :=
  unlessInert s fun s =>
    let s := s.at_ now
    if s.ldl.srcPin then s.ladleFire 4 false s.ldl.linked else s

/-- LADLE_FIRE_MESSAGE: source 7, at the instant the message carries; ignored without ACCEPT_REMOTE, discarded once that instant has passed (R503). -/
def execLadleFireMessage (latchAt now : W64) (s : State) : Host.Outcome State Fault Refusal :=
  unlessInert s fun s =>
    let s := s.at_ now
    if !s.ldl.acceptRemote then { s with ldl := s.ldl.miss }
    else if latchAt.toNat < s.dtb.toNat then { s with ldl := { s.ldl with late := true } }
    else { s with ldl := s.ldl.fire 7 false latchAt }

/-- SNAPSHOT fires whether or not the trigger is armed, and completes at the latch (R502, R504). -/
def execSnapshot (h : DescHdr) (linked : Bool) (now : W64) (s : State) : Host.Outcome State Fault Refusal :=
  descriptor h s fun s =>
    let s := (s.at_ now).ladleFire 1 true linked
    { s with ldl := { s.ldl with waiting := s.ldl.waiting ++ [h] } }

/-! ### The latch (Table 19.7) -/

/-- The snapshot set as (LDL offset ÷ 4, word), in rising order. -/
def State.snapshotSet (s : State) : List (Nat × W32) :=
  (List.range 0x2100).map (fun i => (i, s.counterWord (i / 2) (i % 2)))
    ++ (List.range 256).map (fun f => (0x2400 + f, s.frondStat f))
    ++ (List.range 8).map (fun i => (0x2500 + i, if i % 2 = 0 then s.tgLine (i / 2) else (s.comp (i / 2)).frame))
    ++ (List.range 4).map (fun n => (0x2508 + n, (s.port n).stat))
    ++ (List.range 4).map (fun n => (0x250C + n, (s.link n).stat))
    ++ (List.range 64).map (fun r => (0x2540 + r, (s.sq r).head))
    ++ (List.range 64).map (fun q => (0x2580 + q, (s.cq q).tail))
    ++ [(0x25C0, s.replayStat), (0x25C1, s.devStat)]

/-- The latch at instant L: the snapshot set is copied, LADLE_OUT pulses, and the waiting SNAPSHOTs complete with L as their instant. -/
def State.latch (s : State) : State :=
  let l := s.ldl
  let s' := { s with
    dtb := l.pendL
    ldl := { l with pending := false, valid := true, cause := l.pendCause, dtb := l.pendL, waiting := [], snap := ⟨s.snapshotSet⟩ }
    pins := if s.ready then { s.pins with ladleOut := s.pins.ladleOut ++ [l.pendL] } else s.pins }
  let s' := l.waiting.foldl (fun s h => s.complete h opSnapshot stOk) s'
  { s' with dtb := s.dtb }

/-- LADLE_LATCH: the pending instant has come. -/
def execLadleLatch (now : W64) (s : State) : Host.Outcome State Fault Refusal :=
  unlessInert s fun s =>
    let s := s.at_ now
    if s.ldl.pending && decide (s.ldl.pendL.toNat ≤ s.dtb.toNat) then s.latch else s

/-! ### Counter dumps (R505) -/

/-- The dump of the counters that a mask selects, at the present instant. -/
def State.dumpBytes (s : State) (mask : W64) : List Byte :=
  toLe 8 0x7780DC01 ++ toLe 8 s.dtb.toNat ++ toLe 8 mask.toNat ++ List.replicate 40 0
    ++ (bitsOf mask).flatMap (fun b => (List.range 128).flatMap (fun i => toLe 8 (s.counterNow (128 * b + i)).toNat))

/-- COUNTER_DUMP. -/
def execCounterDump (h : DescHdr) (host : Bool) (dst : W64) (blockMask : W64) (s : State) : Host.Outcome State Fault Refusal :=
  descriptor h s fun s =>
    let bytes := 64 + 1024 * (bitsOf blockMask).length
    if 2 ^ 33 ≤ blockMask.toNat || (!host && s.guarded dst.toNat bytes) then s.complete h opCounterDump stDescBad
    else if host && (s.absentIn dst.toNat bytes true).isSome then s.descRingFault h opCounterDump
    else (s.memWrite host dst.toNat (s.dumpBytes blockMask)).complete h opCounterDump stOk

end Sys2Proof.Machine
end

