-- ==== Sys2Proof/Machine/Svc.lean ====
section
/-! DEFINITION. The supervisor's trust (R511 to R520): images, configuration, trust store and debug token in flash; and the mailbox
commands (R308, R519 to R523). -/

namespace Sys2Proof.Machine

/-! ### CRC-32C (R516) -/

/-- One bit of the reflected CRC. -/
def crcBit (c : W32) : W32 := if bitOf c 0 then (c >>> 1) ^^^ 0x82F63B78 else c >>> 1

/-- One byte of the reflected CRC. -/
def crcByte (c : W32) (b : Byte) : W32 :=
  crcBit (crcBit (crcBit (crcBit (crcBit (crcBit (crcBit (crcBit (c ^^^ b.setWidth 32))))))))

/-- CRC-32C: polynomial 0x1EDC6F41, reflected in and out, initial value and final XOR all ones. -/
def crc32c (l : List Byte) : W32 := l.foldl crcByte 0xFFFFFFFF ^^^ 0xFFFFFFFF

/-! ### Flash layout (Table 20.3) -/

def flashImage (i : Nat) : Nat := 0x01000000 * i
def flashConfig : Nat := 0x02000000
def flashTrust : Nat := 0x02800000
def flashToken : Nat := 0x02900000
def flashAdvance : Nat := 0x02901000

/-- The slot at a is not one that a flash error left invalid (R523). -/
def State.slotGood (s : State) (a : Nat) : Bool := !s.xspi.bad.contains a

/-- The slot at a has been written whole. -/
def State.mendSlot (s : State) (a : Nat) : State := { s with xspi := { s.xspi with bad := s.xspi.bad.filter (fun b => decide (b ≠ a)) } }

/-! ### Firmware images (R512 to R514) -/

/-- Body length of an image header. -/
def imageLength (hdr : List Byte) : Nat := leAt hdr 0x14 4

/-- Bytes of the header that Table 20.4 does not name. -/
def imageReserved (hdr : List Byte) : List Byte :=
  (hdr.drop 0x04).take 4 ++ (hdr.drop 0x11).take 3 ++ (hdr.drop 0xDD).take 3 ++ (hdr.drop 0x164).take (0x1000 - 0x164)

/-- An image is well formed: MAGIC, LENGTH, SVN, and zero in every byte not named (R512). -/
def imageForm (hdr : List Byte) : Bool :=
  decide (leAt hdr 0 4 = 0x7780F1A0) && decide (1 ≤ imageLength hdr) && decide (imageLength hdr ≤ 16773120) && decide (leAt hdr 0x10 1 ≤ 64)
    && (imageReserved hdr).all (fun b => decide (b = 0))

/-- ROOT_KEY is the fused root key and signed the header (R513 step 1). -/
def imageSigned (hdr : List Byte) : Bool :=
  let key := (hdr.drop 0x58).take 133
  decide (Config.sha512 key = Config.rootKeyHash) && signedBy key (hdr.take 0xE0) ((hdr.drop 0xE0).take 132)

/-- The body matches its digest. -/
def imageBody (hdr body : List Byte) : Bool := decide (Config.sha512 body = (hdr.drop 0x18).take 64)

/-- Header and body of flash image i. -/
def State.imageHdr (s : State) (i : Nat) : List Byte := s.flashRead (flashImage i) 0x1000
def State.imageBytes (s : State) (i : Nat) : List Byte := s.flashRead (flashImage i + 0x1000) (imageLength (s.imageHdr i))

/-- The ROM runs image i (R513 step 1, R514, R515). -/
def State.imageOk (s : State) (i : Nat) : Bool :=
  let h := s.imageHdr i
  s.slotGood (flashImage i) && decide (leAt h 0 4 = 0x7780F1A0) && decide (1 ≤ imageLength h) && decide (imageLength h ≤ 16773120) && imageSigned h && imageBody h (s.imageBytes i) && decide (s.svc.svnFuse.toNat ≤ leAt h 0x10 1)

/-! ### Trust store (R517) -/

/-- Entry k of a trust store. -/
def trustEntry (l : List Byte) (k : Nat) : List Byte := (l.drop (0x100 + 320 * k)).take 320

/-- An entry's key is endorsed by the root key, and its role is defined. -/
def entryOk (e : List Byte) : Bool := decide (leAt e 0 4 ≤ 4) && signedBy Config.rootKey (e.take 0xA0) ((e.drop 0xA0).take 132)

/-- The entries of the trust store in flash; none when its header fails. -/
def State.trustRaw (s : State) : List (List Byte) :=
  let h := s.flashRead flashTrust 0x100
  let n := leAt h 4 4
  if s.slotGood flashTrust = true ∧ leAt h 0 4 = 0x77807A57 ∧ n ≤ 64 then
    let l := s.flashRead flashTrust (0x100 + 320 * n)
    if (crc32c (l.drop 0x100)).toNat = leAt h 8 4 then (List.range n).map (trustEntry l) else []
  else []

/-- A trust store of these entries. -/
def trustBytes (l : List (List Byte)) : List Byte :=
  toLe 4 0x77807A57 ++ toLe 4 l.length ++ toLe 4 (crc32c l.flatten).toNat ++ List.replicate 0xF4 0 ++ l.flatten

/-- A verified entry. -/
def parseTrust (e : List Byte) : TrustEntry :=
  { role := BitVec.ofNat 32 (leAt e 0 4), id := BitVec.ofNat 32 (leAt e 4 4), key := (e.drop 8).take 133 }

/-- The entries that verify are held; the others are counted (R517). TRUST_SKIP has 6 bits: a count of 64 leaves it free (log 47). -/
def State.takeTrust (s : State) (l : List (List Byte)) : State :=
  let n := (l.filter (fun e => !entryOk e)).length
  let (skip, s) := if n < 64 then (BitVec.ofNat 6 n, s) else let (w, s) := s.draw; (BitVec.ofNat 6 w.toNat, s)
  { s with svc := { s.svc with trust := (l.filter entryOk).map parseTrust, trustSkip := skip } }

/-! ### Configuration block (R516) -/

/-- LENGTH of a configuration block. -/
def configLength (h : List Byte) : Nat := leAt h 4 4

/-- The header's form. -/
def configForm (h : List Byte) : Bool :=
  decide (leAt h 0 4 = 0x7780C0F6) && decide (0x100 ≤ configLength h) && decide (configLength h ≤ 8 * 2 ^ 20)

/-- CHECK of a block. -/
def configCheck (l : List Byte) : Bool := decide ((crc32c (l.drop 0x100)).toNat = leAt l 8 4)

/-- The configuration key that a block names. -/
def State.configKey (s : State) (l : List Byte) : Option TrustEntry :=
  s.svc.trust.find? (fun e => decide (e.role = 3) && decide (e.id.toNat = leAt l 0xC 4))

/-- SIG of a block by a key. -/
def configSigned (e : TrustEntry) (l : List Byte) : Bool := signedBy e.key (l.take 0x10 ++ l.drop 0x100) ((l.drop 0x10).take 132)

/-- The block in flash, where its header is well formed. -/
def State.configBlock (s : State) : List Byte :=
  let h := s.flashRead flashConfig 0x100
  s.flashRead flashConfig (if configForm h then configLength h else 8 * 2 ^ 20)

/-- The block in flash passes (R516). -/
def State.configOk (s : State) : Bool :=
  let l := s.configBlock
  s.slotGood flashConfig && configForm (l.take 0x100) && configCheck l && ((s.configKey l).map (fun e => configSigned e l)).getD false

/-! ### The mailbox (R521, R522) -/

/-- The command that waits in the mailbox, when its OP is `op` and the supervisor serves; in recovery it serves ATTEST, whose report says so (Table 20.7,
log 47); its buffer's first n bytes must be reachable
at a 64-B-aligned address (log 47). -/
def mailbox (op : Byte) (n : Nat) (s : State) (k : State → List Byte → State) : Host.Outcome State Fault Refusal :=
  unlessInert s fun s =>
    if !((s.ready || (s.svc.recovery && decide (op = 2))) && s.svc.busy && decide (s.svc.mbCmd = op)) || s.lsch.svcDown then s
    else if s.svc.mbAddr.toNat % 64 ≠ 0 ∨ (s.absentIn s.svc.mbAddr.toNat n).isSome then s.mbRefuse 5
    else k s (s.hostRead s.svc.mbAddr.toNat n)

/-- A write of SVC_MB_CMD: ignored while a command is in progress. An OP that Table 20.9 does not name ends at once, or when the supervisor has restarted
(R411). -/
def State.mbCmdWrite (s : State) (op : Byte) : State :=
  if s.svc.busy then { s with svc := { s.svc with ignored := true } }
  else
    let s := { s with svc := { s.svc with mbCmd := op, busy := true } }
    if mbKnown op || s.lsch.svcDown then s else s.mbUnknown

/-- A flash write of a mailbox command: it lands, or a flash error (a free choice) leaves the slot of n bytes at a invalid and refuses the command
with REASON 6 (R523). -/
def State.mbFlash (s : State) (a n : Nat) (l : List Byte) : State :=
  let (w, s) := s.draw
  if bitOf w 0 && !s.xspi.sound then State.mbRefuse { s with xspi := { s.xspi with flash := s.xspi.flash.forget a (a + n), bad := insertNat a s.xspi.bad } } 6
  else ((s.flashWrite a l).mendSlot a).mbDone stOk 0

/-! ### LID (R308) -/

/-- Fields of a lid command that have no meaning otherwise: the output, action and space, and for a load the image and its place (Table 11.7). -/
def State.lidForm (s : State) (l : List Byte) : Bool :=
  let w := leAt l 0x20 2
  let h := leAt l 0x22 2
  let t := (s.tgOf (leAt l 4 1)).ownTiming
  decide (leAt l 4 1 ≤ 3) && decide (leAt l 5 1 ≤ 2)
    && (decide (leAt l 5 1 ≠ 2)
        || (decide (leAt l 6 1 ≤ 1) && decide (1 ≤ w) && decide (w ≤ 2048) && decide (1 ≤ h) && decide (h ≤ 512)
            && decide (leAt l 0x24 2 + w ≤ t.hAct.toNat) && decide (leAt l 0x26 2 + h ≤ t.vAct.toNat)
            && (List.range 9).all (fun i => coefOk (BitVec.ofNat 32 (leAt l (0x28 + 4 * i) 4)))
            && !(decide (leAt l 6 1 = 0) && s.guarded (leAt l 0x18 8) (4 * w * h))
            && !(decide (leAt l 6 1 = 1) && (s.absentIn (leAt l 0x18 8) (4 * w * h)).isSome)))

/-- The image bytes of a lid command. -/
def State.lidImage (s : State) (l : List Byte) : List Byte :=
  s.memRead (decide (leAt l 6 1 = 1)) (leAt l 0x18 8) (4 * leAt l 0x20 2 * leAt l 0x22 2)

/-- The lid as an accepted command makes it. -/
def State.lidNew (s : State) (old : Lid) (l : List Byte) : Lid :=
  match leAt l 5 1 with
  | 0 => { old with visible := false }
  | 1 => { old with visible := true }
  | _ =>
    { visible := true, preset := false, w := leAt l 0x20 2, h := leAt l 0x22 2, x := leAt l 0x24 2, y := leAt l 0x26 2,
      gam := (List.range 9).map (fun i => BitVec.ofNat 32 (leAt l (0x28 + 4 * i) 4)), image := (⟨[]⟩ : Mem).write 0 (s.lidImage l) }

/-- A rejected lid command is counted on the output it names. -/
def State.lidReject (s : State) (n : Nat) (reason : BitVec 4) : State :=
  let c := s.comp n
  (s.setComp n { c with lidRejects := satAdd c.lidRejects 1 }).mbDone stLidReject reason

/-- LID: the conditions of R308 in their order; a MAGIC that does not match has no REASON of its own, so that is free (log 47). -/
def execLid (s : State) : Host.Outcome State Fault Refusal :=
  mailbox 1 320 s fun s l =>
    let n := leAt l 4 1
    if !s.lidForm l then s.mbRefuse 5
    else if leAt l 0 4 ≠ 0x778011D0 then let (w, s) := s.draw; s.lidReject n (BitVec.ofNat 4 w.toNat)
    else if leAt l 8 8 ≠ s.svc.nonce.toNat ∨ leAt l 0x10 8 ≤ (s.comp n).lidSeq.toNat then s.lidReject n 4
    else if leAt l 5 1 = 2 ∧ Config.sha512 (s.lidImage l) ≠ (l.drop 0x50).take 64 then s.lidReject n 3
    else if !(s.trustKeys 2).any (fun k => signedBy k (l.take 0x90) ((l.drop 0x90).take 132)) then s.lidReject n 1
    else
      let c := s.comp n
      (s.setComp n { c with lidNext := some (s.lidNew (c.lidNext.getD c.lid) l), lidSeq := BitVec.ofNat 64 (leAt l 0x10 8) }).mbDone stOk 0

/-! ### ATTEST (R519) -/

/-- Insertion of a package into a rising list. -/
def insertPkg (b : Bound) : List Bound → List Bound
  | [] => [b]
  | c :: r => if b.image.pkgId.toNat < c.image.pkgId.toNat then b :: c :: r else if b.image.pkgId = c.image.pkgId then c :: r else c :: insertPkg b r

/-- The bound packages in ascending PKG_ID order, at most 64; a package bound to several contexts is measured by the lowest of them. -/
def State.packages (s : State) : List Bound := (s.bounds.foldl (fun l p => insertPkg p.2 l) []).take 64

/-- PKG_ID and measurement of a package: the SHA-512 of the image and of its pinned copy. -/
def State.measure (s : State) (b : Bound) : List Byte :=
  toLe 8 b.image.pkgId.toNat ++ Config.sha512 (s.hbmRead b.addr.toNat b.bytes.toNat ++ s.hbmRead b.pinned.toNat b.image.pBytes.toNat)

/-- The report less its signature (Table 20.7). -/
def State.report (s : State) (nonce : List Byte) : List Byte :=
  let l := s.packages
  toLe 4 0x7780A77E ++ toLe 1 (b2n s.debugUnlocked + 2 * b2n s.configDefaulted + 4 * b2n s.svc.recovery)
    ++ toLe 1 s.svc.svnFuse.toNat ++ [s.svc.imageSvn] ++ toLe 1 s.image.toNat ++ toLe 1 l.length ++ List.replicate 7 0
    ++ takePad 64 0 nonce ++ toLe 8 s.dtb.toNat
    ++ takePad 64 0 s.svc.imageDigest ++ takePad 64 0 s.svc.configDigest ++ takePad 64 0 (Config.sha512 (trustBytes s.trustRaw))
    ++ takePad 133 0 Config.deviceKey ++ List.replicate 3 0 ++ takePad 132 0 Config.deviceCert ++ List.replicate 4 0
    ++ l.flatMap (fun b => takePad 72 0 (s.measure b))

/-- ATTEST. -/
def execAttest (s : State) : Host.Outcome State Fault Refusal :=
  mailbox 2 64 s fun s nonce =>
    let l := s.report nonce
    let l := l ++ takePad 132 0 (Config.deviceSign (Config.sha512 l))
    if (s.absentIn s.svc.mbAddr.toNat l.length true).isSome then s.mbRefuse 5
    else (s.hostWrite s.svc.mbAddr.toNat l).mbDone stOk 0

/-! ### Commands that write flash (R520, R522) -/

/-- FW_WRITE: over the image not running. -/
def execFwWrite (s : State) : Host.Outcome State Fault Refusal :=
  mailbox 3 0x1000 s fun s h =>
    let n := imageLength h
    if !imageForm h || (s.absentIn (s.svc.mbAddr.toNat + 0x1000) n).isSome then s.mbRefuse 5
    else
      let body := s.hostRead (s.svc.mbAddr.toNat + 0x1000) n
      if !imageSigned h then s.mbRefuse 1
      else if !imageBody h body then s.mbRefuse 3
      else if leAt h 0x10 1 < s.svc.svnFuse.toNat then s.mbRefuse 2
      else s.mbFlash (flashImage (1 - s.image.toNat)) 0x1000000 (h ++ body)

/-- The store with an entry added, or in place of the one of its ID. -/
def addEntry (e : List Byte) (l : List (List Byte)) : List (List Byte) :=
  if l.any (fun x => decide (leAt x 4 4 = leAt e 4 4)) then l.map (fun x => if leAt x 4 4 = leAt e 4 4 then e else x) else l ++ [e]

/-- The store with changed entries, at once and in flash. -/
def State.storeTrust (s : State) (l : List (List Byte)) : State := (s.takeTrust l).mbFlash flashTrust 0x100000 (trustBytes l)

/-- TRUST_UPDATE. -/
def execTrustUpdate (s : State) : Host.Outcome State Fault Refusal :=
  mailbox 4 320 s fun s e =>
    let l := s.trustRaw
    match Config.trustRemoval e with
    | some id => s.storeTrust (l.filter (fun x => decide (leAt x 4 4 ≠ id.toNat)))
    | none =>
      if 4 < leAt e 0 4 then s.mbRefuse 7
      else if !entryOk e then s.mbRefuse 1
      else if 64 < (addEntry e l).length then s.mbRefuse 5
      else s.storeTrust (addEntry e l)

/-- DEBUG_TOKEN: stored as it is; it is judged at the next boot. An erased slot reads all ones. -/
def execDebugToken (s : State) : Host.Outcome State Fault Refusal :=
  mailbox 5 256 s fun s l => s.mbFlash flashToken 0x1000 (if Config.eraseRequest l then List.replicate 0x1000 0xFF else l)

/-- SVN_ADVANCE. -/
def execSvnAdvance (s : State) : Host.Outcome State Fault Refusal :=
  mailbox 6 0x1000 s fun s l =>
    match Config.advanceSeq l with
    | none => s.mbRefuse 1
    | some q => if q ≠ s.svc.imageSeq then s.mbRefuse 4 else s.mbFlash flashAdvance 0x1000 l

/-- CONFIG_WRITE. -/
def execConfigWrite (s : State) : Host.Outcome State Fault Refusal :=
  mailbox 7 0x100 s fun s h =>
    if !configForm h || (s.absentIn s.svc.mbAddr.toNat (configLength h)).isSome then s.mbRefuse 5
    else
      let l := s.hostRead s.svc.mbAddr.toNat (configLength h)
      if !configCheck l then s.mbRefuse 3
      else match s.configKey l with
        | none => s.mbRefuse 7
        | some e => if configSigned e l then s.mbFlash flashConfig 0x800000 l else s.mbRefuse 1

/-! ### XSPI (R480, R523) -/

/-- A write of an XSPI word: a command register is posted, or dropped while BUSY is 1; SEC_LOCK stops the ones that write or erase. What an
accepted one leaves in the flash is not given, so the flash is unknown after it. -/
def State.xspiWrite (s : State) (w : Nat) (value : W32) : State :=
  let x := s.xspi
  let k := Config.xspiWord w
  if k = 0 then s
  else if k = 1 then
    if bitOf value Config.xspiBits.2 then { s with xspi := { x with wrDropped := false } } else s
  else if k = 3 ∧ bitOf s.locks 0 = true then { s with lockedWr := true }
  else if x.busy then { s with xspi := { x with wrDropped := true } }
  else
    let y := { x with regs := x.regs.set w value, busy := true }
    { s with xspi := if k = 3 then { y with flash := {}, epoch := x.epoch + 1, bad := [] } else y }

/-- What an XSPI word reads. -/
def State.xspiRead (s : State) (w : Nat) : W32 :=
  let k := Config.xspiWord w
  if k = 0 then 0
  else if k = 1 then wordOf [flag s.xspi.busy Config.xspiBits.1, flag s.xspi.wrDropped Config.xspiBits.2]
  else s.xspi.regs.get w 0

/-- XSPI_OP_COMPLETE. -/
def execXspiOpComplete (s : State) : Host.Outcome State Fault Refusal :=
  unlessInert s fun s => { s with xspi := { s.xspi with busy := false } }

end Sys2Proof.Machine
end

