-- ==== Sys2Proof/Machine/Reset.lean ====
section
/-! DEFINITION. The five resets (R506 to R509, Table 20.2) and the boot sequence (R510 to R517, R520). -/

namespace Sys2Proof.Machine

/-! ### Resets (R506, R507) -/

/-- Fronds after a reset: idle, with undefined contents and empty tags. -/
def State.resetFronds (s : State) : Tbl Frond :=
  ⟨(List.range 256).map (fun f => (f, ({ epoch := (s.frond f).epoch + 1 } : Frond)))⟩

/-- What every full and warm reset keeps: the fuses, the flash, the world outside the device, and the command queue. The TE inputs are sampled anew: their
levels are free (R332, log 1). -/
def State.restart (s : State) : State :=
  let d : State := {}
  { d with
    strap := s.strap, fresh := s.fresh + 1, memEpoch := s.memEpoch, host := s.host, absent := s.absent, readOnly := s.readOnly
    boostSpent := s.boostSpent, pins := { d.pins with te := (Config.freeWord s.fresh).setWidth 4 }, pending := s.pending
    fronds := s.resetFronds
    dptx := ⟨(List.range 4).map (fun n => (n, ({ hpd := (s.port n).hpd, asyncSink := (s.port n).asyncSink } : Dptx)))⟩
    eeprom := s.eeprom
    svc := { d.svc with svnFuse := s.svc.svnFuse, boots := s.svc.boots }
    xspi := { d.xspi with flash := s.xspi.flash, epoch := s.xspi.epoch, bad := s.xspi.bad, sound := s.xspi.sound }, pcie := s.pcie
    lwl := { d.lwl with master := s.strap }
    power := { d.power with bits := s.power.bits } }

/-- A full reset: HBM and the wear counters are undefined from here on, the DTB is zero, and the PCIe link trains again. -/
def State.fullReset (s : State) : State :=
  { s.restart with memEpoch := s.memEpoch + 1, pcie := { s.pcie.resetConfig with link := false, enabled := false } }

/-- What a wear unit keeps through a warm reset: its counters and whose they are (R507, R368). -/
def Pwu.keep (w : Pwu) : Pwu :=
  { samples := w.samples, heldFor := w.heldFor, counters := w.counters, coarse := w.coarse, gains := w.gains, frozen := w.frozen
    eol := w.eol, used := w.used, remain := w.remain, lastSlot := w.lastSlot }

/-- A warm reset: HBM, the wear counters, the DTB and the size of BAR4, which is the configuration space's, are kept. -/
def State.warmReset (s : State) : State :=
  let r := s.restart
  { r with
    hbm := s.hbm, hbmPoison := s.hbmPoison, dtb := s.dtb, dtbSlew := s.dtbSlew, dtbFrac := s.dtbFrac
    hbmCtl := ⟨(List.range 4).map (fun k => (k, ({ trained := (s.hbmc k).trained } : HbmCtl)))⟩
    pwu := ⟨(List.range 4).map (fun n => (n, (s.wear n).keep))⟩
    svc := { r.svc with warmBoot := true, bar4Log2 := s.svc.bar4Log2 } }

/-- POWER_ON_RESET: DEV_ID is sampled; it alone ends the state after a thermal trip (R460, R506, R535). -/
def execPowerOnReset (strap : BitVec 2) (s : State) : Host.Outcome State Fault Refusal := .next (State.fullReset { s with strap := strap })

/-- PERST_N. -/
def execPerstN (s : State) : Host.Outcome State Fault Refusal := unlessInert s State.fullReset

/-- RESET_N, asserted for at least 10 µs. -/
def execResetN (s : State) : Host.Outcome State Fault Refusal := unlessInert s State.fullReset

/-- A write of DEV_RESET (R493). -/
def State.resetWrite (s : State) (value : W32) : State :=
  if fieldOf value 31 24 = 0x5A ∧ bitOf value 0 = true then s.warmReset else s

/-- WARM: a write of DEV_RESET. -/
def execWarm (value : W32) (s : State) : Host.Outcome State Fault Refusal := unlessInert s fun s => s.resetWrite value

/-! ### Function level reset (R507, R509) -/

/-- A frond after an FLR: work, pins and contents are gone; a failure and a lane fence stay. -/
def Frond.flr (x : Frond) : Frond := { rowOnly := x.rowOnly, failed := x.failed, epoch := x.epoch + 1, spillBase := x.spillBase }

/-- Failures still to be repaired: those declared, and those of a repair the FLR discards. -/
def Lsch.owed (l : Lsch) : List (Nat × BitVec 4 × BitVec 4 × W64) :=
  match l.repair with
  | none => l.declared
  | some r => l.declared ++ r.failed.map (fun e => (e.1, e.2.1, e.2.2, r.start))

/-- An FLR of a device that is ready: what the host sees is cleared, and the device goes on (log 48). -/
def State.funcReset (s : State) : State :=
  let d : State := {}
  { s with
    passThrough := s.passThrough, lockedWr := false, mapRefused := false, byteWr := false
    locks := s.locks &&& 0b10011, frondEn := d.frondEn, frondPwr := d.frondPwr
    readData := [], hostShadow := {}, writeShadow := {}
    pageReqs := [], invalDone := 0, commitCount := 0, commits := []
    hif := { d.hif with configEvent := s.hif.configEvent, bootLost := s.hif.bootLost }, pcie := s.pcie.resetConfig
    ctxs := {}
    lsch := { d.lsch with sporeA := s.lsch.sporeA, sporeB := s.lsch.sporeB, simmerMs := s.svc.simmerMs, svcDown := s.lsch.svcDown
                          declared := s.lsch.owed, deferred := s.lsch.deferred }
    ls := {}
    fronds := ⟨(List.range 256).map (fun f => (f, (s.frond f).flr))⟩
    movers := {}
    comps := ⟨(List.range 4).map (fun n => (n, ({ lidSeq := (s.comp n).lidSeq, passThrough := (s.comp n).passThrough } : Comp)))⟩
    tgs := {}, raster := {}
    dptx := ⟨(List.range 4).map (fun n => (n, ({ hpd := (s.port n).hpd, asyncSink := (s.port n).asyncSink } : Dptx)))⟩
    dprx := {}, panels := {}
    pwu := ⟨(List.range 4).map (fun n => (n, { s.wear n with en := true, active := false, syncBusy := false, due := false, shot := none }))⟩
    pmon := { d.pmon with counters := s.pmon.counters, residue := s.pmon.residue }
    ldl := {}
    svc := { s.svc with mbCmd := 0, busy := false, ignored := false, reason := 0, result := 0, mbAddr := 0 }
    lwl := { d.lwl with master := s.strap }
    power := { s.power with
      boostEn := false, droopSeen := false, liteOrder := []
      domains := ⟨(List.range 32).map (fun k => (k, { s.domain k with cap := 0, capEff := 0 }))⟩ } }

/-- What every frond has run is counted. -/
def State.meterAll (s : State) : State := (List.range 32).foldl State.meterDomain s

/-- FLR: what tasks have run up to it is counted (R494); before READY it resets only the PCIe configuration space (R509). -/
def execFlr (s : State) : Host.Outcome State Fault Refusal :=
  unlessInert s fun s => if s.ready then s.meterAll.funcReset else { s with pcie := s.pcie.resetConfig }

/-! ### The boot sequence (R513) -/

/-- The images in the order the ROM tries them (R514). -/
def State.imageOrder (s : State) : Nat × Nat := if leAt (s.imageHdr 0) 8 8 < leAt (s.imageHdr 1) 8 8 then (1, 0) else (0, 1)

/-- Image i is marked bad. -/
def State.markBad (s : State) (i : Nat) : State :=
  if i = 0 then { s with svc := { s.svc with aBad := true } } else { s with svc := { s.svc with bBad := true } }

/-- Image i runs (R513 step 1). -/
def State.runImage (s : State) (i : Nat) : State :=
  let h := s.imageHdr i
  { s with
    image := BitVec.ofNat 2 i
    svc := { s.svc with imageSvn := BitVec.ofNat 8 (leAt h 0x10 1), imageSeq := BitVec.ofNat 64 (leAt h 8 8), imageDigest := Config.sha512 (s.imageBytes i) } }

/-- Step 1: the image that runs, or none (R514). -/
def State.bootImage (s : State) : Option State :=
  let (i, j) := s.imageOrder
  if s.imageOk i then some (s.runImage i)
  else
    let s := s.markBad i
    if s.imageOk j then some (s.runImage j) else none

/-- Both images are bad: recovery, with the PCIe function enabled (R514). No image runs and no configuration is read, so what a report says of them is free
(log 47). -/
def State.recover (s : State) : State :=
  let free := readBytes (Config.freeByte 704 s.fresh) 0
  { s with
    fresh := s.fresh + 1, pcie := { s.pcie with link := true, enabled := true }
    svc := { s.svc with
      aBad := true, bBad := true, recovery := true, stage := 0xF, booting := false
      imageDigest := free 64, configDigest := (free 128).drop 64, imageSvn := (free 129).getD 128 0 } }

/-- Step 2: a pending advance for the running image takes effect, and its slot is erased (R515). -/
def State.bootAdvance (s : State) : State :=
  match Config.advanceSeq (s.flashRead flashAdvance 0x1000) with
  | some q =>
    if q = s.svc.imageSeq ∧ s.slotGood flashAdvance = true then
      State.flashWrite { s with svc := { s.svc with svnFuse := BitVec.ofNat 7 (max s.svc.svnFuse.toNat (min 64 s.svc.imageSvn.toNat)) } } flashAdvance (List.replicate 0x1000 0xFF)
    else s
  | none => s

/-- A preset lid of a valid configuration block (Table 20.6). -/
def presetLid (k : Nat) (l : List Byte) : Lid :=
  { preset := true, w := Config.presetField k 0 l, h := Config.presetField k 1 l, x := Config.presetField k 2 l, y := Config.presetField k 3 l
    gam := (List.range 9).map (fun i => BitVec.ofNat 32 (Config.presetField k (4 + i) l))
    image := (⟨[]⟩ : Mem).write 0 ((Config.presetImage k l).take (4 * Config.presetField k 0 l * Config.presetField k 1 l)) }

/-- Step 3: the trust store, and the configuration block or the ROM defaults (R516, R517, Table 20.6). -/
def State.bootConfig (s : State) : State :=
  let s := s.takeTrust s.trustRaw
  let l := s.configBlock
  let v := { s.svc with configDigest := Config.sha512 l }
  if s.configOk then
    let v := { v with
      peakSupply := decide (Config.configField 0 l % 2 = 1), lwlEn := BitVec.ofNat 4 (Config.configField 1 l)
      simmerMs := BitVec.ofNat 8 (Config.configField 2 l), derate := min 10 (Config.configField 3 l)
      bar4Log2 := if v.warmBoot then v.bar4Log2 else max 28 (min 37 (Config.configField 4 l)), laneMap := (List.range 4).map (fun n => BitVec.ofNat 8 (Config.configField (5 + n) l))
      presets := (List.range 8).map (fun k => if Config.presetHeld k l then some (presetLid k l) else none) }
    { s with svc := v, configDefaulted := false, lsch := { s.lsch with simmerMs := v.simmerMs } }
  else { s with svc := v, configDefaulted := true, hif := { s.hif with configEvent := true }, lsch := { s.lsch with simmerMs := v.simmerMs } }

/-- Columns of a row at boot: the good physical columns in ascending order (R13, R423). -/
def DieRow.selfTest (failed : BitVec 9) : DieRow :=
  let good := (List.range 9).filter (fun p => !bitOf failed p)
  { cols := (List.range 8).map (fun c => BitVec.ofNat 4 (good.getD c 15)), failed := failed }

/-- Steps 4 and 5: HBM is trained and the fronds are tested. -/
def State.bootTest (s : State) (sense : BootSense) : State :=
  let failed (r : Nat) : BitVec 9 := (sense.failed.filter (fun e => decide (e.1.val = r))).foldl (fun m e => m ||| e.2) 0
  { s with
    hbmCtl := ⟨(List.range 4).map (fun k => (k, { s.hbmc k with trained := true }))⟩
    rows := ⟨(List.range 32).map (fun r => (r, DieRow.selfTest (failed r)))⟩ }

/-- A stored debug token admits this device (R520); the SVN it admits is the running image's (log 47). -/
def State.tokenOk (s : State) (l : List Byte) : Bool :=
  s.slotGood flashToken && decide (Config.tokenId l = (Config.sha512 Config.deviceKey).take 8)
    && decide (Config.tokenField 0 l ≤ s.svc.imageSvn.toNat) && decide (s.svc.imageSvn.toNat ≤ Config.tokenField 1 l)
    && (s.trustKeys 4).any (fun k => Config.tokenSigned k l)

/-- Steps 6 and 7: the PCIe function, the nonce, the debug token, the locks and READY; and what the supervisor places in HBM. -/
def State.bootEnd (s : State) : State :=
  let l := s.flashRead flashToken 256
  let ok := s.tokenOk l
  let n := s.svc.boots
  { s with
    ready := true, locks := s.locks ||| 0b10011, debugUnlocked := ok, pcie := { s.pcie with link := true, enabled := true }
    hif := { s.hif with bootLost := (List.range 256).filter s.lost }
    lsch := { s.lsch with sporeA := Config.sporeBase 0 n, sporeB := Config.sporeBase 1 n }
    fronds := ⟨(List.range 256).map (fun f => (f, { s.frond f with spillBase := Config.spillBase n f &&& ~~~ 0x1FF }))⟩
    svc := { s.svc with
      booting := false, stage := 7, nonce := Config.bootNonce n, boots := n + 1, pwuArea := Config.pwuArea n, svcArea := Config.svcArea n
      ports := if ok then BitVec.ofNat 2 (Config.tokenField 2 l) else 0 } }

/-- A device that leaves a full reset with a link up takes the DTB of the first peer that answers (R510). -/
def State.bootTime (s : State) (peer : Option W64) : State :=
  if !s.svc.warmBoot && !s.upLinks.isEmpty then { s with dtb := peer.getD s.dtb } else s

/-- The panel records of outputs with a sink are read (R352). -/
def State.bootPorts (s : State) : State :=
  (List.range 4).foldl (fun s n => if (s.port n).hpd && !s.upperHalf n then s.readPanel n else s) s

/-- BOOT_READY: the boot that the last full or warm reset began ends. -/
def execBootReady (sense : BootSense) (s : State) : Host.Outcome State Fault Refusal :=
  unlessInert s fun s =>
    if !s.svc.booting then s
    else match s.bootImage with
      | none => s.recover
      | some s =>
        let s := s.bootAdvance.bootConfig
        match sense.badStack, s.svc.warmBoot with
        | some k, false => { s with svc := { s.svc with stage := 4, code := BitVec.ofNat 4 (k.val + 1), booting := false } }
        | _, _ => (((s.bootTest sense).bootTime sense.peerDtb).bootPorts).bootEnd

end Sys2Proof.Machine
end

