-- ==== Sys2Proof/Machine/Power.lean ====
section
/-! DEFINITION. Power, heat and clock plans (chapter 21): thermal stages, lite switching, pass-through, the trip, the power limits, boost wear, and the
controller mode registers of HBM (R480). -/

namespace Sys2Proof.Machine

/-! ### Thermal stages (R532, Table 21.1); temperatures in units of 0.125 °C -/

/-- Threshold of stage k, 1 to 5, less THERMAL_DERATE. -/
def State.stageLimit (s : State) (k : Nat) : Int := 8 * (([100, 102, 103, 105, 115].getD (k - 1) 0 : Int) - (s.svc.derate : Int))

/-- The condition for leaving stage k holds: 3 °C below its threshold; for pass-through, below 110 °C (R532, R534). -/
def State.cool (s : State) (k : Nat) (tj : Nat) : Bool := if k = 5 then decide (tj < 880) else decide ((tj : Int) + 24 ≤ s.stageLimit k)

/-- Nanoseconds from an instant to now. -/
def State.since (s : State) (t : W64) : Nat := s.dtb.toNat - t.toNat

/-- Since when each stage's leaving condition has held. -/
def State.trackCool (s : State) (tj : Nat) : State :=
  { s with power := { s.power with
    coolSince := (List.range 5).foldl (fun t i =>
      let k := i + 1
      t.set k (if s.cool k tj then some ((t.get k none).getD s.dtb) else none)) s.power.coolSince } }

/-- Stages 1 to 3 entered in order. -/
def State.risen (s : State) (tj : Nat) : Nat :=
  let k := s.power.stage.toNat
  (List.range 3).foldl (fun k i => if k = i ∧ s.stageLimit (i + 1) ≤ (tj : Int) then i + 1 else k) k

/-- Stages left, highest first, each after 1 s. -/
def State.fallen (s : State) (k : Nat) : Nat :=
  (List.range 4).foldl (fun k i =>
    let j := 4 - i
    if k = j ∧ (((s.power.coolSince.get j none).map (fun t => decide (1000000000 ≤ s.since t))).getD false) = true then j - 1 else k) k

/-- Stages 1 to 4, which the supervisor applies (R536). -/
def State.serveStages (s : State) (tj : Nat) : State :=
  let k := s.risen tj
  let hot := decide (k = 3) && decide (s.stageLimit 4 ≤ (tj : Int))
  let since := if hot then some (s.power.hotSince.getD s.dtb) else none
  let k := if (since.map (fun t => decide (100000000 ≤ s.since t))).getD false then 4 else k
  { s with power := { s.power with hotSince := if k = 4 then none else since, stage := BitVec.ofNat 3 (s.fallen k) } }

/-- Highest reading of a die, 16 sensors each. -/
def dieTj (temps : List (BitVec 12)) (die : Nat) : Nat := (((temps.drop (16 * die)).take 16).map BitVec.toNat).foldl max 0

/-- Weight of boost residency at a temperature (R537). -/
def boostWeight (t : Nat) : Nat := if t ≤ 680 then 1 else if t ≤ 760 then 2 else 4

/-- 256 weighted domain-hours, in units of 100 µs. -/
def boostBit : Nat := 256 * 3600 * 10000

/-- 100 µs of boost residency: each 256 weighted domain-hours blow one more bit (R537). A domain's Tj is that of its die (log 49). -/
def State.accrueBoost (s : State) (temps : List (BitVec 12)) : State :=
  (List.range 32).foldl (fun s d =>
    let x := s.domain d
    if x.plan = 3 ∧ x.gated = false then
      let w := boostWeight (dieTj temps (d / 8))
      let s := s.setDomain d { x with boost := x.boost + w }
      let used := s.power.boostUsed + w
      if boostBit ≤ used ∧ s.power.bits.toNat < 4096 then
        { s with power := { s.power with boostUsed := used - boostBit, bits := s.power.bits + 1 } }
      else { s with power := { s.power with boostUsed := used } }
    else s) s

/-- THERMAL_SAMPLE: 16 readings of each die (R532). Stage 5 is a hardware comparator; the stages below it rest during a supervisor restart (R536),
while a fall below the threshold of stage 4 still ends its 100 ms. -/
def execThermalSample (temps : List (BitVec 12)) (now : W64) (s : State) : Host.Outcome State Fault Refusal :=
  unlessInert s fun s =>
    let s := s.at_ now
    let tj := (temps.map BitVec.toNat).foldl max 0
    let s := (State.trackCool { s with power := { s.power with tj := BitVec.ofNat 12 tj } } tj).accrueBoost temps
    if s.power.stage.toNat < 5 ∧ s.stageLimit 5 ≤ (tj : Int) then { s with power := { s.power with stage := 5, hotSince := none } }
    else if 5 ≤ s.power.stage.toNat then s
    else if s.lsch.svcDown then (if (tj : Int) < s.stageLimit 4 then { s with power := { s.power with hotSince := none } } else s)
    else s.serveStages tj

/-! ### Lite switching (R533) -/

/-- A stream is on its lite program, or will be from its next frame. -/
def State.isLite (s : State) (c : Nat) : Bool := (s.stream c).liteNext.getD (s.stream c).lite

/-- A stream has a lite program it is not on: its image carries LITE variants (R109). -/
def State.canLite (s : State) (c : Nat) : Bool :=
  !s.isLite c && ((s.ctx c).bound.map (fun b => decide (b.image.wLite ≠ 0) && b.image.variants.any (fun v => bitOf v.kind 1))).getD false

/-- A stream's program changes at its next frame; admission is recomputed (R32). -/
def State.setLite (s : State) (c : Nat) (lite : Bool) : State := s.setStream c { s.stream c with liteNext := some lite }

/-- Admission of a stream's set as it stands, reported. -/
def State.reportSet (s : State) (c : Nat) : State :=
  match (s.ctx c).bound with
  | some b => s.reportAdmission b.mask
  | none => s

/-- A stream switches to its lite program. -/
def State.toLite (s : State) (c : Nat) : State :=
  let s := (s.setLite c true).reportSet c
  { s with power := { s.power with liteOrder := s.power.liteOrder.filter (fun d => decide (d ≠ c)) ++ [c] } }

/-- The stream switched last returns to its normal program, when admission passes with W. -/
def State.fromLite (s : State) : State :=
  match (s.power.liteOrder.filter (fun c => s.liveStreams.contains c && s.isLite c)).getLast? with
  | none => s
  | some c =>
    let t := s.setLite c false
    match (s.ctx c).bound with
    | some b =>
      if t.setAdmits b.mask then
        State.reportSet { t with power := { t.power with liteOrder := t.power.liteOrder.filter (fun d => decide (d ≠ c)) } } c
      else s
    | none => s

/-- LITE_SWITCH: one stream every 100 ms, to lite while Tj is at the threshold of stage 4, and back once stage 4 is left. -/
def execLiteSwitch (now : W64) (s : State) : Host.Outcome State Fault Refusal :=
  unlessInert s fun s =>
    let s := s.at_ now
    if !((s.power.lastSwitch.map (fun t => decide (100000000 ≤ s.since t))).getD true) then s
    else
      let s := { s with power := { s.power with lastSwitch := some s.dtb } }
      if 4 ≤ s.power.stage.toNat then
        if s.stageLimit 4 ≤ (s.power.tj.toNat : Int) then
          match s.leastImportant (s.liveStreams.filter s.canLite) with
          | some c => s.toLite c
          | none => s
        else s
      else s.fromLite

/-! ### Pass-through (R534) -/

/-- Frames of a stream in progress end as native aborts, and none of their lines is reported from here on. -/
def State.quietFrames (s : State) (c : Nat) : State :=
  (s.stream c).frames.foldl (fun s r => (s.modFrame c r.frame (fun q => { q with quiet := true })).abortFrame c r.frame stOk) s

/-- Every live stream of a domain is in pass-through. -/
def State.domainQuiet (s : State) (d : Nat) : Bool :=
  s.liveStreams.all (fun c => (s.setOf c).all (fun f => decide (f / 8 ≠ d)) || (s.comp (s.outOf c)).passThrough)

/-- Clocks of the domains that run nothing any more stop. -/
def State.gateQuiet (s : State) : State :=
  (List.range 32).foldl (fun s d => if s.domainQuiet d then s.gate d else s) s

/-- PASS_THROUGH: an output enters pass-through at its commit point. Stage 2 holds as well, so simmer work has yielded. -/
def execPassThrough (out : OutId) (now : W64) (s : State) : Host.Outcome State Fault Refusal :=
  unlessInert s fun s =>
    let s := s.at_ now
    let g := s.governor out.val
    if s.power.stage ≠ 5 ∨ (s.comp g).passThrough = true then s
    else
      let s := (s.halves g).foldl (fun s n => s.setComp n { s.comp n with passThrough := true }) s
      let s := (s.governed g).foldl (fun s c => s.quietFrames c) s
      let s := ((List.range 256).foldl (fun s f => s.yieldFrond f) s).gateQuiet
      if s.passThrough then s else State.devEvent { s with passThrough := true } stPassThrough 0 0

/-- PASS_THROUGH_EXIT: Tj has stayed below 110 °C for 5 s; each stream resumes on its lite program, at stage 4. -/
def execPassThroughExit (now : W64) (s : State) : Host.Outcome State Fault Refusal :=
  unlessInert s fun s =>
    let s := s.at_ now
    if s.power.stage = 5 ∧ (((s.power.coolSince.get 5 none).map (fun t => decide (5000000000 ≤ s.since t))).getD false) = true then
      let s := { s with passThrough := false, power := { s.power with stage := 4 } }
      let s := (List.range 4).foldl (fun s n => s.setComp n { s.comp n with passThrough := false }) s
      let s := (List.range 48).foldl (fun s _ =>
        match s.leastImportant (s.liveStreams.filter s.canLite) with
        | some c => s.toLite c
        | none => s) s
      s.liveStreams.foldl (fun s c => s.wakeSet (s.setOf c)) s
    else s

/-- THERM_TRIP: the pin falls, every clock stops and every port driver is off, until a power-on reset (R535). -/
def execThermTrip (s : State) : Host.Outcome State Fault Refusal :=
  unlessInert s fun s =>
    let s := (List.range 4).foldl (fun s n => s.setPort n { (s.port n).down with training := false }) s
    { s with inert := true, pins := { s.pins with thermTripN := false }, power := { s.power with stage := 6 } }

/-! ### Power limits (R530, R531) -/

/-- Power that the limits allow now. -/
def State.allowedWatts (s : State) : Nat := if s.svc.peakSupply && !s.power.cutBack then 680 else 480

/-- POWER_SAMPLE: above the limit one more measure of R531 is taken; at or below it, whether one is lifted is not given: a free choice (log 49). -/
def execPowerSample (watts : BitVec 12) (now : W64) (s : State) : Host.Outcome State Fault Refusal :=
  unlessInert s fun s =>
    let s := s.at_ now
    let above := decide (480 < watts.toNat)
    let times := s.power.overTimes.filter (fun t => decide (s.since t < 20000000000)) ++ (if above then [s.dtb] else [])
    let cut := if 200000 ≤ times.length then true else if times.length < 100000 then false else s.power.cutBack
    let recent := (watts :: s.power.recent).take 100
    let mean := (recent.map BitVec.toNat).sum / recent.length
    let s := { s with power := { s.power with
      overTimes := times, cutBack := cut, recent := recent, watts := BitVec.ofNat 12 mean, peakActive := above } }
    if s.allowedWatts < watts.toNat then { s with power := { s.power with level := min 3 (s.power.level + 1) } }
    else
      let (w, s) := s.draw
      if bitOf w 0 then { s with power := { s.power with level := s.power.level - 1 } } else s

/-! ### Clocks (R527 to R529) -/

/-- SUPPLY_DROOP: the clocks of the affected domains stretch. -/
def execSupplyDroop (domains : W32) (s : State) : Host.Outcome State Fault Refusal :=
  unlessInert s fun s =>
    let s := { s with power := { s.power with droopSeen := true } }
    (bitsOf domains).foldl (fun s d =>
      let s := s.meterDomain d
      s.setDomain d { s.domain d with stretched := true }) s

/-- SUPPLY_RECOVERY: every stretched clock returns to its planned rate. -/
def execSupplyRecovery (s : State) : Host.Outcome State Fault Refusal :=
  unlessInert s fun s => (List.range 32).foldl (fun s d =>
    let s := s.meterDomain d
    s.setDomain d { s.domain d with stretched := false }) s

/-- A domain stands at a change point: with live streams, one of them is between two stripes on one of its fronds; without, its simmer work yields
within 64 cycles (R40, R527). -/
def State.atChangePoint (s : State) (d : Nat) : Bool :=
  !s.domainLive d || (List.range 8).any (fun i => s.carriesLive (8 * d + i) && (s.frond (8 * d + i)).live.isNone)

/-- CLOCK_PLAN_CHANGE: a domain whose clock runs takes its plan at a change point, and at no other instant. -/
def execClockPlanChange (domain : Fin 32) (s : State) : Host.Outcome State Fault Refusal :=
  unlessInert s fun s => if (s.domain domain.val).gated || !s.atChangePoint domain.val then s else s.takePlan domain.val

/-- A domain has no task, or only simmer tasks that a thermal stage suspends (R528, Table 21.1). -/
def State.domainIdle (s : State) (d : Nat) : Bool :=
  !s.domainLive d && (List.range 8).all (fun i =>
    let x := s.frond (8 * d + i)
    x.live.isNone && (x.simmer.map (fun t => t.yielded && s.simmerHalted)).getD true)

/-- CLOCK_GATE: a domain without live streams and without a task stops its clock. -/
def execClockGate (domain : Fin 32) (s : State) : Host.Outcome State Fault Refusal :=
  unlessInert s fun s =>
    if s.domainIdle domain.val then s.gate domain.val else s

/-- BOOST_SPENT: the last bit is blown and its hours are spent (R538). -/
def execBoostSpent (now : W64) (s : State) : Host.Outcome State Fault Refusal :=
  unlessInert s fun s =>
    let s := s.at_ now
    if 4096 ≤ s.power.bits.toNat ∧ boostBit ≤ s.power.boostUsed ∧ s.boostSpent = false then
      State.devEvent { s with boostSpent := true } stBoostSpent 0 0
    else s

/-- HBM_MODE_WRITE_COMPLETE (R480). -/
def execHbmModeWriteComplete (stack : Fin 4) (s : State) : Host.Outcome State Fault Refusal :=
  unlessInert s fun s => s.setHbmc stack.val { s.hbmc stack.val with busy := false }

end Sys2Proof.Machine
end

