-- ==== Sys2Proof/Machine/Registers.lean ====
section
/-! DEFINITION. Register access (chapter 18): partial decoding (R488), reads and their shadows (R483), writes by access type (R474 to R484), lock bits
(R481), and the bitmaps with their aliases (R485 to R487). -/

namespace Sys2Proof.Machine

/-! ### Decoding (R488, Tables 18.6 and 18.7) -/

/-- The blocks of BAR0; `maps` are the bit-addressed aliases. -/
inductive Block where
  | dev | hif | svc | lsch | compTg | ports | lwl | hbm | pmon | ldl | pwuXspi | frond | maps
deriving DecidableEq, Repr

/-- A register: its block and the offset its decoded bits select. -/
structure Reg where
  block : Block
  off : Nat
deriving DecidableEq, Repr

/-- First address of a block. -/
def Block.base : Block → Nat
  | .dev => 0x0000000
  | .hif => 0x0010000
  | .svc => 0x0100000
  | .lsch => 0x0200000
  | .compTg => 0x0400000
  | .ports => 0x0600000
  | .lwl => 0x0800000
  | .hbm => 0x0A00000
  | .pmon => 0x0C00000
  | .ldl => 0x0E00000
  | .pwuXspi => 0x0F00000
  | .frond => 0x1000000
  | .maps => 0x2000000

/-- The block of an address. -/
def blockAt (a : Nat) : Option Block :=
  [Block.maps, .frond, .pwuXspi, .ldl, .pmon, .hbm, .lwl, .ports, .compTg, .lsch, .svc, .hif, .dev].find? (fun b => decide (b.base ≤ a))

/-- Bits [hi:lo] of an offset, in place. -/
def keepBits (o hi lo : Nat) : Nat := put ((o >>> lo) % 2 ^ (hi + 1 - lo)) lo

/-- Bit i of an offset. -/
def offBit (o i : Nat) : Bool := decide (o / 2 ^ i % 2 = 1)

/-- An offset lies in one of the spans. -/
def inSpans (l : List (Nat × Nat)) (o : Nat) : Bool := l.any (fun p => decide (p.1 ≤ o) && decide (o ≤ p.2))

/-- The offset that the decoded bits of a block select, before holes. -/
def Block.decode (b : Block) (o : Nat) : Nat :=
  match b with
  | .dev => keepBits o 7 2
  | .hif =>
    if offBit o 16 then (if offBit o 13 then 0x12000 + keepBits o 5 2 else 0x10000 + keepBits o 12 2)
    else if offBit o 12 then 0x1000 + keepBits o 11 2
    else keepBits o 3 2
  | .svc => keepBits o 12 2
  | .lsch => keepBits o 14 2
  | .compTg => keepBits o 17 15 + (if offBit o 15 then keepBits o 6 2 else keepBits o 4 2)
  | .ports =>
    if offBit o 16 then (if offBit o 15 then 0x18000 + keepBits o 5 2 else 0x10000 + keepBits o 14 14 + keepBits o 9 2)
    else keepBits o 15 14 + keepBits o 8 2
  | .lwl => if offBit o 18 then 0x40000 + keepBits o 10 2 else keepBits o 17 16 + keepBits o 3 2
  | .hbm => if offBit o 19 then 0x80000 + keepBits o 9 2 else keepBits o 17 16 + keepBits o 11 2
  | .pmon => keepBits o 17 2
  | .ldl => keepBits o 15 2
  | .pwuXspi => if offBit o 19 then 0x80000 + keepBits o 11 2 else keepBits o 13 12 + keepBits o 4 2
  | .frond => keepBits o 23 16 + keepBits o 9 2
  | .maps => keepBits o 14 12 + keepBits o 11 2

/-- A decoded offset that selects no register. -/
def Block.hole (b : Block) (o : Nat) : Bool :=
  match b with
  | .dev => inSpans [(0x1C, 0x1C), (0xB0, 0xFC)] o
  | .hif =>
    inSpans [(0x1000, 0x17FF)] o && decide (0x18 ≤ o % 32) || inSpans [(0x1800, 0x1FFF)] o && decide (o % 32 = 0x1C)
  | .svc => !inSpans [(0x00, 0x10), (0x18, 0x20)] o
  | .lsch =>
    !inSpans [(0x40, 0x44), (0x50, 0x54), (0x60, 0x64), (0x70, 0x74), (0x400, 0x7FC), (0x2000, 0x43FC), (0x6000, 0x6018), (0x6100, 0x617C),
      (0x7000, 0x7018), (0x7020, 0x7030)] o
  | .compTg =>
    if offBit o 15 then inSpans [(0x08, 0x0C), (0x28, 0x2C), (0x3C, 0x3C), (0x44, 0x7C)] (o % 0x80)
    else inSpans [(0x08, 0x0C), (0x14, 0x14)] (o % 0x20)
  | .ports => decide (o < 0x10000) && inSpans [(0x0C, 0x0C), (0x18, 0x1C), (0x30, 0xFC)] (o % 0x4000)
  | .lwl =>
    if 0x40000 ≤ o then inSpans [(0x08, 0x0C), (0x20, 0xFC), (0x500, 0x7FC)] (o - 0x40000) else decide (o % 0x10000 = 0x0C)
  | .hbm => decide (0x80000 ≤ o) && decide (0x0C ≤ o % 32)
  | .pmon =>
    !(inSpans [(0, 0x83FC), (0x10000, 0x10000), (0x20000, 0x283FC)] o
      || inSpans [(0x10100, 0x104FC)] o && inSpans [(0x00, 0x08), (0x10, 0x24)] (o % 64))
  | .ldl =>
    !inSpans [(0, 0x83FC), (0x9000, 0x93FC), (0x9400, 0x943C), (0x9500, 0x96FC), (0x9700, 0x9704), (0xF000, 0xF008), (0xF010, 0xF014), (0xF020, 0xF02C)] o
  | .pwuXspi => decide (o < 0x80000) && inSpans [(0x0C, 0x0C), (0x18, 0x1C)] (o % 0x1000)
  | .frond =>
    !inSpans [(0x00, 0x04), (0x10, 0x1C), (0x40, 0x50), (0x58, 0x64), (0x80, 0x9C), (0x100, 0x27C), (0x300, 0x37C)] (o % 0x10000)
  | .maps => decide (mapBits (o / 0x1000) ≤ o % 0x1000 / 4)

/-- The register at an address; a hole is none. -/
def decodeReg (a : Nat) : Option Reg :=
  if 0x4000000 ≤ a then none
  else match blockAt a with
    | none => none
    | some b => let o := b.decode (a - b.base); if b.hole o then none else some ⟨b, o⟩

/-! ### Reads -/

/-- A word of an HBM block: the power controller's in HBM0, and the controller's own (log 46). -/
def State.hbmBlockRead (s : State) (n o : Nat) : W32 :=
  if n = 0 ∧ inSpans [(0x800, 0x80C), (0x840, 0x8BC)] o = true then s.pwrRead o
  else
    let k := Config.hbmWord (o / 4)
    if k = 0 then 0
    else if k = 1 then wordOf [flag (s.hbmc n).busy Config.hbmBits.1, flag (s.hbmc n).wrDropped Config.hbmBits.2]
    else (s.hbmc n).mode.get (o / 4) 0

/-- A word of the ports block: transmit and receive ports, TE words and panel control. -/
def State.portsRead (s : State) (o : Nat) : W32 :=
  if o < 0x10000 then (s.port (o / 0x4000)).read (o % 0x4000)
  else if o < 0x18000 then
    let k := o % 0x4000
    let x := s.rx ((o - 0x10000) / 0x4000)
    if 0x200 ≤ k then byteWord x.edid (k - 0x200) else if Config.rxControl (k / 4) then x.ctl.get (k / 4) 0 else 0
  else if o - 0x18000 < 0x20 then Config.teWord ((o - 0x18000) / 4) s.pins.te
  else s.panelRead32 (o - 0x18000)

/-- The live word of a register, in the view of BAR0 or of the supervisor. -/
def State.regRead (s : State) (sup : Bool) (r : Reg) : W32 :=
  let o := r.off
  match r.block with
  | .dev => s.devRead o
  | .hif => s.hifRead o
  | .svc => s.svcRead sup o
  | .lsch => s.lschRead o
  | .compTg => if offBit o 15 then s.tgRead (o / 0x10000) (o % 0x80) else s.compRead (o / 0x10000) (o % 0x20)
  | .ports => s.portsRead o
  | .lwl => if 0x40000 ≤ o then s.lwlRead (o - 0x40000) else (s.link (o / 0x10000)).read (o % 0x10000)
  | .hbm => if 0x80000 ≤ o then (s.mover ((o - 0x80000) / 32)).read (o % 32) else s.hbmBlockRead (o / 0x10000) (o % 0x10000)
  | .pmon => s.pmonRead o
  | .ldl => s.ldl.read o
  | .pwuXspi => if 0x80000 ≤ o then s.xspiRead ((o - 0x80000) / 4) else (s.wear (o / 0x1000)).read (o % 0x1000)
  | .frond => s.windowRead (o / 0x10000) (o % 0x10000)
  | .maps => wordOf [flag (s.mapBit (o / 0x1000) (o % 0x1000 / 4)) 0]

/-- The register is the low word of a 64-bit value that latches (R483). -/
def Reg.isLow (r : Reg) : Bool :=
  let o := r.off
  match r.block with
  | .dev => decide (o = 0x14)
  | .hif => decide (o = 8) || inSpans [(0x1000, 0x1FFF)] o && (decide (o % 32 = 0) || decide (o % 32 = 8))
  | .svc => decide (o = 0x08) || decide (o = 0x18)
  | .lsch => [0x6000, 0x6008, 0x7014, 0x7020, 0x7028].contains o
  | .compTg => !offBit o 15 && decide (o % 0x20 = 0x18)
  | .ports => false
  | .lwl => inSpans [(0x40100, 0x404FC)] o && (decide (o % 64 = 0x08) || decide (o % 64 = 0x10))
  | .hbm => false
  | .pmon => inSpans [(0, 0x83FC)] o && decide (o % 8 = 0) || inSpans [(0x10100, 0x104FC)] o && (decide (o % 64 = 0x10) || decide (o % 64 = 0x18))
  | .ldl => inSpans [(0, 0x83FC)] o && decide (o % 8 = 0) || decide (o = 0xF010)
  | .pwuXspi => decide (o < 0x80000) && decide (o % 0x1000 = 0x10)
  | .frond => decide (o % 0x10000 = 0x18) || decide (o % 0x10000 = 0x58)
  | .maps => false

/-- The other word of the pair. -/
def Reg.high (r : Reg) : Reg := { r with off := r.off + 4 }
def Reg.low (r : Reg) : Reg := { r with off := r.off - 4 }

/-- The register is the high word of such a value. -/
def Reg.isHigh (r : Reg) : Bool := decide (4 ≤ r.off) && r.low.isLow

/-- Key of a register in the shadow tables: its address. -/
def Reg.key (r : Reg) : Nat := r.block.base + r.off

/-- A requester's read shadows. -/
def State.shadows (s : State) (sup : Bool) : Tbl W32 := if sup then s.svcShadow else s.hostShadow

/-- The high word of a pair latched for a requester (R483). -/
def State.latchHigh (s : State) (sup : Bool) (r : Reg) : State :=
  let t := (s.shadows sup).set r.high.key (s.regRead sup r.high)
  if sup then { s with svcShadow := t } else { s with hostShadow := t }

/-- A fuse programming register of the SVC block lies at the address (Table 18.4 names them, no rule gives an address: log 122). -/
def fuseAt (a : Nat) : Bool := decide (blockAt a = some .svc) && Config.fuseWord ((a - Block.base .svc) / 4)

/-- What stands where the map has no register: for the supervisor a fuse programming register, else zero (R475, log 122). -/
def State.fuseRead (s : State) (sup : Bool) (a : Nat) : W32 := if sup && fuseAt a then s.svc.fuseRegs.get ((a - Block.base .svc) / 4) 0 else 0

/-- One read access: the word, and the state with its latch (R475, R483). -/
def State.readWord (s : State) (sup : Bool) (a : Nat) : W32 × State :=
  match decodeReg a with
  | none => (s.fuseRead sup a, s)
  | some r =>
    if r.isHigh then ((s.shadows sup).get r.key 0, s)
    else if r.isLow then (s.regRead sup r, s.latchHigh sup r)
    else (s.regRead sup r, s)

/-- Words that an access of n bytes from a touches (R474). -/
def wordsTouched (a n : Nat) : Nat := if n = 0 then 0 else (a + n + 3) / 4 - a / 4

/-- A read of n bytes from a: one access for each word touched, in ascending order, each answering the bytes that it enables (R474). -/
def State.barRead (s : State) (sup : Bool) (a n : Nat) : List Byte × State :=
  (List.range (wordsTouched a n)).foldl (fun (acc : List Byte × State) i =>
    let base := 4 * (a / 4 + i)
    let r := acc.2.readWord sup base
    (acc.1 ++ ((toLe 4 r.1.toNat).take (a + n - base)).drop (a - base), r.2)) ([], s)

/-- LOW_WORD_READ: a read of the register space; its bytes are the answer. -/
def execLowWordRead (req : Requester) (span : ReadSpan) (s : State) : Host.Outcome State Fault Refusal :=
  unlessInert s fun s =>
    let r := s.barRead (decide (req = .supervisor)) span.addr.toNat span.len.toNat
    { r.2 with readData := r.1 }

/-! ### DEV writes (R481, R482, R485 to R487) -/

/-- Lock bits a requester may set (Table 18.4). -/
def lockable (sup : Bool) : BitVec 5 := if sup then 0b11111 else 0b01100

/-- A write of DEV_LOCK: bits are set and never cleared. Each bit is RWL and its own lock, so that a write while one is 1 is ignored for that bit
and sets LOCKED_WR, whatever it writes there (R481, Table 18.1, log 50). -/
def State.lockWrite (s : State) (sup : Bool) (value : W32) : State :=
  { s with locks := s.locks ||| (value.setWidth 5 &&& lockable sup), lockedWr := s.lockedWr || decide (s.locks ≠ 0) }

/-- DEV_LOCK_WRITE. -/
def execDevLockWrite (req : Requester) (value : W32) (s : State) : Host.Outcome State Fault Refusal :=
  unlessInert s fun s => s.lockWrite (decide (req = .supervisor)) value

/-- A write of a bit of the frond-enable map (R486). -/
def State.enableBit (s : State) (f : Nat) (b : Bool) : State :=
  if (!b && s.carriesLive f) || (b && s.lost f) then { s with mapRefused := true }
  else { s with frondEn := setBit s.frondEn f b }

/-- A frond holds a pinned region. -/
def Frond.holdsPin (x : Frond) : Bool := (List.range 8).any (fun k => (x.pins.get k {}).used)

/-- A write of a bit of the frond-power map (R487, R489). -/
def State.powerBit (s : State) (f : Nat) (b : Bool) : State :=
  let x := s.frond f
  if !b && (s.frondEnBit f || x.holdsPin) then { s with mapRefused := true }
  else State.setFrond { s with frondPwr := setBit s.frondPwr f b } f { x with phase := if b then x.phase.enable else x.phase.disable }

/-- The bits of a word of a map that `mask` selects, written one after another. -/
def State.mapWrite (s : State) (write : State → Nat → Bool → State) (word : Nat) (value mask : W32) : State :=
  (bitsOf mask).foldl (fun s b => write s (32 * word + b) (bitOf value b)) s

/-- FROND_ENABLE_WRITE: a word of the frond-enable map. -/
def execFrondEnableWrite (word : Fin 8) (value : W32) (s : State) : Host.Outcome State Fault Refusal :=
  unlessInert s fun s => s.mapWrite State.enableBit word.val value (BitVec.allOnes 32)

/-- FROND_POWER_WRITE: a word of the frond-power map. -/
def execFrondPowerWrite (word : Fin 8) (value : W32) (s : State) : Host.Outcome State Fault Refusal :=
  unlessInert s fun s => s.mapWrite State.powerBit word.val value (BitVec.allOnes 32)

/-- FROND_POWER_DONE: the change in progress ends; a held power-up then runs. After a power-up tags are empty, semaphores zero, and the other
contents undefined (R487). -/
def execFrondPowerDone (f : FrondId) (s : State) : Host.Outcome State Fault Refusal :=
  unlessInert s fun s =>
    let x := s.frond f.val
    match x.phase with
    | .goingDown => s.setFrond f.val { x with phase := .off }
    | .goingDownHeld => s.setFrond f.val { x with phase := .goingUp }
    | .goingUp =>
      let y := x.wiped f.val x.rowOnly
      s.setFrond f.val { y with
        phase := .on, failed := x.failed, live := none, simmer := none, released := [], heldIncs := [], signals := [], spillFull := [], regions := {}, regionOwners := []
        areas := [], simRows := [] }
    | _ => s

def State.devWrite (s : State) (sup : Bool) (o : Nat) (v mask : W32) : State :=
  if o = 0x08 then
    { s with lockedWr := s.lockedWr && !bitOf v 0, mapRefused := s.mapRefused && !bitOf v 1, byteWr := s.byteWr && !bitOf v 2 }
  else if o = 0x0C then s.resetWrite v
  else if o = 0x10 then s.lockWrite sup v
  else if 0x20 ≤ o ∧ o < 0x40 then s.mapWrite State.enableBit ((o - 0x20) / 4) v mask
  else if 0x40 ≤ o ∧ o < 0x60 then s.mapWrite State.powerBit ((o - 0x40) / 4) v mask
  else s

/-- A write of an alias word (R485). -/
def State.aliasWrite (s : State) (o : Nat) (v mask : W32) : State :=
  if bitOf mask 0 then
    (if o / 0x1000 = 0 then s.enableBit (o % 0x1000 / 4) (bitOf v 0)
     else if o / 0x1000 = 1 then s.powerBit (o % 0x1000 / 4) (bitOf v 0)
     else s)
  else s

/-! ### HIF, SVC and LSCH writes -/

/-- HIF_CTL; the first enable reports defaults in use (R516), and each position that self-test found lost, once (R439); Table 15.7 ties no column or cause to
one: free values (DESIGN CHOICE, log 146). -/
def State.hifCtlWrite (s : State) (v : W32) : State :=
  let en := bitOf v 0
  let due := en && s.hif.configEvent
  let lost := if en then s.hif.bootLost else []
  let s := { s with hif := { s.hif with
    en := en, evtCq := BitVec.ofNat 6 (fieldOf v 13 8), configEvent := s.hif.configEvent && !due, bootLost := if en then [] else s.hif.bootLost } }
  let s := if due then s.devEvent stConfigDefaulted 0 0 else s
  lost.foldl (fun s g =>
    let (w, s) := s.draw
    s.devEvent stFrondsLost (frondInfo g (BitVec.ofNat 4 w.toNat) (BitVec.ofNat 4 (w.toNat / 16))) 0) s

/-- A word of the MSI-X table, whose vector-control words hold the mask bit alone (R5); a vector unmasked while pending is sent (log 5). -/
def State.msixWrite (s : State) (i : Nat) (v : W32) : State :=
  let h := { s.hif with msixTable := s.hif.msixTable.set i (if i % 4 = 3 then v &&& 1 else v) }
  if i % 4 = 3 ∧ bitOf v 0 = false ∧ bitOf s.hif.msixPba (i / 4) = true then
    { s with hif := { h with msixPba := setBit s.hif.msixPba (i / 4) false, msixSent := s.hif.msixSent ++ [BitVec.ofNat 9 (i / 4)] } }
  else { s with hif := h }

def State.hifWrite (s : State) (o : Nat) (v : W32) : State :=
  let r := (o - 0x1000) / 32
  let q := (o - 0x1800) / 32
  if o = 0 then s.hifCtlWrite v
  else if o = 4 then { s with hif := { s.hif with kickIgnored := s.hif.kickIgnored && !bitOf v 0 } }
  else if o < 0x1000 then s
  else if o < 0x1800 then
    (if o % 32 = 0x10 then s.sqCfgWrite r v
     else if o % 32 = 0x14 then s.setSq r { s.sq r with cfgReject := (s.sq r).cfgReject && !bitOf v 3 }
     else s)
  else if o < 0x2000 then
    (if o % 32 = 0x10 then s.cqCfgWrite q v
     else if o % 32 = 0x14 then
       s.setCq q { s.cq q with overflowSeen := (s.cq q).overflowSeen && !bitOf v 2, cfgReject := (s.cq q).cfgReject && !bitOf v 3 }
     else if o % 32 = 0x18 then s.setCq q { s.cq q with vector := BitVec.ofNat 9 (fieldOf v 8 0) }
     else s)
  else if o < 0x12000 then s.msixWrite ((o - 0x10000) / 4) v
  else s

def State.svcWrite (s : State) (sup : Bool) (o : Nat) (v mask : W32) : State :=
  if o = 0 then (if bitOf mask 0 then s.mbCmdWrite (BitVec.ofNat 8 (fieldOf v 7 0)) else s)
  else if o = 4 then { s with svc := { s.svc with ignored := s.svc.ignored && !bitOf v 1 } }
  else if o = 0x20 ∧ sup = true then
    (if bitOf s.locks 0 then { s with lockedWr := true } else { s with svc := { s.svc with ports := BitVec.ofNat 2 (fieldOf v 1 0) } })
  else s

def State.lschWrite (s : State) (sup : Bool) (o : Nat) (v : W32) : State :=
  let n := (o - 0x40) / 16
  if 0x40 ≤ o ∧ o < 0x80 then
    (if o % 16 = 0 then s.outCfgWrite n v
     else s.setOut n { s.out n with blReject := (s.out n).blReject && !bitOf v 17 })
  else if o = 0x6010 then { s with lsch := { s.lsch with simmerMs := BitVec.ofNat 8 (fieldOf v 7 0) } }
  else if o = 0x6014 then { s with lsch := { s.lsch with ckptOverSeen := s.lsch.ckptOverSeen && !bitOf v 2 } }
  else if 0x6100 ≤ o ∧ o < 0x6180 ∧ sup = true then s.setRow ((o - 0x6100) / 4) (DieRow.mapWrite v)
  else if o = 0x7000 then s.lsCtlWrite v
  else if o = 0x7004 then { s with ls := { s.ls with diverged := s.ls.diverged && !bitOf v 1, partnerLost := s.ls.partnerLost && !bitOf v 2 } }
  else s

/-! ### COMP, TG and port writes -/

/-- A word of the timing shadow (Tables 12.4, 12.5). -/
def Timing.write (t : Timing) (o : Nat) (v : W32) : Timing :=
  let a := BitVec.ofNat 14 (fieldOf v 13 0)
  let b := BitVec.ofNat 14 (fieldOf v 29 16)
  match o / 4 with
  | 4 => { t with hAct := a, hFp := b }
  | 5 => { t with hSync := a, hBp := b, hPol := bitOf v 31 }
  | 6 => { t with vAct := a, vFp := b }
  | 7 => { t with vSync := a, vBp := b, vPol := bitOf v 31 }
  | 8 => { t with khz := BitVec.ofNat 23 (fieldOf v 22 0) }
  | 9 => { t with bpc := BitVec.ofNat 3 (fieldOf v 2 0) }
  | 12 => { t with vrrMode := BitVec.ofNat 2 (fieldOf v 1 0), vrrSrc := bitOf v 2, fpMax := b }
  | 13 => { t with periodNs := v }
  | 14 => { t with periodFrac := BitVec.ofNat 16 (fieldOf v 15 0), delay := b }
  | _ => t

/-- Lid state of a compositor in the supervisor's view, unless LID_LOCK holds it (R308, R477, Table 18.4). -/
def State.lidWrite (s : State) (n : Nat) (write : Comp → Comp) : State :=
  if bitOf s.locks 1 then { s with lockedWr := true } else s.setComp n (write (s.comp n))

/-- COMP_LID as the supervisor writes it. -/
def Comp.lidFields (c : Comp) (v : W32) : Comp :=
  { c with lid := { c.lid with visible := bitOf v 0, preset := bitOf v 1 }, lidRejects := BitVec.ofNat 16 (fieldOf v 31 16) }

def State.compTgWrite (s : State) (sup : Bool) (o : Nat) (v : W32) : State :=
  let n := o / 0x10000
  if offBit o 15 then
    let g := s.tg n
    if o % 0x80 = 0 then s.tgCtlWrite n v
    else if o % 0x80 = 4 then
      s.setTg n { g with timReject := g.timReject && !bitOf v 3, rsNospace := g.rsNospace && !bitOf v 4, lockMiss := g.lockMiss && !bitOf v 5 }
    else if s.upperHalf n then s
    else s.setTg n { g with shadow := g.shadow.write (o % 0x80) v }
  else if o % 0x20 = 4 then
    s.setComp n { s.comp n with lateSeen := (s.comp n).lateSeen && !bitOf v 9, wbOverrunSeen := (s.comp n).wbOverrunSeen && !bitOf v 10 }
  else if o % 0x20 = 0x10 ∧ sup = true then s.lidWrite n (fun c => c.lidFields v)
  else s

/-- The four bytes of a word stored in a byte table. -/
def putWord (t : Tbl Byte) (k : Nat) (v : W32) : Tbl Byte := (List.range 4).foldl (fun t i => t.set (k + i) (BitVec.ofNat 8 (v.toNat / 256 ^ i))) t

def State.dptxWrite (s : State) (n o : Nat) (v : W32) : State :=
  let p := s.port n
  if o = 0x00 then (if s.portLocked then { s with lockedWr := true } else s.dptxCtlWrite n v)
  else if o = 0x04 then s.setPort n { p with noBw := p.noBw && !bitOf v 7 }
  else if o = 0x08 then s.setPort n { p with faultOverrun := p.faultOverrun && !bitOf v 30, faultValid := p.faultValid && !bitOf v 31 }
  else if o = 0x10 then s.auxWrite n v
  else if o = 0x14 then s.setPort n { p with wrDropped := p.wrDropped && !bitOf v 8 }
  else if 0x20 ≤ o ∧ o < 0x30 then s.setPort n { p with auxData := putWord p.auxData (o - 0x20) v }
  else if 0x100 ≤ o then s.setPort n { p with sdp := putWord p.sdp (o - 0x100) v }
  else s

def State.portsWrite (s : State) (o : Nat) (v : W32) : State :=
  if o < 0x10000 then s.dptxWrite (o / 0x4000) (o % 0x4000) v
  else if o < 0x18000 then
    let m := (o - 0x10000) / 0x4000
    let k := o % 0x4000
    if 0x200 ≤ k then s.setRx m { s.rx m with edid := putWord (s.rx m).edid (k - 0x200) v }
    else if Config.rxControl (k / 4) then
      (if s.portLocked then { s with lockedWr := true } else s.setRx m { s.rx m with ctl := (s.rx m).ctl.set (k / 4) v })
    else s
  else if 0x18020 ≤ o ∧ o < 0x18030 then s.panelCtlWrite ((o - 0x18020) / 4) v
  else s

/-! ### LWL, HBM, PMON, LDL, PWU and frond writes -/

/-- A word of a halo entry: an enabled entry takes a write of EN alone (Table 17.6). -/
def Halo.write (h : Halo) (o : Nat) (v : W32) : Halo :=
  if o = 0 then
    let h' := if h.en then h
      else { h with trigger := bitOf v 1, destDev := BitVec.ofNat 2 (fieldOf v 3 2), srcCtx := BitVec.ofNat 14 (fieldOf v 17 4) }
    { h' with en := bitOf v 0, pushed := if h.en then h.pushed else [] }
  else if h.en then h
  else match o / 4 with
    | 1 => { h with destCtx := BitVec.ofNat 14 (fieldOf v 13 0) }
    | 6 => { h with run := BitVec.ofNat 21 (fieldOf v 20 0) }
    | 7 => { h with count := BitVec.ofNat 16 (fieldOf v 15 0) }
    | 8 => { h with srcStride := v }
    | 9 => { h with dstStride := v }
    | _ => h

/-- The supervisor enables only the links that LWL_EN of the configuration names: on another one EN keeps its value (R516; DEDUCED, log 148). -/
def State.lwlEnOf (s : State) (sup : Bool) (n : Nat) (v : W32) : W32 :=
  if sup && !bitOf s.svc.lwlEn n && !(s.link n).en then v &&& 0xFFFFFFFE else v

def State.lwlWrite (s : State) (sup : Bool) (o : Nat) (v : W32) : State :=
  if 0x40000 ≤ o then
    let k := o - 0x40000
    if 0x10 ≤ k ∧ k < 0x20 then s.setTick ((k - 0x10) / 4) { follow := bitOf v 0, src := BitVec.ofNat 2 (fieldOf v 2 1) }
    else if 0x100 ≤ k then s.setHalo ((k - 0x100) / 64) ((s.halo ((k - 0x100) / 64)).write (k % 64) v)
    else s
  else
    let n := o / 0x10000
    if o % 0x10000 = 0 then s.lwlCtlWrite n (s.lwlEnOf sup n v)
    else if o % 0x10000 = 4 then s.setLink n { s.link n with cfgReject := (s.link n).cfgReject && !bitOf v 8 }
    else s

/-- CLKPLAN_LOCK stops writes of the clock-plan and boost registers (Table 18.4). -/
def State.pwrWrite (s : State) (o : Nat) (v : W32) : State :=
  if o = 0x804 then { s with power := { s.power with droopSeen := s.power.droopSeen && !bitOf v 5 } }
  else if o = 0x800 ∨ 0x840 ≤ o then
    (if bitOf s.locks 2 then { s with lockedWr := true }
     else if o = 0x800 then { s with power := { s.power with boostEn := bitOf v 0 } }
     else let d := (o - 0x840) / 4; s.setDomain d { s.domain d with cap := BitVec.ofNat 2 (fieldOf v 1 0) })
  else s

/-- A word of an HBM controller: its mode registers are posted (R480). -/
def State.hbmcWrite (s : State) (n w : Nat) (v : W32) : State :=
  let c := s.hbmc n
  let k := Config.hbmWord w
  if k = 0 then s
  else if k = 1 then (if bitOf v Config.hbmBits.2 then s.setHbmc n { c with wrDropped := false } else s)
  else if c.busy then s.setHbmc n { c with wrDropped := true }
  else s.setHbmc n { c with mode := c.mode.set w v, busy := true }

def State.hbmBlockWrite (s : State) (o : Nat) (v : W32) : State :=
  if 0x80000 ≤ o then
    let m := (o - 0x80000) / 32
    if o % 32 = 0 then s.setMover m { s.mover m with pageLateSeen := (s.mover m).pageLateSeen && !bitOf v 13 } else s
  else if o / 0x10000 = 0 ∧ inSpans [(0x800, 0x80C), (0x840, 0x8BC)] o = true then s.pwrWrite o v
  else s.hbmcWrite (o / 0x10000) (o % 0x10000 / 4) v

def State.pmonWrite (s : State) (o : Nat) (v mask : W32) : State :=
  let u := (o - 0x10100) / 64
  if o = 0x10000 then { s with pmon := { s.pmon with perfUser := bitOf v 0 } }
  else if 0x10100 ≤ o ∧ o < 0x10500 then
    (if o % 64 = 0 then s.smpCtlWrite u v (bitOf mask 0)
     else if o % 64 = 4 then s.setUnit u { s.unit u with period := v }
     else if o % 64 = 8 then
       s.setUnit u { s.unit u with
         valid := (s.unit u).valid && !bitOf v 0, overrun := (s.unit u).overrun && !bitOf v 1, cfgReject := (s.unit u).cfgReject && !bitOf v 2 }
     else s)
  else s

def State.ldlWrite (s : State) (o : Nat) (v : W32) : State :=
  if o = 0xF000 then s.ldlCtlWrite v
  else if o = 0xF004 then
    { s with ldl := { s.ldl with
      srcTg := BitVec.ofNat 4 (fieldOf v 3 0), srcPin := bitOf v 4, srcThresh := bitOf v 5, srcLockstep := bitOf v 6
      srcFaults := BitVec.ofNat 8 (fieldOf v 15 8) } }
  else if o = 0xF008 then { s with ldl := { s.ldl with late := s.ldl.late && !bitOf v 3 } }
  else if 0xF020 ≤ o then { s with ldl := { s.ldl with matches_ := s.ldl.matches_.set ((o - 0xF020) / 4) (BitVec.ofNat 14 (fieldOf v 13 0)) } }
  else s

def State.pwuXspiWrite (s : State) (o : Nat) (v : W32) : State :=
  if 0x80000 ≤ o then s.xspiWrite ((o - 0x80000) / 4) v
  else if o % 0x1000 = 0 then s.setWear (o / 0x1000) { s.wear (o / 0x1000) with en := bitOf v 0 }
  else s

/-- A pinned region as the supervisor writes it (TSP_PINn, R477). -/
def Pin.write (p : Pin) (v : W32) : Pin :=
  let n := fieldOf v 25 13
  { p with base := fieldOf v 12 0, rows := if n = 0 ∧ bitOf v 27 = true then 8192 else n, used := bitOf v 27 }

def State.windowWrite (s : State) (sup : Bool) (f o : Nat) (v : W32) : State :=
  let x := s.frond f
  if o = 0 then
    (if sup then let r := s.row (f / 8); s.setRow (f / 8) { r with cols := r.cols.set (f % 8) (BitVec.ofNat 4 (fieldOf v 16 13)) } else s)
  else if o = 0x10 then s.setFrond f { x with faultOverrun := x.faultOverrun && !bitOf v 30, faultValid := x.faultValid && !bitOf v 31 }
  else if o = 0x40 then s.tspCfgWrite f v
  else if o = 0x44 then s.tspSegWrite f v
  else if o = 0x4C then s.setFrond f { x with segRefused := x.segRefused && !bitOf v 0, cacheReject := x.cacheReject && !bitOf v 1 }
  else if o = 0x50 then s.setFrond f { x with parityOverrun := x.parityOverrun && !bitOf v 30, parityValid := x.parityValid && !bitOf v 31 }
  else if 0x80 ≤ o ∧ o < 0xA0 ∧ sup = true then
    s.setFrond f { x with pins := x.pins.set ((o - 0x80) / 4) ((x.pins.get ((o - 0x80) / 4) {}).write v) }
  else s

/-! ### Writes by access type (R474 to R484) -/

/-- Registers of types RWS, RWP, MW and RWL, and the lock bits: a partial write is ignored (R474). -/
def Reg.strict (r : Reg) : Bool :=
  let o := r.off
  match r.block with
  | .dev => decide (o = 0x10)
  | .svc => decide (o = 0x20)
  | .compTg => offBit o 15 && decide (0x10 ≤ o % 0x80) && decide (o % 0x80 ≠ 0x40)
  | .ports =>
    if o < 0x10000 then decide (o % 0x4000 = 0) || decide (o % 0x4000 = 0x10) || decide (0x100 ≤ o % 0x4000)
    else decide (o < 0x18000) && decide (o % 0x4000 < 0x200) && Config.rxControl (o % 0x4000 / 4)
  | .hbm =>
    decide (o < 0x80000) && (if o < 0x10000 ∧ inSpans [(0x800, 0x80C), (0x840, 0x8BC)] o = true then decide (o = 0x800) || decide (0x840 ≤ o)
      else decide (Config.hbmWord (o % 0x10000 / 4) = 2))
  | .pwuXspi => decide (0x80000 ≤ o) && decide (2 ≤ (Config.xspiWord ((o - 0x80000) / 4)).val)
  | .frond => decide (o % 0x10000 = 0x44)
  | _ => false

/-- Registers whose writable fields are flags (W1C): a byte that is not enabled clears none. -/
def Reg.flagsOnly (r : Reg) : Bool :=
  let o := r.off
  match r.block with
  | .dev => decide (o = 0x08)
  | .hif => decide (o = 4) || inSpans [(0x1000, 0x1FFF)] o && decide (o % 32 = 0x14)
  | .svc => decide (o = 4)
  | .lsch => inSpans [(0x40, 0x74)] o && decide (o % 16 = 4) || decide (o = 0x6014) || decide (o = 0x7004)
  | .compTg => if offBit o 15 then decide (o % 0x80 = 4) else decide (o % 0x20 = 4)
  | .ports => decide (o < 0x10000) && [0x04, 0x08, 0x14].contains (o % 0x4000)
  | .lwl => decide (o < 0x40000) && decide (o % 0x10000 = 4)
  | .hbm => decide (o = 0x804) || decide (0x80000 ≤ o) || (decide (o < 0x80000) && decide (Config.hbmWord (o % 0x10000 / 4) = 1))
  | .pmon => inSpans [(0x10100, 0x104FC)] o && decide (o % 64 = 8)
  | .ldl => decide (o = 0xF008)
  | .pwuXspi => decide (0x80000 ≤ o) && decide (Config.xspiWord ((o - 0x80000) / 4) = 1)
  | .frond => [0x10, 0x4C, 0x50].contains (o % 0x10000)
  | .maps => false

/-- Low words that a write shadow holds: the RW pairs, and for the supervisor those it writes (R477, R484). -/
def Reg.pairLow (r : Reg) (sup : Bool) : Bool :=
  r.isLow && (match r.block with
    | .hif => true
    | .svc => decide (r.off = 8)
    | .lwl => true
    | .lsch => sup && decide (r.off < 0x7000)
    | .compTg => sup
    | .frond => sup && decide (r.off % 0x10000 = 0x58)
    | _ => false)

/-- What bytes that are not enabled are written with: the fields as last accepted. -/
def State.heldWord (s : State) (sup : Bool) (r : Reg) : W32 :=
  if r.flagsOnly then 0
  else if r.block = .lsch ∧ inSpans [(0x40, 0x74)] r.off = true ∧ r.off % 16 = 0 then
    let x := s.out ((r.off - 0x40) / 16)
    wordOf [(x.accepted, 0), flag x.en 16]
  else s.regRead sup r

/-- A ring's BASE or REC (Table 14.11): ignored with CFG_REJECT while EN or BUSY is 1. -/
def State.ringPair (s : State) (o : Nat) (v : W64) : State :=
  if o < 0x1800 then
    let r := (o - 0x1000) / 32
    let x := s.sq r
    s.setSq r (if x.en || x.busy then { x with cfgReject := true }
      else if o % 32 = 0 then { x with base := v &&& ~~~ 0xFFF } else { x with recAddr := v &&& ~~~ 0x3F })
  else
    let q := (o - 0x1800) / 32
    let x := s.cq q
    s.setCq q (if x.en || x.busy then { x with cfgReject := true }
      else if o % 32 = 0 then { x with base := v &&& ~~~ 0xFFF } else { x with recAddr := v &&& ~~~ 0x3F })

/-- Both words of a pair take effect, under the low word's register (R484). -/
def State.pairWrite (s : State) (r : Reg) (v : W64) : State :=
  let o := r.off
  match r.block with
  | .hif => if o = 8 then { s with hif := { s.hif with b4Base := v &&& ~~~ 0xFFFFFFF } } else s.ringPair o v
  | .svc => { s with svc := { s.svc with mbAddr := v } }
  | .lwl =>
    let e := (o - 0x40100) / 64
    let h := s.halo e
    if h.en then s
    else s.setHalo e (if o % 64 = 0x08 then { h with src := v &&& ~~~ 0x1F } else { h with dst := v &&& ~~~ 0x1F })
  | .compTg => s.lidWrite (o / 0x10000) (fun c => { c with lidSeq := v })
  | .lsch => if o = 0x6000 then { s with lsch := { s.lsch with sporeA := v } } else { s with lsch := { s.lsch with sporeB := v } }
  | .frond => let f := o / 0x10000; s.setFrond f { s.frond f with spillBase := v &&& ~~~ 0x1FF }
  | _ => s

/-- A whole word written to a register that is no pair; `mask` has ones in the bytes the access enables. -/
def State.regWrite (s : State) (sup : Bool) (r : Reg) (v mask : W32) : State :=
  let o := r.off
  match r.block with
  | .dev => s.devWrite sup o v mask
  | .hif => s.hifWrite o v
  | .svc => s.svcWrite sup o v mask
  | .lsch => s.lschWrite sup o v
  | .compTg => s.compTgWrite sup o v
  | .ports => s.portsWrite o v
  | .lwl => s.lwlWrite sup o v
  | .hbm => s.hbmBlockWrite o v
  | .pmon => s.pmonWrite o v mask
  | .ldl => s.ldlWrite o v
  | .pwuXspi => s.pwuXspiWrite o v
  | .frond => s.windowWrite sup (o / 0x10000) (o % 0x10000) v
  | .maps => s.aliasWrite o v mask

/-- One write access to a register (R474, R476, R484). -/
def State.regAccess (s : State) (sup : Bool) (r : Reg) (v mask : W32) : State :=
  if r.strict && decide (mask ≠ BitVec.allOnes 32) then (if r.block = .svc ∧ sup = false then s else { s with byteWr := true })
  else if r.pairLow sup then
    let old := (s.writeShadow.get r.key none).getD (s.regRead sup r)
    { s with writeShadow := s.writeShadow.set r.key (some (old &&& ~~~ mask ||| v &&& mask)) }
  else
    let v := s.heldWord sup r &&& ~~~ mask ||| v &&& mask
    if r.isHigh && r.low.pairLow sup then
      let lo := (s.writeShadow.get r.low.key none).getD (s.regRead sup r.low)
      State.pairWrite { s with writeShadow := s.writeShadow.set r.low.key none } r.low (v ++ lo)
    else s.regWrite sup r v mask

/-- Ones in the enabled bytes of a word at `base` for an access of n bytes from a. -/
def byteMask (base a n : Nat) : W32 :=
  wordOf ((List.range 4).map (fun i => (if a ≤ base + i ∧ base + i < a + n then 0xFF else 0, 8 * i)))

/-- The bytes of an access that fall in the word at `base`. -/
def byteLanes (base a : Nat) (l : List Byte) : W32 :=
  BitVec.ofNat 32 (leNat ((List.range 4).map (fun i => if a ≤ base + i then l.getD (base + i - a) 0 else 0)))

/-- A supervisor's write where the map has no register: a fuse programming register of the SVC block, which FUSE_LOCK holds (Table 18.4) and which takes whole
words alone (R474); elsewhere none. -/
def State.holeWrite (s : State) (sup : Bool) (a : Nat) (v mask : W32) : State :=
  if sup && fuseAt a then
    (if mask ≠ BitVec.allOnes 32 then { s with byteWr := true }
     else if bitOf s.locks 4 then { s with lockedWr := true }
     else { s with svc := { s.svc with fuseRegs := s.svc.fuseRegs.set ((a - Block.base .svc) / 4) v } })
  else s

/-- A write of bytes: one access for each word touched, in ascending order (R474). -/
def State.barWrite (s : State) (sup : Bool) (a : Nat) (l : List Byte) : State :=
  (List.range (wordsTouched a l.length)).foldl (fun s i =>
    let base := 4 * (a / 4 + i)
    match decodeReg base with
    | none => s.holeWrite sup base (byteLanes base a l) (byteMask base a l.length)
    | some r => s.regAccess sup r (byteLanes base a l) (byteMask base a l.length)) s

/-- REGISTER_WRITE. -/
def execRegisterWrite (req : Requester) (addr : BitVec 26) (data : List Byte) (s : State) : Host.Outcome State Fault Refusal :=
  unlessInert s fun s => s.barWrite (decide (req = .supervisor)) addr.toNat data

end Sys2Proof.Machine
end

