-- ==== Sys2Proof/Machine/Dispatch.lean ====
section
/-! DEFINITION. The command table: one arm per constructor, each a direct call of the command's meaning. -/

namespace Sys2Proof.Machine

/-- A command's effect on everything but the queue. -/
def exec (i : Instr) (s : State) : Host.Outcome State Fault Refusal :=
  match i with
  | .nop h => Sys2Proof.Machine.execNop h s
  | .fence h ringMask => Sys2Proof.Machine.execFence h ringMask s
  | .ctxOpen h update inHbm image => Sys2Proof.Machine.execCtxOpen h update inHbm image s
  | .ctxClose h => Sys2Proof.Machine.execCtxClose h s
  | .modelBind h image imageBytes sharedPin pinned mask => Sys2Proof.Machine.execModelBind h image imageBytes sharedPin pinned mask s
  | .streamStart h firstIn outFrame => Sys2Proof.Machine.execStreamStart h firstIn outFrame s
  | .streamStop h stopNow lastIn => Sys2Proof.Machine.execStreamStop h stopNow lastIn s
  | .frameSubmit h b => Sys2Proof.Machine.execFrameSubmit h b s
  | .layerSet h output slot host record => Sys2Proof.Machine.execLayerSet h output slot host record s
  | .commit h outmask frame => Sys2Proof.Machine.execCommit h outmask frame s
  | .writebackSet h b => Sys2Proof.Machine.execWritebackSet h b s
  | .jobRun h b => Sys2Proof.Machine.execJobRun h b s
  | .copy h srcSpace dstSpace src dst => Sys2Proof.Machine.execCopy h srcSpace dstSpace src dst s
  | .snapshot h linked now => Sys2Proof.Machine.execSnapshot h linked now s
  | .panelWearSave h b panelOk => Sys2Proof.Machine.execPanelWearSave h b panelOk s
  | .panelWearRestore h b => Sys2Proof.Machine.execPanelWearRestore h b s
  | .counterDump h host dst blockMask => Sys2Proof.Machine.execCounterDump h host dst blockMask s
  | .descriptorTake sq now => Sys2Proof.Machine.execDescriptorTake sq now s
  | .sqTailPoll sq now => Sys2Proof.Machine.execSqTailPoll sq now s
  | .ringSleep sq => Sys2Proof.Machine.execRingSleep sq s
  | .kick value => Sys2Proof.Machine.execKick value s
  | .completionRecordWrite cq now => Sys2Proof.Machine.execCompletionRecordWrite cq now s
  | .cqHeadPoll cq => Sys2Proof.Machine.execCqHeadPoll cq s
  | .msixModerationTimer cq now => Sys2Proof.Machine.execMsixModerationTimer cq now s
  | .ringEnable completion ring value => Sys2Proof.Machine.execRingEnable completion ring value s
  | .bar4Access write offset data => Sys2Proof.Machine.execBar4Access write offset data s
  | .atsInvalidation page => Sys2Proof.Machine.execAtsInvalidation page s
  | .pageResponse page result => Sys2Proof.Machine.execPageResponse page result s
  | .priTimeout page => Sys2Proof.Machine.execPriTimeout page s
  | .pageLate mover xfer now => Sys2Proof.Machine.execPageLate mover xfer now s
  | .streamMoverTransferDone mover xfer => Sys2Proof.Machine.execStreamMoverTransferDone mover xfer s
  | .frameStaged ctx frame => Sys2Proof.Machine.execFrameStaged ctx frame s
  | .lineTick tg raster now => Sys2Proof.Machine.execLineTick tg raster now s
  | .stripeStart f => Sys2Proof.Machine.execStripeStart f s
  | .simmerYield f => Sys2Proof.Machine.execSimmerYield f s
  | .simmerResume f => Sys2Proof.Machine.execSimmerResume f s
  | .dispatch ctx => Sys2Proof.Machine.execDispatch ctx s
  | .lineQueueArrival sec => Sys2Proof.Machine.execLineQueueArrival sec s
  | .composeLine out y late gainLate => Sys2Proof.Machine.execComposeLine out y late gainLate s
  | .lidAreaUncorr out pixel => Sys2Proof.Machine.execLidAreaUncorr out pixel s
  | .underrun port => Sys2Proof.Machine.execUnderrun port s
  | .seqNop f h => Sys2Proof.Machine.execSeqNop f h s
  | .end_ f h now => Sys2Proof.Machine.execEnd f h now s
  | .wait f h sem count => Sys2Proof.Machine.execWait f h sem count s
  | .signal f h fence sem target remote count => Sys2Proof.Machine.execSignal f h fence sem target remote count s
  | .mxuPass f h op => Sys2Proof.Machine.execMxuPass f h op s
  | .vuDrain f h op => Sys2Proof.Machine.execVuDrain f h op s
  | .vuEw f h v func count => Sys2Proof.Machine.execVuEw f h v func count s
  | .vuDw f h v g ch group => Sys2Proof.Machine.execVuDw f h v g ch group s
  | .vuPool f h isMax padCount v g ch => Sys2Proof.Machine.execVuPool f h isMax padCount v g ch s
  | .vuArgmax f h v ch => Sys2Proof.Machine.execVuArgmax f h v ch s
  | .vuTfn f h v table count => Sys2Proof.Machine.execVuTfn f h v table count s
  | .vuFft f h inverse v twoD count => Sys2Proof.Machine.execVuFft f h inverse v twoD count s
  | .ptmBuild f h v group count => Sys2Proof.Machine.execPtmBuild f h v group count s
  | .vuLoad f h v count => Sys2Proof.Machine.execVuLoad f h v count s
  | .vuStore f h v count => Sys2Proof.Machine.execVuStore f h v count s
  | .vuTload f h v table => Sys2Proof.Machine.execVuTload f h v table s
  | .seCapture f h src dst count => Sys2Proof.Machine.execSeCapture f h src dst count s
  | .seRegroup f h inverse src dst by4 count => Sys2Proof.Machine.execSeRegroup f h inverse src dst by4 count s
  | .dmaIn f h tdRow => Sys2Proof.Machine.execDmaIn f h tdRow s
  | .dmaOut f h tdRow => Sys2Proof.Machine.execDmaOut f h tdRow s
  | .nwRead f h op => Sys2Proof.Machine.execNwRead f h op s
  | .nwWrite f h op => Sys2Proof.Machine.execNwWrite f h op s
  | .winOpen f h win baseRow rows gen => Sys2Proof.Machine.execWinOpen f h win baseRow rows gen s
  | .winClose f h win => Sys2Proof.Machine.execWinClose f h win s
  | .fill f h dst value count => Sys2Proof.Machine.execFill f h dst value count s
  | .fcCopy f h src dst count => Sys2Proof.Machine.execFcCopy f h src dst count s
  | .rhzKeep f h dst chunks => Sys2Proof.Machine.execRhzKeep f h dst chunks s
  | .commandComplete f queue => Sys2Proof.Machine.execCommandComplete f queue s
  | .stepCommit f => Sys2Proof.Machine.execStepCommit f s
  | .remoteSignalArrival target sem count task => Sys2Proof.Machine.execRemoteSignalArrival target sem count task s
  | .tagTimeout f now => Sys2Proof.Machine.execTagTimeout f now s
  | .semTimeout f now => Sys2Proof.Machine.execSemTimeout f now s
  | .remoteAccessArrival src => Sys2Proof.Machine.execRemoteAccessArrival src s
  | .combineRequest recv win sender => Sys2Proof.Machine.execCombineRequest recv win sender s
  | .combinePartialArrival recv win sender => Sys2Proof.Machine.execCombinePartialArrival recv win sender s
  | .mcastCreditReturn group member => Sys2Proof.Machine.execMcastCreditReturn group member s
  | .mcastEvict group member => Sys2Proof.Machine.execMcastEvict group member s
  | .rhizomeChunkArrival f => Sys2Proof.Machine.execRhizomeChunkArrival f s
  | .parityError f p now => Sys2Proof.Machine.execParityError f p now s
  | .cacheLineParity f addr => Sys2Proof.Machine.execCacheLineParity f addr s
  | .privateParityError f unit now => Sys2Proof.Machine.execPrivateParityError f unit now s
  | .heartbeatTimeout f now => Sys2Proof.Machine.execHeartbeatTimeout f now s
  | .frondFailed f now => Sys2Proof.Machine.execFrondFailed f now s
  | .repairStopComplete now => Sys2Proof.Machine.execRepairStopComplete now s
  | .repairRestoreComplete now => Sys2Proof.Machine.execRepairRestoreComplete now s
  | .stepCheckpointTimer now => Sys2Proof.Machine.execStepCheckpointTimer now s
  | .hbmUncorr stack channel addr reader now => Sys2Proof.Machine.execHbmUncorr stack channel addr reader now s
  | .svcWatchdog now => Sys2Proof.Machine.execSvcWatchdog now s
  | .svcRestartComplete now => Sys2Proof.Machine.execSvcRestartComplete now s
  | .beamLeadWrite out value => Sys2Proof.Machine.execBeamLeadWrite out value s
  | .lschOutDisable out value => Sys2Proof.Machine.execLschOutDisable out value s
  | .tspSegGate f value => Sys2Proof.Machine.execTspSegGate f value s
  | .tspSegEnable f value => Sys2Proof.Machine.execTspSegEnable f value s
  | .tspSegShutdownDone f seg => Sys2Proof.Machine.execTspSegShutdownDone f seg s
  | .tspSegPowerupDone f seg => Sys2Proof.Machine.execTspSegPowerupDone f seg s
  | .cacheStepsWrite f value => Sys2Proof.Machine.execCacheStepsWrite f value s
  | .tgEnable n value => Sys2Proof.Machine.execTgEnable n value s
  | .tgStart n now => Sys2Proof.Machine.execTgStart n now s
  | .tgDisable n value => Sys2Proof.Machine.execTgDisable n value s
  | .upd n value => Sys2Proof.Machine.execUpd n value s
  | .pair n value => Sys2Proof.Machine.execPair n value s
  | .teEdge n level edgeAt now => Sys2Proof.Machine.execTeEdge n level edgeAt now s
  | .captureLockEvent rx lineAt now => Sys2Proof.Machine.execCaptureLockEvent rx lineAt now s
  | .hpdPlug port asyncSink panel now => Sys2Proof.Machine.execHpdPlug port asyncSink panel now s
  | .hpdUnplug port now => Sys2Proof.Machine.execHpdUnplug port now s
  | .irqHpd port now => Sys2Proof.Machine.execIrqHpd port now s
  | .dpLinkTraining port sense now => Sys2Proof.Machine.execDpLinkTraining port sense now s
  | .retrain port value => Sys2Proof.Machine.execRetrain port value s
  | .auxTransaction port value => Sys2Proof.Machine.execAuxTransaction port value s
  | .auxReply port reply data => Sys2Proof.Machine.execAuxReply port reply data s
  | .portShort port pin now => Sys2Proof.Machine.execPortShort port pin now s
  | .portPinTest port clean => Sys2Proof.Machine.execPortPinTest port clean s
  | .captureFrame rx frame c => Sys2Proof.Machine.execCaptureFrame rx frame c s
  | .captureLost rx now => Sys2Proof.Machine.execCaptureLost rx now s
  | .pwuSample out now => Sys2Proof.Machine.execPwuSample out now s
  | .lid => Sys2Proof.Machine.execLid s
  | .attest => Sys2Proof.Machine.execAttest s
  | .fwWrite => Sys2Proof.Machine.execFwWrite s
  | .trustUpdate => Sys2Proof.Machine.execTrustUpdate s
  | .debugToken => Sys2Proof.Machine.execDebugToken s
  | .svnAdvance => Sys2Proof.Machine.execSvnAdvance s
  | .configWrite => Sys2Proof.Machine.execConfigWrite s
  | .xspiOpComplete => Sys2Proof.Machine.execXspiOpComplete s
  | .linkEnable link value sense => Sys2Proof.Machine.execLinkEnable link value sense s
  | .lwlTrainRetry link sense => Sys2Proof.Machine.execLwlTrainRetry link sense s
  | .ringWrite link value => Sys2Proof.Machine.execRingWrite link value s
  | .retry sense => Sys2Proof.Machine.execRetry sense s
  | .linkFailed link now => Sys2Proof.Machine.execLinkFailed link now s
  | .lwlLatencyMeasure link roundTrip => Sys2Proof.Machine.execLwlLatencyMeasure link roundTrip s
  | .dtbTimeMessage link masterDtb correction now => Sys2Proof.Machine.execDtbTimeMessage link masterDtb correction now s
  | .holdover => Sys2Proof.Machine.execHoldover s
  | .remoteHbmRequest link kind addr data => Sys2Proof.Machine.execRemoteHbmRequest link kind addr data s
  | .haloPush entry frame => Sys2Proof.Machine.execHaloPush entry frame s
  | .lsEnable value => Sys2Proof.Machine.execLsEnable value s
  | .lsRecordArrival r now => Sys2Proof.Machine.execLsRecordArrival r now s
  | .partnerLost r => Sys2Proof.Machine.execPartnerLost r s
  | .arm value => Sys2Proof.Machine.execArm value s
  | .fire value now => Sys2Proof.Machine.execFire value now s
  | .ladleInEdge now => Sys2Proof.Machine.execLadleInEdge now s
  | .ladleFireMessage latchAt now => Sys2Proof.Machine.execLadleFireMessage latchAt now s
  | .ladleLatch now => Sys2Proof.Machine.execLadleLatch now s
  | .smpEnable unit value => Sys2Proof.Machine.execSmpEnable unit value s
  | .warm value => Sys2Proof.Machine.execWarm value s
  | .devLockWrite req value => Sys2Proof.Machine.execDevLockWrite req value s
  | .frondEnableWrite word value => Sys2Proof.Machine.execFrondEnableWrite word value s
  | .frondPowerWrite word value => Sys2Proof.Machine.execFrondPowerWrite word value s
  | .frondPowerDone f => Sys2Proof.Machine.execFrondPowerDone f s
  | .panelPwrWrite n value => Sys2Proof.Machine.execPanelPwrWrite n value s
  | .blDelayExpiry n now => Sys2Proof.Machine.execBlDelayExpiry n now s
  | .registerWrite req addr data => Sys2Proof.Machine.execRegisterWrite req addr data s
  | .lowWordRead req span => Sys2Proof.Machine.execLowWordRead req span s
  | .powerOnReset strap => Sys2Proof.Machine.execPowerOnReset strap s
  | .perstN => Sys2Proof.Machine.execPerstN s
  | .resetN => Sys2Proof.Machine.execResetN s
  | .flr => Sys2Proof.Machine.execFlr s
  | .bootReady sense => Sys2Proof.Machine.execBootReady sense s
  | .thermalSample temps now => Sys2Proof.Machine.execThermalSample temps now s
  | .liteSwitch now => Sys2Proof.Machine.execLiteSwitch now s
  | .passThrough out now => Sys2Proof.Machine.execPassThrough out now s
  | .passThroughExit now => Sys2Proof.Machine.execPassThroughExit now s
  | .thermTrip => Sys2Proof.Machine.execThermTrip s
  | .powerSample watts now => Sys2Proof.Machine.execPowerSample watts now s
  | .supplyDroop domains => Sys2Proof.Machine.execSupplyDroop domains s
  | .clockPlanChange domain => Sys2Proof.Machine.execClockPlanChange domain s
  | .clockGate domain => Sys2Proof.Machine.execClockGate domain s
  | .boostSpent now => Sys2Proof.Machine.execBoostSpent now s
  | .supplyRecovery => Sys2Proof.Machine.execSupplyRecovery s
  | .hbmModeWriteComplete stack => Sys2Proof.Machine.execHbmModeWriteComplete stack s
  | .lsPartnerPaired => Sys2Proof.Machine.execLsPartnerPaired s
  | .dprxAuxRequest rx write device data count => Sys2Proof.Machine.execDprxAuxRequest rx write device data count s

end Sys2Proof.Machine
end

