-- ==== Sys2Proof/Safety.lean ====
section
/-! DEFINITION. The terms that the statements use: what an ordinary command leaves alone, canonical memories, a descriptor alone on its ring and
its completion record, and a frond ready for its next command. -/

namespace Sys2Proof.Machine

/-! ### What commands leave alone -/

/-- State that only resets, the boot sequence, register accesses, mailbox commands and a few named events change: configuration, trust, locks,
frond maps, read and write shadows, and the queue of waiting commands. -/
structure Kept where
  strap : BitVec 2
  ready : Bool
  configDefaulted : Bool
  boostSpent : Bool
  debugUnlocked : Bool
  image : BitVec 2
  lockedWr : Bool
  mapRefused : Bool
  byteWr : Bool
  locks : BitVec 5
  frondEn : BitVec 256
  frondPwr : BitVec 256
  hostShadow : Tbl W32
  svcShadow : Tbl W32
  writeShadow : Tbl (Option W32)
  inert : Bool
  memEpoch : Nat
  svc : Svc
  xspi : Xspi
  hbmCtl : Tbl HbmCtl
  panels : Tbl PanelCtl
  dprx : Tbl Dprx
  pcie : Pcie
  pending : List Instr
deriving DecidableEq, Repr

/-- The kept part of a state. -/
def State.kept (s : State) : Kept :=
  { strap := s.strap, ready := s.ready, configDefaulted := s.configDefaulted, boostSpent := s.boostSpent, debugUnlocked := s.debugUnlocked
    image := s.image, lockedWr := s.lockedWr, mapRefused := s.mapRefused, byteWr := s.byteWr, locks := s.locks, frondEn := s.frondEn
    frondPwr := s.frondPwr, hostShadow := s.hostShadow, svcShadow := s.svcShadow, writeShadow := s.writeShadow, inert := s.inert
    memEpoch := s.memEpoch, svc := s.svc, xspi := s.xspi, hbmCtl := s.hbmCtl, panels := s.panels, dprx := s.dprx
    pcie := s.pcie, pending := s.pending }

/-- HBM, host memory and the boot flash are in canonical form. -/
def State.memOk (s : State) : Prop := s.hbm.wf = true ∧ s.host.wf = true ∧ s.xspi.flash.wf = true

/-- The commands that may change the kept part: resets and boot, accesses to registers, maps and locks, mailbox commands, and the events of the
supervisor's own units. -/
def reachesKept : Instr → Bool
  | .powerOnReset _ | .perstN | .resetN | .warm _ | .flr | .bootReady _ => true
  | .registerWrite .. | .lowWordRead .. | .devLockWrite .. | .frondEnableWrite .. | .frondPowerWrite .. | .retrain .. | .panelPwrWrite .. => true
  | .lid | .attest | .fwWrite | .trustUpdate | .debugToken | .svnAdvance | .configWrite => true
  | .xspiOpComplete | .hbmModeWriteComplete _ | .blDelayExpiry .. | .dprxAuxRequest .. | .boostSpent _ | .thermTrip => true
  | _ => false

/-! ### Descriptors -/

/-- Descriptor h, taken with spore slot `slot`, is alone in progress on its ring; its completion ring holds nothing back and no FENCE waits. -/
structure State.Sole (s : State) (h : DescHdr) (slot : Nat) : Prop where
  awake : s.inert = false
  alone : ∃ x, (s.sq h.sq.val).inflight = [x] ∧ x.idx = h.idx ∧ x.done = none ∧ x.slot = slot
  running : (s.sq h.sq.val).busy = false
  fences : s.hif.fences = []
  free : (s.cq (s.sq h.sq.val).cq.toNat).held = 0

/-- STATE 2, started, in both copies of a spore record (R413). -/
def State.marked (s : State) (slot : Nat) : State :=
  (s.hbmWrite (sporeAddr s.lsch.sporeA slot + 0x45) [2]).hbmWrite (sporeAddr s.lsch.sporeB slot + 0x45) [2]

/-- The completion record of descriptor h (Table 14.6). -/
def recordOf (h : DescHdr) (slot : Nat) (op : Byte) (status : BitVec 16) (i0 i1 i2 : W32) (cause : BitVec 16) (dtb : W64) : Record :=
  { status := status, ctx := h.ctx, event := false, seq := h.idx, dtb := dtb, op := op, sq := BitVec.ofNat 6 h.sq.val, device := false
    cause := cause, info0 := i0, info1 := i1, info2 := i2, irq := h.irq, slot := some slot }

/-- Descriptor h has left its ring, and its record is the last that waits for the ring's completion ring. -/
def State.reported (s : State) (h : DescHdr) (slot : Nat) (op : Byte) (status : BitVec 16) (i0 : W32 := 0) (i1 : W32 := 0) (i2 : W32 := 0)
    (cause : BitVec 16 := 0) : State :=
  let ring := s.sq h.sq.val
  let c := s.cq ring.cq.toNat
  (s.setSq h.sq.val { ring with inflight := [] }).setCq ring.cq.toNat
    { c with queue := c.queue ++ [recordOf h slot op status i0 i1 i2 cause s.dtb] }

/-- Descriptor h has completed with a status between two states: its record is the last of its completion ring, and it has left its ring. -/
def State.Reports (s t : State) (h : DescHdr) (slot : Nat) (op : Byte) (status : BitVec 16) (i0 : W32 := 0) : Prop :=
  ∃ i1 i2 cause, (t.cq (s.sq h.sq.val).cq.toNat).queue =
      (s.cq (s.sq h.sq.val).cq.toNat).queue ++ [recordOf h slot op status i0 i1 i2 cause s.dtb]
    ∧ (t.sq h.sq.val).inflight = []

/-- The header of a host descriptor's command. -/
def hdrOf : Instr → Option DescHdr
  | .nop h | .fence h _ | .ctxOpen h _ _ _ | .ctxClose h | .modelBind h _ _ _ _ _ | .streamStart h _ _ | .streamStop h _ _ | .frameSubmit h _
  | .layerSet h _ _ _ _ | .commit h _ _ | .writebackSet h _ | .jobRun h _ | .copy h _ _ _ _ | .snapshot h _ _ | .panelWearSave h _ _
  | .panelWearRestore h _ | .counterDump h _ _ _ => some h
  | _ => none

/-- The command answers a next state with a property. -/
def Ends (c : Instr) (s : State) (p : State → Prop) : Prop := ∃ t, exec c s = .next t ∧ p t

/-! ### Frond commands -/

/-- Frond f has a task that issues, and nothing is in progress there: the next command it reaches is the one thing that can move. -/
structure State.Clear (s : State) (f : Nat) (live : Bool) : Prop where
  awake : s.inert = false
  share : s.activeShare f = some live
  fed : (s.taskOf f live).fed = []
  queues : ∀ q, (s.taskOf f live).queues.get q [] = []
  runs : (s.taskOf f live).skipping = false
  ending : (s.taskOf f live).ending = none
  granted : (s.taskOf f live).granted = false
  loose : (s.taskOf f live).loose = []
  keep : (s.taskOf f live).keep = none
  loaded : (s.taskOf f live).loaded = none
  again : (s.taskOf f live).again = []
  dma : (s.frond f).dma = []
  chain : (s.frond f).chain = []

/-- Command c stands at the sequencer of frond f. -/
def State.reached (s : State) (f : Nat) (live : Bool) (c : Instr) : State := s.modTask f live (fun t => { t with fed := t.fed ++ [c] })

/-- The command at the head of the list has issued. -/
def State.issued (s : State) (f : Nat) (live : Bool) : State := s.modTask f live Task.taken

/-- An issued command stands in its engine's queue, on the tile its handle names. -/
def State.queued (s : State) (f : Nat) (live : Bool) (c : Instr) (tile : Nat) : State :=
  s.modTask f live (fun t => { t.taken with
    queues := t.queues.modify (queueOf c) [] (fun l => l ++ [{ index := t.cmdIndex, cmd := c, tile := tile, after := none }]) })

/-- The frond of a command that an engine executes. -/
def engineFrond : Instr → Option FrondId
  | .mxuPass f _ _ | .vuDrain f _ _ | .vuEw f _ _ _ _ | .vuDw f _ _ _ _ _ | .vuPool f _ _ _ _ _ _ | .vuArgmax f _ _ _ | .vuTfn f _ _ _ _
  | .vuFft f _ _ _ _ _ | .ptmBuild f _ _ _ _ | .vuLoad f _ _ _ | .vuStore f _ _ _ | .vuTload f _ _ _ | .seCapture f _ _ _ _
  | .seRegroup f _ _ _ _ _ _ | .dmaIn f _ _ | .dmaOut f _ _ | .nwRead f _ _ | .nwWrite f _ _ | .winOpen f _ _ _ _ _ | .winClose f _ _
  | .fill f _ _ _ _ | .fcCopy f _ _ _ _ | .rhzKeep f _ _ _ => some f
  | _ => none

/-- The frond and header of a command of the frond's list. -/
def frondOf : Instr → Option FrondId
  | .seqNop f _ | .end_ f _ _ | .wait f _ _ _ | .signal f _ _ _ _ _ _ => some f
  | c => engineFrond c

/-- Command c, reached by a clear frond f, issues at once: its header's wait is covered, and none of its patterns has a dimension of size 0. -/
structure State.Issues (s : State) (f : Nat) (live : Bool) (c : Instr) : Prop where
  clear : s.Clear f live
  waits : ∃ t, (headWait f live c).run (s.reached f live c) = .ok ((), t)
  sized : zeroSkipped (s.taskOf f live).pats (s.taskOf f live).exts c = false

/-- First scratchpad byte of access i of a pattern: unmasked and untagged, in a row that is powered. -/
def State.plainAt (s : State) (f : Nat) (live : Bool) (p : Pattern) (i : Nat) : Option Nat :=
  let a := (s.frond f).access (s.taskOf f live) p i true
  if a.masked || a.halo || a.region.isSome then none
  else
    match a.place with
    | some (.phys r) => if (s.frond f).segOn (r / 512) && decide (a.off + a.len ≤ 512) then some (512 * r + a.off) else none
    | _ => none

/-- First scratchpad byte of the access that lies i after a pattern's cursor. -/
def State.nextAt (s : State) (f : Nat) (live : Bool) (pat : Nat) (p : Pattern) (i : Nat) : Nat :=
  (s.plainAt f live p (((s.taskOf f live).cursor pat + i) % p.total)).getD 0

/-- The n accesses from a pattern's cursor are plain. -/
def State.walkPlain (s : State) (f : Nat) (live : Bool) (pat : Nat) (p : Pattern) (n : Nat) : Prop :=
  (s.taskOf f live).pattern pat = some p ∧ ∀ i < n, (s.plainAt f live p (((s.taskOf f live).cursor pat + i) % p.total)).isSome = true

/-- Their bytes. -/
def State.walkBytes (s : State) (f : Nat) (live : Bool) (pat : Nat) (p : Pattern) (n : Nat) : List Byte :=
  (List.range n).flatMap (fun i => readBytes ((s.frond f).tspByte f) (s.nextAt f live pat p i) p.bytes)

/-- No two of them meet. -/
def State.walkApart (s : State) (f : Nat) (live : Bool) (pat : Nat) (p : Pattern) (n : Nat) : Prop :=
  ∀ i < n, ∀ j < n, i ≠ j → s.nextAt f live pat p i + p.bytes ≤ s.nextAt f live pat p j ∨ s.nextAt f live pat p j + p.bytes ≤ s.nextAt f live pat p i

/-- Accesses through a pattern that n bytes take. -/
def Pattern.spans (p : Pattern) (n : Nat) : Nat := (n + p.bytes - 1) / p.bytes

/-- Elements that a walk of `ch` channels from a pattern's cursor reads (R199). -/
def State.walkRaw (s : State) (f : Nat) (live : Bool) (pat : Nat) (p : Pattern) (fmt ch : Nat) : Nat → Nat → Nat → Nat :=
  p.walkElem fmt ((s.walkBytes f live pat p (p.spans (p.walkLen fmt ch))).take (p.walkLen fmt ch))

/-- Accesses of a parameter set of n accesses; in row mode it is one row. -/
def Pattern.params (p : Pattern) (n : Nat) : Nat := if p.row then 1 else n

/-- Byte o of the walk through a pattern from its first access. -/
def State.streamByte (s : State) (f : Nat) (live : Bool) (p : Pattern) (o : Nat) : Byte :=
  (s.frond f).tspByte f ((s.plainAt f live p (o / p.bytes % p.total)).getD 0 + o % p.bytes)

/-- A byte of the scratchpad of frond f. -/
def State.tspByte (s : State) (f a : Nat) : Byte := (s.frond f).tspByte f a

/-- n bytes can be stored through a pattern from its cursor: each access is plain, and no two meet. -/
def State.Storable (s : State) (f : Nat) (live : Bool) (pat : Nat) (p : Pattern) (n : Nat) : Prop :=
  s.walkPlain f live pat p (p.spans n) ∧ s.walkApart f live pat p (p.spans n)

/-- Between two states the bytes l have been stored through a pattern from its cursor; no byte outside its accesses has changed. -/
def State.Stored (s t : State) (f : Nat) (live : Bool) (pat : Nat) (p : Pattern) (l : List Byte) : Prop :=
  (∀ i < p.spans l.length, ∀ j < p.bytes, i * p.bytes + j < l.length → t.tspByte f (s.nextAt f live pat p i + j) = l.getD (i * p.bytes + j) 0)
    ∧ ∀ b, (∀ i < p.spans l.length, b < s.nextAt f live pat p i ∨ s.nextAt f live pat p i + p.bytes ≤ b) → t.tspByte f b = s.tspByte f b

/-- Nothing on frond f can go on by itself: no command waits at its sequencer, every queued one has run, no task is about to end, and no transfer or kept
chunk is left. -/
structure State.Rests (s : State) (f : Nat) : Prop where
  fed : ∀ live, (s.taskOf f live).fed = []
  ran : ∀ live q, ∀ e ∈ (s.taskOf f live).queues.get q [], e.after ≠ none
  ending : ∀ live, (s.taskOf f live).ending = none
  keep : ∀ live, (s.taskOf f live).keep = none
  dma : (s.frond f).dma = []

/-- No simmer job waits to be saved (R419). -/
def State.Unmarked (s : State) : Prop := ∀ p ∈ s.ctxs.cells, (p.2.job.map Job.marked).getD false = false

/-! ### The mailbox -/

/-- Mailbox command `op` waits, the supervisor serves, in recovery ATTEST alone (R514), and the first n bytes of its buffer are l. -/
structure State.Serves (s : State) (op : Byte) (n : Nat) (l : List Byte) : Prop where
  awake : s.inert = false
  ready : s.ready = true ∨ s.svc.recovery = true ∧ op = 2
  busy : s.svc.busy = true
  cmd : s.svc.mbCmd = op
  svc : s.lsch.svcDown = false
  aligned : s.svc.mbAddr.toNat % 64 = 0
  present : s.absentIn s.svc.mbAddr.toNat n = none
  bytes : s.hostRead s.svc.mbAddr.toNat n = l

/-- A mailbox command has ended with OK: the flash holds the bytes l from address a, in a slot that is valid, and elsewhere what it held. -/
def State.Written (s t : State) (a : Nat) (l : List Byte) : Prop :=
  t.svc.busy = false ∧ t.svc.result = stOk ∧ t.svc.reason = 0 ∧ t.flashRead a l.length = l ∧ t.slotGood a = true
    ∧ ∀ b, (b < a ∨ a + l.length ≤ b) → t.flashByte b = s.flashByte b

/-- A mailbox command has ended: written to flash from address a, or with a flash error, refused with REASON 6 and its slot invalid (R523). -/
def State.Flashed (s t : State) (a : Nat) (l : List Byte) : Prop :=
  s.Written t a l ∨ (t.svc.result = stDescBad ∧ t.svc.reason = 6 ∧ t.slotGood a = false ∧ s.xspi.sound = false)

end Sys2Proof.Machine
end

