-- ==== Sys2Proof/Certificates/Slice0/Obligations.lean ====
section
/-! DEFINITION. What the provers are asked to show: statements about the commands of the block, from the spec's numbered rules. -/

open Sys2Proof Sys2Proof.Machine

/-! ### The whole machine -/

/-- A step takes the command at the front of the queue and runs it with the queue's rest. -/
def Obligations.StepRunsFront : Prop :=
  ∀ (s : State) (c : Instr) (rest : List Instr), s.pending = c :: rest → step s = exec c { s with pending := rest }

/-- With no command waiting a step is one nanosecond of the DTB; a device inert after a thermal trip stays as it is. The model's choice (log 13). -/
def Claim.StepIdles : Prop :=
  ∀ s : State, s.pending = [] →
    (s.inert = true → step s = .next s)
    ∧ (s.inert = false → s.dtbSlew = 0 → s.dtbFrac.natAbs < 10000 → step s = .next { s with dtb := s.dtb + 1 })

/-- The values the spec's register tables give for reset. -/
def Claim.ResetValues : Prop :=
  let s := State.reset
  s.frondEn = BitVec.allOnes 256 ∧ s.frondPwr = BitVec.allOnes 256 ∧ s.locks = 0 ∧ s.ready = false ∧ s.inert = false ∧ s.dtb = 0 ∧ s.pending = []
    ∧ (∀ n : OutId, (s.out n.val).beamLead = 0x60 ∧ (s.panel n.val).blDelay = 0x14 ∧ (s.port n.val).maxRate = 6 ∧ (s.port n.val).maxLanes = 2
        ∧ (s.wear n.val).en = true ∧ (s.comp n.val).lid.visible = false ∧ (s.tg n.val).en = false)
    ∧ (∀ r : RingId, (s.sq r.val).en = false ∧ (s.sq r.val).log2 = 4 ∧ (s.cq r.val).en = false ∧ (s.cq r.val).modCount = 1)
    ∧ s.ls.link = 3 ∧ s.lsch.simmerMs = 10 ∧ s.ldl.acceptRemote = true ∧ s.pins.thermTripN = true

/-- The memories of the reset state are in canonical form. -/
def Claim.ResetMemoryCanonical : Prop := State.reset.memOk

/-- No command touches the queue of waiting commands. -/
def Obligations.CommandsKeepQueue : Prop := ∀ (c : Instr) (s t : State), exec c s = .next t → t.pending = s.pending

/-- Every step keeps HBM, host memory and the flash in canonical form. -/
def Obligations.StepsKeepMemoryCanonical : Prop := ∀ s t : State, s.memOk → step s = .next t → t.memOk

/-- Fuses only advance, whatever the command, a reset or a boot among them: the rollback counter (R515), the boost budget and its flag (R537). -/
def Obligations.FusesOnlyAdvance : Prop :=
  ∀ (c : Instr) (s t : State), exec c s = .next t →
    s.svc.svnFuse.toNat ≤ t.svc.svnFuse.toNat ∧ s.power.bits.toNat ≤ t.power.bits.toNat ∧ (s.boostSpent = true → t.boostSpent = true)

/-- Outside FLR and the boot sequence, a command of a device that has booted either begins a reset, or keeps the strap (R460), clears no lock bit
(R482), and does not run the DTB backward (R464). -/
def Obligations.BetweenResets : Prop :=
  ∀ (c : Instr) (s t : State), c ≠ .flr → (∀ sense, c ≠ .bootReady sense) → s.svc.booting = false → exec c s = .next t →
    t.svc.booting = true ∨ (t.strap = s.strap ∧ (∀ i : Fin 5, s.locks.getLsbD i.val = true → t.locks.getLsbD i.val = true)
      ∧ s.dtb.toNat ≤ t.dtb.toNat)

/-- Every command but those `reachesKept` names leaves the kept part alone: configuration, trust, locks, frond maps, register shadows, flash,
the supervisor, panel control, capture EDIDs and the queue. -/
def Obligations.OrdinaryCommandsKeep : Prop :=
  ∀ (c : Instr) (s t : State), reachesKept c = false → exec c s = .next t → t.kept = s.kept

/-- After a thermal trip the device does nothing until a power-on reset (R535). -/
def Obligations.InertUntilPowerOn : Prop :=
  ∀ (c : Instr) (s : State), s.inert = true → (∀ strap, c ≠ .powerOnReset strap) → exec c s = .next s

/-- Every command answers a next state: none ends in a fault or a refusal. -/
def Obligations.EveryCommandCompletes : Prop := ∀ (c : Instr) (s : State), ∃ t, exec c s = .next t

/-! ### Host descriptors -/

/-- A descriptor alone on its ring may start, and its start writes STATE 2 into both copies of its spore record (R413). -/
def Claim.DescriptorStarts : Prop :=
  ∀ (s : State) (h : DescHdr) (slot : Nat), s.Sole h slot →
    s.mayStart h = true ∧ ∃ x, (s.sq h.sq.val).inflight = [x] ∧ x.idx = h.idx ∧ x.slot = slot
      ∧ s.start h = (s.marked slot).setSq h.sq.val { s.sq h.sq.val with inflight := [{ x with state := 2 }] }

/-- A descriptor that ring order holds back changes nothing yet (R391, R392). -/
def Claim.DescriptorWaits : Prop :=
  ∀ (c : Instr) (s : State) (h : DescHdr), hdrOf c = some h → s.mayStart h = false → exec c s = .next s

/-- NOP completes with OK. FENCE completes with OK once the rings it names have nothing left of what was taken before it; with such a
descriptor left it waits (R392). -/
def Obligations.NopAndFence : Prop :=
  ∀ (s : State) (h : DescHdr) (slot : Nat), s.Sole h slot →
    exec (.nop h) s = .next ((s.start h).reported h slot opNop stOk)
    ∧ ∀ mask : W64,
      ((∀ r : RingId, mask.getLsbD r.val = true → r ≠ h.sq → (s.sq r.val).inflight = []) →
        exec (.fence h mask) s = .next ((s.start h).reported h slot opFence stOk))
      ∧ ((∃ r : RingId, mask.getLsbD r.val = true ∧ r ≠ h.sq ∧ ∃ x ∈ (s.sq r.val).inflight, x.done = none ∧ (x.idx - (s.sq r.val).head).toInt < 0) →
        Ends (.fence h mask) s (fun t => t.hif.fences.map FenceWait.hdr = [h] ∧ (t.sq h.sq.val).inflight = ((s.start h).sq h.sq.val).inflight
          ∧ ∀ q, (t.cq q).queue = (s.cq q).queue))

/-- CTX_OPEN copies a context image that is as Table 14.9 asks into a closed context; with UPDATE into one that is open or bound and has no job
(R397, R399). -/
def Claim.CtxOpenCopies : Prop :=
  ∀ (s : State) (h : DescHdr) (slot : Nat) (update inHbm : Bool) (image : W64), s.Sole h slot →
    let c := h.ctx.toNat
    let v := s.start h
    let l := v.memRead (!inHbm) image.toNat 256
    (inHbm = true → v.guarded image.toNat 256 = false) → (inHbm = false → v.absentIn image.toNat 256 = none) →
    (if update then ((v.ctx c).state = .opened ∨ (v.ctx c).state = .bound) ∧ (v.ctx c).job = none else (v.ctx c).state = .closed) →
    ctxImageOk (liveCtx c) l = true → v.ctxHbmOk (liveCtx c) l = true →
    exec (.ctxOpen h update inHbm image) s =
      .next ((v.setCtx c ((if update then v.ctx c else { ({} : Ctx) with state := .opened }).copyImage l)).reported h slot opCtxOpen stOk)

/-- CTX_CLOSE of an open or bound context with no job: the context is closed, its groups are free and its fronds hold no region of it. -/
def Claim.CtxCloseFrees : Prop :=
  ∀ (s : State) (h : DescHdr) (slot : Nat), s.Sole h slot →
    let c := h.ctx.toNat
    ((s.ctx c).state = .opened ∨ (s.ctx c).state = .bound) → (s.ctx c).job = none →
    Ends (.ctxClose h) s (fun t => t.ctx c = {} ∧ (∀ g, (t.group g).valid = true → (t.group g).ctx.toNat ≠ c)
      ∧ (∀ f ∈ s.setOf c, (t.frond f).regions.get c [] = []) ∧ s.Reports t h slot opCtxClose stOk)

/-- MODEL_BIND of an image that parses, passes the image check and finds its resources binds it to an open or bound context with no job. -/
def Claim.ModelBindBinds : Prop :=
  ∀ (s : State) (h : DescHdr) (slot : Nat) (image : W64) (bytes : W32) (sharedPin : Bool) (pinned : W64) (mask : BitVec 256) (t : TaskImage),
    s.Sole h slot →
    let c := h.ctx.toNat
    let v := s.start h
    let b : Bound := { image := t, addr := image, bytes := bytes, sharedPin := sharedPin, pinned := pinned, mask := mask }
    v.guarded image.toNat bytes.toNat = false → mask ≠ 0 → ((v.ctx c).state = .opened ∨ (v.ctx c).state = .bound) → (v.ctx c).job = none →
    (v.stream c).bindWait = none → parseImage (fun o n => v.hbmRead (image.toNat + o) n) bytes.toNat = .ok t →
    (t.pBytes = 0 ∨ v.guarded pinned.toNat t.pBytes.toNat = false) → decide (t.kind = 0) = liveCtx c →
    checkImage t (v.checkFor c t mask) (v.imageRead b) = none → (v.unbindImage c).bindFits c b = true →
    Ends (.modelBind h image bytes sharedPin pinned mask) s (fun u =>
      (u.ctx c).state = .bound ∧ (u.ctx c).bound = some b ∧ (u.ctx c).checked = true ∧ s.Reports u h slot opModelBind stOk)

/-- STREAM_START of a bound live context that admission accepts: the stream runs from input frame FIRST_IN. With every frond of the set between
stripes and its simmer work yielded, the working areas are placed and the descriptor completes with OUT_FRAME in INFO0; else it may wait (R127, R390). -/
def Claim.StreamStartRuns : Prop :=
  ∀ (s : State) (h : DescHdr) (slot : Nat) (firstIn outFrame : W32) (b : Bound), s.Sole h slot →
    let c := h.ctx.toNat
    let v := s.start h
    liveCtx c = true → (v.ctx c).bound = some b → (v.ctx c).state = .bound →
    let r := (v.setCtx c { v.ctx c with state := .running, firstIn := firstIn, recSwapped := false }).setStream c { active := true, srcH := v.pictureH c }
    (r.setStream c { r.stream c with srcH := (r.geom c none b.image.h.toNat).srcH }).startAdmits c b = true →
    Ends (.streamStart h firstIn outFrame) s (fun t =>
      (t.ctx c).state = .running ∧ (t.ctx c).firstIn = firstIn ∧ (t.ctx c).nextOut = (t.ctx c).outFrame ∧ (t.stream c).active = true
        ∧ ((t.stream c).startHdr = none ∨ (t.stream c).startHdr = some h ∧ (t.sq h.sq.val).inflight = (v.sq h.sq.val).inflight)
        ∧ ((∀ f ∈ b.fronds, (s.frond f).still = true) → (∀ f ∈ b.fronds, ((t.frond f).areas.any (fun a => decide (a.ctx = c))) = true)
          ∧ s.Reports t h slot opStreamStart stOk (t.ctx c).outFrame))

/-- STREAM_STOP of a running stream with an output frame still to finish: the stream is stopping, and the descriptor waits for the end (R390). -/
def Claim.StreamStopWaits : Prop :=
  ∀ (s : State) (h : DescHdr) (slot : Nat) (stopNow : Bool) (lastIn : W32), s.Sole h slot →
    let c := h.ctx.toNat
    let k := s.ctx c
    let opened := k.nextOut - 1
    let wanted := if lastIn.toNat < k.firstIn.toNat then opened else k.lastOut lastIn
    let last := if stopNow || frameLt wanted opened then opened else wanted
    k.state = .running → ((∃ r ∈ (s.stream c).frames, frameLt last r.frame = false) ∨ frameLt last k.nextOut = false) →
    Ends (.streamStop h stopNow lastIn) s (fun t =>
      (t.ctx c).state = .stopping ∧ (t.stream c).stopAfter = some last ∧ (t.stream c).stopHdr = some h ∧ (t.stream c).frames = (s.stream c).frames
        ∧ (t.sq h.sq.val).inflight = ((s.start h).sq h.sq.val).inflight)

/-- FRAME_SUBMIT on a running stream whose own input it is: the frame joins the context's frames, and one that governs no output frame still
ahead completes at once with OK and its number (R388, R389). -/
def Claim.FrameSubmitJoins : Prop :=
  ∀ (s : State) (h : DescHdr) (slot : Nat) (b : FrameBody), s.Sole h slot →
    let c := h.ctx.toNat
    let v := s.start h
    let k := v.ctx c
    let ahead := decide (k.firstIn.toNat ≤ b.frame.toNat) && frameLe (k.firstOut b.frame) (k.lastOut b.frame) && frameLe k.nextOut (k.lastOut b.frame)
    (framePlanes b).length ≤ s.moverRoom → s.copyAhead h = false → liveCtx c = true → k.state = .running → bitOf k.slots 3 = false → v.submitOk k h.srcHbm b = true →
    Ends (.frameSubmit h b) s (fun t =>
      (t.ctx c).lastSubmit = some b.frame
        ∧ (if ahead then (t.ctx c).frames.any (fun j => decide (j.frame = b.frame) && decide (j.hdr = some h)) = true
           else (t.ctx c).frames = k.frames ∧ s.Reports t h slot opFrameSubmit stOk b.frame))

/-- FRAME_STAGED marks a frame whose transfers and pushes are all over; its stripes may then run (R275, R472). An output frame of it that was first
released at this very instant, and stood unstaged there, is released again and runs, with every stripe of it that is due by then (R24, R26). -/
def Claim.FrameStagedMarks : Prop :=
  ∀ (s : State) (c : Fin 48) (frame : W32) (j : FrameJob), s.inert = false → (s.ctx c.val).frameJob frame = some j →
    j.begun = true → j.xfers = [] → j.status = stOk → s.haloDone false c.val frame = true →
    let st := s.stream c.val
    ((∀ r ∈ st.frames, r.unrun ≠ some s.dtb) → exec (.frameStaged c frame) s = .next (s.modJob c.val frame (fun q => { q with staged := true })))
    ∧ (∀ r : FrameRun, st.frames = [r] → r.input = frame → r.unrun = some s.dtb → r.judged = [] → r.frame + 1 = (s.ctx c.val).nextOut →
        s.inputOf c.val r.frame = frame → (s.comp (s.outOf c.val)).passThrough = false → st.resumeAt = none → st.bindWait = none → st.liteNext = none →
        s.haloDone true c.val (r.frame - 1) = true →
        Ends (.frameStaged c frame) s (fun t => (t.ctx c.val).nextOut = (s.ctx c.val).nextOut
          ∧ ∃ q, (t.stream c.val).frames = [q] ∧ q.frame = r.frame ∧ q.input = frame ∧ q.dropped = false ∧ q.unrun = none ∧ q.released ≤ q.total
            ∧ (q.released < q.total → (q.needs.getD q.released 0 - s.beamLead (s.outOf c.val) - q.spacing ≤ s.placedOf (s.outOf c.val) r.frame) = False)))

/-- LAYER_SET puts a record that is as R292 asks, with its table, into the shadow of its slot; nothing applied or pending changes (R291). -/
def Claim.LayerSetShadows : Prop :=
  ∀ (s : State) (h : DescHdr) (slot : Nat) (output : OutId) (k : Byte) (host : Bool) (record : W64), s.Sole h slot →
    let n := output.val
    let v := s.start h
    let l := v.memRead host record.toNat 256
    k.toNat < 22 → (host = false → v.guarded record.toNat 256 = false) → (host = true → v.absentIn record.toNat 256 = none) →
    v.recordOk n k.toNat host l = true → (host = true → v.absentIn (tableAddr k.toNat l) (tableBytes k.toNat l) = none) →
    exec (.layerSet h output k host record) s = .next ((v.setComp n { v.comp n with
      shadow := (v.comp n).shadow.setRecord k.toNat l (v.memRead host (tableAddr k.toNat l) (tableBytes k.toNat l)) }).reported h slot opLayerSet stOk)

/-- WRITEBACK_SET for an open context: with the generator on, the binding waits for the next commit point; with it disabled, the binding takes
effect at once and the descriptor completes (Table 14.5). -/
def Claim.WritebackSetBinds : Prop :=
  ∀ (s : State) (h : DescHdr) (slot : Nat) (b : WritebackBody), s.Sole h slot →
    let n := b.output.val
    let v := s.start h
    let t := (v.tgOf n).eff
    let l := (v.comp n).writebacks
    let w : Writeback := { num := v.nextXfer, ctx := h.ctx, body := b, since := none, hdr := some h }
    let u := { v with nextXfer := v.nextXfer + 1 }
    (b.point.val = 2 → b.slot.toNat < 20) → (b.host = true ∨ b.buffers.val = 0 ∨ v.guarded b.base.toNat (writebackSpan b t.hAct.toNat t.vAct.toNat) = false) →
    (v.ctx h.ctx.toNat).state ≠ .closed →
    (v.tgOn n = true → exec (.writebackSet h b) s = .next (u.setComp n { v.comp n with writebacks := l ++ [w] }))
    ∧ (v.tgOn n = false → (∀ q ∈ l, q.since ≠ none) → exec (.writebackSet h b) s = .next ((u.setComp n { v.comp n with
        writebacks := bindWriteback (l ++ [w]) w ((v.comp n).frame + 1) }).reported h slot opWritebackSet stOk))

/-- COMMIT of outputs whose shadows pass: with the generators on, a snapshot of each shadow waits behind those pending; with them off, the
shadows are applied at once and COMMIT completes with OK and its frame (R310, R311). -/
def Obligations.CommitSnapshots : Prop :=
  ∀ (s : State) (h : DescHdr) (slot : Nat) (mask : BitVec 4) (frame : W32) (first : Nat) (rest : List Nat), s.Sole h slot →
    let v := s.start h
    let outs := bitsOf mask
    outs = first :: rest → (∀ n ∈ outs, ((v.comp n).shadow.stage.orderOk = true ∧ (v.comp n).shadow.stage.depth = (v.tgOf n).eff.bpc)) →
    ((v.setsTouched (v.movesLines outs first frame)).all (v.capture outs first h frame none false).setAdmits) = true →
    ((∀ n ∈ outs, v.tgOn n = true ∧ (v.comp n).pending.length < 4) →
      Ends (.commit h mask frame) s (fun t => t.commitCount = s.commitCount + 1
        ∧ (∃ w, t.commits = s.commits ++ [w] ∧ w.hdr = h ∧ w.mask = mask ∧ w.left = mask)
        ∧ ∀ n ∈ outs, (t.comp n).applied = (s.comp n).applied
            ∧ ∃ p, (t.comp n).pending = (s.comp n).pending ++ [p] ∧ p.slots = (s.comp n).shadow ∧ p.named = frame))
    ∧ ((∀ n ∈ outs, v.tgOn n = false ∧ (v.comp n).pending = []) → v.commits = [] →
      Ends (.commit h mask frame) s (fun t => t.commits = [] ∧ (∀ n ∈ outs, (t.comp n).applied = (s.comp n).shadow ∧ (t.comp n).pending = [])
        ∧ s.Reports t h slot opCommit stOk frame))

/-- JOB_RUN of a bound simmer context with no job, on a set that is usable and with groups to spare: the job waits for dispatch; a pointer list of
no entries completes (R230, R231). -/
def Claim.JobRunStarts : Prop :=
  ∀ (s : State) (h : DescHdr) (slot : Nat) (b : JobBody) (bd : Bound), s.Sole h slot →
    let c := h.ctx.toNat
    let v := s.start h
    s.copyAhead h = false → (v.ctx c).bound = some bd → liveCtx c = false → (v.ctx c).job = none → v.setUsable bd.mask = true → v.groupsFit bd.image = true →
    (b.listEn = true → b.count.toNat ≤ 4096 ∧ b.list.toNat % 64 = 0 ∧ (b.listHost = true ∨ v.guarded b.list.toNat (16 * b.count.toNat) = false)
      ∧ (b.listHost = true → v.absentIn b.list.toNat (16 * b.count.toNat) = none)) →
    ((b.listEn = false ∨ b.count ≠ 0) → Ends (.jobRun h b) s (fun t => (∃ j, (t.ctx c).job = some j ∧ j.hdr = h ∧ j.body = b ∧ j.inst = 0 ∧ j.started = false)
      ∧ (t.ctx c).bound = some bd ∧ (t.sq h.sq.val).inflight = (v.sq h.sq.val).inflight))
    ∧ (b.listEn = true → b.count = 0 → Ends (.jobRun h b) s (fun t => (t.ctx c).job = none ∧ s.Reports t h slot opJobRun stOk 0))

/-- DISPATCH of a waiting job whose entry is present and whose variant exists: its instance starts on every frond of its set (R105, R231). -/
def Claim.DispatchStarts : Prop :=
  ∀ (s : State) (ctx : BitVec 14) (b : Bound) (j : Job) (i : Nat), s.inert = false →
    let c := ctx.toNat
    (s.ctx c).bound = some b → (s.ctx c).job = some j → j.started = false → s.canDispatch c b = true → s.entryPage j = none →
    (s.jobEntry j).1.toNat % 512 = 0 → s.selectFor c b (kindOf false (s.anyRow c)) (s.jobEntry j).2 = .ok i →
    (∀ f ∈ b.fronds, (s.frond f).dma = []
      ∧ (((s.heldFor f false (s.nextTask b.mask).1).map (fun h => h.count.toNat)).sum ≤ 65535)) →
    Ends (.dispatch ctx) s (fun t => (t.ctx c).job = some { j with started := true, ended := [], taskNo := (s.nextTask b.mask).1 }
      ∧ ∀ f ∈ b.fronds, ((t.frond f).simmer.map (fun k => (k.ctx, k.variant, k.cmdIndex))) = some (c, i, 0))

/-- COPY with both sides in order is queued on a stream mover (R261), and completes with OK once all its bytes are delivered. -/
def Claim.CopyMoves : Prop :=
  (∀ (s : State) (h : DescHdr) (slot : Nat) (srcSpace dstSpace : Space) (src dst : Walk), s.Sole h slot →
    let c := h.ctx.toNat
    let v := s.start h
    let sp := v.served srcSpace
    let dp := v.served dstSpace
    let run := liveCtx c && decide ((v.ctx c).state = .running)
    s.moverRoom ≠ 0 → s.copyAhead h = false → s.workAhead h = false → src.ok = true → dst.ok = true → src.total % 512 = 0 → src.total = dst.total → v.sideServed sp src = true →
    v.sideServed dp dst = true → (v.ctx c).state ≠ .closed → (sp = .hbm ∨ dp = .hbm) → v.sideStatus sp src = stOk → v.sideStatus dp dst = stOk →
    exec (.copy h srcSpace dstSpace src dst) s = .next (v.post
      { id := 0, kind := .copy h, ctx := c, live := liveCtx c, srcSpace := sp, src := src, dstSpace := dp, dst := dst, total := src.total, done := 0,
        deadline := if run then deadlineOf (v.releaseAt c (v.ctx c).nextOut) else 0xFFFFFFFF, page := none }))
  ∧ (∀ (s : State) (h : DescHdr) (slot : Nat) (m : Fin 32) (xfer : Nat) (x : Xfer), s.Sole h slot →
    (s.mover m.val).outstanding.find? (fun y => decide (y.id = xfer)) = some x → x.kind = .copy h → x.done = x.total →
    Ends (.streamMoverTransferDone m xfer) s (fun t => s.Reports t h slot opCopy stOk))

/-! ### The ladle trigger and the counters -/

/-- The local latch instant is the first multiple of 16 ns at least 1 µs after the firing (R502), short of the end of the DTB. -/
def Claim.LocalLatch : Prop :=
  ∀ t : W64, t.toNat < 2 ^ 63 → (localLatch t).toNat % 16 = 0 ∧ t.toNat + 1000 ≤ (localLatch t).toNat ∧ (localLatch t).toNat < t.toNat + 1016

/-- ARM arms; an armed trigger with nothing pending takes FIRE, the input edge and a peer's message, each at its instant and with its cause; a
SNAPSHOT needs no arming and waits for the latch (R502, R503, R504). A linked one is sent over every link that is up. -/
def Claim.LadleFires : Prop :=
  ∀ (s : State) (now : W64), s.inert = false → s.ldl.pending = false →
    let T := (s.at_ now).dtb
    let due (linked : Bool) : W64 := if linked then T + 20000 else localLatch T
    let sent (linked : Bool) : List (Nat × W64) := if linked then s.upLinks.map (fun k => (k, T + 20000)) ++ s.ldl.fireSent else s.ldl.fireSent
    (∀ value : W32, bitOf value 0 = true → bitOf value 1 = false → Ends (.arm value) s (fun t => t.ldl.armed = true ∧ t.ldl.pending = false))
    ∧ (∀ value : W32, s.ldl.armed = true → bitOf value 1 = true → Ends (.fire value now) s (fun t =>
        t.ldl.pending = true ∧ t.ldl.pendL = due (bitOf value 2) ∧ t.ldl.pendCause = 0 ∧ t.ldl.armed = false ∧ t.ldl.fireSent = sent (bitOf value 2)))
    ∧ (s.ldl.armed = true → s.ldl.srcPin = true → Ends (.ladleInEdge now) s (fun t =>
        t.ldl.pending = true ∧ t.ldl.pendL = due s.ldl.linked ∧ t.ldl.pendCause = 4 ∧ t.ldl.armed = false ∧ t.ldl.fireSent = sent s.ldl.linked))
    ∧ (∀ latchAt : W64, s.ldl.armed = true → s.ldl.acceptRemote = true → T.toNat ≤ latchAt.toNat → Ends (.ladleFireMessage latchAt now) s (fun t =>
        t.ldl.pending = true ∧ t.ldl.pendL = latchAt ∧ t.ldl.pendCause = 7 ∧ t.ldl.armed = false))
    ∧ (∀ (h : DescHdr) (slot : Nat) (linked : Bool), s.Sole h slot → Ends (.snapshot h linked now) s (fun t =>
        t.ldl.pending = true ∧ t.ldl.pendL = due linked ∧ t.ldl.pendCause = 1 ∧ t.ldl.waiting = s.ldl.waiting ++ [h] ∧ t.ldl.fireSent = sent linked
          ∧ (t.sq h.sq.val).inflight = ((s.start h).sq h.sq.val).inflight))

/-- At the latch instant the snapshot set is copied, and the latch shows the instant and the cause of the firing (Table 19.7). -/
def Claim.LadleLatches : Prop :=
  ∀ (s : State) (now : W64), s.inert = false → s.ldl.pending = true → s.ldl.pendL.toNat ≤ now.toNat →
    (s.ldl.waiting = [] ∨ ∀ q, (s.cq q).held = 0) →
    Ends (.ladleLatch now) s (fun t => t.ldl.pending = false ∧ t.ldl.valid = true ∧ t.ldl.dtb = s.ldl.pendL ∧ t.ldl.cause = s.ldl.pendCause
      ∧ t.ldl.waiting = [] ∧ t.ldl.snap = ⟨(s.at_ now).snapshotSet⟩ ∧ t.dtb = (s.at_ now).dtb)

/-- COUNTER_DUMP writes the counters that its mask selects and completes with OK (R505). -/
def Claim.CounterDumpWrites : Prop :=
  ∀ (s : State) (h : DescHdr) (slot : Nat) (host : Bool) (dst mask : W64), s.Sole h slot →
    let v := s.start h
    let bytes := 64 + 1024 * (bitsOf mask).length
    mask.toNat < 2 ^ 33 → (host = false → v.guarded dst.toNat bytes = false) → (host = true → v.absentIn dst.toNat bytes true = none) →
    exec (.counterDump h host dst mask) s = .next ((v.memWrite host dst.toNat (v.dumpBytes mask)).reported h slot opCounterDump stOk)
      ∧ (v.dumpBytes mask).length = bytes

/-- SMP_ENABLE: EN with a period and a counter of the catalogue starts the unit from the counter's value; otherwise the write is rejected
and the unit stays as it is (R499, R500). -/
def Claim.SampleUnitEnable : Prop :=
  ∀ (s : State) (u : Fin 16) (value : W32), s.inert = false → bitOf value 0 = true →
    let idx := fieldOf value 16 4
    ((s.unit u.val).period ≠ 0 → idx ≤ 0x107F → Ends (.smpEnable u value) s (fun t =>
      (t.unit u.val).en = true ∧ (t.unit u.val).counter.toNat = idx ∧ (t.unit u.val).base = (s.counterNow idx).toNat))
    ∧ ((s.unit u.val).period = 0 ∨ 0x107F < idx →
      exec (.smpEnable u value) s = .next (s.setUnit u.val { s.unit u.val with cfgReject := true }))

/-! ### Rings, records and windows of the host interface -/

/-- DESCRIPTOR_TAKE of the descriptor at HEAD of an eligible ring that no HIPRI ring is ahead of: it is in progress with STATE 1, HEAD advances, and the
doorbell record holds the new HEAD (R376, R413). -/
def Claim.DescriptorTaken : Prop :=
  ∀ (s : State) (sq : RingId) (now : W64) (c : Instr), s.inert = false →
    let u := s.at_ now
    let x := u.sq sq.val
    let addr := x.base.toNat + 64 * (x.head.toNat % x.size)
    u.eligible sq.val = true → (x.hipri = true ∨ ∀ r : RingId, ((u.sq r.val).hipri && u.eligible r.val) = false) →
    u.absentIn addr 64 = none → u.absentIn (x.recAddr.toNat + 8) 4 true = none → decodeDesc sq x.head u.dtb (u.hostRead addr 64) = some c →
    Ends (.descriptorTake sq now) s (fun t => (t.sq sq.val).head = x.head + 1
      ∧ (∃ y, (t.sq sq.val).inflight = x.inflight ++ [y] ∧ y.idx = x.head ∧ y.cmd = c ∧ y.state = 1 ∧ y.done = none)
      ∧ t.hostRead (x.recAddr.toNat + 8) 4 = toLe 4 (x.head.toNat + 1))

/-- A malformed descriptor alone on its ring completes with DESC_BAD (R386). -/
def Claim.MalformedDescriptor : Prop :=
  ∀ (s : State) (sq : RingId) (now : W64), s.inert = false →
    let u := s.at_ now
    let x := u.sq sq.val
    let addr := x.base.toNat + 64 * (x.head.toNat % x.size)
    u.eligible sq.val = true → (x.hipri = true ∨ ∀ r : RingId, ((u.sq r.val).hipri && u.eligible r.val) = false) → x.inflight = [] → s.hif.fences = [] →
    u.absentIn addr 64 = none → u.absentIn (x.recAddr.toNat + 8) 4 true = none → decodeDesc sq x.head u.dtb (u.hostRead addr 64) = none →
    Ends (.descriptorTake sq now) s (fun t => (t.sq sq.val).head = x.head + 1 ∧ (t.sq sq.val).inflight = []
      ∧ ∃ r, (t.cq x.cq.toNat).queue = (s.cq x.cq.toNat).queue ++ [r] ∧ r.status = stDescBad ∧ r.seq = x.head)

/-- SQ_TAIL_POLL reads the TAIL of an awake ring (R376, R377); RING_SLEEP with nothing to take for 64 µs writes SLEEP and puts the ring to sleep unless TAIL has
moved (R377); KICK wakes a sleeping ring, and one for a ring that is disabled is ignored (R379). -/
def Claim.RingsPollAndSleep : Prop :=
  ∀ (s : State) (sq : RingId), s.inert = false →
    let x := s.sq sq.val
    let tail := BitVec.ofNat 32 (leNat (s.hostRead x.recAddr.toNat 4))
    s.absentIn x.recAddr.toNat 64 true = none → s.absentIn x.recAddr.toNat 4 = none → (tail - x.head).toNat ≤ x.size →
    (∀ now : W64, x.active = true → x.sleep = false → exec (.sqTailPoll sq now) s = .next ((s.at_ now).setSq sq.val
        { x with tailSeen := tail, lastDesc := if tail = x.tailSeen then x.lastDesc else (s.at_ now).dtb }))
    ∧ (x.active = true → x.sleep = false → x.head = x.tailSeen → x.lastDesc.toNat + 64000 ≤ s.dtb.toNat → tail = x.tailSeen → Ends (.ringSleep sq) s (fun t =>
        (t.sq sq.val).sleep = true ∧ t.hostRead (x.recAddr.toNat + 0x0C) 4 = toLe 4 1 ∧ t.hostRead (x.recAddr.toNat + 0x10) 4 = toLe 4 tail.toNat))
    ∧ (s.dtb.toNat < x.lastDesc.toNat + 64000 → exec (.ringSleep sq) s = .next s)
    ∧ (∀ value : W32, fieldOf value 5 0 = sq.val → x.en = true → x.busy = false → x.sleep = true → Ends (.kick value) s (fun t =>
        (t.sq sq.val).sleep = false ∧ (t.sq sq.val).tailSeen = tail ∧ t.hostRead (x.recAddr.toNat + 0x0C) 4 = toLe 4 0))
    ∧ (∀ value : W32, fieldOf value 5 0 = sq.val → (x.en = false ∨ x.busy = true) →
        exec (.kick value) s = .next { s with hif := { s.hif with kickIgnored := true } })

/-- The oldest record of an enabled completion ring with room is written where TAIL points, and the doorbell record's TAIL follows (R382, R383). -/
def Claim.RecordWritten : Prop :=
  ∀ (s : State) (cq : RingId) (now : W64) (r : Record) (rest : List Record), s.inert = false →
    let c := s.cq cq.val
    let addr := c.base.toNat + 32 * (c.tail.toNat % c.size)
    c.queue = r :: rest → c.en = true → c.busy = false → c.hasRoom = true → s.absentIn addr 32 true = none → s.absentIn c.recAddr.toNat 64 true = none →
    (addr + 32 ≤ c.recAddr.toNat + 8 ∨ c.recAddr.toNat + 12 ≤ addr) →
    Ends (.completionRecordWrite cq now) s (fun t => (t.cq cq.val).tail = c.tail + 1 ∧ (t.cq cq.val).queue = rest
      ∧ t.hostRead addr 32 = recordBytes r c.tail c.log2.toNat c.overflowNext ∧ t.hostRead (c.recAddr.toNat + 8) 4 = toLe 4 (c.tail.toNat + 1)
      ∧ (∀ a, (a < addr ∨ addr + 32 ≤ a) → (a < c.recAddr.toNat + 8 ∨ c.recAddr.toNat + 12 ≤ a) → t.hostByte a = s.hostByte a))

/-- A full completion ring has its HEAD read again (R383); the moderation timer sends the vector MOD_US µs after the first record not signalled (R385). -/
def Claim.HeadPollAndModeration : Prop :=
  (∀ (s : State) (cq : RingId), s.inert = false → (s.cq cq.val).hasRoom = false → s.absentIn (s.cq cq.val).recAddr.toNat 4 = none →
    exec (.cqHeadPoll cq) s = .next (s.setCq cq.val { s.cq cq.val with headSeen := BitVec.ofNat 32 (leNat (s.hostRead (s.cq cq.val).recAddr.toNat 4)) }))
  ∧ (∀ (s : State) (cq : RingId) (now first : W64), s.inert = false →
    let c := s.cq cq.val
    c.firstUnsignalled = some first → c.modUs ≠ 0 → c.modCount ≠ 0 → first.toNat + 1000 * c.modUs.toNat ≤ now.toNat →
    exec (.msixModerationTimer cq now) s = .next (((s.at_ now).setCq cq.val { c with unsignalled := 0, firstUnsignalled := none }).msix c.vector))

/-- An MSI-X message leaves unless its table entry is masked; then it pends. -/
def Claim.MsixMask : Prop :=
  ∀ (s : State) (v : BitVec 9),
    let mask := bitOf (s.hif.msixTable.get (4 * v.toNat + 3) 1) 0
    (mask = false → (s.msix v).hif.msixSent = s.hif.msixSent ++ [v] ∧ (s.msix v).hif.msixPba = s.hif.msixPba)
    ∧ (mask = true → (s.msix v).hif.msixSent = s.hif.msixSent ∧ (s.msix v).hif.msixPba.getLsbD v.toNat = true)

/-- A ring's configuration is taken while it is disabled and idle, and rejected while it is enabled (R407); EN starts it, a submission ring at the HEAD of
its doorbell record (R375), halted when TAIL is further ahead than the ring is long (R376), a completion ring at 0 (R382). -/
def Claim.RingConfiguration : Prop :=
  ∀ (s : State) (ring : RingId) (value : W32), s.inert = false →
    (let x := s.sq ring.val
     let head := BitVec.ofNat 32 (leNat (s.hostRead (x.recAddr.toNat + 8) 4))
     let tail := BitVec.ofNat 32 (leNat (s.hostRead x.recAddr.toNat 4))
     (x.en = false → x.busy = false → bitOf value 16 = true → s.absentIn x.recAddr.toNat 64 = none → Ends (.ringEnable false ring value) s (fun t =>
        let y := t.sq ring.val
        y.en = true ∧ y.halted = decide (2 ^ fieldOf value 4 0 < (tail - head).toNat) ∧ y.log2.toNat = fieldOf value 4 0 ∧ y.cq.toNat = fieldOf value 13 8 ∧ y.hipri = bitOf value 14
          ∧ y.head.toNat = leNat (s.hostRead (x.recAddr.toNat + 8) 4)))
     ∧ (x.en = true → x.busy = false → bitOf value 16 = true → fieldOf value 4 0 ≠ x.log2.toNat →
        exec (.ringEnable false ring value) s = .next (s.setSq ring.val { x with cfgReject := true })))
    ∧ (let c := s.cq ring.val
     (c.en = false → c.busy = false → bitOf value 26 = true → Ends (.ringEnable true ring value) s (fun t =>
        let d := t.cq ring.val
        d.en = true ∧ d.tail = 0 ∧ d.headSeen = 0 ∧ d.log2.toNat = fieldOf value 4 0 ∧ d.modCount.toNat = fieldOf value 15 8 ∧ d.modUs.toNat = fieldOf value 25 16))
     ∧ (c.en = true → c.busy = false → bitOf value 26 = true → fieldOf value 4 0 ≠ c.log2.toNat →
        exec (.ringEnable true ring value) s = .next (s.setCq ring.val { c with cfgReject := true })))

/-- BAR4 reads ones from, and discards writes to, bytes that it does not serve and bytes past its end; a write that is served whole stores its bytes and no
others (R373). -/
def Claim.Bar4Window : Prop :=
  ∀ (s : State) (offset : W64) (data : List Byte), s.inert = false →
    let a := s.hif.b4Base.toNat + offset.toNat
    let inside (i : Nat) : Prop := offset.toNat + i < 2 ^ s.svc.bar4Log2
    (∃ l : List Byte, exec (.bar4Access false offset data) s = .next { s with readData := l } ∧ l.length = data.length
      ∧ ∀ i < data.length, (inside i ∧ s.guarded (a + i) 1 = false → l.getD i 0 = s.hbmByte (a + i))
        ∧ (¬inside i ∨ s.guarded (a + i) 1 = true → l.getD i 0 = 0xFF))
    ∧ (¬inside 0 → ∃ t, exec (.bar4Access true offset data) s = .next t ∧ ∀ i, t.hbmByte i = s.hbmByte i)
    ∧ (inside (data.length - 1) → s.guarded a data.length = false → exec (.bar4Access true offset data) s = .next (s.hbmWrite a data)
        ∧ ∀ i, (s.hbmWrite a data).hbmByte i = if a ≤ i ∧ i < a + data.length then data.getD (i - a) 0 else s.hbmByte i)
    ∧ (inside (data.length - 1) → (∀ i < data.length, s.guarded (a + i) 1 = true) → s.guarded a data.length = true → exec (.bar4Access true offset data) s = .next s)

/-- A peer's request over an up mesh link reads this device's HBM, with its mark, or writes it, with its own (R285, R469); one that meets what this device
guards changes no memory (R470). -/
def Claim.RemoteHbm : Prop :=
  ∀ (s : State) (link : Fin 4) (addr : W64) (data : List Byte), s.inert = false → (s.link link.val).up = true → (s.link link.val).isRing link.val = false →
    let a := addr.toNat
    let n := data.length
    (s.guarded a n = false →
      exec (.remoteHbmRequest link .read addr data) s =
        .next { s with readData := s.hbmRead a n, lwl := { s.lwl with answerBad := s.hbmPoisoned a n } }
      ∧ exec (.remoteHbmRequest link .write addr data) s = .next (s.hbmWrite a data)
      ∧ exec (.remoteHbmRequest link .poisonedWrite addr data) s = .next ((s.hbmWrite a data).poisonHbm a n))
    ∧ (s.guarded a n = true → ∀ kind ≠ .read, exec (.remoteHbmRequest link kind addr data) s = .next s)

/-- Translations come and go: an invalidated page has the new one that the host gives, free here (R272, log 80); an answered request gives reads and writes back,
with nothing waiting that is all; a failed one ends a COPY that waited with PRI_DENIED (R270). -/
def Claim.PagesAnswered : Prop :=
  ∀ (s : State) (page : BitVec 52), s.inert = false →
    Ends (.atsInvalidation page) s (fun t => t.invalDone = s.invalDone + 1 ∧ t.pageReqs = s.pageReqs ∧ t.host = s.host ∧ t.movers = s.movers
      ∧ ∀ p, p ≠ page.toNat → (t.absent.contains p = s.absent.contains p ∧ t.readOnly.contains p = s.readOnly.contains p))
    ∧ (s.pageReqs.contains page.toNat = true → s.pageWaiters page.toNat = [] → s.frondWaiters page.toNat = [] →
        exec (.pageResponse page .success) s = .next (State.askPages { s with
          absent := s.absent.filter (fun p => decide (p ≠ page.toNat)), readOnly := s.readOnly.filter (fun p => decide (p ≠ page.toNat))
          pageReqs := s.pageReqs.filter (fun p => decide (p ≠ page.toNat)) }))
    ∧ (∀ (h : DescHdr) (slot : Nat) (m : Fin 32) (x : Xfer), s.Sole h slot → s.pageReqs.contains page.toNat = true → s.pageWaiters page.toNat = [(m.val, x)] →
        s.frondWaiters page.toNat = [] → x.kind = .copy h →
        Ends (.pageResponse page .invalidRequest) s (fun t => s.Reports t h slot opCopy stPriDenied)
        ∧ Ends (.pageResponse page .responseFailure) s (fun t => s.Reports t h slot opCopy stPriDenied)
        ∧ Ends (.priTimeout page) s (fun t => s.Reports t h slot opCopy stPriDenied))

/-- A live transfer that waits for a page past its deadline is cancelled: its mover shows it, and a COPY completes with PAGE_LATE (R273). -/
def Claim.PageLateCancels : Prop :=
  ∀ (s : State) (h : DescHdr) (slot : Nat) (m : Fin 32) (xfer : Nat) (now : W64) (x : Xfer), s.Sole h slot →
    (s.mover m.val).outstanding.find? (fun y => decide (y.id = xfer)) = some x → x.kind = .copy h → x.live = true → x.page ≠ none →
    deadlineLe (deadlineOf (s.at_ now).dtb) x.deadline = false →
    Ends (.pageLate m xfer now) s (fun t => (t.mover m.val).pageLateSeen = true ∧ (s.at_ now).Reports t h slot opCopy stPageLate)

/-! ### Timing generators -/

/-- TG_CTL with EN = 1 (alone, or with PAIR) on a generator that is off: it begins to start when its timing keeps the limits, splits into the MST
streams, equals its source's and finds granules; a timing outside them is refused with TIM_REJECT, too few granules with RS_NOSPACE (R316, R322, R326, R329).
Whether the timing of a source on another device is equal is free (log 38). -/
def Claim.GeneratorEnable : Prop :=
  ∀ (s : State) (n : OutId) (value : W32) (c : Instr), (c = .tgEnable n value ∨ c = .pair n value) → s.inert = false → bitOf value 0 = true →
    let pair := bitOf value 1 && decide (n.val % 2 = 0)
    let t := (s.tg n.val).shadow
    let far := s.farTiming n.val
    (s.source n.val ≠ some none → far = (true, s)) ∧ (
    (s.tg n.val).phase = .off → s.upperHalf n.val = false → (pair = true → (s.tg (n.val + 1)).phase = .off) →
    ((s.timingOk n.val t && s.mstFits n.val pair t && s.followOk n.val) = false →
      exec c s = .next (s.setTg n.val { s.tg n.val with timReject := true }))
    ∧ ((s.timingOk n.val t && s.mstFits n.val pair t && s.followOk n.val) = true →
      (far.1 = false → exec c s = .next (far.2.setTg n.val { s.tg n.val with timReject := true }))
      ∧ (far.1 = true → s.freeGranules < t.granules * (halvesOf n.val pair).length →
          exec c s = .next (far.2.setTg n.val { s.tg n.val with rsNospace := true }))
      ∧ (far.1 = true → t.granules * (halvesOf n.val pair).length ≤ s.freeGranules → Ends c s (fun u => (u.tg n.val).en = true
        ∧ ∀ h ∈ halvesOf n.val pair, (u.tg h).phase = .starting ∧ (u.tg h).eff = t ∧ (u.tg h).granules = t.granules ∧ (u.tg h).paired = pair))))

/-- TG_CTL on a running generator: EN = 0 begins its shut-down at the end of the frame (R327); UPD beside EN = 1 arms an update that is allowed, and one that
is not is refused with TIM_REJECT (R323, R324). -/
def Claim.GeneratorDisableAndUpdate : Prop :=
  ∀ (s : State) (n : OutId) (value : W32), s.inert = false → (s.tg n.val).phase = .running → s.upperHalf n.val = false →
    (bitOf value 0 = false → ((s.tg n.val).paired = true ∨ bitOf value 1 = false) →
      Ends (.tgDisable n value) s (fun u => (u.tg n.val).phase = .ending ∧ (u.tg n.val).en = false ∧ (u.tg n.val).line = (s.tg n.val).line))
    ∧ (bitOf value 0 = true → bitOf value 2 = true → s.source n.val = none → s.pairRefused n.val true (bitOf value 1 && decide (n.val % 2 = 0)) = false →
      (s.updateOk n.val = true → Ends (.upd n value) s (fun u => (u.tg n.val).updPend = true ∧ (u.tg n.val).phase = .running ∧ (u.tg n.val).eff = (s.tg n.val).eff))
      ∧ (s.updateOk n.val = false → exec (.upd n value) s = .next (s.setTg n.val { s.tg n.val with timReject := true })))

/-- A generator that follows no other starts at line 0 of frame 0 at the instant of the start (R326); a tick moves a running one to its next line, and
after the last line to line 0 of the next frame, with the number and the instant of its source's where it follows one that has begun it (R467), and with the
timing captured for it (R18, R323), or ends its shut-down (R327). -/
def Obligations.GeneratorRuns : Prop :=
  (∀ (s : State) (n : OutId) (now : W64), s.inert = false → (s.tg n.val).phase = .starting → s.upperHalf n.val = false → s.source n.val = none →
    exec (.tgStart n now) s =
      .next (((((halvesOf n.val (s.tg n.val).paired).foldl (fun u h => u.halfStart h 0 now) (s.at_ now)).turnShot n.val (some now)).checkGeometry n.val).tickWork
        n.val {})
    ∧ ∀ (u : State) (h : Nat), let g := (u.halfStart h 0 now).tg h
        g.line = 0 ∧ g.frame = 0 ∧ g.boundary = now ∧ g.phase = (if (u.tg h).endAfterStart then .ending else .running))
  ∧ (∀ (s : State) (n : OutId) (r : RasterSense) (now : W64), s.inert = false → s.upperHalf n.val = false →
    let g := s.tg n.val
    (g.running = false → exec (.lineTick n r now) s = .next (s.at_ now))
    ∧ (g.running = true → g.atEnd = false → g.paired = false →
        exec (.lineTick n r now) s = .next (((s.at_ now).setTg n.val (g.advance now)).tickWork n.val r)
          ∧ (g.advance now).line = g.line + 1 ∧ (g.advance now).frame = g.frame ∧ (g.advance now).phase = g.phase)
    ∧ (g.phase = .running → g.atEnd = true → exec (.lineTick n r now) s = .next (((s.at_ now).tgBoundary n.val now).tickWork n.val r)
          ∧ (s.source n.val = none → s.frameBegun n.val now = (g.frame + 1, now))
          ∧ (∀ k, s.source n.val = some (some k) → (s.tgOf k).running = true → frameLt g.frame (s.tgOf k).frame = true →
              s.frameBegun n.val now = ((s.tgOf k).frame, (s.tgOf k).boundary))
          ∧ ∀ (u : State) (h : Nat) (frame : W32) (start : W64), let k := (u.halfBoundary h frame start).tg h
              k.line = 0 ∧ k.frame = frame ∧ k.boundary = start ∧ k.eff = (u.tg h).next.getD (u.tg h).eff)
    ∧ (g.phase = .ending → g.atEnd = true → exec (.lineTick n r now) s = .next ((s.at_ now).tgStop n.val)))

/-- The event of variable blanking: the chosen TE edge in mode 3, the first active line of a captured frame in mode 2, once per frame and only while the
generator is in its porch (R331, R332); any other TE edge changes the pin alone, and a level that the pin already has changes nothing. -/
def Claim.BlankingEvents : Prop :=
  ∀ (s : State) (n : OutId) (now t : W64), s.inert = false → s.upperHalf n.val = false →
    let g := s.tg n.val
    (∀ level : Bool, level ≠ g.tePol ∨ bitOf s.pins.te n.val = level → exec (.teEdge n level t now) s =
        .next { s.at_ now with pins := { s.pins with te := setBit s.pins.te n.val level } })
    ∧ (g.running = true → g.eff.vAct.toNat ≤ g.line.toNat → g.afterPorch = none → g.event = none → g.porchAt.toNat < t.toNat →
      (g.eff.vrrMode = 3 → bitOf s.pins.te n.val ≠ g.tePol → Ends (.teEdge n g.tePol t now) s (fun u => (u.tg n.val).event = some t ∧ u.pins.te = setBit s.pins.te n.val g.tePol))
      ∧ (∀ rx : Fin 2, g.eff.vrrMode = 2 → g.eff.vrrSrc = decide (rx.val = 1) → Ends (.captureLockEvent rx t now) s (fun u => (u.tg n.val).event = some t)))

/-- LSCH_OUT_CFG: a beam lead in range is in force at once on an output whose generator is off and from the next boundary on one that runs; with a live stream it
is refused with BL_REJECT (R43, R44). EN = 0 stops the live streams at the next boundary (R46). -/
def Claim.OutputConfiguration : Prop :=
  ∀ (s : State) (n : OutId) (value : W32) (c : Instr), (c = .beamLeadWrite n value ∨ c = .lschOutDisable n value) → s.inert = false →
    let o := s.out n.val
    let lead := BitVec.ofNat 13 (fieldOf value 12 0)
    let idle := (s.governed n.val).isEmpty
    let en := bitOf value 16
    let stop := o.stopAtBoundary || (!en && !idle)
    (lead.toNat = o.accepted → exec c s = .next (s.setOut n.val { o with en := en, stopAtBoundary := stop }))
    ∧ (lead.toNat ≠ o.accepted → (idle = false ∨ s.leadOk n.val lead.toNat = false) →
        exec c s = .next (s.setOut n.val { o with blReject := true, en := en, stopAtBoundary := stop }))
    ∧ (lead.toNat ≠ o.accepted → idle = true → s.leadOk n.val lead.toNat = true → (s.tgOf n.val).phase = .off →
        exec c s = .next (s.setOut n.val { o with beamLead := lead, beamNext := none, en := en, stopAtBoundary := stop }))
    ∧ (lead.toNat ≠ o.accepted → idle = true → s.leadOk n.val lead.toNat = true → (s.tgOf n.val).phase ≠ .off →
        exec c s = .next (s.setOut n.val { o with beamNext := some lead, en := en, stopAtBoundary := stop }))

/-! ### Composition, ports and panels -/

/-- A frond's section of a line in time enters the line's queue entry, once for each rank (R427); one that comes late (R47), or whose stripe no raster line
reads (R556), leaves every queue as it is. -/
def Claim.LineQueue : Prop :=
  ∀ (s : State) (l : LineSection) (r : FrameRun), s.inert = false → s.frameRun l.ctx.val l.frame = some r →
    let n := s.outOf l.ctx.val
    let old := (s.comp n).queue.find? (fun q => decide (q.ctx = l.ctx.val) && decide (q.frame = l.frame) && decide (q.line = l.line.toNat))
    let read := r.stripeRead (s.ctx l.ctx.val).stripeH l.line.toNat
    (r.dropped = false → r.judged.contains l.line.toNat = false → l.line.toNat < r.lines → read = true → (∀ q, old = some q → q.complete = false ∧ q.ranks.contains l.rank.toNat = false) →
      Ends (.lineQueueArrival l) s (fun t => ∃ q ∈ (t.comp n).queue, q.ctx = l.ctx.val ∧ q.frame = l.frame ∧ q.line = l.line.toNat
        ∧ l.rank.toNat ∈ q.ranks ∧ q.poisoned = ((old.map QueueLine.poisoned).getD false || l.poisoned)))
    ∧ ((r.dropped = true ∨ r.judged.contains l.line.toNat = true ∨ r.lines ≤ l.line.toNat ∨ read = false) → Ends (.lineQueueArrival l) s (fun t => t.comps = s.comps ∧ t.hbm = s.hbm ∧ t.host = s.host))

/-- COMPOSE_LINE of a line whose time has come (R309) and whose live lines are known (R47) writes one raster line of its output and of no other, from the state
captured for the frame (R317). -/
def Claim.LineComposed : Prop :=
  ∀ (s : State) (n : OutId) (y : BitVec 14) (late : BitVec 23) (gainLate : Bool) (a : Applied), s.inert = false →
    let c := (s.comp n.val).stateFor y.toNat
    let t := (s.tgOf n.val).eff
    c.states.head? = some a → (s.tgOf n.val).running = true → y.toNat < t.vAct.toNat → s.mayCompose n.val y.toNat c a = true →
    Ends (.composeLine n y late gainLate) s (fun u => (u.comp n.val).composed = y.toNat + 1
      ∧ (∃ line : List Byte, u.raster.outs.get n.val {} = (s.raster.outs.get n.val {}).write (t.pitch * y.toNat) line)
      ∧ (∀ m, m ≠ n.val → u.raster.outs.get m {} = s.raster.outs.get m {}) ∧ u.tgs = s.tgs)

/-- An uncorrectable error in the lid image marks one pixel, and counts (R320); an underrun counts, and sends a run of at least one pixel of one stream of the
line as the pixel before it (R336); a retried flit, and the codewords that FEC corrected, only count (R458). -/
def Claim.SmallErrors : Prop :=
  (∀ (s : State) (n : OutId) (pixel : BitVec 20), s.inert = false → Ends (.lidAreaUncorr n pixel) s (fun t =>
    pixel.toNat ∈ (t.comp n.val).lid.bad ∧ (t.comp n.val).queue = (s.comp n.val).queue ∧ (t.comp n.val).applied = (s.comp n.val).applied
      ∧ (∀ m, m ≠ n.val → t.comp m = s.comp m) ∧ t.tgs = s.tgs
      ∧ t.pmon.counters.get (cntRaster 1) 0 = satAdd (s.pmon.counters.get (cntRaster 1) 0) 1))
  ∧ (∀ (s : State) (n : OutId), s.inert = false →
    let sent := s.raster.sent.get n.val []
    let w := sent.length / 3 / s.streamsOf n.val
    (w = 0 → exec (.underrun n) s = .next s)
    ∧ (w ≠ 0 → Ends (.underrun n) s (fun t =>
    t.pmon.counters.get (cntPort n.val 0) 0 = satAdd (s.pmon.counters.get (cntPort n.val 0) 0) 1 ∧ t.dptx = s.dptx ∧ t.hbm = s.hbm ∧ t.host = s.host
      ∧ (∀ m, m ≠ n.val → t.raster.sent.get m [] = s.raster.sent.get m []) ∧ t.raster.outs = s.raster.outs
      ∧ ∃ x run, t.raster.sent.get n.val [] = repeatPixel sent w x run ∧ 0 < run ∧ x % w + run ≤ w ∧ 3 * (x + run) ≤ sent.length)))
  ∧ (∀ (s : State) (k : Fin 4) (corrected : Byte), s.inert = false → (s.link k.val).up = true → Ends (.retry ⟨k, corrected⟩) s (fun t =>
    t.pmon.counters.get (cntLink k.val 1) 0 = satAdd (s.pmon.counters.get (cntLink k.val 1) 0) 1
      ∧ t.pmon.counters.get (cntLink k.val 0) 0 = satAdd (s.pmon.counters.get (cntLink k.val 0) 0) corrected.toNat ∧ t.lwl.links = s.lwl.links ∧ t.hbm = s.hbm ∧ t.host = s.host))

/-- A plugged sink starts training on an enabled port (R338); an unplugged one takes the link down with the wiring corrections (R348); an IRQ leaves a link
that is up alone, and trains one that is not (R337). -/
def Claim.HotPlug : Prop :=
  ∀ (s : State) (n : OutId) (now : W64), s.inert = false →
    (∀ (asyncSink : Bool) (panel : List (List Byte)), Ends (.hpdPlug n asyncSink panel now) s (fun t => let p := t.port n.val
      p.hpd = true ∧ p.asyncSink = asyncSink ∧ p.linkUp = false ∧ p.training = ((s.port n.val).en && !(s.port n.val).shorted)))
    ∧ Ends (.hpdUnplug n now) s (fun t => let p := t.port n.val
        p.hpd = false ∧ p.linkUp = false ∧ p.training = false ∧ p.laneRev = false ∧ p.polInv = 0 ∧ p.auxInv = false ∧ (s.upperHalf n.val = false → (t.wear n.val).trusted = false))
    ∧ Ends (.irqHpd n now) s (fun t => let p := t.port n.val
        p.linkUp = (s.port n.val).linkUp ∧ ((s.port n.val).linkUp = false → p.training = ((s.port n.val).en && (s.port n.val).hpd && !(s.port n.val).shorted)))

/-- A training of an enabled port with its sink: the link is up in the first configuration that trained, of the widest lanes left and each at its highest rate,
and that carries the stream; with none it is down with NO_BW (R337, R338, R347). -/
def Claim.LinkTraining : Prop :=
  ∀ (s : State) (n : OutId) (x : TrainSense) (now : W64), s.inert = false →
    let p := s.port n.val
    let load := s.streamLoad n.val
    let found := ((widestLanes p.maxLanes.toNat x.openLanes).map (trainedConfigs x p.maxRate.toNat)).getD []
    let fits (l : Nat × Nat) : Bool := linkFits l.2 (laneCount l.1) (s.mstOf n.val).toNat load.1 load.2
    p.training = true → p.en = true → p.hpd = true → p.shorted = false →
    (∀ l ∈ found, l.1 ≤ p.maxLanes.toNat ∧ l.2 ≤ p.maxRate.toNat ∧ l.2 ≤ 6)
    ∧ (∀ l, found.find? fits = some l →
      Ends (.dpLinkTraining n x now) s (fun t => let q := t.port n.val
        q.linkUp = true ∧ q.training = false ∧ q.rate = BitVec.ofNat 3 l.2 ∧ q.lanes = BitVec.ofNat 2 l.1 ∧ q.openLanes = x.openLanes))
    ∧ (found.find? fits = none →
      Ends (.dpLinkTraining n x now) s (fun t => (t.port n.val).linkUp = false ∧ (t.port n.val).noBw = true ∧ (t.port n.val).training = false))

/-- DPTX_CTL under PORT_LOCK is ignored with LOCKED_WR (R482); otherwise RETRAIN on an enabled port takes the link down and trains it (R338). -/
def Claim.PortControl : Prop :=
  ∀ (s : State) (n : OutId) (value : W32), s.inert = false →
    (bitOf s.locks 3 = true → exec (.retrain n value) s = .next { s with lockedWr := true })
    ∧ (bitOf s.locks 3 = false → bitOf value 0 = true → bitOf value 8 = true → Ends (.retrain n value) s (fun t => let p := t.port n.val
        p.en = true ∧ p.maxRate.toNat = fieldOf value 3 1 ∧ p.maxLanes.toNat = fieldOf value 5 4 ∧ p.mst.toNat = fieldOf value 7 6 ∧ p.linkUp = false
          ∧ p.training = ((s.port n.val).hpd && !(s.port n.val).shorted)))
    ∧ (bitOf s.locks 3 = false → bitOf value 0 = false → Ends (.retrain n value) s (fun t => let p := t.port n.val
        p.en = false ∧ p.linkUp = false ∧ p.training = false))

/-- One AUX transaction at a time: a second write is dropped, a reply ends the first with its bytes (R341), none while a short holds the port (R346). A receive port answers reads of the EDID (R342), at the I²C
addresses of log 40. -/
def Claim.AuxChannel : Prop :=
  (∀ (s : State) (n : OutId) (value : W32), s.inert = false →
    ((s.port n.val).auxBusy = true → exec (.auxTransaction n value) s = .next (s.setPort n.val { s.port n.val with wrDropped := true }))
    ∧ ((s.port n.val).auxBusy = false → Ends (.auxTransaction n value) s (fun t => let p := t.port n.val
        p.auxBusy = true ∧ p.auxAddr.toNat = fieldOf value 19 0 ∧ p.auxLen.toNat = fieldOf value 23 20 ∧ p.auxCmd.toNat = fieldOf value 27 24)))
  ∧ (∀ (s : State) (n : OutId) (reply : BitVec 2) (data : List Byte), s.inert = false → (s.port n.val).auxBusy = true → data.length ≤ 16 →
    ((s.port n.val).shorted = false → Ends (.auxReply n reply data) s (fun t => let p := t.port n.val
      p.auxBusy = false ∧ p.auxReply = reply ∧ p.auxCount.toNat = data.length ∧ ∀ i < data.length, p.auxData.get i 0 = data.getD i 0))
    ∧ ((s.port n.val).shorted = true → exec (.auxReply n reply data) s =
        .next (s.setPort n.val { s.port n.val with auxBusy := false, auxReply := 3, auxCount := 0 })))
  ∧ (∀ (s : State) (rx : Fin 2) (data : List Byte) (count : BitVec 5), s.inert = false →
    let r := s.rx rx.val
    exec (.dprxAuxRequest rx true 0x50 data count) s = .next (s.setRx rx.val { r with offset := data.headD r.offset, reply := [] })
    ∧ exec (.dprxAuxRequest rx true 0x30 data count) s = .next (s.setRx rx.val { r with segment := data.headD r.segment, reply := [] })
    ∧ exec (.dprxAuxRequest rx false 0x50 data count) s = .next (s.setRx rx.val { r with
        offset := r.offset + BitVec.ofNat 8 count.toNat
        reply := (List.range count.toNat).map (fun i => r.edid.get ((256 * r.segment.toNat + (r.offset.toNat + i) % 256) % 512) 0) }))

/-- A short on a lane or AUX pin that is not shorted yet takes the port's drivers away until its pins test clean, and the first one is held in DPTX_FAULT; one
that persists changes nothing; pins that test clean give the port back, and the panel of a sink not read yet is read (R345, R346). -/
def Claim.PortProtection : Prop :=
  ∀ (s : State) (n : OutId), s.inert = false →
    (∀ (pin : BitVec 4) (now : W64), pin.toNat < 10 → (s.port n.val).shortPins.contains pin.toNat = false → Ends (.portShort n pin now) s (fun t => let p := t.port n.val
      p.shorted = true ∧ p.linkUp = false ∧ p.training = false ∧ p.faultValid = true
        ∧ ((s.port n.val).faultValid = false → p.faultCode = stPortShort ∧ p.faultPin = pin)))
    ∧ (∀ (pin : BitVec 4) (now : W64), (s.port n.val).shortPins.contains pin.toNat = true → exec (.portShort n pin now) s = .next (s.at_ now))
    ∧ ((s.port n.val).shorted = true →
        let u := s.setPort n.val ({ s.port n.val with shorted := false, shortPins := [] } : Dptx).train
        let read := (s.port n.val).hpd && !s.upperHalf n.val && !(s.wear n.val).present
        exec (.portPinTest n true) s = .next (if read then u.readPanel n.val else u)
        ∧ exec (.portPinTest n false) s = .next s)

/-- A captured frame goes to the input slot of the one running stream that captures from its port, when the slot is free, it fits and it governs a frame still
ahead (R343); a lost source is an event (R344). -/
def Obligations.Capture : Prop :=
  ∀ (s : State) (rx : Fin 2), s.inert = false →
    (∀ (frame : W32) (x : CapturedFrame) (c : Nat), s.captures rx = [c] →
      let k := s.ctx c
      let l := capturedBytes x
      ((k.lastSubmit.map (fun f => decide (f.toNat < frame.toNat))).getD true) = true → k.firstIn.toNat ≤ frame.toNat →
      frameLe (k.firstOut frame) (k.lastOut frame) = true → frameLe k.nextOut (k.lastOut frame) = true → l.length ≤ k.slotBytes.toNat → s.slotFree c frame = true →
      Ends (.captureFrame rx frame x) s (fun t => (t.ctx c).lastSubmit = some frame ∧ ((t.ctx c).frames.any (fun j => decide (j.frame = frame) && j.begun)) = true
        ∧ (∀ i < l.length, t.hbmByte (k.slotAddr frame + i) = l.getD i 0) ∧ (∀ a, (a < k.slotAddr frame ∨ k.slotAddr frame + l.length ≤ a) → t.hbmByte a = s.hbmByte a)))
    ∧ (∀ now : W64, (s.cq s.hif.evtCq.toNat).held = 0 → Ends (.captureLost rx now) s (fun t => ∃ r, (t.cq s.hif.evtCq.toNat).queue =
        (s.cq s.hif.evtCq.toNat).queue ++ [r] ∧ r.status = stCaptureLost ∧ r.event = true ∧ r.device = true ∧ r.info0.toNat = rx.val))

/-- Panel power: PWR = 1 on a panel that is off powers it with the backlight delayed; PWR = 0 on one that is on drops the backlight and holds the power until
the delay ends, when a power-up held meanwhile runs (R546). -/
def Claim.PanelPower : Prop :=
  ∀ (s : State) (n : OutId), s.inert = false →
    let p := s.panel n.val
    (∀ value : W32, p.busy = false →
      let q := { p with bl := bitOf value 1, blDelay := BitVec.ofNat 8 (fieldOf value 15 8), pwr := bitOf value 0 }
      (bitOf value 0 = true → p.pwrEn = false → exec (.panelPwrWrite n value) s = .next (s.setPanel n.val { q with pwrEn := true, delayed := false }))
      ∧ (bitOf value 0 = false → p.pwrEn = true → exec (.panelPwrWrite n value) s = .next (s.setPanel n.val { q with busy := true, delayed := false }))
      ∧ (bitOf value 0 = p.pwrEn → exec (.panelPwrWrite n value) s = .next (s.setPanel n.val q)))
    ∧ (∀ now : W64, (p.busy = true → exec (.blDelayExpiry n now) s =
          .next ((s.at_ now).setPanel n.val { p with busy := false, heldPwr := false, pwrEn := p.heldPwr, delayed := false }))
      ∧ (p.busy = false → p.pwrEn = true → exec (.blDelayExpiry n now) s = .next ((s.at_ now).setPanel n.val { p with delayed := true })))

/-! ### Frond commands -/

/-- Decoding the four words of a frond command gives it back, with every operand (R92, R93). -/
def Obligations.FrondCommandRoundTrip : Prop :=
  ∀ (c : Instr) (f : FrondId) (w : CmdWords) (now : W64), encodeCmd c = some w → frondOf c = some f →
    (∀ g h t, c = .end_ g h t → t = now) → decodeCmd f now w = some c

/-- A command whose header wait is covered issues (R95), and a clear frond's engine runs it at once: MXU_PASS, VU_DRAIN, VU_EW, VU_DW, VU_POOL, VU_ARGMAX,
VU_TFN, VU_FFT, PTM_BUILD, VU_LOAD, VU_STORE, VU_TLOAD, SE_CAPTURE, SE_REGROUP, DMA_IN, DMA_OUT, NW_READ, NW_WRITE, WIN_OPEN, WIN_CLOSE, FILL, COPY and
RHZ_KEEP. One that waits stays at the sequencer; one with an empty dynamic dimension does nothing but its header signal. -/
def Obligations.EngineCommandRuns : Prop :=
  ∀ (s : State) (c : Instr) (f : FrondId) (live : Bool), engineFrond c = some f → s.Clear f.val live →
    let k := (s.taskOf f.val live).cmdIndex
    (∀ e, (headWait f.val live c).run (s.reached f.val live c) = .error (.wait e) →
      exec c s = .next ((s.reached f.val live c).setTimers f.val))
    ∧ ∀ s1 : State, (headWait f.val live c).run (s.reached f.val live c) = .ok ((), s1) →
      (zeroSkipped (s.taskOf f.val live).pats (s.taskOf f.val live).exts c = true →
        exec c s = .next ((State.pumpFor 259 ((s1.issued f.val live).fireHeader f.val c k) f.val).setTimers f.val))
      ∧ (zeroSkipped (s.taskOf f.val live).pats (s.taskOf f.val live).exts c = false →
        ∀ (i : Nat) (s2 u : State) (a : AfterDone), (cmdIssue f.val live c).run s1 = .ok (i, s2) →
          (cmdRun f.val live k i c).run ((s2.queued f.val live c i).executes f.val live (some k)) = .ok (a, u) →
          exec c s = .next ((State.pumpFor 258 (((u.setAfter f.val live (queueOf c) k a).spoilSkipped f.val).retireChunks f.val) f.val).setTimers f.val))

/-- The sequencer's own commands: NOP does its header alone (R92), WAIT subtracts its count once the semaphore covers it and waits until then, its header's own
grant standing (R75), SIGNAL adds its count here, or sends it to another frond and completes as it arrives there (R97, R98). -/
def Claim.SequencerCommandRuns : Prop :=
  ∀ (s : State) (f : FrondId) (live : Bool) (h : CmdHdr), s.Clear f.val live →
    let k := (s.taskOf f.val live).cmdIndex
    let out := (s.taskOf f.val live).signalsOut
    (∀ s1, (headWait f.val live (.seqNop f h)).run (s.reached f.val live (.seqNop f h)) = .ok ((), s1) →
      exec (.seqNop f h) s = .next ((State.pumpFor 259 ((s1.issued f.val live).fireHeader f.val (.seqNop f h) k) f.val).setTimers f.val))
    ∧ (∀ (sem : BitVec 6) (count : BitVec 16) (s1 : State), let c := Instr.wait f h sem count
        (headWait f.val live c).run (s.reached f.val live c) = .ok ((), s1) →
        let x := s1.frond f.val
        let v := (x.sems.get sem.toNat 0).toNat
        (count.toNat ≤ v → exec c s = .next ((State.pumpFor 259 (((s1.setFrond f.val { x with sems := x.sems.set sem.toNat (BitVec.ofNat 16 (v - count.toNat)) }).issued
            f.val live).fireHeader f.val c k) f.val).setTimers f.val))
        ∧ (v < count.toNat → exec c s = .next ((if h.sb || h.wen then s1 else s.reached f.val live c).setTimers f.val)))
    ∧ (∀ (fence : Bool) (sem : BitVec 6) (target : Byte) (count : BitVec 16) (s1 : State), let c := Instr.signal f h fence sem target false count
        (headWait f.val live c).run (s.reached f.val live c) = .ok ((), s1) → (fence = true → out = 0) →
        exec c s = .next ((State.pumpFor 259 (((s1.issued f.val live).addSem f.val sem.toNat count.toNat 8 k).fireHeader f.val c k) f.val).setTimers f.val))
    ∧ (∀ (fence : Bool) (sem : BitVec 6) (target : Byte) (count : BitVec 16) (s1 : State), let c := Instr.signal f h fence sem target true count
        (headWait f.val live c).run (s.reached f.val live c) = .ok ((), s1) →
        (s1.taskOf f.val live).deliveredRows k = 0 → (s1.frond target.toNat).heldIncs.length < 64 → (fence = true → out = 0) →
        (∀ g ∈ (s.frond f.val).signals, g.live = live → g.index = k → g.task ≠ (s.taskOf f.val live).taskNo) →
        Ends c s (fun t =>
          (t.frond f.val).signals = (s.frond f.val).signals ++ [{ target := target.toNat, sem := sem, count := count, task := (s.taskOf f.val live).taskNo
                                                                  live := live, index := k, header := if h.sen then some h.ssem else none }]
          ∧ (t.taskOf f.val live).cmdIndex = k + 1 ∧ (t.taskOf f.val live).signalsOut = out + 1))

/-- END of a simmer task, with another frond of its set still to end the instance: the frond is free, and has ended, to which a job that waits to be saved (R419) may add what
its other fronds then do (R99, R231). -/
def Claim.EndEndsTask : Prop :=
  ∀ (s : State) (f : FrondId) (h : CmdHdr) (now : W64) (j : Job), s.Clear f.val false →
    (∃ t, (headWait f.val false (.end_ f h now)).run ((s.at_ now).reached f.val false (.end_ f h now)) = .ok ((), t)) →
    (h.sen = true → (((s.frond f.val).sems.get h.ssem.toNat 0).toNat < 65535)) →
    let c := (s.taskOf f.val false).ctx
    (s.taskOf f.val false).signalsOut = 0 → (s.ctx c).job = some j → (∃ g ∈ s.setOf c, g ≠ f.val ∧ g ∉ j.ended) →
    Ends (.end_ f h now) s (fun t => (t.frond f.val).simmer = none ∧ (j.marked = false → ∃ q, (t.ctx c).job = some q ∧ q.ended = insertNat f.val j.ended))

/-- Semaphores add up to 65,535 (R75). -/
def Claim.SemaphoreAdds : Prop :=
  ∀ (s : State) (f sem n engine index : Nat),
    let v := ((s.frond f).sems.get sem 0).toNat
    let t := s.addSem f sem n engine index
    v + n ≤ 65535 → (t.frond f).sems.get sem 0 = BitVec.ofNat 16 (v + n)
      ∧ (∀ k, k ≠ sem → (t.frond f).sems.get k 0 = (s.frond f).sems.get k 0)
      ∧ t = s.setFrond f { s.frond f with sems := (s.frond f).sems.set sem (BitVec.ofNat 16 (v + n)) }

/-- FILL writes VALUE into every word of each destination access (R142); COPY writes each destination access with the bytes of its source access (R143); no other
byte of the scratchpad changes. -/
def Claim.FillAndCopy : Prop :=
  (∀ (s : State) (f : FrondId) (live : Bool) (h : CmdHdr) (dst : BitVec 6) (value : W32) (count : BitVec 16) (p : Pattern),
    s.Issues f.val live (.fill f h dst value count) → s.walkPlain f.val live dst.toNat p count.toNat →
    Ends (.fill f h dst value count) s (fun t => ∀ b,
      ((∃ i < count.toNat, s.nextAt f.val live dst.toNat p i ≤ b ∧ b < s.nextAt f.val live dst.toNat p i + p.bytes) →
        t.tspByte f.val b = (toLe 4 value.toNat).getD (b % 4) 0)
      ∧ ((∀ i < count.toNat, b < s.nextAt f.val live dst.toNat p i ∨ s.nextAt f.val live dst.toNat p i + p.bytes ≤ b) → t.tspByte f.val b = s.tspByte f.val b)))
  ∧ (∀ (s : State) (f : FrondId) (live : Bool) (h : CmdHdr) (src dst : BitVec 6) (count : BitVec 16) (p q : Pattern),
    s.Issues f.val live (.fcCopy f h src dst count) → src ≠ dst → p.bytes = q.bytes → s.walkPlain f.val live src.toNat p count.toNat →
    s.walkPlain f.val live dst.toNat q count.toNat → s.walkApart f.val live dst.toNat q count.toNat →
    (∀ i < count.toNat, ∀ j < count.toNat, let a := s.nextAt f.val live src.toNat p i; let b := s.nextAt f.val live dst.toNat q j
      a + p.bytes ≤ b ∨ b + q.bytes ≤ a) →
    Ends (.fcCopy f h src dst count) s (fun t =>
      (∀ i < count.toNat, ∀ j < p.bytes, t.tspByte f.val (s.nextAt f.val live dst.toNat q i + j) = s.tspByte f.val (s.nextAt f.val live src.toNat p i + j))
      ∧ ∀ b, (∀ i < count.toNat, b < s.nextAt f.val live dst.toNat q i ∨ s.nextAt f.val live dst.toNat q i + q.bytes ≤ b) → t.tspByte f.val b = s.tspByte f.val b))

/-- VU_EW between registers puts in each lane the exact result of FUNC rounded once (R177); VU_LOAD and VU_STORE move elements between a pattern and registers, each
rounded once into OFMT (R92, R164), and VU_TLOAD rounds its 257 break-points once into the FP32 of a table (R69, R177). -/
def Claim.VectorMoves : Prop :=
  ∀ (s : State) (f : FrondId) (live : Bool) (h : CmdHdr) (v : VuForm),
    (∀ (func : Byte) (count : BitVec 16), s.Issues f.val live (.vuEw f h v func count) → bitOf v.srca 6 = true → bitOf v.srcb 6 = true → bitOf v.dst 6 = true →
      let lane (r : BitVec 7) (k : Nat) : XVal :=
        decodeElem v.ifmt.toNat (((s.frond f.val).vuLane (fieldOf r 3 0 + k / 64) (k % 64)).toNat % 2 ^ storeBits v.ifmt.toNat)
      let b (k : Nat) : XVal := if usesB func.toNat then lane v.srcb k else decodeElem v.ifmt.toNat 0
      (∀ k < 64 * count.toNat, (ewValue func.toNat (lane v.srca k) (b k)).isSome = true) →
      Ends (.vuEw f h v func count) s (fun t => ∀ k < 64 * count.toNat, ∀ w, ewValue func.toNat (lane v.srca k) (b k) = some w →
        (t.frond f.val).vuLane (fieldOf v.dst 3 0 + k / 64) (k % 64) = BitVec.ofNat 32 (roundTo v.ofmt.toNat v.rnd.toNat false w).raw))
    ∧ (∀ (count : BitVec 16) (p : Pattern), s.Issues f.val live (.vuLoad f h v count) → bitOf v.srca 6 = false → bitOf v.dst 6 = true →
      let pat := fieldOf v.srca 5 0
      let bytes := elemBytes v.ifmt.toNat (64 * count.toNat)
      let n := (bytes + p.bytes - 1) / p.bytes
      s.walkPlain f.val live pat p n →
      Ends (.vuLoad f h v count) s (fun t => ∀ k < 64 * count.toNat, (t.frond f.val).vuLane (fieldOf v.dst 3 0 + k / 64) (k % 64)
        = BitVec.ofNat 32 (roundTo v.ofmt.toNat v.rnd.toNat false (decodeElem v.ifmt.toNat
            ((elemsOf v.ifmt.toNat ((s.walkBytes f.val live pat p n).take bytes)).getD k 0))).raw))
    ∧ (∀ (count : BitVec 16) (p : Pattern), s.Issues f.val live (.vuStore f h v count) → bitOf v.srca 6 = true → bitOf v.dst 6 = false →
      let pat := fieldOf v.dst 5 0
      let l := packElems v.ofmt.toNat ((List.range (64 * count.toNat)).map (fun k => (roundTo v.ofmt.toNat v.rnd.toNat false (decodeElem v.ifmt.toNat
        (((s.frond f.val).vuLane (fieldOf v.srca 3 0 + k / 64) (k % 64)).toNat % 2 ^ storeBits v.ifmt.toNat))).raw))
      let n := (l.length + p.bytes - 1) / p.bytes
      s.walkPlain f.val live pat p n → s.walkApart f.val live pat p n →
      Ends (.vuStore f h v count) s (fun t =>
        (∀ i < n, ∀ j < p.bytes, i * p.bytes + j < l.length → t.tspByte f.val (s.nextAt f.val live pat p i + j) = l.getD (i * p.bytes + j) 0)
        ∧ ∀ b, (∀ i < n, b < s.nextAt f.val live pat p i ∨ s.nextAt f.val live pat p i + p.bytes ≤ b) → t.tspByte f.val b = s.tspByte f.val b))
    ∧ (∀ (table : BitVec 2) (p : Pattern), s.Issues f.val live (.vuTload f h v table) → bitOf v.srca 6 = false →
      let pat := fieldOf v.srca 5 0
      let bytes := elemBytes v.ifmt.toNat 257
      let n := (bytes + p.bytes - 1) / p.bytes
      s.walkPlain f.val live pat p n →
      Ends (.vuTload f h v table) s (fun t => ∀ j < 257, (t.frond f.val).vuTables.get (257 * table.toNat + j) 0
        = BitVec.ofNat 32 (roundTo 13 v.rnd.toNat false (decodeElem v.ifmt.toNat ((elemsOf v.ifmt.toNat ((s.walkBytes f.val live pat p n).take bytes)).getD j 0))).raw))

/-- The operators of the vector unit and SE_REGROUP run, and store what they compute through their destination pattern, no other byte changing: VU_DRAIN each entry of its
tile by its parameter sets, rounded once (R188); VU_DW and VU_POOL their element for each pixel and channel of the destination walk, rounded once (R210, R214, R216); VU_ARGMAX
for each source pixel the lowest index of a NaN, or with none of the greatest channel (R217); SE_REGROUP the words of each pixel at the places of the group (R218). -/
def Claim.VectorOperators : Prop :=
  ∀ (s : State) (f : FrondId) (live : Bool) (h : CmdHdr),
    (∀ (o : DrainOp) (i : Nat) (ps pb pc po : Pattern), s.Issues f.val live (.vuDrain f h o) → (s.taskOf f.val live).handles.get o.acc.toNat none = some i →
      ((s.frond f.val).tile i).state = .ready → (s.taskOf f.val live).held = {} → o.spat ≠ o.bpat → o.opat ≠ o.spat → o.opat ≠ o.bpat →
      (o.cpen = true → o.cpat ≠ o.spat ∧ o.cpat ≠ o.bpat ∧ o.opat ≠ o.cpat) →
      let n := ps.params (scaleAccesses (s.walkBytes f.val live o.spat.toNat ps 1))
      s.walkPlain f.val live o.spat.toNat ps n → s.walkPlain f.val live o.bpat.toNat pb (pb.params 8) → (o.cpen = true → s.walkPlain f.val live o.cpat.toNat pc (pc.params 16)) →
      let value := drainElem (s.frond f.val) (s.taskOf f.val live) o (ScaleSet.parse (s.walkBytes f.val live o.spat.toNat ps n)) (s.walkBytes f.val live o.bpat.toNat pb (pb.params 8))
        (if o.cpen then s.walkBytes f.val live o.cpat.toNat pc (pc.params 16) else []) ((s.frond f.val).tile i)
      let l := packElems o.ofmt.toNat ((List.range 2048).map (fun j => (roundTo o.ofmt.toNat o.rnd.toNat o.ieee (value j).1).raw))
      s.Storable f.val live o.opat.toNat po (elemBytes o.ofmt.toNat 2048) →
      Ends (.vuDrain f h o) s (fun t => s.Stored t f.val live o.opat.toNat po l ∧ ((t.frond f.val).tile i).state = .drain
        ∧ ∀ j, j ≠ i → (t.frond f.val).tile j = (s.frond f.val).tile j))
    ∧ (∀ (v : VuForm) (g : Geometry) (ch : BitVec 10) (group : Byte) (p q : Pattern), let src := fieldOf v.srca 5 0; let dst := fieldOf v.dst 5 0; let n := ch.toNat + 1
      s.Issues f.val live (.vuDw f h v g ch group) → src ≠ dst → s.walkPlain f.val live src p (p.spans (p.walkLen v.ifmt.toNat n)) →
      (s.taskOf f.val live).pattern dst = some q →
      let value := dwValue (s.frond f.val) (s.frame f.val live g p v.ifmt.toNat q.rows (q.cols v.ofmt.toNat)) g v.ifmt.toNat (fieldOf v.srcb 3 0) (group.toNat + 1)
        (s.walkRaw f.val live src p v.ifmt.toNat n)
      let l := packElems v.ofmt.toNat (q.walkCodes v.ofmt.toNat n (fun row col c => (roundTo v.ofmt.toNat v.rnd.toNat false (value row col c)).raw))
      s.Storable f.val live dst q (q.walkLen v.ofmt.toNat n) → Ends (.vuDw f h v g ch group) s (fun t => s.Stored t f.val live dst q l))
    ∧ (∀ (isMax padCount : Bool) (v : VuForm) (g : Geometry) (ch : BitVec 10) (p q : Pattern), let src := fieldOf v.srca 5 0; let dst := fieldOf v.dst 5 0; let n := ch.toNat + 1
      s.Issues f.val live (.vuPool f h isMax padCount v g ch) → src ≠ dst → s.walkPlain f.val live src p (p.spans (p.walkLen v.ifmt.toNat n)) →
      (s.taskOf f.val live).pattern dst = some q →
      let value := poolValue (s.frame f.val live g p v.ifmt.toNat q.rows (q.cols v.ofmt.toNat)) g isMax padCount v.ifmt.toNat (s.walkRaw f.val live src p v.ifmt.toNat n)
      let l := packElems v.ofmt.toNat (q.walkCodes v.ofmt.toNat n (fun row col c =>
        (roundTo v.ofmt.toNat v.rnd.toNat (isMax && decide (v.ifmt = v.ofmt)) (value row col c).1).raw))
      s.Storable f.val live dst q (q.walkLen v.ofmt.toNat n) → Ends (.vuPool f h isMax padCount v g ch) s (fun t => s.Stored t f.val live dst q l))
    ∧ (∀ (v : VuForm) (ch : BitVec 10) (p q : Pattern), let src := fieldOf v.srca 5 0; let dst := fieldOf v.dst 5 0; let n := ch.toNat + 1
      s.Issues f.val live (.vuArgmax f h v ch) → bitOf v.dst 6 = false → src ≠ dst → s.walkPlain f.val live src p (p.spans (p.walkLen v.ifmt.toNat n)) →
      let cols := p.cols v.ifmt.toNat
      let elem (k c : Nat) : XVal := decodeElem v.ifmt.toNat (s.walkRaw f.val live src p v.ifmt.toNat n (k / cols) (k % cols) c)
      s.Storable f.val live dst q (elemBytes v.ofmt.toNat (p.rows * cols)) →
      Ends (.vuArgmax f h v ch) s (fun t => ∃ at_ : Nat → Nat,
        (∀ k < p.rows * cols, at_ k < n ∧ ((elem k (at_ k) = .nan ∧ ∀ c < at_ k, elem k c ≠ .nan)
          ∨ ((∀ c < n, elem k c ≠ .nan ∧ (elem k (at_ k)).lt (elem k c) = false) ∧ ∀ c < at_ k, (elem k c).lt (elem k (at_ k)) = true)))
        ∧ s.Stored t f.val live dst q (packElems v.ofmt.toNat ((List.range (p.rows * cols)).map at_))))
    ∧ (∀ (inverse by4 : Bool) (src dst : BitVec 6) (count : BitVec 16) (p q : Pattern), s.Issues f.val live (.seRegroup f h inverse src dst by4 count) → src ≠ dst →
      (s.taskOf f.val live).pattern src.toNat = some p → (∀ i < p.total, (s.plainAt f.val live p i).isSome = true) →
      let first := (s.taskOf f.val live).cursor dst.toNat * q.bytes
      let l := (List.range (count.toNat * q.bytes)).map (fun i => s.streamByte f.val live p (regroupFrom inverse (if by4 then 4 else 2) (4 * regroupWords inverse p q) p q (first + i)))
      s.Storable f.val live dst.toNat q (count.toNat * q.bytes) → Ends (.seRegroup f h inverse src dst by4 count) s (fun t => s.Stored t f.val live dst.toNat q l))

/-- The fixed-point accumulator is exact: finite products on its grid, with every partial sum in range, add up exactly, in ascending K order (R59, R172). -/
def Obligations.FixedAccumulationExact : Prop :=
  ∀ (kp : Nat) (a w : Nat → XVal) (q : Nat → Rat) (n : Nat → Int) (e : Entry), e.st = .finite →
    (∀ k < kp, ∃ z, (a k).mul (w k) = .num (q k) z) → (∀ k < kp, q k * pow2 48 = (n k : Rat)) →
    (∀ k ≤ kp, -(2 ^ 95) ≤ e.int + ((List.range k).map n).sum ∧ e.int + ((List.range k).map n).sum < 2 ^ 95) →
    (addProducts false kp a w e).st = .finite ∧ (addProducts false kp a w e).int = e.int + ((List.range kp).map n).sum

/-- WIN_OPEN on a plain window opens it with its base, rows and generation (R238); WIN_CLOSE closes a window (R240); NW_READ and a plain NW_WRITE send one access
to the window's owner (R239); RHZ_KEEP begins to keep its chunks (R81). -/
def Obligations.WindowsAndAccesses : Prop :=
  ∀ (s : State) (f : FrondId) (live : Bool) (h : CmdHdr),
    (∀ (win : BitVec 4) (base rows : BitVec 13) (gen : BitVec 16), s.Issues f.val live (.winOpen f h win base rows gen) → win.toNat < 12 →
      Ends (.winOpen f h win base rows gen) s (fun t => (t.frond f.val).windows.get win.toNat {} =
        { base := base, rows := rows, gen := gen, isOpen := true, arrived := 0, live := live }))
    ∧ (∀ win : BitVec 4, s.Issues f.val live (.winClose f h win) →
      Ends (.winClose f h win) s (fun t => (t.frond f.val).windows.get win.toNat {} = { (s.frond f.val).windows.get win.toNat {} with isOpen := false }
        ∧ ∀ k, k ≠ win.toNat → (t.frond f.val).windows.get k {} = (s.frond f.val).windows.get k {}))
    ∧ (∀ o : NwOp, s.Issues f.val live (.nwRead f h o) → o.rows ≠ 0 →
      Ends (.nwRead f h o) s (fun t => (t.frond f.val).netOut = (s.frond f.val).netOut ++
        [NetAccess.mk o.frond.toNat o.win.toNat o.gen o.roff.toNat o.rows.toNat false [] o.lrow.toNat false none (s.taskOf f.val live).cmdIndex live]))
    ∧ (∀ (o : NwOp) (row : Nat → Nat), s.Issues f.val live (.nwWrite f h o) → o.win.toNat < 12 → o.rows ≠ 0 →
      (∀ i < o.rows.toNat, (s.frond f.val).place (s.taskOf f.val live) (o.lrow.toNat + i) = some (.phys (row i)) ∧ (s.frond f.val).segOn (row i / 512) = true) →
      (s.taskOf f.val live).deliveredRows (s.taskOf f.val live).cmdIndex = 0 →
      Ends (.nwWrite f h o) s (fun t => ∃ a, (t.frond f.val).netOut = (s.frond f.val).netOut ++ [a] ∧ a.dst = o.frond.toNat ∧ a.win = o.win.toNat ∧ a.gen = o.gen
        ∧ a.roff = o.roff.toNat ∧ a.rows = o.rows.toNat ∧ a.write = true
        ∧ a.data = (List.range o.rows.toNat).map (fun i => readBytes (s.tspByte f.val) (512 * row i) 512)))
    ∧ (∀ (dst : BitVec 6) (chunks : BitVec 16), s.Issues f.val live (.rhzKeep f h dst chunks) → chunks ≠ 0 →
      Ends (.rhzKeep f h dst chunks) s (fun t => (t.taskOf f.val live).keep = some { pat := dst.toNat, left := chunks.toNat, index := (s.taskOf f.val live).cmdIndex }))

/-- What engines leave: MXU_PASS with its buffers reused adds to each entry of its tile the products of the two blocks in ascending K order (R55, R59); VU_TFN and a forward
VU_FFT between registers put the rounded function, and the transform, in each lane (R69, R219); PTM_BUILD writes every digit's product with each codebook entry into the half that
is not active (R66, R184); SE_CAPTURE keeps its source bytes, and zeros in the last stripe of a frame (R204); DMA_OUT and DMA_IN of one row move its 512 bytes (R267). -/
def Obligations.EngineResults : Prop :=
  ∀ (s : State) (f : FrondId) (live : Bool) (h : CmdHdr),
    let x := s.frond f.val
    let t := s.taskOf f.val live
    (∀ (o : MxuOp) (i : Nat), s.Issues f.val live (.mxuPass f h o) → o.alloc = false → o.asrc ≠ 0 → o.wsrc ≠ 0 → o.wsrc ≠ 2 → o.mx = false → o.ptmSwap = false → o.wfmt ≠ 14 →
      t.handles.get o.acc.toNat none = some i → (x.tile i).state = .accum → (x.tile i).lastRun = false → (x.tile i).b64 = isWide o.afmt.toNat →
      (t.actBufs.get t.actLast {}).stale = false → (t.weightBufs.get t.weightLast {}).stale = false →
      let kp := o.kp.toNat
      let a (m k : Nat) : XVal := decodeElem o.afmt.toNat ((elemsOf o.afmt.toNat (t.actBufs.get t.actLast {}).bytes).getD (Config.actIndex kp m k) 0)
      let w (n k : Nat) : XVal := decodeElem o.wfmt.toNat ((elemsOf o.wfmt.toNat (t.weightBufs.get t.weightLast {}).bytes).getD (Config.weightIndex kp n k) 0)
      Ends (.mxuPass f h o) s (fun u =>
        (∀ j < 2048, ((u.frond f.val).tile i).entry j = addProducts (isWide o.afmt.toNat) kp (a (j / 64)) (w (j % 64)) ((x.tile i).entry j))
        ∧ ∀ j, j ≠ i → (u.frond f.val).tile j = x.tile j))
    ∧ (∀ (v : VuForm) (table : BitVec 2) (count : BitVec 16), s.Issues f.val live (.vuTfn f h v table count) → bitOf v.srca 6 = true → bitOf v.dst 6 = true →
      let lane (k : Nat) : XVal := decodeElem v.ifmt.toNat ((x.vuLane (fieldOf v.srca 3 0 + k / 64) (k % 64)).toNat % 2 ^ storeBits v.ifmt.toNat)
      Ends (.vuTfn f h v table count) s (fun u => ∀ k < 64 * count.toNat, (u.frond f.val).vuLane (fieldOf v.dst 3 0 + k / 64) (k % 64)
        = BitVec.ofNat 32 (roundTo v.ofmt.toNat v.rnd.toNat false (x.tableFn t.image.pkgId table.toNat (lane k)).plain).raw))
    ∧ (∀ v : VuForm, s.Issues f.val live (.vuFft f h false v false 1) → bitOf v.srca 6 = true → bitOf v.dst 6 = true →
      let code (k : Nat) : Nat := (x.vuLane (fieldOf v.srca 3 0 + k / 64) (k % 64)).toNat
      (∀ k < 128, (fp32.decode (code k)).rat?.isSome = true) →
      let ins : List CCode := (List.range 64).map (fun k => (code (2 * k), code (2 * k + 1)))
      Ends (.vuFft f h false v false 1) s (fun u => ∀ k < 64, let c := (fft64 false ins).1.getD k (0, 0)
        (u.frond f.val).vuLane (fieldOf v.dst 3 0 + k / 32) (2 * k % 64) = BitVec.ofNat 32 c.1
        ∧ (u.frond f.val).vuLane (fieldOf v.dst 3 0 + k / 32) (2 * k % 64 + 1) = BitVec.ofNat 32 c.2))
    ∧ (∀ (v : VuForm) (group : Byte) (count : BitVec 16), s.Issues f.val live (.ptmBuild f h v group count) → bitOf v.srcb 6 = true → group.toNat + 4 * count.toNat ≤ 32 →
      let entry (k : Nat) : BitVec 16 := BitVec.ofNat 16 (x.vuLane (fieldOf v.srcb 3 0 + k / 64) (k % 64)).toNat
      Ends (.ptmBuild f h v group count) s (fun u => (u.frond f.val).ptmHalf = x.ptmHalf
        ∧ (∀ j < 4 * count.toNat, ∀ d < 16, ∀ i < 16, (u.frond f.val).ptm.get (ptmWord (!x.ptmHalf) (group.toNat + j) d i) 0 = productCode d (entry (16 * j + i)))
        ∧ ∀ j < 32, ∀ d < 16, ∀ i < 16, (u.frond f.val).ptm.get (ptmWord x.ptmHalf j d i) 0 = x.ptm.get (ptmWord x.ptmHalf j d i) 0))
    ∧ (∀ (src dst : BitVec 6) (count : BitVec 16) (p q : Pattern), s.Issues f.val live (.seCapture f h src dst count) → src ≠ dst →
      let n := q.bytes * count.toNat
      s.walkPlain f.val live src.toNat p ((n + p.bytes - 1) / p.bytes) → s.walkPlain f.val live dst.toNat q count.toNat → s.walkApart f.val live dst.toNat q count.toNat →
      Ends (.seCapture f h src dst count) s (fun u =>
        (∀ i < count.toNat, ∀ j < q.bytes, u.tspByte f.val (s.nextAt f.val live dst.toNat q i + j) =
          if s.lastStripe f.val live then 0 else (s.walkBytes f.val live src.toNat p ((n + p.bytes - 1) / p.bytes)).getD (i * q.bytes + j) 0)
        ∧ ∀ b, (∀ i < count.toNat, b < s.nextAt f.val live dst.toNat q i ∨ s.nextAt f.val live dst.toNat q i + q.bytes ≤ b) → u.tspByte f.val b = s.tspByte f.val b))
    ∧ (∀ (row : BitVec 13) (dr nr a : Nat) (e : XferDesc), x.place t row.toNat = some (.phys dr) → x.segOn (dr / 512) = true →
      (parseXfer (readBytes (s.tspByte f.val) (512 * dr) 64)).bind (s.resolve t) = some e → e.kind = 0 → e.space = 0 → e.circEn = false → e.tagged = false → e.cached = false →
      e.walk.ok = true → e.walk.total = 512 → e.walk.pieces 0 512 = [(a, 512)] → a + 512 ≤ hbmBytes → s.meetsSupervisor .hbm e.walk = false →
      x.place t e.localRow.toNat = some (.phys nr) → x.segOn (nr / 512) = true → t.deliveredRows t.cmdIndex = 0 →
      (s.Issues f.val live (.dmaOut f h row) → s.overReplay (some (t.ctx, t.taskNo)) .hbm e.walk = false → ((s.rowPoisoned f.val (.phys nr) = false ∧ s.rowPoisoned f.val (.phys dr) = false) ∨ a % 64 = 0) → Ends (.dmaOut f h row) s (fun u =>
        u.hbmRead a 512 = readBytes (s.tspByte f.val) (512 * nr) 512 ∧ ∀ b, (b < a ∨ a + 512 ≤ b) → u.hbmByte b = s.hbmByte b))
      ∧ (s.Issues f.val live (.dmaIn f h row) → Ends (.dmaIn f h row) s (fun u =>
        readBytes (u.tspByte f.val) (512 * nr) 512 = s.hbmRead a 512 ∧ ∀ b, (b < 512 * nr ∨ 512 * nr + 512 ≤ b) → u.tspByte f.val b = s.tspByte f.val b)))

/-! ### Work on fronds -/

/-- STRIPE_START on a frond with no live stripe, whose simmer work has yielded: the released stripe of the earliest deadline, of those whose working area is placed (R127), begins (R37), at the first command of the
variant selected for it, at its rows of the picture. -/
def Obligations.StripeStarts : Prop :=
  ∀ (s : State) (f : FrondId) (j : StripeJob) (b : Bound) (r : FrameRun) (i : Nat), s.inert = false →
    let x := s.frond f.val
    x.live = none → (∀ t, x.simmer = some t → t.yielded = true) → s.frondRuns f.val = true → earliestStripe (x.released.filter (fun q => !x.placeDue.contains q.ctx)) = some j →
    (s.ctx j.ctx).bound = some b → s.frameRun j.ctx j.frame = some r → (x.stripeCkptOf j.ctx j.stripe).isSome = true → s.ctxRuns j.ctx = true →
    s.selectFor j.ctx b (r.kind ||| (if s.anyRow j.ctx then 1 else 0)) r.exts = .ok i → x.dma = [] →
    (((s.heldFor f.val true (s.stripeTask f.val j b.mask).1).map (fun h => h.count.toNat)).sum ≤ 65535) →
    (∀ q ∈ x.released, x.placeDue.contains q.ctx = false → j.deadline.toNat ≤ q.deadline.toNat)
    ∧ Ends (.stripeStart f) s (fun t => (t.frond f.val).simmer = x.simmer ∧ (t.frond f.val).row0 = BitVec.ofNat 13 (j.stripe * b.image.h.toNat)
        ∧ (t.frond f.val).hExt = BitVec.ofNat 13 (r.total * b.image.h.toNat)
        ∧ ∃ k, (t.frond f.val).live = some k ∧ k.ctx = j.ctx ∧ k.frame = j.frame ∧ k.stripe = j.stripe ∧ k.variant = i ∧ k.cmdIndex = 0 ∧ k.deadline = j.deadline)

/-- Simmer work yields to a released stripe or a thermal stage: its product tables and MXU buffers are discarded, and working areas that waited for it are placed
(R127). It resumes where it stood once neither holds it (R39, R82). -/
def Obligations.SimmerYieldsAndResumes : Prop :=
  ∀ (s : State) (f : FrondId) (t : Task), s.inert = false →
    let x := s.frond f.val
    x.simmer = some t →
    (t.yielded = false → (x.released ≠ [] ∨ s.simmerHalted = true) → let u := (s.meter f.val).setFrond f.val { x with ptm := {}, ptmBuilt := [], simmer := some { t.discardBuffers with yielded := true, yieldAt := s.dtb, held := {} } }
      exec (.simmerYield f) s = .next (u.settleAreas f.val) ∧ (x.placeDue = [] → exec (.simmerYield f) s = .next u))
    ∧ (t.yielded = true → x.live = none → x.released = [] → s.simmerHalted = false → s.Rests f.val →
      Ends (.simmerResume f) s (fun u => ∃ k, (u.frond f.val).simmer = some k ∧ k.yielded = false ∧ k.ctx = t.ctx ∧ k.taskNo = t.taskNo ∧ k.cmdIndex = t.cmdIndex
        ∧ k.cursors = t.cursors ∧ k.handles = t.handles))

/-- COMMAND_COMPLETE takes the oldest command of a queue that can complete, of the live stripe ahead of simmer work: it leaves the queue, does what its completion
does, and its header signals (R97). -/
def Claim.CommandsComplete : Prop :=
  ∀ (s : State) (f : FrondId) (q : Fin 7), s.inert = false →
    (∀ u, s.completeOne f.val true q.val = some u → exec (.commandComplete f q) s = .next (u.pump f.val))
    ∧ (s.completeOne f.val true q.val = none → ∀ u, s.completeOne f.val false q.val = some u → exec (.commandComplete f q) s = .next (u.pump f.val))
    ∧ (s.completeOne f.val true q.val = none → s.completeOne f.val false q.val = none → exec (.commandComplete f q) s = .next s)
    ∧ ∀ (live : Bool) (e : QEntry) (rest : List QEntry) (a : AfterDone), (s.taskOf f.val live).queues.get q.val [] = e :: rest → e.after = some a →
        (a = .nothing ∨ ∃ i, a = .passLast i ∨ a = .freeTile i ∨ a = .keepTile i) →
        s.completeOne f.val live q.val = some (((s.modTask f.val live (fun t => { t with
          queues := t.queues.modify q.val [] (fun l => l.filter (fun g => decide (g.index ≠ e.index))) })).applyAfter f.val a).fireHeader f.val e.cmd e.index)

/-- STEP_COMMIT of a task with every command complete and a step to begin: the step commits (R101), and the head of a region moves past the furthest row read
through tags (R139). -/
def Claim.StepsCommit : Prop :=
  (∀ (s : State) (f : FrondId) (live : Bool), s.inert = false → s.activeShare f.val = some live →
    let t := s.taskOf f.val live
    t.idle = true → t.committed = false → t.step.startIndex ≠ t.cmdIndex → s.nextBegins t = true →
    exec (.stepCommit f) s = .next (if live then (s.commitStep f.val live).pump f.val else (s.commitStep f.val live).runMarked t.ctx)
      ∧ ((s.commitStep f.val live).taskOf f.val live).committed = true ∧ ((s.commitStep f.val live).taskOf f.val live).stepIndex = t.stepIndex + 1)
  ∧ (∀ (s : State) (f : Nat) (live : Bool) (c d : Nat) (g : Region), (s.frond f).region (s.taskOf f live).ctx c = some g →
    ((s.advanceHead f live c d).frond f).region (s.taskOf f live).ctx c = some { g with head := (g.head + d + 1) % g.rows })

/-- TAG_TIMEOUT and SEM_TIMEOUT fault a task whose access or wait has blocked longer than the timeout (R110, R141), and no other; the first fault of a frond is held
in its registers (R111). -/
def Obligations.BlockedTasksTimeOut : Prop :=
  (∀ (s : State) (f : FrondId) (now : W64) (live : Bool), s.inert = false →
    let v := s.at_ now
    let t := v.taskOf f.val live
    v.activeShare f.val = some live →
    ((∀ p ∈ t.tagSince, v.overdue t p.2 = false) → exec (.tagTimeout f now) s = .next v)
    ∧ (∀ p, t.tagSince.find? (fun p => v.overdue t p.2) = some p →
        (p.1.1 < 7 → ∀ e, (t.queues.get p.1.1 []).find? (fun e => decide (e.index = p.1.2.1)) = some e →
          let u := v.taskFault f.val live stTagTimeout 2 (engineOf e.cmd) e.index
          exec (.tagTimeout f now) s = .next ((if (u.taskOf f.val live).skipping then u.skipIssued f.val live p.1.1 e else u).pump f.val))
        ∧ (7 ≤ p.1.1 → ∀ d, (v.frond f.val).dma.find? (fun d => (d.live == live) && decide (d.index = p.1.2.1) && decide (7 + b2n d.isIn = p.1.1)) = some d →
          exec (.tagTimeout f now) s = .next ((v.dmaFault f.val d stTagTimeout).pump f.val)))
    ∧ ((∀ since, t.semSince = some (t.cmdIndex, since) → v.overdue t since = false) → exec (.semTimeout f now) s = .next v)
    ∧ (∀ since, t.semSince = some (t.cmdIndex, since) → v.overdue t since = true →
        let u := v.taskFault f.val live stSemTimeout 2 ((t.fed.head?.map engineOf).getD 8) t.cmdIndex
        exec (.semTimeout f now) s = .next ((if (u.taskOf f.val live).skipping then u.skipHead f.val live else u).pump f.val)))
  ∧ (∀ (s : State) (f : Nat) (code : BitVec 16) (phase queue index variant : Nat), (s.frond f).faultValid = false →
    let x := ((s.recordFault f code phase queue index variant).frond f)
    x.faultValid = true ∧ x.faultCode = code ∧ x.faultPhase = BitVec.ofNat 2 phase ∧ x.faultQueue = BitVec.ofNat 4 queue ∧ x.faultIndex = BitVec.ofNat 16 index
      ∧ x.faultDtb = s.dtb)

/-- A remote increment of the running task's number is applied, one of a later task is held, and one of an earlier task is dropped (R280); the SIGNAL that
sent it then completes, and its header signal fires (R97); a job that waited for it to be saved may then be (R419). -/
def Claim.RemoteIncrements : Prop :=
  ∀ (s : State) (f : FrondId) (sem : BitVec 6) (count task : BitVec 16), s.inert = false →
    let c := Instr.remoteSignalArrival f sem count task
    let live := s.divided f.val && semShare true true sem.toNat
    let r := s.shareTask f.val sem.toNat
    let v := ((s.frond f.val).sems.get sem.toNat 0).toNat
    let k := (s.taskOf f.val live).cmdIndex
    let held := (s.frond f.val).heldIncs ++ [{ task := task, sem := sem, count := count }]
    let still : Prop := ∀ g o, s.signalOf f.val sem count task = some (g, o) → s.Rests g ∧ o.header = none
    (task = r → (s.frond f.val).shareRuns live = true → exec c s = .next (State.runAllMarked
      ((((s.modTask f.val live (fun t => { t with step := { t.step with incs := t.step.incs ++ [(sem, count)] } })).addSem f.val sem.toNat count.toNat 8 k).pump
        f.val).takeSignal f.val sem count task)))
    ∧ (task = r → (s.frond f.val).shareRuns live = true → s.Rests f.val → v + count.toNat ≤ 65535 → s.Unmarked →
      ∀ (g : Nat) (o : OutSignal) (q : BitVec 6), s.signalOf f.val sem count task = some (g, o) → g ≠ f.val → s.Rests g → o.header = some q →
        (s.taskOf g o.live).taskNo = task → 0 < (s.taskOf g o.live).signalsOut → ((s.frond g).sems.get q.toNat 0).toNat < 65535 →
        Ends c s (fun t => (t.frond f.val).sems.get sem.toNat 0 = BitVec.ofNat 16 (v + count.toNat) ∧ (t.frond g).signals = (s.frond g).signals.erase o
          ∧ (t.taskOf g o.live).signalsOut = (s.taskOf g o.live).signalsOut - 1
          ∧ (t.frond g).sems.get q.toNat 0 = BitVec.ofNat 16 (((s.frond g).sems.get q.toNat 0).toNat + 1)))
    ∧ (task = r → (s.frond f.val).shareRuns live = true → s.Rests f.val → v + count.toNat ≤ 65535 → s.Unmarked → still →
      Ends c s (fun t => (t.frond f.val).sems.get sem.toNat 0 = BitVec.ofNat 16 (v + count.toNat) ∧ (t.frond f.val).heldIncs = (s.frond f.val).heldIncs))
    ∧ (laterTask task r = true → (s.frond f.val).heldIncs.length < 64 → s.Unmarked → still →
      Ends c s (fun t => (t.frond f.val).heldIncs = held ∧ (t.frond f.val).sems = (s.frond f.val).sems))
    ∧ (task ≠ r → laterTask task r = true → (s.frond f.val).heldIncs.length < 64 → exec c s = .next (State.runAllMarked
      ((s.setFrond f.val { s.frond f.val with heldIncs := held }).takeSignal f.val sem count task)))
    ∧ (task ≠ r → laterTask task r = false → exec c s = .next (State.runAllMarked ((s.count (cntFrond f.val 13) 1).takeSignal f.val sem count task)))
    ∧ (task ≠ r → laterTask task r = false → s.Unmarked → still → Ends c s (fun t => (t.frond f.val).heldIncs = (s.frond f.val).heldIncs ∧ (t.frond f.val).sems = (s.frond f.val).sems))

/-- Of the accesses a frond sends, the oldest of some engine and destination arrives (R235). A remote write that its window accepts stores its rows with the window's
owner (R239, R241); a closed window or another generation is stale, and rows beyond the window are out of range. -/
def Claim.RemoteAccesses : Prop :=
  (∀ (s : State) (f : FrondId), s.inert = false → (s.frond f.val).netOut ≠ [] →
    ∃ a ∈ oldestEach (s.frond f.val).netOut, ∃ n, let u := { s with fresh := s.fresh + n }
      exec (.remoteAccessArrival f) s = .next (((u.setFrond f.val { s.frond f.val with netOut := (s.frond f.val).netOut.erase a }).deliverAccess f.val a).pump f.val))
  ∧ (∀ (s : State) (f : FrondId) (a : NetAccess) (rest : List NetAccess) (row : Nat → Nat), s.inert = false → (s.frond f.val).netOut = a :: rest →
    oldestEach (s.frond f.val).netOut = [a] →
    let w := (s.frond a.dst).windows.get a.win {}
    (s.frond a.dst).winCheck a.win a.gen a.roff a.rows = .good → a.write = true → a.group = none → s.accessOn f.val a w = true →
    (∀ i < a.data.length, (s.frond a.dst).place (s.taskOf a.dst w.live) (w.base.toNat + a.roff + i) = some (.phys (row i)) ∧ (a.data.getD i []).length = 512) →
    (∀ i < a.data.length, ∀ j < a.data.length, row i = row j → i = j) → s.Rests f.val →
    Ends (.remoteAccessArrival f) s (fun t => (∀ i < a.data.length, ∀ b < 512, t.tspByte a.dst (512 * row i + b) = (a.data.getD i []).getD b 0)
      ∧ (t.frond f.val).netOut = rest))
  ∧ (∀ (s : State) (f : FrondId) (a : NetAccess) (rest : List NetAccess), s.inert = false → (s.frond f.val).netOut = a :: rest →
    oldestEach (s.frond f.val).netOut = [a] → (s.frond a.dst).winCheck a.win a.gen a.roff a.rows ≠ .good →
    exec (.remoteAccessArrival f) s = .next (((s.setFrond f.val { s.frond f.val with netOut := rest }).windowFault f.val a
      ((s.frond a.dst).winCheck a.win a.gen a.roff a.rows)).pump f.val))
  ∧ (∀ (x : Frond) (win : Nat) (gen : BitVec 16) (roff rows : Nat), let w := x.windows.get win {}
    (x.winCheck win gen roff rows = .stale ↔ w.isOpen = false ∨ w.gen ≠ gen)
    ∧ (x.winCheck win gen roff rows = .range ↔ w.isOpen = true ∧ w.gen = gen ∧ w.rows.toNat < roff + rows))

/-- The receiver of a combine window grants one request at a time (R245), and adds each partial once, entry by entry (R246, R247); in the fast mode it grants in
order of arrival. -/
def Claim.CombineWindows : Prop :=
  ∀ (s : State) (recv sender : FrondId) (win : BitVec 4) (p : OutPartial), s.inert = false → recv ≠ sender → s.partialFor recv.val win.toNat sender.val = some p →
    let w := win.toNat
    let v := (s.frond recv.val).windows.get w {}
    let a := (s.frond recv.val).combines.get w {}
    let fixed := s.fixedOrder (s.taskOf recv.val v.live).ctx
    (p.requested = false → v.isOpen = true → v.gen = p.gen → fixed = false →
      Ends (.combineRequest recv win sender) s (fun t => let b := (t.frond recv.val).combines.get w {}
        b.count = a.count ∧ (a.granted = none → a.requests = [] → b.granted = some sender.val ∧ b.requests = [])
          ∧ (a.granted ≠ none → b.granted = a.granted ∧ b.requests = a.requests ++ [sender.val])))
    ∧ (a.granted ≠ some sender.val ∨ p.held = true → exec (.combinePartialArrival recv win sender) s = .next s)
    ∧ (a.granted = some sender.val → p.held = false → (∀ i < 8, ((s.frond recv.val).tile i).combine = some w → ((s.frond recv.val).tile i).lastDone = false) →
      s.Rests recv.val → s.Rests sender.val → fixed = false →
      Ends (.combinePartialArrival recv win sender) s (fun t => let b := (t.frond recv.val).combines.get w {}
        b.count = a.count + 1 ∧ (b.poisoned = (a.poisoned || p.poisoned)) ∧ b.granted = a.requests.head? ∧ b.requests = a.requests.tail
          ∧ (∀ j < 2048, b.entries.get j {} = Entry.join a.exact (a.entries.get j {}) (p.entries.get j {}))
          ∧ (t.frond sender.val).tile p.tile = {} ∧ s.partialFor recv.val w sender.val = some p))

/-- A member's returned credit counts again (R252); a member that withholds credit from the task whose rows the group carries is evicted for that task, and
the credits of the rows on their way to it are free (R253); no other member is. -/
def Claim.MulticastCredits : Prop :=
  ∀ (s : State) (group : Byte) (m : FrondId), s.inert = false →
    let g := s.group group.toNat
    let u := s.setGroup group.toNat { g with due := g.due.modify m.val 0 (· - 1), spent := g.spent.modify m.val 0 (· - 1) }
    (0 < g.due.get m.val 0 → exec (.mcastCreditReturn group m) s = .next (u.pumpGroup group.toNat)
      ∧ ((∀ f : FrondId, (s.frond f.val).dma = []) → exec (.mcastCreditReturn group m) s = .next u))
    ∧ (g.due.get m.val 0 = 0 → exec (.mcastCreditReturn group m) s = .next s)
    ∧ (∀ n, s.groupTask group.toNat = some n → g.valid = true → g.withholds n m.val = true → exec (.mcastEvict group m) s =
      .next (((s.setGroup group.toNat { g with
        evicted := (n, m.val) :: g.evicted, spent := g.spent.modify m.val 0 (· - s.rowsTo group.toNat n m.val) }).count (cntFrond m.val 12) 1).pumpGroup group.toNat))
    ∧ (g.valid = false ∨ (∀ n, s.groupTask group.toNat = some n → g.withholds n m.val = false) → exec (.mcastEvict group m) s = .next s)

/-- A chunk enters a frond's chain input while it has room: passed on through the positions before it, handed on by the frond before it, which has taken it, or read from
HBM at the head of the run (R255, R256, R266). What stands behind it on the chain goes on too. -/
def Claim.RhizomeChunks : Prop :=
  ∀ (s : State) (f : FrondId), s.inert = false →
    (2 ≤ (s.frond f.val).chain.length → exec (.rhizomeChunkArrival f) s = .next s)
    ∧ (∀ (c : Chunk) (rest : List Chunk), (s.frond f.val).chain = [] → (s.frond f.val).passing = c :: rest →
      let u := s.setFrond f.val { s.frond f.val with passing := rest, chain := [{ c with taken := false }] }
      exec (.rhizomeChunkArrival f) s = .next ((((u.chainPrev f.val).map (fun g => u.retireChunks g)).getD u).pump f.val))
    ∧ (∀ (g : FrondId) (c : Chunk) (rest : List Chunk), (s.frond f.val).chain = [] → (s.frond f.val).passing = [] → s.chunkFor f.val = some (g.val, c) → g ≠ f → (s.frond g.val).chain = c :: rest →
      exec (.rhizomeChunkArrival f) s = .next ((((s.setFrond g.val { s.frond g.val with chain := rest }).setFrond f.val { s.frond f.val with
        chain := [{ c with taken := false }] }).retireChunks g.val).pump f.val) ∧ c.taken = true ∧ s.chainPrev f.val = some g.val)
    ∧ (∀ (d : DmaXfer) (c : Chunk), (s.frond f.val).chain = [] → (s.frond f.val).passing = [] → s.chunkFor f.val = none → s.injectFor f.val = some (d, c) →
      exec (.rhizomeChunkArrival f) s = .next (((s.setDma f.val d.id (fun e => { e with sent := e.sent + 2048 })).setFrond f.val
          { (s.setDma f.val d.id (fun e => { e with sent := e.sent + 2048 })).frond f.val with chain := [c] }).pump f.val)
        ∧ c.bytes = (s.walkRead d.desc.farSpace d.desc.walk d.sent 2048).1 ∧ c.taken = false)

/-! ### Faults, repair and frond power -/

/-- A detected parity error re-runs the step of the frond it is charged to, at most twice: the step starts again with its first command, with the cursors it had and
with the tags it set empty (R104, R149). -/
def Obligations.ParityErrorReruns : Prop :=
  (∀ (s : State) (f : FrondId) (p : ParityInfo) (now : W64) (live : Bool), s.inert = false → p.remoteFor = none → s.frondRuns f.val = true →
    let v := (s.at_ now).ladleFault 0
    let t := v.taskOf f.val live
    v.activeShare f.val = some live → t.committed = false → t.step.detections.length < 2 →
    let since := if t.step.detections.isEmpty then now else t.step.detectedAt
    let w := (v.setFrond f.val ((v.frond f.val).recordParity p (t.step.detections.length + 1))).modTask f.val live (fun t => { t with
      step := { t.step with detections := t.step.detections ++ [p], detectedAt := since } })
    exec (.parityError f p now) s = .next (((w.count (cntFrond f.val 6) 1).rerun f.val live).pump f.val))
  ∧ (∀ (s : State) (f : Nat) (live : Bool), s.activeShare f = some live →
    let t := s.taskOf f live
    let k := (s.rerun f live).taskOf f live
    let x := (s.rerun f live).frond f
    k.cmdIndex = t.step.startIndex ∧ k.cursors = t.step.cursors ∧ k.counts = t.step.counts ∧ (∀ q, k.queues.get q [] = []) ∧ k.fed = []
      ∧ x.full = (s.frond f).full.filter (fun r => !t.step.tagsSet.contains r) ∧ x.ptmHalf = t.step.ptmHalf ∧ x.tsp = (s.frond f).tsp)

/-- A third detection in a step fences the lane when all came through it, else the frond is declared failed (R149, R150); a private parity error and a lost heartbeat
declare it failed at once (R421); a cache line with bad parity is fetched again (R147). -/
def Obligations.FrondsDeclaredFailed : Prop :=
  ∀ (s : State) (f : FrondId) (now : W64), s.inert = false →
    let fails (cause : BitVec 4) (t : State) : Prop := (t.frond f.val).failed = true ∧ ∃ at0, t.lsch.declared = s.lsch.declared ++ [(f.val, s.column f.val, cause, at0)]
    (∀ (p : ParityInfo) (live : Bool), s.frondRuns f.val = true → p.remoteFor = none → s.activeShare f.val = some live → (s.taskOf f.val live).committed = false →
      2 ≤ (s.taskOf f.val live).step.detections.length →
      (laneFault ((s.taskOf f.val live).step.detections ++ [p]) = false → Ends (.parityError f p now) s (fails 0))
      ∧ (laneFault ((s.taskOf f.val live).step.detections ++ [p]) = true → Ends (.parityError f p now) s (fun t => (t.frond f.val).rowOnly = true
          ∧ ∃ r, t.lsch.repair = some r ∧ r.phase = .stopping ∧ f.val ∈ r.fenced)))
    ∧ (∀ unit : PrivateUnit, (s.frond f.val).phase = .on → (s.frond f.val).failed = false → s.lost f.val = false → Ends (.privateParityError f unit now) s (fails 1))
    ∧ ((s.frond f.val).live ≠ none ∨ (s.frond f.val).simmer ≠ none → (s.frond f.val).failed = false → s.lost f.val = false →
      Ends (.heartbeatTimeout f now) s (fails 2))
    ∧ (∀ addr : W64, exec (.cacheLineParity f addr) s = .next (s.setFrond f.val { s.frond f.val with
        cache := (s.frond f.val).cache.filter (fun l => decide (l.addr ≠ addr.toNat / 128)) }))

/-- A repair: a declared failure of a row whose spare is free stops the affected tasks (R425); the row's columns at and after the failed one then move by one, and ROW_MAP
names the failed one (R422, R424); with
nothing left to replay the repair is over and counted (R430). -/
def Claim.RepairRuns : Prop :=
  (∀ (s : State) (f : FrondId) (now : W64) (col cause : BitVec 4) (since : W64), s.inert = false → s.lsch.declared = [(f.val, col, cause, since)] → s.lsch.repair = none →
    s.lsch.svcDown = false → (s.row (f.val / 8)).spareFree = true →
    Ends (.frondFailed f now) s (fun t => t.lsch.declared = []
      ∧ (∃ r, t.lsch.repair = some r ∧ r.phase = .stopping ∧ r.failed = [(f.val, col, cause)] ∧ r.start = since)
      ∧ ∀ c ∈ s.affectedBy (((s.row (f.val / 8)).movedBy col).map (fun k => f.val / 8 * 8 + k)), ∀ g ∈ s.setOf c, ∀ k, (t.frond g).live = some k → k.ctx = c → k.stopped = true))
  ∧ (∀ (s : State) (now : W64) (r : Repair) (f : FrondId) (col cause : BitVec 4), s.inert = false → s.lsch.svcDown = false → s.lsch.repair = some r → r.phase = .stopping →
    r.failed = [(f.val, col, cause)] → r.late = [] → (s.frond f.val).failed = true → (s.row (f.val / 8)).spareFree = true →
    let row := s.row (f.val / 8)
    Ends (.repairStopComplete now) s (fun t => (∃ q, t.lsch.repair = some q ∧ q.phase = .restoring ∧ q.ctxs = r.ctxs)
      ∧ t.row (f.val / 8) = { cols := row.cols.map (fun q => if q ≠ 15 ∧ col.toNat ≤ q.toNat then q + 1 else q), failed := setBit row.failed col.toNat true }
      ∧ ∀ c ∈ row.movedBy col, (t.frond (8 * (f.val / 8) + c)).failed = false ∧ (t.frond (8 * (f.val / 8) + c)).full = []))
  ∧ (∀ (s : State) (now : W64) (r : Repair), s.inert = false → s.lsch.repair = some r → r.phase = .restoring → r.ctxs = [] → (r.failed ≠ [] ∨ r.fenced ≠ []) →
    Ends (.repairRestoreComplete now) s (fun t => t.lsch.repair = none ∧ t.lsch.repairs = satAdd s.lsch.repairs 1))

/-- The step-checkpoint timer: with SIMMER_MS = 0 it does nothing. A running job is marked; once every frond of its set is between steps with nothing in flight, each
writes its step checkpoint, the one before it is kept beside it, and the job continues (R419). -/
def Claim.StepCheckpointTimer : Prop :=
  ∀ (s : State) (now : W64), s.inert = false →
    (s.lsch.simmerMs = 0 → exec (.stepCheckpointTimer now) s = .next (s.at_ now))
    ∧ ∀ (c : Nat) (j : Job), s.lsch.simmerMs ≠ 0 → s.ctxs.cells.map Prod.fst = [c] → (s.ctx c).job = some j → j.started = true → s.ctxRuns c = true →
      (∀ f ∈ s.setOf c, s.Rests f) →
      ((∃ f ∈ s.setOf c, s.quiet c f = false) → Ends (.stepCheckpointTimer now) s (fun t => (t.ctx c).job = some { j with marked := true }
        ∧ ∀ f ∈ s.setOf c, ∀ k, (t.frond f).simmer = some k → k.ctx = c → k.marked = true))
      ∧ ((∀ f ∈ s.setOf c, s.quiet c f = true) → Ends (.stepCheckpointTimer now) s (fun t => (t.ctx c).job = some { j with marked := false }
        ∧ ∀ f ∈ s.setOf c, (t.frond f).stepCk.get 1 none = (s.frond f).stepCk.get 0 none
          ∧ ∀ k, (s.frond f).simmer = some k → k.ctx = c → ∃ q, (t.frond f).stepCk.get 0 none = some q ∧ q.ctx = c ∧ q.point = k.cmdIndex ∧ q.cursors = k.cursors
            ∧ q.stepIndex = k.stepIndex ∧ q.task = k.taskNo))

/-- An uncorrectable HBM error in a spore log is served from the other copy (R412), which itself may be poisoned; elsewhere its word reads as poisoned, with no
other byte changed, with an event, and with another to the context (R395) whose task's transfer reads it, which takes HBM_UNCORR (R410). A watchdog expiry of the supervisor is an event, once (R411); its restart ends the outage, and a mailbox
command with an OP that nobody knows (R411). -/
def Obligations.HbmErrorsAndWatchdog : Prop :=
  ∀ (s : State) (now : W64), s.inert = false →
    (∀ (stack : Fin 4) (channel : BitVec 4) (addr : W64) (reader : HbmReader) (other : Nat), s.ready = true → s.otherCopy (addr.toNat / 64 * 64) = some other →
      (s.hbmPoisoned other 64 = false → Ends (.hbmUncorr stack channel addr reader now) s (fun t => t.hbmRead (addr.toNat / 64 * 64) 64 = s.hbmRead other 64))
      ∧ (s.hbmPoisoned other 64 = true → Ends (.hbmUncorr stack channel addr reader now) s (fun t => t.hbmPoisoned (addr.toNat / 64 * 64) 64 = true ∧ t.hbm = s.hbm)))
    ∧ (∀ (stack : Fin 4) (channel : BitVec 4) (addr : W64) (f : FrondId) (live : Bool), s.ready = false ∨ s.otherCopy (addr.toNat / 64 * 64) = none →
      let w := addr.toNat / 64 * 64
      let u := (((((s.at_ now).ladleFault 3).count (cntHbm stack.val 1) 1).blurHbm w 64).poisonHbm w 64).devEvent stHbmUncorr (hbmInfo stack channel) 0
      let v := u.ctxFaults [(u.taskOf f.val live).ctx] stHbmUncorr (hbmInfo stack channel)
      u.activeShare f.val = some live →
      exec (.hbmUncorr stack channel addr (.frondTask f) now) s = .next ((v.taskFault f.val live stHbmUncorr 2 4 (v.readerOf f.val live w)).pump f.val))
    ∧ (∀ (stack : Fin 4) (channel : BitVec 4) (addr : W64) (reader : HbmReader), s.ready = false ∨ s.otherCopy (addr.toNat / 64 * 64) = none →
      (∀ f, reader ≠ .frondTask f) → (s.cq s.hif.evtCq.toNat).held = 0 →
      Ends (.hbmUncorr stack channel addr reader now) s (fun t => t.hbmPoisoned (addr.toNat / 64 * 64) 64 = true
        ∧ (∀ b, (b < addr.toNat / 64 * 64 ∨ addr.toNat / 64 * 64 + 64 ≤ b) → t.hbmByte b = s.hbmByte b)
        ∧ (∃ r, (t.cq s.hif.evtCq.toNat).queue = (s.cq s.hif.evtCq.toNat).queue ++ [r] ∧ r.status = stHbmUncorr ∧ r.event = true ∧ r.info0 = hbmInfo stack channel)
        ∧ ∀ out pixel, reader = .wear out pixel → pixel ∈ (t.wear out.val).frozen))
    ∧ (s.lsch.svcDown = true → exec (.svcWatchdog now) s = .next (s.at_ now))
    ∧ (s.lsch.svcDown = false → (s.cq s.hif.evtCq.toNat).held = 0 → Ends (.svcWatchdog now) s (fun t => t.lsch.svcDown = true
        ∧ ∃ r, (t.cq s.hif.evtCq.toNat).queue = (s.cq s.hif.evtCq.toNat).queue ++ [r] ∧ r.status = stSvcWatchdog ∧ r.info0 = 0x30000000))
    ∧ (s.lsch.deferred = [] → let u : State := { s.at_ now with lsch := { s.lsch with svcDown := false, deferred := [] } }
        (s.svc.busy = false ∨ mbKnown s.svc.mbCmd = true → exec (.svcRestartComplete now) s = .next u)
        ∧ (s.svc.busy = true → mbKnown s.svc.mbCmd = false → Ends (.svcRestartComplete now) s (fun t =>
            t.svc.busy = false ∧ t.svc.result = stDescBad ∧ t.lsch = u.lsch)))
    ∧ (s.lsch.deferred ≠ [] → Ends (.svcRestartComplete now) s (fun t => t.lsch.svcDown = false ∧ t.lsch.deferred = []
        ∧ ∃ r, t.lsch.repair = some r ∧ r.phase = .stopping ∧ (s.lsch.repair = none → r.late = s.lsch.deferred)))

/-- A segment gates unless it holds rows of a live stream (R131); a re-enable during its shut-down is held (R132, R489); after a power-up its rows are undefined and
empty (R132). CACHE_STEPS above 4, or over a segment that is taken, is rejected (R144). -/
def Claim.SegmentPower : Prop :=
  ∀ (s : State) (f : FrondId), s.inert = false →
    let x := s.frond f.val
    (∀ (value : W32) (n : Fin 16) (c : Instr), (c = .tspSegGate f value ∨ c = .tspSegEnable f value) → Ends c s (fun t =>
      let y := t.frond f.val
      let p := x.segs.get n.val .on
      (bitOf value (16 + n.val) = false → bitOf y.segEn n.val = bitOf x.segEn n.val ∧ y.segs.get n.val .on = p)
      ∧ (bitOf value (16 + n.val) = true → bitOf value n.val = true → bitOf y.segEn n.val = true ∧ y.segs.get n.val .on = p.enable)
      ∧ (bitOf value (16 + n.val) = true → bitOf value n.val = false → s.segLive f.val n.val = true →
          y.segRefused = true ∧ bitOf y.segEn n.val = bitOf x.segEn n.val ∧ y.segs.get n.val .on = p)
      ∧ (bitOf value (16 + n.val) = true → bitOf value n.val = false → s.segLive f.val n.val = false →
          bitOf y.segEn n.val = false ∧ y.segs.get n.val .on = p.disable)))
    ∧ (∀ seg : BitVec 4,
      (x.segs.get seg.toNat .on = .goingDown → exec (.tspSegShutdownDone f seg) s = .next (s.setFrond f.val { x with segs := x.segs.set seg.toNat .off }))
      ∧ (x.segs.get seg.toNat .on = .goingDownHeld → exec (.tspSegShutdownDone f seg) s = .next (s.setFrond f.val { x with segs := x.segs.set seg.toNat .goingUp }))
      ∧ (x.segs.get seg.toNat .on = .goingUp → Ends (.tspSegPowerupDone f seg) s (fun t => (t.frond f.val).segs.get seg.toNat .on = .on
          ∧ ∀ r, 512 * seg.toNat ≤ r → r < 512 * seg.toNat + 512 → (t.frond f.val).full.contains r = false ∧ (t.frond f.val).poisonRows.contains r = false)))
    ∧ (∀ value : W32, let k := fieldOf value 2 0
      (k ≤ 4 → (∀ i < k, x.segTaken (15 - i) = false) → exec (.cacheStepsWrite f value) s = .next (s.setFrond f.val { x with cacheSteps := BitVec.ofNat 3 k, cachePending := true }))
      ∧ (4 < k ∨ (∃ i < k, x.segTaken (15 - i) = true) →
        exec (.cacheStepsWrite f value) s = .next (s.setFrond f.val { x with cacheReject := true })))

/-- The frond-enable map: a frond that carries a live stream stays enabled, and a lost one disabled, with MAP_REFUSED (R486). The frond-power map: an enabled frond, or one
that holds a pinned region, stays powered (R487); a power change ends with its hold honoured, and a powered-up frond starts with empty tags and semaphores. -/
def Claim.FrondMaps : Prop :=
  ∀ (s : State), s.inert = false →
    (∀ (word : Fin 8) (value : W32), Ends (.frondEnableWrite word value) s (fun t => ∀ f : FrondId, let b := bitOf value (f.val % 32)
      (f.val / 32 ≠ word.val → t.frondEn.getLsbD f.val = s.frondEn.getLsbD f.val)
      ∧ (f.val / 32 = word.val → (b = true ∧ s.lost f.val = true ∨ b = false ∧ s.carriesLive f.val = true) →
          t.mapRefused = true ∧ t.frondEn.getLsbD f.val = s.frondEn.getLsbD f.val)
      ∧ (f.val / 32 = word.val → ¬ (b = true ∧ s.lost f.val = true ∨ b = false ∧ s.carriesLive f.val = true) → t.frondEn.getLsbD f.val = b)))
    ∧ (∀ (word : Fin 8) (value : W32), Ends (.frondPowerWrite word value) s (fun t => ∀ f : FrondId, let b := bitOf value (f.val % 32)
      (f.val / 32 ≠ word.val → t.frondPwr.getLsbD f.val = s.frondPwr.getLsbD f.val ∧ t.frond f.val = s.frond f.val)
      ∧ (f.val / 32 = word.val → b = false → (s.frondEnBit f.val = true ∨ (s.frond f.val).holdsPin = true) →
          t.mapRefused = true ∧ t.frondPwr.getLsbD f.val = s.frondPwr.getLsbD f.val ∧ t.frond f.val = s.frond f.val)
      ∧ (f.val / 32 = word.val → (b = true ∨ s.frondEnBit f.val = false ∧ (s.frond f.val).holdsPin = false) →
          t.frondPwr.getLsbD f.val = b ∧ (t.frond f.val).phase = (if b then (s.frond f.val).phase.enable else (s.frond f.val).phase.disable))))
    ∧ (∀ f : FrondId, let x := s.frond f.val
      (x.phase = .goingDown → exec (.frondPowerDone f) s = .next (s.setFrond f.val { x with phase := .off }))
      ∧ (x.phase = .goingDownHeld → exec (.frondPowerDone f) s = .next (s.setFrond f.val { x with phase := .goingUp }))
      ∧ (x.phase = .goingUp → Ends (.frondPowerDone f) s (fun t => let y := t.frond f.val
          y.phase = .on ∧ y.full = [] ∧ y.sems = {} ∧ y.live = none ∧ y.simmer = none ∧ y.windows = {} ∧ y.failed = x.failed)))

/-! ### Wear -/

/-- PANEL_WEAR_SYNC save writes a host checkpoint to the buffer and a panel slot one SEQ above the highest valid one (R364, R366); a panel write that fails ends it with
PANEL_SYNC_FAIL. Restore takes back the counters of a host checkpoint that verifies and is no older than the panel's (R367); any other changes no counter. -/
def Claim.WearSaveAndRestore : Prop :=
  ∀ (s : State) (h : DescHdr) (slot : Nat) (b : WearBody) (p : PanelId), s.Sole h slot →
    let n := s.governor b.output.val
    let v := s.start h
    let w := s.wear n
    w.identity = some p → p.hostBytes ≤ b.bufBytes.toNat → (b.host = false → v.guarded b.buffer.toNat p.hostBytes = false) →
    (b.host = true → v.absentIn b.buffer.toNat p.hostBytes = none) → let writable := b.host = true → v.absentIn b.buffer.toNat p.hostBytes true = none
    let image := checkpoint 1 (v.topSeq n p + 1) p w.samples p.hNative p.vNative (w.hostData p)
    (writable → Ends (.panelWearSave h b true) s (fun t => t.memRead b.host b.buffer.toNat image.length = image ∧ t.pwu = s.pwu ∧ s.Reports t h slot opWearSync stOk))
    ∧ (writable → Ends (.panelWearSave h b false) s (fun t => t.memRead b.host b.buffer.toNat image.length = image ∧ t.pwu = s.pwu
        ∧ s.Reports t h slot opWearSync stPanelSyncFail))
    ∧ (let rd (o k : Nat) : List Byte := v.memRead b.host (b.buffer.toNat + o) k
       let good := (b.host = true ∨ v.hbmPoisoned b.buffer.toNat p.hostBytes = false)
        ∧ v.checkpointOk rd 1 p p.hNative p.vNative (12 * p.hNative * p.vNative) = true ∧ v.topSeq n p ≤ leNat (rd 8 8)
       s.hif.evtCq ≠ (s.sq h.sq.val).cq →
       Ends (.panelWearRestore h b) s (fun t =>
        (good → s.Reports t h slot opWearSync stOk ∧ (t.wear n).coarse = false
          ∧ ∀ i < 3 * p.hNative * p.vNative, (t.wear n).counters.get i 0 = BitVec.ofNat 32 (leAt (rd 0x220 (12 * p.hNative * p.vNative)) (4 * i) 4))
        ∧ (¬ good → s.Reports t h slot opWearSync stPanelSyncFail ∧ t.pwu = s.pwu)))

/-- The frame whose line-0 tick is the output's first at or after a multiple of 2^30 ns is kept once it has been sent (R356). PWU_SAMPLE of it, for an accepted panel:
each counter grows by the stress of the code sent, at most to all ones, but for pixels frozen by an error (R357); with its link down for part of the frame, the
sample is skipped. -/
def Claim.WearSamples : Prop :=
  ∀ (s : State) (out : OutId) (now : W64) (p : PanelId) (f : Shot), s.inert = false →
    let n := s.governor out.val
    let v := s.at_ now
    let g := s.tg n
    let w := s.wear n
    let up := (s.port n).upAll && (!g.paired || (s.port (n + 1)).upAll)
    (let k := (s.turnShot n (some now)).wear n
     k.due = decide (some (now.toNat / 2 ^ 30) ≠ w.lastSlot) ∧ (w.due = false → k.shot = w.shot)
      ∧ (w.due = true → ∃ r, k.shot = some r ∧ r.up = up ∧ r.depth = bitsPer g.eff.bpc.toNat ∧ r.lower = s.raster.lines.get n {}))
    ∧ (w.identity = some p → w.shot = some f → w.geometry = false →
    (f.up = true → Ends (.pwuSample out now) s (fun t => (t.wear n).samples = w.samples + 1 ∧ (t.wear n).shot = none
      ∧ ∀ i < 3 * p.hNative * p.vNative, (t.wear n).counters.get i 0 =
          if w.frozen.contains (i / 3) then w.counters.get i 0
          else satAdd (w.counters.get i 0) (p.stress.getD (256 * (i % 3) + stressIndex f.depth
            (f.code (i / 3 % p.hNative) (i / 3 / p.hNative) (i % 3))) 0).toNat))
    ∧ (f.up = false → exec (.pwuSample out now) s = .next ((v.setWear n { w with shot := none }).count (cntPwu n 2) 1)))

/-! ### Mailbox commands -/

/-- A lid command that meets the conditions of R308 is held for the next commit point; one that fails any of them changes no lid. -/
def Claim.LidCommand : Prop :=
  ∀ (s : State) (l : List Byte), s.Serves 1 320 l →
    let n := leAt l 4 1
    let good := s.lidForm l = true ∧ leAt l 0 4 = 0x778011D0 ∧ leAt l 8 8 = s.svc.nonce.toNat ∧ (s.comp n).lidSeq.toNat < leAt l 0x10 8
      ∧ (leAt l 5 1 = 2 → Config.sha512 (s.lidImage l) = (l.drop 0x50).take 64)
      ∧ (s.trustKeys 2).any (fun k => signedBy k (l.take 0x90) ((l.drop 0x90).take 132)) = true
    Ends .lid s (fun t => t.svc.busy = false
      ∧ (good → t.svc.result = stOk ∧ (t.comp n).lidSeq = BitVec.ofNat 64 (leAt l 0x10 8)
          ∧ (t.comp n).lidNext = some (s.lidNew ((s.comp n).lidNext.getD (s.comp n).lid) l))
      ∧ (¬ good → t.svc.result ≠ stOk ∧ ∀ m, (t.comp m).lid = (s.comp m).lid ∧ (t.comp m).lidNext = (s.comp m).lidNext ∧ (t.comp m).lidSeq = (s.comp m).lidSeq))

/-- ATTEST writes the report and its signature by the device key (R519); the commands that write flash do so only when what they carry passes (R512 to R517, R522), and a
refused one leaves the flash as it was. -/
def Claim.TrustCommands : Prop :=
  ∀ (s : State) (l : List Byte),
    (s.Serves 2 64 l → let r := s.report l; let whole := r ++ takePad 132 0 (Config.deviceSign (Config.sha512 r))
      s.absentIn s.svc.mbAddr.toNat whole.length true = none →
      Ends .attest s (fun t => t.svc.busy = false ∧ t.svc.result = stOk ∧ t.hostRead s.svc.mbAddr.toNat whole.length = whole))
    ∧ (s.Serves 3 0x1000 l →
      let body := s.hostRead (s.svc.mbAddr.toNat + 0x1000) (imageLength l)
      let good := imageForm l = true ∧ s.absentIn (s.svc.mbAddr.toNat + 0x1000) (imageLength l) = none ∧ imageSigned l = true ∧ imageBody l body = true
        ∧ s.svc.svnFuse.toNat ≤ leAt l 0x10 1
      Ends .fwWrite s (fun t => t.svc.busy = false ∧ (good → s.Flashed t (flashImage (1 - s.image.toNat)) (l ++ body))
        ∧ (¬ good → t.svc.result = stDescBad ∧ t.xspi = s.xspi)))
    ∧ (s.Serves 4 320 l → Ends .trustUpdate s (fun t => t.svc.busy = false
        ∧ (∀ id, Config.trustRemoval l = some id → s.Flashed t flashTrust (trustBytes (s.trustRaw.filter (fun x => decide (leAt x 4 4 ≠ id.toNat)))))
        ∧ (Config.trustRemoval l = none →
          let good := leAt l 0 4 ≤ 4 ∧ entryOk l = true ∧ (addEntry l s.trustRaw).length ≤ 64
          (good → s.Flashed t flashTrust (trustBytes (addEntry l s.trustRaw)) ∧ t.svc.trust = ((addEntry l s.trustRaw).filter entryOk).map parseTrust)
          ∧ (¬ good → t.svc.result = stDescBad ∧ t.xspi = s.xspi ∧ t.svc.trust = s.svc.trust))))
    ∧ (s.Serves 5 256 l → Ends .debugToken s (fun t => t.svc.busy = false ∧ s.Flashed t flashToken (if Config.eraseRequest l then List.replicate 0x1000 0xFF else l)))
    ∧ (s.Serves 6 0x1000 l → Ends .svnAdvance s (fun t => t.svc.busy = false ∧ t.svc.svnFuse = s.svc.svnFuse
        ∧ (Config.advanceSeq l = some s.svc.imageSeq → s.Flashed t flashAdvance l)
        ∧ (Config.advanceSeq l ≠ some s.svc.imageSeq → t.svc.result = stDescBad ∧ t.xspi = s.xspi)))
    ∧ (s.Serves 7 0x100 l →
      let block := s.hostRead s.svc.mbAddr.toNat (configLength l)
      let good := configForm l = true ∧ s.absentIn s.svc.mbAddr.toNat (configLength l) = none ∧ configCheck block = true
        ∧ ∃ e, s.configKey block = some e ∧ configSigned e block = true
      Ends .configWrite s (fun t => t.svc.busy = false ∧ (good → s.Flashed t flashConfig block) ∧ (¬ good → t.svc.result = stDescBad ∧ t.xspi = s.xspi)))

/-- On a flash that meets no error, each mailbox command that writes it does so where what it carries passes, and ends with OK: FW_WRITE over the image not running, DEBUG_TOKEN its
token or its erase, SVN_ADVANCE a record that names the running SEQ into the slot of the pending advance, whose fuse waits for the boot, CONFIG_WRITE its block (R512, R515, R516,
R520, R522). -/
def Claim.FlashWritten : Prop :=
  ∀ (s : State) (l : List Byte), s.xspi.sound = true →
    (∀ body : List Byte, s.Serves 3 0x1000 l → imageForm l = true → s.absentIn (s.svc.mbAddr.toNat + 0x1000) (imageLength l) = none →
      s.hostRead (s.svc.mbAddr.toNat + 0x1000) (imageLength l) = body → imageSigned l = true → imageBody l body = true → s.svc.svnFuse.toNat ≤ leAt l 0x10 1 →
      Ends .fwWrite s (fun t => s.Written t (flashImage (1 - s.image.toNat)) (l ++ body)))
    ∧ (s.Serves 5 256 l → Ends .debugToken s (fun t => s.Written t flashToken (if Config.eraseRequest l then List.replicate 0x1000 0xFF else l)))
    ∧ (s.Serves 6 0x1000 l → Config.advanceSeq l = some s.svc.imageSeq →
      Ends .svnAdvance s (fun t => s.Written t flashAdvance l ∧ t.svc.svnFuse = s.svc.svnFuse))
    ∧ (∀ block : List Byte, s.Serves 7 0x100 l → configForm l = true → s.absentIn s.svc.mbAddr.toNat (configLength l) = none →
      s.hostRead s.svc.mbAddr.toNat (configLength l) = block → configCheck block = true → ∀ e, s.configKey block = some e → configSigned e block = true →
      Ends .configWrite s (fun t => s.Written t flashConfig block))

/-- A posted operation of the flash or of an HBM stack ends: its BUSY clears (R480). -/
def Claim.PostedOperationsEnd : Prop :=
  ∀ (s : State), s.inert = false →
    exec .xspiOpComplete s = .next { s with xspi := { s.xspi with busy := false } }
    ∧ ∀ k : Fin 4, exec (.hbmModeWriteComplete k) s = .next (s.setHbmc k.val { s.hbmc k.val with busy := false })

/-! ### Links (chapter 17) -/

/-- What a training attempt leaves (R457, R461, R462): MAX_RATE bars the PAM4 rows; the first row that passes brings the link up at its rate and width when the peer is the
device that the board must have there, and leaves it down with MISWIRED when it is another; with no row passing it stays down, and training goes on. -/
def Claim.trained (strap : BitVec 2) (k : Fin 4) (maxRate ring : Bool) (x : LinkSense) (m : Link) : Prop :=
  let fits : Prop := if ring = true ∧ k.val = 3 then x.peer ≠ strap else x.peer = (if k.val = 3 then strap ^^^ 1 else strap ^^^ BitVec.ofNat 2 (k.val + 1))
  let barred : Fin 4 → Prop := fun r => maxRate = true ∧ r.val < 2
  m.maxRate = maxRate ∧ m.ring = ring
    ∧ (∀ r, x.row = some r → ¬ barred r → fits → m.up = true ∧ m.busy = false ∧ m.miswired = false ∧ m.peer = x.peer ∧ (m.nrz = true ↔ 2 ≤ r.val)
        ∧ m.width = (if r.val = 0 ∨ r.val = 2 then 0 else if x.upper then 2 else 1))
    ∧ (∀ r, x.row = some r → ¬ barred r → ¬ fits → m.up = false ∧ m.busy = false ∧ m.miswired = true)
    ∧ ((x.row = none ∨ ∃ r, x.row = some r ∧ barred r) → m.up = false ∧ m.busy = true)

/-- LINK_ENABLE of a disabled link trains it; RING is taken on link 3 alone, and elsewhere a change of it sets CFG_REJECT (R457, R461, R462). RETRY tries again while the
link is down and its peer was not refused. RING_WRITE to an enabled link, or to another than link 3, changes no RING and sets CFG_REJECT. -/
def Claim.LinksTrain : Prop :=
  ∀ (s : State) (k : Fin 4) (x : LinkSense), s.inert = false →
    let l := s.link k.val
    (∀ v : W32, l.en = false → bitOf v 0 = true → Ends (.linkEnable k v x) s (fun t =>
      (t.link k.val).en = true ∧ Claim.trained s.strap k (bitOf v 1) (if k.val = 3 then bitOf v 2 else l.ring) x (t.link k.val)
      ∧ ((t.link k.val).cfgReject = true ↔ l.cfgReject = true ∨ (k.val ≠ 3 ∧ bitOf v 2 ≠ l.ring)) ∧ ∀ j, j ≠ k.val → t.link j = s.link j))
    ∧ (l.en = true → l.up = false → l.busy = true → Ends (.lwlTrainRetry k x) s (fun t =>
        Claim.trained s.strap k l.maxRate l.ring x (t.link k.val) ∧ (t.link k.val).cfgReject = l.cfgReject ∧ ∀ j, j ≠ k.val → t.link j = s.link j))
    ∧ (∀ v : W32, bitOf v 0 = l.en → Ends (.ringWrite k v) s (fun t =>
        t.link k.val =
          { l with maxRate := bitOf v 1, ring := (if k.val = 3 ∧ l.en = false then bitOf v 2 else l.ring), cfgReject := l.cfgReject || (bitOf v 2 != l.ring && !(decide (k.val = 3) && !l.en)) }
        ∧ ∀ j, j ≠ k.val → t.link j = s.link j))
    ∧ (∀ v : W32, l.en = true → bitOf v 0 = false → Ends (.ringWrite k v) s (fun t => (t.link k.val).en = false ∧ (t.link k.val).up = false))

/-- A failed link goes down, is reported once by LINK_FAILED with INFO0 kind 2 and its number, and trains again; a transfer in flight across it, here a COPY, ends with LINK_FAILED
(R459). Flits sent again leave only their count, and codewords corrected theirs (R458). -/
def Claim.LinkFails : Prop :=
  ∀ (s : State) (k : Fin 4) (now : W64), s.inert = false →
    ((s.link k.val).up = false → exec (.linkFailed k now) s = .next s)
    ∧ ((s.link k.val).up = true → (∀ f, (s.frond f).dma = []) → (s.cq s.hif.evtCq.toNat).held = 0 →
        let far : Space := .remote (Fin.ofNat 4 (s.farDevice k.val).toNat)
        ((∀ m, (s.mover m).outstanding = [] ∧ (s.mover m).pending = []) → Ends (.linkFailed k now) s (fun t =>
          t.link k.val = { s.link k.val with up := false, busy := true } ∧ (∀ j, j ≠ k.val → t.link j = s.link j)
          ∧ ∃ r, (t.cq s.hif.evtCq.toNat).queue = (s.cq s.hif.evtCq.toNat).queue ++ [r] ∧ r.status = stLinkFailed ∧ r.event = true ∧ r.device = true
              ∧ r.info0.toNat = 0x20000000 + k.val))
        ∧ (∀ (h : DescHdr) (slot : Nat) (m : Fin 32) (x : Xfer), s.Sole h slot → s.hif.evtCq ≠ (s.sq h.sq.val).cq → k.val ≠ 3 → s.liveStreams = [] →
            fieldOf (s.ctx x.ctx).evtCq 5 0 ≠ (s.sq h.sq.val).cq.toNat → (s.mover m.val).outstanding = [x] → (s.mover m.val).pending = [] →
            (∀ j, j ≠ m.val → (s.mover j).outstanding = [] ∧ (s.mover j).pending = []) → x.kind = .copy h → (x.srcSpace = far ∨ x.dstSpace = far) →
            Ends (.linkFailed k now) s (fun t => (t.mover m.val).outstanding = [] ∧ (s.at_ now).Reports t h slot opCopy stLinkFailed)))
    ∧ ∀ n : Byte, exec (.retry ⟨k, n⟩) s = .next (if (s.link k.val).up then (s.countSome (cntLink k.val 0) n.toNat).count (cntLink k.val 1) 1 else s)

/-- The latency of a link is half of the round trip (R464). A follower slews toward the master's time plus the latency, on the ring with the correction as well (R464, R465): the
message never steps its DTB, and it is locked within 4 ns. Each nanosecond slews by 100 ppm at most. A follower with no time path keeps its rate in HOLDOVER (R466). -/
def Claim.TimeFollowsMaster : Prop :=
  ∀ (s : State) (k : Fin 4), s.inert = false →
    (∀ n : BitVec 16, (s.link k.val).up = true →
      exec (.lwlLatencyMeasure k n) s = .next (s.setLink k.val { s.link k.val with latency := BitVec.ofNat 16 (n.toNat / 2) }))
    ∧ (∀ (m : W64) (corr : BitVec 16) (now : W64), s.lwl.master ≠ s.strap → s.timeLink = some k.val →
        let ring := decide (k.val = 3) && (s.link k.val).ring
        let d : Int := ((m.toNat + (s.link k.val).latency.toNat + (if ring then corr.toNat else 0) : Nat) : Int) - (s.at_ now).dtb.toNat
        Ends (.dtbTimeMessage k m corr now) s (fun t => t.dtb = (s.at_ now).dtb ∧ t.dtbFrac = s.dtbFrac ∧ t.dtbSlew + t.dtbFrac = 10000 * d
          ∧ (t.lwl.locked = true ↔ -4 ≤ d ∧ d ≤ 4) ∧ t.lwl.viaRing = ring ∧ t.lwl.holdover = false))
    ∧ ((s.lwl.master ≠ s.strap ∨ s.lwl.follower = true) → s.timeLink = none →
        exec .holdover s = .next { s with lwl := { s.lwl with holdover := true, locked := false, viaRing := false } })
    ∧ (s.pending = [] → s.dtbFrac.natAbs < 10000 → s.dtb.toNat < 2 ^ 64 - 2 → ∃ t, step s = .next t
        ∧ s.dtb.toNat ≤ t.dtb.toNat ∧ t.dtbFrac.natAbs < 10000
        ∧ let got : Int := (10000 * (t.dtb.toNat : Int) + t.dtbFrac) - (10000 * (s.dtb.toNat : Int) + s.dtbFrac)
          9999 ≤ got ∧ got ≤ 10001 ∧ t.dtbSlew + (got - 10000) = s.dtbSlew ∧ t.dtbSlew.natAbs ≤ s.dtbSlew.natAbs)

/-- An enabled entry pushes a ready frame of its source context, walk by walk, to the context it names, through a stream mover (R471, R472); an entry that is off pushes nothing. -/
def Obligations.HaloPushes : Prop :=
  ∀ (s : State) (e : Fin 16) (frame : W32) (a b : Nat) (v : State) (due : W32), s.inert = false →
    let h := s.halo e.val
    let d : Fin 4 := Fin.ofNat 4 h.destDev.toNat
    let src := h.walk a h.srcStride
    let dst := h.walk b h.dstStride
    let sp : Space := if h.destDev = s.strap then .hbm else .remote d
    (h.en = false → exec (.haloPush e frame) s = .next s)
    ∧ (h.en = true → s.haloReady h frame = true → s.reaches d = true → s.moverRoom ≠ 0 → s.haloAddr h.srcCtx.toNat h.trigger frame h.src = some a →
        s.haloTarget h frame = (some b, due, v) → src.ok = true → dst.ok = true → spaceHolds .hbm src = true → spaceHolds sp dst = true →
        s.meetsSupervisor .hbm src = false → s.meetsSupervisor sp dst = false →
        exec (.haloPush e frame) s = .next (v.post
          { id := 0, kind := .halo e.val frame, ctx := h.srcCtx.toNat, live := true, srcSpace := .hbm, src := src, dstSpace := sp, dst := dst, total := src.total, done := 0, deadline := due, page := none }))

/-! ### Lock-step comparison -/

/-- EN begins the pairing, and taken back ends the comparisons at the next stripe boundary, at once with no live stripe running; LINK is ignored while EN or BUSY is 1 (R455), and
an EN written while that end is awaited is held until it has come (R489). PAIRED sets when the partner has paired, over a
link that is up (R459).
A record waits for its match; records that agree leave nothing behind, and the first that differ since DIVERGED was cleared are recorded with their KIND (R453); a record that has
waited too long is given up with PARTNER_LOST (R452). -/
def Obligations.LockStepComparison : Prop :=
  (∀ (s : State) (v : W32), s.inert = false →
    (bitOf v 0 = true → s.ls.en = false → Ends (.lsEnable v) s (fun t => t.ls.en = true ∧ t.ls.busy = true
      ∧ (s.ls.stopping = false ∨ (∃ f < 256, (s.frond f).live ≠ none) → t.ls.paired = s.ls.paired ∧ t.ls.stopping = s.ls.stopping)
      ∧ (s.ls.stopping = true → (∀ f < 256, (s.frond f).live = none) → t.ls.paired = false ∧ t.ls.stopping = false)
      ∧ t.ls.link = (if s.ls.busy then s.ls.link else BitVec.ofNat 2 (v.toNat / 2)) ∧ t.ls.ladle = bitOf v 3 ∧ t.ls.irqEn = bitOf v 4))
    ∧ (bitOf v 0 = false → s.ls.en = true → (∀ f < 256, (s.frond f).live = none) → Ends (.lsEnable v) s (fun t =>
        t.ls.en = false ∧ t.ls.busy = false ∧ t.ls.paired = false ∧ t.ls.sent = [] ∧ t.ls.received = [] ∧ t.ls.link = s.ls.link))
    ∧ (bitOf v 0 = false → s.ls.en = true → (∃ f < 256, (s.frond f).live ≠ none) → Ends (.lsEnable v) s (fun t =>
        t.ls.en = false ∧ t.ls.busy = true ∧ t.ls.stopping = true ∧ t.ls.paired = s.ls.paired ∧ t.ls.sent = s.ls.sent ∧ t.ls.received = s.ls.received))
    ∧ (s.ls.stopping = true → s.lsBoundary = { s with ls := { s.ls with busy := s.ls.en, stopping := false, paired := false, sent := [], received := [] } })
    ∧ (s.ls.en = true → s.ls.busy = true → s.ls.stopping = false → s.lsLinkUp = true →
        exec .lsPartnerPaired s = .next { s with ls := { s.ls with paired := true, busy := false } })
    ∧ (s.lsLinkUp = false → exec .lsPartnerPaired s = .next s ∧ ∀ (r : LsRecord) (now : W64), exec (.lsRecordArrival r now) s = .next (s.at_ now)))
  ∧ (∀ (s : State) (r : LsRecord) (now : W64), s.inert = false → s.ls.paired = true → s.lsLinkUp = true →
    ((∀ q ∈ s.ls.sent, lsMatch q r = false) → Ends (.lsRecordArrival r now) s (fun t => t.ls = { s.ls with received := s.ls.received ++ [r] }))
    ∧ (∀ q, s.ls.sent.find? (fun p => lsMatch p r) = some q →
        let kind : Option (BitVec 2) := if q.notRun = r.notRun then (if q.notRun = true ∨ q.sig = r.sig then none else some 0) else if r.notRun then some 1 else some 2
        let left := s.ls.sent.filter (fun p => !lsMatch p r)
        (kind = none → Ends (.lsRecordArrival r now) s (fun t => t.ls = { s.ls with sent := left }))
        ∧ (∀ n, kind = some n → s.ls.diverged = true → Ends (.lsRecordArrival r now) s (fun t => t.ls = { s.ls with sent := left, count := satAdd s.ls.count 1 }))
        ∧ (∀ n, kind = some n → s.ls.diverged = false → Ends (.lsRecordArrival r now) s (fun t =>
            let both := s.draw.2.draw.1
            let at_ := (s.at_ now).dtb + 20000
            t.ls.sent = left ∧ t.ls.diverged = true ∧ t.ls.divKind = n ∧ t.ls.divCtx = q.ctx ∧ t.ls.divFrond = q.frond ∧ t.ls.divFrame = q.frame
            ∧ t.ls.divStripe = q.stripe ∧ t.ls.own = q.sig ∧ t.ls.peer = r.sig ∧ t.ls.divDtb = (s.at_ now).dtb ∧ t.ls.count = satAdd s.ls.count 1
            ∧ (q.stripe = 0xFFFF → t.ls.divStep.toNat = min q.step.toNat 0x3FF) ∧ (q.stripe ≠ 0xFFFF → n ≠ 0 → t.ls.divStep = 0x3FF)
            ∧ (s.ls.ladle = true → bitOf both 0 = true → s.ldl.srcLockstep = true → s.ldl.armed = true → s.ldl.pending = false →
                t.ldl.pending = true ∧ t.ldl.pendL = at_ ∧ ∀ k ∈ s.upLinks, (k, at_) ∈ t.ldl.fireSent)
            ∧ ((s.ls.ladle = false ∨ bitOf both 0 = false) → t.ldl = s.ldl)))))
  ∧ (∀ (s : State) (r : LsRecord), s.inert = false →
    (s.ls.sent.any (fun q => lsMatch q r) = true → exec (.partnerLost r) s = .next
      { s with ls := { s.ls with sent := s.ls.sent.filter (fun q => !lsMatch q r), partnerLost := true } })
    ∧ (s.ls.sent.any (fun q => lsMatch q r) = false → exec (.partnerLost r) s = .next s))

/-! ### Heat, power and clocks (chapter 21) -/

/-- Tj is the highest reading. From stage 0 stages 1 to 3 are entered in order as the derated thresholds are reached; a stage is left once it has been 3 °C below its threshold for
1 s; the hardware comparator enters stage 5 at once, also during a supervisor restart, in which the stage in force is otherwise kept (R532, R536). -/
def Claim.ThermalStages : Prop :=
  ∀ (s : State) (temps : List (BitVec 12)) (now : W64), s.inert = false →
    let tj := (temps.map BitVec.toNat).foldl max 0
    let hot (c : Int) : Prop := 8 * (c - (s.svc.derate : Int)) ≤ (tj : Int)
    let stage := s.power.stage.toNat
    Ends (.thermalSample temps now) s (fun t => t.power.tj.toNat = tj
      ∧ (stage < 5 → hot 115 → t.power.stage = 5)
      ∧ (5 ≤ stage → t.power.stage = s.power.stage)
      ∧ (stage < 5 → ¬ hot 115 → s.lsch.svcDown = true → t.power.stage = s.power.stage)
      ∧ (stage = 0 → ¬ hot 115 → s.lsch.svcDown = false → s.power.hotSince = none → (∀ k, s.power.coolSince.get k none = none) →
          (hot 103 → t.power.stage = 3) ∧ (hot 102 → ¬ hot 103 → t.power.stage = 2) ∧ (hot 100 → ¬ hot 102 → t.power.stage = 1)
          ∧ (¬ hot 100 → t.power.stage = 0))
      ∧ (stage = 1 → (tj : Int) + 24 ≤ 8 * (100 - (s.svc.derate : Int)) → s.lsch.svcDown = false → s.power.hotSince = none →
          (∃ q, s.power.coolSince.get 1 none = some q ∧ q.toNat + 1000000000 ≤ (s.at_ now).dtb.toNat) → t.power.stage = 0))

/-- At stage 4 one stream each 100 ms takes its lite program from its next frame on: the least important that has one (R533). At stage 5 an output enters pass-through (R534),
which ends, at stage 4, when Tj has been below 110 °C for 5 s. A trip leaves the device inert with its pin low and its ports down (R535). -/
def Claim.HeatMeasures : Prop :=
  ∀ (s : State) (now : W64), s.inert = false →
    (∀ q, s.power.lastSwitch = some q → (s.at_ now).dtb.toNat - q.toNat < 100000000 → exec (.liteSwitch now) s = .next (s.at_ now))
    ∧ (∀ c, s.power.lastSwitch = none → 4 ≤ s.power.stage.toNat → 8 * (105 - (s.svc.derate : Int)) ≤ (s.power.tj.toNat : Int) →
        s.leastImportant (s.liveStreams.filter s.canLite) = some c →
        Ends (.liteSwitch now) s (fun t => (t.stream c).liteNext = some true ∧ t.power.liteOrder.getLast? = some c
          ∧ t.power.lastSwitch = some (s.at_ now).dtb ∧ ∀ e, e ≠ c → t.stream e = s.stream e))
    ∧ (∀ out : OutId, s.power.stage ≠ 5 → exec (.passThrough out now) s = .next (s.at_ now))
    ∧ (∀ out : OutId, s.power.stage = 5 → Ends (.passThrough out now) s (fun t => (t.comp (s.governor out.val)).passThrough = true
        ∧ ((s.comp (s.governor out.val)).passThrough = false → t.passThrough = true)))
    ∧ ((s.power.stage ≠ 5 ∨ s.power.coolSince.get 5 none = none) → exec (.passThroughExit now) s = .next (s.at_ now))
    ∧ (∀ q, s.power.stage = 5 → s.power.coolSince.get 5 none = some q → q.toNat + 5000000000 ≤ (s.at_ now).dtb.toNat →
        Ends (.passThroughExit now) s (fun t => t.passThrough = false ∧ t.power.stage = 4 ∧ ∀ n < 4, (t.comp n).passThrough = false))
    ∧ Ends .thermTrip s (fun t => t.inert = true ∧ t.pins.thermTripN = false ∧ ∀ n < 4, (t.port n).linkUp = false ∧ (t.port n).training = false)

/-- A reading above what is allowed takes the next of the three measures of R531, in order; one at or below it takes none. What is allowed is 480 W, or 680 W with a declared peak
supply until the time above 480 W in 20 s reaches 2 s, and again when it is below 1 s (R530). PWR shows the mean of 1 ms (Table 21.2). -/
def Claim.PowerLimits : Prop :=
  ∀ (s : State) (watts : BitVec 12) (now : W64), s.inert = false → Ends (.powerSample watts now) s (fun t =>
    let kept := s.power.overTimes.filter (fun q => decide ((s.at_ now).dtb.toNat - q.toNat < 20000000000))
    let allowed := if s.svc.peakSupply = true ∧ t.power.cutBack = false then 680 else 480
    t.power.overTimes = (if 480 < watts.toNat then kept ++ [(s.at_ now).dtb] else kept)
    ∧ (200000 ≤ t.power.overTimes.length → t.power.cutBack = true) ∧ (t.power.overTimes.length < 100000 → t.power.cutBack = false)
    ∧ (100000 ≤ t.power.overTimes.length → t.power.overTimes.length < 200000 → t.power.cutBack = s.power.cutBack)
    ∧ (allowed < watts.toNat → t.power.level = min 3 (s.power.level + 1)) ∧ (watts.toNat ≤ allowed → t.power.level ≤ s.power.level)
    ∧ (t.power.peakActive = true ↔ 480 < watts.toNat) ∧ t.power.recent = (watts :: s.power.recent).take 100
    ∧ t.power.watts.toNat = (t.power.recent.map BitVec.toNat).sum / t.power.recent.length)

/-- A droop stretches the clocks of the domains it names and is seen in PWR_STAT; recovery returns every clock (R529). A running domain takes its CAP and its plan at a change
point, and at no other instant (R40, R527); one without work stops its clock, and keeps its state (R528). The spent boost budget is reported once (R538). -/
def Claim.DomainClocks : Prop :=
  ∀ s : State, s.inert = false →
    (∀ m : W32, Ends (.supplyDroop m) s (fun t => t.power.droopSeen = true
      ∧ ∀ d < 32, t.domain d = (if m.getLsbD d then { s.domain d with stretched := true } else s.domain d)))
    ∧ Ends .supplyRecovery s (fun t => ∀ d < 32, t.domain d = { s.domain d with stretched := false })
    ∧ (∀ d : Fin 32, ((s.domain d.val).gated = true ∨ s.atChangePoint d.val = false) → exec (.clockPlanChange d) s = .next s)
    ∧ (∀ d : Fin 32, (s.domain d.val).gated = false → s.atChangePoint d.val = true → Ends (.clockPlanChange d) s (fun t =>
        (t.domain d.val).capEff = (s.domain d.val).cap ∧ (t.domain d.val).gated = false
        ∧ (s.domainLive d.val = true → (t.domain d.val).plan.toNat ≤ 2) ∧ ((s.domain d.val).cap = 1 → (t.domain d.val).plan.toNat ≤ 2)
        ∧ ((s.domain d.val).cap = 2 → (t.domain d.val).plan = 1) ∧ (1 ≤ s.power.stage.toNat → (t.domain d.val).plan.toNat ≤ 2)
        ∧ (3 ≤ s.power.stage.toNat → s.domainLive d.val = true → (t.domain d.val).plan = 1) ∧ (s.power.boostEn = false → (t.domain d.val).plan.toNat ≤ 2)
        ∧ (s.power.level = 3 → (t.domain d.val).plan = 1) ∧ 1 ≤ (t.domain d.val).plan.toNat
        ∧ ∀ e, e ≠ d.val → t.domain e = s.domain e))
    ∧ (∀ d : Fin 32, (s.domainIdle d.val = false → exec (.clockGate d) s = .next s)
      ∧ (s.domainIdle d.val = true → Ends (.clockGate d) s (fun t => t.domain d.val = { s.domain d.val with gated := true }
          ∧ (∀ e, e ≠ d.val → t.domain e = s.domain e) ∧ t.fronds = s.fronds)))
    ∧ (∀ now : W64, (s.boostSpent = true ∨ s.power.bits.toNat < 4096) → exec (.boostSpent now) s = .next (s.at_ now))
    ∧ (∀ now : W64, s.boostSpent = false → 4096 ≤ s.power.bits.toNat → boostBit ≤ s.power.boostUsed → (s.cq s.hif.evtCq.toNat).held = 0 →
        Ends (.boostSpent now) s (fun t => t.boostSpent = true
          ∧ ∃ r, (t.cq s.hif.evtCq.toNat).queue = (s.cq s.hif.evtCq.toNat).queue ++ [r] ∧ r.status = stBoostSpent ∧ r.event = true ∧ r.device = true))

/-! ### Resets and boot (chapter 20) -/

/-- What every reset clears or disables (Table 20.2): rings, contexts, streams, generators, work in progress, pinned regions, and the visible lids. -/
def Claim.cleared (t : State) : Prop :=
  (∀ r : RingId, t.sq r.val = {} ∧ t.cq r.val = {}) ∧ (∀ c, (t.ctx c).state = .closed) ∧ (∀ n : OutId, (t.tg n.val).en = false ∧ (t.comp n.val).lid.visible = false)
    ∧ (∀ m, t.mover m = {}) ∧ t.pageReqs = [] ∧ t.lockedWr = false ∧ t.mapRefused = false ∧ t.byteWr = false
    ∧ ∀ f : FrondId, (t.frond f.val).live = none ∧ (t.frond f.val).simmer = none ∧ (t.frond f.val).pins = {} ∧ (t.frond f.val).full = []

/-- What a full and a warm reset share: the boot begins again, with fuses, flash and host memory kept, every lock cleared and the event counters zero (R506, Table 20.2). -/
def Claim.rebooted (s t : State) : Prop :=
  Claim.cleared t ∧ t.ready = false ∧ t.svc.booting = true ∧ t.inert = false ∧ t.locks = 0 ∧ t.pmon = State.reset.pmon
    ∧ t.svc.svnFuse = s.svc.svnFuse ∧ t.power.bits = s.power.bits ∧ t.boostSpent = s.boostSpent ∧ t.xspi.flash = s.xspi.flash
    ∧ t.host = s.host ∧ t.absent = s.absent ∧ t.pending = s.pending

/-- Power-on, PERST_N and RESET_N begin a full boot with the DTB zero and the contents of HBM undefined; DEV_ID is sampled at power-on alone (R460, R506, R507). -/
def Claim.FullResets : Prop :=
  (∀ (s : State) (strap : BitVec 2), Ends (.powerOnReset strap) s (fun t => Claim.rebooted s t ∧ t.strap = strap ∧ t.dtb = 0 ∧ t.hbm = {} ∧ t.memEpoch = s.memEpoch + 1
    ∧ t.pcie = { s.pcie.resetConfig with link := false, enabled := false } ∧ t.svc.warmBoot = false ∧ t.pins.thermTripN = true ∧ t.power.stage = 0))
  ∧ (∀ s : State, s.inert = false → ∀ c, (c = .perstN ∨ c = .resetN) → Ends c s (fun t => Claim.rebooted s t ∧ t.strap = s.strap ∧ t.dtb = 0 ∧ t.hbm = {}
    ∧ t.memEpoch = s.memEpoch + 1 ∧ t.pcie = { s.pcie.resetConfig with link := false, enabled := false } ∧ t.svc.warmBoot = false))

/-- A write of DEV_RESET with KEY 0x5A and WARM set begins a boot that keeps HBM, the wear counters, the strap, the DTB and the PCIe link; any other is ignored (R493, R507). FLR of a device
that is ready clears what the host sees, and keeps READY, memories, fuses, the DTB, the event counters, up to what tasks have run by then, and the locks that Table 20.2 keeps; the PCIe configuration space it
resets, and before READY that alone (R509). -/
def Claim.WarmAndFunctionReset : Prop :=
  ∀ s : State, s.inert = false →
    (∀ v : W32, v.toNat / 2 ^ 24 = 0x5A → bitOf v 0 = true → Ends (.warm v) s (fun t => Claim.rebooted s t ∧ t.svc.warmBoot = true ∧ t.strap = s.strap ∧ t.dtb = s.dtb
      ∧ t.hbm = s.hbm ∧ t.hbmPoison = s.hbmPoison ∧ t.memEpoch = s.memEpoch ∧ t.pcie = s.pcie
      ∧ ∀ n < 4, (t.wear n).counters = (s.wear n).counters ∧ (t.wear n).samples = (s.wear n).samples ∧ (t.wear n).identity = none))
    ∧ (∀ v : W32, (v.toNat / 2 ^ 24 ≠ 0x5A ∨ bitOf v 0 = false) → exec (.warm v) s = .next s)
    ∧ (s.ready = false → exec .flr s = .next { s with pcie := s.pcie.resetConfig })
    ∧ (s.ready = true → Ends .flr s (fun t => Claim.cleared t ∧ t.ready = true ∧ t.strap = s.strap ∧ t.dtb = s.dtb ∧ t.hbm = s.hbm ∧ t.memEpoch = s.memEpoch ∧ t.host = s.host
        ∧ t.xspi = s.xspi ∧ t.svc.svnFuse = s.svc.svnFuse ∧ t.power.bits = s.power.bits ∧ t.boostSpent = s.boostSpent ∧ t.svc.nonce = s.svc.nonce
        ∧ t.debugUnlocked = s.debugUnlocked ∧ (∀ i, t.pmon.counters.get i 0 = s.counterNow i) ∧ t.pcie = s.pcie.resetConfig
        ∧ t.locks = (s.locks &&& 0b10011) ∧ ∀ n < 4, (t.wear n).counters = (s.wear n).counters ∧ (t.wear n).identity = (s.wear n).identity))

/-- The ROM runs the image with the higher SEQ, A when they are equal, if it verifies with an SVN not below the fused counter, else the other; with both bad the device enters
recovery without READY, its PCIe function enabled (R513, R514). A pending advance for the running image raises the fused counter, by 64 in all (R515). A full boot that finds a bad HBM stack stops at stage 4
with its number; any other boot ends in READY with its PCIe function enabled, the three locks of Table 18.4 set and each logical column on a good physical one (R13, R513); one that
leaves a full reset with a link up has the DTB of the first peer that answers (R510). -/
def Obligations.BootSequence : Prop :=
  ∀ (s : State) (x : BootSense), s.inert = false →
    (s.svc.booting = false → exec (.bootReady x) s = .next s)
    ∧ (s.svc.booting = true → s.imageOk 0 = false → s.imageOk 1 = false → Ends (.bootReady x) s (fun t =>
        t.svc.recovery = true ∧ t.svc.stage = 0xF ∧ t.svc.aBad = true ∧ t.svc.bBad = true ∧ t.svc.booting = false ∧ t.ready = s.ready ∧ t.locks = s.locks
        ∧ t.pcie.enabled = true))
    ∧ (s.svc.booting = true → (s.imageOk 0 = true ∨ s.imageOk 1 = true) →
        let later := decide (leAt (s.imageHdr 0) 8 8 < leAt (s.imageHdr 1) 8 8)
        let first := if later then 1 else 0
        let i := if s.imageOk first then first else 1 - first
        let svn := leAt (s.imageHdr i) 0x10 1
        let fuse := if Config.advanceSeq (s.flashRead flashAdvance 0x1000) = some (BitVec.ofNat 64 (leAt (s.imageHdr i) 8 8)) ∧ s.slotGood flashAdvance = true then max s.svc.svnFuse.toNat (min 64 svn) else s.svc.svnFuse.toNat
        Ends (.bootReady x) s (fun t => t.image.toNat = i ∧ t.svc.svnFuse.toNat = fuse ∧ t.svc.booting = false
          ∧ (i ≠ first → (if first = 0 then t.svc.aBad else t.svc.bBad) = true)
          ∧ (t.configDefaulted = true → t.hif.configEvent = true)
          ∧ (∀ k, x.badStack = some k → s.svc.warmBoot = false → t.ready = s.ready ∧ t.locks = s.locks ∧ t.svc.stage = 4 ∧ t.svc.code.toNat = k.val + 1)
          ∧ ((x.badStack = none ∨ s.svc.warmBoot = true) → t.ready = true ∧ t.locks = (s.locks ||| 0b10011) ∧ t.svc.stage = 7 ∧ t.pcie.enabled = true
              ∧ t.dtb = (if s.svc.warmBoot = false ∧ s.upLinks ≠ [] then x.peerDtb.getD s.dtb else s.dtb) ∧ t.hif.bootLost = (List.range 256).filter t.lost
              ∧ (∀ r : Fin 32, ∀ c < 8, (∀ e ∈ x.failed, e.1 ≠ r) → (t.row r.val).cols.getD c 15 = BitVec.ofNat 4 c)
              ∧ (∀ r : Fin 32, ∀ m : BitVec 9, (∀ e ∈ x.failed, e.1 = r → e = (r, m)) → (r, m) ∈ x.failed →
                  ∀ p ∈ (t.row r.val).cols, p = 15 ∨ bitOf m p.toNat = false))))

/-! ### Commands that complete -/

/-- LINE_QUEUE_ARRIVAL of a section in time enters it; COMPOSE_LINE of a line that may be composed composes it; LID_AREA_UNCORR marks its pixel in the lid held and in
every state captured; UNDERRUN sends one run of one stream's pixels of the line as the pixel before it, black at the stream's start, and counts; RETRY of a link that is up counts
(R309, R320, R336, R427, R458). -/
def Claim.LinesComplete : Prop :=
  (∀ (s : State) (l : LineSection) (r : FrameRun), s.inert = false → s.frameRun l.ctx.val l.frame = some r → r.dropped = false → l.line.toNat < r.lines →
    r.judged.contains l.line.toNat = false → r.stripeRead (s.ctx l.ctx.val).stripeH l.line.toNat = true → (s.comp (s.outOf l.ctx.val)).queue = [] →
    ∃ t, exec (.lineQueueArrival l) s = .next t ∧ ∃ q ∈ (t.comp (s.outOf l.ctx.val)).queue, q.ctx = l.ctx.val ∧ q.frame = l.frame ∧ q.line = l.line.toNat ∧ l.rank.toNat ∈ q.ranks)
  ∧ (∀ (s : State) (n : OutId) (y : BitVec 14) (late : BitVec 23) (gainLate : Bool) (a : Applied), s.inert = false → (s.tgOf n.val).running = true →
    y.toNat < (s.tgOf n.val).eff.vAct.toNat → ((s.comp n.val).stateFor y.toNat).states.head? = some a → s.mayCompose n.val y.toNat ((s.comp n.val).stateFor y.toNat) a = true →
    ∃ t, exec (.composeLine n y late gainLate) s = .next t ∧ (t.comp n.val).composed = y.toNat + 1
      ∧ ∀ m, m ≠ n.val → t.raster.outs.get m {} = s.raster.outs.get m {})
  ∧ (∀ (s : State) (n : OutId) (pixel : BitVec 20), s.inert = false →
    let mark (l : Lid) : Lid := { l with bad := insertNat pixel.toNat l.bad }
    exec (.lidAreaUncorr n pixel) s = .next (((s.ladleFault 4).count (cntRaster 1) 1).setComp n.val { s.comp n.val with
        lid := mark (s.comp n.val).lid, states := (s.comp n.val).states.map (fun a => { a with lid := mark a.lid }) })
      ∧ pixel.toNat ∈ insertNat pixel.toNat (s.comp n.val).lid.bad)
  ∧ (∀ (s : State) (n : OutId), s.inert = false →
    let codes := s.raster.sent.get n.val []
    let w := codes.length / 3 / s.streamsOf n.val
    (w = 0 → exec (.underrun n) s = .next s)
    ∧ (0 < w → ∃ x run, x < w * s.streamsOf n.val ∧ 0 < run ∧ x % w + run ≤ w ∧ ∃ t, exec (.underrun n) s = .next t
      ∧ t.raster.sent.get n.val [] = repeatPixel codes w x run
      ∧ t.pmon.counters.get (cntPort n.val 0) 0 = satAdd (s.pmon.counters.get (cntPort n.val 0) 0) 1))
  ∧ (∀ (s : State) (k : Fin 4), s.inert = false → (s.link k.val).up = true → exec (.retry ⟨k, 0⟩) s = .next (s.count (cntLink k.val 1) 1))

/-- HPD_PLUG and an IRQ_HPD without a link train an enabled port with drivers, HPD_UNPLUG takes the link down; DP_LINK_TRAINING that finds a configuration that carries the stream
brings the link up; RETRAIN trains anew; an AUX transaction begins and its reply ends it; a receive port answers, at the I²C address of log 40 (R337, R338,
R341, R342, R348). No other port changes. -/
def Claim.PortsComplete : Prop :=
  ∀ (s : State) (n : OutId) (now : W64), s.inert = false →
    let p := s.port n.val
    let others (t : State) : Prop := ∀ m, m ≠ n.val → t.port m = s.port m
    (∀ (asyncSink : Bool) (panel : List (List Byte)), ∃ t, exec (.hpdPlug n asyncSink panel now) s = .next t ∧ (t.port n.val).hpd = true
      ∧ (t.port n.val).training = (p.en && !p.shorted) ∧ others t)
    ∧ (∃ t, exec (.hpdUnplug n now) s = .next t ∧ (t.port n.val).hpd = false ∧ (t.port n.val).linkUp = false ∧ others t)
    ∧ (p.linkUp = false → p.en = true → p.hpd = true → p.shorted = false → ∃ t, exec (.irqHpd n now) s = .next t ∧ (t.port n.val).training = true ∧ others t)
    ∧ (p.linkUp = true → ∃ t, exec (.irqHpd n now) s = .next t ∧ (t.port n.val).linkUp = true ∧ others t)
    ∧ (∀ (x : TrainSense) (l r : Nat), p.training = true → p.en = true → p.hpd = true → p.shorted = false →
      (((widestLanes p.maxLanes.toNat x.openLanes).map (trainedConfigs x p.maxRate.toNat)).getD []).find?
        (fun c => linkFits c.2 (laneCount c.1) (s.mstOf n.val).toNat (s.streamLoad n.val).1 (s.streamLoad n.val).2) = some (l, r) →
      ∃ t, exec (.dpLinkTraining n x now) s = .next t ∧ (t.port n.val).linkUp = true ∧ (t.port n.val).training = false ∧ others t)
    ∧ (∀ value : W32, bitOf s.locks 3 = false → bitOf value 0 = true → bitOf value 8 = true →
      ∃ t, exec (.retrain n value) s = .next t ∧ (t.port n.val).linkUp = false ∧ (t.port n.val).training = (p.hpd && !p.shorted) ∧ others t)
    ∧ (∀ value : W32, p.auxBusy = false → ∃ t, exec (.auxTransaction n value) s = .next t ∧ (t.port n.val).auxBusy = true
      ∧ (t.port n.val).auxAddr.toNat = fieldOf value 19 0 ∧ (t.port n.val).auxCmd.toNat = fieldOf value 27 24 ∧ others t)
    ∧ (∀ (reply : BitVec 2) (data : List Byte), p.auxBusy = true → p.shorted = false → data.length ≤ 16 → ∃ t, exec (.auxReply n reply data) s = .next t ∧ (t.port n.val).auxBusy = false
      ∧ (t.port n.val).auxReply = reply ∧ (t.port n.val).auxCount.toNat = data.length ∧ others t)
    ∧ (∀ (rx : Fin 2) (data : List Byte) (count : BitVec 5), ∃ t, exec (.dprxAuxRequest rx false 0x50 data count) s = .next t ∧ (t.rx rx.val).reply.length = count.toNat
      ∧ (t.rx rx.val).offset = (s.rx rx.val).offset + count.setWidth 8 ∧ t.dptx = s.dptx)

/-- PANEL_WEAR_SYNC saves, and restores from a host checkpoint that verifies and is no older than the panel's; PWU_SAMPLE of a frame kept, whose link was up throughout, counts
one sample more (R356, R364, R366, R367). -/
def Claim.WearCompletes : Prop :=
  (∀ (s : State) (h : DescHdr) (slot : Nat) (b : WearBody) (p : PanelId), s.Sole h slot →
    let n := s.governor b.output.val
    let v := s.start h
    (s.wear n).identity = some p → p.hostBytes ≤ b.bufBytes.toNat → (b.host = false → v.guarded b.buffer.toNat p.hostBytes = false) →
    (b.host = true → v.absentIn b.buffer.toNat p.hostBytes = none) →
    let rd (o k : Nat) : List Byte := v.memRead b.host (b.buffer.toNat + o) k
    ((b.host = true → v.absentIn b.buffer.toNat p.hostBytes true = none) → ∃ t, exec (.panelWearSave h b true) s = .next t ∧ s.Reports t h slot opWearSync stOk)
    ∧ ((b.host = true ∨ v.hbmPoisoned b.buffer.toNat p.hostBytes = false) →
      v.checkpointOk rd 1 p p.hNative p.vNative (12 * p.hNative * p.vNative) = true → v.topSeq n p ≤ leNat (rd 8 8) → s.hif.evtCq ≠ (s.sq h.sq.val).cq →
      ∃ t, exec (.panelWearRestore h b) s = .next t ∧ s.Reports t h slot opWearSync stOk))
  ∧ (∀ (s : State) (out : OutId) (now : W64) (p : PanelId) (f : Shot), s.inert = false →
    let n := s.governor out.val
    (s.wear n).identity = some p → (s.wear n).shot = some f → (s.wear n).geometry = false → f.up = true →
    ∃ t, exec (.pwuSample out now) s = .next t ∧ (t.wear n).samples = (s.wear n).samples + 1 ∧ (t.wear n).shot = none)

/-! ### Registers (chapter 18) -/

/-- A lock bit that the requester may set is set by a 1 and never cleared by a write; the three of the supervisor ignore the host (R481, R482, Table 18.4). -/
def Claim.LockBits : Prop :=
  ∀ (s : State) (req : Requester) (v : W32), s.inert = false → Ends (.devLockWrite req v) s (fun t =>
    (∀ i : Fin 5, t.locks.getLsbD i.val = (s.locks.getLsbD i.val || (bitOf v i.val && (decide (req = .supervisor) || decide (i.val = 2 ∨ i.val = 3)))))
    ∧ { t with locks := s.locks, lockedWr := s.lockedWr } = s)

/-- A read of a word answers the register its decoded address selects, and zeros at a hole (R488) but for the fuse programming registers, which the supervisor alone
reads (R481; where they stand is free, log 122); it changes nothing but that a low word latches its high word for its requester alone, which a read of the high word then returns
(R475, R483). A read of a part of a word answers those bytes of it, and a read that goes on past a word is accesses in ascending order (R474). -/
def Claim.RegisterReads : Prop :=
  ∀ (s : State) (req : Requester) (a : BitVec 26), s.inert = false →
    let sup := decide (req = .supervisor)
    (a.toNat % 4 = 0 →
      (decodeReg a.toNat = none →
        let got := if sup = true ∧ fuseAt a.toNat = true then toLe 4 (s.svc.fuseRegs.get ((a.toNat - Block.base .svc) / 4) 0).toNat else [0, 0, 0, 0]
        exec (.lowWordRead req ⟨a, 4⟩) s = .next { s with readData := got })
      ∧ (∀ r, decodeReg a.toNat = some r →
        (r.isHigh = true → exec (.lowWordRead req ⟨a, 4⟩) s = .next { s with readData := toLe 4 ((s.shadows sup).get r.key 0).toNat })
        ∧ (r.isHigh = false → r.isLow = false → exec (.lowWordRead req ⟨a, 4⟩) s = .next { s with readData := toLe 4 (s.regRead sup r).toNat })
        ∧ (r.isHigh = false → r.isLow = true → Ends (.lowWordRead req ⟨a, 4⟩) s (fun t => t.readData = toLe 4 (s.regRead sup r).toNat
            ∧ (t.shadows sup).get r.high.key 0 = s.regRead sup r.high ∧ t.shadows (!sup) = s.shadows (!sup)
            ∧ { t with readData := s.readData, hostShadow := s.hostShadow, svcShadow := s.svcShadow } = s))))
    ∧ (∀ (b : BitVec 26) (n : BitVec 13), 0 < n.toNat → b.toNat % 4 = 0 → b.toNat ≤ a.toNat → a.toNat + n.toNat ≤ b.toNat + 4 →
        ∃ t, exec (.lowWordRead req ⟨b, 4⟩) s = .next t ∧ exec (.lowWordRead req ⟨a, n⟩) s = .next { t with readData := (t.readData.drop (a.toNat - b.toNat)).take n.toNat })
    ∧ (∀ (b : BitVec 26) (m n : BitVec 13), b.toNat = a.toNat + m.toNat → b.toNat % 4 = 0 → m.toNat + n.toNat < 2 ^ 13 →
        ∃ t u, exec (.lowWordRead req ⟨a, m⟩) s = .next t ∧ exec (.lowWordRead req ⟨b, n⟩) t = .next u
          ∧ exec (.lowWordRead req ⟨a, m + n⟩) s = .next { u with readData := t.readData ++ u.readData })
    ∧ (a = 0 → exec (.lowWordRead req ⟨a, 4⟩) s = .next { s with readData := [0x80, 0x77, 0xB1, s.strap.setWidth 8] })

/-- A write at a hole changes nothing (R488), but that the supervisor reaches the fuse programming registers, which FUSE_LOCK stops (R481; where they stand is free, log 122). A low word of a pair waits in its write shadow, and the high word applies both (R484); two words are two accesses in ascending order, and
a partial write of a register that takes none is ignored with BYTE_WR (R474). Each 1 written to DEV_ERR clears its flag (R476); CLKPLAN_LOCK stops a CAP write (R481); an alias write
changes its own map bit alone (R485, R486). -/
def Claim.RegisterWrites : Prop :=
  ∀ (s : State) (req : Requester), s.inert = false →
    let sup := decide (req = .supervisor)
    let word (v : W32) : List Byte := toLe 4 v.toNat
    (∀ (a : BitVec 26) (v : W32), a.toNat % 4 = 0 →
      (decodeReg a.toNat = none →
        let w := (a.toNat - Block.base .svc) / 4
        let fuse := sup && decide (blockAt a.toNat = some .svc) && Config.fuseWord w
        exec (.registerWrite req a (word v)) s = .next (if fuse then
            (if bitOf s.locks 4 then { s with lockedWr := true } else { s with svc := { s.svc with fuseRegs := s.svc.fuseRegs.set w v } })
          else s))
      ∧ (∀ r, decodeReg a.toNat = some r →
          (r.pairLow sup = true → exec (.registerWrite req a (word v)) s = .next { s with writeShadow := s.writeShadow.set r.key (some v) })
          ∧ (r.isHigh = true → r.low.pairLow sup = true → r.pairLow sup = false →
              exec (.registerWrite req a (word v)) s = .next (State.pairWrite { s with writeShadow := s.writeShadow.set r.low.key none } r.low
                (v ++ (s.writeShadow.get r.low.key none).getD (s.regRead sup r.low))))
          ∧ (∀ b : Byte, r.strict = true → r.block ≠ .svc → exec (.registerWrite req a [b]) s = .next { s with byteWr := true })))
    ∧ (∀ (a b : BitVec 26) (v w : W32), a.toNat % 4 = 0 → b.toNat = a.toNat + 4 → ∃ t, exec (.registerWrite req a (word v)) s = .next t
        ∧ exec (.registerWrite req a (word v ++ word w)) s = exec (.registerWrite req b (word w)) t)
    ∧ (∀ v : W32, exec (.registerWrite req 0x8 (word v)) s = .next { s with
        lockedWr := s.lockedWr && !bitOf v 0, mapRefused := s.mapRefused && !bitOf v 1, byteWr := s.byteWr && !bitOf v 2 })
    ∧ (∀ (d : Fin 32) (v : W32), exec (.registerWrite req (BitVec.ofNat 26 (0xA00840 + 4 * d.val)) (word v)) s =
        .next (if bitOf s.locks 2 then { s with lockedWr := true } else s.setDomain d.val { s.domain d.val with cap := BitVec.ofNat 2 v.toNat }))
    ∧ (∀ (f : FrondId) (v : W32), exec (.registerWrite req (BitVec.ofNat 26 (0x2000000 + 4 * f.val)) (word v)) s =
        .next (if (bitOf v 0 = false ∧ s.carriesLive f.val = true) ∨ (bitOf v 0 = true ∧ s.lost f.val = true) then { s with mapRefused := true }
          else { s with frondEn := setBit s.frondEn f.val (bitOf v 0) }))

/-! ### Statements of several claims -/

/-- The reset state holds the register values the spec gives, and canonical memories. -/
def Obligations.ResetState : Prop := Claim.ResetValues ∧ Claim.ResetMemoryCanonical

/-- A descriptor starts when ring order allows, writing STATE 2 to both spore copies, and waits otherwise. -/
def Obligations.DescriptorOrder : Prop := Claim.DescriptorStarts ∧ Claim.DescriptorWaits

/-- CTX_OPEN copies a context image, CTX_CLOSE frees the context, MODEL_BIND binds an image. -/
def Obligations.ContextsAndModels : Prop := Claim.CtxOpenCopies ∧ Claim.CtxCloseFrees ∧ Claim.ModelBindBinds

/-- STREAM_START runs an admitted stream from FIRST_IN; STREAM_STOP waits for its last frame. -/
def Obligations.StreamStartStop : Prop := Claim.StreamStartRuns ∧ Claim.StreamStopWaits

/-- FRAME_SUBMIT joins a frame to its context; FRAME_STAGED marks it staged. -/
def Obligations.FrameSubmission : Prop := Claim.FrameSubmitJoins ∧ Claim.FrameStagedMarks

/-- LAYER_SET writes a slot's shadow; WRITEBACK_SET binds at the next commit point or at once. -/
def Obligations.LayerAndWriteback : Prop := Claim.LayerSetShadows ∧ Claim.WritebackSetBinds

/-- JOB_RUN starts a job of a simmer context; DISPATCH starts its instance on every frond of the set. -/
def Obligations.JobRunAndDispatch : Prop := Claim.JobRunStarts ∧ Claim.DispatchStarts

/-- COPY is queued on a mover and completes when delivered; pages come, go and cancel late transfers. -/
def Obligations.CopiesAndPages : Prop := Claim.CopyMoves ∧ Claim.PageLateCancels ∧ Claim.PagesAnswered

/-- The ladle trigger fires and latches; COUNTER_DUMP writes counters; sampling units start. -/
def Obligations.LadleAndCounters : Prop := Claim.LocalLatch ∧ Claim.LadleFires ∧ Claim.LadleLatches ∧ Claim.CounterDumpWrites ∧ Claim.SampleUnitEnable

/-- DESCRIPTOR_TAKE puts the descriptor at HEAD in progress; a malformed one completes with DESC_BAD. -/
def Obligations.DescriptorTaken : Prop := Claim.DescriptorTaken ∧ Claim.MalformedDescriptor

/-- Rings poll TAIL, sleep and wake; their configuration is taken while disabled and idle only. -/
def Obligations.SubmissionRings : Prop := Claim.RingsPollAndSleep ∧ Claim.RingConfiguration

/-- Records are written at TAIL of a ring with room; HEAD is read again; moderation and masks govern vectors. -/
def Obligations.CompletionRings : Prop := Claim.RecordWritten ∧ Claim.HeadPollAndModeration ∧ Claim.MsixMask

/-- BAR4 and a peer's requests reach the HBM they may, and nothing else. -/
def Obligations.MemoryWindows : Prop := Claim.Bar4Window ∧ Claim.RemoteHbm

/-- TG_CTL enables, refuses, updates and shuts down a timing generator. -/
def Obligations.GeneratorControl : Prop := Claim.GeneratorEnable ∧ Claim.GeneratorDisableAndUpdate

/-- Events of variable blanking; output enables and beam leads. -/
def Obligations.OutputsAndBlanking : Prop := Claim.BlankingEvents ∧ Claim.OutputConfiguration

/-- Line sections enter the line queue; composition writes one raster line; small errors only count or mark. -/
def Obligations.Composition : Prop := Claim.LineQueue ∧ Claim.LineComposed ∧ Claim.SmallErrors

/-- Ports train at plug, retrain on request, obey PORT_LOCK, and carry one AUX transaction at a time. -/
def Obligations.PortLinks : Prop := Claim.HotPlug ∧ Claim.LinkTraining ∧ Claim.PortControl ∧ Claim.AuxChannel

/-- A short removes a port's drivers; panel power sequences the backlight. -/
def Obligations.PortsAndPanelsProtected : Prop := Claim.PortProtection ∧ Claim.PanelPower

/-- NOP, WAIT, SIGNAL and END of the sequencer, and how semaphores add. -/
def Obligations.SequencerCommands : Prop := Claim.SequencerCommandRuns ∧ Claim.EndEndsTask ∧ Claim.SemaphoreAdds

/-- FILL, COPY, VU_EW, VU_LOAD, VU_STORE and VU_TLOAD write what the spec says and nothing else. -/
def Obligations.FillCopyAndVectorMoves : Prop := Claim.FillAndCopy ∧ Claim.VectorMoves ∧ Claim.VectorOperators

/-- COMMAND_COMPLETE retires the oldest command that can; STEP_COMMIT commits a finished step. -/
def Obligations.CommandsComplete : Prop := Claim.CommandsComplete ∧ Claim.StepsCommit

/-- Remote increments apply by task number; remote writes land in an open window of their generation. -/
def Obligations.RemoteIncrementsAndAccesses : Prop := Claim.RemoteIncrements ∧ Claim.RemoteAccesses

/-- Combine grants and partials, multicast credits and evictions, rhizome chunks. -/
def Obligations.CombineMulticastAndRhizome : Prop := Claim.CombineWindows ∧ Claim.MulticastCredits ∧ Claim.RhizomeChunks

/-- A repair stops, moves columns and ends; the step-checkpoint timer saves a running job. -/
def Obligations.RepairsAndCheckpoints : Prop := Claim.RepairRuns ∧ Claim.StepCheckpointTimer

/-- Scratchpad segments gate and return; frond-enable and frond-power maps refuse what they must. -/
def Obligations.SegmentsAndFrondMaps : Prop := Claim.SegmentPower ∧ Claim.FrondMaps

/-- Wear samples add the stress of each code; checkpoints save and restore the counters. -/
def Obligations.WearCounters : Prop := Claim.WearSaveAndRestore ∧ Claim.WearSamples

/-- Lid, attestation, flash and trust commands act only when what they carry verifies; posted operations end. -/
def Obligations.MailboxCommands : Prop := Claim.LidCommand ∧ Claim.TrustCommands ∧ Claim.FlashWritten ∧ Claim.PostedOperationsEnd

/-- Lorwirel links train, stay down when miswired, take RING on link 3 only, and report a failure once. -/
def Obligations.LinksTrainAndFail : Prop := Claim.LinksTrain ∧ Claim.LinkFails

/-- An idle step is a nanosecond (the model's choice, log 13); followers slew toward the master. -/
def Obligations.TimeFollowsMaster : Prop := Claim.StepIdles ∧ Claim.TimeFollowsMaster

/-- Thermal stages, lite switching, pass-through and the trip. -/
def Obligations.ThermalStages : Prop := Claim.ThermalStages ∧ Claim.HeatMeasures

/-- Power limits and their measures; clock plans, gating, stretching; the spent boost budget. -/
def Obligations.PowerAndClocks : Prop := Claim.PowerLimits ∧ Claim.DomainClocks

/-- What full resets, a warm reset and FLR clear and keep. -/
def Obligations.Resets : Prop := Claim.FullResets ∧ Claim.WarmAndFunctionReset

/-- Register accesses: lock bits, decoding, shadows, pairs, partial writes and aliases. -/
def Obligations.Registers : Prop := Claim.LockBits ∧ Claim.RegisterReads ∧ Claim.RegisterWrites

/-- Line sections, composition, small errors, port events and wear commands complete, each with its own effect, in every state where the spec has them run. -/
def Obligations.DisplayCommandsComplete : Prop := Claim.LinesComplete ∧ Claim.PortsComplete ∧ Claim.WearCompletes
end

