-- ==== Sys2Proof/Laws/Mem.lean ====
section
/-! SUPPORT. Laws of the two containers: reading after writing, and the canonical form of a memory. -/

namespace Sys2Proof

theorem Tbl.get_go_set_same {α : Type} (l : List (Nat × α)) (k : Nat) (v d : α) : Tbl.get.go k d (Tbl.set.go k v l) = v := by
  induction l with
  | nil => simp [Tbl.set.go, Tbl.get.go]
  | cons c r ih =>
    simp only [Tbl.set.go]
    split
    · simp [Tbl.get.go]
    · split
      · simp [Tbl.get.go]
      · simp [Tbl.get.go, *]

/-- An entry reads as it was last set. -/
@[simp] theorem Tbl.get_set_same {α : Type} (t : Tbl α) (k : Nat) (v d : α) : (t.set k v).get k d = v := Tbl.get_go_set_same t.cells k v d

theorem Tbl.get_go_set_other {α : Type} (l : List (Nat × α)) {j k : Nat} (h : j ≠ k) (v d : α) :
    Tbl.get.go j d (Tbl.set.go k v l) = Tbl.get.go j d l := by
  induction l with
  | nil => simp only [Tbl.set.go, Tbl.get.go]; split <;> simp_all
  | cons c r ih =>
    simp only [Tbl.set.go]
    split
    · simp only [Tbl.get.go]; repeat' split
      all_goals first | rfl | omega
    · split
      · simp only [Tbl.get.go]; repeat' split
        all_goals first | rfl | omega
      · simp only [Tbl.get.go, ih]

/-- Setting an entry leaves every other entry alone. -/
@[simp] theorem Tbl.get_set_other {α : Type} (t : Tbl α) {j k : Nat} (h : j ≠ k) (v d : α) : (t.set k v).get j d = t.get j d :=
  Tbl.get_go_set_other t.cells h v d

/-- Both in one. -/
theorem Tbl.get_set {α : Type} (t : Tbl α) (j k : Nat) (v d : α) : (t.set k v).get j d = if j = k then v else t.get j d := by
  split
  · subst j; simp
  · simp [*]

@[simp] theorem Tbl.get_empty {α : Type} (k : Nat) (d : α) : (({} : Tbl α)).get k d = d := rfl

theorem Mem.get_go_set_same (l : List (Nat × Byte)) (a : Nat) (b : Byte) : Mem.get?.go a (Mem.set.go a b l) = some b := by
  induction l with
  | nil => simp [Mem.set.go, Mem.get?.go]
  | cons c r ih =>
    simp only [Mem.set.go]
    split
    · simp [Mem.get?.go]
    · split
      · simp [Mem.get?.go]
      · simp [Mem.get?.go, *]

/-- A byte reads as it was last written. -/
@[simp] theorem Mem.get_set_same (m : Mem) (a : Nat) (b : Byte) : (m.set a b).get? a = some b := Mem.get_go_set_same m.cells a b

theorem Mem.get_go_set_other (l : List (Nat × Byte)) {x a : Nat} (h : x ≠ a) (b : Byte) :
    Mem.get?.go x (Mem.set.go a b l) = Mem.get?.go x l := by
  induction l with
  | nil => simp only [Mem.set.go, Mem.get?.go]; split <;> simp_all
  | cons c r ih =>
    simp only [Mem.set.go]
    split
    · simp only [Mem.get?.go]; repeat' split
      all_goals first | rfl | omega
    · split
      · simp only [Mem.get?.go]; repeat' split
        all_goals first | rfl | omega
      · simp only [Mem.get?.go, ih]

/-- A write leaves every other byte alone. -/
@[simp] theorem Mem.get_set_other (m : Mem) {x a : Nat} (h : x ≠ a) (b : Byte) : (m.set a b).get? x = m.get? x :=
  Mem.get_go_set_other m.cells h b

/-- A run of bytes written: each byte of the run reads as written, every other as before. -/
theorem Mem.get_write (m : Mem) (a x : Nat) (l : List Byte) :
    (m.write a l).get? x = if a ≤ x ∧ x < a + l.length then l[x - a]? else m.get? x := by
  induction l generalizing m a with
  | nil => simp only [Mem.write, List.length_nil]; rw [if_neg (by omega)]
  | cons b r ih =>
    simp only [Mem.write, ih, List.length_cons]
    by_cases h : x = a
    · subst h; rw [if_neg (by omega), if_pos (by omega)]; simp
    · rw [Mem.get_set_other m h]
      by_cases g : a + 1 ≤ x ∧ x < a + 1 + r.length
      · rw [if_pos g, if_pos (by omega)]
        obtain ⟨k, hk⟩ : ∃ k, x - a = k + 1 := ⟨x - a - 1, by omega⟩
        rw [hk, List.getElem?_cons_succ]; congr 1; omega
      · rw [if_neg g, if_neg (by omega)]

/-- The addresses of a list rise strictly: what `Mem.wf` asks. -/
theorem Mem.wf_iff (l : List (Nat × Byte)) : Mem.wf.go l = true ↔ l.Pairwise (fun x y => x.1 < y.1) := by
  induction l with
  | nil => simp [Mem.wf.go]
  | cons c r ih =>
    cases r with
    | nil => simp [Mem.wf.go]
    | cons d q =>
      simp only [Mem.wf.go, Bool.and_eq_true, decide_eq_true_eq, ih]
      constructor
      · rintro ⟨h, g⟩
        refine List.pairwise_cons.2 ⟨?_, g⟩
        intro y hy
        rcases List.mem_cons.1 hy with rfl | hy
        · exact h
        · exact lt_trans h ((List.pairwise_cons.1 g).1 y hy)
      · intro h
        exact ⟨(List.pairwise_cons.1 h).1 d (List.mem_cons_self ..), (List.pairwise_cons.1 h).2⟩

theorem Mem.mem_set_go (l : List (Nat × Byte)) (a : Nat) (b : Byte) (x : Nat × Byte) (h : x ∈ Mem.set.go a b l) : x.1 = a ∨ x ∈ l := by
  induction l with
  | nil => simp only [Mem.set.go, List.mem_singleton] at h; exact .inl (by rw [h])
  | cons c r ih =>
    simp only [Mem.set.go] at h
    split at h
    · rcases List.mem_cons.1 h with rfl | h
      · exact .inl rfl
      · exact .inr h
    · split at h
      · rcases List.mem_cons.1 h with rfl | h
        · exact .inl rfl
        · exact .inr (List.mem_cons_of_mem _ h)
      · rcases List.mem_cons.1 h with rfl | h
        · exact .inr (List.mem_cons_self ..)
        · rcases ih h with h | h
          · exact .inl h
          · exact .inr (List.mem_cons_of_mem _ h)

theorem Mem.set_go_rises (l : List (Nat × Byte)) (a : Nat) (b : Byte) (h : l.Pairwise (fun x y => x.1 < y.1)) :
    (Mem.set.go a b l).Pairwise (fun x y => x.1 < y.1) := by
  induction l with
  | nil => simp [Mem.set.go]
  | cons c r ih =>
    obtain ⟨hc, hr⟩ := List.pairwise_cons.1 h
    simp only [Mem.set.go]
    split
    · refine List.pairwise_cons.2 ⟨?_, h⟩
      intro y hy
      rcases List.mem_cons.1 hy with rfl | hy
      · assumption
      · exact lt_trans (by assumption) (hc y hy)
    · split
      · refine List.pairwise_cons.2 ⟨?_, hr⟩
        intro y hy; have := hc y hy; simp only; omega
      · refine List.pairwise_cons.2 ⟨?_, ih hr⟩
        intro y hy
        rcases Mem.mem_set_go r a b y hy with hy | hy
        · omega
        · exact hc y hy

/-- Every memory operation keeps the canonical form. -/
theorem Mem.wf_set {m : Mem} (h : m.wf = true) (a : Nat) (b : Byte) : (m.set a b).wf = true :=
  (Mem.wf_iff _).2 (Mem.set_go_rises _ a b ((Mem.wf_iff _).1 h))

theorem Mem.wf_write {m : Mem} (h : m.wf = true) (a : Nat) (l : List Byte) : (m.write a l).wf = true := by
  induction l generalizing m a with
  | nil => exact h
  | cons b r ih => exact ih (Mem.wf_set h a b) (a + 1)

theorem Mem.wf_forget {m : Mem} (h : m.wf = true) (lo hi : Nat) : (m.forget lo hi).wf = true :=
  (Mem.wf_iff _).2 (((Mem.wf_iff _).1 h).filter _)

/-- A long run laid down keeps the canonical form. -/
theorem Mem.wf_lay {m : Mem} (h : m.wf = true) (a : Nat) (l : List Byte) : (m.lay a l).wf = true := by
  have g := (Mem.wf_iff _).1 h
  refine (Mem.wf_iff _).2 (List.pairwise_append.2 ⟨List.pairwise_append.2 ⟨g.filter _, ?_, ?_⟩, g.filter _, ?_⟩)
  · rw [List.pairwise_iff_getElem]
    intro i j hi hj hij
    simp only [List.getElem_map, List.getElem_zipIdx]
    omega
  · intro x hx y hy
    simp only [List.mem_filter, decide_eq_true_eq, List.mem_map] at hx hy
    obtain ⟨p, -, rfl⟩ := hy
    simp only
    omega
  · intro x hx y hy
    simp only [List.mem_append, List.mem_filter, decide_eq_true_eq, List.mem_map] at hx hy
    rcases hx with hx | ⟨p, hp, rfl⟩
    · omega
    · have := List.snd_lt_of_mem_zipIdx hp
      simp only at *
      omega

/-- In a memory of canonical form, a byte reads as b where the list holds it as b. -/
theorem Mem.get_go_iff {l : List (Nat × Byte)} (h : l.Pairwise (fun x y => x.1 < y.1)) (x : Nat) (b : Byte) :
    Mem.get?.go x l = some b ↔ (x, b) ∈ l := by
  induction l with
  | nil => simp [Mem.get?.go]
  | cons c r ih =>
    obtain ⟨hc, hr⟩ := List.pairwise_cons.1 h
    simp only [Mem.get?.go, List.mem_cons]
    split
    · rename_i g
      constructor
      · intro e; cases e
      · rintro (rfl | e)
        · exact absurd g (lt_irrefl _)
        · exact absurd (hc _ e) (by simp only; omega)
    · split
      · rename_i g e; subst e
        constructor
        · intro k; cases k; exact .inl rfl
        · rintro (k | k)
          · rw [← k]
          · exact absurd (hc _ k) (lt_irrefl _)
      · rename_i g e
        rw [ih hr]
        constructor
        · exact .inr
        · rintro (rfl | k)
          · exact absurd rfl e
          · exact k

/-- A long run laid down reads as `Mem.write` of it does. -/
theorem Mem.get_lay {m : Mem} (h : m.wf = true) (a x : Nat) (l : List Byte) : (m.lay a l).get? x = (m.write a l).get? x := by
  refine Option.ext fun b => ?_
  refine (Mem.get_go_iff ((Mem.wf_iff _).1 (Mem.wf_lay h a l)) x b).trans ?_
  rw [Mem.get_write]
  simp only [Mem.lay, List.mem_append, List.mem_filter, decide_eq_true_eq, List.mem_map, Prod.mk.injEq]
  rw [← Mem.get_go_iff ((Mem.wf_iff _).1 h)]
  split
  · rename_i g
    rw [List.getElem?_eq_some_iff]
    constructor
    · rintro ((k | ⟨p, hp, e, rfl⟩) | k)
      · omega
      · have := List.mem_zipIdx hp
        subst e
        exact ⟨by omega, by simp [this.2.2]⟩
      · omega
    · rintro ⟨k, rfl⟩
      refine .inl (.inr ⟨(l[x - a], x - a), ?_, by simp only; omega, rfl⟩)
      rw [List.mk_mem_zipIdx_iff_getElem?]
      simp [k]
  · rename_i g
    constructor
    · rintro ((⟨k, -⟩ | ⟨p, hp, e, rfl⟩) | ⟨k, -⟩)
      · exact k
      · have := List.snd_lt_of_mem_zipIdx hp
        omega
      · exact k
    · intro k
      by_cases e : x < a
      · exact .inl (.inl ⟨k, e⟩)
      · exact .inr ⟨k, by omega⟩

@[simp] theorem Mem.wf_empty : (({} : Mem)).wf = true := rfl

end Sys2Proof
end

