-- ==== Sys2Proof/Laws/State.lean ====
section
/-! SUPPORT. What each update of one unit leaves: every other field of State, every other unit, and the unit itself. -/

namespace Sys2Proof.Machine

variable (s : State)

/-! ### setCtx -/

@[simp] theorem State.setCtx_ctx (i : Nat) (x : Ctx) : (s.setCtx i x).ctx i = x := Tbl.get_set_same _ _ _ _
@[simp] theorem State.setCtx_ctx_other (i j : Nat) (x : Ctx) (h : j ≠ i) : (s.setCtx i x).ctx j = s.ctx j := Tbl.get_set_other _ h _ _
@[simp] theorem State.setCtx_frond (i j : Nat) (x : Ctx) : (s.setCtx i x).frond j = s.frond j := rfl
@[simp] theorem State.setCtx_sq (i j : Nat) (x : Ctx) : (s.setCtx i x).sq j = s.sq j := rfl
@[simp] theorem State.setCtx_cq (i j : Nat) (x : Ctx) : (s.setCtx i x).cq j = s.cq j := rfl
@[simp] theorem State.setCtx_mover (i j : Nat) (x : Ctx) : (s.setCtx i x).mover j = s.mover j := rfl
@[simp] theorem State.setCtx_comp (i j : Nat) (x : Ctx) : (s.setCtx i x).comp j = s.comp j := rfl
@[simp] theorem State.setCtx_tg (i j : Nat) (x : Ctx) : (s.setCtx i x).tg j = s.tg j := rfl
@[simp] theorem State.setCtx_port (i j : Nat) (x : Ctx) : (s.setCtx i x).port j = s.port j := rfl
@[simp] theorem State.setCtx_rx (i j : Nat) (x : Ctx) : (s.setCtx i x).rx j = s.rx j := rfl
@[simp] theorem State.setCtx_panel (i j : Nat) (x : Ctx) : (s.setCtx i x).panel j = s.panel j := rfl
@[simp] theorem State.setCtx_wear (i j : Nat) (x : Ctx) : (s.setCtx i x).wear j = s.wear j := rfl
@[simp] theorem State.setCtx_out (i j : Nat) (x : Ctx) : (s.setCtx i x).out j = s.out j := rfl
@[simp] theorem State.setCtx_stream (i j : Nat) (x : Ctx) : (s.setCtx i x).stream j = s.stream j := rfl
@[simp] theorem State.setCtx_group (i j : Nat) (x : Ctx) : (s.setCtx i x).group j = s.group j := rfl
@[simp] theorem State.setCtx_link (i j : Nat) (x : Ctx) : (s.setCtx i x).link j = s.link j := rfl
@[simp] theorem State.setCtx_halo (i j : Nat) (x : Ctx) : (s.setCtx i x).halo j = s.halo j := rfl
@[simp] theorem State.setCtx_tick (i j : Nat) (x : Ctx) : (s.setCtx i x).tick j = s.tick j := rfl
@[simp] theorem State.setCtx_unit (i j : Nat) (x : Ctx) : (s.setCtx i x).unit j = s.unit j := rfl
@[simp] theorem State.setCtx_domain (i j : Nat) (x : Ctx) : (s.setCtx i x).domain j = s.domain j := rfl
@[simp] theorem State.setCtx_row (i j : Nat) (x : Ctx) : (s.setCtx i x).row j = s.row j := rfl
@[simp] theorem State.setCtx_hbmc (i j : Nat) (x : Ctx) : (s.setCtx i x).hbmc j = s.hbmc j := rfl
@[simp] theorem State.setCtx_strap (i : Nat) (x : Ctx) : (s.setCtx i x).strap = s.strap := rfl
@[simp] theorem State.setCtx_ready (i : Nat) (x : Ctx) : (s.setCtx i x).ready = s.ready := rfl
@[simp] theorem State.setCtx_configDefaulted (i : Nat) (x : Ctx) : (s.setCtx i x).configDefaulted = s.configDefaulted := rfl
@[simp] theorem State.setCtx_boostSpent (i : Nat) (x : Ctx) : (s.setCtx i x).boostSpent = s.boostSpent := rfl
@[simp] theorem State.setCtx_passThrough (i : Nat) (x : Ctx) : (s.setCtx i x).passThrough = s.passThrough := rfl
@[simp] theorem State.setCtx_debugUnlocked (i : Nat) (x : Ctx) : (s.setCtx i x).debugUnlocked = s.debugUnlocked := rfl
@[simp] theorem State.setCtx_image (i : Nat) (x : Ctx) : (s.setCtx i x).image = s.image := rfl
@[simp] theorem State.setCtx_lockedWr (i : Nat) (x : Ctx) : (s.setCtx i x).lockedWr = s.lockedWr := rfl
@[simp] theorem State.setCtx_mapRefused (i : Nat) (x : Ctx) : (s.setCtx i x).mapRefused = s.mapRefused := rfl
@[simp] theorem State.setCtx_byteWr (i : Nat) (x : Ctx) : (s.setCtx i x).byteWr = s.byteWr := rfl
@[simp] theorem State.setCtx_locks (i : Nat) (x : Ctx) : (s.setCtx i x).locks = s.locks := rfl
@[simp] theorem State.setCtx_frondEn (i : Nat) (x : Ctx) : (s.setCtx i x).frondEn = s.frondEn := rfl
@[simp] theorem State.setCtx_frondPwr (i : Nat) (x : Ctx) : (s.setCtx i x).frondPwr = s.frondPwr := rfl
@[simp] theorem State.setCtx_dtb (i : Nat) (x : Ctx) : (s.setCtx i x).dtb = s.dtb := rfl
@[simp] theorem State.setCtx_dtbSlew (i : Nat) (x : Ctx) : (s.setCtx i x).dtbSlew = s.dtbSlew := rfl
@[simp] theorem State.setCtx_dtbFrac (i : Nat) (x : Ctx) : (s.setCtx i x).dtbFrac = s.dtbFrac := rfl
@[simp] theorem State.setCtx_fresh (i : Nat) (x : Ctx) : (s.setCtx i x).fresh = s.fresh := rfl
@[simp] theorem State.setCtx_readData (i : Nat) (x : Ctx) : (s.setCtx i x).readData = s.readData := rfl
@[simp] theorem State.setCtx_hostShadow (i : Nat) (x : Ctx) : (s.setCtx i x).hostShadow = s.hostShadow := rfl
@[simp] theorem State.setCtx_svcShadow (i : Nat) (x : Ctx) : (s.setCtx i x).svcShadow = s.svcShadow := rfl
@[simp] theorem State.setCtx_writeShadow (i : Nat) (x : Ctx) : (s.setCtx i x).writeShadow = s.writeShadow := rfl
@[simp] theorem State.setCtx_rows (i : Nat) (x : Ctx) : (s.setCtx i x).rows = s.rows := rfl
@[simp] theorem State.setCtx_inert (i : Nat) (x : Ctx) : (s.setCtx i x).inert = s.inert := rfl
@[simp] theorem State.setCtx_memEpoch (i : Nat) (x : Ctx) : (s.setCtx i x).memEpoch = s.memEpoch := rfl
@[simp] theorem State.setCtx_hbm (i : Nat) (x : Ctx) : (s.setCtx i x).hbm = s.hbm := rfl
@[simp] theorem State.setCtx_hbmPoison (i : Nat) (x : Ctx) : (s.setCtx i x).hbmPoison = s.hbmPoison := rfl
@[simp] theorem State.setCtx_host (i : Nat) (x : Ctx) : (s.setCtx i x).host = s.host := rfl
@[simp] theorem State.setCtx_absent (i : Nat) (x : Ctx) : (s.setCtx i x).absent = s.absent := rfl
@[simp] theorem State.setCtx_readOnly (i : Nat) (x : Ctx) : (s.setCtx i x).readOnly = s.readOnly := rfl
@[simp] theorem State.setCtx_pageReqs (i : Nat) (x : Ctx) : (s.setCtx i x).pageReqs = s.pageReqs := rfl
@[simp] theorem State.setCtx_invalDone (i : Nat) (x : Ctx) : (s.setCtx i x).invalDone = s.invalDone := rfl
@[simp] theorem State.setCtx_nextXfer (i : Nat) (x : Ctx) : (s.setCtx i x).nextXfer = s.nextXfer := rfl
@[simp] theorem State.setCtx_commitCount (i : Nat) (x : Ctx) : (s.setCtx i x).commitCount = s.commitCount := rfl
@[simp] theorem State.setCtx_commits (i : Nat) (x : Ctx) : (s.setCtx i x).commits = s.commits := rfl
@[simp] theorem State.setCtx_hif (i : Nat) (x : Ctx) : (s.setCtx i x).hif = s.hif := rfl
@[simp] theorem State.setCtx_lsch (i : Nat) (x : Ctx) : (s.setCtx i x).lsch = s.lsch := rfl
@[simp] theorem State.setCtx_ls (i : Nat) (x : Ctx) : (s.setCtx i x).ls = s.ls := rfl
@[simp] theorem State.setCtx_fronds (i : Nat) (x : Ctx) : (s.setCtx i x).fronds = s.fronds := rfl
@[simp] theorem State.setCtx_movers (i : Nat) (x : Ctx) : (s.setCtx i x).movers = s.movers := rfl
@[simp] theorem State.setCtx_comps (i : Nat) (x : Ctx) : (s.setCtx i x).comps = s.comps := rfl
@[simp] theorem State.setCtx_tgs (i : Nat) (x : Ctx) : (s.setCtx i x).tgs = s.tgs := rfl
@[simp] theorem State.setCtx_raster (i : Nat) (x : Ctx) : (s.setCtx i x).raster = s.raster := rfl
@[simp] theorem State.setCtx_dptx (i : Nat) (x : Ctx) : (s.setCtx i x).dptx = s.dptx := rfl
@[simp] theorem State.setCtx_dprx (i : Nat) (x : Ctx) : (s.setCtx i x).dprx = s.dprx := rfl
@[simp] theorem State.setCtx_panels (i : Nat) (x : Ctx) : (s.setCtx i x).panels = s.panels := rfl
@[simp] theorem State.setCtx_pwu (i : Nat) (x : Ctx) : (s.setCtx i x).pwu = s.pwu := rfl
@[simp] theorem State.setCtx_eeprom (i : Nat) (x : Ctx) : (s.setCtx i x).eeprom = s.eeprom := rfl
@[simp] theorem State.setCtx_pmon (i : Nat) (x : Ctx) : (s.setCtx i x).pmon = s.pmon := rfl
@[simp] theorem State.setCtx_ldl (i : Nat) (x : Ctx) : (s.setCtx i x).ldl = s.ldl := rfl
@[simp] theorem State.setCtx_svc (i : Nat) (x : Ctx) : (s.setCtx i x).svc = s.svc := rfl
@[simp] theorem State.setCtx_xspi (i : Nat) (x : Ctx) : (s.setCtx i x).xspi = s.xspi := rfl
@[simp] theorem State.setCtx_pcie (i : Nat) (x : Ctx) : (s.setCtx i x).pcie = s.pcie := rfl
@[simp] theorem State.setCtx_lwl (i : Nat) (x : Ctx) : (s.setCtx i x).lwl = s.lwl := rfl
@[simp] theorem State.setCtx_power (i : Nat) (x : Ctx) : (s.setCtx i x).power = s.power := rfl
@[simp] theorem State.setCtx_hbmCtl (i : Nat) (x : Ctx) : (s.setCtx i x).hbmCtl = s.hbmCtl := rfl
@[simp] theorem State.setCtx_pins (i : Nat) (x : Ctx) : (s.setCtx i x).pins = s.pins := rfl
@[simp] theorem State.setCtx_pending (i : Nat) (x : Ctx) : (s.setCtx i x).pending = s.pending := rfl

/-! ### setFrond -/

@[simp] theorem State.setFrond_frond (i : Nat) (x : Frond) : (s.setFrond i x).frond i = x := Tbl.get_set_same _ _ _ _
@[simp] theorem State.setFrond_frond_other (i j : Nat) (x : Frond) (h : j ≠ i) : (s.setFrond i x).frond j = s.frond j := Tbl.get_set_other _ h _ _
@[simp] theorem State.setFrond_ctx (i j : Nat) (x : Frond) : (s.setFrond i x).ctx j = s.ctx j := rfl
@[simp] theorem State.setFrond_sq (i j : Nat) (x : Frond) : (s.setFrond i x).sq j = s.sq j := rfl
@[simp] theorem State.setFrond_cq (i j : Nat) (x : Frond) : (s.setFrond i x).cq j = s.cq j := rfl
@[simp] theorem State.setFrond_mover (i j : Nat) (x : Frond) : (s.setFrond i x).mover j = s.mover j := rfl
@[simp] theorem State.setFrond_comp (i j : Nat) (x : Frond) : (s.setFrond i x).comp j = s.comp j := rfl
@[simp] theorem State.setFrond_tg (i j : Nat) (x : Frond) : (s.setFrond i x).tg j = s.tg j := rfl
@[simp] theorem State.setFrond_port (i j : Nat) (x : Frond) : (s.setFrond i x).port j = s.port j := rfl
@[simp] theorem State.setFrond_rx (i j : Nat) (x : Frond) : (s.setFrond i x).rx j = s.rx j := rfl
@[simp] theorem State.setFrond_panel (i j : Nat) (x : Frond) : (s.setFrond i x).panel j = s.panel j := rfl
@[simp] theorem State.setFrond_wear (i j : Nat) (x : Frond) : (s.setFrond i x).wear j = s.wear j := rfl
@[simp] theorem State.setFrond_out (i j : Nat) (x : Frond) : (s.setFrond i x).out j = s.out j := rfl
@[simp] theorem State.setFrond_stream (i j : Nat) (x : Frond) : (s.setFrond i x).stream j = s.stream j := rfl
@[simp] theorem State.setFrond_group (i j : Nat) (x : Frond) : (s.setFrond i x).group j = s.group j := rfl
@[simp] theorem State.setFrond_link (i j : Nat) (x : Frond) : (s.setFrond i x).link j = s.link j := rfl
@[simp] theorem State.setFrond_halo (i j : Nat) (x : Frond) : (s.setFrond i x).halo j = s.halo j := rfl
@[simp] theorem State.setFrond_tick (i j : Nat) (x : Frond) : (s.setFrond i x).tick j = s.tick j := rfl
@[simp] theorem State.setFrond_unit (i j : Nat) (x : Frond) : (s.setFrond i x).unit j = s.unit j := rfl
@[simp] theorem State.setFrond_domain (i j : Nat) (x : Frond) : (s.setFrond i x).domain j = s.domain j := rfl
@[simp] theorem State.setFrond_row (i j : Nat) (x : Frond) : (s.setFrond i x).row j = s.row j := rfl
@[simp] theorem State.setFrond_hbmc (i j : Nat) (x : Frond) : (s.setFrond i x).hbmc j = s.hbmc j := rfl
@[simp] theorem State.setFrond_strap (i : Nat) (x : Frond) : (s.setFrond i x).strap = s.strap := rfl
@[simp] theorem State.setFrond_ready (i : Nat) (x : Frond) : (s.setFrond i x).ready = s.ready := rfl
@[simp] theorem State.setFrond_configDefaulted (i : Nat) (x : Frond) : (s.setFrond i x).configDefaulted = s.configDefaulted := rfl
@[simp] theorem State.setFrond_boostSpent (i : Nat) (x : Frond) : (s.setFrond i x).boostSpent = s.boostSpent := rfl
@[simp] theorem State.setFrond_passThrough (i : Nat) (x : Frond) : (s.setFrond i x).passThrough = s.passThrough := rfl
@[simp] theorem State.setFrond_debugUnlocked (i : Nat) (x : Frond) : (s.setFrond i x).debugUnlocked = s.debugUnlocked := rfl
@[simp] theorem State.setFrond_image (i : Nat) (x : Frond) : (s.setFrond i x).image = s.image := rfl
@[simp] theorem State.setFrond_lockedWr (i : Nat) (x : Frond) : (s.setFrond i x).lockedWr = s.lockedWr := rfl
@[simp] theorem State.setFrond_mapRefused (i : Nat) (x : Frond) : (s.setFrond i x).mapRefused = s.mapRefused := rfl
@[simp] theorem State.setFrond_byteWr (i : Nat) (x : Frond) : (s.setFrond i x).byteWr = s.byteWr := rfl
@[simp] theorem State.setFrond_locks (i : Nat) (x : Frond) : (s.setFrond i x).locks = s.locks := rfl
@[simp] theorem State.setFrond_frondEn (i : Nat) (x : Frond) : (s.setFrond i x).frondEn = s.frondEn := rfl
@[simp] theorem State.setFrond_frondPwr (i : Nat) (x : Frond) : (s.setFrond i x).frondPwr = s.frondPwr := rfl
@[simp] theorem State.setFrond_dtb (i : Nat) (x : Frond) : (s.setFrond i x).dtb = s.dtb := rfl
@[simp] theorem State.setFrond_dtbSlew (i : Nat) (x : Frond) : (s.setFrond i x).dtbSlew = s.dtbSlew := rfl
@[simp] theorem State.setFrond_dtbFrac (i : Nat) (x : Frond) : (s.setFrond i x).dtbFrac = s.dtbFrac := rfl
@[simp] theorem State.setFrond_fresh (i : Nat) (x : Frond) : (s.setFrond i x).fresh = s.fresh := rfl
@[simp] theorem State.setFrond_readData (i : Nat) (x : Frond) : (s.setFrond i x).readData = s.readData := rfl
@[simp] theorem State.setFrond_hostShadow (i : Nat) (x : Frond) : (s.setFrond i x).hostShadow = s.hostShadow := rfl
@[simp] theorem State.setFrond_svcShadow (i : Nat) (x : Frond) : (s.setFrond i x).svcShadow = s.svcShadow := rfl
@[simp] theorem State.setFrond_writeShadow (i : Nat) (x : Frond) : (s.setFrond i x).writeShadow = s.writeShadow := rfl
@[simp] theorem State.setFrond_rows (i : Nat) (x : Frond) : (s.setFrond i x).rows = s.rows := rfl
@[simp] theorem State.setFrond_inert (i : Nat) (x : Frond) : (s.setFrond i x).inert = s.inert := rfl
@[simp] theorem State.setFrond_memEpoch (i : Nat) (x : Frond) : (s.setFrond i x).memEpoch = s.memEpoch := rfl
@[simp] theorem State.setFrond_hbm (i : Nat) (x : Frond) : (s.setFrond i x).hbm = s.hbm := rfl
@[simp] theorem State.setFrond_hbmPoison (i : Nat) (x : Frond) : (s.setFrond i x).hbmPoison = s.hbmPoison := rfl
@[simp] theorem State.setFrond_host (i : Nat) (x : Frond) : (s.setFrond i x).host = s.host := rfl
@[simp] theorem State.setFrond_absent (i : Nat) (x : Frond) : (s.setFrond i x).absent = s.absent := rfl
@[simp] theorem State.setFrond_readOnly (i : Nat) (x : Frond) : (s.setFrond i x).readOnly = s.readOnly := rfl
@[simp] theorem State.setFrond_pageReqs (i : Nat) (x : Frond) : (s.setFrond i x).pageReqs = s.pageReqs := rfl
@[simp] theorem State.setFrond_invalDone (i : Nat) (x : Frond) : (s.setFrond i x).invalDone = s.invalDone := rfl
@[simp] theorem State.setFrond_nextXfer (i : Nat) (x : Frond) : (s.setFrond i x).nextXfer = s.nextXfer := rfl
@[simp] theorem State.setFrond_commitCount (i : Nat) (x : Frond) : (s.setFrond i x).commitCount = s.commitCount := rfl
@[simp] theorem State.setFrond_commits (i : Nat) (x : Frond) : (s.setFrond i x).commits = s.commits := rfl
@[simp] theorem State.setFrond_hif (i : Nat) (x : Frond) : (s.setFrond i x).hif = s.hif := rfl
@[simp] theorem State.setFrond_ctxs (i : Nat) (x : Frond) : (s.setFrond i x).ctxs = s.ctxs := rfl
@[simp] theorem State.setFrond_lsch (i : Nat) (x : Frond) : (s.setFrond i x).lsch = s.lsch := rfl
@[simp] theorem State.setFrond_ls (i : Nat) (x : Frond) : (s.setFrond i x).ls = s.ls := rfl
@[simp] theorem State.setFrond_movers (i : Nat) (x : Frond) : (s.setFrond i x).movers = s.movers := rfl
@[simp] theorem State.setFrond_comps (i : Nat) (x : Frond) : (s.setFrond i x).comps = s.comps := rfl
@[simp] theorem State.setFrond_tgs (i : Nat) (x : Frond) : (s.setFrond i x).tgs = s.tgs := rfl
@[simp] theorem State.setFrond_raster (i : Nat) (x : Frond) : (s.setFrond i x).raster = s.raster := rfl
@[simp] theorem State.setFrond_dptx (i : Nat) (x : Frond) : (s.setFrond i x).dptx = s.dptx := rfl
@[simp] theorem State.setFrond_dprx (i : Nat) (x : Frond) : (s.setFrond i x).dprx = s.dprx := rfl
@[simp] theorem State.setFrond_panels (i : Nat) (x : Frond) : (s.setFrond i x).panels = s.panels := rfl
@[simp] theorem State.setFrond_pwu (i : Nat) (x : Frond) : (s.setFrond i x).pwu = s.pwu := rfl
@[simp] theorem State.setFrond_eeprom (i : Nat) (x : Frond) : (s.setFrond i x).eeprom = s.eeprom := rfl
@[simp] theorem State.setFrond_pmon (i : Nat) (x : Frond) : (s.setFrond i x).pmon = s.pmon := rfl
@[simp] theorem State.setFrond_ldl (i : Nat) (x : Frond) : (s.setFrond i x).ldl = s.ldl := rfl
@[simp] theorem State.setFrond_svc (i : Nat) (x : Frond) : (s.setFrond i x).svc = s.svc := rfl
@[simp] theorem State.setFrond_xspi (i : Nat) (x : Frond) : (s.setFrond i x).xspi = s.xspi := rfl
@[simp] theorem State.setFrond_pcie (i : Nat) (x : Frond) : (s.setFrond i x).pcie = s.pcie := rfl
@[simp] theorem State.setFrond_lwl (i : Nat) (x : Frond) : (s.setFrond i x).lwl = s.lwl := rfl
@[simp] theorem State.setFrond_power (i : Nat) (x : Frond) : (s.setFrond i x).power = s.power := rfl
@[simp] theorem State.setFrond_hbmCtl (i : Nat) (x : Frond) : (s.setFrond i x).hbmCtl = s.hbmCtl := rfl
@[simp] theorem State.setFrond_pins (i : Nat) (x : Frond) : (s.setFrond i x).pins = s.pins := rfl
@[simp] theorem State.setFrond_pending (i : Nat) (x : Frond) : (s.setFrond i x).pending = s.pending := rfl

/-! ### setSq -/

@[simp] theorem State.setSq_sq (i : Nat) (x : SubRing) : (s.setSq i x).sq i = x := Tbl.get_set_same _ _ _ _
@[simp] theorem State.setSq_sq_other (i j : Nat) (x : SubRing) (h : j ≠ i) : (s.setSq i x).sq j = s.sq j := Tbl.get_set_other _ h _ _
@[simp] theorem State.setSq_ctx (i j : Nat) (x : SubRing) : (s.setSq i x).ctx j = s.ctx j := rfl
@[simp] theorem State.setSq_frond (i j : Nat) (x : SubRing) : (s.setSq i x).frond j = s.frond j := rfl
@[simp] theorem State.setSq_cq (i j : Nat) (x : SubRing) : (s.setSq i x).cq j = s.cq j := rfl
@[simp] theorem State.setSq_mover (i j : Nat) (x : SubRing) : (s.setSq i x).mover j = s.mover j := rfl
@[simp] theorem State.setSq_comp (i j : Nat) (x : SubRing) : (s.setSq i x).comp j = s.comp j := rfl
@[simp] theorem State.setSq_tg (i j : Nat) (x : SubRing) : (s.setSq i x).tg j = s.tg j := rfl
@[simp] theorem State.setSq_port (i j : Nat) (x : SubRing) : (s.setSq i x).port j = s.port j := rfl
@[simp] theorem State.setSq_rx (i j : Nat) (x : SubRing) : (s.setSq i x).rx j = s.rx j := rfl
@[simp] theorem State.setSq_panel (i j : Nat) (x : SubRing) : (s.setSq i x).panel j = s.panel j := rfl
@[simp] theorem State.setSq_wear (i j : Nat) (x : SubRing) : (s.setSq i x).wear j = s.wear j := rfl
@[simp] theorem State.setSq_out (i j : Nat) (x : SubRing) : (s.setSq i x).out j = s.out j := rfl
@[simp] theorem State.setSq_stream (i j : Nat) (x : SubRing) : (s.setSq i x).stream j = s.stream j := rfl
@[simp] theorem State.setSq_group (i j : Nat) (x : SubRing) : (s.setSq i x).group j = s.group j := rfl
@[simp] theorem State.setSq_link (i j : Nat) (x : SubRing) : (s.setSq i x).link j = s.link j := rfl
@[simp] theorem State.setSq_halo (i j : Nat) (x : SubRing) : (s.setSq i x).halo j = s.halo j := rfl
@[simp] theorem State.setSq_tick (i j : Nat) (x : SubRing) : (s.setSq i x).tick j = s.tick j := rfl
@[simp] theorem State.setSq_unit (i j : Nat) (x : SubRing) : (s.setSq i x).unit j = s.unit j := rfl
@[simp] theorem State.setSq_domain (i j : Nat) (x : SubRing) : (s.setSq i x).domain j = s.domain j := rfl
@[simp] theorem State.setSq_row (i j : Nat) (x : SubRing) : (s.setSq i x).row j = s.row j := rfl
@[simp] theorem State.setSq_hbmc (i j : Nat) (x : SubRing) : (s.setSq i x).hbmc j = s.hbmc j := rfl
@[simp] theorem State.setSq_strap (i : Nat) (x : SubRing) : (s.setSq i x).strap = s.strap := rfl
@[simp] theorem State.setSq_ready (i : Nat) (x : SubRing) : (s.setSq i x).ready = s.ready := rfl
@[simp] theorem State.setSq_configDefaulted (i : Nat) (x : SubRing) : (s.setSq i x).configDefaulted = s.configDefaulted := rfl
@[simp] theorem State.setSq_boostSpent (i : Nat) (x : SubRing) : (s.setSq i x).boostSpent = s.boostSpent := rfl
@[simp] theorem State.setSq_passThrough (i : Nat) (x : SubRing) : (s.setSq i x).passThrough = s.passThrough := rfl
@[simp] theorem State.setSq_debugUnlocked (i : Nat) (x : SubRing) : (s.setSq i x).debugUnlocked = s.debugUnlocked := rfl
@[simp] theorem State.setSq_image (i : Nat) (x : SubRing) : (s.setSq i x).image = s.image := rfl
@[simp] theorem State.setSq_lockedWr (i : Nat) (x : SubRing) : (s.setSq i x).lockedWr = s.lockedWr := rfl
@[simp] theorem State.setSq_mapRefused (i : Nat) (x : SubRing) : (s.setSq i x).mapRefused = s.mapRefused := rfl
@[simp] theorem State.setSq_byteWr (i : Nat) (x : SubRing) : (s.setSq i x).byteWr = s.byteWr := rfl
@[simp] theorem State.setSq_locks (i : Nat) (x : SubRing) : (s.setSq i x).locks = s.locks := rfl
@[simp] theorem State.setSq_frondEn (i : Nat) (x : SubRing) : (s.setSq i x).frondEn = s.frondEn := rfl
@[simp] theorem State.setSq_frondPwr (i : Nat) (x : SubRing) : (s.setSq i x).frondPwr = s.frondPwr := rfl
@[simp] theorem State.setSq_dtb (i : Nat) (x : SubRing) : (s.setSq i x).dtb = s.dtb := rfl
@[simp] theorem State.setSq_dtbSlew (i : Nat) (x : SubRing) : (s.setSq i x).dtbSlew = s.dtbSlew := rfl
@[simp] theorem State.setSq_dtbFrac (i : Nat) (x : SubRing) : (s.setSq i x).dtbFrac = s.dtbFrac := rfl
@[simp] theorem State.setSq_fresh (i : Nat) (x : SubRing) : (s.setSq i x).fresh = s.fresh := rfl
@[simp] theorem State.setSq_readData (i : Nat) (x : SubRing) : (s.setSq i x).readData = s.readData := rfl
@[simp] theorem State.setSq_hostShadow (i : Nat) (x : SubRing) : (s.setSq i x).hostShadow = s.hostShadow := rfl
@[simp] theorem State.setSq_svcShadow (i : Nat) (x : SubRing) : (s.setSq i x).svcShadow = s.svcShadow := rfl
@[simp] theorem State.setSq_writeShadow (i : Nat) (x : SubRing) : (s.setSq i x).writeShadow = s.writeShadow := rfl
@[simp] theorem State.setSq_rows (i : Nat) (x : SubRing) : (s.setSq i x).rows = s.rows := rfl
@[simp] theorem State.setSq_inert (i : Nat) (x : SubRing) : (s.setSq i x).inert = s.inert := rfl
@[simp] theorem State.setSq_memEpoch (i : Nat) (x : SubRing) : (s.setSq i x).memEpoch = s.memEpoch := rfl
@[simp] theorem State.setSq_hbm (i : Nat) (x : SubRing) : (s.setSq i x).hbm = s.hbm := rfl
@[simp] theorem State.setSq_hbmPoison (i : Nat) (x : SubRing) : (s.setSq i x).hbmPoison = s.hbmPoison := rfl
@[simp] theorem State.setSq_host (i : Nat) (x : SubRing) : (s.setSq i x).host = s.host := rfl
@[simp] theorem State.setSq_absent (i : Nat) (x : SubRing) : (s.setSq i x).absent = s.absent := rfl
@[simp] theorem State.setSq_readOnly (i : Nat) (x : SubRing) : (s.setSq i x).readOnly = s.readOnly := rfl
@[simp] theorem State.setSq_pageReqs (i : Nat) (x : SubRing) : (s.setSq i x).pageReqs = s.pageReqs := rfl
@[simp] theorem State.setSq_invalDone (i : Nat) (x : SubRing) : (s.setSq i x).invalDone = s.invalDone := rfl
@[simp] theorem State.setSq_nextXfer (i : Nat) (x : SubRing) : (s.setSq i x).nextXfer = s.nextXfer := rfl
@[simp] theorem State.setSq_commitCount (i : Nat) (x : SubRing) : (s.setSq i x).commitCount = s.commitCount := rfl
@[simp] theorem State.setSq_commits (i : Nat) (x : SubRing) : (s.setSq i x).commits = s.commits := rfl
@[simp] theorem State.setSq_ctxs (i : Nat) (x : SubRing) : (s.setSq i x).ctxs = s.ctxs := rfl
@[simp] theorem State.setSq_lsch (i : Nat) (x : SubRing) : (s.setSq i x).lsch = s.lsch := rfl
@[simp] theorem State.setSq_ls (i : Nat) (x : SubRing) : (s.setSq i x).ls = s.ls := rfl
@[simp] theorem State.setSq_fronds (i : Nat) (x : SubRing) : (s.setSq i x).fronds = s.fronds := rfl
@[simp] theorem State.setSq_movers (i : Nat) (x : SubRing) : (s.setSq i x).movers = s.movers := rfl
@[simp] theorem State.setSq_comps (i : Nat) (x : SubRing) : (s.setSq i x).comps = s.comps := rfl
@[simp] theorem State.setSq_tgs (i : Nat) (x : SubRing) : (s.setSq i x).tgs = s.tgs := rfl
@[simp] theorem State.setSq_raster (i : Nat) (x : SubRing) : (s.setSq i x).raster = s.raster := rfl
@[simp] theorem State.setSq_dptx (i : Nat) (x : SubRing) : (s.setSq i x).dptx = s.dptx := rfl
@[simp] theorem State.setSq_dprx (i : Nat) (x : SubRing) : (s.setSq i x).dprx = s.dprx := rfl
@[simp] theorem State.setSq_panels (i : Nat) (x : SubRing) : (s.setSq i x).panels = s.panels := rfl
@[simp] theorem State.setSq_pwu (i : Nat) (x : SubRing) : (s.setSq i x).pwu = s.pwu := rfl
@[simp] theorem State.setSq_eeprom (i : Nat) (x : SubRing) : (s.setSq i x).eeprom = s.eeprom := rfl
@[simp] theorem State.setSq_pmon (i : Nat) (x : SubRing) : (s.setSq i x).pmon = s.pmon := rfl
@[simp] theorem State.setSq_ldl (i : Nat) (x : SubRing) : (s.setSq i x).ldl = s.ldl := rfl
@[simp] theorem State.setSq_svc (i : Nat) (x : SubRing) : (s.setSq i x).svc = s.svc := rfl
@[simp] theorem State.setSq_xspi (i : Nat) (x : SubRing) : (s.setSq i x).xspi = s.xspi := rfl
@[simp] theorem State.setSq_pcie (i : Nat) (x : SubRing) : (s.setSq i x).pcie = s.pcie := rfl
@[simp] theorem State.setSq_lwl (i : Nat) (x : SubRing) : (s.setSq i x).lwl = s.lwl := rfl
@[simp] theorem State.setSq_power (i : Nat) (x : SubRing) : (s.setSq i x).power = s.power := rfl
@[simp] theorem State.setSq_hbmCtl (i : Nat) (x : SubRing) : (s.setSq i x).hbmCtl = s.hbmCtl := rfl
@[simp] theorem State.setSq_pins (i : Nat) (x : SubRing) : (s.setSq i x).pins = s.pins := rfl
@[simp] theorem State.setSq_pending (i : Nat) (x : SubRing) : (s.setSq i x).pending = s.pending := rfl

/-! ### setCq -/

@[simp] theorem State.setCq_cq (i : Nat) (x : CplRing) : (s.setCq i x).cq i = x := Tbl.get_set_same _ _ _ _
@[simp] theorem State.setCq_cq_other (i j : Nat) (x : CplRing) (h : j ≠ i) : (s.setCq i x).cq j = s.cq j := Tbl.get_set_other _ h _ _
@[simp] theorem State.setCq_ctx (i j : Nat) (x : CplRing) : (s.setCq i x).ctx j = s.ctx j := rfl
@[simp] theorem State.setCq_frond (i j : Nat) (x : CplRing) : (s.setCq i x).frond j = s.frond j := rfl
@[simp] theorem State.setCq_sq (i j : Nat) (x : CplRing) : (s.setCq i x).sq j = s.sq j := rfl
@[simp] theorem State.setCq_mover (i j : Nat) (x : CplRing) : (s.setCq i x).mover j = s.mover j := rfl
@[simp] theorem State.setCq_comp (i j : Nat) (x : CplRing) : (s.setCq i x).comp j = s.comp j := rfl
@[simp] theorem State.setCq_tg (i j : Nat) (x : CplRing) : (s.setCq i x).tg j = s.tg j := rfl
@[simp] theorem State.setCq_port (i j : Nat) (x : CplRing) : (s.setCq i x).port j = s.port j := rfl
@[simp] theorem State.setCq_rx (i j : Nat) (x : CplRing) : (s.setCq i x).rx j = s.rx j := rfl
@[simp] theorem State.setCq_panel (i j : Nat) (x : CplRing) : (s.setCq i x).panel j = s.panel j := rfl
@[simp] theorem State.setCq_wear (i j : Nat) (x : CplRing) : (s.setCq i x).wear j = s.wear j := rfl
@[simp] theorem State.setCq_out (i j : Nat) (x : CplRing) : (s.setCq i x).out j = s.out j := rfl
@[simp] theorem State.setCq_stream (i j : Nat) (x : CplRing) : (s.setCq i x).stream j = s.stream j := rfl
@[simp] theorem State.setCq_group (i j : Nat) (x : CplRing) : (s.setCq i x).group j = s.group j := rfl
@[simp] theorem State.setCq_link (i j : Nat) (x : CplRing) : (s.setCq i x).link j = s.link j := rfl
@[simp] theorem State.setCq_halo (i j : Nat) (x : CplRing) : (s.setCq i x).halo j = s.halo j := rfl
@[simp] theorem State.setCq_tick (i j : Nat) (x : CplRing) : (s.setCq i x).tick j = s.tick j := rfl
@[simp] theorem State.setCq_unit (i j : Nat) (x : CplRing) : (s.setCq i x).unit j = s.unit j := rfl
@[simp] theorem State.setCq_domain (i j : Nat) (x : CplRing) : (s.setCq i x).domain j = s.domain j := rfl
@[simp] theorem State.setCq_row (i j : Nat) (x : CplRing) : (s.setCq i x).row j = s.row j := rfl
@[simp] theorem State.setCq_hbmc (i j : Nat) (x : CplRing) : (s.setCq i x).hbmc j = s.hbmc j := rfl
@[simp] theorem State.setCq_strap (i : Nat) (x : CplRing) : (s.setCq i x).strap = s.strap := rfl
@[simp] theorem State.setCq_ready (i : Nat) (x : CplRing) : (s.setCq i x).ready = s.ready := rfl
@[simp] theorem State.setCq_configDefaulted (i : Nat) (x : CplRing) : (s.setCq i x).configDefaulted = s.configDefaulted := rfl
@[simp] theorem State.setCq_boostSpent (i : Nat) (x : CplRing) : (s.setCq i x).boostSpent = s.boostSpent := rfl
@[simp] theorem State.setCq_passThrough (i : Nat) (x : CplRing) : (s.setCq i x).passThrough = s.passThrough := rfl
@[simp] theorem State.setCq_debugUnlocked (i : Nat) (x : CplRing) : (s.setCq i x).debugUnlocked = s.debugUnlocked := rfl
@[simp] theorem State.setCq_image (i : Nat) (x : CplRing) : (s.setCq i x).image = s.image := rfl
@[simp] theorem State.setCq_lockedWr (i : Nat) (x : CplRing) : (s.setCq i x).lockedWr = s.lockedWr := rfl
@[simp] theorem State.setCq_mapRefused (i : Nat) (x : CplRing) : (s.setCq i x).mapRefused = s.mapRefused := rfl
@[simp] theorem State.setCq_byteWr (i : Nat) (x : CplRing) : (s.setCq i x).byteWr = s.byteWr := rfl
@[simp] theorem State.setCq_locks (i : Nat) (x : CplRing) : (s.setCq i x).locks = s.locks := rfl
@[simp] theorem State.setCq_frondEn (i : Nat) (x : CplRing) : (s.setCq i x).frondEn = s.frondEn := rfl
@[simp] theorem State.setCq_frondPwr (i : Nat) (x : CplRing) : (s.setCq i x).frondPwr = s.frondPwr := rfl
@[simp] theorem State.setCq_dtb (i : Nat) (x : CplRing) : (s.setCq i x).dtb = s.dtb := rfl
@[simp] theorem State.setCq_dtbSlew (i : Nat) (x : CplRing) : (s.setCq i x).dtbSlew = s.dtbSlew := rfl
@[simp] theorem State.setCq_dtbFrac (i : Nat) (x : CplRing) : (s.setCq i x).dtbFrac = s.dtbFrac := rfl
@[simp] theorem State.setCq_fresh (i : Nat) (x : CplRing) : (s.setCq i x).fresh = s.fresh := rfl
@[simp] theorem State.setCq_readData (i : Nat) (x : CplRing) : (s.setCq i x).readData = s.readData := rfl
@[simp] theorem State.setCq_hostShadow (i : Nat) (x : CplRing) : (s.setCq i x).hostShadow = s.hostShadow := rfl
@[simp] theorem State.setCq_svcShadow (i : Nat) (x : CplRing) : (s.setCq i x).svcShadow = s.svcShadow := rfl
@[simp] theorem State.setCq_writeShadow (i : Nat) (x : CplRing) : (s.setCq i x).writeShadow = s.writeShadow := rfl
@[simp] theorem State.setCq_rows (i : Nat) (x : CplRing) : (s.setCq i x).rows = s.rows := rfl
@[simp] theorem State.setCq_inert (i : Nat) (x : CplRing) : (s.setCq i x).inert = s.inert := rfl
@[simp] theorem State.setCq_memEpoch (i : Nat) (x : CplRing) : (s.setCq i x).memEpoch = s.memEpoch := rfl
@[simp] theorem State.setCq_hbm (i : Nat) (x : CplRing) : (s.setCq i x).hbm = s.hbm := rfl
@[simp] theorem State.setCq_hbmPoison (i : Nat) (x : CplRing) : (s.setCq i x).hbmPoison = s.hbmPoison := rfl
@[simp] theorem State.setCq_host (i : Nat) (x : CplRing) : (s.setCq i x).host = s.host := rfl
@[simp] theorem State.setCq_absent (i : Nat) (x : CplRing) : (s.setCq i x).absent = s.absent := rfl
@[simp] theorem State.setCq_readOnly (i : Nat) (x : CplRing) : (s.setCq i x).readOnly = s.readOnly := rfl
@[simp] theorem State.setCq_pageReqs (i : Nat) (x : CplRing) : (s.setCq i x).pageReqs = s.pageReqs := rfl
@[simp] theorem State.setCq_invalDone (i : Nat) (x : CplRing) : (s.setCq i x).invalDone = s.invalDone := rfl
@[simp] theorem State.setCq_nextXfer (i : Nat) (x : CplRing) : (s.setCq i x).nextXfer = s.nextXfer := rfl
@[simp] theorem State.setCq_commitCount (i : Nat) (x : CplRing) : (s.setCq i x).commitCount = s.commitCount := rfl
@[simp] theorem State.setCq_commits (i : Nat) (x : CplRing) : (s.setCq i x).commits = s.commits := rfl
@[simp] theorem State.setCq_ctxs (i : Nat) (x : CplRing) : (s.setCq i x).ctxs = s.ctxs := rfl
@[simp] theorem State.setCq_lsch (i : Nat) (x : CplRing) : (s.setCq i x).lsch = s.lsch := rfl
@[simp] theorem State.setCq_ls (i : Nat) (x : CplRing) : (s.setCq i x).ls = s.ls := rfl
@[simp] theorem State.setCq_fronds (i : Nat) (x : CplRing) : (s.setCq i x).fronds = s.fronds := rfl
@[simp] theorem State.setCq_movers (i : Nat) (x : CplRing) : (s.setCq i x).movers = s.movers := rfl
@[simp] theorem State.setCq_comps (i : Nat) (x : CplRing) : (s.setCq i x).comps = s.comps := rfl
@[simp] theorem State.setCq_tgs (i : Nat) (x : CplRing) : (s.setCq i x).tgs = s.tgs := rfl
@[simp] theorem State.setCq_raster (i : Nat) (x : CplRing) : (s.setCq i x).raster = s.raster := rfl
@[simp] theorem State.setCq_dptx (i : Nat) (x : CplRing) : (s.setCq i x).dptx = s.dptx := rfl
@[simp] theorem State.setCq_dprx (i : Nat) (x : CplRing) : (s.setCq i x).dprx = s.dprx := rfl
@[simp] theorem State.setCq_panels (i : Nat) (x : CplRing) : (s.setCq i x).panels = s.panels := rfl
@[simp] theorem State.setCq_pwu (i : Nat) (x : CplRing) : (s.setCq i x).pwu = s.pwu := rfl
@[simp] theorem State.setCq_eeprom (i : Nat) (x : CplRing) : (s.setCq i x).eeprom = s.eeprom := rfl
@[simp] theorem State.setCq_pmon (i : Nat) (x : CplRing) : (s.setCq i x).pmon = s.pmon := rfl
@[simp] theorem State.setCq_ldl (i : Nat) (x : CplRing) : (s.setCq i x).ldl = s.ldl := rfl
@[simp] theorem State.setCq_svc (i : Nat) (x : CplRing) : (s.setCq i x).svc = s.svc := rfl
@[simp] theorem State.setCq_xspi (i : Nat) (x : CplRing) : (s.setCq i x).xspi = s.xspi := rfl
@[simp] theorem State.setCq_pcie (i : Nat) (x : CplRing) : (s.setCq i x).pcie = s.pcie := rfl
@[simp] theorem State.setCq_lwl (i : Nat) (x : CplRing) : (s.setCq i x).lwl = s.lwl := rfl
@[simp] theorem State.setCq_power (i : Nat) (x : CplRing) : (s.setCq i x).power = s.power := rfl
@[simp] theorem State.setCq_hbmCtl (i : Nat) (x : CplRing) : (s.setCq i x).hbmCtl = s.hbmCtl := rfl
@[simp] theorem State.setCq_pins (i : Nat) (x : CplRing) : (s.setCq i x).pins = s.pins := rfl
@[simp] theorem State.setCq_pending (i : Nat) (x : CplRing) : (s.setCq i x).pending = s.pending := rfl

/-! ### setMover -/

@[simp] theorem State.setMover_mover (i : Nat) (x : Mover) : (s.setMover i x).mover i = x := Tbl.get_set_same _ _ _ _
@[simp] theorem State.setMover_mover_other (i j : Nat) (x : Mover) (h : j ≠ i) : (s.setMover i x).mover j = s.mover j := Tbl.get_set_other _ h _ _
@[simp] theorem State.setMover_ctx (i j : Nat) (x : Mover) : (s.setMover i x).ctx j = s.ctx j := rfl
@[simp] theorem State.setMover_frond (i j : Nat) (x : Mover) : (s.setMover i x).frond j = s.frond j := rfl
@[simp] theorem State.setMover_sq (i j : Nat) (x : Mover) : (s.setMover i x).sq j = s.sq j := rfl
@[simp] theorem State.setMover_cq (i j : Nat) (x : Mover) : (s.setMover i x).cq j = s.cq j := rfl
@[simp] theorem State.setMover_comp (i j : Nat) (x : Mover) : (s.setMover i x).comp j = s.comp j := rfl
@[simp] theorem State.setMover_tg (i j : Nat) (x : Mover) : (s.setMover i x).tg j = s.tg j := rfl
@[simp] theorem State.setMover_port (i j : Nat) (x : Mover) : (s.setMover i x).port j = s.port j := rfl
@[simp] theorem State.setMover_rx (i j : Nat) (x : Mover) : (s.setMover i x).rx j = s.rx j := rfl
@[simp] theorem State.setMover_panel (i j : Nat) (x : Mover) : (s.setMover i x).panel j = s.panel j := rfl
@[simp] theorem State.setMover_wear (i j : Nat) (x : Mover) : (s.setMover i x).wear j = s.wear j := rfl
@[simp] theorem State.setMover_out (i j : Nat) (x : Mover) : (s.setMover i x).out j = s.out j := rfl
@[simp] theorem State.setMover_stream (i j : Nat) (x : Mover) : (s.setMover i x).stream j = s.stream j := rfl
@[simp] theorem State.setMover_group (i j : Nat) (x : Mover) : (s.setMover i x).group j = s.group j := rfl
@[simp] theorem State.setMover_link (i j : Nat) (x : Mover) : (s.setMover i x).link j = s.link j := rfl
@[simp] theorem State.setMover_halo (i j : Nat) (x : Mover) : (s.setMover i x).halo j = s.halo j := rfl
@[simp] theorem State.setMover_tick (i j : Nat) (x : Mover) : (s.setMover i x).tick j = s.tick j := rfl
@[simp] theorem State.setMover_unit (i j : Nat) (x : Mover) : (s.setMover i x).unit j = s.unit j := rfl
@[simp] theorem State.setMover_domain (i j : Nat) (x : Mover) : (s.setMover i x).domain j = s.domain j := rfl
@[simp] theorem State.setMover_row (i j : Nat) (x : Mover) : (s.setMover i x).row j = s.row j := rfl
@[simp] theorem State.setMover_hbmc (i j : Nat) (x : Mover) : (s.setMover i x).hbmc j = s.hbmc j := rfl
@[simp] theorem State.setMover_strap (i : Nat) (x : Mover) : (s.setMover i x).strap = s.strap := rfl
@[simp] theorem State.setMover_ready (i : Nat) (x : Mover) : (s.setMover i x).ready = s.ready := rfl
@[simp] theorem State.setMover_configDefaulted (i : Nat) (x : Mover) : (s.setMover i x).configDefaulted = s.configDefaulted := rfl
@[simp] theorem State.setMover_boostSpent (i : Nat) (x : Mover) : (s.setMover i x).boostSpent = s.boostSpent := rfl
@[simp] theorem State.setMover_passThrough (i : Nat) (x : Mover) : (s.setMover i x).passThrough = s.passThrough := rfl
@[simp] theorem State.setMover_debugUnlocked (i : Nat) (x : Mover) : (s.setMover i x).debugUnlocked = s.debugUnlocked := rfl
@[simp] theorem State.setMover_image (i : Nat) (x : Mover) : (s.setMover i x).image = s.image := rfl
@[simp] theorem State.setMover_lockedWr (i : Nat) (x : Mover) : (s.setMover i x).lockedWr = s.lockedWr := rfl
@[simp] theorem State.setMover_mapRefused (i : Nat) (x : Mover) : (s.setMover i x).mapRefused = s.mapRefused := rfl
@[simp] theorem State.setMover_byteWr (i : Nat) (x : Mover) : (s.setMover i x).byteWr = s.byteWr := rfl
@[simp] theorem State.setMover_locks (i : Nat) (x : Mover) : (s.setMover i x).locks = s.locks := rfl
@[simp] theorem State.setMover_frondEn (i : Nat) (x : Mover) : (s.setMover i x).frondEn = s.frondEn := rfl
@[simp] theorem State.setMover_frondPwr (i : Nat) (x : Mover) : (s.setMover i x).frondPwr = s.frondPwr := rfl
@[simp] theorem State.setMover_dtb (i : Nat) (x : Mover) : (s.setMover i x).dtb = s.dtb := rfl
@[simp] theorem State.setMover_dtbSlew (i : Nat) (x : Mover) : (s.setMover i x).dtbSlew = s.dtbSlew := rfl
@[simp] theorem State.setMover_dtbFrac (i : Nat) (x : Mover) : (s.setMover i x).dtbFrac = s.dtbFrac := rfl
@[simp] theorem State.setMover_fresh (i : Nat) (x : Mover) : (s.setMover i x).fresh = s.fresh := rfl
@[simp] theorem State.setMover_readData (i : Nat) (x : Mover) : (s.setMover i x).readData = s.readData := rfl
@[simp] theorem State.setMover_hostShadow (i : Nat) (x : Mover) : (s.setMover i x).hostShadow = s.hostShadow := rfl
@[simp] theorem State.setMover_svcShadow (i : Nat) (x : Mover) : (s.setMover i x).svcShadow = s.svcShadow := rfl
@[simp] theorem State.setMover_writeShadow (i : Nat) (x : Mover) : (s.setMover i x).writeShadow = s.writeShadow := rfl
@[simp] theorem State.setMover_rows (i : Nat) (x : Mover) : (s.setMover i x).rows = s.rows := rfl
@[simp] theorem State.setMover_inert (i : Nat) (x : Mover) : (s.setMover i x).inert = s.inert := rfl
@[simp] theorem State.setMover_memEpoch (i : Nat) (x : Mover) : (s.setMover i x).memEpoch = s.memEpoch := rfl
@[simp] theorem State.setMover_hbm (i : Nat) (x : Mover) : (s.setMover i x).hbm = s.hbm := rfl
@[simp] theorem State.setMover_hbmPoison (i : Nat) (x : Mover) : (s.setMover i x).hbmPoison = s.hbmPoison := rfl
@[simp] theorem State.setMover_host (i : Nat) (x : Mover) : (s.setMover i x).host = s.host := rfl
@[simp] theorem State.setMover_absent (i : Nat) (x : Mover) : (s.setMover i x).absent = s.absent := rfl
@[simp] theorem State.setMover_readOnly (i : Nat) (x : Mover) : (s.setMover i x).readOnly = s.readOnly := rfl
@[simp] theorem State.setMover_pageReqs (i : Nat) (x : Mover) : (s.setMover i x).pageReqs = s.pageReqs := rfl
@[simp] theorem State.setMover_invalDone (i : Nat) (x : Mover) : (s.setMover i x).invalDone = s.invalDone := rfl
@[simp] theorem State.setMover_nextXfer (i : Nat) (x : Mover) : (s.setMover i x).nextXfer = s.nextXfer := rfl
@[simp] theorem State.setMover_commitCount (i : Nat) (x : Mover) : (s.setMover i x).commitCount = s.commitCount := rfl
@[simp] theorem State.setMover_commits (i : Nat) (x : Mover) : (s.setMover i x).commits = s.commits := rfl
@[simp] theorem State.setMover_hif (i : Nat) (x : Mover) : (s.setMover i x).hif = s.hif := rfl
@[simp] theorem State.setMover_ctxs (i : Nat) (x : Mover) : (s.setMover i x).ctxs = s.ctxs := rfl
@[simp] theorem State.setMover_lsch (i : Nat) (x : Mover) : (s.setMover i x).lsch = s.lsch := rfl
@[simp] theorem State.setMover_ls (i : Nat) (x : Mover) : (s.setMover i x).ls = s.ls := rfl
@[simp] theorem State.setMover_fronds (i : Nat) (x : Mover) : (s.setMover i x).fronds = s.fronds := rfl
@[simp] theorem State.setMover_comps (i : Nat) (x : Mover) : (s.setMover i x).comps = s.comps := rfl
@[simp] theorem State.setMover_tgs (i : Nat) (x : Mover) : (s.setMover i x).tgs = s.tgs := rfl
@[simp] theorem State.setMover_raster (i : Nat) (x : Mover) : (s.setMover i x).raster = s.raster := rfl
@[simp] theorem State.setMover_dptx (i : Nat) (x : Mover) : (s.setMover i x).dptx = s.dptx := rfl
@[simp] theorem State.setMover_dprx (i : Nat) (x : Mover) : (s.setMover i x).dprx = s.dprx := rfl
@[simp] theorem State.setMover_panels (i : Nat) (x : Mover) : (s.setMover i x).panels = s.panels := rfl
@[simp] theorem State.setMover_pwu (i : Nat) (x : Mover) : (s.setMover i x).pwu = s.pwu := rfl
@[simp] theorem State.setMover_eeprom (i : Nat) (x : Mover) : (s.setMover i x).eeprom = s.eeprom := rfl
@[simp] theorem State.setMover_pmon (i : Nat) (x : Mover) : (s.setMover i x).pmon = s.pmon := rfl
@[simp] theorem State.setMover_ldl (i : Nat) (x : Mover) : (s.setMover i x).ldl = s.ldl := rfl
@[simp] theorem State.setMover_svc (i : Nat) (x : Mover) : (s.setMover i x).svc = s.svc := rfl
@[simp] theorem State.setMover_xspi (i : Nat) (x : Mover) : (s.setMover i x).xspi = s.xspi := rfl
@[simp] theorem State.setMover_pcie (i : Nat) (x : Mover) : (s.setMover i x).pcie = s.pcie := rfl
@[simp] theorem State.setMover_lwl (i : Nat) (x : Mover) : (s.setMover i x).lwl = s.lwl := rfl
@[simp] theorem State.setMover_power (i : Nat) (x : Mover) : (s.setMover i x).power = s.power := rfl
@[simp] theorem State.setMover_hbmCtl (i : Nat) (x : Mover) : (s.setMover i x).hbmCtl = s.hbmCtl := rfl
@[simp] theorem State.setMover_pins (i : Nat) (x : Mover) : (s.setMover i x).pins = s.pins := rfl
@[simp] theorem State.setMover_pending (i : Nat) (x : Mover) : (s.setMover i x).pending = s.pending := rfl

/-! ### setComp -/

@[simp] theorem State.setComp_comp (i : Nat) (x : Comp) : (s.setComp i x).comp i = x := Tbl.get_set_same _ _ _ _
@[simp] theorem State.setComp_comp_other (i j : Nat) (x : Comp) (h : j ≠ i) : (s.setComp i x).comp j = s.comp j := Tbl.get_set_other _ h _ _
@[simp] theorem State.setComp_ctx (i j : Nat) (x : Comp) : (s.setComp i x).ctx j = s.ctx j := rfl
@[simp] theorem State.setComp_frond (i j : Nat) (x : Comp) : (s.setComp i x).frond j = s.frond j := rfl
@[simp] theorem State.setComp_sq (i j : Nat) (x : Comp) : (s.setComp i x).sq j = s.sq j := rfl
@[simp] theorem State.setComp_cq (i j : Nat) (x : Comp) : (s.setComp i x).cq j = s.cq j := rfl
@[simp] theorem State.setComp_mover (i j : Nat) (x : Comp) : (s.setComp i x).mover j = s.mover j := rfl
@[simp] theorem State.setComp_tg (i j : Nat) (x : Comp) : (s.setComp i x).tg j = s.tg j := rfl
@[simp] theorem State.setComp_port (i j : Nat) (x : Comp) : (s.setComp i x).port j = s.port j := rfl
@[simp] theorem State.setComp_rx (i j : Nat) (x : Comp) : (s.setComp i x).rx j = s.rx j := rfl
@[simp] theorem State.setComp_panel (i j : Nat) (x : Comp) : (s.setComp i x).panel j = s.panel j := rfl
@[simp] theorem State.setComp_wear (i j : Nat) (x : Comp) : (s.setComp i x).wear j = s.wear j := rfl
@[simp] theorem State.setComp_out (i j : Nat) (x : Comp) : (s.setComp i x).out j = s.out j := rfl
@[simp] theorem State.setComp_stream (i j : Nat) (x : Comp) : (s.setComp i x).stream j = s.stream j := rfl
@[simp] theorem State.setComp_group (i j : Nat) (x : Comp) : (s.setComp i x).group j = s.group j := rfl
@[simp] theorem State.setComp_link (i j : Nat) (x : Comp) : (s.setComp i x).link j = s.link j := rfl
@[simp] theorem State.setComp_halo (i j : Nat) (x : Comp) : (s.setComp i x).halo j = s.halo j := rfl
@[simp] theorem State.setComp_tick (i j : Nat) (x : Comp) : (s.setComp i x).tick j = s.tick j := rfl
@[simp] theorem State.setComp_unit (i j : Nat) (x : Comp) : (s.setComp i x).unit j = s.unit j := rfl
@[simp] theorem State.setComp_domain (i j : Nat) (x : Comp) : (s.setComp i x).domain j = s.domain j := rfl
@[simp] theorem State.setComp_row (i j : Nat) (x : Comp) : (s.setComp i x).row j = s.row j := rfl
@[simp] theorem State.setComp_hbmc (i j : Nat) (x : Comp) : (s.setComp i x).hbmc j = s.hbmc j := rfl
@[simp] theorem State.setComp_strap (i : Nat) (x : Comp) : (s.setComp i x).strap = s.strap := rfl
@[simp] theorem State.setComp_ready (i : Nat) (x : Comp) : (s.setComp i x).ready = s.ready := rfl
@[simp] theorem State.setComp_configDefaulted (i : Nat) (x : Comp) : (s.setComp i x).configDefaulted = s.configDefaulted := rfl
@[simp] theorem State.setComp_boostSpent (i : Nat) (x : Comp) : (s.setComp i x).boostSpent = s.boostSpent := rfl
@[simp] theorem State.setComp_passThrough (i : Nat) (x : Comp) : (s.setComp i x).passThrough = s.passThrough := rfl
@[simp] theorem State.setComp_debugUnlocked (i : Nat) (x : Comp) : (s.setComp i x).debugUnlocked = s.debugUnlocked := rfl
@[simp] theorem State.setComp_image (i : Nat) (x : Comp) : (s.setComp i x).image = s.image := rfl
@[simp] theorem State.setComp_lockedWr (i : Nat) (x : Comp) : (s.setComp i x).lockedWr = s.lockedWr := rfl
@[simp] theorem State.setComp_mapRefused (i : Nat) (x : Comp) : (s.setComp i x).mapRefused = s.mapRefused := rfl
@[simp] theorem State.setComp_byteWr (i : Nat) (x : Comp) : (s.setComp i x).byteWr = s.byteWr := rfl
@[simp] theorem State.setComp_locks (i : Nat) (x : Comp) : (s.setComp i x).locks = s.locks := rfl
@[simp] theorem State.setComp_frondEn (i : Nat) (x : Comp) : (s.setComp i x).frondEn = s.frondEn := rfl
@[simp] theorem State.setComp_frondPwr (i : Nat) (x : Comp) : (s.setComp i x).frondPwr = s.frondPwr := rfl
@[simp] theorem State.setComp_dtb (i : Nat) (x : Comp) : (s.setComp i x).dtb = s.dtb := rfl
@[simp] theorem State.setComp_dtbSlew (i : Nat) (x : Comp) : (s.setComp i x).dtbSlew = s.dtbSlew := rfl
@[simp] theorem State.setComp_dtbFrac (i : Nat) (x : Comp) : (s.setComp i x).dtbFrac = s.dtbFrac := rfl
@[simp] theorem State.setComp_fresh (i : Nat) (x : Comp) : (s.setComp i x).fresh = s.fresh := rfl
@[simp] theorem State.setComp_readData (i : Nat) (x : Comp) : (s.setComp i x).readData = s.readData := rfl
@[simp] theorem State.setComp_hostShadow (i : Nat) (x : Comp) : (s.setComp i x).hostShadow = s.hostShadow := rfl
@[simp] theorem State.setComp_svcShadow (i : Nat) (x : Comp) : (s.setComp i x).svcShadow = s.svcShadow := rfl
@[simp] theorem State.setComp_writeShadow (i : Nat) (x : Comp) : (s.setComp i x).writeShadow = s.writeShadow := rfl
@[simp] theorem State.setComp_rows (i : Nat) (x : Comp) : (s.setComp i x).rows = s.rows := rfl
@[simp] theorem State.setComp_inert (i : Nat) (x : Comp) : (s.setComp i x).inert = s.inert := rfl
@[simp] theorem State.setComp_memEpoch (i : Nat) (x : Comp) : (s.setComp i x).memEpoch = s.memEpoch := rfl
@[simp] theorem State.setComp_hbm (i : Nat) (x : Comp) : (s.setComp i x).hbm = s.hbm := rfl
@[simp] theorem State.setComp_hbmPoison (i : Nat) (x : Comp) : (s.setComp i x).hbmPoison = s.hbmPoison := rfl
@[simp] theorem State.setComp_host (i : Nat) (x : Comp) : (s.setComp i x).host = s.host := rfl
@[simp] theorem State.setComp_absent (i : Nat) (x : Comp) : (s.setComp i x).absent = s.absent := rfl
@[simp] theorem State.setComp_readOnly (i : Nat) (x : Comp) : (s.setComp i x).readOnly = s.readOnly := rfl
@[simp] theorem State.setComp_pageReqs (i : Nat) (x : Comp) : (s.setComp i x).pageReqs = s.pageReqs := rfl
@[simp] theorem State.setComp_invalDone (i : Nat) (x : Comp) : (s.setComp i x).invalDone = s.invalDone := rfl
@[simp] theorem State.setComp_nextXfer (i : Nat) (x : Comp) : (s.setComp i x).nextXfer = s.nextXfer := rfl
@[simp] theorem State.setComp_commitCount (i : Nat) (x : Comp) : (s.setComp i x).commitCount = s.commitCount := rfl
@[simp] theorem State.setComp_commits (i : Nat) (x : Comp) : (s.setComp i x).commits = s.commits := rfl
@[simp] theorem State.setComp_hif (i : Nat) (x : Comp) : (s.setComp i x).hif = s.hif := rfl
@[simp] theorem State.setComp_ctxs (i : Nat) (x : Comp) : (s.setComp i x).ctxs = s.ctxs := rfl
@[simp] theorem State.setComp_lsch (i : Nat) (x : Comp) : (s.setComp i x).lsch = s.lsch := rfl
@[simp] theorem State.setComp_ls (i : Nat) (x : Comp) : (s.setComp i x).ls = s.ls := rfl
@[simp] theorem State.setComp_fronds (i : Nat) (x : Comp) : (s.setComp i x).fronds = s.fronds := rfl
@[simp] theorem State.setComp_movers (i : Nat) (x : Comp) : (s.setComp i x).movers = s.movers := rfl
@[simp] theorem State.setComp_tgs (i : Nat) (x : Comp) : (s.setComp i x).tgs = s.tgs := rfl
@[simp] theorem State.setComp_raster (i : Nat) (x : Comp) : (s.setComp i x).raster = s.raster := rfl
@[simp] theorem State.setComp_dptx (i : Nat) (x : Comp) : (s.setComp i x).dptx = s.dptx := rfl
@[simp] theorem State.setComp_dprx (i : Nat) (x : Comp) : (s.setComp i x).dprx = s.dprx := rfl
@[simp] theorem State.setComp_panels (i : Nat) (x : Comp) : (s.setComp i x).panels = s.panels := rfl
@[simp] theorem State.setComp_pwu (i : Nat) (x : Comp) : (s.setComp i x).pwu = s.pwu := rfl
@[simp] theorem State.setComp_eeprom (i : Nat) (x : Comp) : (s.setComp i x).eeprom = s.eeprom := rfl
@[simp] theorem State.setComp_pmon (i : Nat) (x : Comp) : (s.setComp i x).pmon = s.pmon := rfl
@[simp] theorem State.setComp_ldl (i : Nat) (x : Comp) : (s.setComp i x).ldl = s.ldl := rfl
@[simp] theorem State.setComp_svc (i : Nat) (x : Comp) : (s.setComp i x).svc = s.svc := rfl
@[simp] theorem State.setComp_xspi (i : Nat) (x : Comp) : (s.setComp i x).xspi = s.xspi := rfl
@[simp] theorem State.setComp_pcie (i : Nat) (x : Comp) : (s.setComp i x).pcie = s.pcie := rfl
@[simp] theorem State.setComp_lwl (i : Nat) (x : Comp) : (s.setComp i x).lwl = s.lwl := rfl
@[simp] theorem State.setComp_power (i : Nat) (x : Comp) : (s.setComp i x).power = s.power := rfl
@[simp] theorem State.setComp_hbmCtl (i : Nat) (x : Comp) : (s.setComp i x).hbmCtl = s.hbmCtl := rfl
@[simp] theorem State.setComp_pins (i : Nat) (x : Comp) : (s.setComp i x).pins = s.pins := rfl
@[simp] theorem State.setComp_pending (i : Nat) (x : Comp) : (s.setComp i x).pending = s.pending := rfl

/-! ### setTg -/

@[simp] theorem State.setTg_tg (i : Nat) (x : Tg) : (s.setTg i x).tg i = x := Tbl.get_set_same _ _ _ _
@[simp] theorem State.setTg_tg_other (i j : Nat) (x : Tg) (h : j ≠ i) : (s.setTg i x).tg j = s.tg j := Tbl.get_set_other _ h _ _
@[simp] theorem State.setTg_ctx (i j : Nat) (x : Tg) : (s.setTg i x).ctx j = s.ctx j := rfl
@[simp] theorem State.setTg_frond (i j : Nat) (x : Tg) : (s.setTg i x).frond j = s.frond j := rfl
@[simp] theorem State.setTg_sq (i j : Nat) (x : Tg) : (s.setTg i x).sq j = s.sq j := rfl
@[simp] theorem State.setTg_cq (i j : Nat) (x : Tg) : (s.setTg i x).cq j = s.cq j := rfl
@[simp] theorem State.setTg_mover (i j : Nat) (x : Tg) : (s.setTg i x).mover j = s.mover j := rfl
@[simp] theorem State.setTg_comp (i j : Nat) (x : Tg) : (s.setTg i x).comp j = s.comp j := rfl
@[simp] theorem State.setTg_port (i j : Nat) (x : Tg) : (s.setTg i x).port j = s.port j := rfl
@[simp] theorem State.setTg_rx (i j : Nat) (x : Tg) : (s.setTg i x).rx j = s.rx j := rfl
@[simp] theorem State.setTg_panel (i j : Nat) (x : Tg) : (s.setTg i x).panel j = s.panel j := rfl
@[simp] theorem State.setTg_wear (i j : Nat) (x : Tg) : (s.setTg i x).wear j = s.wear j := rfl
@[simp] theorem State.setTg_out (i j : Nat) (x : Tg) : (s.setTg i x).out j = s.out j := rfl
@[simp] theorem State.setTg_stream (i j : Nat) (x : Tg) : (s.setTg i x).stream j = s.stream j := rfl
@[simp] theorem State.setTg_group (i j : Nat) (x : Tg) : (s.setTg i x).group j = s.group j := rfl
@[simp] theorem State.setTg_link (i j : Nat) (x : Tg) : (s.setTg i x).link j = s.link j := rfl
@[simp] theorem State.setTg_halo (i j : Nat) (x : Tg) : (s.setTg i x).halo j = s.halo j := rfl
@[simp] theorem State.setTg_tick (i j : Nat) (x : Tg) : (s.setTg i x).tick j = s.tick j := rfl
@[simp] theorem State.setTg_unit (i j : Nat) (x : Tg) : (s.setTg i x).unit j = s.unit j := rfl
@[simp] theorem State.setTg_domain (i j : Nat) (x : Tg) : (s.setTg i x).domain j = s.domain j := rfl
@[simp] theorem State.setTg_row (i j : Nat) (x : Tg) : (s.setTg i x).row j = s.row j := rfl
@[simp] theorem State.setTg_hbmc (i j : Nat) (x : Tg) : (s.setTg i x).hbmc j = s.hbmc j := rfl
@[simp] theorem State.setTg_strap (i : Nat) (x : Tg) : (s.setTg i x).strap = s.strap := rfl
@[simp] theorem State.setTg_ready (i : Nat) (x : Tg) : (s.setTg i x).ready = s.ready := rfl
@[simp] theorem State.setTg_configDefaulted (i : Nat) (x : Tg) : (s.setTg i x).configDefaulted = s.configDefaulted := rfl
@[simp] theorem State.setTg_boostSpent (i : Nat) (x : Tg) : (s.setTg i x).boostSpent = s.boostSpent := rfl
@[simp] theorem State.setTg_passThrough (i : Nat) (x : Tg) : (s.setTg i x).passThrough = s.passThrough := rfl
@[simp] theorem State.setTg_debugUnlocked (i : Nat) (x : Tg) : (s.setTg i x).debugUnlocked = s.debugUnlocked := rfl
@[simp] theorem State.setTg_image (i : Nat) (x : Tg) : (s.setTg i x).image = s.image := rfl
@[simp] theorem State.setTg_lockedWr (i : Nat) (x : Tg) : (s.setTg i x).lockedWr = s.lockedWr := rfl
@[simp] theorem State.setTg_mapRefused (i : Nat) (x : Tg) : (s.setTg i x).mapRefused = s.mapRefused := rfl
@[simp] theorem State.setTg_byteWr (i : Nat) (x : Tg) : (s.setTg i x).byteWr = s.byteWr := rfl
@[simp] theorem State.setTg_locks (i : Nat) (x : Tg) : (s.setTg i x).locks = s.locks := rfl
@[simp] theorem State.setTg_frondEn (i : Nat) (x : Tg) : (s.setTg i x).frondEn = s.frondEn := rfl
@[simp] theorem State.setTg_frondPwr (i : Nat) (x : Tg) : (s.setTg i x).frondPwr = s.frondPwr := rfl
@[simp] theorem State.setTg_dtb (i : Nat) (x : Tg) : (s.setTg i x).dtb = s.dtb := rfl
@[simp] theorem State.setTg_dtbSlew (i : Nat) (x : Tg) : (s.setTg i x).dtbSlew = s.dtbSlew := rfl
@[simp] theorem State.setTg_dtbFrac (i : Nat) (x : Tg) : (s.setTg i x).dtbFrac = s.dtbFrac := rfl
@[simp] theorem State.setTg_fresh (i : Nat) (x : Tg) : (s.setTg i x).fresh = s.fresh := rfl
@[simp] theorem State.setTg_readData (i : Nat) (x : Tg) : (s.setTg i x).readData = s.readData := rfl
@[simp] theorem State.setTg_hostShadow (i : Nat) (x : Tg) : (s.setTg i x).hostShadow = s.hostShadow := rfl
@[simp] theorem State.setTg_svcShadow (i : Nat) (x : Tg) : (s.setTg i x).svcShadow = s.svcShadow := rfl
@[simp] theorem State.setTg_writeShadow (i : Nat) (x : Tg) : (s.setTg i x).writeShadow = s.writeShadow := rfl
@[simp] theorem State.setTg_rows (i : Nat) (x : Tg) : (s.setTg i x).rows = s.rows := rfl
@[simp] theorem State.setTg_inert (i : Nat) (x : Tg) : (s.setTg i x).inert = s.inert := rfl
@[simp] theorem State.setTg_memEpoch (i : Nat) (x : Tg) : (s.setTg i x).memEpoch = s.memEpoch := rfl
@[simp] theorem State.setTg_hbm (i : Nat) (x : Tg) : (s.setTg i x).hbm = s.hbm := rfl
@[simp] theorem State.setTg_hbmPoison (i : Nat) (x : Tg) : (s.setTg i x).hbmPoison = s.hbmPoison := rfl
@[simp] theorem State.setTg_host (i : Nat) (x : Tg) : (s.setTg i x).host = s.host := rfl
@[simp] theorem State.setTg_absent (i : Nat) (x : Tg) : (s.setTg i x).absent = s.absent := rfl
@[simp] theorem State.setTg_readOnly (i : Nat) (x : Tg) : (s.setTg i x).readOnly = s.readOnly := rfl
@[simp] theorem State.setTg_pageReqs (i : Nat) (x : Tg) : (s.setTg i x).pageReqs = s.pageReqs := rfl
@[simp] theorem State.setTg_invalDone (i : Nat) (x : Tg) : (s.setTg i x).invalDone = s.invalDone := rfl
@[simp] theorem State.setTg_nextXfer (i : Nat) (x : Tg) : (s.setTg i x).nextXfer = s.nextXfer := rfl
@[simp] theorem State.setTg_commitCount (i : Nat) (x : Tg) : (s.setTg i x).commitCount = s.commitCount := rfl
@[simp] theorem State.setTg_commits (i : Nat) (x : Tg) : (s.setTg i x).commits = s.commits := rfl
@[simp] theorem State.setTg_hif (i : Nat) (x : Tg) : (s.setTg i x).hif = s.hif := rfl
@[simp] theorem State.setTg_ctxs (i : Nat) (x : Tg) : (s.setTg i x).ctxs = s.ctxs := rfl
@[simp] theorem State.setTg_lsch (i : Nat) (x : Tg) : (s.setTg i x).lsch = s.lsch := rfl
@[simp] theorem State.setTg_ls (i : Nat) (x : Tg) : (s.setTg i x).ls = s.ls := rfl
@[simp] theorem State.setTg_fronds (i : Nat) (x : Tg) : (s.setTg i x).fronds = s.fronds := rfl
@[simp] theorem State.setTg_movers (i : Nat) (x : Tg) : (s.setTg i x).movers = s.movers := rfl
@[simp] theorem State.setTg_comps (i : Nat) (x : Tg) : (s.setTg i x).comps = s.comps := rfl
@[simp] theorem State.setTg_raster (i : Nat) (x : Tg) : (s.setTg i x).raster = s.raster := rfl
@[simp] theorem State.setTg_dptx (i : Nat) (x : Tg) : (s.setTg i x).dptx = s.dptx := rfl
@[simp] theorem State.setTg_dprx (i : Nat) (x : Tg) : (s.setTg i x).dprx = s.dprx := rfl
@[simp] theorem State.setTg_panels (i : Nat) (x : Tg) : (s.setTg i x).panels = s.panels := rfl
@[simp] theorem State.setTg_pwu (i : Nat) (x : Tg) : (s.setTg i x).pwu = s.pwu := rfl
@[simp] theorem State.setTg_eeprom (i : Nat) (x : Tg) : (s.setTg i x).eeprom = s.eeprom := rfl
@[simp] theorem State.setTg_pmon (i : Nat) (x : Tg) : (s.setTg i x).pmon = s.pmon := rfl
@[simp] theorem State.setTg_ldl (i : Nat) (x : Tg) : (s.setTg i x).ldl = s.ldl := rfl
@[simp] theorem State.setTg_svc (i : Nat) (x : Tg) : (s.setTg i x).svc = s.svc := rfl
@[simp] theorem State.setTg_xspi (i : Nat) (x : Tg) : (s.setTg i x).xspi = s.xspi := rfl
@[simp] theorem State.setTg_pcie (i : Nat) (x : Tg) : (s.setTg i x).pcie = s.pcie := rfl
@[simp] theorem State.setTg_lwl (i : Nat) (x : Tg) : (s.setTg i x).lwl = s.lwl := rfl
@[simp] theorem State.setTg_power (i : Nat) (x : Tg) : (s.setTg i x).power = s.power := rfl
@[simp] theorem State.setTg_hbmCtl (i : Nat) (x : Tg) : (s.setTg i x).hbmCtl = s.hbmCtl := rfl
@[simp] theorem State.setTg_pins (i : Nat) (x : Tg) : (s.setTg i x).pins = s.pins := rfl
@[simp] theorem State.setTg_pending (i : Nat) (x : Tg) : (s.setTg i x).pending = s.pending := rfl

/-! ### setPort -/

@[simp] theorem State.setPort_port (i : Nat) (x : Dptx) : (s.setPort i x).port i = x := Tbl.get_set_same _ _ _ _
@[simp] theorem State.setPort_port_other (i j : Nat) (x : Dptx) (h : j ≠ i) : (s.setPort i x).port j = s.port j := Tbl.get_set_other _ h _ _
@[simp] theorem State.setPort_ctx (i j : Nat) (x : Dptx) : (s.setPort i x).ctx j = s.ctx j := rfl
@[simp] theorem State.setPort_frond (i j : Nat) (x : Dptx) : (s.setPort i x).frond j = s.frond j := rfl
@[simp] theorem State.setPort_sq (i j : Nat) (x : Dptx) : (s.setPort i x).sq j = s.sq j := rfl
@[simp] theorem State.setPort_cq (i j : Nat) (x : Dptx) : (s.setPort i x).cq j = s.cq j := rfl
@[simp] theorem State.setPort_mover (i j : Nat) (x : Dptx) : (s.setPort i x).mover j = s.mover j := rfl
@[simp] theorem State.setPort_comp (i j : Nat) (x : Dptx) : (s.setPort i x).comp j = s.comp j := rfl
@[simp] theorem State.setPort_tg (i j : Nat) (x : Dptx) : (s.setPort i x).tg j = s.tg j := rfl
@[simp] theorem State.setPort_rx (i j : Nat) (x : Dptx) : (s.setPort i x).rx j = s.rx j := rfl
@[simp] theorem State.setPort_panel (i j : Nat) (x : Dptx) : (s.setPort i x).panel j = s.panel j := rfl
@[simp] theorem State.setPort_wear (i j : Nat) (x : Dptx) : (s.setPort i x).wear j = s.wear j := rfl
@[simp] theorem State.setPort_out (i j : Nat) (x : Dptx) : (s.setPort i x).out j = s.out j := rfl
@[simp] theorem State.setPort_stream (i j : Nat) (x : Dptx) : (s.setPort i x).stream j = s.stream j := rfl
@[simp] theorem State.setPort_group (i j : Nat) (x : Dptx) : (s.setPort i x).group j = s.group j := rfl
@[simp] theorem State.setPort_link (i j : Nat) (x : Dptx) : (s.setPort i x).link j = s.link j := rfl
@[simp] theorem State.setPort_halo (i j : Nat) (x : Dptx) : (s.setPort i x).halo j = s.halo j := rfl
@[simp] theorem State.setPort_tick (i j : Nat) (x : Dptx) : (s.setPort i x).tick j = s.tick j := rfl
@[simp] theorem State.setPort_unit (i j : Nat) (x : Dptx) : (s.setPort i x).unit j = s.unit j := rfl
@[simp] theorem State.setPort_domain (i j : Nat) (x : Dptx) : (s.setPort i x).domain j = s.domain j := rfl
@[simp] theorem State.setPort_row (i j : Nat) (x : Dptx) : (s.setPort i x).row j = s.row j := rfl
@[simp] theorem State.setPort_hbmc (i j : Nat) (x : Dptx) : (s.setPort i x).hbmc j = s.hbmc j := rfl
@[simp] theorem State.setPort_strap (i : Nat) (x : Dptx) : (s.setPort i x).strap = s.strap := rfl
@[simp] theorem State.setPort_ready (i : Nat) (x : Dptx) : (s.setPort i x).ready = s.ready := rfl
@[simp] theorem State.setPort_configDefaulted (i : Nat) (x : Dptx) : (s.setPort i x).configDefaulted = s.configDefaulted := rfl
@[simp] theorem State.setPort_boostSpent (i : Nat) (x : Dptx) : (s.setPort i x).boostSpent = s.boostSpent := rfl
@[simp] theorem State.setPort_passThrough (i : Nat) (x : Dptx) : (s.setPort i x).passThrough = s.passThrough := rfl
@[simp] theorem State.setPort_debugUnlocked (i : Nat) (x : Dptx) : (s.setPort i x).debugUnlocked = s.debugUnlocked := rfl
@[simp] theorem State.setPort_image (i : Nat) (x : Dptx) : (s.setPort i x).image = s.image := rfl
@[simp] theorem State.setPort_lockedWr (i : Nat) (x : Dptx) : (s.setPort i x).lockedWr = s.lockedWr := rfl
@[simp] theorem State.setPort_mapRefused (i : Nat) (x : Dptx) : (s.setPort i x).mapRefused = s.mapRefused := rfl
@[simp] theorem State.setPort_byteWr (i : Nat) (x : Dptx) : (s.setPort i x).byteWr = s.byteWr := rfl
@[simp] theorem State.setPort_locks (i : Nat) (x : Dptx) : (s.setPort i x).locks = s.locks := rfl
@[simp] theorem State.setPort_frondEn (i : Nat) (x : Dptx) : (s.setPort i x).frondEn = s.frondEn := rfl
@[simp] theorem State.setPort_frondPwr (i : Nat) (x : Dptx) : (s.setPort i x).frondPwr = s.frondPwr := rfl
@[simp] theorem State.setPort_dtb (i : Nat) (x : Dptx) : (s.setPort i x).dtb = s.dtb := rfl
@[simp] theorem State.setPort_dtbSlew (i : Nat) (x : Dptx) : (s.setPort i x).dtbSlew = s.dtbSlew := rfl
@[simp] theorem State.setPort_dtbFrac (i : Nat) (x : Dptx) : (s.setPort i x).dtbFrac = s.dtbFrac := rfl
@[simp] theorem State.setPort_fresh (i : Nat) (x : Dptx) : (s.setPort i x).fresh = s.fresh := rfl
@[simp] theorem State.setPort_readData (i : Nat) (x : Dptx) : (s.setPort i x).readData = s.readData := rfl
@[simp] theorem State.setPort_hostShadow (i : Nat) (x : Dptx) : (s.setPort i x).hostShadow = s.hostShadow := rfl
@[simp] theorem State.setPort_svcShadow (i : Nat) (x : Dptx) : (s.setPort i x).svcShadow = s.svcShadow := rfl
@[simp] theorem State.setPort_writeShadow (i : Nat) (x : Dptx) : (s.setPort i x).writeShadow = s.writeShadow := rfl
@[simp] theorem State.setPort_rows (i : Nat) (x : Dptx) : (s.setPort i x).rows = s.rows := rfl
@[simp] theorem State.setPort_inert (i : Nat) (x : Dptx) : (s.setPort i x).inert = s.inert := rfl
@[simp] theorem State.setPort_memEpoch (i : Nat) (x : Dptx) : (s.setPort i x).memEpoch = s.memEpoch := rfl
@[simp] theorem State.setPort_hbm (i : Nat) (x : Dptx) : (s.setPort i x).hbm = s.hbm := rfl
@[simp] theorem State.setPort_hbmPoison (i : Nat) (x : Dptx) : (s.setPort i x).hbmPoison = s.hbmPoison := rfl
@[simp] theorem State.setPort_host (i : Nat) (x : Dptx) : (s.setPort i x).host = s.host := rfl
@[simp] theorem State.setPort_absent (i : Nat) (x : Dptx) : (s.setPort i x).absent = s.absent := rfl
@[simp] theorem State.setPort_readOnly (i : Nat) (x : Dptx) : (s.setPort i x).readOnly = s.readOnly := rfl
@[simp] theorem State.setPort_pageReqs (i : Nat) (x : Dptx) : (s.setPort i x).pageReqs = s.pageReqs := rfl
@[simp] theorem State.setPort_invalDone (i : Nat) (x : Dptx) : (s.setPort i x).invalDone = s.invalDone := rfl
@[simp] theorem State.setPort_nextXfer (i : Nat) (x : Dptx) : (s.setPort i x).nextXfer = s.nextXfer := rfl
@[simp] theorem State.setPort_commitCount (i : Nat) (x : Dptx) : (s.setPort i x).commitCount = s.commitCount := rfl
@[simp] theorem State.setPort_commits (i : Nat) (x : Dptx) : (s.setPort i x).commits = s.commits := rfl
@[simp] theorem State.setPort_hif (i : Nat) (x : Dptx) : (s.setPort i x).hif = s.hif := rfl
@[simp] theorem State.setPort_ctxs (i : Nat) (x : Dptx) : (s.setPort i x).ctxs = s.ctxs := rfl
@[simp] theorem State.setPort_lsch (i : Nat) (x : Dptx) : (s.setPort i x).lsch = s.lsch := rfl
@[simp] theorem State.setPort_ls (i : Nat) (x : Dptx) : (s.setPort i x).ls = s.ls := rfl
@[simp] theorem State.setPort_fronds (i : Nat) (x : Dptx) : (s.setPort i x).fronds = s.fronds := rfl
@[simp] theorem State.setPort_movers (i : Nat) (x : Dptx) : (s.setPort i x).movers = s.movers := rfl
@[simp] theorem State.setPort_comps (i : Nat) (x : Dptx) : (s.setPort i x).comps = s.comps := rfl
@[simp] theorem State.setPort_tgs (i : Nat) (x : Dptx) : (s.setPort i x).tgs = s.tgs := rfl
@[simp] theorem State.setPort_raster (i : Nat) (x : Dptx) : (s.setPort i x).raster = s.raster := rfl
@[simp] theorem State.setPort_dprx (i : Nat) (x : Dptx) : (s.setPort i x).dprx = s.dprx := rfl
@[simp] theorem State.setPort_panels (i : Nat) (x : Dptx) : (s.setPort i x).panels = s.panels := rfl
@[simp] theorem State.setPort_pwu (i : Nat) (x : Dptx) : (s.setPort i x).pwu = s.pwu := rfl
@[simp] theorem State.setPort_eeprom (i : Nat) (x : Dptx) : (s.setPort i x).eeprom = s.eeprom := rfl
@[simp] theorem State.setPort_pmon (i : Nat) (x : Dptx) : (s.setPort i x).pmon = s.pmon := rfl
@[simp] theorem State.setPort_ldl (i : Nat) (x : Dptx) : (s.setPort i x).ldl = s.ldl := rfl
@[simp] theorem State.setPort_svc (i : Nat) (x : Dptx) : (s.setPort i x).svc = s.svc := rfl
@[simp] theorem State.setPort_xspi (i : Nat) (x : Dptx) : (s.setPort i x).xspi = s.xspi := rfl
@[simp] theorem State.setPort_pcie (i : Nat) (x : Dptx) : (s.setPort i x).pcie = s.pcie := rfl
@[simp] theorem State.setPort_lwl (i : Nat) (x : Dptx) : (s.setPort i x).lwl = s.lwl := rfl
@[simp] theorem State.setPort_power (i : Nat) (x : Dptx) : (s.setPort i x).power = s.power := rfl
@[simp] theorem State.setPort_hbmCtl (i : Nat) (x : Dptx) : (s.setPort i x).hbmCtl = s.hbmCtl := rfl
@[simp] theorem State.setPort_pins (i : Nat) (x : Dptx) : (s.setPort i x).pins = s.pins := rfl
@[simp] theorem State.setPort_pending (i : Nat) (x : Dptx) : (s.setPort i x).pending = s.pending := rfl

/-! ### setRx -/

@[simp] theorem State.setRx_rx (i : Nat) (x : Dprx) : (s.setRx i x).rx i = x := Tbl.get_set_same _ _ _ _
@[simp] theorem State.setRx_rx_other (i j : Nat) (x : Dprx) (h : j ≠ i) : (s.setRx i x).rx j = s.rx j := Tbl.get_set_other _ h _ _
@[simp] theorem State.setRx_ctx (i j : Nat) (x : Dprx) : (s.setRx i x).ctx j = s.ctx j := rfl
@[simp] theorem State.setRx_frond (i j : Nat) (x : Dprx) : (s.setRx i x).frond j = s.frond j := rfl
@[simp] theorem State.setRx_sq (i j : Nat) (x : Dprx) : (s.setRx i x).sq j = s.sq j := rfl
@[simp] theorem State.setRx_cq (i j : Nat) (x : Dprx) : (s.setRx i x).cq j = s.cq j := rfl
@[simp] theorem State.setRx_mover (i j : Nat) (x : Dprx) : (s.setRx i x).mover j = s.mover j := rfl
@[simp] theorem State.setRx_comp (i j : Nat) (x : Dprx) : (s.setRx i x).comp j = s.comp j := rfl
@[simp] theorem State.setRx_tg (i j : Nat) (x : Dprx) : (s.setRx i x).tg j = s.tg j := rfl
@[simp] theorem State.setRx_port (i j : Nat) (x : Dprx) : (s.setRx i x).port j = s.port j := rfl
@[simp] theorem State.setRx_panel (i j : Nat) (x : Dprx) : (s.setRx i x).panel j = s.panel j := rfl
@[simp] theorem State.setRx_wear (i j : Nat) (x : Dprx) : (s.setRx i x).wear j = s.wear j := rfl
@[simp] theorem State.setRx_out (i j : Nat) (x : Dprx) : (s.setRx i x).out j = s.out j := rfl
@[simp] theorem State.setRx_stream (i j : Nat) (x : Dprx) : (s.setRx i x).stream j = s.stream j := rfl
@[simp] theorem State.setRx_group (i j : Nat) (x : Dprx) : (s.setRx i x).group j = s.group j := rfl
@[simp] theorem State.setRx_link (i j : Nat) (x : Dprx) : (s.setRx i x).link j = s.link j := rfl
@[simp] theorem State.setRx_halo (i j : Nat) (x : Dprx) : (s.setRx i x).halo j = s.halo j := rfl
@[simp] theorem State.setRx_tick (i j : Nat) (x : Dprx) : (s.setRx i x).tick j = s.tick j := rfl
@[simp] theorem State.setRx_unit (i j : Nat) (x : Dprx) : (s.setRx i x).unit j = s.unit j := rfl
@[simp] theorem State.setRx_domain (i j : Nat) (x : Dprx) : (s.setRx i x).domain j = s.domain j := rfl
@[simp] theorem State.setRx_row (i j : Nat) (x : Dprx) : (s.setRx i x).row j = s.row j := rfl
@[simp] theorem State.setRx_hbmc (i j : Nat) (x : Dprx) : (s.setRx i x).hbmc j = s.hbmc j := rfl
@[simp] theorem State.setRx_strap (i : Nat) (x : Dprx) : (s.setRx i x).strap = s.strap := rfl
@[simp] theorem State.setRx_ready (i : Nat) (x : Dprx) : (s.setRx i x).ready = s.ready := rfl
@[simp] theorem State.setRx_configDefaulted (i : Nat) (x : Dprx) : (s.setRx i x).configDefaulted = s.configDefaulted := rfl
@[simp] theorem State.setRx_boostSpent (i : Nat) (x : Dprx) : (s.setRx i x).boostSpent = s.boostSpent := rfl
@[simp] theorem State.setRx_passThrough (i : Nat) (x : Dprx) : (s.setRx i x).passThrough = s.passThrough := rfl
@[simp] theorem State.setRx_debugUnlocked (i : Nat) (x : Dprx) : (s.setRx i x).debugUnlocked = s.debugUnlocked := rfl
@[simp] theorem State.setRx_image (i : Nat) (x : Dprx) : (s.setRx i x).image = s.image := rfl
@[simp] theorem State.setRx_lockedWr (i : Nat) (x : Dprx) : (s.setRx i x).lockedWr = s.lockedWr := rfl
@[simp] theorem State.setRx_mapRefused (i : Nat) (x : Dprx) : (s.setRx i x).mapRefused = s.mapRefused := rfl
@[simp] theorem State.setRx_byteWr (i : Nat) (x : Dprx) : (s.setRx i x).byteWr = s.byteWr := rfl
@[simp] theorem State.setRx_locks (i : Nat) (x : Dprx) : (s.setRx i x).locks = s.locks := rfl
@[simp] theorem State.setRx_frondEn (i : Nat) (x : Dprx) : (s.setRx i x).frondEn = s.frondEn := rfl
@[simp] theorem State.setRx_frondPwr (i : Nat) (x : Dprx) : (s.setRx i x).frondPwr = s.frondPwr := rfl
@[simp] theorem State.setRx_dtb (i : Nat) (x : Dprx) : (s.setRx i x).dtb = s.dtb := rfl
@[simp] theorem State.setRx_dtbSlew (i : Nat) (x : Dprx) : (s.setRx i x).dtbSlew = s.dtbSlew := rfl
@[simp] theorem State.setRx_dtbFrac (i : Nat) (x : Dprx) : (s.setRx i x).dtbFrac = s.dtbFrac := rfl
@[simp] theorem State.setRx_fresh (i : Nat) (x : Dprx) : (s.setRx i x).fresh = s.fresh := rfl
@[simp] theorem State.setRx_readData (i : Nat) (x : Dprx) : (s.setRx i x).readData = s.readData := rfl
@[simp] theorem State.setRx_hostShadow (i : Nat) (x : Dprx) : (s.setRx i x).hostShadow = s.hostShadow := rfl
@[simp] theorem State.setRx_svcShadow (i : Nat) (x : Dprx) : (s.setRx i x).svcShadow = s.svcShadow := rfl
@[simp] theorem State.setRx_writeShadow (i : Nat) (x : Dprx) : (s.setRx i x).writeShadow = s.writeShadow := rfl
@[simp] theorem State.setRx_rows (i : Nat) (x : Dprx) : (s.setRx i x).rows = s.rows := rfl
@[simp] theorem State.setRx_inert (i : Nat) (x : Dprx) : (s.setRx i x).inert = s.inert := rfl
@[simp] theorem State.setRx_memEpoch (i : Nat) (x : Dprx) : (s.setRx i x).memEpoch = s.memEpoch := rfl
@[simp] theorem State.setRx_hbm (i : Nat) (x : Dprx) : (s.setRx i x).hbm = s.hbm := rfl
@[simp] theorem State.setRx_hbmPoison (i : Nat) (x : Dprx) : (s.setRx i x).hbmPoison = s.hbmPoison := rfl
@[simp] theorem State.setRx_host (i : Nat) (x : Dprx) : (s.setRx i x).host = s.host := rfl
@[simp] theorem State.setRx_absent (i : Nat) (x : Dprx) : (s.setRx i x).absent = s.absent := rfl
@[simp] theorem State.setRx_readOnly (i : Nat) (x : Dprx) : (s.setRx i x).readOnly = s.readOnly := rfl
@[simp] theorem State.setRx_pageReqs (i : Nat) (x : Dprx) : (s.setRx i x).pageReqs = s.pageReqs := rfl
@[simp] theorem State.setRx_invalDone (i : Nat) (x : Dprx) : (s.setRx i x).invalDone = s.invalDone := rfl
@[simp] theorem State.setRx_nextXfer (i : Nat) (x : Dprx) : (s.setRx i x).nextXfer = s.nextXfer := rfl
@[simp] theorem State.setRx_commitCount (i : Nat) (x : Dprx) : (s.setRx i x).commitCount = s.commitCount := rfl
@[simp] theorem State.setRx_commits (i : Nat) (x : Dprx) : (s.setRx i x).commits = s.commits := rfl
@[simp] theorem State.setRx_hif (i : Nat) (x : Dprx) : (s.setRx i x).hif = s.hif := rfl
@[simp] theorem State.setRx_ctxs (i : Nat) (x : Dprx) : (s.setRx i x).ctxs = s.ctxs := rfl
@[simp] theorem State.setRx_lsch (i : Nat) (x : Dprx) : (s.setRx i x).lsch = s.lsch := rfl
@[simp] theorem State.setRx_ls (i : Nat) (x : Dprx) : (s.setRx i x).ls = s.ls := rfl
@[simp] theorem State.setRx_fronds (i : Nat) (x : Dprx) : (s.setRx i x).fronds = s.fronds := rfl
@[simp] theorem State.setRx_movers (i : Nat) (x : Dprx) : (s.setRx i x).movers = s.movers := rfl
@[simp] theorem State.setRx_comps (i : Nat) (x : Dprx) : (s.setRx i x).comps = s.comps := rfl
@[simp] theorem State.setRx_tgs (i : Nat) (x : Dprx) : (s.setRx i x).tgs = s.tgs := rfl
@[simp] theorem State.setRx_raster (i : Nat) (x : Dprx) : (s.setRx i x).raster = s.raster := rfl
@[simp] theorem State.setRx_dptx (i : Nat) (x : Dprx) : (s.setRx i x).dptx = s.dptx := rfl
@[simp] theorem State.setRx_panels (i : Nat) (x : Dprx) : (s.setRx i x).panels = s.panels := rfl
@[simp] theorem State.setRx_pwu (i : Nat) (x : Dprx) : (s.setRx i x).pwu = s.pwu := rfl
@[simp] theorem State.setRx_eeprom (i : Nat) (x : Dprx) : (s.setRx i x).eeprom = s.eeprom := rfl
@[simp] theorem State.setRx_pmon (i : Nat) (x : Dprx) : (s.setRx i x).pmon = s.pmon := rfl
@[simp] theorem State.setRx_ldl (i : Nat) (x : Dprx) : (s.setRx i x).ldl = s.ldl := rfl
@[simp] theorem State.setRx_svc (i : Nat) (x : Dprx) : (s.setRx i x).svc = s.svc := rfl
@[simp] theorem State.setRx_xspi (i : Nat) (x : Dprx) : (s.setRx i x).xspi = s.xspi := rfl
@[simp] theorem State.setRx_pcie (i : Nat) (x : Dprx) : (s.setRx i x).pcie = s.pcie := rfl
@[simp] theorem State.setRx_lwl (i : Nat) (x : Dprx) : (s.setRx i x).lwl = s.lwl := rfl
@[simp] theorem State.setRx_power (i : Nat) (x : Dprx) : (s.setRx i x).power = s.power := rfl
@[simp] theorem State.setRx_hbmCtl (i : Nat) (x : Dprx) : (s.setRx i x).hbmCtl = s.hbmCtl := rfl
@[simp] theorem State.setRx_pins (i : Nat) (x : Dprx) : (s.setRx i x).pins = s.pins := rfl
@[simp] theorem State.setRx_pending (i : Nat) (x : Dprx) : (s.setRx i x).pending = s.pending := rfl

/-! ### setPanel -/

@[simp] theorem State.setPanel_panel (i : Nat) (x : PanelCtl) : (s.setPanel i x).panel i = x := Tbl.get_set_same _ _ _ _
@[simp] theorem State.setPanel_panel_other (i j : Nat) (x : PanelCtl) (h : j ≠ i) : (s.setPanel i x).panel j = s.panel j := Tbl.get_set_other _ h _ _
@[simp] theorem State.setPanel_ctx (i j : Nat) (x : PanelCtl) : (s.setPanel i x).ctx j = s.ctx j := rfl
@[simp] theorem State.setPanel_frond (i j : Nat) (x : PanelCtl) : (s.setPanel i x).frond j = s.frond j := rfl
@[simp] theorem State.setPanel_sq (i j : Nat) (x : PanelCtl) : (s.setPanel i x).sq j = s.sq j := rfl
@[simp] theorem State.setPanel_cq (i j : Nat) (x : PanelCtl) : (s.setPanel i x).cq j = s.cq j := rfl
@[simp] theorem State.setPanel_mover (i j : Nat) (x : PanelCtl) : (s.setPanel i x).mover j = s.mover j := rfl
@[simp] theorem State.setPanel_comp (i j : Nat) (x : PanelCtl) : (s.setPanel i x).comp j = s.comp j := rfl
@[simp] theorem State.setPanel_tg (i j : Nat) (x : PanelCtl) : (s.setPanel i x).tg j = s.tg j := rfl
@[simp] theorem State.setPanel_port (i j : Nat) (x : PanelCtl) : (s.setPanel i x).port j = s.port j := rfl
@[simp] theorem State.setPanel_rx (i j : Nat) (x : PanelCtl) : (s.setPanel i x).rx j = s.rx j := rfl
@[simp] theorem State.setPanel_wear (i j : Nat) (x : PanelCtl) : (s.setPanel i x).wear j = s.wear j := rfl
@[simp] theorem State.setPanel_out (i j : Nat) (x : PanelCtl) : (s.setPanel i x).out j = s.out j := rfl
@[simp] theorem State.setPanel_stream (i j : Nat) (x : PanelCtl) : (s.setPanel i x).stream j = s.stream j := rfl
@[simp] theorem State.setPanel_group (i j : Nat) (x : PanelCtl) : (s.setPanel i x).group j = s.group j := rfl
@[simp] theorem State.setPanel_link (i j : Nat) (x : PanelCtl) : (s.setPanel i x).link j = s.link j := rfl
@[simp] theorem State.setPanel_halo (i j : Nat) (x : PanelCtl) : (s.setPanel i x).halo j = s.halo j := rfl
@[simp] theorem State.setPanel_tick (i j : Nat) (x : PanelCtl) : (s.setPanel i x).tick j = s.tick j := rfl
@[simp] theorem State.setPanel_unit (i j : Nat) (x : PanelCtl) : (s.setPanel i x).unit j = s.unit j := rfl
@[simp] theorem State.setPanel_domain (i j : Nat) (x : PanelCtl) : (s.setPanel i x).domain j = s.domain j := rfl
@[simp] theorem State.setPanel_row (i j : Nat) (x : PanelCtl) : (s.setPanel i x).row j = s.row j := rfl
@[simp] theorem State.setPanel_hbmc (i j : Nat) (x : PanelCtl) : (s.setPanel i x).hbmc j = s.hbmc j := rfl
@[simp] theorem State.setPanel_strap (i : Nat) (x : PanelCtl) : (s.setPanel i x).strap = s.strap := rfl
@[simp] theorem State.setPanel_ready (i : Nat) (x : PanelCtl) : (s.setPanel i x).ready = s.ready := rfl
@[simp] theorem State.setPanel_configDefaulted (i : Nat) (x : PanelCtl) : (s.setPanel i x).configDefaulted = s.configDefaulted := rfl
@[simp] theorem State.setPanel_boostSpent (i : Nat) (x : PanelCtl) : (s.setPanel i x).boostSpent = s.boostSpent := rfl
@[simp] theorem State.setPanel_passThrough (i : Nat) (x : PanelCtl) : (s.setPanel i x).passThrough = s.passThrough := rfl
@[simp] theorem State.setPanel_debugUnlocked (i : Nat) (x : PanelCtl) : (s.setPanel i x).debugUnlocked = s.debugUnlocked := rfl
@[simp] theorem State.setPanel_image (i : Nat) (x : PanelCtl) : (s.setPanel i x).image = s.image := rfl
@[simp] theorem State.setPanel_lockedWr (i : Nat) (x : PanelCtl) : (s.setPanel i x).lockedWr = s.lockedWr := rfl
@[simp] theorem State.setPanel_mapRefused (i : Nat) (x : PanelCtl) : (s.setPanel i x).mapRefused = s.mapRefused := rfl
@[simp] theorem State.setPanel_byteWr (i : Nat) (x : PanelCtl) : (s.setPanel i x).byteWr = s.byteWr := rfl
@[simp] theorem State.setPanel_locks (i : Nat) (x : PanelCtl) : (s.setPanel i x).locks = s.locks := rfl
@[simp] theorem State.setPanel_frondEn (i : Nat) (x : PanelCtl) : (s.setPanel i x).frondEn = s.frondEn := rfl
@[simp] theorem State.setPanel_frondPwr (i : Nat) (x : PanelCtl) : (s.setPanel i x).frondPwr = s.frondPwr := rfl
@[simp] theorem State.setPanel_dtb (i : Nat) (x : PanelCtl) : (s.setPanel i x).dtb = s.dtb := rfl
@[simp] theorem State.setPanel_dtbSlew (i : Nat) (x : PanelCtl) : (s.setPanel i x).dtbSlew = s.dtbSlew := rfl
@[simp] theorem State.setPanel_dtbFrac (i : Nat) (x : PanelCtl) : (s.setPanel i x).dtbFrac = s.dtbFrac := rfl
@[simp] theorem State.setPanel_fresh (i : Nat) (x : PanelCtl) : (s.setPanel i x).fresh = s.fresh := rfl
@[simp] theorem State.setPanel_readData (i : Nat) (x : PanelCtl) : (s.setPanel i x).readData = s.readData := rfl
@[simp] theorem State.setPanel_hostShadow (i : Nat) (x : PanelCtl) : (s.setPanel i x).hostShadow = s.hostShadow := rfl
@[simp] theorem State.setPanel_svcShadow (i : Nat) (x : PanelCtl) : (s.setPanel i x).svcShadow = s.svcShadow := rfl
@[simp] theorem State.setPanel_writeShadow (i : Nat) (x : PanelCtl) : (s.setPanel i x).writeShadow = s.writeShadow := rfl
@[simp] theorem State.setPanel_rows (i : Nat) (x : PanelCtl) : (s.setPanel i x).rows = s.rows := rfl
@[simp] theorem State.setPanel_inert (i : Nat) (x : PanelCtl) : (s.setPanel i x).inert = s.inert := rfl
@[simp] theorem State.setPanel_memEpoch (i : Nat) (x : PanelCtl) : (s.setPanel i x).memEpoch = s.memEpoch := rfl
@[simp] theorem State.setPanel_hbm (i : Nat) (x : PanelCtl) : (s.setPanel i x).hbm = s.hbm := rfl
@[simp] theorem State.setPanel_hbmPoison (i : Nat) (x : PanelCtl) : (s.setPanel i x).hbmPoison = s.hbmPoison := rfl
@[simp] theorem State.setPanel_host (i : Nat) (x : PanelCtl) : (s.setPanel i x).host = s.host := rfl
@[simp] theorem State.setPanel_absent (i : Nat) (x : PanelCtl) : (s.setPanel i x).absent = s.absent := rfl
@[simp] theorem State.setPanel_readOnly (i : Nat) (x : PanelCtl) : (s.setPanel i x).readOnly = s.readOnly := rfl
@[simp] theorem State.setPanel_pageReqs (i : Nat) (x : PanelCtl) : (s.setPanel i x).pageReqs = s.pageReqs := rfl
@[simp] theorem State.setPanel_invalDone (i : Nat) (x : PanelCtl) : (s.setPanel i x).invalDone = s.invalDone := rfl
@[simp] theorem State.setPanel_nextXfer (i : Nat) (x : PanelCtl) : (s.setPanel i x).nextXfer = s.nextXfer := rfl
@[simp] theorem State.setPanel_commitCount (i : Nat) (x : PanelCtl) : (s.setPanel i x).commitCount = s.commitCount := rfl
@[simp] theorem State.setPanel_commits (i : Nat) (x : PanelCtl) : (s.setPanel i x).commits = s.commits := rfl
@[simp] theorem State.setPanel_hif (i : Nat) (x : PanelCtl) : (s.setPanel i x).hif = s.hif := rfl
@[simp] theorem State.setPanel_ctxs (i : Nat) (x : PanelCtl) : (s.setPanel i x).ctxs = s.ctxs := rfl
@[simp] theorem State.setPanel_lsch (i : Nat) (x : PanelCtl) : (s.setPanel i x).lsch = s.lsch := rfl
@[simp] theorem State.setPanel_ls (i : Nat) (x : PanelCtl) : (s.setPanel i x).ls = s.ls := rfl
@[simp] theorem State.setPanel_fronds (i : Nat) (x : PanelCtl) : (s.setPanel i x).fronds = s.fronds := rfl
@[simp] theorem State.setPanel_movers (i : Nat) (x : PanelCtl) : (s.setPanel i x).movers = s.movers := rfl
@[simp] theorem State.setPanel_comps (i : Nat) (x : PanelCtl) : (s.setPanel i x).comps = s.comps := rfl
@[simp] theorem State.setPanel_tgs (i : Nat) (x : PanelCtl) : (s.setPanel i x).tgs = s.tgs := rfl
@[simp] theorem State.setPanel_raster (i : Nat) (x : PanelCtl) : (s.setPanel i x).raster = s.raster := rfl
@[simp] theorem State.setPanel_dptx (i : Nat) (x : PanelCtl) : (s.setPanel i x).dptx = s.dptx := rfl
@[simp] theorem State.setPanel_dprx (i : Nat) (x : PanelCtl) : (s.setPanel i x).dprx = s.dprx := rfl
@[simp] theorem State.setPanel_pwu (i : Nat) (x : PanelCtl) : (s.setPanel i x).pwu = s.pwu := rfl
@[simp] theorem State.setPanel_eeprom (i : Nat) (x : PanelCtl) : (s.setPanel i x).eeprom = s.eeprom := rfl
@[simp] theorem State.setPanel_pmon (i : Nat) (x : PanelCtl) : (s.setPanel i x).pmon = s.pmon := rfl
@[simp] theorem State.setPanel_ldl (i : Nat) (x : PanelCtl) : (s.setPanel i x).ldl = s.ldl := rfl
@[simp] theorem State.setPanel_svc (i : Nat) (x : PanelCtl) : (s.setPanel i x).svc = s.svc := rfl
@[simp] theorem State.setPanel_xspi (i : Nat) (x : PanelCtl) : (s.setPanel i x).xspi = s.xspi := rfl
@[simp] theorem State.setPanel_pcie (i : Nat) (x : PanelCtl) : (s.setPanel i x).pcie = s.pcie := rfl
@[simp] theorem State.setPanel_lwl (i : Nat) (x : PanelCtl) : (s.setPanel i x).lwl = s.lwl := rfl
@[simp] theorem State.setPanel_power (i : Nat) (x : PanelCtl) : (s.setPanel i x).power = s.power := rfl
@[simp] theorem State.setPanel_hbmCtl (i : Nat) (x : PanelCtl) : (s.setPanel i x).hbmCtl = s.hbmCtl := rfl
@[simp] theorem State.setPanel_pins (i : Nat) (x : PanelCtl) : (s.setPanel i x).pins = s.pins := rfl
@[simp] theorem State.setPanel_pending (i : Nat) (x : PanelCtl) : (s.setPanel i x).pending = s.pending := rfl

/-! ### setWear -/

@[simp] theorem State.setWear_wear (i : Nat) (x : Pwu) : (s.setWear i x).wear i = x := Tbl.get_set_same _ _ _ _
@[simp] theorem State.setWear_wear_other (i j : Nat) (x : Pwu) (h : j ≠ i) : (s.setWear i x).wear j = s.wear j := Tbl.get_set_other _ h _ _
@[simp] theorem State.setWear_ctx (i j : Nat) (x : Pwu) : (s.setWear i x).ctx j = s.ctx j := rfl
@[simp] theorem State.setWear_frond (i j : Nat) (x : Pwu) : (s.setWear i x).frond j = s.frond j := rfl
@[simp] theorem State.setWear_sq (i j : Nat) (x : Pwu) : (s.setWear i x).sq j = s.sq j := rfl
@[simp] theorem State.setWear_cq (i j : Nat) (x : Pwu) : (s.setWear i x).cq j = s.cq j := rfl
@[simp] theorem State.setWear_mover (i j : Nat) (x : Pwu) : (s.setWear i x).mover j = s.mover j := rfl
@[simp] theorem State.setWear_comp (i j : Nat) (x : Pwu) : (s.setWear i x).comp j = s.comp j := rfl
@[simp] theorem State.setWear_tg (i j : Nat) (x : Pwu) : (s.setWear i x).tg j = s.tg j := rfl
@[simp] theorem State.setWear_port (i j : Nat) (x : Pwu) : (s.setWear i x).port j = s.port j := rfl
@[simp] theorem State.setWear_rx (i j : Nat) (x : Pwu) : (s.setWear i x).rx j = s.rx j := rfl
@[simp] theorem State.setWear_panel (i j : Nat) (x : Pwu) : (s.setWear i x).panel j = s.panel j := rfl
@[simp] theorem State.setWear_out (i j : Nat) (x : Pwu) : (s.setWear i x).out j = s.out j := rfl
@[simp] theorem State.setWear_stream (i j : Nat) (x : Pwu) : (s.setWear i x).stream j = s.stream j := rfl
@[simp] theorem State.setWear_group (i j : Nat) (x : Pwu) : (s.setWear i x).group j = s.group j := rfl
@[simp] theorem State.setWear_link (i j : Nat) (x : Pwu) : (s.setWear i x).link j = s.link j := rfl
@[simp] theorem State.setWear_halo (i j : Nat) (x : Pwu) : (s.setWear i x).halo j = s.halo j := rfl
@[simp] theorem State.setWear_tick (i j : Nat) (x : Pwu) : (s.setWear i x).tick j = s.tick j := rfl
@[simp] theorem State.setWear_unit (i j : Nat) (x : Pwu) : (s.setWear i x).unit j = s.unit j := rfl
@[simp] theorem State.setWear_domain (i j : Nat) (x : Pwu) : (s.setWear i x).domain j = s.domain j := rfl
@[simp] theorem State.setWear_row (i j : Nat) (x : Pwu) : (s.setWear i x).row j = s.row j := rfl
@[simp] theorem State.setWear_hbmc (i j : Nat) (x : Pwu) : (s.setWear i x).hbmc j = s.hbmc j := rfl
@[simp] theorem State.setWear_strap (i : Nat) (x : Pwu) : (s.setWear i x).strap = s.strap := rfl
@[simp] theorem State.setWear_ready (i : Nat) (x : Pwu) : (s.setWear i x).ready = s.ready := rfl
@[simp] theorem State.setWear_configDefaulted (i : Nat) (x : Pwu) : (s.setWear i x).configDefaulted = s.configDefaulted := rfl
@[simp] theorem State.setWear_boostSpent (i : Nat) (x : Pwu) : (s.setWear i x).boostSpent = s.boostSpent := rfl
@[simp] theorem State.setWear_passThrough (i : Nat) (x : Pwu) : (s.setWear i x).passThrough = s.passThrough := rfl
@[simp] theorem State.setWear_debugUnlocked (i : Nat) (x : Pwu) : (s.setWear i x).debugUnlocked = s.debugUnlocked := rfl
@[simp] theorem State.setWear_image (i : Nat) (x : Pwu) : (s.setWear i x).image = s.image := rfl
@[simp] theorem State.setWear_lockedWr (i : Nat) (x : Pwu) : (s.setWear i x).lockedWr = s.lockedWr := rfl
@[simp] theorem State.setWear_mapRefused (i : Nat) (x : Pwu) : (s.setWear i x).mapRefused = s.mapRefused := rfl
@[simp] theorem State.setWear_byteWr (i : Nat) (x : Pwu) : (s.setWear i x).byteWr = s.byteWr := rfl
@[simp] theorem State.setWear_locks (i : Nat) (x : Pwu) : (s.setWear i x).locks = s.locks := rfl
@[simp] theorem State.setWear_frondEn (i : Nat) (x : Pwu) : (s.setWear i x).frondEn = s.frondEn := rfl
@[simp] theorem State.setWear_frondPwr (i : Nat) (x : Pwu) : (s.setWear i x).frondPwr = s.frondPwr := rfl
@[simp] theorem State.setWear_dtb (i : Nat) (x : Pwu) : (s.setWear i x).dtb = s.dtb := rfl
@[simp] theorem State.setWear_dtbSlew (i : Nat) (x : Pwu) : (s.setWear i x).dtbSlew = s.dtbSlew := rfl
@[simp] theorem State.setWear_dtbFrac (i : Nat) (x : Pwu) : (s.setWear i x).dtbFrac = s.dtbFrac := rfl
@[simp] theorem State.setWear_fresh (i : Nat) (x : Pwu) : (s.setWear i x).fresh = s.fresh := rfl
@[simp] theorem State.setWear_readData (i : Nat) (x : Pwu) : (s.setWear i x).readData = s.readData := rfl
@[simp] theorem State.setWear_hostShadow (i : Nat) (x : Pwu) : (s.setWear i x).hostShadow = s.hostShadow := rfl
@[simp] theorem State.setWear_svcShadow (i : Nat) (x : Pwu) : (s.setWear i x).svcShadow = s.svcShadow := rfl
@[simp] theorem State.setWear_writeShadow (i : Nat) (x : Pwu) : (s.setWear i x).writeShadow = s.writeShadow := rfl
@[simp] theorem State.setWear_rows (i : Nat) (x : Pwu) : (s.setWear i x).rows = s.rows := rfl
@[simp] theorem State.setWear_inert (i : Nat) (x : Pwu) : (s.setWear i x).inert = s.inert := rfl
@[simp] theorem State.setWear_memEpoch (i : Nat) (x : Pwu) : (s.setWear i x).memEpoch = s.memEpoch := rfl
@[simp] theorem State.setWear_hbm (i : Nat) (x : Pwu) : (s.setWear i x).hbm = s.hbm := rfl
@[simp] theorem State.setWear_hbmPoison (i : Nat) (x : Pwu) : (s.setWear i x).hbmPoison = s.hbmPoison := rfl
@[simp] theorem State.setWear_host (i : Nat) (x : Pwu) : (s.setWear i x).host = s.host := rfl
@[simp] theorem State.setWear_absent (i : Nat) (x : Pwu) : (s.setWear i x).absent = s.absent := rfl
@[simp] theorem State.setWear_readOnly (i : Nat) (x : Pwu) : (s.setWear i x).readOnly = s.readOnly := rfl
@[simp] theorem State.setWear_pageReqs (i : Nat) (x : Pwu) : (s.setWear i x).pageReqs = s.pageReqs := rfl
@[simp] theorem State.setWear_invalDone (i : Nat) (x : Pwu) : (s.setWear i x).invalDone = s.invalDone := rfl
@[simp] theorem State.setWear_nextXfer (i : Nat) (x : Pwu) : (s.setWear i x).nextXfer = s.nextXfer := rfl
@[simp] theorem State.setWear_commitCount (i : Nat) (x : Pwu) : (s.setWear i x).commitCount = s.commitCount := rfl
@[simp] theorem State.setWear_commits (i : Nat) (x : Pwu) : (s.setWear i x).commits = s.commits := rfl
@[simp] theorem State.setWear_hif (i : Nat) (x : Pwu) : (s.setWear i x).hif = s.hif := rfl
@[simp] theorem State.setWear_ctxs (i : Nat) (x : Pwu) : (s.setWear i x).ctxs = s.ctxs := rfl
@[simp] theorem State.setWear_lsch (i : Nat) (x : Pwu) : (s.setWear i x).lsch = s.lsch := rfl
@[simp] theorem State.setWear_ls (i : Nat) (x : Pwu) : (s.setWear i x).ls = s.ls := rfl
@[simp] theorem State.setWear_fronds (i : Nat) (x : Pwu) : (s.setWear i x).fronds = s.fronds := rfl
@[simp] theorem State.setWear_movers (i : Nat) (x : Pwu) : (s.setWear i x).movers = s.movers := rfl
@[simp] theorem State.setWear_comps (i : Nat) (x : Pwu) : (s.setWear i x).comps = s.comps := rfl
@[simp] theorem State.setWear_tgs (i : Nat) (x : Pwu) : (s.setWear i x).tgs = s.tgs := rfl
@[simp] theorem State.setWear_raster (i : Nat) (x : Pwu) : (s.setWear i x).raster = s.raster := rfl
@[simp] theorem State.setWear_dptx (i : Nat) (x : Pwu) : (s.setWear i x).dptx = s.dptx := rfl
@[simp] theorem State.setWear_dprx (i : Nat) (x : Pwu) : (s.setWear i x).dprx = s.dprx := rfl
@[simp] theorem State.setWear_panels (i : Nat) (x : Pwu) : (s.setWear i x).panels = s.panels := rfl
@[simp] theorem State.setWear_eeprom (i : Nat) (x : Pwu) : (s.setWear i x).eeprom = s.eeprom := rfl
@[simp] theorem State.setWear_pmon (i : Nat) (x : Pwu) : (s.setWear i x).pmon = s.pmon := rfl
@[simp] theorem State.setWear_ldl (i : Nat) (x : Pwu) : (s.setWear i x).ldl = s.ldl := rfl
@[simp] theorem State.setWear_svc (i : Nat) (x : Pwu) : (s.setWear i x).svc = s.svc := rfl
@[simp] theorem State.setWear_xspi (i : Nat) (x : Pwu) : (s.setWear i x).xspi = s.xspi := rfl
@[simp] theorem State.setWear_pcie (i : Nat) (x : Pwu) : (s.setWear i x).pcie = s.pcie := rfl
@[simp] theorem State.setWear_lwl (i : Nat) (x : Pwu) : (s.setWear i x).lwl = s.lwl := rfl
@[simp] theorem State.setWear_power (i : Nat) (x : Pwu) : (s.setWear i x).power = s.power := rfl
@[simp] theorem State.setWear_hbmCtl (i : Nat) (x : Pwu) : (s.setWear i x).hbmCtl = s.hbmCtl := rfl
@[simp] theorem State.setWear_pins (i : Nat) (x : Pwu) : (s.setWear i x).pins = s.pins := rfl
@[simp] theorem State.setWear_pending (i : Nat) (x : Pwu) : (s.setWear i x).pending = s.pending := rfl

/-! ### setOut -/

@[simp] theorem State.setOut_out (i : Nat) (x : LschOut) : (s.setOut i x).out i = x := Tbl.get_set_same _ _ _ _
@[simp] theorem State.setOut_out_other (i j : Nat) (x : LschOut) (h : j ≠ i) : (s.setOut i x).out j = s.out j := Tbl.get_set_other _ h _ _
@[simp] theorem State.setOut_ctx (i j : Nat) (x : LschOut) : (s.setOut i x).ctx j = s.ctx j := rfl
@[simp] theorem State.setOut_frond (i j : Nat) (x : LschOut) : (s.setOut i x).frond j = s.frond j := rfl
@[simp] theorem State.setOut_sq (i j : Nat) (x : LschOut) : (s.setOut i x).sq j = s.sq j := rfl
@[simp] theorem State.setOut_cq (i j : Nat) (x : LschOut) : (s.setOut i x).cq j = s.cq j := rfl
@[simp] theorem State.setOut_mover (i j : Nat) (x : LschOut) : (s.setOut i x).mover j = s.mover j := rfl
@[simp] theorem State.setOut_comp (i j : Nat) (x : LschOut) : (s.setOut i x).comp j = s.comp j := rfl
@[simp] theorem State.setOut_tg (i j : Nat) (x : LschOut) : (s.setOut i x).tg j = s.tg j := rfl
@[simp] theorem State.setOut_port (i j : Nat) (x : LschOut) : (s.setOut i x).port j = s.port j := rfl
@[simp] theorem State.setOut_rx (i j : Nat) (x : LschOut) : (s.setOut i x).rx j = s.rx j := rfl
@[simp] theorem State.setOut_panel (i j : Nat) (x : LschOut) : (s.setOut i x).panel j = s.panel j := rfl
@[simp] theorem State.setOut_wear (i j : Nat) (x : LschOut) : (s.setOut i x).wear j = s.wear j := rfl
@[simp] theorem State.setOut_stream (i j : Nat) (x : LschOut) : (s.setOut i x).stream j = s.stream j := rfl
@[simp] theorem State.setOut_group (i j : Nat) (x : LschOut) : (s.setOut i x).group j = s.group j := rfl
@[simp] theorem State.setOut_link (i j : Nat) (x : LschOut) : (s.setOut i x).link j = s.link j := rfl
@[simp] theorem State.setOut_halo (i j : Nat) (x : LschOut) : (s.setOut i x).halo j = s.halo j := rfl
@[simp] theorem State.setOut_tick (i j : Nat) (x : LschOut) : (s.setOut i x).tick j = s.tick j := rfl
@[simp] theorem State.setOut_unit (i j : Nat) (x : LschOut) : (s.setOut i x).unit j = s.unit j := rfl
@[simp] theorem State.setOut_domain (i j : Nat) (x : LschOut) : (s.setOut i x).domain j = s.domain j := rfl
@[simp] theorem State.setOut_row (i j : Nat) (x : LschOut) : (s.setOut i x).row j = s.row j := rfl
@[simp] theorem State.setOut_hbmc (i j : Nat) (x : LschOut) : (s.setOut i x).hbmc j = s.hbmc j := rfl
@[simp] theorem State.setOut_strap (i : Nat) (x : LschOut) : (s.setOut i x).strap = s.strap := rfl
@[simp] theorem State.setOut_ready (i : Nat) (x : LschOut) : (s.setOut i x).ready = s.ready := rfl
@[simp] theorem State.setOut_configDefaulted (i : Nat) (x : LschOut) : (s.setOut i x).configDefaulted = s.configDefaulted := rfl
@[simp] theorem State.setOut_boostSpent (i : Nat) (x : LschOut) : (s.setOut i x).boostSpent = s.boostSpent := rfl
@[simp] theorem State.setOut_passThrough (i : Nat) (x : LschOut) : (s.setOut i x).passThrough = s.passThrough := rfl
@[simp] theorem State.setOut_debugUnlocked (i : Nat) (x : LschOut) : (s.setOut i x).debugUnlocked = s.debugUnlocked := rfl
@[simp] theorem State.setOut_image (i : Nat) (x : LschOut) : (s.setOut i x).image = s.image := rfl
@[simp] theorem State.setOut_lockedWr (i : Nat) (x : LschOut) : (s.setOut i x).lockedWr = s.lockedWr := rfl
@[simp] theorem State.setOut_mapRefused (i : Nat) (x : LschOut) : (s.setOut i x).mapRefused = s.mapRefused := rfl
@[simp] theorem State.setOut_byteWr (i : Nat) (x : LschOut) : (s.setOut i x).byteWr = s.byteWr := rfl
@[simp] theorem State.setOut_locks (i : Nat) (x : LschOut) : (s.setOut i x).locks = s.locks := rfl
@[simp] theorem State.setOut_frondEn (i : Nat) (x : LschOut) : (s.setOut i x).frondEn = s.frondEn := rfl
@[simp] theorem State.setOut_frondPwr (i : Nat) (x : LschOut) : (s.setOut i x).frondPwr = s.frondPwr := rfl
@[simp] theorem State.setOut_dtb (i : Nat) (x : LschOut) : (s.setOut i x).dtb = s.dtb := rfl
@[simp] theorem State.setOut_dtbSlew (i : Nat) (x : LschOut) : (s.setOut i x).dtbSlew = s.dtbSlew := rfl
@[simp] theorem State.setOut_dtbFrac (i : Nat) (x : LschOut) : (s.setOut i x).dtbFrac = s.dtbFrac := rfl
@[simp] theorem State.setOut_fresh (i : Nat) (x : LschOut) : (s.setOut i x).fresh = s.fresh := rfl
@[simp] theorem State.setOut_readData (i : Nat) (x : LschOut) : (s.setOut i x).readData = s.readData := rfl
@[simp] theorem State.setOut_hostShadow (i : Nat) (x : LschOut) : (s.setOut i x).hostShadow = s.hostShadow := rfl
@[simp] theorem State.setOut_svcShadow (i : Nat) (x : LschOut) : (s.setOut i x).svcShadow = s.svcShadow := rfl
@[simp] theorem State.setOut_writeShadow (i : Nat) (x : LschOut) : (s.setOut i x).writeShadow = s.writeShadow := rfl
@[simp] theorem State.setOut_rows (i : Nat) (x : LschOut) : (s.setOut i x).rows = s.rows := rfl
@[simp] theorem State.setOut_inert (i : Nat) (x : LschOut) : (s.setOut i x).inert = s.inert := rfl
@[simp] theorem State.setOut_memEpoch (i : Nat) (x : LschOut) : (s.setOut i x).memEpoch = s.memEpoch := rfl
@[simp] theorem State.setOut_hbm (i : Nat) (x : LschOut) : (s.setOut i x).hbm = s.hbm := rfl
@[simp] theorem State.setOut_hbmPoison (i : Nat) (x : LschOut) : (s.setOut i x).hbmPoison = s.hbmPoison := rfl
@[simp] theorem State.setOut_host (i : Nat) (x : LschOut) : (s.setOut i x).host = s.host := rfl
@[simp] theorem State.setOut_absent (i : Nat) (x : LschOut) : (s.setOut i x).absent = s.absent := rfl
@[simp] theorem State.setOut_readOnly (i : Nat) (x : LschOut) : (s.setOut i x).readOnly = s.readOnly := rfl
@[simp] theorem State.setOut_pageReqs (i : Nat) (x : LschOut) : (s.setOut i x).pageReqs = s.pageReqs := rfl
@[simp] theorem State.setOut_invalDone (i : Nat) (x : LschOut) : (s.setOut i x).invalDone = s.invalDone := rfl
@[simp] theorem State.setOut_nextXfer (i : Nat) (x : LschOut) : (s.setOut i x).nextXfer = s.nextXfer := rfl
@[simp] theorem State.setOut_commitCount (i : Nat) (x : LschOut) : (s.setOut i x).commitCount = s.commitCount := rfl
@[simp] theorem State.setOut_commits (i : Nat) (x : LschOut) : (s.setOut i x).commits = s.commits := rfl
@[simp] theorem State.setOut_hif (i : Nat) (x : LschOut) : (s.setOut i x).hif = s.hif := rfl
@[simp] theorem State.setOut_ctxs (i : Nat) (x : LschOut) : (s.setOut i x).ctxs = s.ctxs := rfl
@[simp] theorem State.setOut_ls (i : Nat) (x : LschOut) : (s.setOut i x).ls = s.ls := rfl
@[simp] theorem State.setOut_fronds (i : Nat) (x : LschOut) : (s.setOut i x).fronds = s.fronds := rfl
@[simp] theorem State.setOut_movers (i : Nat) (x : LschOut) : (s.setOut i x).movers = s.movers := rfl
@[simp] theorem State.setOut_comps (i : Nat) (x : LschOut) : (s.setOut i x).comps = s.comps := rfl
@[simp] theorem State.setOut_tgs (i : Nat) (x : LschOut) : (s.setOut i x).tgs = s.tgs := rfl
@[simp] theorem State.setOut_raster (i : Nat) (x : LschOut) : (s.setOut i x).raster = s.raster := rfl
@[simp] theorem State.setOut_dptx (i : Nat) (x : LschOut) : (s.setOut i x).dptx = s.dptx := rfl
@[simp] theorem State.setOut_dprx (i : Nat) (x : LschOut) : (s.setOut i x).dprx = s.dprx := rfl
@[simp] theorem State.setOut_panels (i : Nat) (x : LschOut) : (s.setOut i x).panels = s.panels := rfl
@[simp] theorem State.setOut_pwu (i : Nat) (x : LschOut) : (s.setOut i x).pwu = s.pwu := rfl
@[simp] theorem State.setOut_eeprom (i : Nat) (x : LschOut) : (s.setOut i x).eeprom = s.eeprom := rfl
@[simp] theorem State.setOut_pmon (i : Nat) (x : LschOut) : (s.setOut i x).pmon = s.pmon := rfl
@[simp] theorem State.setOut_ldl (i : Nat) (x : LschOut) : (s.setOut i x).ldl = s.ldl := rfl
@[simp] theorem State.setOut_svc (i : Nat) (x : LschOut) : (s.setOut i x).svc = s.svc := rfl
@[simp] theorem State.setOut_xspi (i : Nat) (x : LschOut) : (s.setOut i x).xspi = s.xspi := rfl
@[simp] theorem State.setOut_pcie (i : Nat) (x : LschOut) : (s.setOut i x).pcie = s.pcie := rfl
@[simp] theorem State.setOut_lwl (i : Nat) (x : LschOut) : (s.setOut i x).lwl = s.lwl := rfl
@[simp] theorem State.setOut_power (i : Nat) (x : LschOut) : (s.setOut i x).power = s.power := rfl
@[simp] theorem State.setOut_hbmCtl (i : Nat) (x : LschOut) : (s.setOut i x).hbmCtl = s.hbmCtl := rfl
@[simp] theorem State.setOut_pins (i : Nat) (x : LschOut) : (s.setOut i x).pins = s.pins := rfl
@[simp] theorem State.setOut_pending (i : Nat) (x : LschOut) : (s.setOut i x).pending = s.pending := rfl

/-! ### setStream -/

@[simp] theorem State.setStream_stream (i : Nat) (x : Stream) : (s.setStream i x).stream i = x := Tbl.get_set_same _ _ _ _
@[simp] theorem State.setStream_stream_other (i j : Nat) (x : Stream) (h : j ≠ i) : (s.setStream i x).stream j = s.stream j := Tbl.get_set_other _ h _ _
@[simp] theorem State.setStream_ctx (i j : Nat) (x : Stream) : (s.setStream i x).ctx j = s.ctx j := rfl
@[simp] theorem State.setStream_frond (i j : Nat) (x : Stream) : (s.setStream i x).frond j = s.frond j := rfl
@[simp] theorem State.setStream_sq (i j : Nat) (x : Stream) : (s.setStream i x).sq j = s.sq j := rfl
@[simp] theorem State.setStream_cq (i j : Nat) (x : Stream) : (s.setStream i x).cq j = s.cq j := rfl
@[simp] theorem State.setStream_mover (i j : Nat) (x : Stream) : (s.setStream i x).mover j = s.mover j := rfl
@[simp] theorem State.setStream_comp (i j : Nat) (x : Stream) : (s.setStream i x).comp j = s.comp j := rfl
@[simp] theorem State.setStream_tg (i j : Nat) (x : Stream) : (s.setStream i x).tg j = s.tg j := rfl
@[simp] theorem State.setStream_port (i j : Nat) (x : Stream) : (s.setStream i x).port j = s.port j := rfl
@[simp] theorem State.setStream_rx (i j : Nat) (x : Stream) : (s.setStream i x).rx j = s.rx j := rfl
@[simp] theorem State.setStream_panel (i j : Nat) (x : Stream) : (s.setStream i x).panel j = s.panel j := rfl
@[simp] theorem State.setStream_wear (i j : Nat) (x : Stream) : (s.setStream i x).wear j = s.wear j := rfl
@[simp] theorem State.setStream_out (i j : Nat) (x : Stream) : (s.setStream i x).out j = s.out j := rfl
@[simp] theorem State.setStream_group (i j : Nat) (x : Stream) : (s.setStream i x).group j = s.group j := rfl
@[simp] theorem State.setStream_link (i j : Nat) (x : Stream) : (s.setStream i x).link j = s.link j := rfl
@[simp] theorem State.setStream_halo (i j : Nat) (x : Stream) : (s.setStream i x).halo j = s.halo j := rfl
@[simp] theorem State.setStream_tick (i j : Nat) (x : Stream) : (s.setStream i x).tick j = s.tick j := rfl
@[simp] theorem State.setStream_unit (i j : Nat) (x : Stream) : (s.setStream i x).unit j = s.unit j := rfl
@[simp] theorem State.setStream_domain (i j : Nat) (x : Stream) : (s.setStream i x).domain j = s.domain j := rfl
@[simp] theorem State.setStream_row (i j : Nat) (x : Stream) : (s.setStream i x).row j = s.row j := rfl
@[simp] theorem State.setStream_hbmc (i j : Nat) (x : Stream) : (s.setStream i x).hbmc j = s.hbmc j := rfl
@[simp] theorem State.setStream_strap (i : Nat) (x : Stream) : (s.setStream i x).strap = s.strap := rfl
@[simp] theorem State.setStream_ready (i : Nat) (x : Stream) : (s.setStream i x).ready = s.ready := rfl
@[simp] theorem State.setStream_configDefaulted (i : Nat) (x : Stream) : (s.setStream i x).configDefaulted = s.configDefaulted := rfl
@[simp] theorem State.setStream_boostSpent (i : Nat) (x : Stream) : (s.setStream i x).boostSpent = s.boostSpent := rfl
@[simp] theorem State.setStream_passThrough (i : Nat) (x : Stream) : (s.setStream i x).passThrough = s.passThrough := rfl
@[simp] theorem State.setStream_debugUnlocked (i : Nat) (x : Stream) : (s.setStream i x).debugUnlocked = s.debugUnlocked := rfl
@[simp] theorem State.setStream_image (i : Nat) (x : Stream) : (s.setStream i x).image = s.image := rfl
@[simp] theorem State.setStream_lockedWr (i : Nat) (x : Stream) : (s.setStream i x).lockedWr = s.lockedWr := rfl
@[simp] theorem State.setStream_mapRefused (i : Nat) (x : Stream) : (s.setStream i x).mapRefused = s.mapRefused := rfl
@[simp] theorem State.setStream_byteWr (i : Nat) (x : Stream) : (s.setStream i x).byteWr = s.byteWr := rfl
@[simp] theorem State.setStream_locks (i : Nat) (x : Stream) : (s.setStream i x).locks = s.locks := rfl
@[simp] theorem State.setStream_frondEn (i : Nat) (x : Stream) : (s.setStream i x).frondEn = s.frondEn := rfl
@[simp] theorem State.setStream_frondPwr (i : Nat) (x : Stream) : (s.setStream i x).frondPwr = s.frondPwr := rfl
@[simp] theorem State.setStream_dtb (i : Nat) (x : Stream) : (s.setStream i x).dtb = s.dtb := rfl
@[simp] theorem State.setStream_dtbSlew (i : Nat) (x : Stream) : (s.setStream i x).dtbSlew = s.dtbSlew := rfl
@[simp] theorem State.setStream_dtbFrac (i : Nat) (x : Stream) : (s.setStream i x).dtbFrac = s.dtbFrac := rfl
@[simp] theorem State.setStream_fresh (i : Nat) (x : Stream) : (s.setStream i x).fresh = s.fresh := rfl
@[simp] theorem State.setStream_readData (i : Nat) (x : Stream) : (s.setStream i x).readData = s.readData := rfl
@[simp] theorem State.setStream_hostShadow (i : Nat) (x : Stream) : (s.setStream i x).hostShadow = s.hostShadow := rfl
@[simp] theorem State.setStream_svcShadow (i : Nat) (x : Stream) : (s.setStream i x).svcShadow = s.svcShadow := rfl
@[simp] theorem State.setStream_writeShadow (i : Nat) (x : Stream) : (s.setStream i x).writeShadow = s.writeShadow := rfl
@[simp] theorem State.setStream_rows (i : Nat) (x : Stream) : (s.setStream i x).rows = s.rows := rfl
@[simp] theorem State.setStream_inert (i : Nat) (x : Stream) : (s.setStream i x).inert = s.inert := rfl
@[simp] theorem State.setStream_memEpoch (i : Nat) (x : Stream) : (s.setStream i x).memEpoch = s.memEpoch := rfl
@[simp] theorem State.setStream_hbm (i : Nat) (x : Stream) : (s.setStream i x).hbm = s.hbm := rfl
@[simp] theorem State.setStream_hbmPoison (i : Nat) (x : Stream) : (s.setStream i x).hbmPoison = s.hbmPoison := rfl
@[simp] theorem State.setStream_host (i : Nat) (x : Stream) : (s.setStream i x).host = s.host := rfl
@[simp] theorem State.setStream_absent (i : Nat) (x : Stream) : (s.setStream i x).absent = s.absent := rfl
@[simp] theorem State.setStream_readOnly (i : Nat) (x : Stream) : (s.setStream i x).readOnly = s.readOnly := rfl
@[simp] theorem State.setStream_pageReqs (i : Nat) (x : Stream) : (s.setStream i x).pageReqs = s.pageReqs := rfl
@[simp] theorem State.setStream_invalDone (i : Nat) (x : Stream) : (s.setStream i x).invalDone = s.invalDone := rfl
@[simp] theorem State.setStream_nextXfer (i : Nat) (x : Stream) : (s.setStream i x).nextXfer = s.nextXfer := rfl
@[simp] theorem State.setStream_commitCount (i : Nat) (x : Stream) : (s.setStream i x).commitCount = s.commitCount := rfl
@[simp] theorem State.setStream_commits (i : Nat) (x : Stream) : (s.setStream i x).commits = s.commits := rfl
@[simp] theorem State.setStream_hif (i : Nat) (x : Stream) : (s.setStream i x).hif = s.hif := rfl
@[simp] theorem State.setStream_ctxs (i : Nat) (x : Stream) : (s.setStream i x).ctxs = s.ctxs := rfl
@[simp] theorem State.setStream_ls (i : Nat) (x : Stream) : (s.setStream i x).ls = s.ls := rfl
@[simp] theorem State.setStream_fronds (i : Nat) (x : Stream) : (s.setStream i x).fronds = s.fronds := rfl
@[simp] theorem State.setStream_movers (i : Nat) (x : Stream) : (s.setStream i x).movers = s.movers := rfl
@[simp] theorem State.setStream_comps (i : Nat) (x : Stream) : (s.setStream i x).comps = s.comps := rfl
@[simp] theorem State.setStream_tgs (i : Nat) (x : Stream) : (s.setStream i x).tgs = s.tgs := rfl
@[simp] theorem State.setStream_raster (i : Nat) (x : Stream) : (s.setStream i x).raster = s.raster := rfl
@[simp] theorem State.setStream_dptx (i : Nat) (x : Stream) : (s.setStream i x).dptx = s.dptx := rfl
@[simp] theorem State.setStream_dprx (i : Nat) (x : Stream) : (s.setStream i x).dprx = s.dprx := rfl
@[simp] theorem State.setStream_panels (i : Nat) (x : Stream) : (s.setStream i x).panels = s.panels := rfl
@[simp] theorem State.setStream_pwu (i : Nat) (x : Stream) : (s.setStream i x).pwu = s.pwu := rfl
@[simp] theorem State.setStream_eeprom (i : Nat) (x : Stream) : (s.setStream i x).eeprom = s.eeprom := rfl
@[simp] theorem State.setStream_pmon (i : Nat) (x : Stream) : (s.setStream i x).pmon = s.pmon := rfl
@[simp] theorem State.setStream_ldl (i : Nat) (x : Stream) : (s.setStream i x).ldl = s.ldl := rfl
@[simp] theorem State.setStream_svc (i : Nat) (x : Stream) : (s.setStream i x).svc = s.svc := rfl
@[simp] theorem State.setStream_xspi (i : Nat) (x : Stream) : (s.setStream i x).xspi = s.xspi := rfl
@[simp] theorem State.setStream_pcie (i : Nat) (x : Stream) : (s.setStream i x).pcie = s.pcie := rfl
@[simp] theorem State.setStream_lwl (i : Nat) (x : Stream) : (s.setStream i x).lwl = s.lwl := rfl
@[simp] theorem State.setStream_power (i : Nat) (x : Stream) : (s.setStream i x).power = s.power := rfl
@[simp] theorem State.setStream_hbmCtl (i : Nat) (x : Stream) : (s.setStream i x).hbmCtl = s.hbmCtl := rfl
@[simp] theorem State.setStream_pins (i : Nat) (x : Stream) : (s.setStream i x).pins = s.pins := rfl
@[simp] theorem State.setStream_pending (i : Nat) (x : Stream) : (s.setStream i x).pending = s.pending := rfl

/-! ### setGroup -/

@[simp] theorem State.setGroup_group (i : Nat) (x : McastGroup) : (s.setGroup i x).group i = x := Tbl.get_set_same _ _ _ _
@[simp] theorem State.setGroup_group_other (i j : Nat) (x : McastGroup) (h : j ≠ i) : (s.setGroup i x).group j = s.group j := Tbl.get_set_other _ h _ _
@[simp] theorem State.setGroup_ctx (i j : Nat) (x : McastGroup) : (s.setGroup i x).ctx j = s.ctx j := rfl
@[simp] theorem State.setGroup_frond (i j : Nat) (x : McastGroup) : (s.setGroup i x).frond j = s.frond j := rfl
@[simp] theorem State.setGroup_sq (i j : Nat) (x : McastGroup) : (s.setGroup i x).sq j = s.sq j := rfl
@[simp] theorem State.setGroup_cq (i j : Nat) (x : McastGroup) : (s.setGroup i x).cq j = s.cq j := rfl
@[simp] theorem State.setGroup_mover (i j : Nat) (x : McastGroup) : (s.setGroup i x).mover j = s.mover j := rfl
@[simp] theorem State.setGroup_comp (i j : Nat) (x : McastGroup) : (s.setGroup i x).comp j = s.comp j := rfl
@[simp] theorem State.setGroup_tg (i j : Nat) (x : McastGroup) : (s.setGroup i x).tg j = s.tg j := rfl
@[simp] theorem State.setGroup_port (i j : Nat) (x : McastGroup) : (s.setGroup i x).port j = s.port j := rfl
@[simp] theorem State.setGroup_rx (i j : Nat) (x : McastGroup) : (s.setGroup i x).rx j = s.rx j := rfl
@[simp] theorem State.setGroup_panel (i j : Nat) (x : McastGroup) : (s.setGroup i x).panel j = s.panel j := rfl
@[simp] theorem State.setGroup_wear (i j : Nat) (x : McastGroup) : (s.setGroup i x).wear j = s.wear j := rfl
@[simp] theorem State.setGroup_out (i j : Nat) (x : McastGroup) : (s.setGroup i x).out j = s.out j := rfl
@[simp] theorem State.setGroup_stream (i j : Nat) (x : McastGroup) : (s.setGroup i x).stream j = s.stream j := rfl
@[simp] theorem State.setGroup_link (i j : Nat) (x : McastGroup) : (s.setGroup i x).link j = s.link j := rfl
@[simp] theorem State.setGroup_halo (i j : Nat) (x : McastGroup) : (s.setGroup i x).halo j = s.halo j := rfl
@[simp] theorem State.setGroup_tick (i j : Nat) (x : McastGroup) : (s.setGroup i x).tick j = s.tick j := rfl
@[simp] theorem State.setGroup_unit (i j : Nat) (x : McastGroup) : (s.setGroup i x).unit j = s.unit j := rfl
@[simp] theorem State.setGroup_domain (i j : Nat) (x : McastGroup) : (s.setGroup i x).domain j = s.domain j := rfl
@[simp] theorem State.setGroup_row (i j : Nat) (x : McastGroup) : (s.setGroup i x).row j = s.row j := rfl
@[simp] theorem State.setGroup_hbmc (i j : Nat) (x : McastGroup) : (s.setGroup i x).hbmc j = s.hbmc j := rfl
@[simp] theorem State.setGroup_strap (i : Nat) (x : McastGroup) : (s.setGroup i x).strap = s.strap := rfl
@[simp] theorem State.setGroup_ready (i : Nat) (x : McastGroup) : (s.setGroup i x).ready = s.ready := rfl
@[simp] theorem State.setGroup_configDefaulted (i : Nat) (x : McastGroup) : (s.setGroup i x).configDefaulted = s.configDefaulted := rfl
@[simp] theorem State.setGroup_boostSpent (i : Nat) (x : McastGroup) : (s.setGroup i x).boostSpent = s.boostSpent := rfl
@[simp] theorem State.setGroup_passThrough (i : Nat) (x : McastGroup) : (s.setGroup i x).passThrough = s.passThrough := rfl
@[simp] theorem State.setGroup_debugUnlocked (i : Nat) (x : McastGroup) : (s.setGroup i x).debugUnlocked = s.debugUnlocked := rfl
@[simp] theorem State.setGroup_image (i : Nat) (x : McastGroup) : (s.setGroup i x).image = s.image := rfl
@[simp] theorem State.setGroup_lockedWr (i : Nat) (x : McastGroup) : (s.setGroup i x).lockedWr = s.lockedWr := rfl
@[simp] theorem State.setGroup_mapRefused (i : Nat) (x : McastGroup) : (s.setGroup i x).mapRefused = s.mapRefused := rfl
@[simp] theorem State.setGroup_byteWr (i : Nat) (x : McastGroup) : (s.setGroup i x).byteWr = s.byteWr := rfl
@[simp] theorem State.setGroup_locks (i : Nat) (x : McastGroup) : (s.setGroup i x).locks = s.locks := rfl
@[simp] theorem State.setGroup_frondEn (i : Nat) (x : McastGroup) : (s.setGroup i x).frondEn = s.frondEn := rfl
@[simp] theorem State.setGroup_frondPwr (i : Nat) (x : McastGroup) : (s.setGroup i x).frondPwr = s.frondPwr := rfl
@[simp] theorem State.setGroup_dtb (i : Nat) (x : McastGroup) : (s.setGroup i x).dtb = s.dtb := rfl
@[simp] theorem State.setGroup_dtbSlew (i : Nat) (x : McastGroup) : (s.setGroup i x).dtbSlew = s.dtbSlew := rfl
@[simp] theorem State.setGroup_dtbFrac (i : Nat) (x : McastGroup) : (s.setGroup i x).dtbFrac = s.dtbFrac := rfl
@[simp] theorem State.setGroup_fresh (i : Nat) (x : McastGroup) : (s.setGroup i x).fresh = s.fresh := rfl
@[simp] theorem State.setGroup_readData (i : Nat) (x : McastGroup) : (s.setGroup i x).readData = s.readData := rfl
@[simp] theorem State.setGroup_hostShadow (i : Nat) (x : McastGroup) : (s.setGroup i x).hostShadow = s.hostShadow := rfl
@[simp] theorem State.setGroup_svcShadow (i : Nat) (x : McastGroup) : (s.setGroup i x).svcShadow = s.svcShadow := rfl
@[simp] theorem State.setGroup_writeShadow (i : Nat) (x : McastGroup) : (s.setGroup i x).writeShadow = s.writeShadow := rfl
@[simp] theorem State.setGroup_rows (i : Nat) (x : McastGroup) : (s.setGroup i x).rows = s.rows := rfl
@[simp] theorem State.setGroup_inert (i : Nat) (x : McastGroup) : (s.setGroup i x).inert = s.inert := rfl
@[simp] theorem State.setGroup_memEpoch (i : Nat) (x : McastGroup) : (s.setGroup i x).memEpoch = s.memEpoch := rfl
@[simp] theorem State.setGroup_hbm (i : Nat) (x : McastGroup) : (s.setGroup i x).hbm = s.hbm := rfl
@[simp] theorem State.setGroup_hbmPoison (i : Nat) (x : McastGroup) : (s.setGroup i x).hbmPoison = s.hbmPoison := rfl
@[simp] theorem State.setGroup_host (i : Nat) (x : McastGroup) : (s.setGroup i x).host = s.host := rfl
@[simp] theorem State.setGroup_absent (i : Nat) (x : McastGroup) : (s.setGroup i x).absent = s.absent := rfl
@[simp] theorem State.setGroup_readOnly (i : Nat) (x : McastGroup) : (s.setGroup i x).readOnly = s.readOnly := rfl
@[simp] theorem State.setGroup_pageReqs (i : Nat) (x : McastGroup) : (s.setGroup i x).pageReqs = s.pageReqs := rfl
@[simp] theorem State.setGroup_invalDone (i : Nat) (x : McastGroup) : (s.setGroup i x).invalDone = s.invalDone := rfl
@[simp] theorem State.setGroup_nextXfer (i : Nat) (x : McastGroup) : (s.setGroup i x).nextXfer = s.nextXfer := rfl
@[simp] theorem State.setGroup_commitCount (i : Nat) (x : McastGroup) : (s.setGroup i x).commitCount = s.commitCount := rfl
@[simp] theorem State.setGroup_commits (i : Nat) (x : McastGroup) : (s.setGroup i x).commits = s.commits := rfl
@[simp] theorem State.setGroup_hif (i : Nat) (x : McastGroup) : (s.setGroup i x).hif = s.hif := rfl
@[simp] theorem State.setGroup_ctxs (i : Nat) (x : McastGroup) : (s.setGroup i x).ctxs = s.ctxs := rfl
@[simp] theorem State.setGroup_ls (i : Nat) (x : McastGroup) : (s.setGroup i x).ls = s.ls := rfl
@[simp] theorem State.setGroup_fronds (i : Nat) (x : McastGroup) : (s.setGroup i x).fronds = s.fronds := rfl
@[simp] theorem State.setGroup_movers (i : Nat) (x : McastGroup) : (s.setGroup i x).movers = s.movers := rfl
@[simp] theorem State.setGroup_comps (i : Nat) (x : McastGroup) : (s.setGroup i x).comps = s.comps := rfl
@[simp] theorem State.setGroup_tgs (i : Nat) (x : McastGroup) : (s.setGroup i x).tgs = s.tgs := rfl
@[simp] theorem State.setGroup_raster (i : Nat) (x : McastGroup) : (s.setGroup i x).raster = s.raster := rfl
@[simp] theorem State.setGroup_dptx (i : Nat) (x : McastGroup) : (s.setGroup i x).dptx = s.dptx := rfl
@[simp] theorem State.setGroup_dprx (i : Nat) (x : McastGroup) : (s.setGroup i x).dprx = s.dprx := rfl
@[simp] theorem State.setGroup_panels (i : Nat) (x : McastGroup) : (s.setGroup i x).panels = s.panels := rfl
@[simp] theorem State.setGroup_pwu (i : Nat) (x : McastGroup) : (s.setGroup i x).pwu = s.pwu := rfl
@[simp] theorem State.setGroup_eeprom (i : Nat) (x : McastGroup) : (s.setGroup i x).eeprom = s.eeprom := rfl
@[simp] theorem State.setGroup_pmon (i : Nat) (x : McastGroup) : (s.setGroup i x).pmon = s.pmon := rfl
@[simp] theorem State.setGroup_ldl (i : Nat) (x : McastGroup) : (s.setGroup i x).ldl = s.ldl := rfl
@[simp] theorem State.setGroup_svc (i : Nat) (x : McastGroup) : (s.setGroup i x).svc = s.svc := rfl
@[simp] theorem State.setGroup_xspi (i : Nat) (x : McastGroup) : (s.setGroup i x).xspi = s.xspi := rfl
@[simp] theorem State.setGroup_pcie (i : Nat) (x : McastGroup) : (s.setGroup i x).pcie = s.pcie := rfl
@[simp] theorem State.setGroup_lwl (i : Nat) (x : McastGroup) : (s.setGroup i x).lwl = s.lwl := rfl
@[simp] theorem State.setGroup_power (i : Nat) (x : McastGroup) : (s.setGroup i x).power = s.power := rfl
@[simp] theorem State.setGroup_hbmCtl (i : Nat) (x : McastGroup) : (s.setGroup i x).hbmCtl = s.hbmCtl := rfl
@[simp] theorem State.setGroup_pins (i : Nat) (x : McastGroup) : (s.setGroup i x).pins = s.pins := rfl
@[simp] theorem State.setGroup_pending (i : Nat) (x : McastGroup) : (s.setGroup i x).pending = s.pending := rfl

/-! ### setLink -/

@[simp] theorem State.setLink_link (i : Nat) (x : Link) : (s.setLink i x).link i = x := Tbl.get_set_same _ _ _ _
@[simp] theorem State.setLink_link_other (i j : Nat) (x : Link) (h : j ≠ i) : (s.setLink i x).link j = s.link j := Tbl.get_set_other _ h _ _
@[simp] theorem State.setLink_ctx (i j : Nat) (x : Link) : (s.setLink i x).ctx j = s.ctx j := rfl
@[simp] theorem State.setLink_frond (i j : Nat) (x : Link) : (s.setLink i x).frond j = s.frond j := rfl
@[simp] theorem State.setLink_sq (i j : Nat) (x : Link) : (s.setLink i x).sq j = s.sq j := rfl
@[simp] theorem State.setLink_cq (i j : Nat) (x : Link) : (s.setLink i x).cq j = s.cq j := rfl
@[simp] theorem State.setLink_mover (i j : Nat) (x : Link) : (s.setLink i x).mover j = s.mover j := rfl
@[simp] theorem State.setLink_comp (i j : Nat) (x : Link) : (s.setLink i x).comp j = s.comp j := rfl
@[simp] theorem State.setLink_tg (i j : Nat) (x : Link) : (s.setLink i x).tg j = s.tg j := rfl
@[simp] theorem State.setLink_port (i j : Nat) (x : Link) : (s.setLink i x).port j = s.port j := rfl
@[simp] theorem State.setLink_rx (i j : Nat) (x : Link) : (s.setLink i x).rx j = s.rx j := rfl
@[simp] theorem State.setLink_panel (i j : Nat) (x : Link) : (s.setLink i x).panel j = s.panel j := rfl
@[simp] theorem State.setLink_wear (i j : Nat) (x : Link) : (s.setLink i x).wear j = s.wear j := rfl
@[simp] theorem State.setLink_out (i j : Nat) (x : Link) : (s.setLink i x).out j = s.out j := rfl
@[simp] theorem State.setLink_stream (i j : Nat) (x : Link) : (s.setLink i x).stream j = s.stream j := rfl
@[simp] theorem State.setLink_group (i j : Nat) (x : Link) : (s.setLink i x).group j = s.group j := rfl
@[simp] theorem State.setLink_halo (i j : Nat) (x : Link) : (s.setLink i x).halo j = s.halo j := rfl
@[simp] theorem State.setLink_tick (i j : Nat) (x : Link) : (s.setLink i x).tick j = s.tick j := rfl
@[simp] theorem State.setLink_unit (i j : Nat) (x : Link) : (s.setLink i x).unit j = s.unit j := rfl
@[simp] theorem State.setLink_domain (i j : Nat) (x : Link) : (s.setLink i x).domain j = s.domain j := rfl
@[simp] theorem State.setLink_row (i j : Nat) (x : Link) : (s.setLink i x).row j = s.row j := rfl
@[simp] theorem State.setLink_hbmc (i j : Nat) (x : Link) : (s.setLink i x).hbmc j = s.hbmc j := rfl
@[simp] theorem State.setLink_strap (i : Nat) (x : Link) : (s.setLink i x).strap = s.strap := rfl
@[simp] theorem State.setLink_ready (i : Nat) (x : Link) : (s.setLink i x).ready = s.ready := rfl
@[simp] theorem State.setLink_configDefaulted (i : Nat) (x : Link) : (s.setLink i x).configDefaulted = s.configDefaulted := rfl
@[simp] theorem State.setLink_boostSpent (i : Nat) (x : Link) : (s.setLink i x).boostSpent = s.boostSpent := rfl
@[simp] theorem State.setLink_passThrough (i : Nat) (x : Link) : (s.setLink i x).passThrough = s.passThrough := rfl
@[simp] theorem State.setLink_debugUnlocked (i : Nat) (x : Link) : (s.setLink i x).debugUnlocked = s.debugUnlocked := rfl
@[simp] theorem State.setLink_image (i : Nat) (x : Link) : (s.setLink i x).image = s.image := rfl
@[simp] theorem State.setLink_lockedWr (i : Nat) (x : Link) : (s.setLink i x).lockedWr = s.lockedWr := rfl
@[simp] theorem State.setLink_mapRefused (i : Nat) (x : Link) : (s.setLink i x).mapRefused = s.mapRefused := rfl
@[simp] theorem State.setLink_byteWr (i : Nat) (x : Link) : (s.setLink i x).byteWr = s.byteWr := rfl
@[simp] theorem State.setLink_locks (i : Nat) (x : Link) : (s.setLink i x).locks = s.locks := rfl
@[simp] theorem State.setLink_frondEn (i : Nat) (x : Link) : (s.setLink i x).frondEn = s.frondEn := rfl
@[simp] theorem State.setLink_frondPwr (i : Nat) (x : Link) : (s.setLink i x).frondPwr = s.frondPwr := rfl
@[simp] theorem State.setLink_dtb (i : Nat) (x : Link) : (s.setLink i x).dtb = s.dtb := rfl
@[simp] theorem State.setLink_dtbSlew (i : Nat) (x : Link) : (s.setLink i x).dtbSlew = s.dtbSlew := rfl
@[simp] theorem State.setLink_dtbFrac (i : Nat) (x : Link) : (s.setLink i x).dtbFrac = s.dtbFrac := rfl
@[simp] theorem State.setLink_fresh (i : Nat) (x : Link) : (s.setLink i x).fresh = s.fresh := rfl
@[simp] theorem State.setLink_readData (i : Nat) (x : Link) : (s.setLink i x).readData = s.readData := rfl
@[simp] theorem State.setLink_hostShadow (i : Nat) (x : Link) : (s.setLink i x).hostShadow = s.hostShadow := rfl
@[simp] theorem State.setLink_svcShadow (i : Nat) (x : Link) : (s.setLink i x).svcShadow = s.svcShadow := rfl
@[simp] theorem State.setLink_writeShadow (i : Nat) (x : Link) : (s.setLink i x).writeShadow = s.writeShadow := rfl
@[simp] theorem State.setLink_rows (i : Nat) (x : Link) : (s.setLink i x).rows = s.rows := rfl
@[simp] theorem State.setLink_inert (i : Nat) (x : Link) : (s.setLink i x).inert = s.inert := rfl
@[simp] theorem State.setLink_memEpoch (i : Nat) (x : Link) : (s.setLink i x).memEpoch = s.memEpoch := rfl
@[simp] theorem State.setLink_hbm (i : Nat) (x : Link) : (s.setLink i x).hbm = s.hbm := rfl
@[simp] theorem State.setLink_hbmPoison (i : Nat) (x : Link) : (s.setLink i x).hbmPoison = s.hbmPoison := rfl
@[simp] theorem State.setLink_host (i : Nat) (x : Link) : (s.setLink i x).host = s.host := rfl
@[simp] theorem State.setLink_absent (i : Nat) (x : Link) : (s.setLink i x).absent = s.absent := rfl
@[simp] theorem State.setLink_readOnly (i : Nat) (x : Link) : (s.setLink i x).readOnly = s.readOnly := rfl
@[simp] theorem State.setLink_pageReqs (i : Nat) (x : Link) : (s.setLink i x).pageReqs = s.pageReqs := rfl
@[simp] theorem State.setLink_invalDone (i : Nat) (x : Link) : (s.setLink i x).invalDone = s.invalDone := rfl
@[simp] theorem State.setLink_nextXfer (i : Nat) (x : Link) : (s.setLink i x).nextXfer = s.nextXfer := rfl
@[simp] theorem State.setLink_commitCount (i : Nat) (x : Link) : (s.setLink i x).commitCount = s.commitCount := rfl
@[simp] theorem State.setLink_commits (i : Nat) (x : Link) : (s.setLink i x).commits = s.commits := rfl
@[simp] theorem State.setLink_hif (i : Nat) (x : Link) : (s.setLink i x).hif = s.hif := rfl
@[simp] theorem State.setLink_ctxs (i : Nat) (x : Link) : (s.setLink i x).ctxs = s.ctxs := rfl
@[simp] theorem State.setLink_lsch (i : Nat) (x : Link) : (s.setLink i x).lsch = s.lsch := rfl
@[simp] theorem State.setLink_ls (i : Nat) (x : Link) : (s.setLink i x).ls = s.ls := rfl
@[simp] theorem State.setLink_fronds (i : Nat) (x : Link) : (s.setLink i x).fronds = s.fronds := rfl
@[simp] theorem State.setLink_movers (i : Nat) (x : Link) : (s.setLink i x).movers = s.movers := rfl
@[simp] theorem State.setLink_comps (i : Nat) (x : Link) : (s.setLink i x).comps = s.comps := rfl
@[simp] theorem State.setLink_tgs (i : Nat) (x : Link) : (s.setLink i x).tgs = s.tgs := rfl
@[simp] theorem State.setLink_raster (i : Nat) (x : Link) : (s.setLink i x).raster = s.raster := rfl
@[simp] theorem State.setLink_dptx (i : Nat) (x : Link) : (s.setLink i x).dptx = s.dptx := rfl
@[simp] theorem State.setLink_dprx (i : Nat) (x : Link) : (s.setLink i x).dprx = s.dprx := rfl
@[simp] theorem State.setLink_panels (i : Nat) (x : Link) : (s.setLink i x).panels = s.panels := rfl
@[simp] theorem State.setLink_pwu (i : Nat) (x : Link) : (s.setLink i x).pwu = s.pwu := rfl
@[simp] theorem State.setLink_eeprom (i : Nat) (x : Link) : (s.setLink i x).eeprom = s.eeprom := rfl
@[simp] theorem State.setLink_pmon (i : Nat) (x : Link) : (s.setLink i x).pmon = s.pmon := rfl
@[simp] theorem State.setLink_ldl (i : Nat) (x : Link) : (s.setLink i x).ldl = s.ldl := rfl
@[simp] theorem State.setLink_svc (i : Nat) (x : Link) : (s.setLink i x).svc = s.svc := rfl
@[simp] theorem State.setLink_xspi (i : Nat) (x : Link) : (s.setLink i x).xspi = s.xspi := rfl
@[simp] theorem State.setLink_pcie (i : Nat) (x : Link) : (s.setLink i x).pcie = s.pcie := rfl
@[simp] theorem State.setLink_power (i : Nat) (x : Link) : (s.setLink i x).power = s.power := rfl
@[simp] theorem State.setLink_hbmCtl (i : Nat) (x : Link) : (s.setLink i x).hbmCtl = s.hbmCtl := rfl
@[simp] theorem State.setLink_pins (i : Nat) (x : Link) : (s.setLink i x).pins = s.pins := rfl
@[simp] theorem State.setLink_pending (i : Nat) (x : Link) : (s.setLink i x).pending = s.pending := rfl

/-! ### setHalo -/

@[simp] theorem State.setHalo_halo (i : Nat) (x : Halo) : (s.setHalo i x).halo i = x := Tbl.get_set_same _ _ _ _
@[simp] theorem State.setHalo_halo_other (i j : Nat) (x : Halo) (h : j ≠ i) : (s.setHalo i x).halo j = s.halo j := Tbl.get_set_other _ h _ _
@[simp] theorem State.setHalo_ctx (i j : Nat) (x : Halo) : (s.setHalo i x).ctx j = s.ctx j := rfl
@[simp] theorem State.setHalo_frond (i j : Nat) (x : Halo) : (s.setHalo i x).frond j = s.frond j := rfl
@[simp] theorem State.setHalo_sq (i j : Nat) (x : Halo) : (s.setHalo i x).sq j = s.sq j := rfl
@[simp] theorem State.setHalo_cq (i j : Nat) (x : Halo) : (s.setHalo i x).cq j = s.cq j := rfl
@[simp] theorem State.setHalo_mover (i j : Nat) (x : Halo) : (s.setHalo i x).mover j = s.mover j := rfl
@[simp] theorem State.setHalo_comp (i j : Nat) (x : Halo) : (s.setHalo i x).comp j = s.comp j := rfl
@[simp] theorem State.setHalo_tg (i j : Nat) (x : Halo) : (s.setHalo i x).tg j = s.tg j := rfl
@[simp] theorem State.setHalo_port (i j : Nat) (x : Halo) : (s.setHalo i x).port j = s.port j := rfl
@[simp] theorem State.setHalo_rx (i j : Nat) (x : Halo) : (s.setHalo i x).rx j = s.rx j := rfl
@[simp] theorem State.setHalo_panel (i j : Nat) (x : Halo) : (s.setHalo i x).panel j = s.panel j := rfl
@[simp] theorem State.setHalo_wear (i j : Nat) (x : Halo) : (s.setHalo i x).wear j = s.wear j := rfl
@[simp] theorem State.setHalo_out (i j : Nat) (x : Halo) : (s.setHalo i x).out j = s.out j := rfl
@[simp] theorem State.setHalo_stream (i j : Nat) (x : Halo) : (s.setHalo i x).stream j = s.stream j := rfl
@[simp] theorem State.setHalo_group (i j : Nat) (x : Halo) : (s.setHalo i x).group j = s.group j := rfl
@[simp] theorem State.setHalo_link (i j : Nat) (x : Halo) : (s.setHalo i x).link j = s.link j := rfl
@[simp] theorem State.setHalo_tick (i j : Nat) (x : Halo) : (s.setHalo i x).tick j = s.tick j := rfl
@[simp] theorem State.setHalo_unit (i j : Nat) (x : Halo) : (s.setHalo i x).unit j = s.unit j := rfl
@[simp] theorem State.setHalo_domain (i j : Nat) (x : Halo) : (s.setHalo i x).domain j = s.domain j := rfl
@[simp] theorem State.setHalo_row (i j : Nat) (x : Halo) : (s.setHalo i x).row j = s.row j := rfl
@[simp] theorem State.setHalo_hbmc (i j : Nat) (x : Halo) : (s.setHalo i x).hbmc j = s.hbmc j := rfl
@[simp] theorem State.setHalo_strap (i : Nat) (x : Halo) : (s.setHalo i x).strap = s.strap := rfl
@[simp] theorem State.setHalo_ready (i : Nat) (x : Halo) : (s.setHalo i x).ready = s.ready := rfl
@[simp] theorem State.setHalo_configDefaulted (i : Nat) (x : Halo) : (s.setHalo i x).configDefaulted = s.configDefaulted := rfl
@[simp] theorem State.setHalo_boostSpent (i : Nat) (x : Halo) : (s.setHalo i x).boostSpent = s.boostSpent := rfl
@[simp] theorem State.setHalo_passThrough (i : Nat) (x : Halo) : (s.setHalo i x).passThrough = s.passThrough := rfl
@[simp] theorem State.setHalo_debugUnlocked (i : Nat) (x : Halo) : (s.setHalo i x).debugUnlocked = s.debugUnlocked := rfl
@[simp] theorem State.setHalo_image (i : Nat) (x : Halo) : (s.setHalo i x).image = s.image := rfl
@[simp] theorem State.setHalo_lockedWr (i : Nat) (x : Halo) : (s.setHalo i x).lockedWr = s.lockedWr := rfl
@[simp] theorem State.setHalo_mapRefused (i : Nat) (x : Halo) : (s.setHalo i x).mapRefused = s.mapRefused := rfl
@[simp] theorem State.setHalo_byteWr (i : Nat) (x : Halo) : (s.setHalo i x).byteWr = s.byteWr := rfl
@[simp] theorem State.setHalo_locks (i : Nat) (x : Halo) : (s.setHalo i x).locks = s.locks := rfl
@[simp] theorem State.setHalo_frondEn (i : Nat) (x : Halo) : (s.setHalo i x).frondEn = s.frondEn := rfl
@[simp] theorem State.setHalo_frondPwr (i : Nat) (x : Halo) : (s.setHalo i x).frondPwr = s.frondPwr := rfl
@[simp] theorem State.setHalo_dtb (i : Nat) (x : Halo) : (s.setHalo i x).dtb = s.dtb := rfl
@[simp] theorem State.setHalo_dtbSlew (i : Nat) (x : Halo) : (s.setHalo i x).dtbSlew = s.dtbSlew := rfl
@[simp] theorem State.setHalo_dtbFrac (i : Nat) (x : Halo) : (s.setHalo i x).dtbFrac = s.dtbFrac := rfl
@[simp] theorem State.setHalo_fresh (i : Nat) (x : Halo) : (s.setHalo i x).fresh = s.fresh := rfl
@[simp] theorem State.setHalo_readData (i : Nat) (x : Halo) : (s.setHalo i x).readData = s.readData := rfl
@[simp] theorem State.setHalo_hostShadow (i : Nat) (x : Halo) : (s.setHalo i x).hostShadow = s.hostShadow := rfl
@[simp] theorem State.setHalo_svcShadow (i : Nat) (x : Halo) : (s.setHalo i x).svcShadow = s.svcShadow := rfl
@[simp] theorem State.setHalo_writeShadow (i : Nat) (x : Halo) : (s.setHalo i x).writeShadow = s.writeShadow := rfl
@[simp] theorem State.setHalo_rows (i : Nat) (x : Halo) : (s.setHalo i x).rows = s.rows := rfl
@[simp] theorem State.setHalo_inert (i : Nat) (x : Halo) : (s.setHalo i x).inert = s.inert := rfl
@[simp] theorem State.setHalo_memEpoch (i : Nat) (x : Halo) : (s.setHalo i x).memEpoch = s.memEpoch := rfl
@[simp] theorem State.setHalo_hbm (i : Nat) (x : Halo) : (s.setHalo i x).hbm = s.hbm := rfl
@[simp] theorem State.setHalo_hbmPoison (i : Nat) (x : Halo) : (s.setHalo i x).hbmPoison = s.hbmPoison := rfl
@[simp] theorem State.setHalo_host (i : Nat) (x : Halo) : (s.setHalo i x).host = s.host := rfl
@[simp] theorem State.setHalo_absent (i : Nat) (x : Halo) : (s.setHalo i x).absent = s.absent := rfl
@[simp] theorem State.setHalo_readOnly (i : Nat) (x : Halo) : (s.setHalo i x).readOnly = s.readOnly := rfl
@[simp] theorem State.setHalo_pageReqs (i : Nat) (x : Halo) : (s.setHalo i x).pageReqs = s.pageReqs := rfl
@[simp] theorem State.setHalo_invalDone (i : Nat) (x : Halo) : (s.setHalo i x).invalDone = s.invalDone := rfl
@[simp] theorem State.setHalo_nextXfer (i : Nat) (x : Halo) : (s.setHalo i x).nextXfer = s.nextXfer := rfl
@[simp] theorem State.setHalo_commitCount (i : Nat) (x : Halo) : (s.setHalo i x).commitCount = s.commitCount := rfl
@[simp] theorem State.setHalo_commits (i : Nat) (x : Halo) : (s.setHalo i x).commits = s.commits := rfl
@[simp] theorem State.setHalo_hif (i : Nat) (x : Halo) : (s.setHalo i x).hif = s.hif := rfl
@[simp] theorem State.setHalo_ctxs (i : Nat) (x : Halo) : (s.setHalo i x).ctxs = s.ctxs := rfl
@[simp] theorem State.setHalo_lsch (i : Nat) (x : Halo) : (s.setHalo i x).lsch = s.lsch := rfl
@[simp] theorem State.setHalo_ls (i : Nat) (x : Halo) : (s.setHalo i x).ls = s.ls := rfl
@[simp] theorem State.setHalo_fronds (i : Nat) (x : Halo) : (s.setHalo i x).fronds = s.fronds := rfl
@[simp] theorem State.setHalo_movers (i : Nat) (x : Halo) : (s.setHalo i x).movers = s.movers := rfl
@[simp] theorem State.setHalo_comps (i : Nat) (x : Halo) : (s.setHalo i x).comps = s.comps := rfl
@[simp] theorem State.setHalo_tgs (i : Nat) (x : Halo) : (s.setHalo i x).tgs = s.tgs := rfl
@[simp] theorem State.setHalo_raster (i : Nat) (x : Halo) : (s.setHalo i x).raster = s.raster := rfl
@[simp] theorem State.setHalo_dptx (i : Nat) (x : Halo) : (s.setHalo i x).dptx = s.dptx := rfl
@[simp] theorem State.setHalo_dprx (i : Nat) (x : Halo) : (s.setHalo i x).dprx = s.dprx := rfl
@[simp] theorem State.setHalo_panels (i : Nat) (x : Halo) : (s.setHalo i x).panels = s.panels := rfl
@[simp] theorem State.setHalo_pwu (i : Nat) (x : Halo) : (s.setHalo i x).pwu = s.pwu := rfl
@[simp] theorem State.setHalo_eeprom (i : Nat) (x : Halo) : (s.setHalo i x).eeprom = s.eeprom := rfl
@[simp] theorem State.setHalo_pmon (i : Nat) (x : Halo) : (s.setHalo i x).pmon = s.pmon := rfl
@[simp] theorem State.setHalo_ldl (i : Nat) (x : Halo) : (s.setHalo i x).ldl = s.ldl := rfl
@[simp] theorem State.setHalo_svc (i : Nat) (x : Halo) : (s.setHalo i x).svc = s.svc := rfl
@[simp] theorem State.setHalo_xspi (i : Nat) (x : Halo) : (s.setHalo i x).xspi = s.xspi := rfl
@[simp] theorem State.setHalo_pcie (i : Nat) (x : Halo) : (s.setHalo i x).pcie = s.pcie := rfl
@[simp] theorem State.setHalo_power (i : Nat) (x : Halo) : (s.setHalo i x).power = s.power := rfl
@[simp] theorem State.setHalo_hbmCtl (i : Nat) (x : Halo) : (s.setHalo i x).hbmCtl = s.hbmCtl := rfl
@[simp] theorem State.setHalo_pins (i : Nat) (x : Halo) : (s.setHalo i x).pins = s.pins := rfl
@[simp] theorem State.setHalo_pending (i : Nat) (x : Halo) : (s.setHalo i x).pending = s.pending := rfl

/-! ### setTick -/

@[simp] theorem State.setTick_tick (i : Nat) (x : FollowTick) : (s.setTick i x).tick i = x := Tbl.get_set_same _ _ _ _
@[simp] theorem State.setTick_tick_other (i j : Nat) (x : FollowTick) (h : j ≠ i) : (s.setTick i x).tick j = s.tick j := Tbl.get_set_other _ h _ _
@[simp] theorem State.setTick_ctx (i j : Nat) (x : FollowTick) : (s.setTick i x).ctx j = s.ctx j := rfl
@[simp] theorem State.setTick_frond (i j : Nat) (x : FollowTick) : (s.setTick i x).frond j = s.frond j := rfl
@[simp] theorem State.setTick_sq (i j : Nat) (x : FollowTick) : (s.setTick i x).sq j = s.sq j := rfl
@[simp] theorem State.setTick_cq (i j : Nat) (x : FollowTick) : (s.setTick i x).cq j = s.cq j := rfl
@[simp] theorem State.setTick_mover (i j : Nat) (x : FollowTick) : (s.setTick i x).mover j = s.mover j := rfl
@[simp] theorem State.setTick_comp (i j : Nat) (x : FollowTick) : (s.setTick i x).comp j = s.comp j := rfl
@[simp] theorem State.setTick_tg (i j : Nat) (x : FollowTick) : (s.setTick i x).tg j = s.tg j := rfl
@[simp] theorem State.setTick_port (i j : Nat) (x : FollowTick) : (s.setTick i x).port j = s.port j := rfl
@[simp] theorem State.setTick_rx (i j : Nat) (x : FollowTick) : (s.setTick i x).rx j = s.rx j := rfl
@[simp] theorem State.setTick_panel (i j : Nat) (x : FollowTick) : (s.setTick i x).panel j = s.panel j := rfl
@[simp] theorem State.setTick_wear (i j : Nat) (x : FollowTick) : (s.setTick i x).wear j = s.wear j := rfl
@[simp] theorem State.setTick_out (i j : Nat) (x : FollowTick) : (s.setTick i x).out j = s.out j := rfl
@[simp] theorem State.setTick_stream (i j : Nat) (x : FollowTick) : (s.setTick i x).stream j = s.stream j := rfl
@[simp] theorem State.setTick_group (i j : Nat) (x : FollowTick) : (s.setTick i x).group j = s.group j := rfl
@[simp] theorem State.setTick_link (i j : Nat) (x : FollowTick) : (s.setTick i x).link j = s.link j := rfl
@[simp] theorem State.setTick_halo (i j : Nat) (x : FollowTick) : (s.setTick i x).halo j = s.halo j := rfl
@[simp] theorem State.setTick_unit (i j : Nat) (x : FollowTick) : (s.setTick i x).unit j = s.unit j := rfl
@[simp] theorem State.setTick_domain (i j : Nat) (x : FollowTick) : (s.setTick i x).domain j = s.domain j := rfl
@[simp] theorem State.setTick_row (i j : Nat) (x : FollowTick) : (s.setTick i x).row j = s.row j := rfl
@[simp] theorem State.setTick_hbmc (i j : Nat) (x : FollowTick) : (s.setTick i x).hbmc j = s.hbmc j := rfl
@[simp] theorem State.setTick_strap (i : Nat) (x : FollowTick) : (s.setTick i x).strap = s.strap := rfl
@[simp] theorem State.setTick_ready (i : Nat) (x : FollowTick) : (s.setTick i x).ready = s.ready := rfl
@[simp] theorem State.setTick_configDefaulted (i : Nat) (x : FollowTick) : (s.setTick i x).configDefaulted = s.configDefaulted := rfl
@[simp] theorem State.setTick_boostSpent (i : Nat) (x : FollowTick) : (s.setTick i x).boostSpent = s.boostSpent := rfl
@[simp] theorem State.setTick_passThrough (i : Nat) (x : FollowTick) : (s.setTick i x).passThrough = s.passThrough := rfl
@[simp] theorem State.setTick_debugUnlocked (i : Nat) (x : FollowTick) : (s.setTick i x).debugUnlocked = s.debugUnlocked := rfl
@[simp] theorem State.setTick_image (i : Nat) (x : FollowTick) : (s.setTick i x).image = s.image := rfl
@[simp] theorem State.setTick_lockedWr (i : Nat) (x : FollowTick) : (s.setTick i x).lockedWr = s.lockedWr := rfl
@[simp] theorem State.setTick_mapRefused (i : Nat) (x : FollowTick) : (s.setTick i x).mapRefused = s.mapRefused := rfl
@[simp] theorem State.setTick_byteWr (i : Nat) (x : FollowTick) : (s.setTick i x).byteWr = s.byteWr := rfl
@[simp] theorem State.setTick_locks (i : Nat) (x : FollowTick) : (s.setTick i x).locks = s.locks := rfl
@[simp] theorem State.setTick_frondEn (i : Nat) (x : FollowTick) : (s.setTick i x).frondEn = s.frondEn := rfl
@[simp] theorem State.setTick_frondPwr (i : Nat) (x : FollowTick) : (s.setTick i x).frondPwr = s.frondPwr := rfl
@[simp] theorem State.setTick_dtb (i : Nat) (x : FollowTick) : (s.setTick i x).dtb = s.dtb := rfl
@[simp] theorem State.setTick_dtbSlew (i : Nat) (x : FollowTick) : (s.setTick i x).dtbSlew = s.dtbSlew := rfl
@[simp] theorem State.setTick_dtbFrac (i : Nat) (x : FollowTick) : (s.setTick i x).dtbFrac = s.dtbFrac := rfl
@[simp] theorem State.setTick_fresh (i : Nat) (x : FollowTick) : (s.setTick i x).fresh = s.fresh := rfl
@[simp] theorem State.setTick_readData (i : Nat) (x : FollowTick) : (s.setTick i x).readData = s.readData := rfl
@[simp] theorem State.setTick_hostShadow (i : Nat) (x : FollowTick) : (s.setTick i x).hostShadow = s.hostShadow := rfl
@[simp] theorem State.setTick_svcShadow (i : Nat) (x : FollowTick) : (s.setTick i x).svcShadow = s.svcShadow := rfl
@[simp] theorem State.setTick_writeShadow (i : Nat) (x : FollowTick) : (s.setTick i x).writeShadow = s.writeShadow := rfl
@[simp] theorem State.setTick_rows (i : Nat) (x : FollowTick) : (s.setTick i x).rows = s.rows := rfl
@[simp] theorem State.setTick_inert (i : Nat) (x : FollowTick) : (s.setTick i x).inert = s.inert := rfl
@[simp] theorem State.setTick_memEpoch (i : Nat) (x : FollowTick) : (s.setTick i x).memEpoch = s.memEpoch := rfl
@[simp] theorem State.setTick_hbm (i : Nat) (x : FollowTick) : (s.setTick i x).hbm = s.hbm := rfl
@[simp] theorem State.setTick_hbmPoison (i : Nat) (x : FollowTick) : (s.setTick i x).hbmPoison = s.hbmPoison := rfl
@[simp] theorem State.setTick_host (i : Nat) (x : FollowTick) : (s.setTick i x).host = s.host := rfl
@[simp] theorem State.setTick_absent (i : Nat) (x : FollowTick) : (s.setTick i x).absent = s.absent := rfl
@[simp] theorem State.setTick_readOnly (i : Nat) (x : FollowTick) : (s.setTick i x).readOnly = s.readOnly := rfl
@[simp] theorem State.setTick_pageReqs (i : Nat) (x : FollowTick) : (s.setTick i x).pageReqs = s.pageReqs := rfl
@[simp] theorem State.setTick_invalDone (i : Nat) (x : FollowTick) : (s.setTick i x).invalDone = s.invalDone := rfl
@[simp] theorem State.setTick_nextXfer (i : Nat) (x : FollowTick) : (s.setTick i x).nextXfer = s.nextXfer := rfl
@[simp] theorem State.setTick_commitCount (i : Nat) (x : FollowTick) : (s.setTick i x).commitCount = s.commitCount := rfl
@[simp] theorem State.setTick_commits (i : Nat) (x : FollowTick) : (s.setTick i x).commits = s.commits := rfl
@[simp] theorem State.setTick_hif (i : Nat) (x : FollowTick) : (s.setTick i x).hif = s.hif := rfl
@[simp] theorem State.setTick_ctxs (i : Nat) (x : FollowTick) : (s.setTick i x).ctxs = s.ctxs := rfl
@[simp] theorem State.setTick_lsch (i : Nat) (x : FollowTick) : (s.setTick i x).lsch = s.lsch := rfl
@[simp] theorem State.setTick_ls (i : Nat) (x : FollowTick) : (s.setTick i x).ls = s.ls := rfl
@[simp] theorem State.setTick_fronds (i : Nat) (x : FollowTick) : (s.setTick i x).fronds = s.fronds := rfl
@[simp] theorem State.setTick_movers (i : Nat) (x : FollowTick) : (s.setTick i x).movers = s.movers := rfl
@[simp] theorem State.setTick_comps (i : Nat) (x : FollowTick) : (s.setTick i x).comps = s.comps := rfl
@[simp] theorem State.setTick_tgs (i : Nat) (x : FollowTick) : (s.setTick i x).tgs = s.tgs := rfl
@[simp] theorem State.setTick_raster (i : Nat) (x : FollowTick) : (s.setTick i x).raster = s.raster := rfl
@[simp] theorem State.setTick_dptx (i : Nat) (x : FollowTick) : (s.setTick i x).dptx = s.dptx := rfl
@[simp] theorem State.setTick_dprx (i : Nat) (x : FollowTick) : (s.setTick i x).dprx = s.dprx := rfl
@[simp] theorem State.setTick_panels (i : Nat) (x : FollowTick) : (s.setTick i x).panels = s.panels := rfl
@[simp] theorem State.setTick_pwu (i : Nat) (x : FollowTick) : (s.setTick i x).pwu = s.pwu := rfl
@[simp] theorem State.setTick_eeprom (i : Nat) (x : FollowTick) : (s.setTick i x).eeprom = s.eeprom := rfl
@[simp] theorem State.setTick_pmon (i : Nat) (x : FollowTick) : (s.setTick i x).pmon = s.pmon := rfl
@[simp] theorem State.setTick_ldl (i : Nat) (x : FollowTick) : (s.setTick i x).ldl = s.ldl := rfl
@[simp] theorem State.setTick_svc (i : Nat) (x : FollowTick) : (s.setTick i x).svc = s.svc := rfl
@[simp] theorem State.setTick_xspi (i : Nat) (x : FollowTick) : (s.setTick i x).xspi = s.xspi := rfl
@[simp] theorem State.setTick_pcie (i : Nat) (x : FollowTick) : (s.setTick i x).pcie = s.pcie := rfl
@[simp] theorem State.setTick_power (i : Nat) (x : FollowTick) : (s.setTick i x).power = s.power := rfl
@[simp] theorem State.setTick_hbmCtl (i : Nat) (x : FollowTick) : (s.setTick i x).hbmCtl = s.hbmCtl := rfl
@[simp] theorem State.setTick_pins (i : Nat) (x : FollowTick) : (s.setTick i x).pins = s.pins := rfl
@[simp] theorem State.setTick_pending (i : Nat) (x : FollowTick) : (s.setTick i x).pending = s.pending := rfl

/-! ### setUnit -/

@[simp] theorem State.setUnit_unit (i : Nat) (x : Sampler) : (s.setUnit i x).unit i = x := Tbl.get_set_same _ _ _ _
@[simp] theorem State.setUnit_unit_other (i j : Nat) (x : Sampler) (h : j ≠ i) : (s.setUnit i x).unit j = s.unit j := Tbl.get_set_other _ h _ _
@[simp] theorem State.setUnit_ctx (i j : Nat) (x : Sampler) : (s.setUnit i x).ctx j = s.ctx j := rfl
@[simp] theorem State.setUnit_frond (i j : Nat) (x : Sampler) : (s.setUnit i x).frond j = s.frond j := rfl
@[simp] theorem State.setUnit_sq (i j : Nat) (x : Sampler) : (s.setUnit i x).sq j = s.sq j := rfl
@[simp] theorem State.setUnit_cq (i j : Nat) (x : Sampler) : (s.setUnit i x).cq j = s.cq j := rfl
@[simp] theorem State.setUnit_mover (i j : Nat) (x : Sampler) : (s.setUnit i x).mover j = s.mover j := rfl
@[simp] theorem State.setUnit_comp (i j : Nat) (x : Sampler) : (s.setUnit i x).comp j = s.comp j := rfl
@[simp] theorem State.setUnit_tg (i j : Nat) (x : Sampler) : (s.setUnit i x).tg j = s.tg j := rfl
@[simp] theorem State.setUnit_port (i j : Nat) (x : Sampler) : (s.setUnit i x).port j = s.port j := rfl
@[simp] theorem State.setUnit_rx (i j : Nat) (x : Sampler) : (s.setUnit i x).rx j = s.rx j := rfl
@[simp] theorem State.setUnit_panel (i j : Nat) (x : Sampler) : (s.setUnit i x).panel j = s.panel j := rfl
@[simp] theorem State.setUnit_wear (i j : Nat) (x : Sampler) : (s.setUnit i x).wear j = s.wear j := rfl
@[simp] theorem State.setUnit_out (i j : Nat) (x : Sampler) : (s.setUnit i x).out j = s.out j := rfl
@[simp] theorem State.setUnit_stream (i j : Nat) (x : Sampler) : (s.setUnit i x).stream j = s.stream j := rfl
@[simp] theorem State.setUnit_group (i j : Nat) (x : Sampler) : (s.setUnit i x).group j = s.group j := rfl
@[simp] theorem State.setUnit_link (i j : Nat) (x : Sampler) : (s.setUnit i x).link j = s.link j := rfl
@[simp] theorem State.setUnit_halo (i j : Nat) (x : Sampler) : (s.setUnit i x).halo j = s.halo j := rfl
@[simp] theorem State.setUnit_tick (i j : Nat) (x : Sampler) : (s.setUnit i x).tick j = s.tick j := rfl
@[simp] theorem State.setUnit_domain (i j : Nat) (x : Sampler) : (s.setUnit i x).domain j = s.domain j := rfl
@[simp] theorem State.setUnit_row (i j : Nat) (x : Sampler) : (s.setUnit i x).row j = s.row j := rfl
@[simp] theorem State.setUnit_hbmc (i j : Nat) (x : Sampler) : (s.setUnit i x).hbmc j = s.hbmc j := rfl
@[simp] theorem State.setUnit_strap (i : Nat) (x : Sampler) : (s.setUnit i x).strap = s.strap := rfl
@[simp] theorem State.setUnit_ready (i : Nat) (x : Sampler) : (s.setUnit i x).ready = s.ready := rfl
@[simp] theorem State.setUnit_configDefaulted (i : Nat) (x : Sampler) : (s.setUnit i x).configDefaulted = s.configDefaulted := rfl
@[simp] theorem State.setUnit_boostSpent (i : Nat) (x : Sampler) : (s.setUnit i x).boostSpent = s.boostSpent := rfl
@[simp] theorem State.setUnit_passThrough (i : Nat) (x : Sampler) : (s.setUnit i x).passThrough = s.passThrough := rfl
@[simp] theorem State.setUnit_debugUnlocked (i : Nat) (x : Sampler) : (s.setUnit i x).debugUnlocked = s.debugUnlocked := rfl
@[simp] theorem State.setUnit_image (i : Nat) (x : Sampler) : (s.setUnit i x).image = s.image := rfl
@[simp] theorem State.setUnit_lockedWr (i : Nat) (x : Sampler) : (s.setUnit i x).lockedWr = s.lockedWr := rfl
@[simp] theorem State.setUnit_mapRefused (i : Nat) (x : Sampler) : (s.setUnit i x).mapRefused = s.mapRefused := rfl
@[simp] theorem State.setUnit_byteWr (i : Nat) (x : Sampler) : (s.setUnit i x).byteWr = s.byteWr := rfl
@[simp] theorem State.setUnit_locks (i : Nat) (x : Sampler) : (s.setUnit i x).locks = s.locks := rfl
@[simp] theorem State.setUnit_frondEn (i : Nat) (x : Sampler) : (s.setUnit i x).frondEn = s.frondEn := rfl
@[simp] theorem State.setUnit_frondPwr (i : Nat) (x : Sampler) : (s.setUnit i x).frondPwr = s.frondPwr := rfl
@[simp] theorem State.setUnit_dtb (i : Nat) (x : Sampler) : (s.setUnit i x).dtb = s.dtb := rfl
@[simp] theorem State.setUnit_dtbSlew (i : Nat) (x : Sampler) : (s.setUnit i x).dtbSlew = s.dtbSlew := rfl
@[simp] theorem State.setUnit_dtbFrac (i : Nat) (x : Sampler) : (s.setUnit i x).dtbFrac = s.dtbFrac := rfl
@[simp] theorem State.setUnit_fresh (i : Nat) (x : Sampler) : (s.setUnit i x).fresh = s.fresh := rfl
@[simp] theorem State.setUnit_readData (i : Nat) (x : Sampler) : (s.setUnit i x).readData = s.readData := rfl
@[simp] theorem State.setUnit_hostShadow (i : Nat) (x : Sampler) : (s.setUnit i x).hostShadow = s.hostShadow := rfl
@[simp] theorem State.setUnit_svcShadow (i : Nat) (x : Sampler) : (s.setUnit i x).svcShadow = s.svcShadow := rfl
@[simp] theorem State.setUnit_writeShadow (i : Nat) (x : Sampler) : (s.setUnit i x).writeShadow = s.writeShadow := rfl
@[simp] theorem State.setUnit_rows (i : Nat) (x : Sampler) : (s.setUnit i x).rows = s.rows := rfl
@[simp] theorem State.setUnit_inert (i : Nat) (x : Sampler) : (s.setUnit i x).inert = s.inert := rfl
@[simp] theorem State.setUnit_memEpoch (i : Nat) (x : Sampler) : (s.setUnit i x).memEpoch = s.memEpoch := rfl
@[simp] theorem State.setUnit_hbm (i : Nat) (x : Sampler) : (s.setUnit i x).hbm = s.hbm := rfl
@[simp] theorem State.setUnit_hbmPoison (i : Nat) (x : Sampler) : (s.setUnit i x).hbmPoison = s.hbmPoison := rfl
@[simp] theorem State.setUnit_host (i : Nat) (x : Sampler) : (s.setUnit i x).host = s.host := rfl
@[simp] theorem State.setUnit_absent (i : Nat) (x : Sampler) : (s.setUnit i x).absent = s.absent := rfl
@[simp] theorem State.setUnit_readOnly (i : Nat) (x : Sampler) : (s.setUnit i x).readOnly = s.readOnly := rfl
@[simp] theorem State.setUnit_pageReqs (i : Nat) (x : Sampler) : (s.setUnit i x).pageReqs = s.pageReqs := rfl
@[simp] theorem State.setUnit_invalDone (i : Nat) (x : Sampler) : (s.setUnit i x).invalDone = s.invalDone := rfl
@[simp] theorem State.setUnit_nextXfer (i : Nat) (x : Sampler) : (s.setUnit i x).nextXfer = s.nextXfer := rfl
@[simp] theorem State.setUnit_commitCount (i : Nat) (x : Sampler) : (s.setUnit i x).commitCount = s.commitCount := rfl
@[simp] theorem State.setUnit_commits (i : Nat) (x : Sampler) : (s.setUnit i x).commits = s.commits := rfl
@[simp] theorem State.setUnit_hif (i : Nat) (x : Sampler) : (s.setUnit i x).hif = s.hif := rfl
@[simp] theorem State.setUnit_ctxs (i : Nat) (x : Sampler) : (s.setUnit i x).ctxs = s.ctxs := rfl
@[simp] theorem State.setUnit_lsch (i : Nat) (x : Sampler) : (s.setUnit i x).lsch = s.lsch := rfl
@[simp] theorem State.setUnit_ls (i : Nat) (x : Sampler) : (s.setUnit i x).ls = s.ls := rfl
@[simp] theorem State.setUnit_fronds (i : Nat) (x : Sampler) : (s.setUnit i x).fronds = s.fronds := rfl
@[simp] theorem State.setUnit_movers (i : Nat) (x : Sampler) : (s.setUnit i x).movers = s.movers := rfl
@[simp] theorem State.setUnit_comps (i : Nat) (x : Sampler) : (s.setUnit i x).comps = s.comps := rfl
@[simp] theorem State.setUnit_tgs (i : Nat) (x : Sampler) : (s.setUnit i x).tgs = s.tgs := rfl
@[simp] theorem State.setUnit_raster (i : Nat) (x : Sampler) : (s.setUnit i x).raster = s.raster := rfl
@[simp] theorem State.setUnit_dptx (i : Nat) (x : Sampler) : (s.setUnit i x).dptx = s.dptx := rfl
@[simp] theorem State.setUnit_dprx (i : Nat) (x : Sampler) : (s.setUnit i x).dprx = s.dprx := rfl
@[simp] theorem State.setUnit_panels (i : Nat) (x : Sampler) : (s.setUnit i x).panels = s.panels := rfl
@[simp] theorem State.setUnit_pwu (i : Nat) (x : Sampler) : (s.setUnit i x).pwu = s.pwu := rfl
@[simp] theorem State.setUnit_eeprom (i : Nat) (x : Sampler) : (s.setUnit i x).eeprom = s.eeprom := rfl
@[simp] theorem State.setUnit_ldl (i : Nat) (x : Sampler) : (s.setUnit i x).ldl = s.ldl := rfl
@[simp] theorem State.setUnit_svc (i : Nat) (x : Sampler) : (s.setUnit i x).svc = s.svc := rfl
@[simp] theorem State.setUnit_xspi (i : Nat) (x : Sampler) : (s.setUnit i x).xspi = s.xspi := rfl
@[simp] theorem State.setUnit_pcie (i : Nat) (x : Sampler) : (s.setUnit i x).pcie = s.pcie := rfl
@[simp] theorem State.setUnit_lwl (i : Nat) (x : Sampler) : (s.setUnit i x).lwl = s.lwl := rfl
@[simp] theorem State.setUnit_power (i : Nat) (x : Sampler) : (s.setUnit i x).power = s.power := rfl
@[simp] theorem State.setUnit_hbmCtl (i : Nat) (x : Sampler) : (s.setUnit i x).hbmCtl = s.hbmCtl := rfl
@[simp] theorem State.setUnit_pins (i : Nat) (x : Sampler) : (s.setUnit i x).pins = s.pins := rfl
@[simp] theorem State.setUnit_pending (i : Nat) (x : Sampler) : (s.setUnit i x).pending = s.pending := rfl

/-! ### setDomain -/

@[simp] theorem State.setDomain_domain (i : Nat) (x : Domain) : (s.setDomain i x).domain i = x := Tbl.get_set_same _ _ _ _
@[simp] theorem State.setDomain_domain_other (i j : Nat) (x : Domain) (h : j ≠ i) : (s.setDomain i x).domain j = s.domain j := Tbl.get_set_other _ h _ _
@[simp] theorem State.setDomain_ctx (i j : Nat) (x : Domain) : (s.setDomain i x).ctx j = s.ctx j := rfl
@[simp] theorem State.setDomain_frond (i j : Nat) (x : Domain) : (s.setDomain i x).frond j = s.frond j := rfl
@[simp] theorem State.setDomain_sq (i j : Nat) (x : Domain) : (s.setDomain i x).sq j = s.sq j := rfl
@[simp] theorem State.setDomain_cq (i j : Nat) (x : Domain) : (s.setDomain i x).cq j = s.cq j := rfl
@[simp] theorem State.setDomain_mover (i j : Nat) (x : Domain) : (s.setDomain i x).mover j = s.mover j := rfl
@[simp] theorem State.setDomain_comp (i j : Nat) (x : Domain) : (s.setDomain i x).comp j = s.comp j := rfl
@[simp] theorem State.setDomain_tg (i j : Nat) (x : Domain) : (s.setDomain i x).tg j = s.tg j := rfl
@[simp] theorem State.setDomain_port (i j : Nat) (x : Domain) : (s.setDomain i x).port j = s.port j := rfl
@[simp] theorem State.setDomain_rx (i j : Nat) (x : Domain) : (s.setDomain i x).rx j = s.rx j := rfl
@[simp] theorem State.setDomain_panel (i j : Nat) (x : Domain) : (s.setDomain i x).panel j = s.panel j := rfl
@[simp] theorem State.setDomain_wear (i j : Nat) (x : Domain) : (s.setDomain i x).wear j = s.wear j := rfl
@[simp] theorem State.setDomain_out (i j : Nat) (x : Domain) : (s.setDomain i x).out j = s.out j := rfl
@[simp] theorem State.setDomain_stream (i j : Nat) (x : Domain) : (s.setDomain i x).stream j = s.stream j := rfl
@[simp] theorem State.setDomain_group (i j : Nat) (x : Domain) : (s.setDomain i x).group j = s.group j := rfl
@[simp] theorem State.setDomain_link (i j : Nat) (x : Domain) : (s.setDomain i x).link j = s.link j := rfl
@[simp] theorem State.setDomain_halo (i j : Nat) (x : Domain) : (s.setDomain i x).halo j = s.halo j := rfl
@[simp] theorem State.setDomain_tick (i j : Nat) (x : Domain) : (s.setDomain i x).tick j = s.tick j := rfl
@[simp] theorem State.setDomain_unit (i j : Nat) (x : Domain) : (s.setDomain i x).unit j = s.unit j := rfl
@[simp] theorem State.setDomain_row (i j : Nat) (x : Domain) : (s.setDomain i x).row j = s.row j := rfl
@[simp] theorem State.setDomain_hbmc (i j : Nat) (x : Domain) : (s.setDomain i x).hbmc j = s.hbmc j := rfl
@[simp] theorem State.setDomain_strap (i : Nat) (x : Domain) : (s.setDomain i x).strap = s.strap := rfl
@[simp] theorem State.setDomain_ready (i : Nat) (x : Domain) : (s.setDomain i x).ready = s.ready := rfl
@[simp] theorem State.setDomain_configDefaulted (i : Nat) (x : Domain) : (s.setDomain i x).configDefaulted = s.configDefaulted := rfl
@[simp] theorem State.setDomain_boostSpent (i : Nat) (x : Domain) : (s.setDomain i x).boostSpent = s.boostSpent := rfl
@[simp] theorem State.setDomain_passThrough (i : Nat) (x : Domain) : (s.setDomain i x).passThrough = s.passThrough := rfl
@[simp] theorem State.setDomain_debugUnlocked (i : Nat) (x : Domain) : (s.setDomain i x).debugUnlocked = s.debugUnlocked := rfl
@[simp] theorem State.setDomain_image (i : Nat) (x : Domain) : (s.setDomain i x).image = s.image := rfl
@[simp] theorem State.setDomain_lockedWr (i : Nat) (x : Domain) : (s.setDomain i x).lockedWr = s.lockedWr := rfl
@[simp] theorem State.setDomain_mapRefused (i : Nat) (x : Domain) : (s.setDomain i x).mapRefused = s.mapRefused := rfl
@[simp] theorem State.setDomain_byteWr (i : Nat) (x : Domain) : (s.setDomain i x).byteWr = s.byteWr := rfl
@[simp] theorem State.setDomain_locks (i : Nat) (x : Domain) : (s.setDomain i x).locks = s.locks := rfl
@[simp] theorem State.setDomain_frondEn (i : Nat) (x : Domain) : (s.setDomain i x).frondEn = s.frondEn := rfl
@[simp] theorem State.setDomain_frondPwr (i : Nat) (x : Domain) : (s.setDomain i x).frondPwr = s.frondPwr := rfl
@[simp] theorem State.setDomain_dtb (i : Nat) (x : Domain) : (s.setDomain i x).dtb = s.dtb := rfl
@[simp] theorem State.setDomain_dtbSlew (i : Nat) (x : Domain) : (s.setDomain i x).dtbSlew = s.dtbSlew := rfl
@[simp] theorem State.setDomain_dtbFrac (i : Nat) (x : Domain) : (s.setDomain i x).dtbFrac = s.dtbFrac := rfl
@[simp] theorem State.setDomain_fresh (i : Nat) (x : Domain) : (s.setDomain i x).fresh = s.fresh := rfl
@[simp] theorem State.setDomain_readData (i : Nat) (x : Domain) : (s.setDomain i x).readData = s.readData := rfl
@[simp] theorem State.setDomain_hostShadow (i : Nat) (x : Domain) : (s.setDomain i x).hostShadow = s.hostShadow := rfl
@[simp] theorem State.setDomain_svcShadow (i : Nat) (x : Domain) : (s.setDomain i x).svcShadow = s.svcShadow := rfl
@[simp] theorem State.setDomain_writeShadow (i : Nat) (x : Domain) : (s.setDomain i x).writeShadow = s.writeShadow := rfl
@[simp] theorem State.setDomain_rows (i : Nat) (x : Domain) : (s.setDomain i x).rows = s.rows := rfl
@[simp] theorem State.setDomain_inert (i : Nat) (x : Domain) : (s.setDomain i x).inert = s.inert := rfl
@[simp] theorem State.setDomain_memEpoch (i : Nat) (x : Domain) : (s.setDomain i x).memEpoch = s.memEpoch := rfl
@[simp] theorem State.setDomain_hbm (i : Nat) (x : Domain) : (s.setDomain i x).hbm = s.hbm := rfl
@[simp] theorem State.setDomain_hbmPoison (i : Nat) (x : Domain) : (s.setDomain i x).hbmPoison = s.hbmPoison := rfl
@[simp] theorem State.setDomain_host (i : Nat) (x : Domain) : (s.setDomain i x).host = s.host := rfl
@[simp] theorem State.setDomain_absent (i : Nat) (x : Domain) : (s.setDomain i x).absent = s.absent := rfl
@[simp] theorem State.setDomain_readOnly (i : Nat) (x : Domain) : (s.setDomain i x).readOnly = s.readOnly := rfl
@[simp] theorem State.setDomain_pageReqs (i : Nat) (x : Domain) : (s.setDomain i x).pageReqs = s.pageReqs := rfl
@[simp] theorem State.setDomain_invalDone (i : Nat) (x : Domain) : (s.setDomain i x).invalDone = s.invalDone := rfl
@[simp] theorem State.setDomain_nextXfer (i : Nat) (x : Domain) : (s.setDomain i x).nextXfer = s.nextXfer := rfl
@[simp] theorem State.setDomain_commitCount (i : Nat) (x : Domain) : (s.setDomain i x).commitCount = s.commitCount := rfl
@[simp] theorem State.setDomain_commits (i : Nat) (x : Domain) : (s.setDomain i x).commits = s.commits := rfl
@[simp] theorem State.setDomain_hif (i : Nat) (x : Domain) : (s.setDomain i x).hif = s.hif := rfl
@[simp] theorem State.setDomain_ctxs (i : Nat) (x : Domain) : (s.setDomain i x).ctxs = s.ctxs := rfl
@[simp] theorem State.setDomain_lsch (i : Nat) (x : Domain) : (s.setDomain i x).lsch = s.lsch := rfl
@[simp] theorem State.setDomain_ls (i : Nat) (x : Domain) : (s.setDomain i x).ls = s.ls := rfl
@[simp] theorem State.setDomain_fronds (i : Nat) (x : Domain) : (s.setDomain i x).fronds = s.fronds := rfl
@[simp] theorem State.setDomain_movers (i : Nat) (x : Domain) : (s.setDomain i x).movers = s.movers := rfl
@[simp] theorem State.setDomain_comps (i : Nat) (x : Domain) : (s.setDomain i x).comps = s.comps := rfl
@[simp] theorem State.setDomain_tgs (i : Nat) (x : Domain) : (s.setDomain i x).tgs = s.tgs := rfl
@[simp] theorem State.setDomain_raster (i : Nat) (x : Domain) : (s.setDomain i x).raster = s.raster := rfl
@[simp] theorem State.setDomain_dptx (i : Nat) (x : Domain) : (s.setDomain i x).dptx = s.dptx := rfl
@[simp] theorem State.setDomain_dprx (i : Nat) (x : Domain) : (s.setDomain i x).dprx = s.dprx := rfl
@[simp] theorem State.setDomain_panels (i : Nat) (x : Domain) : (s.setDomain i x).panels = s.panels := rfl
@[simp] theorem State.setDomain_pwu (i : Nat) (x : Domain) : (s.setDomain i x).pwu = s.pwu := rfl
@[simp] theorem State.setDomain_eeprom (i : Nat) (x : Domain) : (s.setDomain i x).eeprom = s.eeprom := rfl
@[simp] theorem State.setDomain_pmon (i : Nat) (x : Domain) : (s.setDomain i x).pmon = s.pmon := rfl
@[simp] theorem State.setDomain_ldl (i : Nat) (x : Domain) : (s.setDomain i x).ldl = s.ldl := rfl
@[simp] theorem State.setDomain_svc (i : Nat) (x : Domain) : (s.setDomain i x).svc = s.svc := rfl
@[simp] theorem State.setDomain_xspi (i : Nat) (x : Domain) : (s.setDomain i x).xspi = s.xspi := rfl
@[simp] theorem State.setDomain_pcie (i : Nat) (x : Domain) : (s.setDomain i x).pcie = s.pcie := rfl
@[simp] theorem State.setDomain_lwl (i : Nat) (x : Domain) : (s.setDomain i x).lwl = s.lwl := rfl
@[simp] theorem State.setDomain_hbmCtl (i : Nat) (x : Domain) : (s.setDomain i x).hbmCtl = s.hbmCtl := rfl
@[simp] theorem State.setDomain_pins (i : Nat) (x : Domain) : (s.setDomain i x).pins = s.pins := rfl
@[simp] theorem State.setDomain_pending (i : Nat) (x : Domain) : (s.setDomain i x).pending = s.pending := rfl

/-! ### setRow -/

@[simp] theorem State.setRow_row (i : Nat) (x : DieRow) : (s.setRow i x).row i = x := Tbl.get_set_same _ _ _ _
@[simp] theorem State.setRow_row_other (i j : Nat) (x : DieRow) (h : j ≠ i) : (s.setRow i x).row j = s.row j := Tbl.get_set_other _ h _ _
@[simp] theorem State.setRow_ctx (i j : Nat) (x : DieRow) : (s.setRow i x).ctx j = s.ctx j := rfl
@[simp] theorem State.setRow_frond (i j : Nat) (x : DieRow) : (s.setRow i x).frond j = s.frond j := rfl
@[simp] theorem State.setRow_sq (i j : Nat) (x : DieRow) : (s.setRow i x).sq j = s.sq j := rfl
@[simp] theorem State.setRow_cq (i j : Nat) (x : DieRow) : (s.setRow i x).cq j = s.cq j := rfl
@[simp] theorem State.setRow_mover (i j : Nat) (x : DieRow) : (s.setRow i x).mover j = s.mover j := rfl
@[simp] theorem State.setRow_comp (i j : Nat) (x : DieRow) : (s.setRow i x).comp j = s.comp j := rfl
@[simp] theorem State.setRow_tg (i j : Nat) (x : DieRow) : (s.setRow i x).tg j = s.tg j := rfl
@[simp] theorem State.setRow_port (i j : Nat) (x : DieRow) : (s.setRow i x).port j = s.port j := rfl
@[simp] theorem State.setRow_rx (i j : Nat) (x : DieRow) : (s.setRow i x).rx j = s.rx j := rfl
@[simp] theorem State.setRow_panel (i j : Nat) (x : DieRow) : (s.setRow i x).panel j = s.panel j := rfl
@[simp] theorem State.setRow_wear (i j : Nat) (x : DieRow) : (s.setRow i x).wear j = s.wear j := rfl
@[simp] theorem State.setRow_out (i j : Nat) (x : DieRow) : (s.setRow i x).out j = s.out j := rfl
@[simp] theorem State.setRow_stream (i j : Nat) (x : DieRow) : (s.setRow i x).stream j = s.stream j := rfl
@[simp] theorem State.setRow_group (i j : Nat) (x : DieRow) : (s.setRow i x).group j = s.group j := rfl
@[simp] theorem State.setRow_link (i j : Nat) (x : DieRow) : (s.setRow i x).link j = s.link j := rfl
@[simp] theorem State.setRow_halo (i j : Nat) (x : DieRow) : (s.setRow i x).halo j = s.halo j := rfl
@[simp] theorem State.setRow_tick (i j : Nat) (x : DieRow) : (s.setRow i x).tick j = s.tick j := rfl
@[simp] theorem State.setRow_unit (i j : Nat) (x : DieRow) : (s.setRow i x).unit j = s.unit j := rfl
@[simp] theorem State.setRow_domain (i j : Nat) (x : DieRow) : (s.setRow i x).domain j = s.domain j := rfl
@[simp] theorem State.setRow_hbmc (i j : Nat) (x : DieRow) : (s.setRow i x).hbmc j = s.hbmc j := rfl
@[simp] theorem State.setRow_strap (i : Nat) (x : DieRow) : (s.setRow i x).strap = s.strap := rfl
@[simp] theorem State.setRow_ready (i : Nat) (x : DieRow) : (s.setRow i x).ready = s.ready := rfl
@[simp] theorem State.setRow_configDefaulted (i : Nat) (x : DieRow) : (s.setRow i x).configDefaulted = s.configDefaulted := rfl
@[simp] theorem State.setRow_boostSpent (i : Nat) (x : DieRow) : (s.setRow i x).boostSpent = s.boostSpent := rfl
@[simp] theorem State.setRow_passThrough (i : Nat) (x : DieRow) : (s.setRow i x).passThrough = s.passThrough := rfl
@[simp] theorem State.setRow_debugUnlocked (i : Nat) (x : DieRow) : (s.setRow i x).debugUnlocked = s.debugUnlocked := rfl
@[simp] theorem State.setRow_image (i : Nat) (x : DieRow) : (s.setRow i x).image = s.image := rfl
@[simp] theorem State.setRow_lockedWr (i : Nat) (x : DieRow) : (s.setRow i x).lockedWr = s.lockedWr := rfl
@[simp] theorem State.setRow_mapRefused (i : Nat) (x : DieRow) : (s.setRow i x).mapRefused = s.mapRefused := rfl
@[simp] theorem State.setRow_byteWr (i : Nat) (x : DieRow) : (s.setRow i x).byteWr = s.byteWr := rfl
@[simp] theorem State.setRow_locks (i : Nat) (x : DieRow) : (s.setRow i x).locks = s.locks := rfl
@[simp] theorem State.setRow_frondEn (i : Nat) (x : DieRow) : (s.setRow i x).frondEn = s.frondEn := rfl
@[simp] theorem State.setRow_frondPwr (i : Nat) (x : DieRow) : (s.setRow i x).frondPwr = s.frondPwr := rfl
@[simp] theorem State.setRow_dtb (i : Nat) (x : DieRow) : (s.setRow i x).dtb = s.dtb := rfl
@[simp] theorem State.setRow_dtbSlew (i : Nat) (x : DieRow) : (s.setRow i x).dtbSlew = s.dtbSlew := rfl
@[simp] theorem State.setRow_dtbFrac (i : Nat) (x : DieRow) : (s.setRow i x).dtbFrac = s.dtbFrac := rfl
@[simp] theorem State.setRow_fresh (i : Nat) (x : DieRow) : (s.setRow i x).fresh = s.fresh := rfl
@[simp] theorem State.setRow_readData (i : Nat) (x : DieRow) : (s.setRow i x).readData = s.readData := rfl
@[simp] theorem State.setRow_hostShadow (i : Nat) (x : DieRow) : (s.setRow i x).hostShadow = s.hostShadow := rfl
@[simp] theorem State.setRow_svcShadow (i : Nat) (x : DieRow) : (s.setRow i x).svcShadow = s.svcShadow := rfl
@[simp] theorem State.setRow_writeShadow (i : Nat) (x : DieRow) : (s.setRow i x).writeShadow = s.writeShadow := rfl
@[simp] theorem State.setRow_inert (i : Nat) (x : DieRow) : (s.setRow i x).inert = s.inert := rfl
@[simp] theorem State.setRow_memEpoch (i : Nat) (x : DieRow) : (s.setRow i x).memEpoch = s.memEpoch := rfl
@[simp] theorem State.setRow_hbm (i : Nat) (x : DieRow) : (s.setRow i x).hbm = s.hbm := rfl
@[simp] theorem State.setRow_hbmPoison (i : Nat) (x : DieRow) : (s.setRow i x).hbmPoison = s.hbmPoison := rfl
@[simp] theorem State.setRow_host (i : Nat) (x : DieRow) : (s.setRow i x).host = s.host := rfl
@[simp] theorem State.setRow_absent (i : Nat) (x : DieRow) : (s.setRow i x).absent = s.absent := rfl
@[simp] theorem State.setRow_readOnly (i : Nat) (x : DieRow) : (s.setRow i x).readOnly = s.readOnly := rfl
@[simp] theorem State.setRow_pageReqs (i : Nat) (x : DieRow) : (s.setRow i x).pageReqs = s.pageReqs := rfl
@[simp] theorem State.setRow_invalDone (i : Nat) (x : DieRow) : (s.setRow i x).invalDone = s.invalDone := rfl
@[simp] theorem State.setRow_nextXfer (i : Nat) (x : DieRow) : (s.setRow i x).nextXfer = s.nextXfer := rfl
@[simp] theorem State.setRow_commitCount (i : Nat) (x : DieRow) : (s.setRow i x).commitCount = s.commitCount := rfl
@[simp] theorem State.setRow_commits (i : Nat) (x : DieRow) : (s.setRow i x).commits = s.commits := rfl
@[simp] theorem State.setRow_hif (i : Nat) (x : DieRow) : (s.setRow i x).hif = s.hif := rfl
@[simp] theorem State.setRow_ctxs (i : Nat) (x : DieRow) : (s.setRow i x).ctxs = s.ctxs := rfl
@[simp] theorem State.setRow_lsch (i : Nat) (x : DieRow) : (s.setRow i x).lsch = s.lsch := rfl
@[simp] theorem State.setRow_ls (i : Nat) (x : DieRow) : (s.setRow i x).ls = s.ls := rfl
@[simp] theorem State.setRow_fronds (i : Nat) (x : DieRow) : (s.setRow i x).fronds = s.fronds := rfl
@[simp] theorem State.setRow_movers (i : Nat) (x : DieRow) : (s.setRow i x).movers = s.movers := rfl
@[simp] theorem State.setRow_comps (i : Nat) (x : DieRow) : (s.setRow i x).comps = s.comps := rfl
@[simp] theorem State.setRow_tgs (i : Nat) (x : DieRow) : (s.setRow i x).tgs = s.tgs := rfl
@[simp] theorem State.setRow_raster (i : Nat) (x : DieRow) : (s.setRow i x).raster = s.raster := rfl
@[simp] theorem State.setRow_dptx (i : Nat) (x : DieRow) : (s.setRow i x).dptx = s.dptx := rfl
@[simp] theorem State.setRow_dprx (i : Nat) (x : DieRow) : (s.setRow i x).dprx = s.dprx := rfl
@[simp] theorem State.setRow_panels (i : Nat) (x : DieRow) : (s.setRow i x).panels = s.panels := rfl
@[simp] theorem State.setRow_pwu (i : Nat) (x : DieRow) : (s.setRow i x).pwu = s.pwu := rfl
@[simp] theorem State.setRow_eeprom (i : Nat) (x : DieRow) : (s.setRow i x).eeprom = s.eeprom := rfl
@[simp] theorem State.setRow_pmon (i : Nat) (x : DieRow) : (s.setRow i x).pmon = s.pmon := rfl
@[simp] theorem State.setRow_ldl (i : Nat) (x : DieRow) : (s.setRow i x).ldl = s.ldl := rfl
@[simp] theorem State.setRow_svc (i : Nat) (x : DieRow) : (s.setRow i x).svc = s.svc := rfl
@[simp] theorem State.setRow_xspi (i : Nat) (x : DieRow) : (s.setRow i x).xspi = s.xspi := rfl
@[simp] theorem State.setRow_pcie (i : Nat) (x : DieRow) : (s.setRow i x).pcie = s.pcie := rfl
@[simp] theorem State.setRow_lwl (i : Nat) (x : DieRow) : (s.setRow i x).lwl = s.lwl := rfl
@[simp] theorem State.setRow_power (i : Nat) (x : DieRow) : (s.setRow i x).power = s.power := rfl
@[simp] theorem State.setRow_hbmCtl (i : Nat) (x : DieRow) : (s.setRow i x).hbmCtl = s.hbmCtl := rfl
@[simp] theorem State.setRow_pins (i : Nat) (x : DieRow) : (s.setRow i x).pins = s.pins := rfl
@[simp] theorem State.setRow_pending (i : Nat) (x : DieRow) : (s.setRow i x).pending = s.pending := rfl

/-! ### setHbmc -/

@[simp] theorem State.setHbmc_hbmc (i : Nat) (x : HbmCtl) : (s.setHbmc i x).hbmc i = x := Tbl.get_set_same _ _ _ _
@[simp] theorem State.setHbmc_hbmc_other (i j : Nat) (x : HbmCtl) (h : j ≠ i) : (s.setHbmc i x).hbmc j = s.hbmc j := Tbl.get_set_other _ h _ _
@[simp] theorem State.setHbmc_ctx (i j : Nat) (x : HbmCtl) : (s.setHbmc i x).ctx j = s.ctx j := rfl
@[simp] theorem State.setHbmc_frond (i j : Nat) (x : HbmCtl) : (s.setHbmc i x).frond j = s.frond j := rfl
@[simp] theorem State.setHbmc_sq (i j : Nat) (x : HbmCtl) : (s.setHbmc i x).sq j = s.sq j := rfl
@[simp] theorem State.setHbmc_cq (i j : Nat) (x : HbmCtl) : (s.setHbmc i x).cq j = s.cq j := rfl
@[simp] theorem State.setHbmc_mover (i j : Nat) (x : HbmCtl) : (s.setHbmc i x).mover j = s.mover j := rfl
@[simp] theorem State.setHbmc_comp (i j : Nat) (x : HbmCtl) : (s.setHbmc i x).comp j = s.comp j := rfl
@[simp] theorem State.setHbmc_tg (i j : Nat) (x : HbmCtl) : (s.setHbmc i x).tg j = s.tg j := rfl
@[simp] theorem State.setHbmc_port (i j : Nat) (x : HbmCtl) : (s.setHbmc i x).port j = s.port j := rfl
@[simp] theorem State.setHbmc_rx (i j : Nat) (x : HbmCtl) : (s.setHbmc i x).rx j = s.rx j := rfl
@[simp] theorem State.setHbmc_panel (i j : Nat) (x : HbmCtl) : (s.setHbmc i x).panel j = s.panel j := rfl
@[simp] theorem State.setHbmc_wear (i j : Nat) (x : HbmCtl) : (s.setHbmc i x).wear j = s.wear j := rfl
@[simp] theorem State.setHbmc_out (i j : Nat) (x : HbmCtl) : (s.setHbmc i x).out j = s.out j := rfl
@[simp] theorem State.setHbmc_stream (i j : Nat) (x : HbmCtl) : (s.setHbmc i x).stream j = s.stream j := rfl
@[simp] theorem State.setHbmc_group (i j : Nat) (x : HbmCtl) : (s.setHbmc i x).group j = s.group j := rfl
@[simp] theorem State.setHbmc_link (i j : Nat) (x : HbmCtl) : (s.setHbmc i x).link j = s.link j := rfl
@[simp] theorem State.setHbmc_halo (i j : Nat) (x : HbmCtl) : (s.setHbmc i x).halo j = s.halo j := rfl
@[simp] theorem State.setHbmc_tick (i j : Nat) (x : HbmCtl) : (s.setHbmc i x).tick j = s.tick j := rfl
@[simp] theorem State.setHbmc_unit (i j : Nat) (x : HbmCtl) : (s.setHbmc i x).unit j = s.unit j := rfl
@[simp] theorem State.setHbmc_domain (i j : Nat) (x : HbmCtl) : (s.setHbmc i x).domain j = s.domain j := rfl
@[simp] theorem State.setHbmc_row (i j : Nat) (x : HbmCtl) : (s.setHbmc i x).row j = s.row j := rfl
@[simp] theorem State.setHbmc_strap (i : Nat) (x : HbmCtl) : (s.setHbmc i x).strap = s.strap := rfl
@[simp] theorem State.setHbmc_ready (i : Nat) (x : HbmCtl) : (s.setHbmc i x).ready = s.ready := rfl
@[simp] theorem State.setHbmc_configDefaulted (i : Nat) (x : HbmCtl) : (s.setHbmc i x).configDefaulted = s.configDefaulted := rfl
@[simp] theorem State.setHbmc_boostSpent (i : Nat) (x : HbmCtl) : (s.setHbmc i x).boostSpent = s.boostSpent := rfl
@[simp] theorem State.setHbmc_passThrough (i : Nat) (x : HbmCtl) : (s.setHbmc i x).passThrough = s.passThrough := rfl
@[simp] theorem State.setHbmc_debugUnlocked (i : Nat) (x : HbmCtl) : (s.setHbmc i x).debugUnlocked = s.debugUnlocked := rfl
@[simp] theorem State.setHbmc_image (i : Nat) (x : HbmCtl) : (s.setHbmc i x).image = s.image := rfl
@[simp] theorem State.setHbmc_lockedWr (i : Nat) (x : HbmCtl) : (s.setHbmc i x).lockedWr = s.lockedWr := rfl
@[simp] theorem State.setHbmc_mapRefused (i : Nat) (x : HbmCtl) : (s.setHbmc i x).mapRefused = s.mapRefused := rfl
@[simp] theorem State.setHbmc_byteWr (i : Nat) (x : HbmCtl) : (s.setHbmc i x).byteWr = s.byteWr := rfl
@[simp] theorem State.setHbmc_locks (i : Nat) (x : HbmCtl) : (s.setHbmc i x).locks = s.locks := rfl
@[simp] theorem State.setHbmc_frondEn (i : Nat) (x : HbmCtl) : (s.setHbmc i x).frondEn = s.frondEn := rfl
@[simp] theorem State.setHbmc_frondPwr (i : Nat) (x : HbmCtl) : (s.setHbmc i x).frondPwr = s.frondPwr := rfl
@[simp] theorem State.setHbmc_dtb (i : Nat) (x : HbmCtl) : (s.setHbmc i x).dtb = s.dtb := rfl
@[simp] theorem State.setHbmc_dtbSlew (i : Nat) (x : HbmCtl) : (s.setHbmc i x).dtbSlew = s.dtbSlew := rfl
@[simp] theorem State.setHbmc_dtbFrac (i : Nat) (x : HbmCtl) : (s.setHbmc i x).dtbFrac = s.dtbFrac := rfl
@[simp] theorem State.setHbmc_fresh (i : Nat) (x : HbmCtl) : (s.setHbmc i x).fresh = s.fresh := rfl
@[simp] theorem State.setHbmc_readData (i : Nat) (x : HbmCtl) : (s.setHbmc i x).readData = s.readData := rfl
@[simp] theorem State.setHbmc_hostShadow (i : Nat) (x : HbmCtl) : (s.setHbmc i x).hostShadow = s.hostShadow := rfl
@[simp] theorem State.setHbmc_svcShadow (i : Nat) (x : HbmCtl) : (s.setHbmc i x).svcShadow = s.svcShadow := rfl
@[simp] theorem State.setHbmc_writeShadow (i : Nat) (x : HbmCtl) : (s.setHbmc i x).writeShadow = s.writeShadow := rfl
@[simp] theorem State.setHbmc_rows (i : Nat) (x : HbmCtl) : (s.setHbmc i x).rows = s.rows := rfl
@[simp] theorem State.setHbmc_inert (i : Nat) (x : HbmCtl) : (s.setHbmc i x).inert = s.inert := rfl
@[simp] theorem State.setHbmc_memEpoch (i : Nat) (x : HbmCtl) : (s.setHbmc i x).memEpoch = s.memEpoch := rfl
@[simp] theorem State.setHbmc_hbm (i : Nat) (x : HbmCtl) : (s.setHbmc i x).hbm = s.hbm := rfl
@[simp] theorem State.setHbmc_hbmPoison (i : Nat) (x : HbmCtl) : (s.setHbmc i x).hbmPoison = s.hbmPoison := rfl
@[simp] theorem State.setHbmc_host (i : Nat) (x : HbmCtl) : (s.setHbmc i x).host = s.host := rfl
@[simp] theorem State.setHbmc_absent (i : Nat) (x : HbmCtl) : (s.setHbmc i x).absent = s.absent := rfl
@[simp] theorem State.setHbmc_readOnly (i : Nat) (x : HbmCtl) : (s.setHbmc i x).readOnly = s.readOnly := rfl
@[simp] theorem State.setHbmc_pageReqs (i : Nat) (x : HbmCtl) : (s.setHbmc i x).pageReqs = s.pageReqs := rfl
@[simp] theorem State.setHbmc_invalDone (i : Nat) (x : HbmCtl) : (s.setHbmc i x).invalDone = s.invalDone := rfl
@[simp] theorem State.setHbmc_nextXfer (i : Nat) (x : HbmCtl) : (s.setHbmc i x).nextXfer = s.nextXfer := rfl
@[simp] theorem State.setHbmc_commitCount (i : Nat) (x : HbmCtl) : (s.setHbmc i x).commitCount = s.commitCount := rfl
@[simp] theorem State.setHbmc_commits (i : Nat) (x : HbmCtl) : (s.setHbmc i x).commits = s.commits := rfl
@[simp] theorem State.setHbmc_hif (i : Nat) (x : HbmCtl) : (s.setHbmc i x).hif = s.hif := rfl
@[simp] theorem State.setHbmc_ctxs (i : Nat) (x : HbmCtl) : (s.setHbmc i x).ctxs = s.ctxs := rfl
@[simp] theorem State.setHbmc_lsch (i : Nat) (x : HbmCtl) : (s.setHbmc i x).lsch = s.lsch := rfl
@[simp] theorem State.setHbmc_ls (i : Nat) (x : HbmCtl) : (s.setHbmc i x).ls = s.ls := rfl
@[simp] theorem State.setHbmc_fronds (i : Nat) (x : HbmCtl) : (s.setHbmc i x).fronds = s.fronds := rfl
@[simp] theorem State.setHbmc_movers (i : Nat) (x : HbmCtl) : (s.setHbmc i x).movers = s.movers := rfl
@[simp] theorem State.setHbmc_comps (i : Nat) (x : HbmCtl) : (s.setHbmc i x).comps = s.comps := rfl
@[simp] theorem State.setHbmc_tgs (i : Nat) (x : HbmCtl) : (s.setHbmc i x).tgs = s.tgs := rfl
@[simp] theorem State.setHbmc_raster (i : Nat) (x : HbmCtl) : (s.setHbmc i x).raster = s.raster := rfl
@[simp] theorem State.setHbmc_dptx (i : Nat) (x : HbmCtl) : (s.setHbmc i x).dptx = s.dptx := rfl
@[simp] theorem State.setHbmc_dprx (i : Nat) (x : HbmCtl) : (s.setHbmc i x).dprx = s.dprx := rfl
@[simp] theorem State.setHbmc_panels (i : Nat) (x : HbmCtl) : (s.setHbmc i x).panels = s.panels := rfl
@[simp] theorem State.setHbmc_pwu (i : Nat) (x : HbmCtl) : (s.setHbmc i x).pwu = s.pwu := rfl
@[simp] theorem State.setHbmc_eeprom (i : Nat) (x : HbmCtl) : (s.setHbmc i x).eeprom = s.eeprom := rfl
@[simp] theorem State.setHbmc_pmon (i : Nat) (x : HbmCtl) : (s.setHbmc i x).pmon = s.pmon := rfl
@[simp] theorem State.setHbmc_ldl (i : Nat) (x : HbmCtl) : (s.setHbmc i x).ldl = s.ldl := rfl
@[simp] theorem State.setHbmc_svc (i : Nat) (x : HbmCtl) : (s.setHbmc i x).svc = s.svc := rfl
@[simp] theorem State.setHbmc_xspi (i : Nat) (x : HbmCtl) : (s.setHbmc i x).xspi = s.xspi := rfl
@[simp] theorem State.setHbmc_pcie (i : Nat) (x : HbmCtl) : (s.setHbmc i x).pcie = s.pcie := rfl
@[simp] theorem State.setHbmc_lwl (i : Nat) (x : HbmCtl) : (s.setHbmc i x).lwl = s.lwl := rfl
@[simp] theorem State.setHbmc_power (i : Nat) (x : HbmCtl) : (s.setHbmc i x).power = s.power := rfl
@[simp] theorem State.setHbmc_pins (i : Nat) (x : HbmCtl) : (s.setHbmc i x).pins = s.pins := rfl
@[simp] theorem State.setHbmc_pending (i : Nat) (x : HbmCtl) : (s.setHbmc i x).pending = s.pending := rfl

/-! ### The DTB and free values -/

@[simp] theorem State.at_dtb (now : W64) : (s.at_ now).dtb.toNat = max s.dtb.toNat now.toNat := by
  unfold State.at_; split <;> simp <;> omega
@[simp] theorem State.at_strap (now : W64) : (s.at_ now).strap = s.strap := by unfold State.at_; split <;> rfl
@[simp] theorem State.at_ready (now : W64) : (s.at_ now).ready = s.ready := by unfold State.at_; split <;> rfl
@[simp] theorem State.at_configDefaulted (now : W64) : (s.at_ now).configDefaulted = s.configDefaulted := by unfold State.at_; split <;> rfl
@[simp] theorem State.at_boostSpent (now : W64) : (s.at_ now).boostSpent = s.boostSpent := by unfold State.at_; split <;> rfl
@[simp] theorem State.at_passThrough (now : W64) : (s.at_ now).passThrough = s.passThrough := by unfold State.at_; split <;> rfl
@[simp] theorem State.at_debugUnlocked (now : W64) : (s.at_ now).debugUnlocked = s.debugUnlocked := by unfold State.at_; split <;> rfl
@[simp] theorem State.at_image (now : W64) : (s.at_ now).image = s.image := by unfold State.at_; split <;> rfl
@[simp] theorem State.at_lockedWr (now : W64) : (s.at_ now).lockedWr = s.lockedWr := by unfold State.at_; split <;> rfl
@[simp] theorem State.at_mapRefused (now : W64) : (s.at_ now).mapRefused = s.mapRefused := by unfold State.at_; split <;> rfl
@[simp] theorem State.at_byteWr (now : W64) : (s.at_ now).byteWr = s.byteWr := by unfold State.at_; split <;> rfl
@[simp] theorem State.at_locks (now : W64) : (s.at_ now).locks = s.locks := by unfold State.at_; split <;> rfl
@[simp] theorem State.at_frondEn (now : W64) : (s.at_ now).frondEn = s.frondEn := by unfold State.at_; split <;> rfl
@[simp] theorem State.at_frondPwr (now : W64) : (s.at_ now).frondPwr = s.frondPwr := by unfold State.at_; split <;> rfl
@[simp] theorem State.at_dtbSlew (now : W64) : (s.at_ now).dtbSlew = s.dtbSlew := by unfold State.at_; split <;> rfl
@[simp] theorem State.at_dtbFrac (now : W64) : (s.at_ now).dtbFrac = s.dtbFrac := by unfold State.at_; split <;> rfl
@[simp] theorem State.at_fresh (now : W64) : (s.at_ now).fresh = s.fresh := by unfold State.at_; split <;> rfl
@[simp] theorem State.at_readData (now : W64) : (s.at_ now).readData = s.readData := by unfold State.at_; split <;> rfl
@[simp] theorem State.at_hostShadow (now : W64) : (s.at_ now).hostShadow = s.hostShadow := by unfold State.at_; split <;> rfl
@[simp] theorem State.at_svcShadow (now : W64) : (s.at_ now).svcShadow = s.svcShadow := by unfold State.at_; split <;> rfl
@[simp] theorem State.at_writeShadow (now : W64) : (s.at_ now).writeShadow = s.writeShadow := by unfold State.at_; split <;> rfl
@[simp] theorem State.at_rows (now : W64) : (s.at_ now).rows = s.rows := by unfold State.at_; split <;> rfl
@[simp] theorem State.at_inert (now : W64) : (s.at_ now).inert = s.inert := by unfold State.at_; split <;> rfl
@[simp] theorem State.at_memEpoch (now : W64) : (s.at_ now).memEpoch = s.memEpoch := by unfold State.at_; split <;> rfl
@[simp] theorem State.at_hbm (now : W64) : (s.at_ now).hbm = s.hbm := by unfold State.at_; split <;> rfl
@[simp] theorem State.at_hbmPoison (now : W64) : (s.at_ now).hbmPoison = s.hbmPoison := by unfold State.at_; split <;> rfl
@[simp] theorem State.at_host (now : W64) : (s.at_ now).host = s.host := by unfold State.at_; split <;> rfl
@[simp] theorem State.at_absent (now : W64) : (s.at_ now).absent = s.absent := by unfold State.at_; split <;> rfl
@[simp] theorem State.at_readOnly (now : W64) : (s.at_ now).readOnly = s.readOnly := by unfold State.at_; split <;> rfl
@[simp] theorem State.at_pageReqs (now : W64) : (s.at_ now).pageReqs = s.pageReqs := by unfold State.at_; split <;> rfl
@[simp] theorem State.at_invalDone (now : W64) : (s.at_ now).invalDone = s.invalDone := by unfold State.at_; split <;> rfl
@[simp] theorem State.at_nextXfer (now : W64) : (s.at_ now).nextXfer = s.nextXfer := by unfold State.at_; split <;> rfl
@[simp] theorem State.at_commitCount (now : W64) : (s.at_ now).commitCount = s.commitCount := by unfold State.at_; split <;> rfl
@[simp] theorem State.at_commits (now : W64) : (s.at_ now).commits = s.commits := by unfold State.at_; split <;> rfl
@[simp] theorem State.at_hif (now : W64) : (s.at_ now).hif = s.hif := by unfold State.at_; split <;> rfl
@[simp] theorem State.at_ctxs (now : W64) : (s.at_ now).ctxs = s.ctxs := by unfold State.at_; split <;> rfl
@[simp] theorem State.at_lsch (now : W64) : (s.at_ now).lsch = s.lsch := by unfold State.at_; split <;> rfl
@[simp] theorem State.at_ls (now : W64) : (s.at_ now).ls = s.ls := by unfold State.at_; split <;> rfl
@[simp] theorem State.at_fronds (now : W64) : (s.at_ now).fronds = s.fronds := by unfold State.at_; split <;> rfl
@[simp] theorem State.at_movers (now : W64) : (s.at_ now).movers = s.movers := by unfold State.at_; split <;> rfl
@[simp] theorem State.at_comps (now : W64) : (s.at_ now).comps = s.comps := by unfold State.at_; split <;> rfl
@[simp] theorem State.at_tgs (now : W64) : (s.at_ now).tgs = s.tgs := by unfold State.at_; split <;> rfl
@[simp] theorem State.at_raster (now : W64) : (s.at_ now).raster = s.raster := by unfold State.at_; split <;> rfl
@[simp] theorem State.at_dptx (now : W64) : (s.at_ now).dptx = s.dptx := by unfold State.at_; split <;> rfl
@[simp] theorem State.at_dprx (now : W64) : (s.at_ now).dprx = s.dprx := by unfold State.at_; split <;> rfl
@[simp] theorem State.at_panels (now : W64) : (s.at_ now).panels = s.panels := by unfold State.at_; split <;> rfl
@[simp] theorem State.at_pwu (now : W64) : (s.at_ now).pwu = s.pwu := by unfold State.at_; split <;> rfl
@[simp] theorem State.at_eeprom (now : W64) : (s.at_ now).eeprom = s.eeprom := by unfold State.at_; split <;> rfl
@[simp] theorem State.at_pmon (now : W64) : (s.at_ now).pmon = s.pmon := by unfold State.at_; split <;> rfl
@[simp] theorem State.at_ldl (now : W64) : (s.at_ now).ldl = s.ldl := by unfold State.at_; split <;> rfl
@[simp] theorem State.at_svc (now : W64) : (s.at_ now).svc = s.svc := by unfold State.at_; split <;> rfl
@[simp] theorem State.at_xspi (now : W64) : (s.at_ now).xspi = s.xspi := by unfold State.at_; split <;> rfl
@[simp] theorem State.at_pcie (now : W64) : (s.at_ now).pcie = s.pcie := by unfold State.at_; split <;> rfl
@[simp] theorem State.at_lwl (now : W64) : (s.at_ now).lwl = s.lwl := by unfold State.at_; split <;> rfl
@[simp] theorem State.at_power (now : W64) : (s.at_ now).power = s.power := by unfold State.at_; split <;> rfl
@[simp] theorem State.at_hbmCtl (now : W64) : (s.at_ now).hbmCtl = s.hbmCtl := by unfold State.at_; split <;> rfl
@[simp] theorem State.at_pins (now : W64) : (s.at_ now).pins = s.pins := by unfold State.at_; split <;> rfl
@[simp] theorem State.at_pending (now : W64) : (s.at_ now).pending = s.pending := by unfold State.at_; split <;> rfl
@[simp] theorem State.draw_strap : s.draw.2.strap = s.strap := rfl
@[simp] theorem State.draw_ready : s.draw.2.ready = s.ready := rfl
@[simp] theorem State.draw_configDefaulted : s.draw.2.configDefaulted = s.configDefaulted := rfl
@[simp] theorem State.draw_boostSpent : s.draw.2.boostSpent = s.boostSpent := rfl
@[simp] theorem State.draw_passThrough : s.draw.2.passThrough = s.passThrough := rfl
@[simp] theorem State.draw_debugUnlocked : s.draw.2.debugUnlocked = s.debugUnlocked := rfl
@[simp] theorem State.draw_image : s.draw.2.image = s.image := rfl
@[simp] theorem State.draw_lockedWr : s.draw.2.lockedWr = s.lockedWr := rfl
@[simp] theorem State.draw_mapRefused : s.draw.2.mapRefused = s.mapRefused := rfl
@[simp] theorem State.draw_byteWr : s.draw.2.byteWr = s.byteWr := rfl
@[simp] theorem State.draw_locks : s.draw.2.locks = s.locks := rfl
@[simp] theorem State.draw_frondEn : s.draw.2.frondEn = s.frondEn := rfl
@[simp] theorem State.draw_frondPwr : s.draw.2.frondPwr = s.frondPwr := rfl
@[simp] theorem State.draw_dtb : s.draw.2.dtb = s.dtb := rfl
@[simp] theorem State.draw_dtbSlew : s.draw.2.dtbSlew = s.dtbSlew := rfl
@[simp] theorem State.draw_dtbFrac : s.draw.2.dtbFrac = s.dtbFrac := rfl
@[simp] theorem State.draw_readData : s.draw.2.readData = s.readData := rfl
@[simp] theorem State.draw_hostShadow : s.draw.2.hostShadow = s.hostShadow := rfl
@[simp] theorem State.draw_svcShadow : s.draw.2.svcShadow = s.svcShadow := rfl
@[simp] theorem State.draw_writeShadow : s.draw.2.writeShadow = s.writeShadow := rfl
@[simp] theorem State.draw_rows : s.draw.2.rows = s.rows := rfl
@[simp] theorem State.draw_inert : s.draw.2.inert = s.inert := rfl
@[simp] theorem State.draw_memEpoch : s.draw.2.memEpoch = s.memEpoch := rfl
@[simp] theorem State.draw_hbm : s.draw.2.hbm = s.hbm := rfl
@[simp] theorem State.draw_hbmPoison : s.draw.2.hbmPoison = s.hbmPoison := rfl
@[simp] theorem State.draw_host : s.draw.2.host = s.host := rfl
@[simp] theorem State.draw_absent : s.draw.2.absent = s.absent := rfl
@[simp] theorem State.draw_readOnly : s.draw.2.readOnly = s.readOnly := rfl
@[simp] theorem State.draw_pageReqs : s.draw.2.pageReqs = s.pageReqs := rfl
@[simp] theorem State.draw_invalDone : s.draw.2.invalDone = s.invalDone := rfl
@[simp] theorem State.draw_nextXfer : s.draw.2.nextXfer = s.nextXfer := rfl
@[simp] theorem State.draw_commitCount : s.draw.2.commitCount = s.commitCount := rfl
@[simp] theorem State.draw_commits : s.draw.2.commits = s.commits := rfl
@[simp] theorem State.draw_hif : s.draw.2.hif = s.hif := rfl
@[simp] theorem State.draw_ctxs : s.draw.2.ctxs = s.ctxs := rfl
@[simp] theorem State.draw_lsch : s.draw.2.lsch = s.lsch := rfl
@[simp] theorem State.draw_ls : s.draw.2.ls = s.ls := rfl
@[simp] theorem State.draw_fronds : s.draw.2.fronds = s.fronds := rfl
@[simp] theorem State.draw_movers : s.draw.2.movers = s.movers := rfl
@[simp] theorem State.draw_comps : s.draw.2.comps = s.comps := rfl
@[simp] theorem State.draw_tgs : s.draw.2.tgs = s.tgs := rfl
@[simp] theorem State.draw_raster : s.draw.2.raster = s.raster := rfl
@[simp] theorem State.draw_dptx : s.draw.2.dptx = s.dptx := rfl
@[simp] theorem State.draw_dprx : s.draw.2.dprx = s.dprx := rfl
@[simp] theorem State.draw_panels : s.draw.2.panels = s.panels := rfl
@[simp] theorem State.draw_pwu : s.draw.2.pwu = s.pwu := rfl
@[simp] theorem State.draw_eeprom : s.draw.2.eeprom = s.eeprom := rfl
@[simp] theorem State.draw_pmon : s.draw.2.pmon = s.pmon := rfl
@[simp] theorem State.draw_ldl : s.draw.2.ldl = s.ldl := rfl
@[simp] theorem State.draw_svc : s.draw.2.svc = s.svc := rfl
@[simp] theorem State.draw_xspi : s.draw.2.xspi = s.xspi := rfl
@[simp] theorem State.draw_pcie : s.draw.2.pcie = s.pcie := rfl
@[simp] theorem State.draw_lwl : s.draw.2.lwl = s.lwl := rfl
@[simp] theorem State.draw_power : s.draw.2.power = s.power := rfl
@[simp] theorem State.draw_hbmCtl : s.draw.2.hbmCtl = s.hbmCtl := rfl
@[simp] theorem State.draw_pins : s.draw.2.pins = s.pins := rfl
@[simp] theorem State.draw_pending : s.draw.2.pending = s.pending := rfl

end Sys2Proof.Machine
end

