-- ==== Sys2Proof/Laws/Descriptor.lean ====
section
/-! SUPPORT. What a descriptor alone on its ring does: it starts, and completing it puts its record behind those of its completion ring. -/

namespace Sys2Proof.Machine

variable {s : State} {h : DescHdr} {slot : ℕ}

/-- Setting an entry twice. -/
theorem Tbl.set_go_set_go {α : Type} (l : List (Nat × α)) (k : Nat) (v w : α) : Tbl.set.go k w (Tbl.set.go k v l) = Tbl.set.go k w l := by
  induction l with
  | nil => simp [Tbl.set.go]
  | cons c r ih =>
    simp only [Tbl.set.go]
    split
    · simp [Tbl.set.go]
    · split
      · simp [Tbl.set.go]
      · simp [Tbl.set.go, *]

theorem Tbl.set_set {α : Type} (t : Tbl α) (k : Nat) (v w : α) : (t.set k v).set k w = t.set k w :=
  congrArg Tbl.mk (Tbl.set_go_set_go t.cells k v w)

@[simp] theorem State.sq_setSq (s : State) (r : Nat) (x : SubRing) : (s.setSq r x).sq r = x := Tbl.get_set_same ..
@[simp] theorem State.cq_setCq (s : State) (q : Nat) (x : CplRing) : (s.setCq q x).cq q = x := Tbl.get_set_same ..
@[simp] theorem State.cq_setSq (s : State) (r q : Nat) (x : SubRing) : (s.setSq r x).cq q = s.cq q := rfl
@[simp] theorem State.sq_setCq (s : State) (r q : Nat) (x : CplRing) : (s.setCq q x).sq r = s.sq r := rfl
theorem State.setSq_setSq (s : State) (r : Nat) (x y : SubRing) : (s.setSq r x).setSq r y = s.setSq r y := by
  unfold State.setSq; simp only [Tbl.set_set]

/-- The descriptor in progress, once started. -/
def InFlight.begun (x : InFlight) : InFlight := { x with state := 2 }

/-- The state in which a descriptor alone on its ring runs. -/
theorem State.Sole.start (H : s.Sole h slot) : ∃ x, (s.sq h.sq.val).inflight = [x] ∧ x.idx = h.idx ∧ x.done = none ∧ x.slot = slot ∧
    s.start h = (s.setSq h.sq.val { s.sq h.sq.val with inflight := [x.begun] }).marked slot := by
  obtain ⟨x, hx, hi, hd, hs⟩ := H.alone
  refine ⟨x, hx, hi, hd, hs, ?_⟩
  unfold State.start State.marked State.sporeField
  simp only [hx, List.find?_cons, hi, hd, decide_true, Option.isNone_none, Bool.and_self, List.map_cons, List.map_nil, if_true, hs]
  rw [InFlight.begun, hi, hd, hs]

theorem State.Sole.mayStart (H : s.Sole h slot) : s.mayStart h = true := by
  obtain ⟨x, hx, hi, -, -⟩ := H.alone
  unfold State.mayStart
  simp [hx, hi, H.fences]

/-- A descriptor alone on its ring runs at once. -/
theorem State.Sole.runs (H : s.Sole h slot) (k : State → State) : descriptor h s k = .next (k (s.start h)) := by
  unfold descriptor unlessInert
  simp [H.awake, H.mayStart]

@[simp] theorem State.marked_sq (s : State) (slot r : Nat) : (s.marked slot).sq r = s.sq r := by unfold State.marked; rfl
@[simp] theorem State.marked_cq (s : State) (slot r : Nat) : (s.marked slot).cq r = s.cq r := by unfold State.marked; rfl
@[simp] theorem State.marked_inert (s : State) (slot : Nat) : (s.marked slot).inert = s.inert := by unfold State.marked; rfl
@[simp] theorem State.marked_fences (s : State) (slot : Nat) : (s.marked slot).hif.fences = s.hif.fences := by unfold State.marked; rfl

theorem State.Sole.started (H : s.Sole h slot) : (s.start h).Sole h slot := by
  obtain ⟨x, hx, hi, hd, hs, e⟩ := H.start
  rw [e]
  refine ⟨?_, ⟨x.begun, ?_, hi, hd, hs⟩, ?_, ?_, ?_⟩
  · rw [State.marked_inert]; exact H.awake
  · rw [State.marked_sq, State.sq_setSq]
  · rw [State.marked_sq, State.sq_setSq]; exact H.running
  · rw [State.marked_fences]; exact H.fences
  · rw [State.marked_sq, State.sq_setSq, State.marked_cq, State.cq_setSq]; exact H.free

/-- Completing it. -/
theorem State.Sole.complete (H : s.Sole h slot) (op : Byte) {st : BitVec 16} (hst : st ≠ stAdmitDenied) (i0 i1 i2 : W32) (cause : BitVec 16) :
    s.completeWith h op st i0 i1 i2 cause = s.reported h slot op st i0 i1 i2 cause := by
  obtain ⟨x, hx, hi, hd, hs⟩ := H.alone
  have hf : s.finish h.sq.val (s.record h op st i0 i1 i2 cause) = s.reported h slot op st i0 i1 i2 cause := by
    have hr : s.record h op st i0 i1 i2 cause = { recordOf h slot op st i0 i1 i2 cause s.dtb with slot := none } := rfl
    rw [hr]
    unfold State.finish
    simp only [hx, List.any_cons, List.any_nil, Bool.or_false, recordOf, hi, hd, decide_true, Option.isNone_none, Bool.and_self, if_true,
      List.map_cons, List.map_nil, splitDone, List.foldl_cons, List.foldl_nil, hs]
    have hfree := H.free
    have hrun := H.running
    unfold State.pushRecord State.sqSettle State.reported
    simp only [State.cq_setSq, hfree, lt_irrefl, decide_false, Bool.false_and, State.sq_setCq, State.sq_setSq, hrun, Bool.false_eq_true, if_false,
      recordOf]
  unfold State.completeWith
  simp only [hst, if_false, hf]
  unfold State.checkFences
  have e : (s.reported h slot op st i0 i1 i2 cause).hif.fences = [] := H.fences
  rw [e]
  rfl

theorem State.hbmWrite_setSq (s : State) (r : Nat) (x : SubRing) (a : Nat) (l : List Byte) :
    (s.setSq r x).hbmWrite a l = (s.hbmWrite a l).setSq r x := by
  cases s; rfl

theorem State.setSq_marked (s : State) (r slot : Nat) (x : SubRing) : (s.setSq r x).marked slot = (s.marked slot).setSq r x := by
  unfold State.marked
  rw [State.setSq_lsch]
  generalize sporeAddr s.lsch.sporeA slot + 0x45 = a
  generalize sporeAddr s.lsch.sporeB slot + 0x45 = b
  rw [State.hbmWrite_setSq, State.hbmWrite_setSq]

theorem State.reported_setSq (u : State) (l : List InFlight) (op : Byte) (st : BitVec 16) (i0 i1 i2 : W32) (cause : BitVec 16) :
    (u.setSq h.sq.val { u.sq h.sq.val with inflight := l }).reported h slot op st i0 i1 i2 cause = u.reported h slot op st i0 i1 i2 cause := by
  unfold State.reported
  simp only [State.sq_setSq, State.cq_setSq, State.setSq_setSq, State.setSq_dtb]

/-- The spore STATE written at the start aside, nothing of the start shows in what a completed descriptor leaves. -/
theorem State.Sole.reported (H : s.Sole h slot) (op : Byte) (st : BitVec 16) (i0 i1 i2 : W32) (cause : BitVec 16) :
    (s.start h).reported h slot op st i0 i1 i2 cause = (s.marked slot).reported h slot op st i0 i1 i2 cause := by
  obtain ⟨x, -, -, -, -, e⟩ := H.start
  rw [e, State.setSq_marked, ← State.marked_sq s slot]
  exact State.reported_setSq ..

end Sys2Proof.Machine
end

