-- ==== Sys2Proof/Laws/Within.lean ====
section
/-! SUPPORT. `State.Within`: what a change of state leaves alone, by level, and the laws that the lemma of each operation is built from. -/

namespace Sys2Proof.Machine

/-- What a change of state leaves. Level 0: the queue stays, memories stay canonical, fuses only advance. Level 1 too: outside a reset the DTB does
not run backward, the strap stays and locks only grow. Level 2 too: the kept part stays. -/
structure State.Within (n : ℕ) (s t : State) : Prop where
  queue : t.pending = s.pending
  mem : s.memOk → t.memOk
  svn : s.svc.svnFuse.toNat ≤ t.svc.svnFuse.toNat
  bits : s.power.bits.toNat ≤ t.power.bits.toNat
  spent : s.boostSpent = true → t.boostSpent = true
  boot : 1 ≤ n → s.svc.booting = true → t.svc.booting = true
  run : 1 ≤ n → s.svc.booting = false →
    t.svc.booting = true ∨ (s.dtb.toNat ≤ t.dtb.toNat ∧ t.strap = s.strap ∧ s.locks &&& t.locks = s.locks)
  kept : 2 ≤ n → t.kept = s.kept

variable {n : ℕ} {r s t : State}

theorem State.Within.refl (s : State) : s.Within n s :=
  ⟨rfl, id, le_rfl, le_rfl, id, fun _ => id, fun _ _ => .inr ⟨le_rfl, rfl, BitVec.and_self⟩, fun _ => rfl⟩

theorem State.Within.trans (h : r.Within n s) (g : s.Within n t) : r.Within n t := by
  refine ⟨g.queue.trans h.queue, fun k => g.mem (h.mem k), h.svn.trans g.svn, h.bits.trans g.bits, fun k => g.spent (h.spent k),
    fun k b => g.boot k (h.boot k b), fun k b => ?_, fun k => (g.kept k).trans (h.kept k)⟩
  rcases h.run k b with e | ⟨e1, e2, e3⟩
  · exact .inl (g.boot k e)
  · cases hb : s.svc.booting with
    | true => exact .inl (g.boot k hb)
    | false =>
      rcases g.run k hb with f | ⟨f1, f2, f3⟩
      · exact .inl f
      · refine .inr ⟨e1.trans f1, f2.trans e2, ?_⟩
        rw [← e3, BitVec.and_assoc, f3]

theorem State.Within.weaken {m : ℕ} (h : r.Within m s) (k : n ≤ m) : r.Within n s :=
  ⟨h.queue, h.mem, h.svn, h.bits, h.spent, fun j => h.boot (j.trans k), fun j => h.run (j.trans k), fun j => h.kept (j.trans k)⟩

/-- Fields outside the kept part; memories, the DTB and the power controller apart. -/
theorem State.Within.upd (h : r.Within n s)
    (passThrough : Bool) (dtbSlew : Int) (dtbFrac : Int) (fresh : Nat) (readData : List Byte) (rows : Tbl DieRow) (hbmPoison : List Nat) (absent
    : List Nat) (readOnly : List Nat) (pageReqs : List Nat) (invalDone : Nat) (nextXfer : Nat) (commitCount : Nat) (commits : List CommitWait) (hif : Hif) (ctxs : Tbl
    Ctx) (lsch : Lsch) (ls : LockStep) (fronds : Tbl Frond) (movers : Tbl Mover) (comps : Tbl Comp) (tgs : Tbl Tg) (raster : Raster) (dptx : Tbl
    Dptx) (pwu : Tbl Pwu) (eeprom : Tbl Mem) (pmon : Pmon) (ldl : Ldl) (lwl : Lwl) (pins : Pins) :
    r.Within n { s with
      passThrough := passThrough, dtbSlew := dtbSlew, dtbFrac := dtbFrac, fresh := fresh, readData := readData, rows := rows, hbmPoison :=
      hbmPoison, absent := absent, readOnly := readOnly, pageReqs := pageReqs, invalDone := invalDone, nextXfer := nextXfer, commitCount := commitCount, commits :=
      commits, hif := hif, ctxs := ctxs, lsch := lsch, ls := ls, fronds := fronds, movers := movers, comps := comps, tgs := tgs, raster :=
      raster, dptx := dptx, pwu := pwu, eeprom := eeprom, pmon := pmon, ldl := ldl, lwl := lwl, pins := pins } :=
  h.trans ⟨rfl, id, le_rfl, le_rfl, id, fun _ => id, fun _ _ => .inr ⟨le_rfl, rfl, BitVec.and_self⟩, fun _ => rfl⟩

/-- The power controller too. -/
theorem State.Within.pow (h : r.Within n s)
    (passThrough : Bool) (dtbSlew : Int) (dtbFrac : Int) (fresh : Nat) (readData : List Byte) (rows : Tbl DieRow) (hbmPoison : List Nat) (absent
    : List Nat) (readOnly : List Nat) (pageReqs : List Nat) (invalDone : Nat) (nextXfer : Nat) (commitCount : Nat) (commits : List CommitWait) (hif : Hif) (ctxs : Tbl
    Ctx) (lsch : Lsch) (ls : LockStep) (fronds : Tbl Frond) (movers : Tbl Mover) (comps : Tbl Comp) (tgs : Tbl Tg) (raster : Raster) (dptx : Tbl
    Dptx) (pwu : Tbl Pwu) (eeprom : Tbl Mem) (pmon : Pmon) (ldl : Ldl) (lwl : Lwl) (pins : Pins)
    (power : Power) (g : s.power.bits.toNat ≤ power.bits.toNat) :
    r.Within n { s with
      passThrough := passThrough, dtbSlew := dtbSlew, dtbFrac := dtbFrac, fresh := fresh, readData := readData, rows := rows, hbmPoison :=
      hbmPoison, absent := absent, readOnly := readOnly, pageReqs := pageReqs, invalDone := invalDone, nextXfer := nextXfer, commitCount := commitCount, commits :=
      commits, hif := hif, ctxs := ctxs, lsch := lsch, ls := ls, fronds := fronds, movers := movers, comps := comps, tgs := tgs, raster :=
      raster, dptx := dptx, pwu := pwu, eeprom := eeprom, pmon := pmon, ldl := ldl, lwl := lwl, pins := pins, power := power } :=
  h.trans ⟨rfl, id, le_rfl, g, id, fun _ => id, fun _ _ => .inr ⟨le_rfl, rfl, BitVec.and_self⟩, fun _ => rfl⟩

theorem State.Within.hbm (h : r.Within n s) (m : Mem) (poison : List Nat) (g : s.hbm.wf = true → m.wf = true) :
    r.Within n { s with hbm := m, hbmPoison := poison } :=
  h.trans ⟨rfl, fun k => ⟨g k.1, k.2⟩, le_rfl, le_rfl, id, fun _ => id, fun _ _ => .inr ⟨le_rfl, rfl, BitVec.and_self⟩, fun _ => rfl⟩

theorem State.Within.host (h : r.Within n s) (m : Mem) (g : s.host.wf = true → m.wf = true) : r.Within n { s with host := m } :=
  h.trans ⟨rfl, fun k => ⟨k.1, g k.2.1, k.2.2⟩, le_rfl, le_rfl, id, fun _ => id, fun _ _ => .inr ⟨le_rfl, rfl, BitVec.and_self⟩, fun _ => rfl⟩

/-- Everything but the queue, the memories, the DTB, the strap and the locks, below level 2. -/
theorem State.Within.part (hn : n < 2) (h : r.Within n s)
    (ready : Bool) (configDefaulted : Bool) (boostSpent : Bool) (passThrough : Bool) (debugUnlocked : Bool) (image : BitVec 2) (lockedWr : Bool)
    (mapRefused : Bool) (byteWr : Bool) (frondEn : BitVec 256) (frondPwr : BitVec 256) (dtbSlew : Int) (dtbFrac : Int) (fresh : Nat) (readData :
    List Byte) (hostShadow : Tbl W32) (svcShadow : Tbl W32) (writeShadow : Tbl (Option W32)) (rows : Tbl DieRow) (inert : Bool) (memEpoch : Nat)
    (hbmPoison : List Nat) (absent : List Nat) (readOnly : List Nat) (pageReqs : List Nat) (invalDone : Nat) (nextXfer : Nat) (commitCount : Nat) (commits : List
    CommitWait) (hif : Hif) (ctxs : Tbl Ctx) (lsch : Lsch) (ls : LockStep) (fronds : Tbl Frond) (movers : Tbl Mover) (comps : Tbl Comp) (tgs :
    Tbl Tg) (raster : Raster) (dptx : Tbl Dptx) (dprx : Tbl Dprx) (panels : Tbl PanelCtl) (pwu : Tbl Pwu) (eeprom : Tbl Mem) (pmon : Pmon) (ldl
    : Ldl) (svc : Svc) (xspi : Xspi) (lwl : Lwl) (power : Power) (pcie : Pcie) (hbmCtl : Tbl HbmCtl) (pins : Pins)
    (g : s.xspi.flash.wf = true → xspi.flash.wf = true) (v : s.svc.svnFuse.toNat ≤ svc.svnFuse.toNat)
    (p : s.power.bits.toNat ≤ power.bits.toNat) (q : s.boostSpent = true → boostSpent = true) (w : svc.booting = s.svc.booting) :
    r.Within n { s with
      ready := ready, configDefaulted := configDefaulted, boostSpent := boostSpent, passThrough := passThrough, debugUnlocked :=
      debugUnlocked, image := image, lockedWr := lockedWr, mapRefused := mapRefused, byteWr := byteWr, frondEn := frondEn, frondPwr :=
      frondPwr, dtbSlew := dtbSlew, dtbFrac := dtbFrac, fresh := fresh, readData := readData, hostShadow := hostShadow, svcShadow :=
      svcShadow, writeShadow := writeShadow, rows := rows, inert := inert, memEpoch := memEpoch, hbmPoison := hbmPoison, absent := absent, readOnly := readOnly,
      pageReqs := pageReqs, invalDone := invalDone, nextXfer := nextXfer, commitCount := commitCount, commits := commits, hif := hif, ctxs :=
      ctxs, lsch := lsch, ls := ls, fronds := fronds, movers := movers, comps := comps, tgs := tgs, raster := raster, dptx := dptx, dprx :=
      dprx, panels := panels, pwu := pwu, eeprom := eeprom, pmon := pmon, ldl := ldl, svc := svc, xspi := xspi, lwl := lwl, power := power, pcie := pcie,
      hbmCtl := hbmCtl, pins := pins } :=
  h.trans ⟨rfl, fun k => ⟨k.1, k.2.1, g k.2.2⟩, v, p, q, fun _ k => w.trans k, fun _ _ => .inr ⟨le_rfl, rfl, BitVec.and_self⟩,
    fun k => absurd k (by omega)⟩

/-- The same at level 0, locks, strap and the boot phase too. -/
theorem State.Within.base {r s : State} (h : r.Within 0 s) (strap : BitVec 2) (locks : BitVec 5) (dtb : W64)
    (ready : Bool) (configDefaulted : Bool) (boostSpent : Bool) (passThrough : Bool) (debugUnlocked : Bool) (image : BitVec 2) (lockedWr : Bool)
    (mapRefused : Bool) (byteWr : Bool) (frondEn : BitVec 256) (frondPwr : BitVec 256) (dtbSlew : Int) (dtbFrac : Int) (fresh : Nat) (readData :
    List Byte) (hostShadow : Tbl W32) (svcShadow : Tbl W32) (writeShadow : Tbl (Option W32)) (rows : Tbl DieRow) (inert : Bool) (memEpoch : Nat)
    (hbmPoison : List Nat) (absent : List Nat) (readOnly : List Nat) (pageReqs : List Nat) (invalDone : Nat) (nextXfer : Nat) (commitCount : Nat) (commits : List
    CommitWait) (hif : Hif) (ctxs : Tbl Ctx) (lsch : Lsch) (ls : LockStep) (fronds : Tbl Frond) (movers : Tbl Mover) (comps : Tbl Comp) (tgs :
    Tbl Tg) (raster : Raster) (dptx : Tbl Dptx) (dprx : Tbl Dprx) (panels : Tbl PanelCtl) (pwu : Tbl Pwu) (eeprom : Tbl Mem) (pmon : Pmon) (ldl
    : Ldl) (svc : Svc) (xspi : Xspi) (lwl : Lwl) (power : Power) (pcie : Pcie) (hbmCtl : Tbl HbmCtl) (pins : Pins)
    (g : s.xspi.flash.wf = true → xspi.flash.wf = true) (v : s.svc.svnFuse.toNat ≤ svc.svnFuse.toNat)
    (p : s.power.bits.toNat ≤ power.bits.toNat) (q : s.boostSpent = true → boostSpent = true) :
    r.Within 0 { s with
      strap := strap, locks := locks, dtb := dtb,
      ready := ready, configDefaulted := configDefaulted, boostSpent := boostSpent, passThrough := passThrough, debugUnlocked :=
      debugUnlocked, image := image, lockedWr := lockedWr, mapRefused := mapRefused, byteWr := byteWr, frondEn := frondEn, frondPwr :=
      frondPwr, dtbSlew := dtbSlew, dtbFrac := dtbFrac, fresh := fresh, readData := readData, hostShadow := hostShadow, svcShadow :=
      svcShadow, writeShadow := writeShadow, rows := rows, inert := inert, memEpoch := memEpoch, hbmPoison := hbmPoison, absent := absent, readOnly := readOnly,
      pageReqs := pageReqs, invalDone := invalDone, nextXfer := nextXfer, commitCount := commitCount, commits := commits, hif := hif, ctxs :=
      ctxs, lsch := lsch, ls := ls, fronds := fronds, movers := movers, comps := comps, tgs := tgs, raster := raster, dptx := dptx, dprx :=
      dprx, panels := panels, pwu := pwu, eeprom := eeprom, pmon := pmon, ldl := ldl, svc := svc, xspi := xspi, lwl := lwl, power := power, pcie := pcie,
      hbmCtl := hbmCtl, pins := pins } :=
  h.trans ⟨rfl, fun k => ⟨k.1, k.2.1, g k.2.2⟩, v, p, q, fun k => absurd k (by omega), fun k => absurd k (by omega), fun k => absurd k (by omega)⟩

theorem State.Within.foldl {α : Type} (f : State → α → State) (l : List α) (g : ∀ s x, r.Within n s → r.Within n (f s x)) (h : r.Within n s) :
    r.Within n (l.foldl f s) := by
  induction l generalizing s with
  | nil => exact h
  | cons x l ih => exact ih (g s x h)

/-- A fold whose accumulator holds the state beside other values. -/
theorem State.Within.fold {α γ : Type} (p : γ → State) (f : γ → α → γ) (l : List α) (a : γ)
    (g : ∀ a x, r.Within n (p a) → r.Within n (p (f a x))) (h : r.Within n (p a)) : r.Within n (p (l.foldl f a)) := by
  induction l generalizing a with
  | nil => exact h
  | cons x l ih => exact ih (f a x) (g a x h)

theorem State.Within.ite {c : Prop} [Decidable c] {x y : State} (h : c → r.Within n x) (g : ¬c → r.Within n y) :
    r.Within n (if c then x else y) := by
  split
  · exact h ‹_›
  · exact g ‹_›

/-! ### Frond operations -/

/-- An engine operation that ends well leaves a state within `r`. -/
structure OpIn {α : Type} (n : ℕ) (r : State) (m : Op α) (s : State) : Prop where
  out : ∀ a t, m s = .ok (a, t) → r.Within n t

variable {α β : Type}

theorem OpIn.pure (h : r.Within n s) (a : α) : OpIn n r (Pure.pure a) s :=
  ⟨fun _ _ e => by cases e; exact h⟩

theorem OpIn.throw (e : Stop) : OpIn n r (MonadExcept.throw e : Op α) s :=
  ⟨fun _ _ e => by cases e⟩

theorem OpIn.bind {m : Op α} {k : α → Op β} (h : OpIn n r m s) (g : ∀ a t, r.Within n t → OpIn n r (k a) t) : OpIn n r (m >>= k) s := by
  refine ⟨fun x t e => ?_⟩
  have e' : (m s >>= fun p => k p.1 p.2) = Except.ok (x, t) := e
  cases hm : m s with
  | error c => rw [hm] at e'; cases e'
  | ok p => rw [hm] at e'; exact (g p.1 p.2 (h.out _ _ hm)).out x t e'

theorem OpIn.get {k : State → Op β} (g : OpIn n r (k s) s) : OpIn n r ((MonadState.get : Op State) >>= k) s := ⟨g.out⟩

theorem OpIn.set (h : r.Within n t) : OpIn n r (MonadStateOf.set t : Op PUnit) s :=
  ⟨fun _ _ e => by cases e; exact h⟩

theorem OpIn.mod (f : State → State) (h : r.Within n (f s)) : OpIn n r (modify f : Op PUnit) s :=
  ⟨fun _ _ e => by cases e; exact h⟩

theorem OpIn.foldlM {γ : Type} (f : α → γ → Op α) (l : List γ) (a : α) (g : ∀ a x t, r.Within n t → OpIn n r (f a x) t) (h : r.Within n s) :
    OpIn n r (l.foldlM f a) s := by
  induction l generalizing a s with
  | nil => exact OpIn.pure h a
  | cons x l ih => rw [List.foldlM_cons]; exact OpIn.bind (g a x s h) fun a t k => ih a k

theorem OpIn.ite {c : Prop} [Decidable c] {x y : Op α} (h : c → OpIn n r x s) (g : ¬c → OpIn n r y s) :
    OpIn n r (if c then x else y) s := by
  split
  · exact h ‹_›
  · exact g ‹_›

theorem need_in (h : r.Within n s) (c : Bool) (e : Stop) : OpIn n r (need c e) s := by
  unfold need
  split
  · exact OpIn.pure h ()
  · exact OpIn.throw e

theorem faultWith_in (c : BitVec 16) (p : Nat) : OpIn n r (faultWith c p : Op α) s := OpIn.throw _

theorem waitFor_in (k : BlockKind) : OpIn n r (waitFor k : Op α) s := OpIn.throw _

end Sys2Proof.Machine
end

