-- ==== Sys2Proof/Laws/WithinOps.lean ====
section
/-! SUPPORT. What each operation leaves alone (`State.Within`): the named operations, scratchpad accesses and rings. One lemma for each function that changes State. -/

namespace Sys2Proof.Machine

theorem unlessInert_within {lv : ℕ} {z s t : State} {k : State → State} (hz : z.Within lv s) (g : ∀ s, z.Within lv s → z.Within lv (k s))
    (hx : unlessInert s k = .next t) : z.Within lv t := by
  unfold unlessInert at hx
  cases hx
  split
  · exact hz
  · exact g s hz

theorem State.setCtx_within {lv : ℕ} {z s : State} (hz : z.Within lv s) (c : ℕ) (x : Ctx) :
    z.Within lv (State.setCtx s c x) := hz.upd ..

theorem State.setFrond_within {lv : ℕ} {z s : State} (hz : z.Within lv s) (f : ℕ) (x : Frond) :
    z.Within lv (State.setFrond s f x) := hz.upd ..

theorem State.setSq_within {lv : ℕ} {z s : State} (hz : z.Within lv s) (r : ℕ) (x : SubRing) :
    z.Within lv (State.setSq s r x) := hz.upd ..

theorem State.setCq_within {lv : ℕ} {z s : State} (hz : z.Within lv s) (r : ℕ) (x : CplRing) :
    z.Within lv (State.setCq s r x) := hz.upd ..

theorem State.setMover_within {lv : ℕ} {z s : State} (hz : z.Within lv s) (m : ℕ) (x : Mover) :
    z.Within lv (State.setMover s m x) := hz.upd ..

theorem State.setComp_within {lv : ℕ} {z s : State} (hz : z.Within lv s) (n : ℕ) (x : Comp) :
    z.Within lv (State.setComp s n x) := hz.upd ..

theorem State.setTg_within {lv : ℕ} {z s : State} (hz : z.Within lv s) (n : ℕ) (x : Tg) :
    z.Within lv (State.setTg s n x) := hz.upd ..

theorem State.setPort_within {lv : ℕ} {z s : State} (hz : z.Within lv s) (n : ℕ) (x : Dptx) :
    z.Within lv (State.setPort s n x) := hz.upd ..

theorem State.setRx_within {lv : ℕ} (hlv : lv < 2) {z s : State} (hz : z.Within lv s) (n : ℕ) (x : Dprx) :
    z.Within lv (State.setRx s n x) := by
  unfold State.setRx
  try dsimp only
  repeat' first
    | with_reducible assumption | with_reducible apply State.Within.foldl | (intro) | with_reducible apply State.Within.ite | split | dsimp only
    | with_reducible apply State.Within.part | exact le_rfl

theorem State.setPanel_within {lv : ℕ} (hlv : lv < 2) {z s : State} (hz : z.Within lv s) (n : ℕ) (x : PanelCtl) :
    z.Within lv (State.setPanel s n x) := by
  unfold State.setPanel
  try dsimp only
  repeat' first
    | with_reducible assumption | with_reducible apply State.Within.foldl | (intro) | with_reducible apply State.Within.ite | split | dsimp only
    | with_reducible apply State.Within.part | exact le_rfl

theorem State.setWear_within {lv : ℕ} {z s : State} (hz : z.Within lv s) (n : ℕ) (x : Pwu) :
    z.Within lv (State.setWear s n x) := hz.upd ..

theorem State.setOut_within {lv : ℕ} {z s : State} (hz : z.Within lv s) (n : ℕ) (x : LschOut) :
    z.Within lv (State.setOut s n x) := hz.upd ..

theorem State.setStream_within {lv : ℕ} {z s : State} (hz : z.Within lv s) (c : ℕ) (x : Stream) :
    z.Within lv (State.setStream s c x) := hz.upd ..

theorem State.setGroup_within {lv : ℕ} {z s : State} (hz : z.Within lv s) (g : ℕ) (x : McastGroup) :
    z.Within lv (State.setGroup s g x) := hz.upd ..

theorem State.setLink_within {lv : ℕ} {z s : State} (hz : z.Within lv s) (k : ℕ) (x : Link) :
    z.Within lv (State.setLink s k x) := hz.upd ..

theorem State.setHalo_within {lv : ℕ} {z s : State} (hz : z.Within lv s) (e : ℕ) (x : Halo) :
    z.Within lv (State.setHalo s e x) := hz.upd ..

theorem State.setTick_within {lv : ℕ} {z s : State} (hz : z.Within lv s) (n : ℕ) (x : FollowTick) :
    z.Within lv (State.setTick s n x) := hz.upd ..

theorem State.setUnit_within {lv : ℕ} {z s : State} (hz : z.Within lv s) (u : ℕ) (x : Sampler) :
    z.Within lv (State.setUnit s u x) := hz.upd ..

theorem State.setDomain_within {lv : ℕ} {z s : State} (hz : z.Within lv s) (d : ℕ) (x : Domain) :
    z.Within lv (State.setDomain s d x) := by
  unfold State.setDomain
  try dsimp only
  repeat' first
    | with_reducible assumption | with_reducible apply State.Within.foldl | (intro) | with_reducible apply State.Within.ite | split | dsimp only
    | with_reducible apply State.Within.upd | with_reducible apply State.Within.pow | exact le_rfl

theorem State.setRow_within {lv : ℕ} {z s : State} (hz : z.Within lv s) (r : ℕ) (x : DieRow) :
    z.Within lv (State.setRow s r x) := hz.upd ..

theorem State.setHbmc_within {lv : ℕ} (hlv : lv < 2) {z s : State} (hz : z.Within lv s) (k : ℕ) (x : HbmCtl) :
    z.Within lv (State.setHbmc s k x) := by
  unfold State.setHbmc
  try dsimp only
  repeat' first
    | with_reducible assumption | with_reducible apply State.Within.foldl | (intro) | with_reducible apply State.Within.ite | split | dsimp only
    | with_reducible apply State.Within.part | exact le_rfl

theorem State.at_within {lv : ℕ} {z s : State} (h : z.Within lv s) (now : W64) : z.Within lv (s.at_ now) := by
  unfold State.at_
  split
  · exact h.trans ⟨rfl, id, le_rfl, le_rfl, id, fun _ => id, fun _ _ => .inr ⟨Nat.le_of_lt ‹_›, rfl, BitVec.and_self⟩, fun _ => rfl⟩
  · exact h

theorem State.idle_within {z s : State} (h : z.Within 0 s) : z.Within 0 s.idle := by
  unfold State.idle
  split
  · exact h
  · exact h.trans ⟨rfl, id, le_rfl, le_rfl, id, fun k => absurd k (by omega), fun k => absurd k (by omega), fun k => absurd k (by omega)⟩

theorem State.draw_within {lv : ℕ} {z s : State} (hz : z.Within lv s)  :
    z.Within lv (State.draw s).2 := by
  unfold State.draw
  try dsimp only
  repeat' first
    | with_reducible assumption | with_reducible apply State.Within.foldl | (intro) | with_reducible apply State.Within.ite | split | dsimp only
    | with_reducible apply State.Within.upd

theorem State.draw_out {lv : ℕ} {z s t : State}  {a0 : W64}
    (hz : z.Within lv s) (e : State.draw s = (a0, t)) : z.Within lv t := by
  have g := State.draw_within hz
  rw [e] at g
  exact g

theorem State.hbmWrite_within {lv : ℕ} {z s : State} (h : z.Within lv s) (a : ℕ) (l : List Byte) : z.Within lv (State.hbmWrite s a l) := by
  exact h.hbm _ _ fun k => Mem.wf_write k a l

theorem State.hbmLay_within {lv : ℕ} {z s : State} (h : z.Within lv s) (a : ℕ) (l : List Byte) : z.Within lv (State.hbmLay s a l) := by
  exact h.hbm _ _ fun k => Mem.wf_lay k a l

theorem State.hostWrite_within {lv : ℕ} {z s : State} (h : z.Within lv s) (a : ℕ) (l : List Byte) : z.Within lv (State.hostWrite s a l) := by
  exact h.host _ fun k => Mem.wf_write k a l

theorem State.flashWrite_within {lv : ℕ} (hlv : lv < 2) {z s : State} (hz : z.Within lv s) (a : ℕ) (l : List Byte) :
    z.Within lv (State.flashWrite s a l) := by
  unfold State.flashWrite
  try dsimp only
  repeat' first
    | with_reducible assumption | with_reducible apply State.Within.foldl | (intro) | with_reducible apply State.Within.ite | split | dsimp only
    | with_reducible apply State.Within.part | exact le_rfl | rfl | exact fun _ => rfl | exact Mem.wf_write (by assumption) _ _

theorem State.memWrite_within {lv : ℕ} {z s : State} (hz : z.Within lv s) (host : Bool) (a : ℕ) (l : List Byte) :
    z.Within lv (State.memWrite s host a l) := by
  unfold State.memWrite
  try dsimp only
  repeat' first
    | with_reducible assumption | with_reducible apply State.hbmWrite_within | with_reducible apply State.hostWrite_within
    | with_reducible apply State.Within.foldl | (intro) | with_reducible apply State.Within.ite

theorem State.blurHbm_within {lv : ℕ} {z s : State} (hz : z.Within lv s) (a n : ℕ) : z.Within lv (s.blurHbm a n) :=
  (hz.hbm (s.hbm.write a (readBytes (Config.freeByte 702 s.fresh) a n)) s.hbmPoison (fun k => Mem.wf_write k _ _)).upd ..

theorem State.poisonHbm_within {lv : ℕ} {z s : State} (hz : z.Within lv s) (a : ℕ) (n : ℕ) :
    z.Within lv (State.poisonHbm s a n) := by
  unfold State.poisonHbm
  try dsimp only
  repeat' first
    | with_reducible assumption | with_reducible apply State.blurHbm_within | with_reducible apply State.Within.foldl | (intro)
    | with_reducible apply State.Within.ite | split | dsimp only | with_reducible apply State.Within.upd

theorem State.ladleFire_within {lv : ℕ} {z s : State} (hz : z.Within lv s) (cause : BitVec 3) (always : Bool) (linked : Bool) :
    z.Within lv (State.ladleFire s cause always linked) := by
  unfold State.ladleFire
  try dsimp only
  repeat' first
    | with_reducible assumption | with_reducible apply State.Within.foldl | (intro) | with_reducible apply State.Within.ite | split | dsimp only
    | with_reducible apply State.Within.upd

theorem State.ladleFault_within {lv : ℕ} {z s : State} (hz : z.Within lv s) (k : ℕ) :
    z.Within lv (State.ladleFault s k) := by
  unfold State.ladleFault
  try dsimp only
  repeat' first
    | with_reducible assumption | with_reducible apply State.ladleFire_within | with_reducible apply State.Within.foldl | (intro)
    | with_reducible apply State.Within.ite

theorem State.msix_within {lv : ℕ} {z s : State} (hz : z.Within lv s) (v : BitVec 9) :
    z.Within lv (State.msix s v) := by
  unfold State.msix
  try dsimp only
  repeat' first
    | with_reducible assumption | with_reducible apply State.Within.foldl | (intro) | with_reducible apply State.Within.ite | split | dsimp only
    | with_reducible apply State.Within.upd

theorem State.mbDone_within {lv : ℕ} (hlv : lv < 2) {z s : State} (hz : z.Within lv s) (result : BitVec 16) (reason : BitVec 4) :
    z.Within lv (State.mbDone s result reason) := by
  unfold State.mbDone
  try dsimp only
  repeat' first
    | with_reducible assumption | with_reducible apply State.Within.foldl | (intro) | with_reducible apply State.Within.ite | split | dsimp only
    | with_reducible apply State.Within.part | exact le_rfl

theorem State.mbRefuse_within {lv : ℕ} (hlv : lv < 2) {z s : State} (hz : z.Within lv s) (reason : BitVec 4) :
    z.Within lv (State.mbRefuse s reason) := by
  unfold State.mbRefuse
  try dsimp only
  repeat' first
    | with_reducible assumption | with_reducible apply State.mbDone_within

theorem State.mbUnknown_within {lv : ℕ} (hlv : lv < 2) {z s : State} (hz : z.Within lv s)  :
    z.Within lv (State.mbUnknown s) := by
  unfold State.mbUnknown
  try dsimp only
  repeat' first
    | with_reducible assumption | with_reducible refine State.draw_out ?_ (by with_reducible assumption) | with_reducible apply State.draw_within
    | with_reducible apply State.mbRefuse_within

theorem State.sampleFire_within {lv : ℕ} {z s : State} (hz : z.Within lv s) (u : ℕ) (value : BitVec 48) :
    z.Within lv (State.sampleFire s u value) := by
  unfold State.sampleFire
  try dsimp only
  repeat' first
    | with_reducible assumption | with_reducible apply State.setUnit_within
    | with_reducible refine State.draw_out ?_ (by with_reducible assumption) | with_reducible apply State.draw_within
    | with_reducible apply State.ladleFire_within | with_reducible apply State.msix_within | with_reducible apply State.Within.foldl | (intro)
    | with_reducible apply State.Within.ite

theorem State.count_within {lv : ℕ} {z s : State} (hz : z.Within lv s) (idx : ℕ) (n : ℕ) :
    z.Within lv (State.count s idx n) := by
  unfold State.count
  try dsimp only
  repeat' first
    | with_reducible assumption | with_reducible apply State.sampleFire_within | with_reducible apply State.Within.foldl | (intro)
    | with_reducible apply State.Within.ite | split | dsimp only | with_reducible apply State.Within.upd

theorem State.countSome_within {lv : ℕ} {z s : State} (hz : z.Within lv s) (idx : ℕ) (n : ℕ) :
    z.Within lv (State.countSome s idx n) := by
  unfold State.countSome
  try dsimp only
  repeat' first
    | with_reducible assumption | with_reducible apply State.count_within | with_reducible apply State.Within.foldl | (intro)
    | with_reducible apply State.Within.ite

theorem State.countCycles_within {lv : ℕ} {z s : State} (hz : z.Within lv s) (idx : ℕ) (n : ℕ) :
    z.Within lv (State.countCycles s idx n) := by
  unfold State.countCycles
  try dsimp only
  repeat' first
    | with_reducible assumption | with_reducible apply State.count_within | with_reducible apply State.Within.foldl | (intro)
    | with_reducible apply State.Within.ite | split | dsimp only | with_reducible apply State.Within.upd

theorem State.meter_within {lv : ℕ} {z s : State} (hz : z.Within lv s) (f : ℕ) :
    z.Within lv (State.meter s f) := by
  unfold State.meter
  try dsimp only
  repeat' first
    | with_reducible assumption | with_reducible apply State.countCycles_within | with_reducible apply State.Within.foldl | (intro)
    | with_reducible apply State.Within.ite | split | dsimp only | with_reducible apply State.Within.upd

theorem State.meterDomain_within {lv : ℕ} {z s : State} (hz : z.Within lv s) (d : ℕ) :
    z.Within lv (State.meterDomain s d) := by
  unfold State.meterDomain
  try dsimp only
  repeat' first
    | with_reducible assumption | with_reducible apply State.meter_within | with_reducible apply State.Within.foldl | (intro)

theorem State.pushRecord_within {lv : ℕ} {z s : State} (hz : z.Within lv s) (q : ℕ) (r : Record) :
    z.Within lv (State.pushRecord s q r) := by
  unfold State.pushRecord
  try dsimp only
  repeat' first
    | with_reducible assumption | with_reducible apply State.setCq_within | with_reducible apply State.count_within
    | with_reducible apply State.Within.foldl | (intro) | with_reducible apply State.Within.ite

theorem State.pushEvent_within {lv : ℕ} {z s : State} (hz : z.Within lv s) (q : ℕ) (r : Record) :
    z.Within lv (State.pushEvent s q r) := by
  unfold State.pushEvent
  try dsimp only
  repeat' first
    | with_reducible assumption | with_reducible apply State.setCq_within | with_reducible apply State.pushRecord_within
    | with_reducible apply State.Within.foldl | (intro) | with_reducible apply State.Within.ite

theorem State.ctxEvent_within {lv : ℕ} {z s : State} (hz : z.Within lv s) (c : ℕ) (status : BitVec 16) (op : Byte) (i0 : W32) (i1 : W32) (i2 : W32) :
    z.Within lv (State.ctxEvent s c status op i0 i1 i2) := by
  unfold State.ctxEvent
  try dsimp only
  repeat' first
    | with_reducible assumption | with_reducible apply State.pushEvent_within

theorem State.devEvent_within {lv : ℕ} {z s : State} (hz : z.Within lv s) (status : BitVec 16) (i0 : W32) (i1 : W32) :
    z.Within lv (State.devEvent s status i0 i1) := by
  unfold State.devEvent
  try dsimp only
  repeat' first
    | with_reducible assumption | with_reducible apply State.pushEvent_within

theorem State.ctxFaults_within {lv : ℕ} {z s : State} (hz : z.Within lv s) (ctxs : List ℕ) (status : BitVec 16) (info : W32) :
    z.Within lv (State.ctxFaults s ctxs status info) := by
  unfold State.ctxFaults
  try dsimp only
  repeat' first
    | with_reducible assumption | with_reducible apply State.ctxEvent_within | with_reducible apply State.Within.foldl | (intro)

theorem State.sporeField_within {lv : ℕ} {z s : State} (hz : z.Within lv s) (slot : ℕ) (off : ℕ) (l : List Byte) :
    z.Within lv (State.sporeField s slot off l) := by
  unfold State.sporeField
  try dsimp only
  repeat' first
    | with_reducible assumption | with_reducible apply State.hbmWrite_within

theorem State.haltRing_within {lv : ℕ} {z s : State} (hz : z.Within lv s) (r : ℕ) :
    z.Within lv (State.haltRing s r) := by
  unfold State.haltRing
  try dsimp only
  repeat' first
    | with_reducible assumption | with_reducible apply State.setSq_within | with_reducible apply State.count_within

theorem State.ringFault_within {lv : ℕ} {z s : State} (hz : z.Within lv s) (r : ℕ) :
    z.Within lv (State.ringFault s r) := by
  unfold State.ringFault
  try dsimp only
  repeat' first
    | with_reducible assumption | with_reducible apply State.pushEvent_within | with_reducible apply State.haltRing_within

theorem State.sqStart_within {lv : ℕ} {z s : State} (hz : z.Within lv s) (r : ℕ) :
    z.Within lv (State.sqStart s r) := by
  unfold State.sqStart
  try dsimp only
  repeat' first
    | with_reducible assumption | with_reducible apply State.setSq_within | with_reducible apply State.ringFault_within
    | with_reducible apply State.Within.foldl | (intro) | with_reducible apply State.Within.ite

theorem State.sqSettle_within {lv : ℕ} {z s : State} (hz : z.Within lv s) (r : ℕ) :
    z.Within lv (State.sqSettle s r) := by
  unfold State.sqSettle
  try dsimp only
  repeat' first
    | with_reducible assumption | with_reducible apply State.setSq_within | with_reducible apply State.sqStart_within
    | with_reducible apply State.Within.foldl | (intro) | with_reducible apply State.Within.ite

theorem State.cqSettle_within {lv : ℕ} {z s : State} (hz : z.Within lv s) (q : ℕ) :
    z.Within lv (State.cqSettle s q) := by
  unfold State.cqSettle
  try dsimp only
  repeat' first
    | with_reducible assumption | with_reducible apply State.setCq_within | with_reducible apply State.Within.foldl | (intro)
    | with_reducible apply State.Within.ite

theorem State.finish_within {lv : ℕ} {z s : State} (hz : z.Within lv s) (sq : ℕ) (r : Record) :
    z.Within lv (State.finish s sq r) := by
  unfold State.finish
  try dsimp only
  repeat' first
    | with_reducible assumption | with_reducible apply State.setSq_within | with_reducible apply State.pushRecord_within
    | with_reducible apply State.sqSettle_within | with_reducible apply State.Within.foldl | (intro) | with_reducible apply State.Within.ite

theorem State.settleFences_within {lv : ℕ} {z : State} (n : ℕ) {s : State} (hz : z.Within lv s) : z.Within lv (State.settleFences n s) := by
  induction n generalizing s with
  | zero => exact hz
  | succ n ih =>
    unfold State.settleFences
    dsimp only
    split
    · exact hz
    · exact ih (State.finish_within (hz.upd ..) _ _)

theorem State.checkFences_within {lv : ℕ} {z s : State} (hz : z.Within lv s)  :
    z.Within lv (State.checkFences s) := by
  unfold State.checkFences
  try dsimp only
  repeat' first
    | with_reducible assumption | with_reducible apply State.settleFences_within

theorem State.completeWith_within {lv : ℕ} {z s : State} (hz : z.Within lv s) (h : DescHdr) (op : Byte) (status : BitVec 16) (i0 : W32) (i1 : W32)
    (i2 : W32) (cause : BitVec 16) :
    z.Within lv (State.completeWith s h op status i0 i1 i2 cause) := by
  unfold State.completeWith
  try dsimp only
  repeat' first
    | with_reducible assumption | with_reducible apply State.count_within | with_reducible apply State.finish_within
    | with_reducible apply State.checkFences_within | with_reducible apply State.Within.foldl | (intro) | with_reducible apply State.Within.ite

theorem State.complete_within {lv : ℕ} {z s : State} (hz : z.Within lv s) (h : DescHdr) (op : Byte) (status : BitVec 16) :
    z.Within lv (State.complete s h op status) := by
  unfold State.complete
  try dsimp only
  repeat' first
    | with_reducible assumption | with_reducible apply State.completeWith_within

theorem State.start_within {lv : ℕ} {z s : State} (hz : z.Within lv s) (h : DescHdr) :
    z.Within lv (State.start s h) := by
  unfold State.start
  try dsimp only
  repeat' first
    | with_reducible assumption | with_reducible apply State.setSq_within | with_reducible apply State.sporeField_within
    | with_reducible apply State.Within.foldl | (intro) | with_reducible apply State.Within.ite | split

theorem State.progress_within {lv : ℕ} {z s : State} (hz : z.Within lv s) (h : DescHdr) (n : ℕ) :
    z.Within lv (State.progress s h n) := by
  unfold State.progress
  try dsimp only
  repeat' first
    | with_reducible assumption | with_reducible apply State.sporeField_within | with_reducible apply State.Within.foldl | (intro)
    | with_reducible apply State.Within.ite | split

theorem descriptor_within {lv : ℕ} {z s t : State} {h : DescHdr} {k : State → State} (hz : z.Within lv s)
    (g : ∀ s, z.Within lv s → z.Within lv (k s)) (hx : descriptor h s k = .next t) : z.Within lv t := by
  unfold descriptor at hx
  refine unlessInert_within hz (fun s hz => ?_) hx
  split
  · exact g _ (State.start_within hz h)
  · exact hz

theorem State.descRingFault_within {lv : ℕ} {z s : State} (hz : z.Within lv s) (h : DescHdr) (op : Byte) :
    z.Within lv (State.descRingFault s h op) := by
  unfold State.descRingFault
  try dsimp only
  repeat' first
    | with_reducible assumption | with_reducible apply State.haltRing_within | with_reducible apply State.complete_within

theorem State.modTask_within {lv : ℕ} {z s : State} (hz : z.Within lv s) (f : ℕ) (live : Bool) (g : Task → Task) :
    z.Within lv (State.modTask s f live g) := by
  unfold State.modTask
  try dsimp only
  repeat' first
    | with_reducible assumption | with_reducible apply State.setFrond_within | with_reducible apply State.Within.foldl | (intro)
    | with_reducible apply State.Within.ite

theorem State.cachedRead_within {lv : ℕ} {z s : State} (hz : z.Within lv s) (f : ℕ) (a : ℕ) (n : ℕ) :
    z.Within lv (State.cachedRead s f a n).2 := by
  unfold State.cachedRead
  try dsimp only
  repeat' first
    | with_reducible assumption | with_reducible apply State.setFrond_within | with_reducible apply State.Within.foldl | (intro)
    | with_reducible apply State.Within.ite | split

theorem State.cachedRead_out {lv : ℕ} {z s t : State} {f : ℕ} {a : ℕ} {n : ℕ} {a0 : List Byte}
    (hz : z.Within lv s) (e : State.cachedRead s f a n = (a0, t)) : z.Within lv t := by
  have g := State.cachedRead_within hz f a n
  rw [e] at g
  exact g

theorem State.cachedWrite_within {lv : ℕ} {z s : State} (hz : z.Within lv s) (f : ℕ) (a : ℕ) (l : List Byte) :
    z.Within lv (State.cachedWrite s f a l) := by
  unfold State.cachedWrite
  try dsimp only
  repeat' first
    | with_reducible assumption | with_reducible apply State.setFrond_within | with_reducible apply State.hbmWrite_within

theorem State.frondHbmRead_within {lv : ℕ} {z s : State} (hz : z.Within lv s) (f : ℕ) (cached : Bool) (a : ℕ) (n : ℕ) :
    z.Within lv (State.frondHbmRead s f cached a n).2 := by
  unfold State.frondHbmRead
  try dsimp only
  repeat' first
    | with_reducible assumption | with_reducible refine State.cachedRead_out ?_ (by with_reducible assumption)
    | with_reducible apply State.cachedRead_within | with_reducible apply State.Within.foldl | (intro) | with_reducible apply State.Within.ite
    | split

theorem State.frondHbmRead_out {lv : ℕ} {z s t : State} {f : ℕ} {cached : Bool} {a : ℕ} {n : ℕ} {a0 : List Byte}
    (hz : z.Within lv s) (e : State.frondHbmRead s f cached a n = (a0, t)) : z.Within lv t := by
  have g := State.frondHbmRead_within hz f cached a n
  rw [e] at g
  exact g

theorem State.frondHbmWrite_within {lv : ℕ} {z s : State} (hz : z.Within lv s) (f : ℕ) (cached : Bool) (a : ℕ) (l : List Byte) :
    z.Within lv (State.frondHbmWrite s f cached a l) := by
  unfold State.frondHbmWrite
  try dsimp only
  repeat' first
    | with_reducible assumption | with_reducible apply State.hbmWrite_within | with_reducible apply State.cachedWrite_within
    | with_reducible apply State.Within.foldl | (intro) | with_reducible apply State.Within.ite

theorem State.rowRead_within {lv : ℕ} {z s : State} (hz : z.Within lv s) (f : ℕ) (p : Place) (off : ℕ) (n : ℕ) :
    z.Within lv (State.rowRead s f p off n).2 := by
  unfold State.rowRead
  try dsimp only
  repeat' first
    | with_reducible assumption | with_reducible apply State.count_within
    | with_reducible refine State.frondHbmRead_out ?_ (by with_reducible assumption) | with_reducible apply State.frondHbmRead_within
    | with_reducible apply State.Within.foldl | (intro) | with_reducible apply State.Within.ite | split

theorem State.rowRead_out {lv : ℕ} {z s t : State} {f : ℕ} {p : Place} {off : ℕ} {n : ℕ} {a0 : List Byte}
    (hz : z.Within lv s) (e : State.rowRead s f p off n = (a0, t)) : z.Within lv t := by
  have g := State.rowRead_within hz f p off n
  rw [e] at g
  exact g

theorem State.rowWrite_within {lv : ℕ} {z s : State} (hz : z.Within lv s) (f : ℕ) (p : Place) (off : ℕ) (l : List Byte) :
    z.Within lv (State.rowWrite s f p off l) := by
  unfold State.rowWrite
  try dsimp only
  repeat' first
    | with_reducible assumption | with_reducible apply State.setFrond_within | with_reducible apply State.count_within
    | with_reducible apply State.frondHbmWrite_within | with_reducible apply State.Within.foldl | (intro) | with_reducible apply State.Within.ite
    | split

theorem State.markRow_within {lv : ℕ} {z s : State} (hz : z.Within lv s) (f : ℕ) (p : Place) (bad : Bool) :
    z.Within lv (State.markRow s f p bad) := by
  unfold State.markRow
  try dsimp only
  repeat' first
    | with_reducible assumption | with_reducible apply State.setFrond_within | with_reducible apply State.poisonHbm_within
    | with_reducible apply State.Within.foldl | (intro) | with_reducible apply State.Within.ite | split

theorem State.freeBytes_within {lv : ℕ} {z s : State} (hz : z.Within lv s) (n : ℕ) :
    z.Within lv (State.freeBytes s n).2 := by
  unfold State.freeBytes
  try dsimp only
  repeat' first
    | with_reducible assumption | with_reducible apply State.Within.foldl | (intro) | with_reducible apply State.Within.ite | split | dsimp only
    | with_reducible apply State.Within.upd

theorem State.freeBytes_out {lv : ℕ} {z s t : State} {n : ℕ} {a0 : List Byte}
    (hz : z.Within lv s) (e : State.freeBytes s n = (a0, t)) : z.Within lv t := by
  have g := State.freeBytes_within hz n
  rw [e] at g
  exact g

theorem State.spoilRow_within {lv : ℕ} {z s : State} (hz : z.Within lv s) (f : ℕ) (p : Place) :
    z.Within lv (State.spoilRow s f p) := by
  unfold State.spoilRow
  try dsimp only
  repeat' first
    | with_reducible assumption | with_reducible apply State.setFrond_within | with_reducible apply State.hbmWrite_within
    | with_reducible apply State.markRow_within | with_reducible refine State.freeBytes_out ?_ (by with_reducible assumption)
    | with_reducible apply State.freeBytes_within | with_reducible apply State.Within.foldl | (intro) | with_reducible apply State.Within.ite
    | split

theorem State.spoilLines_within {lv : ℕ} {z s : State} (hz : z.Within lv s) (f : ℕ) (lines : List ℕ) :
    z.Within lv (State.spoilLines s f lines) := by
  unfold State.spoilLines
  try dsimp only
  repeat' first
    | with_reducible assumption | with_reducible apply State.setFrond_within
    | with_reducible refine State.freeBytes_out ?_ (by with_reducible assumption) | with_reducible apply State.freeBytes_within
    | with_reducible apply State.Within.foldl | (intro)

theorem State.fillRow_within {lv : ℕ} {z s : State} (hz : z.Within lv s) (f : ℕ) (live : Bool) (ctx : ℕ) (p : Place) (reg : Option (ℕ × ℕ)) (own :
    Bool) :
    z.Within lv (State.fillRow s f live ctx p reg own) := by
  unfold State.fillRow
  try dsimp only
  repeat' first
    | with_reducible assumption | with_reducible apply State.setFrond_within | with_reducible apply State.modTask_within
    | with_reducible apply State.Within.foldl | (intro) | with_reducible apply State.Within.ite

theorem State.noteRead_within {lv : ℕ} {z s : State} (hz : z.Within lv s) (f : ℕ) (live : Bool) (ctx : ℕ) (c : ℕ) (row : ℕ) :
    z.Within lv (State.noteRead s f live ctx c row) := by
  unfold State.noteRead
  try dsimp only
  repeat' first
    | with_reducible assumption | with_reducible apply State.modTask_within | with_reducible apply State.Within.foldl | (intro)
    | with_reducible apply State.Within.ite | split

theorem readAccess_in {lv : ℕ} {z s : State} (hz : z.Within lv s) (f : ℕ) (live : Bool) (a : Access) : OpIn lv z (readAccess f live a) s := by
  unfold readAccess
  try dsimp only
  repeat' first
    | with_reducible assumption | with_reducible refine State.rowRead_out ?_ (by with_reducible assumption)
    | with_reducible apply State.rowRead_within | with_reducible apply State.noteRead_within | with_reducible apply need_in
    | with_reducible exact faultWith_in _ _ | with_reducible exact waitFor_in _ | with_reducible apply OpIn.get | with_reducible apply OpIn.set
    | with_reducible apply OpIn.mod | with_reducible apply OpIn.pure | with_reducible exact OpIn.throw _ | with_reducible apply OpIn.foldlM
    | with_reducible apply OpIn.bind | with_reducible apply OpIn.ite | with_reducible apply State.Within.foldl | (intro)
    | with_reducible apply State.Within.ite | split

theorem writeAccess_in {lv : ℕ} {z s : State} (hz : z.Within lv s) (f : ℕ) (live : Bool) (a : Access) (l : List Byte) (bad : Bool) : OpIn lv z
    (writeAccess f live a l bad) s := by
  unfold writeAccess
  try dsimp only
  repeat' first
    | with_reducible assumption | with_reducible apply State.setFrond_within | with_reducible apply State.modTask_within
    | with_reducible apply State.rowWrite_within | with_reducible apply State.markRow_within | with_reducible apply State.fillRow_within
    | with_reducible apply need_in | with_reducible exact faultWith_in _ _ | with_reducible exact waitFor_in _ | with_reducible apply OpIn.get
    | with_reducible apply OpIn.set | with_reducible apply OpIn.mod | with_reducible apply OpIn.pure | with_reducible exact OpIn.throw _
    | with_reducible apply OpIn.foldlM | with_reducible apply OpIn.bind | with_reducible apply OpIn.ite | with_reducible apply State.Within.foldl
    | (intro) | with_reducible apply State.Within.ite | split

theorem State.bumpCursor_within {lv : ℕ} {z s : State} (hz : z.Within lv s) (f : ℕ) (live : Bool) (pat : ℕ) (n : ℕ) (total : ℕ) :
    z.Within lv (State.bumpCursor s f live pat n total) := by
  unfold State.bumpCursor
  try dsimp only
  repeat' first
    | with_reducible assumption | with_reducible apply State.modTask_within

theorem readPat_in {lv : ℕ} {z s : State} (hz : z.Within lv s) (f : ℕ) (live : Bool) (pat : ℕ) (n : ℕ) : OpIn lv z (readPat f live pat n) s := by
  unfold readPat
  try dsimp only
  repeat' first
    | with_reducible assumption | with_reducible apply readAccess_in | with_reducible apply State.bumpCursor_within | with_reducible apply need_in
    | with_reducible exact faultWith_in _ _ | with_reducible exact waitFor_in _ | with_reducible apply OpIn.get | with_reducible apply OpIn.set
    | with_reducible apply OpIn.mod | with_reducible apply OpIn.pure | with_reducible exact OpIn.throw _ | with_reducible apply OpIn.foldlM
    | with_reducible apply OpIn.bind | with_reducible apply OpIn.ite | with_reducible apply State.Within.foldl | (intro)
    | with_reducible apply State.Within.ite | split

theorem writePat_in {lv : ℕ} {z s : State} (hz : z.Within lv s) (f : ℕ) (live : Bool) (pat : ℕ) (rows : List (List Byte)) (bad : Bool) : OpIn lv z
    (writePat f live pat rows bad) s := by
  unfold writePat
  try dsimp only
  repeat' first
    | with_reducible assumption | with_reducible apply writeAccess_in | with_reducible apply State.bumpCursor_within
    | with_reducible apply need_in | with_reducible exact faultWith_in _ _ | with_reducible exact waitFor_in _ | with_reducible apply OpIn.get
    | with_reducible apply OpIn.set | with_reducible apply OpIn.mod | with_reducible apply OpIn.pure | with_reducible exact OpIn.throw _
    | with_reducible apply OpIn.foldlM | with_reducible apply OpIn.bind | with_reducible apply OpIn.ite | with_reducible apply State.Within.foldl
    | (intro) | with_reducible apply State.Within.ite | split

theorem readStream_in {lv : ℕ} {z s : State} (hz : z.Within lv s) (f : ℕ) (live : Bool) (pat : ℕ) (n : ℕ) : OpIn lv z (readStream f live pat n) s :=
    by
  unfold readStream
  try dsimp only
  repeat' first
    | with_reducible assumption | with_reducible apply readPat_in | with_reducible apply need_in | with_reducible exact faultWith_in _ _
    | with_reducible exact waitFor_in _ | with_reducible apply OpIn.get | with_reducible apply OpIn.set | with_reducible apply OpIn.mod
    | with_reducible apply OpIn.pure | with_reducible exact OpIn.throw _ | with_reducible apply OpIn.foldlM | with_reducible apply OpIn.bind
    | with_reducible apply OpIn.ite | with_reducible apply State.Within.foldl | (intro)

theorem writeStream_in {lv : ℕ} {z s : State} (hz : z.Within lv s) (f : ℕ) (live : Bool) (pat : ℕ) (l : List Byte) (bad : Bool) : OpIn lv z
    (writeStream f live pat l bad) s := by
  unfold writeStream
  try dsimp only
  repeat' first
    | with_reducible assumption | with_reducible apply writePat_in | with_reducible apply need_in | with_reducible exact faultWith_in _ _
    | with_reducible exact waitFor_in _ | with_reducible apply OpIn.get | with_reducible apply OpIn.set | with_reducible apply OpIn.mod
    | with_reducible apply OpIn.pure | with_reducible exact OpIn.throw _ | with_reducible apply OpIn.foldlM | with_reducible apply OpIn.bind
    | with_reducible apply OpIn.ite | with_reducible apply State.Within.foldl | (intro)

theorem roundAll_in {lv : ℕ} {z s : State} (hz : z.Within lv s) (f : ℕ) (live : Bool) (fmt : ℕ) (rnd : ℕ) (ieee : Bool) (tensor : ℕ) (track : Bool)
    (l : List XVal) : OpIn lv z (roundAll f live fmt rnd ieee tensor track l) s := by
  unfold roundAll
  try dsimp only
  repeat' first
    | with_reducible assumption | with_reducible apply State.modTask_within | with_reducible apply need_in | with_reducible exact faultWith_in _ _
    | with_reducible exact waitFor_in _ | with_reducible apply OpIn.get | with_reducible apply OpIn.set | with_reducible apply OpIn.mod
    | with_reducible apply OpIn.pure | with_reducible exact OpIn.throw _ | with_reducible apply OpIn.foldlM | with_reducible apply OpIn.bind
    | with_reducible apply OpIn.ite | with_reducible apply State.Within.foldl | (intro)

theorem State.readTail_within {lv : ℕ} {z s : State} (hz : z.Within lv s) (r : ℕ) :
    z.Within lv (State.readTail s r) := by
  unfold State.readTail
  try dsimp only
  repeat' first
    | with_reducible assumption | with_reducible apply State.setSq_within | with_reducible apply State.ringFault_within
    | with_reducible apply State.Within.foldl | (intro) | with_reducible apply State.Within.ite | split

theorem State.take_within {lv : ℕ} {z s : State} (hz : z.Within lv s) (sq : RingId) :
    z.Within lv (State.take s sq) := by
  unfold State.take
  try dsimp only
  repeat' first
    | with_reducible assumption | with_reducible apply State.setSq_within | with_reducible apply State.hbmWrite_within
    | with_reducible apply State.hostWrite_within | with_reducible apply State.ringFault_within | with_reducible apply State.complete_within
    | with_reducible apply State.Within.foldl | (intro) | with_reducible apply State.Within.ite | split | dsimp only
    | with_reducible apply State.Within.upd

theorem execDescriptorTake_within {lv : ℕ} {z s t : State} {sq : RingId} {now : W64} (hz : z.Within lv s) (hx : execDescriptorTake sq now s = .next
    t) : z.Within lv t := by
  unfold execDescriptorTake at hx
  refine unlessInert_within hz (fun s hz => ?_) hx
  try dsimp only
  repeat' first
    | with_reducible assumption | with_reducible apply State.at_within | with_reducible apply State.take_within
    | with_reducible apply State.Within.foldl | (intro) | with_reducible apply State.Within.ite

theorem execSqTailPoll_within {lv : ℕ} {z s t : State} {sq : RingId} {now : W64} (hz : z.Within lv s) (hx : execSqTailPoll sq now s = .next t) :
    z.Within lv t := by
  unfold execSqTailPoll at hx
  refine unlessInert_within hz (fun s hz => ?_) hx
  try dsimp only
  repeat' first
    | with_reducible assumption | with_reducible apply State.at_within | with_reducible apply State.readTail_within
    | with_reducible apply State.Within.foldl | (intro) | with_reducible apply State.Within.ite

theorem execRingSleep_within {lv : ℕ} {z s t : State} {sq : RingId} (hz : z.Within lv s) (hx : execRingSleep sq s = .next t) : z.Within lv t := by
  unfold execRingSleep at hx
  refine unlessInert_within hz (fun s hz => ?_) hx
  try dsimp only
  repeat' first
    | with_reducible assumption | with_reducible apply State.setSq_within | with_reducible apply State.hostWrite_within
    | with_reducible apply State.ringFault_within | with_reducible apply State.readTail_within | with_reducible apply State.Within.foldl | (intro)
    | with_reducible apply State.Within.ite

theorem execKick_within {lv : ℕ} {z s t : State} {value : W32} (hz : z.Within lv s) (hx : execKick value s = .next t) : z.Within lv t := by
  unfold execKick at hx
  refine unlessInert_within hz (fun s hz => ?_) hx
  try dsimp only
  repeat' first
    | with_reducible assumption | with_reducible apply State.setSq_within | with_reducible apply State.hostWrite_within
    | with_reducible apply State.ringFault_within | with_reducible apply State.readTail_within | with_reducible apply State.Within.foldl | (intro)
    | with_reducible apply State.Within.ite | split | dsimp only | with_reducible apply State.Within.upd

theorem State.holdRecords_within {lv : ℕ} {z s : State} (hz : z.Within lv s) (q : ℕ) :
    z.Within lv (State.holdRecords s q) := by
  unfold State.holdRecords
  try dsimp only
  repeat' first
    | with_reducible assumption | with_reducible apply State.setCq_within | with_reducible apply State.count_within
    | with_reducible apply State.Within.foldl | (intro) | with_reducible apply State.Within.ite

theorem State.moderate_within {lv : ℕ} {z s : State} (hz : z.Within lv s) (q : ℕ) (irq : Bool) :
    z.Within lv (State.moderate s q irq) := by
  unfold State.moderate
  try dsimp only
  repeat' first
    | with_reducible assumption | with_reducible apply State.setCq_within | with_reducible apply State.msix_within
    | with_reducible apply State.Within.foldl | (intro) | with_reducible apply State.Within.ite

theorem State.sporeDone_within {lv : ℕ} {z s : State} (hz : z.Within lv s) (r : Record) :
    z.Within lv (State.sporeDone s r) := by
  unfold State.sporeDone
  try dsimp only
  repeat' first
    | with_reducible assumption | with_reducible apply State.sporeField_within | with_reducible apply State.Within.foldl | (intro)
    | with_reducible apply State.Within.ite | split | dsimp only | with_reducible apply State.Within.upd

theorem execCompletionRecordWrite_within {lv : ℕ} {z s t : State} {cq : RingId} {now : W64} (hz : z.Within lv s) (hx : execCompletionRecordWrite cq
    now s = .next t) : z.Within lv t := by
  unfold execCompletionRecordWrite at hx
  refine unlessInert_within hz (fun s hz => ?_) hx
  try dsimp only
  repeat' first
    | with_reducible assumption | with_reducible apply State.setCq_within | with_reducible apply State.at_within
    | with_reducible apply State.hostWrite_within | with_reducible apply State.cqSettle_within | with_reducible apply State.take_within
    | with_reducible apply State.holdRecords_within | with_reducible apply State.moderate_within | with_reducible apply State.sporeDone_within
    | with_reducible apply State.Within.foldl | (intro) | with_reducible apply State.Within.ite | split

theorem execCqHeadPoll_within {lv : ℕ} {z s t : State} {cq : RingId} (hz : z.Within lv s) (hx : execCqHeadPoll cq s = .next t) : z.Within lv t := by
  unfold execCqHeadPoll at hx
  refine unlessInert_within hz (fun s hz => ?_) hx
  try dsimp only
  repeat' first
    | with_reducible assumption | with_reducible apply State.setCq_within | with_reducible apply State.Within.foldl | (intro)
    | with_reducible apply State.Within.ite

theorem execMsixModerationTimer_within {lv : ℕ} {z s t : State} {cq : RingId} {now : W64} (hz : z.Within lv s) (hx : execMsixModerationTimer cq now
    s = .next t) : z.Within lv t := by
  unfold execMsixModerationTimer at hx
  refine unlessInert_within hz (fun s hz => ?_) hx
  try dsimp only
  repeat' first
    | with_reducible assumption | with_reducible apply State.setCq_within | with_reducible apply State.at_within
    | with_reducible apply State.msix_within | with_reducible apply State.Within.foldl | (intro) | with_reducible apply State.Within.ite | split

theorem State.sqCfgWrite_within {lv : ℕ} {z s : State} (hz : z.Within lv s) (r : ℕ) (v : W32) :
    z.Within lv (State.sqCfgWrite s r v) := by
  unfold State.sqCfgWrite
  try dsimp only
  repeat' first
    | with_reducible assumption | with_reducible apply State.setSq_within | with_reducible apply State.sqStart_within
    | with_reducible apply State.Within.foldl | (intro) | with_reducible apply State.Within.ite

theorem State.cqCfgWrite_within {lv : ℕ} {z s : State} (hz : z.Within lv s) (q : ℕ) (v : W32) :
    z.Within lv (State.cqCfgWrite s q v) := by
  unfold State.cqCfgWrite
  try dsimp only
  repeat' first
    | with_reducible assumption | with_reducible apply State.setCq_within | with_reducible apply State.start_within
    | with_reducible apply State.Within.foldl | (intro) | with_reducible apply State.Within.ite

theorem execRingEnable_within {lv : ℕ} {z s t : State} {completion : Bool} {ring : RingId} {value : W32} (hz : z.Within lv s) (hx : execRingEnable
    completion ring value s = .next t) : z.Within lv t := by
  unfold execRingEnable at hx
  refine unlessInert_within hz (fun s hz => ?_) hx
  try dsimp only
  repeat' first
    | with_reducible assumption | with_reducible apply State.sqCfgWrite_within | with_reducible apply State.cqCfgWrite_within
    | with_reducible apply State.Within.foldl | (intro) | with_reducible apply State.Within.ite

theorem execNop_within {lv : ℕ} {z s t : State} {h : DescHdr} (hz : z.Within lv s) (hx : execNop h s = .next t) : z.Within lv t := by
  unfold execNop at hx
  refine descriptor_within hz (fun s hz => ?_) hx
  try dsimp only
  repeat' first
    | with_reducible assumption | with_reducible apply State.complete_within

theorem execFence_within {lv : ℕ} {z s t : State} {h : DescHdr} {ringMask : W64} (hz : z.Within lv s) (hx : execFence h ringMask s = .next t) :
    z.Within lv t := by
  unfold execFence at hx
  refine descriptor_within hz (fun s hz => ?_) hx
  try dsimp only
  repeat' first
    | with_reducible assumption | with_reducible apply State.checkFences_within | with_reducible apply State.Within.foldl | (intro)
    | with_reducible apply State.Within.ite | split | dsimp only | with_reducible apply State.Within.upd

theorem State.servedWrite_within {lv : ℕ} {z s : State} (hz : z.Within lv s) (a : ℕ) (l : List Byte) :
    z.Within lv (State.servedWrite s a l) := by
  unfold State.servedWrite
  try dsimp only
  repeat' first
    | with_reducible assumption | with_reducible apply State.hbmWrite_within | with_reducible apply State.Within.foldl | (intro)
    | with_reducible apply State.Within.ite

theorem execBar4Access_within {lv : ℕ} {z s t : State} {write : Bool} {offset : W64} {data : List Byte} (hz : z.Within lv s) (hx : execBar4Access
    write offset data s = .next t) : z.Within lv t := by
  unfold execBar4Access at hx
  refine unlessInert_within hz (fun s hz => ?_) hx
  try dsimp only
  repeat' first
    | with_reducible assumption | with_reducible apply State.servedWrite_within | with_reducible apply State.Within.foldl | (intro)
    | with_reducible apply State.Within.ite | split | dsimp only | with_reducible apply State.Within.upd

end Sys2Proof.Machine
end

