-- ==== Sys2Proof/Laws/WithinEngines.lean ====
section
/-! SUPPORT. What each operation leaves alone (`State.Within`): the engine operations of the matrix and vector units. One lemma for each function that changes State. -/

namespace Sys2Proof.Machine

theorem State.readyTile_within {lv : ℕ} {z s : State} (hz : z.Within lv s) (f : ℕ) (i : ℕ) :
    z.Within lv (State.readyTile s f i) := by
  unfold State.readyTile
  try dsimp only
  repeat' first
    | with_reducible assumption | with_reducible apply State.setFrond_within | with_reducible apply State.Within.foldl | (intro)
    | with_reducible apply State.Within.ite

theorem boundTile_in {lv : ℕ} {z s : State} (hz : z.Within lv s) (f : ℕ) (live : Bool) (h : ℕ) : OpIn lv z (boundTile f live h) s := by
  unfold boundTile
  try dsimp only
  repeat' first
    | with_reducible assumption | with_reducible apply need_in | with_reducible exact faultWith_in _ _ | with_reducible exact waitFor_in _
    | with_reducible apply OpIn.get | with_reducible apply OpIn.set | with_reducible apply OpIn.mod | with_reducible apply OpIn.pure
    | with_reducible exact OpIn.throw _ | with_reducible apply OpIn.foldlM | with_reducible apply OpIn.bind | with_reducible apply OpIn.ite
    | with_reducible apply State.Within.foldl | (intro) | with_reducible apply State.Within.ite | split

theorem stepTile_in {lv : ℕ} {z s : State} (hz : z.Within lv s) (f : ℕ) (live : Bool) (h : ℕ) : OpIn lv z (stepTile f live h) s := by
  unfold stepTile
  try dsimp only
  repeat' first
    | with_reducible assumption | with_reducible apply boundTile_in | with_reducible apply need_in | with_reducible exact faultWith_in _ _
    | with_reducible exact waitFor_in _ | with_reducible apply OpIn.get | with_reducible apply OpIn.set | with_reducible apply OpIn.mod
    | with_reducible apply OpIn.pure | with_reducible exact OpIn.throw _ | with_reducible apply OpIn.foldlM | with_reducible apply OpIn.bind
    | with_reducible apply OpIn.ite | with_reducible apply State.Within.foldl | (intro)

theorem State.unbind_within {lv : ℕ} {z s : State} (hz : z.Within lv s) (f : ℕ) (live : Bool) (h : ℕ) :
    z.Within lv (State.unbind s f live h) := by
  unfold State.unbind
  try dsimp only
  repeat' first
    | with_reducible assumption | with_reducible apply State.modTask_within

theorem State.freeTile_within {lv : ℕ} {z s : State} (hz : z.Within lv s) (f : ℕ) (i : ℕ) :
    z.Within lv (State.freeTile s f i) := by
  unfold State.freeTile
  try dsimp only
  repeat' first
    | with_reducible assumption | with_reducible apply State.setFrond_within

theorem State.takeThese_within {lv : ℕ} {z s : State} (hz : z.Within lv s) (f : ℕ) (live : Bool) (l : List Chunk) :
    z.Within lv (State.takeThese s f live l) := by
  unfold State.takeThese
  try dsimp only
  repeat' first
    | with_reducible assumption | with_reducible apply State.setFrond_within | with_reducible apply State.modTask_within

theorem takeChunks_in {lv : ℕ} {z s : State} (hz : z.Within lv s) (f : ℕ) (live : Bool) (n : ℕ) : OpIn lv z (takeChunks f live n) s := by
  unfold takeChunks
  try dsimp only
  repeat' first
    | with_reducible assumption | with_reducible apply State.takeThese_within | with_reducible apply need_in
    | with_reducible exact faultWith_in _ _ | with_reducible exact waitFor_in _ | with_reducible apply OpIn.get | with_reducible apply OpIn.set
    | with_reducible apply OpIn.mod | with_reducible apply OpIn.pure | with_reducible exact OpIn.throw _ | with_reducible apply OpIn.foldlM
    | with_reducible apply OpIn.bind | with_reducible apply OpIn.ite | with_reducible apply State.Within.foldl | (intro)

theorem rereadStream_in {lv : ℕ} {z s : State} (hz : z.Within lv s) (f : ℕ) (live : Bool) (pat : ℕ) (cursor : ℕ) (n : ℕ) : OpIn lv z (rereadStream f
    live pat cursor n) s := by
  unfold rereadStream
  try dsimp only
  repeat' first
    | with_reducible assumption | with_reducible apply readAccess_in | with_reducible apply State.take_within | with_reducible apply need_in
    | with_reducible exact faultWith_in _ _ | with_reducible exact waitFor_in _ | with_reducible apply OpIn.get | with_reducible apply OpIn.set
    | with_reducible apply OpIn.mod | with_reducible apply OpIn.pure | with_reducible exact OpIn.throw _ | with_reducible apply OpIn.foldlM
    | with_reducible apply OpIn.bind | with_reducible apply OpIn.ite | with_reducible apply State.Within.foldl | (intro)
    | with_reducible apply State.Within.ite | split

theorem refill_in {lv : ℕ} {z s : State} (hz : z.Within lv s) (f : ℕ) (live : Bool) (b : MxuBuf) : OpIn lv z (refill f live b) s := by
  unfold refill
  try dsimp only
  repeat' first
    | with_reducible assumption | with_reducible apply rereadStream_in | with_reducible apply need_in | with_reducible exact faultWith_in _ _
    | with_reducible exact waitFor_in _ | with_reducible apply OpIn.get | with_reducible apply OpIn.set | with_reducible apply OpIn.mod
    | with_reducible apply OpIn.pure | with_reducible exact OpIn.throw _ | with_reducible apply OpIn.foldlM | with_reducible apply OpIn.bind
    | with_reducible apply OpIn.ite | with_reducible apply State.Within.foldl | (intro) | with_reducible apply State.Within.ite | split

theorem State.reloadBuffers_within {lv : ℕ} {z s : State} (h : z.Within lv s) (f : ℕ) (live : Bool) : z.Within lv (s.reloadBuffers f live) := by
  unfold State.reloadBuffers
  refine State.Within.foldl _ _ (fun s i k => ?_) h
  dsimp only
  have g : z.Within lv (match (refill f live ((s.taskOf f live).actBufs.get i {})).run s with
      | .ok (b, s) => s.modTask f live (fun t => { t with actBufs := t.actBufs.set i b })
      | .error _ => s) := by
    split
    · exact State.modTask_within ((refill_in k _ _ _).out _ _ (by assumption)) _ _ _
    · exact k
  split
  · exact State.modTask_within ((refill_in g _ _ _).out _ _ (by assumption)) _ _ _
  · exact g

theorem loadPass_in {lv : ℕ} {z s : State} (hz : z.Within lv s) (f : ℕ) (live : Bool) (index : ℕ) (o : MxuOp) : OpIn lv z (loadPass f live index o)
    s := by
  unfold loadPass
  try dsimp only
  repeat' first
    | with_reducible assumption | with_reducible apply State.modTask_within | with_reducible apply readStream_in
    | with_reducible apply takeChunks_in | with_reducible apply refill_in | with_reducible apply need_in | with_reducible exact faultWith_in _ _
    | with_reducible exact waitFor_in _ | with_reducible apply OpIn.get | with_reducible apply OpIn.set | with_reducible apply OpIn.mod
    | with_reducible apply OpIn.pure | with_reducible exact OpIn.throw _ | with_reducible apply OpIn.foldlM | with_reducible apply OpIn.bind
    | with_reducible apply OpIn.ite | with_reducible apply State.Within.foldl | (intro)

theorem passLoad_in {lv : ℕ} {z s : State} (hz : z.Within lv s) (f : ℕ) (live : Bool) (index : ℕ) (o : MxuOp) : OpIn lv z (passLoad f live index o)
    s := by
  unfold passLoad
  try dsimp only
  repeat' first
    | with_reducible assumption | with_reducible apply State.modTask_within | with_reducible apply refill_in | with_reducible apply loadPass_in
    | with_reducible apply need_in | with_reducible exact faultWith_in _ _ | with_reducible exact waitFor_in _ | with_reducible apply OpIn.get
    | with_reducible apply OpIn.set | with_reducible apply OpIn.mod | with_reducible apply OpIn.pure | with_reducible exact OpIn.throw _
    | with_reducible apply OpIn.foldlM | with_reducible apply OpIn.bind | with_reducible apply OpIn.ite | with_reducible apply State.Within.foldl
    | (intro) | with_reducible apply State.Within.ite | split

theorem mxuIssue_in {lv : ℕ} {z s : State} (hz : z.Within lv s) (f : ℕ) (live : Bool) (o : MxuOp) : OpIn lv z (mxuIssue f live o) s := by
  unfold mxuIssue
  try dsimp only
  repeat' first
    | with_reducible assumption | with_reducible apply State.setFrond_within | with_reducible apply State.modTask_within
    | with_reducible apply State.freeTile_within | with_reducible apply need_in | with_reducible exact faultWith_in _ _
    | with_reducible exact waitFor_in _ | with_reducible apply OpIn.get | with_reducible apply OpIn.set | with_reducible apply OpIn.mod
    | with_reducible apply OpIn.pure | with_reducible exact OpIn.throw _ | with_reducible apply OpIn.foldlM | with_reducible apply OpIn.bind
    | with_reducible apply OpIn.ite | with_reducible apply State.Within.foldl | (intro) | with_reducible apply State.Within.ite | split

theorem mxuPass_in {lv : ℕ} {z s : State} (hz : z.Within lv s) (f : ℕ) (live : Bool) (index : ℕ) (o : MxuOp) (i : ℕ) : OpIn lv z (mxuPass f live
    index o i) s := by
  unfold mxuPass
  try dsimp only
  repeat' first
    | with_reducible assumption | with_reducible apply State.setFrond_within | with_reducible apply State.count_within
    | with_reducible apply State.countCycles_within | with_reducible apply State.modTask_within | with_reducible apply passLoad_in
    | with_reducible apply need_in | with_reducible exact faultWith_in _ _ | with_reducible exact waitFor_in _ | with_reducible apply OpIn.get
    | with_reducible apply OpIn.set | with_reducible apply OpIn.mod | with_reducible apply OpIn.pure | with_reducible exact OpIn.throw _
    | with_reducible apply OpIn.foldlM | with_reducible apply OpIn.bind | with_reducible apply OpIn.ite | with_reducible apply State.Within.foldl
    | (intro)

theorem ptmBuild_in {lv : ℕ} {z s : State} (hz : z.Within lv s) (f : ℕ) (live : Bool) (index : ℕ) (v : VuForm) (group : Byte) (count : BitVec 16) :
    OpIn lv z (ptmBuild f live index v group count) s := by
  unfold ptmBuild
  try dsimp only
  repeat' first
    | with_reducible assumption | with_reducible apply State.setFrond_within | with_reducible apply State.count_within
    | with_reducible apply State.modTask_within | with_reducible apply readStream_in | with_reducible apply need_in
    | with_reducible exact faultWith_in _ _ | with_reducible exact waitFor_in _ | with_reducible apply OpIn.get | with_reducible apply OpIn.set
    | with_reducible apply OpIn.mod | with_reducible apply OpIn.pure | with_reducible exact OpIn.throw _ | with_reducible apply OpIn.foldlM
    | with_reducible apply OpIn.bind | with_reducible apply OpIn.ite | with_reducible apply State.Within.foldl | (intro)

theorem vuSource_in {lv : ℕ} {z s : State} (hz : z.Within lv s) (f : ℕ) (live : Bool) (r : BitVec 7) (fmt : ℕ) (n : ℕ) : OpIn lv z (vuSource f live
    r fmt n) s := by
  unfold vuSource
  try dsimp only
  repeat' first
    | with_reducible assumption | with_reducible apply readStream_in | with_reducible apply State.take_within | with_reducible apply need_in
    | with_reducible exact faultWith_in _ _ | with_reducible exact waitFor_in _ | with_reducible apply OpIn.get | with_reducible apply OpIn.set
    | with_reducible apply OpIn.mod | with_reducible apply OpIn.pure | with_reducible exact OpIn.throw _ | with_reducible apply OpIn.foldlM
    | with_reducible apply OpIn.bind | with_reducible apply OpIn.ite | with_reducible apply State.Within.foldl | (intro)

theorem vuDest_in {lv : ℕ} {z s : State} (hz : z.Within lv s) (f : ℕ) (live : Bool) (r : BitVec 7) (fmt : ℕ) (l : List ℕ) (bad : Bool) : OpIn lv z
    (vuDest f live r fmt l bad) s := by
  unfold vuDest
  try dsimp only
  repeat' first
    | with_reducible assumption | with_reducible apply State.setFrond_within | with_reducible apply writeStream_in
    | with_reducible apply State.take_within | with_reducible apply need_in | with_reducible exact faultWith_in _ _
    | with_reducible exact waitFor_in _ | with_reducible apply OpIn.get | with_reducible apply OpIn.set | with_reducible apply OpIn.mod
    | with_reducible apply OpIn.pure | with_reducible exact OpIn.throw _ | with_reducible apply OpIn.foldlM | with_reducible apply OpIn.bind
    | with_reducible apply OpIn.ite | with_reducible apply State.Within.foldl | (intro)

theorem readParam_in {lv : ℕ} {z s : State} (hz : z.Within lv s) (f : ℕ) (live : Bool) (pat : ℕ) (n : ℕ) : OpIn lv z (readParam f live pat n) s := by
  unfold readParam
  try dsimp only
  repeat' first
    | with_reducible assumption | with_reducible apply readPat_in | with_reducible apply need_in | with_reducible exact faultWith_in _ _
    | with_reducible exact waitFor_in _ | with_reducible apply OpIn.get | with_reducible apply OpIn.set | with_reducible apply OpIn.mod
    | with_reducible apply OpIn.pure | with_reducible exact OpIn.throw _ | with_reducible apply OpIn.foldlM | with_reducible apply OpIn.bind
    | with_reducible apply OpIn.ite | with_reducible apply State.Within.foldl | (intro)

theorem readScale_in {lv : ℕ} {z s : State} (hz : z.Within lv s) (f : ℕ) (live : Bool) (pat : ℕ) : OpIn lv z (readScale f live pat) s := by
  unfold readScale
  try dsimp only
  repeat' first
    | with_reducible assumption | with_reducible apply readParam_in | with_reducible apply need_in | with_reducible exact faultWith_in _ _
    | with_reducible exact waitFor_in _ | with_reducible apply OpIn.get | with_reducible apply OpIn.set | with_reducible apply OpIn.mod
    | with_reducible apply OpIn.pure | with_reducible exact OpIn.throw _ | with_reducible apply OpIn.foldlM | with_reducible apply OpIn.bind
    | with_reducible apply OpIn.ite | with_reducible apply State.Within.foldl | (intro)

theorem drainSet_in {lv : ℕ} {z s : State} (hz : z.Within lv s) (f : ℕ) (live : Bool) (k pat : ℕ) (accesses : List Byte → ℕ) (load : Op (List Byte ×
    Bool))
    (hl : ∀ t, z.Within lv t → OpIn lv z load t) : OpIn lv z (drainSet f live k pat accesses load) s := by
  unfold drainSet
  refine OpIn.get ?_
  dsimp only
  split
  · exact OpIn.bind (OpIn.mod _ (State.bumpCursor_within hz _ _ _ _ _)) fun _ t k => OpIn.pure k _
  · refine OpIn.bind (hl _ hz) fun a t k => ?_
    exact OpIn.bind (OpIn.mod _ (State.modTask_within k _ _ _)) fun _ t k => OpIn.pure k _

theorem drainIssue_in {lv : ℕ} {z s : State} (hz : z.Within lv s) (f : ℕ) (live : Bool) (o : DrainOp) : OpIn lv z (drainIssue f live o) s := by
  unfold drainIssue
  try dsimp only
  repeat' first
    | with_reducible assumption | with_reducible apply boundTile_in | with_reducible apply State.unbind_within | with_reducible apply need_in
    | with_reducible exact faultWith_in _ _ | with_reducible exact waitFor_in _ | with_reducible apply OpIn.get | with_reducible apply OpIn.set
    | with_reducible apply OpIn.mod | with_reducible apply OpIn.pure | with_reducible exact OpIn.throw _ | with_reducible apply OpIn.foldlM
    | with_reducible apply OpIn.bind | with_reducible apply OpIn.ite | with_reducible apply State.Within.foldl | (intro)

theorem vuDrain_in {lv : ℕ} {z s : State} (hz : z.Within lv s) (f : ℕ) (live : Bool) (o : DrainOp) (i : ℕ) : OpIn lv z (vuDrain f live o i) s := by
  unfold vuDrain
  try dsimp only
  repeat' first
    | with_reducible assumption | with_reducible apply State.setFrond_within | with_reducible apply writeStream_in
    | with_reducible apply roundAll_in | with_reducible apply State.freeTile_within | with_reducible apply readParam_in
    | with_reducible apply readScale_in | with_reducible apply drainSet_in | with_reducible apply need_in | with_reducible exact faultWith_in _ _
    | with_reducible exact waitFor_in _ | with_reducible apply OpIn.get | with_reducible apply OpIn.set | with_reducible apply OpIn.mod
    | with_reducible apply OpIn.pure | with_reducible exact OpIn.throw _ | with_reducible apply OpIn.foldlM | with_reducible apply OpIn.bind
    | with_reducible apply OpIn.ite | with_reducible apply State.Within.foldl | (intro)

theorem ewRound_in {lv : ℕ} {z s : State} (hz : z.Within lv s) (f : ℕ) (live : Bool) (fmt : ℕ) (rnd : ℕ) (l : List (Option XVal × ℕ)) : OpIn lv z
    (ewRound f live fmt rnd l) s := by
  unfold ewRound
  try dsimp only
  repeat' first
    | with_reducible assumption | with_reducible apply roundAll_in | with_reducible apply need_in | with_reducible exact faultWith_in _ _
    | with_reducible exact waitFor_in _ | with_reducible apply OpIn.get | with_reducible apply OpIn.set | with_reducible apply OpIn.mod
    | with_reducible apply OpIn.pure | with_reducible exact OpIn.throw _ | with_reducible apply OpIn.foldlM | with_reducible apply OpIn.bind
    | with_reducible apply OpIn.ite | with_reducible apply State.Within.foldl | (intro) | with_reducible apply State.Within.ite | split

theorem vuConvert_in {lv : ℕ} {z s : State} (hz : z.Within lv s) (f : ℕ) (live : Bool) (v : VuForm) (n : ℕ) : OpIn lv z (vuConvert f live v n) s := by
  unfold vuConvert
  try dsimp only
  repeat' first
    | with_reducible assumption | with_reducible apply writeStream_in | with_reducible apply roundAll_in | with_reducible apply vuSource_in
    | with_reducible apply vuDest_in | with_reducible apply readScale_in | with_reducible apply need_in | with_reducible exact faultWith_in _ _
    | with_reducible exact waitFor_in _ | with_reducible apply OpIn.get | with_reducible apply OpIn.set | with_reducible apply OpIn.mod
    | with_reducible apply OpIn.pure | with_reducible exact OpIn.throw _ | with_reducible apply OpIn.foldlM | with_reducible apply OpIn.bind
    | with_reducible apply OpIn.ite | with_reducible apply State.Within.foldl | (intro)

theorem vuEw_in {lv : ℕ} {z s : State} (hz : z.Within lv s) (f : ℕ) (live : Bool) (v : VuForm) (func : Byte) (count : BitVec 16) : OpIn lv z (vuEw f
    live v func count) s := by
  unfold vuEw
  try dsimp only
  repeat' first
    | with_reducible assumption | with_reducible apply State.count_within | with_reducible apply vuSource_in | with_reducible apply vuDest_in
    | with_reducible apply ewRound_in | with_reducible apply vuConvert_in | with_reducible apply need_in | with_reducible exact faultWith_in _ _
    | with_reducible exact waitFor_in _ | with_reducible apply OpIn.get | with_reducible apply OpIn.set | with_reducible apply OpIn.mod
    | with_reducible apply OpIn.pure | with_reducible exact OpIn.throw _ | with_reducible apply OpIn.foldlM | with_reducible apply OpIn.bind
    | with_reducible apply OpIn.ite | with_reducible apply State.Within.foldl | (intro)

theorem readWalk_in {lv : ℕ} {z s : State} (hz : z.Within lv s) (f : ℕ) (live : Bool) (pat : ℕ) (fmt : ℕ) (ch : ℕ) : OpIn lv z (readWalk f live pat
    fmt ch) s := by
  unfold readWalk
  try dsimp only
  repeat' first
    | with_reducible assumption | with_reducible apply readStream_in | with_reducible apply need_in | with_reducible exact faultWith_in _ _
    | with_reducible exact waitFor_in _ | with_reducible apply OpIn.get | with_reducible apply OpIn.set | with_reducible apply OpIn.mod
    | with_reducible apply OpIn.pure | with_reducible exact OpIn.throw _ | with_reducible apply OpIn.foldlM | with_reducible apply OpIn.bind
    | with_reducible apply OpIn.ite | with_reducible apply State.Within.foldl | (intro) | with_reducible apply State.Within.ite | split

theorem writeWalk_in {lv : ℕ} {z s : State} (hz : z.Within lv s) (f : ℕ) (live : Bool) (r : BitVec 7) (fmt : ℕ) (ch : ℕ) (g : ℕ → ℕ → ℕ → ℕ) (bad :
    Bool) : OpIn lv z (writeWalk f live r fmt ch g bad) s := by
  unfold writeWalk
  try dsimp only
  repeat' first
    | with_reducible assumption | with_reducible apply writeStream_in | with_reducible apply need_in | with_reducible exact faultWith_in _ _
    | with_reducible exact waitFor_in _ | with_reducible apply OpIn.get | with_reducible apply OpIn.set | with_reducible apply OpIn.mod
    | with_reducible apply OpIn.pure | with_reducible exact OpIn.throw _ | with_reducible apply OpIn.foldlM | with_reducible apply OpIn.bind
    | with_reducible apply OpIn.ite | with_reducible apply State.Within.foldl | (intro) | with_reducible apply State.Within.ite | split

theorem roundWalk_in {lv : ℕ} {z s : State} (hz : z.Within lv s) (f : ℕ) (live : Bool) (fmt : ℕ) (rnd : ℕ) (ieee : Bool) (rows : ℕ) (cols : ℕ) (ch :
    ℕ) (g : ℕ → ℕ → ℕ → XVal × Bool) : OpIn lv z (roundWalk f live fmt rnd ieee rows cols ch g) s := by
  unfold roundWalk
  try dsimp only
  repeat' first
    | with_reducible assumption | with_reducible apply roundAll_in | with_reducible apply need_in | with_reducible exact faultWith_in _ _
    | with_reducible exact waitFor_in _ | with_reducible apply OpIn.get | with_reducible apply OpIn.set | with_reducible apply OpIn.mod
    | with_reducible apply OpIn.pure | with_reducible exact OpIn.throw _ | with_reducible apply OpIn.foldlM | with_reducible apply OpIn.bind
    | with_reducible apply OpIn.ite | with_reducible apply State.Within.foldl | (intro)

theorem vuDw_in {lv : ℕ} {z s : State} (hz : z.Within lv s) (f : ℕ) (live : Bool) (v : VuForm) (g : Geometry) (ch : BitVec 10) (group : Byte) : OpIn
    lv z (vuDw f live v g ch group) s := by
  unfold vuDw
  try dsimp only
  repeat' first
    | with_reducible assumption | with_reducible apply readWalk_in | with_reducible apply writeWalk_in | with_reducible apply roundWalk_in
    | with_reducible apply need_in | with_reducible exact faultWith_in _ _ | with_reducible exact waitFor_in _ | with_reducible apply OpIn.get
    | with_reducible apply OpIn.set | with_reducible apply OpIn.mod | with_reducible apply OpIn.pure | with_reducible exact OpIn.throw _
    | with_reducible apply OpIn.foldlM | with_reducible apply OpIn.bind | with_reducible apply OpIn.ite | with_reducible apply State.Within.foldl
    | (intro) | with_reducible apply State.Within.ite | split

theorem vuPool_in {lv : ℕ} {z s : State} (hz : z.Within lv s) (f : ℕ) (live : Bool) (isMax : Bool) (padCount : Bool) (v : VuForm) (g : Geometry) (ch
    : BitVec 10) : OpIn lv z (vuPool f live isMax padCount v g ch) s := by
  unfold vuPool
  try dsimp only
  repeat' first
    | with_reducible assumption | with_reducible apply readWalk_in | with_reducible apply writeWalk_in | with_reducible apply roundWalk_in
    | with_reducible apply need_in | with_reducible exact faultWith_in _ _ | with_reducible exact waitFor_in _ | with_reducible apply OpIn.get
    | with_reducible apply OpIn.set | with_reducible apply OpIn.mod | with_reducible apply OpIn.pure | with_reducible exact OpIn.throw _
    | with_reducible apply OpIn.foldlM | with_reducible apply OpIn.bind | with_reducible apply OpIn.ite | with_reducible apply State.Within.foldl
    | (intro) | with_reducible apply State.Within.ite | split

theorem vuArgmax_in {lv : ℕ} {z s : State} (hz : z.Within lv s) (f : ℕ) (live : Bool) (v : VuForm) (ch : BitVec 10) : OpIn lv z (vuArgmax f live v
    ch) s := by
  unfold vuArgmax
  try dsimp only
  repeat' first
    | with_reducible assumption | with_reducible apply vuDest_in | with_reducible apply readWalk_in | with_reducible apply need_in
    | with_reducible exact faultWith_in _ _ | with_reducible exact waitFor_in _ | with_reducible apply OpIn.get | with_reducible apply OpIn.set
    | with_reducible apply OpIn.mod | with_reducible apply OpIn.pure | with_reducible exact OpIn.throw _ | with_reducible apply OpIn.foldlM
    | with_reducible apply OpIn.bind | with_reducible apply OpIn.ite | with_reducible apply State.Within.foldl | (intro)
    | with_reducible apply State.Within.ite | split

theorem vuTfn_in {lv : ℕ} {z s : State} (hz : z.Within lv s) (f : ℕ) (live : Bool) (v : VuForm) (table : BitVec 2) (count : BitVec 16) : OpIn lv z
    (vuTfn f live v table count) s := by
  unfold vuTfn
  try dsimp only
  repeat' first
    | with_reducible assumption | with_reducible apply State.count_within | with_reducible apply roundAll_in | with_reducible apply vuSource_in
    | with_reducible apply vuDest_in | with_reducible apply need_in | with_reducible exact faultWith_in _ _ | with_reducible exact waitFor_in _
    | with_reducible apply OpIn.get | with_reducible apply OpIn.set | with_reducible apply OpIn.mod | with_reducible apply OpIn.pure
    | with_reducible exact OpIn.throw _ | with_reducible apply OpIn.foldlM | with_reducible apply OpIn.bind | with_reducible apply OpIn.ite
    | with_reducible apply State.Within.foldl | (intro)

theorem vuMove_in {lv : ℕ} {z s : State} (hz : z.Within lv s) (f : ℕ) (live : Bool) (v : VuForm) (count : BitVec 16) : OpIn lv z (vuMove f live v
    count) s := by
  unfold vuMove
  try dsimp only
  repeat' first
    | with_reducible assumption | with_reducible apply State.count_within | with_reducible apply roundAll_in | with_reducible apply vuSource_in
    | with_reducible apply vuDest_in | with_reducible apply need_in | with_reducible exact faultWith_in _ _ | with_reducible exact waitFor_in _
    | with_reducible apply OpIn.get | with_reducible apply OpIn.set | with_reducible apply OpIn.mod | with_reducible apply OpIn.pure
    | with_reducible exact OpIn.throw _ | with_reducible apply OpIn.foldlM | with_reducible apply OpIn.bind | with_reducible apply OpIn.ite
    | with_reducible apply State.Within.foldl | (intro)

theorem vuTload_in {lv : ℕ} {z s : State} (hz : z.Within lv s) (f : ℕ) (live : Bool) (v : VuForm) (table : BitVec 2) : OpIn lv z (vuTload f live v
    table) s := by
  unfold vuTload
  try dsimp only
  repeat' first
    | with_reducible assumption | with_reducible apply State.setFrond_within | with_reducible apply roundAll_in | with_reducible apply vuSource_in
    | with_reducible apply need_in | with_reducible exact faultWith_in _ _ | with_reducible exact waitFor_in _ | with_reducible apply OpIn.get
    | with_reducible apply OpIn.set | with_reducible apply OpIn.mod | with_reducible apply OpIn.pure | with_reducible exact OpIn.throw _
    | with_reducible apply OpIn.foldlM | with_reducible apply OpIn.bind | with_reducible apply OpIn.ite | with_reducible apply State.Within.foldl
    | (intro)

theorem vuFft_in {lv : ℕ} {z s : State} (hz : z.Within lv s) (f : ℕ) (live : Bool) (inverse : Bool) (v : VuForm) (twoD : Bool) (count : BitVec 16) :
    OpIn lv z (vuFft f live inverse v twoD count) s := by
  unfold vuFft
  try dsimp only
  repeat' first
    | with_reducible assumption | with_reducible apply State.count_within | with_reducible apply State.modTask_within
    | with_reducible apply vuSource_in | with_reducible apply vuDest_in | with_reducible apply need_in | with_reducible exact faultWith_in _ _
    | with_reducible exact waitFor_in _ | with_reducible apply OpIn.get | with_reducible apply OpIn.set | with_reducible apply OpIn.mod
    | with_reducible apply OpIn.pure | with_reducible exact OpIn.throw _ | with_reducible apply OpIn.foldlM | with_reducible apply OpIn.bind
    | with_reducible apply OpIn.ite | with_reducible apply State.Within.foldl | (intro)

end Sys2Proof.Machine
end

