-- ==== Sys2Proof/Laws/WithinTasks.lean ====
section
/-! SUPPORT. What each operation leaves alone (`State.Within`): transfers, lock-step, tasks and images. One lemma for each function that changes State. -/

namespace Sys2Proof.Machine

theorem State.reportAdmission_within {lv : ℕ} {z s : State} (hz : z.Within lv s) (mask : BitVec 256) :
    z.Within lv (State.reportAdmission s mask) := by
  unfold State.reportAdmission
  try dsimp only
  repeat' first
    | with_reducible assumption | with_reducible apply State.setFrond_within | with_reducible apply State.Within.foldl | (intro)

theorem State.reportOutput_within {lv : ℕ} {z s : State} (hz : z.Within lv s) (g : ℕ) :
    z.Within lv (State.reportOutput s g) := by
  unfold State.reportOutput
  try dsimp only
  repeat' first
    | with_reducible assumption | with_reducible apply State.reportAdmission_within | with_reducible apply State.Within.foldl | (intro)

theorem State.sporeWrite_within {lv : ℕ} {z s : State} (hz : z.Within lv s) (off : ℕ) (l : List Byte) :
    z.Within lv (State.sporeWrite s off l) := by
  unfold State.sporeWrite
  try dsimp only
  repeat' first
    | with_reducible assumption | with_reducible apply State.hbmLay_within

theorem State.spaceWrite_within {lv : ℕ} {z s : State} (hz : z.Within lv s) (sp : Space) (a : ℕ) (l : List Byte) (bad : Bool) :
    z.Within lv (State.spaceWrite s sp a l bad) := by
  unfold State.spaceWrite
  try dsimp only
  repeat' first
    | with_reducible assumption | with_reducible refine State.draw_out ?_ (by with_reducible assumption) | with_reducible apply State.draw_within
    | with_reducible apply State.hbmWrite_within | with_reducible apply State.hostWrite_within | with_reducible apply State.poisonHbm_within
    | with_reducible apply State.Within.foldl | (intro) | with_reducible apply State.Within.ite | split | dsimp only
    | with_reducible apply State.Within.upd

theorem State.clearCovered_within {lv : ℕ} {z s : State} (hz : z.Within lv s) (sp : Space) (l : List (ℕ × ℕ)) :
    z.Within lv (State.clearCovered s sp l) := by
  unfold State.clearCovered
  try dsimp only
  repeat' first
    | with_reducible assumption | with_reducible apply State.Within.foldl | (intro) | with_reducible apply State.Within.ite | split | dsimp only
    | with_reducible apply State.Within.upd

theorem State.walkWrite_within {lv : ℕ} {z s : State} (h : z.Within lv s) (sp : Space) (w : Walk) (b : ℕ) (l : List Byte) (bad : Bool) :
    z.Within lv (s.walkWrite sp w b l bad) := by
  unfold State.walkWrite
  dsimp only
  have g : z.Within lv ((w.pieces b l.length).foldl (fun (acc : State × List Byte) p =>
      (acc.1.spaceWrite sp p.1 (acc.2.take p.2) bad, acc.2.drop p.2)) (s, l)).1 :=
    State.Within.fold (fun a : State × List Byte => a.1) _ _ _ (fun a p k => State.spaceWrite_within k _ _ _ _) h
  split
  · exact g
  · exact State.clearCovered_within g _ _

theorem State.requestPage_within {lv : ℕ} {z s : State} (hz : z.Within lv s) (page : ℕ) :
    z.Within lv (State.requestPage s page) := by
  unfold State.requestPage
  try dsimp only
  repeat' first
    | with_reducible assumption | with_reducible apply State.count_within | with_reducible apply State.Within.foldl | (intro)
    | with_reducible apply State.Within.ite | split | dsimp only | with_reducible apply State.Within.upd

theorem State.sign_within {lv : ℕ} {z s : State} (hz : z.Within lv s) (f : ℕ) (live : Bool) (h : W64) :
    z.Within lv (State.sign s f live h) := by
  unfold State.sign
  try dsimp only
  repeat' first
    | with_reducible assumption | with_reducible apply State.modTask_within | with_reducible apply State.Within.foldl | (intro)
    | with_reducible apply State.Within.ite

theorem State.ringStep_within {lv : ℕ} {z s : State} (hz : z.Within lv s) (f : ℕ) (e : StepSig) :
    z.Within lv (State.ringStep s f e) := by
  unfold State.ringStep
  try dsimp only
  repeat' first
    | with_reducible assumption | with_reducible apply State.setFrond_within | with_reducible apply State.hbmWrite_within
    | with_reducible apply State.Within.foldl | (intro) | with_reducible apply State.Within.ite

theorem State.signStep_within {lv : ℕ} {z s : State} (hz : z.Within lv s) (f : ℕ) (live : Bool) :
    z.Within lv (State.signStep s f live) := by
  unfold State.signStep
  try dsimp only
  repeat' first
    | with_reducible assumption | with_reducible apply State.modTask_within | with_reducible apply State.ringStep_within
    | with_reducible apply State.Within.foldl | (intro) | with_reducible apply State.Within.ite

theorem State.diverge_within {lv : ℕ} {z s : State} (hz : z.Within lv s) (kind : BitVec 2) (own : LsRecord) (peer : LsRecord) :
    z.Within lv (State.diverge s kind own peer) := by
  unfold State.diverge
  try dsimp only
  repeat' first
    | with_reducible assumption | with_reducible refine State.draw_out ?_ (by with_reducible assumption) | with_reducible apply State.draw_within
    | with_reducible apply State.ladleFire_within | with_reducible apply State.msix_within | with_reducible apply State.count_within
    | with_reducible apply State.Within.foldl | (intro) | with_reducible apply State.Within.ite | split | dsimp only
    | with_reducible apply State.Within.upd

theorem State.compare_within {lv : ℕ} {z s : State} (hz : z.Within lv s) (own : LsRecord) (peer : LsRecord) :
    z.Within lv (State.compare s own peer) := by
  unfold State.compare
  try dsimp only
  repeat' first
    | with_reducible assumption | with_reducible apply State.diverge_within | with_reducible apply State.Within.foldl | (intro)
    | with_reducible apply State.Within.ite | split

theorem State.lsSend_within {lv : ℕ} {z s : State} (hz : z.Within lv s) (r : LsRecord) :
    z.Within lv (State.lsSend s r) := by
  unfold State.lsSend
  try dsimp only
  repeat' first
    | with_reducible assumption | with_reducible apply State.compare_within | with_reducible apply State.Within.foldl | (intro)
    | with_reducible apply State.Within.ite | split | dsimp only | with_reducible apply State.Within.upd

theorem State.lsNotRun_within {lv : ℕ} {z s : State} (hz : z.Within lv s) (c : ℕ) (frame : W32) (stripe : ℕ) :
    z.Within lv (State.lsNotRun s c frame stripe) := by
  unfold State.lsNotRun
  try dsimp only
  repeat' first
    | with_reducible assumption | with_reducible apply State.lsSend_within | with_reducible apply State.Within.foldl | (intro)
    | with_reducible apply State.Within.ite

theorem execLsRecordArrival_within {lv : ℕ} {z s t : State} {r : LsRecord} {now : W64} (hz : z.Within lv s) (hx : execLsRecordArrival r now s =
    .next t) : z.Within lv t := by
  unfold execLsRecordArrival at hx
  refine unlessInert_within hz (fun s hz => ?_) hx
  try dsimp only
  repeat' first
    | with_reducible assumption | with_reducible apply State.at_within | with_reducible apply State.compare_within
    | with_reducible apply State.Within.foldl | (intro) | with_reducible apply State.Within.ite | split | dsimp only
    | with_reducible apply State.Within.upd

theorem execPartnerLost_within {lv : ℕ} {z s t : State} {r : LsRecord} (hz : z.Within lv s) (hx : execPartnerLost r s = .next t) : z.Within lv t := by
  unfold execPartnerLost at hx
  refine unlessInert_within hz (fun s hz => ?_) hx
  try dsimp only
  repeat' first
    | with_reducible assumption | with_reducible apply State.Within.foldl | (intro) | with_reducible apply State.Within.ite | split | dsimp only
    | with_reducible apply State.Within.upd

theorem State.lsBoundary_within {lv : ℕ} {z s : State} (hz : z.Within lv s)  :
    z.Within lv (State.lsBoundary s) := by
  unfold State.lsBoundary
  try dsimp only
  repeat' first
    | with_reducible assumption | with_reducible apply State.Within.foldl | (intro) | with_reducible apply State.Within.ite | split | dsimp only
    | with_reducible apply State.Within.upd

theorem State.lsSettle_within {lv : ℕ} {z s : State} (hz : z.Within lv s)  :
    z.Within lv (State.lsSettle s) := by
  unfold State.lsSettle
  try dsimp only
  repeat' first
    | with_reducible assumption | with_reducible apply State.lsBoundary_within | with_reducible apply State.Within.foldl | (intro)
    | with_reducible apply State.Within.ite

theorem State.lsCtlWrite_within {lv : ℕ} {z s : State} (hz : z.Within lv s) (v : W32) :
    z.Within lv (State.lsCtlWrite s v) := by
  unfold State.lsCtlWrite
  try dsimp only
  repeat' first
    | with_reducible assumption | with_reducible apply State.lsSettle_within | with_reducible apply State.Within.foldl | (intro)
    | with_reducible apply State.Within.ite | split | dsimp only | with_reducible apply State.Within.upd

theorem execLsEnable_within {lv : ℕ} {z s t : State} {value : W32} (hz : z.Within lv s) (hx : execLsEnable value s = .next t) : z.Within lv t := by
  unfold execLsEnable at hx
  refine unlessInert_within hz (fun s hz => ?_) hx
  try dsimp only
  repeat' first
    | with_reducible assumption | with_reducible apply State.lsCtlWrite_within

theorem execLsPartnerPaired_within {lv : ℕ} {z s t : State} (hz : z.Within lv s) (hx : execLsPartnerPaired s = .next t) : z.Within lv t := by
  unfold execLsPartnerPaired at hx
  refine unlessInert_within hz (fun s hz => ?_) hx
  try dsimp only
  repeat' first
    | with_reducible assumption | with_reducible apply State.Within.foldl | (intro) | with_reducible apply State.Within.ite | split | dsimp only
    | with_reducible apply State.Within.upd

theorem State.setDma_within {lv : ℕ} {z s : State} (hz : z.Within lv s) (f : ℕ) (id : ℕ) (g : DmaXfer → DmaXfer) :
    z.Within lv (State.setDma s f id g) := by
  unfold State.setDma
  try dsimp only
  repeat' first
    | with_reducible assumption | with_reducible apply State.setFrond_within

theorem State.piecesRead_within {lv : ℕ} {z s : State} (h : z.Within lv s) (f : ℕ) (l : List (ℕ × ℕ)) : z.Within lv (s.piecesRead f l).2 := by
  unfold State.piecesRead
  apply State.Within.fold (fun a : List Byte × State => a.2)
  · intro a q k
    exact State.frondHbmRead_within k _ _ _ _
  · exact h

theorem State.piecesRead_out {lv : ℕ} {z s t : State} {f : ℕ} {l : List (ℕ × ℕ)} {a : List Byte} (h : z.Within lv s) (e : s.piecesRead f l = (a, t)) :
    z.Within lv t := by
  have g := State.piecesRead_within h f l
  rw [e] at g
  exact g

theorem State.piecesWrite_within {lv : ℕ} {z s : State} (h : z.Within lv s) (f : ℕ) (l : List (ℕ × ℕ)) (bytes : List Byte) (bad : Bool) :
    z.Within lv (s.piecesWrite f l bytes bad) := by
  unfold State.piecesWrite
  dsimp only
  have g : z.Within lv (l.foldl (fun (acc : State × List Byte) q =>
      let s := acc.1.frondHbmWrite f true q.1 (acc.2.take q.2)
      (if bad then s.poisonHbm q.1 q.2 else s, acc.2.drop q.2)) (s, bytes)).1 := by
    refine State.Within.fold (fun a : State × List Byte => a.1) _ _ _ (fun a q k => ?_) h
    dsimp only
    split
    · exact State.poisonHbm_within (State.frondHbmWrite_within k _ _ _ _) _ _
    · exact State.frondHbmWrite_within k _ _ _ _
  exact State.Within.ite (fun _ => g) fun _ => State.clearCovered_within g _ _

theorem State.dmaRow_within {lv : ℕ} {z s : State} (hz : z.Within lv s) (f : ℕ) (d : DmaXfer) (k : ℕ) :
    z.Within lv (State.dmaRow s f d k).2 := by
  unfold State.dmaRow
  try dsimp only
  repeat' first
    | with_reducible assumption | with_reducible apply State.modTask_within
    | with_reducible refine State.rowRead_out ?_ (by with_reducible assumption) | with_reducible apply State.rowRead_within
    | with_reducible apply State.rowWrite_within | with_reducible apply State.markRow_within | with_reducible apply State.fillRow_within
    | with_reducible apply State.noteRead_within | with_reducible apply State.walkWrite_within | with_reducible apply State.sign_within
    | with_reducible refine State.piecesRead_out ?_ (by with_reducible assumption) | with_reducible apply State.piecesRead_within
    | with_reducible apply State.piecesWrite_within | with_reducible apply State.Within.foldl | (intro) | with_reducible apply State.Within.ite
    | split

theorem State.dmaRow_out {lv : ℕ} {z s t : State} {f : ℕ} {d : DmaXfer} {k : ℕ} {a0 : XferStop}
    (hz : z.Within lv s) (e : State.dmaRow s f d k = (a0, t)) : z.Within lv t := by
  have g := State.dmaRow_within hz f d k
  rw [e] at g
  exact g

theorem State.mcastRow_within {lv : ℕ} {z s : State} (hz : z.Within lv s) (f : ℕ) (d : DmaXfer) (k : ℕ) :
    z.Within lv (State.mcastRow s f d k).2 := by
  unfold State.mcastRow
  try dsimp only
  repeat' first
    | with_reducible assumption | with_reducible apply State.setFrond_within | with_reducible apply State.setGroup_within
    | with_reducible apply State.Within.foldl | (intro) | with_reducible apply State.Within.ite | split

theorem State.mcastRow_out {lv : ℕ} {z s t : State} {f : ℕ} {d : DmaXfer} {k : ℕ} {a0 : XferStop}
    (hz : z.Within lv s) (e : State.mcastRow s f d k = (a0, t)) : z.Within lv t := by
  have g := State.mcastRow_within hz f d k
  rw [e] at g
  exact g

theorem State.dmaMove_within {lv : ℕ} {z s : State} (h : z.Within lv s) (f id : ℕ) : z.Within lv (s.dmaMove f id).2 := by
  unfold State.dmaMove
  split
  · exact h
  · rename_i d _
    split
    · split
      · exact State.requestPage_within (State.setDma_within h _ _ _) _
      · dsimp only
        split
        · exact h
        · exact State.setDma_within h _ _ _
    · have g : z.Within lv ((List.range (d.total / 512 - (if d.desc.kind = 1 then d.sent else d.done) / 512)).foldl (fun (acc : XferStop × State) i =>
          match acc.1 with
          | .none =>
            let q := if d.desc.kind = 1 then acc.2.mcastRow f d ((if d.desc.kind = 1 then d.sent else d.done) / 512 + i)
              else acc.2.dmaRow f d ((if d.desc.kind = 1 then d.sent else d.done) / 512 + i)
            if q.1 = .none then
              (.none, q.2.setDma f id (fun e =>
                if d.desc.kind = 1 then { e with sent := 512 * ((if d.desc.kind = 1 then d.sent else d.done) / 512 + i + 1) }
                else { e with done := 512 * ((if d.desc.kind = 1 then d.sent else d.done) / 512 + i + 1) }))
            else q
          | _ => acc) (.none, s)).2 := by
        apply State.Within.fold (fun a : XferStop × State => a.2)
        · intro a i k
          dsimp only
          repeat' split
          all_goals first
            | exact k
            | exact State.setDma_within (State.mcastRow_within k _ _ _) _ _ _
            | exact State.setDma_within (State.dmaRow_within k _ _ _) _ _ _
            | exact State.mcastRow_within k _ _ _
            | exact State.dmaRow_within k _ _ _
        · exact h
      dsimp only
      split
      · exact State.requestPage_within (State.setDma_within g _ _ _) _
      · exact State.setDma_within g _ _ _

theorem State.dmaMove_out {lv : ℕ} {z s t : State} {f id : ℕ} {a : XferStop} (h : z.Within lv s) (e : s.dmaMove f id = (a, t)) : z.Within lv t := by
  have g := State.dmaMove_within h f id
  rw [e] at g
  exact g

theorem bits_advance (b : BitVec 13) (h : b.toNat < 4096) : b.toNat ≤ (b + 1).toNat := by
  rw [BitVec.toNat_add, show (1 : BitVec 13).toNat = 1 from rfl]
  omega

theorem State.chargeBoost_within {lv : ℕ} {z s : State} (h : z.Within lv s) (p : BitVec 2) : z.Within lv (s.chargeBoost p) := by
  unfold State.chargeBoost
  split
  · rename_i k
    exact h.pow (g := bits_advance _ k.2.2) ..
  · exact h

theorem State.takePlan_within {lv : ℕ} {z s : State} (hz : z.Within lv s) (d : ℕ) :
    z.Within lv (State.takePlan s d) := by
  unfold State.takePlan
  try dsimp only
  repeat' first
    | with_reducible assumption | with_reducible apply State.setDomain_within | with_reducible apply State.meterDomain_within
    | with_reducible apply State.chargeBoost_within

theorem State.gate_within {lv : ℕ} {z s : State} (hz : z.Within lv s) (d : ℕ) :
    z.Within lv (State.gate s d) := by
  unfold State.gate
  try dsimp only
  repeat' first
    | with_reducible assumption | with_reducible apply State.setDomain_within | with_reducible apply State.meterDomain_within

theorem State.wake_within {lv : ℕ} {z s : State} (hz : z.Within lv s) (d : ℕ) :
    z.Within lv (State.wake s d) := by
  unfold State.wake
  try dsimp only
  repeat' first
    | with_reducible assumption | with_reducible apply State.setDomain_within | with_reducible apply State.takePlan_within
    | with_reducible apply State.Within.foldl | (intro) | with_reducible apply State.Within.ite

theorem State.wakeSet_within {lv : ℕ} {z s : State} (hz : z.Within lv s) (fronds : List ℕ) :
    z.Within lv (State.wakeSet s fronds) := by
  unfold State.wakeSet
  try dsimp only
  repeat' first
    | with_reducible assumption | with_reducible apply State.takePlan_within | with_reducible apply State.wake_within
    | with_reducible apply State.Within.foldl | (intro) | with_reducible apply State.Within.ite

theorem State.recordFault_within {lv : ℕ} {z s : State} (hz : z.Within lv s) (f : ℕ) (code : BitVec 16) (phase : ℕ) (queue : ℕ) (index : ℕ) (variant
    : ℕ) :
    z.Within lv (State.recordFault s f code phase queue index variant) := by
  unfold State.recordFault
  try dsimp only
  repeat' first
    | with_reducible assumption | with_reducible apply State.setFrond_within | with_reducible apply State.Within.foldl | (intro)
    | with_reducible apply State.Within.ite

theorem State.nextTask_within {lv : ℕ} {z s : State} (hz : z.Within lv s) (mask : BitVec 256) :
    z.Within lv (State.nextTask s mask).2 := by
  unfold State.nextTask
  try dsimp only
  repeat' first
    | with_reducible assumption | with_reducible apply State.Within.foldl | (intro) | with_reducible apply State.Within.ite | split | dsimp only
    | with_reducible apply State.Within.upd

theorem State.nextTask_out {lv : ℕ} {z s t : State} {mask : BitVec 256} {a0 : BitVec 16}
    (hz : z.Within lv s) (e : State.nextTask s mask = (a0, t)) : z.Within lv t := by
  have g := State.nextTask_within hz mask
  rw [e] at g
  exact g

theorem State.taskBoundary_within {lv : ℕ} {z s : State} (hz : z.Within lv s) (f : ℕ) :
    z.Within lv (State.taskBoundary s f) := by
  unfold State.taskBoundary
  try dsimp only
  repeat' first
    | with_reducible assumption | with_reducible apply State.setFrond_within | with_reducible apply State.Within.foldl | (intro)
    | with_reducible apply State.Within.ite

theorem State.startSems_within {lv : ℕ} {z s : State} (hz : z.Within lv s) (f : ℕ) (live : Bool) (taskNo : BitVec 16) :
    z.Within lv (State.startSems s f live taskNo) := by
  unfold State.startSems
  try dsimp only
  repeat' first
    | with_reducible assumption | with_reducible apply State.setFrond_within | with_reducible apply State.count_within

theorem State.beginTask_within {lv : ℕ} {z s : State} (hz : z.Within lv s) (f : ℕ) (t : Task) (row0 : ℕ) (hExt : ℕ) :
    z.Within lv (State.beginTask s f t row0 hExt) := by
  unfold State.beginTask
  try dsimp only
  repeat' first
    | with_reducible assumption | with_reducible apply State.setFrond_within | with_reducible apply State.meter_within
    | with_reducible apply State.wake_within | with_reducible apply State.taskBoundary_within | with_reducible apply State.startSems_within

theorem State.placeSimmer_within {lv : ℕ} {z s : State} (hz : z.Within lv s) (f : ℕ) (c : ℕ) (t : TaskImage) :
    z.Within lv (State.placeSimmer s f c t) := by
  unfold State.placeSimmer
  try dsimp only
  repeat' first
    | with_reducible assumption | with_reducible apply State.setFrond_within | with_reducible apply State.Within.foldl | (intro)
    | with_reducible apply State.Within.ite

theorem State.freeRegions_within {lv : ℕ} {z s : State} (hz : z.Within lv s) (f : ℕ) (c : ℕ) :
    z.Within lv (State.freeRegions s f c) := by
  unfold State.freeRegions
  try dsimp only
  repeat' first
    | with_reducible assumption | with_reducible apply State.setFrond_within

theorem State.modFrame_within {lv : ℕ} {z s : State} (hz : z.Within lv s) (c : ℕ) (frame : W32) (g : FrameRun → FrameRun) :
    z.Within lv (State.modFrame s c frame g) := by
  unfold State.modFrame
  try dsimp only
  repeat' first
    | with_reducible assumption | with_reducible apply State.setStream_within

theorem State.stripeCkpt_within {lv : ℕ} {z s : State} (hz : z.Within lv s) (f : ℕ) (c : ℕ) (frame : W32) (point : ℕ) (taskNo : BitVec 16) :
    z.Within lv (State.stripeCkpt s f c frame point taskNo) := by
  unfold State.stripeCkpt
  try dsimp only
  repeat' first
    | with_reducible assumption | with_reducible apply State.setFrond_within | with_reducible apply State.count_within
    | with_reducible apply State.take_within | with_reducible apply ptmBuild_in | with_reducible apply State.sporeWrite_within
    | with_reducible apply State.Within.foldl | (intro) | with_reducible apply State.Within.ite | split | dsimp only
    | with_reducible apply State.Within.upd

theorem State.failedEvent_within {lv : ℕ} {z s : State} (hz : z.Within lv s) (ctxs : List ℕ) (e : ℕ × BitVec 4 × BitVec 4) :
    z.Within lv (State.failedEvent s ctxs e) := by
  unfold State.failedEvent
  try dsimp only
  repeat' first
    | with_reducible assumption | with_reducible apply State.devEvent_within | with_reducible apply State.ctxFaults_within

theorem State.repairDone_within {lv : ℕ} {z s : State} (hz : z.Within lv s) (r : Repair) :
    z.Within lv (State.repairDone s r) := by
  unfold State.repairDone
  try dsimp only
  repeat' first
    | with_reducible assumption | with_reducible apply State.start_within | with_reducible apply State.failedEvent_within
    | with_reducible apply State.Within.foldl | (intro) | with_reducible apply State.Within.ite | split | dsimp only
    | with_reducible apply State.Within.upd

theorem State.replayEnded_within {lv : ℕ} {z s : State} (hz : z.Within lv s) (f : ℕ) (c : ℕ) :
    z.Within lv (State.replayEnded s f c) := by
  unfold State.replayEnded
  try dsimp only
  repeat' first
    | with_reducible assumption | with_reducible apply State.repairDone_within | with_reducible apply State.Within.foldl | (intro)
    | with_reducible apply State.Within.ite | split | dsimp only | with_reducible apply State.Within.upd

theorem State.dropXfers_within {lv : ℕ} {z s : State} (hz : z.Within lv s) (f : ℕ) (gone : DmaXfer → Bool) :
    z.Within lv (State.dropXfers s f gone) := by
  unfold State.dropXfers
  try dsimp only
  repeat' first
    | with_reducible assumption | with_reducible apply State.setFrond_within | with_reducible apply State.Within.foldl | (intro)
    | with_reducible apply State.Within.ite

theorem State.returnCredits_within {lv : ℕ} {z s : State} (hz : z.Within lv s) (task : BitVec 16) (l : List NetAccess) :
    z.Within lv (State.returnCredits s task l) := by
  unfold State.returnCredits
  try dsimp only
  repeat' first
    | with_reducible assumption | with_reducible apply State.setGroup_within | with_reducible apply State.Within.foldl | (intro)
    | with_reducible apply State.Within.ite | split

theorem State.clearShare_within {lv : ℕ} {z s : State} (hz : z.Within lv s) (f : ℕ) (live : Bool) :
    z.Within lv (State.clearShare s f live) := by
  unfold State.clearShare
  try dsimp only
  repeat' first
    | with_reducible assumption | with_reducible apply State.setFrond_within | with_reducible apply State.meter_within
    | with_reducible apply State.replayEnded_within | with_reducible apply State.dropXfers_within
    | with_reducible apply State.returnCredits_within | with_reducible apply State.Within.foldl | (intro) | with_reducible apply State.Within.ite

theorem State.resetGroups_within {lv : ℕ} {z s : State} (hz : z.Within lv s) (c : ℕ) :
    z.Within lv (State.resetGroups s c) := by
  unfold State.resetGroups
  try dsimp only
  repeat' first
    | with_reducible assumption | with_reducible apply State.Within.foldl | (intro) | with_reducible apply State.Within.ite | split | dsimp only
    | with_reducible apply State.Within.upd

theorem State.endEvictions_within {lv : ℕ} {z s : State} (hz : z.Within lv s) (c : ℕ) (task : BitVec 16) :
    z.Within lv (State.endEvictions s c task) := by
  unfold State.endEvictions
  try dsimp only
  repeat' first
    | with_reducible assumption | with_reducible apply State.Within.foldl | (intro) | with_reducible apply State.Within.ite | split | dsimp only
    | with_reducible apply State.Within.upd

theorem State.spillRows_within {lv : ℕ} {z s : State} (hz : z.Within lv s) (f : ℕ) (lo : ℕ) (n : ℕ) :
    z.Within lv (State.spillRows s f lo n) := by
  unfold State.spillRows
  try dsimp only
  repeat' first
    | with_reducible assumption | with_reducible apply State.setFrond_within | with_reducible apply State.hbmWrite_within
    | with_reducible refine State.rowRead_out ?_ (by with_reducible assumption) | with_reducible apply State.rowRead_within
    | with_reducible apply State.markRow_within | with_reducible apply State.Within.foldl | (intro) | with_reducible apply State.Within.ite
    | split

theorem State.pinOn_within {lv : ℕ} {z s : State} (hz : z.Within lv s) (f : ℕ) (c : ℕ) (b : Bound) :
    z.Within lv (State.pinOn s f c b) := by
  unfold State.pinOn
  try dsimp only
  repeat' first
    | with_reducible assumption | with_reducible apply State.setFrond_within | with_reducible apply State.spillRows_within
    | with_reducible apply State.Within.foldl | (intro) | with_reducible apply State.Within.ite | split

theorem State.pinAll_within {lv : ℕ} {z s : State} (hz : z.Within lv s) (c : ℕ) (b : Bound) :
    z.Within lv (State.pinAll s c b) := by
  unfold State.pinAll
  try dsimp only
  repeat' first
    | with_reducible assumption | with_reducible apply State.pinOn_within | with_reducible apply State.Within.foldl | (intro)

theorem State.releasePins_within {lv : ℕ} {z s : State} (hz : z.Within lv s) (f : ℕ) :
    z.Within lv (State.releasePins s f) := by
  unfold State.releasePins
  try dsimp only
  repeat' first
    | with_reducible assumption | with_reducible apply State.setFrond_within | with_reducible apply State.Within.foldl | (intro)
    | with_reducible apply State.Within.ite

theorem State.takeGroups_within {lv : ℕ} {z s : State} (hz : z.Within lv s) (c : ℕ) (b : Bound) :
    z.Within lv (State.takeGroups s c b).2 := by
  unfold State.takeGroups
  try dsimp only
  repeat' first
    | with_reducible assumption | with_reducible apply State.setGroup_within | with_reducible apply State.Within.foldl | (intro)

theorem State.takeGroups_out {lv : ℕ} {z s t : State} {c : ℕ} {b : Bound} {a0 : List ℕ}
    (hz : z.Within lv s) (e : State.takeGroups s c b = (a0, t)) : z.Within lv t := by
  have g := State.takeGroups_within hz c b
  rw [e] at g
  exact g

theorem State.dropGroups_within {lv : ℕ} {z s : State} (hz : z.Within lv s) (c : ℕ) (keep : List ℕ) :
    z.Within lv (State.dropGroups s c keep) := by
  unfold State.dropGroups
  try dsimp only
  repeat' first
    | with_reducible assumption | with_reducible apply State.Within.foldl | (intro) | with_reducible apply State.Within.ite | split | dsimp only
    | with_reducible apply State.Within.upd

theorem State.moveAreas_within {lv : ℕ} {z s : State} (hz : z.Within lv s) (f : ℕ) (l : List WorkArea) :
    z.Within lv (State.moveAreas s f l) := by
  unfold State.moveAreas
  try dsimp only
  repeat' first
    | with_reducible assumption | with_reducible apply State.setFrond_within | with_reducible apply State.spillRows_within
    | with_reducible apply State.Within.foldl | (intro)

theorem State.placeArea_within {lv : ℕ} {z s : State} (hz : z.Within lv s) (f : ℕ) (c : ℕ) (t : TaskImage) :
    z.Within lv (State.placeArea s f c t) := by
  unfold State.placeArea
  try dsimp only
  repeat' first
    | with_reducible assumption | with_reducible apply State.setFrond_within | with_reducible apply State.spillRows_within
    | with_reducible apply State.moveAreas_within | with_reducible apply State.Within.foldl | (intro) | with_reducible apply State.Within.ite
    | split

theorem State.freeArea_within {lv : ℕ} {z s : State} (hz : z.Within lv s) (f : ℕ) (c : ℕ) :
    z.Within lv (State.freeArea s f c) := by
  unfold State.freeArea
  try dsimp only
  repeat' first
    | with_reducible assumption | with_reducible apply State.setFrond_within | with_reducible apply State.freeRegions_within

theorem State.bindImage_within {lv : ℕ} {z s : State} (hz : z.Within lv s) (c : ℕ) (b : Bound) (groups : List ℕ) :
    z.Within lv (State.bindImage s c b groups) := by
  unfold State.bindImage
  try dsimp only
  repeat' first
    | with_reducible assumption | with_reducible apply State.setCtx_within | with_reducible apply State.releasePins_within
    | with_reducible apply State.dropGroups_within | with_reducible apply State.Within.foldl | (intro)

theorem State.unbindImage_within {lv : ℕ} {z s : State} (hz : z.Within lv s) (c : ℕ) :
    z.Within lv (State.unbindImage s c) := by
  unfold State.unbindImage
  try dsimp only
  repeat' first
    | with_reducible assumption | with_reducible apply State.setCtx_within | with_reducible apply State.freeRegions_within
    | with_reducible apply State.releasePins_within | with_reducible apply State.dropGroups_within | with_reducible apply State.Within.foldl
    | (intro)

theorem State.takeArea_within {lv : ℕ} {z s : State} (hz : z.Within lv s) (f : ℕ) (c : ℕ) (t : TaskImage) :
    z.Within lv (State.takeArea s f c t) := by
  unfold State.takeArea
  try dsimp only
  repeat' first
    | with_reducible assumption | with_reducible apply State.setFrond_within | with_reducible apply State.placeArea_within
    | with_reducible apply State.Within.foldl | (intro) | with_reducible apply State.Within.ite

theorem State.finishStart_within {lv : ℕ} {z s : State} (hz : z.Within lv s) (c : ℕ) :
    z.Within lv (State.finishStart s c) := by
  unfold State.finishStart
  try dsimp only
  repeat' first
    | with_reducible assumption | with_reducible apply State.setStream_within | with_reducible apply State.completeWith_within
    | with_reducible apply State.Within.foldl | (intro) | with_reducible apply State.Within.ite | split

theorem State.settleAreas_within {lv : ℕ} {z s : State} (hz : z.Within lv s) (f : ℕ) :
    z.Within lv (State.settleAreas s f) := by
  unfold State.settleAreas
  try dsimp only
  repeat' first
    | with_reducible assumption | with_reducible apply State.placeArea_within | with_reducible apply State.finishStart_within
    | with_reducible apply State.Within.foldl | (intro) | with_reducible apply State.Within.ite | split

theorem State.occupy_within {lv : ℕ} {z s : State} (hz : z.Within lv s) (c : ℕ) :
    z.Within lv (State.occupy s c) := by
  unfold State.occupy
  try dsimp only
  repeat' first
    | with_reducible assumption | with_reducible apply State.wakeSet_within | with_reducible apply State.pinAll_within
    | with_reducible apply State.takeArea_within | with_reducible apply State.Within.foldl | (intro) | with_reducible apply State.Within.ite
    | split

theorem State.vacate_within {lv : ℕ} {z s : State} (hz : z.Within lv s) (c : ℕ) :
    z.Within lv (State.vacate s c) := by
  unfold State.vacate
  try dsimp only
  repeat' first
    | with_reducible assumption | with_reducible apply State.freeArea_within | with_reducible apply State.settleAreas_within
    | with_reducible apply State.Within.foldl | (intro)

theorem State.applyBind_within {lv : ℕ} {z s : State} (hz : z.Within lv s) (c : ℕ) (w : BindWait) (running : Bool) :
    z.Within lv (State.applyBind s c w running) := by
  unfold State.applyBind
  try dsimp only
  repeat' first
    | with_reducible assumption | with_reducible apply State.setStream_within | with_reducible apply State.complete_within
    | with_reducible apply State.reportAdmission_within | with_reducible apply State.bindImage_within | with_reducible apply State.occupy_within
    | with_reducible apply State.vacate_within | with_reducible apply State.Within.foldl | (intro) | with_reducible apply State.Within.ite | split

theorem State.smpCtlWrite_within {lv : ℕ} {z s : State} (hz : z.Within lv s) (u : ℕ) (value : W32) (enWrite : Bool) :
    z.Within lv (State.smpCtlWrite s u value enWrite) := by
  unfold State.smpCtlWrite
  try dsimp only
  repeat' first
    | with_reducible assumption | with_reducible apply State.setUnit_within | with_reducible apply State.Within.foldl | (intro)
    | with_reducible apply State.Within.ite

theorem execSmpEnable_within {lv : ℕ} {z s t : State} {unit : Fin 16} {value : W32} (hz : z.Within lv s) (hx : execSmpEnable unit value s = .next t)
    : z.Within lv t := by
  unfold execSmpEnable at hx
  refine unlessInert_within hz (fun s hz => ?_) hx
  try dsimp only
  repeat' first
    | with_reducible assumption | with_reducible apply State.smpCtlWrite_within

theorem State.ldlCtlWrite_within {lv : ℕ} {z s : State} (hz : z.Within lv s) (value : W32) :
    z.Within lv (State.ldlCtlWrite s value) := by
  unfold State.ldlCtlWrite
  try dsimp only
  repeat' first
    | with_reducible assumption | with_reducible apply State.ladleFire_within | with_reducible apply State.Within.foldl | (intro)
    | with_reducible apply State.Within.ite | split | dsimp only | with_reducible apply State.Within.upd

theorem execArm_within {lv : ℕ} {z s t : State} {value : W32} (hz : z.Within lv s) (hx : execArm value s = .next t) : z.Within lv t := by
  unfold execArm at hx
  refine unlessInert_within hz (fun s hz => ?_) hx
  try dsimp only
  repeat' first
    | with_reducible assumption | with_reducible apply State.ldlCtlWrite_within

theorem execFire_within {lv : ℕ} {z s t : State} {value : W32} {now : W64} (hz : z.Within lv s) (hx : execFire value now s = .next t) : z.Within lv
    t := by
  unfold execFire at hx
  refine unlessInert_within hz (fun s hz => ?_) hx
  try dsimp only
  repeat' first
    | with_reducible assumption | with_reducible apply State.at_within | with_reducible apply State.ldlCtlWrite_within

theorem execLadleInEdge_within {lv : ℕ} {z s t : State} {now : W64} (hz : z.Within lv s) (hx : execLadleInEdge now s = .next t) : z.Within lv t := by
  unfold execLadleInEdge at hx
  refine unlessInert_within hz (fun s hz => ?_) hx
  try dsimp only
  repeat' first
    | with_reducible assumption | with_reducible apply State.at_within | with_reducible apply State.ladleFire_within
    | with_reducible apply State.Within.foldl | (intro) | with_reducible apply State.Within.ite

theorem execLadleFireMessage_within {lv : ℕ} {z s t : State} {latchAt : W64} {now : W64} (hz : z.Within lv s) (hx : execLadleFireMessage latchAt now
    s = .next t) : z.Within lv t := by
  unfold execLadleFireMessage at hx
  refine unlessInert_within hz (fun s hz => ?_) hx
  try dsimp only
  repeat' first
    | with_reducible assumption | with_reducible apply State.at_within | with_reducible apply State.Within.foldl | (intro)
    | with_reducible apply State.Within.ite | split | dsimp only | with_reducible apply State.Within.upd

theorem execSnapshot_within {lv : ℕ} {z s t : State} {h : DescHdr} {linked : Bool} {now : W64} (hz : z.Within lv s) (hx : execSnapshot h linked now
    s = .next t) : z.Within lv t := by
  unfold execSnapshot at hx
  refine descriptor_within hz (fun s hz => ?_) hx
  try dsimp only
  repeat' first
    | with_reducible assumption | with_reducible apply State.at_within | with_reducible apply State.ladleFire_within
    | with_reducible apply State.Within.foldl | (intro) | with_reducible apply State.Within.ite | split | dsimp only
    | with_reducible apply State.Within.upd

theorem State.latch_within {lv : ℕ} {z s : State} (h : z.Within lv s) : z.Within lv s.latch := by
  unfold State.latch
  have g : ∀ (l : Ldl) (p : Pins) (u : State), u = { s with ldl := l, pins := p } → ∀ (w : W64) (q : List DescHdr),
      s.Within lv { q.foldl (fun s h => s.complete h opSnapshot stOk) { u with dtb := w } with dtb := s.dtb } := by
    intro l p u hu w q
    subst hu
    have k : State.Within lv { s with ldl := l, pins := p, dtb := w }
        (q.foldl (fun s h => s.complete h opSnapshot stOk) { s with ldl := l, pins := p, dtb := w }) :=
      State.Within.foldl _ _ (fun s x k => State.complete_within k _ _ _) (State.Within.refl _)
    refine ⟨k.queue, k.mem, k.svn, k.bits, k.spent, k.boot, fun a b => ?_, k.kept⟩
    rcases k.run a b with e | ⟨-, e2, e3⟩
    · exact .inl e
    · exact .inr ⟨le_rfl, e2, e3⟩
  exact h.trans (g { s.ldl with pending := false, valid := true, cause := s.ldl.pendCause, dtb := s.ldl.pendL, waiting := [], snap := ⟨s.snapshotSet⟩ }
    (if s.ready then { s.pins with ladleOut := s.pins.ladleOut ++ [s.ldl.pendL] } else s.pins) _ rfl s.ldl.pendL s.ldl.waiting)

theorem execLadleLatch_within {lv : ℕ} {z s t : State} {now : W64} (hz : z.Within lv s) (hx : execLadleLatch now s = .next t) : z.Within lv t := by
  unfold execLadleLatch at hx
  refine unlessInert_within hz (fun s hz => ?_) hx
  try dsimp only
  repeat' first
    | with_reducible assumption | with_reducible apply State.at_within | with_reducible apply State.latch_within
    | with_reducible apply State.Within.foldl | (intro) | with_reducible apply State.Within.ite

theorem execCounterDump_within {lv : ℕ} {z s t : State} {h : DescHdr} {host : Bool} {dst : W64} {blockMask : W64} (hz : z.Within lv s) (hx :
    execCounterDump h host dst blockMask s = .next t) : z.Within lv t := by
  unfold execCounterDump at hx
  refine descriptor_within hz (fun s hz => ?_) hx
  try dsimp only
  repeat' first
    | with_reducible assumption | with_reducible apply State.memWrite_within | with_reducible apply State.complete_within
    | with_reducible apply State.descRingFault_within | with_reducible apply State.Within.foldl | (intro) | with_reducible apply State.Within.ite

end Sys2Proof.Machine
end

