-- ==== Sys2Proof/Laws/WithinFrames.lean ====
section
/-! SUPPORT. What each operation leaves alone (`State.Within`): frames, jobs and the network engines. One lemma for each function that changes State. -/

namespace Sys2Proof.Machine

theorem State.writeStats_within {lv : ℕ} {z s : State} (hz : z.Within lv s) (c : ℕ) (l : List Byte) :
    z.Within lv (State.writeStats s c l) := by
  unfold State.writeStats
  try dsimp only
  repeat' first
    | with_reducible assumption | with_reducible apply State.memWrite_within

theorem State.modJob_within {lv : ℕ} {z s : State} (hz : z.Within lv s) (c : ℕ) (input : W32) (g : FrameJob → FrameJob) :
    z.Within lv (State.modJob s c input g) := by
  unfold State.modJob
  try dsimp only
  repeat' first
    | with_reducible assumption | with_reducible apply State.setCtx_within

theorem State.endFrameJob_within {lv : ℕ} {z s : State} (hz : z.Within lv s) (c : ℕ) (j : FrameJob) (status : BitVec 16) :
    z.Within lv (State.endFrameJob s c j status) := by
  unfold State.endFrameJob
  try dsimp only
  repeat' first
    | with_reducible assumption | with_reducible apply State.setCtx_within | with_reducible apply State.completeWith_within
    | with_reducible apply State.Within.foldl | (intro) | with_reducible apply State.Within.ite | split

theorem State.cancelStaging_within {lv : ℕ} {z s : State} (hz : z.Within lv s) (c : ℕ) :
    z.Within lv (State.cancelStaging s c) := by
  unfold State.cancelStaging
  try dsimp only
  repeat' first
    | with_reducible assumption | with_reducible apply State.setMover_within | with_reducible apply State.Within.foldl | (intro)
    | with_reducible apply State.Within.ite

theorem State.reportHeld_within {lv : ℕ} {z s : State} (hz : z.Within lv s) (c : ℕ) (frame : W32) (flush : Bool) :
    z.Within lv (State.reportHeld s c frame flush) := by
  unfold State.reportHeld
  try dsimp only
  repeat' first
    | with_reducible assumption | with_reducible apply State.ctxEvent_within | with_reducible apply State.modFrame_within
    | with_reducible apply State.Within.foldl | (intro) | with_reducible apply State.Within.ite | split

theorem State.sayUnrun_within {lv : ℕ} {z s : State} (hz : z.Within lv s) (c : ℕ) (r : FrameRun) :
    z.Within lv (State.sayUnrun s c r) := by
  unfold State.sayUnrun
  try dsimp only
  repeat' first
    | with_reducible assumption | with_reducible apply State.lsNotRun_within | with_reducible apply State.modFrame_within
    | with_reducible apply State.Within.foldl | (intro) | with_reducible apply State.Within.ite

theorem State.endStream_within {lv : ℕ} {z s : State} (hz : z.Within lv s) (c : ℕ) (status : BitVec 16) :
    z.Within lv (State.endStream s c status) := by
  unfold State.endStream
  try dsimp only
  repeat' first
    | with_reducible assumption | with_reducible apply State.setCtx_within | with_reducible apply State.setFrond_within
    | with_reducible apply State.setStream_within | with_reducible apply State.complete_within | with_reducible apply State.reportAdmission_within
    | with_reducible apply State.lsNotRun_within | with_reducible apply State.clearShare_within | with_reducible apply State.finishStart_within
    | with_reducible apply State.settleAreas_within | with_reducible apply State.vacate_within | with_reducible apply State.applyBind_within
    | with_reducible apply State.endFrameJob_within | with_reducible apply State.cancelStaging_within
    | with_reducible apply State.reportHeld_within | with_reducible apply State.sayUnrun_within | with_reducible apply State.Within.foldl
    | (intro) | with_reducible apply State.Within.ite | split

theorem State.maybeEnd_within {lv : ℕ} {z s : State} (hz : z.Within lv s) (c : ℕ) :
    z.Within lv (State.maybeEnd s c) := by
  unfold State.maybeEnd
  try dsimp only
  repeat' first
    | with_reducible assumption | with_reducible apply State.endStream_within | with_reducible apply State.Within.foldl | (intro)
    | with_reducible apply State.Within.ite | split

theorem State.settleJob_within {lv : ℕ} {z s : State} (hz : z.Within lv s) (c : ℕ) (input : W32) :
    z.Within lv (State.settleJob s c input) := by
  unfold State.settleJob
  try dsimp only
  repeat' first
    | with_reducible assumption | with_reducible apply State.endFrameJob_within | with_reducible apply State.Within.foldl | (intro)
    | with_reducible apply State.Within.ite | split

theorem State.retireFrame_within {lv : ℕ} {z s : State} (hz : z.Within lv s) (c : ℕ) (r : FrameRun) :
    z.Within lv (State.retireFrame s c r) := by
  unfold State.retireFrame
  try dsimp only
  repeat' first
    | with_reducible assumption | with_reducible apply State.setCtx_within | with_reducible apply State.setStream_within
    | with_reducible apply State.progress_within | with_reducible apply State.modJob_within | with_reducible apply State.maybeEnd_within
    | with_reducible apply State.settleJob_within | with_reducible apply State.Within.foldl | (intro) | with_reducible apply State.Within.ite
    | split

theorem State.settleFrame_within {lv : ℕ} {z s : State} (hz : z.Within lv s) (c : ℕ) (frame : W32) :
    z.Within lv (State.settleFrame s c frame) := by
  unfold State.settleFrame
  try dsimp only
  repeat' first
    | with_reducible assumption | with_reducible apply State.retireFrame_within | with_reducible apply State.Within.foldl | (intro)
    | with_reducible apply State.Within.ite | split

theorem State.frameDone_within {lv : ℕ} {z s : State} (hz : z.Within lv s) (c : ℕ) (frame : W32) :
    z.Within lv (State.frameDone s c frame) := by
  unfold State.frameDone
  try dsimp only
  repeat' first
    | with_reducible assumption | with_reducible apply State.setStream_within | with_reducible apply State.count_within
    | with_reducible apply State.writeStats_within | with_reducible apply State.settleFrame_within | with_reducible apply State.Within.foldl
    | (intro) | with_reducible apply State.Within.ite | split

theorem State.stopLive_within {lv : ℕ} {z s : State} (hz : z.Within lv s) (f : ℕ) (c : ℕ) (frame : W32) :
    z.Within lv (State.stopLive s f c frame) := by
  unfold State.stopLive
  try dsimp only
  repeat' first
    | with_reducible assumption | with_reducible apply State.setFrond_within | with_reducible apply State.clearShare_within
    | with_reducible apply State.settleAreas_within | with_reducible apply State.Within.foldl | (intro) | with_reducible apply State.Within.ite
    | split

theorem State.abortFrame_within {lv : ℕ} {z s : State} (hz : z.Within lv s) (c : ℕ) (frame : W32) (status : BitVec 16) :
    z.Within lv (State.abortFrame s c frame status) := by
  unfold State.abortFrame
  try dsimp only
  repeat' first
    | with_reducible assumption | with_reducible apply State.setCtx_within | with_reducible apply State.lsNotRun_within
    | with_reducible apply State.modFrame_within | with_reducible apply State.stripeCkpt_within | with_reducible apply State.settleFrame_within
    | with_reducible apply State.stopLive_within | with_reducible apply State.Within.foldl | (intro) | with_reducible apply State.Within.ite
    | split

theorem State.loseFrame_within {lv : ℕ} {z s : State} (hz : z.Within lv s) (c : ℕ) (frame : W32) (code : BitVec 16) :
    z.Within lv (State.loseFrame s c frame code) := by
  unfold State.loseFrame
  try dsimp only
  repeat' first
    | with_reducible assumption | with_reducible apply State.modFrame_within | with_reducible apply State.abortFrame_within
    | with_reducible apply State.Within.foldl | (intro) | with_reducible apply State.Within.ite

theorem State.lsSteps_within {lv : ℕ} {z s : State} (hz : z.Within lv s) (c : ℕ) (f : ℕ) (inst : ℕ) (first : ℕ) (n : ℕ) :
    z.Within lv (State.lsSteps s c f inst first n) := by
  unfold State.lsSteps
  try dsimp only
  repeat' first
    | with_reducible assumption | with_reducible apply State.lsSend_within | with_reducible apply State.Within.foldl | (intro)

theorem State.lsStepsNotRun_within {lv : ℕ} {z s : State} (hz : z.Within lv s) (f : ℕ) (t : Task) :
    z.Within lv (State.lsStepsNotRun s f t) := by
  unfold State.lsStepsNotRun
  try dsimp only
  repeat' first
    | with_reducible assumption | with_reducible apply State.lsSteps_within | with_reducible apply State.Within.foldl | (intro)
    | with_reducible apply State.Within.ite

theorem State.lsInstancesNotRun_within {lv : ℕ} {z s : State} (hz : z.Within lv s) (c : ℕ) (j : Job) :
    z.Within lv (State.lsInstancesNotRun s c j) := by
  unfold State.lsInstancesNotRun
  try dsimp only
  repeat' first
    | with_reducible assumption | with_reducible apply State.lsSteps_within | with_reducible apply State.Within.foldl | (intro)
    | with_reducible apply State.Within.ite

theorem State.completeJob_within {lv : ℕ} {z s : State} (hz : z.Within lv s) (c : ℕ) (status : BitVec 16) (failed : Option ℕ) :
    z.Within lv (State.completeJob s c status failed) := by
  unfold State.completeJob
  try dsimp only
  repeat' first
    | with_reducible assumption | with_reducible apply State.setCtx_within | with_reducible apply State.setFrond_within
    | with_reducible apply State.count_within | with_reducible apply State.completeWith_within | with_reducible apply State.taskBoundary_within
    | with_reducible apply State.freeRegions_within | with_reducible apply State.clearShare_within | with_reducible apply State.dropGroups_within
    | with_reducible apply State.settleAreas_within | with_reducible apply State.writeStats_within
    | with_reducible apply State.lsStepsNotRun_within | with_reducible apply State.lsInstancesNotRun_within
    | with_reducible apply State.Within.foldl | (intro) | with_reducible apply State.Within.ite | split

theorem State.loseJob_within {lv : ℕ} {z s : State} (hz : z.Within lv s) (c : ℕ) (code : BitVec 16) (failed : ℕ) :
    z.Within lv (State.loseJob s c code failed) := by
  unfold State.loseJob
  try dsimp only
  repeat' first
    | with_reducible assumption | with_reducible apply State.setCtx_within | with_reducible apply State.completeJob_within
    | with_reducible apply State.Within.foldl | (intro) | with_reducible apply State.Within.ite | split

theorem State.instanceDone_within {lv : ℕ} {z s : State} (hz : z.Within lv s) (c : ℕ) :
    z.Within lv (State.instanceDone s c) := by
  unfold State.instanceDone
  try dsimp only
  repeat' first
    | with_reducible assumption | with_reducible apply State.setCtx_within | with_reducible apply State.progress_within
    | with_reducible apply State.endEvictions_within | with_reducible apply State.completeJob_within | with_reducible apply State.Within.foldl
    | (intro) | with_reducible apply State.Within.ite | split

theorem State.poisonAccess_within {lv : ℕ} {z s : State} (hz : z.Within lv s) (f : ℕ) (live : Bool) (a : Access) :
    z.Within lv (State.poisonAccess s f live a) := by
  unfold State.poisonAccess
  try dsimp only
  repeat' first
    | with_reducible assumption | with_reducible apply State.spoilRow_within | with_reducible apply State.spoilLines_within
    | with_reducible apply State.fillRow_within | with_reducible apply State.Within.foldl | (intro) | with_reducible apply State.Within.ite
    | split

theorem State.poisonOutputs_within {lv : ℕ} {z s : State} (hz : z.Within lv s) (f : ℕ) (live : Bool) (c : Instr) :
    z.Within lv (State.poisonOutputs s f live c) := by
  unfold State.poisonOutputs
  try dsimp only
  repeat' first
    | with_reducible assumption | with_reducible apply State.setFrond_within | with_reducible apply State.count_within
    | with_reducible apply State.noteRead_within | with_reducible apply State.bumpCursor_within | with_reducible apply ptmBuild_in
    | with_reducible apply vuTload_in | with_reducible apply State.poisonAccess_within | with_reducible apply State.Within.foldl | (intro)
    | with_reducible apply State.Within.ite | split

theorem State.spoilWrites_within {lv : ℕ} {z s : State} (hz : z.Within lv s) (f : ℕ) (live : Bool) :
    z.Within lv (State.spoilWrites s f live) := by
  unfold State.spoilWrites
  try dsimp only
  repeat' first
    | with_reducible assumption | with_reducible apply State.modTask_within | with_reducible apply State.spoilRow_within
    | with_reducible apply State.spoilLines_within | with_reducible apply State.Within.foldl | (intro)

theorem State.spoilTile_within {lv : ℕ} {z s : State} (hz : z.Within lv s) (f : ℕ) (i : ℕ) :
    z.Within lv (State.spoilTile s f i) := by
  unfold State.spoilTile
  try dsimp only
  repeat' first
    | with_reducible assumption | with_reducible apply State.setFrond_within | with_reducible apply State.Within.foldl | (intro)
    | with_reducible apply State.Within.ite | split | dsimp only | with_reducible apply State.Within.upd

theorem State.spoilHandles_within {lv : ℕ} {z s : State} (hz : z.Within lv s) (f : ℕ) (live : Bool) :
    z.Within lv (State.spoilHandles s f live) := by
  unfold State.spoilHandles
  try dsimp only
  repeat' first
    | with_reducible assumption | with_reducible apply State.setFrond_within | with_reducible apply State.spoilTile_within
    | with_reducible apply State.Within.foldl | (intro)

theorem State.failStep_within {lv : ℕ} {z s : State} (hz : z.Within lv s) (f : ℕ) (live : Bool) (code : BitVec 16) :
    z.Within lv (State.failStep s f live code) := by
  unfold State.failStep
  try dsimp only
  repeat' first
    | with_reducible assumption | with_reducible apply State.modTask_within | with_reducible apply State.spoilWrites_within
    | with_reducible apply State.spoilHandles_within

theorem State.endWith_within {lv : ℕ} {z s : State} (hz : z.Within lv s) (f : ℕ) (live : Bool) (code : BitVec 16) (index : ℕ) :
    z.Within lv (State.endWith s f live code index) := by
  unfold State.endWith
  try dsimp only
  repeat' first
    | with_reducible assumption | with_reducible apply State.modTask_within | with_reducible apply State.dropXfers_within

theorem State.finishEnding_within {lv : ℕ} {z s : State} (hz : z.Within lv s) (f : ℕ) (live : Bool) (code : BitVec 16) :
    z.Within lv (State.finishEnding s f live code) := by
  unfold State.finishEnding
  try dsimp only
  repeat' first
    | with_reducible assumption | with_reducible apply State.abortFrame_within | with_reducible apply State.completeJob_within
    | with_reducible apply State.Within.foldl | (intro) | with_reducible apply State.Within.ite

theorem State.policy_within {lv : ℕ} {z s : State} (hz : z.Within lv s) (f : ℕ) (live : Bool) (code : BitVec 16) (index : ℕ) :
    z.Within lv (State.policy s f live code index) := by
  unfold State.policy
  try dsimp only
  repeat' first
    | with_reducible assumption | with_reducible apply State.failStep_within | with_reducible apply State.endWith_within
    | with_reducible apply State.Within.foldl | (intro) | with_reducible apply State.Within.ite

theorem State.taskFault_within {lv : ℕ} {z s : State} (hz : z.Within lv s) (f : ℕ) (live : Bool) (code : BitVec 16) (phase : ℕ) (queue : ℕ) (index :
    ℕ) :
    z.Within lv (State.taskFault s f live code phase queue index) := by
  unfold State.taskFault
  try dsimp only
  repeat' first
    | with_reducible assumption | with_reducible apply State.recordFault_within | with_reducible apply State.policy_within

theorem State.addSem_within {lv : ℕ} {z s : State} (hz : z.Within lv s) (f : ℕ) (sem : ℕ) (n : ℕ) (engine : ℕ) (index : ℕ) :
    z.Within lv (State.addSem s f sem n engine index) := by
  unfold State.addSem
  try dsimp only
  repeat' first
    | with_reducible assumption | with_reducible apply State.setFrond_within | with_reducible apply State.taskFault_within
    | with_reducible apply State.Within.foldl | (intro) | with_reducible apply State.Within.ite

theorem State.startTask_within {lv : ℕ} {z s : State} (hz : z.Within lv s) (f : ℕ) (t : Task) (row0 : ℕ) (hExt : ℕ) :
    z.Within lv (State.startTask s f t row0 hExt) := by
  unfold State.startTask
  try dsimp only
  repeat' first
    | with_reducible assumption | with_reducible apply State.count_within | with_reducible apply State.beginTask_within
    | with_reducible apply State.addSem_within | with_reducible apply State.Within.foldl | (intro)

theorem readDescriptor_in {lv : ℕ} {z s : State} (hz : z.Within lv s) (f : ℕ) (live : Bool) (row : ℕ) : OpIn lv z (readDescriptor f live row) s := by
  unfold readDescriptor
  try dsimp only
  repeat' first
    | with_reducible assumption | with_reducible refine State.rowRead_out ?_ (by with_reducible assumption)
    | with_reducible apply State.rowRead_within | with_reducible apply need_in | with_reducible exact faultWith_in _ _
    | with_reducible exact waitFor_in _ | with_reducible apply OpIn.get | with_reducible apply OpIn.set | with_reducible apply OpIn.mod
    | with_reducible apply OpIn.pure | with_reducible exact OpIn.throw _ | with_reducible apply OpIn.foldlM | with_reducible apply OpIn.bind
    | with_reducible apply OpIn.ite | with_reducible apply State.Within.foldl | (intro) | with_reducible apply State.Within.ite | split

theorem dmaStart_in {lv : ℕ} {z s : State} (hz : z.Within lv s) (f : ℕ) (live : Bool) (isIn : Bool) (index : ℕ) (row : ℕ) : OpIn lv z (dmaStart f
    live isIn index row) s := by
  unfold dmaStart
  try dsimp only
  repeat' first
    | with_reducible assumption | with_reducible apply State.setFrond_within | with_reducible apply State.modTask_within
    | with_reducible refine State.dmaMove_out ?_ (by with_reducible assumption) | with_reducible apply State.dmaMove_within
    | with_reducible apply readDescriptor_in | with_reducible apply need_in | with_reducible exact faultWith_in _ _
    | with_reducible exact waitFor_in _ | with_reducible apply OpIn.get | with_reducible apply OpIn.set | with_reducible apply OpIn.mod
    | with_reducible apply OpIn.pure | with_reducible exact OpIn.throw _ | with_reducible apply OpIn.foldlM | with_reducible apply OpIn.bind
    | with_reducible apply OpIn.ite | with_reducible apply State.Within.foldl | (intro) | with_reducible apply State.Within.ite | split

theorem readRows_in {lv : ℕ} {z s : State} (hz : z.Within lv s) (f : ℕ) (live : Bool) (row : ℕ) (n : ℕ) : OpIn lv z (readRows f live row n) s := by
  unfold readRows
  try dsimp only
  repeat' first
    | with_reducible assumption | with_reducible refine State.rowRead_out ?_ (by with_reducible assumption)
    | with_reducible apply State.rowRead_within | with_reducible apply need_in | with_reducible exact faultWith_in _ _
    | with_reducible exact waitFor_in _ | with_reducible apply OpIn.get | with_reducible apply OpIn.set | with_reducible apply OpIn.mod
    | with_reducible apply OpIn.pure | with_reducible exact OpIn.throw _ | with_reducible apply OpIn.foldlM | with_reducible apply OpIn.bind
    | with_reducible apply OpIn.ite | with_reducible apply State.Within.foldl | (intro) | with_reducible apply State.Within.ite | split

theorem nwSend_in {lv : ℕ} {z s : State} (hz : z.Within lv s) (f : ℕ) (live : Bool) (write : Bool) (index : ℕ) (o : NwOp) : OpIn lv z (nwSend f live
    write index o) s := by
  unfold nwSend
  try dsimp only
  repeat' first
    | with_reducible assumption | with_reducible apply State.setFrond_within | with_reducible apply readRows_in | with_reducible apply need_in
    | with_reducible exact faultWith_in _ _ | with_reducible exact waitFor_in _ | with_reducible apply OpIn.get | with_reducible apply OpIn.set
    | with_reducible apply OpIn.mod | with_reducible apply OpIn.pure | with_reducible exact OpIn.throw _ | with_reducible apply OpIn.foldlM
    | with_reducible apply OpIn.bind | with_reducible apply OpIn.ite | with_reducible apply State.Within.foldl | (intro)

theorem combineIssue_in {lv : ℕ} {z s : State} (hz : z.Within lv s) (f : ℕ) (live : Bool) (o : NwOp) : OpIn lv z (combineIssue f live o) s := by
  unfold combineIssue
  try dsimp only
  repeat' first
    | with_reducible assumption | with_reducible apply stepTile_in | with_reducible apply State.unbind_within | with_reducible apply need_in
    | with_reducible exact faultWith_in _ _ | with_reducible exact waitFor_in _ | with_reducible apply OpIn.get | with_reducible apply OpIn.set
    | with_reducible apply OpIn.mod | with_reducible apply OpIn.pure | with_reducible exact OpIn.throw _ | with_reducible apply OpIn.foldlM
    | with_reducible apply OpIn.bind | with_reducible apply OpIn.ite | with_reducible apply State.Within.foldl | (intro)

theorem combineSend_in {lv : ℕ} {z s : State} (hz : z.Within lv s) (f : ℕ) (live : Bool) (index : ℕ) (o : NwOp) (i : ℕ) : OpIn lv z (combineSend f
    live index o i) s := by
  unfold combineSend
  try dsimp only
  repeat' first
    | with_reducible assumption | with_reducible apply State.setFrond_within | with_reducible apply State.freeTile_within
    | with_reducible apply need_in | with_reducible exact faultWith_in _ _ | with_reducible exact waitFor_in _ | with_reducible apply OpIn.get
    | with_reducible apply OpIn.set | with_reducible apply OpIn.mod | with_reducible apply OpIn.pure | with_reducible exact OpIn.throw _
    | with_reducible apply OpIn.foldlM | with_reducible apply OpIn.bind | with_reducible apply OpIn.ite | with_reducible apply State.Within.foldl
    | (intro)

theorem winOpenPlain_in {lv : ℕ} {z s : State} (hz : z.Within lv s) (f : ℕ) (live : Bool) (win : ℕ) (base : BitVec 13) (rows : BitVec 13) (gen :
    BitVec 16) : OpIn lv z (winOpenPlain f live win base rows gen) s := by
  unfold winOpenPlain
  try dsimp only
  repeat' first
    | with_reducible assumption | with_reducible apply State.setFrond_within | with_reducible apply need_in
    | with_reducible exact faultWith_in _ _ | with_reducible exact waitFor_in _ | with_reducible apply OpIn.get | with_reducible apply OpIn.set
    | with_reducible apply OpIn.mod | with_reducible apply OpIn.pure | with_reducible exact OpIn.throw _ | with_reducible apply OpIn.foldlM
    | with_reducible apply OpIn.bind | with_reducible apply OpIn.ite | with_reducible apply State.Within.foldl | (intro)

theorem State.deliverCombine_within {lv : ℕ} {z s : State} (hz : z.Within lv s) (f : ℕ) (i : ℕ) :
    z.Within lv (State.deliverCombine s f i) := by
  unfold State.deliverCombine
  try dsimp only
  repeat' first
    | with_reducible assumption | with_reducible apply State.setFrond_within | with_reducible apply State.count_within
    | with_reducible apply State.readyTile_within | with_reducible apply State.Within.foldl | (intro) | with_reducible apply State.Within.ite
    | split

theorem winOpenCombine_in {lv : ℕ} {z s : State} (hz : z.Within lv s) (f : ℕ) (live : Bool) (win : ℕ) (base : BitVec 13) (rows : BitVec 13) (gen :
    BitVec 16) (tile : ℕ) : OpIn lv z (winOpenCombine f live win base rows gen tile) s := by
  unfold winOpenCombine
  try dsimp only
  repeat' first
    | with_reducible assumption | with_reducible apply State.setFrond_within | with_reducible apply State.deliverCombine_within
    | with_reducible apply need_in | with_reducible exact faultWith_in _ _ | with_reducible exact waitFor_in _ | with_reducible apply OpIn.get
    | with_reducible apply OpIn.set | with_reducible apply OpIn.mod | with_reducible apply OpIn.pure | with_reducible exact OpIn.throw _
    | with_reducible apply OpIn.foldlM | with_reducible apply OpIn.bind | with_reducible apply OpIn.ite | with_reducible apply State.Within.foldl
    | (intro)

theorem winShut_in {lv : ℕ} {z s : State} (hz : z.Within lv s) (f : ℕ) (win : ℕ) : OpIn lv z (winShut f win) s := by
  unfold winShut
  try dsimp only
  repeat' first
    | with_reducible assumption | with_reducible apply State.setFrond_within | with_reducible apply need_in
    | with_reducible exact faultWith_in _ _ | with_reducible exact waitFor_in _ | with_reducible apply OpIn.get | with_reducible apply OpIn.set
    | with_reducible apply OpIn.mod | with_reducible apply OpIn.pure | with_reducible exact OpIn.throw _ | with_reducible apply OpIn.foldlM
    | with_reducible apply OpIn.bind | with_reducible apply OpIn.ite | with_reducible apply State.Within.foldl | (intro)

theorem keepOne_in {lv : ℕ} {z s : State} (hz : z.Within lv s) (f : ℕ) (live : Bool) : OpIn lv z (keepOne f live) s := by
  unfold keepOne
  try dsimp only
  repeat' first
    | with_reducible assumption | with_reducible apply State.modTask_within | with_reducible apply writeStream_in
    | with_reducible apply State.takeThese_within | with_reducible apply need_in | with_reducible exact faultWith_in _ _
    | with_reducible exact waitFor_in _ | with_reducible apply OpIn.get | with_reducible apply OpIn.set | with_reducible apply OpIn.mod
    | with_reducible apply OpIn.pure | with_reducible exact OpIn.throw _ | with_reducible apply OpIn.foldlM | with_reducible apply OpIn.bind
    | with_reducible apply OpIn.ite | with_reducible apply State.Within.foldl | (intro) | with_reducible apply State.Within.ite | split

theorem keepStart_in {lv : ℕ} {z s : State} (hz : z.Within lv s) (f : ℕ) (live : Bool) (index : ℕ) (dst : BitVec 6) (chunks : BitVec 16) : OpIn lv z
    (keepStart f live index dst chunks) s := by
  unfold keepStart
  try dsimp only
  repeat' first
    | with_reducible assumption | with_reducible apply State.modTask_within | with_reducible apply need_in | with_reducible exact faultWith_in _ _
    | with_reducible exact waitFor_in _ | with_reducible apply OpIn.get | with_reducible apply OpIn.set | with_reducible apply OpIn.mod
    | with_reducible apply OpIn.pure | with_reducible exact OpIn.throw _ | with_reducible apply OpIn.foldlM | with_reducible apply OpIn.bind
    | with_reducible apply OpIn.ite | with_reducible apply State.Within.foldl | (intro)

theorem takeSem_in {lv : ℕ} {z s : State} (hz : z.Within lv s) (f : ℕ) (sem : ℕ) (n : ℕ) : OpIn lv z (takeSem f sem n) s := by
  unfold takeSem
  try dsimp only
  repeat' first
    | with_reducible assumption | with_reducible apply State.setFrond_within | with_reducible apply need_in
    | with_reducible exact faultWith_in _ _ | with_reducible exact waitFor_in _ | with_reducible apply OpIn.get | with_reducible apply OpIn.set
    | with_reducible apply OpIn.mod | with_reducible apply OpIn.pure | with_reducible exact OpIn.throw _ | with_reducible apply OpIn.foldlM
    | with_reducible apply OpIn.bind | with_reducible apply OpIn.ite | with_reducible apply State.Within.foldl | (intro)

theorem signalReady_in {lv : ℕ} {z s : State} (hz : z.Within lv s) (f : ℕ) (live : Bool) (fence : Bool) (remote : Bool) (sem : ℕ) (target : ℕ) :
    OpIn lv z (signalReady f live fence remote sem target) s := by
  unfold signalReady
  try dsimp only
  repeat' first
    | with_reducible assumption | with_reducible apply State.idle_within | with_reducible apply need_in | with_reducible exact faultWith_in _ _
    | with_reducible exact waitFor_in _ | with_reducible apply OpIn.get | with_reducible apply OpIn.set | with_reducible apply OpIn.mod
    | with_reducible apply OpIn.pure | with_reducible exact OpIn.throw _ | with_reducible apply OpIn.foldlM | with_reducible apply OpIn.bind
    | with_reducible apply OpIn.ite | with_reducible apply State.Within.foldl | (intro)

theorem seCapture_in {lv : ℕ} {z s : State} (hz : z.Within lv s) (f : ℕ) (live : Bool) (src : BitVec 6) (dst : BitVec 6) (count : BitVec 16) : OpIn
    lv z (seCapture f live src dst count) s := by
  unfold seCapture
  try dsimp only
  repeat' first
    | with_reducible assumption | with_reducible apply State.count_within | with_reducible apply readStream_in
    | with_reducible apply writeStream_in | with_reducible apply need_in | with_reducible exact faultWith_in _ _
    | with_reducible exact waitFor_in _ | with_reducible apply OpIn.get | with_reducible apply OpIn.set | with_reducible apply OpIn.mod
    | with_reducible apply OpIn.pure | with_reducible exact OpIn.throw _ | with_reducible apply OpIn.foldlM | with_reducible apply OpIn.bind
    | with_reducible apply OpIn.ite | with_reducible apply State.Within.foldl | (intro)

theorem fcFill_in {lv : ℕ} {z s : State} (hz : z.Within lv s) (f : ℕ) (live : Bool) (dst : BitVec 6) (value : W32) (count : BitVec 16) : OpIn lv z
    (fcFill f live dst value count) s := by
  unfold fcFill
  try dsimp only
  repeat' first
    | with_reducible assumption | with_reducible apply State.count_within | with_reducible apply writeStream_in | with_reducible apply need_in
    | with_reducible exact faultWith_in _ _ | with_reducible exact waitFor_in _ | with_reducible apply OpIn.get | with_reducible apply OpIn.set
    | with_reducible apply OpIn.mod | with_reducible apply OpIn.pure | with_reducible exact OpIn.throw _ | with_reducible apply OpIn.foldlM
    | with_reducible apply OpIn.bind | with_reducible apply OpIn.ite | with_reducible apply State.Within.foldl | (intro)

theorem writeBytes_in {lv : ℕ} {z s : State} (hz : z.Within lv s) (f : ℕ) (live : Bool) (pat : ℕ) (o : ℕ) (l : List Byte) (bad : Bool) : OpIn lv z
    (writeBytes f live pat o l bad) s := by
  unfold writeBytes
  try dsimp only
  repeat' first
    | with_reducible assumption | with_reducible apply writeAccess_in | with_reducible apply State.take_within | with_reducible apply need_in
    | with_reducible exact faultWith_in _ _ | with_reducible exact waitFor_in _ | with_reducible apply OpIn.get | with_reducible apply OpIn.set
    | with_reducible apply OpIn.mod | with_reducible apply OpIn.pure | with_reducible exact OpIn.throw _ | with_reducible apply OpIn.foldlM
    | with_reducible apply OpIn.bind | with_reducible apply OpIn.ite | with_reducible apply State.Within.foldl | (intro)
    | with_reducible apply State.Within.ite | split

theorem fcCopy_in {lv : ℕ} {z s : State} (hz : z.Within lv s) (f : ℕ) (live : Bool) (src : BitVec 6) (dst : BitVec 6) (count : BitVec 16) : OpIn lv
    z (fcCopy f live src dst count) s := by
  unfold fcCopy
  try dsimp only
  repeat' first
    | with_reducible assumption | with_reducible apply State.count_within | with_reducible apply State.bumpCursor_within
    | with_reducible apply readPat_in | with_reducible apply State.take_within | with_reducible apply writeBytes_in | with_reducible apply need_in
    | with_reducible exact faultWith_in _ _ | with_reducible exact waitFor_in _ | with_reducible apply OpIn.get | with_reducible apply OpIn.set
    | with_reducible apply OpIn.mod | with_reducible apply OpIn.pure | with_reducible exact OpIn.throw _ | with_reducible apply OpIn.foldlM
    | with_reducible apply OpIn.bind | with_reducible apply OpIn.ite | with_reducible apply State.Within.foldl | (intro)
    | with_reducible apply State.Within.ite | split

theorem peekStream_in {lv : ℕ} {z s : State} (hz : z.Within lv s) (f : ℕ) (live : Bool) (p : Pattern) (o : ℕ) (n : ℕ) : OpIn lv z (peekStream f live
    p o n) s := by
  unfold peekStream
  try dsimp only
  repeat' first
    | with_reducible assumption | with_reducible apply readAccess_in | with_reducible apply State.take_within | with_reducible apply need_in
    | with_reducible exact faultWith_in _ _ | with_reducible exact waitFor_in _ | with_reducible apply OpIn.get | with_reducible apply OpIn.set
    | with_reducible apply OpIn.mod | with_reducible apply OpIn.pure | with_reducible exact OpIn.throw _ | with_reducible apply OpIn.foldlM
    | with_reducible apply OpIn.bind | with_reducible apply OpIn.ite | with_reducible apply State.Within.foldl | (intro)

theorem seRegroup_in {lv : ℕ} {z s : State} (hz : z.Within lv s) (f : ℕ) (live : Bool) (inverse : Bool) (src : BitVec 6) (dst : BitVec 6) (by4 :
    Bool) (count : BitVec 16) : OpIn lv z (seRegroup f live inverse src dst by4 count) s := by
  unfold seRegroup
  try dsimp only
  repeat' first
    | with_reducible assumption | with_reducible apply State.count_within | with_reducible apply State.start_within
    | with_reducible apply State.bumpCursor_within | with_reducible apply writeStream_in | with_reducible apply peekStream_in
    | with_reducible apply need_in | with_reducible exact faultWith_in _ _ | with_reducible exact waitFor_in _ | with_reducible apply OpIn.get
    | with_reducible apply OpIn.set | with_reducible apply OpIn.mod | with_reducible apply OpIn.pure | with_reducible exact OpIn.throw _
    | with_reducible apply OpIn.foldlM | with_reducible apply OpIn.bind | with_reducible apply OpIn.ite | with_reducible apply State.Within.foldl
    | (intro) | with_reducible apply State.Within.ite | split

end Sys2Proof.Machine
end

