-- ==== Sys2Proof/Laws/WithinSequencer.lean ====
section
/-! SUPPORT. What each operation leaves alone (`State.Within`): the sequencer, its pump and what arrives from other fronds. One lemma for each function that changes State. -/

namespace Sys2Proof.Machine

theorem State.advanceHead_within {lv : ℕ} {z s : State} (hz : z.Within lv s) (f : ℕ) (live : Bool) (c : ℕ) (d : ℕ) :
    z.Within lv (State.advanceHead s f live c d) := by
  unfold State.advanceHead
  try dsimp only
  repeat' first
    | with_reducible assumption | with_reducible apply State.setFrond_within | with_reducible apply State.Within.foldl | (intro)
    | with_reducible apply State.Within.ite | split

theorem State.commitStep_within {lv : ℕ} {z s : State} (hz : z.Within lv s) (f : ℕ) (live : Bool) :
    z.Within lv (State.commitStep s f live) := by
  unfold State.commitStep
  try dsimp only
  repeat' first
    | with_reducible assumption | with_reducible apply State.setFrond_within | with_reducible apply State.modTask_within
    | with_reducible apply State.signStep_within | with_reducible apply State.lsSend_within | with_reducible apply State.advanceHead_within
    | with_reducible apply State.Within.foldl | (intro) | with_reducible apply State.Within.ite

theorem State.openStep_within {lv : ℕ} {z s : State} (hz : z.Within lv s) (f : ℕ) (live : Bool) :
    z.Within lv (State.openStep s f live) := by
  unfold State.openStep
  try dsimp only
  repeat' first
    | with_reducible assumption | with_reducible apply State.modTask_within

theorem State.writeStepCkpt_within {lv : ℕ} {z s : State} (hz : z.Within lv s) (c : ℕ) (f : ℕ) :
    z.Within lv (State.writeStepCkpt s c f) := by
  unfold State.writeStepCkpt
  try dsimp only
  repeat' first
    | with_reducible assumption | with_reducible apply State.setFrond_within | with_reducible apply State.modTask_within
    | with_reducible apply State.sporeWrite_within | with_reducible apply State.Within.foldl | (intro) | with_reducible apply State.Within.ite
    | split

theorem State.tryStepCkpt_within {lv : ℕ} {z s : State} (hz : z.Within lv s) (c : ℕ) :
    z.Within lv (State.tryStepCkpt s c) := by
  unfold State.tryStepCkpt
  try dsimp only
  repeat' first
    | with_reducible assumption | with_reducible apply State.setCtx_within | with_reducible apply State.writeStepCkpt_within
    | with_reducible apply State.Within.foldl | (intro) | with_reducible apply State.Within.ite | split

theorem State.endStripe_within {lv : ℕ} {z s : State} (hz : z.Within lv s) (f : ℕ) :
    z.Within lv (State.endStripe s f) := by
  unfold State.endStripe
  try dsimp only
  repeat' first
    | with_reducible assumption | with_reducible apply State.count_within | with_reducible apply State.lsSend_within
    | with_reducible apply State.lsBoundary_within | with_reducible apply State.taskBoundary_within | with_reducible apply State.modFrame_within
    | with_reducible apply State.stripeCkpt_within | with_reducible apply State.clearShare_within | with_reducible apply State.endEvictions_within
    | with_reducible apply State.settleAreas_within | with_reducible apply State.frameDone_within | with_reducible apply State.Within.foldl
    | (intro) | with_reducible apply State.Within.ite | split

theorem State.endSimmer_within {lv : ℕ} {z s : State} (hz : z.Within lv s) (f : ℕ) :
    z.Within lv (State.endSimmer s f) := by
  unfold State.endSimmer
  try dsimp only
  repeat' first
    | with_reducible assumption | with_reducible apply State.setCtx_within | with_reducible apply State.setFrond_within
    | with_reducible apply State.taskBoundary_within | with_reducible apply State.clearShare_within
    | with_reducible apply State.settleAreas_within | with_reducible apply State.instanceDone_within
    | with_reducible apply State.tryStepCkpt_within | with_reducible apply State.Within.foldl | (intro) | with_reducible apply State.Within.ite
    | split

theorem State.endTask_within {lv : ℕ} {z s : State} (hz : z.Within lv s) (f : ℕ) (live : Bool) :
    z.Within lv (State.endTask s f live) := by
  unfold State.endTask
  try dsimp only
  repeat' first
    | with_reducible assumption | with_reducible apply State.commitStep_within | with_reducible apply State.endStripe_within
    | with_reducible apply State.endSimmer_within | with_reducible apply State.Within.foldl | (intro) | with_reducible apply State.Within.ite

theorem cmdIssue_in {lv : ℕ} {z s : State} (hz : z.Within lv s) (f : ℕ) (live : Bool) (x2 : Instr) : OpIn lv z (cmdIssue f live x2) s := by
  unfold cmdIssue
  try dsimp only
  repeat' first
    | with_reducible assumption | with_reducible apply stepTile_in | with_reducible apply mxuIssue_in | with_reducible apply mxuPass_in
    | with_reducible apply drainIssue_in | with_reducible apply vuDrain_in | with_reducible apply combineIssue_in | with_reducible apply need_in
    | with_reducible exact faultWith_in _ _ | with_reducible exact waitFor_in _ | with_reducible apply OpIn.get | with_reducible apply OpIn.set
    | with_reducible apply OpIn.mod | with_reducible apply OpIn.pure | with_reducible exact OpIn.throw _ | with_reducible apply OpIn.foldlM
    | with_reducible apply OpIn.bind | with_reducible apply OpIn.ite | with_reducible apply State.Within.foldl | (intro)
    | with_reducible apply State.Within.ite | split

theorem cmdRun_in {lv : ℕ} {z s : State} (hz : z.Within lv s) (f : ℕ) (live : Bool) (index : ℕ) (tile : ℕ) (x4 : Instr) : OpIn lv z (cmdRun f live
    index tile x4) s := by
  unfold cmdRun
  try dsimp only
  repeat' first
    | with_reducible assumption | with_reducible apply State.count_within | with_reducible apply mxuPass_in | with_reducible apply ptmBuild_in
    | with_reducible apply vuDrain_in | with_reducible apply vuEw_in | with_reducible apply vuDw_in | with_reducible apply vuPool_in
    | with_reducible apply vuArgmax_in | with_reducible apply vuTfn_in | with_reducible apply vuMove_in | with_reducible apply vuTload_in
    | with_reducible apply vuFft_in | with_reducible apply dmaStart_in | with_reducible apply nwSend_in | with_reducible apply combineSend_in
    | with_reducible apply winOpenPlain_in | with_reducible apply winOpenCombine_in | with_reducible apply winShut_in
    | with_reducible apply keepStart_in | with_reducible apply seCapture_in | with_reducible apply fcFill_in | with_reducible apply fcCopy_in
    | with_reducible apply seRegroup_in | with_reducible apply need_in | with_reducible exact faultWith_in _ _ | with_reducible exact waitFor_in _
    | with_reducible apply OpIn.get | with_reducible apply OpIn.set | with_reducible apply OpIn.mod | with_reducible apply OpIn.pure
    | with_reducible exact OpIn.throw _ | with_reducible apply OpIn.foldlM | with_reducible apply OpIn.bind | with_reducible apply OpIn.ite
    | with_reducible apply State.Within.foldl | (intro) | with_reducible apply State.Within.ite | split

theorem State.fireHeader_within {lv : ℕ} {z s : State} (hz : z.Within lv s) (f : ℕ) (c : Instr) (index : ℕ) :
    z.Within lv (State.fireHeader s f c index) := by
  unfold State.fireHeader
  try dsimp only
  repeat' first
    | with_reducible assumption | with_reducible apply State.addSem_within | with_reducible apply State.Within.foldl | (intro)
    | with_reducible apply State.Within.ite

theorem State.poisonNear_within {lv : ℕ} {z s : State} (hz : z.Within lv s) (f : ℕ) (live : Bool) (c : Instr) :
    z.Within lv (State.poisonNear s f live c) := by
  unfold State.poisonNear
  try dsimp only
  repeat' first
    | with_reducible assumption | with_reducible refine State.rowRead_out ?_ (by with_reducible assumption)
    | with_reducible apply State.rowRead_within | with_reducible apply State.spoilRow_within | with_reducible apply State.fillRow_within
    | with_reducible apply State.Within.foldl | (intro) | with_reducible apply State.Within.ite | split

theorem State.skipCommand_within {lv : ℕ} {z s : State} (hz : z.Within lv s) (f : ℕ) (live : Bool) (c : Instr) (index : ℕ) :
    z.Within lv (State.skipCommand s f live c index) := by
  unfold State.skipCommand
  try dsimp only
  repeat' first
    | with_reducible assumption | with_reducible apply State.modTask_within | with_reducible apply State.poisonOutputs_within
    | with_reducible apply State.poisonNear_within | with_reducible apply State.Within.foldl | (intro) | with_reducible apply State.Within.ite

theorem State.setAfter_within {lv : ℕ} {z s : State} (hz : z.Within lv s) (f : ℕ) (live : Bool) (q : ℕ) (index : ℕ) (a : AfterDone) :
    z.Within lv (State.setAfter s f live q index a) := by
  unfold State.setAfter
  try dsimp only
  repeat' first
    | with_reducible assumption | with_reducible apply State.modTask_within

theorem State.skipIssued_within {lv : ℕ} {z s : State} (hz : z.Within lv s) (f : ℕ) (live : Bool) (q : ℕ) (e : QEntry) :
    z.Within lv (State.skipIssued s f live q e) := by
  unfold State.skipIssued
  try dsimp only
  repeat' first
    | with_reducible assumption | with_reducible apply State.setFrond_within | with_reducible apply mxuPass_in
    | with_reducible apply State.spoilTile_within | with_reducible apply State.skipCommand_within | with_reducible apply State.setAfter_within
    | with_reducible apply State.Within.foldl | (intro) | with_reducible apply State.Within.ite | split

theorem State.executes_within {lv : ℕ} {z s : State} (hz : z.Within lv s) (f : ℕ) (live : Bool) (i : Option ℕ) :
    z.Within lv (State.executes s f live i) := by
  unfold State.executes
  try dsimp only
  repeat' first
    | with_reducible assumption | with_reducible apply State.modTask_within

theorem State.tryQueue_out {lv : ℕ} {z s t : State} {f : ℕ} {live : Bool} {q : ℕ} (h : z.Within lv s) (e : s.tryQueue f live q = .ok t) :
    z.Within lv t := by
  unfold State.tryQueue at e
  dsimp only at e
  split at e
  · cases e
  · split at e
    · cases e
    · split at e
      · cases e; exact State.setAfter_within ((cmdRun_in (State.executes_within h _ _ _) _ _ _ _ _).out _ _ (by assumption)) _ _ _ _ _
      · cases e
      · split at e
        · cases e; exact State.skipIssued_within (State.taskFault_within h _ _ _ _ _ _) _ _ _ _
        · cases e; exact State.taskFault_within h _ _ _ _ _ _

theorem State.fillAhead_out {lv : ℕ} {z s t : State} {f : ℕ} {live : Bool} (h : z.Within lv s) (e : s.fillAhead f live = .ok t) : z.Within lv t := by
  unfold State.fillAhead at e
  split at e
  · cases e
  · split at e
    · cases e; exact (loadPass_in h _ _ _ _).out _ _ (by assumption)
    · cases e
    · cases e

theorem headWait_in {lv : ℕ} {z s : State} (hz : z.Within lv s) (f : ℕ) (live : Bool) (c : Instr) : OpIn lv z (headWait f live c) s := by
  unfold headWait
  try dsimp only
  repeat' first
    | with_reducible assumption | with_reducible apply State.idle_within | with_reducible apply State.modTask_within
    | with_reducible apply takeSem_in | with_reducible apply State.commitStep_within | with_reducible apply State.openStep_within
    | with_reducible apply need_in | with_reducible exact faultWith_in _ _ | with_reducible exact waitFor_in _ | with_reducible apply OpIn.get
    | with_reducible apply OpIn.set | with_reducible apply OpIn.mod | with_reducible apply OpIn.pure | with_reducible exact OpIn.throw _
    | with_reducible apply OpIn.foldlM | with_reducible apply OpIn.bind | with_reducible apply OpIn.ite | with_reducible apply State.Within.foldl
    | (intro) | with_reducible apply State.Within.ite

theorem seqRun_in {lv : ℕ} {z s : State} (hz : z.Within lv s) (f : ℕ) (live : Bool) (c : Instr) : OpIn lv z (seqRun f live c) s := by
  unfold seqRun
  try dsimp only
  repeat' first
    | with_reducible assumption | with_reducible apply State.idle_within | with_reducible apply State.count_within
    | with_reducible apply takeSem_in | with_reducible apply signalReady_in | with_reducible apply need_in | with_reducible exact faultWith_in _ _
    | with_reducible exact waitFor_in _ | with_reducible apply OpIn.get | with_reducible apply OpIn.set | with_reducible apply OpIn.mod
    | with_reducible apply OpIn.pure | with_reducible exact OpIn.throw _ | with_reducible apply OpIn.foldlM | with_reducible apply OpIn.bind
    | with_reducible apply OpIn.ite | with_reducible apply State.Within.foldl | (intro) | with_reducible apply State.Within.ite | split

theorem State.sendSignal_within {lv : ℕ} {z s : State} (hz : z.Within lv s) (f : ℕ) (live : Bool) (c : Instr) (target : ℕ) (sem : BitVec 6) (count :
    BitVec 16) (index : ℕ) :
    z.Within lv (State.sendSignal s f live c target sem count index) := by
  unfold State.sendSignal
  try dsimp only
  repeat' first
    | with_reducible assumption | with_reducible apply State.setFrond_within | with_reducible apply State.count_within
    | with_reducible apply State.modTask_within | with_reducible apply State.fireHeader_within | with_reducible apply State.Within.foldl | (intro)
    | with_reducible apply State.Within.ite

theorem State.seqDone_within {lv : ℕ} {z s : State} (hz : z.Within lv s) (f : ℕ) (live : Bool) (c : Instr) :
    z.Within lv (State.seqDone s f live c) := by
  unfold State.seqDone
  try dsimp only
  repeat' first
    | with_reducible assumption | with_reducible apply State.count_within | with_reducible apply State.addSem_within
    | with_reducible apply State.endTask_within | with_reducible apply State.fireHeader_within | with_reducible apply State.sendSignal_within
    | with_reducible apply State.Within.foldl | (intro) | with_reducible apply State.Within.ite | split

theorem State.issueHead_out {lv : ℕ} {z s t : State} {f : ℕ} {live : Bool} {c : Instr} (h : z.Within lv s) (e : s.issueHead f live c = .ok t) :
    z.Within lv t := by
  unfold State.issueHead at e
  dsimp only at e
  split at e
  · split at e
    · cases e
      exact State.seqDone_within (State.modTask_within ((seqRun_in h _ _ _).out _ _ (by assumption)) _ _ _) _ _ _
    · cases e
    · cases e
  · split at e
    · cases e
      exact State.fireHeader_within (State.skipCommand_within (State.modTask_within h _ _ _) _ _ _ _) _ _ _
    · split at e
      · cases e
        exact State.fireHeader_within (State.modTask_within h _ _ _) _ _ _
      · split at e
        · cases e
        · split at e
          · cases e
            exact State.modTask_within ((cmdIssue_in h _ _ _).out _ _ (by assumption)) _ _ _
          · cases e
          · split at e
            · cases e
              exact State.fireHeader_within (State.skipCommand_within (State.taskFault_within (State.modTask_within h _ _ _) _ _ _ _ _ _) _ _ _ _) _ _ _
            · cases e
              exact State.taskFault_within (State.modTask_within h _ _ _) _ _ _ _ _ _

theorem State.tryIssue_out {lv : ℕ} {z s t : State} {f : ℕ} {live : Bool} (h : z.Within lv s) (e : s.tryIssue f live = .ok t) :
    z.Within lv t := by
  unfold State.tryIssue at e
  split at e
  · cases e
  · split at e
    · exact State.issueHead_out h e
    · split at e
      · cases e
      · cases e
      · have h1 := (headWait_in h _ _ _).out _ _ (by assumption)
        split at e
        · cases e; exact State.issueHead_out h1 (by assumption)
        · split at e
          · cases e; exact h1
          · cases e

theorem State.dmaFault_within {lv : ℕ} {z s : State} (hz : z.Within lv s) (f : ℕ) (d : DmaXfer) (code : BitVec 16) :
    z.Within lv (State.dmaFault s f d code) := by
  unfold State.dmaFault
  try dsimp only
  repeat' first
    | with_reducible assumption | with_reducible apply State.spoilRow_within | with_reducible apply State.fillRow_within
    | with_reducible apply State.setDma_within | with_reducible apply State.taskFault_within | with_reducible apply State.Within.foldl | (intro)
    | with_reducible apply State.Within.ite | split

theorem State.moveDmas_within {lv : ℕ} {z s : State} (h : z.Within lv s) (f : ℕ) : z.Within lv ((s.moveDmas f).1.getD s) := by
  unfold State.moveDmas
  apply State.Within.fold (fun a : Option State × List (DmaXfer × ℕ) => a.1.getD s)
  · intro a d k
    dsimp only at k ⊢
    split
    · exact k
    · split
      · exact State.dmaFault_within (State.executes_within (State.dmaMove_out (State.executes_within k _ _ _) (by assumption)) _ _ _) _ _ _
      · split
        · exact State.executes_within (State.dmaMove_out (State.executes_within k _ _ _) (by assumption)) _ _ _
        · exact k
  · exact h

theorem State.moveDmas_out {lv : ℕ} {z s t : State} {f : ℕ} (h : z.Within lv s) (e : (s.moveDmas f).1 = some t) : z.Within lv t := by
  have g := State.moveDmas_within h f
  rw [e] at g
  exact g

theorem State.hop_out {lv : ℕ} {z s t : State} {f : ℕ} {g : Option ℕ} (h : z.Within lv s) (e : s.hop f = some (t, g)) : z.Within lv t := by
  unfold State.hop at e
  dsimp only at e
  repeat' split at e
  all_goals first
    | cases e; done
    | (obtain ⟨rfl, rfl⟩ := Prod.mk.inj (Option.some.inj e)
       repeat' first
         | with_reducible assumption | with_reducible apply State.setDma_within | with_reducible apply State.setFrond_within
         | with_reducible apply State.Within.ite | exact h)

theorem State.passIn_out {lv : ℕ} {z s t : State} {g : ℕ} (h : z.Within lv s) (e : s.passIn g = some t) : z.Within lv t := by
  unfold State.passIn at e
  dsimp only at e
  split at e
  · cases e
  · split at e
    · cases e; exact State.setFrond_within h _ _
    · cases e

theorem State.flow_within {lv : ℕ} {z : State} (n : ℕ) {s : State} (hz : z.Within lv s) (f : ℕ) : z.Within lv (State.flow n s f) := by
  induction n generalizing s f with
  | zero => exact hz
  | succ n ih =>
    unfold State.flow
    dsimp only
    split
    · split
      · exact hz
      · exact ih (State.passIn_out hz (by assumption)) f
    · have g := State.hop_out hz (by assumption)
      split
      · refine ih (ih ?_ _) _
        split
        · exact ih g _
        · exact g
      · refine ih ?_ _
        split
        · exact ih g _
        · exact g

theorem State.retireChunks_within {lv : ℕ} {z s : State} (hz : z.Within lv s) (f : ℕ) :
    z.Within lv (State.retireChunks s f) := by
  unfold State.retireChunks
  try dsimp only
  repeat' first
    | with_reducible assumption | with_reducible apply State.flow_within | with_reducible apply State.Within.foldl | (intro)
    | with_reducible apply State.Within.ite

theorem State.spoilSkipped_within {lv : ℕ} {z s : State} (hz : z.Within lv s) (f : ℕ) :
    z.Within lv (State.spoilSkipped s f) := by
  unfold State.spoilSkipped
  try dsimp only
  repeat' first
    | with_reducible assumption | with_reducible apply State.spoilWrites_within | with_reducible apply State.Within.foldl | (intro)
    | with_reducible apply State.Within.ite

theorem State.runOne_out {lv : ℕ} {z s t : State} {f : ℕ} {live : Bool} (h : z.Within lv s) (e : s.runOne f live = some t) : z.Within lv t := by
  unfold State.runOne at e
  cases hu : (List.range 7).findSome? (fun q => (s.tryQueue f live q).toOption) with
  | some u =>
    rw [hu] at e
    cases e
    obtain ⟨q, -, hq⟩ := List.exists_of_findSome?_eq_some hu
    cases hr : s.tryQueue f live q with
    | error k => rw [hr] at hq; cases hq
    | ok v => rw [hr] at hq; cases hq; exact State.tryQueue_out h hr
  | none =>
    rw [hu] at e
    cases hk : (keepOne f live).run s with
    | ok v => rw [hk] at e; cases e; exact (keepOne_in h f live).out _ _ hk
    | error k =>
      rw [hk] at e
      cases hf : s.fillAhead f live with
      | ok v => rw [hf] at e; cases e; exact State.fillAhead_out h hf
      | error k => rw [hf] at e; cases e

theorem State.pumpOne_out {lv : ℕ} {z s t : State} {f : ℕ} (h : z.Within lv s) (e : s.pumpOne f = some t) : z.Within lv t := by
  unfold State.pumpOne at e
  split at e
  · obtain ⟨u, hu, rfl⟩ := Option.map_eq_some_iff.1 e
    exact State.spoilSkipped_within (State.moveDmas_out h hu) f
  · split at e
    · cases e; exact State.retireChunks_within (State.spoilSkipped_within (State.runOne_out h (by assumption)) f) f
    · split at e
      · cases e; exact State.spoilSkipped_within (State.moveDmas_out h (by assumption)) f
      · split at e
        · split at e
          · cases e; exact State.finishEnding_within h _ _ _
          · cases e
        · rename_i live _ _ _ _ _ _ _
          cases hr : s.tryIssue f live with
          | error k => rw [hr] at e; cases e
          | ok v => rw [hr] at e; cases e; exact State.tryIssue_out h hr

theorem State.pumpFor_within {lv : ℕ} {z x1 : State} (hz : z.Within lv x1) (x0 : ℕ) (x2 : ℕ) :
    z.Within lv (State.pumpFor x0 x1 x2) := by
  induction x0 generalizing x1 with
  | zero => exact hz
  | succ m ih =>
    unfold State.pumpFor
    try dsimp only
    repeat' first
      | with_reducible assumption | with_reducible apply ih | with_reducible refine State.pumpOne_out ?_ (by with_reducible assumption)
      | with_reducible apply State.Within.foldl | (intro) | with_reducible apply State.Within.ite | split | dsimp only
      | with_reducible apply State.Within.upd

theorem State.setTimers_within {lv : ℕ} {z s : State} (hz : z.Within lv s) (f : ℕ) :
    z.Within lv (State.setTimers s f) := by
  unfold State.setTimers
  try dsimp only
  repeat' first
    | with_reducible assumption | with_reducible apply State.modTask_within
    | with_reducible refine State.tryIssue_out ?_ (by with_reducible assumption) | with_reducible apply State.Within.foldl | (intro)
    | with_reducible apply State.Within.ite | split

theorem State.pumpAlone_within {lv : ℕ} {z s : State} (hz : z.Within lv s) (f : ℕ) :
    z.Within lv (State.pumpAlone s f) := by
  unfold State.pumpAlone
  try dsimp only
  repeat' first
    | with_reducible assumption | with_reducible apply State.pumpFor_within | with_reducible apply State.setTimers_within

theorem State.pump_within {lv : ℕ} {z s : State} (hz : z.Within lv s) (f : ℕ) :
    z.Within lv (State.pump s f) := by
  unfold State.pump
  try dsimp only
  repeat' first
    | with_reducible assumption | with_reducible apply State.pumpAlone_within | with_reducible apply State.Within.foldl | (intro)
    | with_reducible apply State.Within.ite | split

theorem State.runMarked_within {lv : ℕ} {z s : State} (hz : z.Within lv s) (c : ℕ) :
    z.Within lv (State.runMarked s c) := by
  unfold State.runMarked
  try dsimp only
  repeat' first
    | with_reducible assumption | with_reducible apply State.tryStepCkpt_within | with_reducible apply State.pump_within
    | with_reducible apply State.Within.foldl | (intro)

theorem State.runAllMarked_within {lv : ℕ} {z s : State} (hz : z.Within lv s)  :
    z.Within lv (State.runAllMarked s) := by
  unfold State.runAllMarked
  try dsimp only
  repeat' first
    | with_reducible assumption | with_reducible apply State.runMarked_within | with_reducible apply State.Within.foldl | (intro)

theorem State.feed_within {lv : ℕ} {z s : State} (hz : z.Within lv s) (f : FrondId) (c : Instr) :
    z.Within lv (State.feed s f c) := by
  unfold State.feed
  try dsimp only
  repeat' first
    | with_reducible assumption | with_reducible apply State.modTask_within | with_reducible apply State.pump_within
    | with_reducible apply State.Within.foldl | (intro) | with_reducible apply State.Within.ite | split

theorem reach_within {lv : ℕ} {z s t : State} {f : FrondId} {c : Instr} (hz : z.Within lv s) (hx : reach f c s = .next t) : z.Within lv t := by
  unfold reach at hx
  exact unlessInert_within hz (fun s hz => State.feed_within hz f c) hx

theorem State.applyAfter_within {lv : ℕ} {z s : State} (hz : z.Within lv s) (f : ℕ) (a : AfterDone) :
    z.Within lv (State.applyAfter s f a) := by
  unfold State.applyAfter
  try dsimp only
  repeat' first
    | with_reducible assumption | with_reducible apply State.setFrond_within | with_reducible apply State.freeTile_within
    | with_reducible apply State.deliverCombine_within | with_reducible apply State.Within.foldl | (intro) | with_reducible apply State.Within.ite
    | split

theorem State.completeOne_out {lv : ℕ} {z s t : State} {f : ℕ} {live : Bool} {q : ℕ} (h : z.Within lv s) (e : s.completeOne f live q = some t) :
    z.Within lv t := by
  unfold State.completeOne at e
  dsimp only at e
  obtain ⟨p, -, rfl⟩ := Option.map_eq_some_iff.1 e
  exact State.fireHeader_within (State.applyAfter_within (State.modTask_within h _ _ _) _ _) _ _ _

theorem execCommandComplete_within {lv : ℕ} {z s t : State} {f : FrondId} {queue : Fin 7} (hz : z.Within lv s)
    (hx : execCommandComplete f queue s = .next t) : z.Within lv t := by
  unfold execCommandComplete at hx
  refine unlessInert_within hz (fun s hz => ?_) hx
  split
  · rename_i u hu
    apply State.pump_within
    cases h : s.completeOne f.val true queue.val with
    | some v => rw [h] at hu; cases hu; exact State.completeOne_out hz h
    | none => rw [h] at hu; exact State.completeOne_out hz hu
  · exact hz

theorem execStepCommit_within {lv : ℕ} {z s t : State} {f : FrondId} (hz : z.Within lv s) (hx : execStepCommit f s = .next t) : z.Within lv t := by
  unfold execStepCommit at hx
  refine unlessInert_within hz (fun s hz => ?_) hx
  try dsimp only
  repeat' first
    | with_reducible assumption | with_reducible apply State.idle_within | with_reducible apply State.commitStep_within
    | with_reducible apply State.pump_within | with_reducible apply State.runMarked_within | with_reducible apply State.Within.foldl | (intro)
    | with_reducible apply State.Within.ite | split

theorem State.tagFault_within {lv : ℕ} {z s : State} (hz : z.Within lv s) (f : ℕ) (live : Bool) (k : ℕ × ℕ × ℕ × ℕ) :
    z.Within lv (State.tagFault s f live k) := by
  unfold State.tagFault
  try dsimp only
  repeat' first
    | with_reducible assumption | with_reducible apply State.taskFault_within | with_reducible apply State.skipIssued_within
    | with_reducible apply State.dmaFault_within | with_reducible apply State.Within.foldl | (intro) | with_reducible apply State.Within.ite
    | split

theorem execTagTimeout_within {lv : ℕ} {z s t : State} {f : FrondId} {now : W64} (hz : z.Within lv s) (hx : execTagTimeout f now s = .next t) :
    z.Within lv t := by
  unfold execTagTimeout at hx
  refine unlessInert_within hz (fun s hz => ?_) hx
  try dsimp only
  repeat' first
    | with_reducible assumption | with_reducible apply State.at_within | with_reducible apply State.pump_within
    | with_reducible apply State.tagFault_within | with_reducible apply State.Within.foldl | (intro) | with_reducible apply State.Within.ite
    | split

theorem State.skipHead_within {lv : ℕ} {z s : State} (hz : z.Within lv s) (f : ℕ) (live : Bool) :
    z.Within lv (State.skipHead s f live) := by
  unfold State.skipHead
  try dsimp only
  repeat' first
    | with_reducible assumption | with_reducible apply State.idle_within | with_reducible apply State.modTask_within
    | with_reducible apply State.commitStep_within | with_reducible apply State.openStep_within | with_reducible apply State.fireHeader_within
    | with_reducible apply State.skipCommand_within | with_reducible apply State.Within.foldl | (intro) | with_reducible apply State.Within.ite
    | split

theorem execSemTimeout_within {lv : ℕ} {z s t : State} {f : FrondId} {now : W64} (hz : z.Within lv s) (hx : execSemTimeout f now s = .next t) :
    z.Within lv t := by
  unfold execSemTimeout at hx
  refine unlessInert_within hz (fun s hz => ?_) hx
  try dsimp only
  repeat' first
    | with_reducible assumption | with_reducible apply State.at_within | with_reducible apply State.taskFault_within
    | with_reducible apply State.pump_within | with_reducible apply State.skipHead_within | with_reducible apply State.Within.foldl | (intro)
    | with_reducible apply State.Within.ite | split

theorem State.signalDone_within {lv : ℕ} {z s : State} (hz : z.Within lv s) (f : ℕ) (g : OutSignal) :
    z.Within lv (State.signalDone s f g) := by
  unfold State.signalDone
  try dsimp only
  repeat' first
    | with_reducible assumption | with_reducible apply State.setFrond_within | with_reducible apply State.modTask_within
    | with_reducible apply State.addSem_within | with_reducible apply State.pump_within | with_reducible apply State.Within.foldl | (intro)
    | with_reducible apply State.Within.ite | split

theorem State.takeSignal_within {lv : ℕ} {z s : State} (hz : z.Within lv s) (target : ℕ) (sem : BitVec 6) (count : BitVec 16) (task : BitVec 16) :
    z.Within lv (State.takeSignal s target sem count task) := by
  unfold State.takeSignal
  try dsimp only
  repeat' first
    | with_reducible assumption | with_reducible apply State.count_within | with_reducible apply State.signalDone_within
    | with_reducible apply State.Within.foldl | (intro) | with_reducible apply State.Within.ite | split

theorem execRemoteSignalArrival_within {lv : ℕ} {z s t : State} {target : FrondId} {sem : BitVec 6} {count : BitVec 16} {task : BitVec 16} (hz :
    z.Within lv s) (hx : execRemoteSignalArrival target sem count task s = .next t) : z.Within lv t := by
  unfold execRemoteSignalArrival at hx
  refine unlessInert_within hz (fun s hz => ?_) hx
  try dsimp only
  repeat' first
    | with_reducible assumption | with_reducible apply State.setFrond_within | with_reducible apply State.count_within
    | with_reducible apply State.modTask_within | with_reducible apply State.addSem_within | with_reducible apply State.pump_within
    | with_reducible apply State.runAllMarked_within | with_reducible apply State.takeSignal_within | with_reducible apply State.Within.foldl
    | (intro) | with_reducible apply State.Within.ite

theorem State.storeRows_within {lv : ℕ} {z s : State} (hz : z.Within lv s) (f : ℕ) (w : Window) (roff : ℕ) (data : List (List Byte)) (bad : Bool) :
    z.Within lv (State.storeRows s f w roff data bad) := by
  unfold State.storeRows
  try dsimp only
  repeat' first
    | with_reducible assumption | with_reducible apply State.rowWrite_within | with_reducible apply State.markRow_within
    | with_reducible apply State.Within.foldl | (intro) | with_reducible apply State.Within.ite | split

theorem State.fetchRows_within {lv : ℕ} {z s : State} (h : z.Within lv s) (f : ℕ) (w : Window) (roff n : ℕ) :
    z.Within lv (s.fetchRows f w roff n).2.2 := by
  unfold State.fetchRows
  apply State.Within.fold (fun a : List (List Byte) × Bool × State => a.2.2)
  · intro a i k
    dsimp only
    split
    · exact State.rowRead_within k _ _ _ _
    · exact k
  · exact h

theorem State.receiveRows_within {lv : ℕ} {z s : State} (hz : z.Within lv s) (src : ℕ) (a : NetAccess) (data : List (List Byte)) (bad : Bool) :
    z.Within lv (State.receiveRows s src a data bad) := by
  unfold State.receiveRows
  try dsimp only
  repeat' first
    | with_reducible assumption | with_reducible apply State.modTask_within | with_reducible apply State.rowWrite_within
    | with_reducible apply State.markRow_within | with_reducible apply State.Within.foldl | (intro) | with_reducible apply State.Within.ite
    | split

theorem State.windowFault_within {lv : ℕ} {z s : State} (hz : z.Within lv s) (src : ℕ) (a : NetAccess) (c : WinCheck) :
    z.Within lv (State.windowFault s src a c) := by
  unfold State.windowFault
  try dsimp only
  repeat' first
    | with_reducible assumption | with_reducible apply State.count_within | with_reducible apply State.taskFault_within

theorem State.deliverAccess_within {lv : ℕ} {z s : State} (hz : z.Within lv s) (src : ℕ) (a : NetAccess) :
    z.Within lv (State.deliverAccess s src a) := by
  unfold State.deliverAccess
  try dsimp only
  repeat' first
    | with_reducible assumption | with_reducible apply State.setGroup_within | with_reducible apply State.sign_within
    | with_reducible apply State.taskFault_within | with_reducible apply State.storeRows_within | with_reducible apply State.fetchRows_within
    | with_reducible apply State.receiveRows_within | with_reducible apply State.windowFault_within | with_reducible apply State.Within.foldl
    | (intro) | with_reducible apply State.Within.ite | split

theorem execRemoteAccessArrival_within {lv : ℕ} {z s t : State} {src : FrondId} (hz : z.Within lv s) (hx : execRemoteAccessArrival src s = .next t)
    : z.Within lv t := by
  unfold execRemoteAccessArrival at hx
  refine unlessInert_within hz (fun s hz => ?_) hx
  try dsimp only
  repeat' first
    | with_reducible assumption | with_reducible apply State.setFrond_within
    | with_reducible refine State.draw_out ?_ (by with_reducible assumption) | with_reducible apply State.draw_within
    | with_reducible apply State.pump_within | with_reducible apply State.deliverAccess_within | with_reducible apply State.Within.foldl | (intro)
    | with_reducible apply State.Within.ite | split

theorem State.dropPartial_within {lv : ℕ} {z s : State} (hz : z.Within lv s) (sender : ℕ) (p : OutPartial) :
    z.Within lv (State.dropPartial s sender p) := by
  unfold State.dropPartial
  try dsimp only
  repeat' first
    | with_reducible assumption | with_reducible apply State.setFrond_within

theorem execCombineRequest_within {lv : ℕ} {z s t : State} {recv : FrondId} {win : BitVec 4} {sender : FrondId} (hz : z.Within lv s) (hx :
    execCombineRequest recv win sender s = .next t) : z.Within lv t := by
  unfold execCombineRequest at hx
  refine unlessInert_within hz (fun s hz => ?_) hx
  try dsimp only
  repeat' first
    | with_reducible assumption | with_reducible apply State.setFrond_within | with_reducible apply State.count_within
    | with_reducible apply State.taskFault_within | with_reducible apply State.pump_within | with_reducible apply State.dropPartial_within
    | with_reducible apply State.Within.foldl | (intro) | with_reducible apply State.Within.ite | split

theorem execCombinePartialArrival_within {lv : ℕ} {z s t : State} {recv : FrondId} {win : BitVec 4} {sender : FrondId} (hz : z.Within lv s) (hx :
    execCombinePartialArrival recv win sender s = .next t) : z.Within lv t := by
  unfold execCombinePartialArrival at hx
  refine unlessInert_within hz (fun s hz => ?_) hx
  try dsimp only
  repeat' first
    | with_reducible assumption | with_reducible apply State.setFrond_within | with_reducible apply State.count_within
    | with_reducible apply State.sign_within | with_reducible apply State.deliverCombine_within | with_reducible apply State.pump_within
    | with_reducible apply State.dropPartial_within | with_reducible apply State.Within.foldl | (intro) | with_reducible apply State.Within.ite
    | split

theorem State.pumpGroup_within {lv : ℕ} {z s : State} (hz : z.Within lv s) (g : ℕ) :
    z.Within lv (State.pumpGroup s g) := by
  unfold State.pumpGroup
  try dsimp only
  repeat' first
    | with_reducible assumption | with_reducible apply State.pump_within | with_reducible apply State.Within.foldl | (intro)
    | with_reducible apply State.Within.ite

theorem execMcastCreditReturn_within {lv : ℕ} {z s t : State} {group : Byte} {member : FrondId} (hz : z.Within lv s) (hx : execMcastCreditReturn
    group member s = .next t) : z.Within lv t := by
  unfold execMcastCreditReturn at hx
  refine unlessInert_within hz (fun s hz => ?_) hx
  try dsimp only
  repeat' first
    | with_reducible assumption | with_reducible apply State.setGroup_within | with_reducible apply State.pumpGroup_within
    | with_reducible apply State.Within.foldl | (intro) | with_reducible apply State.Within.ite

theorem execMcastEvict_within {lv : ℕ} {z s t : State} {group : Byte} {member : FrondId} (hz : z.Within lv s) (hx : execMcastEvict group member s =
    .next t) : z.Within lv t := by
  unfold execMcastEvict at hx
  refine unlessInert_within hz (fun s hz => ?_) hx
  try dsimp only
  repeat' first
    | with_reducible assumption | with_reducible apply State.setGroup_within | with_reducible apply State.count_within
    | with_reducible apply State.pumpGroup_within | with_reducible apply State.Within.foldl | (intro) | with_reducible apply State.Within.ite
    | split

theorem State.enterChain_within {lv : ℕ} {z s : State} (hz : z.Within lv s) (f : ℕ) (c : Chunk) :
    z.Within lv (State.enterChain s f c) := by
  unfold State.enterChain
  try dsimp only
  repeat' first
    | with_reducible assumption | with_reducible apply State.setFrond_within

theorem execRhizomeChunkArrival_within {lv : ℕ} {z s t : State} {f : FrondId} (hz : z.Within lv s) (hx : execRhizomeChunkArrival f s = .next t) :
    z.Within lv t := by
  unfold execRhizomeChunkArrival at hx
  refine unlessInert_within hz (fun s hz => ?_) hx
  try dsimp only
  repeat' first
    | with_reducible assumption | with_reducible apply State.setFrond_within | with_reducible apply State.setDma_within
    | with_reducible apply State.retireChunks_within | with_reducible apply State.pump_within | with_reducible apply State.enterChain_within
    | with_reducible apply State.Within.foldl | (intro) | with_reducible apply State.Within.ite | split

end Sys2Proof.Machine
end

