-- ==== Sys2Proof/Laws/WithinStreams.lean ====
section
/-! SUPPORT. What each operation leaves alone (`State.Within`): live streams, movers and contexts. One lemma for each function that changes State. -/

namespace Sys2Proof.Machine

theorem State.takeShifts_within {lv : ℕ} {z s : State} (hz : z.Within lv s) (c : ℕ) (frame : W32) :
    z.Within lv (State.takeShifts s c frame) := by
  unfold State.takeShifts
  try dsimp only
  repeat' first
    | with_reducible assumption | with_reducible apply State.setCtx_within | with_reducible apply State.setStream_within
    | with_reducible apply State.Within.foldl | (intro) | with_reducible apply State.Within.ite

theorem State.takeLite_within {lv : ℕ} {z s : State} (hz : z.Within lv s) (c : ℕ) :
    z.Within lv (State.takeLite s c) := by
  unfold State.takeLite
  try dsimp only
  repeat' first
    | with_reducible assumption | with_reducible apply State.setStream_within | with_reducible apply State.ctxEvent_within
    | with_reducible apply State.Within.foldl | (intro) | with_reducible apply State.Within.ite | split

theorem State.openFrame_within {lv : ℕ} {z s : State} (hz : z.Within lv s) (c : ℕ) :
    z.Within lv (State.openFrame s c) := by
  unfold State.openFrame
  try dsimp only
  repeat' first
    | with_reducible assumption | with_reducible apply State.setCtx_within | with_reducible apply State.setStream_within
    | with_reducible apply State.lsNotRun_within | with_reducible apply State.stripeCkpt_within | with_reducible apply State.applyBind_within
    | with_reducible apply State.takeShifts_within | with_reducible apply State.takeLite_within | with_reducible apply State.Within.foldl
    | (intro) | with_reducible apply State.Within.ite | split

theorem State.releaseStripe_within {lv : ℕ} {z s : State} (hz : z.Within lv s) (c : ℕ) (r : FrameRun) :
    z.Within lv (State.releaseStripe s c r) := by
  unfold State.releaseStripe
  try dsimp only
  repeat' first
    | with_reducible assumption | with_reducible apply State.setFrond_within | with_reducible apply State.count_within
    | with_reducible apply State.modFrame_within | with_reducible apply State.Within.foldl | (intro)

theorem State.releaseDueStripes_within {lv : ℕ} {z x1 : State} (hz : z.Within lv x1) (x0 : ℕ) (x2 : ℕ) (x3 : W32) :
    z.Within lv (State.releaseDueStripes x0 x1 x2 x3) := by
  induction x0 generalizing x1 with
  | zero => exact hz
  | succ m ih =>
    unfold State.releaseDueStripes
    try dsimp only
    repeat' first
      | with_reducible assumption | with_reducible apply ih | with_reducible apply State.releaseStripe_within
      | with_reducible apply State.Within.foldl | (intro) | with_reducible apply State.Within.ite | split | dsimp only
      | with_reducible apply State.Within.upd

theorem State.holdLine_within {lv : ℕ} {z s : State} (hz : z.Within lv s) (x : Layer) (k : SlotKind) (q : QueueLine) :
    z.Within lv (State.holdLine s x k q) := by
  unfold State.holdLine
  try dsimp only
  repeat' first
    | with_reducible assumption | with_reducible apply State.memWrite_within | with_reducible apply State.Within.foldl | (intro)
    | with_reducible apply State.Within.ite

theorem State.takeLine_within {lv : ℕ} {z s : State} (hz : z.Within lv s) (c : ℕ) (frame : W32) (line : ℕ) :
    z.Within lv (State.takeLine s c frame line) := by
  unfold State.takeLine
  try dsimp only
  repeat' first
    | with_reducible assumption | with_reducible apply State.setComp_within | with_reducible apply State.complete_within
    | with_reducible apply State.holdLine_within | with_reducible apply State.Within.foldl | (intro) | with_reducible apply State.Within.ite
    | split

theorem State.judgeLine_within {lv : ℕ} {z s : State} (hz : z.Within lv s) (c : ℕ) (r : FrameRun) (line : ℕ) :
    z.Within lv (State.judgeLine s c r line) := by
  unfold State.judgeLine
  try dsimp only
  repeat' first
    | with_reducible assumption | with_reducible apply State.count_within | with_reducible apply State.modFrame_within
    | with_reducible apply State.takeLine_within | with_reducible apply State.Within.foldl | (intro) | with_reducible apply State.Within.ite

theorem State.judgeLines_within {lv : ℕ} {z s : State} (hz : z.Within lv s) (c : ℕ) (r : FrameRun) :
    z.Within lv (State.judgeLines s c r) := by
  unfold State.judgeLines
  try dsimp only
  repeat' first
    | with_reducible assumption | with_reducible apply State.reportHeld_within | with_reducible apply State.judgeLine_within
    | with_reducible apply State.Within.foldl | (intro)

theorem State.judgeFrame_within {lv : ℕ} {z s : State} (hz : z.Within lv s) (c : ℕ) (r : FrameRun) :
    z.Within lv (State.judgeFrame s c r) := by
  unfold State.judgeFrame
  try dsimp only
  repeat' first
    | with_reducible assumption | with_reducible apply State.setComp_within | with_reducible apply State.settleFrame_within
    | with_reducible apply State.judgeLines_within | with_reducible apply State.Within.foldl | (intro) | with_reducible apply State.Within.ite
    | split

theorem State.openDue_within {lv : ℕ} {z x1 : State} (hz : z.Within lv x1) (x0 : ℕ) (x2 : ℕ) :
    z.Within lv (State.openDue x0 x1 x2) := by
  induction x0 generalizing x1 with
  | zero => exact hz
  | succ m ih =>
    unfold State.openDue
    try dsimp only
    repeat' first
      | with_reducible assumption | with_reducible apply ih | with_reducible apply State.openFrame_within
      | with_reducible apply State.Within.foldl | (intro) | with_reducible apply State.Within.ite | split | dsimp only
      | with_reducible apply State.Within.upd

theorem State.streamTick_within {lv : ℕ} {z s : State} (hz : z.Within lv s) (c : ℕ) :
    z.Within lv (State.streamTick s c) := by
  unfold State.streamTick
  try dsimp only
  repeat' first
    | with_reducible assumption | with_reducible apply State.sayUnrun_within | with_reducible apply State.releaseDueStripes_within
    | with_reducible apply State.judgeFrame_within | with_reducible apply State.openDue_within | with_reducible apply State.Within.foldl | (intro)
    | with_reducible apply State.Within.ite

theorem State.markStaged_within {lv : ℕ} {z s : State} (hz : z.Within lv s) (c : ℕ) (input : W32) :
    z.Within lv (State.markStaged s c input) := by
  unfold State.markStaged
  try dsimp only
  repeat' first
    | with_reducible assumption | with_reducible apply State.setCtx_within | with_reducible apply State.setStream_within
    | with_reducible apply State.modJob_within | with_reducible apply State.openFrame_within | with_reducible apply State.releaseDueStripes_within
    | with_reducible apply State.Within.foldl | (intro) | with_reducible apply State.Within.ite | split

theorem State.signSection_within {lv : ℕ} {z s : State} (hz : z.Within lv s) (l : LineSection) :
    z.Within lv (State.signSection s l) := by
  unfold State.signSection
  try dsimp only
  repeat' first
    | with_reducible assumption | with_reducible apply State.sign_within | with_reducible apply State.Within.foldl | (intro)
    | with_reducible apply State.Within.ite | split

theorem execLineQueueArrival_within {lv : ℕ} {z s t : State} {l : LineSection} (hz : z.Within lv s) (hx : execLineQueueArrival l s = .next t) :
    z.Within lv t := by
  unfold execLineQueueArrival at hx
  refine unlessInert_within hz (fun s hz => ?_) hx
  try dsimp only
  repeat' first
    | with_reducible assumption | with_reducible apply State.setComp_within | with_reducible apply State.complete_within
    | with_reducible apply State.signSection_within | with_reducible apply State.Within.foldl | (intro) | with_reducible apply State.Within.ite
    | split

theorem State.wbRecord_within {lv : ℕ} {z s : State} (hz : z.Within lv s) (n : ℕ) (w : Writeback) (q : WbFrame) :
    z.Within lv (State.wbRecord s n w q) := by
  unfold State.wbRecord
  try dsimp only
  repeat' first
    | with_reducible assumption | with_reducible apply State.setComp_within | with_reducible apply State.ctxEvent_within
    | with_reducible apply State.Within.foldl | (intro) | with_reducible apply State.Within.ite

theorem State.wbSettle_within {lv : ℕ} {z s : State} (hz : z.Within lv s) (n : ℕ) :
    z.Within lv (State.wbSettle s n) := by
  unfold State.wbSettle
  try dsimp only
  repeat' first
    | with_reducible assumption | with_reducible apply State.setComp_within | with_reducible apply State.wbRecord_within
    | with_reducible apply State.Within.foldl | (intro)

theorem State.xferUnits_within {lv : ℕ} {z s : State} (h : z.Within lv s) (x : Xfer) (n : ℕ) : z.Within lv (s.xferUnits x n) := by
  unfold State.xferUnits
  exact State.clearCovered_within (State.Within.fold (fun a : State × List (ℕ × ℕ) => a.1) _ _ _ (fun a i k => State.walkWrite_within k _ _ _ _ _) h) _ _

theorem State.xferMove_within {lv : ℕ} {z s : State} (hz : z.Within lv s) (x : Xfer) :
    z.Within lv (State.xferMove s x).1 := by
  unfold State.xferMove
  try dsimp only
  repeat' first
    | with_reducible assumption | with_reducible apply State.count_within | with_reducible apply State.requestPage_within
    | with_reducible apply State.xferUnits_within | with_reducible apply State.Within.foldl | (intro) | with_reducible apply State.Within.ite
    | split

theorem State.xferMove_out {lv : ℕ} {z s t : State} {x : Xfer} {a1 : Xfer}
    (hz : z.Within lv s) (e : State.xferMove s x = (t, a1)) : z.Within lv t := by
  have g := State.xferMove_within hz x
  rw [e] at g
  exact g

theorem State.lineEnded_within {lv : ℕ} {z s : State} (hz : z.Within lv s) (n : ℕ) (bind : ℕ) (frame : W32) (dropped : Bool) :
    z.Within lv (State.lineEnded s n bind frame dropped) := by
  unfold State.lineEnded
  try dsimp only
  repeat' first
    | with_reducible assumption | with_reducible apply State.setComp_within | with_reducible apply State.count_within
    | with_reducible apply State.Within.foldl | (intro) | with_reducible apply State.Within.ite

theorem State.xferStands_within {lv : ℕ} {z s : State} (hz : z.Within lv s) (m : ℕ) (x : Xfer) :
    z.Within lv (State.xferStands s m x) := by
  unfold State.xferStands
  try dsimp only
  repeat' first
    | with_reducible assumption | with_reducible apply State.setMover_within | with_reducible apply State.lineEnded_within
    | with_reducible apply State.Within.foldl | (intro) | with_reducible apply State.Within.ite | split

theorem State.moverFill_within {lv : ℕ} {z x1 : State} (hz : z.Within lv x1) (x0 : ℕ) (x2 : ℕ) :
    z.Within lv (State.moverFill x0 x1 x2) := by
  induction x0 generalizing x1 with
  | zero => exact hz
  | succ m ih =>
    unfold State.moverFill
    try dsimp only
    repeat' first
      | with_reducible assumption | with_reducible apply ih | with_reducible apply State.setMover_within
      | with_reducible refine State.xferMove_out ?_ (by with_reducible assumption) | with_reducible apply State.xferMove_within
      | with_reducible apply State.xferStands_within | with_reducible apply State.Within.foldl | (intro) | with_reducible apply State.Within.ite
      | split | dsimp only | with_reducible apply State.Within.upd

theorem State.post_within {lv : ℕ} {z s : State} (hz : z.Within lv s) (x : Xfer) :
    z.Within lv (State.post s x) := by
  unfold State.post
  try dsimp only
  repeat' first
    | with_reducible assumption | with_reducible apply State.setMover_within | with_reducible apply State.moverFill_within
    | with_reducible apply State.Within.foldl | (intro) | with_reducible apply State.Within.ite | split | dsimp only
    | with_reducible apply State.Within.upd

theorem State.stageFrame_within {lv : ℕ} {z s : State} (hz : z.Within lv s) (c : ℕ) (j : FrameJob) :
    z.Within lv (State.stageFrame s c j) := by
  unfold State.stageFrame
  try dsimp only
  repeat' first
    | with_reducible assumption | with_reducible apply State.modJob_within | with_reducible apply State.post_within
    | with_reducible apply State.Within.foldl | (intro) | with_reducible apply State.Within.ite | split

theorem State.stageDue_within {lv : ℕ} {z s : State} (hz : z.Within lv s) (c : ℕ) :
    z.Within lv (State.stageDue s c) := by
  unfold State.stageDue
  try dsimp only
  repeat' first
    | with_reducible assumption | with_reducible apply State.stageFrame_within | with_reducible apply State.Within.foldl | (intro)
    | with_reducible apply State.Within.ite | split

theorem State.stageAll_within {lv : ℕ} {z s : State} (hz : z.Within lv s)  :
    z.Within lv (State.stageAll s) := by
  unfold State.stageAll
  try dsimp only
  repeat' first
    | with_reducible assumption | with_reducible apply State.moverFill_within | with_reducible apply State.stageDue_within
    | with_reducible apply State.Within.foldl | (intro) | with_reducible apply State.Within.ite

theorem execFrameStaged_within {lv : ℕ} {z s t : State} {ctx : Fin 48} {frame : W32} (hz : z.Within lv s) (hx : execFrameStaged ctx frame s = .next
    t) : z.Within lv t := by
  unfold execFrameStaged at hx
  refine unlessInert_within hz (fun s hz => ?_) hx
  try dsimp only
  repeat' first
    | with_reducible assumption | with_reducible apply State.markStaged_within | with_reducible apply State.Within.foldl | (intro)
    | with_reducible apply State.Within.ite | split

theorem State.xferEnded_within {lv : ℕ} {z s : State} (hz : z.Within lv s) (x : Xfer) (status : BitVec 16) :
    z.Within lv (State.xferEnded s x status) := by
  unfold State.xferEnded
  try dsimp only
  repeat' first
    | with_reducible assumption | with_reducible apply State.setHalo_within | with_reducible apply State.complete_within
    | with_reducible apply State.modJob_within | with_reducible apply State.settleJob_within | with_reducible apply State.wbSettle_within
    | with_reducible apply State.lineEnded_within | with_reducible apply State.Within.foldl | (intro) | with_reducible apply State.Within.ite
    | split

theorem State.dropXfer_within {lv : ℕ} {z s : State} (hz : z.Within lv s) (m : ℕ) (x : Xfer) (status : BitVec 16) :
    z.Within lv (State.dropXfer s m x status) := by
  unfold State.dropXfer
  try dsimp only
  repeat' first
    | with_reducible assumption | with_reducible apply State.setMover_within | with_reducible apply State.moverFill_within
    | with_reducible apply State.stageAll_within | with_reducible apply State.xferEnded_within

theorem execStreamMoverTransferDone_within {lv : ℕ} {z s t : State} {mover : Fin 32} {xfer : ℕ} (hz : z.Within lv s) (hx :
    execStreamMoverTransferDone mover xfer s = .next t) : z.Within lv t := by
  unfold execStreamMoverTransferDone at hx
  refine unlessInert_within hz (fun s hz => ?_) hx
  try dsimp only
  repeat' first
    | with_reducible assumption | with_reducible apply State.dropXfer_within | with_reducible apply State.Within.foldl | (intro)
    | with_reducible apply State.Within.ite | split

theorem execPageLate_within {lv : ℕ} {z s t : State} {mover : Fin 32} {xfer : ℕ} {now : W64} (hz : z.Within lv s) (hx : execPageLate mover xfer now
    s = .next t) : z.Within lv t := by
  unfold execPageLate at hx
  refine unlessInert_within hz (fun s hz => ?_) hx
  try dsimp only
  repeat' first
    | with_reducible assumption | with_reducible apply State.setMover_within | with_reducible apply State.at_within
    | with_reducible apply State.dropXfer_within | with_reducible apply State.Within.foldl | (intro) | with_reducible apply State.Within.ite
    | split

theorem State.askPages_within {lv : ℕ} {z s : State} (hz : z.Within lv s)  :
    z.Within lv (State.askPages s) := by
  unfold State.askPages
  try dsimp only
  repeat' first
    | with_reducible assumption | with_reducible apply State.requestPage_within | with_reducible apply State.Within.foldl | (intro)

theorem State.pagePresent_within {lv : ℕ} {z s : State} (hz : z.Within lv s) (page : ℕ) :
    z.Within lv (State.pagePresent s page) := by
  unfold State.pagePresent
  try dsimp only
  repeat' first
    | with_reducible assumption | with_reducible apply State.setMover_within | with_reducible apply State.pump_within
    | with_reducible refine State.xferMove_out ?_ (by with_reducible assumption) | with_reducible apply State.xferMove_within
    | with_reducible apply State.dropXfer_within | with_reducible apply State.askPages_within | with_reducible apply State.Within.foldl | (intro)
    | with_reducible apply State.Within.ite | split | dsimp only | with_reducible apply State.Within.upd

theorem State.pageDenied_within {lv : ℕ} {z s : State} (hz : z.Within lv s) (page : ℕ) :
    z.Within lv (State.pageDenied s page) := by
  unfold State.pageDenied
  try dsimp only
  repeat' first
    | with_reducible assumption | with_reducible apply State.dmaFault_within | with_reducible apply State.pump_within
    | with_reducible apply State.dropXfer_within | with_reducible apply State.askPages_within | with_reducible apply State.Within.foldl | (intro)
    | with_reducible apply State.Within.ite | split | dsimp only | with_reducible apply State.Within.upd

theorem execPageResponse_within {lv : ℕ} {z s t : State} {page : BitVec 52} {result : PageResult} (hz : z.Within lv s) (hx : execPageResponse page
    result s = .next t) : z.Within lv t := by
  unfold execPageResponse at hx
  refine unlessInert_within hz (fun s hz => ?_) hx
  try dsimp only
  repeat' first
    | with_reducible assumption | with_reducible apply State.pagePresent_within | with_reducible apply State.pageDenied_within
    | with_reducible apply State.Within.foldl | (intro) | with_reducible apply State.Within.ite | split

theorem execPriTimeout_within {lv : ℕ} {z s t : State} {page : BitVec 52} (hz : z.Within lv s) (hx : execPriTimeout page s = .next t) : z.Within lv
    t := by
  unfold execPriTimeout at hx
  refine unlessInert_within hz (fun s hz => ?_) hx
  try dsimp only
  repeat' first
    | with_reducible assumption | with_reducible apply State.pageDenied_within | with_reducible apply State.Within.foldl | (intro)
    | with_reducible apply State.Within.ite

theorem State.translate_within {lv : ℕ} {z s : State} (hz : z.Within lv s) (page : ℕ) (answer : W64) :
    z.Within lv (State.translate s page answer) := by
  unfold State.translate
  try dsimp only
  repeat' first
    | with_reducible assumption | with_reducible apply State.Within.foldl | (intro) | with_reducible apply State.Within.ite | split | dsimp only
    | with_reducible apply State.Within.upd

theorem execAtsInvalidation_within {lv : ℕ} {z s t : State} {page : BitVec 52} (hz : z.Within lv s) (hx : execAtsInvalidation page s = .next t) :
    z.Within lv t := by
  unfold execAtsInvalidation at hx
  refine unlessInert_within hz (fun s hz => ?_) hx
  try dsimp only
  repeat' first
    | with_reducible assumption | with_reducible refine State.draw_out ?_ (by with_reducible assumption) | with_reducible apply State.draw_within
    | with_reducible apply State.translate_within | with_reducible apply State.Within.foldl | (intro) | with_reducible apply State.Within.ite
    | split | dsimp only | with_reducible apply State.Within.upd

theorem execCtxOpen_within {lv : ℕ} {z s t : State} {h : DescHdr} {update : Bool} {inHbm : Bool} {image : W64} (hz : z.Within lv s) (hx :
    execCtxOpen h update inHbm image s = .next t) : z.Within lv t := by
  unfold execCtxOpen at hx
  refine descriptor_within hz (fun s hz => ?_) hx
  try dsimp only
  repeat' first
    | with_reducible assumption | with_reducible apply State.setCtx_within | with_reducible apply State.complete_within
    | with_reducible apply State.descRingFault_within | with_reducible apply State.Within.foldl | (intro) | with_reducible apply State.Within.ite

theorem execCtxClose_within {lv : ℕ} {z s t : State} {h : DescHdr} (hz : z.Within lv s) (hx : execCtxClose h s = .next t) : z.Within lv t := by
  unfold execCtxClose at hx
  refine descriptor_within hz (fun s hz => ?_) hx
  try dsimp only
  repeat' first
    | with_reducible assumption | with_reducible apply State.setCtx_within | with_reducible apply State.complete_within
    | with_reducible apply State.unbindImage_within | with_reducible apply State.Within.foldl | (intro) | with_reducible apply State.Within.ite

theorem State.bindGroups_within {lv : ℕ} {z s : State} (hz : z.Within lv s) (c : ℕ) (b : Bound) :
    z.Within lv (State.bindGroups s c b).2 := by
  unfold State.bindGroups
  try dsimp only
  repeat' first
    | with_reducible assumption | with_reducible refine State.takeGroups_out ?_ (by with_reducible assumption)
    | with_reducible apply State.takeGroups_within | with_reducible apply State.Within.foldl | (intro) | with_reducible apply State.Within.ite
    | split

theorem State.bindGroups_out {lv : ℕ} {z s t : State} {c : ℕ} {b : Bound} {a0 : List ℕ}
    (hz : z.Within lv s) (e : State.bindGroups s c b = (a0, t)) : z.Within lv t := by
  have g := State.bindGroups_within hz c b
  rw [e] at g
  exact g

theorem execModelBind_within {lv : ℕ} {z s t : State} {h : DescHdr} {image : W64} {imageBytes : W32} {sharedPin : Bool} {pinned : W64} {mask :
    BitVec 256} (hz : z.Within lv s) (hx : execModelBind h image imageBytes sharedPin pinned mask s = .next t) : z.Within lv t := by
  unfold execModelBind at hx
  refine descriptor_within hz (fun s hz => ?_) hx
  try dsimp only
  repeat' first
    | with_reducible assumption | with_reducible apply State.setCtx_within | with_reducible apply State.setStream_within
    | with_reducible apply State.complete_within | with_reducible apply State.pinAll_within | with_reducible apply State.bindImage_within
    | with_reducible apply State.unbindImage_within | with_reducible refine State.bindGroups_out ?_ (by with_reducible assumption)
    | with_reducible apply State.bindGroups_within | with_reducible apply State.Within.foldl | (intro) | with_reducible apply State.Within.ite
    | split

theorem execStreamStart_within {lv : ℕ} {z s t : State} {h : DescHdr} {firstIn : W32} {outFrame : W32} (hz : z.Within lv s) (hx : execStreamStart h
    firstIn outFrame s = .next t) : z.Within lv t := by
  unfold execStreamStart at hx
  refine descriptor_within hz (fun s hz => ?_) hx
  try dsimp only
  repeat' first
    | with_reducible assumption | with_reducible apply State.setCtx_within | with_reducible apply State.setStream_within
    | with_reducible apply State.complete_within | with_reducible apply State.reportAdmission_within
    | with_reducible apply State.finishStart_within | with_reducible apply State.occupy_within | with_reducible apply State.Within.foldl | (intro)
    | with_reducible apply State.Within.ite | split

theorem execStreamStop_within {lv : ℕ} {z s t : State} {h : DescHdr} {stopNow : Bool} {lastIn : W32} (hz : z.Within lv s) (hx : execStreamStop h
    stopNow lastIn s = .next t) : z.Within lv t := by
  unfold execStreamStop at hx
  refine descriptor_within hz (fun s hz => ?_) hx
  try dsimp only
  repeat' first
    | with_reducible assumption | with_reducible apply State.setCtx_within | with_reducible apply State.setStream_within
    | with_reducible apply State.complete_within | with_reducible apply State.maybeEnd_within | with_reducible apply State.Within.foldl | (intro)
    | with_reducible apply State.Within.ite

theorem execFrameSubmit_within {lv : ℕ} {z s t : State} {h : DescHdr} {b : FrameBody} (hz : z.Within lv s) (hx : execFrameSubmit h b s = .next t) :
    z.Within lv t := by
  unfold execFrameSubmit at hx
  dsimp only at hx
  split at hx
  · cases hx; exact hz
  refine descriptor_within hz (fun s hz => ?_) hx
  try dsimp only
  repeat' first
    | with_reducible assumption | with_reducible apply State.setCtx_within | with_reducible apply State.setStream_within
    | with_reducible apply State.completeWith_within | with_reducible apply State.stageDue_within | with_reducible apply State.Within.foldl
    | (intro) | with_reducible apply State.Within.ite

theorem execJobRun_within {lv : ℕ} {z s t : State} {h : DescHdr} {b : JobBody} (hz : z.Within lv s) (hx : execJobRun h b s = .next t) : z.Within lv
    t := by
  unfold execJobRun at hx
  dsimp only at hx
  split at hx
  · cases hx; exact hz
  refine descriptor_within hz (fun s hz => ?_) hx
  try dsimp only
  repeat' first
    | with_reducible assumption | with_reducible apply State.setCtx_within | with_reducible apply State.count_within
    | with_reducible apply State.complete_within | with_reducible apply State.descRingFault_within
    | with_reducible refine State.takeGroups_out ?_ (by with_reducible assumption) | with_reducible apply State.takeGroups_within
    | with_reducible apply State.completeJob_within | with_reducible apply State.Within.foldl | (intro) | with_reducible apply State.Within.ite
    | split

theorem execCopy_within {lv : ℕ} {z s t : State} {h : DescHdr} {srcSpace : Space} {dstSpace : Space} {src : Walk} {dst : Walk} (hz : z.Within lv s)
    (hx : execCopy h srcSpace dstSpace src dst s = .next t) : z.Within lv t := by
  unfold execCopy at hx
  dsimp only at hx
  split at hx
  · cases hx; exact hz
  refine descriptor_within hz (fun s hz => ?_) hx
  try dsimp only
  repeat' first
    | with_reducible assumption | with_reducible apply State.complete_within | with_reducible apply State.post_within
    | with_reducible apply State.Within.foldl | (intro) | with_reducible apply State.Within.ite

theorem State.stripeTask_within {lv : ℕ} {z s : State} (hz : z.Within lv s) (f : ℕ) (j : StripeJob) (mask : BitVec 256) :
    z.Within lv (State.stripeTask s f j mask).2 := by
  unfold State.stripeTask
  try dsimp only
  repeat' first
    | with_reducible assumption | with_reducible apply State.setFrond_within
    | with_reducible refine State.nextTask_out ?_ (by with_reducible assumption) | with_reducible apply State.nextTask_within
    | with_reducible apply State.Within.foldl | (intro) | with_reducible apply State.Within.ite | split

theorem State.stripeTask_out {lv : ℕ} {z s t : State} {f : ℕ} {j : StripeJob} {mask : BitVec 256} {a0 : BitVec 16}
    (hz : z.Within lv s) (e : State.stripeTask s f j mask = (a0, t)) : z.Within lv t := by
  have g := State.stripeTask_within hz f j mask
  rw [e] at g
  exact g

theorem State.beginStripe_within {lv : ℕ} {z s : State} (hz : z.Within lv s) (f : ℕ) (j : StripeJob) (b : Bound) (r : FrameRun) :
    z.Within lv (State.beginStripe s f j b r) := by
  unfold State.beginStripe
  try dsimp only
  repeat' first
    | with_reducible assumption | with_reducible apply State.setFrond_within | with_reducible apply State.recordFault_within
    | with_reducible apply State.abortFrame_within | with_reducible apply State.startTask_within
    | with_reducible refine State.stripeTask_out ?_ (by with_reducible assumption) | with_reducible apply State.stripeTask_within
    | with_reducible apply State.Within.foldl | (intro) | with_reducible apply State.Within.ite | split

theorem execStripeStart_within {lv : ℕ} {z s t : State} {f : FrondId} (hz : z.Within lv s) (hx : execStripeStart f s = .next t) : z.Within lv t := by
  unfold execStripeStart at hx
  refine unlessInert_within hz (fun s hz => ?_) hx
  try dsimp only
  repeat' first
    | with_reducible assumption | with_reducible apply State.pump_within | with_reducible apply State.beginStripe_within
    | with_reducible apply State.Within.foldl | (intro) | with_reducible apply State.Within.ite | split

theorem State.yieldFrond_within {lv : ℕ} {z s : State} (hz : z.Within lv s) (f : ℕ) :
    z.Within lv (State.yieldFrond s f) := by
  unfold State.yieldFrond
  try dsimp only
  repeat' first
    | with_reducible assumption | with_reducible apply State.setFrond_within | with_reducible apply State.meter_within
    | with_reducible apply State.settleAreas_within | with_reducible apply State.Within.foldl | (intro) | with_reducible apply State.Within.ite
    | split

theorem execSimmerYield_within {lv : ℕ} {z s t : State} {f : FrondId} (hz : z.Within lv s) (hx : execSimmerYield f s = .next t) : z.Within lv t := by
  unfold execSimmerYield at hx
  refine unlessInert_within hz (fun s hz => ?_) hx
  try dsimp only
  repeat' first
    | with_reducible assumption | with_reducible apply State.yieldFrond_within | with_reducible apply State.Within.foldl | (intro)
    | with_reducible apply State.Within.ite

theorem State.resumeSimmer_within {lv : ℕ} {z s : State} (hz : z.Within lv s) (f : ℕ) (t : Task) :
    z.Within lv (State.resumeSimmer s f t) := by
  unfold State.resumeSimmer
  try dsimp only
  repeat' first
    | with_reducible assumption | with_reducible apply State.setFrond_within | with_reducible apply State.meter_within
    | with_reducible apply State.reloadBuffers_within | with_reducible apply State.wake_within

theorem execSimmerResume_within {lv : ℕ} {z s t : State} {f : FrondId} (hz : z.Within lv s) (hx : execSimmerResume f s = .next t) : z.Within lv t :=
    by
  unfold execSimmerResume at hx
  refine unlessInert_within hz (fun s hz => ?_) hx
  try dsimp only
  repeat' first
    | with_reducible assumption | with_reducible apply State.pump_within | with_reducible apply State.resumeSimmer_within
    | with_reducible apply State.Within.foldl | (intro) | with_reducible apply State.Within.ite | split

theorem State.dispatchFault_within {lv : ℕ} {z s : State} (hz : z.Within lv s) (c : ℕ) (b : Bound) (j : Job) (code : BitVec 16) (index : ℕ) (entry :
    ℕ) :
    z.Within lv (State.dispatchFault s c b j code index entry) := by
  unfold State.dispatchFault
  try dsimp only
  repeat' first
    | with_reducible assumption | with_reducible apply State.recordFault_within | with_reducible apply State.completeJob_within
    | with_reducible apply State.Within.foldl | (intro)

theorem State.beginSimmer_within {lv : ℕ} {z s : State} (hz : z.Within lv s) (f : ℕ) (t : Task) :
    z.Within lv (State.beginSimmer s f t) := by
  unfold State.beginSimmer
  try dsimp only
  repeat' first
    | with_reducible assumption | with_reducible apply State.setFrond_within | with_reducible apply State.taskBoundary_within
    | with_reducible apply State.placeSimmer_within | with_reducible apply State.startTask_within | with_reducible apply State.pump_within
    | with_reducible apply State.Within.foldl | (intro) | with_reducible apply State.Within.ite

theorem execDispatch_within {lv : ℕ} {z s t : State} {ctx : BitVec 14} (hz : z.Within lv s) (hx : execDispatch ctx s = .next t) : z.Within lv t := by
  unfold execDispatch at hx
  refine unlessInert_within hz (fun s hz => ?_) hx
  try dsimp only
  repeat' first
    | with_reducible assumption | with_reducible apply State.setCtx_within | with_reducible apply State.haltRing_within
    | with_reducible refine State.nextTask_out ?_ (by with_reducible assumption) | with_reducible apply State.nextTask_within
    | with_reducible apply State.pinAll_within | with_reducible apply State.completeJob_within | with_reducible apply State.dispatchFault_within
    | with_reducible apply State.beginSimmer_within | with_reducible apply State.Within.foldl | (intro) | with_reducible apply State.Within.ite
    | split

end Sys2Proof.Machine
end

