-- ==== Sys2Proof/Laws/WithinDisplay.lean ====
section
/-! SUPPORT. What each operation leaves alone (`State.Within`): commit points, wear, composition and timing generators. One lemma for each function that changes State. -/

namespace Sys2Proof.Machine

theorem execLayerSet_within {lv : ℕ} {z s t : State} {h : DescHdr} {output : OutId} {slot : Byte} {host : Bool} {record : W64} (hz : z.Within lv s)
    (hx : execLayerSet h output slot host record s = .next t) : z.Within lv t := by
  unfold execLayerSet at hx
  refine descriptor_within hz (fun s hz => ?_) hx
  try dsimp only
  repeat' first
    | with_reducible assumption | with_reducible apply State.setComp_within | with_reducible apply State.complete_within
    | with_reducible apply State.descRingFault_within | with_reducible apply State.Within.foldl | (intro) | with_reducible apply State.Within.ite

theorem State.commitDone_within {lv : ℕ} {z s : State} (hz : z.Within lv s) (w : CommitWait) :
    z.Within lv (State.commitDone s w) := by
  unfold State.commitDone
  try dsimp only
  repeat' first
    | with_reducible assumption | with_reducible apply State.setComp_within | with_reducible apply State.count_within
    | with_reducible apply State.completeWith_within | with_reducible apply State.Within.foldl | (intro) | with_reducible apply State.Within.ite
    | split | dsimp only | with_reducible apply State.Within.upd

theorem State.applySnapshot_within {lv : ℕ} {z s : State} (hz : z.Within lv s) (n : ℕ) (p : Snapshot) (frame : Option W32) :
    z.Within lv (State.applySnapshot s n p frame) := by
  unfold State.applySnapshot
  try dsimp only
  repeat' first
    | with_reducible assumption | with_reducible apply State.setComp_within | with_reducible apply State.commitDone_within
    | with_reducible apply State.Within.foldl | (intro) | with_reducible apply State.Within.ite | split | dsimp only
    | with_reducible apply State.Within.upd

theorem State.flushPending_within {lv : ℕ} {z s : State} (hz : z.Within lv s) (n : ℕ) :
    z.Within lv (State.flushPending s n) := by
  unfold State.flushPending
  try dsimp only
  repeat' first
    | with_reducible assumption | with_reducible apply State.applySnapshot_within | with_reducible apply State.Within.foldl | (intro)

theorem State.applyDue_within {lv : ℕ} {z s : State} (hz : z.Within lv s) (n : ℕ) (m : W32) :
    z.Within lv (State.applyDue s n m) := by
  unfold State.applyDue
  try dsimp only
  repeat' first
    | with_reducible assumption | with_reducible apply State.applySnapshot_within | with_reducible apply State.Within.foldl | (intro)

theorem State.capture_within {lv : ℕ} {z s : State} (hz : z.Within lv s) (outs : List ℕ) (first : ℕ) (h : DescHdr) (named : W32) (applyAt : Option
    W32) (late : Bool) :
    z.Within lv (State.capture s outs first h named applyAt late) := by
  unfold State.capture
  try dsimp only
  repeat' first
    | with_reducible assumption | with_reducible apply State.setComp_within | with_reducible apply State.Within.foldl | (intro)

theorem State.processCommit_within {lv : ℕ} {z s : State} (hz : z.Within lv s) (h : DescHdr) (mask : BitVec 4) (outs : List ℕ) (first : ℕ) (frame :
    W32) :
    z.Within lv (State.processCommit s h mask outs first frame) := by
  unfold State.processCommit
  try dsimp only
  repeat' first
    | with_reducible assumption | with_reducible apply State.at_within | with_reducible apply State.applySnapshot_within
    | with_reducible apply State.capture_within | with_reducible apply State.Within.foldl | (intro) | with_reducible apply State.Within.ite
    | split | dsimp only | with_reducible apply State.Within.upd

theorem execCommit_within {lv : ℕ} {z s t : State} {h : DescHdr} {outmask : BitVec 4} {frame : W32} (hz : z.Within lv s) (hx : execCommit h outmask
    frame s = .next t) : z.Within lv t := by
  unfold execCommit at hx
  dsimp only at hx
  split at hx
  · cases hx; exact hz
  refine descriptor_within hz (fun s hz => ?_) hx
  try dsimp only
  repeat' first
    | with_reducible assumption | with_reducible apply State.complete_within | with_reducible apply State.reportAdmission_within
    | with_reducible apply State.capture_within | with_reducible apply State.processCommit_within | with_reducible apply State.Within.foldl
    | (intro) | with_reducible apply State.Within.ite | split

theorem State.bindDue_within {lv : ℕ} {z s : State} (hz : z.Within lv s) (n : ℕ) (m : W32) :
    z.Within lv (State.bindDue s n m) := by
  unfold State.bindDue
  try dsimp only
  repeat' first
    | with_reducible assumption | with_reducible apply State.setComp_within | with_reducible apply State.complete_within
    | with_reducible apply State.Within.foldl | (intro) | with_reducible apply State.Within.ite | split

theorem execWritebackSet_within {lv : ℕ} {z s t : State} {h : DescHdr} {b : WritebackBody} (hz : z.Within lv s) (hx : execWritebackSet h b s = .next
    t) : z.Within lv t := by
  unfold execWritebackSet at hx
  refine descriptor_within hz (fun s hz => ?_) hx
  try dsimp only
  repeat' first
    | with_reducible assumption | with_reducible apply State.setComp_within | with_reducible apply State.complete_within
    | with_reducible apply State.bindDue_within | with_reducible apply State.Within.foldl | (intro) | with_reducible apply State.Within.ite
    | split | dsimp only | with_reducible apply State.Within.upd

theorem State.deriveGains_within {lv : ℕ} {z s : State} (hz : z.Within lv s) (n : ℕ) :
    z.Within lv (State.deriveGains s n) := by
  unfold State.deriveGains
  try dsimp only
  repeat' first
    | with_reducible assumption | with_reducible apply State.setWear_within | with_reducible apply State.devEvent_within
    | with_reducible apply State.Within.foldl | (intro) | with_reducible apply State.Within.ite | split

theorem State.stopGains_within {lv : ℕ} {z s : State} (hz : z.Within lv s) (n : ℕ) :
    z.Within lv (State.stopGains s n) := by
  unfold State.stopGains
  try dsimp only
  repeat' first
    | with_reducible assumption | with_reducible apply State.setComp_within | with_reducible apply State.Within.foldl | (intro)

theorem State.checkGeometry_within {lv : ℕ} {z s : State} (hz : z.Within lv s) (n : ℕ) :
    z.Within lv (State.checkGeometry s n) := by
  unfold State.checkGeometry
  try dsimp only
  repeat' first
    | with_reducible assumption | with_reducible apply State.setWear_within | with_reducible apply State.devEvent_within
    | with_reducible apply State.stopGains_within | with_reducible apply State.Within.foldl | (intro) | with_reducible apply State.Within.ite
    | split

theorem State.loadCounters_within {lv : ℕ} {z s : State} (hz : z.Within lv s) (n : ℕ) (p : PanelId) :
    z.Within lv (State.loadCounters s n p) := by
  unfold State.loadCounters
  try dsimp only
  repeat' first
    | with_reducible assumption | with_reducible apply State.setWear_within | with_reducible apply State.Within.foldl | (intro)
    | with_reducible apply State.Within.ite | split

theorem State.forgetPanel_within {lv : ℕ} {z s : State} (hz : z.Within lv s) (n : ℕ) :
    z.Within lv (State.forgetPanel s n) := by
  unfold State.forgetPanel
  try dsimp only
  repeat' first
    | with_reducible assumption | with_reducible apply State.setWear_within | with_reducible apply State.stopGains_within

theorem State.readPanel_within {lv : ℕ} {z s : State} (hz : z.Within lv s) (n : ℕ) :
    z.Within lv (State.readPanel s n) := by
  unfold State.readPanel
  try dsimp only
  repeat' first
    | with_reducible assumption | with_reducible apply State.setWear_within | with_reducible apply State.devEvent_within
    | with_reducible apply State.deriveGains_within | with_reducible apply State.checkGeometry_within
    | with_reducible apply State.loadCounters_within | with_reducible apply State.forgetPanel_within | with_reducible apply State.Within.foldl
    | (intro) | with_reducible apply State.Within.ite

theorem State.turnShot_within {lv : ℕ} {z s : State} (hz : z.Within lv s) (n : ℕ) (boundary : Option W64) :
    z.Within lv (State.turnShot s n boundary) := by
  unfold State.turnShot
  try dsimp only
  repeat' first
    | with_reducible assumption | with_reducible apply State.setWear_within | with_reducible apply State.Within.foldl | (intro)
    | with_reducible apply State.Within.ite | split | dsimp only | with_reducible apply State.Within.upd

theorem execPwuSample_within {lv : ℕ} {z s t : State} {out : OutId} {now : W64} (hz : z.Within lv s) (hx : execPwuSample out now s = .next t) :
    z.Within lv t := by
  unfold execPwuSample at hx
  refine unlessInert_within hz (fun s hz => ?_) hx
  try dsimp only
  repeat' first
    | with_reducible assumption | with_reducible apply State.setWear_within | with_reducible apply State.at_within
    | with_reducible apply State.count_within | with_reducible apply State.deriveGains_within | with_reducible apply State.Within.foldl | (intro)
    | with_reducible apply State.Within.ite | split

theorem State.wearBuffer_within {lv : ℕ} {z s : State} (hz : z.Within lv s) (h : DescHdr) (b : WearBody) (save : Bool) (k : State → ℕ → PanelId →
    State)
    (g : ∀ s n p, z.Within lv s → z.Within lv (k s n p)) : z.Within lv (s.wearBuffer h b save k) := by
  unfold State.wearBuffer
  dsimp only
  repeat' first
    | with_reducible exact g _ _ _ hz | with_reducible assumption | with_reducible apply State.complete_within
    | with_reducible apply State.descRingFault_within | with_reducible apply State.Within.ite | (intro) | split

theorem execPanelWearSave_within {lv : ℕ} {z s t : State} {h : DescHdr} {b : WearBody} {panelOk : Bool} (hz : z.Within lv s) (hx : execPanelWearSave
    h b panelOk s = .next t) : z.Within lv t := by
  unfold execPanelWearSave at hx
  refine descriptor_within hz (fun s hz => ?_) hx
  refine State.wearBuffer_within hz _ _ _ _ fun s n p hz => ?_
  try dsimp only
  repeat' first
    | with_reducible assumption | with_reducible apply State.memWrite_within | with_reducible apply State.complete_within
    | with_reducible apply State.Within.foldl | (intro) | with_reducible apply State.Within.ite | split | dsimp only
    | with_reducible apply State.Within.upd

theorem execPanelWearRestore_within {lv : ℕ} {z s t : State} {h : DescHdr} {b : WearBody} (hz : z.Within lv s) (hx : execPanelWearRestore h b s =
    .next t) : z.Within lv t := by
  unfold execPanelWearRestore at hx
  refine descriptor_within hz (fun s hz => ?_) hx
  refine State.wearBuffer_within hz _ _ _ _ fun s n p hz => ?_
  try dsimp only
  repeat' first
    | with_reducible assumption | with_reducible apply State.setWear_within | with_reducible apply State.complete_within
    | with_reducible apply State.deriveGains_within | with_reducible apply State.Within.foldl | (intro) | with_reducible apply State.Within.ite
    | split | dsimp only | with_reducible apply State.Within.upd

theorem State.captureWear_within {lv : ℕ} {z s : State} (hz : z.Within lv s) (n : ℕ) :
    z.Within lv (State.captureWear s n) := by
  unfold State.captureWear
  try dsimp only
  repeat' first
    | with_reducible assumption | with_reducible apply State.setWear_within

theorem State.commitPoint_within {lv : ℕ} {z s : State} (hz : z.Within lv s) (n : ℕ) (m : W32) :
    z.Within lv (State.commitPoint s n m) := by
  unfold State.commitPoint
  try dsimp only
  repeat' first
    | with_reducible assumption | with_reducible apply State.setComp_within | with_reducible apply State.applyDue_within
    | with_reducible apply State.bindDue_within | with_reducible apply State.captureWear_within | with_reducible apply State.Within.foldl
    | (intro) | with_reducible apply State.Within.ite

theorem State.dropStates_within {lv : ℕ} {z s : State} (hz : z.Within lv s) (n : ℕ) (frame : W32) :
    z.Within lv (State.dropStates s n frame) := by
  unfold State.dropStates
  try dsimp only
  repeat' first
    | with_reducible assumption | with_reducible apply State.setComp_within

theorem State.postLine_within {lv : ℕ} {z s : State} (hz : z.Within lv s) (n : ℕ) (w : Writeback) (q : WbLine) :
    z.Within lv (State.postLine s n w q) := by
  unfold State.postLine
  try dsimp only
  repeat' first
    | with_reducible assumption | with_reducible apply State.post_within

theorem State.writeWaiting_within {lv : ℕ} {z s : State} (hz : z.Within lv s) (n : ℕ) :
    z.Within lv (State.writeWaiting s n) := by
  unfold State.writeWaiting
  try dsimp only
  repeat' first
    | with_reducible assumption | with_reducible apply State.setComp_within | with_reducible apply State.postLine_within
    | with_reducible apply State.Within.foldl | (intro) | with_reducible apply State.Within.ite

theorem State.wbLine_within {lv : ℕ} {z s : State} (hz : z.Within lv s) (n : ℕ) (i : ℕ) (frame : W32) (y : ℕ) (l : List Byte) :
    z.Within lv (State.wbLine s n i frame y l) := by
  unfold State.wbLine
  try dsimp only
  repeat' first
    | with_reducible assumption | with_reducible apply State.setComp_within | with_reducible apply State.lineEnded_within
    | with_reducible apply State.postLine_within | with_reducible apply State.Within.foldl | (intro) | with_reducible apply State.Within.ite
    | split

theorem State.dropLines_within {lv : ℕ} {z s : State} (hz : z.Within lv s) (m : ℕ) (n : ℕ) (due : WbLine → Bool) :
    z.Within lv (State.dropLines s m n due) := by
  unfold State.dropLines
  try dsimp only
  repeat' first
    | with_reducible assumption | with_reducible apply State.setMover_within | with_reducible apply State.moverFill_within
    | with_reducible apply State.xferEnded_within | with_reducible apply State.Within.foldl | (intro) | with_reducible apply State.Within.ite

theorem State.wbDrop_within {lv : ℕ} {z s : State} (hz : z.Within lv s) (n : ℕ) (due : WbLine → Bool) :
    z.Within lv (State.wbDrop s n due) := by
  unfold State.wbDrop
  try dsimp only
  repeat' first
    | with_reducible assumption | with_reducible apply State.setComp_within | with_reducible apply State.wbSettle_within
    | with_reducible apply State.lineEnded_within | with_reducible apply State.dropLines_within | with_reducible apply State.Within.foldl
    | (intro) | with_reducible apply State.Within.ite

theorem State.composeWith_within {lv : ℕ} {z s : State} (hz : z.Within lv s) (n : ℕ) (y : ℕ) (late : BitVec 23) (gainLate : Bool) (a : Applied) :
    z.Within lv (State.composeWith s n y late gainLate a) := by
  unfold State.composeWith
  try dsimp only
  repeat' first
    | with_reducible assumption | with_reducible apply State.count_within | with_reducible apply State.wbSettle_within
    | with_reducible apply State.wbLine_within | with_reducible apply State.Within.foldl | (intro) | with_reducible apply State.Within.ite | split
    | dsimp only | with_reducible apply State.Within.upd

theorem State.takeLines_within {lv : ℕ} {z s : State} (hz : z.Within lv s) (n : ℕ) (y : ℕ) (a : Applied) :
    z.Within lv (State.takeLines s n y a) := by
  unfold State.takeLines
  try dsimp only
  repeat' first
    | with_reducible assumption | with_reducible apply State.takeLine_within | with_reducible apply State.Within.foldl | (intro)
    | with_reducible apply State.Within.ite

theorem execComposeLine_within {lv : ℕ} {z s t : State} {out : OutId} {y : BitVec 14} {late : BitVec 23} {gainLate : Bool} (hz : z.Within lv s) (hx
    : execComposeLine out y late gainLate s = .next t) : z.Within lv t := by
  unfold execComposeLine at hx
  refine unlessInert_within hz (fun s hz => ?_) hx
  try dsimp only
  repeat' first
    | with_reducible assumption | with_reducible apply State.setComp_within | with_reducible apply State.composeWith_within
    | with_reducible apply State.takeLines_within | with_reducible apply State.Within.foldl | (intro) | with_reducible apply State.Within.ite
    | split

theorem State.sendCodes_within {lv : ℕ} {z s : State} (hz : z.Within lv s) (h : ℕ) (y : ℕ) (codes : List ℕ) :
    z.Within lv (State.sendCodes s h y codes) := by
  unfold State.sendCodes
  try dsimp only
  repeat' first
    | with_reducible assumption | with_reducible apply State.take_within | with_reducible apply State.Within.foldl | (intro)
    | with_reducible apply State.Within.ite | split | dsimp only | with_reducible apply State.Within.upd

theorem execLidAreaUncorr_within {lv : ℕ} {z s t : State} {out : OutId} {pixel : BitVec 20} (hz : z.Within lv s) (hx : execLidAreaUncorr out pixel s
    = .next t) : z.Within lv t := by
  unfold execLidAreaUncorr at hx
  refine unlessInert_within hz (fun s hz => ?_) hx
  try dsimp only
  repeat' first
    | with_reducible assumption | with_reducible apply State.setComp_within | with_reducible apply State.ladleFault_within
    | with_reducible apply State.count_within

theorem execUnderrun_within {lv : ℕ} {z s t : State} {port : OutId} (hz : z.Within lv s) (hx : execUnderrun port s = .next t) : z.Within lv t := by
  unfold execUnderrun at hx
  refine unlessInert_within hz (fun s hz => ?_) hx
  try dsimp only
  repeat' first
    | with_reducible assumption | with_reducible refine State.draw_out ?_ (by with_reducible assumption) | with_reducible apply State.draw_within
    | with_reducible apply State.count_within | with_reducible apply State.sendCodes_within | with_reducible apply State.Within.foldl | (intro)
    | with_reducible apply State.Within.ite

theorem State.farTiming_within {lv : ℕ} {z s : State} (hz : z.Within lv s) (n : ℕ) :
    z.Within lv (State.farTiming s n).2 := by
  unfold State.farTiming
  try dsimp only
  repeat' first
    | with_reducible assumption | with_reducible refine State.draw_out ?_ (by with_reducible assumption) | with_reducible apply State.draw_within
    | with_reducible apply State.Within.foldl | (intro) | with_reducible apply State.Within.ite | split

theorem State.farTiming_out {lv : ℕ} {z s t : State} {n : ℕ} {a0 : Bool}
    (hz : z.Within lv s) (e : State.farTiming s n = (a0, t)) : z.Within lv t := by
  have g := State.farTiming_within hz n
  rw [e] at g
  exact g

theorem State.timReject_within {lv : ℕ} {z s : State} (hz : z.Within lv s) (n : ℕ) :
    z.Within lv (State.timReject s n) := by
  unfold State.timReject
  try dsimp only
  repeat' first
    | with_reducible assumption | with_reducible apply State.setTg_within

theorem State.tgBegin_within {lv : ℕ} {z s : State} (hz : z.Within lv s) (n : ℕ) (pair : Bool) (tePol : Bool) :
    z.Within lv (State.tgBegin s n pair tePol) := by
  unfold State.tgBegin
  try dsimp only
  repeat' first
    | with_reducible assumption | with_reducible apply State.setTg_within
    | with_reducible refine State.farTiming_out ?_ (by with_reducible assumption) | with_reducible apply State.farTiming_within
    | with_reducible apply State.timReject_within | with_reducible apply State.Within.foldl | (intro) | with_reducible apply State.Within.ite
    | split | dsimp only | with_reducible apply State.Within.upd

theorem State.mirror_within {lv : ℕ} {z s : State} (hz : z.Within lv s) (n : ℕ) :
    z.Within lv (State.mirror s n) := by
  unfold State.mirror
  try dsimp only
  repeat' first
    | with_reducible assumption | with_reducible apply State.setTg_within | with_reducible apply State.Within.foldl | (intro)
    | with_reducible apply State.Within.ite

theorem State.tgCtlWrite_within {lv : ℕ} {z s : State} (hz : z.Within lv s) (n : ℕ) (value : W32) :
    z.Within lv (State.tgCtlWrite s n value) := by
  unfold State.tgCtlWrite
  try dsimp only
  repeat' first
    | with_reducible assumption | with_reducible apply State.setTg_within | with_reducible apply State.timReject_within
    | with_reducible apply State.tgBegin_within | with_reducible apply State.mirror_within | with_reducible apply State.Within.foldl | (intro)
    | with_reducible apply State.Within.ite

theorem execTgEnable_within {lv : ℕ} {z s t : State} {n : OutId} {value : W32} (hz : z.Within lv s) (hx : execTgEnable n value s = .next t) :
    z.Within lv t := by
  unfold execTgEnable at hx
  refine unlessInert_within hz (fun s hz => ?_) hx
  try dsimp only
  repeat' first
    | with_reducible assumption | with_reducible apply State.tgCtlWrite_within

theorem execTgDisable_within {lv : ℕ} {z s t : State} {n : OutId} {value : W32} (hz : z.Within lv s) (hx : execTgDisable n value s = .next t) :
    z.Within lv t := by
  unfold execTgDisable at hx
  refine unlessInert_within hz (fun s hz => ?_) hx
  try dsimp only
  repeat' first
    | with_reducible assumption | with_reducible apply State.tgCtlWrite_within

theorem execUpd_within {lv : ℕ} {z s t : State} {n : OutId} {value : W32} (hz : z.Within lv s) (hx : execUpd n value s = .next t) : z.Within lv t :=
    by
  unfold execUpd at hx
  refine unlessInert_within hz (fun s hz => ?_) hx
  try dsimp only
  repeat' first
    | with_reducible assumption | with_reducible apply State.tgCtlWrite_within

theorem execPair_within {lv : ℕ} {z s t : State} {n : OutId} {value : W32} (hz : z.Within lv s) (hx : execPair n value s = .next t) : z.Within lv t
    := by
  unfold execPair at hx
  refine unlessInert_within hz (fun s hz => ?_) hx
  try dsimp only
  repeat' first
    | with_reducible assumption | with_reducible apply State.tgCtlWrite_within

theorem State.stopStreams_within {lv : ℕ} {z s : State} (hz : z.Within lv s) (l : List ℕ) :
    z.Within lv (State.stopStreams s l) := by
  unfold State.stopStreams
  try dsimp only
  repeat' first
    | with_reducible assumption | with_reducible apply State.endStream_within | with_reducible apply State.Within.foldl | (intro)

theorem State.compStop_within {lv : ℕ} {z s : State} (hz : z.Within lv s) (n : ℕ) :
    z.Within lv (State.compStop s n) := by
  unfold State.compStop
  try dsimp only
  repeat' first
    | with_reducible assumption | with_reducible apply State.setComp_within | with_reducible apply State.flushPending_within
    | with_reducible apply State.bindDue_within | with_reducible apply State.wbDrop_within

theorem State.portIdle_within {lv : ℕ} {z s : State} (hz : z.Within lv s) (h : ℕ) :
    z.Within lv (State.portIdle s h) := by
  unfold State.portIdle
  try dsimp only
  repeat' first
    | with_reducible assumption | with_reducible apply State.setPort_within

theorem State.portFrame_within {lv : ℕ} {z s : State} (hz : z.Within lv s) (h : ℕ) :
    z.Within lv (State.portFrame s h) := by
  unfold State.portFrame
  try dsimp only
  repeat' first
    | with_reducible assumption | with_reducible apply State.setPort_within

theorem State.tgStop_within {lv : ℕ} {z s : State} (hz : z.Within lv s) (n : ℕ) :
    z.Within lv (State.tgStop s n) := by
  unfold State.tgStop
  try dsimp only
  repeat' first
    | with_reducible assumption | with_reducible apply State.setTg_within | with_reducible apply State.setOut_within
    | with_reducible apply State.turnShot_within | with_reducible apply State.tgBegin_within | with_reducible apply State.stopStreams_within
    | with_reducible apply State.compStop_within | with_reducible apply State.portIdle_within | with_reducible apply State.Within.foldl | (intro)
    | with_reducible apply State.Within.ite

theorem State.captureShadow_within {lv : ℕ} {z s : State} (hz : z.Within lv s) (n : ℕ) :
    z.Within lv (State.captureShadow s n) := by
  unfold State.captureShadow
  try dsimp only
  repeat' first
    | with_reducible assumption | with_reducible apply State.setTg_within | with_reducible apply State.timReject_within
    | with_reducible apply State.Within.foldl | (intro) | with_reducible apply State.Within.ite

theorem State.tgCommit_within {lv : ℕ} {z s : State} (hz : z.Within lv s) (n : ℕ) (m : W32) :
    z.Within lv (State.tgCommit s n m) := by
  unfold State.tgCommit
  try dsimp only
  repeat' first
    | with_reducible assumption | with_reducible apply State.setPort_within | with_reducible apply State.commitPoint_within
    | with_reducible apply State.captureShadow_within | with_reducible apply State.Within.foldl | (intro)

theorem State.commitIfDue_within {lv : ℕ} {z s : State} (hz : z.Within lv s) (n : ℕ) :
    z.Within lv (State.commitIfDue s n) := by
  unfold State.commitIfDue
  try dsimp only
  repeat' first
    | with_reducible assumption | with_reducible apply State.tgCommit_within | with_reducible apply State.Within.foldl | (intro)
    | with_reducible apply State.Within.ite

theorem State.shed_within {lv : ℕ} {z x1 : State} (hz : z.Within lv x1) (x0 : ℕ) (x2 : ℕ) :
    z.Within lv (State.shed x0 x1 x2) := by
  induction x0 generalizing x1 with
  | zero => exact hz
  | succ m ih =>
    unfold State.shed
    try dsimp only
    repeat' first
      | with_reducible assumption | with_reducible apply ih | with_reducible apply State.endStream_within
      | with_reducible apply State.Within.foldl | (intro) | with_reducible apply State.Within.ite | split | dsimp only
      | with_reducible apply State.Within.upd

theorem State.halfBoundary_within {lv : ℕ} {z s : State} (hz : z.Within lv s) (h : ℕ) (frame : W32) (now : W64) :
    z.Within lv (State.halfBoundary s h frame now) := by
  unfold State.halfBoundary
  try dsimp only
  repeat' first
    | with_reducible assumption | with_reducible apply State.setTg_within | with_reducible apply State.setOut_within
    | with_reducible apply State.dropStates_within | with_reducible apply State.portFrame_within

theorem State.tgBoundary_within {lv : ℕ} {z s : State} (hz : z.Within lv s) (n : ℕ) (now : W64) :
    z.Within lv (State.tgBoundary s n now) := by
  unfold State.tgBoundary
  try dsimp only
  repeat' first
    | with_reducible assumption | with_reducible apply State.setOut_within | with_reducible apply State.reportOutput_within
    | with_reducible apply State.turnShot_within | with_reducible apply State.stopStreams_within | with_reducible apply State.shed_within
    | with_reducible apply State.halfBoundary_within | with_reducible apply State.Within.foldl | (intro) | with_reducible apply State.Within.ite

theorem State.scanOut_within {lv : ℕ} {z s : State} (hz : z.Within lv s) (h : ℕ) (y : ℕ) (bad : List (BitVec 13)) :
    z.Within lv (State.scanOut s h y bad) := by
  unfold State.scanOut
  try dsimp only
  repeat' first
    | with_reducible assumption | with_reducible apply State.ladleFault_within | with_reducible apply State.count_within
    | with_reducible apply State.devEvent_within | with_reducible apply State.sendCodes_within | with_reducible apply State.Within.foldl | (intro)
    | with_reducible apply State.Within.ite

theorem State.scanTick_within {lv : ℕ} {z s : State} (hz : z.Within lv s) (n : ℕ) (r : RasterSense) :
    z.Within lv (State.scanTick s n r) := by
  unfold State.scanTick
  try dsimp only
  repeat' first
    | with_reducible assumption | with_reducible apply State.countSome_within | with_reducible apply State.sendCodes_within
    | with_reducible apply State.scanOut_within | with_reducible apply State.Within.foldl | (intro) | with_reducible apply State.Within.ite

theorem State.tickWork_within {lv : ℕ} {z s : State} (hz : z.Within lv s) (n : ℕ) (r : RasterSense) :
    z.Within lv (State.tickWork s n r) := by
  unfold State.tickWork
  try dsimp only
  repeat' first
    | with_reducible assumption | with_reducible apply State.ladleFire_within | with_reducible apply State.countSome_within
    | with_reducible apply State.streamTick_within | with_reducible apply State.stageAll_within | with_reducible apply State.writeWaiting_within
    | with_reducible apply State.wbDrop_within | with_reducible apply State.commitIfDue_within | with_reducible apply State.scanTick_within
    | with_reducible apply State.Within.foldl | (intro) | with_reducible apply State.Within.ite

theorem execLineTick_within {lv : ℕ} {z s t : State} {tg : OutId} {raster : RasterSense} {now : W64} (hz : z.Within lv s) (hx : execLineTick tg
    raster now s = .next t) : z.Within lv t := by
  unfold execLineTick at hx
  refine unlessInert_within hz (fun s hz => ?_) hx
  try dsimp only
  repeat' first
    | with_reducible assumption | with_reducible apply State.setTg_within | with_reducible apply State.at_within
    | with_reducible apply State.tgStop_within | with_reducible apply State.tgBoundary_within | with_reducible apply State.tickWork_within
    | with_reducible apply State.Within.foldl | (intro) | with_reducible apply State.Within.ite

theorem State.startFrame_within {lv : ℕ} {z s : State} (hz : z.Within lv s) (n : ℕ) :
    z.Within lv (State.startFrame s n).2 := by
  unfold State.startFrame
  try dsimp only
  repeat' first
    | with_reducible assumption | with_reducible refine State.draw_out ?_ (by with_reducible assumption) | with_reducible apply State.draw_within
    | with_reducible apply State.Within.foldl | (intro) | with_reducible apply State.Within.ite | split

theorem State.startFrame_out {lv : ℕ} {z s t : State} {n : ℕ} {a0 : W32}
    (hz : z.Within lv s) (e : State.startFrame s n = (a0, t)) : z.Within lv t := by
  have g := State.startFrame_within hz n
  rw [e] at g
  exact g

theorem State.checkLink_within {lv : ℕ} {z s : State} (hz : z.Within lv s) (n : ℕ) :
    z.Within lv (State.checkLink s n) := by
  unfold State.checkLink
  try dsimp only
  repeat' first
    | with_reducible assumption | with_reducible apply State.setPort_within | with_reducible apply State.devEvent_within
    | with_reducible apply State.Within.foldl | (intro) | with_reducible apply State.Within.ite

theorem State.halfStart_within {lv : ℕ} {z s : State} (hz : z.Within lv s) (h : ℕ) (frame : W32) (now : W64) :
    z.Within lv (State.halfStart s h frame now) := by
  unfold State.halfStart
  try dsimp only
  repeat' first
    | with_reducible assumption | with_reducible apply State.setComp_within | with_reducible apply State.setTg_within
    | with_reducible apply State.portFrame_within | with_reducible apply State.checkLink_within

theorem execTgStart_within {lv : ℕ} {z s t : State} {n : OutId} {now : W64} (hz : z.Within lv s) (hx : execTgStart n now s = .next t) : z.Within lv
    t := by
  unfold execTgStart at hx
  refine unlessInert_within hz (fun s hz => ?_) hx
  try dsimp only
  repeat' first
    | with_reducible assumption | with_reducible apply State.at_within | with_reducible apply State.checkGeometry_within
    | with_reducible apply State.turnShot_within | with_reducible apply State.tickWork_within
    | with_reducible refine State.startFrame_out ?_ (by with_reducible assumption) | with_reducible apply State.startFrame_within
    | with_reducible apply State.halfStart_within | with_reducible apply State.Within.foldl | (intro) | with_reducible apply State.Within.ite

theorem execTeEdge_within {lv : ℕ} {z s t : State} {n : OutId} {level : Bool} {edgeAt : W64} {now : W64} (hz : z.Within lv s) (hx : execTeEdge n
    level edgeAt now s = .next t) : z.Within lv t := by
  unfold execTeEdge at hx
  refine unlessInert_within hz (fun s hz => ?_) hx
  try dsimp only
  repeat' first
    | with_reducible assumption | with_reducible apply State.setTg_within | with_reducible apply State.at_within
    | with_reducible apply State.Within.foldl | (intro) | with_reducible apply State.Within.ite | split | dsimp only
    | with_reducible apply State.Within.upd

theorem execCaptureLockEvent_within {lv : ℕ} {z s t : State} {rx : Fin 2} {lineAt : W64} {now : W64} (hz : z.Within lv s) (hx : execCaptureLockEvent
    rx lineAt now s = .next t) : z.Within lv t := by
  unfold execCaptureLockEvent at hx
  refine unlessInert_within hz (fun s hz => ?_) hx
  try dsimp only
  repeat' first
    | with_reducible assumption | with_reducible apply State.setTg_within | with_reducible apply State.at_within
    | with_reducible apply State.Within.foldl | (intro) | with_reducible apply State.Within.ite

theorem State.writeLead_within {lv : ℕ} {z s : State} (hz : z.Within lv s) (n : ℕ) (lead : BitVec 13) :
    z.Within lv (State.writeLead s n lead) := by
  unfold State.writeLead
  try dsimp only
  repeat' first
    | with_reducible assumption | with_reducible apply State.setOut_within | with_reducible apply State.Within.foldl | (intro)
    | with_reducible apply State.Within.ite

theorem State.writeOutEn_within {lv : ℕ} {z s : State} (hz : z.Within lv s) (n : ℕ) (en : Bool) :
    z.Within lv (State.writeOutEn s n en) := by
  unfold State.writeOutEn
  try dsimp only
  repeat' first
    | with_reducible assumption | with_reducible apply State.setOut_within

theorem State.outCfgWrite_within {lv : ℕ} {z s : State} (hz : z.Within lv s) (n : ℕ) (value : W32) :
    z.Within lv (State.outCfgWrite s n value) := by
  unfold State.outCfgWrite
  try dsimp only
  repeat' first
    | with_reducible assumption | with_reducible apply State.writeLead_within | with_reducible apply State.writeOutEn_within

theorem execBeamLeadWrite_within {lv : ℕ} {z s t : State} {out : OutId} {value : W32} (hz : z.Within lv s) (hx : execBeamLeadWrite out value s =
    .next t) : z.Within lv t := by
  unfold execBeamLeadWrite at hx
  refine unlessInert_within hz (fun s hz => ?_) hx
  try dsimp only
  repeat' first
    | with_reducible assumption | with_reducible apply State.outCfgWrite_within

theorem execLschOutDisable_within {lv : ℕ} {z s t : State} {out : OutId} {value : W32} (hz : z.Within lv s) (hx : execLschOutDisable out value s =
    .next t) : z.Within lv t := by
  unfold execLschOutDisable at hx
  refine unlessInert_within hz (fun s hz => ?_) hx
  try dsimp only
  repeat' first
    | with_reducible assumption | with_reducible apply State.outCfgWrite_within

end Sys2Proof.Machine
end

