-- ==== Sys2Proof/Laws/WithinFaults.lean ====
section
/-! SUPPORT. What each operation leaves alone (`State.Within`): repair, segments, ports, links and the ladle trigger. One lemma for each function that changes State. -/

namespace Sys2Proof.Machine

theorem State.rerun_within {lv : ℕ} {z s : State} (hz : z.Within lv s) (f : ℕ) (live : Bool) :
    z.Within lv (State.rerun s f live) := by
  unfold State.rerun
  try dsimp only
  repeat' first
    | with_reducible assumption | with_reducible apply State.setFrond_within | with_reducible apply State.modTask_within
    | with_reducible apply State.dropXfers_within

theorem State.declareFailed_within {lv : ℕ} {z s : State} (hz : z.Within lv s) (f : ℕ) (cause : BitVec 4) (since : W64) :
    z.Within lv (State.declareFailed s f cause since) := by
  unfold State.declareFailed
  try dsimp only
  repeat' first
    | with_reducible assumption | with_reducible apply State.setFrond_within | with_reducible apply State.ladleFault_within
    | with_reducible apply State.Within.foldl | (intro) | with_reducible apply State.Within.ite | split | dsimp only
    | with_reducible apply State.Within.upd

theorem State.stopCtx_within {lv : ℕ} {z s : State} (hz : z.Within lv s) (c : ℕ) :
    z.Within lv (State.stopCtx s c) := by
  unfold State.stopCtx
  try dsimp only
  repeat' first
    | with_reducible assumption | with_reducible apply State.setFrond_within | with_reducible apply State.Within.foldl | (intro)

theorem State.beginRepair_within {lv : ℕ} {z s : State} (hz : z.Within lv s) (r : Repair) :
    z.Within lv (State.beginRepair s r) := by
  unfold State.beginRepair
  try dsimp only
  repeat' first
    | with_reducible assumption | with_reducible apply State.stopCtx_within | with_reducible apply State.Within.foldl | (intro)
    | with_reducible apply State.Within.ite | split | dsimp only | with_reducible apply State.Within.upd

theorem State.unrepaired_within {lv : ℕ} {z s : State} (hz : z.Within lv s)  :
    z.Within lv (State.unrepaired s) := by
  unfold State.unrepaired
  try dsimp only
  repeat' first
    | with_reducible assumption | with_reducible apply State.Within.foldl | (intro) | with_reducible apply State.Within.ite | split | dsimp only
    | with_reducible apply State.Within.upd

theorem State.endTasks_within {lv : ℕ} {z s : State} (hz : z.Within lv s) (c : ℕ) :
    z.Within lv (State.endTasks s c) := by
  unfold State.endTasks
  try dsimp only
  repeat' first
    | with_reducible assumption | with_reducible apply State.loseFrame_within | with_reducible apply State.loseJob_within
    | with_reducible apply State.Within.foldl | (intro) | with_reducible apply State.Within.ite | split

theorem State.abortFrames_within {lv : ℕ} {z s : State} (hz : z.Within lv s) (c : ℕ) :
    z.Within lv (State.abortFrames s c) := by
  unfold State.abortFrames
  try dsimp only
  repeat' first
    | with_reducible assumption | with_reducible apply State.loseFrame_within | with_reducible apply State.Within.foldl | (intro)
    | with_reducible apply State.Within.ite

theorem State.moveStream_within {lv : ℕ} {z s : State} (hz : z.Within lv s) (c : ℕ) :
    z.Within lv (State.moveStream s c) := by
  unfold State.moveStream
  try dsimp only
  repeat' first
    | with_reducible assumption | with_reducible apply State.setCtx_within | with_reducible apply State.setStream_within
    | with_reducible apply State.take_within | with_reducible apply State.reportAdmission_within | with_reducible apply State.pinAll_within
    | with_reducible refine State.takeGroups_out ?_ (by with_reducible assumption) | with_reducible apply State.takeGroups_within
    | with_reducible apply State.dropGroups_within | with_reducible apply State.bindImage_within | with_reducible apply State.occupy_within
    | with_reducible apply State.vacate_within | with_reducible apply State.endStream_within | with_reducible apply State.abortFrames_within
    | with_reducible apply State.Within.foldl | (intro) | with_reducible apply State.Within.ite | split

theorem State.loseFrond_within {lv : ℕ} {z s : State} (hz : z.Within lv s) (f : ℕ) (g : ℕ) (col : BitVec 4) (cause : BitVec 4) :
    z.Within lv (State.loseFrond s f g col cause) := by
  unfold State.loseFrond
  try dsimp only
  repeat' first
    | with_reducible assumption | with_reducible apply State.setFrond_within | with_reducible apply State.setRow_within
    | with_reducible apply State.meter_within | with_reducible apply State.devEvent_within | with_reducible apply State.failedEvent_within
    | with_reducible apply State.unrepaired_within | with_reducible apply State.endTasks_within | with_reducible apply State.moveStream_within
    | with_reducible apply State.Within.foldl | (intro)

theorem State.deferFailure_within {lv : ℕ} {z s : State} (hz : z.Within lv s) (f : ℕ) (col : BitVec 4) (cause : BitVec 4) :
    z.Within lv (State.deferFailure s f col cause) := by
  unfold State.deferFailure
  try dsimp only
  repeat' first
    | with_reducible assumption | with_reducible apply State.failedEvent_within | with_reducible apply State.unrepaired_within
    | with_reducible apply State.endTasks_within | with_reducible apply State.Within.foldl | (intro) | with_reducible apply State.Within.ite
    | split | dsimp only | with_reducible apply State.Within.upd

theorem State.failFrond_within {lv : ℕ} {z s : State} (hz : z.Within lv s) (f : ℕ) (col : BitVec 4) (cause : BitVec 4) (since : W64) :
    z.Within lv (State.failFrond s f col cause since) := by
  unfold State.failFrond
  try dsimp only
  repeat' first
    | with_reducible assumption | with_reducible apply State.start_within | with_reducible apply State.beginRepair_within
    | with_reducible apply State.loseFrond_within | with_reducible apply State.deferFailure_within | with_reducible apply State.Within.foldl
    | (intro) | with_reducible apply State.Within.ite

theorem execFrondFailed_within {lv : ℕ} {z s t : State} {f : FrondId} {now : W64} (hz : z.Within lv s) (hx : execFrondFailed f now s = .next t) :
    z.Within lv t := by
  unfold execFrondFailed at hx
  refine unlessInert_within hz (fun s hz => ?_) hx
  try dsimp only
  repeat' first
    | with_reducible assumption | with_reducible apply State.at_within | with_reducible apply State.failFrond_within
    | with_reducible apply State.Within.foldl | (intro) | with_reducible apply State.Within.ite | split | dsimp only
    | with_reducible apply State.Within.upd

theorem State.fenceLane_within {lv : ℕ} {z s : State} (hz : z.Within lv s) (f : ℕ) (since : W64) :
    z.Within lv (State.fenceLane s f since) := by
  unfold State.fenceLane
  try dsimp only
  repeat' first
    | with_reducible assumption | with_reducible apply State.setFrond_within | with_reducible apply State.ladleFault_within
    | with_reducible apply State.start_within | with_reducible apply State.beginRepair_within

theorem execParityError_within {lv : ℕ} {z s t : State} {f : FrondId} {p : ParityInfo} {now : W64} (hz : z.Within lv s) (hx : execParityError f p
    now s = .next t) : z.Within lv t := by
  unfold execParityError at hx
  refine unlessInert_within hz (fun s hz => ?_) hx
  try dsimp only
  repeat' first
    | with_reducible assumption | with_reducible apply State.setFrond_within | with_reducible apply State.at_within
    | with_reducible apply State.ladleFault_within | with_reducible apply State.count_within | with_reducible apply State.modTask_within
    | with_reducible apply State.pump_within | with_reducible apply State.rerun_within | with_reducible apply State.declareFailed_within
    | with_reducible apply State.fenceLane_within | with_reducible apply State.Within.foldl | (intro) | with_reducible apply State.Within.ite
    | split

theorem execCacheLineParity_within {lv : ℕ} {z s t : State} {f : FrondId} {addr : W64} (hz : z.Within lv s) (hx : execCacheLineParity f addr s =
    .next t) : z.Within lv t := by
  unfold execCacheLineParity at hx
  refine unlessInert_within hz (fun s hz => ?_) hx
  try dsimp only
  repeat' first
    | with_reducible assumption | with_reducible apply State.setFrond_within

theorem execPrivateParityError_within {lv : ℕ} {z s t : State} {f : FrondId} {unit : PrivateUnit} {now : W64} (hz : z.Within lv s) (hx :
    execPrivateParityError f unit now s = .next t) : z.Within lv t := by
  unfold execPrivateParityError at hx
  refine unlessInert_within hz (fun s hz => ?_) hx
  try dsimp only
  repeat' first
    | with_reducible assumption | with_reducible apply State.at_within | with_reducible apply State.declareFailed_within
    | with_reducible apply State.Within.foldl | (intro) | with_reducible apply State.Within.ite

theorem execHeartbeatTimeout_within {lv : ℕ} {z s t : State} {f : FrondId} {now : W64} (hz : z.Within lv s) (hx : execHeartbeatTimeout f now s =
    .next t) : z.Within lv t := by
  unfold execHeartbeatTimeout at hx
  refine unlessInert_within hz (fun s hz => ?_) hx
  try dsimp only
  repeat' first
    | with_reducible assumption | with_reducible apply State.at_within | with_reducible apply State.declareFailed_within
    | with_reducible apply State.Within.foldl | (intro) | with_reducible apply State.Within.ite

theorem State.shiftRow_within {lv : ℕ} {z s : State} (hz : z.Within lv s) (row : ℕ) (p : BitVec 4) :
    z.Within lv (State.shiftRow s row p) := by
  unfold State.shiftRow
  try dsimp only
  repeat' first
    | with_reducible assumption | with_reducible apply State.setFrond_within | with_reducible apply State.setRow_within
    | with_reducible apply State.Within.foldl | (intro)

theorem State.mapFailure_within {lv : ℕ} {z s : State} (hz : z.Within lv s) (e : ℕ × BitVec 4 × BitVec 4) :
    z.Within lv (State.mapFailure s e) := by
  unfold State.mapFailure
  try dsimp only
  repeat' first
    | with_reducible assumption | with_reducible apply State.loseFrond_within | with_reducible apply State.shiftRow_within
    | with_reducible apply State.Within.foldl | (intro) | with_reducible apply State.Within.ite | split

theorem execRepairStopComplete_within {lv : ℕ} {z s t : State} {now : W64} (hz : z.Within lv s) (hx : execRepairStopComplete now s = .next t) :
    z.Within lv t := by
  unfold execRepairStopComplete at hx
  refine unlessInert_within hz (fun s hz => ?_) hx
  try dsimp only
  repeat' first
    | with_reducible assumption | with_reducible apply State.at_within | with_reducible apply State.take_within
    | with_reducible apply State.failedEvent_within | with_reducible apply State.unrepaired_within | with_reducible apply State.endTasks_within
    | with_reducible apply State.deferFailure_within | with_reducible apply State.mapFailure_within | with_reducible apply State.Within.foldl
    | (intro) | with_reducible apply State.Within.ite | split | dsimp only | with_reducible apply State.Within.upd

theorem State.reloadPins_within {lv : ℕ} {z s : State} (hz : z.Within lv s) (f : ℕ) :
    z.Within lv (State.reloadPins s f) := by
  unfold State.reloadPins
  try dsimp only
  repeat' first
    | with_reducible assumption | with_reducible apply State.setFrond_within | with_reducible apply State.Within.foldl | (intro)
    | with_reducible apply State.Within.ite | split

theorem State.loadStripe_within {lv : ℕ} {z s : State} (hz : z.Within lv s) (f : ℕ) (c : ℕ) (k : Ckpt) :
    z.Within lv (State.loadStripe s f c k) := by
  unfold State.loadStripe
  try dsimp only
  repeat' first
    | with_reducible assumption | with_reducible apply State.setFrond_within | with_reducible apply State.Within.foldl | (intro)
    | with_reducible apply State.Within.ite | split

theorem State.replayStripe_within {lv : ℕ} {z s : State} (hz : z.Within lv s) (f : ℕ) (old : Task) (n : BitVec 16) :
    z.Within lv (State.replayStripe s f old n) := by
  unfold State.replayStripe
  try dsimp only
  repeat' first
    | with_reducible assumption | with_reducible apply State.recordFault_within | with_reducible apply State.clearShare_within
    | with_reducible apply State.abortFrame_within | with_reducible apply State.startTask_within | with_reducible apply State.loadStripe_within
    | with_reducible apply State.Within.foldl | (intro) | with_reducible apply State.Within.ite | split

theorem State.spoilPart_within {lv : ℕ} {z s : State} (hz : z.Within lv s) (f : ℕ) (t : Task) :
    z.Within lv (State.spoilPart s f t) := by
  unfold State.spoilPart
  try dsimp only
  repeat' first
    | with_reducible assumption | with_reducible apply State.spoilRow_within | with_reducible apply State.spoilLines_within
    | with_reducible apply State.Within.foldl | (intro) | with_reducible apply State.Within.ite | split

theorem State.runOn_within {lv : ℕ} {z s : State} (hz : z.Within lv s) (moved : List ℕ) (code : BitVec 16) (l : List (ℕ × Task)) :
    z.Within lv (State.runOn s moved code l) := by
  unfold State.runOn
  try dsimp only
  repeat' first
    | with_reducible assumption | with_reducible apply State.modTask_within | with_reducible apply State.failStep_within
    | with_reducible apply State.pump_within | with_reducible apply State.spoilPart_within | with_reducible apply State.Within.foldl | (intro)
    | with_reducible apply State.Within.ite

theorem State.replayGroup_within {lv : ℕ} {z s : State} (hz : z.Within lv s) (moved : List ℕ) (c : ℕ) (frame : W32) (stripe : ℕ) (l : List (ℕ ×
    Task)) :
    z.Within lv (State.replayGroup s moved c frame stripe l) := by
  unfold State.replayGroup
  try dsimp only
  repeat' first
    | with_reducible assumption | with_reducible apply State.setFrond_within
    | with_reducible refine State.nextTask_out ?_ (by with_reducible assumption) | with_reducible apply State.nextTask_within
    | with_reducible apply State.abortFrame_within | with_reducible apply State.unrepaired_within | with_reducible apply State.replayStripe_within
    | with_reducible apply State.runOn_within | with_reducible apply State.Within.foldl | (intro) | with_reducible apply State.Within.ite | split

theorem State.restoreIdle_within {lv : ℕ} {z s : State} (hz : z.Within lv s) (c : ℕ) (f : ℕ) :
    z.Within lv (State.restoreIdle s c f) := by
  unfold State.restoreIdle
  try dsimp only
  repeat' first
    | with_reducible assumption | with_reducible apply State.abortFrame_within | with_reducible apply State.unrepaired_within
    | with_reducible apply State.loadStripe_within | with_reducible apply State.spoilPart_within | with_reducible apply State.Within.foldl
    | (intro) | with_reducible apply State.Within.ite | split

theorem State.restoreStream_within {lv : ℕ} {z s : State} (hz : z.Within lv s) (c : ℕ) (moved : List ℕ) :
    z.Within lv (State.restoreStream s c moved) := by
  unfold State.restoreStream
  try dsimp only
  repeat' first
    | with_reducible assumption | with_reducible apply State.resetGroups_within | with_reducible apply State.replayGroup_within
    | with_reducible apply State.restoreIdle_within | with_reducible apply State.Within.foldl | (intro)

theorem State.loadSpilled_within {lv : ℕ} {z s : State} (hz : z.Within lv s) (f : ℕ) (t : Task) (k : Ckpt) :
    z.Within lv (State.loadSpilled s f t k) := by
  unfold State.loadSpilled
  try dsimp only
  repeat' first
    | with_reducible assumption | with_reducible apply State.setFrond_within | with_reducible apply State.hbmWrite_within
    | with_reducible refine State.freeBytes_out ?_ (by with_reducible assumption) | with_reducible apply State.freeBytes_within
    | with_reducible apply State.Within.foldl | (intro) | with_reducible apply State.Within.ite | split

theorem State.resumeStep_within {lv : ℕ} {z s : State} (hz : z.Within lv s) (f : ℕ) (t : Task) (k : Ckpt) :
    z.Within lv (State.resumeStep s f t k) := by
  unfold State.resumeStep
  try dsimp only
  repeat' first
    | with_reducible assumption | with_reducible apply State.setFrond_within | with_reducible apply State.meter_within
    | with_reducible apply ptmBuild_in | with_reducible apply State.wake_within | with_reducible apply State.placeSimmer_within
    | with_reducible apply State.clearShare_within | with_reducible apply State.loadSpilled_within | with_reducible apply State.Within.foldl
    | (intro) | with_reducible apply State.Within.ite

theorem State.restartInstance_within {lv : ℕ} {z s : State} (hz : z.Within lv s) (c : ℕ) (j : Job) :
    z.Within lv (State.restartInstance s c j) := by
  unfold State.restartInstance
  try dsimp only
  repeat' first
    | with_reducible assumption | with_reducible apply State.setCtx_within | with_reducible apply State.freeRegions_within
    | with_reducible apply State.clearShare_within | with_reducible apply State.Within.foldl | (intro) | with_reducible apply State.Within.ite
    | split

theorem State.restoreJob_within {lv : ℕ} {z s : State} (hz : z.Within lv s) (c : ℕ) (moved : List ℕ) :
    z.Within lv (State.restoreJob s c moved) := by
  unfold State.restoreJob
  try dsimp only
  repeat' first
    | with_reducible assumption | with_reducible apply State.setCtx_within | with_reducible apply State.resetGroups_within
    | with_reducible apply State.completeJob_within | with_reducible apply State.dispatchFault_within
    | with_reducible apply State.unrepaired_within | with_reducible apply State.runOn_within | with_reducible apply State.resumeStep_within
    | with_reducible apply State.restartInstance_within | with_reducible apply State.Within.foldl | (intro)
    | with_reducible apply State.Within.ite | split

theorem execRepairRestoreComplete_within {lv : ℕ} {z s t : State} {now : W64} (hz : z.Within lv s) (hx : execRepairRestoreComplete now s = .next t)
    : z.Within lv t := by
  unfold execRepairRestoreComplete at hx
  refine unlessInert_within hz (fun s hz => ?_) hx
  try dsimp only
  repeat' first
    | with_reducible assumption | with_reducible apply State.at_within | with_reducible apply State.repairDone_within
    | with_reducible apply State.reloadPins_within | with_reducible apply State.restoreStream_within
    | with_reducible apply State.restoreJob_within | with_reducible apply State.Within.foldl | (intro) | with_reducible apply State.Within.ite
    | split | dsimp only | with_reducible apply State.Within.upd

theorem execStepCheckpointTimer_within {lv : ℕ} {z s t : State} {now : W64} (hz : z.Within lv s) (hx : execStepCheckpointTimer now s = .next t) :
    z.Within lv t := by
  unfold execStepCheckpointTimer at hx
  refine unlessInert_within hz (fun s hz => ?_) hx
  try dsimp only
  repeat' first
    | with_reducible assumption | with_reducible apply State.setCtx_within | with_reducible apply State.at_within
    | with_reducible apply State.modTask_within | with_reducible apply State.runMarked_within | with_reducible apply State.Within.foldl | (intro)
    | with_reducible apply State.Within.ite | split

theorem execHbmUncorr_within {lv : ℕ} {z s t : State} {stack : Fin 4} {channel : BitVec 4} {addr : W64} {reader : HbmReader} {now : W64} (hz :
    z.Within lv s) (hx : execHbmUncorr stack channel addr reader now s = .next t) : z.Within lv t := by
  unfold execHbmUncorr at hx
  refine unlessInert_within hz (fun s hz => ?_) hx
  try dsimp only
  repeat' first
    | with_reducible assumption | with_reducible apply State.setWear_within | with_reducible apply State.at_within
    | with_reducible apply State.hbmWrite_within | with_reducible apply State.blurHbm_within | with_reducible apply State.poisonHbm_within
    | with_reducible apply State.ladleFault_within | with_reducible apply State.count_within | with_reducible apply State.devEvent_within
    | with_reducible apply State.ctxFaults_within | with_reducible apply State.taskFault_within | with_reducible apply State.pump_within
    | with_reducible apply State.Within.foldl | (intro) | with_reducible apply State.Within.ite | split

theorem execSvcWatchdog_within {lv : ℕ} {z s t : State} {now : W64} (hz : z.Within lv s) (hx : execSvcWatchdog now s = .next t) : z.Within lv t := by
  unfold execSvcWatchdog at hx
  refine unlessInert_within hz (fun s hz => ?_) hx
  try dsimp only
  repeat' first
    | with_reducible assumption | with_reducible apply State.at_within | with_reducible apply State.ladleFault_within
    | with_reducible apply State.devEvent_within | with_reducible apply State.Within.foldl | (intro) | with_reducible apply State.Within.ite
    | split | dsimp only | with_reducible apply State.Within.upd

theorem execSvcRestartComplete_within {lv : ℕ} (hlv : lv < 2) {z s t : State} {now : W64} (hz : z.Within lv s) (hx : execSvcRestartComplete now s =
    .next t) : z.Within lv t := by
  unfold execSvcRestartComplete at hx
  refine unlessInert_within hz (fun s hz => ?_) hx
  try dsimp only
  repeat' first
    | with_reducible assumption | with_reducible apply State.at_within | with_reducible apply State.mbUnknown_within
    | with_reducible apply State.start_within | with_reducible apply State.beginRepair_within | with_reducible apply State.Within.foldl | (intro)
    | with_reducible apply State.Within.ite | split | dsimp only | with_reducible apply State.Within.part | exact le_rfl

theorem execSeqNop_within {lv : ℕ} {z s t : State} {f : FrondId} {h : CmdHdr} (hz : z.Within lv s) (hx : execSeqNop f h s = .next t) : z.Within lv t
    :=
  reach_within hz hx

theorem execEnd_within {lv : ℕ} {z s t : State} {f : FrondId} {h : CmdHdr} {now : W64} (hz : z.Within lv s) (hx : execEnd f h now s = .next t) :
    z.Within lv t := by
  unfold execEnd at hx
  refine unlessInert_within hz (fun s hz => ?_) hx
  try dsimp only
  repeat' first
    | with_reducible assumption | with_reducible apply State.at_within | with_reducible apply State.feed_within

theorem execWait_within {lv : ℕ} {z s t : State} {f : FrondId} {h : CmdHdr} {sem : BitVec 6} {count : BitVec 16} (hz : z.Within lv s) (hx : execWait
    f h sem count s = .next t) : z.Within lv t :=
  reach_within hz hx

theorem execSignal_within {lv : ℕ} {z s t : State} {f : FrondId} {h : CmdHdr} {fence : Bool} {sem : BitVec 6} {target : Byte} {remote : Bool} {count
    : BitVec 16} (hz : z.Within lv s) (hx : execSignal f h fence sem target remote count s = .next t) : z.Within lv t :=
  reach_within hz hx

theorem execMxuPass_within {lv : ℕ} {z s t : State} {f : FrondId} {h : CmdHdr} {op : MxuOp} (hz : z.Within lv s) (hx : execMxuPass f h op s = .next
    t) : z.Within lv t :=
  reach_within hz hx

theorem execVuDrain_within {lv : ℕ} {z s t : State} {f : FrondId} {h : CmdHdr} {op : DrainOp} (hz : z.Within lv s) (hx : execVuDrain f h op s =
    .next t) : z.Within lv t :=
  reach_within hz hx

theorem execVuEw_within {lv : ℕ} {z s t : State} {f : FrondId} {h : CmdHdr} {v : VuForm} {func : Byte} {count : BitVec 16} (hz : z.Within lv s) (hx
    : execVuEw f h v func count s = .next t) : z.Within lv t :=
  reach_within hz hx

theorem execVuDw_within {lv : ℕ} {z s t : State} {f : FrondId} {h : CmdHdr} {v : VuForm} {g : Geometry} {ch : BitVec 10} {group : Byte} (hz :
    z.Within lv s) (hx : execVuDw f h v g ch group s = .next t) : z.Within lv t :=
  reach_within hz hx

theorem execVuPool_within {lv : ℕ} {z s t : State} {f : FrondId} {h : CmdHdr} {isMax : Bool} {padCount : Bool} {v : VuForm} {g : Geometry} {ch :
    BitVec 10} (hz : z.Within lv s) (hx : execVuPool f h isMax padCount v g ch s = .next t) : z.Within lv t :=
  reach_within hz hx

theorem execVuArgmax_within {lv : ℕ} {z s t : State} {f : FrondId} {h : CmdHdr} {v : VuForm} {ch : BitVec 10} (hz : z.Within lv s) (hx :
    execVuArgmax f h v ch s = .next t) : z.Within lv t :=
  reach_within hz hx

theorem execVuTfn_within {lv : ℕ} {z s t : State} {f : FrondId} {h : CmdHdr} {v : VuForm} {table : BitVec 2} {count : BitVec 16} (hz : z.Within lv
    s) (hx : execVuTfn f h v table count s = .next t) : z.Within lv t :=
  reach_within hz hx

theorem execVuFft_within {lv : ℕ} {z s t : State} {f : FrondId} {h : CmdHdr} {inverse : Bool} {v : VuForm} {twoD : Bool} {count : BitVec 16} (hz :
    z.Within lv s) (hx : execVuFft f h inverse v twoD count s = .next t) : z.Within lv t :=
  reach_within hz hx

theorem execPtmBuild_within {lv : ℕ} {z s t : State} {f : FrondId} {h : CmdHdr} {v : VuForm} {group : Byte} {count : BitVec 16} (hz : z.Within lv s)
    (hx : execPtmBuild f h v group count s = .next t) : z.Within lv t :=
  reach_within hz hx

theorem execVuLoad_within {lv : ℕ} {z s t : State} {f : FrondId} {h : CmdHdr} {v : VuForm} {count : BitVec 16} (hz : z.Within lv s) (hx : execVuLoad
    f h v count s = .next t) : z.Within lv t :=
  reach_within hz hx

theorem execVuStore_within {lv : ℕ} {z s t : State} {f : FrondId} {h : CmdHdr} {v : VuForm} {count : BitVec 16} (hz : z.Within lv s) (hx :
    execVuStore f h v count s = .next t) : z.Within lv t :=
  reach_within hz hx

theorem execVuTload_within {lv : ℕ} {z s t : State} {f : FrondId} {h : CmdHdr} {v : VuForm} {table : BitVec 2} (hz : z.Within lv s) (hx :
    execVuTload f h v table s = .next t) : z.Within lv t :=
  reach_within hz hx

theorem execSeCapture_within {lv : ℕ} {z s t : State} {f : FrondId} {h : CmdHdr} {src : BitVec 6} {dst : BitVec 6} {count : BitVec 16} (hz :
    z.Within lv s) (hx : execSeCapture f h src dst count s = .next t) : z.Within lv t :=
  reach_within hz hx

theorem execSeRegroup_within {lv : ℕ} {z s t : State} {f : FrondId} {h : CmdHdr} {inverse : Bool} {src : BitVec 6} {dst : BitVec 6} {by4 : Bool}
    {count : BitVec 16} (hz : z.Within lv s) (hx : execSeRegroup f h inverse src dst by4 count s = .next t) : z.Within lv t :=
  reach_within hz hx

theorem execDmaIn_within {lv : ℕ} {z s t : State} {f : FrondId} {h : CmdHdr} {tdRow : BitVec 13} (hz : z.Within lv s) (hx : execDmaIn f h tdRow s =
    .next t) : z.Within lv t :=
  reach_within hz hx

theorem execDmaOut_within {lv : ℕ} {z s t : State} {f : FrondId} {h : CmdHdr} {tdRow : BitVec 13} (hz : z.Within lv s) (hx : execDmaOut f h tdRow s
    = .next t) : z.Within lv t :=
  reach_within hz hx

theorem execNwRead_within {lv : ℕ} {z s t : State} {f : FrondId} {h : CmdHdr} {op : NwOp} (hz : z.Within lv s) (hx : execNwRead f h op s = .next t)
    : z.Within lv t :=
  reach_within hz hx

theorem execNwWrite_within {lv : ℕ} {z s t : State} {f : FrondId} {h : CmdHdr} {op : NwOp} (hz : z.Within lv s) (hx : execNwWrite f h op s = .next
    t) : z.Within lv t :=
  reach_within hz hx

theorem execWinOpen_within {lv : ℕ} {z s t : State} {f : FrondId} {h : CmdHdr} {win : BitVec 4} {baseRow : BitVec 13} {rows : BitVec 13} {gen :
    BitVec 16} (hz : z.Within lv s) (hx : execWinOpen f h win baseRow rows gen s = .next t) : z.Within lv t :=
  reach_within hz hx

theorem execWinClose_within {lv : ℕ} {z s t : State} {f : FrondId} {h : CmdHdr} {win : BitVec 4} (hz : z.Within lv s) (hx : execWinClose f h win s =
    .next t) : z.Within lv t :=
  reach_within hz hx

theorem execFill_within {lv : ℕ} {z s t : State} {f : FrondId} {h : CmdHdr} {dst : BitVec 6} {value : W32} {count : BitVec 16} (hz : z.Within lv s)
    (hx : execFill f h dst value count s = .next t) : z.Within lv t :=
  reach_within hz hx

theorem execFcCopy_within {lv : ℕ} {z s t : State} {f : FrondId} {h : CmdHdr} {src : BitVec 6} {dst : BitVec 6} {count : BitVec 16} (hz : z.Within
    lv s) (hx : execFcCopy f h src dst count s = .next t) : z.Within lv t :=
  reach_within hz hx

theorem execRhzKeep_within {lv : ℕ} {z s t : State} {f : FrondId} {h : CmdHdr} {dst : BitVec 6} {chunks : BitVec 16} (hz : z.Within lv s) (hx :
    execRhzKeep f h dst chunks s = .next t) : z.Within lv t :=
  reach_within hz hx

theorem State.segWrite_within {lv : ℕ} {z s : State} (hz : z.Within lv s) (f : ℕ) (n : ℕ) (en : Bool) :
    z.Within lv (State.segWrite s f n en) := by
  unfold State.segWrite
  try dsimp only
  repeat' first
    | with_reducible assumption | with_reducible apply State.setFrond_within | with_reducible apply State.Within.foldl | (intro)
    | with_reducible apply State.Within.ite

theorem State.tspSegWrite_within {lv : ℕ} {z s : State} (hz : z.Within lv s) (f : ℕ) (value : W32) :
    z.Within lv (State.tspSegWrite s f value) := by
  unfold State.tspSegWrite
  try dsimp only
  repeat' first
    | with_reducible assumption | with_reducible apply State.segWrite_within | with_reducible apply State.Within.foldl | (intro)
    | with_reducible apply State.Within.ite

theorem execTspSegGate_within {lv : ℕ} {z s t : State} {f : FrondId} {value : W32} (hz : z.Within lv s) (hx : execTspSegGate f value s = .next t) :
    z.Within lv t := by
  unfold execTspSegGate at hx
  refine unlessInert_within hz (fun s hz => ?_) hx
  try dsimp only
  repeat' first
    | with_reducible assumption | with_reducible apply State.tspSegWrite_within

theorem execTspSegEnable_within {lv : ℕ} {z s t : State} {f : FrondId} {value : W32} (hz : z.Within lv s) (hx : execTspSegEnable f value s = .next
    t) : z.Within lv t := by
  unfold execTspSegEnable at hx
  refine unlessInert_within hz (fun s hz => ?_) hx
  try dsimp only
  repeat' first
    | with_reducible assumption | with_reducible apply State.tspSegWrite_within

theorem execTspSegShutdownDone_within {lv : ℕ} {z s t : State} {f : FrondId} {seg : BitVec 4} (hz : z.Within lv s) (hx : execTspSegShutdownDone f
    seg s = .next t) : z.Within lv t := by
  unfold execTspSegShutdownDone at hx
  refine unlessInert_within hz (fun s hz => ?_) hx
  try dsimp only
  repeat' first
    | with_reducible assumption | with_reducible apply State.setFrond_within | with_reducible apply State.Within.foldl | (intro)
    | with_reducible apply State.Within.ite | split

theorem execTspSegPowerupDone_within {lv : ℕ} {z s t : State} {f : FrondId} {seg : BitVec 4} (hz : z.Within lv s) (hx : execTspSegPowerupDone f seg
    s = .next t) : z.Within lv t := by
  unfold execTspSegPowerupDone at hx
  refine unlessInert_within hz (fun s hz => ?_) hx
  try dsimp only
  repeat' first
    | with_reducible assumption | with_reducible apply State.setFrond_within | with_reducible apply State.Within.foldl | (intro)
    | with_reducible apply State.Within.ite | split

theorem State.tspCfgWrite_within {lv : ℕ} {z s : State} (hz : z.Within lv s) (f : ℕ) (value : W32) :
    z.Within lv (State.tspCfgWrite s f value) := by
  unfold State.tspCfgWrite
  try dsimp only
  repeat' first
    | with_reducible assumption | with_reducible apply State.setFrond_within | with_reducible apply State.Within.foldl | (intro)
    | with_reducible apply State.Within.ite

theorem execCacheStepsWrite_within {lv : ℕ} {z s t : State} {f : FrondId} {value : W32} (hz : z.Within lv s) (hx : execCacheStepsWrite f value s =
    .next t) : z.Within lv t := by
  unfold execCacheStepsWrite at hx
  refine unlessInert_within hz (fun s hz => ?_) hx
  try dsimp only
  repeat' first
    | with_reducible assumption | with_reducible apply State.tspCfgWrite_within

theorem State.portFault_within {lv : ℕ} {z s : State} (hz : z.Within lv s) (n : ℕ) (code : BitVec 16) (pin : Option (BitVec 4)) :
    z.Within lv (State.portFault s n code pin) := by
  unfold State.portFault
  try dsimp only
  repeat' first
    | with_reducible assumption | with_reducible apply State.setPort_within
    | with_reducible refine State.draw_out ?_ (by with_reducible assumption) | with_reducible apply State.draw_within
    | with_reducible apply State.ladleFault_within | with_reducible apply State.Within.foldl | (intro) | with_reducible apply State.Within.ite
    | split

theorem State.hpdEvent_within {lv : ℕ} {z s : State} (hz : z.Within lv s) (n : ℕ) :
    z.Within lv (State.hpdEvent s n) := by
  unfold State.hpdEvent
  try dsimp only
  repeat' first
    | with_reducible assumption | with_reducible refine State.draw_out ?_ (by with_reducible assumption) | with_reducible apply State.draw_within
    | with_reducible apply State.devEvent_within

theorem execHpdPlug_within {lv : ℕ} {z s t : State} {port : OutId} {asyncSink : Bool} {panel : List (List Byte)} {now : W64} (hz : z.Within lv s)
    (hx : execHpdPlug port asyncSink panel now s = .next t) : z.Within lv t := by
  unfold execHpdPlug at hx
  refine unlessInert_within hz (fun s hz => ?_) hx
  try dsimp only
  repeat' first
    | with_reducible assumption | with_reducible apply State.setPort_within | with_reducible apply State.at_within
    | with_reducible apply State.forgetPanel_within | with_reducible apply State.readPanel_within | with_reducible apply State.hpdEvent_within
    | with_reducible apply State.Within.foldl | (intro) | with_reducible apply State.Within.ite | split | dsimp only
    | with_reducible apply State.Within.upd

theorem execHpdUnplug_within {lv : ℕ} {z s t : State} {port : OutId} {now : W64} (hz : z.Within lv s) (hx : execHpdUnplug port now s = .next t) :
    z.Within lv t := by
  unfold execHpdUnplug at hx
  refine unlessInert_within hz (fun s hz => ?_) hx
  try dsimp only
  repeat' first
    | with_reducible assumption | with_reducible apply State.setPort_within | with_reducible apply State.at_within
    | with_reducible apply State.forgetPanel_within | with_reducible apply State.hpdEvent_within | with_reducible apply State.Within.foldl
    | (intro) | with_reducible apply State.Within.ite | split | dsimp only | with_reducible apply State.Within.upd

theorem execIrqHpd_within {lv : ℕ} {z s t : State} {port : OutId} {now : W64} (hz : z.Within lv s) (hx : execIrqHpd port now s = .next t) : z.Within
    lv t := by
  unfold execIrqHpd at hx
  refine unlessInert_within hz (fun s hz => ?_) hx
  try dsimp only
  repeat' first
    | with_reducible assumption | with_reducible apply State.setPort_within | with_reducible apply State.at_within
    | with_reducible apply State.hpdEvent_within | with_reducible apply State.Within.foldl | (intro) | with_reducible apply State.Within.ite

theorem State.reportSwaps_within {lv : ℕ} {z s : State} (hz : z.Within lv s) (n : ℕ) (x : TrainSense) :
    z.Within lv (State.reportSwaps s n x) := by
  unfold State.reportSwaps
  try dsimp only
  repeat' first
    | with_reducible assumption | with_reducible apply State.devEvent_within | with_reducible apply State.portFault_within
    | with_reducible apply State.Within.foldl | (intro) | with_reducible apply State.Within.ite

theorem State.reportOpen_within {lv : ℕ} {z s : State} (hz : z.Within lv s) (n : ℕ) (lanes : BitVec 4) :
    z.Within lv (State.reportOpen s n lanes) := by
  unfold State.reportOpen
  try dsimp only
  repeat' first
    | with_reducible assumption | with_reducible apply State.devEvent_within | with_reducible apply State.portFault_within
    | with_reducible apply State.Within.foldl | (intro) | with_reducible apply State.Within.ite

theorem execDpLinkTraining_within {lv : ℕ} {z s t : State} {port : OutId} {x : TrainSense} {now : W64} (hz : z.Within lv s) (hx : execDpLinkTraining
    port x now s = .next t) : z.Within lv t := by
  unfold execDpLinkTraining at hx
  refine unlessInert_within hz (fun s hz => ?_) hx
  try dsimp only
  repeat' first
    | with_reducible assumption | with_reducible apply State.setPort_within | with_reducible apply State.at_within
    | with_reducible apply State.count_within | with_reducible apply State.devEvent_within | with_reducible apply State.reportSwaps_within
    | with_reducible apply State.reportOpen_within | with_reducible apply State.Within.foldl | (intro) | with_reducible apply State.Within.ite
    | split

theorem State.dptxCtlWrite_within {lv : ℕ} {z s : State} (hz : z.Within lv s) (n : ℕ) (value : W32) :
    z.Within lv (State.dptxCtlWrite s n value) := by
  unfold State.dptxCtlWrite
  try dsimp only
  repeat' first
    | with_reducible assumption | with_reducible apply State.setPort_within

theorem execRetrain_within {lv : ℕ} (hlv : lv < 2) {z s t : State} {port : OutId} {value : W32} (hz : z.Within lv s) (hx : execRetrain port value s
    = .next t) : z.Within lv t := by
  unfold execRetrain at hx
  refine unlessInert_within hz (fun s hz => ?_) hx
  try dsimp only
  repeat' first
    | with_reducible assumption | with_reducible apply State.dptxCtlWrite_within | with_reducible apply State.Within.foldl | (intro)
    | with_reducible apply State.Within.ite | split | dsimp only | with_reducible apply State.Within.part | exact le_rfl

theorem State.auxWrite_within {lv : ℕ} {z s : State} (hz : z.Within lv s) (n : ℕ) (value : W32) :
    z.Within lv (State.auxWrite s n value) := by
  unfold State.auxWrite
  try dsimp only
  repeat' first
    | with_reducible assumption | with_reducible apply State.setPort_within | with_reducible apply State.count_within
    | with_reducible apply State.Within.foldl | (intro) | with_reducible apply State.Within.ite

theorem execAuxTransaction_within {lv : ℕ} {z s t : State} {port : OutId} {value : W32} (hz : z.Within lv s) (hx : execAuxTransaction port value s =
    .next t) : z.Within lv t := by
  unfold execAuxTransaction at hx
  refine unlessInert_within hz (fun s hz => ?_) hx
  try dsimp only
  repeat' first
    | with_reducible assumption | with_reducible apply State.auxWrite_within

theorem execAuxReply_within {lv : ℕ} {z s t : State} {port : OutId} {reply : BitVec 2} {data : List Byte} (hz : z.Within lv s) (hx : execAuxReply
    port reply data s = .next t) : z.Within lv t := by
  unfold execAuxReply at hx
  refine unlessInert_within hz (fun s hz => ?_) hx
  try dsimp only
  repeat' first
    | with_reducible assumption | with_reducible apply State.setPort_within | with_reducible apply State.take_within
    | with_reducible apply State.Within.foldl | (intro) | with_reducible apply State.Within.ite

theorem execPortShort_within {lv : ℕ} {z s t : State} {port : OutId} {pin : BitVec 4} {now : W64} (hz : z.Within lv s) (hx : execPortShort port pin
    now s = .next t) : z.Within lv t := by
  unfold execPortShort at hx
  refine unlessInert_within hz (fun s hz => ?_) hx
  try dsimp only
  repeat' first
    | with_reducible assumption | with_reducible apply State.setPort_within | with_reducible apply State.at_within
    | with_reducible apply State.devEvent_within | with_reducible apply State.portFault_within | with_reducible apply State.Within.foldl | (intro)
    | with_reducible apply State.Within.ite

theorem execPortPinTest_within {lv : ℕ} {z s t : State} {port : OutId} {clean : Bool} (hz : z.Within lv s) (hx : execPortPinTest port clean s =
    .next t) : z.Within lv t := by
  unfold execPortPinTest at hx
  refine unlessInert_within hz (fun s hz => ?_) hx
  try dsimp only
  repeat' first
    | with_reducible assumption | with_reducible apply State.setPort_within | with_reducible apply State.readPanel_within
    | with_reducible apply State.Within.foldl | (intro) | with_reducible apply State.Within.ite

theorem State.captureTo_within {lv : ℕ} {z s : State} (hz : z.Within lv s) (c : ℕ) (frame : W32) (x : CapturedFrame) :
    z.Within lv (State.captureTo s c frame x) := by
  unfold State.captureTo
  try dsimp only
  repeat' first
    | with_reducible assumption | with_reducible apply State.setCtx_within | with_reducible apply State.setStream_within
    | with_reducible apply State.hbmWrite_within | with_reducible apply State.Within.foldl | (intro) | with_reducible apply State.Within.ite

theorem execCaptureFrame_within {lv : ℕ} {z s t : State} {rx : Fin 2} {frame : W32} {c : CapturedFrame} (hz : z.Within lv s) (hx : execCaptureFrame
    rx frame c s = .next t) : z.Within lv t := by
  unfold execCaptureFrame at hx
  refine unlessInert_within hz (fun s hz => ?_) hx
  try dsimp only
  repeat' first
    | with_reducible assumption | with_reducible apply State.captureTo_within | with_reducible apply State.Within.foldl | (intro)

theorem State.showPreset_within {lv : ℕ} {z s : State} (hz : z.Within lv s)  :
    z.Within lv (State.showPreset s) := by
  unfold State.showPreset
  try dsimp only
  repeat' first
    | with_reducible assumption | with_reducible apply State.setComp_within
    | with_reducible refine State.draw_out ?_ (by with_reducible assumption) | with_reducible apply State.draw_within
    | with_reducible apply State.Within.foldl | (intro) | with_reducible apply State.Within.ite | split

theorem execCaptureLost_within {lv : ℕ} {z s t : State} {rx : Fin 2} {now : W64} (hz : z.Within lv s) (hx : execCaptureLost rx now s = .next t) :
    z.Within lv t := by
  unfold execCaptureLost at hx
  refine unlessInert_within hz (fun s hz => ?_) hx
  try dsimp only
  repeat' first
    | with_reducible assumption | with_reducible apply State.at_within | with_reducible apply State.devEvent_within
    | with_reducible apply State.showPreset_within

theorem execDprxAuxRequest_within {lv : ℕ} (hlv : lv < 2) {z s t : State} {rx : Fin 2} {write : Bool} {device : BitVec 7} {data : List Byte} {count
    : BitVec 5} (hz : z.Within lv s) (hx : execDprxAuxRequest rx write device data count s = .next t) : z.Within lv t := by
  unfold execDprxAuxRequest at hx
  refine unlessInert_within hz (fun s hz => ?_) hx
  try dsimp only
  repeat' first
    | with_reducible assumption | with_reducible apply State.setRx_within | with_reducible apply State.count_within
    | with_reducible apply State.Within.foldl | (intro) | with_reducible apply State.Within.ite

theorem State.panelCtlWrite_within {lv : ℕ} (hlv : lv < 2) {z s : State} (hz : z.Within lv s) (n : ℕ) (value : W32) :
    z.Within lv (State.panelCtlWrite s n value) := by
  unfold State.panelCtlWrite
  try dsimp only
  repeat' first
    | with_reducible assumption | with_reducible apply State.setPanel_within

theorem execPanelPwrWrite_within {lv : ℕ} (hlv : lv < 2) {z s t : State} {n : OutId} {value : W32} (hz : z.Within lv s) (hx : execPanelPwrWrite n
    value s = .next t) : z.Within lv t := by
  unfold execPanelPwrWrite at hx
  refine unlessInert_within hz (fun s hz => ?_) hx
  try dsimp only
  repeat' first
    | with_reducible assumption | with_reducible apply State.panelCtlWrite_within

theorem execBlDelayExpiry_within {lv : ℕ} (hlv : lv < 2) {z s t : State} {n : OutId} {now : W64} (hz : z.Within lv s) (hx : execBlDelayExpiry n now
    s = .next t) : z.Within lv t := by
  unfold execBlDelayExpiry at hx
  refine unlessInert_within hz (fun s hz => ?_) hx
  try dsimp only
  repeat' first
    | with_reducible assumption | with_reducible apply State.setPanel_within | with_reducible apply State.at_within
    | with_reducible apply State.Within.foldl | (intro) | with_reducible apply State.Within.ite

theorem State.retopo_within {lv : ℕ} {z s : State} (hz : z.Within lv s)  :
    z.Within lv (State.retopo s) := by
  unfold State.retopo
  try dsimp only
  repeat' first
    | with_reducible assumption | with_reducible refine State.draw_out ?_ (by with_reducible assumption) | with_reducible apply State.draw_within
    | with_reducible apply State.Within.foldl | (intro) | with_reducible apply State.Within.ite | split | dsimp only
    | with_reducible apply State.Within.upd

theorem State.lwlTrain_within {lv : ℕ} {z s : State} (hz : z.Within lv s) (k : ℕ) (x : LinkSense) :
    z.Within lv (State.lwlTrain s k x) := by
  unfold State.lwlTrain
  try dsimp only
  repeat' first
    | with_reducible assumption | with_reducible apply State.setLink_within | with_reducible apply State.retopo_within

theorem execLwlTrainRetry_within {lv : ℕ} {z s t : State} {link : Fin 4} {sense : LinkSense} (hz : z.Within lv s) (hx : execLwlTrainRetry link sense
    s = .next t) : z.Within lv t := by
  unfold execLwlTrainRetry at hx
  refine unlessInert_within hz (fun s hz => ?_) hx
  try dsimp only
  repeat' first
    | with_reducible assumption | with_reducible apply State.lwlTrain_within | with_reducible apply State.Within.foldl | (intro)
    | with_reducible apply State.Within.ite

theorem State.failMovers_within {lv : ℕ} {z x1 : State} (hz : z.Within lv x1) (x0 : ℕ) (x2 : BitVec 2) :
    z.Within lv (State.failMovers x0 x1 x2) := by
  induction x0 generalizing x1 with
  | zero => exact hz
  | succ m ih =>
    unfold State.failMovers
    try dsimp only
    repeat' first
      | with_reducible assumption | with_reducible apply ih | with_reducible apply State.dropXfer_within | with_reducible apply State.Within.foldl
      | (intro) | with_reducible apply State.Within.ite | split | dsimp only | with_reducible apply State.Within.upd

theorem State.failDmas_within {lv : ℕ} {z s : State} (hz : z.Within lv s) (d : BitVec 2) :
    z.Within lv (State.failDmas s d) := by
  unfold State.failDmas
  try dsimp only
  repeat' first
    | with_reducible assumption | with_reducible apply State.dmaFault_within | with_reducible apply State.pump_within
    | with_reducible apply State.Within.foldl | (intro) | with_reducible apply State.Within.ite

theorem State.failTransfers_within {lv : ℕ} {z s : State} (hz : z.Within lv s) (k : ℕ) :
    z.Within lv (State.failTransfers s k) := by
  unfold State.failTransfers
  try dsimp only
  repeat' first
    | with_reducible assumption | with_reducible apply State.failMovers_within | with_reducible apply State.failDmas_within
    | with_reducible apply State.Within.foldl | (intro) | with_reducible apply State.Within.ite

theorem execLinkFailed_within {lv : ℕ} {z s t : State} {link : Fin 4} {now : W64} (hz : z.Within lv s) (hx : execLinkFailed link now s = .next t) :
    z.Within lv t := by
  unfold execLinkFailed at hx
  refine unlessInert_within hz (fun s hz => ?_) hx
  try dsimp only
  repeat' first
    | with_reducible assumption | with_reducible apply State.setLink_within | with_reducible apply State.at_within
    | with_reducible apply State.ladleFault_within | with_reducible apply State.count_within | with_reducible apply State.devEvent_within
    | with_reducible apply State.ctxFaults_within | with_reducible apply State.retopo_within | with_reducible apply State.failTransfers_within
    | with_reducible apply State.Within.foldl | (intro) | with_reducible apply State.Within.ite

theorem execRetry_within {lv : ℕ} {z s t : State} {sense : RetrySense} (hz : z.Within lv s) (hx : execRetry sense s = .next t)
    : z.Within lv t := by
  unfold execRetry at hx
  refine unlessInert_within hz (fun s hz => ?_) hx
  try dsimp only
  repeat' first
    | with_reducible assumption | with_reducible apply State.count_within | with_reducible apply State.countSome_within
    | with_reducible apply State.Within.foldl | (intro) | with_reducible apply State.Within.ite

theorem State.lwlCtlWrite_within {lv : ℕ} {z s : State} (hz : z.Within lv s) (k : ℕ) (value : W32) :
    z.Within lv (State.lwlCtlWrite s k value) := by
  unfold State.lwlCtlWrite
  try dsimp only
  repeat' first
    | with_reducible assumption | with_reducible apply State.setLink_within | with_reducible apply State.retopo_within
    | with_reducible apply State.failTransfers_within | with_reducible apply State.Within.foldl | (intro) | with_reducible apply State.Within.ite

theorem execLinkEnable_within {lv : ℕ} {z s t : State} {link : Fin 4} {value : W32} {sense : LinkSense} (hz : z.Within lv s) (hx : execLinkEnable
    link value sense s = .next t) : z.Within lv t := by
  unfold execLinkEnable at hx
  refine unlessInert_within hz (fun s hz => ?_) hx
  try dsimp only
  repeat' first
    | with_reducible assumption | with_reducible apply State.lwlTrain_within | with_reducible apply State.lwlCtlWrite_within
    | with_reducible apply State.Within.foldl | (intro) | with_reducible apply State.Within.ite

theorem execRingWrite_within {lv : ℕ} {z s t : State} {link : Fin 4} {value : W32} (hz : z.Within lv s) (hx : execRingWrite link value s = .next t)
    : z.Within lv t := by
  unfold execRingWrite at hx
  refine unlessInert_within hz (fun s hz => ?_) hx
  try dsimp only
  repeat' first
    | with_reducible assumption | with_reducible apply State.lwlCtlWrite_within

theorem execLwlLatencyMeasure_within {lv : ℕ} {z s t : State} {link : Fin 4} {roundTrip : BitVec 16} (hz : z.Within lv s) (hx :
    execLwlLatencyMeasure link roundTrip s = .next t) : z.Within lv t := by
  unfold execLwlLatencyMeasure at hx
  refine unlessInert_within hz (fun s hz => ?_) hx
  try dsimp only
  repeat' first
    | with_reducible assumption | with_reducible apply State.setLink_within | with_reducible apply State.Within.foldl | (intro)
    | with_reducible apply State.Within.ite

theorem execDtbTimeMessage_within {lv : ℕ} {z s t : State} {link : Fin 4} {masterDtb : W64} {correction : BitVec 16} {now : W64} (hz : z.Within lv
    s) (hx : execDtbTimeMessage link masterDtb correction now s = .next t) : z.Within lv t := by
  unfold execDtbTimeMessage at hx
  refine unlessInert_within hz (fun s hz => ?_) hx
  try dsimp only
  repeat' first
    | with_reducible assumption | with_reducible apply State.at_within | with_reducible apply State.Within.foldl | (intro)
    | with_reducible apply State.Within.ite | split | dsimp only | with_reducible apply State.Within.upd

theorem execHoldover_within {lv : ℕ} {z s t : State} (hz : z.Within lv s) (hx : execHoldover s = .next t) : z.Within lv t := by
  unfold execHoldover at hx
  refine unlessInert_within hz (fun s hz => ?_) hx
  try dsimp only
  repeat' first
    | with_reducible assumption | with_reducible apply State.Within.foldl | (intro) | with_reducible apply State.Within.ite | split | dsimp only
    | with_reducible apply State.Within.upd

theorem execRemoteHbmRequest_within {lv : ℕ} {z s t : State} {link : Fin 4} {kind : RemoteKind} {addr : W64} {data : List Byte} (hz :
    z.Within lv s) (hx : execRemoteHbmRequest link kind addr data s = .next t) : z.Within lv t := by
  unfold execRemoteHbmRequest at hx
  refine unlessInert_within hz (fun s hz => ?_) hx
  try dsimp only
  repeat' first
    | with_reducible assumption | with_reducible apply State.hbmWrite_within | with_reducible apply State.poisonHbm_within
    | with_reducible apply State.Within.foldl | (intro) | with_reducible apply State.Within.ite | split | dsimp only
    | with_reducible apply State.Within.upd

theorem State.haloTarget_within {lv : ℕ} {z s : State} (hz : z.Within lv s) (h : Halo) (frame : W32) :
    z.Within lv (State.haloTarget s h frame).2.2 := by
  unfold State.haloTarget
  try dsimp only
  repeat' first
    | with_reducible assumption | with_reducible refine State.draw_out ?_ (by with_reducible assumption) | with_reducible apply State.draw_within
    | with_reducible apply State.Within.foldl | (intro) | with_reducible apply State.Within.ite | split

theorem State.haloTarget_out {lv : ℕ} {z s t : State} {h : Halo} {frame : W32} {a0 : Option ℕ} {a1 : W32}
    (hz : z.Within lv s) (e : State.haloTarget s h frame = (a0, a1, t)) : z.Within lv t := by
  have g := State.haloTarget_within hz h frame
  rw [e] at g
  exact g

theorem execHaloPush_within {lv : ℕ} {z s t : State} {entry : Fin 16} {frame : W32} (hz : z.Within lv s) (hx : execHaloPush entry frame s = .next t)
    : z.Within lv t := by
  unfold execHaloPush at hx
  refine unlessInert_within hz (fun s hz => ?_) hx
  try dsimp only
  repeat' first
    | with_reducible assumption | with_reducible apply State.post_within
    | with_reducible refine State.haloTarget_out ?_ (by with_reducible assumption) | with_reducible apply State.haloTarget_within
    | with_reducible apply State.Within.foldl | (intro) | with_reducible apply State.Within.ite | split

end Sys2Proof.Machine
end

