-- ==== Sys2Proof/Laws/WithinSystem.lean ====
section
/-! SUPPORT. What each operation leaves alone (`State.Within`): the supervisor, resets, power and register writes. One lemma for each function that changes State. -/

namespace Sys2Proof.Machine

theorem State.mendSlot_within {lv : ℕ} (hlv : lv < 2) {z s : State} (hz : z.Within lv s) (a : ℕ) :
    z.Within lv (State.mendSlot s a) := by
  unfold State.mendSlot
  try dsimp only
  repeat' first
    | with_reducible assumption | with_reducible apply State.Within.foldl | (intro) | with_reducible apply State.Within.ite | split | dsimp only
    | with_reducible apply State.Within.part | exact le_rfl

theorem State.takeTrust_within {lv : ℕ} (hlv : lv < 2) {z s : State} (hz : z.Within lv s) (l : List (List Byte)) :
    z.Within lv (State.takeTrust s l) := by
  unfold State.takeTrust
  try dsimp only
  repeat' first
    | with_reducible assumption | with_reducible refine State.draw_out ?_ (by with_reducible assumption) | with_reducible apply State.draw_within
    | with_reducible apply State.Within.foldl | (intro) | with_reducible apply State.Within.ite | split | dsimp only
    | with_reducible apply State.Within.part | exact le_rfl

theorem mailbox_within {lv : ℕ} (hlv : lv < 2) {z s t : State} {op : Byte} {n : ℕ} {k : State → List Byte → State} (hz : z.Within lv s)
    (g : ∀ s l, z.Within lv s → z.Within lv (k s l)) (hx : mailbox op n s k = .next t) : z.Within lv t := by
  unfold mailbox at hx
  refine unlessInert_within hz (fun s hz => ?_) hx
  split
  · exact hz
  · split
    · exact State.mbRefuse_within hlv hz _
    · exact g _ _ hz

theorem State.mbCmdWrite_within {lv : ℕ} (hlv : lv < 2) {z s : State} (hz : z.Within lv s) (op : Byte) :
    z.Within lv (State.mbCmdWrite s op) := by
  unfold State.mbCmdWrite
  try dsimp only
  repeat' first
    | with_reducible assumption | with_reducible apply State.mbUnknown_within | with_reducible apply State.Within.foldl | (intro)
    | with_reducible apply State.Within.ite | split | dsimp only | with_reducible apply State.Within.part | exact le_rfl

theorem State.mbFlash_within {lv : ℕ} (hlv : lv < 2) {z s : State} (hz : z.Within lv s) (a : ℕ) (n : ℕ) (l : List Byte) :
    z.Within lv (State.mbFlash s a n l) := by
  unfold State.mbFlash
  try dsimp only
  repeat' first
    | with_reducible assumption | with_reducible refine State.draw_out ?_ (by with_reducible assumption) | with_reducible apply State.draw_within
    | with_reducible apply State.flashWrite_within | with_reducible apply State.mbDone_within | with_reducible apply State.mbRefuse_within
    | with_reducible apply State.mendSlot_within | with_reducible apply State.Within.foldl | (intro) | with_reducible apply State.Within.ite
    | split | dsimp only | with_reducible apply State.Within.part | exact le_rfl | rfl | exact fun _ => rfl
    | exact Mem.wf_write (by assumption) _ _ | exact Mem.wf_forget (by assumption) _ _

theorem State.lidReject_within {lv : ℕ} (hlv : lv < 2) {z s : State} (hz : z.Within lv s) (n : ℕ) (reason : BitVec 4) :
    z.Within lv (State.lidReject s n reason) := by
  unfold State.lidReject
  try dsimp only
  repeat' first
    | with_reducible assumption | with_reducible apply State.setComp_within | with_reducible apply State.mbDone_within

theorem execLid_within {lv : ℕ} (hlv : lv < 2) {z s t : State} (hz : z.Within lv s) (hx : execLid s = .next t) : z.Within lv t := by
  unfold execLid at hx
  refine mailbox_within hlv hz (fun s l hz => ?_) hx
  try dsimp only
  repeat' first
    | with_reducible assumption | with_reducible apply State.setComp_within
    | with_reducible refine State.draw_out ?_ (by with_reducible assumption) | with_reducible apply State.draw_within
    | with_reducible apply State.mbDone_within | with_reducible apply State.mbRefuse_within | with_reducible apply State.take_within
    | with_reducible apply State.lidReject_within | with_reducible apply State.Within.foldl | (intro) | with_reducible apply State.Within.ite

theorem execAttest_within {lv : ℕ} (hlv : lv < 2) {z s t : State} (hz : z.Within lv s) (hx : execAttest s = .next t) : z.Within lv t := by
  unfold execAttest at hx
  refine mailbox_within hlv hz (fun s l hz => ?_) hx
  try dsimp only
  repeat' first
    | with_reducible assumption | with_reducible apply State.hostWrite_within | with_reducible apply State.mbDone_within
    | with_reducible apply State.mbRefuse_within | with_reducible apply State.Within.foldl | (intro) | with_reducible apply State.Within.ite

theorem execFwWrite_within {lv : ℕ} (hlv : lv < 2) {z s t : State} (hz : z.Within lv s) (hx : execFwWrite s = .next t) : z.Within lv t := by
  unfold execFwWrite at hx
  refine mailbox_within hlv hz (fun s l hz => ?_) hx
  try dsimp only
  repeat' first
    | with_reducible assumption | with_reducible apply State.mbRefuse_within | with_reducible apply State.mbFlash_within
    | with_reducible apply State.Within.foldl | (intro) | with_reducible apply State.Within.ite

theorem State.storeTrust_within {lv : ℕ} (hlv : lv < 2) {z s : State} (hz : z.Within lv s) (l : List (List Byte)) :
    z.Within lv (State.storeTrust s l) := by
  unfold State.storeTrust
  try dsimp only
  repeat' first
    | with_reducible assumption | with_reducible apply State.takeTrust_within | with_reducible apply State.mbFlash_within

theorem execTrustUpdate_within {lv : ℕ} (hlv : lv < 2) {z s t : State} (hz : z.Within lv s) (hx : execTrustUpdate s = .next t) : z.Within lv t := by
  unfold execTrustUpdate at hx
  refine mailbox_within hlv hz (fun s l hz => ?_) hx
  try dsimp only
  repeat' first
    | with_reducible assumption | with_reducible apply State.mbRefuse_within | with_reducible apply State.storeTrust_within
    | with_reducible apply State.Within.foldl | (intro) | with_reducible apply State.Within.ite | split

theorem execDebugToken_within {lv : ℕ} (hlv : lv < 2) {z s t : State} (hz : z.Within lv s) (hx : execDebugToken s = .next t) : z.Within lv t := by
  unfold execDebugToken at hx
  refine mailbox_within hlv hz (fun s l hz => ?_) hx
  try dsimp only
  repeat' first
    | with_reducible assumption | with_reducible apply State.mbFlash_within

theorem execSvnAdvance_within {lv : ℕ} (hlv : lv < 2) {z s t : State} (hz : z.Within lv s) (hx : execSvnAdvance s = .next t) : z.Within lv t := by
  unfold execSvnAdvance at hx
  refine mailbox_within hlv hz (fun s l hz => ?_) hx
  try dsimp only
  repeat' first
    | with_reducible assumption | with_reducible apply State.mbRefuse_within | with_reducible apply State.mbFlash_within
    | with_reducible apply State.Within.foldl | (intro) | with_reducible apply State.Within.ite | split

theorem execConfigWrite_within {lv : ℕ} (hlv : lv < 2) {z s t : State} (hz : z.Within lv s) (hx : execConfigWrite s = .next t) : z.Within lv t := by
  unfold execConfigWrite at hx
  refine mailbox_within hlv hz (fun s l hz => ?_) hx
  try dsimp only
  repeat' first
    | with_reducible assumption | with_reducible apply State.mbRefuse_within | with_reducible apply State.mbFlash_within
    | with_reducible apply State.Within.foldl | (intro) | with_reducible apply State.Within.ite | split

theorem State.xspiWrite_within {lv : ℕ} (hlv : lv < 2) {z s : State} (hz : z.Within lv s) (w : ℕ) (value : W32) :
    z.Within lv (State.xspiWrite s w value) := by
  unfold State.xspiWrite
  try dsimp only
  repeat' first
    | with_reducible assumption | with_reducible apply State.Within.foldl | (intro) | with_reducible apply State.Within.ite | split | dsimp only
    | with_reducible apply State.Within.part | exact le_rfl | rfl

theorem execXspiOpComplete_within {lv : ℕ} (hlv : lv < 2) {z s t : State} (hz : z.Within lv s) (hx : execXspiOpComplete s = .next t) : z.Within lv t
    := by
  unfold execXspiOpComplete at hx
  refine unlessInert_within hz (fun s hz => ?_) hx
  try dsimp only
  repeat' first
    | with_reducible assumption | with_reducible apply State.Within.foldl | (intro) | with_reducible apply State.Within.ite | split | dsimp only
    | with_reducible apply State.Within.part | exact le_rfl

theorem State.restart_within {lv : ℕ} (hlv : lv < 2) {z s : State} (h : z.Within lv s) : z.Within lv s.restart :=
  h.trans ⟨rfl, fun k => ⟨rfl, k.2.1, k.2.2⟩, le_rfl, le_rfl, id, fun _ _ => rfl, fun _ _ => .inl rfl, fun k => absurd k (by omega)⟩

theorem State.fullReset_within {lv : ℕ} (hlv : lv < 2) {z s : State} (h : z.Within lv s) : z.Within lv s.fullReset :=
  (State.restart_within hlv h).trans ⟨rfl, id, le_rfl, le_rfl, id, fun _ => id, fun _ _ => .inr ⟨le_rfl, rfl, BitVec.and_self⟩, fun k => absurd k (by omega)⟩

theorem State.warmReset_within {lv : ℕ} (hlv : lv < 2) {z s : State} (h : z.Within lv s) : z.Within lv s.warmReset :=
  h.trans ⟨rfl, fun k => k, le_rfl, le_rfl, id, fun _ _ => rfl, fun _ _ => .inl rfl, fun k => absurd k (by omega)⟩

theorem execPowerOnReset_within {lv : ℕ} (hlv : lv < 2) {z s t : State} {strap : BitVec 2} (hz : z.Within lv s)
    (hx : execPowerOnReset strap s = .next t) : z.Within lv t := by
  unfold execPowerOnReset at hx
  cases hx
  exact hz.trans ⟨rfl, fun k => ⟨rfl, k.2.1, k.2.2⟩, le_rfl, le_rfl, id, fun _ _ => rfl, fun _ _ => .inl rfl, fun k => absurd k (by omega)⟩

theorem execPerstN_within {lv : ℕ} (hlv : lv < 2) {z s t : State} (hz : z.Within lv s) (hx : execPerstN s = .next t) : z.Within lv t := by
  unfold execPerstN at hx
  refine unlessInert_within hz (fun s hz => ?_) hx
  try dsimp only
  repeat' first
    | with_reducible assumption | with_reducible apply State.fullReset_within

theorem execResetN_within {lv : ℕ} (hlv : lv < 2) {z s t : State} (hz : z.Within lv s) (hx : execResetN s = .next t) : z.Within lv t := by
  unfold execResetN at hx
  refine unlessInert_within hz (fun s hz => ?_) hx
  try dsimp only
  repeat' first
    | with_reducible assumption | with_reducible apply State.fullReset_within

theorem State.resetWrite_within {lv : ℕ} (hlv : lv < 2) {z s : State} (hz : z.Within lv s) (value : W32) :
    z.Within lv (State.resetWrite s value) := by
  unfold State.resetWrite
  try dsimp only
  repeat' first
    | with_reducible assumption | with_reducible apply State.warmReset_within | with_reducible apply State.Within.foldl | (intro)
    | with_reducible apply State.Within.ite

theorem execWarm_within {lv : ℕ} (hlv : lv < 2) {z s t : State} {value : W32} (hz : z.Within lv s) (hx : execWarm value s = .next t) : z.Within lv t
    := by
  unfold execWarm at hx
  refine unlessInert_within hz (fun s hz => ?_) hx
  try dsimp only
  repeat' first
    | with_reducible assumption | with_reducible apply State.resetWrite_within

theorem State.funcReset_within {z s : State} (hz : z.Within 0 s)  :
    z.Within 0 (State.funcReset s) := by
  unfold State.funcReset
  try dsimp only
  repeat' first
    | with_reducible assumption | with_reducible apply State.Within.foldl | (intro) | with_reducible apply State.Within.ite | split | dsimp only
    | with_reducible apply State.Within.base | exact le_rfl

theorem State.meterAll_within {lv : ℕ} {z s : State} (hz : z.Within lv s) : z.Within lv s.meterAll :=
  State.Within.foldl _ _ (fun s d h => State.meterDomain_within h d) hz

theorem execFlr_within {z s t : State} (hz : z.Within 0 s) (hx : execFlr s = .next t) : z.Within 0 t := by
  unfold execFlr at hx
  refine unlessInert_within hz (fun s hz => ?_) hx
  split
  · exact State.funcReset_within (State.meterAll_within hz)
  · apply State.Within.base hz
    exacts [id, le_rfl, le_rfl, id]

theorem State.markBad_within {z s : State} (hz : z.Within 0 s) (i : ℕ) :
    z.Within 0 (State.markBad s i) := by
  unfold State.markBad
  try dsimp only
  repeat' first
    | with_reducible assumption | with_reducible apply State.Within.foldl | (intro) | with_reducible apply State.Within.ite | split | dsimp only
    | with_reducible apply State.Within.base | exact le_rfl

theorem State.runImage_within {z s : State} (hz : z.Within 0 s) (i : ℕ) :
    z.Within 0 (State.runImage s i) := by
  unfold State.runImage
  try dsimp only
  repeat' first
    | with_reducible assumption | with_reducible apply State.Within.foldl | (intro) | with_reducible apply State.Within.ite | split | dsimp only
    | with_reducible apply State.Within.base | exact le_rfl

theorem svn_advance (b : BitVec 7) (m : ℕ) : b.toNat ≤ (BitVec.ofNat 7 (max b.toNat (min 64 m))).toNat := by
  rw [BitVec.toNat_ofNat, Nat.mod_eq_of_lt (by omega)]
  omega

theorem State.bootImage_out {z s t : State} (h : z.Within 0 s) (e : s.bootImage = some t) : z.Within 0 t := by
  unfold State.bootImage at e
  split at e
  dsimp only at e
  split at e
  · rw [← Option.some.inj e]
    exact State.runImage_within h _
  · split at e
    · rw [← Option.some.inj e]
      exact State.runImage_within (State.markBad_within h _) _
    · exact absurd e (by simp)

theorem State.recover_within {z s : State} (hz : z.Within 0 s)  :
    z.Within 0 (State.recover s) := by
  unfold State.recover
  try dsimp only
  repeat' first
    | with_reducible assumption | with_reducible apply State.Within.foldl | (intro) | with_reducible apply State.Within.ite | split | dsimp only
    | with_reducible apply State.Within.base | exact le_rfl

theorem State.bootAdvance_within {z s : State} (hz : z.Within 0 s)  :
    z.Within 0 (State.bootAdvance s) := by
  unfold State.bootAdvance
  try dsimp only
  repeat' first
    | with_reducible assumption | with_reducible apply State.flashWrite_within | exact svn_advance _ _ | with_reducible apply State.Within.foldl
    | (intro) | with_reducible apply State.Within.ite | split | dsimp only | with_reducible apply State.Within.base | exact le_rfl
    | exact Nat.zero_lt_two

theorem State.bootConfig_within {z s : State} (hz : z.Within 0 s)  :
    z.Within 0 (State.bootConfig s) := by
  unfold State.bootConfig
  try dsimp only
  repeat' first
    | with_reducible assumption | with_reducible apply State.takeTrust_within | with_reducible apply State.Within.foldl | (intro)
    | with_reducible apply State.Within.ite | split | dsimp only | with_reducible apply State.Within.base | exact le_rfl | exact Nat.zero_lt_two

theorem State.bootTest_within {z s : State} (hz : z.Within 0 s) (sense : BootSense) :
    z.Within 0 (State.bootTest s sense) := by
  unfold State.bootTest
  try dsimp only
  repeat' first
    | with_reducible assumption | with_reducible apply State.Within.foldl | (intro) | with_reducible apply State.Within.ite | split | dsimp only
    | with_reducible apply State.Within.base | exact le_rfl

theorem State.bootEnd_within {z s : State} (hz : z.Within 0 s)  :
    z.Within 0 (State.bootEnd s) := by
  unfold State.bootEnd
  try dsimp only
  repeat' first
    | with_reducible assumption | with_reducible apply State.Within.foldl | (intro) | with_reducible apply State.Within.ite | split | dsimp only
    | with_reducible apply State.Within.base | exact le_rfl

theorem State.bootTime_within {z s : State} (hz : z.Within 0 s) (peer : Option W64) :
    z.Within 0 (State.bootTime s peer) := by
  unfold State.bootTime
  try dsimp only
  repeat' first
    | with_reducible assumption | with_reducible apply State.Within.foldl | (intro) | with_reducible apply State.Within.ite | split | dsimp only
    | with_reducible apply State.Within.base | exact le_rfl

theorem State.bootPorts_within {z s : State} (hz : z.Within 0 s)  :
    z.Within 0 (State.bootPorts s) := by
  unfold State.bootPorts
  try dsimp only
  repeat' first
    | with_reducible assumption | with_reducible apply State.readPanel_within | with_reducible apply State.Within.foldl | (intro)
    | with_reducible apply State.Within.ite

theorem execBootReady_within {z s t : State} {sense : BootSense} (hz : z.Within 0 s) (hx : execBootReady sense s = .next t) : z.Within 0 t := by
  unfold execBootReady at hx
  refine unlessInert_within hz (fun s hz => ?_) hx
  try dsimp only
  repeat' first
    | with_reducible assumption | with_reducible refine State.bootImage_out ?_ (by with_reducible assumption)
    | with_reducible apply State.recover_within | with_reducible apply State.bootAdvance_within | with_reducible apply State.bootConfig_within
    | with_reducible apply State.bootTest_within | with_reducible apply State.bootEnd_within | with_reducible apply State.bootTime_within
    | with_reducible apply State.bootPorts_within | with_reducible apply State.Within.foldl | (intro) | with_reducible apply State.Within.ite
    | split | dsimp only | with_reducible apply State.Within.base | exact le_rfl

theorem State.trackCool_within {lv : ℕ} {z s : State} (hz : z.Within lv s) (tj : ℕ) :
    z.Within lv (State.trackCool s tj) := by
  unfold State.trackCool
  try dsimp only
  repeat' first
    | with_reducible assumption | with_reducible apply State.Within.foldl | (intro) | with_reducible apply State.Within.ite | split | dsimp only
    | with_reducible apply State.Within.upd | with_reducible apply State.Within.pow | exact le_rfl

theorem State.serveStages_within {lv : ℕ} {z s : State} (hz : z.Within lv s) (tj : ℕ) :
    z.Within lv (State.serveStages s tj) := by
  unfold State.serveStages
  try dsimp only
  repeat' first
    | with_reducible assumption | with_reducible apply State.Within.foldl | (intro) | with_reducible apply State.Within.ite | split | dsimp only
    | with_reducible apply State.Within.upd | with_reducible apply State.Within.pow | exact le_rfl

theorem State.accrueBoost_within {lv : ℕ} {z s : State} (h : z.Within lv s) (temps : List (BitVec 12)) : z.Within lv (s.accrueBoost temps) := by
  unfold State.accrueBoost
  refine State.Within.foldl _ _ (fun s d k => ?_) h
  dsimp only
  split
  · have j := State.setDomain_within k d { s.domain d with boost := (s.domain d).boost + boostWeight (dieTj temps (d / 8)) }
    split
    · rename_i q
      exact j.pow (g := bits_advance _ q.2) ..
    · exact j.pow (g := le_rfl) ..
  · exact k

theorem execThermalSample_within {lv : ℕ} {z s t : State} {temps : List (BitVec 12)} {now : W64} (hz : z.Within lv s) (hx : execThermalSample temps
    now s = .next t) : z.Within lv t := by
  unfold execThermalSample at hx
  refine unlessInert_within hz (fun s hz => ?_) hx
  try dsimp only
  repeat' first
    | with_reducible assumption | with_reducible apply State.at_within | with_reducible apply State.trackCool_within
    | with_reducible apply State.serveStages_within | with_reducible apply State.accrueBoost_within | with_reducible apply State.Within.foldl
    | (intro) | with_reducible apply State.Within.ite | split | dsimp only | with_reducible apply State.Within.upd
    | with_reducible apply State.Within.pow | exact le_rfl

theorem State.setLite_within {lv : ℕ} {z s : State} (hz : z.Within lv s) (c : ℕ) (lite : Bool) :
    z.Within lv (State.setLite s c lite) := by
  unfold State.setLite
  try dsimp only
  repeat' first
    | with_reducible assumption | with_reducible apply State.setStream_within

theorem State.reportSet_within {lv : ℕ} {z s : State} (hz : z.Within lv s) (c : ℕ) :
    z.Within lv (State.reportSet s c) := by
  unfold State.reportSet
  try dsimp only
  repeat' first
    | with_reducible assumption | with_reducible apply State.reportAdmission_within | with_reducible apply State.Within.foldl | (intro)
    | with_reducible apply State.Within.ite | split

theorem State.toLite_within {lv : ℕ} {z s : State} (hz : z.Within lv s) (c : ℕ) :
    z.Within lv (State.toLite s c) := by
  unfold State.toLite
  try dsimp only
  repeat' first
    | with_reducible assumption | with_reducible apply State.setLite_within | with_reducible apply State.reportSet_within
    | with_reducible apply State.Within.foldl | (intro) | with_reducible apply State.Within.ite | split | dsimp only
    | with_reducible apply State.Within.upd | with_reducible apply State.Within.pow | exact le_rfl

theorem State.fromLite_within {lv : ℕ} {z s : State} (hz : z.Within lv s)  :
    z.Within lv (State.fromLite s) := by
  unfold State.fromLite
  try dsimp only
  repeat' first
    | with_reducible assumption | with_reducible apply State.setLite_within | with_reducible apply State.reportSet_within
    | with_reducible apply State.Within.foldl | (intro) | with_reducible apply State.Within.ite | split | dsimp only
    | with_reducible apply State.Within.upd | with_reducible apply State.Within.pow | exact le_rfl

theorem execLiteSwitch_within {lv : ℕ} {z s t : State} {now : W64} (hz : z.Within lv s) (hx : execLiteSwitch now s = .next t) : z.Within lv t := by
  unfold execLiteSwitch at hx
  refine unlessInert_within hz (fun s hz => ?_) hx
  try dsimp only
  repeat' first
    | with_reducible assumption | with_reducible apply State.at_within | with_reducible apply State.toLite_within
    | with_reducible apply State.fromLite_within | with_reducible apply State.Within.foldl | (intro) | with_reducible apply State.Within.ite
    | split | dsimp only | with_reducible apply State.Within.upd | with_reducible apply State.Within.pow | exact le_rfl

theorem State.quietFrames_within {lv : ℕ} {z s : State} (hz : z.Within lv s) (c : ℕ) :
    z.Within lv (State.quietFrames s c) := by
  unfold State.quietFrames
  try dsimp only
  repeat' first
    | with_reducible assumption | with_reducible apply State.modFrame_within | with_reducible apply State.abortFrame_within
    | with_reducible apply State.Within.foldl | (intro)

theorem State.gateQuiet_within {lv : ℕ} {z s : State} (hz : z.Within lv s)  :
    z.Within lv (State.gateQuiet s) := by
  unfold State.gateQuiet
  try dsimp only
  repeat' first
    | with_reducible assumption | with_reducible apply State.gate_within | with_reducible apply State.Within.foldl | (intro)
    | with_reducible apply State.Within.ite

theorem execPassThrough_within {lv : ℕ} {z s t : State} {out : OutId} {now : W64} (hz : z.Within lv s) (hx : execPassThrough out now s = .next t) :
    z.Within lv t := by
  unfold execPassThrough at hx
  refine unlessInert_within hz (fun s hz => ?_) hx
  try dsimp only
  repeat' first
    | with_reducible assumption | with_reducible apply State.setComp_within | with_reducible apply State.at_within
    | with_reducible apply State.devEvent_within | with_reducible apply State.yieldFrond_within | with_reducible apply State.quietFrames_within
    | with_reducible apply State.gateQuiet_within | with_reducible apply State.Within.foldl | (intro) | with_reducible apply State.Within.ite
    | split | dsimp only | with_reducible apply State.Within.upd

theorem execPassThroughExit_within {lv : ℕ} {z s t : State} {now : W64} (hz : z.Within lv s) (hx : execPassThroughExit now s = .next t) : z.Within
    lv t := by
  unfold execPassThroughExit at hx
  refine unlessInert_within hz (fun s hz => ?_) hx
  try dsimp only
  repeat' first
    | with_reducible assumption | with_reducible apply State.setComp_within | with_reducible apply State.at_within
    | with_reducible apply State.wakeSet_within | with_reducible apply State.toLite_within | with_reducible apply State.Within.foldl | (intro)
    | with_reducible apply State.Within.ite | split | dsimp only | with_reducible apply State.Within.upd | with_reducible apply State.Within.pow
    | exact le_rfl

theorem execThermTrip_within {lv : ℕ} (hlv : lv < 2) {z s t : State} (hz : z.Within lv s) (hx : execThermTrip s = .next t) : z.Within lv t := by
  unfold execThermTrip at hx
  refine unlessInert_within hz (fun s hz => ?_) hx
  try dsimp only
  repeat' first
    | with_reducible assumption | with_reducible apply State.setPort_within | with_reducible apply State.Within.foldl | (intro)
    | with_reducible apply State.Within.ite | split | dsimp only | with_reducible apply State.Within.part | exact le_rfl

theorem execPowerSample_within {lv : ℕ} {z s t : State} {watts : BitVec 12} {now : W64} (hz : z.Within lv s) (hx : execPowerSample watts now s =
    .next t) : z.Within lv t := by
  unfold execPowerSample at hx
  refine unlessInert_within hz (fun s hz => ?_) hx
  try dsimp only
  repeat' first
    | with_reducible assumption | with_reducible apply State.at_within | with_reducible refine State.draw_out ?_ (by with_reducible assumption)
    | with_reducible apply State.draw_within | with_reducible apply State.take_within | with_reducible apply State.Within.foldl | (intro)
    | with_reducible apply State.Within.ite | split | dsimp only | with_reducible apply State.Within.upd | with_reducible apply State.Within.pow
    | exact le_rfl

theorem execSupplyDroop_within {lv : ℕ} {z s t : State} {domains : W32} (hz : z.Within lv s) (hx : execSupplyDroop domains s = .next t) : z.Within
    lv t := by
  unfold execSupplyDroop at hx
  refine unlessInert_within hz (fun s hz => ?_) hx
  try dsimp only
  repeat' first
    | with_reducible assumption | with_reducible apply State.setDomain_within | with_reducible apply State.meterDomain_within
    | with_reducible apply State.Within.foldl | (intro) | with_reducible apply State.Within.ite | split | dsimp only
    | with_reducible apply State.Within.upd | with_reducible apply State.Within.pow | exact le_rfl

theorem execSupplyRecovery_within {lv : ℕ} {z s t : State} (hz : z.Within lv s) (hx : execSupplyRecovery s = .next t) : z.Within lv t := by
  unfold execSupplyRecovery at hx
  refine unlessInert_within hz (fun s hz => ?_) hx
  try dsimp only
  repeat' first
    | with_reducible assumption | with_reducible apply State.setDomain_within | with_reducible apply State.meterDomain_within
    | with_reducible apply State.Within.foldl | (intro)

theorem execClockPlanChange_within {lv : ℕ} {z s t : State} {domain : Fin 32} (hz : z.Within lv s) (hx : execClockPlanChange domain s = .next t) :
    z.Within lv t := by
  unfold execClockPlanChange at hx
  refine unlessInert_within hz (fun s hz => ?_) hx
  try dsimp only
  repeat' first
    | with_reducible assumption | with_reducible apply State.takePlan_within | with_reducible apply State.Within.foldl | (intro)
    | with_reducible apply State.Within.ite

theorem execClockGate_within {lv : ℕ} {z s t : State} {domain : Fin 32} (hz : z.Within lv s) (hx : execClockGate domain s = .next t) : z.Within lv t
    := by
  unfold execClockGate at hx
  refine unlessInert_within hz (fun s hz => ?_) hx
  try dsimp only
  repeat' first
    | with_reducible assumption | with_reducible apply State.gate_within | with_reducible apply State.Within.foldl | (intro)
    | with_reducible apply State.Within.ite

theorem execBoostSpent_within {lv : ℕ} (hlv : lv < 2) {z s t : State} {now : W64} (hz : z.Within lv s) (hx : execBoostSpent now s = .next t) :
    z.Within lv t := by
  unfold execBoostSpent at hx
  refine unlessInert_within hz (fun s hz => ?_) hx
  try dsimp only
  repeat' first
    | with_reducible assumption | with_reducible apply State.at_within | with_reducible apply State.devEvent_within
    | with_reducible apply State.Within.foldl | (intro) | with_reducible apply State.Within.ite | split | dsimp only
    | with_reducible apply State.Within.part | exact le_rfl

theorem execHbmModeWriteComplete_within {lv : ℕ} (hlv : lv < 2) {z s t : State} {stack : Fin 4} (hz : z.Within lv s) (hx : execHbmModeWriteComplete
    stack s = .next t) : z.Within lv t := by
  unfold execHbmModeWriteComplete at hx
  refine unlessInert_within hz (fun s hz => ?_) hx
  try dsimp only
  repeat' first
    | with_reducible assumption | with_reducible apply State.setHbmc_within

theorem State.latchHigh_within {lv : ℕ} (hlv : lv < 2) {z s : State} (hz : z.Within lv s) (sup : Bool) (r : Reg) :
    z.Within lv (State.latchHigh s sup r) := by
  unfold State.latchHigh
  try dsimp only
  repeat' first
    | with_reducible assumption | with_reducible apply State.Within.foldl | (intro) | with_reducible apply State.Within.ite | split | dsimp only
    | with_reducible apply State.Within.part | exact le_rfl

theorem State.readWord_within {lv : ℕ} (hlv : lv < 2) {z s : State} (hz : z.Within lv s) (sup : Bool) (a : ℕ) :
    z.Within lv (State.readWord s sup a).2 := by
  unfold State.readWord
  try dsimp only
  repeat' first
    | with_reducible assumption | with_reducible apply State.latchHigh_within | with_reducible apply State.Within.foldl | (intro)
    | with_reducible apply State.Within.ite | split

theorem State.readWord_out {lv : ℕ} (hlv : lv < 2) {z s t : State} {sup : Bool} {a : ℕ} {a0 : W32}
    (hz : z.Within lv s) (e : State.readWord s sup a = (a0, t)) : z.Within lv t := by
  have g := State.readWord_within hlv hz sup a
  rw [e] at g
  exact g

theorem State.barRead_within {lv : ℕ} (hlv : lv < 2) {z s : State} (hz : z.Within lv s) (sup : Bool) (a n : ℕ) : z.Within lv (s.barRead sup a n).2
    := by
  unfold State.barRead
  exact State.Within.fold (fun a : List Byte × State => a.2) _ _ _ (fun a i k => State.readWord_within hlv k _ _) hz

theorem execLowWordRead_within {lv : ℕ} (hlv : lv < 2) {z s t : State} {req : Requester} {span : ReadSpan} (hz : z.Within lv s)
    (hx : execLowWordRead req span s = .next t) : z.Within lv t := by
  unfold execLowWordRead at hx
  refine unlessInert_within hz (fun s hz => ?_) hx
  try dsimp only
  repeat' first
    | with_reducible assumption | with_reducible apply State.barRead_within | with_reducible apply State.Within.foldl | (intro)
    | with_reducible apply State.Within.ite | split | dsimp only | with_reducible apply State.Within.part | exact le_rfl

theorem State.lockWrite_within {lv : ℕ} (hlv : lv < 2) {z s : State} (h : z.Within lv s) (sup : Bool) (value : W32) :
    z.Within lv (s.lockWrite sup value) := by
  refine h.trans ⟨rfl, id, le_rfl, le_rfl, id, fun _ => id, fun _ _ => .inr ⟨le_rfl, rfl, ?_⟩, fun k => absurd k (by omega)⟩
  unfold State.lockWrite
  ext i hi
  simp only [BitVec.getElem_and, BitVec.getElem_or]
  cases s.locks[i] <;> simp

theorem execDevLockWrite_within {lv : ℕ} (hlv : lv < 2) {z s t : State} {req : Requester} {value : W32} (hz : z.Within lv s) (hx : execDevLockWrite
    req value s = .next t) : z.Within lv t := by
  unfold execDevLockWrite at hx
  refine unlessInert_within hz (fun s hz => ?_) hx
  try dsimp only
  repeat' first
    | with_reducible assumption | with_reducible apply State.lockWrite_within

theorem State.enableBit_within {lv : ℕ} (hlv : lv < 2) {z s : State} (hz : z.Within lv s) (f : ℕ) (b : Bool) :
    z.Within lv (State.enableBit s f b) := by
  unfold State.enableBit
  try dsimp only
  repeat' first
    | with_reducible assumption | with_reducible apply State.Within.foldl | (intro) | with_reducible apply State.Within.ite | split | dsimp only
    | with_reducible apply State.Within.part | exact le_rfl

theorem State.powerBit_within {lv : ℕ} (hlv : lv < 2) {z s : State} (hz : z.Within lv s) (f : ℕ) (b : Bool) :
    z.Within lv (State.powerBit s f b) := by
  unfold State.powerBit
  try dsimp only
  repeat' first
    | with_reducible assumption | with_reducible apply State.setFrond_within | with_reducible apply State.Within.foldl | (intro)
    | with_reducible apply State.Within.ite | split | dsimp only | with_reducible apply State.Within.part | exact le_rfl

theorem State.mapWrite_within {lv : ℕ} (hlv : lv < 2) {z s : State} (h : z.Within lv s) (write : State → ℕ → Bool → State) (word : ℕ) (value mask :
    W32)
    (g : ∀ s f b, z.Within lv s → z.Within lv (write s f b)) : z.Within lv (s.mapWrite write word value mask) := by
  unfold State.mapWrite
  apply State.Within.foldl
  · intro s x k
    exact g _ _ _ k
  · exact h

theorem execFrondEnableWrite_within {lv : ℕ} (hlv : lv < 2) {z s t : State} {word : Fin 8} {value : W32} (hz : z.Within lv s) (hx :
    execFrondEnableWrite word value s = .next t) : z.Within lv t := by
  unfold execFrondEnableWrite at hx
  exact unlessInert_within hz (fun s hz => State.mapWrite_within hlv hz _ _ _ _ fun s f b k => State.enableBit_within hlv k f b) hx

theorem execFrondPowerWrite_within {lv : ℕ} (hlv : lv < 2) {z s t : State} {word : Fin 8} {value : W32} (hz : z.Within lv s) (hx :
    execFrondPowerWrite word value s = .next t) : z.Within lv t := by
  unfold execFrondPowerWrite at hx
  exact unlessInert_within hz (fun s hz => State.mapWrite_within hlv hz _ _ _ _ fun s f b k => State.powerBit_within hlv k f b) hx

theorem execFrondPowerDone_within {lv : ℕ} {z s t : State} {f : FrondId} (hz : z.Within lv s) (hx : execFrondPowerDone f s = .next t) : z.Within lv
    t := by
  unfold execFrondPowerDone at hx
  refine unlessInert_within hz (fun s hz => ?_) hx
  try dsimp only
  repeat' first
    | with_reducible assumption | with_reducible apply State.setFrond_within | with_reducible apply State.Within.foldl | (intro)
    | with_reducible apply State.Within.ite | split

theorem State.devWrite_within {lv : ℕ} (hlv : lv < 2) {z s : State} (hz : z.Within lv s) (sup : Bool) (o : ℕ) (v : W32) (mask : W32) :
    z.Within lv (State.devWrite s sup o v mask) := by
  unfold State.devWrite
  try dsimp only
  repeat' first
    | with_reducible assumption | with_reducible apply State.resetWrite_within | with_reducible apply State.lockWrite_within
    | with_reducible apply State.enableBit_within | with_reducible apply State.powerBit_within | with_reducible apply State.mapWrite_within
    | with_reducible apply State.Within.foldl | (intro) | with_reducible apply State.Within.ite | split | dsimp only
    | with_reducible apply State.Within.part | exact le_rfl

theorem State.aliasWrite_within {lv : ℕ} (hlv : lv < 2) {z s : State} (hz : z.Within lv s) (o : ℕ) (v : W32) (mask : W32) :
    z.Within lv (State.aliasWrite s o v mask) := by
  unfold State.aliasWrite
  try dsimp only
  repeat' first
    | with_reducible assumption | with_reducible apply State.enableBit_within | with_reducible apply State.powerBit_within
    | with_reducible apply State.Within.foldl | (intro) | with_reducible apply State.Within.ite

theorem State.hifCtlWrite_within {lv : ℕ} {z s : State} (hz : z.Within lv s) (v : W32) :
    z.Within lv (State.hifCtlWrite s v) := by
  unfold State.hifCtlWrite
  try dsimp only
  repeat' first
    | with_reducible assumption | with_reducible refine State.draw_out ?_ (by with_reducible assumption) | with_reducible apply State.draw_within
    | with_reducible apply State.devEvent_within | with_reducible apply State.Within.foldl | (intro) | with_reducible apply State.Within.ite
    | split | dsimp only | with_reducible apply State.Within.upd

theorem State.msixWrite_within {lv : ℕ} {z s : State} (hz : z.Within lv s) (i : ℕ) (v : W32) :
    z.Within lv (State.msixWrite s i v) := by
  unfold State.msixWrite
  try dsimp only
  repeat' first
    | with_reducible assumption | with_reducible apply State.Within.foldl | (intro) | with_reducible apply State.Within.ite | split | dsimp only
    | with_reducible apply State.Within.upd

theorem State.hifWrite_within {lv : ℕ} {z s : State} (hz : z.Within lv s) (o : ℕ) (v : W32) :
    z.Within lv (State.hifWrite s o v) := by
  unfold State.hifWrite
  try dsimp only
  repeat' first
    | with_reducible assumption | with_reducible apply State.setSq_within | with_reducible apply State.setCq_within
    | with_reducible apply State.sqCfgWrite_within | with_reducible apply State.cqCfgWrite_within | with_reducible apply State.hifCtlWrite_within
    | with_reducible apply State.msixWrite_within | with_reducible apply State.Within.foldl | (intro) | with_reducible apply State.Within.ite
    | split | dsimp only | with_reducible apply State.Within.upd

theorem State.svcWrite_within {lv : ℕ} (hlv : lv < 2) {z s : State} (hz : z.Within lv s) (sup : Bool) (o : ℕ) (v : W32) (mask : W32) :
    z.Within lv (State.svcWrite s sup o v mask) := by
  unfold State.svcWrite
  try dsimp only
  repeat' first
    | with_reducible assumption | with_reducible apply State.mbCmdWrite_within | with_reducible apply State.Within.foldl | (intro)
    | with_reducible apply State.Within.ite | split | dsimp only | with_reducible apply State.Within.part | exact le_rfl

theorem State.lschWrite_within {lv : ℕ} (hlv : lv < 2) {z s : State} (hz : z.Within lv s) (sup : Bool) (o : ℕ) (v : W32) :
    z.Within lv (State.lschWrite s sup o v) := by
  unfold State.lschWrite
  try dsimp only
  repeat' first
    | with_reducible assumption | with_reducible apply State.setOut_within | with_reducible apply State.setRow_within
    | with_reducible apply State.lsCtlWrite_within | with_reducible apply State.outCfgWrite_within | with_reducible apply State.mapWrite_within
    | with_reducible apply State.Within.foldl | (intro) | with_reducible apply State.Within.ite | split | dsimp only
    | with_reducible apply State.Within.part | exact le_rfl

theorem State.lidWrite_within {lv : ℕ} (hlv : lv < 2) {z s : State} (hz : z.Within lv s) (n : ℕ) (write : Comp → Comp) :
    z.Within lv (State.lidWrite s n write) := by
  unfold State.lidWrite
  try dsimp only
  repeat' first
    | with_reducible assumption | with_reducible apply State.setComp_within | with_reducible apply State.Within.foldl | (intro)
    | with_reducible apply State.Within.ite | split | dsimp only | with_reducible apply State.Within.part | exact le_rfl

theorem State.compTgWrite_within {lv : ℕ} (hlv : lv < 2) {z s : State} (hz : z.Within lv s) (sup : Bool) (o : ℕ) (v : W32) :
    z.Within lv (State.compTgWrite s sup o v) := by
  unfold State.compTgWrite
  try dsimp only
  repeat' first
    | with_reducible assumption | with_reducible apply State.setComp_within | with_reducible apply State.setTg_within
    | with_reducible apply State.timReject_within | with_reducible apply State.tgCtlWrite_within | with_reducible apply State.lidWrite_within
    | with_reducible apply State.Within.foldl | (intro) | with_reducible apply State.Within.ite

theorem State.dptxWrite_within {lv : ℕ} (hlv : lv < 2) {z s : State} (hz : z.Within lv s) (n : ℕ) (o : ℕ) (v : W32) :
    z.Within lv (State.dptxWrite s n o v) := by
  unfold State.dptxWrite
  try dsimp only
  repeat' first
    | with_reducible assumption | with_reducible apply State.setPort_within | with_reducible apply State.dptxCtlWrite_within
    | with_reducible apply State.auxWrite_within | with_reducible apply State.Within.foldl | (intro) | with_reducible apply State.Within.ite
    | split | dsimp only | with_reducible apply State.Within.part | exact le_rfl

theorem State.portsWrite_within {lv : ℕ} (hlv : lv < 2) {z s : State} (hz : z.Within lv s) (o : ℕ) (v : W32) :
    z.Within lv (State.portsWrite s o v) := by
  unfold State.portsWrite
  try dsimp only
  repeat' first
    | with_reducible assumption | with_reducible apply State.setRx_within | with_reducible apply State.panelCtlWrite_within
    | with_reducible apply State.dptxWrite_within | with_reducible apply State.Within.foldl | (intro) | with_reducible apply State.Within.ite
    | split | dsimp only | with_reducible apply State.Within.part | exact le_rfl

theorem State.lwlWrite_within {lv : ℕ} {z s : State} (hz : z.Within lv s) (sup : Bool) (o : ℕ) (v : W32) :
    z.Within lv (State.lwlWrite s sup o v) := by
  unfold State.lwlWrite
  try dsimp only
  repeat' first
    | with_reducible assumption | with_reducible apply State.setLink_within | with_reducible apply State.setHalo_within
    | with_reducible apply State.setTick_within | with_reducible apply State.lwlCtlWrite_within | with_reducible apply State.Within.foldl
    | (intro) | with_reducible apply State.Within.ite

theorem State.pwrWrite_within {lv : ℕ} (hlv : lv < 2) {z s : State} (hz : z.Within lv s) (o : ℕ) (v : W32) :
    z.Within lv (State.pwrWrite s o v) := by
  unfold State.pwrWrite
  try dsimp only
  repeat' first
    | with_reducible assumption | with_reducible apply State.setDomain_within | with_reducible apply State.Within.foldl | (intro)
    | with_reducible apply State.Within.ite | split | dsimp only | with_reducible apply State.Within.part | exact le_rfl

theorem State.hbmcWrite_within {lv : ℕ} (hlv : lv < 2) {z s : State} (hz : z.Within lv s) (n : ℕ) (w : ℕ) (v : W32) :
    z.Within lv (State.hbmcWrite s n w v) := by
  unfold State.hbmcWrite
  try dsimp only
  repeat' first
    | with_reducible assumption | with_reducible apply State.setHbmc_within | with_reducible apply State.Within.foldl | (intro)
    | with_reducible apply State.Within.ite

theorem State.hbmBlockWrite_within {lv : ℕ} (hlv : lv < 2) {z s : State} (hz : z.Within lv s) (o : ℕ) (v : W32) :
    z.Within lv (State.hbmBlockWrite s o v) := by
  unfold State.hbmBlockWrite
  try dsimp only
  repeat' first
    | with_reducible assumption | with_reducible apply State.setMover_within | with_reducible apply State.pwrWrite_within
    | with_reducible apply State.hbmcWrite_within | with_reducible apply State.Within.foldl | (intro) | with_reducible apply State.Within.ite

theorem State.pmonWrite_within {lv : ℕ} {z s : State} (hz : z.Within lv s) (o : ℕ) (v : W32) (mask : W32) :
    z.Within lv (State.pmonWrite s o v mask) := by
  unfold State.pmonWrite
  try dsimp only
  repeat' first
    | with_reducible assumption | with_reducible apply State.setUnit_within | with_reducible apply State.smpCtlWrite_within
    | with_reducible apply State.Within.foldl | (intro) | with_reducible apply State.Within.ite | split | dsimp only
    | with_reducible apply State.Within.upd

theorem State.ldlWrite_within {lv : ℕ} {z s : State} (hz : z.Within lv s) (o : ℕ) (v : W32) :
    z.Within lv (State.ldlWrite s o v) := by
  unfold State.ldlWrite
  try dsimp only
  repeat' first
    | with_reducible assumption | with_reducible apply State.ldlCtlWrite_within | with_reducible apply State.Within.foldl | (intro)
    | with_reducible apply State.Within.ite | split | dsimp only | with_reducible apply State.Within.upd

theorem State.pwuXspiWrite_within {lv : ℕ} (hlv : lv < 2) {z s : State} (hz : z.Within lv s) (o : ℕ) (v : W32) :
    z.Within lv (State.pwuXspiWrite s o v) := by
  unfold State.pwuXspiWrite
  try dsimp only
  repeat' first
    | with_reducible assumption | with_reducible apply State.setWear_within | with_reducible apply State.xspiWrite_within
    | with_reducible apply State.Within.foldl | (intro) | with_reducible apply State.Within.ite

theorem State.windowWrite_within {lv : ℕ} {z s : State} (hz : z.Within lv s) (sup : Bool) (f : ℕ) (o : ℕ) (v : W32) :
    z.Within lv (State.windowWrite s sup f o v) := by
  unfold State.windowWrite
  try dsimp only
  repeat' first
    | with_reducible assumption | with_reducible apply State.setFrond_within | with_reducible apply State.setRow_within
    | with_reducible apply State.tspSegWrite_within | with_reducible apply State.tspCfgWrite_within | with_reducible apply State.Within.foldl
    | (intro) | with_reducible apply State.Within.ite

theorem State.ringPair_within {lv : ℕ} {z s : State} (hz : z.Within lv s) (o : ℕ) (v : W64) :
    z.Within lv (State.ringPair s o v) := by
  unfold State.ringPair
  try dsimp only
  repeat' first
    | with_reducible assumption | with_reducible apply State.setSq_within | with_reducible apply State.setCq_within
    | with_reducible apply State.Within.foldl | (intro) | with_reducible apply State.Within.ite

theorem State.pairWrite_within {lv : ℕ} (hlv : lv < 2) {z s : State} (hz : z.Within lv s) (r : Reg) (v : W64) :
    z.Within lv (State.pairWrite s r v) := by
  unfold State.pairWrite
  try dsimp only
  repeat' first
    | with_reducible assumption | with_reducible apply State.setFrond_within | with_reducible apply State.setHalo_within
    | with_reducible apply State.lidWrite_within | with_reducible apply State.ringPair_within | with_reducible apply State.Within.foldl | (intro)
    | with_reducible apply State.Within.ite | split | dsimp only | with_reducible apply State.Within.part | exact le_rfl

theorem State.regWrite_within {lv : ℕ} (hlv : lv < 2) {z s : State} (hz : z.Within lv s) (sup : Bool) (r : Reg) (v : W32) (mask : W32) :
    z.Within lv (State.regWrite s sup r v mask) := by
  unfold State.regWrite
  try dsimp only
  repeat' first
    | with_reducible assumption | with_reducible apply State.devWrite_within | with_reducible apply State.aliasWrite_within
    | with_reducible apply State.hifWrite_within | with_reducible apply State.svcWrite_within | with_reducible apply State.lschWrite_within
    | with_reducible apply State.compTgWrite_within | with_reducible apply State.portsWrite_within | with_reducible apply State.lwlWrite_within
    | with_reducible apply State.hbmBlockWrite_within | with_reducible apply State.pmonWrite_within | with_reducible apply State.ldlWrite_within
    | with_reducible apply State.pwuXspiWrite_within | with_reducible apply State.windowWrite_within | with_reducible apply State.Within.foldl
    | (intro) | with_reducible apply State.Within.ite | split

theorem State.regAccess_within {lv : ℕ} (hlv : lv < 2) {z s : State} (hz : z.Within lv s) (sup : Bool) (r : Reg) (v : W32) (mask : W32) :
    z.Within lv (State.regAccess s sup r v mask) := by
  unfold State.regAccess
  try dsimp only
  repeat' first
    | with_reducible assumption | with_reducible apply State.pairWrite_within | with_reducible apply State.regWrite_within
    | with_reducible apply State.Within.foldl | (intro) | with_reducible apply State.Within.ite | split | dsimp only
    | with_reducible apply State.Within.part | exact le_rfl

theorem State.holeWrite_within {lv : ℕ} (hlv : lv < 2) {z s : State} (hz : z.Within lv s) (sup : Bool) (a : ℕ) (v : W32) (mask : W32) :
    z.Within lv (State.holeWrite s sup a v mask) := by
  unfold State.holeWrite
  try dsimp only
  repeat' first
    | with_reducible assumption | with_reducible apply State.Within.foldl | (intro) | with_reducible apply State.Within.ite | split | dsimp only
    | with_reducible apply State.Within.part | exact le_rfl

theorem State.barWrite_within {lv : ℕ} (hlv : lv < 2) {z s : State} (hz : z.Within lv s) (sup : Bool) (a : ℕ) (l : List Byte) :
    z.Within lv (State.barWrite s sup a l) := by
  unfold State.barWrite
  try dsimp only
  repeat' first
    | with_reducible assumption | with_reducible apply State.regAccess_within | with_reducible apply State.holeWrite_within
    | with_reducible apply State.Within.foldl | (intro) | with_reducible apply State.Within.ite | split

theorem execRegisterWrite_within {lv : ℕ} (hlv : lv < 2) {z s t : State} {req : Requester} {addr : BitVec 26} {data : List Byte} (hz : z.Within lv
    s) (hx : execRegisterWrite req addr data s = .next t) : z.Within lv t := by
  unfold execRegisterWrite at hx
  refine unlessInert_within hz (fun s hz => ?_) hx
  try dsimp only
  repeat' first
    | with_reducible assumption | with_reducible apply State.barWrite_within

end Sys2Proof.Machine
end

