-- ==== Sys2Proof/WellFormed.lean ====
section
/-! DEFINITION. Which commands are well formed: the bounds on operands that their types do not state. -/

namespace Sys2Proof

/-- Sensed training results keep to the codes of Tables 12.6 and 12.7. -/
def TrainSense.wf (t : TrainSense) : Bool := [t.one, t.two, t.four].all (fun r => (r.map (fun k => decide (k.toNat ≤ 6))).getD true)

/-- A captured frame has 8 to 16 bits per component (R342). -/
def CapturedFrame.wf (c : CapturedFrame) : Bool := decide (8 ≤ c.bits) && decide (c.bits ≤ 16)

/-- The bounds a command keeps. -/
def Instr.wf : Instr → Bool
  | .bar4Access write _ data => !write || !data.isEmpty
  | .lineQueueArrival sec => !sec.plane0.isEmpty
  | .dpLinkTraining _ sense _ => sense.wf
  | .captureFrame _ _ c => c.wf
  | .auxReply _ _ data => decide (data.length ≤ 16)
  | .dprxAuxRequest _ write _ data count => if write then decide (data.length ≤ 16) else decide (count.toNat ≤ 16)
  | .thermalSample temps _ => !temps.isEmpty
  | .registerWrite _ _ data => !data.isEmpty
  | .lowWordRead _ span => decide (0 < span.len.toNat)
  | .remoteHbmRequest _ kind _ data => decide (kind = .read) || !data.isEmpty
  | _ => true

end Sys2Proof
end

