-- ==== Sys2Proof/Tests/Slice0.lean ====
section
/-! SUPPORT. Tests: ill-formed commands are refused by the well-formedness checks; values of the spec's worked examples and tables; and, for each
statement, a state and operands that meet its hypotheses (the theorems named witness_…). -/

namespace Sys2Proof.Tests

set_option Elab.async false

open Sys2Proof Sys2Proof.Machine

/-! ### Ill-formed commands, one for each check -/

theorem test_illformed_bar4 : (Instr.bar4Access true 0 []).wf = false := by decide
theorem test_illformed_section : (Instr.lineQueueArrival { ctx := 0, frame := 0, line := 0, rank := 0, col := 0, poisoned := false, plane0 := [], plane1 := [], plane2 := [] }).wf = false := by decide
theorem test_illformed_training : (Instr.dpLinkTraining 0 { one := some 7, two := none, four := none, openLanes := 0, laneRev := false, polInv := 0, auxInv := false } 0).wf = false := by decide
theorem test_illformed_capture : (Instr.captureFrame 0 0 { encoding := .rgb, bits := 7, comp0 := [], comp1 := [], comp2 := [] }).wf = false := by decide
theorem test_illformed_aux_reply : (Instr.auxReply 0 0 (List.replicate 17 0)).wf = false := by decide
theorem test_illformed_aux_request : (Instr.dprxAuxRequest 0 false 0x50 [] 17).wf = false := by decide
theorem test_illformed_thermal : (Instr.thermalSample [] 0).wf = false := by decide
theorem test_illformed_write : (Instr.registerWrite .host 0 []).wf = false := by decide
theorem test_illformed_read : (Instr.lowWordRead .host ⟨2, 0⟩).wf = false := by decide
theorem test_illformed_remote : (Instr.remoteHbmRequest 0 .write 0 []).wf = false := by decide
theorem test_illformed_remote_poisoned : (Instr.remoteHbmRequest 0 .poisonedWrite 0 []).wf = false := by decide
theorem test_wellformed_reset : Instr.perstN.wf = true := by decide

/-! ### Values of the spec's examples -/

/-- The check value of R516's CRC-32C for the string 123456789. -/
theorem test_crc32c_check_value : crc32c [0x31, 0x32, 0x33, 0x34, 0x35, 0x36, 0x37, 0x38, 0x39] = 0xE3069283 := by decide +kernel

/-- A pass of Table 04.10, INT8 by CB4. -/
def layerPass (last alloc : Bool) (acc : BitVec 3) (apat wpat : BitVec 6) (asrc wsrc : BitVec 2) (kp : BitVec 8) : MxuOp :=
  { last := last, ptmSwap := false, mx := false, apat := apat, wpat := wpat, asrc := asrc, wsrc := wsrc, acc := acc, alloc := alloc, afmt := 2
    wfmt := 14, kp := kp, aspat := 0, wspat := 0 }

/-- Table 04.10, rows 1, 2 and 10, and row 11. -/
theorem test_decode_pass_row_1 : decodeCmd 0 0 ⟨0x000A1110, 0x0E280144, 0x80, 0⟩ =
    some (.mxuPass 0 { sb := true, wen := true, wsem := 10, wcnt := 0 } (layerPass false true 0 4 5 0 0 128)) := by decide +kernel
theorem test_decode_pass_row_2 : decodeCmd 0 0 ⟨0x00000010, 0x0E294004, 0x80, 0⟩ =
    some (.mxuPass 0 {} (layerPass false true 1 4 0 0 1 128)) := by decide +kernel
theorem test_decode_pass_row_10 : decodeCmd 0 0 ⟨0x00000210, 0x0E214004, 0x40, 0⟩ =
    some (.mxuPass 0 {} (layerPass true false 1 4 0 0 1 64)) := by decide +kernel
theorem test_decode_drain_row_11 : decodeCmd 0 0 ⟨0x02C02020, 0x05120880, 0x4B, 0⟩ =
    some (.vuDrain 0 { sen := true, ssem := 11 }
      { keep := false, ieee := false, acc := 0, opat := 8, ofmt := 2, rnd := 0, spat := 9, bpat := 10, tfn := 0, cpat := 11, cpen := true }) := by decide +kernel

/-- Table 04.5: words written out from the layouts of Tables 04.3 to 04.5, and words that no command has. -/
theorem test_decode_nop : decodeCmd 3 0 ⟨0x00000000, 0, 0, 0⟩ = some (.seqNop 3 {}) := by decide +kernel
theorem test_decode_reserved : decodeCmd 3 0 ⟨0x000000FF, 0, 0, 0⟩ = none := by decide +kernel

/-- Table 14.12: the FRAME_SUBMIT of input frame 1,000. -/
def submitWords : List Nat :=
  [0x00000022, 0x000003E8, 0x80000000, 0x10, 0x80A8C000, 0x10, 0, 0, 0x1400, 0x1400, 0, 0x12C0, 0x12C0, 0x08700870, 0, 0]

theorem test_decode_frame_submit : decodeDesc 2 0x401 0 (submitWords.flatMap (toLe 4)) =
    some (.frameSubmit { sq := 2, idx := 0x401, barrier := false, irq := false, srcHbm := false, ctx := 0 }
      { frame := 1000, addr0 := 0x1080000000, addr1 := 0x1080A8C000, addr2 := 0, pitch0 := 5120, pitch1 := 5120, pitch2 := 0, run0 := 4800, runC := 4800
        lines0 := 2160, linesC := 2160, ext0 := 0, ext1 := 0, ext2 := 0, ext3 := 0 }) := by decide +kernel
theorem test_decode_reserved_descriptor : decodeDesc 2 0 0 (List.replicate 64 0xFF) = none := by decide +kernel

/-- ROW_MAP before and after the repair of Table 15.11, and after the loss that follows it. -/
theorem test_row_map_reset : ({} : DieRow).map = 0x00001000 := by decide +kernel
theorem test_row_map_shifted : ({ cols := [0, 1, 2, 3, 4, 6, 7, 8], failed := 0x020 } : DieRow).map = 0x00002A20 := by decide +kernel
theorem test_row_map_lost : ({ cols := [0, 1, 15, 3, 4, 6, 7, 8], failed := 0x024 } : DieRow).map = 0x00012A24 := by decide +kernel

/-- Table 06.9. -/
theorem test_round_int8 : (List.range 5).map (fun r => (roundTo 2 r false (.ofRat (73 / 2))).raw) = [36, 36, 37, 36, 37] := by decide +kernel
theorem test_round_int8_small : (List.range 5).map (fun r => let x := roundTo 2 r false (.ofRat (-1 / 4)); (x.raw, x.ufl)) =
    [(0, true), (0, true), (0, true), (0xFF, false), (0, true)] := by decide +kernel
theorem test_round_e4m3 : (List.range 5).map (fun r => ((roundTo 9 r false (.ofRat 464)).raw, (roundTo 9 r true (.ofRat 464)).raw)) =
    [(0x7E, 0x7E), (0x7E, 0x7E), (0x7E, 0x7F), (0x7E, 0x7E), (0x7E, 0x7F)] := by decide +kernel
theorem test_round_fp16 : (List.range 5).map (fun r => ((roundTo 11 r false (.ofRat (-70000))).raw, (roundTo 11 r true (.ofRat (-70000))).raw)) =
    [(0xFBFF, 0xFC00), (0xFBFF, 0xFBFF), (0xFBFF, 0xFBFF), (0xFBFF, 0xFC00), (0xFBFF, 0xFC00)] := by decide +kernel

/-- The caption of chapter 11: 1,662.488 steps of 2^-13 in FP16. -/
theorem test_caption_fp16 : (roundTo 11 0 false (.ofRat (1662488 / 8192000))).raw = 0x327E := by decide +kernel

/-- Chapter 12: UHBR20 on four lanes carries TG2's stream, UHBR13.5 does not; the raster of TG2 takes 143 granules. -/
def tg2 : Timing :=
  { hAct := 7680, hFp := 48, hSync := 32, hBp := 190, hPol := true, vAct := 4320, vFp := 8, vSync := 8, vBp := 108, vPol := true, khz := 2120000, bpc := 3 }
theorem test_link_carries : linkFits 6 4 0 2120000 12 = true ∧ linkFits 5 4 0 2120000 12 = false := by decide +kernel
theorem test_granules : tg2.granules = 143 ∧ tg2.hTotal = 7950 ∧ tg2.vMin = 4444 := by decide +kernel

/-- Table 12.8: the words written to TG2 give its timing. -/
theorem test_timing_words : [(0x10, 0x00301E00), (0x14, 0x80BE0020), (0x18, 0x000810E0), (0x1C, 0x806C0008), (0x20, 0x00205940), (0x24, 0x00000003)].foldl
    (fun (t : Timing) (p : Nat × W32) => t.write p.1 p.2) {} = tg2 := by decide +kernel

/-- The station logo of chapter 13: the gain N, and one step above it after a restore of the block value. -/
def logoPanel : PanelId :=
  { make := [], model := [], serial := [], hNative := 7680, vNative := 4320, headroom := 0x14000, stress := []
    decay := (List.replicate (2 * 65) 0x8000) ++ (List.range 65).map (fun k => if k = 11 then 0x7600 else if k = 12 then 0x7580 else 0x8000) }
theorem test_logo_gain : logoPanel.gainN 2 0x2D000000 = 71165 ∧ logoPanel.gainN 2 0x2D00FFFF = 71166 := by decide +kernel
theorem test_logo_stress_index : stressIndex 12 3770 = 235 := by decide

/-- Table 18.9: DEV_ID, the latched DTB, the AUX status, and the address formed in error for TG2. -/
theorem test_dev_id : (State.reset.readWord false 0).1 = 0x00B17780 := by decide +kernel
theorem test_dtb_latches : let s : State := { ({} : State) with dtb := 0x2FFFFFFF8 }
    (s.readWord false 0x14).1 = 0xFFFFFFF8 ∧ ((State.readWord { (s.readWord false 0x14).2 with dtb := 0x300000000 } false 0x18).1) = 2 := by decide +kernel
def previewSet : Bound := { image := {}, addr := 0, bytes := 0, sharedPin := false, pinned := 0, mask := BitVec.ofNat 256 (2 ^ 40) }
theorem test_alias_refused :
    (State.barWrite (({} : State).setCtx 0 { state := .running, bound := some previewSet }) false 0x20000A0 [0, 0, 0, 0]).mapRefused = true := by
  decide +kernel
theorem test_partial_decode : decodeReg 0x428100 = decodeReg 0x428000 ∧ (decodeReg 0x428000).isSome = true := by decide +kernel
theorem test_hole : decodeReg 0x1C = none := by decide +kernel

/-- R502: L is the first multiple of 16 ns at least 1 µs away. -/
theorem test_local_latch : localLatch 0 = 1008 ∧ localLatch 8 = 1008 ∧ localLatch 9 = 1024 := by decide +kernel

/-- Table 20.1, R493: the key of DEV_RESET. -/
theorem test_reset_key : (State.resetWrite { ({} : State) with ready := true } 0x5B000001).ready = true
    ∧ (State.resetWrite { ({} : State) with ready := true } 0x5A000001).ready = false := by decide +kernel

/-! ### Witnesses -/

/-- A device that has booted. -/
def base : State := { ({} : State) with ready := true, svc := { ({} : Svc) with booting := false } }

/-- A header on ring 0. -/
def hdr (ctx : BitVec 14) : DescHdr := { sq := 0, idx := 0, ctx := ctx }

/-- A descriptor in progress on ring 0, with spore slot 3. -/
def taken (c : Instr) : InFlight := { idx := 0, cmd := c, barrier := false, state := 1, slot := 3, done := none }

/-- A state with one descriptor of context ctx in progress, alone on ring 0. -/
def desk (s : State) : State := s.setSq 0 { inflight := [taken .perstN] }

/-- Such a descriptor is alone, whatever else the state holds. -/
theorem desk_sole (s : State) (ctx : BitVec 14) (ha : s.inert = false) (hf : s.hif.fences = []) (hc : (s.cq 0).held = 0) :
    (desk s).Sole (hdr ctx) 3 := by
  have e : (desk s).sq 0 = { inflight := [taken .perstN] } := State.setSq_sq s 0 _
  exact ⟨ha, ⟨taken .perstN, congrArg SubRing.inflight e, rfl, rfl, rfl⟩, congrArg SubRing.busy e, hf,
    (congrArg (fun r : SubRing => ((desk s).cq r.cq.toNat).held) e).trans hc⟩

theorem witness_step : ({ base with pending := [.holdover] } : State).pending = .holdover :: [] := rfl
theorem witness_awake : base.inert = false ∧ base.svc.booting = false ∧ (∃ t, exec .holdover base = .next t) ∧ reachesKept .holdover = false := ⟨rfl, rfl, ⟨_, rfl⟩, rfl⟩
theorem witness_inert : ({ base with inert := true } : State).inert = true ∧ ∀ strap, Instr.holdover ≠ .powerOnReset strap := ⟨rfl, by intro _ h; cases h⟩
theorem witness_idle : base.pending = [] ∧ base.dtbSlew = 0 ∧ base.dtbFrac.natAbs < 10000 := by decide +kernel
theorem witness_memOk : State.reset.memOk := ⟨rfl, rfl, rfl⟩
theorem witness_descriptor_waits : hdrOf (.nop { hdr 0 with idx := 1 }) = some { hdr 0 with idx := 1 }
    ∧ (base.setSq 0 { inflight := [taken .perstN, { taken .perstN with idx := 1, barrier := true }] }).mayStart { hdr 0 with idx := 1 } = false := by decide +kernel
theorem witness_sole : (desk base).Sole (hdr 0) 3 := desk_sole base 0 rfl rfl rfl

/-- FENCE of ring 1, with a descriptor taken before it still in progress there. -/
theorem witness_fence_waits : ∃ x ∈ ((desk base).setSq 1 { head := 1, inflight := [taken .perstN] }).sq 1 |>.inflight,
    x.done = none ∧ (x.idx - (((desk base).setSq 1 { head := 1, inflight := [taken .perstN] }).sq 1).head).toInt < 0 := ⟨taken .perstN, by decide +kernel, rfl, by decide +kernel⟩

/-- A live context image (Table 14.9): OUTPUT 0, three input slots, cadence 1:1. -/
def liveImage : List Byte := [0, 0, 0, 0, 3, 0, 0, 0, 0, 0, 1, 1] ++ List.replicate 244 0
/-- Memory holding l from address a. -/
def memAt (a : Nat) (l : List Byte) : Mem := ⟨l.zipIdx.map (fun p => (a + p.2, p.1))⟩
def image : State := { base with hbm := memAt 0x100000000 liveImage }

theorem witness_ctxOpen : let v := (desk image).start (hdr 0)
    let l := v.memRead false 0x100000000 256
    v.guarded 0x100000000 256 = false ∧ (v.ctx 0).state = .closed ∧ ctxImageOk (liveCtx 0) l = true ∧ v.ctxHbmOk (liveCtx 0) l = true := by decide +kernel
theorem witness_ctxOpen_update : let v := (desk (image.setCtx 0 { state := .opened })).start (hdr 0)
    ((v.ctx 0).state = .opened ∨ (v.ctx 0).state = .bound) ∧ (v.ctx 0).job = none ∧ v.absentIn 0x1000 256 = none := by decide +kernel
theorem witness_ctxClose : let s := desk (base.setCtx 0 { state := .opened })
    ((s.ctx 0).state = .opened ∨ (s.ctx 0).state = .bound) ∧ (s.ctx 0).job = none := by decide +kernel

/-- A simmer task image of one frond (Table 04.1): a pattern of zeros, one variant of one command, END. -/
def simmerImage : List Byte :=
  toLe 4 0x77807E11 ++ [1, 0, 1, 1, 0, 0, 0, 0, 1, 0, 0, 0] ++ toLe 4 0x100 ++ toLe 4 0x120 ++ toLe 4 0x120 ++ List.replicate 20 0 ++ toLe 4 512 ++ List.replicate 4 0 ++ [1, 0, 1, 0]
    ++ List.replicate 196 0 ++ List.replicate 32 0 ++ toLe 4 0 ++ toLe 4 0x140 ++ toLe 4 1 ++ toLe 4 0 ++ List.replicate 16 0 ++ toLe 4 0x101 ++ List.replicate 12 0

def simmerRead (o n : Nat) : List Byte := (simmerImage.drop o).take n
def simmerTask : TaskImage := match parseImage simmerRead 336 with
  | .ok t => t
  | .error _ => {}
theorem test_parse_image : parseImage simmerRead 336 = .ok simmerTask ∧ simmerTask.variants.length = 1 := by decide +kernel
theorem test_parse_image_magic : parseImage (fun o n => (simmerRead o n).set 0 0) 336 = .error stCmdIllegal := by decide +kernel

def simmer : State := { base with hbm := memAt 0x100000000 simmerImage, ctxs := ({} : Tbl Ctx).set 48 { state := .opened, cadIn := 1, cadOut := 1 } }
def simmerBound : Bound := { image := simmerTask, addr := 0x100000000, bytes := 336, sharedPin := false, pinned := 0, mask := 1 }

theorem packageGroups_few (pkg : W64) : (Config.packageGroups pkg).length ≤ 256 :=
  (List.length_filterMap_le _ _).trans (by simp)

theorem witness_modelBind : let v := (desk simmer).start (hdr 48)
    v.guarded 0x100000000 336 = false ∧ (v.ctx 48).state = .opened ∧ (v.ctx 48).job = none ∧ (v.stream 48).bindWait = none
      ∧ parseImage (fun o n => v.hbmRead (0x100000000 + o) n) 336 = .ok simmerTask ∧ simmerTask.pBytes = 0 ∧ decide (simmerTask.kind = 0) = liveCtx 48
      ∧ checkImage simmerTask (v.checkFor 48 simmerTask 1) (v.imageRead simmerBound) = none := by decide +kernel
theorem witness_modelBind_fits : (((desk simmer).start (hdr 48)).unbindImage 48).bindFits 48 simmerBound = true := by decide +kernel

/-- Output 0 runs a picture of 16 lines, with context 0's layer of 8 lines in slot 0; its image has stripes of 8 lines on frond 0. -/
def small : Timing := { hAct := 64, hFp := 8, hSync := 8, hBp := 16, vAct := 16, vFp := 4, vSync := 4, vBp := 104, khz := 100000, bpc := 3 }
def liveLayer : Layer := { en := true, live := true, srcW := 64, srcH := 8, dstW := 64, dstH := 8, yStep := 0x10000, xStep := 0x10000 }
def liveBound : Bound := { image := { kind := 0, h := 8, w := 100, accTiles := 1, variants := [{ kind := 0, buckets := 0, cmdOff := 0, cmdCount := 1 }] }, addr := 0, bytes := 0, sharedPin := false, pinned := 0, mask := 1 }
def liveCtxRec : Ctx := { state := .bound, cadIn := 1, cadOut := 1, slots := 3, slotBytes := 65536, slotBase := 0x8000, bound := some liveBound, checked := true }
def scene : State :=
  ((({ base with ctxs := ({} : Tbl Ctx).set 0 liveCtxRec } : State).setTg 0 { en := true, phase := .running, eff := small, shadow := small }).setOut 0
    { en := true }).setComp 0 { applied := { layers := ({} : Tbl Layer).set 0 liveLayer } }

/-- Wherever the supervisor likes its rows, a free run is found while one is free. -/
theorem findRun_isSome (x : Frond) (n : Nat) (h : (lowestRun x.takenRuns n).isSome = true) : (x.findRun n).isSome = true := by
  unfold Frond.findRun freeRun; dsimp only; split
  · rfl
  · exact h

/-- Context 0 about to run. -/
def starting : State :=
  let v := (desk scene).start (hdr 0)
  let r := (v.setCtx 0 { v.ctx 0 with state := .running, firstIn := 1, recSwapped := false }).setStream 0 { active := true, srcH := v.pictureH 0 }
  r.setStream 0 { r.stream 0 with srcH := (r.geom 0 none 8).srcH }
theorem starting_roomFits : starting.roomFits 0 liveBound = true := by
  have e : liveBound.fronds = [0] := by decide +kernel
  have p : (starting.frond 0).pinned 0 liveBound = true := by decide +kernel
  unfold State.roomFits
  rw [e, List.all_cons, List.all_nil, Bool.and_true]
  unfold Frond.roomFor Frond.withPin
  rw [if_pos p]
  dsimp only
  rw [Bool.or_eq_true]
  exact Or.inl (findRun_isSome _ _ (by decide +kernel))
theorem witness_streamStart : (((desk scene).start (hdr 0)).ctx 0).bound = some liveBound ∧ (((desk scene).start (hdr 0)).ctx 0).state = .bound
    ∧ starting.startAdmits 0 liveBound = true ∧ ∀ f ∈ liveBound.fronds, ((desk scene).frond f).still = true := by
  refine ⟨by decide +kernel, by decide +kernel, ?_, by decide +kernel⟩
  unfold State.startAdmits
  rw [starting_roomFits, Bool.and_true]
  decide +kernel

def running : State := scene.setCtx 0 { liveCtxRec with state := .running, firstIn := 1, outFrame := 5, nextOut := 5 }
theorem witness_streamStop : (running.ctx 0).state = .running ∧ frameLt (if frameLt ((running.ctx 0).lastOut 3) ((running.ctx 0).nextOut - 1)
    then (running.ctx 0).nextOut - 1 else (running.ctx 0).lastOut 3) (running.ctx 0).nextOut = false := by decide +kernel

/-- One plane of 512 bytes at host address 4,096. -/
def submit : FrameBody :=
  { frame := 1, addr0 := 4096, addr1 := 0, addr2 := 0, pitch0 := 64, pitch1 := 0, pitch2 := 0, run0 := 64, runC := 0, lines0 := 8, linesC := 0
    ext0 := 0, ext1 := 0, ext2 := 0, ext3 := 0 }
theorem witness_frameSubmit : let v := (desk running).start (hdr 0)
    (desk running).copyAhead (hdr 0) = false ∧ (framePlanes submit).length ≤ (desk running).moverRoom ∧ (v.ctx 0).state = .running ∧ bitOf (v.ctx 0).slots 3 = false
      ∧ v.submitOk (v.ctx 0) false submit = true := by decide +kernel

/-- The frame is ahead for one input frame and not for another. -/
theorem witness_frameSubmit_ahead : frameLe (running.ctx 0).nextOut ((running.ctx 0).lastOut 5) = true ∧ frameLe 6 ((running.ctx 0).lastOut 1) = false := by decide +kernel

def staging : FrameJob :=
  { hdr := none, frame := 1, exts := [], body := none, xfers := [], begun := true, staged := false, status := stOk, held := 0, run := 0, finished := false
    sat := 0, ufl := 0, cause := 0 }
theorem witness_frameStaged : let s := running.setCtx 0 { running.ctx 0 with frames := [staging] }
    (s.ctx 0).frameJob 1 = some staging ∧ staging.begun = true ∧ s.haloDone false 0 1 = true ∧ ∀ r ∈ (s.stream 0).frames, r.unrun ≠ some s.dtb := by decide +kernel

/-- A record with EN = 0 in slot 0. -/
theorem witness_layerSet : let v := (desk { scene with hbm := memAt 0x100000000 (List.replicate 256 0) }).start (hdr 0)
    let l := v.memRead false 0x100000000 256
    v.guarded 0x100000000 256 = false ∧ v.recordOk 0 0 false l = true ∧ v.absentIn (tableAddr 0 l) (tableBytes 0 l) = none := by decide +kernel

def wb : WritebackBody := { output := 0, point := 0, buffers := 1, host := true, slot := 0, base := 4096, bufStride := 0, pitch := 512 }
theorem witness_writebackSet_on : (((desk scene).start (hdr 0)).ctx 0).state ≠ .closed ∧ ((desk scene).start (hdr 0)).tgOn 0 = true := by decide +kernel
theorem witness_writebackSet_off : let s := scene.setTg 0 {}
    (((desk s).start (hdr 0)).ctx 0).state ≠ .closed ∧ ((desk s).start (hdr 0)).tgOn 0 = false
      ∧ ∀ q ∈ (((desk s).start (hdr 0)).comp 0).writebacks, q.since ≠ none := by decide +kernel

/-- An output-stage shadow of depth 3 (TG_FMT's reset value agrees with 0). -/
theorem witness_commit_on : let v := (desk (scene.setComp 0 { shadow := { stage := { depth := 3 } } })).start (hdr 0)
    bitsOf (1 : BitVec 4) = [0] ∧ (v.comp 0).shadow.stage.orderOk = true ∧ (v.comp 0).shadow.stage.depth = (v.tgOf 0).eff.bpc
      ∧ v.setsTouched (v.movesLines [0] 0 1) = [] ∧ v.tgOn 0 = true ∧ (v.comp 0).pending = [] := by decide +kernel
theorem witness_commit_off : let v := (desk base).start (hdr 0)
    (v.comp 0).shadow.stage.orderOk = true ∧ (v.comp 0).shadow.stage.depth = (v.tgOf 0).eff.bpc ∧ v.setsTouched (v.movesLines [0] 0 1) = [] ∧ v.tgOn 0 = false
      ∧ (v.comp 0).pending = [] ∧ v.commits = [] := by decide +kernel

def jobBody : JobBody := { listEn := false, listHost := false, list := 0, count := 0, ext0 := 0, ext1 := 0, ext2 := 0, ext3 := 0 }
def simmerBody : Bound := { image := { kind := 1, accTiles := 1, fronds := 1, variants := [{ kind := 0, buckets := 0, cmdOff := 0, cmdCount := 1 }] }, addr := 0, bytes := 0, sharedPin := false, pinned := 0, mask := 1 }
def boundSimmer : State := base.setCtx 48 { state := .bound, cadIn := 1, cadOut := 1, bound := some simmerBody, checked := true }

theorem witness_jobRun : let v := (desk boundSimmer).start (hdr 48)
    (desk boundSimmer).copyAhead (hdr 48) = false ∧ (v.ctx 48).bound = some simmerBody ∧ (v.ctx 48).job = none ∧ v.setUsable simmerBody.mask = true ∧ v.groupsFit simmerBody.image = true := by
  refine ⟨by decide +kernel, by decide +kernel, by decide +kernel, by decide +kernel, ?_⟩
  have h : ((desk boundSimmer).start (hdr 48)).spareGroups.length = 256 := by decide +kernel
  unfold State.groupsFit; rw [h]; exact decide_eq_true (packageGroups_few _)

def job : Job :=
  { hdr := hdr 48, body := jobBody, inst := 0, ended := [], suspended := false, started := false, status := stOk, cause := 0, stats := {}
    failedEntry := none, marked := false, taskNo := 0 }
theorem witness_dispatch : let s := boundSimmer.setCtx 48 { boundSimmer.ctx 48 with job := some job }
    s.canDispatch 48 simmerBody = true ∧ s.entryPage job = none ∧ (s.jobEntry job).1.toNat % 512 = 0
      ∧ s.selectFor 48 simmerBody (kindOf false (s.anyRow 48)) (s.jobEntry job).2 = .ok 0
      ∧ ∀ f ∈ simmerBody.fronds, (s.frond f).dma = [] ∧ ((s.heldFor f false (s.nextTask simmerBody.mask).1).map (fun h => h.count.toNat)).sum ≤ 65535 := by decide +kernel

/-- 512 bytes, in 16 runs of 32. -/
def line (a : W64) : Walk := { addr := a, run := 32, count1 := 16, stride1 := 32, count2 := 1, stride2 := 0, count3 := 1, stride3 := 0 }
theorem witness_copy : let v := (desk scene).start (hdr 0)
    (desk scene).moverRoom ≠ 0 ∧ (desk scene).copyAhead (hdr 0) = false ∧ (desk scene).workAhead (hdr 0) = false ∧ (line 4096).ok = true ∧ (line 4096).total % 512 = 0 ∧ v.sideServed .hbm (line 0x100000000) = true
      ∧ v.sideServed .host (line 4096) = true ∧ (v.ctx 0).state ≠ .closed ∧ v.sideStatus .hbm (line 0x100000000) = stOk := by decide +kernel
def copied : Xfer :=
  { id := 7, kind := .copy (hdr 0), ctx := 0, live := true, srcSpace := .host, src := line 4096, dstSpace := .hbm, dst := line 0x100000000, total := 512, done := 512
    deadline := 1, page := none }
theorem witness_copy_done : let s := desk (scene.setMover 0 { outstanding := [copied] })
    (s.mover 0).outstanding.find? (fun y => decide (y.id = 7)) = some copied ∧ copied.kind = .copy (hdr 0) ∧ copied.done = copied.total := by decide +kernel
theorem witness_page_late : let x := { copied with done := 0, page := some 1 }
    let s := desk ({ scene with dtb := 64 }.setMover 0 { outstanding := [x] })
    (s.mover 0).outstanding.find? (fun y => decide (y.id = 7)) = some x ∧ x.page ≠ none ∧ deadlineLe (deadlineOf (s.at_ 64).dtb) x.deadline = false := by
  decide +kernel

theorem witness_ladle_fires : let s : State := { base with ldl := { armed := true, srcPin := true } }
    s.ldl.pending = false ∧ s.ldl.armed = true ∧ s.ldl.srcPin = true ∧ s.ldl.acceptRemote = true ∧ (s.at_ 5).dtb.toNat ≤ 5 := by decide +kernel
theorem witness_ladle_latches : let s : State := { base with ldl := { pending := true, pendL := 1008 } }
    s.ldl.pending = true ∧ s.ldl.pendL.toNat ≤ 1008 ∧ s.ldl.waiting = [] := by decide +kernel
theorem witness_counterDump : let v := (desk base).start (hdr 0)
    v.guarded 0x100000000 1088 = false ∧ v.absentIn 4096 1088 true = none ∧ (64 + 1024 * (bitsOf (1 : W64)).length) = 1088 := by decide +kernel
theorem witness_sampleUnit : let s := base.setUnit 3 { period := 1 }
    (s.unit 3).period ≠ 0 ∧ fieldOf (1 : W32) 16 4 ≤ 0x107F ∧ 0x107F < fieldOf (0xFFFFF : W32) 16 4 ∧ bitOf (0xFFFFF : W32) 0 = true := by decide +kernel

/-- Ring 2 with one descriptor at host address 8,192 and its doorbell record at 4,096. -/
def ring (l : List Byte) : State :=
  ({ base with hif := { en := true }, host := memAt 8192 l } : State).setSq 2 { base := 8192, recAddr := 4096, en := true, tailSeen := 1 }
def descWords : List Byte := (0x22 :: (submitWords.drop 1)).flatMap (toLe 4)

theorem witness_descriptorTaken : let u := (ring descWords).at_ 9
    let x := u.sq 2
    u.eligible 2 = true ∧ (∀ r : RingId, ((u.sq r.val).hipri && u.eligible r.val) = false) ∧ u.absentIn 8192 64 = none ∧ u.absentIn 4104 4 true = none
      ∧ x.base.toNat + 64 * (x.head.toNat % x.size) = 8192 ∧ (decodeDesc 2 x.head u.dtb (u.hostRead 8192 64)).isSome = true := by decide +kernel
theorem witness_malformed : let u := (ring (List.replicate 64 0xFF)).at_ 9
    u.eligible 2 = true ∧ (u.sq 2).inflight = [] ∧ decodeDesc 2 (u.sq 2).head u.dtb (u.hostRead 8192 64) = none := by decide +kernel

/-- The doorbell record of ring 2 with TAIL = 3. -/
def belled (x : SubRing) : State := ({ base with host := memAt 4096 [3, 0, 0, 0] } : State).setSq 2 { x with recAddr := 4096, en := true }
theorem witness_tail_poll : let s := belled {}
    let x := s.sq 2
    x.active = true ∧ x.sleep = false ∧ s.absentIn 4096 64 true = none ∧ ((BitVec.ofNat 32 (leNat (s.hostRead 4096 4)) : W32) - x.head).toNat ≤ x.size := by decide +kernel
theorem witness_ringSleep : let s := { belled { head := 3, tailSeen := 3 } with dtb := 64000 }
    let x := s.sq 2
    x.active = true ∧ x.sleep = false ∧ x.head = x.tailSeen ∧ x.lastDesc.toNat + 64000 ≤ s.dtb.toNat ∧ (BitVec.ofNat 32 (leNat (s.hostRead 4096 4)) : W32) = x.tailSeen := by decide +kernel
theorem witness_kick : let s := belled { sleep := true }
    fieldOf (2 : W32) 5 0 = 2 ∧ (s.sq 2).en = true ∧ (s.sq 2).busy = false ∧ (s.sq 2).sleep = true ∧ (s.sq 3).en = false := by decide +kernel

def evt : Record :=
  { status := stOk, ctx := 0, event := false, seq := 0, dtb := 0, op := 0, sq := 0, device := false, cause := 0, info0 := 0, info1 := 0, info2 := 0, irq := true }
theorem witness_recordWritten : let s := base.setCq 1 { base := 8192, recAddr := 4096, en := true, queue := [evt] }
    let c := s.cq 1
    c.queue = [evt] ∧ c.en = true ∧ c.busy = false ∧ c.hasRoom = true ∧ s.absentIn 8192 32 true = none ∧ s.absentIn c.recAddr.toNat 64 true = none
      ∧ c.base.toNat + 32 * (c.tail.toNat % c.size) = 8192 := by decide +kernel
theorem witness_headPoll : ((base.setCq 1 { tail := 16 }).cq 1).hasRoom = false ∧ base.absentIn 0 4 = none := by decide +kernel
theorem witness_moderation : let c : CplRing := { firstUnsignalled := some 100, modUs := 2, modCount := 4 }
    c.firstUnsignalled = some 100 ∧ c.modUs ≠ 0 ∧ c.modCount ≠ 0 ∧ (100 : W64).toNat + 1000 * c.modUs.toNat ≤ (2100 : W64).toNat := by decide +kernel
theorem witness_msix : bitOf (base.hif.msixTable.get 3 1) 0 = true ∧ bitOf ((({} : Tbl W32).set 3 0).get 3 1) 0 = false := by decide +kernel
theorem witness_ringConfig : (base.sq 0).en = false ∧ (base.sq 0).busy = false ∧ bitOf (0x10004 : W32) 16 = true ∧ base.absentIn 0 64 = none
    ∧ fieldOf (0x10005 : W32) 4 0 ≠ (base.sq 0).log2.toNat ∧ (base.cq 0).busy = false ∧ bitOf (0x4000005 : W32) 26 = true
    ∧ fieldOf (0x4000005 : W32) 4 0 ≠ (base.cq 0).log2.toNat ∧ ((base.setSq 0 { en := true }).sq 0).en = true ∧ ((base.setCq 0 { en := true }).cq 0).en = true := by
  decide +kernel

theorem witness_bar4 : (0 : Nat) < 2 ^ base.svc.bar4Log2 ∧ ¬ (2 ^ 63 < 2 ^ base.svc.bar4Log2) ∧ base.guarded 0x100000000 4 = false ∧ (∀ i < 4, base.guarded (96 * 2 ^ 30 + i) 1 = true) ∧ base.guarded (96 * 2 ^ 30) 4 = true := by decide +kernel
theorem witness_remoteHbm : let s := base.setLink 0 { up := true }
    (s.link 0).up = true ∧ (s.link 0).isRing 0 = false ∧ s.guarded 0x100000000 4 = false := by decide +kernel

theorem witness_pageResponse : let s : State := { base with pageReqs := [1], absent := [1] }
    s.pageReqs.contains 1 = true ∧ s.pageWaiters 1 = [] ∧ s.frondWaiters 1 = [] ∧ ∀ n : OutId, (s.comp n.val).writebacks = [] := by decide +kernel
theorem witness_pageFailed : let x := { copied with done := 0, page := some 1 }
    let s := desk ({ scene with pageReqs := [1], absent := [1] }.setMover 0 { outstanding := [x] })
    s.pageReqs.contains 1 = true ∧ s.pageWaiters 1 = [(0, x)] ∧ s.frondWaiters 1 = [] ∧ x.kind = .copy (hdr 0) := by decide +kernel

/-- Generator 2 with tg2's timing written, off. -/
def off2 : State := base.setTg 2 { shadow := tg2 }
theorem witness_tgEnable : (off2.tg 2).phase = .off ∧ off2.upperHalf 2 = false ∧ bitOf (1 : W32) 0 = true
    ∧ (off2.timingOk 2 tg2 && off2.mstFits 2 false tg2 && off2.followOk 2) = true ∧ tg2.granules * (halvesOf 2 false).length ≤ off2.freeGranules := by
  decide +kernel
theorem witness_tgEnable_pair : (bitOf (3 : W32) 1 && decide (2 % 2 = 0)) = true ∧ (off2.tg 3).phase = .off := by decide +kernel
theorem witness_tgEnable_refused : (base.timingOk 2 (base.tg 2).shadow && base.mstFits 2 false (base.tg 2).shadow && base.followOk 2) = false := by decide +kernel
theorem witness_tgEnable_full : (off2.setTg 0 { granules := 500 }).freeGranules < tg2.granules * (halvesOf 2 false).length := by decide +kernel

def run2 (t : Timing) : State := base.setTg 2 { en := true, phase := .running, eff := tg2, shadow := t, granules := 143 }
theorem witness_tgDisable : ((run2 tg2).tg 2).phase = .running ∧ (run2 tg2).upperHalf 2 = false ∧ bitOf (0 : W32) 0 = false ∧ bitOf (0 : W32) 1 = false := by decide +kernel
theorem witness_upd : bitOf (5 : W32) 0 = true ∧ bitOf (5 : W32) 2 = true ∧ (run2 tg2).source 2 = none ∧ (run2 tg2).pairRefused 2 true false = false
    ∧ (run2 tg2).updateOk 2 = true ∧ (run2 {}).updateOk 2 = false := by decide +kernel
theorem witness_tgStart : let s := base.setTg 2 { phase := .starting, eff := tg2 }
    (s.tg 2).phase = .starting ∧ s.upperHalf 2 = false ∧ s.source 2 = none := by decide +kernel
theorem witness_lineTick : (base.tg 2).running = false ∧ ((run2 tg2).tg 2).running = true ∧ ((run2 tg2).tg 2).atEnd = false ∧ ((run2 tg2).tg 2).paired = false
    ∧ (({ (run2 tg2).tg 2 with afterPorch := some 115 } : Tg).atEnd = true ∧ ({ (run2 tg2).tg 2 with afterPorch := some 115, phase := .ending } : Tg).atEnd = true) := by decide +kernel
theorem witness_blanking : let g : Tg := { phase := .running, eff := { tg2 with vrrMode := 3 }, line := 4321, porchAt := 10 }
    g.running = true ∧ g.eff.vAct.toNat ≤ g.line.toNat ∧ g.afterPorch = none ∧ g.event = none ∧ g.porchAt.toNat < (11 : W64).toNat ∧ g.eff.vrrMode = 3
      ∧ ({ g with eff := { tg2 with vrrMode := 2 } } : Tg).eff.vrrSrc = decide ((0 : Fin 2).val = 1) := by decide +kernel
theorem witness_outputConfig : (BitVec.ofNat 13 (fieldOf (0x60 : W32) 12 0)).toNat = (base.out 2).accepted ∧ (base.governed 2).isEmpty = true
    ∧ (run2 tg2).leadOk 2 100 = true ∧ ((run2 tg2).tgOf 2).phase ≠ .off ∧ (base.tgOf 2).phase = .off ∧ base.leadOk 2 100 = true ∧ (100 : Nat) ≠ (base.out 2).accepted
    ∧ base.leadOk 2 0 = false := by decide +kernel

def frameRun : FrameRun :=
  { frame := 5, input := 1, kind := 0, exts := [], lines := 8, total := 1, released := 1, ended := [], done := 0, dropped := false, status := stOk, cause := 0, held := []
    heldTotal := 0, judged := [0, 1], unrun := none, readers := [], needs := [0], spacing := 8, quiet := false, shifts := [], stats := {}, poisoned := false }
theorem witness_lineQueue : let s := running.setStream 0 { active := true, frames := [frameRun] }
    s.frameRun 0 5 = some frameRun ∧ frameRun.dropped = false ∧ frameRun.judged.contains 2 = false ∧ frameRun.judged.contains 1 = true ∧ 2 < frameRun.lines
      ∧ ({ frameRun with readers := [none, none, some 2] } : FrameRun).stripeRead 8 2 = true ∧ frameRun.stripeRead 8 2 = false ∧ (s.comp (s.outOf 0)).queue = [] := by decide +kernel
/-- Output frame 5 found its input not staged at this very instant. -/
theorem witness_frameStaged_tie : let r := { frameRun with unrun := some (0 : W64), judged := [] }
    let s := (running.setCtx 0 { running.ctx 0 with nextOut := 6, outFrame := 1, frames := [{ staging with frame := 5 }] }).setStream 0 { active := true, frames := [r] }
    (s.ctx 0).frameJob 5 = some { staging with frame := 5 } ∧ (s.stream 0).frames = [r] ∧ r.frame + 1 = (s.ctx 0).nextOut ∧ r.unrun = some s.dtb ∧ s.inputOf 0 r.frame = 5
      ∧ (s.comp (s.outOf 0)).passThrough = false ∧ s.haloDone false 0 5 = true ∧ s.haloDone true 0 (r.frame - 1) = true := by decide +kernel
theorem witness_composeLine : let a : Applied := { frame := 0, slots := {}, lid := {}, wearOn := false, gains := {} }
    let s := scene.setComp 0 { states := [a] }
    ((s.comp 0).stateFor 3).states.head? = some a ∧ (s.tgOf 0).running = true ∧ 3 < (s.tgOf 0).eff.vAct.toNat ∧ s.mayCompose 0 3 ((s.comp 0).stateFor 3) a = true := by decide +kernel

theorem witness_training : let p : Dptx := { en := true, hpd := true, training := true }
    let s := base.setPort 1 p
    let x : TrainSense := { one := some 6, two := some 6, four := some 6, openLanes := 0, laneRev := false, polInv := 0, auxInv := false }
    p.training = true ∧ p.shorted = false ∧ widestLanes p.maxLanes.toNat 15 = none
      ∧ ((widestLanes p.maxLanes.toNat 0).map (trainedConfigs x p.maxRate.toNat)).getD [] ≠ []
      ∧ ∀ l ∈ ((widestLanes p.maxLanes.toNat 0).map (trainedConfigs x p.maxRate.toNat)).getD [], linkFits l.2 (laneCount l.1) (s.mstOf 1).toNat (s.streamLoad 1).1 (s.streamLoad 1).2 = true := by decide +kernel
theorem witness_portControl : bitOf ({ base with locks := 8 } : State).locks 3 = true ∧ bitOf base.locks 3 = false ∧ bitOf (0x101 : W32) 0 = true ∧ bitOf (0x101 : W32) 8 = true := by
  decide +kernel
theorem witness_aux : ((base.setPort 1 { auxBusy := true }).port 1).auxBusy = true ∧ (base.port 1).auxBusy = false := by decide +kernel
theorem witness_protection : (4 : BitVec 4).toNat < 10 ∧ (base.port 1).shorted = false ∧ (base.port 1).shortPins.contains 4 = false ∧ ((base.setPort 1 { shorted := true, shortPins := [4] }).port 1).shortPins.contains 4 = true
    ∧ (base.port 1).faultValid = false
    ∧ ((base.setPort 1 { shorted := true }).port 1).shorted = true := by decide +kernel
theorem witness_panel : (base.panel 1).busy = false ∧ (base.panel 1).pwrEn = false ∧ ((base.setPanel 1 { pwrEn := true }).panel 1).pwrEn = true
    ∧ ((base.setPanel 1 { busy := true }).panel 1).busy = true := by decide +kernel

/-- Context 0 captures from port 0 into its slots of 65,536 bytes. -/
def capturing : State := running.setCtx 0 { running.ctx 0 with slots := 0x0B }
theorem witness_capture : let s := capturing
    s.captures 0 = [0] ∧ ((s.ctx 0).lastSubmit).isNone = true ∧ (s.ctx 0).firstIn.toNat ≤ (1 : W32).toNat ∧ frameLe ((s.ctx 0).firstOut 1) ((s.ctx 0).lastOut 1) = true
      ∧ frameLe (s.ctx 0).nextOut ((s.ctx 0).lastOut 1) = true ∧ s.slotFree 0 1 = true ∧ (s.cq s.hif.evtCq.toNat).held = 0 := by decide +kernel

/-- Frond 0 runs simmer task 1 of context 48 on working rows 0 to 3, with four patterns: rows 0, 1, 2 by 32 bytes, and a dynamic one. -/
def pat (base : BitVec 20) : Pattern :=
  { base := base, row := false, circ := 0, circEn := false, halo := false, tagged := false, dims := 0, counts := [15, 0, 0, 0], strides := [8, 0, 0, 0], width := 7
    dyn := [0, 0, 0, 0] }
def task : Task :=
  { ctx := 48, taskNo := 1, image := { kind := 1, tBytes := 2048 }, pats := [pat 0, pat 128, pat 256, { pat 0 with dyn := [1, 0, 0, 0] }, { pat 0 with counts := [31, 0, 0, 0] }]
    exts := [0, 0, 0, 0] }
def withTask (s : State) (t : Task) (x : Frond) : State := s.setFrond 0 { x with simmer := some t, simRows := [0, 1, 2, 3] }
def atWork : State := withTask base task {}

/-- Nothing of the task is in progress. -/
structure Calm (t : Task) : Prop where
  fed : t.fed = []
  queues : ∀ q, t.queues.get q [] = []
  runs : t.skipping = false
  ending : t.ending = none
  granted : t.granted = false
  loose : t.loose = []
  keep : t.keep = none
  loaded : t.loaded = none
  again : t.again = []

theorem calm_task : Calm task := ⟨rfl, fun _ => rfl, rfl, rfl, rfl, rfl, rfl, rfl, rfl⟩

theorem clear_withTask (s : State) (t : Task) (x : Frond) (ha : s.inert = false) (hd : x.dma = []) (hc : x.chain = [])
    (hs : (withTask s t x).activeShare 0 = some false) (ht : Calm t) : (withTask s t x).Clear 0 false := by
  have e : (withTask s t x).frond 0 = { x with simmer := some t, simRows := [0, 1, 2, 3] } := State.setFrond_frond s 0 _
  have g : (withTask s t x).taskOf 0 false = t := by unfold State.taskOf; rw [e]; rfl
  obtain ⟨h1, h2, h3, h4, h5, h6, h7, h8, h9⟩ := ht
  exact ⟨ha, hs, by rw [g]; exact h1, by rw [g]; exact h2, by rw [g]; exact h3, by rw [g]; exact h4, by rw [g]; exact h5, by rw [g]; exact h6, by rw [g]; exact h7,
    by rw [g]; exact h8, by rw [g]; exact h9, by rw [e]; exact hd, by rw [e]; exact hc⟩

theorem clear_atWork : atWork.Clear 0 false := clear_withTask base task {} rfl rfl rfl (by decide +kernel) calm_task

theorem witness_engine_runs : engineFrond (.winClose 0 {} 1) = some 0 ∧ zeroSkipped (atWork.taskOf 0 false).pats (atWork.taskOf 0 false).exts (.winClose 0 {} 1) = false
    ∧ (∃ t, (headWait 0 false (.winClose 0 {} 1)).run (atWork.reached 0 false (.winClose 0 {} 1)) = .ok ((), t)
      ∧ ∃ i u, (cmdIssue 0 false (.winClose 0 {} 1)).run t = .ok (i, u)
      ∧ ∃ a v, (cmdRun 0 false 0 i (.winClose 0 {} 1)).run (u.queued 0 false (.winClose 0 {} 1) i) = .ok (a, v)) :=
  ⟨rfl, by decide +kernel, _, rfl, _, _, rfl, _, _, rfl⟩
theorem witness_engine_waits : ∃ e, (headWait 0 false (.winClose 0 { wen := true } 1)).run (atWork.reached 0 false (.winClose 0 { wen := true } 1)) = .error (.wait e) :=
  ⟨_, rfl⟩
theorem witness_engine_skipped : zeroSkipped (atWork.taskOf 0 false).pats (atWork.taskOf 0 false).exts (.fill 0 {} 3 0 1) = true := by decide +kernel

theorem witness_seqNop : ∃ t, (headWait 0 false (.seqNop 0 {})).run (atWork.reached 0 false (.seqNop 0 {})) = .ok ((), t) := ⟨_, rfl⟩
theorem witness_wait : ∃ t, (headWait 0 false (.wait 0 {} 5 2)).run (atWork.reached 0 false (.wait 0 {} 5 2)) = .ok ((), t) ∧ ((t.frond 0).sems.get 5 0).toNat < 2 :=
  ⟨_, rfl, by decide +kernel⟩
theorem witness_wait_covered : let s := withTask base task { sems := ({} : Tbl (BitVec 16)).set 5 2 }
    ∃ t, (headWait 0 false (.wait 0 {} 5 2)).run (s.reached 0 false (.wait 0 {} 5 2)) = .ok ((), t) ∧ (2 : BitVec 16).toNat ≤ ((t.frond 0).sems.get 5 0).toNat :=
  ⟨_, rfl, by decide +kernel⟩
theorem witness_signal : ∃ t, (headWait 0 false (.signal 0 {} false 5 9 true 2)).run (atWork.reached 0 false (.signal 0 {} false 5 9 true 2)) = .ok ((), t)
    ∧ (t.taskOf 0 false).deliveredRows (t.taskOf 0 false).cmdIndex = 0 ∧ (t.frond 9).heldIncs.length < 64 := ⟨_, rfl, by decide +kernel⟩
theorem witness_end : let s := withTask (base.setCtx 48 { state := .bound, bound := some { simmerBody with mask := 3 }, job := some { job with started := true } }) task {}
    (∃ t, (headWait 0 false (.end_ 0 {} 7)).run ((s.at_ 7).reached 0 false (.end_ 0 {} 7)) = .ok ((), t))
      ∧ (s.ctx 48).job = some { job with started := true } ∧ ∃ g ∈ s.setOf 48, g ≠ 0 ∧ g ∉ job.ended := ⟨⟨_, rfl⟩, rfl, 1, by decide +kernel, by decide, by decide⟩
theorem witness_semaphore : ((atWork.frond 0).sems.get 5 0).toNat + 3 ≤ 65535 := by decide +kernel

theorem issues_atWork (c : Instr) (h : ∃ t, (headWait 0 false c).run (atWork.reached 0 false c) = .ok ((), t))
    (z : zeroSkipped (atWork.taskOf 0 false).pats (atWork.taskOf 0 false).exts c = false) : atWork.Issues 0 false c := ⟨clear_atWork, h, z⟩

theorem witness_fill : atWork.Issues 0 false (.fill 0 {} 0 7 16) ∧ atWork.walkPlain 0 false 0 (pat 0) 16 :=
  ⟨issues_atWork _ ⟨_, rfl⟩ (by decide +kernel), by unfold State.walkPlain; decide +kernel⟩
theorem witness_fcCopy : atWork.Issues 0 false (.fcCopy 0 {} 0 1 16) ∧ (0 : BitVec 6) ≠ 1 ∧ (pat 0).bytes = (pat 128).bytes ∧ atWork.walkPlain 0 false 1 (pat 128) 16
    ∧ atWork.walkApart 0 false 1 (pat 128) 16
    ∧ ∀ i < 16, ∀ j < 16, atWork.nextAt 0 false 0 (pat 0) i + 32 ≤ atWork.nextAt 0 false 1 (pat 128) j ∨ atWork.nextAt 0 false 1 (pat 128) j + 32 ≤ atWork.nextAt 0 false 0 (pat 0) i := by
  refine ⟨issues_atWork _ ⟨_, rfl⟩ (by decide +kernel), by decide, rfl, ?_, ?_, ?_⟩
  · unfold State.walkPlain; decide +kernel
  · unfold State.walkApart; decide +kernel
  · decide +kernel

/-- FP32 registers: 0x40 is r0, 0x41 r1; a pattern operand is its number. -/
def form (a b d : BitVec 7) : VuForm := { srca := a, srcb := b, dst := d, ifmt := 13, ofmt := 13, rnd := 0 }
theorem witness_vuEw : atWork.Issues 0 false (.vuEw 0 {} (form 0x40 0x41 0x42) 0 1)
    ∧ ∀ k < 64, (ewValue 0 (decodeElem 13 (((atWork.frond 0).vuLane (k / 64) (k % 64)).toNat)) (decodeElem 13 (((atWork.frond 0).vuLane (1 + k / 64) (k % 64)).toNat))).isSome = true :=
  ⟨issues_atWork _ ⟨_, rfl⟩ (by decide +kernel), by decide +kernel⟩
theorem witness_vuLoad : atWork.Issues 0 false (.vuLoad 0 {} (form 0 0 0x40) 1) ∧ atWork.walkPlain 0 false 0 (pat 0) ((elemBytes 13 64 + 31) / 32) :=
  ⟨issues_atWork _ ⟨_, rfl⟩ (by decide +kernel), by unfold State.walkPlain; decide +kernel⟩
theorem witness_vuStore : atWork.Issues 0 false (.vuStore 0 {} (form 0x40 0 0) 1) ∧ atWork.walkPlain 0 false 0 (pat 0) 8 ∧ atWork.walkApart 0 false 0 (pat 0) 8 :=
  ⟨issues_atWork _ ⟨_, rfl⟩ (by decide +kernel), by unfold State.walkPlain; decide +kernel, by unfold State.walkApart; decide +kernel⟩
theorem witness_vuTload : atWork.Issues 0 false (.vuTload 0 {} (form 0 0 0) 1) ∧ atWork.walkPlain 0 false 0 (pat 0) ((elemBytes 13 257 + 31) / 32) :=
  ⟨issues_atWork _ ⟨_, rfl⟩ (by decide +kernel), by unfold State.walkPlain; decide +kernel⟩
theorem witness_accumulation : ({} : Entry).st = .finite ∧ (∃ z, (XVal.num 3 false).mul (.num 2 false) = .num 6 z) ∧ (6 : Rat) * pow2 48 = ((6 * 2 ^ 48 : Int) : Rat)
    ∧ ∀ k ≤ 2, -(2 ^ 95) ≤ ({} : Entry).int + ((List.range k).map (fun _ => (6 * 2 ^ 48 : Int))).sum ∧ ({} : Entry).int + ((List.range k).map (fun _ => (6 * 2 ^ 48 : Int))).sum < 2 ^ 95 :=
  ⟨rfl, ⟨false, by decide +kernel⟩, by decide +kernel, by decide +kernel⟩
/-- A drain of tile 2 through patterns 0, 1 and 4. -/
def drain : DrainOp := { keep := false, ieee := false, acc := 0, opat := 4, ofmt := 0, rnd := 0, spat := 0, bpat := 1, tfn := 0, cpat := 0, cpen := false }
def atDrain : State := withTask base { task with handles := ({} : Tbl (Option Nat)).set 0 (some 2) } { tiles := ({} : Tbl Tile).set 2 { state := .ready }, tsp := memAt 0 (List.replicate 32 0) }
theorem storable_of (s : State) (pat : Nat) (p : Pattern) (n : Nat) (a : s.walkPlain 0 false pat p (p.spans n)) (b : s.walkApart 0 false pat p (p.spans n)) :
    s.Storable 0 false pat p n := ⟨a, b⟩
theorem witness_vuDrain : atDrain.Issues 0 false (.vuDrain 0 {} drain) ∧ (atDrain.taskOf 0 false).handles.get 0 none = some 2 ∧ ((atDrain.frond 0).tile 2).state = .ready
    ∧ (atDrain.taskOf 0 false).held = {} ∧ atDrain.walkPlain 0 false 0 (pat 0) ((pat 0).params (scaleAccesses (atDrain.walkBytes 0 false 0 (pat 0) 1)))
    ∧ atDrain.walkPlain 0 false 1 (pat 128) ((pat 128).params 8) ∧ atDrain.Storable 0 false 4 { pat 0 with counts := [31, 0, 0, 0] } (elemBytes 0 2048) :=
  ⟨⟨clear_withTask _ _ _ rfl rfl rfl (by decide +kernel) ⟨rfl, fun _ => rfl, rfl, rfl, rfl, rfl, rfl, rfl, rfl⟩, ⟨_, rfl⟩, by decide +kernel⟩, by decide +kernel, by decide +kernel,
    by decide +kernel, by unfold State.walkPlain; decide +kernel, by unfold State.walkPlain; decide +kernel,
    storable_of _ _ _ _ (by unfold State.walkPlain; decide +kernel) (by unfold State.walkApart; decide +kernel)⟩
/-- A 1 × 1 window over the 16 pixels of pattern 0, to pattern 1. -/
def small1 : Geometry := { kw := 0, kh := 0, sx := 0, sy := 0, dx := 0, dy := 0, pad := 0 }
def walked (ofmt : BitVec 4) : VuForm := { srca := 0, srcb := 0x40, dst := 1, ifmt := 2, ofmt := ofmt, rnd := 0 }
theorem witness_walks : atWork.Issues 0 false (.vuDw 0 {} (walked 2) small1 0 0) ∧ atWork.Issues 0 false (.vuPool 0 {} true false (walked 2) small1 0)
    ∧ atWork.Issues 0 false (.vuArgmax 0 {} (walked 4) 0) ∧ bitOf (walked 4).dst 6 = false ∧ atWork.walkPlain 0 false 0 (pat 0) ((pat 0).spans ((pat 0).walkLen 2 1))
    ∧ (atWork.taskOf 0 false).pattern 1 = some (pat 128) ∧ atWork.Storable 0 false 1 (pat 128) ((pat 128).walkLen 2 1)
    ∧ atWork.Storable 0 false 1 (pat 128) (elemBytes 4 ((pat 0).rows * (pat 0).cols 2)) :=
  ⟨issues_atWork _ ⟨_, rfl⟩ (by decide +kernel), issues_atWork _ ⟨_, rfl⟩ (by decide +kernel), issues_atWork _ ⟨_, rfl⟩ (by decide +kernel), by decide,
    by unfold State.walkPlain; decide +kernel, by decide +kernel,
    storable_of _ _ _ _ (by unfold State.walkPlain; decide +kernel) (by unfold State.walkApart; decide +kernel),
    storable_of _ _ _ _ (by unfold State.walkPlain; decide +kernel) (by unfold State.walkApart; decide +kernel)⟩
theorem witness_seRegroup : atWork.Issues 0 false (.seRegroup 0 {} false 0 1 false 4) ∧ (atWork.taskOf 0 false).pattern 0 = some (pat 0)
    ∧ (∀ i < (pat 0).total, (atWork.plainAt 0 false (pat 0) i).isSome = true) ∧ atWork.Storable 0 false 1 (pat 128) (4 * (pat 128).bytes) :=
  ⟨issues_atWork _ ⟨_, rfl⟩ (by decide +kernel), by decide +kernel, by decide +kernel,
    storable_of _ _ _ _ (by unfold State.walkPlain; decide +kernel) (by unfold State.walkApart; decide +kernel)⟩
theorem witness_roundTrip : encodeCmd (.vuTload 3 {} { form 0 0 0 with ofmt := 0 } 1) ≠ none ∧ frondOf (.vuTload 3 {} { form 0 0 0 with ofmt := 0 } 1) = some 3 := by decide +kernel

theorem witness_windows : atWork.Issues 0 false (.winOpen 0 {} 3 0 4 1) ∧ atWork.Issues 0 false (.winClose 0 {} 3) ∧ atWork.Issues 0 false (.rhzKeep 0 {} 0 1) :=
  ⟨issues_atWork _ ⟨_, rfl⟩ (by decide +kernel), issues_atWork _ ⟨_, rfl⟩ (by decide +kernel), issues_atWork _ ⟨_, rfl⟩ (by decide +kernel)⟩
def nw : NwOp := { frond := 5, win := 3, lrow := 1, roff := 0, rows := 2, gen := 1 }
theorem witness_accesses : atWork.Issues 0 false (.nwRead 0 {} nw) ∧ atWork.Issues 0 false (.nwWrite 0 {} nw)
    ∧ (∀ i < 2, (atWork.frond 0).place (atWork.taskOf 0 false) (1 + i) = some (.phys (1 + i)) ∧ (atWork.frond 0).segOn ((1 + i) / 512) = true)
    ∧ (atWork.taskOf 0 false).deliveredRows (atWork.taskOf 0 false).cmdIndex = 0 :=
  ⟨issues_atWork _ ⟨_, rfl⟩ (by decide +kernel), issues_atWork _ ⟨_, rfl⟩ (by decide +kernel), by decide +kernel, by decide +kernel⟩

/-- A pass on the buffers as they are, into the tile of handle 0. -/
def pass : MxuOp :=
  { last := false, ptmSwap := false, mx := false, apat := 0, wpat := 0, asrc := 1, wsrc := 1, acc := 0, alloc := false, afmt := 2, wfmt := 2, kp := 128, aspat := 0, wspat := 0 }
def atPass : State := withTask base { task with handles := ({} : Tbl (Option Nat)).set 0 (some 2) } { tiles := ({} : Tbl Tile).set 2 { state := .accum } }
theorem witness_pass : atPass.Issues 0 false (.mxuPass 0 {} pass) ∧ (atPass.taskOf 0 false).handles.get 0 none = some 2 ∧ ((atPass.frond 0).tile 2).state = .accum
    ∧ ((atPass.frond 0).tile 2).lastRun = false ∧ ((atPass.frond 0).tile 2).b64 = isWide 2 ∧ pass.asrc ≠ 0 ∧ pass.wsrc ≠ 2 :=
  ⟨⟨clear_withTask _ _ _ rfl rfl rfl (by decide +kernel) ⟨rfl, fun _ => rfl, rfl, rfl, rfl, rfl, rfl, rfl, rfl⟩, ⟨_, rfl⟩, by decide +kernel⟩, by decide +kernel⟩
theorem witness_vuTfn : atWork.Issues 0 false (.vuTfn 0 {} (form 0x40 0 0x41) 1 1) := issues_atWork _ ⟨_, rfl⟩ (by decide +kernel)
theorem witness_vuFft : atWork.Issues 0 false (.vuFft 0 {} false (form 0x40 0x40 0x42) false 1)
    ∧ ∀ k < 128, ((fp32.decode ((atWork.frond 0).vuLane (k / 64) (k % 64)).toNat).rat?).isSome = true :=
  ⟨issues_atWork _ ⟨_, rfl⟩ (by decide +kernel), by decide +kernel⟩
theorem witness_ptmBuild : atWork.Issues 0 false (.ptmBuild 0 {} { form 0 0x40 0 with ifmt := 14 } 0 1) := issues_atWork _ ⟨_, rfl⟩ (by decide +kernel)
theorem witness_seCapture : atWork.Issues 0 false (.seCapture 0 {} 0 1 16) ∧ atWork.walkPlain 0 false 0 (pat 0) ((32 * 16 + 31) / 32)
    ∧ atWork.walkPlain 0 false 1 (pat 128) 16 ∧ atWork.walkApart 0 false 1 (pat 128) 16 :=
  ⟨issues_atWork _ ⟨_, rfl⟩ (by decide +kernel), by unfold State.walkPlain; decide +kernel, by unfold State.walkPlain; decide +kernel,
    by unfold State.walkApart; decide +kernel⟩

/-- The descriptor of a DMA transfer of row 1, in row 0: 16 runs of 32 bytes at HBM address 0x10000. -/
def xferBytes : List Byte :=
  [0, 0, 0, 0] ++ toLe 2 1 ++ List.replicate 10 0 ++ toLe 8 0x10000 ++ toLe 4 512 ++ toLe 2 1 ++ toLe 2 1 ++ toLe 2 1 ++ List.replicate 30 0
def atDma : State := withTask base task { tsp := memAt 0 xferBytes }
theorem witness_dma : let x := atDma.frond 0
    let t := atDma.taskOf 0 false
    ∃ e, x.place t 0 = some (.phys 0) ∧ x.segOn 0 = true ∧ (parseXfer (readBytes (atDma.tspByte 0) 0 64)).bind (atDma.resolve t) = some e ∧ e.kind = 0 ∧ e.space = 0
      ∧ e.circEn = false ∧ e.tagged = false ∧ e.cached = false ∧ e.walk.ok = true ∧ e.walk.total = 512 ∧ e.walk.pieces 0 512 = [(0x10000, 512)]
      ∧ x.place t e.localRow.toNat = some (.phys 1) ∧ t.deliveredRows t.cmdIndex = 0 ∧ atDma.overReplay (some (t.ctx, t.taskNo)) .hbm e.walk = false
      ∧ atDma.meetsSupervisor .hbm e.walk = false ∧ 0x10000 + 512 ≤ hbmBytes ∧ 0x10000 % 64 = 0 :=
  ⟨((parseXfer (readBytes (atDma.tspByte 0) 0 64)).bind (atDma.resolve (atDma.taskOf 0 false))).get (by decide +kernel), by decide +kernel⟩
theorem witness_dma_issues : atDma.Issues 0 false (.dmaOut 0 {} 0) ∧ atDma.Issues 0 false (.dmaIn 0 {} 0) :=
  have c := clear_withTask base task { tsp := memAt 0 xferBytes } rfl rfl rfl (by decide +kernel) calm_task
  ⟨⟨c, ⟨_, rfl⟩, by decide +kernel⟩, ⟨c, ⟨_, rfl⟩, by decide +kernel⟩⟩

def stripeJob : StripeJob := { ctx := 0, out := 0, frame := 5, stripe := 0, deadline := 1000, kind := 0, task := none }
def emptyCkpt : Ckpt :=
  { ctx := 0, frame := 5, point := 0, task := 0, se := {}, rows := [], data := {}, regions := [], full := [], stats := {}, cursors := {}, sems := {}, windows := {}
    ptmBuild := none, heldIncs := [], stepIndex := 0, overRows := false }
def readyFrond : Frond := { released := [stripeJob], stripeCk := ({} : Tbl (Option Ckpt)).set 0 (some emptyCkpt) }
def releasing : State := (running.setStream 0 { active := true, frames := [frameRun] }).setFrond 0 readyFrond
/-- The header of Table 15.4 is 8 KiB, and three of its fields lie where the table puts them. -/
theorem test_ckpt_header : let h := emptyCkpt.header true 64 3
    h.length = 8192 ∧ h.take 6 = [0x01, 0xCE, 0x80, 0x77, 1, 1] ∧ (h.drop 0x10).take 6 = [64, 0, 0, 0, 3, 0] ∧ (h.drop 0x1400).take 4 = [0xFF, 0xFF, 0xFF, 0xFF] := by decide +kernel
/-- Slots go to the lowest gap of the pool that holds them. -/
theorem test_pool_gap : poolGap [(0, 10), (30, 5)] 20 = some 10 ∧ poolGap [(0, 10), (30, 5)] 21 = some 35 ∧ poolGap [] (2 ^ 30 + 1) = none := by decide +kernel
theorem witness_stripeStart : (releasing.frond 0).live = none ∧ (releasing.frond 0).simmer.isNone = true ∧ releasing.frondRuns 0 = true ∧ earliestStripe ((releasing.frond 0).released.filter (fun q => !(releasing.frond 0).placeDue.contains q.ctx)) = some stripeJob
    ∧ (releasing.ctx 0).bound = some liveBound ∧ releasing.frameRun 0 5 = some frameRun ∧ ((releasing.frond 0).stripeCkptOf 0 0).isSome = true ∧ releasing.ctxRuns 0 = true
    ∧ releasing.selectFor 0 liveBound (frameRun.kind ||| (if releasing.anyRow 0 then 1 else 0)) frameRun.exts = .ok 0 ∧ (releasing.frond 0).dma = []
    ∧ ((releasing.heldFor 0 true (releasing.stripeTask 0 stripeJob liveBound.mask).1).map (fun h => h.count.toNat)).sum ≤ 65535 := by
  decide +kernel

theorem rests_withTask (s : State) (t : Task) (x : Frond) (hl : x.live = none) (hd : x.dma = []) (hf : t.fed = []) (hq : ∀ q, t.queues.get q [] = []) (he : t.ending = none)
    (hk : t.keep = none) : (withTask s t x).Rests 0 := by
  have e : (withTask s t x).frond 0 = { x with simmer := some t, simRows := [0, 1, 2, 3] } := State.setFrond_frond s 0 _
  have g : (withTask s t x).taskOf 0 false = t := by unfold State.taskOf; rw [e]; rfl
  have g' : (withTask s t x).taskOf 0 true = {} := by unfold State.taskOf; rw [e]; simp [hl]
  refine ⟨fun live => ?_, fun live q y hy => ?_, fun live => ?_, fun live => ?_, by rw [e]; exact hd⟩
  · cases live
    · rw [g]; exact hf
    · rw [g']
  · cases live
    · rw [g, hq] at hy; cases hy
    · rw [g'] at hy; cases hy
  · cases live
    · rw [g]; exact he
    · rw [g']
  · cases live
    · rw [g]; exact hk
    · rw [g']
/-- A frond with no task rests. -/
theorem rests_idle (s : State) (f : Nat) (h : s.frond f = {}) : s.Rests f := by
  have g (live : Bool) : s.taskOf f live = {} := by unfold State.taskOf; rw [h]; cases live <;> rfl
  exact ⟨fun live => by rw [g], fun live q y hy => by (rw [g] at hy; cases hy), fun live => by rw [g], fun live => by rw [g], by rw [h]⟩

theorem witness_yield : let s := atWork.setFrond 0 { atWork.frond 0 with released := [stripeJob] }
    (s.frond 0).simmer = some task ∧ task.yielded = false ∧ (s.frond 0).released ≠ [] ∧ (s.frond 0).placeDue = [] := by decide +kernel
theorem witness_resume : let s := withTask base { task with yielded := true } {}
    (s.frond 0).simmer = some { task with yielded := true } ∧ (s.frond 0).live = none ∧ (s.frond 0).released = [] ∧ s.simmerHalted = false ∧ s.Rests 0 :=
  ⟨by decide +kernel, by decide +kernel, by decide +kernel, by decide +kernel, rests_withTask _ _ _ rfl rfl rfl (fun _ => rfl) rfl rfl⟩

def entry : QEntry := { index := 0, cmd := .winClose 0 {} 1, tile := 0, after := some .nothing }
theorem witness_complete : let s := withTask base { task with queues := ({} : Tbl (List QEntry)).set 5 [entry] } {}
    s.completeOne 0 true 5 = none ∧ (s.completeOne 0 false 5).isSome = true ∧ (s.taskOf 0 false).queues.get 5 [] = [entry] ∧ entry.after = some .nothing := by decide +kernel
theorem witness_complete_none : atWork.completeOne 0 true 5 = none ∧ atWork.completeOne 0 false 5 = none := by decide +kernel
/-- The next word of the list begins a step. -/
theorem witness_stepCommit : let s := withTask { base with hbm := memAt 0x100000010 (toLe 4 0x100) } { task with cmdIndex := 1, listAddr := 0x100000000 } {}
    s.activeShare 0 = some false ∧ (s.taskOf 0 false).idle = true ∧ (s.taskOf 0 false).committed = false ∧ (s.taskOf 0 false).step.startIndex ≠ (s.taskOf 0 false).cmdIndex
      ∧ s.nextBegins (s.taskOf 0 false) = true := by decide +kernel
theorem witness_stepCommit_live : let s := { base with hbm := memAt 0x100000010 (toLe 4 0x100) }.setFrond 0 { live := some { task with ctx := 0, cmdIndex := 1, listAddr := 0x100000000 } }
    s.activeShare 0 = some true ∧ (s.taskOf 0 true).idle = true ∧ (s.taskOf 0 true).committed = false ∧ (s.taskOf 0 true).step.startIndex ≠ (s.taskOf 0 true).cmdIndex
      ∧ s.nextBegins (s.taskOf 0 true) = true := by decide +kernel
theorem witness_advanceHead : let g : Region := { base := 0, rows := 4, head := 1, tail := 2 }
    ((atWork.setFrond 0 { atWork.frond 0 with regions := ({} : Tbl (List Region)).set 48 [g] }).frond 0).region 48 0 = some g := by decide +kernel

/-- A rhizome transfer of frond 0, for fronds 0 and 1. -/
def rhizome : DmaXfer :=
  { id := 0, isIn := true, index := 0, ctx := 48, live := false, done := 0, sent := 0, total := 2048, page := none, starts := [], poisoned := false
    desc := { kind := 2, tagged := false, circEn := false, cached := false, listRel := false, space := 0, dev := 0, localRow := 0, circ := 0, group := 0, win := 0, gen := 0
              first := 0, last := 1, walk := { line 0x100000000 with run := 2048, count1 := 1 } } }

theorem witness_timeout : let t := { task with semSince := some (0, 0), fed := [.wait 0 {} 5 1] }
    let s := withTask { base with dtb := 0x100000000 } t {}
    s.activeShare 0 = some false ∧ t.semSince = some (t.cmdIndex, 0) ∧ s.overdue t 0 = true ∧ s.overdue t 0x100000000 = false ∧ ∀ p ∈ t.tagSince, s.overdue t p.2 = false := by decide +kernel
/-- A read through a tagged pattern of a row that is empty. -/
theorem witness_tagTimeout : let t := { task with
      image := { task.image with circs := [{ baseRow := 0, rows := 4 }] }, pats := [{ pat 0 with tagged := true, circEn := true }], tagSince := [((3, 0, 0), 0)]
      queues := ({} : Tbl (List QEntry)).set 3 [{ entry with cmd := .fcCopy 0 {} 0 0 1, after := none }] }
    let s := withTask { base with dtb := 0x100000000 } t {}
    s.activeShare 0 = some false ∧ t.tagSince.find? (fun p => s.overdue t p.2) = some ((3, 0, 0), 0)
      ∧ (t.queues.get 3 []).find? (fun e => decide (e.index = 0)) = some { entry with cmd := .fcCopy 0 {} 0 0 1, after := none } := by decide +kernel
/-- A DMA_OUT of row 5 that waits for its tag. -/
theorem witness_tagTimeout_dma : let d := { rhizome with isIn := false }
    let t := { task with tagSince := [((7, 0, 5), 0)] }
    let s := withTask { base with dtb := 0x100000000 } t { dma := [d] }
    s.activeShare 0 = some false ∧ t.tagSince.find? (fun p => s.overdue t p.2) = some ((7, 0, 5), 0)
      ∧ (s.frond 0).dma.find? (fun d => (d.live == false) && decide (d.index = 0) && decide (7 + b2n d.isIn = 7)) = some d := by decide +kernel
theorem witness_recordFault : (base.frond 7).faultValid = false := by decide +kernel

theorem witness_remoteSignal : let s := withTask base task { simTask := 1 }
    s.shareTask 0 5 = 1 ∧ (s.frond 0).shareRuns (s.divided 0 && semShare true true 5) = true ∧ s.Rests 0 ∧ laterTask 2 (s.shareTask 0 5) = true ∧ laterTask 0 (s.shareTask 0 5) = false
      ∧ s.Unmarked :=
  ⟨by decide +kernel, by decide +kernel, rests_withTask _ _ _ rfl rfl rfl (fun _ => rfl) rfl rfl, by decide +kernel, by decide +kernel, by unfold State.Unmarked; decide +kernel⟩

/-- Frond 1 has sent it the SIGNAL, with a header signal of semaphore 3. -/
theorem witness_remoteSignal_sent : let o : OutSignal := { target := 0, sem := 5, count := 2, task := 1, header := some 3 }
    let s := (withTask base task { simTask := 1 }).setFrond 1 { simmer := some { task with signalsOut := 1 }, signals := [o] }
    s.signalOf 0 5 2 1 = some (1, o) ∧ s.signalOf 0 5 3 1 = none ∧ (s.taskOf 1 false).taskNo = 1 ∧ 0 < (s.taskOf 1 false).signalsOut ∧ ((s.frond 1).sems.get 3 0).toNat < 65535 := by
  decide +kernel

def write2 : NetAccess :=
  { dst := 0, win := 3, gen := 1, roff := 0, rows := 2, write := true, data := [List.replicate 512 1, List.replicate 512 2], lrow := 0, poisoned := false, group := none, cmd := 0
    live := false }
def delivering : State := (withTask base task { windows := ({} : Tbl Window).set 3 { rows := 4, gen := 1, isOpen := true } }).setFrond 1 { netOut := [write2] }
theorem witness_remoteWrite : (delivering.frond 1).netOut = [write2] ∧ oldestEach (delivering.frond 1).netOut = [write2]
    ∧ delivering.accessOn 1 write2 ((delivering.frond 0).windows.get 3 {}) = true ∧ (delivering.frond 0).winCheck 3 1 0 2 = .good ∧ write2.write = true ∧ write2.group = none
    ∧ (∀ i < 2, (delivering.frond 0).place (delivering.taskOf 0 ((delivering.frond 0).windows.get 3 {}).live) (0 + 0 + i) = some (.phys i) ∧ (write2.data.getD i []).length = 512)
    ∧ (delivering.taskOf 1 false).fed = [] := by decide +kernel
theorem witness_remoteStale : (delivering.frond 0).winCheck 3 2 0 2 = .stale ∧ (delivering.frond 0).winCheck 3 1 3 2 = .range := by decide +kernel

def part : OutPartial :=
  { recv := 0, win := 12, gen := 1, b64 := false, entries := {}, poisoned := false, cmd := 0, tile := 2, live := false, requested := false }
def combining (granted : Option Nat) : State :=
  (base.setFrond 0 { windows := ({} : Tbl Window).set 12 { gen := 1, isOpen := true }, combines := ({} : Tbl CombineAcc).set 12 { granted := granted } }).setFrond 1 { partials := [part] }
theorem witness_combineRequest : let s := combining none
    s.partialFor 0 12 1 = some part ∧ part.requested = false ∧ ((s.frond 0).windows.get 12 {}).isOpen = true ∧ ((s.frond 0).windows.get 12 {}).gen = part.gen
      ∧ s.fixedOrder (s.taskOf 0 false).ctx = false ∧ ((s.frond 0).combines.get 12 {}).granted ≠ some 1 := by decide +kernel
theorem witness_combinePartial : let s := combining (some 1)
    ((s.frond 0).combines.get 12 {}).granted = some 1 ∧ part.held = false ∧ s.partialFor 0 12 1 = some part ∧ ∀ i < 8, ((s.frond 0).tile i).combine = none := by decide +kernel
theorem witness_credits : let g : McastGroup := { valid := true, members := 6, spent := ({} : Tbl Nat).set 1 4, due := ({} : Tbl Nat).set 2 1 }
    0 < g.due.get 2 0 ∧ g.due.get 1 0 = 0 ∧ g.valid = true ∧ g.withholds 7 1 = true ∧ g.withholds 7 2 = false ∧ ∀ f : FrondId, (base.frond f.val).dma = [] := by decide +kernel

/-- Frond 3 runs task 7 with a multicast of group 0 in flight. -/
theorem witness_evict : (base.setFrond 3 { simmer := some { task with taskNo := 7 }, dma := [{ rhizome with desc := { rhizome.desc with kind := 1 } }] }).groupTask 0 = some 7 := by decide +kernel

def chunk : Chunk := { src := 0, xfer := 0, ctx := 48, number := 0, bytes := [], poisoned := false, taken := true }
theorem witness_chunk_full : 2 ≤ ((base.setFrond 4 { chain := [chunk, chunk] }).frond 4).chain.length := by decide +kernel

def parity : ParityInfo := { row := 5, bank := 1, lane := 2, rowpath := false, remoteFor := none }
theorem witness_parity : let v := (atWork.at_ 9).ladleFault 0
    parity.remoteFor = none ∧ atWork.frondRuns 0 = true ∧ v.activeShare 0 = some false ∧ (v.taskOf 0 false).committed = false ∧ (v.taskOf 0 false).step.detections.length < 2 := by
  decide +kernel
theorem witness_parity_third : let s := withTask base { task with step := { detections := [parity, parity] } } {}
    s.activeShare 0 = some false ∧ 2 ≤ (s.taskOf 0 false).step.detections.length ∧ laneFault [parity, parity, parity] = false
      ∧ laneFault [parity, { parity with bank := 3 }, parity] = true := by decide +kernel
theorem witness_failed : (base.frond 0).phase = .on ∧ (base.frond 0).failed = false ∧ base.lost 0 = false ∧ (atWork.frond 0).simmer ≠ none := by decide +kernel

theorem witness_repair : let s : State := { base with lsch := { declared := [(5, 5, 0, 100)] } }
    s.lsch.declared = [(5, 5, 0, 100)] ∧ s.lsch.repair = none ∧ s.lsch.svcDown = false ∧ (s.row 0).spareFree = true := by decide +kernel
def stopping : Repair := { phase := .stopping, start := 100, failed := [(5, 5, 0)], fenced := [], moved := [], ctxs := [], waiting := [] }
theorem witness_repair_stop : let s := ({ base with lsch := { repair := some stopping } } : State).setFrond 5 { failed := true }
    s.lsch.repair = some stopping ∧ stopping.phase = .stopping ∧ stopping.late = [] ∧ (s.frond 5).failed = true := by decide +kernel
theorem witness_repair_restore : let r := { stopping with phase := .restoring }
    r.phase = .restoring ∧ r.ctxs = [] ∧ r.failed ≠ [] := by decide +kernel
/-- A simmer job on frond 0, with a step in progress and after its commit. -/
def jobState (t : Task) : State := withTask (base.setCtx 48 { state := .bound, bound := some simmerBody, job := some { job with started := true } }) t {}
theorem witness_ckptTimer : (jobState task).lsch.simmerMs ≠ 0 ∧ (jobState task).ctxs.cells.map Prod.fst = [48] ∧ ((jobState task).ctx 48).job = some { job with started := true }
    ∧ (jobState task).ctxRuns 48 = true ∧ (jobState task).setOf 48 = [0] ∧ (jobState task).quiet 48 0 = false ∧ (jobState { task with committed := true }).quiet 48 0 = true := by
  decide +kernel
theorem witness_ckptTimer_rests (c : Bool) : (jobState { task with committed := c }).Rests 0 := rests_withTask _ _ _ rfl rfl rfl (fun _ => rfl) rfl rfl

/-- Spore log copies at 0 and at 4 GiB. -/
def spored : State := { base with ready := true, lsch := { sporeA := 0, sporeB := 0x100000000 } }
theorem witness_hbmUncorr : spored.otherCopy (0x100 / 64 * 64) = some 0x100000100 ∧ spored.otherCopy (0x200000000 / 64 * 64) = none ∧ (spored.cq spored.hif.evtCq.toNat).held = 0 := by
  decide +kernel
/-- The other copy is poisoned too. -/
theorem witness_hbmUncorr_poisoned : ({ spored with hbmPoison := [0x100000100 / 64] } : State).hbmPoisoned 0x100000100 64 = true ∧ spored.hbmPoisoned 0x100000100 64 = false := by
  decide +kernel
theorem witness_hbmUncorr_task : let v := (((((atWork.at_ 9).ladleFault 3).count (cntHbm 0 1) 1).blurHbm 0x200000000 64).poisonHbm 0x200000000 64).devEvent stHbmUncorr (hbmInfo 0 0) 0
    v.activeShare 0 = some false ∧ atWork.otherCopy (0x200000000 / 64 * 64) = none := by decide +kernel
theorem witness_watchdog : base.lsch.svcDown = false ∧ ({ base with lsch := { svcDown := true, deferred := [(5, 5, 0)] } } : State).lsch.deferred ≠ [] := by decide +kernel

theorem witness_segments : (base.setFrond 3 { segs := (({} : Tbl OnOff).set 0 .goingDown).set 1 .goingUp }).segLive 3 15 = false
    ∧ (((({} : Tbl OnOff).set 0 .goingDown).set 1 .goingUp).get 1 .on = .goingUp) ∧ bitOf (0x10000 : W32) 16 = true ∧ bitOf (0x10000 : W32) 0 = false := by decide +kernel
theorem witness_segLive : ({ running with lsch := { running.lsch with streams := ({} : Tbl Stream).set 0 { active := true } } }.setFrond 0
    { areas := [{ ctx := 0, base := 0, rows := 512 }] }).segLive 0 0 = true := by decide +kernel
theorem witness_cacheSteps : (∀ i < 4, (base.frond 3).segTaken (15 - i) = false) ∧ fieldOf (4 : W32) 2 0 ≤ 4 ∧ 4 < fieldOf (7 : W32) 2 0
    ∧ ({ areas := [{ ctx := 0, base := 7680, rows := 512 }] } : Frond).segTaken 15 = true := by decide +kernel
theorem witness_maps : running.carriesLive 0 = true ∧ running.lost 0 = false ∧ (running.setRow 0 { cols := [15, 1, 2, 3, 4, 5, 6, 7] }).lost 0 = true ∧ running.frondEnBit 0 = true := by decide +kernel
theorem witness_frondPower : OnOff.on.disable = .goingDown ∧ OnOff.off.enable = .goingUp ∧ ({ pins := ({} : Tbl Pin).set 0 { used := true } } : Frond).holdsPin = true := by decide +kernel

/-- A panel of 2 by 1 pixels. -/
def panel2 : PanelId :=
  { make := List.replicate 16 0, model := List.replicate 16 0, serial := List.replicate 16 0, hNative := 2, vNative := 1, headroom := 0x14000, stress := [], decay := [] }
theorem witness_wearSync : let s := desk (base.setWear 1 { identity := some panel2 })
    let v := s.start (hdr 0)
    s.governor 1 = 1 ∧ (s.wear 1).identity = some panel2 ∧ panel2.hostBytes ≤ 4096 ∧ v.guarded 0x100000000 panel2.hostBytes = false ∧ v.absentIn 0x100000000 panel2.hostBytes true = none
      ∧ ({ s.hif with evtCq := 1 } : Hif).evtCq ≠ (s.sq 0).cq := by decide +kernel
theorem witness_pwuSample : let f (up : Bool) : Shot := { up := up, width := 2, depth := 8, lower := {}, upper := {} }
    let s (up : Bool) := base.setWear 1 { identity := some panel2, shot := some (f up), due := up }
    ∀ up : Bool, (s up).governor 1 = 1 ∧ ((s up).wear 1).identity = some panel2 ∧ ((s up).wear 1).shot = some (f up) ∧ ((s up).wear 1).geometry = false ∧ (f up).up = up
      ∧ ((s up).wear 1).due = up := by decide +kernel

/-- A command of opcode op waits, with its buffer of bytes at 4,096; the running image has SEQ seq, and the flash meets no error. -/
def mailbox (op : Byte) (seq : W64) (l : List Byte) : State :=
  { base with ready := true, host := memAt 4096 l, svc := { base.svc with busy := true, mbCmd := op, mbAddr := 4096, imageSeq := seq }, xspi := { sound := true } }
theorem memAt_go (a i : Nat) (l : List Byte) (k : Nat) (h : i < l.length) :
    Mem.get?.go (a + (k + i)) ((l.zipIdx k).map (fun p => (a + p.2, p.1))) = l[i]? := by
  induction l generalizing i k with
  | nil => cases h
  | cons b r ih =>
    cases i with
    | zero => simp [Mem.get?.go]
    | succ j =>
      have := ih j (k + 1) (by simpa using h)
      have e : k + (j + 1) = k + 1 + j := by omega
      simp only [List.zipIdx_cons, List.map_cons, Mem.get?.go, List.getElem?_cons_succ]
      rw [if_neg (by omega), if_neg (by omega), e]; exact this
/-- The buffer reads as its bytes. -/
theorem mailbox_hostRead (op : Byte) (seq : W64) (l : List Byte) (o n : Nat) (h : o + n ≤ l.length) : (mailbox op seq l).hostRead (4096 + o) n = (l.drop o).take n := by
  apply List.ext_getElem (by simp [State.hostRead, readBytes]; omega)
  intro i h1 h2
  have hi : i < n := by simpa [State.hostRead, readBytes] using h1
  have e : (mailbox op seq l).host.get? (4096 + (o + i)) = l[o + i]? := by
    have := memAt_go 4096 (o + i) l 0 (by omega)
    rw [Nat.zero_add] at this
    exact this
  have f : (mailbox op seq l).hostByte (4096 + o + i) = l[o + i] := by
    unfold State.hostByte
    rw [Nat.add_assoc, e, List.getElem?_eq_getElem (by omega)]
    rfl
  simpa [State.hostRead, readBytes] using f
theorem witness_serves (op : Byte) (seq : W64) (l : List Byte) (n : Nat) (h : n ≤ l.length) : (mailbox op seq l).Serves op n (l.take n) :=
  ⟨rfl, .inl rfl, rfl, rfl, rfl, by simp [mailbox], rfl, by
    have := mailbox_hostRead op seq l 0 n (by omega)
    rw [List.drop_zero] at this
    exact this⟩
theorem witness_serves_recovery (l : List Byte) : let s := { mailbox 2 0 l with ready := false, svc := { (mailbox 2 0 l).svc with recovery := true } }
    s.ready = false ∧ (s.ready = true ∨ s.svc.recovery = true ∧ (2 : Byte) = 2) ∧ s.absentIn s.svc.mbAddr.toNat 64 = none := ⟨rfl, .inr ⟨rfl, rfl⟩, rfl⟩
/-- Whatever image, record or block verifies, which rests on keys that nothing in the model evaluates, a buffer can hold. -/
theorem witness_flash_image (l body : List Byte) (h : l.length = 0x1000) : let s := mailbox 3 0 (l ++ body)
    s.xspi.sound = true ∧ s.Serves 3 0x1000 l ∧ s.hostRead (s.svc.mbAddr.toNat + 0x1000) body.length = body ∧ s.absentIn (s.svc.mbAddr.toNat + 0x1000) body.length = none
      ∧ s.svc.svnFuse.toNat ≤ leAt l 0x10 1 := by
  refine ⟨rfl, ?_, ?_, rfl, Nat.zero_le _⟩
  · have := witness_serves 3 0 (l ++ body) 0x1000 (by simp; omega)
    rw [List.take_append_of_le_length (by omega), List.take_of_length_le (by omega)] at this
    exact this
  · have := mailbox_hostRead 3 0 (l ++ body) 0x1000 body.length (by simp; omega)
    rw [← h, List.drop_left, List.take_length, h] at this
    exact this
theorem witness_flash_others (op : Byte) (q : W64) (l : List Byte) : let s := mailbox op q l
    s.xspi.sound = true ∧ s.svc.imageSeq = q ∧ s.hostRead s.svc.mbAddr.toNat l.length = l ∧ s.absentIn s.svc.mbAddr.toNat l.length = none ∧ ∀ n ≤ l.length, s.Serves op n (l.take n) :=
  ⟨rfl, rfl, by have := mailbox_hostRead op q l 0 l.length (by omega); rw [List.drop_zero, List.take_length] at this; exact this, rfl, fun n h => witness_serves op q l n h⟩

theorem witness_links : (base.link 0).en = false ∧ bitOf (1 : W32) 0 = true ∧ (let s := base.setLink 0 { en := true, busy := true }
    (s.link 0).en = true ∧ (s.link 0).up = false ∧ (s.link 0).busy = true ∧ bitOf (1 : W32) 0 = (s.link 0).en ∧ bitOf (0 : W32) 0 = false) := by decide +kernel
theorem witness_linkFailed : let s := base.setLink 0 { en := true, up := true }
    (s.link 0).up = true ∧ (s.cq s.hif.evtCq.toNat).held = 0 ∧ s.upLinks = [0] ∧ ((s.setLink 0 {}).link 0).up = false ∧ s.liveStreams = [] := by decide +kernel
theorem witness_linkFailed_none : (∀ f, (base.frond f).dma = []) ∧ ∀ m, (base.mover m).outstanding = [] ∧ (base.mover m).pending = [] := ⟨fun _ => rfl, fun _ => ⟨rfl, rfl⟩⟩
/-- A COPY to the device at the far end of link 0 is outstanding on mover 3. -/
theorem witness_linkFailed_copy : let x := { copied with live := false, dstSpace := .remote (Fin.ofNat 4 (base.farDevice 0).toNat), done := 0 }
    let s := desk ((({ base with hif := { evtCq := 1 } } : State).setLink 0 { en := true, up := true }).setMover 3 { outstanding := [x] })
    let s := s.setCtx 0 { evtCq := 2 }
    s.hif.evtCq ≠ (s.sq 0).cq ∧ fieldOf (s.ctx x.ctx).evtCq 5 0 ≠ (s.sq 0).cq.toNat ∧ s.liveStreams = [] ∧ (s.mover 3).outstanding = [x] ∧ (s.mover 3).pending = [] ∧ (∀ j < 32, j ≠ 3 → (s.mover j).outstanding = [])
      ∧ x.kind = .copy (hdr 0) ∧ x.dstSpace = .remote (Fin.ofNat 4 (s.farDevice 0).toNat) := by decide +kernel
theorem witness_time : let s := ({ base with lwl := { base.lwl with master := 1 } } : State)
    s.lwl.master ≠ s.strap ∧ s.timeLink = none ∧ (s.setLink 0 { en := true, up := true, peer := 1 }).timeLink = some 0 := by decide +kernel
theorem witness_time_slew : ({ base with dtbSlew := 5 } : State).pending = [] ∧ ({ base with dtbSlew := 5 } : State).dtbFrac.natAbs < 10000 ∧ base.dtb.toNat < 2 ^ 64 - 2 := by decide +kernel

/-- Input frame 1 of context 0 is staged, and entry 2 pushes 64 bytes of its slot to another slot of the same context. -/
def pushing : State :=
  (running.setCtx 0 { running.ctx 0 with frames := [{ staging with staged := true }] }).setHalo 2 { en := true, src := 0x8000000000000000, dst := 0x8000000000000040, run := 64, count := 1 }
theorem witness_halo : let h := pushing.halo 2
    h.en = true ∧ pushing.haloReady h 1 = true ∧ pushing.reaches (Fin.ofNat 4 h.destDev.toNat) = true ∧ pushing.moverRoom ≠ 0
      ∧ (pushing.haloAddr h.srcCtx.toNat h.trigger 1 h.src).isSome = true
      ∧ pushing.meetsSupervisor .hbm (h.walk (((pushing.haloAddr h.srcCtx.toNat h.trigger 1 h.src)).getD 0) h.srcStride) = false ∧ (pushing.haloTarget h 1).1.isSome = true ∧ (base.halo 2).en = false := by decide +kernel

def record : LsRecord := { ctx := 0, frond := 0, frame := 5, stripe := 0, step := 0, notRun := false, sig := 7 }
theorem witness_lockStep : bitOf (1 : W32) 0 = true ∧ base.ls.en = false ∧ bitOf (0 : W32) 0 = false ∧ (∀ f < 256, (base.frond f).live = none) ∧ lsMatch record { record with sig := 8 } = true
    ∧ lsMatch record { record with frame := 6 } = false ∧ [record].find? (fun p => lsMatch p { record with sig := 8 }) = some record := by decide +kernel

theorem witness_lockStep_link : base.lsLinkUp = false ∧ (base.setLink base.ls.link.toNat { en := true, up := true }).lsLinkUp = true := by decide +kernel
theorem witness_lockStep_stop : let s : State := { base with ls := { busy := true, stopping := true } }
    s.ls.stopping = true ∧ s.ls.en = false ∧ (∀ f < 256, (s.frond f).live = none) ∧ (({ s with ls := { en := true } } : State).setFrond 3 { live := some task }).ls.en = true
      ∧ ((({ s with ls := { en := true } } : State).setFrond 3 { live := some task }).frond 3).live ≠ none := by decide +kernel

theorem witness_thermal : (base.power.hotSince = none) ∧ base.lsch.svcDown = false ∧ base.svc.derate = 0 ∧ ([920, 800, 700].map (BitVec.toNat (w := 12))).foldl max 0 = 920 := by decide +kernel
theorem witness_thermal_cool : let p : Power := { stage := 1, coolSince := ({} : Tbl (Option W64)).set 1 (some 0) }
    p.coolSince.get 1 none = some 0 ∧ (0 : W64).toNat + 1000000000 ≤ (({ base with power := p } : State).at_ 2000000000).dtb.toNat := by decide +kernel
/-- A stream with a lite program at stage 4 and 105 °C. -/
def warm : State :=
  ({ running with power := { stage := 4, tj := 840 } } : State).setCtx 0 { running.ctx 0 with bound := some { liveBound with image := { liveBound.image with wLite := 50, variants := liveBound.image.variants ++ [{ kind := 2, buckets := 0, cmdOff := 0, cmdCount := 1 }] } } }
theorem witness_lite : warm.power.lastSwitch = none ∧ 4 ≤ warm.power.stage.toNat ∧ 8 * (105 - (warm.svc.derate : Int)) ≤ (warm.power.tj.toNat : Int)
    ∧ warm.leastImportant (warm.liveStreams.filter warm.canLite) = some 0 := by decide +kernel
theorem witness_lite_soon : let s : State := { base with power := { lastSwitch := some 100 } }
    s.power.lastSwitch = some 100 ∧ (s.at_ 200).dtb.toNat - 100 < 100000000 := by decide +kernel
theorem witness_passThrough : let s : State := { base with power := { stage := 5, coolSince := ({} : Tbl (Option W64)).set 5 (some 0) } }
    s.power.stage = 5 ∧ s.power.coolSince.get 5 none = some 0 ∧ (0 : W64).toNat + 5000000000 ≤ (s.at_ 6000000000).dtb.toNat ∧ base.power.stage ≠ 5 := by decide +kernel
theorem witness_power : base.power.overTimes = [] ∧ (480 : Nat) < (500 : BitVec 12).toNat ∧ (500 : BitVec 12).toNat ≤ 680 := by decide +kernel
theorem witness_clocks : (base.domain 4).gated = true ∧ ((base.setDomain 4 { gated := false }).domain 4).gated = false ∧ running.domainLive 0 = true ∧ base.domainIdle 4 = true
    ∧ running.atChangePoint 0 = true ∧ (running.setFrond 0 { live := some { task with ctx := 0 } }).atChangePoint 0 = false := by decide +kernel
theorem witness_boostSpent : let s : State := { base with power := { bits := 4096, boostUsed := boostBit } }
    s.boostSpent = false ∧ 4096 ≤ s.power.bits.toNat ∧ boostBit ≤ s.power.boostUsed ∧ (s.cq s.hif.evtCq.toNat).held = 0 ∧ base.power.bits.toNat < 4096 := by decide +kernel

theorem witness_warm : (0x5A000001 : W32).toNat / 2 ^ 24 = 0x5A ∧ bitOf (0x5A000001 : W32) 0 = true ∧ (0x5B000001 : W32).toNat / 2 ^ 24 ≠ 0x5A ∧ bitOf (0x5A000000 : W32) 0 = false
    ∧ base.ready = true ∧ State.reset.ready = false := by decide +kernel
/-- Both images with headers of zeros, which no boot runs; one whose signatures verify rests on keys that nothing in the model evaluates. -/
theorem witness_boot : let s : State := { ({} : State) with xspi := { flash := ⟨(memAt (flashImage 0) (List.replicate 4 0)).cells ++ (memAt (flashImage 1) (List.replicate 4 0)).cells⟩ } }
    s.svc.booting = true ∧ s.imageOk 0 = false ∧ s.imageOk 1 = false ∧ base.svc.booting = false := by decide +kernel

theorem witness_reads_part : (1 : BitVec 13).toNat ≠ 0 ∧ (0x10 : BitVec 26).toNat % 4 = 0 ∧ (0x12 : BitVec 26).toNat + (1 : BitVec 13).toNat ≤ (0x10 : BitVec 26).toNat + 4
    ∧ (0x14 : BitVec 26).toNat = (0x12 : BitVec 26).toNat + (2 : BitVec 13).toNat := by decide
theorem witness_reads : decodeReg 0x1C = none ∧ (∃ r, decodeReg 0x14 = some r ∧ r.isHigh = false ∧ r.isLow = true) ∧ (∃ r, decodeReg 0x18 = some r ∧ r.isHigh = true)
    ∧ (∃ r, decodeReg 0x10 = some r ∧ r.isHigh = false ∧ r.isLow = false) :=
  ⟨by decide +kernel, ⟨(decodeReg 0x14).get (by decide +kernel), by decide +kernel⟩, ⟨(decodeReg 0x18).get (by decide +kernel), by decide +kernel⟩,
    ⟨(decodeReg 0x10).get (by decide +kernel), by decide +kernel⟩⟩
/-- SVC_MB_ADDR and its high word, and a register that takes no partial write. -/
theorem witness_writes : (∃ r, decodeReg 0x100008 = some r ∧ r.pairLow false = true) ∧ (∃ r, decodeReg 0x10000C = some r ∧ r.isHigh = true ∧ r.low.pairLow false = true ∧ r.pairLow false = false)
    ∧ ∃ r, decodeReg 0x10 = some r ∧ r.strict = true ∧ r.block ≠ .svc :=
  ⟨⟨(decodeReg 0x100008).get (by decide +kernel), by decide +kernel⟩, ⟨(decodeReg 0x10000C).get (by decide +kernel), by decide +kernel⟩,
    ⟨(decodeReg 0x10).get (by decide +kernel), by decide +kernel⟩⟩

def chained (l : List Chunk) : State :=
  (base.setCtx 48 { state := .bound, bound := some { simmerBody with mask := 3 } }).setFrond 0 { dma := [rhizome], chain := l }
theorem witness_chunks : (chained [chunk]).chunkFor 1 = some (0, chunk) ∧ ((chained [chunk]).frond 0).chain = [chunk] ∧ (chained []).chunkFor 0 = none := by decide +kernel
theorem witness_chunk_passed : let s := base.setFrond 1 { passing := [chunk] }
    (s.frond 1).chain = [] ∧ (s.frond 1).passing = [chunk] ∧ s.chunkFor 1 = none := by decide +kernel
theorem witness_chunk_injected : ∃ d c, (chained []).injectFor 0 = some (d, c) := by
  unfold State.injectFor
  have e : ((chained []).frond 0).dma = [rhizome] := by decide +kernel
  rw [e, List.find?_cons_of_pos (by decide +kernel)]
  exact ⟨_, _, rfl⟩

/-- A section in time of a stripe that raster lines read; ports that an IRQ trains, that train, and that an AUX reply frees; a wear unit with a frame kept. -/
theorem witness_complete_line : let r := { frameRun with readers := [none, none, some 2] }
    let s := running.setStream 0 { active := true, frames := [r] }
    s.frameRun 0 5 = some r ∧ r.dropped = false ∧ 2 < r.lines ∧ r.judged.contains 2 = false ∧ r.stripeRead (s.ctx 0).stripeH 2 = true ∧ (s.comp (s.outOf 0)).queue = []
      ∧ ((base.setLink 0 { up := true }).link 0).up = true := by decide +kernel
theorem witness_complete_ports : let p : Dptx := { en := true, hpd := true, training := true }
    let s := base.setPort 1 p
    let x : TrainSense := { one := some 6, two := some 6, four := some 6, openLanes := 0, laneRev := false, polInv := 0, auxInv := false }
    p.linkUp = false ∧ p.shorted = false ∧ ({ p with auxBusy := true } : Dptx).auxBusy = true ∧ ({ p with linkUp := true } : Dptx).linkUp = true ∧ p.auxBusy = false ∧ bitOf s.locks 3 = false
      ∧ ((((widestLanes p.maxLanes.toNat x.openLanes).map (trainedConfigs x p.maxRate.toNat)).getD []).find?
        (fun c => linkFits c.2 (laneCount c.1) (s.mstOf 1).toNat (s.streamLoad 1).1 (s.streamLoad 1).2)).isSome = true := by decide +kernel

end Sys2Proof.Tests
end

