-- ==== Sys2Proof/Proofs/BootSequence.lean ====
section
/-! Boot (chapter 20): the choice of the image, the advance of the fuses, the columns that self-test maps, and what the reading of panel records leaves alone. -/

namespace Sys2Proof

/-! ### Lists and tables -/

theorem Tbl.get_go_map_range' {α : Type} (g : Nat → α) (d : α) (n a k : Nat) (h : a ≤ k) (h' : k < a + n) :
    Tbl.get.go k d ((List.range' a n).map (fun i => (i, g i))) = g k := by
  induction n generalizing a with
  | zero => omega
  | succ n ih =>
    simp only [List.range'_succ, List.map_cons, Tbl.get.go]
    rw [if_neg (by omega)]
    split
    · rw [‹k = a›]
    · exact ih (a + 1) (by omega) (by omega)

/-- A table listed entry by entry reads as its entries. -/
theorem Tbl.get_map_range {α : Type} (g : Nat → α) (d : α) {n k : Nat} (h : k < n) :
    Tbl.get ⟨(List.range n).map (fun i => (i, g i))⟩ k d = g k := by
  rw [List.range_eq_range']
  exact Tbl.get_go_map_range' g d n 0 k (Nat.zero_le k) (by omega)

/-- The OR of masks that are all the same. -/
theorem foldl_or_mask {ι : Type} {n : Nat} (m : BitVec n) (l : List (ι × BitVec n)) (a : BitVec n) (h : ∀ e ∈ l, e.2 = m) :
    l.foldl (fun a e => a ||| e.2) a = if l = [] then a else a ||| m := by
  induction l generalizing a with
  | nil => rfl
  | cons e l ih =>
    rw [List.foldl_cons, ih _ fun e he => h e (List.mem_cons_of_mem _ he), h e List.mem_cons_self]
    split <;> simp [BitVec.or_assoc]

end Sys2Proof

namespace Sys2Proof.Machine

/-! ### What the panel records leave alone -/

/-- The parts of a state outside `State.kept` that a boot shows: the DTB, the columns of the dies, and whether a CONFIG_DEFAULTED event is owed. -/
def State.bootShown (s : State) : W64 × Tbl DieRow × Bool := (s.dtb, s.rows, s.hif.configEvent)

variable {s : State}

theorem State.bootShown_foldl {α : Type} (f : State → α → State) (h : ∀ s x, (f s x).bootShown = s.bootShown) (l : List α) :
    (l.foldl f s).bootShown = s.bootShown := by
  induction l generalizing s with
  | nil => rfl
  | cons x l ih => exact ih.trans (h s x)

@[simp] theorem State.bootShown_setWear (n : Nat) (w : Pwu) : (s.setWear n w).bootShown = s.bootShown := rfl
@[simp] theorem State.bootShown_setComp (n : Nat) (c : Comp) : (s.setComp n c).bootShown = s.bootShown := rfl
@[simp] theorem State.bootShown_setCq (q : Nat) (c : CplRing) : (s.setCq q c).bootShown = s.bootShown := rfl
@[simp] theorem State.bootShown_setUnit (u : Nat) (x : Sampler) : (s.setUnit u x).bootShown = s.bootShown := rfl
@[simp] theorem State.bootShown_draw : s.draw.2.bootShown = s.bootShown := rfl
@[simp] theorem State.bootShown_ladleFire (cause : BitVec 3) (always linked : Bool) : (s.ladleFire cause always linked).bootShown = s.bootShown := rfl

@[simp] theorem State.bootShown_msix (v : BitVec 9) : (s.msix v).bootShown = s.bootShown := by
  unfold State.msix
  split <;> rfl

@[simp] theorem State.bootShown_sampleFire (u : Nat) (v : BitVec 48) : (s.sampleFire u v).bootShown = s.bootShown := by
  unfold State.sampleFire
  simp only [apply_ite State.bootShown, State.bootShown_ladleFire, State.bootShown_msix, State.bootShown_setUnit, State.bootShown_draw, ite_self]

@[simp] theorem State.bootShown_count (idx n : Nat) : (s.count idx n).bootShown = s.bootShown := by
  unfold State.count
  split
  · rfl
  · exact State.bootShown_foldl _ (fun s u => State.bootShown_foldl _ (fun s _ => State.bootShown_sampleFire u _) _) _

@[simp] theorem State.bootShown_pushRecord (q : Nat) (r : Record) : (s.pushRecord q r).bootShown = s.bootShown := by
  unfold State.pushRecord
  dsimp only
  split <;> simp

@[simp] theorem State.bootShown_devEvent (status : BitVec 16) (i0 i1 : W32) : (s.devEvent status i0 i1).bootShown = s.bootShown := by
  unfold State.devEvent State.pushEvent
  dsimp only
  split <;> simp

@[simp] theorem State.bootShown_stopGains (n : Nat) : (s.stopGains n).bootShown = s.bootShown := by
  unfold State.stopGains
  exact State.bootShown_foldl _ (fun s h => State.bootShown_setComp h _) _

@[simp] theorem State.bootShown_deriveGains (n : Nat) : (s.deriveGains n).bootShown = s.bootShown := by
  unfold State.deriveGains
  dsimp only
  split
  · rfl
  · split <;> simp

@[simp] theorem State.bootShown_checkGeometry (n : Nat) : (s.checkGeometry n).bootShown = s.bootShown := by
  unfold State.checkGeometry
  dsimp only
  split
  · rfl
  · simp only [apply_ite State.bootShown, State.bootShown_devEvent, State.bootShown_stopGains, State.bootShown_setWear, ite_self]

@[simp] theorem State.bootShown_loadCounters (n : Nat) (p : PanelId) : (s.loadCounters n p).bootShown = s.bootShown := by
  unfold State.loadCounters
  dsimp only
  split
  · rfl
  · split <;> rfl

@[simp] theorem State.bootShown_readPanel (n : Nat) : (s.readPanel n).bootShown = s.bootShown := by
  unfold State.readPanel State.forgetPanel
  simp only [apply_ite State.bootShown, State.bootShown_devEvent, State.bootShown_checkGeometry, State.bootShown_deriveGains,
    State.bootShown_loadCounters, State.bootShown_stopGains, State.bootShown_setWear, ite_self]

@[simp] theorem State.bootPorts_bootShown : s.bootPorts.bootShown = s.bootShown :=
  State.bootShown_foldl _ (fun s n => by split <;> simp) _

/-- Reading the panel records changes nothing of the kept part. -/
@[simp] theorem State.bootPorts_kept : s.bootPorts.kept = s.kept := by
  have h : s.Within 2 s.bootPorts := by
    unfold State.bootPorts
    refine State.Within.foldl _ _ (fun s n h => ?_) (State.Within.refl s)
    exact State.Within.ite (fun _ => State.readPanel_within h n) (fun _ => h)
  exact h.kept le_rfl

@[simp] theorem State.bootPorts_locks : s.bootPorts.locks = s.locks := congrArg Kept.locks State.bootPorts_kept
@[simp] theorem State.bootPorts_image : s.bootPorts.image = s.image := congrArg Kept.image State.bootPorts_kept
@[simp] theorem State.bootPorts_svc : s.bootPorts.svc = s.svc := congrArg Kept.svc State.bootPorts_kept
@[simp] theorem State.bootPorts_configDefaulted : s.bootPorts.configDefaulted = s.configDefaulted :=
  congrArg Kept.configDefaulted State.bootPorts_kept
@[simp] theorem State.bootPorts_dtb : s.bootPorts.dtb = s.dtb := congrArg Prod.fst State.bootPorts_bootShown
@[simp] theorem State.bootPorts_rows : s.bootPorts.rows = s.rows := congrArg (fun p => p.2.1) State.bootPorts_bootShown
@[simp] theorem State.bootPorts_configEvent : s.bootPorts.hif.configEvent = s.hif.configEvent :=
  congrArg (fun p => p.2.2) State.bootPorts_bootShown

/-! ### Step 1: the image that runs (R514) -/

/-- The image the ROM tries first. -/
def State.firstImage (s : State) : Nat := if decide (leAt (s.imageHdr 0) 8 8 < leAt (s.imageHdr 1) 8 8) then 1 else 0

/-- The image that runs when one of the two is good. -/
def State.goodImage (s : State) : Nat := if s.imageOk s.firstImage then s.firstImage else 1 - s.firstImage

theorem State.imageOrder_eq : s.imageOrder = (s.firstImage, 1 - s.firstImage) := by
  unfold State.imageOrder State.firstImage
  split <;> simp [*]

theorem State.firstImage_cases : s.firstImage = 0 ∨ s.firstImage = 1 := by
  unfold State.firstImage
  split <;> simp

theorem State.goodImage_le_one : s.goodImage ≤ 1 := by
  unfold State.goodImage
  have := s.firstImage_cases
  split <;> omega

@[simp] theorem State.markBad_imageOk (i j : Nat) : (s.markBad i).imageOk j = s.imageOk j := by
  unfold State.markBad
  split <;> rfl

/-- The state after the ROM has tried the first image. -/
def State.tried (s : State) : State := if s.imageOk s.firstImage then s else s.markBad s.firstImage

theorem State.bootImage_none (h0 : s.imageOk 0 = false) (h1 : s.imageOk 1 = false) : s.bootImage = none := by
  unfold State.bootImage
  rw [State.imageOrder_eq]
  rcases s.firstImage_cases with e | e <;> simp [e, h0, h1]

theorem State.bootImage_some (h : s.imageOk 0 = true ∨ s.imageOk 1 = true) : s.bootImage = some (s.tried.runImage s.goodImage) := by
  unfold State.bootImage State.tried State.goodImage
  rw [State.imageOrder_eq]
  cases hf : s.imageOk s.firstImage with
  | true => simp [hf]
  | false =>
    have ho : s.imageOk (1 - s.firstImage) = true := by
      rcases s.firstImage_cases with e | e <;> simp_all
    simp [hf, ho]

/-! ### Steps 2 and 3: the advance and the configuration (R515 to R517) -/

/-- What the running image leaves of the choice of the image and of the state before it, in steps 2 and 3. -/
structure State.LoadKeeps (s t : State) : Prop where
  ready : t.ready = s.ready
  locks : t.locks = s.locks
  dtb : t.dtb = s.dtb
  lwl : t.lwl = s.lwl
  warm : t.svc.warmBoot = s.svc.warmBoot
  image : t.image = s.image
  aBad : t.svc.aBad = s.svc.aBad
  bBad : t.svc.bBad = s.svc.bBad

theorem State.takeTrust_keeps (l : List (List Byte)) : s.LoadKeeps (s.takeTrust l) := by
  unfold State.takeTrust
  dsimp only
  split <;> exact ⟨rfl, rfl, rfl, rfl, rfl, rfl, rfl, rfl⟩

@[simp] theorem State.takeTrust_svnFuse (l : List (List Byte)) : (s.takeTrust l).svc.svnFuse = s.svc.svnFuse := by
  unfold State.takeTrust
  dsimp only
  split <;> rfl

theorem State.bootConfig_keeps : s.LoadKeeps s.bootConfig := by
  obtain ⟨hready, hlocks, hdtb, hlwl, hwarm, himage, ha, hb⟩ := s.takeTrust_keeps s.trustRaw
  unfold State.bootConfig
  dsimp only
  split <;> exact ⟨hready, hlocks, hdtb, hlwl, hwarm, himage, ha, hb⟩

@[simp] theorem State.bootConfig_svnFuse : s.bootConfig.svc.svnFuse = s.svc.svnFuse := by
  unfold State.bootConfig
  dsimp only
  split <;> exact s.takeTrust_svnFuse _

/-- ROM defaults in use leave the event that reports them owed (R516). -/
theorem State.bootConfig_event (h : s.bootConfig.configDefaulted = true) : s.bootConfig.hif.configEvent = true := by
  revert h
  unfold State.bootConfig
  dsimp only
  split <;> simp

/-- The fused counter once a pending advance has taken effect. -/
def State.advancedFuse (s : State) : Nat :=
  if Config.advanceSeq (s.flashRead flashAdvance 0x1000) = some s.svc.imageSeq ∧ s.slotGood flashAdvance = true then
    max s.svc.svnFuse.toNat (min 64 s.svc.imageSvn.toNat)
  else s.svc.svnFuse.toNat

theorem State.bootAdvance_keeps : s.LoadKeeps s.bootAdvance := by
  unfold State.bootAdvance
  split
  · split <;> exact ⟨rfl, rfl, rfl, rfl, rfl, rfl, rfl, rfl⟩
  · exact ⟨rfl, rfl, rfl, rfl, rfl, rfl, rfl, rfl⟩

theorem toNat_max_fuse (b : BitVec 7) (m : Nat) : (BitVec.ofNat 7 (max b.toNat (min 64 m))).toNat = max b.toNat (min 64 m) := by
  rw [BitVec.toNat_ofNat, Nat.mod_eq_of_lt]
  omega

@[simp] theorem State.bootAdvance_svnFuse : s.bootAdvance.svc.svnFuse.toNat = s.advancedFuse := by
  unfold State.bootAdvance State.advancedFuse
  cases Config.advanceSeq (s.flashRead flashAdvance 0x1000) with
  | none => simp
  | some q =>
    simp only [Option.some.injEq]
    split
    · exact toNat_max_fuse _ _
    · rfl

/-- The state after steps 1 to 3 of a boot that finds a good image. -/
def State.loaded (s : State) : State := (s.tried.runImage s.goodImage).bootAdvance.bootConfig

theorem State.loaded_keeps : (s.tried.runImage s.goodImage).LoadKeeps s.loaded := by
  have a := (s.tried.runImage s.goodImage).bootAdvance_keeps
  have c := (s.tried.runImage s.goodImage).bootAdvance.bootConfig_keeps
  exact ⟨c.ready.trans a.ready, c.locks.trans a.locks, c.dtb.trans a.dtb, c.lwl.trans a.lwl, c.warm.trans a.warm, c.image.trans a.image,
    c.aBad.trans a.aBad, c.bBad.trans a.bBad⟩

theorem leAt_one_lt (l : List Byte) (o : Nat) : leAt l o 1 < 256 := by
  unfold leAt
  rcases l.drop o with - | ⟨b, r⟩
  · simp [leNat]
  · simpa [leNat] using b.isLt

/-- The fused counter of a boot that runs image i: raised to its SVN, 64 at most, by a pending advance for its SEQ (R515). -/
def State.bootFuse (s : State) (i : Nat) : Nat :=
  if Config.advanceSeq (s.flashRead flashAdvance 0x1000) = some (BitVec.ofNat 64 (leAt (s.imageHdr i) 8 8)) ∧ s.slotGood flashAdvance = true then
    max s.svc.svnFuse.toNat (min 64 (leAt (s.imageHdr i) 0x10 1))
  else s.svc.svnFuse.toNat

section RunImage

variable (i : Nat)

@[simp] theorem State.runImage_image : (s.runImage i).image = BitVec.ofNat 2 i := rfl
@[simp] theorem State.runImage_svnFuse : (s.runImage i).svc.svnFuse = s.svc.svnFuse := by simp only [State.runImage]
@[simp] theorem State.runImage_warmBoot : (s.runImage i).svc.warmBoot = s.svc.warmBoot := by simp only [State.runImage]
@[simp] theorem State.runImage_imageSeq : (s.runImage i).svc.imageSeq = BitVec.ofNat 64 (leAt (s.imageHdr i) 8 8) := rfl
@[simp] theorem State.runImage_flashRead (a n : Nat) : (s.runImage i).flashRead a n = s.flashRead a n := rfl
@[simp] theorem State.runImage_slotGood (a : Nat) : (s.runImage i).slotGood a = s.slotGood a := rfl

@[simp] theorem State.runImage_imageSvn : (s.runImage i).svc.imageSvn.toNat = leAt (s.imageHdr i) 0x10 1 :=
  (BitVec.toNat_ofNat ..).trans (Nat.mod_eq_of_lt (leAt_one_lt _ _))

theorem State.runImage_advancedFuse : (s.runImage i).advancedFuse = s.bootFuse i := by
  simp only [State.advancedFuse, State.bootFuse, State.runImage_flashRead, State.runImage_slotGood, State.runImage_imageSeq,
    State.runImage_imageSvn, State.runImage_svnFuse]

end RunImage

theorem State.tried_bootFuse (i : Nat) : s.tried.bootFuse i = s.bootFuse i := by
  unfold State.tried State.markBad
  split_ifs <;> rfl

/-- A state that steps 1 to 3 of a boot with a good image lead to: that image runs, with the fuses advanced, an image passed over marked bad, and ROM
defaults in use to be reported; the rest is as before the boot. -/
structure State.Loads (s t : State) : Prop where
  image : t.image.toNat = s.goodImage
  fuse : t.svc.svnFuse.toNat = s.bootFuse s.goodImage
  marked : s.goodImage ≠ s.firstImage → (if s.firstImage = 0 then t.svc.aBad else t.svc.bBad) = true
  event : t.configDefaulted = true → t.hif.configEvent = true
  ready : t.ready = s.ready
  locks : t.locks = s.locks
  dtb : t.dtb = s.dtb
  lwl : t.lwl = s.lwl
  warm : t.svc.warmBoot = s.svc.warmBoot

theorem State.loaded_image : s.loaded.image.toNat = s.goodImage := by
  have := s.goodImage_le_one
  rw [s.loaded_keeps.image, State.runImage_image, BitVec.toNat_ofNat]
  omega

theorem State.loaded_fuse : s.loaded.svc.svnFuse.toNat = s.bootFuse s.goodImage := by
  rw [State.loaded, State.bootConfig_svnFuse, State.bootAdvance_svnFuse, State.runImage_advancedFuse, State.tried_bootFuse]

theorem State.loaded_marked (h : s.goodImage ≠ s.firstImage) : (if s.firstImage = 0 then s.loaded.svc.aBad else s.loaded.svc.bBad) = true := by
  have hbad : ¬ s.imageOk s.firstImage = true := fun k => h (if_pos k)
  rw [s.loaded_keeps.aBad, s.loaded_keeps.bBad]
  unfold State.tried
  rw [if_neg hbad]
  unfold State.markBad
  split <;> rfl

theorem State.loads_loaded : s.Loads s.loaded := by
  obtain ⟨hready, hlocks, hdtb, hlwl, hwarm, -, -, -⟩ := s.loaded_keeps
  refine ⟨s.loaded_image, s.loaded_fuse, s.loaded_marked, State.bootConfig_event, hready.trans ?_, hlocks.trans ?_, hdtb.trans ?_, hlwl.trans ?_,
    hwarm.trans ((State.runImage_warmBoot _).trans ?_)⟩
  all_goals
    unfold State.tried State.markBad
    split_ifs <;> rfl

/-! ### Step 5: the columns (R13) -/

/-- The columns of row r that self-test finds failed. -/
def failedColumns (x : BootSense) (r : Nat) : BitVec 9 :=
  (x.failed.filter (fun e => decide (e.1.val = r))).foldl (fun m e => m ||| e.2) 0

theorem State.bootTest_row (x : BootSense) (r : Fin 32) : (s.bootTest x).row r.val = DieRow.selfTest (failedColumns x r.val) :=
  Tbl.get_map_range _ _ r.isLt

theorem failedColumns_none {x : BootSense} {r : Fin 32} (h : ∀ e ∈ x.failed, e.1 ≠ r) : failedColumns x r.val = 0 := by
  have e : x.failed.filter (fun e => decide (e.1.val = r.val)) = [] :=
    List.filter_eq_nil_iff.2 fun e he k => h e he (Fin.ext (of_decide_eq_true k))
  rw [failedColumns, e]
  rfl

theorem failedColumns_eq {x : BootSense} {r : Fin 32} {m : BitVec 9} (h : ∀ e ∈ x.failed, e.1 = r → e = (r, m)) (hm : (r, m) ∈ x.failed) :
    failedColumns x r.val = m := by
  have hall : ∀ e ∈ x.failed.filter (fun e => decide (e.1.val = r.val)), e.2 = m := fun e he => by
    obtain ⟨he, k⟩ := List.mem_filter.1 he
    rw [h e he (Fin.ext (of_decide_eq_true k))]
  have hne : x.failed.filter (fun e => decide (e.1.val = r.val)) ≠ [] := List.ne_nil_of_mem (List.mem_filter.2 ⟨hm, by simp⟩)
  rw [failedColumns, foldl_or_mask m _ _ hall, if_neg hne]
  exact BitVec.zero_or

/-- With every column good, the columns are served in order. -/
theorem DieRow.selfTest_zero : ∀ c < 8, (DieRow.selfTest 0).cols.getD c 15 = BitVec.ofNat 4 c := by decide

/-- A logical column is lost or is served by a good physical one. -/
theorem DieRow.selfTest_good {m : BitVec 9} {p : BitVec 4} (h : p ∈ (DieRow.selfTest m).cols) : p = 15 ∨ bitOf m p.toNat = false := by
  obtain ⟨c, -, rfl⟩ := List.mem_map.1 h
  rw [List.getD_eq_getElem?_getD]
  cases hq : ((List.range 9).filter (fun p => !bitOf m p))[c]? with
  | none => exact .inl rfl
  | some q =>
    obtain ⟨hlt, hgood⟩ := List.mem_filter.1 (List.mem_of_getElem? hq)
    have hlt := List.mem_range.1 hlt
    right
    rw [Option.getD_some, BitVec.toNat_ofNat, Nat.mod_eq_of_lt (by omega)]
    simpa using hgood

/-! ### Steps 6 and 7, and both ends of a boot -/

theorem State.bootTime_dtb (peer : Option W64) :
    (s.bootTime peer).dtb = if s.svc.warmBoot = false ∧ s.upLinks ≠ [] then peer.getD s.dtb else s.dtb := by
  unfold State.bootTime
  simp only [Bool.and_eq_true, Bool.not_eq_true', List.isEmpty_eq_false_iff]
  split <;> rfl

/-- Taking the DTB of a peer changes the DTB alone. -/
theorem State.bootTime_eq (peer : Option W64) : s.bootTime peer = { s with dtb := (s.bootTime peer).dtb } := by
  unfold State.bootTime
  split <;> rfl

@[simp] theorem State.bootTime_svc (peer : Option W64) : (s.bootTime peer).svc = s.svc := by rw [State.bootTime_eq]
@[simp] theorem State.bootTime_hif (peer : Option W64) : (s.bootTime peer).hif = s.hif := by rw [State.bootTime_eq]
@[simp] theorem State.bootTime_rows (peer : Option W64) : (s.bootTime peer).rows = s.rows := by rw [State.bootTime_eq]
@[simp] theorem State.bootTime_image (peer : Option W64) : (s.bootTime peer).image = s.image := by rw [State.bootTime_eq]
@[simp] theorem State.bootTime_locks (peer : Option W64) : (s.bootTime peer).locks = s.locks := by rw [State.bootTime_eq]
@[simp] theorem State.bootTime_configDefaulted (peer : Option W64) : (s.bootTime peer).configDefaulted = s.configDefaulted := by rw [State.bootTime_eq]

section BootTest

variable (x : BootSense)

@[simp] theorem State.bootTest_svc : (s.bootTest x).svc = s.svc := rfl
@[simp] theorem State.bootTest_hif : (s.bootTest x).hif = s.hif := rfl
@[simp] theorem State.bootTest_dtb : (s.bootTest x).dtb = s.dtb := rfl
@[simp] theorem State.bootTest_image : (s.bootTest x).image = s.image := rfl
@[simp] theorem State.bootTest_locks : (s.bootTest x).locks = s.locks := rfl
@[simp] theorem State.bootTest_upLinks : (s.bootTest x).upLinks = s.upLinks := rfl
@[simp] theorem State.bootTest_configDefaulted : (s.bootTest x).configDefaulted = s.configDefaulted := rfl

end BootTest

/-- The positions to be reported lost are those that the columns leave lost. -/
theorem State.bootEnd_bootLost : s.bootEnd.hif.bootLost = (List.range 256).filter s.bootEnd.lost := by
  have hlost : s.bootEnd.lost = s.lost := by
    funext f
    have hrow : s.bootEnd.row (f / 8) = s.row (f / 8) := by simp only [State.row, State.bootEnd]
    rw [State.lost, State.lost, hrow]
  rw [hlost]
  simp only [State.bootEnd]

/-- Steps 4 to 7 of a boot with HBM trained. -/
def State.bootFinish (s : State) (x : BootSense) : State := (((s.bootTest x).bootTime x.peerDtb).bootPorts).bootEnd

/-- A boot stopped at step 4 by HBM stack k. -/
def State.bootStop (s : State) (k : Fin 4) : State :=
  { s with svc := { s.svc with stage := 4, code := BitVec.ofNat 4 (k.val + 1), booting := false } }

section BootFinish

variable (x : BootSense)

@[simp] theorem State.bootFinish_ready : (s.bootFinish x).ready = true := rfl
@[simp] theorem State.bootFinish_enabled : (s.bootFinish x).pcie.enabled = true := rfl
@[simp] theorem State.bootFinish_stage : (s.bootFinish x).svc.stage = 7 := rfl
@[simp] theorem State.bootFinish_booting : (s.bootFinish x).svc.booting = false := rfl
@[simp] theorem State.bootFinish_image : (s.bootFinish x).image = s.image := by simp [State.bootFinish, State.bootEnd]
@[simp] theorem State.bootFinish_svnFuse : (s.bootFinish x).svc.svnFuse = s.svc.svnFuse := by simp [State.bootFinish, State.bootEnd]
@[simp] theorem State.bootFinish_aBad : (s.bootFinish x).svc.aBad = s.svc.aBad := by simp [State.bootFinish, State.bootEnd]
@[simp] theorem State.bootFinish_bBad : (s.bootFinish x).svc.bBad = s.svc.bBad := by simp [State.bootFinish, State.bootEnd]
@[simp] theorem State.bootFinish_configDefaulted : (s.bootFinish x).configDefaulted = s.configDefaulted := by simp [State.bootFinish, State.bootEnd]
@[simp] theorem State.bootFinish_configEvent : (s.bootFinish x).hif.configEvent = s.hif.configEvent := by simp [State.bootFinish, State.bootEnd]
@[simp] theorem State.bootFinish_locks : (s.bootFinish x).locks = s.locks ||| 0b10011 := by simp [State.bootFinish, State.bootEnd]

@[simp] theorem State.bootFinish_dtb : (s.bootFinish x).dtb = if s.svc.warmBoot = false ∧ s.upLinks ≠ [] then x.peerDtb.getD s.dtb else s.dtb :=
  State.bootPorts_dtb.trans (State.bootTime_dtb _)

@[simp] theorem State.bootFinish_row (r : Fin 32) : (s.bootFinish x).row r.val = DieRow.selfTest (failedColumns x r.val) := by
  have e : (s.bootFinish x).rows = (s.bootTest x).rows := by simp [State.bootFinish, State.bootEnd]
  rw [State.row, e]
  exact State.bootTest_row x r

/-- Each logical column of a row without a failure is its own; in a row with one report of failures each is lost or on a good physical column. -/
theorem State.bootFinish_cols :
    (∀ r : Fin 32, ∀ c < 8, (∀ e ∈ x.failed, e.1 ≠ r) → ((s.bootFinish x).row r.val).cols.getD c 15 = BitVec.ofNat 4 c)
      ∧ ∀ r : Fin 32, ∀ m : BitVec 9, (∀ e ∈ x.failed, e.1 = r → e = (r, m)) → (r, m) ∈ x.failed →
          ∀ p ∈ ((s.bootFinish x).row r.val).cols, p = 15 ∨ bitOf m p.toNat = false := by
  constructor
  · intro r c hc h
    rw [State.bootFinish_row, failedColumns_none h]
    exact DieRow.selfTest_zero c hc
  · intro r m h hm p hp
    rw [State.bootFinish_row, failedColumns_eq h hm] at hp
    exact DieRow.selfTest_good hp

end BootFinish

/-! ### The command -/

section Exec

variable {x : BootSense}

theorem exec_bootReady_idle (h : s.svc.booting = false) : exec (.bootReady x) s = .next s := by
  show execBootReady x s = _
  simp [execBootReady, unlessInert, h]

variable (awake : s.inert = false) (hb : s.svc.booting = true)
include awake hb

theorem exec_bootReady_recover (h0 : s.imageOk 0 = false) (h1 : s.imageOk 1 = false) : exec (.bootReady x) s = .next s.recover := by
  show execBootReady x s = _
  simp [execBootReady, unlessInert, awake, hb, State.bootImage_none h0 h1]

variable (good : s.imageOk 0 = true ∨ s.imageOk 1 = true)
include good

theorem exec_bootReady_stop {k : Fin 4} (hk : x.badStack = some k) (hw : s.svc.warmBoot = false) :
    exec (.bootReady x) s = .next (s.loaded.bootStop k) := by
  have hw' : (s.tried.runImage s.goodImage).bootAdvance.bootConfig.svc.warmBoot = false := s.loads_loaded.warm.trans hw
  show execBootReady x s = _
  simp [execBootReady, unlessInert, awake, hb, State.bootImage_some good, hk, hw', State.bootStop, State.loaded]

theorem exec_bootReady_finish (h : x.badStack = none ∨ s.svc.warmBoot = true) : exec (.bootReady x) s = .next (s.loaded.bootFinish x) := by
  have hw : (s.tried.runImage s.goodImage).bootAdvance.bootConfig.svc.warmBoot = s.svc.warmBoot := s.loads_loaded.warm
  show execBootReady x s = _
  rcases h with h | h
  · simp [execBootReady, unlessInert, awake, hb, State.bootImage_some good, h, State.bootFinish, State.loaded]
  · simp [execBootReady, unlessInert, awake, hb, State.bootImage_some good, hw, h, State.bootFinish, State.loaded]

end Exec

/-! ### What a boot with a good image ends at -/

/-- The part of a boot that holds whether or not a stack is bad: the running image, the fuses, the mark of the image passed over, and the event owed. -/
structure State.Boots (s t : State) : Prop where
  image : t.image.toNat = s.goodImage
  fuse : t.svc.svnFuse.toNat = s.bootFuse s.goodImage
  booting : t.svc.booting = false
  marked : s.goodImage ≠ s.firstImage → (if s.firstImage = 0 then t.svc.aBad else t.svc.bBad) = true
  event : t.configDefaulted = true → t.hif.configEvent = true

variable {b : State}

theorem State.Loads.stop_boots (h : s.Loads b) (k : Fin 4) : s.Boots (b.bootStop k) := ⟨h.image, h.fuse, rfl, h.marked, h.event⟩

theorem State.Loads.finish_boots (h : s.Loads b) (x : BootSense) : s.Boots (b.bootFinish x) := by
  refine ⟨?_, ?_, State.bootFinish_booting x, ?_, ?_⟩
  · rw [State.bootFinish_image, h.image]
  · rw [State.bootFinish_svnFuse, h.fuse]
  · rw [State.bootFinish_aBad, State.bootFinish_bBad]
    exact h.marked
  · rw [State.bootFinish_configDefaulted, State.bootFinish_configEvent]
    exact h.event

theorem State.Loads.finish_locks (h : s.Loads b) (x : BootSense) : (b.bootFinish x).locks = (s.locks ||| 0b10011) := by
  rw [State.bootFinish_locks, h.locks]

theorem State.Loads.finish_dtb (h : s.Loads b) (x : BootSense) :
    (b.bootFinish x).dtb = if s.svc.warmBoot = false ∧ s.upLinks ≠ [] then x.peerDtb.getD s.dtb else s.dtb := by
  have hlinks : b.upLinks = s.upLinks := by simp only [State.upLinks, State.link, h.lwl]
  rw [State.bootFinish_dtb, h.warm, h.dtb, hlinks]

end Sys2Proof.Machine

namespace Sys2Proof

open Machine

/-- Settles O58: with no good image the boot recovers; with one, a full boot that finds a bad stack stops and any other finishes. -/
theorem bootSequence : Obligations.BootSequence := by
  intro s x awake
  refine ⟨exec_bootReady_idle, fun hb h0 h1 => ⟨_, exec_bootReady_recover awake hb h0 h1, rfl, rfl, rfl, rfl, rfl, rfl, rfl, rfl⟩, fun hb good => ?_⟩
  have loads := s.loads_loaded
  generalize hl : s.loaded = b at loads
  by_cases done : x.badStack = none ∨ s.svc.warmBoot = true
  · have hx : exec (.bootReady x) s = .next (b.bootFinish x) := hl ▸ exec_bootReady_finish awake hb good done
    obtain ⟨image, fuse, booting, marked, event⟩ := loads.finish_boots x
    refine ⟨b.bootFinish x, hx, image, fuse, booting, marked, event, fun k hk hw => ?_, fun _ => ?_⟩
    · simp [hk, hw] at done
    · exact ⟨State.bootFinish_ready x, loads.finish_locks x, State.bootFinish_stage x, State.bootFinish_enabled x, loads.finish_dtb x,
        State.bootEnd_bootLost, State.bootFinish_cols x⟩
  · obtain ⟨hbad, hw⟩ := not_or.1 done
    obtain ⟨k, hk⟩ := Option.ne_none_iff_exists'.1 hbad
    have hx : exec (.bootReady x) s = .next (b.bootStop k) := hl ▸ exec_bootReady_stop awake hb good hk (Bool.not_eq_true _ ▸ hw)
    obtain ⟨image, fuse, booting, marked, event⟩ := loads.stop_boots k
    refine ⟨b.bootStop k, hx, image, fuse, booting, marked, event, fun j hj _ => ?_, fun h => absurd h done⟩
    obtain rfl : k = j := Option.some.inj (hk.symm.trans hj)
    exact ⟨loads.ready, loads.locks, rfl, by simp [State.bootStop]; omega⟩

end Sys2Proof
end

