-- ==== Sys2Proof/Proofs/Counting.lean ====
section
/-! Counting, event records and clock plans: what they leave alone. -/

namespace Sys2Proof.Machine

/-- A state without what counting, event records and clock plans change: counters and samples, the host interface, the ladle, the free values
drawn, and the clock plans. -/
def State.uncounted (s : State) : State := { s with fresh := 0, pmon := {}, hif := {}, ldl := {}, power := {} }

variable {s t : State}

/-! ### What two states share that counting alone sets apart -/

theorem State.frond_of_uncounted (h : t.uncounted = s.uncounted) (f : Nat) : t.frond f = s.frond f := congrArg (fun u => u.frond f) h
theorem State.divided_of_uncounted (h : t.uncounted = s.uncounted) (f : Nat) : t.divided f = s.divided f := congrArg (fun u => u.divided f) h
theorem State.tg_of_uncounted (h : t.uncounted = s.uncounted) (n : Nat) : t.tg n = s.tg n := congrArg (fun u => u.tg n) h

/-! ### Counting -/

theorem State.uncounted_foldl {α : Type} (f : State → α → State) (h : ∀ s x, (f s x).uncounted = s.uncounted) (l : List α) :
    (l.foldl f s).uncounted = s.uncounted := by
  induction l generalizing s with
  | nil => rfl
  | cons x l ih => exact ih.trans (h s x)

@[simp] theorem State.uncounted_setUnit (u : Nat) (x : Sampler) : (s.setUnit u x).uncounted = s.uncounted := rfl
@[simp] theorem State.uncounted_setCq (q : Nat) (c : CplRing) : (s.setCq q c).uncounted = s.uncounted := rfl
@[simp] theorem State.uncounted_setDomain (d : Nat) (x : Domain) : (s.setDomain d x).uncounted = s.uncounted := rfl
@[simp] theorem State.uncounted_draw : s.draw.2.uncounted = s.uncounted := rfl
@[simp] theorem State.uncounted_ladleFire (cause : BitVec 3) (always linked : Bool) : (s.ladleFire cause always linked).uncounted = s.uncounted := rfl

@[simp] theorem State.uncounted_msix (v : BitVec 9) : (s.msix v).uncounted = s.uncounted := by
  unfold State.msix
  split <;> rfl

@[simp] theorem State.uncounted_sampleFire (u : Nat) (v : BitVec 48) : (s.sampleFire u v).uncounted = s.uncounted := by
  unfold State.sampleFire
  simp only [apply_ite State.uncounted, uncounted_ladleFire, uncounted_msix, uncounted_setUnit, uncounted_draw, ite_self]

@[simp] theorem State.uncounted_count (idx n : Nat) : (s.count idx n).uncounted = s.uncounted := by
  unfold State.count
  split
  · rfl
  · exact uncounted_foldl _ (fun s u => uncounted_foldl _ (fun s _ => uncounted_sampleFire u _) _) _

@[simp] theorem State.uncounted_countCycles (idx n : Nat) : (s.countCycles idx n).uncounted = s.uncounted := by
  unfold State.countCycles
  dsimp only
  split
  · exact uncounted_count ..
  · rfl

/-! ### Event records -/

@[simp] theorem State.uncounted_pushRecord (q : Nat) (r : Record) : (s.pushRecord q r).uncounted = s.uncounted := by
  unfold State.pushRecord
  dsimp only
  split <;> simp

@[simp] theorem State.uncounted_devEvent (status : BitVec 16) (i0 i1 : W32) : (s.devEvent status i0 i1).uncounted = s.uncounted := by
  unfold State.devEvent State.pushEvent
  dsimp only
  split <;> simp

/-! ### Running time and clocks (R494, R525 to R528) -/

@[simp] theorem State.uncounted_meter (f : Nat) : (s.meter f).uncounted = s.uncounted := by
  unfold State.meter
  dsimp only
  split
  · rfl
  · exact uncounted_countCycles ..

@[simp] theorem State.uncounted_takePlan (d : Nat) : (s.takePlan d).uncounted = s.uncounted := by
  have hcharge : ∀ (u : State) (p : BitVec 2), (u.chargeBoost p).uncounted = u.uncounted := fun u p => by
    unfold State.chargeBoost
    split <;> rfl
  unfold State.takePlan State.meterDomain
  simp only [uncounted_setDomain, hcharge]
  exact uncounted_foldl _ (fun _ _ => uncounted_meter _) _

@[simp] theorem State.uncounted_wake (d : Nat) : (s.wake d).uncounted = s.uncounted := by
  unfold State.wake
  split
  · simp
  · rfl

@[simp] theorem State.wake_frond (d f : Nat) : (s.wake d).frond f = s.frond f := frond_of_uncounted (uncounted_wake d) f
@[simp] theorem State.meter_frond (g f : Nat) : (s.meter g).frond f = s.frond f := frond_of_uncounted (uncounted_meter g) f

end Sys2Proof.Machine
end

