-- ==== Sys2Proof/Proofs/GeneratorRuns.lean ====
section
/-! Timing generators (chapter 12): the start (R326), the line tick and the boundary between frames (R18, R323, R467), and the end of a shut-down
(R327). -/

namespace Sys2Proof.Machine

variable {s : State} {n : OutId} {now : W64}

/-! ### The instant of an event changes no generator -/

@[simp] theorem State.at_tg (now : W64) (k : Nat) : (s.at_ now).tg k = s.tg k := by simp only [State.tg, State.at_tgs]

@[simp] theorem State.at_upperHalf (now : W64) (k : Nat) : (s.at_ now).upperHalf k = s.upperHalf k := by
  simp only [State.upperHalf, State.at_tg]

@[simp] theorem State.at_source (now : W64) (k : Nat) : (s.at_ now).source k = s.source k := by
  unfold State.at_
  split <;> rfl

/-! ### The frame that a boundary begins (R467) -/

/-- A generator that follows no other counts its own frames. -/
theorem State.frameBegun_of_own {k : Nat} (h : s.source k = none) : s.frameBegun k now = ((s.tg k).frame + 1, now) := by
  simp only [State.frameBegun, h]

/-- A generator whose source on this device has begun the next frame takes its number and its instant. -/
theorem State.frameBegun_of_source {k j : Nat} (h : s.source k = some (some j)) (hrun : (s.tgOf j).running = true)
    (hahead : frameLt (s.tg k).frame (s.tgOf j).frame = true) : s.frameBegun k now = ((s.tgOf j).frame, (s.tgOf j).boundary) := by
  simp [State.frameBegun, h, hrun, hahead]

/-! ### One half: start, next line, next frame -/

theorem State.checkLink_tg (k h : Nat) : (s.checkLink k).tg h = s.tg h := by
  unfold State.checkLink
  dsimp only
  split
  · exact State.tg_of_uncounted (State.uncounted_devEvent ..) h
  · rfl

/-- A half starts at line 0 of its frame, at the instant of the start; one that was disabled before it started shuts down after that frame. -/
theorem State.halfStart_tg (k : Nat) (frame : W32) :
    (s.halfStart k frame now).tg k = { s.tg k with
      phase := if (s.tg k).endAfterStart then .ending else .running, endAfterStart := false, line := 0, frame := frame, boundary := now
      ext := 0, event := none, afterPorch := none, modeStart := now, modeFrames := 0 } := by
  unfold State.halfStart State.portFrame
  dsimp only
  rw [State.setPort_tg, State.checkLink_tg, State.setComp_tg, State.setTg_tg]

variable {g : Tg}

@[simp] theorem Tg.trackMode_line (was : BitVec 2) : (g.trackMode was now).line = g.line := by
  unfold Tg.trackMode; split_ifs <;> rfl
@[simp] theorem Tg.trackMode_frame (was : BitVec 2) : (g.trackMode was now).frame = g.frame := by
  unfold Tg.trackMode; split_ifs <;> rfl
@[simp] theorem Tg.trackMode_boundary (was : BitVec 2) : (g.trackMode was now).boundary = g.boundary := by
  unfold Tg.trackMode; split_ifs <;> rfl
@[simp] theorem Tg.trackMode_eff (was : BitVec 2) : (g.trackMode was now).eff = g.eff := by
  unfold Tg.trackMode; split_ifs <;> rfl

/-- At a boundary a half stands at line 0 of the frame that begins, under the timing captured for it. -/
theorem State.halfBoundary_tg (k : Nat) (frame : W32) (start : W64) :
    let g := (s.halfBoundary k frame start).tg k
    g.line = 0 ∧ g.frame = frame ∧ g.boundary = start ∧ g.eff = (s.tg k).next.getD (s.tg k).eff := by
  unfold State.halfBoundary State.dropStates State.portFrame
  simp

/-- A tick that is no boundary moves the line on, within the frame and its phase. -/
theorem Tg.advance_position (g : Tg) (now : W64) :
    (g.advance now).line = g.line + 1 ∧ (g.advance now).frame = g.frame ∧ (g.advance now).phase = g.phase := by
  unfold Tg.advance
  cases hp : g.afterPorch <;> dsimp only <;> split_ifs <;> simp_all

/-! ### TG_START -/

theorem exec_tgStart_begins (awake : s.inert = false) (starting : (s.tg n.val).phase = .starting) (lower : s.upperHalf n.val = false)
    (own : s.source n.val = none) :
    exec (.tgStart n now) s =
      .next (((((halvesOf n.val (s.tg n.val).paired).foldl (fun u h => u.halfStart h 0 now) (s.at_ now)).turnShot n.val (some now)).checkGeometry
        n.val).tickWork n.val {}) := by
  show execTgStart n now s = _
  simp [execTgStart, unlessInert, awake, starting, lower, State.mayBegin, State.startFrame, own]

/-! ### LINE_TICK -/

section Tick

variable {r : RasterSense} (awake : s.inert = false) (lower : s.upperHalf n.val = false)
include awake

theorem exec_lineTick_stopped (stopped : (s.tg n.val).running = false) : exec (.lineTick n r now) s = .next (s.at_ now) := by
  show execLineTick n r now s = _
  simp [execLineTick, unlessInert, awake, stopped]

include lower

theorem exec_lineTick_line (running : (s.tg n.val).running = true) (inside : (s.tg n.val).atEnd = false) (single : (s.tg n.val).paired = false) :
    exec (.lineTick n r now) s = .next (((s.at_ now).setTg n.val ((s.tg n.val).advance now)).tickWork n.val r) := by
  show execLineTick n r now s = _
  simp [execLineTick, unlessInert, awake, lower, running, inside, single]

theorem exec_lineTick_boundary (running : (s.tg n.val).phase = .running) (last : (s.tg n.val).atEnd = true) :
    exec (.lineTick n r now) s = .next (((s.at_ now).tgBoundary n.val now).tickWork n.val r) := by
  show execLineTick n r now s = _
  simp [execLineTick, unlessInert, awake, lower, Tg.running, running, last]

theorem exec_lineTick_stop (ending : (s.tg n.val).phase = .ending) (last : (s.tg n.val).atEnd = true) :
    exec (.lineTick n r now) s = .next ((s.at_ now).tgStop n.val) := by
  show execLineTick n r now s = _
  simp [execLineTick, unlessInert, awake, lower, Tg.running, ending, last]

end Tick

end Sys2Proof.Machine

namespace Sys2Proof

open Machine

/-- Settles O25: the start, then the tick by where the generator stands: stopped, inside a frame, at a boundary, at the end of its shut-down. -/
theorem generatorRuns : Obligations.GeneratorRuns := by
  refine ⟨fun s n now awake starting lower own => ⟨exec_tgStart_begins awake starting lower own, fun u h => ?start⟩,
    fun s n r now awake lower => ⟨exec_lineTick_stopped awake, fun running inside single => ?line, fun running last => ?boundary,
      exec_lineTick_stop awake lower⟩⟩
  case start =>
    rw [State.halfStart_tg]
    exact ⟨rfl, rfl, rfl, rfl⟩
  case line => exact ⟨exec_lineTick_line awake lower running inside single, Tg.advance_position ..⟩
  case boundary =>
    exact ⟨exec_lineTick_boundary awake lower running last, State.frameBegun_of_own, fun k => State.frameBegun_of_source,
      fun u h frame start => State.halfBoundary_tg h frame start⟩

end Sys2Proof
end

