-- ==== Sys2Proof/Proofs/OutputsAndBlanking.lean ====
section
/-! Events of variable blanking (R331, R332), and the output enable and the beam lead of LSCH_OUT_CFG (R43, R44, R46). -/

namespace Sys2Proof.Machine

variable {s : State} {n : OutId} {now t : W64} {g : Tg}

/-! ### What an event does to a generator -/

/-- An event in its time, of the mode that the generator is in, is taken. -/
theorem Tg.takeEvent_event {mode : BitVec 2} (running : g.running = true) (porch : g.eff.vAct.toNat ≤ g.line.toNat) (inPorch : g.afterPorch = none)
    (first : g.event = none) (after : g.porchAt.toNat < t.toNat) (hmode : g.eff.vrrMode = mode) : (g.takeEvent mode t).event = some t := by
  simp [Tg.takeEvent, running, porch, inPorch, first, after, hmode]

/-- What the first active line of a frame received by port rx does to generator k. -/
def Tg.lockEvent (g : Tg) (k : Nat) (rx : Fin 2) (t : W64) : Tg :=
  if (decide (k % 2 = 1) && g.paired) || g.eff.vrrSrc != decide (rx.val = 1) then g else g.takeEvent 2 t

/-- A fold that visits generators one by one, each visit a change of that generator alone by what it is, visits each as the fold found it. -/
theorem State.foldl_tg {F : State → Nat → State} {G : Nat → Tg → Tg} (hsame : ∀ s k, (F s k).tg k = G k (s.tg k))
    (hother : ∀ s k j, j ≠ k → (F s k).tg j = s.tg j) {l : List Nat} (hl : l.Nodup) (j : Nat) :
    (l.foldl F s).tg j = if j ∈ l then G j (s.tg j) else s.tg j := by
  induction l generalizing s with
  | nil => simp
  | cons k l ih =>
    obtain ⟨hk, hl⟩ := List.nodup_cons.1 hl
    rw [List.foldl_cons, ih hl]
    by_cases hj : j = k
    · subst hj
      simp [hk, hsame]
    · simp [hj, hother s k j hj]

/-- CAPTURE_LOCK_EVENT gives the event to each generator as it stands. -/
theorem exec_captureLockEvent (rx : Fin 2) (awake : s.inert = false) :
    Ends (.captureLockEvent rx t now) s (fun u => (u.tg n.val) = (s.tg n.val).lockEvent n.val rx t) := by
  refine ⟨_, congrArg Host.Outcome.next (if_neg (by simp [awake])), ?_⟩
  dsimp only
  rw [State.foldl_tg (G := fun k g => g.lockEvent k rx t) ?_ ?_ List.nodup_range]
  · simp
  · intro s k
    unfold Tg.lockEvent State.upperHalf
    split
    · rfl
    · exact State.setTg_tg ..
  · intro s k j hj
    split
    · rfl
    · exact State.setTg_tg_other _ _ _ _ hj

/-! ### TE_EDGE -/

/-- The level of a TE pin, from the instant of an edge on. -/
def State.teMoved (s : State) (k : Nat) (level : Bool) (now : W64) : State :=
  { s.at_ now with pins := { s.pins with te := setBit s.pins.te k level } }

theorem exec_teEdge (level : Bool) (awake : s.inert = false) :
    exec (.teEdge n level t now) s =
      .next (if bitOf s.pins.te n.val == level || s.upperHalf n.val || level != (s.tg n.val).tePol then s.teMoved n.val level now
        else (s.teMoved n.val level now).setTg n.val ((s.tg n.val).takeEvent 3 t)) := by
  refine congrArg Host.Outcome.next ((if_neg (by simp [awake])).trans ?_)
  by_cases later : s.dtb.toNat < now.toNat
  · simp only [State.teMoved, State.at_, if_pos later]
    rfl
  · simp only [State.teMoved, State.at_, if_neg later]
    rfl

/-! ### LSCH_OUT_CFG -/

theorem State.setOut_setOut (s : State) (k : Nat) (x y : LschOut) : (s.setOut k x).setOut k y = s.setOut k y := by
  simp only [State.setOut, Tbl.set_set]

/-- The enable is written behind whatever the write of the beam lead left, and stops the streams that the output governs. -/
theorem State.writeOutEn_setOut (s : State) (k : Nat) (x : LschOut) (en : Bool) :
    (s.setOut k x).writeOutEn k en =
      s.setOut k { x with en := en, stopAtBoundary := x.stopAtBoundary || (!en && !(s.governed k).isEmpty) } := by
  have hgov : (s.setOut k x).governed k = s.governed k := rfl
  rw [State.writeOutEn, hgov, State.setOut_out, State.setOut_setOut]

section WriteLead

variable {k : Nat} {lead : BitVec 13}

theorem State.writeLead_accepted (h : lead.toNat = (s.out k).accepted) : s.writeLead k lead = s := if_pos h

variable (new : lead.toNat ≠ (s.out k).accepted)
include new

theorem State.writeLead_refused (h : (s.governed k).isEmpty = false ∨ s.leadOk k lead.toNat = false) :
    s.writeLead k lead = s.setOut k { s.out k with blReject := true } := by
  rcases h with h | h <;> simp [State.writeLead, new, h]

variable (idle : (s.governed k).isEmpty = true) (ok : s.leadOk k lead.toNat = true)
include idle ok

theorem State.writeLead_off (off : (s.tgOf k).phase = .off) :
    s.writeLead k lead = s.setOut k { s.out k with beamLead := lead, beamNext := none } := by
  simp [State.writeLead, new, idle, ok, off]

theorem State.writeLead_on (on : (s.tgOf k).phase ≠ .off) : s.writeLead k lead = s.setOut k { s.out k with beamNext := some lead } := by
  simp [State.writeLead, new, idle, ok, on]

end WriteLead

theorem exec_outCfg {value : W32} {c : Instr} (h : c = .beamLeadWrite n value ∨ c = .lschOutDisable n value) (awake : s.inert = false) :
    exec c s = .next ((s.writeLead n.val (BitVec.ofNat 13 (fieldOf value 12 0))).writeOutEn n.val (bitOf value 16)) := by
  rcases h with rfl | rfl <;> exact congrArg Host.Outcome.next (if_neg (by simp [awake]))

end Sys2Proof.Machine

namespace Sys2Proof

open Machine

theorem blankingEvents : Claim.BlankingEvents := by
  intro s n now t awake lower
  refine ⟨fun level h => ?pin, fun running porch inPorch first after => ⟨fun mode edge => ?te, fun rx mode src => ?lock⟩⟩
  case pin =>
    rw [exec_teEdge level awake, if_pos (by rcases h with h | h <;> simp [h])]
    rfl
  case te =>
    refine ⟨_, (exec_teEdge _ awake).trans (congrArg _ (if_neg (by simp [edge, lower]))), ?_, rfl⟩
    rw [State.setTg_tg]
    exact Tg.takeEvent_event running porch inPorch first after mode
  case lock =>
    obtain ⟨u, hu, htg⟩ := exec_captureLockEvent (t := t) (now := now) (n := n) rx awake
    refine ⟨u, hu, ?_⟩
    dsimp only
    rw [htg, Tg.lockEvent, if_neg (by simpa [src, State.upperHalf] using lower)]
    exact Tg.takeEvent_event running porch inPorch first after mode

theorem outputConfiguration : Claim.OutputConfiguration := by
  intro s n value c hc awake
  rw [exec_outCfg hc awake]
  refine ⟨fun old => ?_, fun new refused => ?_, fun new idle ok off => ?_, fun new idle ok on => ?_⟩
  · rw [State.writeLead_accepted old]
    rfl
  · rw [State.writeLead_refused new refused, State.writeOutEn_setOut]
  · rw [State.writeLead_off new idle ok off, State.writeOutEn_setOut]
  · rw [State.writeLead_on new idle ok on, State.writeOutEn_setOut]

/-- Settles O26, by the branches of TE_EDGE and CAPTURE_LOCK_EVENT, and by where a new beam lead goes. -/
theorem outputsAndBlanking : Obligations.OutputsAndBlanking := ⟨blankingEvents, outputConfiguration⟩

end Sys2Proof
end

