-- ==== Sys2Proof/Proofs/FrondRests.lean ====
section
/-! A frond at rest: with nothing of its task to go on with, its pump moves nothing and only notes what blocks. -/

namespace Sys2Proof.Machine

variable {s : State} {f : Nat} {live : Bool}

/-- Nothing of the task of one share of frond f can go on: what `State.Rests` says of both shares. -/
structure State.ShareRests (s : State) (f : Nat) (live : Bool) : Prop where
  fed : (s.taskOf f live).fed = []
  ran : ∀ q, ∀ e ∈ (s.taskOf f live).queues.get q [], e.after ≠ none
  ending : (s.taskOf f live).ending = none
  keep : (s.taskOf f live).keep = none

theorem State.Rests.share (h : s.Rests f) (live : Bool) : s.ShareRests f live :=
  ⟨h.fed live, h.ran live, h.ending live, h.keep live⟩

/-! ### The task of a share that has changed -/

theorem State.modTask_live (g : Task → Task) :
    (s.modTask f true g).frond f = { s.frond f with live := (s.frond f).live.map g } := State.setFrond_frond ..

theorem State.modTask_simmer (g : Task → Task) :
    (s.modTask f false g).frond f = { s.frond f with simmer := (s.frond f).simmer.map g } := State.setFrond_frond ..

/-! ### What a frond at rest tries -/

/-- A queue with every command run has none to run. -/
theorem State.tryQueue_ran {q : Nat} (h : ∀ e ∈ (s.taskOf f live).queues.get q [], e.after ≠ none) : s.tryQueue f live q = .error .other := by
  have hall : ((s.taskOf f live).queues.get q []).takeWhile (fun e => e.after.isSome) = (s.taskOf f live).queues.get q [] :=
    List.takeWhile_eq_self_iff.2 fun e he => Option.isSome_iff_ne_none.2 (h e he)
  unfold State.tryQueue
  simp only [hall, List.drop_length]

theorem State.fillAhead_ran (h : ∀ e ∈ (s.taskOf f live).queues.get 0 [], e.after ≠ none) : s.fillAhead f live = .error .other := by
  have hpass : (s.taskOf f live).nextPass = none := by
    have hnone : ((s.taskOf f live).queues.get 0 []).find? (fun e => e.after.isNone) = none :=
      List.find?_eq_none.2 fun e he k => h e he (Option.isNone_iff_eq_none.1 k)
    simp only [Task.nextPass, hnone]
  simp only [State.fillAhead, hpass]

theorem keepOne_idle (h : (s.taskOf f live).keep = none) : (keepOne f live).run s = .error (.wait .other) := by
  unfold keepOne
  simp [h, waitFor] <;> rfl

theorem State.moveDmas_none (h : (s.frond f).dma = []) : s.moveDmas f = (none, []) := by
  simp only [State.moveDmas, h, List.foldl_nil]

theorem State.ShareRests.tryIssue (h : s.ShareRests f live) : s.tryIssue f live = .error .other := by
  simp only [State.tryIssue, h.fed]

theorem State.ShareRests.runOne (h : s.ShareRests f live) : s.runOne f live = none := by
  have hqueues : (List.range 7).findSome? (fun q => (s.tryQueue f live q).toOption) = none :=
    List.findSome?_eq_none_iff.2 fun q _ => by rw [State.tryQueue_ran (h.ran q)]; rfl
  simp only [State.runOne, hqueues, keepOne_idle h.keep, State.fillAhead_ran (h.ran 0)]
  rfl

/-! ### The pump -/

/-- A frond can do nothing when it has no transfer and the share that issues, if one does, is at rest. -/
theorem State.pumpOne_rests (hdma : (s.frond f).dma = []) (h : ∀ live, s.activeShare f = some live → s.ShareRests f live) :
    s.pumpOne f = none := by
  unfold State.pumpOne
  cases hshare : s.activeShare f with
  | none => simp only [State.moveDmas_none hdma, Option.map_none]
  | some live =>
    have rests := h live hshare
    simp only [rests.runOne, State.moveDmas_none hdma, rests.ending, rests.tryIssue]
    rfl

theorem State.pumpFor_rests (h : s.pumpOne f = none) (fuel : Nat) : State.pumpFor fuel s f = s := by
  cases fuel with
  | zero => rfl
  | succ fuel => simp only [State.pumpFor, h]

/-- Noting what blocks changes the timers of the task that issues, and nothing else. -/
theorem State.setTimers_eq (s : State) (f : Nat) : s.setTimers f = s ∨ ∃ live g, s.activeShare f = some live
    ∧ (∀ t, ∃ sem tags, g t = { t with semSince := sem, tagSince := tags }) ∧ s.setTimers f = s.modTask f live g := by
  unfold State.setTimers
  cases hshare : s.activeShare f with
  | none => exact .inl rfl
  | some live => exact .inr ⟨live, _, rfl, fun t => ⟨_, _, rfl⟩, rfl⟩

theorem State.setTimers_ctxs (s : State) (f : Nat) : (s.setTimers f).ctxs = s.ctxs := by
  rcases s.setTimers_eq f with h | ⟨live, g, -, -, h⟩
  · rw [h]
  · rw [h]
    cases live <;> rfl

/-- The pump of a frond that can do nothing only notes what blocks. -/
theorem State.pump_rests (h : s.pumpOne f = none) : s.pump f = s.setTimers f := by
  have halone : s.pumpAlone f = s.setTimers f := by rw [State.pumpAlone, State.pumpFor_rests h]
  unfold State.pump
  simp only [halone]
  cases hmark : s.markedJob f with
  | none => rfl
  | some c =>
    have hmarked : ((s.ctx c).job.map Job.marked).getD false = true := (Option.filter_eq_some_iff.1 hmark).2
    have hkept : (s.setTimers f).ctx c = s.ctx c := by simp only [State.ctx, State.setTimers_ctxs]
    have hstill : ((s.ctx c).job.map Job.marked).getD true = true := by
      cases hj : (s.ctx c).job with
      | none => rfl
      | some j => rwa [hj] at hmarked
    simp only [hkept, hstill, if_true]

/-! ### The task after its timers -/

theorem State.activeShare_live {t : Task} (hlive : (s.frond f).live = some t) (h : s.activeShare f = some live) : live = true := by
  unfold State.activeShare at h
  simp only [hlive] at h
  split_ifs at h
  exact (Option.some.inj h).symm

theorem State.activeShare_simmer (hlive : (s.frond f).live = none) (h : s.activeShare f = some live) : live = false := by
  unfold State.activeShare at h
  simp only [hlive] at h
  split_ifs at h
  split at h
  · contradiction
  · split_ifs at h
    exact (Option.some.inj h).symm
  · contradiction

/-- A live task's timers leave the rest of it, and the rest of its frond. -/
theorem State.setTimers_live {t : Task} (h : (s.frond f).live = some t) :
    ∃ sem tags, (s.setTimers f).frond f = { s.frond f with live := some { t with semSince := sem, tagSince := tags } } := by
  rcases s.setTimers_eq f with e | ⟨live, g, hshare, hg, e⟩
  · exact ⟨t.semSince, t.tagSince, by rw [e, ← h]⟩
  · obtain rfl := State.activeShare_live h hshare
    obtain ⟨sem, tags, ht⟩ := hg t
    exact ⟨sem, tags, by rw [e, State.modTask_live, h, Option.map_some, ht]⟩

/-- With no live task, the timers of simmer work leave the rest of it, and the rest of its frond. -/
theorem State.setTimers_simmer {t : Task} (hlive : (s.frond f).live = none) (h : (s.frond f).simmer = some t) :
    ∃ sem tags, (s.setTimers f).frond f = { s.frond f with simmer := some { t with semSince := sem, tagSince := tags } } := by
  rcases s.setTimers_eq f with e | ⟨live, g, hshare, hg, e⟩
  · exact ⟨t.semSince, t.tagSince, by rw [e, ← h]⟩
  · obtain rfl := State.activeShare_simmer hlive hshare
    obtain ⟨sem, tags, ht⟩ := hg t
    exact ⟨sem, tags, by rw [e, State.modTask_simmer, h, Option.map_some, ht]⟩

end Sys2Proof.Machine
end

