-- ==== Sys2Proof/Proofs/StripeStarts.lean ====
section
/-! STRIPE_START (R37): which released stripe a frond begins, and the live task that it then has. -/

namespace Sys2Proof

/-- A table rid of the entries that a predicate does not keep reads them as its default. -/
theorem Tbl.get_filter_cells {α : Type} (t : Tbl α) (keep : Nat → Bool) {k : Nat} (d : α) (h : keep k = false) :
    Tbl.get ⟨t.cells.filter (fun c => keep c.1)⟩ k d = d := by
  show Tbl.get.go k d (t.cells.filter (fun c => keep c.1)) = d
  induction t.cells with
  | nil => rfl
  | cons c l ih =>
    rw [List.filter_cons]
    split
    · next hc =>
      have hne : k ≠ c.1 := fun e => by rw [← e, h] at hc; contradiction
      rw [Tbl.get.go, if_neg hne, ih, ite_self]
    · exact ih

end Sys2Proof

namespace Sys2Proof.Machine

variable {s t : State} {f : Nat}

/-! ### The earliest deadline (R37) -/

/-- Stripe a starts before stripe b: the earlier deadline, then the lower output, then the lower context. -/
def StripeJob.before (a b : StripeJob) : Bool :=
  if a.deadline ≠ b.deadline then decide (a.deadline.toNat < b.deadline.toNat)
  else if a.out ≠ b.out then decide (a.out < b.out) else decide (a.ctx ≤ b.ctx)

theorem StripeJob.deadline_le_of_before {a b : StripeJob} (h : a.before b = true) : a.deadline.toNat ≤ b.deadline.toNat := by
  unfold StripeJob.before at h
  split at h
  · exact (of_decide_eq_true h).le
  · next same => exact (congrArg BitVec.toNat (not_not.1 same)).le

theorem StripeJob.deadline_le_of_not_before {a b : StripeJob} (h : a.before b = false) : b.deadline.toNat ≤ a.deadline.toNat := by
  unfold StripeJob.before at h
  split at h
  · exact Nat.not_lt.1 (of_decide_eq_false h)
  · next same => exact (congrArg BitVec.toNat (not_not.1 same)).ge

theorem earliestStripe_cons (a : StripeJob) (r : List StripeJob) :
    earliestStripe (a :: r) = some (match earliestStripe r with
      | none => a
      | some b => if a.before b then a else b) := by
  rw [earliestStripe]
  cases earliestStripe r with
  | none => rfl
  | some b => exact (apply_ite some _ _ _).symm

theorem earliestStripe_eq_none {l : List StripeJob} (h : earliestStripe l = none) : l = [] := by
  cases l with
  | nil => rfl
  | cons a r => rw [earliestStripe_cons] at h; contradiction

/-- No stripe of the list has an earlier deadline than the one that starts next. -/
theorem earliestStripe_le {l : List StripeJob} {j : StripeJob} (h : earliestStripe l = some j) : ∀ q ∈ l, j.deadline.toNat ≤ q.deadline.toNat := by
  induction l generalizing j with
  | nil => simp
  | cons a r ih =>
    rw [earliestStripe_cons] at h
    rw [List.forall_mem_cons]
    cases hr : earliestStripe r with
    | none =>
      obtain rfl : a = j := by simpa [hr] using h
      obtain rfl := earliestStripe_eq_none hr
      exact ⟨le_rfl, by simp⟩
    | some b =>
      cases hab : a.before b with
      | true =>
        obtain rfl : a = j := by simpa [hr, hab] using h
        exact ⟨le_rfl, fun q hq => (StripeJob.deadline_le_of_before hab).trans (ih hr q hq)⟩
      | false =>
        obtain rfl : b = j := by simpa [hr, hab] using h
        exact ⟨StripeJob.deadline_le_of_not_before hab, ih hr⟩

/-! ### What the start of a task leaves alone -/

theorem State.divided_of_ctxs (h : t.ctxs = s.ctxs) (g : Nat) : t.divided g = s.divided g := by
  have hsame : t.divided g = ({ s with ctxs := t.ctxs } : State).divided g := rfl
  rw [hsame, h]

theorem State.heldFor_congr (hc : t.ctxs = s.ctxs) (hi : (t.frond f).heldIncs = (s.frond f).heldIncs) (live : Bool) (n : BitVec 16) :
    t.heldFor f live n = s.heldFor f live n := by
  simp only [State.heldFor, hi, State.divided_of_ctxs hc]

/-- A change of other fronds, one by one, leaves frond f and the contexts. -/
theorem State.foldl_frond_other {F : State → Nat → State} (hf : ∀ s g, (F s g).frond f = s.frond f) (hc : ∀ s g, (F s g).ctxs = s.ctxs)
    (l : List Nat) :
    (l.foldl F s).frond f = s.frond f ∧ (l.foldl F s).ctxs = s.ctxs := by
  induction l generalizing s with
  | nil => exact ⟨rfl, rfl⟩
  | cons g l ih =>
    obtain ⟨h1, h2⟩ := ih (s := F s g)
    exact ⟨h1.trans (hf s g), h2.trans (hc s g)⟩

/-- The number of a stripe's task is given to the other fronds of the set: it changes neither frond f nor a context. -/
theorem State.stripeTask_keeps (s : State) (f : Nat) (j : StripeJob) (mask : BitVec 256) :
    (s.stripeTask f j mask).2.frond f = s.frond f ∧ (s.stripeTask f j mask).2.ctxs = s.ctxs := by
  unfold State.stripeTask
  cases j.task with
  | some n => exact ⟨rfl, rfl⟩
  | none =>
    refine State.foldl_frond_other (s := (s.nextTask mask).2) (fun s g => ?_) (fun s g => ?_) _
    · dsimp only
      split
      · rfl
      · exact State.setFrond_frond_other _ _ _ _ (Ne.symm ‹_›)
    · dsimp only
      split <;> rfl

theorem State.taskBoundary_keeps (s : State) (f : Nat) : (s.taskBoundary f).ctxs = s.ctxs
    ∧ ∃ active lines pending, (s.taskBoundary f).frond f = { s.frond f with cacheActive := active, cache := lines, cachePending := pending } := by
  unfold State.taskBoundary
  dsimp only
  split
  · exact ⟨rfl, _, _, _, State.setFrond_frond ..⟩
  · exact ⟨rfl, _, _, _, rfl⟩

/-! ### Semaphores of the task's share (R280) -/

/-- A start of a live task zeroes the semaphores of its share, and changes nothing else of its frond but what is held and the number of the task. -/
theorem State.startSems_frond (s : State) (f : Nat) {live : Bool} (h : live = true) (n : BitVec 16) : ∃ held,
    (s.startSems f live n).frond f = { s.frond f with
      sems := ⟨(s.frond f).sems.cells.filter (fun c => !semShare (s.divided f) true c.1)⟩, heldIncs := held, liveTask := n } := by
  subst h
  unfold State.startSems
  exact ⟨_, (State.frond_of_uncounted (State.uncounted_count ..) f).trans (State.setFrond_frond ..)⟩

/-- An increment that the semaphore has room for is added to it. -/
theorem State.addSem_fits {sem n : Nat} (engine index : Nat) (h : ((s.frond f).sems.get sem 0).toNat + n ≤ 65535) :
    s.addSem f sem n engine index = s.setFrond f { s.frond f with
      sems := (s.frond f).sems.set sem (BitVec.ofNat 16 (((s.frond f).sems.get sem 0).toNat + n)) } := by
  unfold State.addSem
  simp only [if_neg (Nat.not_lt.2 h), Nat.min_eq_right h]

/-- Increments that the semaphores have room for, all of them together, change the frond's semaphores alone. -/
theorem State.addSems_frond (l : List HeldInc)
    (h : ∀ e ∈ l, ((s.frond f).sems.get e.sem.toNat 0).toNat + (l.map (fun e => e.count.toNat)).sum ≤ 65535) :
    ∃ sems, (l.foldl (fun s h => s.addSem f h.sem.toNat h.count.toNat 8 0) s).frond f = { s.frond f with sems := sems } := by
  induction l generalizing s with
  | nil => exact ⟨(s.frond f).sems, rfl⟩
  | cons e l ih =>
    have he := h e List.mem_cons_self
    rw [List.map_cons, List.sum_cons] at he
    rw [List.foldl_cons, State.addSem_fits 8 0 (by omega)]
    obtain ⟨sems, hsems⟩ := ih (s := s.setFrond f { s.frond f with
        sems := (s.frond f).sems.set e.sem.toNat (BitVec.ofNat 16 (((s.frond f).sems.get e.sem.toNat 0).toNat + e.count.toNat)) }) fun d hd => by
      have hd' := h d (List.mem_cons_of_mem _ hd)
      rw [List.map_cons, List.sum_cons] at hd'
      rw [State.setFrond_frond, Tbl.get_set]
      split
      · rw [BitVec.toNat_ofNat, Nat.mod_eq_of_lt (by omega)]
        omega
      · omega
    exact ⟨sems, by rw [hsems, State.setFrond_frond]⟩

/-! ### The live task that has started -/

/-- Frond y has begun live task k at these rows of the picture, beside the simmer work and the transfers of frond x. -/
structure Frond.Begun (x y : Frond) (k : Task) (row0 hExt : Nat) : Prop where
  live : ∃ starts step, y.live = some { k with starts := starts, step := step, committed := true }
  simmer : y.simmer = x.simmer
  dma : y.dma = x.dma
  row0 : y.row0 = BitVec.ofNat 13 row0
  hExt : y.hExt = BitVec.ofNat 13 hExt

variable {k : Task} {row0 hExt : Nat}

theorem State.beginTask_begun (hk : k.live = true) : (s.frond f).Begun ((s.beginTask f k row0 hExt).frond f) k row0 hExt
    ∧ ∀ sem, semShare (s.divided f) true sem = true → ((s.beginTask f k row0 hExt).frond f).sems.get sem 0 = 0 := by
  obtain ⟨hctxs, active, lines, pending, hbound⟩ := ((s.wake (f / 8)).meter f).taskBoundary_keeps f
  obtain ⟨held, hsems⟩ := (((s.wake (f / 8)).meter f).taskBoundary f).startSems_frond f hk k.taskNo
  have hdiv : (((s.wake (f / 8)).meter f).taskBoundary f).divided f = s.divided f :=
    (State.divided_of_ctxs hctxs f).trans (State.divided_of_uncounted ((State.uncounted_meter f).trans (State.uncounted_wake _)) f)
  rw [hbound, State.meter_frond, State.wake_frond, hdiv] at hsems
  unfold State.beginTask
  simp only [State.setFrond_frond, hsems, if_pos hk]
  exact ⟨⟨⟨_, _, rfl⟩, rfl, rfl, rfl, rfl⟩, fun sem hsem => Tbl.get_filter_cells _ (fun c => !semShare (s.divided f) true c) 0 (by simp [hsem])⟩

/-- A live task whose held increments fit begins, and nothing faults. -/
theorem State.startTask_begun (hk : k.live = true) (hfit : ((s.heldFor f true k.taskNo).map (fun h => h.count.toNat)).sum ≤ 65535) :
    (s.frond f).Begun ((s.startTask f k row0 hExt).frond f) k row0 hExt := by
  obtain ⟨⟨hlive, hsimmer, hdma, hrow, hext⟩, hzero⟩ := s.beginTask_begun (f := f) (row0 := row0) (hExt := hExt) hk
  obtain ⟨sems, hsems⟩ := State.addSems_frond (s := s.beginTask f k row0 hExt) (f := f) (s.heldFor f true k.taskNo) fun e he => by
    have hshare : semShare (s.divided f) true e.sem.toNat = true := (Bool.and_eq_true_iff.1 (List.mem_filter.1 he).2).1
    rw [hzero _ hshare]
    simpa using hfit
  unfold State.startTask
  rw [hk, hsems]
  exact ⟨hlive, hsimmer, hdma, hrow, hext⟩

/-! ### STRIPE_START -/

/-- The task that a frond begins for stripe j of a frame, by variant i, under task number n. -/
def stripeTaskOf (j : StripeJob) (b : Bound) (r : FrameRun) (kind : BitVec 2) (i : Nat) (n : BitVec 16) : Task :=
  { taskFor j.ctx true b i kind r.exts n with
    frame := j.frame, stripe := j.stripe, shifts := r.shifts, out := j.out, deadline := j.deadline }

variable {j : StripeJob} {b : Bound} {r : FrameRun} {i : Nat}

theorem State.beginStripe_begun (hvar : s.selectFor j.ctx b (r.kind ||| (if s.anyRow j.ctx then 1 else 0)) r.exts = .ok i)
    (hfit : ((s.heldFor f true (s.stripeTask f j b.mask).1).map (fun h => h.count.toNat)).sum ≤ 65535) :
    ∃ kind n, (s.frond f).Begun ((s.beginStripe f j b r).frond f) (stripeTaskOf j b r kind i n) (j.stripe * b.image.h.toNat)
      (r.total * b.image.h.toNat) := by
  obtain ⟨hfrond, hctxs⟩ := s.stripeTask_keeps f j b.mask
  unfold State.beginStripe
  simp only [hvar]
  rw [hfrond]
  have hheld := State.heldFor_congr (t := (s.stripeTask f j b.mask).2.setFrond f { s.frond f with
      released := (s.frond f).released.filter (fun q => decide (q ≠ { j with task := q.task })) }) (s := s) (f := f) hctxs
    (by rw [State.setFrond_frond]) true (s.stripeTask f j b.mask).1
  rw [← hheld] at hfit
  obtain ⟨hlive, hsimmer, hdma, hrow, hext⟩ := State.startTask_begun (row0 := j.stripe * b.image.h.toNat) (hExt := r.total * b.image.h.toNat)
    (k := stripeTaskOf j b r (r.kind ||| (if s.anyRow j.ctx then 1 else 0)) i (s.stripeTask f j b.mask).1) rfl hfit
  rw [State.setFrond_frond] at hsimmer hdma
  exact ⟨_, _, hlive, hsimmer, hdma, hrow, hext⟩

/-- A frond that has just begun a stripe waits for its first command. -/
theorem Frond.Begun.pump {x : Frond} {kind : BitVec 2} {n : BitVec 16} (h : x.Begun (s.frond f) (stripeTaskOf j b r kind i n) row0 hExt)
    (hdma : x.dma = []) :
    ∃ starts step sem tags, (s.pump f).frond f = { s.frond f with live := some { stripeTaskOf j b r kind i n with
      starts := starts, step := step, committed := true, semSince := sem, tagSince := tags } } := by
  obtain ⟨starts, step, hlive⟩ := h.live
  have rests : s.ShareRests f true := by
    refine ⟨?_, ?_, ?_, ?_⟩ <;> unfold State.taskOf <;> rw [if_pos rfl, hlive]
    · rfl
    · simp [stripeTaskOf, taskFor]
    · rfl
    · rfl
  have still : s.pumpOne f = none :=
    State.pumpOne_rests (h.dma.trans hdma) fun live hshare => State.activeShare_live hlive hshare ▸ rests
  obtain ⟨sem, tags, htimers⟩ := State.setTimers_live hlive
  exact ⟨starts, step, sem, tags, by rw [State.pump_rests still, htimers]⟩

theorem exec_stripeStart {f : FrondId} (awake : s.inert = false) (free : (s.frond f.val).live = none)
    (yielded : ∀ t, (s.frond f.val).simmer = some t → t.yielded = true) (runs : s.frondRuns f.val = true)
    (first : earliestStripe ((s.frond f.val).released.filter (fun q => !(s.frond f.val).placeDue.contains q.ctx)) = some j)
    (bound : (s.ctx j.ctx).bound = some b) (run : s.frameRun j.ctx j.frame = some r)
    (ckpt : ((s.frond f.val).stripeCkptOf j.ctx j.stripe).isSome = true) (hctx : s.ctxRuns j.ctx = true) :
    exec (.stripeStart f) s = .next ((s.beginStripe f.val j b r).pump f.val) := by
  have clear : ((s.frond f.val).simmer.map Task.yielded).getD true = true := by
    cases h : (s.frond f.val).simmer with
    | none => rfl
    | some t => exact yielded t h
  show execStripeStart f s = _
  unfold execStripeStart unlessInert
  simp only [awake, free, clear, runs, first, bound, run, ckpt, hctx, Option.isNone_none, Bool.and_self, if_true, Bool.false_eq_true, if_false]

end Sys2Proof.Machine

namespace Sys2Proof

open Machine

/-- Settles O38: the stripe of the earliest deadline begins, and its task waits at its first command. -/
theorem stripeStarts : Obligations.StripeStarts := by
  intro s f j b r i awake x free yielded runs first bound run ckpt hctx hvar hdma hfit
  refine ⟨fun q hq placed => earliestStripe_le first q (List.mem_filter.2 ⟨hq, by rw [placed]; rfl⟩),
    _, exec_stripeStart awake free yielded runs first bound run ckpt hctx, ?_⟩
  obtain ⟨kind, n, begun⟩ := State.beginStripe_begun hvar hfit
  obtain ⟨starts, step, sem, tags, hpump⟩ := begun.pump hdma
  rw [hpump]
  exact ⟨begun.simmer, begun.row0, begun.hExt, _, rfl, rfl, rfl, rfl, rfl, rfl, rfl⟩

end Sys2Proof
end

