-- ==== Sys2Proof/Proofs/SimmerYields.lean ====
section
/-! SIMMER_YIELD and SIMMER_RESUME (R39, R82): what a yield discards, and the task that a resume takes up again. -/

namespace Sys2Proof.Machine

variable {s : State} {f : Nat} {live : Bool}

/-! ### What a frond's reads leave alone -/

/-- The tasks of a frond and its transfers: what reading its memories leaves alone. -/
def Frond.tasks (x : Frond) : Option Task × Option Task × List DmaXfer := (x.live, x.simmer, x.dma)

theorem State.cachedRead_tasks (s : State) (f a n : Nat) : ((s.cachedRead f a n).2.frond f).tasks = (s.frond f).tasks := by
  unfold State.cachedRead
  refine List.foldlRecOn (motive := fun t : State => (t.frond f).tasks = (s.frond f).tasks) _ _ rfl fun t h i _ => ?_
  dsimp only
  split <;> rw [State.setFrond_frond] <;> exact h

theorem State.rowRead_tasks (s : State) (f : Nat) (p : Place) (off n : Nat) :
    ((s.rowRead f p off n).2.frond f).tasks = (s.frond f).tasks := by
  cases p with
  | phys r => rfl
  | spill r =>
    have hcount (i k : Nat) : (s.count i k).frond f = s.frond f := State.frond_of_uncounted (State.uncounted_count ..) f
    unfold State.rowRead State.frondHbmRead
    dsimp only
    split
    · rw [State.cachedRead_tasks, hcount]
    · rw [hcount]

/-! ### Engine operations that keep a property of the state -/

/-- An engine operation that ends well leaves a state with property P: for any property what `OpIn` says of `State.Within`. -/
structure Op.Ensures {α : Type} (P : State → Prop) (m : Op α) (s : State) : Prop where
  out : ∀ a t, m s = .ok (a, t) → P t

section Ensures

variable {α β : Type} {P : State → Prop}

theorem Op.Ensures.pure (h : P s) (a : α) : Op.Ensures P (Pure.pure a) s := ⟨fun _ _ e => by cases e; exact h⟩

theorem Op.Ensures.throw (e : Stop) : Op.Ensures P (MonadExcept.throw e : Op α) s := ⟨fun _ _ e => by cases e⟩

theorem Op.Ensures.bind {m : Op α} {k : α → Op β} (h : Op.Ensures P m s) (g : ∀ a t, P t → Op.Ensures P (k a) t) : Op.Ensures P (m >>= k) s := by
  refine ⟨fun b t e => ?_⟩
  have e : (m s >>= fun p => k p.1 p.2) = Except.ok (b, t) := e
  cases hm : m s with
  | error c => rw [hm] at e; cases e
  | ok p => rw [hm] at e; exact (g p.1 p.2 (h.out _ _ hm)).out b t e

theorem Op.Ensures.get {k : State → Op β} (g : Op.Ensures P (k s) s) : Op.Ensures P ((MonadState.get : Op State) >>= k) s := ⟨g.out⟩

theorem Op.Ensures.set {t : State} (h : P t) : Op.Ensures P (MonadStateOf.set t : Op PUnit) s := ⟨fun _ _ e => by cases e; exact h⟩

theorem Op.Ensures.need (h : P s) (c : Bool) (e : Stop) : Op.Ensures P (need c e) s := by
  unfold Sys2Proof.Machine.need
  split
  · exact .pure h ()
  · exact .throw e

theorem Op.Ensures.foldlM {γ : Type} (k : α → γ → Op α) (l : List γ) (a : α) (g : ∀ a x t, P t → Op.Ensures P (k a x) t) (h : P s) :
    Op.Ensures P (l.foldlM k a) s := by
  induction l generalizing a s with
  | nil => exact .pure h a
  | cons x l ih => rw [List.foldlM_cons]; exact .bind (g a x s h) fun a t k => ih a k

end Ensures

/-! ### Reloading the MXU buffers (R82) -/

variable {w : Option Task × Option Task × List DmaXfer}

/-- A read that stands at no region's tag keeps the tasks of its frond. -/
theorem readAccess_tasks {a : Access} (hreg : a.region = none) (h : (s.frond f).tasks = w) :
    Op.Ensures (fun t => (t.frond f).tasks = w) (readAccess f live a) s := by
  unfold readAccess
  rw [hreg]
  refine .get ?_
  split
  · exact .pure h _
  · split
    · exact .bind (.need h _ _) fun _ _ h => .pure h _
    · cases a.place with
      | none => exact .throw _
      | some p => exact .bind (.need h _ _) fun _ t h => .get (.bind (.set ((State.rowRead_tasks ..).trans h)) fun _ _ h => .pure h _)

theorem refill_tasks (b : MxuBuf) (h : (s.frond f).tasks = w) : Op.Ensures (fun t => (t.frond f).tasks = w) (refill f live b) s := by
  unfold refill
  split
  · refine .bind ?_ fun _ _ h => .pure h _
    unfold rereadStream
    refine .get ?_
    dsimp only
    split
    · exact .throw _
    · exact .bind (.foldlM _ _ _ (fun _ _ _ h => .get (.bind (readAccess_tasks rfl h) fun _ _ h => .pure h _)) h) fun _ _ h => .pure h _
  · exact .pure h _

/-- Frond x has no live task and no transfer, and simmer task k with whatever its MXU buffers hold. -/
structure Frond.Holds (x : Frond) (k : Task) : Prop where
  live : x.live = none
  dma : x.dma = []
  simmer : ∃ act weight, x.simmer = some { k with actBufs := act, weightBufs := weight }

theorem Frond.Holds.congr {x y : Frond} {k : Task} (h : x.Holds k) (e : y.tasks = x.tasks) : y.Holds k := by
  obtain ⟨hlive, e⟩ := Prod.mk.inj e
  obtain ⟨hsimmer, hdma⟩ := Prod.mk.inj e
  exact ⟨hlive.trans h.live, hdma.trans h.dma, by rw [hsimmer]; exact h.simmer⟩

/-- A buffer of the simmer task is read again, or stays as it is. -/
theorem State.refill_holds {k : Task} (h : (s.frond f).Holds k) (b : MxuBuf) {g : MxuBuf → Task → Task}
    (hg : ∀ b t, ∃ act weight, g b t = { t with actBufs := act, weightBufs := weight }) :
    ((match (refill f false b).run s with
      | .ok (b, s) => s.modTask f false (g b)
      | .error _ => s).frond f).Holds k := by
  split
  · next b' t hrun =>
    obtain ⟨hlive, hdma, act, weight, hsimmer⟩ := h.congr ((refill_tasks b rfl).out _ _ hrun)
    obtain ⟨act', weight', hbufs⟩ := hg b' { k with actBufs := act, weightBufs := weight }
    rw [State.modTask_simmer]
    exact ⟨hlive, hdma, act', weight', by rw [hsimmer, Option.map_some, hbufs]⟩
  · exact h

theorem State.reloadBuffers_holds {k : Task} (h : (s.frond f).Holds k) : ((s.reloadBuffers f false).frond f).Holds k := by
  unfold State.reloadBuffers
  refine List.foldlRecOn (motive := fun s : State => (s.frond f).Holds k) _ _ h fun s h i _ => ?_
  exact State.refill_holds (State.refill_holds h _ fun _ t => ⟨_, t.weightBufs, rfl⟩) _ fun _ t => ⟨t.actBufs, _, rfl⟩

/-! ### Table builds leave the tasks -/

theorem Frond.buildSlot_tasks (x : Frond) (half : Bool) (j : Nat) (entries : List (BitVec 16)) :
    (x.buildSlot half j entries).tasks = x.tasks := by
  unfold Frond.buildSlot Frond.tasks
  rfl

theorem Frond.buildSlots_tasks (x : Frond) (half : Bool) (first : Nat) (entries : List (BitVec 16)) :
    (x.buildSlots half first entries).tasks = x.tasks := by
  unfold Frond.buildSlots
  exact List.foldlRecOn (motive := fun y : Frond => y.tasks = x.tasks) _ _ rfl fun y h q _ => (y.buildSlot_tasks ..).trans h

/-! ### The resumed task -/

/-- A resume gives the frond its task back where it stood, with its timers moved on by the time of the yield. -/
theorem State.resumeSimmer_holds (s : State) (t : Task) (hlive : (s.frond f).live = none) (hdma : (s.frond f).dma = []) :
    ∃ now, ((s.resumeSimmer f t).frond f).Holds (t.shiftTimers now) := by
  refine ⟨((s.wake (f / 8)).meter f).dtb, State.reloadBuffers_holds ?_⟩
  rw [State.setFrond_frond, State.meter_frond, State.wake_frond]
  cases t.lastBuild with
  | none => exact ⟨hlive, hdma, _, _, rfl⟩
  | some b =>
    obtain ⟨hl, e⟩ := Prod.mk.inj ((s.frond f).buildSlots_tasks (s.frond f).ptmHalf b.slot b.entries)
    exact ⟨hl.trans hlive, (Prod.mk.inj e).2.trans hdma, _, _, rfl⟩

/-- A frond that holds a task which was at rest when it yielded, resumed, does nothing of itself. -/
theorem Frond.Holds.pump {t : Task} {now : W64} (h : (s.frond f).Holds (t.shiftTimers now)) (fed : t.fed = [])
    (ran : ∀ q, ∀ e ∈ t.queues.get q [], e.after ≠ none) (ending : t.ending = none) (keep : t.keep = none) :
    ∃ act weight sem tags, ((s.pump f).frond f).simmer =
      some { t.shiftTimers now with actBufs := act, weightBufs := weight, semSince := sem, tagSince := tags } := by
  obtain ⟨hlive, hdma, act, weight, hsimmer⟩ := h
  have htask : s.taskOf f false = { t.shiftTimers now with actBufs := act, weightBufs := weight } := by
    unfold State.taskOf
    rw [if_neg Bool.false_ne_true, hsimmer]
    rfl
  have rests : s.ShareRests f false := ⟨by rw [htask]; exact fed, by rw [htask]; exact ran, by rw [htask]; exact ending, by rw [htask]; exact keep⟩
  have still : s.pumpOne f = none := State.pumpOne_rests hdma fun live hshare => State.activeShare_simmer hlive hshare ▸ rests
  obtain ⟨sem, tags, htimers⟩ := State.setTimers_simmer hlive hsimmer
  exact ⟨act, weight, sem, tags, by rw [State.pump_rests still, htimers]⟩

/-! ### The yield -/

/-- Frond f's simmer task t has yielded: the product tables are discarded, and of the MXU buffers those that can be filled again (R82, Table 03.5,
log 68). -/
def State.afterYield (s : State) (f : Nat) (t : Task) : State :=
  (s.meter f).setFrond f { s.frond f with
    ptm := {}, ptmBuilt := [], simmer := some { t.discardBuffers with yielded := true, yieldAt := s.dtb, held := {} } }

theorem State.settleAreas_none (h : (s.frond f).placeDue = []) : s.settleAreas f = s := by
  simp only [State.settleAreas, h, List.foldl_nil, ite_self]

section Exec

variable {f : FrondId} {t : Task} (awake : s.inert = false) (simmer : (s.frond f.val).simmer = some t)
include awake simmer

theorem exec_simmerYield (runs : t.yielded = false) (cause : (s.frond f.val).released ≠ [] ∨ s.simmerHalted = true) :
    exec (.simmerYield f) s = .next ((s.afterYield f.val t).settleAreas f.val) := by
  have hcause : (!(s.frond f.val).released.isEmpty || s.simmerHalted) = true := by
    rcases cause with h | h
    · simp [List.isEmpty_eq_false_iff.2 h]
    · simp [h]
  show execSimmerYield f s = _
  unfold execSimmerYield unlessInert State.yieldFrond
  simp only [awake, Bool.false_eq_true, if_false, hcause, if_true, simmer, runs]
  rfl

theorem exec_simmerResume (yielded : t.yielded = true) (free : (s.frond f.val).live = none) (noneDue : (s.frond f.val).released = [])
    (cool : s.simmerHalted = false) : exec (.simmerResume f) s = .next ((s.resumeSimmer f.val t).pump f.val) := by
  show execSimmerResume f s = _
  unfold execSimmerResume unlessInert
  simp [awake, simmer, yielded, free, noneDue, cool]

end Exec

end Sys2Proof.Machine

namespace Sys2Proof

open Machine

/-- Settles O39: the yield as the model writes it, and the resume, whose reloading and pump leave where the task stands. -/
theorem simmerYieldsAndResumes : Obligations.SimmerYieldsAndResumes := by
  intro s f t awake x simmer
  refine ⟨fun runs cause => ⟨exec_simmerYield awake simmer runs cause, fun due => ?_⟩, fun yielded free noneDue cool rests => ?_⟩
  · have hdue : ((s.afterYield f.val t).frond f.val).placeDue = [] := by
      rw [State.afterYield, State.setFrond_frond]
      exact due
    exact (exec_simmerYield awake simmer runs cause).trans (congrArg _ (State.settleAreas_none hdue))
  · have htask : s.taskOf f.val false = t := by
      unfold State.taskOf
      rw [if_neg Bool.false_ne_true, simmer]
      rfl
    obtain ⟨now, holds⟩ := s.resumeSimmer_holds t free rests.dma
    obtain ⟨act, weight, sem, tags, hpump⟩ :=
      holds.pump (htask ▸ rests.fed false) (htask ▸ rests.ran false) (htask ▸ rests.ending false) (htask ▸ rests.keep false)
    exact ⟨_, exec_simmerResume awake simmer yielded free noneDue cool, _, hpump, rfl, rfl, rfl, rfl, rfl, rfl⟩

end Sys2Proof
end

