-- ==== Sys2Proof/Proofs/FixedAccumulation.lean ====
section
/-! The fixed-point accumulator: a product on the 2^-48 grid adds to a finite entry exactly while the sum stays in range (R172), so the products of one
entry add up exactly, whatever their number (R59). -/

namespace Sys2Proof.Machine

/-- A sum within the signed 96-bit range is held exactly. -/
theorem entryOfSum_inRange {n : Int} (lower : -(2 ^ 95) ≤ n) (upper : n < 2 ^ 95) :
    (entryOfSum n).st = .finite ∧ (entryOfSum n).int = n := by
  have hheld : entryOfSum n = { bits := BitVec.ofInt 96 n, st := .finite } := by
    rw [entryOfSum, if_neg (by omega), if_neg (by omega)]
  rw [hheld]
  refine ⟨rfl, ?_⟩
  rw [Entry.int, BitVec.toInt_ofInt]
  exact Int.bmod_eq_of_le (by omega) (by omega)

/-- A product that is a whole number of grid steps adds that number to a finite entry. -/
theorem Entry.addFixed_onGrid {e : Entry} (finite : e.st = .finite) {q : Rat} {z : Bool} {n : Int} (grid : q * pow2 48 = (n : Rat)) :
    e.addFixed (.num q z) = entryOfSum (e.int + n) := by
  simp only [Entry.addFixed, finite, grid, Rat.floor_intCast]

/-- The next product in ascending K order. -/
theorem addProducts_succ (wide : Bool) (kp : Nat) (a w : Nat → XVal) (e : Entry) :
    addProducts wide (kp + 1) a w e =
      if wide then (addProducts wide kp a w e).addWide ((a kp).mul (w kp)) else (addProducts wide kp a w e).addFixed ((a kp).mul (w kp)) := by
  simp only [addProducts, List.range_succ, List.foldl_append, List.foldl_cons, List.foldl_nil]

end Sys2Proof.Machine

namespace Sys2Proof
open Machine

/-- Settles O36, by induction on the number of products: each partial sum is in range, so each addition is exact. -/
theorem fixedAccumulationExact : Obligations.FixedAccumulationExact := by
  unfold Obligations.FixedAccumulationExact
  intro kp a w q n e finite products grid range
  induction kp with
  | zero => exact ⟨finite, by simp [addProducts]⟩
  | succ kp ih =>
    obtain ⟨hst, hint⟩ := ih (fun k hk => products k (by omega)) (fun k hk => grid k (by omega)) (fun k hk => range k (by omega))
    obtain ⟨z, hz⟩ := products kp (by omega)
    have hsum : e.int + ((List.range (kp + 1)).map n).sum = (addProducts false kp a w e).int + n kp := by
      rw [hint, List.range_succ, List.map_append, List.sum_append]
      simp [add_assoc]
    have hnext : addProducts false (kp + 1) a w e = entryOfSum ((addProducts false kp a w e).int + n kp) := by
      rw [addProducts_succ, hz]
      exact Entry.addFixed_onGrid hst (grid kp (by omega))
    obtain ⟨lower, upper⟩ := range (kp + 1) le_rfl
    rw [hnext, hsum]
    exact entryOfSum_inRange (hsum ▸ lower) (hsum ▸ upper)

end Sys2Proof
end

