-- ==== Sys2Proof/Proofs/Outcome.lean ====
section
/-! The state a command leads to, as a function: a counterexample evaluates it, and what a claim says of the command's outcome it says of this state. -/

namespace Sys2Proof.Machine

variable {s : State} {c : Instr} {p : State → Prop}

/-- The state after a command; the state before it where it answers none. -/
def State.after (s : State) (c : Instr) : State :=
  match exec c s with
  | .next t => t
  | _ => s

theorem State.after_eq {t : State} (h : exec c s = .next t) : s.after c = t := by
  simp only [State.after, h]

theorem Ends.after (h : Ends c s p) : p (s.after c) := by
  obtain ⟨t, runs, holds⟩ := h
  rwa [State.after_eq runs]

end Sys2Proof.Machine
end

