-- ==== Sys2Proof/Proofs/KeepTakesPassing.lean ====
section
/-! RHZ_KEEP does not leave its keep standing when the chunk it asks for is already there. A chunk the chain passed on while the frond's buffer was full
waits in `passing`; once the command has run, the frond's chain buffer has room, the chunk enters it, and the keep takes it and ends within the same step
(R81). So the clause of O37 that the keep stands with all its chunks left fails. -/

namespace Sys2Proof.Machine

/-- A pattern of one 2,048-byte chunk, in 64 accesses of 8 words, from byte 0. -/
def keepPattern : Pattern :=
  { base := 0, row := false, circ := 0, circEn := false, halo := false, tagged := false, dims := 0, counts := [63], strides := [8], width := 7, dyn := [] }

/-- Simmer work of context 48 with that pattern. -/
def keepTask : Task := { ctx := 48, image := { kind := 1, tBytes := 2048 }, pats := [keepPattern] }

/-- A chunk of zeros for context 48 that waits for room in the chain buffer. -/
def passingChunk : Chunk :=
  { src := 1, xfer := 0, ctx := 48, number := 0, bytes := List.replicate 2048 0, poisoned := false, taken := false }

/-- The last frond of a die's chain, with the task, four rows for it and the chunk. -/
def keepState : State := ({} : State).setFrond 56 { simmer := some keepTask, simRows := [0, 1, 2, 3], passing := [passingChunk] }

/-- RHZ_KEEP of one chunk through pattern 0. -/
def keepCmd : Instr := .rhzKeep 56 {} 0 1

theorem keepState_issues : keepState.Issues 56 false keepCmd where
  clear := ⟨rfl, rfl, rfl, fun _ => rfl, rfl, rfl, rfl, rfl, rfl, rfl, rfl, rfl, rfl⟩
  waits := ⟨_, rfl⟩
  sized := by decide +kernel

/-- The keep has taken its chunk before the step ends. -/
theorem keepState_after_keep : ((keepState.after keepCmd).taskOf 56 false).keep = none := by decide +kernel

end Sys2Proof.Machine

namespace Sys2Proof
open Machine

/-- Refutes O37: RHZ_KEEP whose chunk waits in the chain takes it at once, and no keep stands after the step. -/
theorem not_windowsAndAccesses : ¬ Obligations.WindowsAndAccesses := by
  unfold Obligations.WindowsAndAccesses
  intro claim
  obtain ⟨-, -, -, -, keeps⟩ := claim keepState 56 false {}
  have hkeep := (keeps 0 1 keepState_issues (by decide)).after
  exact nomatch keepState_after_keep.symm.trans hkeep

end Sys2Proof
end

