-- ==== Sys2Proof/Proofs/NopReachesAnotherFrond.lean ====
section
/-! NOP of the sequencer can move another frond. Its header signals a semaphore that stands at 65,535, so the live frame ends with SEM_OVERFLOW (R75) and
the frond's simmer share runs again; that share's END lets the job of its context, marked to be saved at the step's end, end its mark (R419), and the
fronds of the job that waited for this issue what they had been fed. The claim of O34 runs frond 0 alone. -/

namespace Sys2Proof.Machine

/-- A frame of input 0 in progress. -/
def runningFrame : FrameRun :=
  { frame := 0, input := 0, kind := 0, exts := [], lines := 0, total := 0, released := 0, ended := [], done := 0, dropped := false, status := 0, cause := 0
    held := [], heldTotal := 0, judged := [], unrun := none, readers := [], needs := [], spacing := 0, quiet := false, shifts := [], stats := {}
    poisoned := false }

/-- A context's model bound to the fronds of a mask. -/
def boundTo (mask : BitVec 256) : Bound := { image := {}, addr := 0, bytes := 0, sharedPin := false, pinned := 0, mask := mask }

/-- A running job of context 48 that waits to be saved. -/
def savedJob : Job :=
  { hdr := { sq := 0, idx := 0, ctx := 48 }
    body := { listEn := false, listHost := false, list := 0, count := 0, ext0 := 0, ext1 := 0, ext2 := 0, ext3 := 0 }
    inst := 0, ended := [], suspended := false, started := true, status := stOk, cause := 0, stats := {}, failedEntry := none, marked := true, taskNo := 0 }

/-- Frond 0: a live stripe of context 0 at its sequencer, semaphore 0 full, and simmer work whose step has committed and which stands at its END. -/
def overflowingFrond : Frond :=
  { live := some { live := true }, simmer := some { ctx := 48, committed := true, fed := [.end_ 0 {} 0] }, sems := ({} : Tbl (BitVec 16)).set 0 65535 }

/-- Frond 1: simmer work of the same job, its step committed, a NOP fed. -/
def waitingFrond : Frond := { simmer := some { ctx := 48, committed := true, fed := [.seqNop 1 {}] } }

/-- The two contexts, the frame in progress and the two fronds. -/
def nopState : State :=
  ((((({} : State).setCtx 0 { state := .running, bound := some (boundTo 1) }).setStream 0 { active := true, frames := [runningFrame] }).setCtx 48
    { bound := some (boundTo 3), job := some savedJob }).setFrond 0 overflowingFrond).setFrond 1 waitingFrond

/-- NOP whose header signals semaphore 0. -/
def nopCmd : Instr := .seqNop 0 { sen := true, ssem := 0 }

/-- The state once its header's waits are granted. -/
def nopGranted : State := (nopState.reached 0 true nopCmd).modTask 0 true (fun t => { t with granted := true })

theorem nopState_clear : nopState.Clear 0 true :=
  ⟨rfl, rfl, rfl, fun _ => rfl, rfl, rfl, rfl, rfl, rfl, rfl, rfl, rfl, rfl⟩

theorem headWait_nopCmd : (headWait 0 true nopCmd).run (nopState.reached 0 true nopCmd) = .ok ((), nopGranted) := rfl

/-- In the step, frond 1 has issued its NOP. -/
theorem nopState_after_nop : ((nopState.after nopCmd).taskOf 1 false).cmdIndex = 1 := by decide +kernel

/-- Frond 0 run alone leaves frond 1 where it stood. -/
theorem nopGranted_alone :
    (((State.pumpFor 259 ((nopGranted.issued 0 true).fireHeader 0 nopCmd 0) 0).setTimers 0).taskOf 1 false).cmdIndex = 0 := by decide +kernel

end Sys2Proof.Machine

namespace Sys2Proof
open Machine

/-- Refutes O34: a NOP whose header signal overflows ends a frame, and with it the wait of another frond of a job that is saved. -/
theorem not_sequencerCommands : ¬ Obligations.SequencerCommands := by
  unfold Obligations.SequencerCommands Claim.SequencerCommandRuns
  rintro ⟨claim, -, -⟩
  obtain ⟨nop, -⟩ := claim nopState 0 true { sen := true, ssem := 0 } nopState_clear
  have halone := State.after_eq (nop nopGranted headWait_nopCmd)
  have hindex := congrArg (fun t => (t.taskOf 1 false).cmdIndex) halone
  exact absurd (nopState_after_nop.symm.trans (hindex.trans nopGranted_alone)) (by decide)

end Sys2Proof
end

