-- ==== Sys2Proof/Proofs/StepRingWrite.lean ====
section
/-! DMA_OUT can change memory outside its transfer. In fixed-order mode a step's signature goes to the step ring in the supervisor's area of HBM (R451), and a
DMA_OUT whose header sets SB commits the step before it, and so writes that signature, in the step that moves its row. -/

namespace Sys2Proof.Machine

/-- A walk of one row at 0x100000. -/
def rowWalk : Walk :=
  { addr := 0x100000, run := 512, count1 := 1, stride1 := 0, count2 := 1, stride2 := 0, count3 := 1, stride3 := 0 }

/-- The transfer between row 1 and that place in HBM. -/
def rowTransfer : XferDesc :=
  { kind := 0, tagged := false, circEn := false, cached := false, listRel := false, space := 0, dev := 0, localRow := 1, circ := 0, group := 0, win := 0
    gen := 0, first := 0, last := 0, walk := rowWalk }

/-- Its descriptor's 64 bytes: the row, the address, the length and the three counts. -/
def rowTransferBytes : List Byte :=
  List.replicate 4 0 ++ toLe 2 1 ++ List.replicate 10 0 ++ toLe 8 0x100000 ++ toLe 4 512 ++ toLe 2 1 ++ toLe 2 1 ++ toLe 2 1 ++ List.replicate 30 0

/-- A live stripe of context 0 that has issued one command of its step. -/
def fixedOrderTask : Task := { live := true, taskNo := 1, image := { tBytes := 1024 }, cmdIndex := 1 }

/-- Context 0 in fixed-order mode, the supervisor's area at address 0, and frond 0 with the stripe, its two rows and the descriptor in row 0. -/
def fixedOrderState : State :=
  (({ ({} : State) with svc := { ({} : Svc) with svcArea := (0, 0x10000) }, hbm := ({} : Mem).set 0 0 }).setCtx 0 { mode := 1 }).setFrond 0
    { live := some fixedOrderTask, areas := [{ ctx := 0, base := 0, rows := 2 }], tsp := ({} : Mem).write 0 rowTransferBytes }

/-- DMA_OUT of row 0's descriptor at the start of a step. -/
def sendRowCmd : Instr := .dmaOut 0 { sb := true } 0

theorem fixedOrderState_issues : fixedOrderState.Issues 0 true sendRowCmd where
  clear := ⟨rfl, rfl, rfl, fun _ => rfl, rfl, rfl, rfl, rfl, rfl, rfl, rfl, rfl, rfl⟩
  waits := ⟨_, rfl⟩
  sized := by decide +kernel

/-- The walk is one piece of one row. -/
theorem rowWalk_onePiece : rowWalk.ok = true ∧ rowWalk.total = 512 ∧ rowWalk.pieces 0 512 = [(0x100000, 512)] := by decide +kernel

/-- The descriptor's row reads as the transfer. -/
theorem fixedOrderState_descriptor :
    (parseXfer (readBytes (fixedOrderState.tspByte 0) (512 * 0) 64)).bind (fixedOrderState.resolve (fixedOrderState.taskOf 0 true)) = some rowTransfer := by
  decide +kernel

/-- Both rows are the task's, and powered. -/
theorem fixedOrderState_rows :
    ((fixedOrderState.frond 0).place (fixedOrderState.taskOf 0 true) 0 = some (.phys 0) ∧ (fixedOrderState.frond 0).segOn (0 / 512) = true)
    ∧ (fixedOrderState.frond 0).place (fixedOrderState.taskOf 0 true) 1 = some (.phys 1) ∧ (fixedOrderState.frond 0).segOn (1 / 512) = true := by
  decide +kernel

/-- The transfer neither meets the supervisor's areas nor needs replay. -/
theorem fixedOrderState_transfer_allowed :
    fixedOrderState.meetsSupervisor .hbm rowWalk = false
    ∧ fixedOrderState.overReplay (some ((fixedOrderState.taskOf 0 true).ctx, (fixedOrderState.taskOf 0 true).taskNo)) .hbm rowWalk = false := by
  decide +kernel

/-- The record of the step before, which begins with the task number 1, goes to address 0, which held zero. -/
theorem fixedOrderState_signs : (fixedOrderState.after sendRowCmd).hbmByte 0 = 1 ∧ fixedOrderState.hbmByte 0 = 0 := by decide +kernel

end Sys2Proof.Machine

namespace Sys2Proof
open Machine

/-- Refutes O33: DMA_OUT of a row to 0x100000 with SB also writes byte 0 of HBM, in the record of the step it commits. -/
theorem not_engineResults : ¬ Obligations.EngineResults := by
  unfold Obligations.EngineResults
  intro claim
  obtain ⟨-, -, -, -, -, dma⟩ := claim fixedOrderState 0 true { sb := true }
  obtain ⟨⟨hdr, hdrOn⟩, hnr, hnrOn⟩ := fixedOrderState_rows
  obtain ⟨hok, htotal, hpieces⟩ := rowWalk_onePiece
  obtain ⟨hsup, hreplay⟩ := fixedOrderState_transfer_allowed
  obtain ⟨out, -⟩ := dma 0 0 1 0x100000 rowTransfer hdr hdrOn fixedOrderState_descriptor rfl rfl rfl rfl rfl hok htotal hpieces
    (by decide) hsup hnr hnrOn rfl
  obtain ⟨-, hframe⟩ := (out fixedOrderState_issues hreplay (.inr rfl)).after
  obtain ⟨hsigned, hbefore⟩ := fixedOrderState_signs
  exact absurd ((hsigned.symm.trans (hframe 0 (.inl (by decide)))).trans hbefore) (by decide)

end Sys2Proof
end

