-- ==== Sys2Proof/Proofs/FillSpoilsSkipped.lean ====
section
/-! FILL can change a byte that none of its accesses covers. While a live stripe runs a command, simmer work that yielded in a failed step spoils the rows
that step would write (R284): a row noted there since the task yielded, which data of its NW_READ that arrives notes, is spoiled as the live stripe's command
completes. So the frame clause of O35 for FILL fails. The spoiled bytes are free, so the step is followed piece by piece and its byte named, not evaluated. -/

namespace Sys2Proof.Machine

variable {s t u : State} {f : Nat} {live : Bool}

/-! ### One command of an otherwise idle frond -/

theorem State.pumpFor_step (h : s.pumpOne f = some t) (fuel : Nat) : State.pumpFor (fuel + 1) s f = State.pumpFor fuel t f := by
  simp only [State.pumpFor, h]

/-- A queue whose one command waits to be run runs it. -/
theorem State.tryQueue_runs {q : Nat} {e : QEntry} {a : AfterDone} (queued : (s.taskOf f live).queues.get q [] = [e]) (waits : e.after = none)
    (runs : (cmdRun f live e.index e.tile e.cmd).run (s.executes f live (some e.index)) = .ok (a, u)) :
    s.tryQueue f live q = .ok (u.setAfter f live q e.index a) := by
  simp [State.tryQueue, queued, waits, runs]

/-- With the other queues empty, the one command of the last queue is what the frond runs. -/
theorem State.runOne_last {e : QEntry} {a : AfterDone} (idle : ∀ q < 6, (s.taskOf f live).queues.get q [] = [])
    (queued : (s.taskOf f live).queues.get 6 [] = [e]) (waits : e.after = none)
    (runs : (cmdRun f live e.index e.tile e.cmd).run (s.executes f live (some e.index)) = .ok (a, u)) :
    s.runOne f live = some (u.setAfter f live 6 e.index a) := by
  have hidle : ∀ q < 6, s.tryQueue f live q = .error .other := fun q hq => State.tryQueue_ran (by simp [idle q hq])
  simp [State.runOne, List.range_succ, hidle, State.tryQueue_runs queued waits runs, Except.toOption]

theorem State.retireChunks_none (chain : (s.frond f).chain = []) (passing : (s.frond f).passing = []) : s.retireChunks f = s := by
  simp [State.retireChunks, chain, passing]

/-- A command that a frond which is otherwise clear reaches sets it running. -/
theorem reach_clear {f : FrondId} {c : Instr} (clear : s.Clear f.val live) : reach f c s = .next ((s.reached f.val live c).pump f.val) := by
  simp only [reach, unlessInert, clear.awake, State.feed, clear.share, clear.ending]
  rfl

theorem State.pump_unmarked (h : s.markedJob f = none) : s.pump f = s.pumpAlone f := by
  simp only [State.pump, h]

/-! ### Spoiled rows -/

theorem State.spoilRow_frond (r : Nat) : (s.spoilRow f (.phys r)).frond f = { s.frond f with
    tsp := (s.frond f).tsp.write (512 * r) (readBytes (Config.freeByte 700 s.fresh) 0 512), poisonRows := insertNat r (s.frond f).poisonRows } := by
  simp only [State.spoilRow, State.freeBytes, State.markRow, State.setFrond_frond]
  rfl

/-- Simmer work in a failed step, with one row noted, spoils that row and notes none. -/
theorem State.spoilSkipped_simmer {r : Nat} (runs : (s.taskOf f true).skipping = false) (failed : (s.taskOf f false).skipping = true)
    (rows : (s.taskOf f false).step.wroteRows = [r]) (lines : (s.taskOf f false).step.wroteLines = []) (physical : r < 8192) :
    s.spoilSkipped f =
      (s.spoilRow f (.phys r)).modTask f false (fun t => { t with step := { t.step with wroteRows := [], wroteLines := [] } }) := by
  simp [State.spoilSkipped, runs, failed, State.spoilWrites, rows, lines, placeOfKey, physical, State.spoilLines]

theorem State.spoilSkipped_simmer_frond {r : Nat} (runs : (s.taskOf f true).skipping = false) (failed : (s.taskOf f false).skipping = true)
    (rows : (s.taskOf f false).step.wroteRows = [r]) (lines : (s.taskOf f false).step.wroteLines = []) (physical : r < 8192) :
    ∃ k, (s.spoilSkipped f).frond f = { s.frond f with
      simmer := k, tsp := (s.frond f).tsp.write (512 * r) (readBytes (Config.freeByte 700 s.fresh) 0 512)
      poisonRows := insertNat r (s.frond f).poisonRows } := by
  refine ⟨(s.frond f).simmer.map (fun t => { t with step := { t.step with wroteRows := [], wroteLines := [] } }), ?_⟩
  rw [State.spoilSkipped_simmer runs failed rows lines physical, State.modTask_simmer, State.spoilRow_frond]

/-! ### The counterexample -/

/-- A pattern of one word at byte 0. -/
def wordPattern : Pattern :=
  { base := 0, row := false, circ := 0, circEn := false, halo := false, tagged := false, dims := 0, counts := [0], strides := [0], width := 0, dyn := [] }

/-- A live stripe of context 0 with that pattern. -/
def fillTask : Task := { live := true, image := { tBytes := 512 }, pats := [wordPattern] }

/-- Simmer work that yielded in a failed step, with row 7 noted. -/
def failedTask : Task := { ctx := 48, skipping := true, yielded := true, step := { wroteRows := [7] } }

/-- Frond 0 with both; row 0 is the stripe's, and the first byte of row 7 differs from the one it will be spoiled with. -/
def fillState : State :=
  ({} : State).setFrond 0 { live := some fillTask, simmer := some failedTask, areas := [{ ctx := 0, base := 0, rows := 1 }]
                            tsp := ({} : Mem).set 3584 (Config.freeByte 700 0 0 + 1) }

/-- FILL of the stripe's word with 5. -/
def fillCmd : Instr := .fill 0 {} 0 5 1

/-- The state in which the command stands in its queue. -/
def fillQueued : State := ((fillState.reached 0 true fillCmd).modTask 0 true (fun t => { t with granted := true })).queued 0 true fillCmd 0

/-- The live stripe once the command has run: it waits to complete, with row 0 noted. -/
def filledTask : Task :=
  { fillTask with cmdIndex := 1, queues := ⟨[(6, [{ index := 0, cmd := fillCmd, tile := 0, after := some .nothing }])]⟩, cursors := ⟨[(0, 0)]⟩
                  step := { wroteRows := [0] } }

/-- Its one queued command has run. -/
theorem filledTask_queues {q : Nat} {e : QEntry} (h : e ∈ filledTask.queues.get q []) :
    e = { index := 0, cmd := fillCmd, tile := 0, after := some .nothing } := by
  by_cases hq : q = 6
  · subst hq
    exact List.mem_singleton.1 h
  · have hempty : filledTask.queues.get q [] = [] := by
      simp [filledTask, Tbl.get, Tbl.get.go, hq]
    simp [hempty] at h

theorem fillState_issues : fillState.Issues 0 true fillCmd where
  clear := ⟨rfl, rfl, rfl, fun _ => rfl, rfl, rfl, rfl, rfl, rfl, rfl, rfl, rfl, rfl⟩
  waits := ⟨_, rfl⟩
  sized := by decide +kernel

/-- The pattern's access is the first word of row 0. -/
theorem fillState_access : fillState.plainAt 0 true wordPattern 0 = some 0 := by decide +kernel

theorem fill_queues : (fillState.reached 0 true fillCmd).pumpOne 0 = some fillQueued := rfl

/-- The command runs, and leaves a frond in which only the noted row of the simmer work has yet to be spoiled. -/
theorem fill_runs : ∃ u, (cmdRun 0 true 0 0 fillCmd).run (fillQueued.executes 0 true (some 0)) = .ok (.nothing, u) ∧
    let w := u.setAfter 0 true 6 0 .nothing
    w.fresh = 0 ∧ (w.frond 0).live = some filledTask ∧ (w.frond 0).simmer = some failedTask ∧ (w.frond 0).dma = [] ∧ (w.frond 0).chain = []
      ∧ (w.frond 0).passing = [] :=
  ⟨_, rfl, rfl, rfl, rfl, rfl, rfl, rfl⟩

theorem fillQueued_idle : ∀ q < 6, (fillQueued.taskOf 0 true).queues.get q [] = [] := by decide +kernel

theorem fillQueued_runs : ∃ w, fillQueued.runOne 0 true = some w ∧ w.fresh = 0 ∧ (w.frond 0).live = some filledTask
    ∧ (w.frond 0).simmer = some failedTask ∧ (w.frond 0).dma = [] ∧ (w.frond 0).chain = [] ∧ (w.frond 0).passing = [] := by
  obtain ⟨u, runs, facts⟩ := fill_runs
  exact ⟨_, State.runOne_last (e := { index := 0, cmd := fillCmd, tile := 0, after := none }) fillQueued_idle rfl rfl runs, facts⟩

/-- Running the command spoils row 7, and nothing more can move. -/
theorem fillQueued_pumpOne : ∃ w, fillQueued.pumpOne 0 = some w ∧ (w.frond 0).tsp.get? 3584 = some (Config.freeByte 700 0 0)
    ∧ (w.frond 0).live = some filledTask ∧ w.pumpOne 0 = none := by
  obtain ⟨w, runs, fresh, hlive, hsimmer, hdma, hchain, hpassing⟩ := fillQueued_runs
  have htask : w.taskOf 0 false = failedTask := by simp [State.taskOf, hsimmer]
  have hrun : w.taskOf 0 true = filledTask := by simp [State.taskOf, hlive]
  obtain ⟨k, hfrond⟩ := State.spoilSkipped_simmer_frond (s := w) (f := 0) (r := 7) (by rw [hrun]; rfl) (by rw [htask]; rfl) (by rw [htask]; rfl)
    (by rw [htask]; rfl) (by omega)
  have hretire : (w.spoilSkipped 0).retireChunks 0 = w.spoilSkipped 0 :=
    State.retireChunks_none (by rw [hfrond]; exact hchain) (by rw [hfrond]; exact hpassing)
  have hspoiled : ((w.spoilSkipped 0).frond 0).live = some filledTask := by rw [hfrond]; exact hlive
  refine ⟨w.spoilSkipped 0, ?_, ?_, hspoiled, ?_⟩
  · have hshare : fillQueued.activeShare 0 = some true := rfl
    simp only [State.pumpOne, hshare, runs, hretire]
  · simp [hfrond, Mem.get_write, readBytes, fresh]
  · refine State.pumpOne_rests (by rw [hfrond]; exact hdma) fun live hshare => ?_
    obtain rfl := State.activeShare_live hspoiled hshare
    have hrests : (w.spoilSkipped 0).taskOf 0 true = filledTask := by simp [State.taskOf, hspoiled]
    refine ⟨by rw [hrests]; rfl, fun q e he => ?_, by rw [hrests]; rfl, by rw [hrests]; rfl⟩
    rw [hrests] at he
    obtain rfl := filledTask_queues he
    exact nofun

/-- After the step the first byte of row 7 is the spoiled one. -/
theorem fillState_after_fill : (fillState.after fillCmd).tspByte 0 3584 = Config.freeByte 700 0 0 := by
  obtain ⟨w, hone, hbyte, hlive, hrests⟩ := fillQueued_pumpOne
  have hruns : (fillState.reached 0 true fillCmd).pump 0 = w.setTimers 0 := by
    rw [State.pump_unmarked rfl, State.pumpAlone]
    exact congrArg (fun t => State.setTimers t 0)
      (((State.pumpFor_step fill_queues _).trans (State.pumpFor_step hone _)).trans (State.pumpFor_rests hrests _))
  have hexec : exec fillCmd fillState = .next (w.setTimers 0) := by
    rw [← hruns]
    exact reach_clear (f := 0) fillState_issues.clear
  obtain ⟨sem, tags, hfrond⟩ := State.setTimers_live hlive
  rw [State.after_eq hexec]
  simp [State.tspByte, Frond.tspByte, hfrond, hbyte]

end Sys2Proof.Machine

namespace Sys2Proof
open Machine

/-- Refutes O35: FILL of the first word of row 0 leaves row 7, noted by simmer work in a failed step, spoiled. -/
theorem not_fillCopyAndVectorMoves : ¬ Obligations.FillCopyAndVectorMoves := by
  unfold Obligations.FillCopyAndVectorMoves Claim.FillAndCopy
  rintro ⟨⟨fill, -⟩, -, -⟩
  have hplain : fillState.walkPlain 0 true 0 wordPattern 1 := ⟨rfl, fun i hi => by
    obtain rfl : i = 0 := by omega
    exact congrArg Option.isSome fillState_access⟩
  obtain ⟨-, hframe⟩ := (fill fillState 0 true {} 0 5 1 wordPattern fillState_issues hplain).after 3584
  have hnext : fillState.nextAt 0 true 0 wordPattern 0 = 0 := congrArg (Option.getD · 0) fillState_access
  have hkept := hframe fun i hi => .inr (by
    obtain rfl : i = 0 := by simpa using hi
    have hlen : wordPattern.bytes = 4 := rfl
    show fillState.nextAt 0 true 0 wordPattern 0 + wordPattern.bytes ≤ 3584
    omega)
  have hbefore : fillState.tspByte 0 3584 = Config.freeByte 700 0 0 + 1 := rfl
  have hafter := (fillState_after_fill.symm.trans hkept).trans hbefore
  revert hafter
  generalize Config.freeByte 700 0 0 = x
  exact (by decide : ∀ x : Byte, x ≠ x + 1) x

end Sys2Proof
end

