-- ==== Sys2Proof/Proofs/FrondCommandWords.lean ====
section
/-! The four words of a frond command (Tables 04.4 and 04.5): what the fields of an encoded word read as, which of its bits are clear, and so that every
command decodes to itself. A word is the sum of its fields, each placed above the ones before it, so a field is a quotient and a remainder of that sum. -/

namespace Sys2Proof.Machine

variable {n lsb N i : Nat} {w : W32}

/-! ### Fields of a word by its value -/

theorem bits_eq {x : BitVec n} (h : w.toNat / 2 ^ lsb % 2 ^ n = x.toNat) : bits n lsb w = x :=
  BitVec.eq_of_toNat_eq (by rw [bits, BitVec.toNat_ofNat, h])

theorem bitOf_eq {b : Bool} (h : w.toNat / 2 ^ i % 2 = b2n b) : bitOf w i = b := by
  rw [bitOf, BitVec.getLsbD, Nat.testBit_eq_decide_div_mod_eq, h]
  cases b <;> rfl

theorem fieldOf_eq {msb : Nat} : fieldOf w msb lsb = w.toNat / 2 ^ lsb % 2 ^ (msb + 1 - lsb) := by
  rw [fieldOf, Nat.shiftRight_eq_div_pow]

theorem b2n_le (b : Bool) : b2n b ≤ 1 := by cases b <;> decide

/-- A mask of `k` bits from bit `lsb` meets no bit of a number in which they are clear. -/
theorem and_mask_eq_zero (lsb k : Nat) (h : N / 2 ^ lsb % 2 ^ k = 0) : N &&& 2 ^ lsb * (2 ^ k - 1) = 0 := by
  refine Nat.eq_of_testBit_eq fun j => ?_
  rw [Nat.testBit_and, Nat.zero_testBit, Nat.testBit_two_pow_mul, Nat.testBit_two_pow_sub_one]
  by_cases hj : lsb ≤ j ∧ j - lsb < k
  · obtain ⟨hl, hk⟩ := hj
    have hbit := congrArg (fun x => x.testBit (j - lsb)) h
    simp only [Nat.testBit_mod_two_pow, Nat.testBit_div_two_pow, Nat.zero_testBit, hk, decide_true, Bool.true_and, Nat.sub_add_cancel hl] at hbit
    simp [hbit]
  · simp
    omega

/-- A mask of two such runs. -/
theorem and_masks_eq_zero {a b : Nat} (ha : N &&& a = 0) (hb : N &&& b = 0) : N &&& (a ||| b) = 0 := by
  rw [Nat.and_or_distrib_left, ha, hb, Nat.or_self]

/-- The value of a word that is spelt as a sum. -/
theorem toNat_of_word (h : word N = w) (fits : N < 2 ^ 32) : w.toNat = N := by
  rw [← h, word, BitVec.toNat_ofNat, Nat.mod_eq_of_lt fits]

/-! ### W0: opcode, flags and header -/

section Header

variable {op : Nat} (hop : op < 256) (f0 f1 f2 : Bool) (h : CmdHdr)
include hop

theorem encodeHdr_toNat : (encodeHdr op f0 f1 f2 h).toNat = op + 256 * b2n h.sb + 512 * b2n f0 + 1024 * b2n f1 + 2048 * b2n f2 + 4096 * b2n h.wen
      + 8192 * b2n h.sen + 65536 * h.wsem.toNat + 4194304 * h.ssem.toNat + 268435456 * h.wcnt.toNat := by
  have := b2n_le h.sb; have := b2n_le h.wen; have := b2n_le h.sen; have := b2n_le f0; have := b2n_le f1; have := b2n_le f2
  rw [encodeHdr, BitVec.toNat_ofNat, Nat.mod_eq_of_lt (by omega)]

/-- Every field of W0 reads as it was written, and the two reserved bits are clear. -/
theorem encodeHdr_fields : fieldOf (encodeHdr op f0 f1 f2 h) 7 0 = op ∧ headerOf (encodeHdr op f0 f1 f2 h) = h
    ∧ fieldOf (encodeHdr op f0 f1 f2 h) 11 9 = b2n f0 + 2 * b2n f1 + 4 * b2n f2 ∧ bitOf (encodeHdr op f0 f1 f2 h) 9 = f0
    ∧ bitOf (encodeHdr op f0 f1 f2 h) 10 = f1 ∧ bitOf (encodeHdr op f0 f1 f2 h) 11 = f2 ∧ (encodeHdr op f0 f1 f2 h).toNat &&& 0xC000 = 0 := by
  have hw := encodeHdr_toNat hop f0 f1 f2 h
  obtain ⟨sb, wen, sen, wsem, ssem, wcnt⟩ := h
  have := b2n_le sb; have := b2n_le wen; have := b2n_le sen; have := b2n_le f0; have := b2n_le f1; have := b2n_le f2
  generalize encodeHdr op f0 f1 f2 _ = w at hw ⊢
  dsimp only at hw
  have hhdr : headerOf w = { sb := sb, wen := wen, sen := sen, wsem := wsem, ssem := ssem, wcnt := wcnt } := by
    rw [headerOf, CmdHdr.mk.injEq]
    exact ⟨bitOf_eq (by omega), bitOf_eq (by omega), bitOf_eq (by omega), bits_eq (by omega), bits_eq (by omega), bits_eq (by omega)⟩
  exact ⟨by rw [fieldOf_eq]; omega, hhdr, by rw [fieldOf_eq]; omega, bitOf_eq (by omega), bitOf_eq (by omega), bitOf_eq (by omega),
    and_mask_eq_zero 14 2 (by omega)⟩

@[simp] theorem encodeHdr_op : fieldOf (encodeHdr op f0 f1 f2 h) 7 0 = op := by
  obtain ⟨hfield, -⟩ := encodeHdr_fields hop f0 f1 f2 h
  exact hfield

@[simp] theorem headerOf_encodeHdr : headerOf (encodeHdr op f0 f1 f2 h) = h := by
  obtain ⟨-, hfield, -⟩ := encodeHdr_fields hop f0 f1 f2 h
  exact hfield

@[simp] theorem encodeHdr_flags : fieldOf (encodeHdr op f0 f1 f2 h) 11 9 = b2n f0 + 2 * b2n f1 + 4 * b2n f2 := by
  obtain ⟨-, -, hfield, -⟩ := encodeHdr_fields hop f0 f1 f2 h
  exact hfield

@[simp] theorem encodeHdr_f0 : bitOf (encodeHdr op f0 f1 f2 h) 9 = f0 := by
  obtain ⟨-, -, -, hfield, -⟩ := encodeHdr_fields hop f0 f1 f2 h
  exact hfield

@[simp] theorem encodeHdr_f1 : bitOf (encodeHdr op f0 f1 f2 h) 10 = f1 := by
  obtain ⟨-, -, -, -, hfield, -⟩ := encodeHdr_fields hop f0 f1 f2 h
  exact hfield

@[simp] theorem encodeHdr_f2 : bitOf (encodeHdr op f0 f1 f2 h) 11 = f2 := by
  obtain ⟨-, -, -, -, -, hfield, -⟩ := encodeHdr_fields hop f0 f1 f2 h
  exact hfield

@[simp] theorem encodeHdr_reserved : (encodeHdr op f0 f1 f2 h).toNat &&& 0xC000 = 0 := by
  obtain ⟨-, -, -, -, -, -, hfield⟩ := encodeHdr_fields hop f0 f1 f2 h
  exact hfield

end Header

@[simp] theorem b2n_false : b2n false = 0 := rfl
@[simp] theorem b2n_and_flag (b : Bool) : b2n b &&& 6 = 0 := by cases b <;> rfl
@[simp] theorem b2n_and_flags (a b : Bool) : b2n a + 2 * b2n b &&& 4 = 0 := by cases a <;> cases b <;> rfl

/-! ### Words of one field -/

/-- A field from bit 0 meets no mask of higher bits. -/
@[simp] theorem word_toNat_and (x : BitVec n) {m : Nat} (small : n ≤ 32) (above : m &&& (2 ^ n - 1) = 0) : (word x.toNat).toNat &&& m = 0 := by
  have hword : (word x.toNat).toNat = x.toNat &&& (2 ^ n - 1) := by
    rw [toNat_of_word rfl (x.isLt.trans_le (Nat.pow_le_pow_right (by decide) small)), Nat.and_two_pow_sub_one_eq_mod, Nat.mod_eq_of_lt x.isLt]
  rw [hword, Nat.and_assoc, Nat.and_comm _ m, above, Nat.and_zero]

@[simp] theorem bits_word (x : BitVec n) (small : n ≤ 32) : bits n 0 (word x.toNat) = x := by
  refine bits_eq ?_
  rw [toNat_of_word rfl (x.isLt.trans_le (Nat.pow_le_pow_right (by decide) small)), pow_zero, Nat.div_one, Nat.mod_eq_of_lt x.isLt]

@[simp] theorem bitOf_word (b : Bool) : bitOf (word (b2n b)) 0 = b := by cases b <;> rfl
@[simp] theorem word_b2n_and (b : Bool) : (word (b2n b)).toNat &&& 0xFFFFFFFE = 0 := by cases b <;> rfl

/-! ### The forms of W1 and W2 -/

theorem encodeVu_toNat (v : VuForm) : (encodeVu v).toNat = v.srca.toNat + 128 * v.srcb.toNat + 16384 * v.dst.toNat + 2097152 * v.ifmt.toNat
    + 33554432 * v.ofmt.toNat + 536870912 * v.rnd.toNat := toNat_of_word rfl (by omega)

@[simp] theorem vuFormOf_encodeVu (v : VuForm) : vuFormOf (encodeVu v) = v := by
  have hw := encodeVu_toNat v
  obtain ⟨srca, srcb, dst, ifmt, ofmt, rnd⟩ := v
  dsimp only at hw
  rw [vuFormOf, VuForm.mk.injEq]
  exact ⟨bits_eq (by omega), bits_eq (by omega), bits_eq (by omega), bits_eq (by omega), bits_eq (by omega), bits_eq (by omega)⟩

/-- The bits of an operand B that is not used. -/
@[simp] theorem encodeVu_srcb {v : VuForm} (h : v.srcb = 0) : (encodeVu v).toNat &&& 0x3F80 = 0 :=
  and_mask_eq_zero 7 7 (by rw [encodeVu_toNat, h]; simp; omega)

/-- The bits that VU_TLOAD does not use. -/
@[simp] theorem encodeVu_source {v : VuForm} (hb : v.srcb = 0) (hd : v.dst = 0) (ho : v.ofmt = 0) (hr : v.rnd = 0) : (encodeVu v).toNat &&& 0xFE1FFF80 = 0 := by
  have hw := encodeVu_toNat v
  rw [hb, hd, ho, hr] at hw
  simp at hw
  exact and_masks_eq_zero (and_mask_eq_zero 7 14 (by omega)) (and_mask_eq_zero 25 7 (by omega))

theorem encodeGeometry_toNat (g : Geometry) : (encodeGeometry g).toNat = g.kw.toNat + 8 * g.kh.toNat + 64 * g.sx.toNat + 256 * g.sy.toNat
    + 1024 * g.dx.toNat + 262144 * g.dy.toNat + 67108864 * g.pad.toNat := toNat_of_word rfl (by omega)

@[simp] theorem geometryOf_encodeGeometry (g : Geometry) : geometryOf (encodeGeometry g) = g := by
  have hw := encodeGeometry_toNat g
  obtain ⟨kw, kh, sx, sy, dx, dy, pad⟩ := g
  dsimp only at hw
  rw [geometryOf, Geometry.mk.injEq]
  exact ⟨bits_eq (by omega), bits_eq (by omega), bits_eq (by omega), bits_eq (by omega), bits_eq (by omega), bits_eq (by omega), bits_eq (by omega)⟩

@[simp] theorem encodeGeometry_reserved (g : Geometry) : (encodeGeometry g).toNat &&& 0xF0000000 = 0 :=
  and_mask_eq_zero 28 4 (by rw [encodeGeometry_toNat]; omega)

/-! ### Each command -/

/-- Decoding the words of a command on frond f gives it back. -/
def Decodes (f : FrondId) (now : W64) (c : Instr) : Prop := ∀ w, encodeCmd c = some w → decodeCmd f now w = some c

variable {f : FrondId} {h : CmdHdr} {now : W64}

theorem Decodes.of_words {c : Instr} {words : CmdWords} (encodes : encodeCmd c = some words) (decodes : decodeCmd f now words = some c) :
    Decodes f now c := fun w hw => by
  rw [encodes] at hw
  cases hw
  exact decodes

/-- A command that is encoded under a condition on its operands. -/
theorem Decodes.of_wordsIf {c : Instr} {cond : Bool} {words : CmdWords} (encodes : encodeCmd c = wordsIf cond words)
    (decodes : cond = true → decodeCmd f now words = some c) : Decodes f now c := fun w hw => by
  rw [encodes, wordsIf] at hw
  split at hw
  · next holds =>
    cases hw
    exact decodes holds
  · contradiction

theorem decodes_seqNop : Decodes f now (.seqNop f h) := .of_words rfl (by simp [decodeCmd, usedBits])
theorem decodes_end : Decodes f now (.end_ f h now) := .of_words rfl (by simp [decodeCmd, usedBits])

theorem decodes_wait {sem : BitVec 6} {count : BitVec 16} : Decodes f now (.wait f h sem count) := .of_words rfl <| by
  generalize hw : word _ = w
  have hw := toNat_of_word hw (by omega)
  have reserved : w.toNat &&& 0xFFC0 = 0 := and_mask_eq_zero 6 10 (by omega)
  suffices bits 6 0 w = sem ∧ bits 16 16 w = count by simpa [decodeCmd, usedBits, reserved]
  exact ⟨bits_eq (by omega), bits_eq (by omega)⟩

theorem decodes_signal {fence : Bool} {sem : BitVec 6} {target : Byte} {remote : Bool} {count : BitVec 16} :
    Decodes f now (.signal f h fence sem target remote count) := .of_words rfl <| by
  have := b2n_le remote
  generalize hw : word (_ + _) = w
  have hw := toNat_of_word hw (by omega)
  have reserved : w.toNat &&& 0xFFFE00C0 = 0 := and_masks_eq_zero (and_mask_eq_zero 6 2 (by omega)) (and_mask_eq_zero 17 15 (by omega))
  suffices bits 6 0 w = sem ∧ bits 8 8 w = target ∧ bitOf w 16 = remote by simpa [decodeCmd, usedBits, reserved]
  exact ⟨bits_eq (by omega), bits_eq (by omega), bitOf_eq (by omega)⟩

theorem decodes_mxuPass {o : MxuOp} : Decodes f now (.mxuPass f h o) := .of_words rfl <| by
  obtain ⟨last, ptmSwap, mx, apat, wpat, asrc, wsrc, acc, alloc, afmt, wfmt, kp, aspat, wspat⟩ := o
  have := b2n_le alloc
  dsimp only
  generalize hw : word (apat.toNat + _ + _ + _ + _ + _ + _ + _) = w
  generalize hv : word _ = v
  have hw := toNat_of_word hw (by omega)
  have hv := toNat_of_word hv (by omega)
  have reserved : w.toNat &&& 0xF0000000 = 0 := and_mask_eq_zero 28 4 (by omega)
  have reserved' : v.toNat &&& 0xFFF00000 = 0 := and_mask_eq_zero 20 12 (by omega)
  suffices (bits 6 0 w = apat ∧ bits 6 6 w = wpat ∧ bits 2 12 w = asrc ∧ bits 2 14 w = wsrc ∧ bits 3 16 w = acc ∧ bitOf w 19 = alloc ∧ bits 4 20 w = afmt
      ∧ bits 4 24 w = wfmt) ∧ bits 8 0 v = kp ∧ bits 6 8 v = aspat ∧ bits 6 14 v = wspat by simpa [decodeCmd, usedBits, reserved, reserved', and_assoc]
  exact ⟨⟨bits_eq (by omega), bits_eq (by omega), bits_eq (by omega), bits_eq (by omega), bits_eq (by omega), bitOf_eq (by omega), bits_eq (by omega),
    bits_eq (by omega)⟩, bits_eq (by omega), bits_eq (by omega), bits_eq (by omega)⟩

theorem decodes_vuDrain {o : DrainOp} : Decodes f now (.vuDrain f h o) := .of_words rfl <| by
  obtain ⟨keep, ieee, acc, opat, ofmt, rnd, spat, bpat, tfn, cpat, cpen⟩ := o
  have := b2n_le cpen
  dsimp only
  generalize hw : word (acc.toNat + _ + _ + _ + _ + _ + _) = w
  generalize hv : word _ = v
  have hw := toNat_of_word hw (by omega)
  have hv := toNat_of_word hv (by omega)
  have reserved : w.toNat &&& 8 = 0 := and_mask_eq_zero 3 1 (by omega)
  have reserved' : v.toNat &&& 0xFFFFFF80 = 0 := and_mask_eq_zero 7 25 (by omega)
  suffices (bits 3 0 w = acc ∧ bits 6 4 w = opat ∧ bits 4 10 w = ofmt ∧ bits 3 14 w = rnd ∧ bits 6 17 w = spat ∧ bits 6 23 w = bpat ∧ bits 3 29 w = tfn)
      ∧ bits 6 0 v = cpat ∧ bitOf v 6 = cpen by simpa [decodeCmd, usedBits, reserved, reserved', and_assoc]
  exact ⟨⟨bits_eq (by omega), bits_eq (by omega), bits_eq (by omega), bits_eq (by omega), bits_eq (by omega), bits_eq (by omega), bits_eq (by omega)⟩,
    bits_eq (by omega), bitOf_eq (by omega)⟩

theorem decodes_vuEw {v : VuForm} {func : Byte} {count : BitVec 16} : Decodes f now (.vuEw f h v func count) :=
  .of_words rfl (by simp [decodeCmd, usedBits, vuFormMask])

theorem decodes_vuDw {v : VuForm} {g : Geometry} {ch : BitVec 10} {group : Byte} : Decodes f now (.vuDw f h v g ch group) := .of_words rfl <| by
  generalize hw : word _ = w
  have hw := toNat_of_word hw (by omega)
  have reserved : w.toNat &&& 0xFFFC0000 = 0 := and_mask_eq_zero 18 14 (by omega)
  suffices bits 10 0 w = ch ∧ bits 8 10 w = group by simpa [decodeCmd, usedBits, vuFormMask, reserved]
  exact ⟨bits_eq (by omega), bits_eq (by omega)⟩

theorem decodes_vuPool {isMax padCount : Bool} {v : VuForm} {g : Geometry} {ch : BitVec 10} : Decodes f now (.vuPool f h isMax padCount v g ch) :=
  .of_wordsIf rfl fun unused => by simp [decodeCmd, usedBits, vuNoSrcb, of_decide_eq_true unused]

theorem decodes_vuArgmax {v : VuForm} {ch : BitVec 10} : Decodes f now (.vuArgmax f h v ch) :=
  .of_wordsIf rfl fun unused => by simp [decodeCmd, usedBits, vuNoSrcb, of_decide_eq_true unused]

theorem decodes_vuTfn {v : VuForm} {table : BitVec 2} {count : BitVec 16} : Decodes f now (.vuTfn f h v table count) :=
  .of_wordsIf rfl fun unused => by simp [decodeCmd, usedBits, vuNoSrcb, of_decide_eq_true unused]

theorem decodes_vuFft {inverse : Bool} {v : VuForm} {twoD : Bool} {count : BitVec 16} : Decodes f now (.vuFft f h inverse v twoD count) :=
  .of_words rfl (by simp [decodeCmd, usedBits, vuFormMask])

theorem decodes_ptmBuild {v : VuForm} {group : Byte} {count : BitVec 16} : Decodes f now (.ptmBuild f h v group count) :=
  .of_words rfl (by simp [decodeCmd, usedBits, vuFormMask])

theorem decodes_vuLoad {v : VuForm} {count : BitVec 16} : Decodes f now (.vuLoad f h v count) :=
  .of_wordsIf rfl fun unused => by simp [decodeCmd, usedBits, vuNoSrcb, of_decide_eq_true unused]

theorem decodes_vuStore {v : VuForm} {count : BitVec 16} : Decodes f now (.vuStore f h v count) :=
  .of_wordsIf rfl fun unused => by simp [decodeCmd, usedBits, vuNoSrcb, of_decide_eq_true unused]

theorem decodes_vuTload {v : VuForm} {table : BitVec 2} : Decodes f now (.vuTload f h v table) := .of_wordsIf rfl fun unused => by
  simp only [Bool.and_eq_true, decide_eq_true_eq] at unused
  obtain ⟨⟨⟨hb, hd⟩, ho⟩, hr⟩ := unused
  simp [decodeCmd, usedBits, vuTloadMask, hb, hd, ho, hr]

/-- Source and destination in one word. -/
theorem word_srcDst (src dst : BitVec 6) :
    let w := word (src.toNat + 64 * dst.toNat)
    bits 6 0 w = src ∧ bits 6 6 w = dst ∧ w.toNat &&& 0xFFFFF000 = 0 := by
  intro w
  have hw : w.toNat = _ := toNat_of_word rfl (by omega)
  exact ⟨bits_eq (by omega), bits_eq (by omega), and_mask_eq_zero 12 20 (by omega)⟩

theorem decodes_seCapture {src dst : BitVec 6} {count : BitVec 16} : Decodes f now (.seCapture f h src dst count) := .of_words rfl <| by
  obtain ⟨hsrc, hdst, reserved⟩ := word_srcDst src dst
  simp [decodeCmd, usedBits, hsrc, hdst, reserved]

theorem decodes_seRegroup {inverse : Bool} {src dst : BitVec 6} {by4 : Bool} {count : BitVec 16} :
    Decodes f now (.seRegroup f h inverse src dst by4 count) := .of_words rfl <| by
  obtain ⟨hsrc, hdst, reserved⟩ := word_srcDst src dst
  simp [decodeCmd, usedBits, hsrc, hdst, reserved]

theorem decodes_dmaIn {row : BitVec 13} : Decodes f now (.dmaIn f h row) := .of_words rfl (by simp [decodeCmd, usedBits])
theorem decodes_dmaOut {row : BitVec 13} : Decodes f now (.dmaOut f h row) := .of_words rfl (by simp [decodeCmd, usedBits])

/-- The operands of NW_READ and NW_WRITE, and the bits they leave clear. -/
theorem nwOpOf_words (o : NwOp) :
    let w1 := word (o.frond.toNat + 256 * o.win.toNat + 4096 * o.lrow.toNat)
    let w2 := word (o.roff.toNat + 8192 * o.rows.toNat)
    nwOpOf w1 w2 (word o.gen.toNat) = o ∧ w1.toNat &&& 0xFE000000 = 0 ∧ w2.toNat &&& 0xFC000000 = 0 := by
  obtain ⟨frond, win, lrow, roff, rows, gen⟩ := o
  intro w1 w2
  have hw1 : w1.toNat = _ := toNat_of_word rfl (by omega)
  have hw2 : w2.toNat = _ := toNat_of_word rfl (by omega)
  dsimp only at hw1 hw2
  refine ⟨?_, and_mask_eq_zero 25 7 (by omega), and_mask_eq_zero 26 6 (by omega)⟩
  rw [nwOpOf, NwOp.mk.injEq]
  exact ⟨bits_eq (by omega), bits_eq (by omega), bits_eq (by omega), bits_eq (by omega), bits_eq (by omega), bits_word gen (by decide)⟩

theorem decodes_nwRead {o : NwOp} : Decodes f now (.nwRead f h o) := .of_words rfl <| by
  obtain ⟨operands, reserved, reserved'⟩ := nwOpOf_words o
  simp [decodeCmd, usedBits, operands, reserved, reserved']

theorem decodes_nwWrite {o : NwOp} : Decodes f now (.nwWrite f h o) := .of_words rfl <| by
  obtain ⟨operands, reserved, reserved'⟩ := nwOpOf_words o
  simp [decodeCmd, usedBits, operands, reserved, reserved']

theorem decodes_winOpen {win : BitVec 4} {base rows : BitVec 13} {gen : BitVec 16} : Decodes f now (.winOpen f h win base rows gen) := .of_words rfl <| by
  generalize hw : word (_ + _) = w
  have hw := toNat_of_word hw (by omega)
  have reserved : w.toNat &&& 0xFFFE0000 = 0 := and_mask_eq_zero 17 15 (by omega)
  suffices bits 4 0 w = win ∧ bits 13 4 w = base by simpa [decodeCmd, usedBits, reserved]
  exact ⟨bits_eq (by omega), bits_eq (by omega)⟩

theorem decodes_winClose {win : BitVec 4} : Decodes f now (.winClose f h win) := .of_words rfl (by simp [decodeCmd, usedBits])

theorem decodes_fill {dst : BitVec 6} {value : W32} {count : BitVec 16} : Decodes f now (.fill f h dst value count) :=
  .of_words rfl (by simp [decodeCmd, usedBits])

theorem decodes_fcCopy {src dst : BitVec 6} {count : BitVec 16} : Decodes f now (.fcCopy f h src dst count) := .of_words rfl <| by
  obtain ⟨hsrc, hdst, reserved⟩ := word_srcDst src dst
  simp [decodeCmd, usedBits, hsrc, hdst, reserved]

theorem decodes_rhzKeep {dst : BitVec 6} {chunks : BitVec 16} : Decodes f now (.rhzKeep f h dst chunks) :=
  .of_words rfl (by simp [decodeCmd, usedBits])

end Sys2Proof.Machine

namespace Sys2Proof
open Machine

/-- Settles O31: by the command, each word field by field. -/
theorem frondCommandRoundTrip : Obligations.FrondCommandRoundTrip := by
  unfold Obligations.FrondCommandRoundTrip
  intro c f w now encodes frond ends
  suffices Decodes f now c from this w encodes
  cases c with
  | end_ g h t =>
    cases frond
    cases ends _ _ _ rfl
    exact decodes_end
  | seqNop => cases frond; exact decodes_seqNop
  | wait => cases frond; exact decodes_wait
  | signal => cases frond; exact decodes_signal
  | mxuPass => cases frond; exact decodes_mxuPass
  | vuDrain => cases frond; exact decodes_vuDrain
  | vuEw => cases frond; exact decodes_vuEw
  | vuDw => cases frond; exact decodes_vuDw
  | vuPool => cases frond; exact decodes_vuPool
  | vuArgmax => cases frond; exact decodes_vuArgmax
  | vuTfn => cases frond; exact decodes_vuTfn
  | vuFft => cases frond; exact decodes_vuFft
  | ptmBuild => cases frond; exact decodes_ptmBuild
  | vuLoad => cases frond; exact decodes_vuLoad
  | vuStore => cases frond; exact decodes_vuStore
  | vuTload => cases frond; exact decodes_vuTload
  | seCapture => cases frond; exact decodes_seCapture
  | seRegroup => cases frond; exact decodes_seRegroup
  | dmaIn => cases frond; exact decodes_dmaIn
  | dmaOut => cases frond; exact decodes_dmaOut
  | nwRead => cases frond; exact decodes_nwRead
  | nwWrite => cases frond; exact decodes_nwWrite
  | winOpen => cases frond; exact decodes_winOpen
  | winClose => cases frond; exact decodes_winClose
  | fill => cases frond; exact decodes_fill
  | fcCopy => cases frond; exact decodes_fcCopy
  | rhzKeep => cases frond; exact decodes_rhzKeep
  | _ => exact nomatch (encodes : none = some w)

end Sys2Proof
end

