-- ==== Sys2Proof/Proofs/CommandsComplete.lean ====
section
/-! COMMAND_COMPLETE and STEP_COMMIT (R97, R101, R139): what the completion of one queued command does, and what a step's commit leaves of its task. -/

namespace Sys2Proof.Machine

variable {s t : State} {f : Nat} {live : Bool}

/-! ### The task of a share -/

/-- The tasks of the two shares of a frond. -/
def Frond.shares (x : Frond) : Option Task × Option Task := (x.live, x.simmer)

/-- A task stands in the share of frond f. -/
def State.HasTask (s : State) (f : Nat) (live : Bool) : Prop := (if live then (s.frond f).live else (s.frond f).simmer).isSome = true

/-- The share that issues holds a task. -/
theorem State.hasTask_of_activeShare (h : s.activeShare f = some live) : s.HasTask f live := by
  unfold State.activeShare at h
  dsimp only at h
  split at h
  · contradiction
  · split at h
    · next hlive =>
      split at h
      · contradiction
      · cases h
        simp [State.HasTask, hlive]
    · next hsimmer =>
      split at h
      · contradiction
      · cases h
        simp [State.HasTask, hsimmer]
    · contradiction

theorem State.taskOf_of_shares (h : (t.frond f).shares = (s.frond f).shares) : t.taskOf f live = s.taskOf f live := by
  obtain ⟨hlive, hsimmer⟩ := Prod.mk.inj h
  unfold State.taskOf
  rw [hlive, hsimmer]

theorem State.hasTask_of_shares (h : (t.frond f).shares = (s.frond f).shares) (has : s.HasTask f live) : t.HasTask f live := by
  obtain ⟨hlive, hsimmer⟩ := Prod.mk.inj h
  unfold State.HasTask
  rwa [hlive, hsimmer]

theorem State.HasTask.modTask (h : s.HasTask f live) (g : Task → Task) :
    (s.modTask f live g).HasTask f live ∧ (s.modTask f live g).taskOf f live = g (s.taskOf f live) := by
  unfold State.HasTask at h ⊢
  unfold State.taskOf
  cases live with
  | true =>
    obtain ⟨t, ht⟩ := Option.isSome_iff_exists.1 h
    simp only [if_true] at ht
    simp [State.modTask_live, ht]
  | false =>
    obtain ⟨t, ht⟩ := Option.isSome_iff_exists.1 h
    simp only [Bool.false_eq_true, if_false] at ht
    simp [State.modTask_simmer, ht]

/-! ### What the parts of a commit leave alone -/

theorem Frond.setTag_shares (x : Frond) (p : Place) (full : Bool) : (x.setTag p full).shares = x.shares ∧ (x.setTag p full).regions = x.regions := by
  cases p <;> exact ⟨rfl, rfl⟩

/-- The frond once the rows that a head passes are empty. -/
def Frond.emptied (x : Frond) (t : Task) (g : Region) (d : Nat) : Frond :=
  (List.range (d + 1)).foldl (fun (x : Frond) i =>
    match x.place t (g.base + (g.head + i) % g.rows) with
    | some p => x.setTag p false
    | none => x) x

theorem Frond.emptied_keeps (x : Frond) (t : Task) (g : Region) (d : Nat) : (x.emptied t g d).shares = x.shares ∧ (x.emptied t g d).regions = x.regions := by
  unfold Frond.emptied
  refine List.foldlRecOn (motive := fun y : Frond => y.shares = x.shares ∧ y.regions = x.regions) _ _ ⟨rfl, rfl⟩ fun y h i _ => ?_
  split
  · obtain ⟨hshares, hregions⟩ := y.setTag_shares ‹_› false
    exact ⟨hshares.trans h.1, hregions.trans h.2⟩
  · exact h

theorem State.advanceHead_eq {c : Nat} {g : Region} (d : Nat) (h : (s.frond f).region (s.taskOf f live).ctx c = some g) :
    s.advanceHead f live c d = s.setFrond f (((s.frond f).emptied (s.taskOf f live) g d).setRegion (s.taskOf f live).ctx c
      { g with head := (g.head + d + 1) % g.rows }) := by
  unfold State.advanceHead
  simp only [h]
  rfl

theorem State.advanceHead_shares (c d : Nat) : ((s.advanceHead f live c d).frond f).shares = (s.frond f).shares := by
  cases h : (s.frond f).region (s.taskOf f live).ctx c with
  | none => simp only [State.advanceHead, h]
  | some g =>
    rw [State.advanceHead_eq d h, State.setFrond_frond]
    exact (Frond.emptied_keeps ..).1

theorem Frond.region_setRegion {x : Frond} {ctx c : Nat} {g : Region} (h : x.region ctx c = some g) (k : Region) :
    (x.setRegion ctx c k).region ctx c = some k := by
  obtain ⟨hc, -⟩ := List.getElem?_eq_some_iff.1 h
  simp [Frond.region, Frond.setRegion, hc]

theorem State.diverge_frond (kind : BitVec 2) (own peer : LsRecord) : (s.diverge kind own peer).frond f = s.frond f := by
  have hmsix (u : State) (v : BitVec 9) : (u.msix v).frond f = u.frond f := State.frond_of_uncounted (State.uncounted_msix v) f
  have hfire (u : State) (a b : Bool) : (u.ladleFire 6 a b).frond f = u.frond f := rfl
  unfold State.diverge
  dsimp only
  rw [apply_ite (fun u : State => u.frond f)]
  split
  · rfl
  · rw [apply_ite (fun u : State => u.frond f), hmsix, ite_self, apply_ite (fun u : State => u.frond f), hfire, ite_self]
    rfl

theorem State.lsSend_frond (r : LsRecord) : (s.lsSend r).frond f = s.frond f := by
  unfold State.lsSend State.compare
  split
  · split
    · split
      · rfl
      · exact State.diverge_frond ..
    · rfl
  · rfl

theorem State.ringStep_shares (e : StepSig) : ((s.ringStep f e).frond f).shares = (s.frond f).shares := by
  have hwrite (u : State) (a : Nat) (l : List Byte) : (u.hbmWrite a l).frond f = u.frond f := rfl
  unfold State.ringStep
  dsimp only
  rw [apply_ite (fun u : State => u.frond f), hwrite, ite_self, State.setFrond_frond]
  simp only [Frond.shares]

/-- A step's signature leaves its task where it stands. -/
theorem State.signStep_task (has : s.HasTask f live) : (s.signStep f live).HasTask f live
    ∧ ((s.signStep f live).taskOf f live).stepIndex = (s.taskOf f live).stepIndex := by
  have hring (e : StepSig) : ((if live then s.ringStep f e else s).frond f).shares = (s.frond f).shares := by
    split
    · exact State.ringStep_shares e
    · rfl
  unfold State.signStep
  dsimp only
  split
  · obtain ⟨hhas, htask⟩ := (State.hasTask_of_shares (hring _) has).modTask (fun t => { t with stripeSig := t.stripeSig + t.stepSig, stepSig := 0 })
    exact ⟨hhas, by rw [htask, State.taskOf_of_shares (hring _)]⟩
  · exact ⟨has, rfl⟩

/-- What a commit does to its task. -/
def Task.commit (t : Task) : Task := { t with committed := true, stepIndex := t.stepIndex + 1, skipping := false, loose := [] }

/-- A step that commits, before it is signed: the heads that it read through have moved, and in a fixed order its record is sent. -/
def State.stepReported (s : State) (f : Nat) (live : Bool) : State :=
  let t := s.taskOf f live
  let s := t.step.reads.foldl (fun s q => s.advanceHead f live q.1 q.2) s
  if !live && s.fixedOrder t.ctx then
    s.lsSend { ctx := BitVec.ofNat 14 t.ctx, frond := BitVec.ofNat 8 f, frame := BitVec.ofNat 32 (s.instOf t.ctx), stripe := 0xFFFF,
               step := BitVec.ofNat 16 t.stepIndex, notRun := false, sig := t.stepSig }
  else s

theorem State.stepReported_shares : ((s.stepReported f live).frond f).shares = (s.frond f).shares := by
  have hheads : ((((s.taskOf f live).step.reads.foldl (fun s q => s.advanceHead f live q.1 q.2) s)).frond f).shares = (s.frond f).shares :=
    List.foldlRecOn (motive := fun t : State => (t.frond f).shares = (s.frond f).shares) _ _ rfl fun t h q _ => (State.advanceHead_shares ..).trans h
  unfold State.stepReported
  dsimp only
  split
  · rw [State.lsSend_frond, hheads]
  · exact hheads

/-- Past its signature, a commit changes its task and then only tiles and combine windows of the frond. -/
theorem State.commitStep_taskOf : (s.commitStep f live).taskOf f live = (((s.stepReported f live).signStep f live).modTask f live Task.commit).taskOf f live :=
  State.taskOf_of_shares ((congrArg Frond.shares (State.setFrond_frond _ f _)).trans rfl)

/-- Once a step has committed, its task stands at the next step. -/
theorem State.commitStep_task (has : s.HasTask f live) : ((s.commitStep f live).taskOf f live).committed = true
    ∧ ((s.commitStep f live).taskOf f live).stepIndex = (s.taskOf f live).stepIndex + 1 := by
  obtain ⟨hsigned, hindex⟩ := State.signStep_task (State.hasTask_of_shares State.stepReported_shares has)
  obtain ⟨-, htask⟩ := hsigned.modTask Task.commit
  rw [State.commitStep_taskOf, htask, ← State.taskOf_of_shares (live := live) (State.stepReported_shares (s := s)), ← hindex]
  exact ⟨rfl, rfl⟩

/-! ### Completion -/

/-- The command at the front of its queue that does no more than its completion says completes first. -/
theorem State.completeOne_front {q : Nat} {e : QEntry} {rest : List QEntry} {a : AfterDone} (front : (s.taskOf f live).queues.get q [] = e :: rest)
    (ran : e.after = some a) (plain : a = .nothing ∨ ∃ i, a = .passLast i ∨ a = .freeTile i ∨ a = .keepTile i) :
    s.completeOne f live q = some (((s.modTask f live (fun t => { t with
      queues := t.queues.modify q [] (fun l => l.filter (fun g => decide (g.index ≠ e.index))) })).applyAfter f a).fireHeader f e.cmd e.index) := by
  have ready : s.entryReady f live e = true := by
    unfold State.entryReady
    rw [ran]
    rcases plain with rfl | ⟨i, rfl | rfl | rfl⟩ <;> rfl
  have undelivered : deliveredBy (s.frond f) e = none := by
    unfold deliveredBy
    rw [ran]
    rcases plain with rfl | ⟨i, rfl | rfl | rfl⟩ <;> cases e.cmd <;> rfl
  have found : (if q = 3 ∨ q = 4 then (e :: rest).find? (s.entryReady f live) else ((e :: rest).head?).filter (s.entryReady f live)) = some e := by
    split
    · simp [ready]
    · simp [Option.filter, ready]
  unfold State.completeOne
  simp only [front, found, Option.map_some, undelivered, ran, Option.getD_some]

end Sys2Proof.Machine

namespace Sys2Proof
open Machine

/-- COMMAND_COMPLETE asks the live share first, then the simmer share. -/
theorem commandsComplete_claim : Claim.CommandsComplete := by
  intro s f q awake
  have hexec : exec (.commandComplete f q) s = .next (match (s.completeOne f.val true q.val).orElse (fun _ => s.completeOne f.val false q.val) with
      | some s => s.pump f.val
      | none => s) := by
    show execCommandComplete f q s = _
    simp only [execCommandComplete, unlessInert, awake]
    rfl
  refine ⟨fun u live => ?_, fun live u simmer => ?_, fun live simmer => ?_, fun live e rest a front ran plain => State.completeOne_front front ran plain⟩
  · rw [hexec, live]; rfl
  · rw [hexec, live, simmer]; rfl
  · rw [hexec, live, simmer]; rfl

/-- A step commits, and a head moves to the row past the furthest one read. -/
theorem stepsCommit : Claim.StepsCommit := by
  refine ⟨fun s f live awake share => ?_, fun s f live c d g region => ?_⟩
  · intro t idle open_ begun next
    refine ⟨?_, State.commitStep_task (State.hasTask_of_activeShare share)⟩
    show execStepCommit f s = _
    simp [execStepCommit, unlessInert, awake, share, idle, open_, begun, next, t]
  · rw [State.advanceHead_eq d region, State.setFrond_frond]
    refine Frond.region_setRegion (g := g) ?_ _
    rw [← region, Frond.region, Frond.region, (Frond.emptied_keeps ..).2]

/-- Settles O40: the entry at the front of its queue is the first that can complete, and neither a head, a record nor a signature of a commit moves the task's place. -/
theorem commandsComplete : Obligations.CommandsComplete := ⟨commandsComplete_claim, stepsCommit⟩

end Sys2Proof
end

