-- ==== Sys2Proof/Proofs/BlockedTasks.lean ====
section
/-! TAG_TIMEOUT and SEM_TIMEOUT (R110, R111, R141): both look at the task that issues and change nothing unless a block of it is overdue. -/

namespace Sys2Proof.Machine

variable {s : State} {f : FrondId} {now : W64} {live : Bool}

/-- No tagged access is overdue: nothing happens. -/
theorem tagTimeout_none (awake : s.inert = false) (share : (s.at_ now).activeShare f.val = some live)
    (fresh : ((s.at_ now).taskOf f.val live).tagSince.find? (fun p => (s.at_ now).overdue ((s.at_ now).taskOf f.val live) p.2) = none) :
    exec (.tagTimeout f now) s = .next (s.at_ now) := by
  show execTagTimeout f now s = _
  simp only [execTagTimeout, unlessInert, awake, share, fresh]
  rfl

/-- The first tagged access that is overdue faults. -/
theorem tagTimeout_some {p : (Nat × Nat × Nat × Nat) × W64} (awake : s.inert = false) (share : (s.at_ now).activeShare f.val = some live)
    (found : ((s.at_ now).taskOf f.val live).tagSince.find? (fun p => (s.at_ now).overdue ((s.at_ now).taskOf f.val live) p.2) = some p) :
    exec (.tagTimeout f now) s = .next (((s.at_ now).tagFault f.val live p.1).pump f.val) := by
  show execTagTimeout f now s = _
  simp only [execTagTimeout, unlessInert, awake, share, found]
  rfl

theorem State.tagFault_queued {f : Nat} {k : Nat × Nat × Nat × Nat} {e : QEntry} (queue : k.1 < 7)
    (found : ((s.taskOf f live).queues.get k.1 []).find? (fun e => decide (e.index = k.2.1)) = some e) :
    s.tagFault f live k = (let u := s.taskFault f live stTagTimeout 2 (engineOf e.cmd) e.index
      if (u.taskOf f live).skipping then u.skipIssued f live k.1 e else u) := by
  simp only [State.tagFault, if_pos queue, found]

theorem State.tagFault_transfer {f : Nat} {k : Nat × Nat × Nat × Nat} {d : DmaXfer} (queue : 7 ≤ k.1)
    (found : (s.frond f).dma.find? (fun d => (d.live == live) && decide (d.index = k.2.1) && decide (7 + b2n d.isIn = k.1)) = some d) :
    s.tagFault f live k = s.dmaFault f d stTagTimeout := by
  simp only [State.tagFault, if_neg (Nat.not_lt.2 queue), found]

/-- The command that waits at the sequencer has waited longer than the timeout. -/
def State.waitOverdue (s : State) (t : Task) : Bool := (t.semSince.map (fun p => decide (p.1 = t.cmdIndex) && s.overdue t p.2)).getD false

theorem State.waitOverdue_iff (s : State) (t : Task) : s.waitOverdue t = true ↔ ∃ since, t.semSince = some (t.cmdIndex, since) ∧ s.overdue t since = true := by
  unfold State.waitOverdue
  cases h : t.semSince with
  | none => simp
  | some p =>
    obtain ⟨index, since⟩ := p
    simp only [Option.map_some, Option.getD_some, Bool.and_eq_true, decide_eq_true_eq, Option.some.injEq, Prod.mk.injEq]
    constructor
    · rintro ⟨hi, ho⟩
      exact ⟨since, ⟨hi, rfl⟩, ho⟩
    · rintro ⟨since', ⟨hi, rfl⟩, ho⟩
      exact ⟨hi, ho⟩

/-- SEM_TIMEOUT faults the task of an overdue wait, and does nothing else. -/
theorem semTimeout_eq (awake : s.inert = false) (share : (s.at_ now).activeShare f.val = some live) :
    exec (.semTimeout f now) s = .next (let v := s.at_ now
      let t := v.taskOf f.val live
      let u := v.taskFault f.val live stSemTimeout 2 ((t.fed.head?.map engineOf).getD 8) t.cmdIndex
      if v.waitOverdue t = true then (if (u.taskOf f.val live).skipping then u.skipHead f.val live else u).pump f.val else v) := by
  show execSemTimeout f now s = _
  simp only [execSemTimeout, unlessInert, awake, share]
  rfl

/-- The first fault of a frond is held in its registers (R111). -/
theorem State.recordFault_first {f : Nat} (first : (s.frond f).faultValid = false) (code : BitVec 16) (phase queue index variant : Nat) :
    (s.recordFault f code phase queue index variant).frond f = { s.frond f with
      faultValid := true, faultCode := code, faultPhase := BitVec.ofNat 2 phase, faultQueue := BitVec.ofNat 4 queue,
      faultIndex := BitVec.ofNat 16 index, faultVariant := BitVec.ofNat 6 variant, faultDtb := s.dtb } := by
  simp only [State.recordFault, first, Bool.false_eq_true, if_false]
  exact State.setFrond_frond ..

end Sys2Proof.Machine

namespace Sys2Proof
open Machine

/-- Settles O41: either timeout asks whether a block of the issuing task is overdue, and faults that task or leaves the state as it is. -/
theorem blockedTasksTimeOut : Obligations.BlockedTasksTimeOut := by
  refine ⟨fun s f now live awake share => ⟨fun fresh => ?_, fun p found => ⟨fun queue e he => ?_, fun queue d hd => ?_⟩, fun fresh => ?_,
    fun since waits late => ?_⟩, fun s f code phase queue index variant first => ?_⟩
  · exact tagTimeout_none awake share (List.find?_eq_none.2 fun p hp => Bool.not_eq_true _ ▸ fresh p hp)
  · rw [tagTimeout_some awake share found, State.tagFault_queued queue he]
  · rw [tagTimeout_some awake share found, State.tagFault_transfer queue hd]
  · rw [semTimeout_eq awake share]
    refine congrArg Host.Outcome.next (if_neg fun late => ?_)
    obtain ⟨since, waits, late⟩ := ((s.at_ now).waitOverdue_iff _).1 late
    exact Bool.false_ne_true ((fresh since waits).symm.trans late)
  · rw [semTimeout_eq awake share]
    exact congrArg Host.Outcome.next (if_pos (((s.at_ now).waitOverdue_iff _).2 ⟨since, waits, late⟩))
  · rw [State.recordFault_first first]
    exact ⟨rfl, rfl, rfl, rfl, rfl, rfl⟩

end Sys2Proof
end

