-- ==== Sys2Proof/Proofs/ParityReruns.lean ====
section
/-! A detected parity error (R104, R149): the first two of a step run it again, from where it began and with the tags it set empty. -/

namespace Sys2Proof.Machine

variable {s : State} {f : Nat} {live : Bool}

/-! ### The parts of a re-run -/

/-- A change of a task depends only on what becomes of the task that stands there. -/
theorem State.modTask_congr {g h : Task → Task} (same : g (s.taskOf f live) = h (s.taskOf f live)) : s.modTask f live g = s.modTask f live h := by
  have hmap (o : Option Task) (here : g (o.getD {}) = h (o.getD {})) : o.map g = o.map h := by
    cases o with
    | none => rfl
    | some t => exact congrArg some here
  unfold State.taskOf at same
  cases live with
  | true =>
    simp only [if_true] at same
    simp only [State.modTask, if_true, hmap _ same]
  | false =>
    simp only [Bool.false_eq_true, if_false] at same
    simp only [State.modTask, Bool.false_eq_true, if_false, hmap _ same]

theorem State.modTask_keeps (g : Task → Task) : ((s.modTask f live g).frond f).full = (s.frond f).full
    ∧ ((s.modTask f live g).frond f).ptmHalf = (s.frond f).ptmHalf ∧ ((s.modTask f live g).frond f).tsp = (s.frond f).tsp := by
  cases live with
  | true => rw [State.modTask_live]; exact ⟨rfl, rfl, rfl⟩
  | false => rw [State.modTask_simmer]; exact ⟨rfl, rfl, rfl⟩

/-- Transfers that a frond drops leave its queue and the chunks on the chain, and nothing else of it changes. -/
theorem State.dropXfers_frond (gone : DmaXfer → Bool) :
    ∃ dma chain passing, (s.dropXfers f gone).frond f = { s.frond f with dma := dma, chain := chain, passing := passing } := by
  unfold State.dropXfers
  dsimp only
  refine ⟨(s.frond f).dma.filter (fun d => !gone d), List.foldlRecOn
    (motive := fun t : State => ∃ chain passing, t.frond f = { s.frond f with dma := (s.frond f).dma.filter (fun d => !gone d), chain := chain, passing := passing })
    _ _ ⟨_, _, State.setFrond_frond ..⟩ fun t kept g _ => ?_⟩
  split
  · exact kept
  · by_cases here : f = g
    · subst here
      obtain ⟨chain, passing, kept⟩ := kept
      exact ⟨_, _, by rw [State.setFrond_frond, kept]⟩
    · rwa [State.setFrond_frond_other (h := here)]

/-- A parity record is kept beside the tasks of its frond. -/
theorem Frond.recordParity_shares (x : Frond) (p : ParityInfo) (n : Nat) : (x.recordParity p n).shares = x.shares := by
  unfold Frond.recordParity
  split <;> rfl

theorem State.ladleFault_frond (k : Nat) : (s.ladleFault k).frond f = s.frond f := by
  unfold State.ladleFault
  rw [apply_ite (fun u : State => u.frond f)]
  exact ite_self _

/-- A step that runs again begins with its first command, what it set being undone. -/
theorem State.rerun_task (has : s.HasTask f live) :
    let t := s.taskOf f live
    let k := (s.rerun f live).taskOf f live
    let x := (s.rerun f live).frond f
    k.cmdIndex = t.step.startIndex ∧ k.cursors = t.step.cursors ∧ k.counts = t.step.counts ∧ k.queues = {} ∧ k.fed = []
      ∧ x.full = (s.frond f).full.filter (fun r => !t.step.tagsSet.contains r) ∧ x.ptmHalf = t.step.ptmHalf ∧ x.tsp = (s.frond f).tsp := by
  obtain ⟨dma, chain, passing, hdrop⟩ := s.dropXfers_frond (f := f) (fun d => (d.live == live) && decide (d.desc.kind = 0))
  unfold State.rerun
  dsimp only
  generalize hu : State.setFrond _ f _ = u
  have hfrond := (congrArg (fun u : State => u.frond f) hu).symm.trans (State.setFrond_frond ..)
  have hshares : (u.frond f).shares = (s.frond f).shares := by
    rw [hfrond, hdrop]
    rfl
  obtain ⟨hfull, hhalf, htsp⟩ := State.modTask_keeps (s := u) (f := f) (live := live) _
  rw [((State.hasTask_of_shares hshares has).modTask _).2, State.taskOf_of_shares hshares, hfull, hhalf, htsp, hfrond, hdrop]
  exact ⟨rfl, rfl, rfl, rfl, rfl, rfl, rfl, rfl⟩

/-- The first two detections of a step are kept with it, and its frond runs it again (R149). -/
theorem parityError_reruns {f : FrondId} {p : ParityInfo} {now : W64} (awake : s.inert = false) (own : p.remoteFor = none) (runs : s.frondRuns f.val = true) :
    let v := (s.at_ now).ladleFault 0
    let t := v.taskOf f.val live
    v.activeShare f.val = some live → t.committed = false → t.step.detections.length < 2 →
    let since := if t.step.detections.isEmpty then now else t.step.detectedAt
    let w := (v.setFrond f.val ((v.frond f.val).recordParity p (t.step.detections.length + 1))).modTask f.val live (fun t => { t with
      step := { t.step with detections := t.step.detections ++ [p], detectedAt := since } })
    exec (.parityError f p now) s = .next (((w.count (cntFrond f.val 6) 1).rerun f.val live).pump f.val) := by
  intro v t share uncommitted early since w
  have runsNow : (s.at_ now).frondRuns f.val = true := by
    rw [← runs]
    unfold State.frondRuns State.lost State.frond State.row
    simp only [State.at_fronds, State.at_rows]
  have hw : (v.setFrond f.val ((v.frond f.val).recordParity p (t.step.detections.length + 1))).modTask f.val live (fun u => { u with
      step := { u.step with detections := t.step.detections ++ [p], detectedAt := since } }) = w := by
    refine State.modTask_congr ?_
    have htask : (v.setFrond f.val ((v.frond f.val).recordParity p (t.step.detections.length + 1))).taskOf f.val live = t :=
      State.taskOf_of_shares (by rw [State.setFrond_frond, Frond.recordParity_shares])
    rw [htask]
  show execParityError f p now s = _
  unfold execParityError unlessInert
  simp only [awake, own, runsNow, Option.map_none, Option.getD_none, Bool.not_true, Bool.false_eq_true, if_false]
  rw [show ((s.at_ now).ladleFault 0).activeShare f.val = some live from share]
  simp only [show (((s.at_ now).ladleFault 0).taskOf f.val live).committed = false from uncommitted, Bool.false_eq_true, if_false]
  simp only [List.length_append, List.length_singleton]
  rw [if_pos (Nat.succ_lt_succ early)]
  exact congrArg (fun w : State => Host.Outcome.next (((w.count (cntFrond f.val 6) 1).rerun f.val live).pump f.val)) hw

end Sys2Proof.Machine

namespace Sys2Proof
open Machine

/-- Settles O44: a detection is counted in the step's own task, which a parity record leaves in place, and the re-run restores what the step began with. -/
theorem parityErrorReruns : Obligations.ParityErrorReruns := by
  refine ⟨fun s f p now live awake own runs => parityError_reruns awake own runs, fun s f live share => ?_⟩
  obtain ⟨hindex, hcursors, hcounts, hqueues, hfed, hfull, hhalf, htsp⟩ := State.rerun_task (State.hasTask_of_activeShare share)
  exact ⟨hindex, hcursors, hcounts, fun q => by rw [hqueues]; rfl, hfed, hfull, hhalf, htsp⟩

end Sys2Proof
end

