-- ==== Sys2Proof/Proofs/SkippedFillReachesAnotherFrond.lean ====
section
/-! An engine command with an empty dynamic dimension does nothing but its header signal (R107), and that signal can move another frond: where it overflows
a semaphore the live frame ends (R75), the frond's simmer share runs, and its END lets the fronds of a job marked to be saved go on (R419), as for the NOP of
O34. The claim of O32 runs frond 0 alone. -/

namespace Sys2Proof.Machine

/-- A pattern of one access, its one dimension sized by the first extent. -/
def emptyPattern : Pattern :=
  { base := 0, row := true, circ := 0, circEn := false, halo := false, tagged := false, dims := 0, counts := [0], strides := [0], width := 0, dyn := [1] }

/-- The state of the NOP, its live stripe with that pattern and a first extent of zero. -/
def skipState : State := nopState.setFrond 0 { overflowingFrond with live := some { live := true, pats := [emptyPattern], exts := [0] } }

/-- FILL through the pattern, whose header signals semaphore 0. -/
def skipCmd : Instr := .fill 0 { sen := true, ssem := 0 } 0 0 1

/-- The state once its header's waits are granted. -/
def skipGranted : State := (skipState.reached 0 true skipCmd).modTask 0 true (fun t => { t with granted := true })

theorem skipState_clear : skipState.Clear 0 true :=
  ⟨rfl, rfl, rfl, fun _ => rfl, rfl, rfl, rfl, rfl, rfl, rfl, rfl, rfl, rfl⟩

theorem headWait_skipCmd : (headWait 0 true skipCmd).run (skipState.reached 0 true skipCmd) = .ok ((), skipGranted) := rfl

/-- FILL is skipped: its pattern is empty. -/
theorem skipState_skips : zeroSkipped (skipState.taskOf 0 true).pats (skipState.taskOf 0 true).exts skipCmd = true := by decide +kernel

/-- In the step, frond 1 has issued its NOP. -/
theorem skipState_after_fill : ((skipState.after skipCmd).taskOf 1 false).cmdIndex = 1 := by decide +kernel

/-- Frond 0 run alone leaves frond 1 where it stood. -/
theorem skipGranted_alone :
    (((State.pumpFor 259 ((skipGranted.issued 0 true).fireHeader 0 skipCmd 0) 0).setTimers 0).taskOf 1 false).cmdIndex = 0 := by decide +kernel

end Sys2Proof.Machine

namespace Sys2Proof
open Machine

/-- Refutes O32: a skipped FILL whose header signal overflows ends a frame, and with it the wait of another frond of a job that is saved. -/
theorem not_engineCommandRuns : ¬ Obligations.EngineCommandRuns := by
  unfold Obligations.EngineCommandRuns
  intro claim
  obtain ⟨-, issues⟩ := claim skipState skipCmd 0 true rfl skipState_clear
  obtain ⟨skipped, -⟩ := issues skipGranted headWait_skipCmd
  have halone := State.after_eq (skipped skipState_skips)
  have hindex := congrArg (fun t => (t.taskOf 1 false).cmdIndex) halone
  exact absurd (skipState_after_fill.symm.trans (hindex.trans skipGranted_alone)) (by decide)

end Sys2Proof
end

