-- ==== Sys2Proof/Proofs/JobEndStartsStream.lean ====
section
/-! JOB_RUN of an empty list can report two descriptors. The job it starts completes at once (R230, R231), which places the working areas that waited on
the fronds of its set (R126); the STREAM_START that waited for one of them then completes (R126, R127), and its record reaches the completion ring first. The claim
of O17 has the record of JOB_RUN alone follow what the ring held. -/

namespace Sys2Proof.Machine

variable {s : State} {f c : Nat}

/-! ### A placement on a frond without simmer work -/

/-- The frond without the area and the wait of context c. -/
def Frond.withoutArea (x : Frond) (c : Nat) : Frond :=
  { x with areas := x.areas.filter (fun a => decide (a.ctx ≠ c)), placeDue := x.placeDue.filter (fun d => decide (d ≠ c)) }

theorem State.setFrond_setFrond (x y : Frond) : (s.setFrond f x).setFrond f y = s.setFrond f y := by
  unfold State.setFrond
  simp only [Tbl.set_set]

/-- Where a free run stands, a placement changes its frond alone, and the context waits no longer. -/
theorem State.placeArea_of_run {t : TaskImage} (idle : (s.frond f).simmer = none) (unowned : (s.frond f).regionOwners = [])
    (room : (((s.frond f).withoutArea c).findRun t.tRows).isSome = true) :
    ∃ y : Frond, s.placeArea f c t = s.setFrond f y ∧ y.placeDue = ((s.frond f).withoutArea c).placeDue := by
  obtain ⟨base, hrun⟩ := Option.isSome_iff_exists.1 room
  have hspill : (s.setFrond f ((s.frond f).withoutArea c)).spillRows f base t.tRows = s.setFrond f ((s.frond f).withoutArea c) := by
    have hnone : (s.setFrond f ((s.frond f).withoutArea c)).residentImage f = none := by
      unfold State.residentImage
      rw [State.setFrond_frond]
      simp [Frond.withoutArea, idle, unowned]
    unfold State.spillRows
    rw [hnone]
  unfold State.placeArea
  change ((s.frond f).withoutArea c).findRun t.tRows = some base at hrun
  simp only [← Frond.withoutArea.eq_def (s.frond f) c, hrun, State.setFrond_frond, hspill, State.setFrond_setFrond]
  exact ⟨_, rfl, rfl⟩

/-- A run is found while one is free, wherever the supervisor likes it (log 11). -/
theorem findRun_isSome_of_lowest {x : Frond} {n : Nat} (free : (lowestRun x.takenRuns n).isSome = true) : (x.findRun n).isSome = true := by
  unfold Frond.findRun freeRun
  dsimp only
  split
  · rfl
  · exact free

/-- The state with its group registers set to g. -/
def State.withGroups (s : State) (g : Tbl McastGroup) : State := { s with lsch := { s.lsch with groups := g } }

/-- Groups are taken in the group registers alone. -/
theorem State.takeGroups_state (b : Bound) : ∃ g, (s.takeGroups c b).2 = s.withGroups g := by
  unfold State.takeGroups
  refine List.foldlRecOn (motive := fun t : State => ∃ g, t = s.withGroups g) _ _ ⟨s.lsch.groups, rfl⟩ fun t ⟨g, ht⟩ p _ => ?_
  rw [ht]
  exact ⟨_, rfl⟩

/-! ### A job of one frond completes -/

/-- Frond f of a job of context c that ends, before the areas that wait there are placed. -/
def State.atBoundary (s : State) (f c : Nat) : State :=
  ((s.setFrond f { s.frond f with cache := [], simRows := [], spillFull := [] }).freeRegions f c).taskBoundary f

/-- What is left of a job's completion once its fronds are free: groups, sums and its record. -/
def State.endJob (s : State) (c : Nat) (j : Job) : State :=
  let s := s.dropGroups c []
  let s := s.writeStats c (statsBytes j.stats (s.ctx c).scaleSet (s.ctx c).scaleSet)
  let s := s.setCtx c { s.ctx c with job := none }
  s.completeWith j.hdr opJobRun stOk j.body.count (statSums (satSum j.stats) (uflSum j.stats)) 0 0

theorem State.completeJob_one {j : Job} (job : (s.ctx c).job = some j) (free : s.fixedOrder c = false) (alone : s.setOf c = [f])
    (idle : (s.frond f).simmer = none) : s.completeJob c stOk none = (((s.atBoundary f c).settleAreas f).endJob c j.joined) := by
  have hls : s.lsInstancesNotRun c j.joined = s := by
    unfold State.lsInstancesNotRun
    simp only [free, Bool.false_eq_true, if_false]
  have sound : ¬ stOk = stPoisoned := by decide
  unfold State.completeJob State.atBoundary State.endJob
  simp only [job, Option.map_some, hls, alone, List.foldl_cons, List.foldl_nil, idle, sound, if_false, decide_true, Bool.true_or, if_true]

theorem State.settleAreas_one {d : Nat} {b : Bound} (due : (s.frond f).placeDue = [d]) (still : (s.frond f).still = true) (bound : (s.ctx d).bound = some b) :
    s.settleAreas f = (s.placeArea f d b.image).finishStart d := by
  unfold State.settleAreas
  simp only [due, still, if_true, List.foldl_cons, List.foldl_nil, bound]

/-! ### The records of two rings -/

theorem State.sq_of_hif {t : State} (hif : t.hif = s.hif) (r : Nat) : t.sq r = s.sq r := congrArg (fun h : Hif => h.sqs.get r {}) hif

theorem State.cq_of_hif {t : State} (hif : t.hif = s.hif) (r : Nat) : t.cq r = s.cq r := congrArg (fun h : Hif => h.cqs.get r {}) hif

/-- Being alone on a ring is a matter of the host interface. -/
theorem State.Sole.of_hif {t : State} {h : DescHdr} {slot : Nat} (H : s.Sole h slot) (hif : t.hif = s.hif) (inert : t.inert = s.inert) : t.Sole h slot := by
  have hsq := State.sq_of_hif hif
  have hcq := State.cq_of_hif hif
  exact ⟨inert.trans H.awake, by rw [hsq]; exact H.alone, by rw [hsq]; exact H.running, by rw [hif]; exact H.fences, by rw [hsq, hcq]; exact H.free⟩

/-- A record lengthens the queue of its ring's completion ring by one. -/
theorem State.reported_length {h : DescHdr} {slot : Nat} (op : Byte) (status : BitVec 16) (i0 i1 i2 : W32) (cause : BitVec 16) :
    ((s.reported h slot op status i0 i1 i2 cause).cq (s.sq h.sq.val).cq.toNat).queue.length = (s.cq (s.sq h.sq.val).cq.toNat).queue.length + 1 := by
  unfold State.reported
  rw [State.cq_setCq]
  exact List.length_append

theorem State.reported_sq_other {h : DescHdr} {r : Nat} (other : r ≠ h.sq.val) (slot : Nat) (op : Byte) (status : BitVec 16) (i0 i1 i2 : W32)
    (cause : BitVec 16) : (s.reported h slot op status i0 i1 i2 cause).sq r = s.sq r := Tbl.get_set_other _ other _ _

/-- The record of one ring leaves a descriptor of another alone on its own. -/
theorem State.Sole.reported_other {h k : DescHdr} {slot place : Nat} (K : s.Sole k place) (other : k.sq.val ≠ h.sq.val) (op : Byte) (status : BitVec 16)
    (i0 i1 i2 : W32) (cause : BitVec 16) : (s.reported h slot op status i0 i1 i2 cause).Sole k place := by
  have hsq : (s.reported h slot op status i0 i1 i2 cause).sq k.sq.val = s.sq k.sq.val :=
    State.reported_sq_other other ..
  have hheld (q : Nat) : ((s.reported h slot op status i0 i1 i2 cause).cq q).held = (s.cq q).held := by
    by_cases same : q = (s.sq h.sq.val).cq.toNat
    · subst same
      unfold State.reported
      rw [State.cq_setCq]
    · exact congrArg CplRing.held (Tbl.get_set_other _ same _ _)
  exact ⟨K.awake, by rw [hsq]; exact K.alone, by rw [hsq]; exact K.running, K.fences, by rw [hsq, hheld]; exact K.free⟩

/-- A STREAM_START whose areas stand completes. -/
theorem State.finishStart_reported {h : DescHdr} {slot : Nat} (waits : (s.stream c).startHdr = some h)
    (placed : ∀ f ∈ s.setOf c, (s.frond f).placeDue = []) (H : s.Sole h slot) :
    s.finishStart c = (s.setStream c { s.stream c with startHdr := none }).reported h slot opStreamStart stOk (s.ctx c).outFrame := by
  have hplaced : (s.setOf c).any (fun f => (s.frond f).placeDue.contains c) = false :=
    List.any_eq_false.2 fun f hf => by rw [placed f hf]; exact Bool.false_ne_true
  unfold State.finishStart
  simp only [waits, hplaced, Bool.false_eq_true, if_false]
  have H' : (s.setStream c { s.stream c with startHdr := none }).Sole h slot := H.of_hif rfl rfl
  exact H'.complete opStreamStart (by decide) ..

theorem State.writeStats_hif (l : List Byte) : (s.writeStats c l).hif = s.hif ∧ (s.writeStats c l).inert = s.inert := by
  unfold State.writeStats State.memWrite
  dsimp only
  split <;> exact ⟨rfl, rfl⟩

/-- The end of a job adds its record to the completion ring. -/
theorem State.endJob_length {j : Job} {slot : Nat} (H : s.Sole j.hdr slot) :
    ((s.endJob c j).cq (s.sq j.hdr.sq.val).cq.toNat).queue.length = (s.cq (s.sq j.hdr.sq.val).cq.toNat).queue.length + 1 := by
  let u := (s.dropGroups c []).writeStats c (statsBytes j.stats ((s.dropGroups c []).ctx c).scaleSet ((s.dropGroups c []).ctx c).scaleSet)
  obtain ⟨hhif, hinert⟩ : u.hif = s.hif ∧ u.inert = s.inert := State.writeStats_hif _
  have H' : (u.setCtx c { u.ctx c with job := none }).Sole j.hdr slot := H.of_hif hhif hinert
  rw [← State.sq_of_hif hhif, ← State.cq_of_hif hhif]
  exact (congrArg (fun t : State => (t.cq (u.sq j.hdr.sq.val).cq.toNat).queue.length) (H'.complete opJobRun (by decide) ..)).trans
    (State.reported_length (s := u.setCtx c { u.ctx c with job := none }) ..)

/-- A STREAM_START and a job, each alone on a ring of one completion ring, leave two records there. -/
theorem State.startThenJob_length {d slot place : Nat} {h : DescHdr} {j : Job} (waits : (s.stream c).startHdr = some h)
    (placed : ∀ f ∈ s.setOf c, (s.frond f).placeDue = []) (H : s.Sole h slot) (J : s.Sole j.hdr place) (other : j.hdr.sq.val ≠ h.sq.val)
    (shared : (s.sq j.hdr.sq.val).cq = (s.sq h.sq.val).cq) :
    (((s.finishStart c).endJob d j).cq (s.sq h.sq.val).cq.toNat).queue.length = (s.cq (s.sq h.sq.val).cq.toNat).queue.length + 2 := by
  rw [State.finishStart_reported waits placed H]
  have J' : (s.setStream c { s.stream c with startHdr := none }).Sole j.hdr place := J.of_hif rfl rfl
  have first := State.reported_length (s := s.setStream c { s.stream c with startHdr := none }) (h := h) (slot := slot) opStreamStart stOk
    (s.ctx c).outFrame 0 0 0
  have second := State.endJob_length (c := d) (J'.reported_other (slot := slot) other opStreamStart stOk (s.ctx c).outFrame 0 0 0)
  rw [State.reported_sq_other other] at second
  change ((_ : State).cq (s.sq j.hdr.sq.val).cq.toNat).queue.length = ((_ : State).cq (s.sq j.hdr.sq.val).cq.toNat).queue.length + 1 at second
  rw [shared] at second
  exact second.trans (congrArg (· + 1) first)

/-! ### The counterexample -/

/-- STREAM_START of context 0 on ring 1, in progress. -/
def startHdr : DescHdr := { sq := 1, idx := 0, ctx := 0 }

/-- JOB_RUN of context 48 on ring 0. -/
def listHdr : DescHdr := { sq := 0, idx := 0, ctx := 48 }

/-- A list of no entries. -/
def emptyList : JobBody := { listEn := true, listHost := false, list := 0, count := 0, ext0 := 0, ext1 := 0, ext2 := 0, ext3 := 0 }

/-- A descriptor in progress, with a spore slot. -/
def begunWith (c : Instr) (slot : Nat) : InFlight := { idx := 0, cmd := c, barrier := false, state := 1, slot := slot, done := none }

/-- The model of both contexts is bound to frond 0, where the stream's working area waits to be placed. -/
def listState : State :=
  (((((({} : State).setCtx 0 { state := .running, bound := some (boundTo 1) }).setCtx 48 { bound := some (boundTo 1) }).setStream 0
    { active := true, startHdr := some startHdr }).setFrond 0 { placeDue := [0] }).setSq 0 { inflight := [begunWith (.jobRun listHdr emptyList) 3] }).setSq 1
    { inflight := [begunWith (.streamStart startHdr 0 0) 4] }

theorem listState_sole : listState.Sole listHdr 3 := ⟨rfl, ⟨_, rfl, rfl, rfl, rfl⟩, rfl, rfl, rfl⟩

theorem listState_admits : listState.copyAhead listHdr = false ∧ ((listState.start listHdr).ctx 48).bound = some (boundTo 1)
    ∧ ((listState.start listHdr).ctx 48).job = none ∧ (listState.start listHdr).setUsable (boundTo 1).mask = true
    ∧ (emptyList.listEn && (decide (4096 < emptyList.count.toNat) || decide (emptyList.list.toNat % 64 ≠ 0))) = false
    ∧ (listState.start listHdr).guarded emptyList.list.toNat (16 * emptyList.count.toNat) = false := by decide +kernel

/-- A package names 256 groups at most, and all are spare. -/
theorem listState_groups : (listState.start listHdr).groupsFit (boundTo 1).image = true := by
  have spare : (listState.start listHdr).spareGroups.length = 256 := by decide +kernel
  have few : (Config.packageGroups (boundTo 1).image.pkgId).length ≤ 256 := (List.length_filterMap_le _ _).trans (List.length_finRange).le
  unfold State.groupsFit
  rw [spare]
  exact decide_eq_true few

/-- The job that JOB_RUN starts. -/
def listJob : Job :=
  { hdr := listHdr, body := emptyList, inst := 0, ended := [], suspended := false, started := false, status := stOk, cause := 0, stats := {},
    failedEntry := none, marked := false, taskNo := 0 }

/-- The state in which it completes, its groups taken. -/
def listStarted (g : Tbl McastGroup) : State := ((listState.start listHdr).withGroups g).setCtx 48 { bound := some (boundTo 1), job := some listJob }

theorem listState_run : ∃ g, exec (.jobRun listHdr emptyList) listState = .next ((listStarted g).completeJob 48 stOk none) := by
  obtain ⟨ahead, bound, idle, usable, short, clear⟩ := listState_admits
  obtain ⟨g, taken⟩ := State.takeGroups_state (s := listState.start listHdr) (c := 48) (boundTo 1)
  refine ⟨g, ?_⟩
  show execJobRun listHdr emptyList listState = _
  unfold execJobRun
  rw [ahead, if_neg Bool.false_ne_true, listState_sole.runs]
  simp only [show listHdr.ctx.toNat = 48 from rfl, show liveCtx 48 = false from rfl, bound, idle, short, clear, usable, listState_groups, taken,
    Option.isSome_none, Bool.false_eq_true, if_false, Bool.not_true, Bool.or_false, show emptyList.listHost = false from rfl, Bool.and_false, Bool.false_and]
  rfl

theorem listStarted_facts (g : Tbl McastGroup) : ((listStarted g).ctx 48).job = some listJob ∧ (listStarted g).fixedOrder 48 = false
    ∧ (listStarted g).setOf 48 = (boundTo 1).fronds ∧ ((listStarted g).frond 0).simmer = none := ⟨rfl, (by decide : bitOf (0 : Byte) 0 = false), rfl, rfl⟩

theorem listStarted_boundary (g : Tbl McastGroup) : ((listStarted g).atBoundary 0 48).frond 0 = { placeDue := [0] }
    ∧ ((listStarted g).atBoundary 0 48).hif = (listState.start listHdr).hif
    ∧ ((listStarted g).atBoundary 0 48).inert = false
    ∧ (((listStarted g).atBoundary 0 48).ctx 0).bound = some (boundTo 1)
    ∧ (((listStarted g).atBoundary 0 48).stream 0).startHdr = some startHdr := ⟨rfl, rfl, rfl, rfl, rfl⟩

theorem boundTo_one : (boundTo 1).fronds = [0] := by decide +kernel

theorem startHdr_sole : (listState.start listHdr).Sole startHdr 4 := ⟨rfl, ⟨_, rfl, rfl, rfl, rfl⟩, rfl, rfl, rfl⟩

/-- Wherever the supervisor likes the stream's rows, its area is placed, and frond 0 waits for none. -/
theorem listStarted_places (g : Tbl McastGroup) : ∃ y : Frond, y.placeDue = []
    ∧ ((listStarted g).atBoundary 0 48).settleAreas 0 = (((listStarted g).atBoundary 0 48).setFrond 0 y).finishStart 0 := by
  obtain ⟨hfrond, -, -, hbound, -⟩ := listStarted_boundary g
  generalize (listStarted g).atBoundary 0 48 = u at *
  have room : (((u.frond 0).withoutArea 0).findRun (boundTo 1).image.tRows).isSome = true := by
    rw [hfrond]
    exact findRun_isSome_of_lowest (by decide +kernel)
  obtain ⟨y, placed, due⟩ := State.placeArea_of_run (t := (boundTo 1).image) (by rw [hfrond]) (by rw [hfrond]) room
  refine ⟨y, by rw [due, hfrond]; rfl, ?_⟩
  rw [State.settleAreas_one (by rw [hfrond]) (by rw [hfrond]; rfl) hbound, placed]

/-- The placed area completes STREAM_START, then the job its own descriptor. -/
theorem listStarted_completes (g : Tbl McastGroup) : (((listStarted g).completeJob 48 stOk none).cq 0).queue.length = 2 := by
  obtain ⟨job, free, set, simmer⟩ := listStarted_facts g
  obtain ⟨y, due, places⟩ := listStarted_places g
  obtain ⟨-, hhif, hinert, hbound, hstart⟩ := listStarted_boundary g
  rw [State.completeJob_one job free (set.trans boundTo_one) simmer, places]
  generalize hv : ((listStarted g).atBoundary 0 48).setFrond 0 y = v
  have hrings : v.hif = (listState.start listHdr).hif := hv ▸ hhif
  have hawake : v.inert = false := hv ▸ hinert
  have waits : (v.stream 0).startHdr = some startHdr := hv ▸ hstart
  have ready : ∀ f ∈ v.setOf 0, (v.frond f).placeDue = [] := by
    have hset : v.setOf 0 = [0] := by
      rw [← hv]
      unfold State.setOf
      rw [State.setFrond_ctx, hbound]
      exact boundTo_one
    intro f hf
    rw [hset, List.mem_singleton] at hf
    rw [hf, ← hv, State.setFrond_frond, due]
  have hsq := State.sq_of_hif hrings
  have records := State.startThenJob_length (d := 48) (j := listJob.joined) waits ready (startHdr_sole.of_hif hrings hawake)
    (listState_sole.started.of_hif hrings hawake) (by decide) (by rw [hsq, hsq]; rfl)
  rw [hsq, State.cq_of_hif hrings] at records
  exact records

/-- The completion ring was empty. -/
theorem listState_unreported : ((listState.cq (listState.sq listHdr.sq.val).cq.toNat).queue).length = 0 := rfl

end Sys2Proof.Machine

namespace Sys2Proof
open Machine

/-- Refutes O17: where the areas of a stream wait on the frond of the job, JOB_RUN of an empty list reports STREAM_START before itself. -/
theorem not_jobRunAndDispatch : ¬ Obligations.JobRunAndDispatch := by
  unfold Obligations.JobRunAndDispatch Claim.JobRunStarts
  rintro ⟨claim, -⟩
  obtain ⟨ahead, bound, idle, usable, short, clear⟩ := listState_admits
  obtain ⟨-, empty⟩ := claim listState listHdr 3 emptyList (boundTo 1) listState_sole ahead bound rfl idle usable listState_groups fun _ =>
    ⟨by decide, by decide, Or.inr clear, fun host => absurd host (by decide)⟩
  obtain ⟨g, runs⟩ := listState_run
  obtain ⟨t, ends, -, i1, i2, cause, queue, -⟩ := empty rfl rfl
  obtain rfl : (listStarted g).completeJob 48 stOk none = t := Host.Outcome.next.inj (runs.symm.trans ends)
  have one := congrArg List.length queue
  rw [List.length_append, listState_unreported, List.length_singleton] at one
  exact absurd ((listStarted_completes g).symm.trans one) (by decide)

end Sys2Proof
end

