-- ==== Sys2Proof/Proofs/Visits.lean ====
section
/-! A command of a device that is awake, writes of single bits, and folds that visit each of their places once: what a visit of one place finds and
leaves is what the whole fold does there. -/

namespace Sys2Proof.Machine

theorem unlessInert_awake {s : State} (awake : s.inert = false) (k : State → State) : unlessInert s k = .next (k s) := by
  simp only [unlessInert, awake, Bool.false_eq_true, if_false]

/-! ### A bit of a word -/

theorem bitOf_setBit_same {n i : Nat} (w : BitVec n) (h : i < n) (b : Bool) : bitOf (setBit w i b) i = b := by
  cases b with
  | true => simp only [bitOf, setBit, if_true, BitVec.getLsbD_or, BitVec.getLsbD_ofNat, h, decide_true, Nat.testBit_two_pow_self, Bool.true_and, Bool.or_true]
  | false => simp only [bitOf, setBit, Bool.false_eq_true, if_false, BitVec.getLsbD_and, BitVec.getLsbD_not, BitVec.getLsbD_ofNat, h, decide_true,
      Nat.testBit_two_pow_self, Bool.true_and, Bool.not_true, Bool.and_false]

theorem bitOf_setBit_other {n i j : Nat} (w : BitVec n) (h : j ≠ i) (b : Bool) : bitOf (setBit w i b) j = bitOf w j := by
  have clear : (BitVec.ofNat n (2 ^ i)).getLsbD j = false := by
    rw [BitVec.getLsbD_ofNat, Nat.testBit_two_pow_of_ne h.symm, Bool.and_false]
  cases b with
  | true => simp only [bitOf, setBit, if_true, BitVec.getLsbD_or, clear, Bool.or_false]
  | false =>
    by_cases within : j < n
    · simp only [bitOf, setBit, Bool.false_eq_true, if_false, BitVec.getLsbD_and, BitVec.getLsbD_not, clear, within, decide_true, Bool.not_false, Bool.and_true]
    · simp only [bitOf, BitVec.getLsbD_of_ge _ _ (Nat.not_lt.1 within)]

theorem bitsOf_allOnes (n : Nat) : bitsOf (BitVec.allOnes n) = List.range n := by
  refine List.filter_eq_self.2 fun i hi => ?_
  simpa using hi

/-! ### Folds -/

/-- A fold over places, none of them twice: before place i is visited P holds, whatever the other visits do, and from then on Q. -/
theorem foldl_visits {σ ι : Type} {F : σ → ι → σ} {P Q : σ → Prop} {i : ι} (before : ∀ s k, k ≠ i → P s → P (F s k)) (visit : ∀ s, P s → Q (F s i))
    (after : ∀ s k, k ≠ i → Q s → Q (F s k)) {l : List ι} (once : l.Nodup) (mem : i ∈ l) {s : σ} (start : P s) : Q (l.foldl F s) := by
  induction l generalizing s with
  | nil => cases mem
  | cons k l ih =>
    obtain ⟨hk, once⟩ := List.nodup_cons.1 once
    rw [List.foldl_cons]
    by_cases here : k = i
    · subst here
      exact List.foldlRecOn (motive := Q) _ _ (visit s start) fun t ht j hj => after t j (fun e => hk (e ▸ hj)) ht
    · exact ih once ((List.mem_cons.1 mem).resolve_left (Ne.symm here)) (before s k here start)

end Sys2Proof.Machine
end

