-- ==== Sys2Proof/Proofs/FrondFailures.lean ====
section
/-! How a frond comes to be declared failed, or its lane fenced (R147, R149, R150, R421): what a declaration reads stands as it did before the detection. -/

namespace Sys2Proof.Machine

variable {s t u : State} {f : Nat} {now : W64} {live : Bool}

/-! ### What a declaration reads -/

/-- The mapping of the rows, the line scheduler, and whether frond f is declared failed already. -/
def State.faultView (s : State) (f : Nat) : Tbl DieRow × Lsch × Bool := (s.rows, s.lsch, (s.frond f).failed)

theorem State.faultView_eq_iff : t.faultView f = s.faultView f ↔ t.rows = s.rows ∧ t.lsch = s.lsch ∧ (t.frond f).failed = (s.frond f).failed := by
  simp only [State.faultView, Prod.mk.injEq]

@[simp] theorem State.at_frond (f : Nat) : (s.at_ now).frond f = s.frond f := by simp only [State.frond, State.at_fronds]

@[simp] theorem State.faultView_at : (s.at_ now).faultView f = s.faultView f := by
  rw [State.faultView_eq_iff, State.at_rows, State.at_lsch, State.at_frond]
  exact ⟨rfl, rfl, rfl⟩

@[simp] theorem State.uncounted_ladleFault (k : Nat) : (s.ladleFault k).uncounted = s.uncounted := by
  unfold State.ladleFault
  split <;> rfl

/-- Counting and the ladle trigger change nothing that a declaration reads. -/
theorem State.faultView_of_uncounted (h : u.uncounted = s.uncounted) (f : Nat) : u.faultView f = s.faultView f :=
  congrArg (fun t => t.faultView f) h

@[simp] theorem State.faultView_ladleFault (k : Nat) : (s.ladleFault k).faultView f = s.faultView f :=
  State.faultView_of_uncounted (State.uncounted_ladleFault k) f

theorem State.faultView_setFrond {x : Frond} (h : x.failed = (s.frond f).failed) : (s.setFrond f x).faultView f = s.faultView f := by
  rw [State.faultView_eq_iff, State.setFrond_frond]
  exact ⟨rfl, rfl, h⟩

@[simp] theorem State.faultView_modTask (g : Task → Task) : (s.modTask f live g).faultView f = s.faultView f := by
  cases live <;> exact State.faultView_setFrond rfl

theorem Frond.recordParity_failed (x : Frond) (p : ParityInfo) (n : Nat) : (x.recordParity p n).failed = x.failed := by
  unfold Frond.recordParity
  split <;> rfl

theorem State.lost_of_rows (h : u.rows = s.rows) (f : Nat) : u.lost f = s.lost f := by
  have same : u.lost f = ({ s with rows := u.rows } : State).lost f := rfl
  rw [same, h]

theorem State.column_of_rows (h : u.rows = s.rows) (f : Nat) : u.column f = s.column f := by
  simp only [State.column, State.row, h]

/-- The share that issues is found from the frond and the mapping of its row. -/
theorem State.activeShare_congr (frond : u.frond f = s.frond f) (rows : u.rows = s.rows) : u.activeShare f = s.activeShare f := by
  simp only [State.activeShare, State.lost_of_rows rows, frond]

/-! ### The declaration (R421) -/

/-- From s to t, frond f is declared failed for a cause. -/
def State.Declares (s t : State) (f : Nat) (cause : BitVec 4) : Prop :=
  (t.frond f).failed = true ∧ ∃ since, t.lsch.declared = s.lsch.declared ++ [(f, s.column f, cause, since)]

/-- A frond that a column serves and that has not failed yet is declared failed. -/
theorem State.declareFailed_declares (view : u.faultView f = s.faultView f) (whole : (s.frond f).failed = false) (served : s.lost f = false)
    (cause : BitVec 4) (since : W64) : s.Declares (u.declareFailed f cause since) f cause := by
  obtain ⟨rows, lsch, failed⟩ := State.faultView_eq_iff.1 view
  have column := State.column_of_rows rows f
  simp only [State.declareFailed, failed, whole, State.lost_of_rows rows, served, Bool.or_self, Bool.false_eq_true, if_false]
  have kept := State.uncounted_ladleFault (s := { u.setFrond f { u.frond f with failed := true } with
    lsch := { u.lsch with declared := u.lsch.declared ++ [(f, u.column f, cause, since)] } }) 2
  refine ⟨(congrArg Frond.failed (State.frond_of_uncounted kept f)).trans (congrArg Frond.failed (State.setFrond_frond ..)), since, ?_⟩
  refine (congrArg (fun t => t.lsch.declared) kept).trans ?_
  show u.lsch.declared ++ _ = _
  rw [lsch, column]

/-! ### The fence of a lane (R150) -/

/-- The stop of a repair's contexts changes tasks alone. -/
theorem State.stopCtx_keeps (s : State) (c f : Nat) : (s.stopCtx c).lsch = s.lsch ∧ ((s.stopCtx c).frond f).rowOnly = (s.frond f).rowOnly := by
  unfold State.stopCtx
  refine List.foldlRecOn (motive := fun t : State => t.lsch = s.lsch ∧ (t.frond f).rowOnly = (s.frond f).rowOnly) _ _ ⟨rfl, rfl⟩
    fun t ⟨lsch, row⟩ g _ => ⟨lsch, ?_⟩
  by_cases here : f = g
  · subst here
    rw [State.setFrond_frond]
    exact row
  · rwa [State.setFrond_frond_other (h := here)]

/-- The stop of several contexts, likewise. -/
theorem State.stopCtxs_keep (s : State) (l : List Nat) (f : Nat) : (l.foldl (fun s c => s.stopCtx c) s).lsch = s.lsch
    ∧ ((l.foldl (fun s c => s.stopCtx c) s).frond f).rowOnly = (s.frond f).rowOnly :=
  List.foldlRecOn (motive := fun t : State => t.lsch = s.lsch ∧ (t.frond f).rowOnly = (s.frond f).rowOnly) _ _ ⟨rfl, rfl⟩
    fun t ⟨lsch, row⟩ c _ => (t.stopCtx_keeps c f).imp (·.trans lsch) (·.trans row)

/-- A repair that begins is stopping, and holds the lanes that it is to fence, behind those of a repair in progress (R440). -/
theorem State.beginRepair_stops (s : State) {r : Repair} (stops : r.phase = .stopping) (f : Nat) :
    (∃ q, (s.beginRepair r).lsch.repair = some q ∧ q.phase = .stopping ∧ ∀ g ∈ r.fenced, g ∈ q.fenced)
      ∧ ((s.beginRepair r).frond f).rowOnly = (s.frond f).rowOnly := by
  unfold State.beginRepair
  cases s.lsch.repair with
  | none =>
    obtain ⟨lsch, row⟩ := State.stopCtxs_keep { s with lsch := { s.lsch with repair := some r } } r.ctxs f
    exact ⟨⟨r, congrArg Lsch.repair lsch, stops, fun g hg => hg⟩, row⟩
  | some q =>
    obtain ⟨lsch, row⟩ := State.stopCtxs_keep _ _ f
    exact ⟨⟨_, congrArg Lsch.repair lsch, rfl, fun g hg => List.mem_append_right _ hg⟩, row⟩

/-- A fenced frond is on its row path alone, and a repair that fences it stops its tasks. -/
theorem State.fenceLane_fences (s : State) (f : Nat) (since : W64) : ((s.fenceLane f since).frond f).rowOnly = true
    ∧ ∃ r, (s.fenceLane f since).lsch.repair = some r ∧ r.phase = .stopping ∧ f ∈ r.fenced := by
  unfold State.fenceLane
  dsimp only
  obtain ⟨⟨q, repair, phase, fenced⟩, row⟩ := State.beginRepair_stops ((s.setFrond f { s.frond f with rowOnly := true }).ladleFault 1)
    (r := { phase := .stopping, start := since, failed := [], fenced := [f], moved := [],
            ctxs := (((s.frond f).live.map Task.ctx).toList ++ ((s.frond f).simmer.map Task.ctx).toList).foldl (fun l c => insertNat c l) [], waiting := [] }) rfl f
  refine ⟨row.trans ?_, q, repair, phase, fenced f (List.mem_singleton_self f)⟩
  rw [State.ladleFault_frond, State.setFrond_frond]

/-! ### The third detection (R149) -/

/-- A third detection in a step fences the lane or declares the frond failed, on a state in which what a declaration reads is as it was. -/
theorem parityError_third {f : FrondId} {p : ParityInfo} (awake : s.inert = false) (runs : s.frondRuns f.val = true) (own : p.remoteFor = none)
    (share : s.activeShare f.val = some live) (uncommitted : (s.taskOf f.val live).committed = false) (late : 2 ≤ (s.taskOf f.val live).step.detections.length) :
    ∃ (w : State) (since : W64), w.faultView f.val = s.faultView f.val ∧ exec (.parityError f p now) s = .next
      (if laneFault ((s.taskOf f.val live).step.detections ++ [p]) then w.fenceLane f.val since else w.declareFailed f.val 0 since) := by
  have frond : ((s.at_ now).ladleFault 0).frond f.val = s.frond f.val := by rw [State.ladleFault_frond, State.at_frond]
  have rows : ((s.at_ now).ladleFault 0).rows = s.rows := (State.faultView_eq_iff (f := f.val).1 (by simp)).1
  have runsNow : (s.at_ now).frondRuns f.val = true := by
    rw [← runs]
    simp only [State.frondRuns, State.at_frond, State.lost_of_rows (State.at_rows ..)]
  have task : ((s.at_ now).ladleFault 0).taskOf f.val live = s.taskOf f.val live := State.taskOf_of_shares (by rw [frond])
  have count : ¬ ((s.taskOf f.val live).step.detections ++ [p]).length < 3 := by simpa using late
  generalize hx : exec (.parityError f p now) s = out
  replace hx : execParityError f p now s = out := hx
  simp only [execParityError, unlessInert_awake awake, own, runsNow, State.activeShare_congr frond rows, share, task, uncommitted, count,
    Option.map_none, Option.getD_none, Bool.not_true, Bool.false_eq_true, if_false] at hx
  refine ⟨_, _, ?_, hx.symm⟩
  rw [State.faultView_modTask, State.faultView_setFrond (Frond.recordParity_failed ..), State.faultView_ladleFault, State.faultView_at]

theorem State.frondRuns_whole (runs : s.frondRuns f = true) : (s.frond f).failed = false ∧ s.lost f = false := by
  simp only [State.frondRuns, Bool.and_eq_true, Bool.not_eq_true'] at runs
  obtain ⟨⟨served, whole⟩, -⟩ := runs
  exact ⟨whole, served⟩

end Sys2Proof.Machine

namespace Sys2Proof
open Machine

/-- Settles O45: each cause reaches the one declaration, which reads the frond and its row as they stood. -/
theorem frondsDeclaredFailed : Obligations.FrondsDeclaredFailed := by
  intro s f now awake fails
  refine ⟨fun p live runs own share uncommitted late => ?_, fun unit on whole served => ?_, fun holds whole served => ?_, fun addr => ?_⟩
  · obtain ⟨w, since, view, ends⟩ := parityError_third (now := now) awake runs own share uncommitted late
    obtain ⟨whole, served⟩ := State.frondRuns_whole runs
    refine ⟨fun fails => ?_, fun fences => ?_⟩
    · exact ⟨_, ends.trans (by rw [fails]; rfl), State.declareFailed_declares view whole served 0 since⟩
    · exact ⟨_, ends.trans (by rw [fences]; rfl), State.fenceLane_fences w f.val since⟩
  · refine ⟨_, ?_, State.declareFailed_declares (State.faultView_at (now := now)) whole served 1 now⟩
    show execPrivateParityError f unit now s = _
    simp only [execPrivateParityError, unlessInert_awake awake, on, if_true]
  · refine ⟨_, ?_, State.declareFailed_declares (State.faultView_at (now := now)) whole served 2 now⟩
    show execHeartbeatTimeout f now s = _
    rw [execHeartbeatTimeout, unlessInert_awake awake]
    exact congrArg Host.Outcome.next (if_pos (by simpa [Option.isSome_iff_ne_none] using holds))
  · show execCacheLineParity f addr s = _
    simp only [execCacheLineParity, unlessInert_awake awake]

end Sys2Proof
end

