-- ==== Sys2Proof/Proofs/SegmentPower.lean ====
section
/-! Scratchpad segments (R131, R132, R144, R489): each segment selected by a write is gated or enabled by itself, as it stood before the write. -/

namespace Sys2Proof.Machine

variable {s t : State} {f n k : Nat} {en : Bool}

/-! ### Pins that a gated segment drops -/

/-- A pin with a row in a segment. -/
def Pin.inSeg (p : Pin) (n : Nat) : Bool := p.used && inSegment n p.base p.rows

/-- The pins without pin i, where it has a row in segment k. -/
def dropPin (k : Nat) (t : Tbl Pin) (i : Nat) : Tbl Pin := if (t.get i {}).inSeg k then t.set i {} else t

theorem Frond.dropPins_eq (x : Frond) (k : Nat) : x.dropPins k = { x with pins := (List.range 8).foldl (dropPin k) x.pins } := rfl

theorem Frond.dropPins_pins (x : Frond) (k : Nat) : (x.dropPins k).pins = (List.range 8).foldl (dropPin k) x.pins := by
  rw [Frond.dropPins_eq]

theorem dropPin_other {t : Tbl Pin} {i j : Nat} (h : i ≠ j) : (dropPin k t j).get i {} = t.get i {} := by
  unfold dropPin
  split
  · exact Tbl.get_set_other _ h ..
  · rfl

theorem dropPin_same {t : Tbl Pin} {i : Nat} : (dropPin k t i).get i {} = if (t.get i {}).inSeg k then {} else t.get i {} := by
  unfold dropPin
  split
  · exact Tbl.get_set_same ..
  · rfl

/-- Of each pin alone, a gated segment asks whether it has a row there. -/
theorem Frond.dropPins_get (x : Frond) {i : Nat} (h : i < 8) :
    (x.dropPins k).pins.get i {} = if (x.pins.get i {}).inSeg k then {} else x.pins.get i {} := by
  rw [Frond.dropPins_pins]
  exact foldl_visits (F := dropPin k) (P := fun t => t.get i {} = x.pins.get i {})
    (Q := fun t => t.get i {} = if (x.pins.get i {}).inSeg k then {} else x.pins.get i {})
    (fun t j hj ht => (dropPin_other hj.symm).trans ht) (fun t ht => by rw [dropPin_same, ht]) (fun t j hj ht => (dropPin_other hj.symm).trans ht)
    (l := List.range 8) List.nodup_range (List.mem_range.2 h) (s := x.pins) rfl

/-! ### One segment written -/

/-- The frond once a write of segment k is taken. -/
def Frond.segTurned (x : Frond) (k : Nat) (en : Bool) : Frond :=
  let p := x.segs.get k .on
  let y := { x with segEn := setBit x.segEn k en, segs := x.segs.set k (if en then p.enable else p.disable) }
  if en then y else y.dropPins k

theorem Frond.segTurned_on (x : Frond) (k : Nat) :
    x.segTurned k true = { x with segEn := setBit x.segEn k true, segs := x.segs.set k (x.segs.get k .on).enable } := rfl

theorem Frond.segTurned_off (x : Frond) (k : Nat) :
    x.segTurned k false = { x with segEn := setBit x.segEn k false, segs := x.segs.set k (x.segs.get k .on).disable }.dropPins k := rfl

theorem Frond.segTurned_keeps (x : Frond) (k : Nat) (en : Bool) : (x.segTurned k en).segEn = setBit x.segEn k en
    ∧ (x.segTurned k en).segs = x.segs.set k (if en then (x.segs.get k .on).enable else (x.segs.get k .on).disable)
    ∧ (x.segTurned k en).segRefused = x.segRefused ∧ (x.segTurned k en).areas = x.areas := by
  cases en with
  | true =>
    rw [Frond.segTurned_on]
    exact ⟨rfl, rfl, rfl, rfl⟩
  | false =>
    rw [Frond.segTurned_off, Frond.dropPins_eq]
    exact ⟨rfl, rfl, rfl, rfl⟩

/-- A write of a segment is refused, which the frond says (R131), or taken. -/
theorem State.segWrite_cases {p : State → Prop} (s : State) (f k : Nat) (en : Bool)
    (refused : en = false → s.segLive f k = true → p (s.setFrond f { s.frond f with segRefused := true }))
    (turned : en = true ∨ s.segLive f k = false → p (s.setFrond f ((s.frond f).segTurned k en))) : p (s.segWrite f k en) := by
  unfold State.segWrite
  dsimp only
  split
  · next h =>
    obtain ⟨gate, held⟩ : en = false ∧ s.segLive f k = true := by simpa using h
    exact refused gate held
  · next h =>
    refine turned ?_
    cases en with
    | true => exact Or.inl rfl
    | false => exact Or.inr (by simpa using h)

/-- The bit and the power of segment n. -/
def Frond.segAt (x : Frond) (n : Nat) : Bool × OnOff := (bitOf x.segEn n, x.segs.get n .on)

theorem State.segWrite_other (h : n ≠ k) : ((s.segWrite f k en).frond f).segAt n = (s.frond f).segAt n := by
  refine State.segWrite_cases (p := fun t => (t.frond f).segAt n = (s.frond f).segAt n) s f k en (fun _ _ => ?_) (fun _ => ?_)
  · rw [State.setFrond_frond]
    rfl
  · obtain ⟨bits, segs, -, -⟩ := (s.frond f).segTurned_keeps k en
    rw [State.setFrond_frond, Frond.segAt, bits, segs, bitOf_setBit_other _ h, Tbl.get_set_other _ h]
    rfl

/-- SEG_REFUSED stays set. -/
theorem State.segWrite_keepsRefused (h : (s.frond f).segRefused = true) : ((s.segWrite f k en).frond f).segRefused = true := by
  refine State.segWrite_cases (p := fun t => (t.frond f).segRefused = true) s f k en (fun _ _ => ?_) (fun _ => ?_)
  · rw [State.setFrond_frond]
  · obtain ⟨-, -, refused, -⟩ := (s.frond f).segTurned_keeps k en
    rw [State.setFrond_frond, refused, h]

/-- Frond f holds a row of a live stream in segment n: a pin, or part of a working area. -/
theorem State.segLive_iff : s.segLive f n = true ↔
    (∃ i < 8, ((s.frond f).pins.get i {}).inSeg n = true ∧ s.pinLive f ((s.frond f).pins.get i {}) = true)
      ∨ (s.frond f).areas.any (fun a => inSegment n a.base a.rows) = true := by
  simp only [State.segLive, Pin.inSeg, Bool.or_eq_true, List.any_eq_true, List.mem_range, Bool.and_eq_true]

/-- A write of a segment that is taken leaves a pin, or drops it from the segment that it gates. -/
theorem Frond.segTurned_pin (x : Frond) {i : Nat} (h : i < 8) : (x.segTurned k en).pins.get i {} = x.pins.get i {}
    ∨ en = false ∧ (x.pins.get i {}).inSeg k = true ∧ (x.segTurned k en).pins.get i {} = {} := by
  cases en with
  | true => exact Or.inl rfl
  | false =>
    rw [Frond.segTurned_off, Frond.dropPins_get _ h]
    by_cases lies : (x.pins.get i {}).inSeg k = true
    · exact Or.inr ⟨rfl, lies, if_pos lies⟩
    · exact Or.inl (if_neg lies)

/-- A pin that goes with a segment is no live stream's, so that the other segments hold what they held. -/
theorem State.segTurned_segLive (free : en = true ∨ s.segLive f k = false) :
    (s.setFrond f ((s.frond f).segTurned k en)).segLive f n = s.segLive f n := by
  obtain ⟨-, -, -, areas⟩ := (s.frond f).segTurned_keeps k en
  have pin (i : Nat) (hi : i < 8) : (((s.frond f).segTurned k en).pins.get i {}).inSeg n = true
        ∧ s.pinLive f (((s.frond f).segTurned k en).pins.get i {}) = true
      ↔ ((s.frond f).pins.get i {}).inSeg n = true ∧ s.pinLive f ((s.frond f).pins.get i {}) = true := by
    rcases (s.frond f).segTurned_pin (k := k) (en := en) hi with same | ⟨gate, lies, gone⟩
    · rw [same]
    · have idle : s.segLive f k = false := free.resolve_left (by simp [gate])
      refine iff_of_false (fun ⟨inside, _⟩ => ?_) (fun ⟨_, used⟩ => ?_)
      · rw [gone] at inside
        exact Bool.false_ne_true inside
      · exact Bool.false_ne_true (idle.symm.trans (State.segLive_iff.2 (Or.inl ⟨i, hi, lies, used⟩)))
  rw [Bool.eq_iff_iff, State.segLive_iff, State.segLive_iff, State.setFrond_frond, areas]
  exact or_congr_left (exists_congr fun i => and_congr_right (pin i))

theorem State.segWrite_segLive : (s.segWrite f k en).segLive f n = s.segLive f n := by
  refine State.segWrite_cases (p := fun t => t.segLive f n = s.segLive f n) s f k en (fun _ _ => ?_) State.segTurned_segLive
  simp only [State.segLive, State.setFrond_frond]
  rfl

/-! ### A write of the segments -/

/-- What a write of the segments does to segment n of frond f, which becomes y: selected or not, and enabled or gated. -/
def State.SegWritten (s : State) (f n : Nat) (sel en : Bool) (y : Frond) : Prop :=
  (sel = false → bitOf y.segEn n = bitOf (s.frond f).segEn n ∧ y.segs.get n .on = (s.frond f).segs.get n .on)
  ∧ (sel = true → en = true → bitOf y.segEn n = true ∧ y.segs.get n .on = ((s.frond f).segs.get n .on).enable)
  ∧ (sel = true → en = false → s.segLive f n = true →
      y.segRefused = true ∧ bitOf y.segEn n = bitOf (s.frond f).segEn n ∧ y.segs.get n .on = (s.frond f).segs.get n .on)
  ∧ (sel = true → en = false → s.segLive f n = false → bitOf y.segEn n = false ∧ y.segs.get n .on = ((s.frond f).segs.get n .on).disable)

/-- It speaks of segment n and of SEG_REFUSED, once that is set. -/
theorem State.SegWritten.congr {sel : Bool} {y z : Frond} (h : s.SegWritten f n sel en y) (here : z.segAt n = y.segAt n)
    (refused : y.segRefused = true → z.segRefused = true) : s.SegWritten f n sel en z := by
  obtain ⟨bit, seg⟩ := Prod.mk.inj here
  obtain ⟨unselected, enabled, held, gated⟩ := h
  rw [State.SegWritten, bit, seg]
  exact ⟨unselected, enabled, fun hs he hl => (held hs he hl).imp_left refused, gated⟩

/-- Segment n stands in t as it does in s. -/
def State.SegSame (s t : State) (f n : Nat) : Prop := (t.frond f).segAt n = (s.frond f).segAt n ∧ t.segLive f n = s.segLive f n

theorem State.SegSame.unselected (h : s.SegSame t f n) : s.SegWritten f n false en (t.frond f) :=
  ⟨fun _ => Prod.mk.inj h.1, nofun, nofun, nofun⟩

theorem State.SegSame.selected (h : s.SegSame t f n) (hn : n < 16) : s.SegWritten f n true en ((t.segWrite f n en).frond f) := by
  obtain ⟨here, live⟩ := h
  obtain ⟨bit, seg⟩ := Prod.mk.inj here
  refine State.segWrite_cases (p := fun u => s.SegWritten f n true en (u.frond f)) t f n en (fun gate held => ?_) (fun free => ?_)
  · rw [State.setFrond_frond, gate]
    exact ⟨nofun, nofun, fun _ _ _ => ⟨rfl, bit, seg⟩, fun _ _ idle => nomatch held.symm.trans (live.trans idle)⟩
  · obtain ⟨bits, segs, -, -⟩ := (t.frond f).segTurned_keeps n en
    have new : bitOf ((t.frond f).segTurned n en).segEn n = en := by rw [bits, bitOf_setBit_same _ hn]
    have power : ((t.frond f).segTurned n en).segs.get n .on = if en then ((s.frond f).segs.get n .on).enable else ((s.frond f).segs.get n .on).disable := by
      rw [segs, Tbl.get_set_same, seg]
    rw [State.setFrond_frond]
    refine ⟨nofun, fun _ on => ⟨new.trans on, ?_⟩, fun _ gate held => ?_, fun _ gate _ => ⟨new.trans gate, ?_⟩⟩
    · rw [power, if_pos on]
    · rw [live, held, gate] at free
      exact absurd free (by decide)
    · rw [power, gate]
      rfl

/-- A write of TSP_SEG writes each segment that its mask selects, as it stood before the write (R131, R132). -/
theorem State.tspSegWrite_written (s : State) (f : Nat) (value : W32) (hn : n < 16) :
    s.SegWritten f n (bitOf value (16 + n)) (bitOf value n) ((s.tspSegWrite f value).frond f) := by
  unfold State.tspSegWrite
  refine foldl_visits (P := fun t => s.SegSame t f n) (Q := fun t => s.SegWritten f n (bitOf value (16 + n)) (bitOf value n) (t.frond f))
    (fun t k hk ht => ?_) (fun t ht => ?_) (fun t k hk ht => ?_) (l := List.range 16) List.nodup_range (List.mem_range.2 hn) (s := s) ⟨rfl, rfl⟩
  · split
    · exact ⟨(State.segWrite_other hk.symm).trans ht.1, State.segWrite_segLive.trans ht.2⟩
    · exact ht
  · split
    · next sel => exact sel ▸ ht.selected hn
    · next sel => exact (Bool.not_eq_true _ ▸ sel) ▸ ht.unselected
  · split
    · exact ht.congr (State.segWrite_other hk.symm) State.segWrite_keepsRefused
    · exact ht

/-! ### The end of a segment's power change, and CACHE_STEPS -/

/-- A frond whose segment n has gone up, its rows being forgotten already. -/
def Frond.poweredSeg (x : Frond) (n : Nat) : Frond := { x.dropPins n with segs := (x.dropPins n).segs.set n .on }

/-- Rows that are forgotten are empty and not poisoned. -/
theorem Frond.poweredSeg_empty (x : Frond) (n : Nat) {l : List Nat} {r : Nat} (h : r ∈ l) :
    ((x.forgetRows l).poweredSeg n).full.contains r = false ∧ ((x.forgetRows l).poweredSeg n).poisonRows.contains r = false := by
  have cleared (m : List Nat) : (m.filter (fun r => !l.contains r)).contains r = false := by
    simp [List.mem_filter, h]
  exact ⟨cleared x.full, cleared x.poisonRows⟩

/-- A segment that has gone up is on, and its rows hold nothing (R132). -/
theorem tspSegPowerupDone_on {f : FrondId} {seg : BitVec 4} (awake : s.inert = false) (up : (s.frond f.val).segs.get seg.toNat .on = .goingUp) :
    Ends (.tspSegPowerupDone f seg) s (fun t => (t.frond f.val).segs.get seg.toNat .on = .on
      ∧ ∀ r, 512 * seg.toNat ≤ r → r < 512 * seg.toNat + 512 → (t.frond f.val).full.contains r = false ∧ (t.frond f.val).poisonRows.contains r = false) := by
  have runs : execTspSegPowerupDone f seg s = .next (s.setFrond f.val (((s.frond f.val).forgetRows
      ((List.range 512).map (fun i => 512 * seg.toNat + i))).poweredSeg seg.toNat)) := by
    simp only [execTspSegPowerupDone, unlessInert_awake awake, up, Frond.poweredSeg]
  refine ⟨_, runs, ?_⟩
  dsimp only
  rw [State.setFrond_frond]
  refine ⟨Tbl.get_set_same .., fun r low high => ?_⟩
  have listed : r ∈ (List.range 512).map (fun i => 512 * seg.toNat + i) :=
    List.mem_map.2 ⟨r - 512 * seg.toNat, List.mem_range.2 (by omega), by omega⟩
  exact Frond.poweredSeg_empty (s.frond f.val) _ listed

/-- TSP_CFG takes a number of steps up to 4 whose segments are free, and refuses every other (R144). -/
theorem State.tspCfgWrite_eq (s : State) (f : Nat) (value : W32) :
    s.tspCfgWrite f value = s.setFrond f (if 4 < fieldOf value 2 0 ∨ ∃ i < fieldOf value 2 0, (s.frond f).segTaken (15 - i) = true
      then { s.frond f with cacheReject := true }
      else { s.frond f with cacheSteps := BitVec.ofNat 3 (fieldOf value 2 0), cachePending := true }) := by
  have asks : (decide (4 < fieldOf value 2 0) || (List.range (fieldOf value 2 0)).any (fun i => (s.frond f).segTaken (15 - i))) = true
      ↔ 4 < fieldOf value 2 0 ∨ ∃ i < fieldOf value 2 0, (s.frond f).segTaken (15 - i) = true := by
    simp only [Bool.or_eq_true, decide_eq_true_eq, List.any_eq_true, List.mem_range]
  simp only [State.tspCfgWrite, asks, apply_ite (s.setFrond f)]

theorem exec_tspSegGate {f : FrondId} {value : W32} (awake : s.inert = false) : exec (.tspSegGate f value) s = .next (s.tspSegWrite f.val value) :=
  unlessInert_awake awake fun s => s.tspSegWrite f.val value

theorem exec_tspSegEnable {f : FrondId} {value : W32} (awake : s.inert = false) : exec (.tspSegEnable f value) s = .next (s.tspSegWrite f.val value) :=
  unlessInert_awake awake fun s => s.tspSegWrite f.val value

theorem exec_cacheStepsWrite {f : FrondId} {value : W32} (awake : s.inert = false) : exec (.cacheStepsWrite f value) s = .next (s.tspCfgWrite f.val value) :=
  unlessInert_awake awake fun s => s.tspCfgWrite f.val value

/-- The shut-down of a segment ends with the enable that it holds, if any (R132). -/
theorem exec_tspSegShutdownDone {f : FrondId} {seg : BitVec 4} (awake : s.inert = false) :
    ((s.frond f.val).segs.get seg.toNat .on = .goingDown →
      exec (.tspSegShutdownDone f seg) s = .next (s.setFrond f.val { s.frond f.val with segs := (s.frond f.val).segs.set seg.toNat .off }))
    ∧ ((s.frond f.val).segs.get seg.toNat .on = .goingDownHeld →
      exec (.tspSegShutdownDone f seg) s = .next (s.setFrond f.val { s.frond f.val with segs := (s.frond f.val).segs.set seg.toNat .goingUp })) := by
  show (_ → execTspSegShutdownDone f seg s = _) ∧ (_ → execTspSegShutdownDone f seg s = _)
  unfold execTspSegShutdownDone
  rw [unlessInert_awake awake]
  refine ⟨fun down => ?_, fun held => ?_⟩
  · simp only [down]
  · simp only [held]

theorem segmentPower : Claim.SegmentPower := by
  intro s f awake
  refine ⟨fun value n c hc => ?_, fun seg => ⟨(exec_tspSegShutdownDone awake).1, (exec_tspSegShutdownDone awake).2, tspSegPowerupDone_on awake⟩,
    fun value => ⟨fun few free => ?_, fun refuses => ?_⟩⟩
  · have runs : exec c s = .next (s.tspSegWrite f.val value) := by
      rcases hc with rfl | rfl
      · exact exec_tspSegGate awake
      · exact exec_tspSegEnable awake
    exact ⟨_, runs, s.tspSegWrite_written f.val value n.isLt⟩
  · rw [exec_cacheStepsWrite awake, State.tspCfgWrite_eq, if_neg]
    rintro (many | ⟨i, hi, taken⟩)
    · exact absurd few (Nat.not_le.2 many)
    · exact Bool.false_ne_true ((free i hi).symm.trans taken)
  · rw [exec_cacheStepsWrite awake, State.tspCfgWrite_eq, if_pos refuses]

end Sys2Proof.Machine
end

