-- ==== Sys2Proof/Proofs/FrondMaps.lean ====
section
/-! The frond-enable and frond-power maps (R485 to R487): a word writes each of its fronds by itself, as it stood before the write. -/

namespace Sys2Proof.Machine

variable {s t : State} {f g : Nat} {b : Bool}

/-! ### The visits of a word -/

/-- A word of a map visits a frond that it holds once, and the others of the word beside it. -/
theorem State.mapWrite_visits {write : State → Nat → Bool → State} {P Q : State → Prop} {f : Nat} {word : Nat} {value : W32} (mine : f / 32 = word)
    (before : ∀ s g b, g ≠ f → P s → P (write s g b)) (visit : ∀ s, P s → Q (write s f (bitOf value (f % 32))))
    (after : ∀ s g b, g ≠ f → Q s → Q (write s g b)) (start : P s) : Q (s.mapWrite write word value (BitVec.allOnes 32)) := by
  have place : 32 * word + f % 32 = f := by omega
  have other (k : Nat) (h : k ≠ f % 32) : 32 * word + k ≠ f := by omega
  unfold State.mapWrite
  rw [bitsOf_allOnes]
  exact foldl_visits (P := P) (Q := Q) (fun s k hk => before s _ _ (other k hk)) (fun s hs => place.symm ▸ visit s hs)
    (fun s k hk => after s _ _ (other k hk)) List.nodup_range (List.mem_range.2 (Nat.mod_lt f (by decide))) start

/-- A word of a map does not visit the fronds of another word. -/
theorem State.mapWrite_passes {write : State → Nat → Bool → State} {P : State → Prop} {f : Nat} {word : Nat} {value : W32} (foreign : f / 32 ≠ word)
    (before : ∀ s g b, g ≠ f → P s → P (write s g b)) (start : P s) : P (s.mapWrite write word value (BitVec.allOnes 32)) := by
  unfold State.mapWrite
  rw [bitsOf_allOnes]
  refine List.foldlRecOn (motive := P) _ _ start fun t ht k hk => before t _ _ ?_ ht
  have := List.mem_range.1 hk
  omega

/-! ### The frond-enable map (R486) -/

/-- Why a bit of the frond-enable map is not written. -/
def State.enableRefused (s : State) (f : Nat) (b : Bool) : Prop := b = true ∧ s.lost f = true ∨ b = false ∧ s.carriesLive f = true

theorem State.enableBit_eq (s : State) (f : Nat) (b : Bool) : (s.enableRefused f b → s.enableBit f b = { s with mapRefused := true })
    ∧ (¬ s.enableRefused f b → s.enableBit f b = { s with frondEn := setBit s.frondEn f b }) := by
  unfold State.enableRefused State.enableBit
  refine ⟨fun h => if_pos ?_, fun h => if_neg ?_⟩
  · rcases h with ⟨rfl, lost⟩ | ⟨rfl, live⟩
    · simp [lost]
    · simp [live]
  · cases b <;> simpa using h

/-- What the frond-enable map says of frond f, and what it asks before a write. -/
def State.enableView (s : State) (f : Nat) : Bool × Bool × Bool := (bitOf s.frondEn f, s.lost f, s.carriesLive f)

theorem State.enableBit_other (h : g ≠ f) : (s.enableBit g b).enableView f = s.enableView f := by
  by_cases refuses : s.enableRefused g b
  · rw [(s.enableBit_eq g b).1 refuses]
    rfl
  · rw [(s.enableBit_eq g b).2 refuses]
    show (bitOf (setBit s.frondEn g b) f, _, _) = _
    rw [bitOf_setBit_other _ h.symm]
    rfl

theorem State.enableBit_keepsRefused (h : s.mapRefused = true) : (s.enableBit g b).mapRefused = true := by
  by_cases refuses : s.enableRefused g b
  · rw [(s.enableBit_eq g b).1 refuses]
  · rwa [(s.enableBit_eq g b).2 refuses]

/-- What a write of the frond-enable map does to the bit of frond f. -/
def State.EnableWritten (s : State) (f : Nat) (b : Bool) (t : State) : Prop :=
  (s.enableRefused f b → t.mapRefused = true ∧ bitOf t.frondEn f = bitOf s.frondEn f) ∧ (¬ s.enableRefused f b → bitOf t.frondEn f = b)

theorem State.enableBit_enables (hf : f < 256) (same : t.enableView f = s.enableView f) : s.EnableWritten f b (t.enableBit f b) := by
  simp only [State.enableView, Prod.mk.injEq] at same
  obtain ⟨bit, lost, live⟩ := same
  have asks : t.enableRefused f b ↔ s.enableRefused f b := by
    rw [State.enableRefused, State.enableRefused, lost, live]
  refine ⟨fun h => ?_, fun h => ?_⟩
  · rw [(t.enableBit_eq f b).1 (asks.2 h)]
    exact ⟨rfl, bit⟩
  · rw [(t.enableBit_eq f b).2 (mt asks.1 h)]
    exact bitOf_setBit_same _ hf b

theorem State.EnableWritten.enableBit (h : s.EnableWritten f b t) {c : Bool} (other : g ≠ f) : s.EnableWritten f b (t.enableBit g c) := by
  have bit : bitOf (t.enableBit g c).frondEn f = bitOf t.frondEn f := congrArg Prod.fst (State.enableBit_other other)
  obtain ⟨refused, written⟩ := h
  exact ⟨fun r => (refused r).imp State.enableBit_keepsRefused bit.trans, fun w => bit.trans (written w)⟩

/-! ### The frond-power map (R487, R489) -/

/-- Why a bit of the frond-power map is not written. -/
def State.powerRefused (s : State) (f : Nat) (b : Bool) : Prop := b = false ∧ (s.frondEnBit f = true ∨ (s.frond f).holdsPin = true)

theorem State.powerBit_eq (s : State) (f : Nat) (b : Bool) : (s.powerRefused f b → s.powerBit f b = { s with mapRefused := true })
    ∧ (¬ s.powerRefused f b → s.powerBit f b = State.setFrond { s with frondPwr := setBit s.frondPwr f b } f
        { s.frond f with phase := if b then (s.frond f).phase.enable else (s.frond f).phase.disable }) := by
  unfold State.powerRefused State.powerBit
  refine ⟨fun h => if_pos ?_, fun h => if_neg ?_⟩
  · obtain ⟨rfl, holds⟩ := h
    simpa using holds
  · cases b with
    | true => simp
    | false => simpa using h

/-- What the frond-power map says of frond f, the frond, and what it asks of it before a write. -/
def State.powerView (s : State) (f : Nat) : Bool × Frond × Bool := (bitOf s.frondPwr f, s.frond f, s.frondEnBit f)

theorem State.powerBit_other (h : g ≠ f) : (s.powerBit g b).powerView f = s.powerView f := by
  by_cases refuses : s.powerRefused g b
  · rw [(s.powerBit_eq g b).1 refuses]
    rfl
  · rw [(s.powerBit_eq g b).2 refuses, State.powerView, State.setFrond_frond_other (h := h.symm)]
    show (bitOf (setBit s.frondPwr g b) f, _, _) = _
    rw [bitOf_setBit_other _ h.symm]
    rfl

theorem State.powerBit_keepsRefused (h : s.mapRefused = true) : (s.powerBit g b).mapRefused = true := by
  by_cases refuses : s.powerRefused g b
  · rw [(s.powerBit_eq g b).1 refuses]
  · rwa [(s.powerBit_eq g b).2 refuses, State.setFrond_mapRefused]

/-- What a write of the frond-power map does to the bit of frond f and to the frond. -/
def State.PowerWritten (s : State) (f : Nat) (b : Bool) (t : State) : Prop :=
  (s.powerRefused f b → t.mapRefused = true ∧ bitOf t.frondPwr f = bitOf s.frondPwr f ∧ t.frond f = s.frond f)
  ∧ (¬ s.powerRefused f b → bitOf t.frondPwr f = b
      ∧ (t.frond f).phase = if b then (s.frond f).phase.enable else (s.frond f).phase.disable)

theorem State.powerBit_powers (hf : f < 256) (same : t.powerView f = s.powerView f) : s.PowerWritten f b (t.powerBit f b) := by
  simp only [State.powerView, Prod.mk.injEq] at same
  obtain ⟨bit, frond, enabled⟩ := same
  have asks : t.powerRefused f b ↔ s.powerRefused f b := by
    rw [State.powerRefused, State.powerRefused, frond, enabled]
  refine ⟨fun h => ?_, fun h => ?_⟩
  · rw [(t.powerBit_eq f b).1 (asks.2 h)]
    exact ⟨rfl, bit, frond⟩
  · rw [(t.powerBit_eq f b).2 (mt asks.1 h), State.setFrond_frond, frond]
    exact ⟨bitOf_setBit_same _ hf b, rfl⟩

theorem State.PowerWritten.powerBit (h : s.PowerWritten f b t) {c : Bool} (other : g ≠ f) : s.PowerWritten f b (t.powerBit g c) := by
  have same : (t.powerBit g c).powerView f = t.powerView f := State.powerBit_other other
  simp only [State.powerView, Prod.mk.injEq] at same
  obtain ⟨bit, frond, -⟩ := same
  obtain ⟨refused, written⟩ := h
  exact ⟨fun r => (refused r).imp State.powerBit_keepsRefused (And.imp bit.trans frond.trans),
    fun w => (written w).imp bit.trans (congrArg Frond.phase frond).trans⟩

/-! ### The end of a power change -/

/-- The frond once a power-up of it has ended: a frond of new hardware that holds no task and nothing for one (R487). -/
def Frond.poweredUp (x : Frond) (f : Nat) : Frond :=
  { x.wiped f x.rowOnly with
    phase := .on, failed := x.failed, live := none, simmer := none, released := [], heldIncs := [], signals := [], spillFull := []
    regions := {}, regionOwners := [], areas := [], simRows := [] }

/-- A power change ends with the power-up that it holds, if any, and a power-up with a frond that holds nothing. -/
theorem exec_frondPowerDone {f : FrondId} (awake : s.inert = false) :
    ((s.frond f.val).phase = .goingDown → exec (.frondPowerDone f) s = .next (s.setFrond f.val { s.frond f.val with phase := .off }))
    ∧ ((s.frond f.val).phase = .goingDownHeld → exec (.frondPowerDone f) s = .next (s.setFrond f.val { s.frond f.val with phase := .goingUp }))
    ∧ ((s.frond f.val).phase = .goingUp → exec (.frondPowerDone f) s = .next (s.setFrond f.val ((s.frond f.val).poweredUp f.val))) := by
  show (_ → execFrondPowerDone f s = _) ∧ (_ → execFrondPowerDone f s = _) ∧ (_ → execFrondPowerDone f s = _)
  unfold execFrondPowerDone
  rw [unlessInert_awake awake]
  refine ⟨fun down => ?_, fun held => ?_, fun up => ?_⟩
  · simp only [down]
  · simp only [held]
  · simp only [up, Frond.poweredUp]

/-! ### The commands -/

theorem exec_frondEnableWrite {word : Fin 8} {value : W32} (awake : s.inert = false) :
    exec (.frondEnableWrite word value) s = .next (s.mapWrite State.enableBit word.val value (BitVec.allOnes 32)) :=
  unlessInert_awake awake fun s => s.mapWrite State.enableBit word.val value (BitVec.allOnes 32)

theorem exec_frondPowerWrite {word : Fin 8} {value : W32} (awake : s.inert = false) :
    exec (.frondPowerWrite word value) s = .next (s.mapWrite State.powerBit word.val value (BitVec.allOnes 32)) :=
  unlessInert_awake awake fun s => s.mapWrite State.powerBit word.val value (BitVec.allOnes 32)

/-- A write of a word of the frond-enable map leaves the fronds of the other words, and writes each of its own as it stood (R486). -/
theorem State.enableWord (s : State) (f word : Nat) (value : W32) (hf : f < 256) :
    let t := s.mapWrite State.enableBit word value (BitVec.allOnes 32)
    (f / 32 ≠ word → bitOf t.frondEn f = bitOf s.frondEn f) ∧ (f / 32 = word → s.EnableWritten f (bitOf value (f % 32)) t) := by
  refine ⟨fun foreign => ?_, fun mine => ?_⟩
  · exact congrArg Prod.fst (State.mapWrite_passes (P := fun t => t.enableView f = s.enableView f) foreign
      (fun _ _ _ other same => (State.enableBit_other other).trans same) rfl)
  · exact State.mapWrite_visits (P := fun t => t.enableView f = s.enableView f) mine
      (fun _ _ _ other same => (State.enableBit_other other).trans same) (fun _ => State.enableBit_enables hf)
      (fun _ _ _ other h => h.enableBit other) rfl

/-- A write of a word of the frond-power map leaves the fronds of the other words, and writes each of its own as it stood (R487). -/
theorem State.powerWord (s : State) (f word : Nat) (value : W32) (hf : f < 256) :
    let t := s.mapWrite State.powerBit word value (BitVec.allOnes 32)
    (f / 32 ≠ word → t.powerView f = s.powerView f) ∧ (f / 32 = word → s.PowerWritten f (bitOf value (f % 32)) t) := by
  refine ⟨fun foreign => ?_, fun mine => ?_⟩
  · exact State.mapWrite_passes (P := fun t => t.powerView f = s.powerView f) foreign
      (fun _ _ _ other same => (State.powerBit_other other).trans same) rfl
  · exact State.mapWrite_visits (P := fun t => t.powerView f = s.powerView f) mine
      (fun _ _ _ other same => (State.powerBit_other other).trans same) (fun _ => State.powerBit_powers hf)
      (fun _ _ _ other h => h.powerBit other) rfl

theorem State.not_powerRefused (h : b = true ∨ s.frondEnBit f = false ∧ (s.frond f).holdsPin = false) : ¬ s.powerRefused f b := by
  rintro ⟨gate, holds⟩
  obtain ⟨idle, free⟩ := h.resolve_left (by simp [gate])
  rcases holds with on | pinned
  · exact Bool.false_ne_true (idle.symm.trans on)
  · exact Bool.false_ne_true (free.symm.trans pinned)

theorem frondMaps : Claim.FrondMaps := by
  intro s awake
  refine ⟨fun word value => ⟨_, exec_frondEnableWrite awake, fun f => ?_⟩, fun word value => ⟨_, exec_frondPowerWrite awake, fun f => ?_⟩, fun f => ?_⟩
  · obtain ⟨foreign, mine⟩ := s.enableWord f.val word.val value f.isLt
    exact ⟨foreign, fun h => (mine h).1, fun h => (mine h).2⟩
  · obtain ⟨foreign, mine⟩ := s.powerWord f.val word.val value f.isLt
    refine ⟨fun h => ?_, fun h gate holds => (mine h).1 ⟨gate, holds⟩, fun h free => (mine h).2 (State.not_powerRefused free)⟩
    obtain ⟨bit, rest⟩ := Prod.mk.inj (foreign h)
    exact ⟨bit, congrArg Prod.fst rest⟩
  · obtain ⟨down, held, up⟩ := exec_frondPowerDone (f := f) awake
    refine ⟨down, held, fun h => ⟨_, up h, ?_⟩⟩
    dsimp only
    rw [State.setFrond_frond]
    exact ⟨rfl, rfl, rfl, rfl, rfl, rfl, rfl⟩

end Sys2Proof.Machine

namespace Sys2Proof
open Machine

/-- Settles O48: a write visits each segment, and each frond of a word, once, and finds it as it stood before the write. -/
theorem segmentsAndFrondMaps : Obligations.SegmentsAndFrondMaps := ⟨segmentPower, frondMaps⟩

end Sys2Proof
end

