-- ==== Sys2Proof/Proofs/RestingPump.lean ====
section
/-! What the pump of a frond at rest leaves (`State.Rests`): the contexts, and every frond but for the timers of its tasks. And the parts of a state that
`State.Rests` speaks of, so that a change of the others keeps it. -/

namespace Sys2Proof.Machine

variable {s t u : State} {f g : Nat} {live : Bool}

/-! ### All but the timers -/

/-- A task but for its timers. -/
def Task.untimed (t : Task) : Task := { t with semSince := none, tagSince := [] }

/-- A frond but for the timers of its tasks. -/
def Frond.untimed (x : Frond) : Frond := { x with live := x.live.map Task.untimed, simmer := x.simmer.map Task.untimed }

/-- A frond but for its tasks. -/
def Frond.untasked (x : Frond) : Frond := { x with live := none, simmer := none }

/-- From s to t the contexts stay, and the fronds but for the timers of their tasks. -/
def State.OnlyTimes (s t : State) : Prop := t.ctxs = s.ctxs ∧ ∀ g, (t.frond g).untimed = (s.frond g).untimed

theorem State.OnlyTimes.ctxs (h : s.OnlyTimes t) : t.ctxs = s.ctxs := h.left

theorem State.OnlyTimes.frond (h : s.OnlyTimes t) (g : Nat) : (t.frond g).untimed = (s.frond g).untimed := h.right g

theorem State.OnlyTimes.trans (h : s.OnlyTimes t) (k : t.OnlyTimes u) : s.OnlyTimes u :=
  ⟨k.ctxs.trans h.ctxs, fun g => (k.frond g).trans (h.frond g)⟩

theorem State.OnlyTimes.untasked (h : s.OnlyTimes t) (g : Nat) : (t.frond g).untasked = (s.frond g).untasked :=
  (congrArg Frond.untasked (h.frond g) :)

theorem State.taskOf_untimed (h : (t.frond f).untimed = (s.frond f).untimed) : (t.taskOf f live).untimed = (s.taskOf f live).untimed := by
  have getD (o : Option Task) : (o.getD {}).untimed = (o.map Task.untimed).getD {} := by cases o <;> rfl
  have share (u : State) : (u.taskOf f live).untimed = (if live then (u.frond f).untimed.live else (u.frond f).untimed.simmer).getD {} := by
    cases live <;> exact getD _
  rw [share, share, h]

/-! ### What a change of a task leaves -/

theorem State.modTask_frond_other (k : Task → Task) (h : g ≠ f) : (s.modTask f live k).frond g = s.frond g := by
  cases live <;> exact State.setFrond_frond_other _ _ _ _ h

theorem State.modTask_ctxs (k : Task → Task) : (s.modTask f live k).ctxs = s.ctxs := by
  cases live <;> rfl

theorem State.modTask_untasked (k : Task → Task) (g : Nat) : ((s.modTask f live k).frond g).untasked = (s.frond g).untasked := by
  by_cases here : g = f
  · subst here
    cases live
    · rw [State.modTask_simmer]; rfl
    · rw [State.modTask_live]; rfl
  · rw [State.modTask_frond_other k here]

theorem State.modTask_untimed {k : Task → Task} (hk : ∀ t, (k t).untimed = t.untimed) (g : Nat) :
    ((s.modTask f live k).frond g).untimed = (s.frond g).untimed := by
  have map (o : Option Task) : (o.map k).map Task.untimed = o.map Task.untimed := by
    cases o with
    | none => rfl
    | some t => exact congrArg some (hk t)
  by_cases here : g = f
  · subst here
    cases live
    · rw [State.modTask_simmer]; simp only [Frond.untimed, map]
    · rw [State.modTask_live]; simp only [Frond.untimed, map]
  · rw [State.modTask_frond_other k here]

/-! ### What `State.Rests` speaks of -/

/-- The part of a task that goes on by itself. -/
def Task.work (t : Task) : List Instr × Tbl (List QEntry) × Option (BitVec 16) × Option KeepJob := (t.fed, t.queues, t.ending, t.keep)

/-- The part of a frond that goes on by itself. -/
def State.workOf (s : State) (f : Nat) : (Bool → List Instr × Tbl (List QEntry) × Option (BitVec 16) × Option KeepJob) × List DmaXfer :=
  (fun live => (s.taskOf f live).work, (s.frond f).dma)

theorem State.Rests.congr (h : s.Rests f) (e : t.workOf f = s.workOf f) : t.Rests f := by
  obtain ⟨tasks, dma⟩ := Prod.mk.inj e
  have task (live : Bool) : (t.taskOf f live).work = (s.taskOf f live).work := congrFun tasks live
  simp only [Task.work, Prod.mk.injEq] at task
  refine ⟨fun live => ?_, fun live q => ?_, fun live => ?_, fun live => ?_, dma.trans h.dma⟩ <;> obtain ⟨fed, queues, ending, keep⟩ := task live
  · exact fed.trans (h.fed live)
  · rw [queues]; exact h.ran live q
  · exact ending.trans (h.ending live)
  · exact keep.trans (h.keep live)

theorem State.workOf_of_shares (shares : (t.frond f).shares = (s.frond f).shares) (dma : (t.frond f).dma = (s.frond f).dma) :
    t.workOf f = s.workOf f := by
  have task (live : Bool) : t.taskOf f live = s.taskOf f live := State.taskOf_of_shares shares
  simp only [State.workOf, task, dma]

theorem State.workOf_of_frond (h : t.frond f = s.frond f) : t.workOf f = s.workOf f :=
  State.workOf_of_shares (congrArg Frond.shares h) (congrArg Frond.dma h)

/-- A change of a frond beside its tasks and its transfers leaves what goes on by itself. -/
theorem State.workOf_setFrond {x : Frond} (shares : x.shares = (s.frond f).shares) (dma : x.dma = (s.frond f).dma) (g : Nat) :
    (s.setFrond f x).workOf g = s.workOf g := by
  by_cases here : g = f
  · subst here
    exact State.workOf_of_shares (by rw [State.setFrond_frond, shares]) (by rw [State.setFrond_frond, dma])
  · exact State.workOf_of_frond (State.setFrond_frond_other _ _ _ _ here)

theorem State.workOf_modTask {k : Task → Task} (hk : ∀ t, (k t).work = t.work) (g : Nat) : (s.modTask f live k).workOf g = s.workOf g := by
  have map (o : Option Task) : ((o.map k).getD {}).work = (o.getD {}).work := by
    cases o with
    | none => rfl
    | some t => exact hk t
  by_cases here : g = f
  · subst here
    cases live
    · simp only [State.workOf, State.taskOf, State.modTask_simmer, Prod.mk.injEq, and_true]
      funext share
      cases share
      · exact map _
      · rfl
    · simp only [State.workOf, State.taskOf, State.modTask_live, Prod.mk.injEq, and_true]
      funext share
      cases share
      · rfl
      · exact map _
  · exact State.workOf_of_frond (State.modTask_frond_other k here)

theorem State.OnlyTimes.workOf (h : s.OnlyTimes t) (g : Nat) : t.workOf g = s.workOf g := by
  have task (live : Bool) : (t.taskOf g live).work = (s.taskOf g live).work :=
    (congrArg Task.work (State.taskOf_untimed (live := live) (h.frond g)) :)
  simp only [State.workOf, task]
  exact congrArg _ (congrArg Frond.dma (h.frond g) :)

/-! ### The pump -/

theorem State.setTimers_onlyTimes (s : State) (f : Nat) : s.OnlyTimes (s.setTimers f) := by
  rcases s.setTimers_eq f with same | ⟨live, k, -, hk, same⟩
  · rw [same]
    exact ⟨rfl, fun _ => rfl⟩
  · rw [same]
    refine ⟨State.modTask_ctxs k, State.modTask_untimed fun t => ?_⟩
    obtain ⟨sem, tags, ht⟩ := hk t
    rw [ht]
    rfl

/-- The pump of a frond at rest changes nothing but timers. -/
theorem State.Rests.pump (h : s.Rests f) : s.OnlyTimes (s.pump f) := by
  rw [State.pump_rests (State.pumpOne_rests h.dma fun live _ => h.share live)]
  exact s.setTimers_onlyTimes f

/-! ### Signatures (R449) -/

theorem State.sign_untasked (sum : W64) (g : Nat) : ((s.sign f live sum).frond g).untasked = (s.frond g).untasked := by
  unfold State.sign
  split
  · exact State.modTask_untasked _ g
  · rfl

theorem State.sign_workOf (sum : W64) (g : Nat) : (s.sign f live sum).workOf g = s.workOf g := by
  unfold State.sign
  split
  · exact State.workOf_modTask (by exact fun _ => rfl) g
  · rfl

/-- The pump of a frond at rest whose task's signature has grown changes nothing of the fronds but their tasks. -/
theorem State.Rests.pump_signed (h : s.Rests f) (live : Bool) (sum : W64) (g : Nat) :
    (((s.sign f live sum).pump f).frond g).untasked = (s.frond g).untasked :=
  ((h.congr (State.sign_workOf (live := live) sum f)).pump.untasked g).trans (State.sign_untasked sum g)

end Sys2Proof.Machine
end

