-- ==== Sys2Proof/Proofs/RemoteIncrements.lean ====
section
/-! Remote increments (R280) and the SIGNALs that sent them (R97): what reaches a frond at rest is added, held or dropped, and the SIGNAL completes as it
would have before. -/

namespace Sys2Proof.Machine

variable {s t : State} {f g : Nat} {live : Bool} {sem : BitVec 6} {count task : BitVec 16}

/-! ### Jobs that are saved (R419) -/

/-- With no job marked, nothing runs on. -/
theorem State.runAllMarked_unmarked (h : s.Unmarked) (ctxs : t.ctxs = s.ctxs) : t.runAllMarked = t := by
  have none : t.ctxs.cells.filter (fun p => (p.2.job.map Job.marked).getD false) = [] :=
    List.filter_eq_nil_iff.2 fun p hp => by rw [h p (ctxs ▸ hp)]; exact Bool.false_ne_true
  unfold State.runAllMarked
  rw [none]
  rfl

/-! ### The signal on its way -/

/-- From s to t neither a signal on its way nor what goes on by itself has changed. -/
def State.SameSignals (s t : State) : Prop :=
  t.ctxs = s.ctxs ∧ (∀ g, (t.frond g).signals = (s.frond g).signals) ∧ ∀ g, t.workOf g = s.workOf g

theorem State.SameSignals.ctxs (h : s.SameSignals t) : t.ctxs = s.ctxs := h.left

theorem State.SameSignals.signals (h : s.SameSignals t) (g : Nat) : (t.frond g).signals = (s.frond g).signals := h.right.left g

theorem State.SameSignals.work (h : s.SameSignals t) (g : Nat) : t.workOf g = s.workOf g := h.right.right g

theorem State.SameSignals.signalOf (h : s.SameSignals t) : t.signalOf f sem count task = s.signalOf f sem count task := by
  simp only [State.signalOf, h.signals]

theorem State.OnlyTimes.sameSignals (h : s.OnlyTimes t) : s.SameSignals t :=
  ⟨h.ctxs, fun g => (congrArg Frond.signals (h.frond g) :), h.workOf⟩

theorem State.SameSignals.trans {u : State} (h : s.SameSignals t) (k : t.SameSignals u) : s.SameSignals u :=
  ⟨k.ctxs.trans h.ctxs, fun g => (k.signals g).trans (h.signals g), fun g => (k.work g).trans (h.work g)⟩

theorem State.sameSignals_setFrond {x : Frond} (shares : x.shares = (s.frond f).shares) (dma : x.dma = (s.frond f).dma)
    (signals : x.signals = (s.frond f).signals) : s.SameSignals (s.setFrond f x) := by
  refine ⟨rfl, fun g => ?_, State.workOf_setFrond shares dma⟩
  by_cases here : g = f
  · subst here
    rw [State.setFrond_frond, signals]
  · rw [State.setFrond_frond_other (h := here)]

theorem State.sameSignals_of_uncounted (h : t.uncounted = s.uncounted) : s.SameSignals t :=
  ⟨(congrArg State.ctxs h :), fun g => congrArg Frond.signals (State.frond_of_uncounted h g),
    fun g => State.workOf_of_frond (State.frond_of_uncounted h g)⟩

theorem State.sameSignals_modTask {k : Task → Task} (hk : ∀ t, (k t).work = t.work) : s.SameSignals (s.modTask f live k) :=
  ⟨State.modTask_ctxs k, fun g => (congrArg Frond.signals (State.modTask_untasked (s := s) k g) :), State.workOf_modTask hk⟩

/-- A signal on its way carries what was looked for. -/
theorem State.signalOf_task {o : OutSignal} (h : s.signalOf f sem count task = some (g, o)) : o.task = task := by
  obtain ⟨k, -, hk⟩ := List.exists_of_findSome?_eq_some h
  obtain ⟨o', found, same⟩ := Option.map_eq_some_iff.1 hk
  obtain rfl : o' = o := (Prod.mk.inj same).2
  have carries := List.find?_some found
  simp only [OutSignal.carries, Bool.and_eq_true, decide_eq_true_eq] at carries
  exact carries.2

/-! ### A semaphore that has room -/

/-- The semaphores of a frond and the increments it holds. -/
def Frond.semaphores (x : Frond) : Tbl (BitVec 16) × List HeldInc := (x.sems, x.heldIncs)

/-- n added to a semaphore of frond f. -/
def State.raised (s : State) (f sem n : Nat) : State :=
  s.setFrond f { s.frond f with sems := (s.frond f).sems.set sem (BitVec.ofNat 16 (((s.frond f).sems.get sem 0).toNat + n)) }

theorem State.raised_untasked (sem n : Nat) : ((s.raised f sem n).frond f).untasked = { (s.frond f).untasked with
    sems := (s.frond f).sems.set sem (BitVec.ofNat 16 (((s.frond f).sems.get sem 0).toNat + n)) } := by
  rw [State.raised, State.setFrond_frond]
  rfl

theorem State.raised_frond_other (sem n : Nat) (h : g ≠ f) : (s.raised f sem n).frond g = s.frond g := State.setFrond_frond_other _ _ _ _ h

theorem State.raised_shares (sem n : Nat) : ((s.raised f sem n).frond f).shares = (s.frond f).shares := by
  rw [State.raised, State.setFrond_frond]
  rfl

theorem State.raised_sameSignals (sem n : Nat) : s.SameSignals (s.raised f sem n) := State.sameSignals_setFrond rfl rfl rfl

/-! ### A SIGNAL completes (R97) -/

/-- The signal o of frond g is no longer on its way. -/
def State.signalGone (s : State) (g : Nat) (o : OutSignal) : State := s.setFrond g { s.frond g with signals := (s.frond g).signals.erase o }

/-- The SIGNAL of a task waits for one increment less. -/
def Task.signalled (t : Task) : Task := { t with signalsOut := t.signalsOut - 1 }

/-- The signal o of frond g is no longer on its way, and the task of its SIGNAL waits for it no longer. -/
def State.signalCounted (s : State) (g : Nat) (o : OutSignal) : State := (s.signalGone g o).modTask g o.live Task.signalled

variable {o : OutSignal}

theorem State.signalGone_shares : ((s.signalGone g o).frond g).shares = (s.frond g).shares := by
  rw [State.signalGone, State.setFrond_frond]
  rfl

theorem State.signalGone_semaphores (k : Nat) : ((s.signalGone g o).frond k).semaphores = (s.frond k).semaphores := by
  by_cases here : k = g
  · subst here
    rw [State.signalGone, State.setFrond_frond]
    rfl
  · rw [State.signalGone, State.setFrond_frond_other (h := here)]

theorem State.signalCounted_untasked : ((s.signalCounted g o).frond g).untasked =
    { (s.frond g).untasked with signals := (s.frond g).signals.erase o } := by
  rw [State.signalCounted, State.modTask_untasked, State.signalGone, State.setFrond_frond]
  rfl

theorem State.signalCounted_frond_other {k : Nat} (h : k ≠ g) : (s.signalCounted g o).frond k = s.frond k :=
  (State.modTask_frond_other _ h).trans (State.setFrond_frond_other _ _ _ _ h)

theorem State.signalCounted_semaphores (k : Nat) : ((s.signalCounted g o).frond k).semaphores = (s.frond k).semaphores :=
  (congrArg Frond.semaphores (State.modTask_untasked (s := s.signalGone g o) Task.signalled k) :).trans (State.signalGone_semaphores k)

theorem State.signalGone_workOf (k : Nat) : (s.signalGone g o).workOf k = s.workOf k :=
  State.workOf_setFrond (x := { s.frond g with signals := (s.frond g).signals.erase o }) rfl rfl k

theorem State.signalCounted_workOf (k : Nat) : (s.signalCounted g o).workOf k = s.workOf k := by
  have work (t : Task) : t.signalled.work = t.work := rfl
  rw [State.signalCounted, State.workOf_modTask work, State.signalGone_workOf]

/-- A share whose task waits for an increment holds a task. -/
theorem State.hasTask_of_signalsOut (out : 0 < (s.taskOf g live).signalsOut) : s.HasTask g live := by
  unfold State.taskOf at out
  unfold State.HasTask
  generalize (if live then (s.frond g).live else (s.frond g).simmer) = share at out
  cases share with
  | none => exact absurd out (by decide)
  | some k => rfl

theorem State.signalCounted_taskOf (out : 0 < (s.taskOf g o.live).signalsOut) :
    (s.signalCounted g o).taskOf g o.live = (s.taskOf g o.live).signalled := by
  rw [State.signalCounted, ((State.hasTask_of_shares State.signalGone_shares (State.hasTask_of_signalsOut out)).modTask _).2,
    State.taskOf_of_shares State.signalGone_shares]

/-- The SIGNAL of a task that still runs completes: its header signal fires, and the sequencer goes on. -/
theorem State.signalDone_own (own : (s.taskOf g o.live).taskNo = o.task) (out : 0 < (s.taskOf g o.live).signalsOut) :
    s.signalDone g o = (match o.header with
      | some sem => (s.signalCounted g o).addSem g sem.toNat 1 8 o.index
      | none => s.signalCounted g o).pump g := by
  have same : ((s.signalGone g o).taskOf g o.live).taskNo = o.task ∧ 0 < ((s.signalGone g o).taskOf g o.live).signalsOut := by
    rw [State.taskOf_of_shares State.signalGone_shares]
    exact ⟨own, out⟩
  unfold State.signalDone
  exact (if_pos same).trans (by cases o.header <;> rfl)

/-- That of a task that has ended is forgotten. -/
theorem State.signalDone_foreign (h : ¬ ((s.taskOf g o.live).taskNo = o.task ∧ 0 < (s.taskOf g o.live).signalsOut)) :
    s.signalDone g o = s.signalGone g o := by
  have same : ¬ (((s.signalGone g o).taskOf g o.live).taskNo = o.task ∧ 0 < ((s.signalGone g o).taskOf g o.live).signalsOut) := by
    rwa [State.taskOf_of_shares State.signalGone_shares]
  unfold State.signalDone
  exact if_neg same

/-- A SIGNAL without a header signal, of a frond at rest, completes with no semaphore and no held increment changed. -/
theorem State.signalDone_silent (silent : o.header = none) (rests : s.Rests g) :
    (s.signalDone g o).ctxs = s.ctxs ∧ ∀ k, ((s.signalDone g o).frond k).semaphores = (s.frond k).semaphores := by
  by_cases own : (s.taskOf g o.live).taskNo = o.task ∧ 0 < (s.taskOf g o.live).signalsOut
  · obtain ⟨runs, out⟩ := own
    have times : (s.signalCounted g o).OnlyTimes ((s.signalCounted g o).pump g) := (rests.congr (State.signalCounted_workOf g)).pump
    rw [State.signalDone_own runs out, silent]
    refine ⟨times.ctxs.trans (State.modTask_ctxs _), fun k => ?_⟩
    exact (congrArg Frond.semaphores (times.untasked k) :).trans (State.signalCounted_semaphores k)
  · rw [State.signalDone_foreign own]
    exact ⟨rfl, State.signalGone_semaphores⟩

/-- From s to t the SIGNAL of o on frond g has completed: o is no longer on its way, and its header signal q has fired. -/
def State.Signalled (s t : State) (g : Nat) (o : OutSignal) (q : BitVec 6) : Prop :=
  t.ctxs = s.ctxs
    ∧ (∀ k, k ≠ g → (t.frond k).untimed = (s.frond k).untimed)
    ∧ (t.frond g).signals = (s.frond g).signals.erase o
    ∧ (t.taskOf g o.live).signalsOut = (s.taskOf g o.live).signalsOut - 1
    ∧ (t.frond g).sems.get q.toNat 0 = BitVec.ofNat 16 (((s.frond g).sems.get q.toNat 0).toNat + 1)

/-- A SIGNAL with a header signal, of a task that runs on a frond at rest, completes. -/
theorem State.signalDone_signalled {q : BitVec 6} (header : o.header = some q) (rests : s.Rests g) (own : (s.taskOf g o.live).taskNo = o.task)
    (out : 0 < (s.taskOf g o.live).signalsOut) (room : ((s.frond g).sems.get q.toNat 0).toNat < 65535) :
    s.Signalled (s.signalDone g o) g o q := by
  have sems : ((s.signalCounted g o).frond g).sems = (s.frond g).sems := (congrArg Prod.fst (State.signalCounted_semaphores g) :)
  have done : s.signalDone g o = ((s.signalCounted g o).raised g q.toNat 1).pump g := by
    rw [State.signalDone_own own out, header]
    exact congrArg (fun u : State => u.pump g) (State.addSem_fits 8 o.index (by rw [sems]; omega))
  have times : ((s.signalCounted g o).raised g q.toNat 1).OnlyTimes (s.signalDone g o) := by
    rw [done]
    exact (rests.congr (((State.raised_sameSignals ..).work g).trans (State.signalCounted_workOf g))).pump
  have untasked := (times.untasked g).trans (State.raised_untasked ..)
  refine ⟨times.ctxs.trans (State.modTask_ctxs _), fun k other => ?_, ?_, ?_, ?_⟩
  · rw [times.frond k, State.raised_frond_other _ _ other, State.signalCounted_frond_other other]
  · exact (congrArg Frond.signals untasked :).trans (congrArg Frond.signals State.signalCounted_untasked :)
  · have task : ((s.signalCounted g o).raised g q.toNat 1).taskOf g o.live = (s.taskOf g o.live).signalled := by
      rw [State.taskOf_of_shares (State.raised_shares ..), State.signalCounted_taskOf out]
    exact (congrArg Task.signalsOut (State.taskOf_untimed (times.frond g)) :).trans (congrArg Task.signalsOut task :)
  · refine (congrArg (fun x : Frond => x.sems.get q.toNat 0) untasked :).trans ?_
    exact (Tbl.get_set_same ..).trans (by rw [sems])

/-! ### The increment has arrived -/

/-- The SIGNAL that sent an increment, if it is still on its way, has no header signal and stands on a frond at rest. -/
def State.Silent (s : State) (f : Nat) (sem : BitVec 6) (count task : BitVec 16) : Prop :=
  ∀ g o, s.signalOf f sem count task = some (g, o) → s.Rests g ∧ o.header = none

theorem State.Silent.congr (h : s.Silent f sem count task) (same : s.SameSignals t) : t.Silent f sem count task := by
  intro g o found
  obtain ⟨rests, silent⟩ := h g o (same.signalOf ▸ found)
  exact ⟨rests.congr (same.work g), silent⟩

theorem State.takeSignal_silent (h : s.Silent f sem count task) :
    (s.takeSignal f sem count task).ctxs = s.ctxs ∧ ∀ k, ((s.takeSignal f sem count task).frond k).semaphores = (s.frond k).semaphores := by
  unfold State.takeSignal
  split
  · exact ⟨rfl, fun _ => rfl⟩
  · next g o found =>
    obtain ⟨rests, silent⟩ := h g o found
    exact State.signalDone_silent silent rests

/-- With no job marked, an increment taken leaves the semaphores and the held increments as they stand at its arrival. -/
theorem State.arrived_silent (unmarked : s.Unmarked) (still : s.Silent f sem count task) (same : s.SameSignals t) (k : Nat) :
    ((State.runAllMarked (t.takeSignal f sem count task)).frond k).sems = (t.frond k).sems
      ∧ ((State.runAllMarked (t.takeSignal f sem count task)).frond k).heldIncs = (t.frond k).heldIncs := by
  obtain ⟨ctxs, semaphores⟩ := State.takeSignal_silent (still.congr same)
  rw [State.runAllMarked_unmarked unmarked (ctxs.trans same.ctxs)]
  exact Prod.mk.inj (semaphores k)

/-! ### An increment applied (R280) -/

/-- The share of frond f that a remote increment of a semaphore reaches. -/
def State.semTarget (s : State) (f : Nat) (sem : BitVec 6) : Bool := s.divided f && semShare true true sem.toNat

/-- A remote increment joins the step of the task that it reaches, and is added. -/
def State.incApplied (s : State) (f : Nat) (sem : BitVec 6) (count : BitVec 16) : State :=
  (s.modTask f (s.semTarget f sem) (fun t => { t with step := { t.step with incs := t.step.incs ++ [(sem, count)] } })).addSem f sem.toNat count.toNat 8
    (s.taskOf f (s.semTarget f sem)).cmdIndex

/-- What an increment that the semaphore has room for leaves. -/
def State.Incremented (s t : State) (f : Nat) (sem : BitVec 6) (count : BitVec 16) : Prop :=
  s.SameSignals t
    ∧ (t.frond f).sems.get sem.toNat 0 = BitVec.ofNat 16 (((s.frond f).sems.get sem.toNat 0).toNat + count.toNat)
    ∧ (t.frond f).heldIncs = (s.frond f).heldIncs
    ∧ ∀ g, g ≠ f → (t.frond g).untimed = (s.frond g).untimed

theorem State.incApplied_incremented (room : ((s.frond f).sems.get sem.toNat 0).toNat + count.toNat ≤ 65535) :
    s.Incremented (s.incApplied f sem count) f sem count := by
  unfold State.incApplied
  generalize noted : s.modTask f (s.semTarget f sem) _ = u
  have same : s.SameSignals u := noted ▸ State.sameSignals_modTask fun _ => rfl
  have untasked : (u.frond f).untasked = (s.frond f).untasked := noted ▸ State.modTask_untasked _ f
  have sems : (u.frond f).sems = (s.frond f).sems := (congrArg Frond.sems untasked :)
  have raised := State.raised_untasked (s := u) (f := f) sem.toNat count.toNat
  rw [State.addSem_fits 8 _ (by rw [sems]; exact room)]
  refine ⟨same.trans (State.raised_sameSignals ..), ?_, ?_, fun g other => ?_⟩
  · exact (congrArg (fun x : Frond => x.sems.get sem.toNat 0) raised :).trans ((Tbl.get_set_same ..).trans (by rw [sems]))
  · exact (congrArg Frond.heldIncs raised :).trans (congrArg Frond.heldIncs untasked :)
  · exact congrArg Frond.untimed ((State.raised_frond_other _ _ other).trans (noted ▸ State.modTask_frond_other _ other))

/-- The pump of a frond at rest leaves it at that. -/
theorem State.Incremented.pump (h : s.Incremented t f sem count) (rests : s.Rests f) : s.Incremented (t.pump f) f sem count := by
  obtain ⟨same, value, held, others⟩ := h
  have times := (rests.congr (same.work f)).pump
  refine ⟨same.trans times.sameSignals, ?_, ?_, fun g other => (times.frond g).trans (others g other)⟩
  · exact (congrArg (fun x : Frond => x.sems.get sem.toNat 0) (times.frond f) :).trans value
  · exact (congrArg Frond.heldIncs (times.frond f) :).trans held

/-! ### REMOTE_SIGNAL_ARRIVAL -/

theorem laterTask_self (r : BitVec 16) : laterTask r r = false := by
  simp [laterTask]

section Exec

variable {f : FrondId} (awake : s.inert = false)
include awake

theorem exec_remoteSignalArrival_running (running : task = s.shareTask f.val sem.toNat) (runs : (s.frond f.val).shareRuns (s.semTarget f.val sem) = true) :
    exec (.remoteSignalArrival f sem count task) s =
      .next (State.runAllMarked (((s.incApplied f.val sem count).pump f.val).takeSignal f.val sem count task)) := by
  have index : ((s.modTask f.val (s.semTarget f.val sem) (fun t => { t with step := { t.step with incs := t.step.incs ++ [(sem, count)] } })).taskOf f.val
      (s.semTarget f.val sem)).cmdIndex = (s.taskOf f.val (s.semTarget f.val sem)).cmdIndex := by
    have has : s.HasTask f.val (s.semTarget f.val sem) := by
      unfold Frond.shareRuns at runs
      rw [State.HasTask, apply_ite Option.isSome]
      exact runs
    rw [(has.modTask _).2]
  show execRemoteSignalArrival f sem count task s = _
  unfold execRemoteSignalArrival
  rw [unlessInert_awake awake]
  dsimp only
  rw [if_pos running, ← State.semTarget, if_pos runs, index]
  rfl

theorem exec_remoteSignalArrival_later (later : laterTask task (s.shareTask f.val sem.toNat) = true) (room : (s.frond f.val).heldIncs.length < 64) :
    exec (.remoteSignalArrival f sem count task) s = .next (State.runAllMarked ((s.setFrond f.val { s.frond f.val with
      heldIncs := (s.frond f.val).heldIncs ++ [{ task := task, sem := sem, count := count }] }).takeSignal f.val sem count task)) := by
  have other : task ≠ s.shareTask f.val sem.toNat := fun same => by
    rw [← same, laterTask_self] at later
    exact Bool.false_ne_true later
  show execRemoteSignalArrival f sem count task s = _
  unfold execRemoteSignalArrival
  rw [unlessInert_awake awake]
  dsimp only
  rw [if_neg other, if_pos later, if_pos room]

theorem exec_remoteSignalArrival_earlier (other : task ≠ s.shareTask f.val sem.toNat) (earlier : laterTask task (s.shareTask f.val sem.toNat) = false) :
    exec (.remoteSignalArrival f sem count task) s = .next (State.runAllMarked ((s.count (cntFrond f.val 13) 1).takeSignal f.val sem count task)) := by
  show execRemoteSignalArrival f sem count task s = _
  unfold execRemoteSignalArrival
  rw [unlessInert_awake awake]
  dsimp only
  rw [if_neg other, if_neg (earlier ▸ Bool.false_ne_true)]

end Exec

/-! ### The claim -/

theorem State.takeSignal_found {o : OutSignal} (found : s.signalOf f sem count task = some (g, o)) : s.takeSignal f sem count task = s.signalDone g o := by
  simp only [State.takeSignal, found]

/-- An increment of the running task is added, and the SIGNAL that sent it completes on its own frond. -/
theorem State.arrived_signalled {o : OutSignal} {q : BitVec 6} (added : s.Incremented t f sem count) (unmarked : s.Unmarked)
    (found : s.signalOf f sem count task = some (g, o)) (other : g ≠ f) (rests : s.Rests g) (header : o.header = some q)
    (own : (s.taskOf g o.live).taskNo = task) (out : 0 < (s.taskOf g o.live).signalsOut) (room : ((s.frond g).sems.get q.toNat 0).toNat < 65535) :
    State.runAllMarked (t.takeSignal f sem count task) = t.signalDone g o ∧ t.Signalled (t.signalDone g o) g o q := by
  obtain ⟨same, -, -, others⟩ := added
  have here : (t.frond g).untimed = (s.frond g).untimed := others g other
  have mine : (t.taskOf g o.live).untimed = (s.taskOf g o.live).untimed := State.taskOf_untimed here
  have done : t.Signalled (t.signalDone g o) g o q := by
    refine State.signalDone_signalled header (rests.congr (same.work g)) ?_ ?_ ?_
    · exact (congrArg Task.taskNo mine :).trans (own.trans (State.signalOf_task found).symm)
    · exact out.trans_eq (congrArg Task.signalsOut mine.symm :)
    · exact (congrArg (fun x : Frond => (x.sems.get q.toNat 0).toNat) here :).trans_lt room
  refine ⟨?_, done⟩
  rw [State.takeSignal_found (same.signalOf.trans found), State.runAllMarked_unmarked unmarked (done.left.trans same.ctxs)]

theorem remoteIncrements : Claim.RemoteIncrements := by
  intro s f sem count task awake c live r v k held still
  refine ⟨fun same runs => exec_remoteSignalArrival_running awake same runs, ?_, ?_, ?_, fun _ later room => exec_remoteSignalArrival_later awake later room,
    fun other earlier => exec_remoteSignalArrival_earlier awake other earlier, ?_⟩
  · intro same runs rests room unmarked g o q found other gRests header own out gRoom
    have added := (State.incApplied_incremented room).pump rests
    obtain ⟨ends, -, doneOthers, doneSignals, signalsOut, fired⟩ := State.arrived_signalled added unmarked found other gRests header own out gRoom
    obtain ⟨addedSame, value, -, others⟩ := added
    refine ⟨_, (exec_remoteSignalArrival_running awake same runs).trans (congrArg _ ends), ?_, ?_, ?_, ?_⟩
    · exact (congrArg (fun x : Frond => x.sems.get sem.toNat 0) (doneOthers f.val (Ne.symm other)) :).trans value
    · rw [doneSignals, addedSame.signals]
    · rw [signalsOut]
      exact congrArg (· - 1) (congrArg Task.signalsOut (State.taskOf_untimed (others g other)) :)
    · rw [fired]
      exact (congrArg (fun x : Frond => BitVec.ofNat 16 ((x.sems.get q.toNat 0).toNat + 1)) (others g other) :)
  · intro same runs rests room unmarked silent
    obtain ⟨addedSame, value, kept, -⟩ := (State.incApplied_incremented room).pump rests
    obtain ⟨sems, incs⟩ := State.arrived_silent (f := f.val) unmarked silent addedSame f.val
    refine ⟨_, exec_remoteSignalArrival_running awake same runs, ?_, incs.trans kept⟩
    rw [sems]
    exact value
  · intro later room unmarked silent
    have same : s.SameSignals (s.setFrond f.val { s.frond f.val with heldIncs := held }) := State.sameSignals_setFrond rfl rfl rfl
    obtain ⟨sems, incs⟩ := State.arrived_silent (f := f.val) unmarked silent same f.val
    rw [State.setFrond_frond] at sems incs
    exact ⟨_, exec_remoteSignalArrival_later awake later room, incs, sems⟩
  · intro other earlier unmarked silent
    have counted := State.uncounted_count (s := s) (cntFrond f.val 13) 1
    obtain ⟨sems, incs⟩ := State.arrived_silent (f := f.val) unmarked silent (State.sameSignals_of_uncounted counted) f.val
    rw [State.frond_of_uncounted counted] at sems incs
    exact ⟨_, exec_remoteSignalArrival_earlier awake other earlier, incs, sems⟩

end Sys2Proof.Machine
end

