-- ==== Sys2Proof/Proofs/RemoteAccesses.lean ====
section
/-! Remote accesses (R235, R239, R241): which access of a frond arrives, and the rows that a write into an open window of its generation stores. -/

namespace Sys2Proof

/-- Rows of 512 bytes written one after the other, entry p at row `row p.2`. -/
def Mem.writeRows (m : Mem) (row : Nat → Nat) (l : List (List Byte × Nat)) : Mem := l.foldl (fun m p => m.write (512 * row p.2) p.1) m

variable {m : Mem} {row : Nat → Nat} {l : List (List Byte × Nat)}

/-- A row that no entry goes to stays as it is. -/
theorem Mem.writeRows_other {r b : Nat} (len : ∀ p ∈ l, p.1.length = 512) (other : ∀ p ∈ l, row p.2 ≠ r) (hb : b < 512) :
    (m.writeRows row l).get? (512 * r + b) = m.get? (512 * r + b) := by
  induction l generalizing m with
  | nil => rfl
  | cons p l ih =>
    have hlen := len p List.mem_cons_self
    have hrow := other p List.mem_cons_self
    refine (ih (fun q hq => len q (List.mem_cons_of_mem _ hq)) fun q hq => other q (List.mem_cons_of_mem _ hq)).trans ?_
    rw [Mem.get_write, if_neg (by omega)]

/-- Entries that go to different rows are each read back from theirs. -/
theorem Mem.writeRows_entry {p : List Byte × Nat} {b : Nat} (len : ∀ p ∈ l, p.1.length = 512)
    (apart : ∀ p ∈ l, ∀ q ∈ l, row p.2 = row q.2 → p = q) (mem : p ∈ l) (hb : b < 512) : (m.writeRows row l).get? (512 * row p.2 + b) = p.1[b]? := by
  induction l generalizing m with
  | nil => cases mem
  | cons q l ih =>
    have len' : ∀ p ∈ l, p.1.length = 512 := fun r hr => len r (List.mem_cons_of_mem _ hr)
    by_cases later : p ∈ l
    · exact ih len' (fun r hr k hk => apart r (List.mem_cons_of_mem _ hr) k (List.mem_cons_of_mem _ hk)) later
    · obtain rfl : p = q := (List.mem_cons.1 mem).resolve_right later
      have others : ∀ r ∈ l, row r.2 ≠ row p.2 := fun r hr same => later (apart r (List.mem_cons_of_mem _ hr) p mem same ▸ hr)
      have hlen := len p mem
      refine (Mem.writeRows_other len' others hb).trans ?_
      rw [Mem.get_write, if_pos (by omega)]
      congr 1
      omega

end Sys2Proof

namespace Sys2Proof.Machine

variable {s t : State} {f g : Nat} {live : Bool}

/-! ### Which access arrives (R235) -/

theorem oldestEach_ne_nil {l : List NetAccess} (h : l ≠ []) : oldestEach l ≠ [] := by
  cases l with
  | nil => contradiction
  | cons a l => exact List.cons_ne_nil _ _

/-- Access a of frond f has left the mesh. -/
def State.accessGone (s : State) (f : Nat) (a : NetAccess) : State := s.setFrond f { s.frond f with netOut := (s.frond f).netOut.erase a }

/-- One of the accesses that may arrive next does; a choice among several draws a free value. -/
theorem exec_remoteAccessArrival {f : FrondId} (awake : s.inert = false) (sent : (s.frond f.val).netOut ≠ []) :
    ∃ a ∈ oldestEach (s.frond f.val).netOut, ∃ n, exec (.remoteAccessArrival f) s =
      .next ((({ s with fresh := s.fresh + n }.accessGone f.val a).deliverAccess f.val a).pump f.val) := by
  have some_next := List.length_pos_iff.2 (oldestEach_ne_nil sent)
  show ∃ a ∈ _, ∃ n, execRemoteAccessArrival f s = _
  unfold execRemoteAccessArrival
  rw [unlessInert_awake awake]
  by_cases one : (oldestEach (s.frond f.val).netOut).length ≤ 1
  · refine ⟨_, List.getElem_mem some_next, 0, ?_⟩
    simp only [if_pos one, List.getElem?_eq_getElem some_next]
    rfl
  · refine ⟨_, List.getElem_mem (Nat.mod_lt s.draw.1.toNat some_next), 1, ?_⟩
    simp only [if_neg one, List.getElem?_eq_getElem (Nat.mod_lt s.draw.1.toNat some_next)]
    rfl

/-- Where only one access may arrive next, it does. -/
theorem exec_remoteAccessArrival_only {f : FrondId} {a : NetAccess} (awake : s.inert = false) (only : oldestEach (s.frond f.val).netOut = [a]) :
    exec (.remoteAccessArrival f) s = .next (((s.accessGone f.val a).deliverAccess f.val a).pump f.val) := by
  show execRemoteAccessArrival f s = _
  unfold execRemoteAccessArrival
  rw [unlessInert_awake awake]
  simp only [only, List.length_singleton, le_refl, if_true]
  rfl

/-! ### The window (R239) -/

theorem Frond.winCheck_stale {x : Frond} {win roff rows : Nat} {gen : BitVec 16} :
    x.winCheck win gen roff rows = .stale ↔ (x.windows.get win {}).isOpen = false ∨ (x.windows.get win {}).gen ≠ gen := by
  have closed : (!(x.windows.get win {}).isOpen || decide ((x.windows.get win {}).gen ≠ gen)) = true ↔
      (x.windows.get win {}).isOpen = false ∨ (x.windows.get win {}).gen ≠ gen := by simp
  rw [← closed]
  unfold Frond.winCheck
  dsimp only
  split
  · next h => exact ⟨fun _ => h, fun _ => rfl⟩
  · next h => split <;> exact ⟨nofun, fun k => absurd k h⟩

theorem Frond.winCheck_range {x : Frond} {win roff rows : Nat} {gen : BitVec 16} :
    x.winCheck win gen roff rows = .range ↔
      (x.windows.get win {}).isOpen = true ∧ (x.windows.get win {}).gen = gen ∧ (x.windows.get win {}).rows.toNat < roff + rows := by
  have open_ : ¬ (!(x.windows.get win {}).isOpen || decide ((x.windows.get win {}).gen ≠ gen)) = true ↔
      (x.windows.get win {}).isOpen = true ∧ (x.windows.get win {}).gen = gen := by simp
  rw [← and_assoc, ← open_]
  unfold Frond.winCheck
  dsimp only
  split
  · next h => exact ⟨nofun, fun k => absurd h k.1⟩
  · next h =>
    split
    · next beyond => exact ⟨fun _ => ⟨h, beyond⟩, fun _ => rfl⟩
    · next within => exact ⟨nofun, fun k => absurd k.2 within⟩

/-! ### The rows of a write (R241) -/

/-- The frond with rows written, entry p of the list at row `row p.2`, and these poison marks. -/
def Frond.stored (x : Frond) (row : Nat → Nat) (l : List (List Byte × Nat)) (marks : List Nat) : Frond :=
  { x with tsp := x.tsp.writeRows row l, poisonRows := marks }

/-- The rows of a write lie, through the window of frond f, in these physical rows. -/
def State.RowsAt (s : State) (f : Nat) (w : Window) (roff : Nat) (data : List (List Byte)) (row : Nat → Nat) : Prop :=
  ∀ i < data.length, (s.frond f).place (s.taskOf f w.live) (w.base.toNat + roff + i) = some (.phys (row i))

/-- A row stored in a physical place changes the bytes of its frond's scratchpad, and marks. -/
theorem State.storeRow_eq (f r : Nat) (bytes : List Byte) (bad : Bool) : ∃ marks, (s.rowWrite f (.phys r) 0 bytes).markRow f (.phys r) bad =
    s.setFrond f { s.frond f with tsp := (s.frond f).tsp.write (512 * r) bytes, poisonRows := marks } := by
  simp only [State.rowWrite, State.markRow, State.setFrond_frond, State.setFrond_setFrond, Nat.add_zero]
  exact ⟨_, rfl⟩

/-- Rows that a window puts into physical places are written there, and nothing else changes but their marks. -/
theorem State.storeRows_stored {w : Window} {roff : Nat} {data : List (List Byte)} {row : Nat → Nat} (bad : Bool)
    (places : s.RowsAt f w roff data row) :
    (∃ marks, (s.storeRows f w roff data bad).frond f = (s.frond f).stored row data.zipIdx marks)
      ∧ ∀ g, g ≠ f → (s.storeRows f w roff data bad).frond g = s.frond g := by
  unfold State.storeRows
  replace places : ∀ p ∈ data.zipIdx, (s.frond f).place (s.taskOf f w.live) (w.base.toNat + roff + p.2) = some (.phys (row p.2)) :=
    fun p hp => places p.2 (List.snd_lt_of_mem_zipIdx hp)
  generalize data.zipIdx = l at places
  induction l generalizing s with
  | nil => exact ⟨⟨(s.frond f).poisonRows, rfl⟩, fun _ _ => rfl⟩
  | cons p l ih =>
    obtain ⟨marks, stored⟩ := State.storeRow_eq (s := s) f (row p.2) p.1 bad
    have task : (s.setFrond f { s.frond f with tsp := (s.frond f).tsp.write (512 * row p.2) p.1, poisonRows := marks }).taskOf f w.live = s.taskOf f w.live :=
      State.taskOf_of_shares (by rw [State.setFrond_frond]; rfl)
    rw [List.foldl_cons]
    simp only [places p List.mem_cons_self, stored]
    obtain ⟨⟨marks', here⟩, others⟩ := ih fun q hq => by
      rw [task, State.setFrond_frond]
      exact places q (List.mem_cons_of_mem _ hq)
    refine ⟨⟨marks', here.trans ?_⟩, fun g other => (others g other).trans (State.setFrond_frond_other _ _ _ _ other)⟩
    rw [State.setFrond_frond]
    rfl

theorem State.storeRows_frond {w : Window} {roff : Nat} {data : List (List Byte)} {row : Nat → Nat} (bad : Bool)
    (places : s.RowsAt f w roff data row) (g : Nat) :
    ∃ tsp marks, (s.storeRows f w roff data bad).frond g = { s.frond g with tsp := tsp, poisonRows := marks } := by
  obtain ⟨⟨marks, stored⟩, others⟩ := State.storeRows_stored bad places
  by_cases here : g = f
  · subst here
    exact ⟨_, marks, stored⟩
  · exact ⟨_, _, others g here⟩

/-- Each row stored reads back from its place, where no two rows have the same. -/
theorem Frond.stored_tspByte {x : Frond} {row : Nat → Nat} {data : List (List Byte)} {marks : List Nat} (f : Nat)
    (len : ∀ i < data.length, (data.getD i []).length = 512) (apart : ∀ i < data.length, ∀ j < data.length, row i = row j → i = j) {i b : Nat}
    (hi : i < data.length) (hb : b < 512) : (x.stored row data.zipIdx marks).tspByte f (512 * row i + b) = (data.getD i []).getD b 0 := by
  have entry (p : List Byte × Nat) (hp : p ∈ data.zipIdx) : p.2 < data.length ∧ p.1 = data.getD p.2 [] := by
    obtain ⟨-, lt, eq⟩ := List.mem_zipIdx hp
    exact ⟨by simpa using lt, by simpa [List.getD_eq_getElem?_getD, List.getElem?_eq_getElem (by simpa using lt)] using eq⟩
  have mem : (data.getD i [], i) ∈ data.zipIdx := by
    simp [List.mk_mem_zipIdx_iff_getElem?, hi]
  have read : (x.tsp.writeRows row data.zipIdx).get? (512 * row i + b) = (data.getD i [])[b]? :=
    Mem.writeRows_entry (fun p hp => (entry p hp).2 ▸ len p.2 (entry p hp).1)
    (fun p hp q hq same => Prod.ext (by rw [(entry p hp).2, (entry q hq).2, apart _ (entry p hp).1 _ (entry q hq).1 same])
      (apart _ (entry p hp).1 _ (entry q hq).1 same)) mem hb
  have hlen := len i hi
  show ((x.tsp.writeRows row data.zipIdx).get? (512 * row i + b)).getD _ = _
  generalize data.getD i [] = bytes at read hlen ⊢
  rw [read, List.getD_eq_getElem?_getD, List.getElem?_eq_getElem (by omega), Option.getD_some, Option.getD_some]

/-! ### The access delivered -/

/-- An access that its window does not take faults the task that issued it. -/
theorem State.deliverAccess_refused {a : NetAccess} {c : WinCheck} (check : (s.frond a.dst).winCheck a.win a.gen a.roff a.rows = c) (refused : c ≠ .good) :
    s.deliverAccess f a = s.windowFault f a c := by
  unfold State.deliverAccess
  rw [check]
  cases c with
  | good => exact absurd rfl refused
  | stale => rfl
  | range => rfl

/-- A write that its window takes stores its rows and joins the sender's signature (R449). -/
theorem State.deliverAccess_write {a : NetAccess} (good : (s.frond a.dst).winCheck a.win a.gen a.roff a.rows = .good)
    (on : s.accessOn f a ((s.frond a.dst).windows.get a.win {}) = true) (write : a.write = true) (plain : a.group = none) :
    s.deliverAccess f a = (s.storeRows a.dst ((s.frond a.dst).windows.get a.win {}) a.roff a.data a.poisoned).sign f a.live
      (rowsSum a.dst a.win a.roff a.data a.poisoned) := by
  unfold State.deliverAccess
  simp only [good, on, write, plain, Bool.not_true, Bool.false_eq_true, if_false, if_true]

/-- An access that has left the mesh leaves all but the list it stood in. -/
theorem State.accessGone_frond (a : NetAccess) (g : Nat) : ∃ l, (s.accessGone f a).frond g = { s.frond g with netOut := l } := by
  by_cases here : g = f
  · subst here
    exact ⟨_, State.setFrond_frond ..⟩
  · exact ⟨(s.frond g).netOut, State.setFrond_frond_other _ _ _ _ here⟩

theorem State.accessGone_netOut (a : NetAccess) : ((s.accessGone f a).frond f).netOut = (s.frond f).netOut.erase a := by
  rw [State.accessGone, State.setFrond_frond]

theorem State.accessGone_taskOf (a : NetAccess) (g : Nat) : (s.accessGone f a).taskOf g live = s.taskOf g live := by
  obtain ⟨l, frond⟩ := s.accessGone_frond (f := f) a g
  exact State.taskOf_of_shares (by rw [frond]; rfl)

theorem State.accessGone_workOf (a : NetAccess) (g : Nat) : (s.accessGone f a).workOf g = s.workOf g := by
  obtain ⟨l, frond⟩ := s.accessGone_frond (f := f) a g
  exact State.workOf_of_shares (by rw [frond]; rfl) (by rw [frond])

theorem State.accessGone_place (a : NetAccess) (g : Nat) (t : Task) (r : Nat) : ((s.accessGone f a).frond g).place t r = (s.frond g).place t r := by
  obtain ⟨l, frond⟩ := s.accessGone_frond (f := f) a g
  rw [frond]
  rfl

theorem State.accessGone_rowsAt {w : Window} {roff : Nat} {data : List (List Byte)} {row : Nat → Nat} (a : NetAccess) (h : s.RowsAt g w roff data row) :
    (s.accessGone f a).RowsAt g w roff data row := fun i hi => by
  rw [State.accessGone_taskOf, State.accessGone_place]
  exact h i hi

theorem State.accessGone_winCheck (a : NetAccess) (g win roff rows : Nat) (gen : BitVec 16) :
    ((s.accessGone f a).frond g).windows = (s.frond g).windows
      ∧ ((s.accessGone f a).frond g).winCheck win gen roff rows = (s.frond g).winCheck win gen roff rows := by
  obtain ⟨l, frond⟩ := s.accessGone_frond (f := f) a g
  rw [frond]
  exact ⟨rfl, rfl⟩

theorem State.accessGone_accessOn (a : NetAccess) (w : Window) : (s.accessGone f a).accessOn f a w = s.accessOn f a w := by
  have rows (g : Nat) (live : Bool) (row n : Nat) : (s.accessGone f a).rowsOn g live row n = s.rowsOn g live row n := by
    obtain ⟨l, frond⟩ := s.accessGone_frond (f := f) a g
    unfold State.rowsOn
    simp only [State.accessGone_taskOf, frond]
    rfl
  simp only [State.accessOn, rows]

/-! ### The claim -/

/-- A write into an open window of its generation, of a frond at rest: its rows read back from their places, and it is on its way no longer. -/
theorem exec_remoteAccessArrival_write {f : FrondId} {a : NetAccess} {row : Nat → Nat} (awake : s.inert = false)
    (only : oldestEach (s.frond f.val).netOut = [a]) (good : (s.frond a.dst).winCheck a.win a.gen a.roff a.rows = .good) (write : a.write = true)
    (plain : a.group = none) (on : s.accessOn f.val a ((s.frond a.dst).windows.get a.win {}) = true)
    (places : s.RowsAt a.dst ((s.frond a.dst).windows.get a.win {}) a.roff a.data row)
    (len : ∀ i < a.data.length, (a.data.getD i []).length = 512) (apart : ∀ i < a.data.length, ∀ j < a.data.length, row i = row j → i = j)
    (rests : s.Rests f.val) :
    Ends (.remoteAccessArrival f) s (fun t => (∀ i < a.data.length, ∀ b < 512, t.tspByte a.dst (512 * row i + b) = (a.data.getD i []).getD b 0)
      ∧ (t.frond f.val).netOut = (s.frond f.val).netOut.erase a) := by
  obtain ⟨windows, check⟩ := s.accessGone_winCheck (f := f.val) a a.dst a.win a.roff a.rows a.gen
  have delivered := State.deliverAccess_write (f := f.val) (check.trans good) (by rwa [windows, State.accessGone_accessOn]) write plain
  rw [windows] at delivered
  have places := State.accessGone_rowsAt (f := f.val) a places
  obtain ⟨⟨marks, stored⟩, -⟩ := State.storeRows_stored a.poisoned places
  obtain ⟨tsp, marks', sender⟩ := State.storeRows_frond a.poisoned places f.val
  generalize (s.accessGone f.val a).storeRows a.dst _ a.roff a.data a.poisoned = u at delivered stored sender
  have work : u.workOf f.val = s.workOf f.val := (State.workOf_of_shares (by rw [sender]; rfl) (by rw [sender])).trans (State.accessGone_workOf a f.val)
  have untasked := (rests.congr work).pump_signed a.live (rowsSum a.dst a.win a.roff a.data a.poisoned)
  refine ⟨_, (exec_remoteAccessArrival_only awake only).trans (by rw [delivered]), fun i hi b hb => ?_, ?_⟩
  · refine (congrArg (fun x : Frond => x.tspByte a.dst (512 * row i + b)) (untasked a.dst) :).trans ?_
    exact (congrArg (fun x : Frond => x.tspByte a.dst (512 * row i + b)) stored :).trans (Frond.stored_tspByte a.dst len apart hi hb)
  · refine (congrArg Frond.netOut (untasked f.val) :).trans ?_
    exact (congrArg Frond.netOut sender :).trans (State.accessGone_netOut a)

theorem remoteAccesses : Claim.RemoteAccesses := by
  refine ⟨fun s f awake sent => exec_remoteAccessArrival awake sent, ?_, ?_, fun x win gen roff rows => ⟨Frond.winCheck_stale, Frond.winCheck_range⟩⟩
  · intro s f a rest row awake sent only w good write plain on place apart rests
    have stored := exec_remoteAccessArrival_write awake only good write plain on (fun i hi => (place i hi).1) (fun i hi => (place i hi).2) apart rests
    rwa [sent, List.erase_cons_head] at stored
  · intro s f a rest awake sent only refused
    obtain ⟨-, check⟩ := s.accessGone_winCheck (f := f.val) a a.dst a.win a.roff a.rows a.gen
    rw [exec_remoteAccessArrival_only awake only, State.deliverAccess_refused check refused, State.accessGone, sent, List.erase_cons_head]

end Sys2Proof.Machine

namespace Sys2Proof
open Machine

/-- Settles O42, by where the increment's task stands to the one that runs, and by what the window of the oldest access answers. -/
theorem remoteIncrementsAndAccesses : Obligations.RemoteIncrementsAndAccesses := ⟨remoteIncrements, remoteAccesses⟩

end Sys2Proof
end

