-- ==== Sys2Proof/Proofs/CombineAccumulator.lean ====
section
/-! The accumulator of a combine window (R245, R246): the grant of the next request, and a partial added entry by entry. -/

namespace Sys2Proof.Machine

/-- What the accumulator of a window in the fast mode is once a partial has been added and the next request granted. -/
def CombineAcc.Added (a b : CombineAcc) (p : OutPartial) : Prop :=
  b.count = a.count + 1
    ∧ b.poisoned = (a.poisoned || p.poisoned)
    ∧ b.granted = a.requests.head?
    ∧ b.requests = a.requests.tail
    ∧ ∀ j < 2048, b.entries.get j {} = Entry.join a.exact (a.entries.get j {}) (p.entries.get j {})

/-- A window that has granted a request grants no other. -/
theorem nextGrant_busy {a : CombineAcc} (fixed : Bool) (senders : Nat) (busy : a.granted ≠ none) : nextGrant fixed a senders = a := by
  obtain ⟨m, granted⟩ := Option.ne_none_iff_exists'.1 busy
  simp only [nextGrant, granted]

/-- In the fast mode a window that has granted none grants the request that came first. -/
theorem nextGrant_fast {a : CombineAcc} (senders : Nat) (free : a.granted = none) :
    nextGrant false a senders = { a with granted := a.requests.head?, requests := a.requests.tail } := by
  obtain ⟨entries, exact_, poisoned, count, requests, granted, delivered, again⟩ := a
  obtain rfl : granted = none := free
  cases requests <;> rfl

/-- The accumulator once a request has arrived. -/
def CombineAcc.asked (a : CombineAcc) (sender : Nat) : CombineAcc := { a with requests := a.requests ++ [sender] }

/-- In the fast mode a request is granted at once where none is granted or waits, and waits behind the others where one is granted. -/
theorem nextGrant_asked (a : CombineAcc) (sender senders : Nat) :
    let b := nextGrant false (a.asked sender) senders
    b.count = a.count ∧ (a.granted = none → a.requests = [] → b.granted = some sender ∧ b.requests = [])
      ∧ (a.granted ≠ none → b.granted = a.granted ∧ b.requests = a.requests ++ [sender]) := by
  intro b
  by_cases free : a.granted = none
  · have granted : b = _ := nextGrant_fast (a := a.asked sender) senders free
    rw [granted]
    refine ⟨rfl, fun _ none => ?_, fun busy => absurd free busy⟩
    simp [CombineAcc.asked, none]
  · have granted : b = _ := nextGrant_busy (a := a.asked sender) false senders free
    rw [granted]
    exact ⟨rfl, fun none => absurd none free, fun _ => ⟨rfl, rfl⟩⟩

/-- In the fast mode a partial joins the accumulator entry by entry, and the grant it used is over. -/
theorem CombineAcc.add_fast (a : CombineAcc) (p : OutPartial) : a.add false p = { a with
    entries := ⟨(List.range 2048).map (fun j => (j, Entry.join a.exact (a.entries.get j {}) (p.entries.get j {})))⟩
    poisoned := a.poisoned || p.poisoned, count := a.count + 1, granted := none } := by
  simp only [CombineAcc.add, Bool.false_and, Bool.false_eq_true, if_false]

theorem CombineAcc.add_added (a : CombineAcc) (p : OutPartial) (senders : Nat) : a.Added (nextGrant false (a.add false p) senders) p := by
  have entries : (a.add false p).entries = ⟨(List.range 2048).map (fun j => (j, Entry.join a.exact (a.entries.get j {}) (p.entries.get j {})))⟩ := by
    rw [CombineAcc.add_fast]
  rw [nextGrant_fast senders (by rw [CombineAcc.add_fast])]
  refine ⟨?_, ?_, ?_, ?_, fun j hj => ?_⟩
  · rw [CombineAcc.add_fast]
  · rw [CombineAcc.add_fast]
  · rw [CombineAcc.add_fast]
  · rw [CombineAcc.add_fast]
  · rw [entries]
    exact Tbl.get_map_range (fun j => Entry.join a.exact (a.entries.get j {}) (p.entries.get j {})) {} hj

end Sys2Proof.Machine
end

