-- ==== Sys2Proof/Proofs/CombineWindows.lean ====
section
/-! Combine windows (R243 to R247): the receiver's grants in order of arrival, and the partial of the granted sender, added entry by entry. -/

namespace Sys2Proof.Machine

variable {s : State} {f g : Nat} {live : Bool}

/-! ### COMBINE_REQUEST (R245) -/

/-- The request for partial p of a frond has arrived. -/
def Frond.asked (x : Frond) (p : OutPartial) : Frond := { x with partials := x.partials.map (fun q => if q = p then { q with requested := true } else q) }

/-- The accumulator of window w is a. -/
def Frond.setCombine (x : Frond) (w : Nat) (a : CombineAcc) : Frond := { x with combines := x.combines.set w a }

section Request

variable {recv sender : FrondId} {win : BitVec 4} {p : OutPartial} (awake : s.inert = false) (other : recv ≠ sender)
  (sent : s.partialFor recv.val win.toNat sender.val = some p)
include awake other sent

/-- A request for an open window of its generation queues behind those that came before it, and the window grants what it can. -/
theorem exec_combineRequest (fresh : p.requested = false) (isOpen : ((s.frond recv.val).windows.get win.toNat {}).isOpen = true)
    (gen : ((s.frond recv.val).windows.get win.toNat {}).gen = p.gen) :
    exec (.combineRequest recv win sender) s = .next ((s.setFrond sender.val ((s.frond sender.val).asked p)).setFrond recv.val
      ((s.frond recv.val).setCombine win.toNat (nextGrant (s.fixedOrder (s.taskOf recv.val ((s.frond recv.val).windows.get win.toNat {}).live).ctx)
        (((s.frond recv.val).combines.get win.toNat {}).asked sender.val) ((s.frond recv.val).windows.get win.toNat {}).rows.toNat))) := by
  have frond : (s.setFrond sender.val ((s.frond sender.val).asked p)).frond recv.val = s.frond recv.val :=
    State.setFrond_frond_other _ _ _ _ fun same => other (Fin.ext same)
  have task (live : Bool) : (s.setFrond sender.val ((s.frond sender.val).asked p)).taskOf recv.val live = s.taskOf recv.val live :=
    State.taskOf_of_shares (congrArg Frond.shares frond)
  have accepted : (!((s.frond recv.val).windows.get win.toNat {}).isOpen || decide (((s.frond recv.val).windows.get win.toNat {}).gen ≠ p.gen)) = false := by
    rw [isOpen, gen]
    simp
  show execCombineRequest recv win sender s = _
  unfold execCombineRequest
  rw [unlessInert_awake awake]
  simp only [sent, fresh, accepted, Bool.false_eq_true, if_false, ← Frond.asked.eq_def, frond, task]
  rfl

theorem combineRequest_grants (fresh : p.requested = false) (isOpen : ((s.frond recv.val).windows.get win.toNat {}).isOpen = true)
    (gen : ((s.frond recv.val).windows.get win.toNat {}).gen = p.gen)
    (fast : s.fixedOrder (s.taskOf recv.val ((s.frond recv.val).windows.get win.toNat {}).live).ctx = false) :
    let a := (s.frond recv.val).combines.get win.toNat {}
    Ends (.combineRequest recv win sender) s (fun t => let b := (t.frond recv.val).combines.get win.toNat {}
      b.count = a.count ∧ (a.granted = none → a.requests = [] → b.granted = some sender.val ∧ b.requests = [])
        ∧ (a.granted ≠ none → b.granted = a.granted ∧ b.requests = a.requests ++ [sender.val])) := by
  intro a
  refine ⟨_, exec_combineRequest awake other sent fresh isOpen gen, ?_⟩
  dsimp only
  rw [fast, State.setFrond_frond, Frond.setCombine, Tbl.get_set_same]
  exact nextGrant_asked a sender.val _

end Request

/-! ### COMBINE_PARTIAL_ARRIVAL (R246) -/

/-- A tile whose LAST pass has not completed does not take up its combine window. -/
theorem State.deliverCombine_waits {i w : Nat} (tile : ((s.frond f).tile i).combine = some w) (runs : ((s.frond f).tile i).lastDone = false) :
    s.deliverCombine f i = s := by
  unfold State.deliverCombine
  simp only [tile, runs, Bool.false_and, Bool.false_eq_true, if_false]

/-- The tiles of a frond that wait for combine window w take it up if they can. -/
def State.deliverWindow (s : State) (f w : Nat) : State :=
  (List.range 8).foldl (fun s i => if ((s.frond f).tile i).combine = some w then s.deliverCombine f i else s) s

theorem State.deliverWindow_waits {w : Nat} (runs : ∀ i < 8, ((s.frond f).tile i).combine = some w → ((s.frond f).tile i).lastDone = false) :
    s.deliverWindow f w = s := by
  refine List.foldlRecOn (motive := fun t : State => t = s) _ _ rfl fun t same i hi => ?_
  subst same
  split
  · next waits => exact State.deliverCombine_waits waits (runs i (List.mem_range.1 hi) waits)
  · rfl

/-- The frond with accumulator a in window w, which counts the partials that have arrived. -/
def Frond.combined (x : Frond) (w : Nat) (a : CombineAcc) : Frond :=
  { x with combines := x.combines.set w a, windows := x.windows.set w { x.windows.get w {} with arrived := BitVec.ofNat 4 a.count } }

/-- A partial of frond g that is not held leaves it, and its tile is FREE. -/
def Frond.partialGone (x : Frond) (p : OutPartial) : Frond := { x with partials := x.partials.filter (fun q => decide (q ≠ p)) }.setTile p.tile {}

theorem State.dropPartial_sent {p : OutPartial} (sent : p.held = false) : s.dropPartial g p = s.setFrond g ((s.frond g).partialGone p) := by
  simp only [State.dropPartial, sent, Bool.false_eq_true, if_false, Frond.partialGone]

/-- Partial p of frond g has been added into window w of frond f, whose accumulator is now a. -/
def State.partialAdded (s : State) (f w g : Nat) (p : OutPartial) (a : CombineAcc) : State :=
  ((s.setFrond f ((s.frond f).combined w a)).sign g p.live (partialSum f w p)).dropPartial g p

theorem State.sign_frond_other (sum : W64) (other : f ≠ g) : (s.sign g live sum).frond f = s.frond f := by
  unfold State.sign
  split
  · exact State.modTask_frond_other _ other
  · rfl

section Added

variable {w : Nat} {p : OutPartial} {a : CombineAcc} (sent : p.held = false)
include sent

theorem State.partialAdded_receiver (other : f ≠ g) : (s.partialAdded f w g p a).frond f = (s.frond f).combined w a := by
  rw [State.partialAdded, State.dropPartial_sent sent, State.setFrond_frond_other (h := other), State.sign_frond_other _ other, State.setFrond_frond]

theorem State.partialAdded_tile : ((s.partialAdded f w g p a).frond g).tile p.tile = {} := by
  rw [State.partialAdded, State.dropPartial_sent sent, State.setFrond_frond]
  exact Tbl.get_set_same _ _ _ _

theorem State.partialAdded_workOf (k : Nat) : (s.partialAdded f w g p a).workOf k = s.workOf k := by
  have combined : (s.setFrond f ((s.frond f).combined w a)).workOf k = s.workOf k := State.workOf_setFrond (by rfl) (by rfl) k
  rw [State.partialAdded, State.dropPartial_sent sent]
  exact (State.workOf_setFrond (by rfl) (by rfl) k).trans ((State.sign_workOf _ k).trans combined)

end Added

section Arrival

variable {recv sender : FrondId} {win : BitVec 4} {p : OutPartial} (awake : s.inert = false)
  (sent : s.partialFor recv.val win.toNat sender.val = some p)
include awake sent

/-- A partial that was not granted, or whose sender runs its step again, does not arrive. -/
theorem exec_combinePartialArrival_refused (refused : ((s.frond recv.val).combines.get win.toNat {}).granted ≠ some sender.val ∨ p.held = true) :
    exec (.combinePartialArrival recv win sender) s = .next s := by
  have refused : (decide (((s.frond recv.val).combines.get win.toNat {}).granted ≠ some sender.val) || p.held) = true := by
    simpa only [Bool.or_eq_true, decide_eq_true_eq] using refused
  show execCombinePartialArrival recv win sender s = _
  unfold execCombinePartialArrival
  rw [unlessInert_awake awake]
  simp only [sent, refused, if_true]

theorem exec_combinePartialArrival (granted : ((s.frond recv.val).combines.get win.toNat {}).granted = some sender.val) (sending : p.held = false)
    (fast : s.fixedOrder (s.taskOf recv.val ((s.frond recv.val).windows.get win.toNat {}).live).ctx = false) :
    exec (.combinePartialArrival recv win sender) s = .next (((((s.partialAdded recv.val win.toNat sender.val p
      (nextGrant false (((s.frond recv.val).combines.get win.toNat {}).add false p) ((s.frond recv.val).windows.get win.toNat {}).rows.toNat)).deliverWindow
        recv.val win.toNat).pump sender.val).pump recv.val)) := by
  have taken : (decide (((s.frond recv.val).combines.get win.toNat {}).granted ≠ some sender.val) || p.held) = false := by
    rw [granted, sending]
    simp
  show execCombinePartialArrival recv win sender s = _
  unfold execCombinePartialArrival
  rw [unlessInert_awake awake]
  simp only [sent, taken, fast, Bool.false_eq_true, if_false]
  rfl

end Arrival

/-! ### The claim -/

theorem combineWindows : Claim.CombineWindows := by
  intro s recv sender win p awake other sent w v a fixed
  have ne : recv.val ≠ sender.val := fun same => other (Fin.ext same)
  refine ⟨fun fresh isOpen gen fast => combineRequest_grants awake other sent fresh isOpen gen fast,
    fun refused => exec_combinePartialArrival_refused awake sent refused, fun granted sending runs recvRests senderRests fast => ?_⟩
  let u := s.partialAdded recv.val w sender.val p (nextGrant false (a.add false p) v.rows.toNat)
  have receiver : u.frond recv.val = _ := State.partialAdded_receiver sending ne
  have waits : u.deliverWindow recv.val w = u := State.deliverWindow_waits fun i hi => by
    rw [receiver]
    exact runs i hi
  have times : u.OnlyTimes (u.pump sender.val) := (senderRests.congr (State.partialAdded_workOf sending _)).pump
  have times : u.OnlyTimes ((u.pump sender.val).pump recv.val) :=
    times.trans (recvRests.congr ((times.workOf _).trans (State.partialAdded_workOf sending _))).pump
  obtain ⟨count, poisoned, next, requests, entries⟩ : a.Added ((u.frond recv.val).combines.get w {}) p := by
    rw [receiver, Frond.combined, Tbl.get_set_same]
    exact a.add_added p v.rows.toNat
  have kept : (((u.pump sender.val).pump recv.val).frond recv.val).combines = (u.frond recv.val).combines :=
    (congrArg Frond.combines (times.untasked recv.val) :)
  refine ⟨_, (exec_combinePartialArrival awake sent granted sending fast).trans (by rw [waits]), ?_⟩
  dsimp only
  rw [kept]
  refine ⟨count, poisoned, next, requests, entries, ?_, sent⟩
  exact (congrArg (fun x : Frond => x.tile p.tile) (times.untasked sender.val) :).trans (State.partialAdded_tile sending)

end Sys2Proof.Machine
end

