-- ==== Sys2Proof/Proofs/MulticastCredits.lean ====
section
/-! Multicast credits and evictions (R252, R253): a returned credit, and the member that withholds credit from the task whose rows the group carries. -/

namespace Sys2Proof.Machine

variable {s : State} {group : Byte} {m : FrondId}

/-- Where no frond has a transfer, none goes on. -/
theorem State.pumpGroup_idle (idle : ∀ f : FrondId, (s.frond f.val).dma = []) (g : Nat) : s.pumpGroup g = s := by
  refine List.foldlRecOn (motive := fun t : State => t = s) _ _ rfl fun t same f hf => ?_
  subst same
  rw [idle ⟨f, List.mem_range.1 hf⟩]
  rfl

theorem exec_mcastCreditReturn (awake : s.inert = false) :
    (0 < (s.group group.toNat).due.get m.val 0 → exec (.mcastCreditReturn group m) s =
      .next ((s.setGroup group.toNat { s.group group.toNat with
        due := (s.group group.toNat).due.modify m.val 0 (· - 1), spent := (s.group group.toNat).spent.modify m.val 0 (· - 1) }).pumpGroup group.toNat))
    ∧ ((s.group group.toNat).due.get m.val 0 = 0 → exec (.mcastCreditReturn group m) s = .next s) := by
  show (_ → execMcastCreditReturn group m s = _) ∧ (_ → execMcastCreditReturn group m s = _)
  unfold execMcastCreditReturn
  rw [unlessInert_awake awake]
  refine ⟨fun due => ?_, fun none => ?_⟩
  · dsimp only
    rw [if_pos due]
  · dsimp only
    rw [none, if_neg (Nat.lt_irrefl 0)]

/-- The rows on their way to an evicted member hold no credit any more. -/
theorem exec_mcastEvict {n : BitVec 16} (awake : s.inert = false) (carried : s.groupTask group.toNat = some n)
    (valid : (s.group group.toNat).valid = true) (withholds : (s.group group.toNat).withholds n m.val = true) :
    exec (.mcastEvict group m) s = .next (((s.setGroup group.toNat { s.group group.toNat with
      evicted := (n, m.val) :: (s.group group.toNat).evicted
      spent := (s.group group.toNat).spent.modify m.val 0 (· - s.rowsTo group.toNat n m.val) }).count (cntFrond m.val 12) 1).pumpGroup group.toNat) := by
  show execMcastEvict group m s = _
  unfold execMcastEvict
  rw [unlessInert_awake awake]
  simp only [carried, valid, withholds, Bool.and_self, if_true]

theorem exec_mcastEvict_refused (awake : s.inert = false) (refused : (s.group group.toNat).valid = false
    ∨ ∀ n, s.groupTask group.toNat = some n → (s.group group.toNat).withholds n m.val = false) : exec (.mcastEvict group m) s = .next s := by
  show execMcastEvict group m s = _
  unfold execMcastEvict
  rw [unlessInert_awake awake]
  cases carried : s.groupTask group.toNat with
  | none => rfl
  | some n =>
    have kept : ((s.group group.toNat).valid && (s.group group.toNat).withholds n m.val) = false := by
      rcases refused with invalid | gives
      · rw [invalid, Bool.false_and]
      · rw [gives n carried, Bool.and_false]
    simp only [kept, Bool.false_eq_true, if_false]

theorem multicastCredits : Claim.MulticastCredits := by
  intro s group m awake
  dsimp only
  obtain ⟨returns, none⟩ := exec_mcastCreditReturn (group := group) (m := m) awake
  refine ⟨fun due => ⟨returns due, fun idle => ?_⟩, none, ?_, ?_⟩
  · rw [returns due, State.pumpGroup_idle]
    exact idle
  · intro n carried valid withholds
    exact exec_mcastEvict awake carried valid withholds
  · exact exec_mcastEvict_refused awake

end Sys2Proof.Machine
end

