-- ==== Sys2Proof/Proofs/RhizomeChunks.lean ====
section
/-! Rhizome chunks (R254 to R256, R266): where the chunk that enters a frond's chain input comes from. -/

namespace Sys2Proof.Machine

variable {s : State} {f : FrondId} {c : Chunk}

/-- A chunk enters an empty chain input alone. -/
theorem State.enterChain_empty {f : Nat} (empty : (s.frond f).chain = []) (c : Chunk) :
    s.enterChain f c = s.setFrond f { s.frond f with chain := [{ c with taken := false }] } := by
  unfold State.enterChain
  dsimp only
  rw [empty, List.nil_append]

/-- A chunk that a frond takes from the one before it has been taken there. -/
theorem State.chunkFor_taken {f g : Nat} (found : s.chunkFor f = some (g, c)) : c.taken = true ∧ s.chainPrev f = some g := by
  unfold State.chunkFor at found
  cases prev : s.chainPrev f with
  | none => rw [prev] at found; contradiction
  | some k =>
    rw [prev] at found
    dsimp only at found
    split at found
    · split at found
      · next room =>
        obtain ⟨rfl, rfl⟩ := Prod.mk.inj (Option.some.inj found)
        simp only [Bool.and_eq_true] at room
        exact ⟨room.1.1, rfl⟩
      · contradiction
    · contradiction

/-- A chunk that a transfer injects has not been taken, and holds what the walk reads. -/
theorem State.injectFor_bytes {f : Nat} {d : DmaXfer} (found : s.injectFor f = some (d, c)) :
    c.bytes = (s.walkRead d.desc.farSpace d.desc.walk d.sent 2048).1 ∧ c.taken = false := by
  obtain ⟨e, -, same⟩ := Option.map_eq_some_iff.1 found
  obtain ⟨rfl, rfl⟩ := Prod.mk.inj same
  exact ⟨rfl, rfl⟩

section Exec

variable (awake : s.inert = false)
include awake

/-- A full chain input takes no chunk. -/
theorem exec_rhizomeChunkArrival_full (full : 2 ≤ (s.frond f.val).chain.length) : exec (.rhizomeChunkArrival f) s = .next s := by
  show execRhizomeChunkArrival f s = _
  unfold execRhizomeChunkArrival
  rw [unlessInert_awake awake]
  dsimp only
  rw [if_pos full]

variable (empty : (s.frond f.val).chain = [])
include empty

/-- The chunk that came first through the positions before the frond enters, and what stands behind it goes on. -/
theorem exec_rhizomeChunkArrival_passing {rest : List Chunk} (passing : (s.frond f.val).passing = c :: rest) :
    let u := s.setFrond f.val { s.frond f.val with passing := rest, chain := [{ c with taken := false }] }
    exec (.rhizomeChunkArrival f) s = .next ((((u.chainPrev f.val).map (fun g => u.retireChunks g)).getD u).pump f.val) := by
  intro u
  have room : ¬ 2 ≤ (s.frond f.val).chain.length := by
    rw [empty]
    decide
  have enters : (s.setFrond f.val { s.frond f.val with passing := rest }).enterChain f.val c = u := by
    rw [State.enterChain_empty (by rw [State.setFrond_frond, empty]), State.setFrond_frond, State.setFrond_setFrond]
  show execRhizomeChunkArrival f s = _
  unfold execRhizomeChunkArrival
  rw [unlessInert_awake awake]
  simp only [passing, enters, if_neg room]
  cases u.chainPrev f.val <;> rfl

/-- The chunk that the frond before it has taken enters. -/
theorem exec_rhizomeChunkArrival_taken {g : FrondId} {rest : List Chunk} (none : (s.frond f.val).passing = []) (found : s.chunkFor f.val = some (g.val, c))
    (other : g ≠ f) (head : (s.frond g.val).chain = c :: rest) :
    exec (.rhizomeChunkArrival f) s = .next ((((s.setFrond g.val { s.frond g.val with chain := rest }).setFrond f.val { s.frond f.val with
      chain := [{ c with taken := false }] }).retireChunks g.val).pump f.val) := by
  have frond : (s.setFrond g.val { s.frond g.val with chain := rest }).frond f.val = s.frond f.val :=
    State.setFrond_frond_other _ _ _ _ fun same => other (Fin.ext same.symm)
  have enters := State.enterChain_empty (s := s.setFrond g.val { s.frond g.val with chain := rest }) (f := f.val) (by rw [frond, empty]) c
  rw [frond] at enters
  show execRhizomeChunkArrival f s = _
  unfold execRhizomeChunkArrival
  rw [unlessInert_awake awake]
  simp only [none, found, empty, head, List.drop_one, List.tail_cons, enters]
  rfl

/-- The chunk that its own transfer reads from HBM at the head of the run enters. -/
theorem exec_rhizomeChunkArrival_injected {d : DmaXfer} (none : (s.frond f.val).passing = []) (alone : s.chunkFor f.val = .none)
    (found : s.injectFor f.val = some (d, c)) :
    exec (.rhizomeChunkArrival f) s = .next (((s.setDma f.val d.id (fun e => { e with sent := e.sent + 2048 })).setFrond f.val
      { (s.setDma f.val d.id (fun e => { e with sent := e.sent + 2048 })).frond f.val with chain := [c] }).pump f.val) := by
  have fresh : ({ c with taken := false } : Chunk) = c := by
    rw [← (State.injectFor_bytes found).2]
  have enters := State.enterChain_empty (s := s.setDma f.val d.id (fun e => { e with sent := e.sent + 2048 })) (f := f.val)
    (by rw [State.setDma, State.setFrond_frond, empty]) c
  rw [fresh] at enters
  show execRhizomeChunkArrival f s = _
  unfold execRhizomeChunkArrival
  rw [unlessInert_awake awake]
  simp only [none, alone, found, empty, enters]
  rfl

end Exec

theorem rhizomeChunks : Claim.RhizomeChunks := by
  intro s f awake
  refine ⟨exec_rhizomeChunkArrival_full awake, fun c rest empty passing => exec_rhizomeChunkArrival_passing awake empty passing, ?_, ?_⟩
  · intro g c rest empty none found other head
    exact ⟨exec_rhizomeChunkArrival_taken awake empty none found other head, State.chunkFor_taken found⟩
  · intro d c empty none alone found
    exact ⟨exec_rhizomeChunkArrival_injected awake empty none alone found, State.injectFor_bytes found⟩

end Sys2Proof.Machine

namespace Sys2Proof
open Machine

/-- Settles O43: what each arrival finds of its window, its group or its chain input decides what it does. -/
theorem combineMulticastAndRhizome : Obligations.CombineMulticastAndRhizome := ⟨combineWindows, multicastCredits, rhizomeChunks⟩

end Sys2Proof
end

