-- ==== Sys2Proof/Proofs/TransfersMove.lean ====
section
/-! Movement of the stream movers (R261, R267, R270): what a transfer that moves, staging that begins and a page that is asked for leave alone. -/

namespace Sys2Proof.Machine

/-- What the movement of transfers leaves alone: the rings with their descriptors, records and FENCEs, the fronds and the time; and the late flags of the movers. -/
def State.unmoved (s : State) : State × (Nat → Bool) :=
  ({ hif := { sqs := s.hif.sqs, cqs := s.hif.cqs, fences := s.hif.fences }, fronds := s.fronds, inert := s.inert, dtb := s.dtb },
    fun m => (s.mover m).pageLateSeen)

variable {s t : State} {x : Xfer}

theorem State.unmoved_foldl {α : Type} (f : State → α → State) (same : ∀ s x, (f s x).unmoved = s.unmoved) (l : List α) :
    (l.foldl f s).unmoved = s.unmoved :=
  List.foldlRecOn (motive := fun t : State => t.unmoved = s.unmoved) _ _ rfl fun t h x _ => (same t x).trans h

theorem State.unmoved_setMover {m : Nat} {u : Mover} (late : u.pageLateSeen = (s.mover m).pageLateSeen) : (s.setMover m u).unmoved = s.unmoved := by
  have lates : (fun k => ((s.setMover m u).mover k).pageLateSeen) = fun k => (s.mover k).pageLateSeen := by
    funext k
    by_cases same : k = m
    · rw [same, State.setMover_mover, late]
    · rw [State.setMover_mover_other _ _ _ _ same]
  exact congrArg (Prod.mk s.unmoved.1) lates

/-! ### Counting -/

@[simp] theorem State.unmoved_msix (v : BitVec 9) : (s.msix v).unmoved = s.unmoved := by
  unfold State.msix
  split <;> rfl

@[simp] theorem State.unmoved_sampleFire (u : Nat) (v : BitVec 48) : (s.sampleFire u v).unmoved = s.unmoved := by
  have fire (t : State) (always linked : Bool) : (t.ladleFire 5 always linked).unmoved = t.unmoved := rfl
  have unit (t : State) (x : Sampler) : (t.setUnit u x).unmoved = t.unmoved := rfl
  have draw : s.draw.2.unmoved = s.unmoved := rfl
  unfold State.sampleFire
  simp only [apply_ite State.unmoved, fire, unmoved_msix, unit, draw, ite_self]

@[simp] theorem State.unmoved_count (idx n : Nat) : (s.count idx n).unmoved = s.unmoved := by
  unfold State.count
  split
  · rfl
  · exact unmoved_foldl _ (fun _ u => unmoved_foldl _ (fun _ _ => unmoved_sampleFire u _) _) _

/-! ### Bytes and pages -/

@[simp] theorem State.unmoved_poisonHbm (a n : Nat) : (s.poisonHbm a n).unmoved = s.unmoved := by
  unfold State.poisonHbm
  dsimp only
  split <;> split <;> rfl

@[simp] theorem State.unmoved_clearCovered (sp : Space) (l : List (Nat × Nat)) : (s.clearCovered sp l).unmoved = s.unmoved := by
  unfold State.clearCovered
  split <;> rfl

@[simp] theorem State.unmoved_spaceWrite (sp : Space) (a : Nat) (l : List Byte) (bad : Bool) : (s.spaceWrite sp a l bad).unmoved = s.unmoved := by
  have written : (s.hbmWrite a l).unmoved = s.unmoved := rfl
  unfold State.spaceWrite
  split
  · dsimp only
    split
    · rw [unmoved_poisonHbm, written]
    · exact written
  · split <;> rfl
  · rfl

@[simp] theorem State.unmoved_walkWrite (sp : Space) (w : Walk) (b : Nat) (l : List Byte) (bad : Bool) : (s.walkWrite sp w b l bad).unmoved = s.unmoved := by
  have written := List.foldlRecOn (motive := fun acc : State × List Byte => acc.1.unmoved = s.unmoved) (w.pieces b l.length)
    (fun acc p => (acc.1.spaceWrite sp p.1 (acc.2.take p.2) bad, acc.2.drop p.2)) (b := (s, l)) rfl fun acc h p _ => (unmoved_spaceWrite ..).trans h
  unfold State.walkWrite
  dsimp only
  split
  · exact written
  · rw [unmoved_clearCovered, written]

@[simp] theorem State.unmoved_requestPage (page : Nat) : (s.requestPage page).unmoved = s.unmoved := by
  unfold State.requestPage
  split
  · rfl
  · exact unmoved_count ..

@[simp] theorem State.unmoved_askPages : s.askPages.unmoved = s.unmoved :=
  unmoved_foldl _ (fun _ page => unmoved_requestPage page) _

/-! ### Transfers -/

@[simp] theorem State.unmoved_xferUnits (x : Xfer) (n : Nat) : (s.xferUnits x n).unmoved = s.unmoved := by
  unfold State.xferUnits
  rw [unmoved_clearCovered]
  exact List.foldlRecOn (motive := fun acc : State × List (Nat × Nat) => acc.1.unmoved = s.unmoved) _ _ rfl
    fun acc h i _ => (unmoved_walkWrite ..).trans h

@[simp] theorem State.unmoved_xferMove (x : Xfer) : (s.xferMove x).1.unmoved = s.unmoved := by
  unfold State.xferMove
  dsimp only
  split
  · exact unmoved_xferUnits ..
  · simp only [apply_ite State.unmoved, unmoved_count, unmoved_requestPage, unmoved_xferUnits, ite_self]

@[simp] theorem State.unmoved_lineEnded (n bind : Nat) (frame : W32) (dropped : Bool) : (s.lineEnded n bind frame dropped).unmoved = s.unmoved := by
  unfold State.lineEnded
  dsimp only
  split
  · rw [unmoved_count]
    rfl
  · rfl

@[simp] theorem State.unmoved_xferStands (m : Nat) (x : Xfer) : (s.xferStands m x).unmoved = s.unmoved := by
  unfold State.xferStands
  split
  · split
    · exact unmoved_lineEnded ..
    · exact unmoved_setMover rfl
  · exact unmoved_setMover rfl

@[simp] theorem State.unmoved_moverFill (fuel m : Nat) : (State.moverFill fuel s m).unmoved = s.unmoved := by
  induction fuel generalizing s with
  | zero => rfl
  | succ fuel ih =>
    unfold State.moverFill
    dsimp only
    split
    · rfl
    · split
      · rfl
      · rw [ih, unmoved_xferStands, unmoved_xferMove]
        exact unmoved_setMover rfl

@[simp] theorem State.unmoved_post (x : Xfer) : (s.post x).unmoved = s.unmoved := by
  have numbered (t : State) (n : Nat) : ({ t with nextXfer := n } : State).unmoved = t.unmoved := rfl
  unfold State.post
  split
  · rfl
  · rw [unmoved_moverFill, numbered]
    exact unmoved_setMover rfl

/-! ### Staging -/

@[simp] theorem State.unmoved_stageFrame (c : Nat) (j : FrameJob) : (s.stageFrame c j).unmoved = s.unmoved := by
  unfold State.stageFrame
  split
  · exact unmoved_foldl _ (fun _ _ => unmoved_post _) _
  · rfl

@[simp] theorem State.unmoved_stageDue (c : Nat) : (s.stageDue c).unmoved = s.unmoved := by
  refine unmoved_foldl _ (fun t j => ?_) _
  split
  · rfl
  · split
    · exact unmoved_stageFrame ..
    · rfl

@[simp] theorem State.unmoved_stageAll : s.stageAll.unmoved = s.unmoved := by
  refine (unmoved_foldl _ (fun t m => ?_) _).trans (unmoved_foldl _ (fun _ c => unmoved_stageDue c) _)
  split
  · rfl
  · exact unmoved_moverFill ..

/-! ### What two states share that movement alone sets apart -/

theorem State.sq_of_unmoved (h : t.unmoved = s.unmoved) (r : Nat) : t.sq r = s.sq r := congrArg (fun u => u.1.sq r) h
theorem State.cq_of_unmoved (h : t.unmoved = s.unmoved) (q : Nat) : t.cq q = s.cq q := congrArg (fun u => u.1.cq q) h
theorem State.fences_of_unmoved (h : t.unmoved = s.unmoved) : t.hif.fences = s.hif.fences := congrArg (fun u => u.1.hif.fences) h
theorem State.inert_of_unmoved (h : t.unmoved = s.unmoved) : t.inert = s.inert := congrArg (fun u => u.1.inert) h
theorem State.dtb_of_unmoved (h : t.unmoved = s.unmoved) : t.dtb = s.dtb := congrArg (fun u => u.1.dtb) h
theorem State.late_of_unmoved (h : t.unmoved = s.unmoved) (m : Nat) : (t.mover m).pageLateSeen = (s.mover m).pageLateSeen := congrFun (congrArg Prod.snd h) m
theorem State.frondWaiters_of_unmoved (h : t.unmoved = s.unmoved) (page : Nat) : t.frondWaiters page = s.frondWaiters page :=
  congrArg (fun u => u.1.frondWaiters page) h

section Descriptor

variable {h : DescHdr} {slot : Nat}

/-- Being alone on a ring is no matter of movement. -/
theorem State.Sole.of_unmoved (H : s.Sole h slot) (same : t.unmoved = s.unmoved) : t.Sole h slot := by
  have hsq := State.sq_of_unmoved same h.sq.val
  exact ⟨(State.inert_of_unmoved same).trans H.awake, by rw [hsq]; exact H.alone, by rw [hsq]; exact H.running,
    (State.fences_of_unmoved same).trans H.fences, by rw [hsq, State.cq_of_unmoved same]; exact H.free⟩

/-- A descriptor that was reported somewhere between movements has reported between the states around them. -/
theorem State.Reports.of_unmoved {u : State} {op : Byte} {status : BitVec 16} (before : u.unmoved = s.unmoved)
    (after : t.unmoved = (u.reported h slot op status 0 0 0 0).unmoved) : s.Reports t h slot op status := by
  have hsq : u.sq h.sq.val = s.sq h.sq.val := State.sq_of_unmoved before _
  refine ⟨0, 0, 0, ?_, ?_⟩
  · rw [State.cq_of_unmoved after, State.reported, hsq, State.cq_setCq, State.cq_of_unmoved before, State.dtb_of_unmoved before]
  · rw [State.sq_of_unmoved after, State.reported, State.sq_setCq, State.sq_setSq]

/-- Nor does a write to a mover show in what is reported. -/
theorem State.setMover_reports {m : Nat} {u : Mover} {op : Byte} {status : BitVec 16} :
    (s.setMover m u).Reports t h slot op status ↔ s.Reports t h slot op status := Iff.rfl

end Descriptor

/-! ### A COPY that leaves its mover (R267) -/

/-- Transfer x has left mover m, which has taken what came next. -/
def State.withdrawn (s : State) (m : Nat) (x : Xfer) : State :=
  State.moverFill 64 (s.setMover m { s.mover m with
    pending := (s.mover m).pending.filter (fun y => decide (y.id ≠ x.id))
    outstanding := (s.mover m).outstanding.filter (fun y => decide (y.id ≠ x.id)) }) m

theorem State.dropXfer_eq (m : Nat) (x : Xfer) (status : BitVec 16) : s.dropXfer m x status = ((s.withdrawn m x).xferEnded x status).stageAll := rfl

@[simp] theorem State.unmoved_withdrawn (m : Nat) (x : Xfer) : (s.withdrawn m x).unmoved = s.unmoved := by
  rw [State.withdrawn, unmoved_moverFill]
  exact unmoved_setMover rfl

section Copy

variable {h : DescHdr} {slot m : Nat} {status : BitVec 16} (H : s.Sole h slot) (copy : x.kind = .copy h) (status_ne : status ≠ stAdmitDenied)
include H copy status_ne

/-- The rings and fronds are then as the report of its descriptor leaves them. -/
theorem State.dropXfer_copy : ∃ u : State, u.unmoved = s.unmoved ∧ (s.dropXfer m x status).unmoved = (u.reported h slot opCopy status 0 0 0 0).unmoved := by
  refine ⟨s.withdrawn m x, State.unmoved_withdrawn m x, ?_⟩
  rw [State.dropXfer_eq, State.unmoved_stageAll, State.xferEnded, copy]
  exact congrArg State.unmoved ((H.of_unmoved (State.unmoved_withdrawn m x)).complete opCopy status_ne 0 0 0 0)

theorem State.dropXfer_reports : s.Reports (s.dropXfer m x status) h slot opCopy status := by
  obtain ⟨u, before, after⟩ := State.dropXfer_copy (m := m) H copy status_ne
  exact State.Reports.of_unmoved before after

theorem State.dropXfer_late (k : Nat) : ((s.dropXfer m x status).mover k).pageLateSeen = (s.mover k).pageLateSeen := by
  obtain ⟨u, before, after⟩ := State.dropXfer_copy (m := m) H copy status_ne
  exact (State.late_of_unmoved after k).trans (State.late_of_unmoved before k)

theorem State.dropXfer_frondWaiters (page : Nat) : (s.dropXfer m x status).frondWaiters page = s.frondWaiters page := by
  obtain ⟨u, before, after⟩ := State.dropXfer_copy (m := m) H copy status_ne
  exact (State.frondWaiters_of_unmoved after page).trans (State.frondWaiters_of_unmoved before page)

end Copy

end Sys2Proof.Machine
end

