-- ==== Sys2Proof/Proofs/CopiesAndPages.lean ====
section
/-! COPY and the pages that transfers wait for (R261, R267, R270 to R273). -/

namespace Sys2Proof.Machine

variable {s : State} {h : DescHdr} {slot : Nat} {x : Xfer}

/-! ### COPY (R261, R267) -/

/-- The movement of a delivered transfer is over: it leaves its mover. -/
theorem exec_streamMoverTransferDone {m : Fin 32} {xfer : Nat} (awake : s.inert = false)
    (found : (s.mover m.val).outstanding.find? (fun y => decide (y.id = xfer)) = some x) (delivered : x.done = x.total) :
    exec (.streamMoverTransferDone m xfer) s = .next (s.dropXfer m.val x stOk) := by
  show execStreamMoverTransferDone m xfer s = _
  unfold execStreamMoverTransferDone
  rw [unlessInert_awake awake]
  simp only [found, delivered, if_true]

theorem copyMoves : Claim.CopyMoves := by
  refine ⟨?_, ?_⟩
  · intro s h slot srcSpace dstSpace src dst H c v sp dp run room first free srcOk dstOk whole same srcServed dstServed isOpen ours srcReached dstReached
    have may : (decide (s.moverRoom = 0) || s.copyAhead h || s.workAhead h) = false := by
      simp only [room, first, free, decide_false, Bool.or_self]
    have whole : dst.total % 512 = 0 := same ▸ whole
    have formed : (!src.ok || !dst.ok || decide (src.total % 512 ≠ 0) || decide (src.total ≠ dst.total) || !v.sideServed sp src || !v.sideServed dp dst) = false := by
      simp only [srcOk, dstOk, whole, same, srcServed, dstServed, ne_eq, not_true_eq_false, decide_false, Bool.not_true, Bool.or_self]
    have here : ¬(sp ≠ .hbm ∧ dp ≠ .hbm) := fun away => ours.elim away.1 away.2
    show execCopy h srcSpace dstSpace src dst s = _
    unfold execCopy
    rw [may, if_neg Bool.false_ne_true, H.runs]
    dsimp only
    rw [if_neg (by rw [formed]; exact Bool.false_ne_true), if_neg isOpen, if_neg here, if_neg (not_not.2 srcReached), if_neg (not_not.2 dstReached)]
  · intro s h slot m xfer x H found copy delivered
    exact ⟨_, exec_streamMoverTransferDone H.awake found delivered, State.dropXfer_reports H copy (by decide)⟩

/-! ### Late pages (R273) -/

theorem exec_pageLate {m : Fin 32} {xfer : Nat} {now : W64} (awake : s.inert = false)
    (found : (s.mover m.val).outstanding.find? (fun y => decide (y.id = xfer)) = some x) (live : x.live = true) (waits : x.page ≠ none)
    (late : deadlineLe (deadlineOf (s.at_ now).dtb) x.deadline = false) :
    exec (.pageLate m xfer now) s =
      .next (((s.at_ now).setMover m.val { (s.at_ now).mover m.val with pageLateSeen := true }).dropXfer m.val x stPageLate) := by
  have found : ((s.at_ now).mover m.val).outstanding.find? (fun y => decide (y.id = xfer)) = some x := by
    rw [State.mover, State.at_movers]
    exact found
  have due : (x.live && x.page.isSome && !deadlineLe (deadlineOf (s.at_ now).dtb) x.deadline) = true := by
    rw [live, late, Option.isSome_iff_ne_none.2 waits]
    rfl
  show execPageLate m xfer now s = _
  unfold execPageLate
  rw [unlessInert_awake awake]
  simp only [found, due, if_true]

theorem pageLateCancels : Claim.PageLateCancels := by
  intro s h slot m xfer now x H found copy live waits late
  let u := (s.at_ now).setMover m.val { (s.at_ now).mover m.val with pageLateSeen := true }
  have U : u.Sole h slot := H.of_hif (s.at_hif now) (s.at_inert now)
  have status : stPageLate ≠ stAdmitDenied := by decide
  refine ⟨_, exec_pageLate H.awake found live waits late, ?_, State.setMover_reports.1 (State.dropXfer_reports U copy status)⟩
  rw [State.dropXfer_late U copy status, State.setMover_mover]

/-! ### Pages that come and go (R270, R272) -/

theorem contains_filter_ne {p q : Nat} (other : p ≠ q) (l : List Nat) : (l.filter (fun k => decide (k ≠ q))).contains p = l.contains p := by
  rw [Bool.eq_iff_iff]
  simp [other]

theorem contains_insertNat_other {p q : Nat} (other : p ≠ q) (l : List Nat) : (insertNat q l).contains p = l.contains p := by
  induction l with
  | nil => simp [insertNat, other]
  | cons a l ih =>
    unfold insertNat
    split
    · rw [List.contains_cons, beq_false_of_ne other, Bool.false_or]
    · split
      · rfl
      · rw [List.contains_cons, List.contains_cons, ih]

/-- A page's new translation is no matter of another page. -/
theorem State.translate_other {p page : Nat} (other : p ≠ page) (answer : W64) :
    (s.translate page answer).absent.contains p = s.absent.contains p ∧ (s.translate page answer).readOnly.contains p = s.readOnly.contains p := by
  unfold State.translate
  constructor <;> dsimp only <;> split
  · exact contains_insertNat_other other _
  · exact contains_filter_ne other _
  · exact contains_insertNat_other other _
  · exact contains_filter_ne other _

theorem exec_atsInvalidation {page : BitVec 52} (awake : s.inert = false) :
    exec (.atsInvalidation page) s = .next (State.translate { s.draw.2 with invalDone := s.draw.2.invalDone + 1 } page.toNat s.draw.1) := by
  show execAtsInvalidation page s = _
  exact unlessInert_awake awake _

/-- With nothing waiting for it, a page that is present again changes the translations and the requests alone. -/
theorem State.pagePresent_idle {page : Nat} (movers : s.pageWaiters page = []) (fronds : s.frondWaiters page = []) :
    s.pagePresent page = State.askPages { s with
      absent := s.absent.filter (fun p => decide (p ≠ page)), readOnly := s.readOnly.filter (fun p => decide (p ≠ page))
      pageReqs := s.pageReqs.filter (fun p => decide (p ≠ page)) } := by
  let u : State := { s with
    absent := s.absent.filter (fun p => decide (p ≠ page)), readOnly := s.readOnly.filter (fun p => decide (p ≠ page))
    pageReqs := s.pageReqs.filter (fun p => decide (p ≠ page)) }
  have movers : u.pageWaiters page = [] := movers
  have fronds : u.frondWaiters page = [] := fronds
  unfold State.pagePresent
  dsimp only
  rw [movers, List.foldl_nil, fronds, List.foldl_nil]

/-- A COPY that alone waited for a page ends with the request. -/
theorem State.pageDenied_reports {page m : Nat} (H : s.Sole h slot) (movers : s.pageWaiters page = [(m, x)]) (fronds : s.frondWaiters page = [])
    (copy : x.kind = .copy h) : s.Reports (s.pageDenied page) h slot opCopy stPriDenied := by
  let u : State := { s with pageReqs := s.pageReqs.filter (fun p => decide (p ≠ page)) }
  have U : u.Sole h slot := H.of_hif rfl rfl
  have status : stPriDenied ≠ stAdmitDenied := by decide
  have movers : u.pageWaiters page = [(m, x)] := movers
  have fronds : (u.dropXfer m x stPriDenied).frondWaiters page = [] := (State.dropXfer_frondWaiters U copy status page).trans fronds
  obtain ⟨v, before, after⟩ := State.dropXfer_copy (m := m) U copy status
  have denied : s.pageDenied page = (u.dropXfer m x stPriDenied).askPages := by
    unfold State.pageDenied
    dsimp only
    rw [movers, List.foldl_cons, List.foldl_nil, fronds, List.foldl_nil]
  rw [denied]
  exact State.Reports.of_unmoved before (State.unmoved_askPages.trans after)

section Answer

variable {page : BitVec 52} (awake : s.inert = false) (asked : s.pageReqs.contains page.toNat = true)
include awake asked

theorem exec_pageResponse_success : exec (.pageResponse page .success) s = .next (s.pagePresent page.toNat) := by
  show execPageResponse page .success s = _
  unfold execPageResponse
  rw [unlessInert_awake awake]
  simp only [asked, if_true]

theorem exec_pageResponse_failed {result : PageResult} (failed : result ≠ .success) :
    exec (.pageResponse page result) s = .next (s.pageDenied page.toNat) := by
  show execPageResponse page result s = _
  unfold execPageResponse
  rw [unlessInert_awake awake]
  simp only [asked, if_true]

theorem exec_priTimeout : exec (.priTimeout page) s = .next (s.pageDenied page.toNat) := by
  show execPriTimeout page s = _
  unfold execPriTimeout
  rw [unlessInert_awake awake]
  simp only [asked, if_true]

end Answer

theorem pagesAnswered : Claim.PagesAnswered := by
  intro s page awake
  refine ⟨⟨_, exec_atsInvalidation awake, rfl, rfl, rfl, rfl, fun p other => State.translate_other other _⟩, ?_, ?_⟩
  · intro asked movers fronds
    rw [exec_pageResponse_success awake asked, State.pagePresent_idle movers fronds]
  · intro h slot m x H asked movers fronds copy
    have denied := State.pageDenied_reports H movers fronds copy
    exact ⟨⟨_, exec_pageResponse_failed awake asked (by decide), denied⟩, ⟨_, exec_pageResponse_failed awake asked (by decide), denied⟩,
      ⟨_, exec_priTimeout awake asked, denied⟩⟩

end Sys2Proof.Machine

namespace Sys2Proof
open Machine

/-- Settles O18: a COPY that leaves its mover is reported, whatever the other transfers move meanwhile. -/
theorem copiesAndPages : Obligations.CopiesAndPages := ⟨copyMoves, pageLateCancels, pagesAnswered⟩

end Sys2Proof
end

