-- ==== Sys2Proof/Proofs/LayersAndWritebacks.lean ====
section
/-! LAYER_SET fills a shadow; WRITEBACK_SET waits for a commit point, or binds at once (R291, R292, R313, Table 14.5). -/

namespace Sys2Proof.Machine

variable {s : State} {h : DescHdr} {slot n : Nat}

theorem State.setComp_setComp (x y : Comp) : (s.setComp n x).setComp n y = s.setComp n y := by
  unfold State.setComp
  simp only [Tbl.set_set]

theorem State.Sole.setComp (H : s.Sole h slot) (n : Nat) (x : Comp) : (s.setComp n x).Sole h slot := H.of_hif rfl rfl

/-! ### LAYER_SET (R291, R292) -/

/-- The tables of a record that passes are none that BAR4 withholds, so the checks before the last leave only the host's pages to ask for. -/
theorem layerSetShadows : Claim.LayerSetShadows := by
  intro s h slot output k host record H n v l isSlot served present good table
  have clear : (!host && v.guarded record.toNat 256) = false := by
    cases host
    · exact served rfl
    · rfl
  have recordHere : (host && (v.absentIn record.toNat 256).isSome) = false := by
    cases host
    · rfl
    · exact Option.isSome_eq_false_iff.2 (Option.isNone_iff_eq_none.2 (present rfl))
  have tableHere : (host && (v.absentIn (tableAddr k.toNat l) (tableBytes k.toNat l)).isSome) = false := by
    cases host
    · rfl
    · exact Option.isSome_eq_false_iff.2 (Option.isNone_iff_eq_none.2 (table rfl))
  have good : (!v.recordOk n k.toNat host l) = false := by rw [good]; rfl
  show execLayerSet h output k host record s = _
  unfold execLayerSet
  rw [H.runs]
  refine congrArg Host.Outcome.next ((if_neg (ne_true_of_eq_false clear)).trans ((if_neg (Nat.not_le.2 isSlot)).trans
    ((if_neg (ne_true_of_eq_false recordHere)).trans ((if_neg (ne_true_of_eq_false good)).trans ((if_neg (ne_true_of_eq_false tableHere)).trans ?_)))))
  exact (H.started.setComp n _).complete opLayerSet (by decide) 0 0 0 0

/-! ### WRITEBACK_SET (Table 14.5) -/

/-- A binding that alone waits on its output takes effect, and its descriptor completes. -/
theorem State.bindDue_last {l : List Writeback} {w : Writeback} (all : (s.comp n).writebacks = l ++ [w]) (bound : ∀ q ∈ l, q.since ≠ none)
    (waits : w.since = none) (asked : w.hdr = some h) (m : W32) : s.bindDue n m =
      (s.setComp n { s.comp n with writebacks := bindWriteback (l ++ [w]) w m }).complete h opWritebackSet stOk := by
  have due : (l ++ [w]).filter (fun w => w.since.isNone) = [w] := by
    rw [List.filter_append, List.filter_eq_nil_iff.2 fun q hq unbound => bound q hq (Option.isNone_iff_eq_none.1 unbound), List.nil_append]
    exact List.filter_cons_of_pos (Option.isNone_iff_eq_none.2 waits)
  unfold State.bindDue
  rw [all, due, List.foldl_cons, List.foldl_nil]
  simp only [asked, all]

theorem writebackSetBinds : Claim.WritebackSetBinds := by
  intro s h slot b H n v t l w u slotOk served isOpen
  have formed : (b.point.val = 2 && decide (20 ≤ b.slot.toNat) || !b.host && decide (b.buffers.val ≠ 0)
      && v.guarded b.base.toNat (writebackSpan b t.hAct.toNat t.vAct.toNat)) = false := by
    rw [Bool.or_eq_false_iff]
    constructor
    · rw [Bool.and_eq_false_imp]
      exact fun two => decide_eq_false (Nat.not_le.2 (slotOk (of_decide_eq_true two)))
    · rcases served with host | single | clear
      · rw [host]; rfl
      · rw [single]; simp
      · rw [clear, Bool.and_false]
  let pending := u.setComp n { v.comp n with writebacks := l ++ [w] }
  have run : exec (.writebackSet h b) s = .next (if v.tgOn n then pending else pending.bindDue n ((pending.comp n).frame + 1)) := by
    show execWritebackSet h b s = _
    unfold execWritebackSet
    rw [H.runs]
    exact congrArg Host.Outcome.next ((if_neg (ne_true_of_eq_false formed)).trans ((if_neg isOpen).trans rfl))
  refine ⟨fun on => by rw [run, if_pos on], fun off bound => ?_⟩
  rw [run, if_neg (ne_true_of_eq_false off), State.bindDue_last (l := l) (w := w) (congrArg Comp.writebacks (State.setComp_comp ..)) bound rfl rfl]
  have U : u.Sole h slot := H.started.of_hif rfl rfl
  rw [State.setComp_setComp, State.setComp_comp]
  exact congrArg Host.Outcome.next ((U.setComp n _).complete opWritebackSet (by decide) 0 0 0 0)

end Sys2Proof.Machine

namespace Sys2Proof
open Machine

/-- Settles O15: LAYER_SET runs past its checks; a binding waits where its generator runs, and is the only one due where it does not. -/
theorem layerAndWriteback : Obligations.LayerAndWriteback := ⟨layerSetShadows, writebackSetBinds⟩

end Sys2Proof
end

