-- ==== Sys2Proof/Proofs/CommitSnapshots.lean ====
section
/-! COMMIT: its snapshots wait behind those pending, or apply at once where no generator runs (R310, R311). -/

namespace Sys2Proof.Machine

variable {s t : State} {h : DescHdr} {slot n first : Nat} {named : W32} {applyAt : Option W32} {late : Bool}

/-! ### What the start of a descriptor leaves alone -/

section Start

variable (H : s.Sole h slot)
include H

theorem State.Sole.start_comp (n : Nat) : (s.start h).comp n = s.comp n := by
  obtain ⟨x, -, -, -, -, e⟩ := H.start
  exact congrArg (fun u => u.comp n) e

theorem State.Sole.start_tgOn (n : Nat) : (s.start h).tgOn n = s.tgOn n := by
  obtain ⟨x, -, -, -, -, e⟩ := H.start
  exact congrArg (fun u => u.tgOn n) e

theorem State.Sole.start_commits : (s.start h).commits = s.commits ∧ (s.start h).commitCount = s.commitCount := by
  obtain ⟨x, -, -, -, -, e⟩ := H.start
  exact ⟨congrArg (fun u => u.commits) e, congrArg (fun u => u.commitCount) e⟩

/-- What is reported from its start on is reported from before it on. -/
theorem State.Sole.reports_of_start {op : Byte} {status : BitVec 16} {i0 : W32} (reports : (s.start h).Reports t h slot op status i0) :
    s.Reports t h slot op status i0 := by
  obtain ⟨x, -, -, -, -, e⟩ := H.start
  have ring : ((s.start h).sq h.sq.val).cq = (s.sq h.sq.val).cq := by rw [e, State.marked_sq, State.sq_setSq]
  have records (q : Nat) : (s.start h).cq q = s.cq q := by rw [e, State.marked_cq, State.cq_setSq]
  have now : (s.start h).dtb = s.dtb := congrArg (fun u => u.dtb) e
  rw [State.Reports, ring, records, now] at reports
  exact reports

end Start

theorem State.reported_reports {op : Byte} {status : BitVec 16} {i0 i1 i2 : W32} {cause : BitVec 16} :
    s.Reports (s.reported h slot op status i0 i1 i2 cause) h slot op status i0 := by
  exact ⟨i1, i2, cause, congrArg CplRing.queue (State.cq_setCq ..),
    congrArg SubRing.inflight ((State.sq_setCq ..).trans (State.sq_setSq ..))⟩

/-! ### Capture (R310) -/

/-- The snapshot of one output enters its pending set. -/
def State.captureOne (first : Nat) (h : DescHdr) (named : W32) (applyAt : Option W32) (late : Bool) (s : State) (n : Nat) : State :=
  s.setComp n { s.comp n with pending := (s.comp n).pending ++
    [{ hdr := h, slots := (s.comp n).shadow, named := named, applyAt := if n = first then applyAt else none
       expected := applyAt.map (fun m => s.frameOn first m n), late := late, first := decide (n = first), order := s.commitCount }] }

theorem State.capture_eq (outs : List Nat) : s.capture outs first h named applyAt late = outs.foldl (State.captureOne first h named applyAt late) s := rfl

/-- Capture changes the compositors alone. -/
theorem State.capture_frame (outs : List Nat) : s.capture outs first h named applyAt late =
    { s with comps := (s.capture outs first h named applyAt late).comps } := by
  rw [State.capture_eq]
  exact List.foldlRecOn (motive := fun t : State => t = { s with comps := t.comps }) _ _ rfl fun t same n _ => by rw [same]; rfl

/-- A named output's shadow is captured behind what was pending. -/
theorem State.capture_comp {outs : List Nat} (once : outs.Nodup) (out : n ∈ outs) : ∃ p : Snapshot,
    (s.capture outs first h named applyAt late).comp n = { s.comp n with pending := (s.comp n).pending ++ [p] }
      ∧ p.slots = (s.comp n).shadow ∧ p.named = named ∧ p.order = s.commitCount := by
  rw [State.capture_eq]
  refine foldl_visits (P := fun t : State => t.comp n = s.comp n ∧ t.commitCount = s.commitCount)
    (Q := fun t : State => ∃ p : Snapshot, t.comp n = { s.comp n with pending := (s.comp n).pending ++ [p] }
      ∧ p.slots = (s.comp n).shadow ∧ p.named = named ∧ p.order = s.commitCount) ?_ ?_ ?_ once out ⟨rfl, rfl⟩
  · rintro t k other ⟨comp, count⟩
    exact ⟨(State.setComp_comp_other _ _ _ _ other.symm).trans comp, count⟩
  · rintro t ⟨comp, count⟩
    exact ⟨_, by rw [State.captureOne, State.setComp_comp, comp], rfl, rfl, count⟩
  · rintro t k other ⟨p, comp, captured⟩
    exact ⟨p, (State.setComp_comp_other _ _ _ _ other.symm).trans comp, captured⟩

/-! ### Application (R311, R312) -/

/-- Between two states pending snapshots may have been given the frame at which they apply; nothing else has changed. -/
def State.Scheduled (s t : State) : Prop :=
  t = { s with comps := t.comps } ∧ ∀ j, ∃ g : Snapshot → Snapshot, (∀ q, (g q).slots = q.slots ∧ (g q).order = q.order)
    ∧ t.comp j = { s.comp j with pending := (s.comp j).pending.map g }

theorem State.Scheduled.frame (S : s.Scheduled t) : t = { s with comps := t.comps } := S.1

theorem State.Scheduled.comp (S : s.Scheduled t) (j : Nat) : ∃ g : Snapshot → Snapshot, (∀ q, (g q).slots = q.slots ∧ (g q).order = q.order)
    ∧ t.comp j = { s.comp j with pending := (s.comp j).pending.map g } := S.2 j

theorem State.Scheduled.refl (s : State) : s.Scheduled s := ⟨rfl, fun j => ⟨id, fun _ => ⟨rfl, rfl⟩, by rw [List.map_id]⟩⟩

theorem State.Scheduled.one {u : State} (S : s.Scheduled t) {j : Nat} {g : Snapshot → Snapshot} (keeps : ∀ q, (g q).slots = q.slots ∧ (g q).order = q.order)
    (run : u = t.setComp j { t.comp j with pending := (t.comp j).pending.map g }) : s.Scheduled u := by
  subst run
  refine ⟨by rw [S.frame]; rfl, fun k => ?_⟩
  obtain ⟨f, kept, comp⟩ := S.comp k
  by_cases here : k = j
  · subst here
    refine ⟨g ∘ f, fun q => ⟨(keeps _).1.trans (kept q).1, (keeps _).2.trans (kept q).2⟩, ?_⟩
    rw [State.setComp_comp, comp, List.map_map]
  · exact ⟨f, kept, (State.setComp_comp_other _ _ _ _ here).trans comp⟩

/-- COMMIT w once output n has applied it. -/
def CommitWait.appliedOn (w : CommitWait) (n : Nat) : CommitWait := { w with left := setBit w.left n false }

/-- Snapshot p is in force on output n, and w alone waits. -/
def State.snapshotApplied (s : State) (n : Nat) (p : Snapshot) (w : CommitWait) : State :=
  { s.setComp n { s.comp n with applied := p.slots, pending := (s.comp n).pending.filter (fun q => decide (q.order ≠ p.order)) } with commits := [w] }

theorem State.snapshotApplied_comp (p : Snapshot) (w : CommitWait) : (s.snapshotApplied n p w).comp n =
    { s.comp n with applied := p.slots, pending := (s.comp n).pending.filter (fun q => decide (q.order ≠ p.order)) } := State.setComp_comp ..

theorem State.snapshotApplied_comp_other {j : Nat} (other : j ≠ n) (p : Snapshot) (w : CommitWait) : (s.snapshotApplied n p w).comp j = s.comp j :=
  State.setComp_comp_other _ _ _ _ other

/-- The snapshot of the one COMMIT that waits applies on an output whose generator is off. -/
theorem State.applySnapshot_only {w : CommitWait} {p : Snapshot} (waits : s.commits = [w]) (order : p.order = w.order) :
    ∃ u, (s.snapshotApplied n p (w.appliedOn n)).Scheduled u
      ∧ s.applySnapshot n p none = if (w.appliedOn n).left = 0 then u.commitDone (w.appliedOn n) else u := by
  let v := s.snapshotApplied n p (w.appliedOn n)
  let others : State := (bitsOf (w.appliedOn n).left).foldl (fun s j =>
    let x := s.comp j
    s.setComp j { x with pending := x.pending.map (fun q => if q.order = p.order then { q with applyAt := some (x.frame + 1) } else q) }) v
  have scheduled : v.Scheduled others := by
    refine List.foldlRecOn (motive := v.Scheduled) _ _ (State.Scheduled.refl v) fun t S j _ => S.one (fun q => ?_) rfl
    split <;> exact ⟨rfl, rfl⟩
  have found : [w].find? (fun w => decide (w.order = p.order)) = some w := List.find?_cons_of_pos (decide_eq_true order.symm)
  refine ⟨if w.first = n then others else v, ?_, ?_⟩
  · split
    · exact scheduled
    · exact State.Scheduled.refl v
  · unfold State.applySnapshot
    simp only [State.setComp_commits, waits, found, Option.getD_none, ite_self, List.map_cons, List.map_nil, if_true]
    rfl

theorem bitsOf_setBit_false {k : Nat} (m : BitVec k) (n : Nat) : bitsOf (setBit m n false) = (bitsOf m).filter (fun i => decide (i ≠ n)) := by
  unfold bitsOf
  rw [List.filter_filter]
  refine List.filter_congr fun i hi => ?_
  show bitOf (setBit m n false) i = (decide (i ≠ n) && bitOf m i)
  by_cases here : i = n
  · subst here
    rw [bitOf_setBit_same m (List.mem_range.1 hi), decide_eq_false (not_not.2 rfl), Bool.false_and]
  · rw [bitOf_setBit_other m here, decide_eq_true here, Bool.true_and]

theorem bitsOf_eq_nil {k : Nat} {m : BitVec k} : bitsOf m = [] ↔ m = 0 := by
  constructor
  · intro none
    refine BitVec.eq_of_getLsbD_eq fun i hi => ?_
    refine Eq.trans ?_ BitVec.getLsbD_zero.symm
    exact Bool.eq_false_of_not_eq_true (List.filter_eq_nil_iff.1 none i (List.mem_range.2 hi))
  · rintro rfl
    exact List.filter_eq_nil_iff.2 fun i _ => by simp

theorem bitsOf_nodup {k : Nat} (m : BitVec k) : (bitsOf m).Nodup := List.nodup_range.filter _

/-- The outputs that COMMIT w still waits for, once the first of them has applied it. -/
theorem CommitWait.appliedOn_left {w : CommitWait} {rest : List Nat} (left : bitsOf w.left = n :: rest) : bitsOf (w.appliedOn n).left = rest := by
  have once : n ∉ rest := (List.nodup_cons.1 (left ▸ bitsOf_nodup w.left)).1
  rw [CommitWait.appliedOn, bitsOf_setBit_false, left, List.filter_cons_of_neg (by simp)]
  exact List.filter_eq_self.2 fun i hi => decide_eq_true fun same => once (same ▸ hi)

/-- A COMMIT that is not late and waits alone completes with its frame. -/
theorem State.commitDone_only {w : CommitWait} (H : s.Sole h slot) (waits : s.commits = [w]) (mine : w.hdr = h) (onTime : w.late = false) :
    s.commitDone w = State.reported { s with commits := [] } h slot opCommit stOk w.info := by
  have none : s.commits.filter (fun q => decide (q.order ≠ w.order)) = [] := by rw [waits]; simp
  have H : State.Sole { s with commits := [] } h slot := H.of_hif rfl rfl
  unfold State.commitDone
  simp only [none, onTime, Bool.false_eq_true, if_false, mine]
  exact H.complete opCommit (by decide) w.info 0 0 0

/-- The snapshot of a COMMIT on an output whose generator is off applies when the COMMIT is processed. -/
def State.applyAtOnce (order : Nat) (s : State) (n : Nat) : State :=
  if s.tgOn n then s
  else match (s.comp n).pending.find? (fun p => decide (p.order = order)) with
    | some p => s.applySnapshot n p none
    | none => s

theorem State.applyAtOnce_on {order : Nat} (on : s.tgOn n = true) : s.applyAtOnce order n = s := if_pos on

/-- An output holds its snapshot alone, and its generator is off. -/
def State.Holds (s : State) (order n : Nat) (shadow : Slots) : Prop :=
  s.tgOn n = false ∧ ∃ p : Snapshot, (s.comp n).pending = [p] ∧ p.order = order ∧ p.slots = shadow

/-- An output has applied a shadow, and nothing is pending there. -/
def State.HasApplied (s : State) (n : Nat) (shadow : Slots) : Prop := (s.comp n).applied = shadow ∧ (s.comp n).pending = []

theorem State.applyAtOnce_holds {w : CommitWait} {shadow : Slots} (waits : s.commits = [w]) (holds : s.Holds w.order n shadow) :
    ∃ u, s.applyAtOnce w.order n = (if (w.appliedOn n).left = 0 then u.commitDone (w.appliedOn n) else u)
      ∧ u = { s with comps := u.comps, commits := [w.appliedOn n] } ∧ u.HasApplied n shadow
      ∧ ∀ j, j ≠ n → (∀ x, s.HasApplied j x → u.HasApplied j x) ∧ ∀ x, s.Holds w.order j x → u.Holds w.order j x := by
  obtain ⟨off, p, pending, order, slots⟩ := holds
  have found : (s.comp n).pending.find? (fun p => decide (p.order = w.order)) = some p := by
    rw [pending]
    exact List.find?_cons_of_pos (decide_eq_true order)
  have emptied : (s.comp n).pending.filter (fun q => decide (q.order ≠ p.order)) = [] := by rw [pending]; simp
  obtain ⟨u, S, run⟩ := State.applySnapshot_only (n := n) waits order
  have frame : u = { s with comps := u.comps, commits := [w.appliedOn n] } := S.frame
  refine ⟨u, ?_, frame, ?_, fun j other => ?_⟩
  · unfold State.applyAtOnce
    simp only [off, Bool.false_eq_true, if_false, found]
    exact run
  · obtain ⟨g, -, comp⟩ := S.comp n
    show (u.comp n).applied = shadow ∧ (u.comp n).pending = []
    rw [comp, State.snapshotApplied_comp, emptied]
    exact ⟨slots, rfl⟩
  · obtain ⟨g, kept, comp⟩ := S.comp j
    rw [State.snapshotApplied_comp_other other] at comp
    refine ⟨fun x ⟨applied, empty⟩ => ?_, fun x ⟨off, q, pending, order, slots⟩ => ⟨?_, g q, ?_, (kept q).2.trans order, (kept q).1.trans slots⟩⟩
    · show (u.comp j).applied = x ∧ (u.comp j).pending = []
      rw [comp, empty]
      exact ⟨applied, rfl⟩
    · rw [frame]
      exact off
    · rw [comp, pending, List.map_cons, List.map_nil]

/-- A COMMIT whose outputs hold its snapshots alone, their generators off, applies them all and completes. -/
theorem State.applyAtOnce_all {shadow : Nat → Slots} {outs : List Nat} {w : CommitWait} (H : s.Sole h slot) (waits : s.commits = [w]) (mine : w.hdr = h)
    (onTime : w.late = false) (left : bitsOf w.left = outs) (some : outs ≠ []) (holds : ∀ n ∈ outs, s.Holds w.order n (shadow n)) :
    let r := outs.foldl (State.applyAtOnce w.order) s
    r.commits = [] ∧ (∀ n, n ∈ outs ∨ s.HasApplied n (shadow n) → r.HasApplied n (shadow n)) ∧ s.Reports r h slot opCommit stOk w.info := by
  induction outs generalizing s w with
  | nil => exact absurd rfl some
  | cons n rest ih =>
    obtain ⟨u, run, frame, applied, others⟩ := State.applyAtOnce_holds waits (holds n List.mem_cons_self)
    have U : u.Sole h slot := H.of_hif (by rw [frame]) (by rw [frame])
    have pending : u.commits = [w.appliedOn n] := by rw [frame]
    have left := CommitWait.appliedOn_left left
    have once : n ∉ rest := (List.nodup_cons.1 (‹bitsOf w.left = n :: rest› ▸ bitsOf_nodup w.left)).1
    have settled (j : Nat) (before : j = n ∨ s.HasApplied j (shadow j)) : u.HasApplied j (shadow j) := by
      by_cases here : j = n
      · exact here ▸ applied
      · exact (others j here).1 _ (before.resolve_left here)
    have shared {r : State} (reports : u.Reports r h slot opCommit stOk w.info) : s.Reports r h slot opCommit stOk w.info := by
      rw [frame] at reports
      exact reports
    rw [List.foldl_cons, run]
    cases rest with
    | nil =>
      rw [if_pos ((bitsOf_eq_nil).1 left), List.foldl_nil, State.commitDone_only U pending mine onTime]
      exact ⟨rfl, fun j named => settled j (named.imp_left List.mem_singleton.1), shared (State.reported_reports (s := { u with commits := [] }))⟩
    | cons m rest =>
      rw [if_neg fun empty => List.cons_ne_nil m rest (left.symm.trans ((bitsOf_eq_nil).2 empty))]
      obtain ⟨done, all, reports⟩ := ih U pending mine onTime left (List.cons_ne_nil m rest) fun j hj =>
        (others j fun same => once (same ▸ hj)).2 _ (holds j (List.mem_cons_of_mem n hj))
      refine ⟨done, fun j named => all j ?_, shared reports⟩
      rcases named with named | named
      · exact (List.mem_cons.1 named).symm.imp_right fun here => settled j (.inl here)
      · exact .inr (settled j (.inr named))

/-! ### COMMIT (R310, R311) -/

/-- Reporting admission changes the fronds alone. -/
theorem State.reportAdmission_frame (l : List (BitVec 256)) : l.foldl (fun s m => s.reportAdmission m) s =
    { s with fronds := (l.foldl (fun s m => s.reportAdmission m) s).fronds } := by
  refine List.foldlRecOn (motive := fun t : State => t = { s with fronds := t.fronds }) _ _ rfl fun t same m _ => ?_
  exact List.foldlRecOn (motive := fun u : State => u = { s with fronds := u.fronds }) _ _ same fun u same f _ => by rw [same]; rfl

/-- The COMMIT that waits for its outputs. -/
def State.commitWait (s : State) (h : DescHdr) (mask : BitVec 4) (first : Nat) (frame : W32) (late : Bool) : CommitWait :=
  { hdr := h, mask := mask, first := first, left := mask, info := frame, late := late, order := s.commitCount }

/-- Its snapshots are captured, and it waits. -/
def State.captured (s : State) (outs : List Nat) (first : Nat) (h : DescHdr) (frame at_ : W32) (w : CommitWait) : State :=
  { s.capture outs first h frame (some at_) w.late with commitCount := s.commitCount + 1, commits := s.commits ++ [w] }

theorem State.processCommit_eq (mask : BitVec 4) (outs : List Nat) (frame : W32) : ∃ late at_, (s.tgOn first = false → late = false)
    ∧ s.processCommit h mask outs first frame =
      outs.foldl (State.applyAtOnce s.commitCount) (s.captured outs first h frame at_ (s.commitWait h mask first frame late)) := by
  refine ⟨s.tgOn first && !s.onTime outs first frame,
    if s.tgOn first && !s.onTime outs first frame then s.laterFrame outs first frame else frame, fun off => by rw [off]; rfl, rfl⟩

theorem State.captured_comp {outs : List Nat} {frame at_ : W32} {w : CommitWait} (once : outs.Nodup) (out : n ∈ outs) : ∃ p : Snapshot,
    (s.captured outs first h frame at_ w).comp n = { s.comp n with pending := (s.comp n).pending ++ [p] }
      ∧ p.slots = (s.comp n).shadow ∧ p.named = frame ∧ p.order = s.commitCount := State.capture_comp once out

theorem State.captured_frame (outs : List Nat) (frame at_ : W32) (w : CommitWait) : s.captured outs first h frame at_ w =
    { s with comps := (s.captured outs first h frame at_ w).comps, commitCount := s.commitCount + 1, commits := s.commits ++ [w] } := by
  unfold State.captured
  rw [State.capture_frame]

theorem State.captured_tgOn (outs : List Nat) (frame at_ : W32) (w : CommitWait) (n : Nat) : (s.captured outs first h frame at_ w).tgOn n = s.tgOn n :=
  congrArg (fun u => u.tgOn n) (State.captured_frame outs frame at_ w)

section Commit

variable {mask : BitVec 4} {frame : W32} {rest : List Nat} (H : s.Sole h slot) (isOuts : bitsOf mask = first :: rest)
  (staged : ∀ n ∈ bitsOf mask, (((s.start h).comp n).shadow.stage.orderOk = true ∧ ((s.start h).comp n).shadow.stage.depth = ((s.start h).tgOf n).eff.bpc))
  (admits : (((s.start h).setsTouched ((s.start h).movesLines (bitsOf mask) first frame)).all
    ((s.start h).capture (bitsOf mask) first h frame none false).setAdmits) = true)
include H isOuts staged admits

/-- A COMMIT that has room and passes is processed; the admission it reports is a matter of the fronds. -/
theorem exec_commit (room : ∀ n ∈ bitsOf mask, s.tgOn n = true → (s.comp n).pending.length < 4) :
    ∃ t, exec (.commit h mask frame) s = .next t ∧ t = { (s.start h).processCommit h mask (bitsOf mask) first frame with fronds := t.fronds } := by
  have free : (bitsOf mask).any (fun n => s.tgOn n && decide (4 ≤ (s.comp n).pending.length)) = false := by
    refine List.any_eq_false.2 fun n hn full => ?_
    rw [Bool.and_eq_true, decide_eq_true_eq] at full
    exact absurd (room n hn full.1) (Nat.not_lt.2 full.2)
  have good : (bitsOf mask).any (fun n => !((s.start h).comp n).shadow.stage.orderOk
      || decide (((s.start h).comp n).shadow.stage.depth ≠ ((s.start h).tgOf n).eff.bpc)) = false := by
    refine List.any_eq_false.2 fun n hn => ?_
    rw [(staged n hn).1, (staged n hn).2]
    simp
  refine ⟨_, ?_, State.reportAdmission_frame ((s.start h).setsTouched ((s.start h).movesLines (bitsOf mask) first frame))⟩
  show execCommit h mask frame s = _
  unfold execCommit
  dsimp only
  rw [free, if_neg Bool.false_ne_true, H.runs]
  rw [isOuts] at good admits ⊢
  exact congrArg Host.Outcome.next ((if_neg (ne_true_of_eq_false good)).trans (if_neg (by rw [admits]; exact Bool.false_ne_true)))

/-- With the generators on, each snapshot waits behind those pending. -/
theorem commit_waits (on : ∀ n ∈ bitsOf mask, (s.start h).tgOn n = true ∧ ((s.start h).comp n).pending.length < 4) :
    Ends (.commit h mask frame) s (fun t => t.commitCount = s.commitCount + 1
      ∧ (∃ w : CommitWait, t.commits = s.commits ++ [w] ∧ w.hdr = h ∧ w.mask = mask ∧ w.left = mask)
      ∧ ∀ n ∈ bitsOf mask, (t.comp n).applied = (s.comp n).applied
          ∧ ∃ p : Snapshot, (t.comp n).pending = (s.comp n).pending ++ [p] ∧ p.slots = (s.comp n).shadow ∧ p.named = frame) := by
  obtain ⟨t, run, reported⟩ := exec_commit H isOuts staged admits fun n hn _ => H.start_comp n ▸ (on n hn).2
  obtain ⟨late, at_, -, processed⟩ := State.processCommit_eq (s := s.start h) (h := h) (first := first) mask (bitsOf mask) frame
  obtain ⟨commits, count⟩ := H.start_commits
  have waits : (s.start h).processCommit h mask (bitsOf mask) first frame =
      (s.start h).captured (bitsOf mask) first h frame at_ ((s.start h).commitWait h mask first frame late) := by
    rw [processed]
    refine List.foldlRecOn (motive := fun t : State => t = State.captured ..) _ _ rfl fun t same n hn => ?_
    rw [same, State.applyAtOnce_on ((State.captured_tgOn ..).trans (on n hn).1)]
  rw [waits] at reported
  refine ⟨t, run, ?_, ⟨(s.start h).commitWait h mask first frame late, ?_, rfl, rfl, rfl⟩, fun n hn => ?_⟩
  · rw [reported, ← count]
    rfl
  · rw [reported, ← commits]
    rfl
  · obtain ⟨p, comp, slots, named, -⟩ := State.captured_comp (s := s.start h) (first := first) (h := h) (frame := frame) (at_ := at_)
      (w := (s.start h).commitWait h mask first frame late) (bitsOf_nodup mask) hn
    have comp : t.comp n = { (s.start h).comp n with pending := ((s.start h).comp n).pending ++ [p] } := by
      rw [reported]
      exact comp
    rw [comp, ← H.start_comp n]
    exact ⟨rfl, p, rfl, slots, named⟩

/-- With the generators off, the shadows apply at once and COMMIT completes. -/
theorem commit_applies (off : ∀ n ∈ bitsOf mask, (s.start h).tgOn n = false ∧ ((s.start h).comp n).pending = []) (alone : (s.start h).commits = []) :
    Ends (.commit h mask frame) s (fun t => t.commits = [] ∧ (∀ n ∈ bitsOf mask, (t.comp n).applied = (s.comp n).shadow ∧ (t.comp n).pending = [])
      ∧ s.Reports t h slot opCommit stOk frame) := by
  obtain ⟨t, run, reported⟩ := exec_commit H isOuts staged admits fun n hn on =>
    absurd on (by rw [← H.start_tgOn n, (off n hn).1]; exact Bool.false_ne_true)
  obtain ⟨late, at_, punctual, processed⟩ := State.processCommit_eq (s := s.start h) (h := h) (first := first) mask (bitsOf mask) frame
  let w := (s.start h).commitWait h mask first frame late
  have frame_eq := State.captured_frame (s := s.start h) (h := h) (first := first) (bitsOf mask) frame at_ w
  have captured : ((s.start h).captured (bitsOf mask) first h frame at_ w).Sole h slot :=
    H.started.of_hif (by rw [frame_eq]) (by rw [frame_eq])
  have holds (n : Nat) (hn : n ∈ bitsOf mask) : ((s.start h).captured (bitsOf mask) first h frame at_ w).Holds (s.start h).commitCount n (s.comp n).shadow := by
    obtain ⟨p, comp, slots, -, order⟩ := State.captured_comp (s := s.start h) (first := first) (h := h) (frame := frame) (at_ := at_) (w := w)
      (bitsOf_nodup mask) hn
    refine ⟨(State.captured_tgOn ..).trans (off n hn).1, p, ?_, order, slots.trans (congrArg Comp.shadow (H.start_comp n))⟩
    rw [comp, (off n hn).2]
    rfl
  obtain ⟨done, applied, reports⟩ := State.applyAtOnce_all captured (w := w) (shadow := fun n => (s.comp n).shadow)
    (by rw [frame_eq, alone]; rfl) rfl (punctual (off first (isOuts ▸ List.mem_cons_self)).1) rfl (isOuts ▸ List.cons_ne_nil first rest) holds
  rw [processed] at reported
  refine ⟨t, run, ?_, fun n hn => ?_, H.reports_of_start ?_⟩
  · rw [reported]
    exact done
  · rw [reported]
    exact applied n (.inl hn)
  · rw [frame_eq] at reports
    rw [reported, frame_eq]
    exact reports

end Commit

end Sys2Proof.Machine

namespace Sys2Proof
open Machine

/-- Settles O16: a COMMIT is captured whole, and then only outputs whose generators are off apply it. -/
theorem commitSnapshots : Obligations.CommitSnapshots := by
  intro s h slot mask frame first rest H v outs isOuts staged admits
  exact ⟨commit_waits H isOuts staged admits, commit_applies H isOuts staged admits⟩

end Sys2Proof
end

