-- ==== Sys2Proof/Proofs/FlashWrites.lean ====
section
/-! The mailbox's commands: what one that waits runs, what it writes to memory and flash, and how it ends (R480, R521 to R523). -/

namespace Sys2Proof.Machine

variable {s t : State} {op : Byte} {n a : Nat} {l : List Byte}

/-! ### Bytes read where they were written -/

/-- A list is read back from a memory it was written to, whatever bytes never written read as. -/
theorem readBytes_write (m : Mem) (a : Nat) (l : List Byte) (free : Nat → Byte) :
    readBytes (fun x => ((m.write a l).get? x).getD (free x)) a l.length = l := by
  refine List.ext_getElem (by simp [readBytes]) fun i hi hl => ?_
  simp [readBytes, Mem.get_write, hl]

theorem Mem.get_write_outside {m : Mem} {x : Nat} (outside : x < a ∨ a + l.length ≤ x) : (m.write a l).get? x = m.get? x := by
  rw [Mem.get_write, if_neg (by omega)]

/-! ### A command that is served (R521) -/

theorem State.Serves.runs (V : s.Serves op n l) (k : State → List Byte → State) : mailbox op n s k = .next (k s l) := by
  have serves : (!((s.ready || s.svc.recovery && decide (op = 2)) && s.svc.busy && decide (s.svc.mbCmd = op)) || s.lsch.svcDown) = false := by
    rcases V.ready with ready | ⟨recovery, attest⟩
    · simp [ready, V.busy, V.cmd, V.svc]
    · simp [recovery, attest ▸ V.cmd, V.busy, V.svc, attest]
  have reached : ¬(s.svc.mbAddr.toNat % 64 ≠ 0 ∨ (s.absentIn s.svc.mbAddr.toNat n).isSome = true) := by
    simp [V.aligned, V.present]
  unfold mailbox unlessInert
  rw [V.awake, if_neg Bool.false_ne_true]
  beta_reduce
  rw [serves, if_neg Bool.false_ne_true, if_neg reached, V.bytes]

/-! ### Flash writes (R522, R523) -/

/-- The write lands. -/
def State.flashed (s : State) (a : Nat) (l : List Byte) : State := ((s.draw.2.flashWrite a l).mendSlot a).mbDone stOk 0

/-- The write meets an error, which leaves the slot of n bytes at a invalid. -/
def State.flashFailed (s : State) (a n : Nat) : State :=
  State.mbRefuse { s.draw.2 with xspi := { s.xspi with flash := s.xspi.flash.forget a (a + n), bad := insertNat a s.xspi.bad } } 6

theorem State.mbFlash_cases (a n : Nat) (l : List Byte) : s.mbFlash a n l = s.flashed a l ∨ s.xspi.sound = false ∧ s.mbFlash a n l = s.flashFailed a n := by
  have split : s.mbFlash a n l = if bitOf s.draw.1 0 && !s.xspi.sound then s.flashFailed a n else s.flashed a l := rfl
  rw [split]
  cases fails : bitOf s.draw.1 0 && !s.xspi.sound with
  | false => exact .inl rfl
  | true => exact .inr ⟨by simpa using (Bool.and_eq_true_iff.1 fails).2, rfl⟩

theorem State.flashed_written (a : Nat) (l : List Byte) : s.Written (s.flashed a l) a l := by
  refine ⟨rfl, rfl, rfl, readBytes_write _ _ _ _, ?_, fun b outside => ?_⟩
  · simp [State.slotGood, State.flashed, State.mendSlot, State.mbDone]
  · exact congrArg (fun o : Option Byte => o.getD (Config.freeByte 2 s.xspi.epoch b)) (Mem.get_write_outside outside)

theorem contains_insertNat_self (a : Nat) (l : List Nat) : (insertNat a l).contains a = true := by
  induction l with
  | nil => exact List.contains_cons.trans (by rw [beq_self_eq_true, Bool.true_or])
  | cons b l ih =>
    show (if a < b then a :: b :: l else if a = b then b :: l else b :: insertNat a l).contains a = true
    split
    · simp
    · split
      · simp [*]
      · rw [List.contains_cons, ih, Bool.or_true]

theorem State.flashFailed_slot (a n : Nat) : (s.flashFailed a n).slotGood a = false := by
  show (!(insertNat a s.xspi.bad).contains a) = false
  rw [contains_insertNat_self]
  rfl

/-- However the write goes, the command has ended. -/
theorem State.mbFlash_flashed (a n : Nat) (l : List Byte) : (s.mbFlash a n l).svc.busy = false ∧ s.Flashed (s.mbFlash a n l) a l := by
  rcases State.mbFlash_cases (s := s) a n l with lands | ⟨unsound, fails⟩
  · rw [lands]
    exact ⟨rfl, .inl (State.flashed_written a l)⟩
  · rw [fails]
    exact ⟨rfl, .inr ⟨rfl, rfl, State.flashFailed_slot a n, unsound⟩⟩

/-- On a flash that meets no error, it lands. -/
theorem State.mbFlash_written (sound : s.xspi.sound = true) (a n : Nat) (l : List Byte) : s.Written (s.mbFlash a n l) a l := by
  rcases State.mbFlash_cases (s := s) a n l with lands | ⟨unsound, -⟩
  · exact lands ▸ State.flashed_written a l
  · exact absurd (sound.symm.trans unsound) (by decide)

theorem State.mbFlash_svc (a n : Nat) (l : List Byte) : (s.mbFlash a n l).svc.trust = s.svc.trust ∧ (s.mbFlash a n l).svc.svnFuse = s.svc.svnFuse := by
  rcases State.mbFlash_cases (s := s) a n l with lands | ⟨-, fails⟩
  · rw [lands]
    exact ⟨rfl, rfl⟩
  · rw [fails]
    exact ⟨rfl, rfl⟩

/-- What a write of a state with the same flash does. -/
theorem State.Flashed.of_xspi {u : State} (F : u.Flashed t a l) (same : u.xspi = s.xspi) : s.Flashed t a l := by
  have bytes (b : Nat) : u.flashByte b = s.flashByte b := by unfold State.flashByte; rw [same]
  unfold State.Flashed State.Written at *
  simpa only [same, bytes] using F

/-! ### FW_WRITE (R512 to R515, R522) -/

/-- What FW_WRITE asks of an image. -/
def State.ImagePasses (s : State) (l : List Byte) : Prop :=
  imageForm l = true ∧ s.absentIn (s.svc.mbAddr.toNat + 0x1000) (imageLength l) = none ∧ imageSigned l = true
    ∧ imageBody l (s.hostRead (s.svc.mbAddr.toNat + 0x1000) (imageLength l)) = true ∧ s.svc.svnFuse.toNat ≤ leAt l 0x10 1

theorem exec_fwWrite_writes (V : s.Serves 3 0x1000 l) (good : s.ImagePasses l) : exec .fwWrite s =
    .next (s.mbFlash (flashImage (1 - s.image.toNat)) 0x1000000 (l ++ s.hostRead (s.svc.mbAddr.toNat + 0x1000) (imageLength l))) := by
  obtain ⟨form, here, signed, body, svn⟩ := good
  show execFwWrite s = _
  unfold execFwWrite
  rw [V.runs]
  simp only [form, here, signed, body, Nat.not_lt.2 svn, Bool.not_true, Option.isSome_none, Bool.or_self, Bool.false_eq_true, if_false]

theorem exec_fwWrite_refuses (V : s.Serves 3 0x1000 l) (bad : ¬ s.ImagePasses l) : ∃ r, exec .fwWrite s = .next (s.mbRefuse r) := by
  show ∃ r, execFwWrite s = _
  unfold execFwWrite
  rw [V.runs]
  dsimp only
  split_ifs with form signed body svn
  · exact ⟨5, rfl⟩
  · exact ⟨1, rfl⟩
  · exact ⟨3, rfl⟩
  · exact ⟨2, rfl⟩
  · rw [Bool.or_eq_true, not_or, Bool.not_eq_true, Bool.not_eq_false', Option.not_isSome_iff_eq_none] at form
    exact absurd ⟨form.1, form.2, by simpa using signed, by simpa using body, Nat.not_lt.1 svn⟩ bad

/-! ### TRUST_UPDATE (R517) -/

/-- What TRUST_UPDATE asks of an entry. -/
def State.EntryPasses (s : State) (l : List Byte) : Prop := leAt l 0 4 ≤ 4 ∧ entryOk l = true ∧ (addEntry l s.trustRaw).length ≤ 64

theorem State.takeTrust_xspi (e : List (List Byte)) : (s.takeTrust e).xspi = s.xspi := by
  unfold State.takeTrust
  dsimp only
  split <;> rfl

theorem State.takeTrust_trust (e : List (List Byte)) : (s.takeTrust e).svc.trust = (e.filter entryOk).map parseTrust := by
  unfold State.takeTrust
  dsimp only

theorem State.storeTrust_flashed (e : List (List Byte)) : (s.storeTrust e).svc.busy = false ∧ s.Flashed (s.storeTrust e) flashTrust (trustBytes e)
    ∧ (s.storeTrust e).svc.trust = (e.filter entryOk).map parseTrust := by
  obtain ⟨ended, flashed⟩ := State.mbFlash_flashed (s := s.takeTrust e) flashTrust 0x100000 (trustBytes e)
  exact ⟨ended, flashed.of_xspi (State.takeTrust_xspi e), (State.mbFlash_svc ..).1.trans (State.takeTrust_trust e)⟩

theorem exec_trustUpdate_removes {id : W32} (V : s.Serves 4 320 l) (removal : Config.trustRemoval l = some id) :
    exec .trustUpdate s = .next (s.storeTrust (s.trustRaw.filter (fun x => decide (leAt x 4 4 ≠ id.toNat)))) := by
  show execTrustUpdate s = _
  unfold execTrustUpdate
  rw [V.runs]
  simp only [removal]

theorem exec_trustUpdate_adds (V : s.Serves 4 320 l) (entry : Config.trustRemoval l = none) (good : s.EntryPasses l) :
    exec .trustUpdate s = .next (s.storeTrust (addEntry l s.trustRaw)) := by
  obtain ⟨role, endorsed, room⟩ := good
  show execTrustUpdate s = _
  unfold execTrustUpdate
  rw [V.runs]
  simp only [entry, Nat.not_lt.2 role, endorsed, Nat.not_lt.2 room, Bool.not_true, Bool.false_eq_true, if_false]

theorem exec_trustUpdate_refuses (V : s.Serves 4 320 l) (entry : Config.trustRemoval l = none) (bad : ¬ s.EntryPasses l) :
    ∃ r, exec .trustUpdate s = .next (s.mbRefuse r) := by
  show ∃ r, execTrustUpdate s = _
  unfold execTrustUpdate
  rw [V.runs]
  simp only [entry]
  split_ifs with role endorsed room
  · exact ⟨7, rfl⟩
  · exact ⟨1, rfl⟩
  · exact ⟨5, rfl⟩
  · exact absurd ⟨Nat.not_lt.1 role, by simpa using endorsed, Nat.not_lt.1 room⟩ bad

/-! ### DEBUG_TOKEN, SVN_ADVANCE and CONFIG_WRITE (R515, R516, R520) -/

theorem exec_debugToken (V : s.Serves 5 256 l) : exec .debugToken s =
    .next (s.mbFlash flashToken 0x1000 (if Config.eraseRequest l then List.replicate 0x1000 0xFF else l)) := by
  show execDebugToken s = _
  unfold execDebugToken
  rw [V.runs]

theorem exec_svnAdvance_writes (V : s.Serves 6 0x1000 l) (named : Config.advanceSeq l = some s.svc.imageSeq) :
    exec .svnAdvance s = .next (s.mbFlash flashAdvance 0x1000 l) := by
  show execSvnAdvance s = _
  unfold execSvnAdvance
  rw [V.runs]
  simp only [named, ne_eq, not_true_eq_false, if_false]

theorem exec_svnAdvance_refuses (V : s.Serves 6 0x1000 l) (other : Config.advanceSeq l ≠ some s.svc.imageSeq) :
    ∃ r, exec .svnAdvance s = .next (s.mbRefuse r) := by
  show ∃ r, execSvnAdvance s = _
  unfold execSvnAdvance
  rw [V.runs]
  cases seq : Config.advanceSeq l with
  | none => exact ⟨1, rfl⟩
  | some q =>
    have other : q ≠ s.svc.imageSeq := fun same => other (seq.trans (congrArg some same))
    exact ⟨4, by simp only [ne_eq, other, not_false_eq_true, if_true]⟩

/-- What CONFIG_WRITE asks of a block. -/
def State.BlockPasses (s : State) (l : List Byte) : Prop :=
  configForm l = true ∧ s.absentIn s.svc.mbAddr.toNat (configLength l) = none ∧ configCheck (s.hostRead s.svc.mbAddr.toNat (configLength l)) = true
    ∧ ∃ e, s.configKey (s.hostRead s.svc.mbAddr.toNat (configLength l)) = some e ∧ configSigned e (s.hostRead s.svc.mbAddr.toNat (configLength l)) = true

theorem exec_configWrite_writes (V : s.Serves 7 0x100 l) (good : s.BlockPasses l) :
    exec .configWrite s = .next (s.mbFlash flashConfig 0x800000 (s.hostRead s.svc.mbAddr.toNat (configLength l))) := by
  obtain ⟨form, here, check, e, key, signed⟩ := good
  show execConfigWrite s = _
  unfold execConfigWrite
  rw [V.runs]
  simp only [form, here, check, key, signed, Bool.not_true, Option.isSome_none, Bool.or_self, Bool.false_eq_true, if_false, if_true]

theorem exec_configWrite_refuses (V : s.Serves 7 0x100 l) (bad : ¬ s.BlockPasses l) : ∃ r, exec .configWrite s = .next (s.mbRefuse r) := by
  show ∃ r, execConfigWrite s = _
  unfold execConfigWrite
  rw [V.runs]
  dsimp only
  split_ifs with form check
  · exact ⟨5, rfl⟩
  · exact ⟨3, rfl⟩
  · rw [Bool.or_eq_true, not_or, Bool.not_eq_true, Bool.not_eq_false', Option.not_isSome_iff_eq_none] at form
    cases key : s.configKey (s.hostRead s.svc.mbAddr.toNat (configLength l)) with
    | none => exact ⟨7, rfl⟩
    | some e =>
      refine ⟨1, congrArg _ (if_neg fun signed => bad ?_)⟩
      exact ⟨form.1, form.2, by simpa using check, e, key, signed⟩

theorem flashWritten : Claim.FlashWritten := by
  intro s l sound
  refine ⟨?_, fun V => ⟨_, exec_debugToken V, State.mbFlash_written sound ..⟩, fun V named => ?_, ?_⟩
  · rintro body V form here rfl signed whole svn
    exact ⟨_, exec_fwWrite_writes V ⟨form, here, signed, whole, svn⟩, State.mbFlash_written sound ..⟩
  · exact ⟨_, exec_svnAdvance_writes V named, State.mbFlash_written sound .., (State.mbFlash_svc ..).2⟩
  · rintro block V form here rfl check e key signed
    exact ⟨_, exec_configWrite_writes V ⟨form, here, check, e, key, signed⟩, State.mbFlash_written sound ..⟩

end Sys2Proof.Machine
end

