-- ==== Sys2Proof/Proofs/MailboxCommands.lean ====
section
/-! LID, ATTEST and the refusals of the commands that write flash; posted operations (R308, R480, R519, R522). -/

namespace Sys2Proof.Machine

variable {s t : State} {l : List Byte}

/-! ### LID (R308) -/

/-- The conditions of R308. -/
def State.LidPasses (s : State) (l : List Byte) : Prop :=
  s.lidForm l = true ∧ leAt l 0 4 = 0x778011D0 ∧ leAt l 8 8 = s.svc.nonce.toNat ∧ (s.comp (leAt l 4 1)).lidSeq.toNat < leAt l 0x10 8
    ∧ (leAt l 5 1 = 2 → Config.sha512 (s.lidImage l) = (l.drop 0x50).take 64)
    ∧ (s.trustKeys 2).any (fun k => signedBy k (l.take 0x90) ((l.drop 0x90).take 132)) = true

/-- A lid command has ended without a lid changed. -/
def State.LidRefused (s t : State) : Prop :=
  t.svc.busy = false ∧ t.svc.result ≠ stOk
    ∧ ∀ m, (t.comp m).lid = (s.comp m).lid ∧ (t.comp m).lidNext = (s.comp m).lidNext ∧ (t.comp m).lidSeq = (s.comp m).lidSeq

theorem State.mbRefuse_lids (reason : BitVec 4) : s.LidRefused (s.mbRefuse reason) :=
  ⟨rfl, (by decide : stDescBad ≠ stOk), fun _ => ⟨rfl, rfl, rfl⟩⟩

theorem State.lidReject_lids {u : State} (same : u.comps = s.comps) (n : Nat) (reason : BitVec 4) : s.LidRefused (u.lidReject n reason) := by
  have comps (m : Nat) : u.comp m = s.comp m := congrArg (fun d : Tbl Comp => d.get m {}) same
  refine ⟨rfl, (by decide : stLidReject ≠ stOk), fun m => ?_⟩
  show ((u.setComp n { u.comp n with lidRejects := satAdd (u.comp n).lidRejects 1 }).comp m).lid = _
    ∧ ((u.setComp n { u.comp n with lidRejects := satAdd (u.comp n).lidRejects 1 }).comp m).lidNext = _
    ∧ ((u.setComp n { u.comp n with lidRejects := satAdd (u.comp n).lidRejects 1 }).comp m).lidSeq = _
  by_cases here : m = n
  · rw [here, State.setComp_comp, comps]
    exact ⟨rfl, rfl, rfl⟩
  · rw [State.setComp_comp_other _ _ _ _ here, comps]
    exact ⟨rfl, rfl, rfl⟩

theorem exec_lid_accepts (V : s.Serves 1 320 l) (good : s.LidPasses l) : let c := s.comp (leAt l 4 1)
    exec .lid s = .next ((s.setComp (leAt l 4 1) { c with
      lidNext := some (s.lidNew (c.lidNext.getD c.lid) l), lidSeq := BitVec.ofNat 64 (leAt l 0x10 8) }).mbDone stOk 0) := by
  obtain ⟨form, magic, nonce, later, digest, signed⟩ := good
  have stale : ¬(leAt l 8 8 ≠ s.svc.nonce.toNat ∨ leAt l 0x10 8 ≤ (s.comp (leAt l 4 1)).lidSeq.toNat) := by
    rw [not_or]
    exact ⟨not_not.2 nonce, Nat.not_le.2 later⟩
  have torn : ¬(leAt l 5 1 = 2 ∧ Config.sha512 (s.lidImage l) ≠ (l.drop 0x50).take 64) := fun h => h.2 (digest h.1)
  show execLid s = _
  unfold execLid
  rw [V.runs]
  dsimp only
  rw [if_neg (by rw [form]; exact Bool.false_ne_true), if_neg (not_not.2 magic), if_neg stale, if_neg torn, if_neg (by rw [signed]; exact Bool.false_ne_true)]

theorem exec_lid_refuses (V : s.Serves 1 320 l) (bad : ¬ s.LidPasses l) : ∃ t, exec .lid s = .next t ∧ s.LidRefused t := by
  show ∃ t, execLid s = _ ∧ _
  unfold execLid
  rw [V.runs]
  dsimp only
  split_ifs with form magic stale torn signed
  · exact ⟨_, rfl, State.mbRefuse_lids _⟩
  · exact ⟨_, rfl, State.lidReject_lids rfl ..⟩
  · exact ⟨_, rfl, State.lidReject_lids rfl ..⟩
  · exact ⟨_, rfl, State.lidReject_lids rfl ..⟩
  · exact ⟨_, rfl, State.lidReject_lids rfl ..⟩
  · rw [not_or, not_not, Nat.not_le] at stale
    exact absurd ⟨by simpa using form, not_not.1 magic, stale.1, stale.2, fun load => not_not.1 fun differs => torn ⟨load, differs⟩, by simpa using signed⟩ bad

theorem lidCommand : Claim.LidCommand := by
  intro s l V n good
  by_cases passes : s.LidPasses l
  · refine ⟨_, exec_lid_accepts V passes, rfl, fun _ => ⟨rfl, ?_, ?_⟩, fun bad => absurd passes bad⟩
    · exact congrArg Comp.lidSeq (State.setComp_comp ..)
    · exact congrArg Comp.lidNext (State.setComp_comp ..)
  · obtain ⟨t, run, ended, refused, lids⟩ := exec_lid_refuses V passes
    exact ⟨t, run, ended, fun holds => absurd holds passes, fun _ => ⟨refused, lids⟩⟩

/-! ### ATTEST (R519) -/

/-- The report and its signature. -/
def State.signedReport (s : State) (l : List Byte) : List Byte := s.report l ++ takePad 132 0 (Config.deviceSign (Config.sha512 (s.report l)))

theorem exec_attest (V : s.Serves 2 64 l) (writable : s.absentIn s.svc.mbAddr.toNat (s.signedReport l).length true = none) :
    exec .attest s = .next ((s.hostWrite s.svc.mbAddr.toNat (s.signedReport l)).mbDone stOk 0) := by
  show execAttest s = _
  unfold execAttest
  rw [V.runs]
  exact congrArg Host.Outcome.next (if_neg (ne_true_of_eq_false (Option.isSome_eq_false_iff.2 (Option.isNone_iff_eq_none.2 writable))))

theorem attest_ends (V : s.Serves 2 64 l) (writable : s.absentIn s.svc.mbAddr.toNat (s.signedReport l).length true = none) :
    Ends .attest s (fun t => t.svc.busy = false ∧ t.svc.result = stOk ∧ t.hostRead s.svc.mbAddr.toNat (s.signedReport l).length = s.signedReport l) := by
  refine ⟨_, exec_attest V writable, rfl, rfl, ?_⟩
  generalize s.signedReport l = whole
  exact readBytes_write _ _ _ _

theorem trustCommands : Claim.TrustCommands := by
  intro s l
  refine ⟨?_, ?_, fun V => ?_, fun V => ⟨_, exec_debugToken V, State.mbFlash_flashed ..⟩, fun V => ?_, ?_⟩
  · intro V report whole
    exact attest_ends V
  · intro V body good
    by_cases passes : s.ImagePasses l
    · obtain ⟨ended, flashed⟩ := State.mbFlash_flashed (s := s) (flashImage (1 - s.image.toNat)) 0x1000000 (l ++ body)
      exact ⟨_, exec_fwWrite_writes V passes, ended, fun _ => flashed, fun bad => absurd passes bad⟩
    · obtain ⟨r, run⟩ := exec_fwWrite_refuses V passes
      exact ⟨_, run, rfl, fun holds => absurd holds passes, fun _ => ⟨rfl, rfl⟩⟩
  · cases removal : Config.trustRemoval l with
    | some id =>
      obtain ⟨ended, flashed, -⟩ := State.storeTrust_flashed (s := s) (s.trustRaw.filter (fun x => decide (leAt x 4 4 ≠ id.toNat)))
      refine ⟨_, exec_trustUpdate_removes V removal, ended, fun k same => ?_, nofun⟩
      exact Option.some.inj same ▸ flashed
    | none =>
      by_cases passes : s.EntryPasses l
      · obtain ⟨ended, flashed, held⟩ := State.storeTrust_flashed (s := s) (addEntry l s.trustRaw)
        exact ⟨_, exec_trustUpdate_adds V removal passes, ended, fun _ => nofun, fun _ => ⟨fun _ => ⟨flashed, held⟩, fun bad => absurd passes bad⟩⟩
      · obtain ⟨r, run⟩ := exec_trustUpdate_refuses V removal passes
        exact ⟨_, run, rfl, fun _ => nofun, fun _ => ⟨fun holds => absurd holds passes, fun _ => ⟨rfl, rfl, rfl⟩⟩⟩
  · by_cases named : Config.advanceSeq l = some s.svc.imageSeq
    · obtain ⟨ended, flashed⟩ := State.mbFlash_flashed (s := s) flashAdvance 0x1000 l
      exact ⟨_, exec_svnAdvance_writes V named, ended, (State.mbFlash_svc ..).2, fun _ => flashed, fun other => absurd named other⟩
    · obtain ⟨r, run⟩ := exec_svnAdvance_refuses V named
      exact ⟨_, run, rfl, rfl, fun same => absurd same named, fun _ => ⟨rfl, rfl⟩⟩
  · intro V block good
    by_cases passes : s.BlockPasses l
    · obtain ⟨ended, flashed⟩ := State.mbFlash_flashed (s := s) flashConfig 0x800000 block
      exact ⟨_, exec_configWrite_writes V passes, ended, fun _ => flashed, fun bad => absurd passes bad⟩
    · obtain ⟨r, run⟩ := exec_configWrite_refuses V passes
      exact ⟨_, run, rfl, fun holds => absurd holds passes, fun _ => ⟨rfl, rfl⟩⟩

/-! ### Posted operations (R480) -/

theorem postedOperationsEnd : Claim.PostedOperationsEnd := by
  intro s awake
  refine ⟨?_, fun k => ?_⟩
  · show execXspiOpComplete s = _
    exact unlessInert_awake awake _
  · show execHbmModeWriteComplete k s = _
    exact unlessInert_awake awake _

end Sys2Proof.Machine

namespace Sys2Proof
open Machine

/-- Settles O50: each command either reaches its one flash write with everything verified, or is refused before it. -/
theorem mailboxCommands : Obligations.MailboxCommands := ⟨lidCommand, trustCommands, flashWritten, postedOperationsEnd⟩

end Sys2Proof
end

