-- ==== Sys2Proof/Proofs/LinesComposed.lean ====
section
/-! What the composition of one line leaves alone: of the compositors how far each has come, and of the raster store every other output's raster. -/

namespace Sys2Proof.Machine

/-- How far each compositor has come, and the raster store. -/
def State.composing (s : State) : (Nat → Nat) × Tbl Mem := (fun n => (s.comp n).composed, s.raster.outs)

variable {s t : State} {n : Nat}

theorem State.composing_foldl {α : Type} (f : State → α → State) (same : ∀ s x, (f s x).composing = s.composing) (l : List α) :
    (l.foldl f s).composing = s.composing :=
  List.foldlRecOn (motive := fun t : State => t.composing = s.composing) _ _ rfl fun t h x _ => (same t x).trans h

theorem State.composing_setComp {x : Comp} (same : x.composed = (s.comp n).composed) : (s.setComp n x).composing = s.composing := by
  refine congrArg (fun f => (f, s.raster.outs)) (funext fun k => ?_)
  by_cases here : k = n
  · rw [here, State.setComp_comp, same]
  · rw [State.setComp_comp_other _ _ _ _ here]

theorem State.composing_of_uncounted (h : t.uncounted = s.uncounted) : t.composing = s.composing := congrArg (fun u => u.composing) h

@[simp] theorem State.composing_count (idx k : Nat) : (s.count idx k).composing = s.composing := composing_of_uncounted (uncounted_count ..)

theorem State.composing_ctxEvent (c : Nat) (status : BitVec 16) (op : Byte) (i0 i1 i2 : W32) : (s.ctxEvent c status op i0 i1 i2).composing = s.composing := by
  refine composing_of_uncounted ?_
  unfold State.ctxEvent State.pushEvent
  dsimp only
  split <;> simp

/-! ### Bytes -/

theorem State.composing_memWrite (host : Bool) (a : Nat) (l : List Byte) : (s.memWrite host a l).composing = s.composing := by
  unfold State.memWrite
  split <;> rfl

theorem State.composing_poisonHbm (a k : Nat) : (s.poisonHbm a k).composing = s.composing := by
  unfold State.poisonHbm
  dsimp only
  split <;> split <;> rfl

theorem State.composing_clearCovered (sp : Space) (l : List (Nat × Nat)) : (s.clearCovered sp l).composing = s.composing := by
  unfold State.clearCovered
  split <;> rfl

theorem State.composing_spaceWrite (sp : Space) (a : Nat) (l : List Byte) (bad : Bool) : (s.spaceWrite sp a l bad).composing = s.composing := by
  unfold State.spaceWrite
  split
  · dsimp only
    split
    · exact composing_poisonHbm ..
    · rfl
  · split <;> rfl
  · rfl

theorem State.composing_walkWrite (sp : Space) (w : Walk) (b : Nat) (l : List Byte) (bad : Bool) : (s.walkWrite sp w b l bad).composing = s.composing := by
  have written := List.foldlRecOn (motive := fun acc : State × List Byte => acc.1.composing = s.composing) (w.pieces b l.length)
    (fun acc p => (acc.1.spaceWrite sp p.1 (acc.2.take p.2) bad, acc.2.drop p.2)) (b := (s, l)) rfl fun acc h p _ => (composing_spaceWrite ..).trans h
  unfold State.walkWrite
  dsimp only
  split
  · exact written
  · exact (composing_clearCovered ..).trans written

/-! ### Movers -/

theorem State.composing_requestPage (page : Nat) : (s.requestPage page).composing = s.composing := by
  unfold State.requestPage
  split
  · rfl
  · exact composing_count ..

theorem State.composing_xferUnits (x : Xfer) (k : Nat) : (s.xferUnits x k).composing = s.composing := by
  unfold State.xferUnits
  rw [composing_clearCovered]
  exact List.foldlRecOn (motive := fun acc : State × List (Nat × Nat) => acc.1.composing = s.composing) _ _ rfl
    fun acc h i _ => (composing_walkWrite ..).trans h

theorem State.composing_xferMove (x : Xfer) : (s.xferMove x).1.composing = s.composing := by
  unfold State.xferMove
  dsimp only
  split
  · exact composing_xferUnits ..
  · simp only [apply_ite State.composing, composing_count, composing_requestPage, composing_xferUnits, ite_self]

theorem State.composing_lineEnded (k bind : Nat) (frame : W32) (dropped : Bool) : (s.lineEnded k bind frame dropped).composing = s.composing := by
  unfold State.lineEnded
  dsimp only
  split
  · exact (composing_count ..).trans (composing_setComp rfl)
  · exact composing_setComp rfl

theorem State.composing_xferStands (m : Nat) (x : Xfer) : (s.xferStands m x).composing = s.composing := by
  unfold State.xferStands
  split
  · split
    · exact composing_lineEnded ..
    · rfl
  · rfl

theorem State.composing_moverFill (fuel m : Nat) : (State.moverFill fuel s m).composing = s.composing := by
  induction fuel generalizing s with
  | zero => rfl
  | succ fuel ih =>
    unfold State.moverFill
    dsimp only
    split
    · rfl
    · split
      · rfl
      · rw [ih, composing_xferStands, composing_xferMove]
        rfl

theorem State.composing_post (x : Xfer) : (s.post x).composing = s.composing := by
  unfold State.post
  split
  · rfl
  · exact composing_moverFill ..

/-! ### Writebacks and queues -/

theorem State.composing_wbLine (i : Nat) (frame : W32) (y : Nat) (l : List Byte) : (s.wbLine n i frame y l).composing = s.composing := by
  unfold State.wbLine
  split
  · rfl
  · dsimp only
    split
    · exact composing_lineEnded ..
    · split
      · exact composing_setComp rfl
      · exact composing_post _

theorem State.composing_wbRecord (w : Writeback) (q : WbFrame) : (s.wbRecord n w q).composing = s.composing := by
  unfold State.wbRecord
  refine (composing_ctxEvent ..).trans ?_
  split
  · exact composing_setComp rfl
  · rfl

theorem State.composing_wbSettle : (s.wbSettle n).composing = s.composing := by
  unfold State.wbSettle
  exact (composing_foldl _ (fun _ w => composing_foldl _ (fun _ q => composing_wbRecord w q) _) _).trans (composing_setComp rfl)

theorem State.composing_holdLine (x : Layer) (k : SlotKind) (q : QueueLine) : (s.holdLine x k q).composing = s.composing := by
  refine composing_foldl _ (fun s p => ?_) _
  dsimp only
  split
  · rfl
  · exact composing_foldl _ (fun s l => composing_memWrite ..) _

theorem State.composing_holdLines (q : QueueLine) (l : List (SlotKind × Layer)) : (l.foldl (fun s p => s.holdLine p.2 p.1 q) s).composing = s.composing := by
  apply composing_foldl
  intro s p
  apply composing_holdLine

theorem State.composing_mapQueue (f : QueueLine → QueueLine) :
    (s.setComp n { s.comp n with queue := (s.comp n).queue.map f }).composing = s.composing := composing_setComp rfl

theorem State.composing_takeLine (c : Nat) (frame : W32) (line : Nat) : (s.takeLine c frame line).composing = s.composing := by
  unfold State.takeLine
  extract_lets n mine
  cases (s.comp n).queue.find? mine with
  | none => rfl
  | some q => exact (composing_mapQueue _).trans (composing_holdLines q _)

theorem State.composing_takeLines (y : Nat) (a : Applied) : (s.takeLines n y a).composing = s.composing := by
  refine composing_foldl _ (fun s t => ?_) _
  dsimp only
  split
  · exact composing_foldl _ (fun s p => composing_foldl _ (fun s row => composing_takeLine ..) _) _
  · rfl

theorem State.composing_wbLines (frame : W32) (y : Nat) (l : List (Nat × List Byte)) :
    (l.foldl (fun s p => s.wbLine n p.1 frame y p.2) s).composing = s.composing := by
  apply composing_foldl
  intro s p
  apply composing_wbLine

/-- A line composed goes to its own output's raster. -/
theorem State.composing_composeWith (y : Nat) (late : BitVec 23) (gainLate : Bool) (a : Applied) :
    ∃ m, (s.composeWith n y late gainLate a).composing = (s.composing.1, s.raster.outs.set n m) := by
  unfold State.composeWith
  obtain ⟨lost, failed⟩ := s.lostSlots (s.comp n) a y late
  dsimp -zeta only
  extract_lets t depth l blend codes m lines raster stored counted gained
  have written : stored.composing = (s.composing.1, s.raster.outs.set n m) := rfl
  have kept : gained.composing = counted.composing := by
    unfold gained
    split
    · exact composing_count ..
    · rfl
  exact ⟨m, (composing_wbSettle).trans ((composing_wbLines ..).trans (kept.trans ((composing_count ..).trans ((composing_count ..).trans written))))⟩

theorem State.composed_of_composing {c : (Nat → Nat) × Tbl Mem} (h : t.composing = c) (k : Nat) : (t.comp k).composed = c.1 k :=
  congrFun (congrArg Prod.fst h) k

theorem State.outs_of_composing {c : (Nat → Nat) × Tbl Mem} (h : t.composing = c) : t.raster.outs = c.2 := congrArg Prod.snd h

/-- The lines taken and the line composed leave the compositor where it was, and every other output's raster. -/
theorem State.takeLines_composeWith (y : Nat) (late : BitVec 23) (gainLate : Bool) (a : Applied) :
    (((s.takeLines n y a).composeWith n y late gainLate a).comp n).composed = (s.comp n).composed
      ∧ ∀ m, m ≠ n → ((s.takeLines n y a).composeWith n y late gainLate a).raster.outs.get m {} = s.raster.outs.get m {} := by
  have taken : (s.takeLines n y a).composing = s.composing := composing_takeLines y a
  obtain ⟨raster, written⟩ := composing_composeWith (s := s.takeLines n y a) (n := n) y late gainLate a
  constructor
  · exact (composed_of_composing written n).trans (composed_of_composing taken n)
  · intro m other
    rw [outs_of_composing written]
    exact (Tbl.get_set_other _ other _ _).trans (congrArg (Tbl.get · m {}) (outs_of_composing taken))

/-! ### COMPOSE_LINE (R309) -/

theorem exec_composeLine {out : OutId} {y : BitVec 14} {late : BitVec 23} {gainLate : Bool} {a : Applied} (awake : s.inert = false)
    (runs : (s.tgOf out.val).running = true) (active : y.toNat < (s.tgOf out.val).eff.vAct.toNat)
    (state : ((s.comp out.val).stateFor y.toNat).states.head? = some a) (may : s.mayCompose out.val y.toNat ((s.comp out.val).stateFor y.toNat) a = true) :
    exec (.composeLine out y late gainLate) s = .next (((s.setComp out.val { (s.comp out.val).stateFor y.toNat with composed := y.toNat + 1 }).takeLines
      out.val y.toNat a).composeWith out.val y.toNat late gainLate a) := by
  show execComposeLine out y late gainLate s = _
  unfold execComposeLine
  rw [unlessInert_awake awake]
  simp only [state, runs, active, may, decide_true, Bool.and_self, if_true]

theorem composeLine_composes {out : OutId} {y : BitVec 14} {late : BitVec 23} {gainLate : Bool} {a : Applied} (awake : s.inert = false)
    (runs : (s.tgOf out.val).running = true) (active : y.toNat < (s.tgOf out.val).eff.vAct.toNat)
    (state : ((s.comp out.val).stateFor y.toNat).states.head? = some a) (may : s.mayCompose out.val y.toNat ((s.comp out.val).stateFor y.toNat) a = true) :
    ∃ t, exec (.composeLine out y late gainLate) s = .next t ∧ (t.comp out.val).composed = y.toNat + 1
      ∧ ∀ m, m ≠ out.val → t.raster.outs.get m {} = s.raster.outs.get m {} := by
  refine ⟨_, exec_composeLine awake runs active state may, ?_⟩
  generalize start : s.setComp out.val { (s.comp out.val).stateFor y.toNat with composed := y.toNat + 1 } = u
  obtain ⟨composed, kept⟩ := State.takeLines_composeWith (s := u) (n := out.val) y.toNat late gainLate a
  subst start
  exact ⟨composed.trans (congrArg Comp.composed (State.setComp_comp ..)), kept⟩

end Sys2Proof.Machine
end

