-- ==== Sys2Proof/Proofs/LinesComplete.lean ====
section
/-! Commands on lines complete (R309, R320, R336, R427, R458). -/

namespace Sys2Proof.Machine

variable {s : State}

/-! ### LINE_QUEUE_ARRIVAL (R427) -/

/-- Signing a section changes the fronds alone (R449, R450). -/
theorem State.signSection_fronds (l : LineSection) : ∃ x, s.signSection l = { s with fronds := x } := by
  unfold State.signSection State.sign State.modTask
  split
  · exact ⟨_, rfl⟩
  · split
    · exact ⟨_, rfl⟩
    · split
      · split
        · exact ⟨_, rfl⟩
        · exact ⟨_, rfl⟩
      · exact ⟨_, rfl⟩

theorem exec_lineQueueArrival {l : LineSection} {r : FrameRun} (awake : s.inert = false) (run : s.frameRun l.ctx.val l.frame = some r)
    (shown : r.dropped = false) (inside : l.line.toNat < r.lines) (early : r.judged.contains l.line.toNat = false)
    (read : r.stripeRead (s.ctx l.ctx.val).stripeH l.line.toNat = true) (empty : (s.comp (s.outOf l.ctx.val)).queue = []) :
    ∃ t, exec (.lineQueueArrival l) s = .next t ∧ ∃ q ∈ (t.comp (s.outOf l.ctx.val)).queue, q.ctx = l.ctx.val ∧ q.frame = l.frame
      ∧ q.line = l.line.toNat ∧ l.rank.toNat ∈ q.ranks := by
  obtain ⟨x, signed⟩ := State.signSection_fronds (s := s) l
  have run' : (s.signSection l).frameRun l.ctx.val l.frame = some r := by rw [signed]; exact run
  have read' : r.stripeRead ((s.signSection l).ctx l.ctx.val).stripeH l.line.toNat = true := by rw [signed]; exact read
  have output : (s.signSection l).outOf l.ctx.val = s.outOf l.ctx.val := by rw [signed]; rfl
  have empty' : ((s.signSection l).comp (s.outOf l.ctx.val)).queue = [] := by rw [signed]; exact empty
  show ∃ t, execLineQueueArrival l s = .next t ∧ _
  unfold execLineQueueArrival
  rw [unlessInert_awake awake]
  generalize s.signSection l = u at run' read' output empty'
  simp only [run', shown, early, read', decide_eq_false (Nat.not_le.2 inside), output, empty', List.find?_nil, Option.getD_none, List.contains_nil,
    Bool.or_self, Bool.not_true, Bool.false_eq_true, if_false]
  refine ⟨_, rfl, ?_⟩
  rw [State.setComp_comp]
  exact ⟨_, List.mem_append_right _ (List.mem_singleton_self _), rfl, rfl, rfl, List.contains_iff_mem.1 (contains_insertNat_self l.rank.toNat [])⟩

/-! ### UNDERRUN (R336) -/

theorem State.msix_pmon (v : BitVec 9) : (s.msix v).pmon = s.pmon := by
  unfold State.msix
  split <;> rfl

theorem State.ladleFire_pmon (cause : BitVec 3) (always linked : Bool) : (s.ladleFire cause always linked).pmon = s.pmon := rfl

theorem State.setUnit_counters (u : Nat) (x : Sampler) : (s.setUnit u x).pmon.counters = s.pmon.counters := rfl

theorem State.sampleFire_counters (u : Nat) (v : BitVec 48) : (s.sampleFire u v).pmon.counters = s.pmon.counters := by
  unfold State.sampleFire
  simp only [apply_ite State.pmon, ladleFire_pmon, msix_pmon, setUnit_counters, draw_pmon, ite_self]

theorem State.counters_foldl {α : Type} (f : State → α → State) (same : ∀ s x, (f s x).pmon.counters = s.pmon.counters) (l : List α) :
    (l.foldl f s).pmon.counters = s.pmon.counters := by
  induction l generalizing s with
  | nil => rfl
  | cons x l ih => exact ih.trans (same s x)

theorem State.count_counters {idx : Nat} (alive : s.deadCounter idx = false) (k : Nat) :
    (s.count idx k).pmon.counters = s.pmon.counters.set idx (satAdd (s.pmon.counters.get idx 0) k) := by
  unfold State.count
  rw [if_neg (ne_true_of_eq_false alive)]
  extract_lets v pmon counted
  have entered : counted.pmon.counters = s.pmon.counters.set idx v := rfl
  rw [← entered]
  apply counters_foldl
  intro u j
  apply counters_foldl
  intro u _
  apply sampleFire_counters

theorem State.raster_of_uncounted {t : State} (h : t.uncounted = s.uncounted) : t.raster = s.raster := congrArg (fun u => u.raster) h

theorem State.count_raster (idx k : Nat) : (s.count idx k).raster = s.raster := raster_of_uncounted (uncounted_count ..)

theorem State.deadCounter_port (n e : Nat) : s.deadCounter (cntPort n e) = false := by
  unfold State.deadCounter
  rw [decide_eq_false (by unfold cntPort; omega), Bool.false_and]

theorem exec_underrun_dark {n : OutId} (awake : s.inert = false) (dark : (s.raster.sent.get n.val []).length / 3 / s.streamsOf n.val = 0) :
    exec (.underrun n) s = .next s := by
  show execUnderrun n s = _
  unfold execUnderrun
  rw [unlessInert_awake awake]
  exact congrArg Host.Outcome.next (if_pos dark)

theorem exec_underrun {n : OutId} {w : Nat} (awake : s.inert = false) (width : (s.raster.sent.get n.val []).length / 3 / s.streamsOf n.val = w) (lit : 0 < w) :
    ∃ x run, x < w * s.streamsOf n.val ∧ 0 < run ∧ x % w + run ≤ w ∧ ∃ t, exec (.underrun n) s = .next t
      ∧ t.raster.sent.get n.val [] = repeatPixel (s.raster.sent.get n.val []) w x run
      ∧ t.pmon.counters.get (cntPort n.val 0) 0 = satAdd (s.pmon.counters.get (cntPort n.val 0) 0) 1 := by
  let x := s.draw.1.toNat % (w * s.streamsOf n.val)
  let run := 1 + s.draw.2.draw.1.toNat % (w - x % w)
  have streams : 0 < s.streamsOf n.val := by
    refine Nat.pos_of_ne_zero fun unsplit => ?_
    rw [unsplit, Nat.div_zero] at width
    omega
  have column : x % w < w := Nat.mod_lt _ lit
  have fits : s.draw.2.draw.1.toNat % (w - x % w) < w - x % w := Nat.mod_lt _ (Nat.sub_pos_of_lt column)
  let sent := s.draw.2.draw.2.sendCodes n.val (s.tgOf n.val).line.toNat (repeatPixel (s.raster.sent.get n.val []) w x run)
  refine ⟨x, run, Nat.mod_lt _ (Nat.mul_pos lit streams), Nat.add_pos_left Nat.one_pos _, by omega, sent.count (cntPort n.val 0) 1, ?_, ?_, ?_⟩
  · show execUnderrun n s = _
    unfold execUnderrun
    rw [unlessInert_awake awake]
    subst width
    exact congrArg Host.Outcome.next (if_neg (Nat.ne_of_gt lit))
  · rw [State.count_raster]
    exact Tbl.get_set_same ..
  · rw [State.count_counters (State.deadCounter_port ..)]
    exact Tbl.get_set_same ..

/-! ### LID_AREA_UNCORR and RETRY (R320, R458) -/

theorem exec_lidAreaUncorr {n : OutId} {pixel : BitVec 20} (awake : s.inert = false) :
    let mark (l : Lid) : Lid := { l with bad := insertNat pixel.toNat l.bad }
    exec (.lidAreaUncorr n pixel) s = .next (((s.ladleFault 4).count (cntRaster 1) 1).setComp n.val { s.comp n.val with
        lid := mark (s.comp n.val).lid, states := (s.comp n.val).states.map (fun a => { a with lid := mark a.lid }) }) :=
by
  intro mark
  show execLidAreaUncorr n pixel s = _
  unfold execLidAreaUncorr
  rw [unlessInert_awake awake]

theorem exec_retry {k : Fin 4} (awake : s.inert = false) (up : (s.link k.val).up = true) :
    exec (.retry ⟨k, 0⟩) s = .next (s.count (cntLink k.val 1) 1) :=
  (unlessInert_awake awake _).trans (congrArg Host.Outcome.next (if_pos up))

end Sys2Proof.Machine

namespace Sys2Proof
open Machine

theorem linesComplete : Claim.LinesComplete := by
  refine ⟨fun s l r awake run shown inside early read empty => exec_lineQueueArrival awake run shown inside early read empty,
    fun s n y late gainLate a awake runs active state may => composeLine_composes awake runs active state may,
    fun s n pixel awake => ⟨exec_lidAreaUncorr awake, List.contains_iff_mem.1 (contains_insertNat_self ..)⟩,
    fun s n awake => ⟨exec_underrun_dark awake, exec_underrun awake rfl⟩,
    fun s k awake up => exec_retry awake up⟩

end Sys2Proof
end

