-- ==== Sys2Proof/Proofs/PortsComplete.lean ====
section
/-! Commands on ports complete (R337, R338, R341, R342, R348): each changes its own port alone. -/

namespace Sys2Proof.Machine

variable {s t : State} {n : Nat}

/-! ### What leaves every port alone -/

theorem State.dptx_of_uncounted (h : t.uncounted = s.uncounted) : t.dptx = s.dptx := congrArg (fun u => u.dptx) h

theorem State.tgs_of_uncounted (h : t.uncounted = s.uncounted) : t.tgs = s.tgs := congrArg (fun u => u.tgs) h

theorem State.count_dptx (idx k : Nat) : (s.count idx k).dptx = s.dptx := dptx_of_uncounted (uncounted_count ..)

theorem State.devEvent_dptx (status : BitVec 16) (i0 i1 : W32) : (s.devEvent status i0 i1).dptx = s.dptx := dptx_of_uncounted (uncounted_devEvent ..)

theorem State.hpdEvent_dptx : (s.hpdEvent n).dptx = s.dptx := devEvent_dptx ..

theorem State.dptx_foldl {α : Type} (f : State → α → State) (same : ∀ s x, (f s x).dptx = s.dptx) (l : List α) : (l.foldl f s).dptx = s.dptx := by
  induction l generalizing s with
  | nil => rfl
  | cons x l ih => exact ih.trans (same s x)

theorem State.stopGains_dptx : (s.stopGains n).dptx = s.dptx := by
  apply dptx_foldl
  intro s h
  rfl

theorem State.forgetPanel_dptx : (s.forgetPanel n).dptx = s.dptx := stopGains_dptx

theorem State.deriveGains_dptx : (s.deriveGains n).dptx = s.dptx := by
  unfold State.deriveGains
  dsimp only
  split
  · rfl
  · simp only [apply_ite State.dptx, devEvent_dptx, setWear_dptx, ite_self]

theorem State.checkGeometry_dptx : (s.checkGeometry n).dptx = s.dptx := by
  unfold State.checkGeometry
  dsimp only
  split
  · rfl
  · simp only [apply_ite State.dptx, devEvent_dptx, stopGains_dptx, setWear_dptx, ite_self]

theorem State.loadCounters_dptx (p : PanelId) : (s.loadCounters n p).dptx = s.dptx := by
  unfold State.loadCounters
  dsimp only
  split
  · rfl
  · split <;> rfl

theorem State.readPanel_dptx : (s.readPanel n).dptx = s.dptx := by
  unfold State.readPanel
  simp only [apply_ite State.dptx, devEvent_dptx, checkGeometry_dptx, deriveGains_dptx, loadCounters_dptx, setWear_dptx, forgetPanel_dptx, ite_self]

/-- The pages of a module's EEPROM, set one after another. -/
theorem State.setPages_dptx (f : Nat → Mem) (l : List Nat) :
    (l.foldl (fun s i => { s with eeprom := s.eeprom.set (3 * n + i) (f i) }) s).dptx = s.dptx := by
  apply dptx_foldl
  intro s i
  rfl

/-! ### One port alone -/

theorem State.port_of_dptx {x : Dptx} (h : t.dptx = s.dptx.set n x) : t.port n = x := by
  show t.dptx.get n {} = x
  rw [h, Tbl.get_set_same]

theorem State.port_other_of_dptx {x : Dptx} (h : t.dptx = s.dptx.set n x) {m : Nat} (other : m ≠ n) : t.port m = s.port m := by
  show t.dptx.get m {} = _
  rw [h]
  exact Tbl.get_set_other _ other _ _

theorem State.port_congr (h : t.dptx = s.dptx) (m : Nat) : t.port m = s.port m :=
  congrArg (fun d : Tbl Dptx => d.get m {}) h

theorem State.at_port (now : W64) (m : Nat) : (s.at_ now).port m = s.port m := port_congr (at_dptx ..) m

theorem State.at_setPort_dptx (now : W64) (x : Dptx) : ((s.at_ now).setPort n x).dptx = s.dptx.set n x := congrArg (Tbl.set · n x) (at_dptx ..)

/-- A port without what a port fault enters. -/
def Dptx.unfaulted (p : Dptx) : Dptx := { p with faultCode := 0, faultPin := 0, faultOverrun := false, faultValid := false }

theorem Dptx.settings_of_unfaulted {p q : Dptx} (h : p.unfaulted = q.unfaulted) :
    p.maxLanes = q.maxLanes ∧ p.maxRate = q.maxRate ∧ p.mst = q.mst ∧ p.training = q.training :=
  ⟨(congrArg Dptx.maxLanes h :), (congrArg Dptx.maxRate h :), (congrArg Dptx.mst h :), (congrArg Dptx.training h :)⟩

/-- The ports, port n but for its faults, and the generators. -/
def State.portsBut (s : State) (n : Nat) : (Nat → Dptx) × Tbl Tg := (fun m => if m = n then (s.port m).unfaulted else s.port m, s.tgs)

theorem State.portsBut_setPort {x : Dptx} (same : x.unfaulted = (s.port n).unfaulted) : (s.setPort n x).portsBut n = s.portsBut n := by
  refine congrArg (·, s.tgs) (funext fun m => ?_)
  by_cases here : m = n
  · rw [if_pos here, if_pos here, here, State.setPort_port, same]
  · rw [if_neg here, if_neg here, State.setPort_port_other _ _ _ _ here]

theorem State.portsBut_of_uncounted (h : t.uncounted = s.uncounted) : t.portsBut n = s.portsBut n := congrArg (fun u => u.portsBut n) h

theorem State.portsBut_devEvent (status : BitVec 16) (i0 i1 : W32) : (s.devEvent status i0 i1).portsBut n = s.portsBut n :=
  portsBut_of_uncounted (uncounted_devEvent ..)

theorem State.portsBut_portFault (code : BitVec 16) (pin : Option (BitVec 4)) : (s.portFault n code pin).portsBut n = s.portsBut n := by
  have fired : (s.ladleFault 6).portsBut n = s.portsBut n := by
    unfold State.ladleFault
    split <;> rfl
  unfold State.portFault
  refine Eq.trans ?_ fired
  generalize s.ladleFault 6 = u
  dsimp only
  split
  · exact portsBut_setPort rfl
  · cases pin with
    | none => exact portsBut_setPort (s := u.draw.2) rfl
    | some k => exact portsBut_setPort rfl

theorem State.portsBut_reportOpen (lanes : BitVec 4) : (s.reportOpen n lanes).portsBut n = s.portsBut n := by
  unfold State.reportOpen
  split
  · rfl
  · exact (portsBut_devEvent ..).trans (portsBut_portFault ..)

theorem State.portsBut_reportSwaps (x : TrainSense) : (s.reportSwaps n x).portsBut n = s.portsBut n := by
  unfold State.reportSwaps
  split
  · exact (portsBut_devEvent ..).trans (portsBut_portFault ..)
  · rfl

theorem State.unfaulted_of_portsBut (h : t.portsBut n = s.portsBut n) : (t.port n).unfaulted = (s.port n).unfaulted := by
  have here := congrFun (congrArg Prod.fst h) n
  exact (if_pos rfl).symm.trans (here.trans (if_pos rfl))

theorem State.port_other_of_portsBut (h : t.portsBut n = s.portsBut n) {m : Nat} (other : m ≠ n) : t.port m = s.port m := by
  have there := congrFun (congrArg Prod.fst h) m
  exact (if_neg other).symm.trans (there.trans (if_neg other))

theorem State.tgs_of_portsBut (h : t.portsBut n = s.portsBut n) : t.tgs = s.tgs := congrArg Prod.snd h

theorem State.streamLoad_of_tgs (h : t.tgs = s.tgs) (n : Nat) : t.streamLoad n = s.streamLoad n :=
  congrArg (fun d : Tbl Tg => ({ s with tgs := d } : State).streamLoad n) h

theorem State.mstOf_congr (gens : t.tgs = s.tgs) (same : (t.port n).mst = (s.port n).mst) : t.mstOf n = s.mstOf n := by
  have gen : t.tg n = s.tg n := congrArg (fun d : Tbl Tg => d.get n {}) gens
  show (if (t.tg n).paired then 0 else (t.port n).mst) = if (s.tg n).paired then 0 else (s.port n).mst
  rw [gen, same]

theorem Dptx.train_training (p : Dptx) : p.train.training = (p.en && p.hpd && !p.shorted) := rfl

theorem Dptx.train_linkUp (p : Dptx) : p.train.linkUp = false := rfl

/-! ### HPD (R337, R338, R348) -/

section
variable {n : OutId} {now : W64}

theorem exec_hpdPlug {asyncSink : Bool} {panel : List (List Byte)} (awake : s.inert = false) :
    ∃ t, exec (.hpdPlug n asyncSink panel now) s = .next t ∧ t.dptx = s.dptx.set n.val ({ s.port n.val with hpd := true, asyncSink := asyncSink } : Dptx).train := by
  show ∃ t, execHpdPlug n asyncSink panel now s = .next t ∧ _
  unfold execHpdPlug
  rw [unlessInert_awake awake]
  refine ⟨_, rfl, (State.hpdEvent_dptx).trans ?_⟩
  simp only [apply_ite State.dptx, State.readPanel_dptx, State.forgetPanel_dptx, ite_self]
  refine (State.setPages_dptx ..).trans ?_
  rw [State.at_port]
  exact State.at_setPort_dptx ..

theorem exec_hpdUnplug (awake : s.inert = false) :
    ∃ t x, exec (.hpdUnplug n now) s = .next t ∧ t.dptx = s.dptx.set n.val x ∧ x.hpd = false ∧ x.linkUp = false := by
  show ∃ t x, execHpdUnplug n now s = .next t ∧ _
  unfold execHpdUnplug
  rw [unlessInert_awake awake]
  refine ⟨_, ?_, rfl, (State.hpdEvent_dptx).trans ?_, ?_⟩
  rotate_left
  · simp only [apply_ite State.dptx, State.forgetPanel_dptx, ite_self]
    refine (State.setPages_dptx ..).trans ?_
    exact State.at_setPort_dptx ..
  · exact ⟨rfl, rfl⟩

theorem exec_irqHpd (awake : s.inert = false) :
    ∃ t, exec (.irqHpd n now) s = .next t ∧ t.dptx = if (s.port n.val).linkUp then s.dptx else s.dptx.set n.val (s.port n.val).train := by
  show ∃ t, execIrqHpd n now s = .next t ∧ _
  unfold execIrqHpd
  rw [unlessInert_awake awake]
  refine ⟨_, rfl, (State.hpdEvent_dptx).trans ?_⟩
  rw [State.at_port, apply_ite State.dptx, State.at_dptx, State.at_setPort_dptx]

/-! ### Training (R337, R338) -/

theorem exec_dpLinkTraining {x : TrainSense} {l r : Nat} (awake : s.inert = false) (trains : (s.port n.val).training = true) (en : (s.port n.val).en = true)
    (hpd : (s.port n.val).hpd = true) (whole : (s.port n.val).shorted = false)
    (found : (((widestLanes (s.port n.val).maxLanes.toNat x.openLanes).map (trainedConfigs x (s.port n.val).maxRate.toNat)).getD []).find?
      (fun c => linkFits c.2 (laneCount c.1) (s.mstOf n.val).toNat (s.streamLoad n.val).1 (s.streamLoad n.val).2) = some (l, r)) :
    ∃ t, exec (.dpLinkTraining n x now) s = .next t ∧ (t.port n.val).linkUp = true ∧ (t.port n.val).training = false
      ∧ ∀ m, m ≠ n.val → t.port m = s.port m := by
  show ∃ t, execDpLinkTraining n x now s = .next t ∧ _
  unfold execDpLinkTraining
  rw [unlessInert_awake awake]
  extract_lets k u p v q w shown load configs down
  have port : u.port k = s.port k := State.at_port ..
  have ports : v.dptx = s.dptx := (State.count_dptx ..).trans (State.at_dptx ..)
  have reported : w.portsBut k = (v.setPort k q).portsBut k := (State.portsBut_reportSwaps x).trans (State.portsBut_reportOpen x.openLanes)
  have gens : w.tgs = s.tgs := (State.tgs_of_portsBut reported).trans ((State.tgs_of_uncounted (State.uncounted_count ..)).trans (State.at_tgs ..))
  have here : shown.unfaulted = q.unfaulted := (State.unfaulted_of_portsBut reported).trans (congrArg Dptx.unfaulted (State.setPort_port ..))
  obtain ⟨lanes, rate, mst, trained⟩ := Dptx.settings_of_unfaulted here
  have lanes : shown.maxLanes = (s.port n.val).maxLanes := lanes.trans (congrArg Dptx.maxLanes port :)
  have rate : shown.maxRate = (s.port n.val).maxRate := rate.trans (congrArg Dptx.maxRate port :)
  have mst : shown.mst = (s.port n.val).mst := mst.trans (congrArg Dptx.mst port :)
  have search : configs.find? (fun c => linkFits c.2 (laneCount c.1) (w.mstOf k).toNat load.1 load.2) = some (l, r) := by
    unfold configs load
    rw [lanes, rate, State.mstOf_congr gens mst, State.streamLoad_of_tgs gens]
    exact found
  have ready : ¬ (!(p.training && p.en && p.hpd && !p.shorted)) = true := by
    unfold p
    rw [port, trains, en, hpd, whole]
    decide
  rw [if_neg ready, search]
  refine ⟨_, rfl, ?_⟩
  rw [State.setPort_port]
  refine ⟨rfl, trained, fun m other => ?_⟩
  calc (w.setPort k _).port m = w.port m := State.setPort_port_other _ _ _ _ other
    _ = (v.setPort k q).port m := State.port_other_of_portsBut reported other
    _ = v.port m := State.setPort_port_other _ _ _ _ other
    _ = s.port m := State.port_congr ports m

/-! ### RETRAIN (R338) -/

theorem exec_retrain {value : W32} (awake : s.inert = false) (free : bitOf s.locks 3 = false) (en : bitOf value 0 = true) (again : bitOf value 8 = true) :
    ∃ t x, exec (.retrain n value) s = .next t ∧ t.dptx = s.dptx.set n.val x ∧ x.linkUp = false
      ∧ x.training = ((s.port n.val).hpd && !(s.port n.val).shorted) := by
  refine ⟨s.dptxCtlWrite n.val value, _, ?_, rfl, ?_⟩
  · show execRetrain n value s = _
    unfold execRetrain
    rw [unlessInert_awake awake]
    exact congrArg Host.Outcome.next (if_neg (ne_true_of_eq_false free))
  · simp [en, again, Dptx.train_linkUp, Dptx.train_training]

/-! ### AUX (R341, R342) -/

/-- A field of a register keeps its value in a register of its width. -/
theorem ofNat_fieldOf {k : Nat} (value : W32) (msb lsb : Nat) (width : msb + 1 - lsb = k) : (BitVec.ofNat k (fieldOf value msb lsb)).toNat = fieldOf value msb lsb := by
  subst width
  exact (BitVec.toNat_ofNat ..).trans (Nat.mod_eq_of_lt (Nat.mod_lt _ (Nat.two_pow_pos _)))

theorem exec_auxTransaction {value : W32} (awake : s.inert = false) (idle : (s.port n.val).auxBusy = false) :
    ∃ t x, exec (.auxTransaction n value) s = .next t ∧ t.dptx = s.dptx.set n.val x ∧ x.auxBusy = true
      ∧ x.auxAddr = BitVec.ofNat 20 (fieldOf value 19 0) ∧ x.auxCmd = BitVec.ofNat 4 (fieldOf value 27 24) := by
  show ∃ t x, execAuxTransaction n value s = .next t ∧ _
  unfold execAuxTransaction
  rw [unlessInert_awake awake]
  exact ⟨_, _, congrArg Host.Outcome.next (if_neg (ne_true_of_eq_false idle)), State.count_dptx .., rfl, rfl, rfl⟩

theorem exec_auxReply {reply : BitVec 2} {data : List Byte} (awake : s.inert = false) (busy : (s.port n.val).auxBusy = true)
    (whole : (s.port n.val).shorted = false) (short : data.length ≤ 16) :
    ∃ t x, exec (.auxReply n reply data) s = .next t ∧ t.dptx = s.dptx.set n.val x ∧ x.auxBusy = false ∧ x.auxReply = reply
      ∧ x.auxCount.toNat = data.length := by
  show ∃ t x, execAuxReply n reply data s = .next t ∧ _
  unfold execAuxReply
  rw [unlessInert_awake awake]
  simp only [busy, whole, List.take_of_length_le short, Bool.not_true, Bool.false_eq_true, if_false]
  refine ⟨_, _, rfl, rfl, rfl, rfl, ?_⟩
  exact (BitVec.toNat_ofNat ..).trans (Nat.mod_eq_of_lt (by omega))

theorem exec_dprxAuxRequest {rx : Fin 2} {data : List Byte} {count : BitVec 5} (awake : s.inert = false) :
    ∃ t, exec (.dprxAuxRequest rx false 0x50 data count) s = .next t ∧ (t.rx rx.val).reply.length = count.toNat
      ∧ (t.rx rx.val).offset = (s.rx rx.val).offset + count.setWidth 8 ∧ t.dptx = s.dptx := by
  show ∃ t, execDprxAuxRequest rx false 0x50 data count s = .next t ∧ _
  unfold execDprxAuxRequest
  rw [unlessInert_awake awake]
  refine ⟨_, rfl, ?_⟩
  simp

end

end Sys2Proof.Machine

namespace Sys2Proof
open Machine

theorem portsComplete : Claim.PortsComplete := by
  intro s n now awake p others
  have alone {t : State} {x : Dptx} (h : t.dptx = s.dptx.set n.val x) : others t := fun m other => State.port_other_of_dptx h other
  refine ⟨fun asyncSink panel => ?_, ?_, fun down en hpd whole => ?_, fun up => ?_,
    fun x l r trains en hpd whole found => exec_dpLinkTraining awake trains en hpd whole found, fun value free en again => ?_, fun value idle => ?_,
    fun reply data busy whole short => ?_, fun rx data count => exec_dprxAuxRequest awake⟩
  · obtain ⟨t, ran, port⟩ := exec_hpdPlug (n := n) (now := now) (asyncSink := asyncSink) (panel := panel) awake
    refine ⟨t, ran, ?_, ?_, alone port⟩
    · exact congrArg Dptx.hpd (State.port_of_dptx port)
    · refine (congrArg Dptx.training (State.port_of_dptx port)).trans ?_
      rw [Dptx.train_training, Bool.and_true]
  · obtain ⟨t, x, ran, port, gone, down⟩ := exec_hpdUnplug (n := n) (now := now) awake
    rw [← State.port_of_dptx port] at gone down
    exact ⟨t, ran, gone, down, alone port⟩
  · obtain ⟨t, ran, port⟩ := exec_irqHpd (n := n) (now := now) awake
    rw [if_neg (ne_true_of_eq_false down)] at port
    refine ⟨t, ran, (congrArg Dptx.training (State.port_of_dptx port)).trans ?_, alone port⟩
    show (p.en && p.hpd && !p.shorted) = true
    rw [en, hpd, whole]
    rfl
  · obtain ⟨t, ran, port⟩ := exec_irqHpd (n := n) (now := now) awake
    rw [if_pos up] at port
    exact ⟨t, ran, (congrArg Dptx.linkUp (State.port_congr port _)).trans up, fun m _ => State.port_congr port m⟩
  · obtain ⟨t, x, ran, port, down, trains⟩ := exec_retrain (n := n) awake free en again
    rw [← State.port_of_dptx port] at down trains
    exact ⟨t, ran, down, trains, alone port⟩
  · obtain ⟨t, x, ran, port, busy, addr, cmd⟩ := exec_auxTransaction (n := n) (value := value) awake idle
    rw [← State.port_of_dptx port] at busy addr cmd
    refine ⟨t, ran, busy, ?_, ?_, alone port⟩
    · exact (congrArg BitVec.toNat addr).trans (ofNat_fieldOf _ 19 0 rfl)
    · exact (congrArg BitVec.toNat cmd).trans (ofNat_fieldOf _ 27 24 rfl)
  · obtain ⟨t, x, ran, port, ended, answer, bytes⟩ := exec_auxReply (n := n) (reply := reply) awake busy whole short
    rw [← State.port_of_dptx port] at ended answer bytes
    exact ⟨t, ran, ended, answer, bytes, alone port⟩

end Sys2Proof
end

