-- ==== Sys2Proof/Proofs/WearCompletes.lean ====
section
/-! Commands on panel wear complete (R356, R364, R366, R367). -/

namespace Sys2Proof.Machine

variable {s t u : State} {h : DescHdr} {slot n r : Nat}

/-! ### What a descriptor's record depends on -/

/-- A submission ring with its completion ring, and what else the completion of its descriptors looks at. -/
def State.ringView (s : State) (r : Nat) : Bool × W64 × List FenceWait × SubRing × CplRing :=
  (s.inert, s.dtb, s.hif.fences, s.sq r, s.cq (s.sq r).cq.toNat)

theorem State.ringView_of_unmoved (same : t.unmoved = s.unmoved) : t.ringView r = s.ringView r := congrArg (fun u => u.1.ringView r) same

theorem State.ringView_iff : t.ringView r = s.ringView r ↔ t.inert = s.inert ∧ t.dtb = s.dtb ∧ t.hif.fences = s.hif.fences ∧ t.sq r = s.sq r
    ∧ t.cq (t.sq r).cq.toNat = s.cq (s.sq r).cq.toNat := by
  simp only [State.ringView, Prod.mk.injEq]

theorem State.ringView_setCq {q : Nat} (other : q ≠ (s.sq r).cq.toNat) (c : CplRing) : (s.setCq q c).ringView r = s.ringView r :=
  (State.ringView_iff).2 ⟨rfl, rfl, rfl, rfl, State.setCq_cq_other _ _ _ _ other.symm⟩

theorem State.ringView_pushRecord {q : Nat} (other : q ≠ (s.sq r).cq.toNat) (x : Record) : (s.pushRecord q x).ringView r = s.ringView r := by
  unfold State.pushRecord
  dsimp only
  split
  · exact (ringView_of_unmoved (unmoved_count ..)).trans (ringView_setCq other _)
  · exact ringView_setCq other _

/-- An event of the device leaves alone every ring whose records go elsewhere. -/
theorem State.ringView_devEvent (other : s.hif.evtCq ≠ (s.sq r).cq) (status : BitVec 16) (i0 i1 : W32) :
    (s.devEvent status i0 i1).ringView r = s.ringView r := by
  have other : s.hif.evtCq.toNat ≠ (s.sq r).cq.toNat := fun same => other (BitVec.eq_of_toNat_eq same)
  unfold State.devEvent State.pushEvent
  dsimp only
  split
  · exact ringView_setCq other _
  · exact (ringView_pushRecord (s := s.setCq s.hif.evtCq.toNat _) other _).trans (ringView_setCq other _)

theorem State.ringView_deriveGains (other : s.hif.evtCq ≠ (s.sq r).cq) : (s.deriveGains n).ringView r = s.ringView r := by
  unfold State.deriveGains
  dsimp only
  split
  · rfl
  · split
    · exact ringView_devEvent (s := s.setWear n _) other ..
    · rfl

theorem State.Sole.of_ringView (H : s.Sole h slot) (same : t.ringView h.sq.val = s.ringView h.sq.val) : t.Sole h slot := by
  obtain ⟨inert, -, fences, ring, records⟩ := (State.ringView_iff).1 same
  exact ⟨inert.trans H.awake, ring ▸ H.alone, ring ▸ H.running, fences.trans H.fences, records ▸ H.free⟩

/-- A descriptor completes when what its record depends on stands as at its start. -/
theorem State.Sole.reports_complete (H : s.Sole h slot) (same : u.ringView h.sq.val = (s.start h).ringView h.sq.val) (op : Byte) {status : BitVec 16}
    (admitted : status ≠ stAdmitDenied) : s.Reports (u.complete h op status) h slot op status := by
  have done : u.complete h op status = u.reported h slot op status 0 0 0 0 := (H.started.of_ringView same).complete op admitted 0 0 0 0
  refine H.reports_of_start ?_
  rw [done]
  obtain ⟨-, now, -, ring, records⟩ := (State.ringView_iff).1 same
  obtain ⟨i1, i2, cause, written, left⟩ := State.reported_reports (s := u) (h := h) (slot := slot) (op := op) (status := status) (i0 := 0) (i1 := 0) (i2 := 0) (cause := 0)
  refine ⟨i1, i2, cause, ?_, left⟩
  rw [← records, ← now, ← ring]
  exact written

/-! ### PANEL_WEAR_SYNC (R364 to R367) -/

variable {b : WearBody} {p : PanelId}

/-- An accepted identity and a buffer that holds its checkpoint, reached: the work begins. -/
theorem State.wearBuffer_serves {save : Bool} (k : State → Nat → PanelId → State) (known : (s.wear (s.governor b.output.val)).identity = some p)
    (room : p.hostBytes ≤ b.bufBytes.toNat) (clear : b.host = false → s.guarded b.buffer.toNat p.hostBytes = false)
    (present : b.host = true → s.absentIn b.buffer.toNat p.hostBytes save = none) : s.wearBuffer h b save k = k s (s.governor b.output.val) p := by
  have formed : (decide (b.bufBytes.toNat < p.hostBytes) || !b.host && s.guarded b.buffer.toNat p.hostBytes) = false := by
    rw [decide_eq_false (Nat.not_lt.2 room), Bool.false_or, Bool.and_eq_false_imp]
    exact fun own => clear (Bool.not_inj own)
  have here : (b.host && (s.absentIn b.buffer.toNat p.hostBytes save).isSome) = false := by
    rw [Bool.and_eq_false_imp]
    exact fun host => by rw [present host]; rfl
  unfold State.wearBuffer
  dsimp only
  rw [known]
  exact (if_neg (ne_true_of_eq_false formed)).trans (if_neg (ne_true_of_eq_false here))

theorem State.ringView_memWrite (host : Bool) (a : Nat) (l : List Byte) : (s.memWrite host a l).ringView r = s.ringView r := by
  unfold State.memWrite
  split <;> rfl

theorem State.Sole.start_governor (H : s.Sole h slot) (n : Nat) : (s.start h).governor n = s.governor n := by
  obtain ⟨x, -, -, -, -, e⟩ := H.start
  exact congrArg (fun u => u.governor n) e

theorem State.Sole.start_wear (H : s.Sole h slot) (n : Nat) : (s.start h).wear n = s.wear n := by
  obtain ⟨x, -, -, -, -, e⟩ := H.start
  exact congrArg (fun u => u.wear n) e

section Sync

variable (H : s.Sole h slot) (known : (s.wear (s.governor b.output.val)).identity = some p) (room : p.hostBytes ≤ b.bufBytes.toNat)
  (clear : b.host = false → (s.start h).guarded b.buffer.toNat p.hostBytes = false)
include H known room clear

theorem panelWearSave_reports (present : b.host = true → (s.start h).absentIn b.buffer.toNat p.hostBytes true = none) :
    ∃ t, exec (.panelWearSave h b true) s = .next t ∧ s.Reports t h slot opWearSync stOk := by
  rw [← H.start_governor, ← H.start_wear] at known
  show ∃ t, execPanelWearSave h b true s = .next t ∧ _
  unfold execPanelWearSave
  rw [H.runs, State.wearBuffer_serves _ known room clear present]
  extract_lets w seq page host stored panel
  have written (pages : Tbl Mem) : ({ stored with eeprom := pages } : State).ringView h.sq.val = (s.start h).ringView h.sq.val := State.ringView_memWrite ..
  obtain ⟨bw, bh⟩ := p.blocks
  exact ⟨_, congrArg Host.Outcome.next (if_pos rfl), H.reports_complete (written _) opWearSync (by decide)⟩

theorem panelWearRestore_reports (present : b.host = true → (s.start h).absentIn b.buffer.toNat p.hostBytes = none)
    (clean : b.host = true ∨ (s.start h).hbmPoisoned b.buffer.toNat p.hostBytes = false)
    (verifies : (s.start h).checkpointOk (fun o k => (s.start h).memRead b.host (b.buffer.toNat + o) k) 1 p p.hNative p.vNative (12 * p.hNative * p.vNative) = true)
    (recent : (s.start h).topSeq (s.governor b.output.val) p ≤ leNat ((s.start h).memRead b.host (b.buffer.toNat + 8) 8))
    (elsewhere : s.hif.evtCq ≠ (s.sq h.sq.val).cq) :
    ∃ t, exec (.panelWearRestore h b) s = .next t ∧ s.Reports t h slot opWearSync stOk := by
  have sound : (!b.host && (s.start h).hbmPoisoned b.buffer.toNat p.hostBytes) = false := by
    rcases clean with host | clean
    · rw [host]; rfl
    · rw [clean, Bool.and_false]
  have elsewhere : (s.start h).hif.evtCq ≠ ((s.start h).sq h.sq.val).cq := by
    obtain ⟨x, -, -, -, -, e⟩ := H.start
    rw [e, State.marked_sq, State.sq_setSq]
    exact elsewhere
  rw [← H.start_governor] at recent
  rw [← H.start_governor, ← H.start_wear] at known
  show ∃ t, execPanelWearRestore h b s = .next t ∧ _
  unfold execPanelWearRestore
  rw [H.runs, State.wearBuffer_serves _ known room clear present]
  simp only [sound, verifies, recent, decide_true, Bool.not_false, Bool.and_self, if_true]
  exact ⟨_, rfl, H.reports_complete (State.ringView_deriveGains (s := (s.start h).setWear _ _) elsewhere) opWearSync (by decide)⟩

end Sync

/-! ### PWU_SAMPLE (R356) -/

theorem State.wear_of_uncounted (same : t.uncounted = s.uncounted) (n : Nat) : t.wear n = s.wear n := congrArg (fun u => u.wear n) same

theorem State.deriveGains_sampled : ((s.deriveGains n).wear n).samples = (s.wear n).samples ∧ ((s.deriveGains n).wear n).shot = (s.wear n).shot := by
  unfold State.deriveGains
  dsimp only
  split
  · exact ⟨rfl, rfl⟩
  · split
    · rw [State.wear_of_uncounted (State.uncounted_devEvent ..), State.setWear_wear]
      exact ⟨rfl, rfl⟩
    · rw [State.setWear_wear]
      exact ⟨rfl, rfl⟩

theorem State.at_wear (now : W64) (n : Nat) : (s.at_ now).wear n = s.wear n :=
  congrArg (fun d : Tbl Pwu => d.get n {}) (State.at_pwu ..)

theorem State.at_governor (now : W64) (n : Nat) : (s.at_ now).governor n = s.governor n :=
  congrArg (fun g : Tg => if g.paired then n / 2 * 2 else n) (State.at_tg ..)

theorem exec_pwuSample {out : OutId} {now : W64} {f : Shot} (awake : s.inert = false) (known : (s.wear (s.governor out.val)).identity = some p)
    (kept : (s.wear (s.governor out.val)).shot = some f) (fits : (s.wear (s.governor out.val)).geometry = false) (up : f.up = true) :
    ∃ t, exec (.pwuSample out now) s = .next t ∧ (t.wear (s.governor out.val)).samples = (s.wear (s.governor out.val)).samples + 1
      ∧ (t.wear (s.governor out.val)).shot = none := by
  show ∃ t, execPwuSample out now s = .next t ∧ _
  unfold execPwuSample
  rw [unlessInert_awake awake]
  simp only [State.at_governor, State.at_wear, known, kept, fits, up, Bool.not_true, Bool.false_eq_true, if_false]
  refine ⟨_, rfl, ?_⟩
  rw [State.wear_of_uncounted (State.uncounted_count ..), (State.deriveGains_sampled).1, (State.deriveGains_sampled).2, State.setWear_wear]
  exact ⟨rfl, rfl⟩

end Sys2Proof.Machine

namespace Sys2Proof
open Machine

theorem wearCompletes : Claim.WearCompletes := by
  refine ⟨?_, fun s out now p f awake known kept fits up => exec_pwuSample awake known kept fits up⟩
  intro s h slot b p H n v known room clear present rd
  exact ⟨fun writable => panelWearSave_reports H known room clear writable,
    fun clean verifies recent elsewhere => panelWearRestore_reports H known room clear present clean verifies recent elsewhere⟩

/-- Settles O60: each command runs past its checks to an effect on its own line, port or panel. -/
theorem displayCommandsComplete : Obligations.DisplayCommandsComplete := ⟨linesComplete, portsComplete, wearCompletes⟩

end Sys2Proof
end

