-- ==== Sys2Proof/Proofs/WearCounters.lean ====
section
/-! Panel wear: what a save writes, which counters a restore takes back, and what a sample adds (R356, R357, R364, R366, R367). -/

namespace Sys2Proof.Machine

variable {s t u : State} {h : DescHdr} {slot n : Nat} {b : WearBody} {p : PanelId} {f : Shot}

/-! ### What shared operations leave of memory and of the wear units -/

/-- Bytes read where they were written, in HBM or in host memory. -/
theorem State.memRead_memWrite (host : Bool) (a : Nat) (l : List Byte) : (s.memWrite host a l).memRead host a l.length = l := by
  cases host <;> exact readBytes_write ..

theorem State.memWrite_pwu (host : Bool) (a : Nat) (l : List Byte) : (s.memWrite host a l).pwu = s.pwu := by
  unfold State.memWrite
  split <;> rfl

theorem State.Sole.start_pwu (H : s.Sole h slot) : (s.start h).pwu = s.pwu := by
  obtain ⟨x, -, -, -, -, e⟩ := H.start
  exact congrArg (fun u => u.pwu) e

theorem State.Sole.start_elsewhere (H : s.Sole h slot) (elsewhere : s.hif.evtCq ≠ (s.sq h.sq.val).cq) :
    (s.start h).hif.evtCq ≠ ((s.start h).sq h.sq.val).cq := by
  obtain ⟨x, -, -, -, -, e⟩ := H.start
  rw [e, State.marked_sq, State.sq_setSq]
  exact elsewhere

/-- Deriving gains touches, of a wear unit, the gains that wait and the end-of-life flag. -/
theorem State.deriveGains_wear : ∃ gains eol, (s.deriveGains n).wear n = { s.wear n with gainsNext := gains, eol := eol } := by
  unfold State.deriveGains
  dsimp only
  split
  · exact ⟨_, _, rfl⟩
  · split
    · exact ⟨_, _, (State.wear_of_uncounted (State.uncounted_devEvent ..) n).trans (State.setWear_wear ..)⟩
    · exact ⟨_, _, State.setWear_wear ..⟩

/-- A descriptor whose record depends on nothing that changed since its start completes by its record alone: memory and wear units stay. -/
theorem State.Sole.complete_keeps (H : s.Sole h slot) (same : u.ringView h.sq.val = (s.start h).ringView h.sq.val) (op : Byte) {status : BitVec 16}
    (admitted : status ≠ stAdmitDenied) : (u.complete h op status).memRead = u.memRead ∧ (u.complete h op status).pwu = u.pwu := by
  have done : u.complete h op status = u.reported h slot op status 0 0 0 0 := (H.started.of_ringView same).complete op admitted 0 0 0 0
  rw [done]
  exact ⟨rfl, rfl⟩

/-! ### PANEL_WEAR_SYNC (R364 to R367) -/

/-- The host checkpoint that a save of output n writes (R366). -/
def State.wearImage (s : State) (n : Nat) (p : PanelId) : List Byte :=
  checkpoint 1 (s.topSeq n p + 1) p (s.wear n).samples p.hNative p.vNative ((s.wear n).hostData p)

/-- A buffer holds a host checkpoint that verifies and is no older than the panel's (R367). -/
def State.Restorable (s : State) (n : Nat) (b : WearBody) (p : PanelId) : Prop :=
  (b.host = true ∨ s.hbmPoisoned b.buffer.toNat p.hostBytes = false)
    ∧ s.checkpointOk (fun o k => s.memRead b.host (b.buffer.toNat + o) k) 1 p p.hNative p.vNative (12 * p.hNative * p.vNative) = true
    ∧ s.topSeq n p ≤ leNat (s.memRead b.host (b.buffer.toNat + 8) 8)

/-- The counters of the host checkpoint in a buffer (Table 13.2). -/
def State.savedCounters (s : State) (b : WearBody) (p : PanelId) : Tbl W32 :=
  ⟨(List.range (3 * p.hNative * p.vNative)).map (fun i =>
    (i, BitVec.ofNat 32 (leAt (s.memRead b.host (b.buffer.toNat + 0x220) (12 * p.hNative * p.vNative)) (4 * i) 4)))⟩

/-- The wear unit of output n with the counters of the buffer (R367). -/
def State.restored (s : State) (n : Nat) (b : WearBody) (p : PanelId) : State :=
  (s.setWear n { s.wear n with counters := s.savedCounters b p, coarse := false, frozen := [] }).deriveGains n

theorem State.restored_wear : ((s.restored n b p).wear n).coarse = false ∧ ((s.restored n b p).wear n).counters = s.savedCounters b p := by
  obtain ⟨gains, eol, derived⟩ := State.deriveGains_wear (n := n)
    (s := s.setWear n { s.wear n with counters := s.savedCounters b p, coarse := false, frozen := [] })
  rw [State.setWear_wear] at derived
  rw [State.restored, derived]
  exact ⟨rfl, rfl⟩

theorem State.ringView_restored {r : Nat} (elsewhere : s.hif.evtCq ≠ (s.sq r).cq) : (s.restored n b p).ringView r = s.ringView r :=
  State.ringView_deriveGains (s := s.setWear n _) elsewhere

theorem State.savedCounters_get {i : Nat} (inside : i < 3 * p.hNative * p.vNative) : (s.savedCounters b p).get i 0 =
    BitVec.ofNat 32 (leAt (s.memRead b.host (b.buffer.toNat + 0x220) (12 * p.hNative * p.vNative)) (4 * i) 4) :=
  Tbl.get_map_range _ _ inside

section Sync

variable (H : s.Sole h slot) (known : (s.wear (s.governor b.output.val)).identity = some p) (room : p.hostBytes ≤ b.bufBytes.toNat)
  (clear : b.host = false → (s.start h).guarded b.buffer.toNat p.hostBytes = false)
include H known room clear

/-- A save writes the checkpoint to the buffer and changes some pages of panel memory besides; the panel's answer decides the status. -/
theorem exec_panelWearSave (panelOk : Bool) (writable : b.host = true → (s.start h).absentIn b.buffer.toNat p.hostBytes true = none) :
    ∃ pages, exec (.panelWearSave h b panelOk) s = .next (State.complete
      { (s.start h).memWrite b.host b.buffer.toNat ((s.start h).wearImage (s.governor b.output.val) p) with eeprom := pages }
      h opWearSync (if panelOk then stOk else stPanelSyncFail)) := by
  rw [← H.start_governor, ← H.start_wear] at known
  show ∃ pages, execPanelWearSave h b panelOk s = _
  unfold execPanelWearSave
  rw [H.runs, State.wearBuffer_serves _ known room clear writable, H.start_governor]
  cases panelOk <;> exact ⟨_, rfl⟩

theorem panelWearSave_writes (panelOk : Bool) (writable : b.host = true → (s.start h).absentIn b.buffer.toNat p.hostBytes true = none) :
    let image := (s.start h).wearImage (s.governor b.output.val) p
    Ends (.panelWearSave h b panelOk) s (fun t => t.memRead b.host b.buffer.toNat image.length = image ∧ t.pwu = s.pwu
      ∧ s.Reports t h slot opWearSync (if panelOk then stOk else stPanelSyncFail)) := by
  intro image
  obtain ⟨pages, runs⟩ := exec_panelWearSave H known room clear panelOk writable
  let stored := (s.start h).memWrite b.host b.buffer.toNat image
  have same : ({ stored with eeprom := pages } : State).ringView h.sq.val = (s.start h).ringView h.sq.val := State.ringView_memWrite ..
  have admitted : (if panelOk then stOk else stPanelSyncFail) ≠ stAdmitDenied := by cases panelOk <;> decide
  obtain ⟨memory, units⟩ := H.complete_keeps same opWearSync admitted
  refine ⟨_, runs, ?_, ?_, H.reports_complete same opWearSync admitted⟩
  · rw [memory]
    exact State.memRead_memWrite (s := s.start h) ..
  · exact units.trans ((State.memWrite_pwu ..).trans H.start_pwu)

open Classical in
/-- A restore takes a checkpoint back or changes nothing but its own record. -/
theorem exec_panelWearRestore (present : b.host = true → (s.start h).absentIn b.buffer.toNat p.hostBytes = none) :
    exec (.panelWearRestore h b) s = .next (if (s.start h).Restorable (s.governor b.output.val) b p
      then ((s.start h).restored (s.governor b.output.val) b p).complete h opWearSync stOk
      else (s.start h).complete h opWearSync stPanelSyncFail) := by
  rw [← H.start_governor, ← H.start_wear] at known
  show execPanelWearRestore h b s = _
  unfold execPanelWearRestore
  rw [H.runs, State.wearBuffer_serves _ known room clear present, H.start_governor]
  refine congrArg Host.Outcome.next (if_congr ?_ rfl rfl)
  unfold State.Restorable
  simp [and_assoc]

theorem panelWearRestore_takes (present : b.host = true → (s.start h).absentIn b.buffer.toNat p.hostBytes = none)
    (good : (s.start h).Restorable (s.governor b.output.val) b p) (elsewhere : s.hif.evtCq ≠ (s.sq h.sq.val).cq) :
    Ends (.panelWearRestore h b) s (fun t => s.Reports t h slot opWearSync stOk ∧ (t.wear (s.governor b.output.val)).coarse = false
      ∧ (t.wear (s.governor b.output.val)).counters = (s.start h).savedCounters b p) := by
  have same := State.ringView_restored (n := s.governor b.output.val) (b := b) (p := p) (H.start_elsewhere elsewhere)
  have units := (H.complete_keeps same opWearSync (status := stOk) (by decide)).2
  have unit := congrArg (fun d : Tbl Pwu => d.get (s.governor b.output.val) {}) units
  exact ⟨_, (exec_panelWearRestore H known room clear present).trans (congrArg _ (if_pos good)), H.reports_complete same opWearSync (by decide),
    (congrArg Pwu.coarse unit).trans State.restored_wear.1, (congrArg Pwu.counters unit).trans State.restored_wear.2⟩

theorem panelWearRestore_refuses (present : b.host = true → (s.start h).absentIn b.buffer.toNat p.hostBytes = none)
    (bad : ¬ (s.start h).Restorable (s.governor b.output.val) b p) :
    Ends (.panelWearRestore h b) s (fun t => s.Reports t h slot opWearSync stPanelSyncFail ∧ t.pwu = s.pwu) :=
  ⟨_, (exec_panelWearRestore H known room clear present).trans (congrArg _ (if_neg bad)), H.reports_complete rfl opWearSync (by decide),
    (H.complete_keeps rfl opWearSync (by decide)).2.trans H.start_pwu⟩

end Sync

/-! ### PWU_SAMPLE (R356, R357) -/

/-- The frame that ends is kept where it was due, and the next one is due where it is the first of its period. -/
theorem State.turnShot_wear (now : W64) :
    let k := (s.turnShot n (some now)).wear n
    let w := s.wear n
    k.due = decide (some (now.toNat / 2 ^ 30) ≠ w.lastSlot) ∧ (w.due = false → k.shot = w.shot)
      ∧ (w.due = true → ∃ r, k.shot = some r ∧ r.up = ((s.port n).upAll && (!(s.tg n).paired || (s.port (n + 1)).upAll))
        ∧ r.depth = bitsPer (s.tg n).eff.bpc.toNat ∧ r.lower = s.raster.lines.get n {}) := by
  intro k w
  have turned : k = _ := State.setWear_wear ..
  rw [turned]
  refine ⟨rfl, fun idle => ?_, fun due => ⟨_, if_pos due, rfl, rfl, rfl⟩⟩
  exact if_neg (ne_true_of_eq_false idle)

/-- Counter i after a sample: a pixel frozen by an error keeps its own, every other grows by the stress of its code, at most to all ones (R357). -/
def Pwu.grown (w : Pwu) (p : PanelId) (f : Shot) (i : Nat) : W32 :=
  if w.frozen.contains (i / 3) then w.counters.get i 0
  else satAdd (w.counters.get i 0) (p.stress.getD (256 * (i % 3) + stressIndex f.depth (f.code (i / 3 % p.hNative) (i / 3 / p.hNative) (i % 3))) 0).toNat

theorem Pwu.stressed_get (w : Pwu) {i : Nat} (inside : i < 3 * p.hNative * p.vNative) : (w.stressed p f).get i 0 = w.grown p f i := by
  have listed : w.stressed p f = ⟨(List.range (3 * p.hNative * p.vNative)).map fun i => (i, w.grown p f i)⟩ :=
    congrArg (fun g => Tbl.mk (List.map g _)) (funext fun j => (apply_ite (Prod.mk j) _ _ _).symm)
  rw [listed, Tbl.get_map_range _ _ inside]

section Sample

variable {out : OutId} {now : W64} (awake : s.inert = false) (known : (s.wear (s.governor out.val)).identity = some p)
  (kept : (s.wear (s.governor out.val)).shot = some f) (fits : (s.wear (s.governor out.val)).geometry = false)
include awake known kept fits

theorem pwuSample_counts (up : f.up = true) : Ends (.pwuSample out now) s (fun t =>
    (t.wear (s.governor out.val)).samples = (s.wear (s.governor out.val)).samples + 1 ∧ (t.wear (s.governor out.val)).shot = none
      ∧ (t.wear (s.governor out.val)).counters = (s.wear (s.governor out.val)).stressed p f) := by
  show ∃ t, execPwuSample out now s = .next t ∧ _
  unfold execPwuSample
  rw [unlessInert_awake awake]
  simp only [State.at_governor, State.at_wear, known, kept, fits, up, Bool.not_true, Bool.false_eq_true, if_false]
  refine ⟨_, rfl, ?_⟩
  obtain ⟨gains, eol, derived⟩ := State.deriveGains_wear (n := s.governor out.val) (s := (s.at_ now).setWear _ _)
  rw [State.wear_of_uncounted (State.uncounted_count ..), derived, State.setWear_wear]
  exact ⟨rfl, rfl, rfl⟩

/-- A frame whose link was down for part of it is skipped, and counted as such. -/
theorem pwuSample_skips (down : f.up = false) : exec (.pwuSample out now) s =
    .next (((s.at_ now).setWear (s.governor out.val) { s.wear (s.governor out.val) with shot := none }).count (cntPwu (s.governor out.val) 2) 1) := by
  show execPwuSample out now s = _
  unfold execPwuSample
  rw [unlessInert_awake awake]
  simp only [State.at_governor, State.at_wear, known, kept, fits, down, Bool.not_false, Bool.false_eq_true, if_false, if_true]

end Sample

end Sys2Proof.Machine

namespace Sys2Proof
open Machine

theorem wearSaveAndRestore : Claim.WearSaveAndRestore := by
  intro s h slot b p H n v w known room clear present writable image
  have written (panelOk : Bool) (may : writable) := panelWearSave_writes H known room clear panelOk may
  rw [State.wearImage, H.start_wear] at written
  refine ⟨written true, written false, fun elsewhere => ?_⟩
  by_cases good : v.Restorable n b p
  · obtain ⟨t, runs, reports, precise, counters⟩ := panelWearRestore_takes H known room clear present good elsewhere
    exact ⟨t, runs, fun _ => ⟨reports, precise, fun i inside => counters ▸ State.savedCounters_get inside⟩, fun bad => absurd good bad⟩
  · obtain ⟨t, runs, refused⟩ := panelWearRestore_refuses H known room clear present good
    exact ⟨t, runs, fun fine => absurd fine good, fun _ => refused⟩

theorem wearSamples : Claim.WearSamples := by
  intro s out now p f awake n v g w up
  refine ⟨State.turnShot_wear now, fun known kept fits => ⟨fun sent => ?_, pwuSample_skips awake known kept fits⟩⟩
  obtain ⟨t, runs, samples, shot, counters⟩ := pwuSample_counts (now := now) awake known kept fits sent
  exact ⟨t, runs, samples, shot, fun i inside => counters ▸ w.stressed_get inside⟩

/-- Settles O49: a save and a restore move whole checkpoints, and a sample adds one stress to each counter that is not frozen. -/
theorem wearCounters : Obligations.WearCounters := ⟨wearSaveAndRestore, wearSamples⟩

end Sys2Proof
end

