-- ==== Sys2Proof/Proofs/MemoriesCanonical.lean ====
section
/-! Memories stay in canonical form: after a reset, and through every step (R373, R511). -/

namespace Sys2Proof.Machine

/-- Every command keeps what level 0 of `State.Within` names: the queue, canonical memories, and fuses that only advance. The cases follow
the constructors of `Instr`, each by the lemma about the operation that executes it. -/
theorem exec_within {c : Instr} {s t : State} (h : exec c s = .next t) : s.Within 0 t := by
  cases c <;> unfold exec at h
  · exact execNop_within (State.Within.refl s) h
  · exact execFence_within (State.Within.refl s) h
  · exact execCtxOpen_within (State.Within.refl s) h
  · exact execCtxClose_within (State.Within.refl s) h
  · exact execModelBind_within (State.Within.refl s) h
  · exact execStreamStart_within (State.Within.refl s) h
  · exact execStreamStop_within (State.Within.refl s) h
  · exact execFrameSubmit_within (State.Within.refl s) h
  · exact execLayerSet_within (State.Within.refl s) h
  · exact execCommit_within (State.Within.refl s) h
  · exact execWritebackSet_within (State.Within.refl s) h
  · exact execJobRun_within (State.Within.refl s) h
  · exact execCopy_within (State.Within.refl s) h
  · exact execSnapshot_within (State.Within.refl s) h
  · exact execPanelWearSave_within (State.Within.refl s) h
  · exact execPanelWearRestore_within (State.Within.refl s) h
  · exact execCounterDump_within (State.Within.refl s) h
  · exact execDescriptorTake_within (State.Within.refl s) h
  · exact execSqTailPoll_within (State.Within.refl s) h
  · exact execRingSleep_within (State.Within.refl s) h
  · exact execKick_within (State.Within.refl s) h
  · exact execCompletionRecordWrite_within (State.Within.refl s) h
  · exact execCqHeadPoll_within (State.Within.refl s) h
  · exact execMsixModerationTimer_within (State.Within.refl s) h
  · exact execRingEnable_within (State.Within.refl s) h
  · exact execBar4Access_within (State.Within.refl s) h
  · exact execAtsInvalidation_within (State.Within.refl s) h
  · exact execPageResponse_within (State.Within.refl s) h
  · exact execPriTimeout_within (State.Within.refl s) h
  · exact execPageLate_within (State.Within.refl s) h
  · exact execStreamMoverTransferDone_within (State.Within.refl s) h
  · exact execFrameStaged_within (State.Within.refl s) h
  · exact execLineTick_within (State.Within.refl s) h
  · exact execStripeStart_within (State.Within.refl s) h
  · exact execSimmerYield_within (State.Within.refl s) h
  · exact execSimmerResume_within (State.Within.refl s) h
  · exact execDispatch_within (State.Within.refl s) h
  · exact execLineQueueArrival_within (State.Within.refl s) h
  · exact execComposeLine_within (State.Within.refl s) h
  · exact execLidAreaUncorr_within (State.Within.refl s) h
  · exact execUnderrun_within (State.Within.refl s) h
  · exact execSeqNop_within (State.Within.refl s) h
  · exact execEnd_within (State.Within.refl s) h
  · exact execWait_within (State.Within.refl s) h
  · exact execSignal_within (State.Within.refl s) h
  · exact execMxuPass_within (State.Within.refl s) h
  · exact execVuDrain_within (State.Within.refl s) h
  · exact execVuEw_within (State.Within.refl s) h
  · exact execVuDw_within (State.Within.refl s) h
  · exact execVuPool_within (State.Within.refl s) h
  · exact execVuArgmax_within (State.Within.refl s) h
  · exact execVuTfn_within (State.Within.refl s) h
  · exact execVuFft_within (State.Within.refl s) h
  · exact execPtmBuild_within (State.Within.refl s) h
  · exact execVuLoad_within (State.Within.refl s) h
  · exact execVuStore_within (State.Within.refl s) h
  · exact execVuTload_within (State.Within.refl s) h
  · exact execSeCapture_within (State.Within.refl s) h
  · exact execSeRegroup_within (State.Within.refl s) h
  · exact execDmaIn_within (State.Within.refl s) h
  · exact execDmaOut_within (State.Within.refl s) h
  · exact execNwRead_within (State.Within.refl s) h
  · exact execNwWrite_within (State.Within.refl s) h
  · exact execWinOpen_within (State.Within.refl s) h
  · exact execWinClose_within (State.Within.refl s) h
  · exact execFill_within (State.Within.refl s) h
  · exact execFcCopy_within (State.Within.refl s) h
  · exact execRhzKeep_within (State.Within.refl s) h
  · exact execCommandComplete_within (State.Within.refl s) h
  · exact execStepCommit_within (State.Within.refl s) h
  · exact execRemoteSignalArrival_within (State.Within.refl s) h
  · exact execTagTimeout_within (State.Within.refl s) h
  · exact execSemTimeout_within (State.Within.refl s) h
  · exact execRemoteAccessArrival_within (State.Within.refl s) h
  · exact execCombineRequest_within (State.Within.refl s) h
  · exact execCombinePartialArrival_within (State.Within.refl s) h
  · exact execMcastCreditReturn_within (State.Within.refl s) h
  · exact execMcastEvict_within (State.Within.refl s) h
  · exact execRhizomeChunkArrival_within (State.Within.refl s) h
  · exact execParityError_within (State.Within.refl s) h
  · exact execCacheLineParity_within (State.Within.refl s) h
  · exact execPrivateParityError_within (unit := ‹_›) (State.Within.refl s) h
  · exact execHeartbeatTimeout_within (State.Within.refl s) h
  · exact execFrondFailed_within (State.Within.refl s) h
  · exact execRepairStopComplete_within (State.Within.refl s) h
  · exact execRepairRestoreComplete_within (State.Within.refl s) h
  · exact execStepCheckpointTimer_within (State.Within.refl s) h
  · exact execHbmUncorr_within (State.Within.refl s) h
  · exact execSvcWatchdog_within (State.Within.refl s) h
  · exact execSvcRestartComplete_within zero_lt_two (State.Within.refl s) h
  · exact execBeamLeadWrite_within (State.Within.refl s) h
  · exact execLschOutDisable_within (State.Within.refl s) h
  · exact execTspSegGate_within (State.Within.refl s) h
  · exact execTspSegEnable_within (State.Within.refl s) h
  · exact execTspSegShutdownDone_within (State.Within.refl s) h
  · exact execTspSegPowerupDone_within (State.Within.refl s) h
  · exact execCacheStepsWrite_within (State.Within.refl s) h
  · exact execTgEnable_within (State.Within.refl s) h
  · exact execTgStart_within (State.Within.refl s) h
  · exact execTgDisable_within (State.Within.refl s) h
  · exact execUpd_within (State.Within.refl s) h
  · exact execPair_within (State.Within.refl s) h
  · exact execTeEdge_within (State.Within.refl s) h
  · exact execCaptureLockEvent_within (State.Within.refl s) h
  · exact execHpdPlug_within (State.Within.refl s) h
  · exact execHpdUnplug_within (State.Within.refl s) h
  · exact execIrqHpd_within (State.Within.refl s) h
  · exact execDpLinkTraining_within (State.Within.refl s) h
  · exact execRetrain_within zero_lt_two (State.Within.refl s) h
  · exact execAuxTransaction_within (State.Within.refl s) h
  · exact execAuxReply_within (State.Within.refl s) h
  · exact execPortShort_within (State.Within.refl s) h
  · exact execPortPinTest_within (State.Within.refl s) h
  · exact execCaptureFrame_within (State.Within.refl s) h
  · exact execCaptureLost_within (State.Within.refl s) h
  · exact execPwuSample_within (State.Within.refl s) h
  · exact execLid_within zero_lt_two (State.Within.refl s) h
  · exact execAttest_within zero_lt_two (State.Within.refl s) h
  · exact execFwWrite_within zero_lt_two (State.Within.refl s) h
  · exact execTrustUpdate_within zero_lt_two (State.Within.refl s) h
  · exact execDebugToken_within zero_lt_two (State.Within.refl s) h
  · exact execSvnAdvance_within zero_lt_two (State.Within.refl s) h
  · exact execConfigWrite_within zero_lt_two (State.Within.refl s) h
  · exact execXspiOpComplete_within zero_lt_two (State.Within.refl s) h
  · exact execLinkEnable_within (State.Within.refl s) h
  · exact execLwlTrainRetry_within (State.Within.refl s) h
  · exact execRingWrite_within (State.Within.refl s) h
  · exact execRetry_within (State.Within.refl s) h
  · exact execLinkFailed_within (State.Within.refl s) h
  · exact execLwlLatencyMeasure_within (State.Within.refl s) h
  · exact execDtbTimeMessage_within (State.Within.refl s) h
  · exact execHoldover_within (State.Within.refl s) h
  · exact execRemoteHbmRequest_within (State.Within.refl s) h
  · exact execHaloPush_within (State.Within.refl s) h
  · exact execLsEnable_within (State.Within.refl s) h
  · exact execLsRecordArrival_within (State.Within.refl s) h
  · exact execPartnerLost_within (State.Within.refl s) h
  · exact execArm_within (State.Within.refl s) h
  · exact execFire_within (State.Within.refl s) h
  · exact execLadleInEdge_within (State.Within.refl s) h
  · exact execLadleFireMessage_within (State.Within.refl s) h
  · exact execLadleLatch_within (State.Within.refl s) h
  · exact execSmpEnable_within (State.Within.refl s) h
  · exact execWarm_within zero_lt_two (State.Within.refl s) h
  · exact execDevLockWrite_within zero_lt_two (State.Within.refl s) h
  · exact execFrondEnableWrite_within zero_lt_two (State.Within.refl s) h
  · exact execFrondPowerWrite_within zero_lt_two (State.Within.refl s) h
  · exact execFrondPowerDone_within (State.Within.refl s) h
  · exact execPanelPwrWrite_within zero_lt_two (State.Within.refl s) h
  · exact execBlDelayExpiry_within zero_lt_two (State.Within.refl s) h
  · exact execRegisterWrite_within zero_lt_two (State.Within.refl s) h
  · exact execLowWordRead_within zero_lt_two (State.Within.refl s) h
  · exact execPowerOnReset_within zero_lt_two (State.Within.refl s) h
  · exact execPerstN_within zero_lt_two (State.Within.refl s) h
  · exact execResetN_within zero_lt_two (State.Within.refl s) h
  · exact execFlr_within (State.Within.refl s) h
  · exact execBootReady_within (State.Within.refl s) h
  · exact execThermalSample_within (State.Within.refl s) h
  · exact execLiteSwitch_within (State.Within.refl s) h
  · exact execPassThrough_within (State.Within.refl s) h
  · exact execPassThroughExit_within (State.Within.refl s) h
  · exact execThermTrip_within zero_lt_two (State.Within.refl s) h
  · exact execPowerSample_within (State.Within.refl s) h
  · exact execSupplyDroop_within (State.Within.refl s) h
  · exact execClockPlanChange_within (State.Within.refl s) h
  · exact execClockGate_within (State.Within.refl s) h
  · exact execBoostSpent_within zero_lt_two (State.Within.refl s) h
  · exact execSupplyRecovery_within (State.Within.refl s) h
  · exact execHbmModeWriteComplete_within zero_lt_two (State.Within.refl s) h
  · exact execLsPartnerPaired_within (State.Within.refl s) h
  · exact execDprxAuxRequest_within zero_lt_two (State.Within.refl s) h

theorem step_memOk {s t : State} (ok : s.memOk) (h : step s = .next t) : t.memOk := by
  unfold step at h
  split at h
  · cases h
    exact (State.idle_within (.refl s)).mem ok
  · exact (exec_within h).mem ok

end Sys2Proof.Machine

namespace Sys2Proof
open Machine

/-- Settles O4: no command writes a memory but by operations that keep its canonical form. -/
theorem stepsKeepMemoryCanonical : Obligations.StepsKeepMemoryCanonical := fun _ _ => step_memOk

theorem resetMemoryCanonical : Claim.ResetMemoryCanonical := ⟨rfl, rfl, rfl⟩

theorem resetValues : Claim.ResetValues :=
  ⟨rfl, rfl, rfl, rfl, rfl, rfl, rfl, fun _ => ⟨rfl, rfl, rfl, rfl, rfl, rfl, rfl⟩, fun _ => ⟨rfl, rfl, rfl, rfl⟩, rfl, rfl, rfl, rfl⟩

/-- Settles O2: the registers' reset values are the defaults of their fields, and no memory lists a byte. -/
theorem resetState : Obligations.ResetState := ⟨resetValues, resetMemoryCanonical⟩

end Sys2Proof
end

