-- ==== Sys2Proof/Proofs/DescriptorOrder.lean ====
section
/-! The order of descriptors on a ring, and the descriptors that only wait for it: NOP and FENCE (R391, R392, R401, R413). -/

namespace Sys2Proof.Machine

variable {s : State} {h : DescHdr} {slot : Nat}

/-! ### Statuses that are no denials -/

theorem stOk_admitted : stOk ≠ stAdmitDenied := of_decide_eq_true rfl
theorem stDescBad_admitted : stDescBad ≠ stAdmitDenied := of_decide_eq_true rfl

/-! ### A descriptor held back (R391) -/

theorem descriptor_waits (held : s.mayStart h = false) (k : State → State) : descriptor h s k = .next s := by
  unfold descriptor unlessInert
  simp [held]

theorem descriptorStarts : Claim.DescriptorStarts := by
  intro s h slot H
  obtain ⟨x, alone, idx, -, place, started⟩ := H.start
  exact ⟨H.mayStart, x, alone, idx, place, started.trans (State.setSq_marked ..)⟩

theorem descriptorWaits : Claim.DescriptorWaits := by
  intro c s h named held
  have waits (k : State → State) : descriptor h s k = .next s := descriptor_waits held k
  have if_neg_or_waits {p : Prop} [Decidable p] (k : State → State) : (if p then .next s else descriptor h s k) = .next s := by
    rw [waits, ite_self]
  -- The descriptors' commands are the first constructors of `Instr`; no other command has a header.
  cases c
  · cases named; exact (waits _ : execNop h s = _)
  · cases named; exact (waits _ : execFence h _ s = _)
  · cases named; exact (waits _ : execCtxOpen h _ _ _ s = _)
  · cases named; exact (waits _ : execCtxClose h s = _)
  · cases named; exact (waits _ : execModelBind h _ _ _ _ _ s = _)
  · cases named; exact (waits _ : execStreamStart h _ _ s = _)
  · cases named; exact (waits _ : execStreamStop h _ _ s = _)
  · cases named
    show execFrameSubmit h _ s = _
    unfold execFrameSubmit
    exact if_neg_or_waits _
  · cases named; exact (waits _ : execLayerSet h _ _ _ _ s = _)
  · cases named
    show execCommit h _ _ s = _
    unfold execCommit
    exact if_neg_or_waits _
  · cases named; exact (waits _ : execWritebackSet h _ s = _)
  · cases named
    show execJobRun h _ s = _
    unfold execJobRun
    exact if_neg_or_waits _
  · cases named
    show execCopy h _ _ _ _ s = _
    unfold execCopy
    exact if_neg_or_waits _
  · cases named; exact (waits _ : execSnapshot h _ _ s = _)
  · cases named; exact (waits _ : execPanelWearSave h _ _ s = _)
  · cases named; exact (waits _ : execPanelWearRestore h _ s = _)
  · cases named; exact (waits _ : execCounterDump h _ _ _ s = _)
  all_goals exact absurd named (Option.some_ne_none h).symm

/-! ### FENCE (R392) -/

/-- FENCE h over the rings of a mask, as it waits. -/
def State.fenceOver (s : State) (h : DescHdr) (mask : W64) : FenceWait :=
  { hdr := h, targets := (bitsOf mask).map (fun r => (r, if r = h.sq.val then h.idx else (s.sq r).head)) }

/-- All that the FENCE recorded has completed. -/
def State.fenceReady (s : State) (f : FenceWait) : Bool := f.targets.all (fun t => s.ringDoneBelow t.1 t.2)

def State.withFences (s : State) (l : List FenceWait) : State := { s with hif := { s.hif with fences := l } }

theorem State.withFences_self {l : List FenceWait} (same : s.hif.fences = l) : s.withFences l = s := by
  subst same
  rfl

/-- A descriptor alone on its ring leaves it with its record. -/
theorem State.Sole.finish (H : s.Sole h slot) (op : Byte) (status : BitVec 16) (i0 i1 i2 : W32) (cause : BitVec 16) :
    s.finish h.sq.val (s.record h op status i0 i1 i2 cause) = s.reported h slot op status i0 i1 i2 cause := by
  obtain ⟨x, alone, idx, undone, place⟩ := H.alone
  unfold State.finish State.record
  simp only [alone, List.any_cons, List.any_nil, Bool.or_false, idx, undone, decide_true, Option.isNone_none, Bool.and_self, if_true, List.map_cons,
    List.map_nil, splitDone, List.foldl_cons, List.foldl_nil, place]
  unfold State.pushRecord State.sqSettle State.reported recordOf
  simp only [State.cq_setSq, State.sq_setCq, State.sq_setSq, H.free, H.running, lt_irrefl, decide_false, Bool.false_and, Bool.false_eq_true, if_false]

theorem State.settleFences_none (fuel : Nat) (unready : s.hif.fences.find? s.fenceReady = none) : State.settleFences (fuel + 1) s = s := by
  have unready : s.hif.fences.find? (fun f => f.targets.all (fun t => s.ringDoneBelow t.1 t.2)) = none := unready
  unfold State.settleFences
  simp only [unready]

/-- The one FENCE that waits leaves with its record, once what it recorded has completed. -/
theorem State.checkFences_ready {f : FenceWait} (H : s.Sole f.hdr slot) (ready : s.fenceReady f = true) :
    (s.withFences [f]).checkFences = s.reported f.hdr slot opFence stOk := by
  have found : (s.withFences [f]).hif.fences.find? (fun g => g.targets.all (fun t => (s.withFences [f]).ringDoneBelow t.1 t.2)) = some f :=
    List.find?_cons_of_pos ready
  have left : (s.withFences [f]).hif.fences.filter (fun g => !(decide (g.hdr.sq = f.hdr.sq) && decide (g.hdr.idx = f.hdr.idx))) = [] := by
    simp [State.withFences]
  show State.settleFences 1 (s.withFences [f]) = _
  unfold State.settleFences
  simp only [found, left]
  change (s.withFences []).finish f.hdr.sq.val ((s.withFences []).record f.hdr opFence stOk 0 0 0 0) = _
  rw [State.withFences_self H.fences, H.finish]

theorem State.checkFences_unready {f : FenceWait} (unready : s.fenceReady f = false) : (s.withFences [f]).checkFences = s.withFences [f] :=
  State.settleFences_none 0 (List.find?_cons_of_neg (ne_true_of_eq_false unready))

theorem exec_nop (H : s.Sole h slot) : exec (.nop h) s = .next ((s.start h).reported h slot opNop stOk) := by
  show execNop h s = _
  unfold execNop State.complete
  rw [H.runs, H.started.complete opNop stOk_admitted]

theorem exec_fence (H : s.Sole h slot) (mask : W64) :
    exec (.fence h mask) s = .next ((s.start h).withFences [(s.start h).fenceOver h mask]).checkFences := by
  show execFence h mask s = _
  unfold execFence
  rw [H.runs, H.started.fences]
  rfl

/-- The rings of a mask with nothing in progress, its own apart, hold no FENCE up. -/
theorem State.Sole.fenceOver_ready (H : s.Sole h slot) {mask : W64}
    (idle : ∀ r : RingId, mask.getLsbD r.val = true → r ≠ h.sq → (s.sq r.val).inflight = []) : s.fenceReady (s.fenceOver h mask) = true := by
  obtain ⟨x, alone, idx, -, -⟩ := H.alone
  refine List.all_eq_true.2 fun t ht => ?_
  obtain ⟨r, hr, rfl⟩ := List.mem_map.1 ht
  obtain ⟨inside, named⟩ := List.mem_filter.1 hr
  unfold State.ringDoneBelow
  dsimp only
  by_cases own : r = h.sq.val
  · rw [own, if_pos rfl, alone]
    simp [idx]
  · rw [idle ⟨r, List.mem_range.1 inside⟩ named fun same => own (congrArg Fin.val same)]
    rfl

/-- A descriptor taken before the FENCE on a ring it names, and not completed, holds it up. -/
theorem State.fenceOver_unready {mask : W64} {r : RingId} {x : InFlight} (named : mask.getLsbD r.val = true) (other : r ≠ h.sq)
    (before : x ∈ (s.sq r.val).inflight) (undone : x.done = none) (earlier : (x.idx - (s.sq r.val).head).toInt < 0) :
    s.fenceReady (s.fenceOver h mask) = false := by
  refine List.all_eq_false.2 ⟨_, List.mem_map_of_mem (List.mem_filter.2 ⟨List.mem_range.2 r.isLt, named⟩), ?_⟩
  have other : r.val ≠ h.sq.val := fun same => other (Fin.ext same)
  simp only [if_neg other, State.ringDoneBelow, List.all_eq_true, not_forall]
  exact ⟨x, before, by rw [undone, decide_eq_false (Int.not_le.2 earlier)]; exact Bool.false_ne_true⟩

theorem State.Sole.start_sq_other (H : s.Sole h slot) {r : Nat} (other : r ≠ h.sq.val) : (s.start h).sq r = s.sq r := by
  obtain ⟨x, -, -, -, -, e⟩ := H.start
  rw [e, State.marked_sq]
  exact State.setSq_sq_other _ _ _ _ other

theorem State.Sole.start_cq (H : s.Sole h slot) (q : Nat) : (s.start h).cq q = s.cq q := by
  obtain ⟨x, -, -, -, -, e⟩ := H.start
  rw [e, State.marked_cq, State.cq_setSq]

end Sys2Proof.Machine

namespace Sys2Proof
open Machine

/-- Settles O10: a descriptor alone on its ring starts at once, and one that may not start yet changes nothing. -/
theorem descriptorOrder : Obligations.DescriptorOrder := ⟨descriptorStarts, descriptorWaits⟩

/-- Settles O11: FENCE is judged as it is taken, and waits exactly when a named ring still holds a descriptor from before it. -/
theorem nopAndFence : Obligations.NopAndFence := by
  intro s h slot H
  refine ⟨exec_nop H, fun mask => ⟨fun idle => ?_, ?_⟩⟩
  · rw [exec_fence H]
    refine congrArg _ (State.checkFences_ready H.started (H.started.fenceOver_ready fun r named other => ?_))
    rw [H.start_sq_other fun same => other (Fin.ext same)]
    exact idle r named other
  · rintro ⟨r, named, other, x, before, undone, earlier⟩
    have same : (s.start h).sq r.val = s.sq r.val := H.start_sq_other fun same => other (Fin.ext same)
    have unready := State.fenceOver_unready (s := s.start h) named other (same ▸ before) undone (same ▸ earlier)
    refine ⟨_, exec_fence H mask, ?_⟩
    rw [State.checkFences_unready unready]
    exact ⟨rfl, rfl, fun q => congrArg CplRing.queue (H.start_cq q)⟩

end Sys2Proof
end

