-- ==== Sys2Proof/Proofs/HostBytes.lean ====
section
/-! Bytes of host memory and of HBM: what reads find after writes, and the words of a doorbell record. -/

namespace Sys2Proof.Machine

variable {s t : State} {a b n x : Nat} {l : List Byte}

/-! ### Words -/

@[simp] theorem toLe_length (k v : Nat) : (toLe k v).length = k := by
  induction k generalizing v with
  | zero => rfl
  | succ k ih => exact congrArg (· + 1) (ih (v / 256))

theorem leNat_lt (l : List Byte) : leNat l < 256 ^ l.length := by
  induction l with
  | nil => exact Nat.one_pos
  | cons b l ih =>
    have := b.isLt
    rw [leNat, List.length_cons, pow_succ]
    omega

/-- The word of host memory at an address. -/
def State.hostWord (s : State) (a : Nat) : W32 := BitVec.ofNat 32 (leNat (s.hostRead a 4))

theorem State.hostWord_toNat : (s.hostWord a).toNat = leNat (s.hostRead a 4) := by
  have small := leNat_lt (s.hostRead a 4)
  rw [State.hostRead, readBytes, List.length_map, List.length_range] at small
  exact Nat.mod_eq_of_lt small

/-! ### Reads after writes -/

@[simp] theorem State.hostWrite_sq (r : Nat) : (s.hostWrite a l).sq r = s.sq r := rfl
@[simp] theorem State.setSq_hostRead (r : Nat) (x : SubRing) : (s.setSq r x).hostRead a n = s.hostRead a n := rfl
@[simp] theorem State.setSq_hostWord (r : Nat) (x : SubRing) : (s.setSq r x).hostWord a = s.hostWord a := rfl
@[simp] theorem State.setSq_absentIn (r : Nat) (x : SubRing) (write : Bool) : (s.setSq r x).absentIn b n write = s.absentIn b n write := rfl
@[simp] theorem State.hostWrite_cq (q : Nat) : (s.hostWrite a l).cq q = s.cq q := rfl
@[simp] theorem State.hostWrite_absentIn (write : Bool) : (s.hostWrite a l).absentIn b n write = s.absentIn b n write := rfl

theorem State.hostByte_hostWrite_outside (outside : x < a ∨ a + l.length ≤ x) : (s.hostWrite a l).hostByte x = s.hostByte x :=
  congrArg (fun b : Option Byte => b.getD _) (Mem.get_write_outside (m := s.host) outside)

theorem State.hostRead_hostWrite_apart (apart : b + n ≤ a ∨ a + l.length ≤ b) : (s.hostWrite a l).hostRead b n = s.hostRead b n := by
  refine List.map_congr_left fun i hi => State.hostByte_hostWrite_outside ?_
  have := List.mem_range.1 hi
  omega

theorem State.hostRead_word (v : Nat) : (s.hostWrite a (toLe 4 v)).hostRead a 4 = toLe 4 v := readBytes_write s.host a (toLe 4 v) _

theorem State.hostRead_word_apart {v : Nat} (apart : b + n ≤ a ∨ a + 4 ≤ b) : (s.hostWrite a (toLe 4 v)).hostRead b n = s.hostRead b n :=
  hostRead_hostWrite_apart (by rwa [toLe_length])

theorem State.hostRead_of_host (same : t.host = s.host) (a n : Nat) : t.hostRead a n = s.hostRead a n := by
  unfold State.hostRead State.hostByte
  rw [same]

/-- Bytes written from the fifth on first, and the first four after them, are the whole run written. -/
theorem Mem.get_write_split (m : Mem) (long : 4 ≤ l.length) : ((m.write (a + 4) (l.drop 4)).write a (l.take 4)).get? x = (m.write a l).get? x := by
  simp only [Mem.get_write, List.length_take, List.length_drop, List.getElem?_take, List.getElem?_drop]
  by_cases first : a ≤ x ∧ x < a + 4
  · rw [if_pos (by omega), if_pos (by omega), if_pos (by omega)]
  · rw [if_neg (by omega)]
    by_cases inside : a ≤ x ∧ x < a + l.length
    · rw [if_pos (by omega), if_pos inside]
      congr 1
      omega
    · rw [if_neg (by omega), if_neg inside]

theorem State.hostRead_split (long : 4 ≤ l.length) : ((s.hostWrite (a + 4) (l.drop 4)).hostWrite a (l.take 4)).hostRead a l.length = l := by
  refine Eq.trans (List.map_congr_left fun i _ => ?_) (readBytes_write s.host a l (Config.freeByte 1 0))
  exact congrArg (fun b : Option Byte => b.getD _) (Mem.get_write_split (x := a + i) s.host long)

/-! ### HBM -/

theorem State.hbmByte_hbmWrite (x : Nat) : (s.hbmWrite a l).hbmByte x = if a ≤ x ∧ x < a + l.length then l.getD (x - a) 0 else s.hbmByte x := by
  unfold State.hbmByte State.hbmWrite
  dsimp only
  rw [Mem.get_write]
  split
  · rw [List.getD_eq_getElem?_getD, List.getElem?_eq_getElem (by omega)]
    rfl
  · rfl

end Sys2Proof.Machine
end

