-- ==== Sys2Proof/Proofs/DescriptorsTaken.lean ====
section
/-! A descriptor is taken from its ring: it is in progress, or, malformed, reported at once (R376, R386, R413). -/

namespace Sys2Proof.Machine

variable {s : State} {sq : RingId} {now : W64} {r : Nat}

/-- The ring has nothing of a ring with HIPRI ahead of it (Table 14.11). -/
theorem exec_descriptorTake (awake : s.inert = false) (eligible : (s.at_ now).eligible sq.val = true)
    (first : ((s.at_ now).sq sq.val).hipri = true ∨ ∀ r : RingId, (((s.at_ now).sq r.val).hipri && (s.at_ now).eligible r.val) = false) :
    exec (.descriptorTake sq now) s = .next ((s.at_ now).take sq) := by
  have ahead : (!((s.at_ now).sq sq.val).hipri && (List.range 64).any (fun r => ((s.at_ now).sq r).hipri && (s.at_ now).eligible r)) = false := by
    rcases first with own | none
    · rw [own]; rfl
    · rw [List.any_eq_false.2 fun r inside => ne_true_of_eq_false (none ⟨r, List.mem_range.1 inside⟩), Bool.and_false]
  show execDescriptorTake sq now s = _
  unfold execDescriptorTake
  rw [unlessInert_awake awake]
  simp only [eligible, ahead, Bool.not_false, Bool.and_self, if_true]

/-- Address of the descriptor at HEAD of a ring. -/
def State.headAddr (s : State) (r : Nat) : Nat := (s.sq r).base.toNat + 64 * ((s.sq r).head.toNat % (s.sq r).size)

/-- The header that a malformed descriptor is reported by. -/
def State.headHdr (s : State) (sq : RingId) : DescHdr :=
  let l := s.hostRead (s.headAddr sq.val) 64
  { sq := sq, idx := (s.sq sq.val).head, irq := bitOf (l.getD 1 0) 1, ctx := BitVec.ofNat 14 (leAt l 2 2) }

/-- Between two states the descriptor at HEAD of a ring has been taken as command c, in a spore slot: its entry, the HEAD written, and what stands. -/
def State.Takes (s t : State) (sq : RingId) (c : Instr) : Prop :=
  (∃ y : InFlight, t.sq sq.val = { s.sq sq.val with head := (s.sq sq.val).head + 1, lastDesc := s.dtb, inflight := (s.sq sq.val).inflight ++ [y] }
      ∧ y.idx = (s.sq sq.val).head ∧ y.cmd = c ∧ y.state = 1 ∧ y.done = none)
    ∧ t.hostRead ((s.sq sq.val).recAddr.toNat + 8) 4 = toLe 4 ((s.sq sq.val).head.toNat + 1)
    ∧ (∀ q, t.cq q = s.cq q) ∧ t.hif.fences = s.hif.fences ∧ t.inert = s.inert

/-- What a descriptor taken writes to the spore log and to its doorbell record is no matter of the rings. -/
theorem State.logged_keeps (a b c : Nat) (img word : List Byte) (k : Lsch) :
    let t := State.hostWrite { (s.hbmWrite a img).hbmWrite b img with lsch := k } c word
    t.hif = s.hif ∧ t.dtb = s.dtb ∧ t.inert = s.inert := ⟨rfl, rfl, rfl⟩

theorem State.take_takes (present : s.absentIn (s.headAddr sq.val) 64 = none) (writable : s.absentIn ((s.sq sq.val).recAddr.toNat + 8) 4 true = none) :
    ∃ t : Instr → State, (∀ c, s.Takes (t c) sq c)
      ∧ (∀ c, decodeDesc sq (s.sq sq.val).head s.dtb (s.hostRead (s.headAddr sq.val) 64) = some c → s.take sq = t c)
      ∧ (decodeDesc sq (s.sq sq.val).head s.dtb (s.hostRead (s.headAddr sq.val) 64) = none → ∃ op, s.take sq = (t (.nop (s.headHdr sq))).complete (s.headHdr sq) op stDescBad) := by
  have reached : ((s.absentIn (s.headAddr sq.val) 64).isSome || (s.absentIn ((s.sq sq.val).recAddr.toNat + 8) 4 true).isSome) = false := by
    rw [present, writable]; rfl
  unfold State.take
  extract_lets r x addr l cmd h slot img logged lsch kept headed taken
  have reached : ((s.absentIn addr 64).isSome || (s.absentIn (x.recAddr.toNat + 8) 4 true).isSome) = false := reached
  rw [reached, if_neg Bool.false_ne_true]
  have head : headed.hostRead (x.recAddr.toNat + 8) 4 = toLe 4 (x.head.toNat + 1) := State.hostRead_word _
  obtain ⟨hif, time, inert⟩ : headed.hif = s.hif ∧ headed.dtb = s.dtb ∧ headed.inert = s.inert := State.logged_keeps ..
  clear_value headed slot
  let entry (c : Instr) : InFlight := { idx := x.head, cmd := c, barrier := bitOf (l.getD 1 0) 0, state := 1, slot := slot, done := none }
  let accepted (c : Instr) : State := headed.setSq r { x with head := x.head + 1, lastDesc := headed.dtb, inflight := x.inflight ++ [entry c] }
  have outcome : taken = accepted (cmd.getD (.nop h)) := rfl
  refine ⟨accepted, fun c => ?_, fun c formed => ?_, fun malformed => ?_⟩
  · exact ⟨⟨entry c, time ▸ State.setSq_sq .., rfl, rfl, rfl, rfl⟩, head, State.cq_of_hif (s := s) (t := headed) hif,
      congrArg Hif.fences (a₁ := headed.hif) hif, inert⟩
  · have formed : cmd = some c := formed
    rw [outcome, formed]
    rfl
  · have malformed : cmd = none := malformed
    rw [outcome, malformed]
    exact ⟨_, rfl⟩

theorem State.at_sq (s : State) (now : W64) (r : Nat) : (s.at_ now).sq r = s.sq r := State.sq_of_hif (s.at_hif now) r

theorem State.at_cq (s : State) (now : W64) (q : Nat) : (s.at_ now).cq q = s.cq q := State.cq_of_hif (s.at_hif now) q

theorem descriptorTaken_claim : Claim.DescriptorTaken := by
  intro s sq now c awake u x addr eligible first present writable formed
  obtain ⟨t, takes, taken, -⟩ := State.take_takes present writable
  obtain ⟨⟨y, ring, entry⟩, head, -⟩ := takes c
  refine ⟨_, exec_descriptorTake awake eligible first, ?_⟩
  rw [taken c formed]
  exact ⟨congrArg SubRing.head ring, ⟨y, congrArg SubRing.inflight ring, entry⟩, head⟩

/-- A ring whose descriptor may be taken is not in its shut-down, and its completion ring holds no record back (R384, R489). -/
theorem State.eligible_ring (eligible : s.eligible r = true) : (s.sq r).busy = false ∧ (s.cq (s.sq r).cq.toNat).held = 0 := by
  unfold State.eligible SubRing.active at eligible
  simp only [Bool.and_eq_true, Bool.not_eq_true', decide_eq_true_eq] at eligible
  obtain ⟨⟨⟨⟨⟨⟨-, ⟨-, busy⟩, -⟩, -⟩, held⟩, -⟩, -⟩, -⟩ := eligible
  exact ⟨busy, held⟩

theorem malformedDescriptor : Claim.MalformedDescriptor := by
  intro s sq now awake u x addr eligible first empty fences present writable malformed
  obtain ⟨t, takes, -, taken⟩ := State.take_takes present writable
  obtain ⟨op, taken⟩ := taken malformed
  obtain ⟨⟨y, ring, idx, -, -, undone⟩, -, records, waiting, inert⟩ := takes (.nop (u.headHdr sq))
  obtain ⟨idle, room⟩ := State.eligible_ring eligible
  let v := t (.nop (u.headHdr sq))
  have V : v.Sole (u.headHdr sq) y.slot :=
    { awake := inert.trans ((s.at_inert now).trans awake)
      alone := ⟨y, by rw [show v.sq (u.headHdr sq).sq.val = _ from ring]; exact congrArg (· ++ [y]) empty, idx, undone, rfl⟩
      running := (congrArg SubRing.busy ring).trans idle
      fences := waiting.trans ((congrArg Hif.fences (s.at_hif now)).trans fences)
      free := by rw [show v.sq (u.headHdr sq).sq.val = _ from ring, records]; exact room }
  have done : u.take sq = v.reported (u.headHdr sq) y.slot op stDescBad := taken.trans (V.complete op stDescBad_admitted 0 0 0 0)
  have hsq : v.sq (u.headHdr sq).sq.val = _ := ring
  refine ⟨_, exec_descriptorTake awake eligible first, ?_⟩
  rw [done, State.reported, hsq]
  refine ⟨congrArg SubRing.head (State.sq_setSq ..), congrArg SubRing.inflight (State.sq_setSq ..),
    recordOf (u.headHdr sq) y.slot op stDescBad 0 0 0 0 v.dtb, (congrArg CplRing.queue (State.cq_setCq ..)).trans ?_, rfl, rfl⟩
  rw [records, State.at_cq]

end Sys2Proof.Machine

namespace Sys2Proof
open Machine

/-- Settles O20: the descriptor taken is the last in progress on its ring, and a malformed one alone there leaves at once. -/
theorem descriptorTaken : Obligations.DescriptorTaken := ⟨descriptorTaken_claim, malformedDescriptor⟩

end Sys2Proof
end

