-- ==== Sys2Proof/Proofs/SubmissionRings.lean ====
section
/-! Submission rings poll TAIL, sleep and wake; rings take their configuration while they are off (R374 to R382, R407, R489). -/

namespace Sys2Proof.Machine

variable {s : State} {ring : RingId} {now : W64} {r : Nat} {value : W32}

/-! ### TAIL (R376, R377) -/

/-- The TAIL that the host has written for a ring. -/
def State.tailWord (s : State) (r : Nat) : W32 := s.hostWord (s.sq r).recAddr.toNat

/-- A TAIL read that lies within the ring is its new count, and tells when descriptors came last. -/
theorem State.readTail_near (present : s.absentIn (s.sq r).recAddr.toNat 4 = none) (near : (s.tailWord r - (s.sq r).head).toNat ≤ (s.sq r).size) :
    s.readTail r = s.setSq r { s.sq r with
      tailSeen := s.tailWord r, lastDesc := if s.tailWord r = (s.sq r).tailSeen then (s.sq r).lastDesc else s.dtb } := by
  unfold State.readTail
  simp only [present]
  exact if_neg (Nat.not_lt.2 near)

theorem exec_sqTailPoll (awake : s.inert = false) (active : (s.sq ring.val).active = true) (up : (s.sq ring.val).sleep = false) :
    exec (.sqTailPoll ring now) s = .next ((s.at_ now).readTail ring.val) := by
  show execSqTailPoll ring now s = _
  unfold execSqTailPoll
  rw [unlessInert_awake awake]
  simp only [State.at_sq, active, up, Bool.not_false, Bool.and_self, if_true]

/-! ### Sleep and KICK (R377, R379) -/

/-- EVENT_IDX and then SLEEP = 1 in the doorbell record of a ring. -/
def State.sleepSaid (s : State) (r : Nat) : State :=
  (s.hostWrite ((s.sq r).recAddr.toNat + 0x10) (toLe 4 (s.sq r).tailSeen.toNat)).hostWrite ((s.sq r).recAddr.toNat + 0x0C) (toLe 4 1)

@[simp] theorem State.sleepSaid_sq (k : Nat) : (s.sleepSaid r).sq k = s.sq k := rfl

theorem State.sleepSaid_tailWord : (s.sleepSaid r).tailWord r = s.tailWord r := by
  unfold State.tailWord State.hostWord
  rw [State.sleepSaid_sq, State.sleepSaid, State.hostRead_word_apart (by omega), State.hostRead_word_apart (by omega)]

theorem State.sleepSaid_record : (s.sleepSaid r).hostRead ((s.sq r).recAddr.toNat + 0x0C) 4 = toLe 4 1
    ∧ (s.sleepSaid r).hostRead ((s.sq r).recAddr.toNat + 0x10) 4 = toLe 4 (s.sq r).tailSeen.toNat :=
  ⟨State.hostRead_word _, (State.hostRead_word_apart (by omega)).trans (State.hostRead_word _)⟩

/-- With a TAIL that has not moved, the second look at it finds nothing new. -/
theorem State.sleepSaid_readTail (taken : (s.sq r).head = (s.sq r).tailSeen) (present : s.absentIn (s.sq r).recAddr.toNat 4 = none)
    (unmoved : s.tailWord r = (s.sq r).tailSeen) : (s.sleepSaid r).readTail r = (s.sleepSaid r).setSq r (s.sq r) := by
  have kept : (s.sleepSaid r).tailWord r = (s.sq r).tailSeen := State.sleepSaid_tailWord.trans unmoved
  have near : ((s.sleepSaid r).tailWord r - ((s.sleepSaid r).sq r).head).toNat ≤ ((s.sleepSaid r).sq r).size := by
    rw [kept, State.sleepSaid_sq, ← taken, BitVec.sub_self]
    exact Nat.zero_le _
  rw [State.readTail_near (by rw [State.sleepSaid_sq, State.sleepSaid, State.hostWrite_absentIn, State.hostWrite_absentIn, present]) near, kept,
    State.sleepSaid_sq, if_pos rfl]

theorem exec_ringSleep (awake : s.inert = false) (active : (s.sq ring.val).active = true) (up : (s.sq ring.val).sleep = false)
    (taken : (s.sq ring.val).head = (s.sq ring.val).tailSeen) (quiet : (s.sq ring.val).lastDesc.toNat + 64000 ≤ s.dtb.toNat)
    (writable : s.absentIn (s.sq ring.val).recAddr.toNat 64 true = none) (present : s.absentIn (s.sq ring.val).recAddr.toNat 4 = none)
    (unmoved : s.tailWord ring.val = (s.sq ring.val).tailSeen) :
    exec (.ringSleep ring) s = .next ((s.sleepSaid ring.val).setSq ring.val { s.sq ring.val with sleep := true }) := by
  have running : (s.sq ring.val).halted = false := by
    simp only [SubRing.active, Bool.and_eq_true, Bool.not_eq_true'] at active
    exact active.2
  have idle : ((s.sq ring.val).active && !(s.sq ring.val).sleep && decide ((s.sq ring.val).head = (s.sq ring.val).tailSeen)
      && decide ((s.sq ring.val).lastDesc.toNat + 64000 ≤ s.dtb.toNat)) = true := by
    rw [active, up, decide_eq_true taken, decide_eq_true quiet]; rfl
  show execRingSleep ring s = _
  unfold execRingSleep
  rw [unlessInert_awake awake]
  simp only [idle, writable, if_true, Option.isSome_none, Bool.false_eq_true, if_false]
  rw [← State.sleepSaid.eq_def, State.sleepSaid_readTail taken present unmoved]
  simp only [State.setSq_sq, running, Bool.false_eq_true, if_false, if_true, State.setSq_setSq]

theorem exec_ringSleep_busy (awake : s.inert = false) (busy : s.dtb.toNat < (s.sq ring.val).lastDesc.toNat + 64000) : exec (.ringSleep ring) s = .next s := by
  show execRingSleep ring s = _
  unfold execRingSleep
  rw [unlessInert_awake awake]
  simp only [decide_eq_false (Nat.not_le.2 busy), Bool.and_false, Bool.false_eq_true, if_false]

/-- KICK says SLEEP = 0 and looks at TAIL. -/
def State.kicked (s : State) (r : Nat) : State :=
  (s.hostWrite ((s.sq r).recAddr.toNat + 0x0C) (toLe 4 0)).setSq r { s.sq r with sleep := false, lastDesc := s.dtb }

@[simp] theorem State.kicked_sq : (s.kicked r).sq r = { s.sq r with sleep := false, lastDesc := s.dtb } := State.setSq_sq ..

theorem State.kicked_hostRead (a n : Nat) :
    (s.kicked r).hostRead a n = (s.hostWrite ((s.sq r).recAddr.toNat + 0x0C) (toLe 4 0)).hostRead a n := rfl

theorem State.kicked_tailWord : (s.kicked r).tailWord r = s.tailWord r := by
  unfold State.tailWord State.hostWord
  rw [State.kicked_sq, State.kicked_hostRead, State.hostRead_word_apart (.inl (Nat.add_le_add_left (Nat.le_of_ble_eq_true rfl : 4 ≤ 0x0C) (s.sq r).recAddr.toNat))]

theorem exec_kick (awake : s.inert = false) (named : fieldOf value 5 0 = r) (en : (s.sq r).en = true) (idle : (s.sq r).busy = false)
    (asleep : (s.sq r).sleep = true) (writable : s.absentIn (s.sq r).recAddr.toNat 64 true = none) :
    exec (.kick value) s = .next ((s.kicked r).readTail r) := by
  show execKick value s = _
  unfold execKick
  rw [unlessInert_awake awake]
  simp only [named]
  rw [if_neg (by rw [en, idle]; exact Bool.false_ne_true), if_pos asleep, if_neg (by rw [writable]; exact Bool.false_ne_true)]
  rfl

theorem exec_kick_ignored (awake : s.inert = false) (named : fieldOf value 5 0 = r) (off : (s.sq r).en = false ∨ (s.sq r).busy = true) :
    exec (.kick value) s = .next { s with hif := { s.hif with kickIgnored := true } } := by
  have off : (!(s.sq r).en || (s.sq r).busy) = true := by
    rcases off with off | busy
    · rw [off]; rfl
    · rw [busy, Bool.or_true]
  show execKick value s = _
  unfold execKick
  rw [unlessInert_awake awake]
  simp only [named, off, if_true]

theorem ringsPollAndSleep : Claim.RingsPollAndSleep := by
  intro s ring awake x tail writable present near
  refine ⟨fun now active up => ?_, fun active up taken quiet unmoved => ?_, exec_ringSleep_busy awake, fun value named en idle asleep => ?_,
    fun value named off => exec_kick_ignored awake named off⟩
  · have word : (s.at_ now).tailWord ring.val = s.tailWord ring.val := by
      unfold State.tailWord State.hostWord
      rw [State.at_sq, State.hostRead_of_host (s.at_host now)]
    have present : (s.at_ now).absentIn ((s.at_ now).sq ring.val).recAddr.toNat 4 = none := by
      unfold State.absentIn
      rw [State.at_sq, State.at_absent]
      exact present
    rw [exec_sqTailPoll awake active up, State.readTail_near present (by rw [word, State.at_sq]; exact near), word, State.at_sq]
    rfl
  · refine ⟨_, exec_ringSleep awake active up taken quiet writable present unmoved, congrArg SubRing.sleep (State.setSq_sq ..), ?_, ?_⟩
    · rw [State.setSq_hostRead]
      exact State.sleepSaid_record.1
    · rw [State.setSq_hostRead, show tail = x.tailSeen from unmoved]
      exact State.sleepSaid_record.2
  · have present : (s.kicked ring.val).absentIn ((s.kicked ring.val).sq ring.val).recAddr.toNat 4 = none := by
      rw [State.kicked_sq]
      exact present
    have near : ((s.kicked ring.val).tailWord ring.val - ((s.kicked ring.val).sq ring.val).head).toNat ≤ ((s.kicked ring.val).sq ring.val).size := by
      rw [State.kicked_tailWord, State.kicked_sq]
      exact near
    have read := State.readTail_near present near
    rw [State.kicked_tailWord, State.kicked_sq] at read
    exact ⟨_, (exec_kick awake named en idle asleep writable).trans (congrArg _ read), congrArg SubRing.sleep (State.setSq_sq ..),
      congrArg SubRing.tailSeen (State.setSq_sq ..),
      (State.setSq_hostRead ..).trans ((State.kicked_hostRead ..).trans (State.hostRead_word ..))⟩

/-! ### Configuration (R407, R489) -/

/-- The fields of SQ_CFG in a submission ring. -/
def SubRing.configured (x : SubRing) (value : W32) : SubRing :=
  { x with log2 := BitVec.ofNat 5 (fieldOf value 4 0), cq := BitVec.ofNat 6 (fieldOf value 13 8), hipri := bitOf value 14 }

/-- The fields of CQ_CFG in a completion ring. -/
def CplRing.configured (c : CplRing) (value : W32) : CplRing :=
  { c with log2 := BitVec.ofNat 5 (fieldOf value 4 0), modCount := BitVec.ofNat 8 (fieldOf value 15 8), modUs := BitVec.ofNat 10 (fieldOf value 25 16) }

/-- A ring that is off and idle takes its configuration, and EN starts it. -/
theorem State.sqCfgWrite_starts (off : (s.sq r).en = false) (idle : (s.sq r).busy = false) (en : bitOf value 16 = true) :
    s.sqCfgWrite r value = (s.setSq r { (s.sq r).configured value with en := true }).sqStart r := by
  unfold State.sqCfgWrite
  extract_lets x log2 cq differs y
  have taken : y = x.configured value := by
    by_cases same : differs = true
    · exact (if_neg (by rw [same]; exact Bool.false_ne_true)).trans (if_neg (by rw [off, idle]; exact Bool.false_ne_true))
    · refine (if_pos (by rw [Bool.eq_false_iff.2 same]; rfl)).trans ?_
      simp only [differs, Bool.or_eq_true, not_or, decide_eq_true_eq, not_not, bne_iff_ne] at same
      obtain ⟨⟨sameLog2, sameCq⟩, sameHipri⟩ := same
      rw [SubRing.configured, sameHipri]
      rw [show BitVec.ofNat 5 (fieldOf value 4 0) = _ from sameLog2, show BitVec.ofNat 6 (fieldOf value 13 8) = _ from sameCq]
  rw [if_pos en, if_neg (ne_true_of_eq_false idle), if_neg (ne_true_of_eq_false off), taken]

theorem State.pushRecord_sq (q : Nat) (x : Record) (k : Nat) : (s.pushRecord q x).sq k = s.sq k := by
  unfold State.pushRecord
  dsimp only
  split
  · exact (State.sq_of_unmoved (State.unmoved_count ..) k).trans (State.setCq_sq ..)
  · exact State.setCq_sq ..

theorem State.pushEvent_sq (q : Nat) (x : Record) (k : Nat) : (s.pushEvent q x).sq k = s.sq k := by
  unfold State.pushEvent
  dsimp only
  split
  · exact State.setCq_sq ..
  · exact (State.pushRecord_sq ..).trans (State.setCq_sq ..)

theorem State.ringFault_sq : (s.ringFault r).sq r = { s.sq r with halted := true, sleep := false } := by
  unfold State.ringFault State.haltRing
  rw [State.pushEvent_sq, State.sq_of_unmoved (State.unmoved_count ..), State.setSq_sq]

/-- A submission ring starts at the HEAD of its doorbell record; a TAIL further ahead than the ring is long halts it (R375, R376). -/
theorem State.sqStart_sq (present : s.absentIn (s.sq r).recAddr.toNat 64 = none) :
    (s.sqStart r).sq r = { s.sq r with
      busy := false, heldEn := false, sleep := false, lastDesc := s.dtb, head := s.hostWord ((s.sq r).recAddr.toNat + 8), tailSeen := s.tailWord r
      halted := decide ((s.sq r).size < (s.tailWord r - s.hostWord ((s.sq r).recAddr.toNat + 8)).toNat) } := by
  unfold State.sqStart
  extract_lets x y head tail started
  have reached : (s.absentIn y.recAddr.toNat 64).isSome = false := by
    rw [show s.absentIn y.recAddr.toNat 64 = none from present]; rfl
  have ring : started.sq r = { y with head := head, tailSeen := tail } := State.setSq_sq ..
  rw [if_neg (ne_true_of_eq_false reached)]
  split
  · next far =>
    have halts : decide ((s.sq r).size < (s.tailWord r - s.hostWord ((s.sq r).recAddr.toNat + 8)).toNat) = true := decide_eq_true far
    rw [State.ringFault_sq, ring, halts]
    rfl
  · next near =>
    have runs : decide ((s.sq r).size < (s.tailWord r - s.hostWord ((s.sq r).recAddr.toNat + 8)).toNat) = false := decide_eq_false near
    rw [ring, runs]
    rfl

theorem State.setSq_sqStart {x : SubRing} (present : s.absentIn x.recAddr.toNat 64 = none) :
    ((s.setSq r x).sqStart r).sq r = { x with
      busy := false, heldEn := false, sleep := false, lastDesc := s.dtb, head := s.hostWord (x.recAddr.toNat + 8), tailSeen := s.hostWord x.recAddr.toNat
      halted := decide (x.size < (s.hostWord x.recAddr.toNat - s.hostWord (x.recAddr.toNat + 8)).toNat) } := by
  have ring : (s.setSq r x).sq r = x := State.setSq_sq ..
  have started := State.sqStart_sq (s := s.setSq r x) (r := r) (by rw [ring, State.setSq_absentIn, present])
  unfold State.tailWord at started
  simp only [ring, State.setSq_hostWord, State.setSq_dtb] at started
  exact started

/-- A completion ring that is off and idle takes its configuration, and EN starts it. -/
theorem State.cqCfgWrite_starts (off : (s.cq r).en = false) (idle : (s.cq r).busy = false) (en : bitOf value 26 = true) :
    s.cqCfgWrite r value = s.setCq r (CplRing.start { (s.cq r).configured value with en := true }) := by
  unfold State.cqCfgWrite
  extract_lets c log2 mc mu differs d
  have taken : d = c.configured value := by
    by_cases same : differs = true
    · exact (if_neg (by rw [same]; exact Bool.false_ne_true)).trans (if_neg (by rw [off, idle]; exact Bool.false_ne_true))
    · refine (if_pos (by rw [Bool.eq_false_iff.2 same]; rfl)).trans ?_
      simp only [differs, Bool.or_eq_true, not_or, decide_eq_true_eq, not_not] at same
      obtain ⟨⟨sameLog2, sameCount⟩, sameUs⟩ := same
      rw [CplRing.configured, show BitVec.ofNat 5 (fieldOf value 4 0) = _ from sameLog2, show BitVec.ofNat 8 (fieldOf value 15 8) = _ from sameCount,
        show BitVec.ofNat 10 (fieldOf value 25 16) = _ from sameUs]
  rw [if_pos en, if_neg (ne_true_of_eq_false idle), if_neg (ne_true_of_eq_false off), taken]

/-- A word that names another ring length than LOG2 does. -/
theorem ofNat_log2_ne {log2 : BitVec 5} (other : fieldOf value 4 0 ≠ log2.toNat) : BitVec.ofNat 5 (fieldOf value 4 0) ≠ log2 :=
  fun same => other ((ofNat_fieldOf value 4 0 rfl).symm.trans (congrArg BitVec.toNat same))

/-- An enabled ring rejects a change of its length (R407). -/
theorem State.sqCfgWrite_rejects (on : (s.sq r).en = true) (idle : (s.sq r).busy = false) (en : bitOf value 16 = true)
    (other : fieldOf value 4 0 ≠ (s.sq r).log2.toNat) : s.sqCfgWrite r value = s.setSq r { s.sq r with cfgReject := true } := by
  unfold State.sqCfgWrite
  extract_lets x log2 cq differs y
  have differs : differs = true := Bool.or_eq_true_iff.2 (.inl (Bool.or_eq_true_iff.2 (.inl (decide_eq_true (ofNat_log2_ne other)))))
  have rejected : y = { x with cfgReject := true } :=
    (if_neg (by rw [differs]; exact Bool.false_ne_true)).trans (if_pos (by rw [on, Bool.true_or]))
  rw [if_pos en, if_neg (ne_true_of_eq_false idle), if_pos on, rejected]

theorem State.cqCfgWrite_rejects (on : (s.cq r).en = true) (idle : (s.cq r).busy = false) (en : bitOf value 26 = true)
    (other : fieldOf value 4 0 ≠ (s.cq r).log2.toNat) : s.cqCfgWrite r value = s.setCq r { s.cq r with cfgReject := true } := by
  unfold State.cqCfgWrite
  extract_lets c log2 mc mu differs d
  have differs : differs = true := Bool.or_eq_true_iff.2 (.inl (Bool.or_eq_true_iff.2 (.inl (decide_eq_true (ofNat_log2_ne other)))))
  have rejected : d = { c with cfgReject := true } :=
    (if_neg (by rw [differs]; exact Bool.false_ne_true)).trans (if_pos (by rw [on, Bool.true_or]))
  rw [if_pos en, if_neg (ne_true_of_eq_false idle), if_pos on, rejected]

theorem exec_ringEnable (completion : Bool) (awake : s.inert = false) :
    exec (.ringEnable completion ring value) s = .next (if completion then s.cqCfgWrite ring.val value else s.sqCfgWrite ring.val value) := by
  show execRingEnable completion ring value s = _
  unfold execRingEnable
  exact unlessInert_awake awake _

theorem ringConfiguration : Claim.RingConfiguration := by
  intro s ring value awake
  refine ⟨⟨fun off idle en present => ?_, fun on idle en other => ?_⟩, ⟨fun off idle en => ?_, fun on idle en other => ?_⟩⟩
  · have started := State.sqCfgWrite_starts off idle en
    have view := State.setSq_sqStart (s := s) (r := ring.val) (x := { (s.sq ring.val).configured value with en := true }) present
    refine ⟨_, (exec_ringEnable false awake).trans (congrArg _ started), ?_⟩
    dsimp only
    rw [view]
    exact ⟨rfl, congrArg (fun n => decide (2 ^ n < _)) (ofNat_fieldOf value 4 0 rfl), ofNat_fieldOf value 4 0 rfl, ofNat_fieldOf value 13 8 rfl, rfl, State.hostWord_toNat⟩
  · exact (exec_ringEnable false awake).trans (congrArg _ (State.sqCfgWrite_rejects on idle en other))
  · refine ⟨_, (exec_ringEnable true awake).trans (congrArg _ (State.cqCfgWrite_starts off idle en)), ?_⟩
    dsimp only
    rw [State.setCq_cq]
    exact ⟨rfl, rfl, rfl, ofNat_fieldOf value 4 0 rfl, ofNat_fieldOf value 15 8 rfl, ofNat_fieldOf value 25 16 rfl⟩
  · exact (exec_ringEnable true awake).trans (congrArg _ (State.cqCfgWrite_rejects on idle en other))

end Sys2Proof.Machine

namespace Sys2Proof
open Machine

/-- Settles O21: what a look at TAIL finds, and what a ring that is off takes from its configuration word. -/
theorem submissionRings : Obligations.SubmissionRings := ⟨ringsPollAndSleep, ringConfiguration⟩

end Sys2Proof
end

