-- ==== Sys2Proof/Proofs/CompletionRings.lean ====
section
/-! Completion rings: a record written where TAIL points, HEAD read again, and the vectors' moderation and masks (R382, R383, R385). -/

namespace Sys2Proof.Machine

variable {s t : State} {cq : RingId} {now : W64} {q : Nat}

/-! ### What follows a record (R384, R385, R413, R489) -/

/-- What stands of a completion ring once a record is written: TAIL, the records left and the shut-down; and host memory. -/
def State.cplView (s : State) (q : Nat) : W32 × List Record × Bool × Mem := ((s.cq q).tail, (s.cq q).queue, (s.cq q).busy, s.host)

theorem State.cplView_setCq {c : CplRing} (tail : c.tail = (s.cq q).tail) (queue : c.queue = (s.cq q).queue) (busy : c.busy = (s.cq q).busy) :
    (s.setCq q c).cplView q = s.cplView q := by
  unfold State.cplView
  rw [State.setCq_cq, State.setCq_host, tail, queue, busy]

@[simp] theorem State.cplView_msix (v : BitVec 9) : (s.msix v).cplView q = s.cplView q := by
  unfold State.msix
  split <;> rfl

theorem State.cplView_count (idx n : Nat) : (s.count idx n).cplView q = s.cplView q := by
  have rings := State.cq_of_unmoved (State.unmoved_count (s := s) idx n) q
  have memory : (s.count idx n).uncounted.host = s.uncounted.host := congrArg State.host (State.uncounted_count (s := s) idx n)
  unfold State.cplView
  rw [rings]
  exact congrArg (fun m => (_, _, _, m)) memory

theorem State.cplView_holdRecords : (s.holdRecords q).cplView q = s.cplView q := by
  unfold State.holdRecords
  dsimp only
  split
  · exact (cplView_count ..).trans (cplView_setCq rfl rfl rfl)
  · rfl

theorem State.cplView_lsch (k : Lsch) : State.cplView { s with lsch := k } q = s.cplView q := rfl

theorem State.cplView_sporeField (slot off : Nat) (l : List Byte) : (s.sporeField slot off l).cplView q = s.cplView q := rfl

theorem State.cplView_sporeDone (r : Record) : (s.sporeDone r).cplView q = s.cplView q := by
  unfold State.sporeDone
  split
  · rfl
  · dsimp only
    rw [State.cplView_lsch, State.cplView_sporeField, State.cplView_sporeField]

theorem State.cplView_moderate (irq : Bool) : (s.moderate q irq).cplView q = s.cplView q := by
  unfold State.moderate
  dsimp only
  split
  · rfl
  · split
    · exact (cplView_msix _).trans (cplView_setCq rfl rfl rfl)
    · exact cplView_setCq rfl rfl rfl

theorem State.cqSettle_idle (idle : (s.cq q).busy = false) : s.cqSettle q = s := by
  unfold State.cqSettle
  simp only [idle, Bool.false_and, Bool.false_eq_true, if_false]

/-! ### A record is written (R382, R383) -/

theorem recordBytes_length (r : Record) (tail : W32) (log2 : Nat) (overflow : Bool) : (recordBytes r tail log2 overflow).length = 32 := by
  simp only [recordBytes, List.length_append, toLe_length]

/-- Address of the slot of a completion ring that TAIL points to. -/
def State.tailAddr (s : State) (q : Nat) : Nat := (s.cq q).base.toNat + 32 * ((s.cq q).tail.toNat % (s.cq q).size)

/-- The bytes of a record as its ring writes it now. -/
def State.recordImage (s : State) (q : Nat) (r : Record) : List Byte := recordBytes r (s.cq q).tail (s.cq q).log2.toNat (s.cq q).overflowNext

/-- A record of ring q in the slot that TAIL points to, its first word last. -/
def State.recordLaid (s : State) (q : Nat) (r : Record) : State :=
  (s.hostWrite (s.tailAddr q + 4) ((s.recordImage q r).drop 4)).hostWrite (s.tailAddr q) ((s.recordImage q r).take 4)

/-- A record laid, then TAIL in the doorbell record. -/
def State.recordSaid (s : State) (q : Nat) (r : Record) : State :=
  (s.recordLaid q r).hostWrite ((s.cq q).recAddr.toNat + 8) (toLe 4 ((s.cq q).tail.toNat + 1))

theorem State.recordLaid_host_of {r : Record} (ring : t.cq q = s.cq q) (host : t.host = s.host) : (t.recordLaid q r).host = (s.recordLaid q r).host := by
  unfold State.recordLaid State.tailAddr State.recordImage State.hostWrite
  rw [ring, host]

theorem State.recordSaid_host_of {r : Record} (ring : t.cq q = s.cq q) (host : t.host = s.host) : (t.recordSaid q r).host = (s.recordSaid q r).host := by
  unfold State.recordSaid
  rw [ring]
  exact congrArg (fun m : Mem => m.write _ _) (State.recordLaid_host_of ring host)

/-- What is left of a ring whose oldest record has been written. -/
def CplRing.popped (c : CplRing) (rest : List Record) : CplRing := { c with tail := c.tail + 1, queue := rest, held := c.held - 1, overflowNext := false }

/-- The state once a record is written, before what follows it. -/
def State.recordPopped (s : State) (q : Nat) (r : Record) (rest : List Record) : State :=
  let t := (s.recordSaid q r).setCq q ((s.cq q).popped rest)
  if 0 < (s.cq q).held then t.holdRecords q else t

theorem State.recordPopped_cplView {r : Record} {rest : List Record} :
    (s.recordPopped q r rest).cplView q = ((s.cq q).tail + 1, rest, (s.cq q).busy, (s.recordSaid q r).host) := by
  have popped : ((s.recordSaid q r).setCq q ((s.cq q).popped rest)).cplView q = ((s.cq q).tail + 1, rest, (s.cq q).busy, (s.recordSaid q r).host) := by
    unfold State.cplView
    rw [State.setCq_cq, State.setCq_host]
    rfl
  unfold State.recordPopped
  dsimp only
  split
  · exact State.cplView_holdRecords.trans popped
  · exact popped

theorem exec_completionRecordWrite {r : Record} {rest : List Record} (awake : s.inert = false) (oldest : (s.cq cq.val).queue = r :: rest)
    (en : (s.cq cq.val).en = true) (room : (s.cq cq.val).hasRoom = true)
    (writable : s.absentIn (s.tailAddr cq.val) 32 true = none) (recWritable : s.absentIn (s.cq cq.val).recAddr.toNat 64 true = none) :
    exec (.completionRecordWrite cq now) s =
      .next (((((s.at_ now).recordPopped cq.val r rest).sporeDone r).moderate cq.val r.irq).cqSettle cq.val) := by
  have ring : (s.at_ now).cq cq.val = s.cq cq.val := s.at_cq now cq.val
  have absent (a n : Nat) : (s.at_ now).absentIn a n true = s.absentIn a n true := by
    rw [State.absentIn, State.at_absent, State.at_readOnly]
    rfl
  have written : (!((s.cq cq.val).en || (s.cq cq.val).busy) || !(s.cq cq.val).hasRoom || (s.absentIn (s.tailAddr cq.val) 32 true).isSome
      || (s.absentIn (s.cq cq.val).recAddr.toNat 64 true).isSome) = false := by
    rw [en, room, writable, recWritable]
    rfl
  unfold State.tailAddr at written
  show execCompletionRecordWrite cq now s = _
  unfold execCompletionRecordWrite
  rw [unlessInert_awake awake]
  dsimp only
  rw [ring]
  split
  · next empty => cases oldest.symm.trans empty
  · next r' rest' queue =>
    cases oldest.symm.trans queue
    rw [absent, absent, if_neg (ne_true_of_eq_false written)]
    unfold State.recordPopped State.recordSaid State.recordLaid State.tailAddr State.recordImage CplRing.popped
    dsimp only
    rw [ring]

theorem State.recordSaid_reads {r : Record}
    (apart : s.tailAddr q + 32 ≤ (s.cq q).recAddr.toNat + 8 ∨ (s.cq q).recAddr.toNat + 12 ≤ s.tailAddr q) :
    (s.recordSaid q r).hostRead (s.tailAddr q) 32 = s.recordImage q r
      ∧ (s.recordSaid q r).hostRead ((s.cq q).recAddr.toNat + 8) 4 = toLe 4 ((s.cq q).tail.toNat + 1) := by
  have long : (s.recordImage q r).length = 32 := recordBytes_length ..
  have laid : (s.recordLaid q r).hostRead (s.tailAddr q) (s.recordImage q r).length = s.recordImage q r := State.hostRead_split (by omega)
  rw [long] at laid
  exact ⟨(State.hostRead_word_apart apart).trans laid, State.hostRead_word _⟩

theorem State.recordSaid_outside {r : Record} {a : Nat} (slot : a < s.tailAddr q ∨ s.tailAddr q + 32 ≤ a)
    (doorbell : a < (s.cq q).recAddr.toNat + 8 ∨ (s.cq q).recAddr.toNat + 12 ≤ a) : (s.recordSaid q r).hostByte a = s.hostByte a := by
  have long : (s.recordImage q r).length = 32 := recordBytes_length ..
  unfold State.recordSaid State.recordLaid
  rw [State.hostByte_hostWrite_outside (by rw [toLe_length]; omega), State.hostByte_hostWrite_outside (by rw [List.length_take]; omega),
    State.hostByte_hostWrite_outside (by rw [List.length_drop]; omega)]

theorem recordWritten : Claim.RecordWritten := by
  intro s cq now r rest awake c addr oldest en idle room writable recWritable apart
  refine ⟨_, exec_completionRecordWrite awake oldest en room writable recWritable, ?_⟩
  have ring : (s.at_ now).cq cq.val = s.cq cq.val := s.at_cq now cq.val
  have view : ((((s.at_ now).recordPopped cq.val r rest).sporeDone r).moderate cq.val r.irq).cplView cq.val
      = (c.tail + 1, rest, false, (s.recordSaid cq.val r).host) := by
    rw [State.cplView_moderate, State.cplView_sporeDone, State.recordPopped_cplView, ring, idle, State.recordSaid_host_of ring (s.at_host now)]
  rw [State.cqSettle_idle (congrArg (fun v => v.2.2.1) view)]
  generalize (((s.at_ now).recordPopped cq.val r rest).sporeDone r).moderate cq.val r.irq = t at view
  simp only [State.cplView, Prod.mk.injEq] at view
  obtain ⟨tail, queue, -, memory⟩ := view
  obtain ⟨record, doorbell⟩ := State.recordSaid_reads (r := r) apart
  refine ⟨tail, queue, (State.hostRead_of_host memory ..).trans record, (State.hostRead_of_host memory ..).trans doorbell, fun a slot doorbell => ?_⟩
  exact (congrArg (fun m : Mem => (m.get? a).getD _) memory).trans (State.recordSaid_outside slot doorbell)

/-! ### HEAD polls, moderation and masks -/

theorem headPollAndModeration : Claim.HeadPollAndModeration := by
  constructor
  · intro s cq awake full present
    have polls : ((s.cq cq.val).hasRoom || (s.absentIn (s.cq cq.val).recAddr.toNat 4).isSome) = false := by
      rw [full, present]
      rfl
    show execCqHeadPoll cq s = _
    unfold execCqHeadPoll
    rw [unlessInert_awake awake]
    exact congrArg _ (if_neg (ne_true_of_eq_false polls))
  · intro s cq now first awake c unsignalled us count due
    have ring : (s.at_ now).cq cq.val = c := s.at_cq now cq.val
    have late : now.toNat ≤ (s.at_ now).dtb.toNat := by
      rw [State.at_dtb]
      exact Nat.le_max_right ..
    have sends : (decide (c.modUs ≠ 0) && decide (c.modCount ≠ 0) && decide (first.toNat + 1000 * c.modUs.toNat ≤ (s.at_ now).dtb.toNat)) = true := by
      rw [decide_eq_true us, decide_eq_true count, decide_eq_true (due.trans late)]
      rfl
    show execMsixModerationTimer cq now s = _
    unfold execMsixModerationTimer
    rw [unlessInert_awake awake]
    dsimp only
    rw [ring, unsignalled]
    exact congrArg _ (if_pos sends)

theorem msixMask : Claim.MsixMask := by
  intro s v mask
  unfold State.msix
  refine ⟨fun open_ => ?_, fun masked => ?_⟩
  · rw [if_neg (ne_true_of_eq_false open_)]
    exact ⟨rfl, rfl⟩
  · rw [if_pos masked]
    exact ⟨rfl, bitOf_setBit_same s.hif.msixPba (i := v.toNat) (show v.toNat < 512 from v.isLt) true⟩

end Sys2Proof.Machine

namespace Sys2Proof
open Machine

/-- Settles O22: what a completion ring's slot, doorbell record, timer and vector hold after each of its commands. -/
theorem completionRings : Obligations.CompletionRings := ⟨recordWritten, headPollAndModeration, msixMask⟩

end Sys2Proof
end

