-- ==== Sys2Proof/Proofs/MemoryWindows.lean ====
section
/-! Windows onto HBM: BAR4 and a peer's requests reach the bytes they may (R285, R373, R469, R470). -/

namespace Sys2Proof.Machine

variable {s : State} {offset addr : W64} {data : List Byte} {a : Nat}

/-! ### BAR4 (R373) -/

/-- HBM address of a BAR4 offset. -/
def State.bar4Addr (s : State) (offset : W64) : Nat := s.hif.b4Base.toNat + offset.toNat

/-- What a BAR4 write stores: its bytes up to the end of the BAR. -/
def State.bar4Stored (s : State) (offset : W64) (data : List Byte) : List Byte :=
  (data.zipIdx.takeWhile (fun p => s.inBar4 offset p.2)).map Prod.fst

/-- Byte i of a BAR4 read. -/
def State.bar4Byte (s : State) (offset : W64) (i : Nat) : Byte :=
  if !s.inBar4 offset i || s.guarded (s.bar4Addr offset + i) 1 then 0xFF else s.hbmByte (s.bar4Addr offset + i)

theorem exec_bar4Access (write : Bool) (awake : s.inert = false) :
    exec (.bar4Access write offset data) s = .next (if write then s.servedWrite (s.bar4Addr offset) (s.bar4Stored offset data)
      else { s with readData := (List.range data.length).map (s.bar4Byte offset) }) := by
  show execBar4Access write offset data s = _
  unfold execBar4Access
  exact unlessInert_awake awake _

theorem getD_map_range {n i : Nat} (f : Nat → Byte) (inside : i < n) : ((List.range n).map f).getD i 0 = f i := by
  rw [List.getD_eq_getElem?_getD, List.getElem?_map, List.getElem?_range inside]
  rfl

theorem State.bar4Byte_served {i : Nat} (inside : offset.toNat + i < 2 ^ s.svc.bar4Log2) (served : s.guarded (s.bar4Addr offset + i) 1 = false) :
    s.bar4Byte offset i = s.hbmByte (s.bar4Addr offset + i) := by
  have inBar : s.inBar4 offset i = true := decide_eq_true inside
  unfold State.bar4Byte
  rw [inBar, served]
  rfl

theorem State.bar4Byte_ones {i : Nat} (unserved : ¬offset.toNat + i < 2 ^ s.svc.bar4Log2 ∨ s.guarded (s.bar4Addr offset + i) 1 = true) :
    s.bar4Byte offset i = 0xFF := by
  refine if_pos ?_
  rcases unserved with outside | guarded
  · have inBar : s.inBar4 offset i = false := decide_eq_false outside
    rw [inBar]
    rfl
  · rw [guarded, Bool.or_true]

theorem State.bar4Stored_outside (outside : ¬offset.toNat + 0 < 2 ^ s.svc.bar4Log2) : s.bar4Stored offset data = [] := by
  have inBar : s.inBar4 offset 0 = false := decide_eq_false outside
  unfold State.bar4Stored
  cases data with
  | nil => rfl
  | cons b data => rw [List.zipIdx_cons, List.takeWhile_cons, inBar]; rfl

theorem State.bar4Stored_inside (inside : offset.toNat + (data.length - 1) < 2 ^ s.svc.bar4Log2) : s.bar4Stored offset data = data := by
  unfold State.bar4Stored
  rw [List.takeWhile_eq_self_iff.2, List.zipIdx_map_fst]
  rintro ⟨b, i⟩ member
  obtain ⟨within, -⟩ := List.mem_zipIdx' member
  exact decide_eq_true (show offset.toNat + i < _ by omega)

theorem State.hbmByte_servedWrite_nil (i : Nat) : (s.servedWrite a []).hbmByte i = s.hbmByte i := by
  unfold State.servedWrite
  split
  · rfl
  · rw [State.hbmByte_hbmWrite, if_neg (by simp)]

theorem State.servedWrite_guarded {l : List Byte} (run : s.guarded a l.length = true) (each : ∀ i < l.length, s.guarded (a + i) 1 = true) :
    s.servedWrite a l = s := by
  unfold State.servedWrite
  rw [if_pos run]
  refine List.foldlRecOn (motive := (· = s)) _ _ rfl fun t same i member => ?_
  subst same
  exact if_pos (each i (List.mem_range.1 member))

theorem State.servedWrite_served {l : List Byte} (served : s.guarded a l.length = false) : s.servedWrite a l = s.hbmWrite a l :=
  if_neg (ne_true_of_eq_false served)

theorem bar4Window : Claim.Bar4Window := by
  intro s offset data awake
  refine ⟨⟨_, exec_bar4Access false awake, ?_, fun i member => ⟨?_, ?_⟩⟩, ?_, ?_, ?_⟩
  · rw [List.length_map, List.length_range]
  · rintro ⟨inside, served⟩
    exact (getD_map_range _ member).trans (State.bar4Byte_served inside served)
  · intro unserved
    exact (getD_map_range _ member).trans (State.bar4Byte_ones unserved)
  · intro outside
    refine ⟨_, exec_bar4Access true awake, fun i => ?_⟩
    rw [if_pos rfl, State.bar4Stored_outside outside, State.hbmByte_servedWrite_nil]
  · intro inside served
    refine ⟨(exec_bar4Access true awake).trans ?_, State.hbmByte_hbmWrite⟩
    rw [if_pos rfl, State.bar4Stored_inside inside]
    exact congrArg _ (State.servedWrite_served served)
  · intro inside each run
    refine (exec_bar4Access true awake).trans ?_
    rw [if_pos rfl, State.bar4Stored_inside inside]
    exact congrArg _ (State.servedWrite_guarded run each)

/-! ### A peer's requests (R285, R469, R470) -/

/-- What a peer's request does to this device, where nothing guards the bytes it names. -/
def State.remoteServed (s : State) (kind : RemoteKind) (a : Nat) (data : List Byte) : State :=
  match kind with
  | .read => { s with readData := s.hbmRead a data.length, lwl := { s.lwl with answerBad := s.hbmPoisoned a data.length } }
  | .write => s.hbmWrite a data
  | .poisonedWrite => (s.hbmWrite a data).poisonHbm a data.length

section
variable {link : Fin 4} {kind : RemoteKind} (awake : s.inert = false) (up : (s.link link.val).up = true) (mesh : (s.link link.val).isRing link.val = false)
include awake up mesh

theorem exec_remoteHbmRequest_served (served : s.guarded addr.toNat data.length = false) :
    exec (.remoteHbmRequest link kind addr data) s = .next (s.remoteServed kind addr.toNat data) := by
  show execRemoteHbmRequest link kind addr data s = _
  unfold execRemoteHbmRequest
  rw [unlessInert_awake awake]
  dsimp only
  rw [up, mesh, served]
  cases kind <;> rfl

theorem exec_remoteHbmRequest_guarded (guarded : s.guarded addr.toNat data.length = true) (writes : kind ≠ .read) :
    exec (.remoteHbmRequest link kind addr data) s = .next s := by
  show execRemoteHbmRequest link kind addr data s = _
  unfold execRemoteHbmRequest
  rw [unlessInert_awake awake]
  dsimp only
  rw [up, mesh, guarded, if_pos writes]
  rfl

end

theorem remoteHbm : Claim.RemoteHbm := by
  intro s link addr data awake up mesh
  refine ⟨fun served => ?_, fun guarded kind writes => exec_remoteHbmRequest_guarded awake up mesh guarded writes⟩
  exact ⟨exec_remoteHbmRequest_served awake up mesh served, exec_remoteHbmRequest_served awake up mesh served,
    exec_remoteHbmRequest_served awake up mesh served⟩

end Sys2Proof.Machine

namespace Sys2Proof
open Machine

/-- Settles O23: byte by byte through BAR4, and by the kind of a peer's request. -/
theorem memoryWindows : Obligations.MemoryWindows := ⟨bar4Window, remoteHbm⟩

end Sys2Proof
end

