-- ==== Sys2Proof/Proofs/PlacesAndPins.lean ====
section
/-! Pins, working areas and regions are matters of the fronds and of HBM: what stands beside both while they are given and taken back (R126, R128). -/

namespace Sys2Proof.Machine

variable {s t : State} {c f : Nat} {b : Bound}

/-- What stands beside the fronds and HBM. -/
def State.beside (s : State) : State := { s with fresh := 0, fronds := {}, hbm := {}, hbmPoison := [] }

theorem State.ctx_of_beside (same : t.beside = s.beside) (c : Nat) : t.ctx c = s.ctx c := congrArg (fun u => u.ctx c) same
theorem State.stream_of_beside (same : t.beside = s.beside) (c : Nat) : t.stream c = s.stream c := congrArg (fun u => u.stream c) same
theorem State.group_of_beside (same : t.beside = s.beside) (g : Nat) : t.group g = s.group g := congrArg (fun u => u.group g) same
theorem State.ringView_of_beside (same : t.beside = s.beside) (r : Nat) : t.ringView r = s.ringView r := congrArg (fun u => u.ringView r) same

theorem State.beside_foldl {α : Type} (F : State → α → State) (same : ∀ s x, (F s x).beside = s.beside) (l : List α) : (l.foldl F s).beside = s.beside :=
  List.foldlRecOn (motive := fun t : State => t.beside = s.beside) _ _ rfl fun t h x _ => (same t x).trans h

@[simp] theorem State.beside_setFrond (x : Frond) : (s.setFrond f x).beside = s.beside := rfl
@[simp] theorem State.beside_hbmWrite (a : Nat) (l : List Byte) : (s.hbmWrite a l).beside = s.beside := rfl

@[simp] theorem State.beside_poisonHbm (a n : Nat) : (s.poisonHbm a n).beside = s.beside := by
  have blurred (u : State) (p : Prop) [Decidable p] (a n : Nat) : (if p then u else u.blurHbm a n).beside = u.beside := by split <;> rfl
  exact (blurred ..).trans (blurred ..)

@[simp] theorem State.beside_markRow (p : Place) (bad : Bool) : (s.markRow f p bad).beside = s.beside := by
  unfold State.markRow
  cases p with
  | phys r => exact beside_setFrond ..
  | spill r =>
    dsimp only
    split
    · exact beside_poisonHbm ..
    · rfl

@[simp] theorem State.beside_spillRows (lo n : Nat) : (s.spillRows f lo n).beside = s.beside := by
  unfold State.spillRows
  split
  · rfl
  · refine beside_foldl _ (fun s q => ?_) _
    split
    · dsimp only [State.rowRead]
      rw [beside_setFrond, beside_markRow, beside_hbmWrite]
    · rfl

@[simp] theorem State.beside_pinOn : (s.pinOn f c b).beside = s.beside := by
  unfold State.pinOn
  split
  · rfl
  · split
    · dsimp only
      rw [beside_setFrond, beside_spillRows]
    · rfl

@[simp] theorem State.beside_pinAll : (s.pinAll c b).beside = s.beside := beside_foldl _ (fun _ _ => beside_pinOn) _

@[simp] theorem State.beside_moveAreas (l : List WorkArea) : (s.moveAreas f l).beside = s.beside := by
  unfold State.moveAreas
  dsimp only
  rw [beside_setFrond, beside_foldl _ (fun _ _ => beside_spillRows ..)]

/-! ### Working areas (R126) -/

/-- Frond f without the area of context c, its other areas compacted where no run of n rows is free without that. -/
def State.roomMade (s : State) (f c n : Nat) : State :=
  match ((s.frond f).withoutArea c).findRun n, ((s.frond f).withoutArea c).packed with
  | none, some l => (s.setFrond f ((s.frond f).withoutArea c)).moveAreas f l
  | _, _ => s.setFrond f ((s.frond f).withoutArea c)

/-- A frond once context c has a working area of a task there, its rows and regions empty. -/
def Frond.withArea (x : Frond) (c base : Nat) (t : TaskImage) : Frond :=
  let y := x.forgetRows ((List.range t.tRows).map (fun i => base + i))
  let lo := seBase true c
  { y with
    areas := y.areas ++ [{ ctx := c, base := base, rows := t.tRows }]
    se := y.se.forget lo (lo + 262144)
    poisonLines := y.poisonLines.filter (fun l => !(decide (lo ≤ 32 * l) && decide (32 * l < lo + 262144)))
    regions := y.regions.set c (t.circs.map (fun r => { base := r.baseRow.toNat, rows := r.size, head := 0, tail := 0 }))
    regionOwners := if y.regionOwners.contains c then y.regionOwners else y.regionOwners ++ [c] }

theorem State.placeArea_eq (t : TaskImage) : s.placeArea f c t =
    match ((s.roomMade f c t.tRows).frond f).findRun t.tRows with
    | none => (s.roomMade f c t.tRows).setFrond f { (s.roomMade f c t.tRows).frond f with placeDue := insertNat c ((s.roomMade f c t.tRows).frond f).placeDue }
    | some base => ((s.roomMade f c t.tRows).spillRows f base t.tRows).setFrond f ((((s.roomMade f c t.tRows).spillRows f base t.tRows).frond f).withArea c base t) := rfl

@[simp] theorem State.beside_roomMade (n : Nat) : (s.roomMade f c n).beside = s.beside := by
  unfold State.roomMade
  split
  · exact (beside_moveAreas ..).trans (beside_setFrond ..)
  · exact beside_setFrond ..

@[simp] theorem State.beside_placeArea (t : TaskImage) : (s.placeArea f c t).beside = s.beside := by
  rw [State.placeArea_eq]
  split <;> simp only [beside_setFrond, beside_spillRows, beside_roomMade]

@[simp] theorem State.beside_takeArea (t : TaskImage) : (s.takeArea f c t).beside = s.beside := by
  unfold State.takeArea
  dsimp only
  split
  · exact beside_placeArea ..
  · rfl

@[simp] theorem State.beside_freeRegions : (s.freeRegions f c).beside = s.beside := rfl

@[simp] theorem State.beside_releasePins : (s.releasePins f).beside = s.beside := by
  unfold State.releasePins
  dsimp only
  split <;> rfl

end Sys2Proof.Machine
end

