-- ==== Sys2Proof/Proofs/ContextsAndModels.lean ====
section
/-! Contexts are opened, bound and closed (R397, R399, Table 14.5, Table 14.9). -/

namespace Sys2Proof

/-- What a table reads is its default or one of its entries. -/
theorem Tbl.get_eq_or_mem {α : Type} (t : Tbl α) (k : Nat) (d : α) : t.get k d = d ∨ ∃ p ∈ t.cells, p.2 = t.get k d := by
  show Tbl.get.go k d t.cells = d ∨ ∃ p ∈ t.cells, p.2 = Tbl.get.go k d t.cells
  induction t.cells with
  | nil => exact .inl rfl
  | cons e l ih =>
    unfold Tbl.get.go
    split
    · exact .inl rfl
    · split
      · exact .inr ⟨e, List.mem_cons_self, rfl⟩
      · exact ih.imp_right fun ⟨p, member, same⟩ => ⟨p, List.mem_cons_of_mem _ member, same⟩

end Sys2Proof

namespace Sys2Proof.Machine

variable {s t : State} {h : DescHdr} {slot c f : Nat} {b : Bound}

/-! ### What a descriptor's start leaves alone -/

theorem State.Sole.start_ctx (H : s.Sole h slot) (c : Nat) : (s.start h).ctx c = s.ctx c := by
  obtain ⟨x, -, -, -, -, e⟩ := H.start
  exact congrArg (fun u => u.ctx c) e

theorem State.Sole.start_setOf (H : s.Sole h slot) (c : Nat) : (s.start h).setOf c = s.setOf c :=
  congrArg (fun k : Ctx => (k.bound.map Bound.fronds).getD []) (H.start_ctx c)

theorem State.reported_ctx (op : Byte) (status : BitVec 16) (i0 i1 i2 : W32) (cause : BitVec 16) (c : Nat) :
    (s.reported h slot op status i0 i1 i2 cause).ctx c = s.ctx c := rfl

theorem State.reported_group (op : Byte) (status : BitVec 16) (i0 i1 i2 : W32) (cause : BitVec 16) (g : Nat) :
    (s.reported h slot op status i0 i1 i2 cause).group g = s.group g := rfl

theorem State.reported_frond (op : Byte) (status : BitVec 16) (i0 i1 i2 : W32) (cause : BitVec 16) (f : Nat) :
    (s.reported h slot op status i0 i1 i2 cause).frond f = s.frond f := rfl

theorem State.ringView_setCtx (k : Ctx) (r : Nat) : (s.setCtx c k).ringView r = s.ringView r := rfl

/-- A descriptor that completes where its rings stand as at its start: the state it leaves, and what is reported. -/
theorem State.Sole.completesWith (H : s.Sole h slot) (same : t.ringView h.sq.val = (s.start h).ringView h.sq.val) (op : Byte) {status : BitVec 16}
    (admitted : status ≠ stAdmitDenied) (i0 i1 i2 : W32) (cause : BitVec 16) :
    t.completeWith h op status i0 i1 i2 cause = t.reported h slot op status i0 i1 i2 cause
      ∧ s.Reports (t.reported h slot op status i0 i1 i2 cause) h slot op status i0 := by
  obtain ⟨-, now, -, ring, records⟩ := State.ringView_iff.1 same
  obtain ⟨j1, j2, why, written, left⟩ := State.reported_reports (s := t) (h := h) (slot := slot) (op := op) (status := status) (i0 := i0) (i1 := i1) (i2 := i2)
    (cause := cause)
  refine ⟨(H.started.of_ringView same).complete op admitted i0 i1 i2 cause, H.reports_of_start ⟨j1, j2, why, ?_, left⟩⟩
  rw [← records, ← now, ← ring]
  exact written

theorem State.Sole.completes (H : s.Sole h slot) (same : t.ringView h.sq.val = (s.start h).ringView h.sq.val) (op : Byte) {status : BitVec 16}
    (admitted : status ≠ stAdmitDenied) : t.complete h op status = t.reported h slot op status ∧ s.Reports (t.complete h op status) h slot op status := by
  obtain ⟨done, reports⟩ := H.completesWith same op admitted 0 0 0 0
  exact ⟨done, (show t.complete h op status = _ from done) ▸ reports⟩

/-! ### CTX_OPEN (R397, R399) -/

/-- A context that CTX_OPEN finds as it must: closed, or with UPDATE open or bound without a job. -/
def Ctx.opens (k : Ctx) (update : Bool) : Prop :=
  if update then (k.state = .opened ∨ k.state = .bound) ∧ k.job = none else k.state = .closed

theorem Ctx.opens.idle {k : Ctx} {update : Bool} (opens : k.opens update) :
    (update && (decide (k.state = .running) || decide (k.state = .stopping) || k.job.isSome)) = false := by
  cases update with
  | false => rfl
  | true =>
    obtain ⟨state | state, job⟩ := opens <;> rw [state, job] <;> rfl

theorem Ctx.opens.stands {k : Ctx} {update : Bool} (opens : k.opens update) :
    (if update then decide (k.state ≠ .opened) && decide (k.state ≠ .bound) else decide (k.state ≠ .closed)) = false := by
  cases update with
  | false => exact decide_eq_false fun other => other opens
  | true =>
    obtain ⟨state | state, -⟩ := opens <;> rw [state] <;> rfl

theorem ctxOpenCopies : Claim.CtxOpenCopies := by
  intro s h slot update inHbm image H c v l served present opens formed areas
  have hbm : (inHbm && v.guarded image.toNat 256) = false := by
    cases inHbm with
    | false => rfl
    | true => exact served rfl
  have host : (!inHbm && (v.absentIn image.toNat 256).isSome) = false := by
    cases inHbm with
    | false => rw [present rfl]; rfl
    | true => rfl
  have image_ : (!ctxImageOk (liveCtx c) l || !v.ctxHbmOk (liveCtx c) l) = false := by
    rw [formed, areas]
    rfl
  have opens : (v.ctx c).opens update := opens
  show execCtxOpen h update inHbm image s = _
  unfold execCtxOpen
  rw [H.runs]
  refine congrArg _ ?_
  have rings (k : Ctx) : (v.setCtx c k).ringView h.sq.val = v.ringView h.sq.val := State.ringView_setCtx ..
  refine Eq.trans ?_ (H.completes (rings _) opCtxOpen stOk_admitted).1
  dsimp only
  rw [if_neg (ne_true_of_eq_false hbm), if_neg (ne_true_of_eq_false opens.idle), if_neg (ne_true_of_eq_false opens.stands),
    if_neg (ne_true_of_eq_false host), if_neg (ne_true_of_eq_false image_)]

/-! ### Groups and regions are given back -/

theorem State.dropGroups_group (g : Nat) (taken : ((s.dropGroups c []).group g).valid = true) : ((s.dropGroups c []).group g).ctx.toNat ≠ c := by
  rcases Tbl.get_eq_or_mem (s.dropGroups c []).lsch.groups g {} with default | ⟨p, member, same⟩
  · rw [State.group, default] at taken
    exact absurd taken Bool.false_ne_true
  · rw [State.group, ← same]
    obtain ⟨-, other⟩ := List.mem_filter.1 member
    simpa using other

theorem State.releasePins_regions (k : Nat) : ((s.releasePins f).frond k).regions = (s.frond k).regions := by
  unfold State.releasePins
  dsimp only
  split
  · by_cases here : k = f
    · rw [here, State.setFrond_frond]
    · rw [State.setFrond_frond_other _ _ _ _ here]
  · rfl

theorem State.freeRegions_regions : ((s.freeRegions f c).frond f).regions.get c [] = [] := by
  unfold State.freeRegions
  dsimp only
  rw [State.setFrond_frond]
  exact Tbl.get_filter_cells _ (fun k => decide (k ≠ c)) _ (by simp)

theorem State.freeRegions_frond_other {k : Nat} (other : k ≠ f) : (s.freeRegions f c).frond k = s.frond k := State.setFrond_frond_other _ _ _ _ other

theorem State.unbindImage_regions (member : f ∈ s.setOf c) : ((s.unbindImage c).frond f).regions.get c [] = [] := by
  have once : (s.setOf c).Nodup := by
    unfold State.setOf
    cases (s.ctx c).bound with
    | none => exact List.nodup_nil
    | some b => exact bitsOf_nodup b.mask
  unfold State.unbindImage
  refine foldl_visits (P := fun _ => True) (Q := fun t : State => (t.frond f).regions.get c [] = []) (fun _ _ _ _ => trivial) (fun t _ => ?_)
    (fun t k other free => ?_) once member trivial
  · rw [State.releasePins_regions, State.freeRegions_regions]
  · rw [State.releasePins_regions, State.freeRegions_frond_other other.symm, free]

theorem State.unbindImage_beside : (s.unbindImage c).beside = ((s.dropGroups c []).setCtx c { s.ctx c with bound := none, checked := false }).beside :=
  beside_foldl _ (fun _ _ => beside_releasePins.trans beside_freeRegions) _

theorem ctxCloseFrees : Claim.CtxCloseFrees := by
  intro s h slot H c stands jobless
  let v := s.start h
  let u := (v.unbindImage c).setCtx c {}
  have beside : (v.unbindImage c).beside = _ := State.unbindImage_beside
  have rings : u.ringView h.sq.val = v.ringView h.sq.val := State.ringView_of_beside beside _
  obtain ⟨done, reports⟩ := H.completes rings opCtxClose stOk_admitted
  have idle : ¬((v.ctx c).state = .running || (v.ctx c).state = .stopping || (v.ctx c).job.isSome) = true := by
    rw [H.start_ctx, jobless]
    rcases stands with state | state <;> rw [state] <;> exact Bool.false_ne_true
  have open_ : (v.ctx c).state ≠ .closed := by
    rw [H.start_ctx]
    rcases stands with state | state <;> rw [state] <;> exact nofun
  refine ⟨u.complete h opCtxClose stOk, ?_, ?_, fun g taken => ?_, fun f member => ?_, reports⟩
  · show execCtxClose h s = _
    unfold execCtxClose
    rw [H.runs]
    refine congrArg _ ?_
    dsimp only
    rw [if_neg open_, if_neg idle]
  · rw [done, State.reported_ctx]
    exact State.setCtx_ctx ..
  · rw [done, State.reported_group] at taken ⊢
    have group : u.group g = (v.dropGroups c []).group g := State.group_of_beside beside g
    rw [group] at taken ⊢
    exact State.dropGroups_group g taken
  · rw [done, State.reported_frond]
    exact State.unbindImage_regions ((H.start_setOf c).symm ▸ member)

/-! ### MODEL_BIND (Table 14.5) -/

/-- Binding takes groups in the group registers alone. -/
theorem State.bindGroups_state : ∃ g, (s.bindGroups c b).2 = s.withGroups g := by
  unfold State.bindGroups
  split
  · exact State.takeGroups_state b
  · exact ⟨s.lsch.groups, rfl⟩

theorem State.ringView_withGroups (g : Tbl McastGroup) (r : Nat) : (s.withGroups g).ringView r = s.ringView r := rfl
theorem State.ringView_dropGroups (keep : List Nat) (r : Nat) : (s.dropGroups c keep).ringView r = s.ringView r := rfl

theorem State.bindImage_beside (groups : List Nat) :
    (s.bindImage c b groups).beside = ((s.dropGroups c groups).setCtx c { s.ctx c with bound := some b, checked := true }).beside :=
  beside_foldl _ (fun _ _ => beside_releasePins) _

theorem State.bindImage_ctx (groups : List Nat) : (s.bindImage c b groups).ctx c = { s.ctx c with bound := some b, checked := true } :=
  (State.ctx_of_beside (State.bindImage_beside groups) c).trans (State.setCtx_ctx ..)

theorem State.ringView_bindImage (groups : List Nat) (r : Nat) : (s.bindImage c b groups).ringView r = s.ringView r := by
  rw [State.ringView_of_beside (State.bindImage_beside groups), State.ringView_setCtx, State.ringView_dropGroups]

theorem State.ringView_unbindImage (r : Nat) : (s.unbindImage c).ringView r = s.ringView r := by
  rw [State.ringView_of_beside State.unbindImage_beside, State.ringView_setCtx, State.ringView_dropGroups]

/-- Image b bound to context c in place of the one it had, with groups and pins of its own. -/
def State.rebound (s : State) (c : Nat) (b : Bound) : State :=
  let u := s.unbindImage c
  let t := ((u.bindGroups c b).2.pinAll c b).bindImage c b (u.bindGroups c b).1
  t.setCtx c { t.ctx c with state := .bound }

theorem State.ringView_rebound (r : Nat) : (s.rebound c b).ringView r = s.ringView r := by
  obtain ⟨g, groups⟩ := State.bindGroups_state (s := s.unbindImage c) (c := c) (b := b)
  unfold State.rebound
  dsimp only
  rw [State.ringView_setCtx, State.ringView_bindImage, State.ringView_of_beside State.beside_pinAll, groups, State.ringView_withGroups,
    State.ringView_unbindImage]

theorem State.rebound_ctx : ((s.rebound c b).ctx c).state = .bound ∧ ((s.rebound c b).ctx c).bound = some b ∧ ((s.rebound c b).ctx c).checked = true := by
  unfold State.rebound
  dsimp only
  rw [State.setCtx_ctx, State.bindImage_ctx]
  exact ⟨rfl, rfl, rfl⟩

theorem modelBindBinds : Claim.ModelBindBinds := by
  intro s h slot image bytes sharedPin pinned mask t H c v b served fronds stands jobless waits parsed rows live checked fits
  have buffer : ¬(v.guarded image.toNat bytes.toNat || decide (mask = 0)) = true := by
    rw [served, decide_eq_false fronds]
    exact Bool.false_ne_true
  have open_ : (v.ctx c).state ≠ .closed := by rcases stands with state | state <;> rw [state] <;> exact nofun
  have idle : ¬((v.ctx c).state = .stopping || (v.ctx c).job.isSome || (v.stream c).bindWait.isSome) = true := by
    rw [jobless, waits]
    rcases stands with state | state <;> rw [state] <;> exact Bool.false_ne_true
  have still : (v.ctx c).state ≠ .running := by rcases stands with state | state <;> rw [state] <;> exact nofun
  have pins : ¬(decide (t.pBytes ≠ 0) && v.guarded pinned.toNat t.pBytes.toNat) = true := by
    rcases rows with none | served
    · rw [decide_eq_false (not_not_intro none)]
      exact Bool.false_ne_true
    · rw [served, Bool.and_false]
      exact Bool.false_ne_true
  obtain ⟨done, reports⟩ := H.completes (State.ringView_rebound (s := v) (c := c) (b := b) h.sq.val) opModelBind stOk_admitted
  refine ⟨(v.rebound c b).complete h opModelBind stOk, ?_, ?_⟩
  · show execModelBind h image bytes sharedPin pinned mask s = _
    unfold execModelBind
    rw [H.runs]
    refine congrArg _ ?_
    dsimp only
    rw [if_neg buffer, if_neg open_, if_neg idle, parsed]
    dsimp only
    rw [if_neg pins, if_neg (not_not_intro live), checked]
    dsimp only
    rw [if_neg still, if_pos fits]
    rfl
  · dsimp only
    rw [done, State.reported_ctx]
    rw [done] at reports
    obtain ⟨state, bound, check⟩ := State.rebound_ctx (s := v) (c := c) (b := b)
    exact ⟨state, bound, check, reports⟩

end Sys2Proof.Machine

namespace Sys2Proof
open Machine

/-- Settles O12: what each command asks of its context holds, its writes leave the rings alone, and the descriptor completes. -/
theorem contextsAndModels : Obligations.ContextsAndModels := ⟨ctxOpenCopies, ctxCloseFrees, modelBindBinds⟩

end Sys2Proof
end

