-- ==== Sys2Proof/Proofs/RoomForStreams.lean ====
section
/-! Room on a frond for a stream's pin and working area: what it depends on, and that STREAM_START's placement finds what admission found (R126, R128). -/

namespace Sys2Proof.Machine

variable {s t : State} {c f k n : Nat} {b : Bound} {x y : Frond}

/-! ### What room depends on -/

/-- What room on a frond, and its standing still, depend on. -/
def Frond.room (x : Frond) : Frond :=
  { live := x.live, simmer := x.simmer, pins := x.pins, areas := x.areas, placeDue := x.placeDue, segEn := x.segEn, segs := x.segs
    cacheSteps := x.cacheSteps, cacheActive := x.cacheActive }

theorem Frond.still_of_room (same : x.room = y.room) : x.still = y.still := by
  show x.room.still = y.room.still
  rw [same]

/-- A working area of n rows finds a run, in place of the one the context may have, once the others are compacted (R126). -/
def Frond.roomy (x : Frond) (c n : Nat) : Bool :=
  ((x.withoutArea c).findRun n).isSome
    || (match (x.withoutArea c).packed with
      | none => false
      | some l => (({ x.withoutArea c with areas := l } : Frond).findRun n).isSome)

theorem Frond.placeDue_of_room (same : x.room = y.room) : x.placeDue = y.placeDue := by
  show x.room.placeDue = y.room.placeDue
  rw [same]

theorem Frond.findRun_of_room (same : x.room = y.room) : x.findRun n = y.findRun n := by
  show x.room.findRun n = y.room.findRun n
  rw [same]

theorem Frond.roomy_of_room (same : x.room = y.room) : x.roomy c n = y.roomy c n := by
  show x.room.roomy c n = y.room.roomy c n
  rw [same]

theorem Frond.roomFor_pin (fits : x.roomFor c b = true) : ∃ y, x.withPin c b = some y ∧ y.roomy c b.image.tRows = true := by
  unfold Frond.roomFor at fits
  cases pin : x.withPin c b with
  | none => rw [pin] at fits; exact absurd fits Bool.false_ne_true
  | some y => rw [pin] at fits; exact ⟨y, rfl, fits⟩

/-! ### Spilled and moved rows -/

theorem Frond.room_rows (m : Mem) (full bad : List Nat) : Frond.room { x with tsp := m, full := full, poisonRows := bad } = x.room := rfl

theorem State.hbmWrite_frond (a : Nat) (l : List Byte) : (s.hbmWrite a l).frond k = s.frond k := rfl

theorem State.poisonHbm_frond (a n : Nat) : (s.poisonHbm a n).frond k = s.frond k := by
  have blurred (u : State) (p : Prop) [Decidable p] (a n : Nat) : (if p then u else u.blurHbm a n).frond k = u.frond k := by split <;> rfl
  exact (blurred ..).trans (blurred ..)

theorem State.markRow_spill_frond (r : Nat) (bad : Bool) : (s.markRow f (.spill r) bad).frond k = s.frond k := by
  unfold State.markRow
  dsimp only
  split
  · exact poisonHbm_frond ..
  · rfl

theorem State.room_setFrond (same : x.room = (s.frond f).room) : ((s.setFrond f x).frond k).room = (s.frond k).room := by
  by_cases here : k = f
  · rw [here, State.setFrond_frond, same]
  · rw [State.setFrond_frond_other _ _ _ _ here]

theorem Frond.setTag_spill_room (l : List Nat) (r : Nat) (full : Bool) : (Frond.setTag { x with simRows := l } (.spill r) full).room = x.room := rfl

theorem State.spillRows_room (lo n : Nat) : ((s.spillRows f lo n).frond k).room = (s.frond k).room := by
  unfold State.spillRows
  split
  · rfl
  · refine List.foldlRecOn (motive := fun t : State => (t.frond k).room = (s.frond k).room) _ _ rfl fun t same q _ => ?_
    split
    · dsimp only [State.rowRead]
      rw [State.room_setFrond (Frond.setTag_spill_room ..), State.markRow_spill_frond, State.hbmWrite_frond]
      exact same
    · exact same

theorem State.spillRows_frond_other (other : k ≠ f) (lo n : Nat) : (s.spillRows f lo n).frond k = s.frond k := by
  unfold State.spillRows
  split
  · rfl
  · refine List.foldlRecOn (motive := fun t : State => t.frond k = s.frond k) _ _ rfl fun t same q _ => ?_
    split
    · dsimp only [State.rowRead]
      rw [State.setFrond_frond_other _ _ _ _ other, State.markRow_spill_frond, State.hbmWrite_frond]
      exact same
    · exact same

theorem State.moveAreas_frond_other (other : k ≠ f) (l : List WorkArea) : (s.moveAreas f l).frond k = s.frond k := by
  unfold State.moveAreas
  dsimp only
  rw [State.setFrond_frond_other _ _ _ _ other]
  exact List.foldlRecOn (motive := fun t : State => t.frond k = s.frond k) _ _ rfl fun t same a _ => (State.spillRows_frond_other other ..).trans same

theorem State.moveAreas_room (l : List WorkArea) : ((s.moveAreas f l).frond f).room = { (s.frond f).room with areas := l } := by
  unfold State.moveAreas
  dsimp only
  rw [State.setFrond_frond]
  have spilled := List.foldlRecOn (motive := fun t : State => (t.frond f).room = (s.frond f).room) (l.filter (fun a => !(s.frond f).areas.contains a))
    (fun s a => s.spillRows f a.base a.rows) rfl fun t same a _ => (State.spillRows_room ..).trans same
  refine List.foldlRecOn (motive := fun y : Frond => y.room = { (s.frond f).room with areas := l }) _ _ ?_ fun y same p _ => (Frond.room_rows ..).trans same
  exact congrArg (fun z : Frond => { z with areas := l }) spilled

/-! ### Pins (R128) -/

theorem State.pinOn_frond_other (other : k ≠ f) : (s.pinOn f c b).frond k = s.frond k := by
  unfold State.pinOn
  split
  · rfl
  · split
    · dsimp only
      rw [State.setFrond_frond_other _ _ _ _ other, State.spillRows_frond_other other]
    · rfl

/-- A frond that has room for a pin, or its pin already, has it from then on. -/
theorem State.pinOn_room (pin : (s.frond f).withPin c b = some y) : ((s.pinOn f c b).frond f).room = y.room := by
  unfold Frond.withPin at pin
  unfold State.pinOn
  split at pin
  · next pinned => rw [if_pos pinned, Option.some.inj pin]
  · next unpinned =>
    obtain ⟨⟨m, p⟩, new, rfl⟩ := Option.map_eq_some_iff.1 pin
    rw [if_neg unpinned, new]
    dsimp only
    rw [State.setFrond_frond]
    exact congrArg (fun z : Frond => { z with pins := z.pins.set m p }) (State.spillRows_room ..)

/-! ### Working areas (R126) -/

theorem State.roomMade_frond_other (other : k ≠ f) (n : Nat) : (s.roomMade f c n).frond k = s.frond k := by
  unfold State.roomMade
  split
  · exact (State.moveAreas_frond_other other _).trans (State.setFrond_frond_other _ _ _ _ other)
  · exact State.setFrond_frond_other _ _ _ _ other

/-- On a frond with room, the run is there once the areas are compacted, and nothing waits any more for the context. -/
theorem State.roomMade_run (room : (s.frond f).roomy c n = true) : (((s.roomMade f c n).frond f).findRun n).isSome = true
    ∧ ((s.roomMade f c n).frond f).placeDue = ((s.frond f).withoutArea c).placeDue := by
  unfold Frond.roomy at room
  unfold State.roomMade
  cases run : ((s.frond f).withoutArea c).findRun n with
  | some base =>
    dsimp only
    rw [State.setFrond_frond, run]
    exact ⟨rfl, rfl⟩
  | none =>
    rw [run] at room
    cases packed : ((s.frond f).withoutArea c).packed with
    | none => rw [packed] at room; exact absurd room Bool.false_ne_true
    | some l =>
      rw [packed] at room
      have moved := State.moveAreas_room (s := s.setFrond f ((s.frond f).withoutArea c)) (f := f) l
      rw [State.setFrond_frond] at moved
      dsimp only
      rw [Frond.findRun_of_room (y := { (s.frond f).withoutArea c with areas := l }) moved]
      exact ⟨room, Frond.placeDue_of_room (y := { (s.frond f).withoutArea c with areas := l }) moved⟩

theorem State.placeArea_frond_other (other : k ≠ f) (t : TaskImage) : (s.placeArea f c t).frond k = s.frond k := by
  rw [State.placeArea_eq]
  split <;> simp only [State.setFrond_frond_other _ _ _ _ other, State.spillRows_frond_other other, State.roomMade_frond_other other]

/-- Context c has a working area on the frond, and waits for none there. -/
def Frond.placed (x : Frond) (c : Nat) : Prop := x.areas.any (fun a => decide (a.ctx = c)) = true ∧ x.placeDue.contains c = false

theorem Frond.withArea_placed {base : Nat} {t : TaskImage} (noDue : x.placeDue.contains c = false) : (x.withArea c base t).placed c :=
  ⟨by simp [Frond.withArea], noDue⟩

theorem State.areaTaken_placed {base : Nat} {t : TaskImage} (noDue : (s.frond f).placeDue.contains c = false) :
    (((s.spillRows f base t.tRows).setFrond f (((s.spillRows f base t.tRows).frond f).withArea c base t)).frond f).placed c := by
  rw [State.setFrond_frond]
  exact Frond.withArea_placed ((congrArg (fun z : Frond => z.placeDue.contains c) (State.spillRows_room ..)).trans noDue)

theorem State.placeArea_placed {t : TaskImage} (room : (s.frond f).roomy c t.tRows = true) : ((s.placeArea f c t).frond f).placed c := by
  have noDue : ((s.frond f).withoutArea c).placeDue.contains c = false := by simp [Frond.withoutArea]
  obtain ⟨run, due⟩ := State.roomMade_run room
  obtain ⟨base, found⟩ := Option.isSome_iff_exists.1 run
  rw [State.placeArea_eq, found]
  exact State.areaTaken_placed (due ▸ noDue)

theorem State.takeArea_frond_other (other : k ≠ f) (t : TaskImage) : (s.takeArea f c t).frond k = s.frond k := by
  unfold State.takeArea
  dsimp only
  split
  · exact State.placeArea_frond_other other t
  · exact State.setFrond_frond_other _ _ _ _ other

theorem State.takeArea_placed {t : TaskImage} (still : (s.frond f).still = true) (room : (s.frond f).roomy c t.tRows = true) :
    ((s.takeArea f c t).frond f).placed c := by
  have may : (s.frond f).mayPlace t.tRows = true := by
    unfold Frond.mayPlace
    rw [still, Bool.true_or]
  unfold State.takeArea
  dsimp only
  rw [if_pos may]
  exact State.placeArea_placed room

/-- Pins, then working areas, on every frond of a set that stands still and has the room: each then has the area. -/
theorem State.takeAreas_placed {l : List Nat} (once : l.Nodup) (member : f ∈ l) (still : (s.frond f).still = true) (room : (s.frond f).roomFor c b = true) :
    ((l.foldl (fun s f => s.takeArea f c b.image) (l.foldl (fun s f => s.pinOn f c b) s)).frond f).placed c := by
  obtain ⟨y, pin, roomy⟩ := Frond.roomFor_pin room
  have pinned : ((l.foldl (fun s f => s.pinOn f c b) s).frond f).room = y.room :=
    foldl_visits (P := fun t : State => t.frond f = s.frond f) (Q := fun t : State => (t.frond f).room = y.room)
      (fun t k other same => (State.pinOn_frond_other other.symm).trans same) (fun t same => State.pinOn_room (same ▸ pin))
      (fun t k other same => (congrArg Frond.room (State.pinOn_frond_other other.symm)).trans same) once member rfl
  have stays : y.still = true := by
    unfold Frond.withPin at pin
    split at pin
    · rw [← Option.some.inj pin, still]
    · obtain ⟨p, -, rfl⟩ := Option.map_eq_some_iff.1 pin
      exact still
  refine foldl_visits (P := fun t : State => (t.frond f).room = y.room) (Q := fun t : State => (t.frond f).placed c)
    (fun t k other same => (congrArg Frond.room (State.takeArea_frond_other other.symm _)).trans same) (fun t same => ?_)
    (fun t k other placed => (State.takeArea_frond_other other.symm _).symm ▸ placed) once member pinned
  exact State.takeArea_placed ((Frond.still_of_room same).trans stays) ((Frond.roomy_of_room same).trans roomy)

end Sys2Proof.Machine
end

