-- ==== Sys2Proof/Proofs/StreamsStartAndStop.lean ====
section
/-! STREAM_START takes up a stream's set, and STREAM_STOP leaves it to its last frame (R127, R390). -/

namespace Sys2Proof.Machine

variable {s t : State} {h : DescHdr} {slot c d f k r : Nat} {b : Bound} {x : Frond}

theorem State.Sole.start_stream (H : s.Sole h slot) (c : Nat) : (s.start h).stream c = s.stream c := by
  obtain ⟨x, -, -, -, -, e⟩ := H.start
  exact congrArg (fun u => u.stream c) e

theorem State.Sole.start_frond (H : s.Sole h slot) (f : Nat) : (s.start h).frond f = s.frond f := by
  obtain ⟨x, -, -, -, -, e⟩ := H.start
  exact congrArg (fun u => u.frond f) e

/-! ### The clocks of a set (R40, R528) -/

theorem State.uncounted_wakeSet (l : List Nat) : (s.wakeSet l).uncounted = s.uncounted := by
  refine uncounted_foldl _ (fun s f => ?_) l
  dsimp only
  split
  · rw [uncounted_takePlan, uncounted_wake]
  · exact uncounted_wake _

theorem State.ringView_meter (f : Nat) : (s.meter f).ringView r = s.ringView r := by
  have counted (u : State) (idx n : Nat) : (u.count idx n).ringView r = u.ringView r := State.ringView_of_unmoved (State.unmoved_count ..)
  unfold State.meter State.countCycles
  dsimp only
  split
  · rfl
  · split
    · exact counted ..
    · rfl

theorem State.ringView_setDomain (x : Domain) : (s.setDomain d x).ringView r = s.ringView r := rfl

theorem State.ringView_takePlan : (s.takePlan d).ringView r = s.ringView r := by
  have metered : (s.meterDomain d).ringView r = s.ringView r :=
    List.foldlRecOn (motive := fun t : State => t.ringView r = s.ringView r) _ _ rfl fun t same i _ => (State.ringView_meter _).trans same
  have charged (u : State) (p : BitVec 2) : (u.chargeBoost p).ringView r = u.ringView r := by
    unfold State.chargeBoost
    split <;> rfl
  unfold State.takePlan
  dsimp only
  rw [State.ringView_setDomain, charged, State.ringView_setDomain, metered]

theorem State.ringView_wake : (s.wake d).ringView r = s.ringView r := by
  unfold State.wake
  split
  · rw [State.ringView_setDomain, State.ringView_takePlan]
  · rfl

theorem State.ringView_wakeSet (l : List Nat) : (s.wakeSet l).ringView r = s.ringView r := by
  refine List.foldlRecOn (motive := fun t : State => t.ringView r = s.ringView r) _ _ rfl fun t same f _ => ?_
  dsimp only
  split
  · exact State.ringView_takePlan.trans (State.ringView_wake.trans same)
  · exact State.ringView_wake.trans same

/-! ### A set is taken up (R126, R127) -/

/-- Pins and working areas of a stream's image on its set. -/
def State.settled (s : State) (c : Nat) (b : Bound) : State := b.fronds.foldl (fun s f => s.takeArea f c b.image) (s.pinAll c b)

theorem State.settled_beside : (s.settled c b).beside = s.beside := (beside_foldl _ (fun _ _ => beside_takeArea _) _).trans beside_pinAll

theorem State.occupy_cases (bound : (s.ctx c).bound = some b) : s.occupy c = s.settled c b ∨ s.occupy c = (s.settled c b).wakeSet b.fronds := by
  unfold State.occupy
  rw [bound]
  dsimp only
  split
  · exact .inl rfl
  · exact .inr rfl

/-- Between two states the set of context c is taken up: context, stream and rings stand. -/
def State.TakesUp (s t : State) (c : Nat) : Prop := t.ctx c = s.ctx c ∧ t.stream c = s.stream c ∧ ∀ r, t.ringView r = s.ringView r

theorem State.occupy_takesUp (bound : (s.ctx c).bound = some b) : s.TakesUp (s.occupy c) c := by
  have settled := State.settled_beside (s := s) (c := c) (b := b)
  rcases State.occupy_cases bound with same | woken
  · rw [same]
    exact ⟨ctx_of_beside settled c, stream_of_beside settled c, ringView_of_beside settled⟩
  · rw [woken]
    have counted := State.uncounted_wakeSet (s := s.settled c b) b.fronds
    exact ⟨(congrArg (fun u => u.ctx c) counted).trans (ctx_of_beside settled c), (congrArg (fun u => u.stream c) counted).trans (stream_of_beside settled c),
      fun r => (State.ringView_wakeSet _).trans (ringView_of_beside settled r)⟩

theorem State.occupy_placed (bound : (s.ctx c).bound = some b) (member : f ∈ b.fronds) (still : (s.frond f).still = true)
    (room : (s.frond f).roomFor c b = true) : ((s.occupy c).frond f).placed c := by
  have placed : ((s.settled c b).frond f).placed c := State.takeAreas_placed (bitsOf_nodup b.mask) member still room
  rcases State.occupy_cases bound with same | woken
  · rwa [same]
  · rwa [woken, State.frond_of_uncounted (State.uncounted_wakeSet _)]

theorem State.reportAdmission_takesUp (mask : BitVec 256) : s.TakesUp (s.reportAdmission mask) c := by
  have beside : (s.reportAdmission mask).beside = s.beside := beside_foldl _ (fun _ _ => beside_setFrond _) _
  exact ⟨ctx_of_beside beside c, stream_of_beside beside c, ringView_of_beside beside⟩

theorem State.reportAdmission_placed (mask : BitVec 256) (placed : (s.frond f).placed c) : ((s.reportAdmission mask).frond f).placed c := by
  refine List.foldlRecOn (motive := fun t : State => (t.frond f).placed c) _ _ placed fun t placed k _ => ?_
  by_cases here : f = k
  · subst here
    rw [State.setFrond_frond]
    exact placed
  · rwa [State.setFrond_frond_other _ _ _ _ here]

theorem State.TakesUp.trans {u : State} (first : s.TakesUp t c) (second : t.TakesUp u c) : s.TakesUp u c := by
  obtain ⟨ctx₁, stream₁, rings₁⟩ := first
  obtain ⟨ctx₂, stream₂, rings₂⟩ := second
  exact ⟨ctx₂.trans ctx₁, stream₂.trans stream₁, fun r => (rings₂ r).trans (rings₁ r)⟩

/-! ### STREAM_START (R390) -/

/-- Some frond of the set of context c has not placed its working area yet. -/
def State.areasDue (s : State) (c : Nat) : Bool := (s.setOf c).any (fun f => (s.frond f).placeDue.contains c)

theorem State.finishStart_due (waits : (s.stream c).startHdr = some h) (due : s.areasDue c = true) : s.finishStart c = s := by
  unfold State.finishStart
  rw [waits]
  exact if_pos due

theorem State.finishStart_done (waits : (s.stream c).startHdr = some h) (placed : s.areasDue c = false) (H : s.Sole h slot) :
    s.finishStart c = (s.setStream c { s.stream c with startHdr := none }).reported h slot opStreamStart stOk (s.ctx c).outFrame := by
  have H' : (s.setStream c { s.stream c with startHdr := none }).Sole h slot := H.of_hif rfl rfl
  unfold State.finishStart
  rw [waits]
  exact (if_neg (ne_true_of_eq_false placed)).trans (H'.complete opStreamStart stOk_admitted ..)

/-- A stream that starts, before its set is taken up: the context runs from an output frame on, and the descriptor waits. -/
def State.Starts (s t : State) (h : DescHdr) (firstIn : W32) : Prop :=
  (∃ out, t.ctx h.ctx.toNat = { s.ctx h.ctx.toNat with state := .running, firstIn := firstIn, recSwapped := false, outFrame := out, nextOut := out })
    ∧ (t.stream h.ctx.toNat).active = true ∧ (t.stream h.ctx.toNat).startHdr = some h
    ∧ t.ringView h.sq.val = s.ringView h.sq.val ∧ ∀ f, t.frond f = s.frond f

/-- The stream of context c runs, on an image as high as its picture asks. -/
def State.streamSet (s : State) (c : Nat) (b : Bound) (firstIn : W32) : State :=
  let r := (s.setCtx c { s.ctx c with state := .running, firstIn := firstIn, recSwapped := false }).setStream c { active := true, srcH := s.pictureH c }
  r.setStream c { r.stream c with srcH := (r.geom c none b.image.h.toNat).srcH }

/-- Its first output frame is the one named, or the first one whose release lies ahead; the descriptor waits. -/
def State.streamStarted (s : State) (h : DescHdr) (b : Bound) (firstIn outFrame : W32) : State :=
  let c := h.ctx.toNat
  let u := s.streamSet c b firstIn
  let now := (u.tg (u.outOf c)).frame
  let out := u.aheadFrom 4 c (if frameLt outFrame now then now else outFrame)
  let w := u.setCtx c { u.ctx c with outFrame := out, nextOut := out }
  w.setStream c { w.stream c with startHdr := some h, ckptAt := (w.startPlace c b).getD 0 }

theorem State.streamSet_ctx (firstIn : W32) :
    (s.streamSet c b firstIn).ctx c = { s.ctx c with state := .running, firstIn := firstIn, recSwapped := false } := by
  unfold State.streamSet
  dsimp only
  rw [State.setStream_ctx, State.setStream_ctx, State.setCtx_ctx]

theorem State.streamSet_active (firstIn : W32) : ((s.streamSet c b firstIn).stream c).active = true := by
  unfold State.streamSet
  dsimp only
  rw [State.setStream_stream, State.setStream_stream]

theorem State.streamSet_rings (firstIn : W32) : (s.streamSet c b firstIn).ringView r = s.ringView r := rfl
theorem State.streamSet_frond (firstIn : W32) : (s.streamSet c b firstIn).frond f = s.frond f := rfl
theorem State.ringView_setStream (x : Stream) : (s.setStream c x).ringView r = s.ringView r := rfl

theorem State.streamStarted_starts (firstIn outFrame : W32) : s.Starts (s.streamStarted h b firstIn outFrame) h firstIn := by
  let u := s.streamSet h.ctx.toNat b firstIn
  let now := (u.tg (u.outOf h.ctx.toNat)).frame
  unfold State.streamStarted
  dsimp only
  refine ⟨⟨u.aheadFrom 4 h.ctx.toNat (if frameLt outFrame now then now else outFrame), ?_⟩, ?_, ?_, ?_, fun f => ?_⟩
  · rw [State.setStream_ctx, State.setCtx_ctx, State.streamSet_ctx]
  · rw [State.setStream_stream, State.setCtx_stream, State.streamSet_active]
  · rw [State.setStream_stream]
  · rw [State.ringView_setStream, State.ringView_setCtx, State.streamSet_rings]
  · rw [State.setStream_frond, State.setCtx_frond, State.streamSet_frond]

theorem exec_streamStart {firstIn outFrame : W32} (H : s.Sole h slot) (live : liveCtx h.ctx.toNat = true)
    (bound : ((s.start h).ctx h.ctx.toNat).bound = some b) (state : ((s.start h).ctx h.ctx.toNat).state = .bound)
    (admits : ((s.start h).streamSet h.ctx.toNat b firstIn).startAdmits h.ctx.toNat b = true) :
    exec (.streamStart h firstIn outFrame) s =
      .next (((((s.start h).streamStarted h b firstIn outFrame).occupy h.ctx.toNat).reportAdmission b.mask).finishStart h.ctx.toNat) := by
  have dead : ¬(!liveCtx h.ctx.toNat) = true := by rw [live]; exact Bool.false_ne_true
  show execStreamStart h firstIn outFrame s = _
  unfold execStreamStart
  rw [H.runs]
  refine congrArg _ ?_
  extract_lets c k
  rw [bound]
  dsimp -zeta only
  rw [if_neg dead, if_neg (not_not_intro state)]
  extract_lets u
  have admits' : u.startAdmits c b = true := admits
  rw [if_pos admits']
  rfl

theorem State.startAdmits_room (admits : s.startAdmits c b = true) (member : f ∈ b.fronds) : (s.frond f).roomFor c b = true := by
  unfold State.startAdmits at admits
  exact List.all_eq_true.1 (Bool.and_eq_true_iff.1 admits).2 f member

/-- The set of a stream taken up, before the descriptor is looked at again. -/
def State.takenUp (s : State) (c : Nat) (b : Bound) : State := (s.occupy c).reportAdmission b.mask

theorem State.takenUp_takesUp (bound : (s.ctx c).bound = some b) : s.TakesUp (s.takenUp c b) c :=
  (State.occupy_takesUp bound).trans (State.reportAdmission_takesUp b.mask)

theorem State.takenUp_placed (bound : (s.ctx c).bound = some b) (member : f ∈ b.fronds) (still : (s.frond f).still = true)
    (room : (s.frond f).roomFor c b = true) : ((s.takenUp c b).frond f).placed c :=
  State.reportAdmission_placed _ (State.occupy_placed bound member still room)

theorem State.streamStarted_room {firstIn outFrame : W32} (admits : (s.streamSet h.ctx.toNat b firstIn).startAdmits h.ctx.toNat b = true)
    (member : f ∈ b.fronds) : ((s.streamStarted h b firstIn outFrame).frond f).roomFor h.ctx.toNat b = true := by
  obtain ⟨-, -, -, -, fronds⟩ := State.streamStarted_starts (s := s) (h := h) (b := b) firstIn outFrame
  rw [fronds, ← State.streamSet_frond (c := h.ctx.toNat) (b := b) firstIn]
  exact State.startAdmits_room admits member

theorem State.areasDue_of_placed (bound : (s.ctx c).bound = some b) (placed : ∀ f ∈ b.fronds, (s.frond f).placed c) : s.areasDue c = false := by
  unfold State.areasDue State.setOf
  rw [bound]
  refine List.any_eq_false.2 fun f member => ?_
  obtain ⟨-, settled⟩ := placed f member
  exact ne_true_of_eq_false settled

theorem State.reported_stream (op : Byte) (status : BitVec 16) (i0 i1 i2 : W32) (cause : BitVec 16) :
    (s.reported h slot op status i0 i1 i2 cause).stream c = s.stream c := rfl

/-- Where a STREAM_START that waits on context c stands after its set was taken up: it has completed, or it waits on. -/
theorem State.Sole.finishStart_ends (H : s.Sole h slot) (rings : t.ringView h.sq.val = (s.start h).ringView h.sq.val)
    (waits : (t.stream c).startHdr = some h) :
    (t.finishStart c).ctx c = t.ctx c ∧ ((t.finishStart c).stream c).active = (t.stream c).active
      ∧ (∀ f, (t.finishStart c).frond f = t.frond f)
      ∧ (((t.finishStart c).stream c).startHdr = none
        ∨ ((t.finishStart c).stream c).startHdr = some h ∧ ((t.finishStart c).sq h.sq.val).inflight = ((s.start h).sq h.sq.val).inflight)
      ∧ (t.areasDue c = false → s.Reports (t.finishStart c) h slot opStreamStart stOk ((t.finishStart c).ctx c).outFrame) := by
  obtain ⟨-, -, -, ring, -⟩ := State.ringView_iff.1 rings
  rcases Bool.eq_false_or_eq_true (t.areasDue c) with due | settled
  · rw [State.finishStart_due waits due]
    exact ⟨rfl, rfl, fun _ => rfl, .inr ⟨waits, congrArg SubRing.inflight ring⟩, fun settled => absurd due (ne_true_of_eq_false settled)⟩
  · obtain ⟨done, reports⟩ := H.completesWith ((State.ringView_setStream (c := c) { t.stream c with startHdr := none }).trans rings) opStreamStart stOk_admitted
      (t.ctx c).outFrame 0 0 0
    rw [State.finishStart_done waits settled (H.started.of_ringView rings)]
    rw [State.reported_ctx, State.reported_stream, State.setStream_stream, State.setStream_ctx]
    refine ⟨rfl, rfl, fun f => ?_, .inl rfl, fun _ => reports⟩
    rw [State.reported_frond, State.setStream_frond]

theorem streamStartRuns : Claim.StreamStartRuns := by
  intro s h slot firstIn outFrame b H c v live bound state r admits
  let u := v.streamStarted h b firstIn outFrame
  obtain ⟨⟨out, ctx⟩, active, waits, rings, fronds⟩ := State.streamStarted_starts (s := v) (h := h) (b := b) firstIn outFrame
  have boundU : (u.ctx c).bound = some b := (congrArg Ctx.bound ctx).trans bound
  obtain ⟨ctxW, streamW, ringsW⟩ := State.takenUp_takesUp boundU
  obtain ⟨ctxT, activeT, frondsT, waitsT, reportsT⟩ := H.finishStart_ends (t := u.takenUp c b) ((ringsW _).trans rings) ((congrArg Stream.startHdr streamW).trans waits)
  have placed (still : ∀ f ∈ b.fronds, (s.frond f).still = true) (f : Nat) (member : f ∈ b.fronds) : ((u.takenUp c b).frond f).placed c := by
    refine State.takenUp_placed boundU member ?_ (State.streamStarted_room admits member)
    rw [fronds, H.start_frond]
    exact still f member
  refine ⟨_, exec_streamStart H live bound state admits, ?_⟩
  have ctx' : (((u.takenUp c b).finishStart c).ctx c) = { v.ctx c with state := .running, firstIn := firstIn, recSwapped := false, outFrame := out, nextOut := out } :=
    ctxT.trans (ctxW.trans ctx)
  refine ⟨congrArg Ctx.state ctx', congrArg Ctx.firstIn ctx', (congrArg Ctx.nextOut ctx').trans (congrArg Ctx.outFrame ctx').symm,
    activeT.trans ((congrArg Stream.active streamW).trans active), waitsT, fun still => ⟨fun f member => ?_, ?_⟩⟩
  · obtain ⟨area, -⟩ := placed still f member
    exact (congrArg (fun x : Frond => x.areas.any (fun a => decide (a.ctx = c))) (frondsT f)).trans area
  · exact reportsT (State.areasDue_of_placed ((congrArg Ctx.bound ctxW).trans boundU) (placed still))

/-! ### STREAM_STOP (R390) -/

/-- The last output frame of a stream that STREAM_STOP ends. -/
def Ctx.stopFrame (k : Ctx) (stopNow : Bool) (lastIn : W32) : W32 :=
  let opened := k.nextOut - 1
  let wanted := if lastIn.toNat < k.firstIn.toNat then opened else k.lastOut lastIn
  if stopNow || frameLt wanted opened then opened else wanted

/-- A stream that is to end after an output frame, and the descriptor that asked. -/
def State.stopAsked (s : State) (h : DescHdr) (last : W32) : State :=
  let s' := s.setCtx h.ctx.toNat { s.ctx h.ctx.toNat with state := .stopping }
  s'.setStream h.ctx.toNat { s'.stream h.ctx.toNat with stopAfter := some last, stopHdr := some h }

theorem exec_streamStop {stopNow : Bool} {lastIn : W32} (H : s.Sole h slot) (running : ((s.start h).ctx h.ctx.toNat).state = .running) :
    exec (.streamStop h stopNow lastIn) s =
      .next (((s.start h).stopAsked h (((s.start h).ctx h.ctx.toNat).stopFrame stopNow lastIn)).maybeEnd h.ctx.toNat) := by
  have goes : ((s.start h).ctx h.ctx.toNat).state ≠ .stopping := by rw [running]; exact nofun
  show execStreamStop h stopNow lastIn s = _
  unfold execStreamStop
  rw [H.runs]
  exact congrArg _ ((if_neg goes).trans (if_neg (not_not_intro running)))

theorem State.maybeEnd_ahead {last : W32} (asked : (s.stream c).stopAfter = some last)
    (ahead : (∃ r ∈ (s.stream c).frames, frameLt last r.frame = false) ∨ frameLt last (s.ctx c).nextOut = false) : s.maybeEnd c = s := by
  unfold State.maybeEnd
  dsimp only
  rw [asked]
  refine if_neg fun ends => ?_
  obtain ⟨-, opened, finished⟩ := ends
  rcases ahead with ⟨r, member, waits⟩ | waits
  · exact ne_true_of_eq_false waits (List.all_eq_true.1 finished r member)
  · exact ne_true_of_eq_false waits opened

theorem streamStopWaits : Claim.StreamStopWaits := by
  intro s h slot stopNow lastIn H c k opened wanted last running ahead
  let v := s.start h
  have same : v.ctx c = k := H.start_ctx c
  let u := v.stopAsked h (k.stopFrame stopNow lastIn)
  have stream : u.stream c = { s.stream c with stopAfter := some last, stopHdr := some h } := by
    refine (State.setStream_stream ..).trans ?_
    rw [State.setCtx_stream, H.start_stream]
    rfl
  have ctx : u.ctx c = { k with state := .stopping } := by
    refine (State.setStream_ctx ..).trans ((State.setCtx_ctx ..).trans ?_)
    exact congrArg (fun k : Ctx => { k with state := .stopping }) same
  have rings : u.ringView h.sq.val = v.ringView h.sq.val := rfl
  obtain ⟨-, -, -, ring, -⟩ := State.ringView_iff.1 rings
  have waits : u.maybeEnd c = u := by
    refine State.maybeEnd_ahead (congrArg Stream.stopAfter stream) ?_
    rw [stream, ctx]
    exact ahead
  have ends := exec_streamStop (stopNow := stopNow) (lastIn := lastIn) H ((congrArg Ctx.state same).trans running)
  rw [same] at ends
  refine ⟨u, ends.trans (congrArg _ waits), congrArg Ctx.state ctx, ?_⟩
  rw [stream]
  exact ⟨rfl, rfl, rfl, congrArg SubRing.inflight ring⟩

end Sys2Proof.Machine

namespace Sys2Proof
open Machine

/-- Settles O13: the set is taken up with every working area placed where its fronds are still, and a STREAM_STOP leaves a stream with a frame ahead. -/
theorem streamStartStop : Obligations.StreamStartStop := ⟨streamStartRuns, streamStopWaits⟩

end Sys2Proof
end

