-- ==== Sys2Proof/Proofs/FrameSubmission.lean ====
section
/-! FRAME_SUBMIT joins a frame to its context; whatever its staging moves, the contexts' frames stand (R275, R388, R389). -/

namespace Sys2Proof.Machine

variable {s t : State} {h : DescHdr} {slot c d : Nat}

/-! ### Transfers leave the contexts alone (R261, R267) -/

theorem State.ctxs_foldl {α : Type} (F : State → α → State) (same : ∀ s x, (F s x).ctxs = s.ctxs) (l : List α) : (l.foldl F s).ctxs = s.ctxs :=
  List.foldlRecOn (motive := fun t : State => t.ctxs = s.ctxs) _ _ rfl fun t h x _ => (same t x).trans h

theorem State.count_ctxs (idx n : Nat) : (s.count idx n).ctxs = s.ctxs := by
  have counted : (s.count idx n).uncounted.ctxs = s.uncounted.ctxs := congrArg State.ctxs (State.uncounted_count idx n)
  exact counted

theorem State.poisonHbm_ctxs (a n : Nat) : (s.poisonHbm a n).ctxs = s.ctxs := by
  have blurred (u : State) (p : Prop) [Decidable p] (a n : Nat) : (if p then u else u.blurHbm a n).ctxs = u.ctxs := by split <;> rfl
  exact (blurred ..).trans (blurred ..)

theorem State.clearCovered_ctxs (sp : Space) (l : List (Nat × Nat)) : (s.clearCovered sp l).ctxs = s.ctxs := by
  unfold State.clearCovered
  split <;> rfl

theorem State.spaceWrite_ctxs (sp : Space) (a : Nat) (l : List Byte) (bad : Bool) : (s.spaceWrite sp a l bad).ctxs = s.ctxs := by
  unfold State.spaceWrite
  split
  · dsimp only
    split
    · exact poisonHbm_ctxs ..
    · rfl
  · split <;> rfl
  · rfl

theorem State.walkWrite_ctxs (sp : Space) (w : Walk) (b : Nat) (l : List Byte) (bad : Bool) : (s.walkWrite sp w b l bad).ctxs = s.ctxs := by
  have written := List.foldlRecOn (motive := fun acc : State × List Byte => acc.1.ctxs = s.ctxs) (w.pieces b l.length)
    (fun acc p => (acc.1.spaceWrite sp p.1 (acc.2.take p.2) bad, acc.2.drop p.2)) (b := (s, l)) rfl fun acc same p _ => (spaceWrite_ctxs ..).trans same
  unfold State.walkWrite
  dsimp only
  split
  · exact written
  · exact (clearCovered_ctxs ..).trans written

theorem State.requestPage_ctxs (page : Nat) : (s.requestPage page).ctxs = s.ctxs := by
  unfold State.requestPage
  split
  · rfl
  · exact count_ctxs ..

theorem State.xferUnits_ctxs (x : Xfer) (n : Nat) : (s.xferUnits x n).ctxs = s.ctxs := by
  unfold State.xferUnits
  rw [clearCovered_ctxs]
  exact List.foldlRecOn (motive := fun acc : State × List (Nat × Nat) => acc.1.ctxs = s.ctxs) _ _ rfl fun acc same i _ => (walkWrite_ctxs ..).trans same

theorem State.xferMove_ctxs (x : Xfer) : (s.xferMove x).1.ctxs = s.ctxs := by
  unfold State.xferMove
  dsimp only
  split
  · exact xferUnits_ctxs ..
  · rw [apply_ite State.ctxs, count_ctxs, ite_self, requestPage_ctxs, xferUnits_ctxs]

theorem State.lineEnded_ctxs (n bind : Nat) (frame : W32) (dropped : Bool) : (s.lineEnded n bind frame dropped).ctxs = s.ctxs := by
  unfold State.lineEnded
  dsimp only
  rw [apply_ite State.ctxs, count_ctxs, ite_self, State.setComp_ctxs]

theorem State.xferStands_ctxs (m : Nat) (x : Xfer) : (s.xferStands m x).ctxs = s.ctxs := by
  unfold State.xferStands
  split
  · split
    · exact lineEnded_ctxs ..
    · exact State.setMover_ctxs ..
  · exact State.setMover_ctxs ..

theorem State.moverFill_ctxs (fuel m : Nat) : (State.moverFill fuel s m).ctxs = s.ctxs := by
  induction fuel generalizing s with
  | zero => rfl
  | succ fuel ih =>
    unfold State.moverFill
    dsimp only
    split
    · rfl
    · split
      · rfl
      · rw [ih, xferStands_ctxs, xferMove_ctxs, State.setMover_ctxs]

theorem State.post_ctxs (x : Xfer) : (s.post x).ctxs = s.ctxs := by
  have numbered (t : State) (n : Nat) : ({ t with nextXfer := n } : State).ctxs = t.ctxs := rfl
  unfold State.post
  split
  · rfl
  · dsimp only
    rw [moverFill_ctxs, numbered, State.setMover_ctxs]

/-! ### Staging leaves the submissions alone (R274, R388) -/

/-- The last frame submitted to a context, and its frame jobs by number and header. -/
def State.submitted (s : State) (c : Nat) : Option W32 × List (W32 × Option DescHdr) :=
  ((s.ctx c).lastSubmit, (s.ctx c).frames.map (fun j => (j.frame, j.hdr)))

theorem State.submitted_of_ctxs (same : t.ctxs = s.ctxs) : t.submitted c = s.submitted c :=
  congrArg (fun l : Tbl Ctx => ((l.get c {}).lastSubmit, (l.get c {}).frames.map (fun j => (j.frame, j.hdr)))) same

theorem State.modJob_submitted (input : W32) {g : FrameJob → FrameJob} (keeps : ∀ j, (g j).frame = j.frame ∧ (g j).hdr = j.hdr) :
    (s.modJob d input g).submitted c = s.submitted c := by
  unfold State.submitted State.modJob
  dsimp only
  by_cases here : c = d
  · rw [here, State.setCtx_ctx, List.map_map]
    refine congrArg (Prod.mk _) (List.map_congr_left fun j _ => ?_)
    dsimp only [Function.comp]
    split
    · rw [(keeps j).1, (keeps j).2]
    · rfl
  · rw [State.setCtx_ctx_other _ _ _ _ here]

theorem State.stageFrame_submitted (j : FrameJob) : (s.stageFrame d j).submitted c = s.submitted c := by
  unfold State.stageFrame
  split
  · exact (State.submitted_of_ctxs (State.ctxs_foldl _ (fun _ _ => State.post_ctxs _) _)).trans (State.modJob_submitted _ fun _ => ⟨rfl, rfl⟩)
  · rfl

theorem State.stageDue_submitted : (s.stageDue d).submitted c = s.submitted c := by
  refine List.foldlRecOn (motive := fun t : State => t.submitted c = s.submitted c) _ _ rfl fun t same j _ => ?_
  split
  · exact same
  · split
    · exact (State.stageFrame_submitted j).trans same
    · exact same

/-- Some job of a context has this frame and header. -/
theorem State.submitted_any (frame : W32) : (s.ctx c).frames.any (fun j => decide (j.frame = frame) && decide (j.hdr = some h))
    = (s.submitted c).2.any (fun p => decide (p.1 = frame) && decide (p.2 = some h)) := by
  unfold State.submitted
  rw [List.any_map]
  rfl

/-! ### FRAME_SUBMIT (R388, R389) -/

/-- The job of a frame as FRAME_SUBMIT leaves it. -/
def submittedJob (h : DescHdr) (b : FrameBody) (held : Nat) : FrameJob :=
  { hdr := some h, frame := b.frame, exts := [b.ext0, b.ext1, b.ext2, b.ext3], body := some b, xfers := [], begun := false, staged := false
    status := stOk, held := held, run := 0, finished := false, sat := 0, ufl := 0, cause := 0 }

/-- A stream forgets its unsubmitted frames up to the one that a FRAME_SUBMIT names. -/
def State.named (s : State) (c : Nat) (frame : W32) : State :=
  s.setStream c { s.stream c with unsubmitted := (s.stream c).unsubmitted.filter (fun p => decide (frame.toNat < p.1.toNat)) }

/-- The frame governs an output frame still ahead (R389). -/
def Ctx.governsAhead (k : Ctx) (frame : W32) : Bool :=
  decide (k.firstIn.toNat ≤ frame.toNat) && frameLe (k.firstOut frame) (k.lastOut frame) && frameLe k.nextOut (k.lastOut frame)

section
variable {b : FrameBody} (H : s.Sole h slot) (room : (framePlanes b).length ≤ s.moverRoom) (first : s.copyAhead h = false)
  (live : liveCtx h.ctx.toNat = true) (running : ((s.start h).ctx h.ctx.toNat).state = .running)
  (own : bitOf ((s.start h).ctx h.ctx.toNat).slots 3 = false) (ok : (s.start h).submitOk ((s.start h).ctx h.ctx.toNat) h.srcHbm b = true)
include H room first live running own ok

/-- The state in which a FRAME_SUBMIT that is in order is decided. -/
theorem exec_frameSubmit {t : State}
    (outcome : let v := s.start h
      let c := h.ctx.toNat
      let k := { v.ctx c with lastSubmit := some b.frame }
      let held := v.heldBefore c b.frame
      (if !k.governsAhead b.frame then ((v.named c b.frame).setCtx c k).completeWith h opFrameSubmit stOk b.frame 0
          (BitVec.ofNat 32 (min 0xFFFF (held + ((v.named c b.frame).setCtx c k).heldNow c b.frame))) 0
        else ((v.named c b.frame).setCtx c { k with frames := k.frames ++ [submittedJob h b held] }).stageDue c) = t) :
    exec (.frameSubmit h b) s = .next t := by
  have starts : ¬(s.moverRoom < (framePlanes b).length || s.copyAhead h) = true := by
    rw [first, decide_eq_false (Nat.not_lt.2 room)]
    exact Bool.false_ne_true
  have serves : ¬(!liveCtx h.ctx.toNat || decide (((s.start h).ctx h.ctx.toNat).state ≠ .running) || bitOf ((s.start h).ctx h.ctx.toNat).slots 3) = true := by
    rw [live, own, decide_eq_false (not_not_intro running)]
    exact Bool.false_ne_true
  have formed : ¬(!(s.start h).submitOk ((s.start h).ctx h.ctx.toNat) h.srcHbm b) = true := by
    rw [ok]
    exact Bool.false_ne_true
  show execFrameSubmit h b s = _
  unfold execFrameSubmit
  rw [if_neg starts, H.runs]
  exact congrArg _ ((if_neg serves).trans ((if_neg formed).trans outcome))

end

theorem State.ringView_named (frame : W32) (k : Ctx) (r : Nat) : ((s.named c frame).setCtx d k).ringView r = s.ringView r := rfl

theorem frameSubmitJoins : Claim.FrameSubmitJoins := by
  intro s h slot b H c v k ahead room first live running own ok
  have same : ({ k with lastSubmit := some b.frame } : Ctx).governsAhead b.frame = ahead := rfl
  rcases Bool.eq_false_or_eq_true ahead with value | value
  · have staged : ¬(!({ k with lastSubmit := some b.frame } : Ctx).governsAhead b.frame) = true := by
      rw [same, value]
      exact Bool.false_ne_true
    refine ⟨_, exec_frameSubmit H room first live running own ok (if_neg staged), ?_⟩
    let j := submittedJob h b (v.heldBefore c b.frame)
    let t := (v.named c b.frame).setCtx c { k with lastSubmit := some b.frame, frames := k.frames ++ [j] }
    have kept : (t.stageDue c).submitted c = t.submitted c := State.stageDue_submitted
    have ctx : t.ctx c = { k with lastSubmit := some b.frame, frames := k.frames ++ [j] } := State.setCtx_ctx ..
    refine ⟨(congrArg Prod.fst kept).trans (congrArg Ctx.lastSubmit ctx), ?_⟩
    rw [if_pos value]
    refine (State.submitted_any _).trans ?_
    rw [kept, ← State.submitted_any, ctx]
    simp [j, submittedJob]
  · have past : (!({ k with lastSubmit := some b.frame } : Ctx).governsAhead b.frame) = true := by
      rw [same, value]
      rfl
    refine ⟨_, exec_frameSubmit H room first live running own ok (if_pos past), ?_⟩
    obtain ⟨done, reports⟩ := H.completesWith (State.ringView_named (s := v) (c := c) (d := c) b.frame { k with lastSubmit := some b.frame } h.sq.val)
      opFrameSubmit stOk_admitted b.frame 0 (BitVec.ofNat 32 (min 0xFFFF (v.heldBefore c b.frame
        + ((v.named c b.frame).setCtx c { k with lastSubmit := some b.frame }).heldNow c b.frame))) 0
    rw [done, if_neg (ne_true_of_eq_false value), State.reported_ctx, State.setCtx_ctx]
    exact ⟨rfl, rfl, reports⟩

end Sys2Proof.Machine
end

