-- ==== Sys2Proof/Proofs/FrameStaging.lean ====
section
/-! FRAME_STAGED marks a frame; an output frame that stood unstaged at its first release, at this very instant, is released again (R24 to R26, R275). -/

namespace Sys2Proof.Machine

variable {s t : State} {c : Nat} {r q : FrameRun} {input : W32}

/-! ### What the release of a stream's stripes reads (R25) -/

/-- The governing output of context c, with its generator and its beam lead. -/
def State.clock (s : State) (c : Nat) : Nat × Tg × LschOut := (s.outOf c, s.tg (s.outOf c), s.out (s.outOf c))

/-- The clock of context c, the output frame that its stream opens next and its frames in progress. -/
def State.runView (s : State) (c : Nat) : (Nat × Tg × LschOut) × W32 × List FrameRun := (s.clock c, (s.ctx c).nextOut, (s.stream c).frames)

theorem State.runView_of_uncounted (same : t.uncounted = s.uncounted) : t.runView c = s.runView c := by
  show t.uncounted.runView c = s.uncounted.runView c
  rw [same]

theorem State.runView_count (idx n : Nat) : (s.count idx n).runView c = s.runView c := State.runView_of_uncounted (State.uncounted_count idx n)
theorem State.runView_setFrond (f : Nat) (x : Frond) : (s.setFrond f x).runView c = s.runView c := rfl
theorem State.runView_sporeWrite (off : Nat) (l : List Byte) : (s.sporeWrite off l).runView c = s.runView c := rfl
theorem State.clock_setStream (x : Stream) : (s.setStream c x).clock c = s.clock c := rfl

theorem State.clock_setCtx {k : Ctx} (same : k.output = (s.ctx c).output) : (s.setCtx c k).clock c = s.clock c := by
  have out : (s.setCtx c k).outOf c = s.outOf c := by
    unfold State.outOf
    rw [State.setCtx_ctx, same]
    rfl
  unfold State.clock
  rw [out]
  rfl

theorem State.runView_setStream (x : Stream) : (s.setStream c x).runView c = (s.clock c, (s.ctx c).nextOut, x.frames) := by
  unfold State.runView
  rw [State.clock_setStream, State.setStream_ctx, State.setStream_stream]

theorem State.runView_setCtx {k : Ctx} (same : k.output = (s.ctx c).output) : (s.setCtx c k).runView c = (s.clock c, k.nextOut, (s.stream c).frames) := by
  unfold State.runView
  rw [State.clock_setCtx same, State.setCtx_ctx, State.setCtx_stream]

theorem State.runView_setStream_same {x : Stream} (same : x.frames = (s.stream c).frames) : (s.setStream c x).runView c = s.runView c := by
  rw [State.runView_setStream, same]
  rfl

theorem State.runView_setCtx_same {k : Ctx} (output : k.output = (s.ctx c).output) (next : k.nextOut = (s.ctx c).nextOut) :
    (s.setCtx c k).runView c = s.runView c := by
  rw [State.runView_setCtx output, next]
  rfl

theorem State.runView_iff {v : Nat × Tg × LschOut} {next : W32} {l : List FrameRun} :
    s.runView c = (v, next, l) ↔ s.clock c = v ∧ (s.ctx c).nextOut = next ∧ (s.stream c).frames = l := by
  simp only [State.runView, Prod.mk.injEq]

theorem State.runView_foldl {α : Type} (F : State → α → State) (same : ∀ s x, (F s x).runView c = s.runView c) (l : List α) : (l.foldl F s).runView c = s.runView c :=
  List.foldlRecOn (motive := fun t : State => t.runView c = s.runView c) _ _ rfl fun t h x _ => (same t x).trans h

theorem State.runView_takeShifts (frame : W32) : (s.takeShifts c frame).runView c = s.runView c := by
  unfold State.takeShifts
  extract_lets st due u
  have same : u.runView c = s.runView c := State.runView_setStream _
  split
  · exact same
  · refine (State.runView_setCtx ?_).trans same
    rfl

theorem State.runView_stripeCkpt (f : Nat) (frame : W32) (point : Nat) (taskNo : BitVec 16) : (s.stripeCkpt f c frame point taskNo).runView c = s.runView c := by
  have seen (u : State) : State.runView { u with lsch := { u.lsch with ckptOverSeen := true } } c = u.runView c := rfl
  unfold State.stripeCkpt
  split
  · rfl
  · dsimp only
    split
    · rw [State.runView_count, seen, State.runView_sporeWrite, State.runView_setFrond]
    · rw [State.runView_sporeWrite, State.runView_setFrond]

/-! ### Stripes whose release has come (R25) -/

/-- The release of a frame's next stripe has come. -/
def State.stripeDue (s : State) (c : Nat) (q : FrameRun) : Bool :=
  decide (q.needs.getD q.released 0 - s.beamLead (s.outOf c) - q.spacing ≤ s.placedOf (s.outOf c) q.frame)

theorem State.stripeDue_of_clock (same : t.clock c = s.clock c) : t.stripeDue c q = s.stripeDue c q := by
  simp only [State.clock, Prod.mk.injEq] at same
  obtain ⟨-, tg, out⟩ := same
  unfold State.stripeDue State.placedOf State.beamLead
  rw [tg, out]

theorem State.runView_releaseStripe (only : (s.stream c).frames = [q]) :
    (s.releaseStripe c q).runView c = (s.clock c, (s.ctx c).nextOut, [{ q with released := q.released + 1 }]) := by
  unfold State.releaseStripe
  extract_lets out n j u
  have same : u.runView c = s.runView c := State.runView_foldl _ (fun _ _ => State.runView_setFrond ..) _
  clear_value u
  obtain ⟨clock, next, frames⟩ := State.runView_iff.1 same
  rw [State.runView_count]
  refine (State.runView_setStream _).trans ?_
  dsimp only
  rw [clock, next, frames, only, List.map_singleton, if_pos rfl]

theorem State.frameRun_only (only : (s.stream c).frames = [q]) : s.frameRun c q.frame = some q := by
  unfold State.frameRun
  rw [only]
  exact List.find?_cons_of_pos (decide_eq_true rfl)

/-- With fuel for each of its stripes the only frame of a stream has every stripe released that is due. -/
theorem State.releaseDueStripes_runs (fuel : Nat) (only : (s.stream c).frames = [q]) (runs : q.dropped = false) (within : q.released ≤ q.total)
    (enough : q.total ≤ q.released + fuel) :
    ∃ n ≤ q.total, (State.releaseDueStripes fuel s c q.frame).runView c = (s.clock c, (s.ctx c).nextOut, [{ q with released := n }])
      ∧ (n < q.total → s.stripeDue c { q with released := n } = false) := by
  induction fuel generalizing s q with
  | zero => exact ⟨q.released, within, by rw [State.releaseDueStripes, State.runView, only], fun more => absurd more (Nat.not_lt.2 enough)⟩
  | succ fuel ih =>
    unfold State.releaseDueStripes
    rw [State.frameRun_only only]
    dsimp only
    split
    case isTrue due =>
      obtain ⟨more, -⟩ := Bool.and_eq_true_iff.1 due
      obtain ⟨clock, out, frames⟩ := State.runView_iff.1 (State.runView_releaseStripe only)
      obtain ⟨n, most, ends, waits⟩ := ih (q := { q with released := q.released + 1 }) frames runs
        (of_decide_eq_true (Bool.and_eq_true_iff.1 more).2) (by dsimp only; omega)
      rw [clock, out] at ends
      exact ⟨n, most, ends, fun less => (State.stripeDue_of_clock clock).symm.trans (waits less)⟩
    case isFalse held =>
      refine ⟨q.released, within, by rw [State.runView, only], fun more => Bool.eq_false_of_not_eq_true fun due => held ?_⟩
      rw [runs, decide_eq_true more]
      exact due

/-! ### The first release of a staged frame (R26) -/

theorem State.takeLite_none (lite : (s.stream c).liteNext = none) : s.takeLite c = s := by
  unfold State.takeLite
  dsimp only
  rw [lite]

/-- The stream of context c opens its next frame with no switch due: no rebinding, no change of line program, no resumption, no pass-through. -/
def State.opensPlainly (s : State) (c : Nat) : Prop :=
  (s.stream c).bindWait = none ∧ (s.stream c).liteNext = none ∧ (s.stream c).resumeAt = none ∧ (s.comp (s.outOf c)).passThrough = false
    ∧ (s.stream c).frames = []

theorem State.openFrame_runs (plain : s.opensPlainly c) (staged : s.isStaged c (s.inputOf c (s.ctx c).nextOut) (s.ctx c).nextOut = true) :
    ∃ q, (s.openFrame c).runView c = (s.clock c, (s.ctx c).nextOut + 1, [q]) ∧ q.frame = (s.ctx c).nextOut ∧ q.input = s.inputOf c (s.ctx c).nextOut
      ∧ q.dropped = false ∧ q.unrun = none ∧ q.released = 0 := by
  obtain ⟨bindWait, lite, resume, bright, idle⟩ := plain
  unfold State.openFrame
  rw [bindWait]
  extract_lets frame s1 s2 k out h geo readers input st quiet late inTime runs unrun u1 u2 u3 k1 u4 old u5 q last u6
  have same : s2 = s := State.takeLite_none lite
  clear_value s2
  subst same
  have awake : late = false := by
    show (Option.map _ (s2.stream c).resumeAt).getD false = false
    rw [resume]
    rfl
  have goes : runs = true := by
    show (!quiet && !late && inTime) = true
    rw [show quiet = false from bright, awake, show inTime = true from staged]
    rfl
  have told : unrun = none := by
    show (if (!quiet && !late && !inTime) = true then _ else _) = none
    rw [show inTime = true from staged, Bool.not_true, Bool.and_false]
    exact if_neg Bool.false_ne_true
  have v1 : u1.runView c = (s2.clock c, frame + 1, []) := by
    refine (State.runView_setCtx ?_).trans ?_
    · rfl
    · rw [idle]
  have v2 : u2.runView c = u1.runView c := by
    refine State.runView_setStream_same ?_
    show (s2.stream c).frames = ((s2.setCtx c _).stream c).frames
    rw [State.setCtx_stream]
  have v3 : u3.runView c = u2.runView c := by
    show (if runs = true then _ else _ : State).runView c = _
    rw [if_pos goes]
    exact State.runView_takeShifts _
  have v4 : u4.runView c = u3.runView c := by
    show (if _ then _ else _ : State).runView c = _
    split
    · refine State.runView_setCtx_same ?_ ?_ <;> rfl
    · rfl
  have v5 : u5.runView c = u4.runView c := by
    show (if runs = true then _ else _ : State).runView c = _
    rw [if_pos goes]
    refine State.runView_setStream_same ?_
    rfl
  obtain ⟨clock, next, frames⟩ := State.runView_iff.1 (v5.trans (v4.trans (v3.trans (v2.trans v1))))
  refine ⟨q, ?_, rfl, rfl, ?_, told, rfl⟩
  · rw [if_pos goes]
    refine (State.runView_foldl _ (fun u f => ?_) _).trans ?_
    · split
      · rfl
      · exact State.runView_stripeCkpt ..
    · refine (State.runView_setStream _).trans ?_
      dsimp only
      rw [clock, next, frames, List.nil_append]
  · exact congrArg not goes

/-! ### A frame is marked staged (R26, R275) -/

/-- The frame job of an input frame is marked. -/
def State.frameMarked (s : State) (c : Nat) (input : W32) : State := s.modJob c input (fun q => { q with staged := true })

/-- The output frame r that stood unstaged is taken back: the stream opens it again. -/
def State.takenBack (s : State) (c : Nat) (r : FrameRun) : State :=
  (s.setStream c { s.stream c with frames := (s.stream c).frames.filter (fun q => decide (q.frame ≠ r.frame)) }).setCtx c { s.ctx c with nextOut := r.frame }

/-- A frame run to which the staging of its input comes just in time. -/
def State.catches (s : State) (c : Nat) (input : W32) (r : FrameRun) : Bool :=
  decide (r.input = input) && decide (r.unrun = some s.dtb) && r.judged.isEmpty && decide (r.frame + 1 = (s.ctx c).nextOut)

theorem State.markStaged_eq : s.markStaged c input = match ((s.frameMarked c input).stream c).frames.find? ((s.frameMarked c input).catches c input) with
    | none => s.frameMarked c input
    | some r => State.releaseDueStripes (((((s.frameMarked c input).takenBack c r).openFrame c).frameRun c r.frame).elim 0 FrameRun.total)
        (((s.frameMarked c input).takenBack c r).openFrame c) c r.frame := rfl

theorem State.frameMarked_dtb : (s.frameMarked c input).dtb = s.dtb := rfl
theorem State.frameMarked_stream : (s.frameMarked c input).stream c = s.stream c := State.setCtx_stream ..

/-- The frame jobs of a context with those of an input frame marked. -/
def markJobs (input : W32) (l : List FrameJob) : List FrameJob := l.map (fun j => if j.frame = input then { j with staged := true } else j)

theorem State.frameMarked_ctx : (s.frameMarked c input).ctx c = { s.ctx c with frames := markJobs input (s.ctx c).frames } := State.setCtx_ctx ..

theorem find?_markJobs {l : List FrameJob} {j : FrameJob} (found : l.find? (fun j => decide (j.frame = input)) = some j) :
    ((markJobs input l).find? (fun j => decide (j.frame = input))).map FrameJob.staged = some true := by
  have here : j.frame = input := of_decide_eq_true (p := j.frame = input) (List.find?_some (p := fun j : FrameJob => decide (j.frame = input)) found)
  have same : (fun j : FrameJob => decide (j.frame = input)) ∘ (fun j => if j.frame = input then { j with staged := true } else j)
      = fun j : FrameJob => decide (j.frame = input) := by
    funext k
    dsimp only [Function.comp]
    split <;> rfl
  rw [markJobs, List.find?_map, same, found, Option.map_some, Option.map_some, if_pos here]

theorem State.haloDone_setCtx {k : Ctx} (same : k.outFrame = (s.ctx c).outFrame) (trigger : Bool) (d : Nat) (frame : W32) :
    (s.setCtx c k).haloDone trigger d frame = s.haloDone trigger d frame := by
  have out (i : Nat) : ((s.setCtx c k).ctx i).outFrame = (s.ctx i).outFrame := by
    by_cases here : i = c
    · rw [here, State.setCtx_ctx, same]
    · rw [State.setCtx_ctx_other _ _ _ _ here]
  unfold State.haloDone
  simp only [State.setCtx_halo, State.setCtx_strap, out]
  rfl

theorem State.haloDone_setStream (x : Stream) (trigger : Bool) (d : Nat) (frame : W32) :
    (s.setStream c x).haloDone trigger d frame = s.haloDone trigger d frame := rfl

theorem State.takenBack_runView (only : (s.stream c).frames = [r]) : (s.takenBack c r).runView c = (s.clock c, r.frame, []) := by
  unfold State.takenBack
  refine (State.runView_setCtx ?_).trans ?_
  · rfl
  · rw [State.clock_setStream, State.setStream_stream]
    dsimp only
    rw [only, List.filter_cons_of_neg (by simp), List.filter_nil]

/-- The stream as it opens frame r again, with the staging of its input marked. -/
def State.retried (s : State) (c : Nat) (r : FrameRun) : State := (s.frameMarked c r.input).takenBack c r

theorem State.retried_ctx : (s.retried c r).ctx c = { s.ctx c with frames := markJobs r.input (s.ctx c).frames, nextOut := r.frame } := by
  unfold State.retried State.takenBack
  rw [State.setCtx_ctx, State.frameMarked_ctx]

theorem State.retried_runView (only : (s.stream c).frames = [r]) : (s.retried c r).runView c = (s.clock c, r.frame, []) := by
  unfold State.retried
  rw [State.takenBack_runView (by rw [State.frameMarked_stream, only])]
  refine congrArg (·, r.frame, []) (State.clock_setCtx ?_)
  rfl

theorem State.retried_haloDone (trigger : Bool) (frame : W32) : (s.retried c r).haloDone trigger c frame = s.haloDone trigger c frame := by
  unfold State.retried State.takenBack
  refine (State.haloDone_setCtx ?_ ..).trans ((State.haloDone_setStream ..).trans (State.haloDone_setCtx ?_ ..))
  · rfl
  · rfl

theorem State.retried_inputOf (frame : W32) : (s.retried c r).inputOf c frame = s.inputOf c frame := by
  unfold State.inputOf
  rw [State.retried_ctx]

theorem State.retried_isStaged {j : FrameJob} (job : (s.ctx c).frameJob r.input = some j) (pushed : s.haloDone true c (r.frame - 1) = true) :
    (s.retried c r).isStaged c r.input r.frame = true := by
  unfold State.isStaged Ctx.frameJob
  rw [State.retried_haloDone, pushed, State.retried_ctx, find?_markJobs job]
  rfl

theorem State.retried_plain (only : (s.stream c).frames = [r]) (bright : (s.comp (s.outOf c)).passThrough = false) (resume : (s.stream c).resumeAt = none)
    (wait : (s.stream c).bindWait = none) (lite : (s.stream c).liteNext = none) : (s.retried c r).opensPlainly c := by
  obtain ⟨clock, -, frames⟩ := State.runView_iff.1 (State.retried_runView only)
  have stream : (s.retried c r).stream c = { s.stream c with frames := (s.stream c).frames.filter (fun q => decide (q.frame ≠ r.frame)) } := by
    unfold State.retried State.takenBack
    rw [State.setCtx_stream, State.setStream_stream, State.frameMarked_stream]
  have out : (s.retried c r).outOf c = s.outOf c := congrArg Prod.fst clock
  refine ⟨?_, ?_, ?_, ?_, frames⟩
  · rw [stream, wait]
  · rw [stream, lite]
  · rw [stream, resume]
  · rw [out]
    exact bright

theorem exec_frameStaged {d : Fin 48} {j : FrameJob} (awake : s.inert = false) (job : (s.ctx d.val).frameJob input = some j) (begun : j.begun = true)
    (moved : j.xfers = []) (ok : j.status = stOk) (pushed : s.haloDone false d.val input = true) :
    exec (.frameStaged d input) s = .next (s.markStaged d.val input) := by
  have due : (j.begun && j.xfers.isEmpty && decide (j.status = stOk) && s.haloDone false d.val input) = true := by
    rw [begun, moved, ok, pushed]
    rfl
  show execFrameStaged d input s = _
  unfold execFrameStaged
  rw [unlessInert_awake awake, job]
  exact congrArg _ (if_pos due)

theorem State.frameMarked_catches {d : W32} : (s.frameMarked c d).catches c input r = true ↔
    ((r.input = input ∧ r.unrun = some s.dtb) ∧ r.judged.isEmpty = true) ∧ r.frame + 1 = (s.ctx c).nextOut := by
  unfold State.catches
  simp only [Bool.and_eq_true, decide_eq_true_eq]
  rw [State.frameMarked_ctx, State.frameMarked_dtb]

theorem State.markStaged_plain (sent : ∀ r ∈ (s.stream c).frames, r.unrun ≠ some s.dtb) : s.markStaged c input = s.frameMarked c input := by
  have missed : ((s.frameMarked c input).stream c).frames.find? ((s.frameMarked c input).catches c input) = none := by
    rw [State.frameMarked_stream]
    refine List.find?_eq_none.2 fun r member caught => sent r member ?_
    obtain ⟨⟨⟨-, unrun⟩, -⟩, -⟩ := State.frameMarked_catches.1 caught
    exact unrun
  rw [State.markStaged_eq, missed]

theorem State.markStaged_again (only : (s.stream c).frames = [r]) (unrun : r.unrun = some s.dtb) (judged : r.judged = [])
    (next : r.frame + 1 = (s.ctx c).nextOut) :
    s.markStaged c r.input = State.releaseDueStripes ((((s.retried c r).openFrame c).frameRun c r.frame).elim 0 FrameRun.total)
        ((s.retried c r).openFrame c) c r.frame := by
  have caught : (s.frameMarked c r.input).catches c r.input r = true :=
    State.frameMarked_catches.2 ⟨⟨⟨rfl, unrun⟩, List.isEmpty_iff.2 judged⟩, next⟩
  have found : ((s.frameMarked c r.input).stream c).frames.find? ((s.frameMarked c r.input).catches c r.input) = some r := by
    rw [State.frameMarked_stream, only, List.find?_cons_of_pos caught]
  rw [State.markStaged_eq, found]
  rfl

theorem frameStagedMarks : Claim.FrameStagedMarks := by
  intro s c frame j awake job begun moved ok pushed st
  have runs := exec_frameStaged awake job begun moved ok pushed
  refine ⟨fun sent => runs.trans (congrArg _ (State.markStaged_plain sent)), ?_⟩
  intro r only input unrun judged next governs bright resume wait lite before
  subst input
  obtain ⟨clock, back, -⟩ := State.runView_iff.1 (State.retried_runView only)
  have staged := State.retried_isStaged job before
  rw [← governs, ← State.retried_inputOf (r := r)] at staged
  obtain ⟨q, opened, frame, input, kept, told, fresh⟩ :=
    State.openFrame_runs (State.retried_plain only bright resume wait lite) (by rw [back]; exact staged)
  rw [back, State.retried_inputOf, governs] at input
  rw [back] at frame opened
  rw [clock, next] at opened
  obtain ⟨clock', out, frames⟩ := State.runView_iff.1 opened
  obtain ⟨n, within, released, waits⟩ := State.releaseDueStripes_runs q.total frames kept (fresh ▸ Nat.zero_le _) (Nat.le_add_left ..)
  have again := State.markStaged_again only unrun judged next
  rw [← frame, State.frameRun_only frames, Option.elim_some] at again
  obtain ⟨-, next', frames'⟩ := State.runView_iff.1 released
  refine ⟨_, runs.trans (congrArg _ again), next'.trans out, { q with released := n }, frames', frame, input, kept, told, within, fun less => ?_⟩
  have held := (State.stripeDue_of_clock clock').symm.trans (waits less)
  rw [← frame]
  exact eq_false (of_decide_eq_false held)

end Sys2Proof.Machine

namespace Sys2Proof
open Machine

/-- Settles O14: a frame submitted joins those of its context, and a frame staged just in time opens its output frame again. -/
theorem frameSubmission : Obligations.FrameSubmission := ⟨frameSubmitJoins, frameStagedMarks⟩

end Sys2Proof
end
